-- ==== Sys2Proof/Word.lean ====
section
/-! DEFINITION. The word types of the Tizia 2200 (R5) and their plainest arithmetic. -/

namespace Sys2Proof

/-- One byte of memory, of a pool row or of a flit (R5). -/
abbrev Byte := BitVec 8

/-- One Echeder instruction word (R41). -/
abbrev IWord := BitVec 64

/-- One 32-bit word of a configuration stream (R32). -/
abbrev CWord := BitVec 32

/-- A 64-byte operand value, flit, line or row (R5). -/
abbrev Value := BitVec 512

/-- A recovery interval number, counted modulo 2^32 (R301). -/
abbrev Rin := BitVec 32

/-- Bits [lo+len-1:lo] of a number (R5, R9). -/
def natBits (n lo len : Nat) : Nat := n / 2 ^ lo % 2 ^ len

/-- Little-endian bytes of a number, `k` of them (R5). -/
def natBytes : Nat → Nat → List Byte
  | 0, _ => []
  | k + 1, n => BitVec.ofNat 8 n :: natBytes k (n / 256)

/-- The number that little-endian bytes hold (R5). -/
def bytesNat : List Byte → Nat
  | [] => 0
  | b :: bs => b.toNat + 256 * bytesNat bs

end Sys2Proof
end

