-- ==== Sys2Proof/Syntax.lean ====
section
/-! DEFINITION. The syntax of the machine's steps: the Echeder instructions of R57 to R60 with their fields
pulled out of the word (R41 to R48), and the operations and events of the device, one constructor for each row of
the opcode table. An event's arguments name the agent it concerns and carry what comes from outside the machine; the steps
of the packet pipeline, the mailbox commands, the seal messages and the management messages take theirs from the state,
where the input that brings them has put them (Machine/State.lean, Input). -/

namespace Sys2Proof

/-- PM, instruction bits [49:48] (R41, R45). -/
inductive Pm where
  | always | onTrue | onFalse
deriving DecidableEq, Repr

/-- A target byte (R44): kinds 000 to 110 with their index. -/
inductive Target where
  | none
  | opA (n : BitVec 5) | opB (n : BitVec 5) | opC (n : BitVec 5) | pred (n : BitVec 5)
  | write (n : BitVec 5)
  | out (n : BitVec 5)
deriving DecidableEq, Repr

/-- The fields every Echeder instruction has: PM, T0 and T1 (R41). -/
structure Head where
  pm : Pm
  t0 : Target
  t1 : Target
deriving DecidableEq, Repr

/-- Integer width codes EC[2:0], 000 to 110 (R42). -/
inductive IntW where
  | s64 | s32 | v32 | h16 | b8 | q4 | d64
deriving DecidableEq, Repr

/-- An integer element code: EC[3] and EC[2:0] with EC[4] = 0 (R42). -/
structure IntEC where
  z : Bool
  w : IntW
deriving DecidableEq, Repr

/-- The eight floating formats, in the order of their codes 000 to 111 (R42, R68). -/
inductive Fmt where
  | f64 | f32 | bf16 | f16 | e4m3 | e5m2 | e2m1 | e8m0
deriving DecidableEq, Repr

/-- A floating element code: EC[3] (1 is scalar) and the format, with EC[4] = 1 (R42). -/
structure FltEC where
  scalar : Bool
  f : Fmt
deriving DecidableEq, Repr

/-- An element code of either kind, as the lane and stream rows take it (R59, R217). -/
inductive EC where
  | int (e : IntEC)
  | flt (e : FltEC)
deriving DecidableEq, Repr

/-- The conditions of `test`, `waitm` and WAIT, codes 0 to 9 (R57, R88, R299). -/
inductive Cond where
  | eq | ne | lt | le | gt | ge | lo | ls | hi | hs
deriving DecidableEq, Repr

/-- The conditions of `ftest`, codes 0 to 7 (R205). -/
inductive FCond where
  | eq | ne | lt | le | gt | ge | un | or
deriving DecidableEq, Repr

/-- Access codes (R56, R253). -/
inductive AC where
  | z8 | z16 | z32 | z64 | s8 | s16 | s32 | v | l
deriving DecidableEq, Repr

/-- Scopes 001 to 101 (R48). -/
inductive Scope where
  | core | cluster | lease | device | system
deriving DecidableEq, Repr

/-- The memory format's fields (R47): SC, LSID, OSC (none is code 000) and the signed offset. -/
structure MemF where
  sc : Bool
  lsid : BitVec 5
  osc : Option Scope
  ofs : BitVec 24
deriving DecidableEq, Repr

/-- The conversion IMM (R207). -/
structure CvtF where
  pos : BitVec 4
  merge : Bool
  sat : Bool
  rnd : BitVec 3
  z : Bool
  fmt : BitVec 3
deriving DecidableEq, Repr

/-- Operations of `redl`, `scanl`, `accs` and `redn`, codes 0 to 5 (R219). -/
inductive RedOp where
  | add | min | max | and | or | xor
deriving DecidableEq, Repr

/-- Operations of the atomics, codes 0 to 12 (R60). -/
inductive AtOp where
  | add | and | or | xor | min | max | minz | maxz | swap | cas | fadd | fmin | fmax
deriving DecidableEq, Repr

/-- A seal message (R311). -/
structure SealMsg where
  ty : BitVec 4
  irr : Bool
  domain : BitVec 16
  rin : Rin
  device : BitVec 12
  time : BitVec 64
deriving DecidableEq, Repr

/-- What a message over a peer port is (R291, R352, R377): a channel flit; a waiter registered on, or taken off, a signal of the
destination lease, by lease-local address; word of a write to a signal, with its sequence number where it has been forwarded; the sending
lease's new device, identity and generation, to which tables and bindings are to point, and the answer; a patch that has moved within its
lease, by its old rectangle and its new origin (R113); or word of a flit that was dropped, its lease not being paired (R377). -/
inductive PeerMsg where
  | flit
  | register (a : Nat)
  | unregister (a : Nat)
  | released (a : Nat) (seq : Option Nat)
  | retarget (device lease gen : Nat)
  | retargeted
  | moved (x y w h nx ny : Nat)
  | dropped
deriving DecidableEq, Repr

/-- A flit or a message that arrives over a peer port (R377, R378): where it goes, whose it is, and what it carries. -/
structure PeerFlit where
  destDevice : Nat
  destLease : Nat
  destGen : Nat
  srcDevice : Nat
  srcLease : Nat
  px : Nat
  py : Nat
  chan : Nat
  kind : BitVec 4
  value : Value
  rin : Rin
  msg : PeerMsg := .flit
deriving DecidableEq, Repr

/-- The arguments of MAP (R226 to R228): the entries to write over a range, as leaves of 512 MiB or of 64 KiB. -/
structure MapArgs where
  big : Bool
  va : Nat
  size : Nat
  pa : Nat
  dest : Nat
  peer : Nat
  tier : Bool
  recov : Bool
  x : Bool
  w : Bool
  r : Bool
deriving DecidableEq, Repr

/-- One lease's new origin in a press (R114), or one patch's. -/
structure PressMove where
  patch : Bool
  id : Nat
  x : Nat
  y : Nat
deriving DecidableEq, Repr

/-- What an uncorrectable error strikes (R326): a device-memory line by physical address, a pool row of a core, or a line of eight entries
of a lease's page table by level (R226). -/
inductive ErrorSite where
  | line (pa : Nat)
  | row (core row : Nat)
  | table (lease level line : Nat)
deriving DecidableEq, Repr

/-- A firmware image with its two signatures and its security version (R382). -/
structure Image where
  bytes : List Byte
  rsa : List Byte
  slh : List Byte
  version : Nat
deriving DecidableEq, Repr

/-- A mailbox command with its arguments (R371, R372). The lease is in CMD bytes 2 and 3 (R371); VFCONF, OWNER and PWRCAP are read
from the CMD bytes themselves (R373 to R375). -/
inductive CmdArgs where
  | map (a : MapArgs)
  | unmap (va : Nat) (size : Nat)
  | protect (va : Nat) (size : Nat) (r : Bool) (w : Bool) (x : Bool) (recov : Bool)
  | migrate (va : Nat) (size : Nat) (pa : Nat) (tier : Bool)
  | debug (on : Bool)
  | dresume
  | profopen (va : Nat) (size : Nat)
  | profclose
  | peerbind (px : Nat) (py : Nat) (out : Nat) (device : Nat) (rlease : Nat) (rx : Nat) (ry : Nat) (rin : Nat)
  | peerunbind (px : Nat) (py : Nat) (out : Nat)
  | window (pa : Nat)
  | faults (va : Nat)
  | report (owner : Nat) (va : Nat) (nonce : List Byte)
  | attest (va : Nat) (nonce : List Byte)
  | qconf (q : Nat) (vf : Nat) (owner : Nat) (prio : Nat) (size : Nat) (posters : List Nat)
  | vfconf
  | pair (device : Nat) (rlease : Nat) (rgen : Nat)
  | lmigrate (device : Nat) (newLease : Nat) (newGen : Nat)
  | domain (ident : Nat) (coordinator : Nat) (device : Nat) (members : List Nat) (routes : List (Nat × Nat))
  | dremove (device : Nat)
  | owner
  | pwrcap
deriving DecidableEq, Repr

/-- A message of the management bus, or the images a module cold reset starts from (R384, R385, R388). -/
inductive MgmtMsg where
  | meterReset (msg : List Byte)
  | keyroll (msg : List Byte)
  | firmwareTransfer (component : Nat) (image : Image)
  | firmwareActivate (component : Nat)
  | coldReset (images : List Image)
deriving DecidableEq, Repr

/-- The steps of the machine, one constructor for each row of the opcode table (and `svcReserved` for the services
5 to 255 of R345, which the table gives no row of their own). -/
inductive Instr where
  /-- PACKET_WRITE (R83). -/
  | packetWrite (fn q off : Nat) (data : List Byte)
  /-- RESUME (R85). -/
  | resume (fn q : Nat) (v : BitVec 32)
  /-- CHEAD (R85). -/
  | chead (fn q : Nat) (v : BitVec 32)
  /-- REGISTER_WRITE (R6, R371). -/
  | registerWrite (fn off len : Nat) (v : BitVec 64)
  /-- INGEST (R96). -/
  | ingest (q : Nat)
  /-- MOVE (R113). -/
  | move (pt x y : Nat)
  /-- PRESS (R114). -/
  | press (moves : List PressMove)
  /-- EVICT (R112). -/
  | evict (pt : Nat)
  /-- RESTORE (R112). -/
  | restore (pt x y : Nat)
  /-- RINSE (R112). -/
  | rinse (lease : Nat)
  /-- RINSE_DONE (R104). -/
  | rinseDone (lease : Nat)
  /-- DARN (R117). -/
  | darn (cl pos : Nat)
  /-- STRIP_CORE_FAILURE (R15). -/
  | stripCoreFailure (y : Nat)
  /-- MISROUTE_REPORT_TIMER (R111). -/
  | misrouteReportTimer (cid out : Nat)
  /-- PLEAT_HANDSHAKE_STEP (R129). -/
  | pleatHandshakeStep (cid : Nat)
  /-- CONTEXT_REQUEST (R140). -/
  | contextRequest (cid out : Nat)
  /-- CONTEXT_TRANSITION (R143). -/
  | contextTransition (pt : Nat)
  /-- TASK_START (R145). -/
  | taskStart (cid slot : Nat)
  /-- TSPAWN_REQUEST (R195). -/
  | tspawnRequest (cid slot : Nat)
  /-- ISSUE_GRANT (R147). -/
  | issueGrant (cid pickLane pickSeq : Nat)
  /-- WEIGHT_RECOMPUTE (R147). -/
  | weightRecompute (cid : Nat)
  /-- BLOCK_FETCH (R149). -/
  | blockFetch (cid slot : Nat)
  /-- BLOCK_COMMIT (R55). -/
  | blockCommit (cid slot : Nat)
  /-- PINNED_INSTANCE_START (R155); whether the conservation check of R347, made at a MARKER, finds a discrepancy. -/
  | pinnedInstanceStart (cid : Nat) (bad : Bool)
  /-- FLIT_ARRIVAL (R160). -/
  | flitArrival (cid out : Nat)
  /-- STEER (R164). -/
  | steer (cid e : Nat)
  /-- MERGE (R164). -/
  | merge (cid e : Nat)
  /-- CARRY (R165). -/
  | carry (cid e : Nat)
  /-- REORDER (R166). -/
  | reorder (cid e : Nat)
  /-- SPILL_START (R168). -/
  | spillStart (cid out : Nat)
  /-- SPILL_RETURN (R169). -/
  | spillReturn (cid out : Nat)
  /-- STALL_REPORT (R170). -/
  | stallReport (pt : Nat)
  /-- TLB_WALK (R229). -/
  | tlbWalk (cid : Nat) (va : BitVec 48)
  /-- GEN_REPLY (R233). -/
  | genReply (cid : Nat)
  /-- COPY_WALK (R237). -/
  | copyWalk (cl q : Nat)
  /-- MANGLE_RUN_START (R245). -/
  | mangleRunStart (cid : Nat)
  /-- MANGLE_TILE (R244). -/
  | mangleTile (cid run mismatches : Nat)
  /-- MANGLE_SWAP_EFFECT (R272). -/
  | mangleSwapEffect (cid : Nat)
  /-- MANGLE_FENCE_EFFECT (R272). -/
  | mangleFenceEffect (cid : Nat)
  /-- MLOAD_FILL (R271). -/
  | mloadFill (cid : Nat)
  /-- UNDO_STALL_TIMEOUT (R308). -/
  | undoStallTimeout (cid slot : Nat)
  /-- PATROL_SWEEP (R304). -/
  | patrolSweep (line : Nat)
  /-- SEAL_MARK (R310). -/
  | sealMark (port : Nat) (n : Rin)
  /-- FAULT_STOP (R335). -/
  | faultStop (pt : Nat)
  /-- RESIDUE_MISMATCH (R347). -/
  | residueMismatch (cid slot : Nat) (again : Bool)
  /-- PREEMPT_RESUME (R350). -/
  | preemptResume (pt : Nat)
  /-- WORLD_SWITCH (R353). -/
  | worldSwitch (vfOut vfIn : Nat)
  /-- PEER_FLIT_ARRIVAL (R377). -/
  | peerFlitArrival (port : Nat) (f : PeerFlit)
  /-- PEER_PORT_DOWN (R378). -/
  | peerPortDown (port : Nat)
  /-- HOST_WINDOW_WRITE (R325). -/
  | hostWindowWrite (fn off : Nat) (data : List Byte)
  /-- HOST_WINDOW_READ (R290). -/
  | hostWindowRead (fn off len : Nat)
  /-- SNAPSHOT_LO_READ (R366). -/
  | snapshotLoRead (fn slot : Nat)
  /-- SNAPSHOT_HI_READ (R366). -/
  | snapshotHiRead (fn slot : Nat)
  /-- METER_WINDOW (R358). -/
  | meterWindow (energy : List Nat)
  /-- EVENT_RING_EN (R376). -/
  | eventRingEn (v : BitVec 64)
  /-- EVENT_RING_HEAD (R376). -/
  | eventRingHead (v : BitVec 32)
  /-- INJECT_CONTROL (R416). -/
  | injectControl (v : BitVec 64)
  /-- THROTTLE (R387). -/
  | throttle (island : Nat) (cause : BitVec 4)
  /-- THROTTLE_RECOVER (R387). -/
  | throttleRecover (island : Nat)
  /-- PEER_PORT_RECOVER (R388). -/
  | peerPortRecover (port : Nat)
  /-- FUNCTION_LEVEL_RESET (R6). -/
  | functionLevelReset (fn : Nat)
  /-- NUMVFS (R369). -/
  | numvfs (n : Nat)
  /-- SERIALISING_TOKEN (R288). -/
  | serialisingToken (node : Nat)
  /-- UNCORRECTABLE_ERROR (R326). -/
  | uncorrectableError (site : ErrorSite)
  /-- EXIT_B (R174). -/
  | exitB (h : Head) (off : BitVec 32)
  /-- EXIT_J (R174). -/
  | exitJ (h : Head)
  /-- EXIT_C (R174). -/
  | exitC (h : Head) (off : BitVec 32)
  /-- EXIT_CI (R174). -/
  | exitCi (h : Head)
  /-- EXIT_RET (R174). -/
  | exitRet (h : Head)
  /-- EXIT_T (R174). -/
  | exitT (h : Head)
  /-- EXIT_Y (R174). -/
  | exitY (h : Head) (off : BitVec 32)
  /-- NULLW (R177). -/
  | nullw (h : Head)
  /-- NULLS (R177). -/
  | nulls (h : Head) (lsid : BitVec 5)
  /-- MOVI (R178). -/
  | movi (h : Head) (w : IntW) (imm : BitVec 32)
  /-- MOVH (R178). -/
  | movh (h : Head) (imm : BitVec 32)
  /-- MOV (R178). -/
  | mov (h : Head)
  /-- GETID (R179). -/
  | getid (h : Head) (sel : BitVec 5)
  /-- CONSTK (R180). -/
  | constk (h : Head) (k : BitVec 4)
  /-- PAND (R182). -/
  | pand (h : Head)
  /-- POR (R182). -/
  | por (h : Head)
  /-- PXOR (R182). -/
  | pxor (h : Head)
  /-- PNOT (R182). -/
  | pnot (h : Head)
  /-- SEL (R183). -/
  | sel (h : Head) (w : IntW)
  /-- LMASK (R183). -/
  | lmask (h : Head) (w : IntW)
  /-- ANYL (R183). -/
  | anyl (h : Head) (w : IntW)
  /-- ALLL (R183). -/
  | alll (h : Head) (w : IntW)
  /-- TEST (R181). -/
  | test (h : Head) (c : Cond) (w : IntW) (b : Option (BitVec 32))
  /-- ADD (R185). -/
  | add (h : Head) (ec : IntEC) (b : Option (BitVec 32))
  /-- SUB (R185). -/
  | sub (h : Head) (ec : IntEC) (b : Option (BitVec 32))
  /-- ADDS (R185). -/
  | adds (h : Head) (ec : IntEC) (b : Option (BitVec 32))
  /-- SUBS (R185). -/
  | subs (h : Head) (ec : IntEC) (b : Option (BitVec 32))
  /-- MUL (R185). -/
  | mul (h : Head) (ec : IntEC) (b : Option (BitVec 32))
  /-- MULH (R185). -/
  | mulh (h : Head) (ec : IntEC) (b : Option (BitVec 32))
  /-- MULHZ (R185). -/
  | mulhz (h : Head) (ec : IntEC) (b : Option (BitVec 32))
  /-- MAD (R185). -/
  | mad (h : Head) (ec : IntEC) (b : Option (BitVec 32))
  /-- DIV (R185). -/
  | div (h : Head) (ec : IntEC) (b : Option (BitVec 32))
  /-- DIVZ (R185). -/
  | divz (h : Head) (ec : IntEC) (b : Option (BitVec 32))
  /-- REM (R185). -/
  | rem (h : Head) (ec : IntEC) (b : Option (BitVec 32))
  /-- REMZ (R185). -/
  | remz (h : Head) (ec : IntEC) (b : Option (BitVec 32))
  /-- AND (R185). -/
  | and (h : Head) (ec : IntEC) (b : Option (BitVec 32))
  /-- OR (R185). -/
  | or (h : Head) (ec : IntEC) (b : Option (BitVec 32))
  /-- XOR (R185). -/
  | xor (h : Head) (ec : IntEC) (b : Option (BitVec 32))
  /-- ANDN (R185). -/
  | andn (h : Head) (ec : IntEC) (b : Option (BitVec 32))
  /-- ORN (R185). -/
  | orn (h : Head) (ec : IntEC) (b : Option (BitVec 32))
  /-- SHL (R186). -/
  | shl (h : Head) (ec : IntEC) (b : Option (BitVec 32))
  /-- SHR (R186). -/
  | shr (h : Head) (ec : IntEC) (b : Option (BitVec 32))
  /-- SAR (R186). -/
  | sar (h : Head) (ec : IntEC) (b : Option (BitVec 32))
  /-- ROL (R186). -/
  | rol (h : Head) (ec : IntEC) (b : Option (BitVec 32))
  /-- CLZ (R187). -/
  | clz (h : Head) (ec : IntEC)
  /-- CTZ (R187). -/
  | ctz (h : Head) (ec : IntEC)
  /-- POPC (R187). -/
  | popc (h : Head) (ec : IntEC)
  /-- BREV (R187). -/
  | brev (h : Head) (ec : IntEC)
  /-- BSWAP (R187). -/
  | bswap (h : Head) (ec : IntEC)
  /-- EXT (R188). -/
  | ext (h : Head) (ec : IntEC) (b : Option (BitVec 32))
  /-- EXTZ (R188). -/
  | extz (h : Head) (ec : IntEC) (b : Option (BitVec 32))
  /-- INS (R188). -/
  | ins (h : Head) (ec : IntEC) (b : Option (BitVec 32))
  /-- MIN (R185). -/
  | min (h : Head) (ec : IntEC) (b : Option (BitVec 32))
  /-- MAX (R185). -/
  | max (h : Head) (ec : IntEC) (b : Option (BitVec 32))
  /-- MINZ (R185). -/
  | minz (h : Head) (ec : IntEC) (b : Option (BitVec 32))
  /-- MAXZ (R185). -/
  | maxz (h : Head) (ec : IntEC) (b : Option (BitVec 32))
  /-- ABS (R185). -/
  | abs (h : Head) (ec : IntEC)
  /-- NEG (R185). -/
  | neg (h : Head) (ec : IntEC)
  /-- LEA (R189). -/
  | lea (h : Head) (ec : IntEC) (b : Option (BitVec 32))
  /-- FADD (R203). -/
  | fadd (h : Head) (ec : FltEC) (b : Option (BitVec 32))
  /-- FSUB (R203). -/
  | fsub (h : Head) (ec : FltEC) (b : Option (BitVec 32))
  /-- FMUL (R203). -/
  | fmul (h : Head) (ec : FltEC) (b : Option (BitVec 32))
  /-- FFMA (R203). -/
  | ffma (h : Head) (ec : FltEC) (b : Option (BitVec 32))
  /-- FFMS (R203). -/
  | ffms (h : Head) (ec : FltEC) (b : Option (BitVec 32))
  /-- FNMA (R203). -/
  | fnma (h : Head) (ec : FltEC) (b : Option (BitVec 32))
  /-- FMIN (R204). -/
  | fmin (h : Head) (ec : FltEC) (b : Option (BitVec 32))
  /-- FMAX (R204). -/
  | fmax (h : Head) (ec : FltEC) (b : Option (BitVec 32))
  /-- FABS (R204). -/
  | fabs (h : Head) (ec : FltEC)
  /-- FNEG (R204). -/
  | fneg (h : Head) (ec : FltEC)
  /-- FCPYS (R204). -/
  | fcpys (h : Head) (ec : FltEC) (b : Option (BitVec 32))
  /-- FTEST (R205). -/
  | ftest (h : Head) (ec : FltEC) (c : FCond)
  /-- FCLASS (R206). -/
  | fclass (h : Head) (ec : FltEC) (mask : BitVec 9)
  /-- FCVT (R209). -/
  | fcvt (h : Head) (ec : FltEC) (c : CvtF)
  /-- ICVTF (R210). -/
  | icvtf (h : Head) (ec : FltEC) (c : CvtF)
  /-- FCVTI (R210). -/
  | fcvti (h : Head) (ec : FltEC) (c : CvtF)
  /-- FRCP (R215). -/
  | frcp (h : Head) (ec : FltEC)
  /-- FRSQ (R215). -/
  | frsq (h : Head) (ec : FltEC)
  /-- FSQRT (R215). -/
  | fsqrt (h : Head) (ec : FltEC)
  /-- FDIV (R215). -/
  | fdiv (h : Head) (ec : FltEC) (b : Option (BitVec 32))
  /-- FEXP2 (R215). -/
  | fexp2 (h : Head) (ec : FltEC)
  /-- FLOG2 (R215). -/
  | flog2 (h : Head) (ec : FltEC)
  /-- FSINP (R215). -/
  | fsinp (h : Head) (ec : FltEC)
  /-- FCOSP (R215). -/
  | fcosp (h : Head) (ec : FltEC)
  /-- FTANH (R215). -/
  | ftanh (h : Head) (ec : FltEC)
  /-- DOT (R214). -/
  | dot (h : Head) (ec : FltEC) (rnd : BitVec 3)
  /-- PACK (R211). -/
  | pack (h : Head) (ec : FltEC) (c : CvtF)
  /-- UNPACK (R211). -/
  | unpack (h : Head) (ec : FltEC) (c : CvtF)
  /-- SCALEB (R213). -/
  | scaleb (h : Head) (ec : FltEC) (rnd : BitVec 3)
  /-- QUANT (R212). -/
  | quant (h : Head) (ec : FltEC) (c : CvtF)
  /-- PERM (R218). -/
  | perm (h : Head) (ec : EC) (zoob : Bool)
  /-- ROTL (R218). -/
  | rotl (h : Head) (ec : EC) (dyn : Bool) (c : BitVec 7)
  /-- SHFL (R218). -/
  | shfl (h : Head) (ec : EC) (mode : BitVec 2) (d : BitVec 6)
  /-- BCASTL (R218). -/
  | bcastl (h : Head) (ec : EC) (j : BitVec 6)
  /-- REDL (R219). -/
  | redl (h : Head) (ec : EC) (g : BitVec 3) (rnd : BitVec 3) (op : RedOp)
  /-- SCANL (R219). -/
  | scanl (h : Head) (ec : EC) (g : BitVec 3) (excl : Bool) (rnd : BitVec 3) (op : RedOp)
  /-- COMPR (R218). -/
  | compr (h : Head) (ec : EC)
  /-- EXPND (R218). -/
  | expnd (h : Head) (ec : EC) (merge : Bool)
  /-- LSEL (R218). -/
  | lsel (h : Head) (ec : EC)
  /-- IOTA (R218). -/
  | iota (h : Head) (ec : EC) (base : BitVec 16) (inc : BitVec 8)
  /-- ACCS (R221). -/
  | accs (h : Head) (ec : EC) (lvl : BitVec 3) (rnd : BitVec 3) (op : RedOp)
  /-- STOPK (R222). -/
  | stopk (h : Head) (lvl : BitVec 3)
  /-- TKIND (R222). -/
  | tkind (h : Head)
  /-- REDN (R223). -/
  | redn (h : Head) (ec : EC) (mask : BitVec 16) (arr : Bool) (rnd : BitVec 3) (op : RedOp)
  /-- LDS (R254). -/
  | lds (h : Head) (ac : AC) (m : MemF)
  /-- STS (R254). -/
  | sts (h : Head) (ac : AC) (m : MemF)
  /-- LDT (R254). -/
  | ldt (h : Head) (ac : AC) (m : MemF)
  /-- STT (R254). -/
  | stt (h : Head) (ac : AC) (m : MemF)
  /-- LDG (R256). -/
  | ldg (h : Head) (ac : AC) (na : Bool) (m : MemF)
  /-- STG (R256). -/
  | stg (h : Head) (ac : AC) (na : Bool) (m : MemF)
  /-- LDGV (R259). -/
  | ldgv (h : Head) (ac : AC) (na : Bool) (m : MemF)
  /-- STGV (R259). -/
  | stgv (h : Head) (ac : AC) (na : Bool) (m : MemF)
  /-- PRF (R260). -/
  | prf (h : Head) (na : Bool) (m : MemF)
  /-- LDN (R254). -/
  | ldn (h : Head) (ac : AC) (m : MemF)
  /-- STN (R255). -/
  | stn (h : Head) (ac : AC) (m : MemF)
  /-- ATMS (R262). -/
  | atms (h : Head) (op : AtOp) (wide : Bool) (m : MemF)
  /-- ATMG (R262). -/
  | atmg (h : Head) (op : AtOp) (wide : Bool) (m : MemF)
  /-- ATMN (R262). -/
  | atmn (h : Head) (op : AtOp) (wide : Bool) (m : MemF)
  /-- CCTL_WB (R265). -/
  | cctlWb (h : Head) (m : MemF)
  /-- CCTL_INV (R265). -/
  | cctlInv (h : Head) (m : MemF)
  /-- CCTL_WBINV (R265). -/
  | cctlWbinv (h : Head) (m : MemF)
  /-- CCTL_WBALL (R265). -/
  | cctlWball (h : Head) (m : MemF)
  /-- CCTL_INVALL (R265). -/
  | cctlInvall (h : Head) (m : MemF)
  /-- CPY (R266). -/
  | cpy (h : Head) (m : MemF)
  /-- CPYQF (R267). -/
  | cpyqf (h : Head) (self sys : Bool) (osc : Option Scope)
  /-- TAGW (R268). -/
  | tagw (h : Head) (osc : Option Scope) (any : Bool)
  /-- TAGFF (R269). -/
  | tagff (h : Head) (osc : Option Scope)
  /-- TAGCLR (R269). -/
  | tagclr (h : Head)
  /-- TAGRD (R269). -/
  | tagrd (h : Head) (sel : BitVec 2)
  /-- MLOAD (R271). -/
  | mload (h : Head) (ec : EC)
  /-- MSWAP (R272). -/
  | mswap (h : Head)
  /-- MARM (R273). -/
  | marm (h : Head) (shape : BitVec 5)
  /-- MFENCE (R272). -/
  | mfence (h : Head)
  /-- MWAIT (R272). -/
  | mwait (h : Head)
  /-- MCHK (R274). -/
  | mchk (h : Head) (clr : Bool)
  /-- MZERO (R274). -/
  | mzero (h : Head)
  /-- PLEAT (R134). -/
  | pleat (h : Head)
  /-- PLEATW (R135). -/
  | pleatw (h : Head)
  /-- PLEATQ (R135). -/
  | pleatq (h : Head)
  /-- OCC (R136). -/
  | occ (h : Head) (sel : BitVec 4)
  /-- SWM (R137). -/
  | swm (h : Head)
  /-- RINR (R328). -/
  | rinr (h : Head) (sel : BitVec 2)
  /-- SEALPT (R329). -/
  | sealpt (h : Head)
  /-- SEALW (R328). -/
  | sealw (h : Head)
  /-- SEALRQ_NOWAIT (R330). -/
  | sealrqNowait (h : Head)
  /-- SEALRQ_WAIT (R330). -/
  | sealrqWait (h : Head)
  /-- STX (R331). -/
  | stx (h : Head) (ac : AC) (m : MemF)
  /-- STX_IRR (R331). -/
  | stxIrr (h : Head) (ac : AC) (m : MemF)
  /-- ESCW (R332). -/
  | escw (h : Head)
  /-- FENCE_ACQ (R287). -/
  | fenceAcq (h : Head) (scope : Scope)
  /-- FENCE_REL (R287). -/
  | fenceRel (h : Head) (scope : Scope)
  /-- FENCE_BOTH (R287). -/
  | fenceBoth (h : Head) (scope : Scope)
  /-- FENCE_SC (R287). -/
  | fenceSc (h : Head) (scope : Scope)
  /-- ARRIVE (R297). -/
  | arrive (h : Head) (lobj : Bool) (k : BitVec 6) (e : BitVec 16)
  /-- WAITB (R298). -/
  | waitb (h : Head) (lobj : Bool) (k : BitVec 6)
  /-- BAR (R294). -/
  | bar (h : Head)
  /-- WAITM (R299). -/
  | waitm (h : Head) (c : Cond) (osc : Option Scope)
  /-- SEND (R191). -/
  | send (h : Head) (kind : BitVec 4) (j : BitVec 4)
  /-- RECV (R192). -/
  | recv (h : Head) (j : BitVec 4)
  /-- BIND (R193). -/
  | bind (h : Head) (j : BitVec 4) (rel : Bool)
  /-- WAITC (R194). -/
  | waitc (h : Head) (j : BitVec 4) (n : BitVec 7)
  /-- TSPAWN (R195). -/
  | tspawn (h : Head) (wait : Bool)
  /-- TSTAT (R196). -/
  | tstat (h : Head)
  /-- QPOST (R197). -/
  | qpost (h : Head) (m : MemF)
  /-- CONSTW (R198). -/
  | constw (h : Head) (px py : BitVec 6) (k : BitVec 4) (c : BitVec 3)
  /-- MARKT (R199). -/
  | markt (h : Head) (mask : BitVec 16)
  /-- TRAP (R343). -/
  | trap (h : Head) (code : BitVec 16)
  /-- BRK (R343). -/
  | brk (h : Head) (num : BitVec 8)
  /-- CSRR (R344). -/
  | csrr (h : Head) (r : BitVec 8)
  /-- CSRW (R344). -/
  | csrw (h : Head) (r : BitVec 8)
  /-- SVC_HEMLINT (R345). -/
  | svcHemlint (h : Head)
  /-- SVC_STALELINT (R345). -/
  | svcStalelint (h : Head)
  /-- SVC_ROLLBACKS (R345). -/
  | svcRollbacks (h : Head)
  /-- SVC_IDENT (R345). -/
  | svcIdent (h : Head)
  /-- SVC_NOTIFY (R345). -/
  | svcNotify (h : Head)
  /-- SVC_HEMLINT (R345 services 5 to 255, which have no row of their own). -/
  | svcReserved (h : Head) (s : BitVec 8)
  /-- RDCYC (R346). -/
  | rdcyc (h : Head)
  /-- RDTIME (R346). -/
  | rdtime (h : Head)
  /-- NOP (R346). -/
  | nop (h : Head)
  /-- VALIDATE (R96). -/
  | validate
  /-- DEPEND (R94). -/
  | depend
  /-- DEPENDENCE_REREAD (R95). -/
  | dependenceReread
  /-- PLACE (R96). -/
  | place
  /-- PRIORITY_AGING (R99). -/
  | priorityAging
  /-- FILL (R96). -/
  | fill
  /-- LAUNCH_STAGE (R96). -/
  | launchStage
  /-- COMPLETE (R98). -/
  | complete
  /-- LAUNCH (R87). -/
  | launch
  /-- WAIT (R88). -/
  | wait
  /-- SIGNAL (R89). -/
  | signal
  /-- COPY (R90). -/
  | copy
  /-- SEALRQ (R91). -/
  | sealrq
  /-- LEASE_REQUEST (R102). -/
  | leaseRequest
  /-- LEASE_RESIZE (R104). -/
  | leaseResize
  /-- LEASE_LEND (R116). -/
  | leaseLend
  /-- LEASE_RECALL (R100). -/
  | leaseRecall
  /-- LEASE_RELEASE (R357). -/
  | leaseRelease
  /-- MARKER (R93). -/
  | marker
  /-- PLACER_PLACE (R112). -/
  | placerPlace
  /-- MAP (R228). -/
  | map
  /-- UNMAP (R228). -/
  | unmap
  /-- PROTECT (R228). -/
  | protect
  /-- MIGRATE (R228). -/
  | migrate
  /-- DEBUG (R372). -/
  | debug
  /-- DRESUME (R372). -/
  | dresume
  /-- PROFOPEN (R364). -/
  | profopen
  /-- PROFCLOSE (R372). -/
  | profclose
  /-- PEERBIND (R378). -/
  | peerbind
  /-- PEERUNBIND (R372). -/
  | peerunbind
  /-- WINDOW (R372). -/
  | window
  /-- FAULTS (R372). -/
  | faults
  /-- REPORT (R359). -/
  | report
  /-- ATTEST (R383). -/
  | attest
  /-- QCONF (R82). -/
  | qconf
  /-- VFCONF (R373). -/
  | vfconf
  /-- PAIR (R372). -/
  | pair
  /-- LMIGRATE (R351). -/
  | lmigrate
  /-- DOMAIN (R379). -/
  | domain
  /-- DREMOVE (R380). -/
  | dremove
  /-- OWNER (R374). -/
  | owner
  /-- PWRCAP (R375). -/
  | pwrcap
  /-- ADVANCE (R309). -/
  | advance
  /-- READY (R309). -/
  | ready
  /-- SEALED (R309). -/
  | sealed
  /-- SEAL_REQUEST (R311). -/
  | sealRequest
  /-- POISON (R326). -/
  | poison
  /-- ROLLBACK (R326). -/
  | rollback
  /-- ROLLED (R326). -/
  | rolled
  /-- METER_RESET (R385). -/
  | meterReset
  /-- KEYROLL (R385). -/
  | keyroll
  /-- FIRMWARE_TRANSFER (R384). -/
  | firmwareTransfer
  /-- FIRMWARE_ACTIVATE (R384). -/
  | firmwareActivate
  /-- COLD_RESET (R388). -/
  | coldReset
  /-- INTERVAL_TIMER (R316). -/
  | intervalTimer
  /-- SEAL_LATE (R312). -/
  | sealLate
deriving DecidableEq, Repr, Inhabited

end Sys2Proof
end

