-- ==== Sys2Proof/Machine/State.lean ====
section
/-! DEFINITION. The state of one Tizia 2200 module: everything the spec gives the machine, as plain data. Large arrays
(cores, queues, leases, channels, tags) are sparse tables: an index that a table does not list holds the blank entry,
which is what reset leaves. Each field's docstring names its rule and its value at reset. -/

namespace Sys2Proof.Machine

/-- Bytes by address, in canonical form: addresses strictly rising, no byte equal to what an unlisted address reads as. -/
abbrev Memory := List Host.Cell

/-- A sparse array: entries by index, strictly rising. -/
abbrev Table (α : Type) := List (Nat × α)

/-- What an unlisted address of a memory reads as: zero. Pool rows are zero after rinse (R25, R112); for device
memory, host memory and peer memory the spec gives no content (assumption 1, DESIGN CHOICE). -/
def Memory.blank : Byte := 0#8

/-- The canonical form of a memory. -/
def Memory.wfFrom : Nat → Memory → Bool
  | _, [] => true
  | lo, (a, b) :: m => decide (lo ≤ a) && (b != Memory.blank) && Memory.wfFrom (a + 1) m

/-- The canonical form of a memory: addresses strictly rising, no blank byte listed. -/
abbrev Memory.wf (m : Memory) : Bool := Memory.wfFrom 0 m

/-! ### Tokens, operands and block instances -/

/-- A flit: its 4-bit token kind (R24), its 64-byte value and the RIN it carries (R302). -/
structure Flit where
  kind : BitVec 4
  value : Value
  rin : Rin
deriving DecidableEq, Repr

/-- What has been delivered to an operand: a value, a null (R173), or a head with its kind (R156). -/
inductive Opnd where
  | val (v : Value)
  | null
  | tok (kind : BitVec 4) (v : Value)
deriving DecidableEq, Repr

/-- How far an instruction slot of a block instance has come: idle, waiting for a reply at the GEN port or a target
core, fired, made null (R173), its predicate arrived and did not match (R45), or it raised a cause in a pinned context, or lost its
reply behind one, and has no result (R171, R233). -/
inductive SlotPhase where
  | idle | pending | fired | nulled | dead | failed
deriving DecidableEq, Repr

/-- One instruction slot of a block instance: its operands, its predicate input, its phase, the numbers it waits on
(`cpyqf` R267, `sealrq.wait` R330) and the draws it used (R74). -/
structure SlotSt where
  a : Option Opnd := none
  b : Option Opnd := none
  c : Option Opnd := none
  p : Option Opnd := none
  ph : SlotPhase := .idle
  wait : List Nat := []
  draws : Nat := 0
deriving DecidableEq, Repr

/-- Where a global address leads after translation (R227): device memory, the host, a peer in the domain, a peer outside. -/
inductive Loc where
  | dev (pa : Nat) (recov : Bool)
  | host (a : Nat)
  | peer (device a : Nat)
  | ext (device a : Nat)
deriving DecidableEq, Repr

/-- A pool role that a byte offset names (R225). -/
inductive PoolRole where
  | s | t
deriving DecidableEq, Repr

/-- What an instruction captured at fire and its block performs at commit (R151). -/
inductive Effect where
  | poolStore (role : PoolRole) (cid : Nat) (pieces : List (Nat × List Byte))
  | globalStore (pieces : List (Nat × Loc × List Byte)) (ac : AC) (na : Bool) (stx irr : Bool)
      (osc : Option Scope) (sc : Bool)
  | poolAtomic (cid off : Nat) (op : AtOp) (wide : Bool) (b c : Nat) (osc : Option Scope)
  | globalAtomic (va : Nat) (loc : Loc) (op : AtOp) (wide : Bool) (b c : Nat) (osc : Option Scope) (sc : Bool)
  | cctl (form line : Nat)
  | cpy (packet : Value) (osc : Option Scope)
  | qpost (q : Nat) (packet : Value) (osc : Option Scope)
  | send (j : Nat) (kind : BitVec 4) (v : Value)
  | markt (mask : BitVec 16)
  | constw (px py k ctx : Nat) (v : Value)
  | spawn (cid slot entry : Nat) (seed : BitVec 64) (weight : Nat) (arg : Value)
  | recv (j : Nat)
  | bind (j : Nat) (rel : Bool)
  | swm (m : BitVec 32)
  | pleat (w : BitVec 32)
  | pleatRefused
  | arrive (lobj : Bool) (k e : Nat)
  | bar
  | tagclr (done err : BitVec 64) (sets : List (Nat × Nat × Nat))
  | mload (fmt : BitVec 3) (src : BitVec 64) (locs : List Loc)
  | mswap
  | marm (shape : BitVec 5) (desc : Value)
  | mfence
  | mzero (desc : BitVec 64)
  | mchk
  | csrw (r : Nat) (v : BitVec 64)
  | sealpt
  | sealrq
  | notify (v : BitVec 64)
  | release (scope : Scope)
deriving DecidableEq, Repr

/-- A captured effect with the slot that captured it, its LSID if it has one, and the targets of a result formed at
commit (atomics, `swm`, `arrive`: R151). -/
structure Capture where
  slot : Nat
  lsid : Option Nat
  eff : Effect
  t0 : Target
  t1 : Target
deriving DecidableEq, Repr

/-- Where a fired exit sends the task (R174, R175). -/
inductive ExitAct where
  | go (tgt : Nat)
  | call (tgt ret : Nat)
  | ret
  | stop
  | yield (tgt : Nat)
deriving DecidableEq, Repr

/-- One block instance in flight, fired or pinned (R55, R155): its number, address, words, slots, write entries,
captured effects, fired exit, and what it must remember from its start: the memory marks of `escw` and `mwait` (R332, R272),
the arm (R157), the heads a `redn` folds (R223), the constants in effect (R180), the out-channel slots it reserved (R155,
R220), since when its commit stalls for undo space (R308), and the lease's
translation epoch at its start (R230). -/
structure Inst where
  id : Nat
  blk : Nat
  hdr0 : IWord
  hdr1 : IWord
  entries : List IWord
  code : List IWord
  slots : List SlotSt
  writes : List (Option Opnd)
  caps : List Capture
  exit : Option ExitAct
  exits : Nat
  nulls : List Nat
  twice : Bool
  mark : Nat
  escMark : Nat
  arm : Nat
  outs : List (Nat × Nat × Flit)
  recvd : List Nat
  heads : List (Nat × Nat × Flit)
  consts : Table Value
  resv : List Nat
  stalled : Option Nat
  epoch : Nat
deriving DecidableEq, Repr

/-! ### Tasks -/

/-- Task slot states (R144); RUNNABLE and WAITING are told apart by what the block instance can do. -/
inductive TaskState where
  | free | live | held
deriving DecidableEq, Repr

/-- A pending cause of class H that a copy walk raised against the task (R240); a task delivers them one by one. -/
structure AsyncCause where
  cause : BitVec 8
  sub : BitVec 8
  addr : BitVec 64
deriving DecidableEq, Repr

/-- One task slot: state, reservation, program counter, task control registers 0x00 to 0x0B (R339), link stack
(R175), arbiter weight and credits (R147), and the block instance in flight. All zero, FREE at reset. -/
structure Task where
  st : TaskState := .free
  resv : Option (Nat × Nat) := none
  pc : BitVec 48 := 0
  tctl : BitVec 64 := 0
  rstate : BitVec 64 := 0
  tvec : BitVec 64 := 0
  tmask : BitVec 64 := 0
  tcause : BitVec 64 := 0
  tblk : BitVec 64 := 0
  taddr : BitVec 64 := 0
  tinfo : BitVec 64 := 0
  lsdrop : BitVec 8 := 0
  dbg : BitVec 64 := 0
  brka0 : BitVec 64 := 0
  brka1 : BitVec 64 := 0
  link : List (BitVec 48) := []
  weight : Nat := 0
  eff : Nat := 0
  creditLane : Int := 0
  creditSeq : Int := 0
  inst : Option Inst := none
  broke : Bool := false
  async : List AsyncCause := []
  sealWait : Bool := false
  sealG : List Nat := []
  spawns : List (Nat × Nat × Bool × Value × Value) := []
  escDue : List Nat := []
  since : Nat := 0
deriving DecidableEq, Repr

/-! ### Channels, elements, ports and engines of a core -/

/-- An in-channel: its buffer with each flit's order of arrival, the task slot that `bind` moved it to (R193; none while it
is where the context configures it), and a `bind` that awaits commit, by its task and its REL bit. -/
structure InCh where
  buf : List (Nat × Flit) := []
  slot : Option Nat := none
  resv : Option (Nat × Bool) := none
deriving DecidableEq, Repr

/-- The state of a spilling out-channel (R169): its records in order, each with its flit's RIN, and flits still to be written. -/
structure Spill where
  recs : List (Nat × Rin)
  wait : List Flit
deriving DecidableEq, Repr

/-- Gathered drops of one (core, out-channel) pair (R111), under the lease and generation that sent the flits. -/
structure Misroute where
  count : Nat
  kind : BitVec 4
  since : Nat
  last : Nat
  far : Nat
  lease : Nat
  gen : Nat
deriving DecidableEq, Repr

/-- An out-channel: its buffer, slots reserved by instructions (R191, R199, R294), the time since which it has been
full and not accepted (R168), its spill and its gathered misroutes. -/
structure OutCh where
  buf : List Flit := []
  resv : Nat := 0
  fullSince : Option Nat := none
  spill : Option Spill := none
  drops : Option Misroute := none
deriving DecidableEq, Repr

/-- A router element's state (R163 to R166): the carry's phase (0 to emit its initial value, 1 forwarding, 2 ended), the
frame a reorder has collected, and what it has still to emit. -/
structure Elem where
  phase : Nat := 0
  frame : List Flit := []
  outq : List Flit := []
deriving DecidableEq, Repr

/-- An `accs` accumulator and its empty flag (R221). -/
structure Acc where
  acc : Value := 0
  empty : Bool := true
deriving DecidableEq, Repr

/-- What a request outstanding at the GEN port asks for (R233): a load, a streaming store's completion, a RELATCH passing in
request order (R232), a plane's source for a queued `mload` (R271); or, for the device itself (R23), a spilling out-channel's next flit
to be written or its oldest record to be read (R169), or a trace or residency record for a virtual address (R362, R364). -/
inductive ReqKind where
  | load | store | relatch (f : Flit) | plane (id : Nat) | spill (out : Nat) | unspill (out : Nat) | record (va : Nat)
deriving DecidableEq, Repr

/-- A request outstanding at the GEN port: who asked (task or pinned instance), for what, where each element translated
to, its scope, its sc form, for a streaming store the bytes (R231, R233, R258), the
translation epoch (R230), and since when a store stalls for undo space (R308). -/
structure GenReq where
  kind : ReqKind
  pinned : Bool
  task : Nat
  inst : Nat
  slot : Nat
  lsid : Nat
  ac : AC
  gather : Bool
  na : Bool
  elems : List (Option (Nat × Loc))
  data : List Byte
  osc : Option Scope
  sc : Bool
  lease : Nat
  gen : BitVec 8
  epoch : Nat
  stalled : Option Nat := none
deriving DecidableEq, Repr

/-- A line of the C role (R127, R285): VA div 64, cache generation, set and way, bytes, dirty mask, RIN stamp (R302),
poison, and the target its bytes came from. -/
structure CLine where
  line : Nat
  gen : BitVec 16
  set : Nat
  way : Nat
  data : Value
  dirty : BitVec 64
  stamp : Rin
  poison : Bool
  loc : Loc
deriving DecidableEq, Repr

/-- An entry of the decoded block buffer (R149): block address, cache generation, the block's words. -/
structure DecBlock where
  addr : Nat
  gen : BitVec 16
  words : List IWord
deriving DecidableEq, Repr

/-- A TLB entry (R229): lease identity and generation, page base VA, leaf size, the entry's 64 bits. -/
structure TlbEntry where
  lease : Nat
  gen : BitVec 8
  page : Nat
  big : Bool
  entry : BitVec 64
deriving DecidableEq, Repr

/-- A copy tag (R239): pending count, done bit, its bit of the tag error bitmap (R240), and how often each bit has been set, by which
`tagclr` knows the bits that stood at its fire (R269); the model's own. -/
structure Tag where
  pending : Nat := 0
  resv : Nat := 0
  done : Bool := false
  err : Bool := false
  doneSets : Nat := 0
  errSets : Nat := 0
deriving DecidableEq, Repr

/-- A weight plane (R241): plane format, its 2 KiB, and its scale bytes. -/
structure Plane where
  fmt : BitVec 3 := 0
  data : Memory := []
  scales : Memory := []
deriving DecidableEq, Repr

/-- An entry of the mangle's queue (R245, R271 to R274). -/
inductive MOp where
  | load (fmt : BitVec 3) (src : BitVec 64) (locs : List Loc)
  | swap
  | fence
  | run (shape : BitVec 5) (desc : BitVec 64)
  | zero (desc : BitVec 64)
deriving DecidableEq, Repr

/-- A queued mangle entry: its number in arm order, what it is, whether it has started, the tiles done, and the rows of the next tile taken
so far from an in-channel; of a load from global memory, the lines that its reply brought (R271). Of each tile done while the run goes on,
its number, its rows and what its 4 KiB held before (R245). -/
structure MEnt where
  id : Nat
  op : MOp
  started : Bool
  tile : Nat
  rows : List Value
  did : List (Nat × List Value × List Byte) := []
deriving DecidableEq, Repr

/-- An open carry (R77): the extent, and each element's exact partial sum as an integer and a power of two. -/
structure Carry where
  base : Nat
  tc : Nat
  sums : List (Int × Int)
deriving DecidableEq, Repr

/-- The mangle (R241 to R246): planes, queue, run slots reserved, open carries, check counters and the element choice
counter of R246. Planes zero, nothing queued at reset. -/
structure Mangle where
  active : Plane := {}
  shadow : Plane := {}
  queue : List MEnt := []
  nextId : Nat := 0
  resv : Nat := 0
  carries : List Carry := []
  checked : Nat := 0
  corrected : Nat := 0
  pick : Nat := 0
deriving DecidableEq, Repr

/-- Context entry states (R138). -/
inductive CtxState where
  | empty | loaded | active | frozen
deriving DecidableEq, Repr

/-- A context entry (R138, R139): state, kind, role code, the active and the shadow copy of its configuration words
(by unit · 2048 + field), its baste cuts (out-channel, baste number), and pending `constw` values (R198). -/
structure Ctx where
  st : CtxState := .empty
  pinned : Bool := false
  role : Nat := 0
  active : Table CWord := []
  shadow : Table CWord := []
  cuts : List (Nat × Nat) := []
  pendingK : Table Value := []
deriving DecidableEq, Repr

/-- The pool's division and its handshake (R121, R129, R132, R137): the pleat word in effect, sequence number, phase
(0 idle, 1 reserved, 2 to 6 steps 1 to 5), the reserving task, the requested word, the placer's lock, the scratch
watermark, the fired uncommitted `swm` values, and the first bank (pre-empting work, R350). -/
structure Pleat where
  word : BitVec 32 := 0
  seq : BitVec 16 := 0
  phase : Nat := 0
  owner : Option (Nat × Nat) := none
  req : BitVec 32 := 0
  lock : Bool := false
  swm : BitVec 32 := 0
  holds : Table (BitVec 32) := []
  bank0 : Nat := 0
  cBanks : Nat := 0
deriving DecidableEq, Repr

/-- Occupancy counters of R132 that are not derived: FHWM, CHIT, CMISS, DQHWM, REPLAY, PREF, PACC. Zero at reset. -/
structure Occ where
  fhwm : Nat := 0
  chit : Nat := 0
  cmiss : Nat := 0
  dqhwm : Nat := 0
  replay : Nat := 0
  pref : Nat := 0
  pacc : Nat := 0
deriving DecidableEq, Repr

/-- One core (R16): the patch it holds and its place in it, its pool, contexts, channels, tasks, engines and counters; `late` holds the
device's own requests that its GEN port has yet to accept (R23).
Blank (rinsed, R25) at reset. -/
structure Core where
  patch : Option Nat := none
  px : Nat := 0
  py : Nat := 0
  stage : Nat := 0
  act : Option Nat := none
  nTasks : Nat := 0
  frame : Nat := 0
  frame0 : Nat := 0
  pool : Memory := []
  poisonRows : List Nat := []
  bankDirty : List Nat := []
  pleat : Pleat := {}
  occ : Occ := {}
  ctxs : Table Ctx := []
  ins : Table InCh := []
  outs : Table OutCh := []
  elems : Table Elem := []
  accs : Table Acc := []
  tasks : Table Task := []
  pinst : List Inst := []
  nextInst : Nat := 0
  arrivals : Nat := 0
  streams : Table Nat := []
  gen : List GenReq := []
  late : List GenReq := []
  stop7 : Bool := false
  seen7 : List Nat := []
  cacheGen : BitVec 16 := 0
  cache : List CLine := []
  dirtyQ : List Nat := []
  plru : Table Nat := []
  blocks : List DecBlock := []
  tlb : List TlbEntry := []
  tags : Table Tag := []
  mangle : Mangle := {}
  rin : Rin := 0
  counters : Table (Table Nat) := []
  winFill : Table (Nat × Nat) := []
  resStart : Nat := 0
  resBase : Table Nat := []
  replays : List Nat := []
  withdrawn : Bool := false
deriving DecidableEq, Repr

/-! ### Patches, barrier objects, fault records -/

/-- A barrier object (R296): phase, arrival count, expected count of the current phase. -/
structure BarObj where
  phase : BitVec 32 := 0
  count : Nat := 0
  expect : Nat := 0
deriving DecidableEq, Repr

/-- A fault waiting to be recorded (R337). -/
structure FaultInfo where
  cause : BitVec 8
  sub : BitVec 8
  flags : BitVec 8
  slot : Option Nat
  task : Nat
  ctx : Nat
  arm : Nat
  stage : Nat
  lsid : Option Nat
  lane : Option Nat
  blk : Nat
  addr : BitVec 64
  px : Nat
  py : Nat
  chan : Option (Bool × Nat)
  word : Nat
  rin : Rin
  time : Nat
deriving DecidableEq, Repr

/-- What a patch is doing: running, stopping for a fault (R335), stopped by the debugger (R341), frozen after a fault or
STALL_REPORT (R170, R335), resident after retirement (R356), held for its class R record (R320), evicted (R112), frozen
under a pre-empting patch (R350), stopped for a save (R317), not yet started. -/
inductive PatchState where
  | loaded | running | stopping | debugStop | frozen | resident | retiring | evicted | victim | saving
deriving DecidableEq, Repr

/-- A patch (R112, R139 to R143, R296, R320): whose it is, where it stands, its header words, its region sequencer,
its barrier objects, its retention point and its pending fault; whether it was evicted for a launch of priority 7 and goes back first
(R349), what it was doing when it was evicted or frozen, and the packet that launched it; the placer's step that is stopping it, with its packet
(R113), and whether it stands at a context transition for it (R35); the interval whose save it still waits to write, its area having no
room for undo entries (R308, R317). -/
structure Patch where
  lease : Nat
  pk : Nat
  queue : Nat
  ptag : BitVec 32
  x : Nat
  y : Nat
  w : Nat
  h : Nat
  hdr : List CWord
  obj : Nat
  crc : CWord
  st : PatchState
  prio : Nat
  keep : Bool
  seed : BitVec 64
  perms : BitVec 8
  reqs : List (Nat × Nat × Nat)
  latched : Option Nat
  ctx : Nat
  bars : Table BarObj
  lbars : Table BarObj
  retention : Rin
  saveRin : Rin
  launched : Nat
  ingested : Rin
  idle : Nat
  fault : Option FaultInfo
  extra : Nat
  sealpt : Bool
  args : List Value
  host : Option Nat
  loan : Option Nat
  retireRin : Option Rin
  ahead : Bool
  was : PatchState
  words : Value
  stop : Option (Instr × Nat) := none
  held : Bool := false
  saveDue : Option Rin := none
deriving DecidableEq, Repr

/-! ### Queues and the command pipeline -/

/-- A hardware queue (R82 to R85). Closed and zero at reset. -/
structure Queue where
  vf : Nat := 0
  owner : Nat := 0
  prio : Nat := 0
  size : Nat := 0
  posters : List Nat := []
  head : BitVec 32 := 0
  tail : BitVec 32 := 0
  badwr : Nat := 0
  ovfl : Bool := false
  stopped : Bool := false
  chead : BitVec 32 := 0
  ctail : BitVec 32 := 0
  ring : List Value := []
  recs : Table (BitVec 256) := []
  rresv : Nat := 0
  cresv : Nat := 0
deriving DecidableEq, Repr

/-- Where a packet stands in the pipeline (R96): `act` between leaving the dependences and its own effect, `leasing` while a LEASE
is carried out. -/
inductive Stage where
  | validate | depend | act | place | leasing | fill | launch | running | complete
deriving DecidableEq, Repr

/-- A packet that has left its ring (R86, R96, R98): its number and queue, its bytes, where it stands, its ingest, the lease that it
acts for (4,096 is none), whether its waiters stand, its outcome, since when it is ready and by how many levels it has
risen (R99), its patch, the interval whose SEALED it waits for, the requests of a COPY done, its charge, whether the load is skipped or
done, the requests of a COPY, when it began to run or was last on or off a loan, the borrowed cores, when it was done, and the header that
validate read; the VF that its queue served, the generation of its lease, and the borrowed core-ns that are past (R99). -/
structure Pkt where
  num : Nat
  queue : Nat
  words : Value
  stage : Stage
  ingest : Nat
  rin : Rin
  lease : Nat
  registered : Bool
  status : Nat
  field : Nat
  result : BitVec 64
  ready : Option Nat
  levels : Nat
  patch : Option Nat
  sealFor : Option Rin
  copied : Nat
  charge : Nat
  skipFill : Bool
  requests : List Value
  began : Nat
  borrowed : Nat
  doneSeq : Nat
  hdr : List CWord
  vf : Nat := 0
  leaseGen : BitVec 8 := 0
  lent : Nat := 0
deriving DecidableEq, Repr

/-! ### Leases, VFs, owners -/

/-- Lease states (R104). -/
inductive LeaseState where
  | granting | granted | releasing | rinsing
deriving DecidableEq, Repr

/-- A loan carved out of a lease (R100, R116). -/
structure Loan where
  num : Nat
  x : Nat
  y : Nat
  w : Nat
  h : Nat
  borrower : Nat
  rinsed : Bool
deriving DecidableEq, Repr

/-- A profiling session (R364): its buffer ring and the records dropped. -/
structure Profile where
  va : Nat
  size : Nat
  next : Nat
  lost : Nat
deriving DecidableEq, Repr

/-- A peer binding (R378). -/
structure PeerBind where
  px : Nat
  py : Nat
  out : Nat
  device : Nat
  lease : Nat
  rx : Nat
  ry : Nat
  rin : Nat
  port : Nat
deriving DecidableEq, Repr

/-- A lease (R102 to R111, R226, R337, R341): state, generation, rectangle, channel set, second-tier extents, page table
leaves by page index, counters, fault records, loans, session, bindings, pairing; the packet that waits for its rinse, the cores still
to be rinsed, the rectangle and channel set that a RESIZE in progress leads to; its read and write permission in the owner lists of
shared channels and extents, by channel or 2,048 + extent (R107, R108), one that is not listed having both; the lines of its page
table that are poisoned, by level and entry number div 8 (R226, R229); and the number of the next forwarded release that it has not heard
(R352). -/
structure Lease where
  st : LeaseState
  gen : BitVec 8
  vf : Nat
  owner : Nat
  x : Nat
  y : Nat
  w : Nat
  h : Nat
  chans : List Nat
  exts : List Nat
  big : Table (BitVec 64)
  small : Table (BitVec 64)
  epoch : Nat
  hemlint : Nat
  stalelint : Nat
  rollbacks : Nat
  undoStalls : Nat
  denied : Nat
  faults : List (BitVec 512)
  faultCount : BitVec 32
  debug : Bool
  prof : Option Profile
  binds : List PeerBind
  pair : Option (Nat × Nat × BitVec 8)
  loans : List Loan
  reqQueue : Nat
  pk : Option Nat
  rinses : List Nat
  want : Option ((Nat × Nat × Nat × Nat) × List Nat)
  rights : Table (Bool × Bool) := []
  ptBad : List (Nat × Nat) := []
  heardSeq : Nat := 0
deriving DecidableEq, Repr

/-- A snapshot slot of a mailbox (R365, R366). -/
structure Snap where
  sel : BitVec 32 := 0
  lease : Nat := 0
  latch : BitVec 64 := 0
  flag : Bool := false
deriving DecidableEq, Repr

/-- A shootdown in progress (R230): the lease, the page ranges, the block instances that hold older translations (core, slot, number),
and for MIGRATE its range, target and tier while the copy is still to come (R228). -/
structure Shoot where
  lease : Nat
  va : Nat
  size : Nat
  insts : List (Nat × Nat × Nat)
  mig : Option (Nat × Bool)
deriving DecidableEq, Repr

/-- A function's BAR 2 mailbox with the command submitted, its shootdown and its BAR 4 binding (R371, R372), and for a VF its configuration
(R373). Function 0 is the PF. Zero at reset but PERMS, which is 0x10. -/
structure Func where
  cmd : Value := 0
  served : Value := 0
  rsp : Value := 0
  done : Bool := false
  busy : Bool := false
  shoot : Option Shoot := none
  snaps : Table Snap := []
  win : Option (Nat × Nat) := none
  configured : Bool := false
  owner : Nat := 0
  cores : Nat := 0
  chans : Nat := 0
  exts : Nat := 0
  perms : BitVec 8 := 0x10
  credits : List Nat := []
  peer : List Nat := []
  out : Bool := false
  world : Table Snap := []
deriving DecidableEq, Repr

/-- An owner (R99, R358, R374, R385): weight, key hash, meters in table order with what is still below a unit of each, reset
epoch, deficit, and of the meter window its active core cycles by island and its bytes moved. The spec gives no weight before
OWNER: assumption 5. -/
structure Owner where
  weight : Nat := 1
  key : Option (BitVec 384) := none
  meters : Table Nat := []
  fine : Table Nat := []
  epoch : Nat := 0
  deficit : Int := 0
  active : Table Nat := []
  moved : Nat := 0
deriving DecidableEq, Repr

/-! ### Clusters, ports, seals, surroundings -/

/-- A packet in a copy-engine queue (R234, R239): the 64 bytes, the requester and its task slot, the tag it counts under, its number, the
COPY packet it belongs to, the elements done (R237), and whether its next element stalls for undo or escape space (R308). -/
structure CopyEnt where
  id : Nat
  packet : Value
  cid : Nat
  task : Option Nat
  lease : Nat
  gen : BitVec 8
  esc : Bool
  pk : Option Nat
  next : Nat
  rin : Rin
  stalled : Bool := false
deriving DecidableEq, Repr

/-- A cluster (R13, R14, R229, R234): the darned position, the second-level TLB, the 18 copy queues, and the packets
that ended with an error by number, queue and lease (R267). -/
structure Cluster where
  darned : Option Nat := none
  tlb : List TlbEntry := []
  queues : Table (List CopyEnt) := []
  resv : Table Nat := []
  nextId : Nat := 0
  errs : List (Nat × Nat × Nat) := []
deriving DecidableEq, Repr

/-- An undo entry (R305): where the line lies, the owning lease and generation, the interval, the old tag, poison and
data, the controller that holds it, in which area (0 its HBM ring, 1 its slice, 2 + k spare slice k; R307), and whether the entry
itself is poisoned (R326). -/
structure Undo where
  ctrl : Nat
  pa : Nat
  lease : Nat
  gen : BitVec 8
  rin : Rin
  otag : BitVec 16
  poison : Bool
  data : Value
  bad : Bool
  area : Nat := 0
deriving DecidableEq, Repr

/-- A held escape (R323): target, interval, lease (none for a device notification), access code, flags, issuing task and
bytes; its number counts escapes as they were held. -/
structure Escape where
  id : Nat
  loc : Loc
  rin : Rin
  lease : Option Nat
  ac : AC
  irr : Bool
  retained : Bool
  px : Nat
  py : Nat
  slot : Nat
  data : List Byte
deriving DecidableEq, Repr

/-- A waiter registered on a signal's line (R291, R299): a packet, a task on a core, or another device's lease, by device and identity;
whether a write has come since it last read; and the lease and the address under which it waits, a lease-local one where it is remote
(R95, R352). -/
structure Waiter where
  line : Nat
  pk : Option Nat
  core : Option (Nat × Nat)
  woken : Bool
  remote : Option (Nat × Nat) := none
  lease : Nat := 4096
  va : Nat := 0
deriving DecidableEq, Repr

/-- What a device keeps of a lease that has migrated (R352): its identity and generation here, where it went, the device whose tables still
point here, and the number of the next message forwarded. -/
structure Forward where
  lease : Nat
  gen : BitVec 8
  device : Nat
  newLease : Nat
  newGen : Nat
  far : Nat
  next : Nat
deriving DecidableEq, Repr

/-- A class S save or `sealpt` save of one patch (R315, R329): its RIN, the patch and its cores' images. -/
structure Save where
  rin : Rin
  pt : Nat
  patch : Patch
  cores : Table Core
deriving DecidableEq, Repr

/-- The Briuk strip's state at the end of an interval, to which a rollback returns (R326, R327), with the requests of COPY packets
that stood in copy queues, by cluster and queue. -/
structure BriukSnap where
  rin : Rin
  queues : Table Queue
  pipe : List Pkt
  patches : Table Patch
  leases : Table Lease
  copies : List (Nat × Nat × CopyEnt)
deriving DecidableEq, Repr

/-- The image of an evicted patch in the placer's area of the second tier, tagged with its lease's identity and generation (R112). -/
structure Stored where
  lease : Nat
  gen : BitVec 8
  cores : Table Core
deriving DecidableEq, Repr

/-- A peer port (R377, R378, R310): up or down, the last mark sent and received, and flits that it holds, in order of arrival. -/
structure Port where
  down : Bool := false
  marked : Rin := 0
  sent : Rin := 0
  held : List PeerFlit := []
deriving DecidableEq, Repr

/-- The seal protocol's state on this device (R301, R309 to R316, R326, R379): sealed RIN, current RIN, highest RIN
begun, the first RIN since the last rollback, domain, the seal in progress, who is ready, requests waiting, the rollback in progress,
timers, messages sent to other devices, messages arrived and not yet acted on, messages discarded. -/
structure Seal where
  s : Rin := 0
  cur : Rin := 0
  high : Rin := 0
  base : Rin := 0
  formed : Bool := false
  domain : BitVec 16 := 0
  device : Nat := 0
  coordinator : Nat := 0
  members : List Nat := []
  routes : Table Nat := []
  sealing : Option Rin := none
  readySent : Bool := false
  readyFrom : List Nat := []
  requested : Bool := false
  earlySent : Option Rin := none
  poisoned : Option Rin := none
  rolling : Option Rin := none
  rolledFrom : List Nat := []
  timer : Nat := 2000000
  lastAdvance : Nat := 0
  openSince : Nat := 0
  bad : Nat := 0
  outbox : List SealMsg := []
  due : List SealMsg := []
deriving DecidableEq, Repr

/-- The PF event ring's registers (R376) and the entries dropped since the last one written; the entries lie in device memory. -/
structure EventRing where
  base : BitVec 64 := 0
  size : BitVec 32 := 0
  head : BitVec 32 := 0
  tail : BitVec 32 := 0
  en : Bool := false
  dropped : Nat := 0
deriving DecidableEq, Repr

/-- The test-injection block (R416). -/
structure Inject where
  ctl : BitVec 64 := 0
  line : BitVec 64 := 0
  seen : Nat := 0
  fires : Nat := 0
deriving DecidableEq, Repr

/-- An island (R386): status word fields, its clock's cycle count since cold reset (R346), when its last
throttle was and when an event last told of it (R375, R387). VOLT is the nominal voltage, which the spec does not number (assumption 6). -/
structure Island where
  tcount : Nat := 0
  cause : BitVec 4 := 0
  freq : Nat := 2000
  volt : Nat := 0
  cycles : Nat := 0
  cleared : Nat := 0
  told : Nat := 0
deriving DecidableEq, Repr

/-- Trust and firmware (R381 to R384): measurement registers, staged images, boot outcome, report sequence number, the
activation of component 0 or 1 that waits for a SEALED. -/
structure Trust where
  meas : Table (BitVec 384) := []
  staged : Table Image := []
  booted : Bool := false
  failed : Bool := false
  reports : Nat := 0
  activating : Option (Nat × Rin) := none
deriving DecidableEq, Repr

/-- What grants a firing: a task's slot on a core, or a pinned instance's slot (R147, R158). -/
structure Grant where
  cid : Nat
  task : Option Nat
  inst : Nat
  slot : Nat
deriving DecidableEq, Repr

/-- One step that comes from outside or from the device's own timing, with what it brings: the packet that the strip turns
to, the mailbox command and its function, the seal message, the management message, or the interval timer that the PF sets. -/
structure Input where
  step : Instr
  pk : Nat := 0
  cmd : Option (Nat × CmdArgs) := none
  msg : Option SealMsg := none
  mgmt : Option MgmtMsg := none
  timer : Option Nat := none
deriving DecidableEq, Repr, Inhabited

/-- The state of the machine. -/
structure State where
  /-- Cores by x + 64·y; darning cores at 3,072 + cluster (R11, R14). Reset: blank. -/
  cores : Table Core
  /-- Core records of patches frozen under pre-empting work (R350). Reset: none. -/
  victims : Table Core
  /-- Clusters 0 to 191 (R13). Reset: blank. -/
  clusters : Table Cluster
  /-- Device memory by physical address: HBM pseudo-channel c at c·2^28 (R17, R106), second-tier extent e at
      2^42 + e·2^29 (R107). Reset: nothing listed (assumption 1). -/
  mem : Memory
  /-- Interval tags of device-memory lines by line (R303). Reset: all 0. -/
  lineTags : Table (BitVec 16)
  /-- Poisoned device-memory lines (R326). Reset: none. -/
  poison : List Nat
  /-- Host memory by bus address (R227 DEST 1): the world outside that escapes reach. Reset: nothing listed. -/
  hostMem : Memory
  /-- Peer memory by device·2^48 + address (R227 DEST 2, 3). Reset: nothing listed. -/
  peerMem : Memory
  /-- The current RIN of each memory node that a later stamp has reached than the device's own (R302): a controller by its number, 1,632
      the peer ports, 1,633 the Briuk strip. Reset: none. -/
  nodeRins : Table Rin
  /-- Requests that each controller has denied each lease, by 4,096 times the controller plus the lease (R108). Reset: none. -/
  denials : Table Nat
  /-- The undo log, newest first (R305, R307). Reset: empty. -/
  undo : List Undo
  /-- Held escapes, oldest first (R323). Reset: none. -/
  escapes : List Escape
  /-- Numbers of escapes held so far (R332). Reset: 0. -/
  escNext : Nat
  /-- Waiters on signals (R291). Reset: none. -/
  waiters : List Waiter
  /-- Forwarding records of leases that have migrated (R352). Reset: none. -/
  forwards : List Forward
  /-- Patches by number (R112). Reset: none. -/
  patches : Table Patch
  /-- The next patch number. Reset: 0. -/
  nextPatch : Nat
  /-- The eviction store: the images of evicted patches, by patch (R112). Reset: none. -/
  images : Table Stored
  /-- Class S and `sealpt` saves, newest first (R315). Reset: none. -/
  saves : List Save
  /-- Briuk strip states at the ends of unsealed intervals, newest first (R326). Reset: none. -/
  snaps : List BriukSnap
  /-- Hardware queues 0 to 1,023 (R82). Reset: closed. -/
  queues : Table Queue
  /-- Packets in the command pipeline, in order of ingest (R96). Reset: none. -/
  pipe : List Pkt
  /-- The next packet number. Reset: 0. -/
  nextPkt : Nat
  /-- Leases by identity, 0 to 4,095 (R20, R104); an identity not listed is FREE. Reset: none. -/
  leases : Table Lease
  /-- Records of released leases, whose counters and fault ring stay readable until the identity is granted again (R357).
      Reset: none. -/
  released : Table Lease
  /-- How many grants each identity has had: its generation is their number modulo 256 (R103). Reset: 0. -/
  leaseGrants : Table Nat
  /-- The next loan number (R100). Reset: 0. -/
  nextLoan : Nat
  /-- Functions: 0 the PF, 1 to 255 the VFs (R369, R371, R373). -/
  funcs : Table Func
  /-- NumVFs under SR-IOV (R369). Reset: 0. -/
  numVfs : Nat
  /-- Owners 0 to 255 (R20, R99, R358, R374). -/
  owners : Table Owner
  /-- The dispatcher's next owner (R99). Reset: 0. -/
  drrNext : Nat
  /-- The next queue that ingest visits (R96). Reset: 0. -/
  ingestNext : Nat
  /-- Withdrawn Briuk strip positions by y (R15). Reset: none. -/
  stripDown : List Nat
  /-- Strip positions on their darning core, by y (R15). Reset: none. -/
  stripDarned : List Nat
  /-- The device has stopped (R15). Reset: running. -/
  stopped : Bool
  /-- Ingest is stopped for a firmware activation (R384). Reset: no. -/
  quiesced : Bool
  /-- Seal protocol (R301, R309). -/
  sl : Seal
  /-- Peer ports 0 to 17 (R377). -/
  ports : Table Port
  /-- Flits and messages given to the peer ports, oldest first (R377). Reset: none. -/
  peerOut : List PeerFlit
  /-- The ring node that holds the serialising token (R288): 0 to 7 HBM stacks, 8 LPDDR6, 9 peer ports, 10 Briuk strip. -/
  token : Nat
  /-- PF event ring (R376). -/
  events : EventRing
  /-- Test injection (R416). -/
  inject : Inject
  /-- Islands 0 to 31 (R386). -/
  islands : Table Island
  /-- When the meter window in progress began (R358). Reset: 0. -/
  meterAt : Nat
  /-- Module power cap in W, 0 for none (R375). Reset: 0. -/
  pwrCap : Nat
  /-- Trust and firmware (R381, R384). -/
  trust : Trust
  /-- Device time in nanoseconds since cold reset (R346). Reset: 0. -/
  time : Nat
  /-- Malformed or refused messages from outside answered so far: the last completion code of R385. Reset: 0. -/
  mctpCode : Nat
  /-- What the last host read returned (R290, R366), the model's own output. Reset: 0. -/
  readback : Value
  /-- Steps to run next that come from outside or from the device's own timing, the model's own. Reset: none. -/
  inputs : List Input
  /-- Posted writes of functions held at the host port, in order of arrival (R290, R308). Reset: none. -/
  posted : List Instr
  /-- The packet that the Briuk strip turns to (R96): its number. Reset: 0. -/
  pkSel : Nat
  /-- The mailbox command being carried out, with its function (R371). Reset: none. -/
  cmdIn : Option (Nat × CmdArgs)
  /-- The seal message that has arrived (R311). Reset: none. -/
  msgIn : Option SealMsg
  /-- The management message that has arrived (R384, R385, R388). Reset: none. -/
  mgmtIn : Option MgmtMsg
  /-- The interval timer in ns that the PF sets with this step (R316, assumption 88). Reset: none. -/
  timerIn : Option Nat
  /-- Firings granted and not yet run (R147), the model's own. Reset: none. -/
  grants : List Grant
  /-- The firing being run, the model's own program counter. Reset: none. -/
  cur : Option Grant
  /-- Counts steps, for free values; the model's own. Reset: 0 (DESIGN CHOICE, assumption 2). -/
  tick : Nat
deriving DecidableEq, Repr

/-- Why the machine stops. -/
inductive Fault where
  /-- Raised by `step` when the next input is not a step the device can be given: an argument outside the ranges the
      spec gives its agents (R11, R13, R20, R82, R377). Safe: nothing outside the device can name such an agent. -/
  | illFormedInput
deriving DecidableEq, Repr

/-- Why a step is refused. -/
inductive Refusal where
  /-- Raised by `exec` for a row that has no meaning yet. Safe. -/
  | notModelled (mnemonic : String)
deriving DecidableEq, Repr

/-- The machine right after a module cold reset (R388): nothing leased, nothing loaded, every core rinsed, every queue
closed, device time 0. -/
def State.reset : State where
  cores := []
  victims := []
  clusters := []
  mem := []
  lineTags := []
  poison := []
  hostMem := []
  peerMem := []
  nodeRins := []
  denials := []
  undo := []
  escapes := []
  escNext := 0
  waiters := []
  forwards := []
  patches := []
  nextPatch := 0
  images := []
  saves := []
  snaps := []
  queues := []
  pipe := []
  nextPkt := 0
  leases := []
  released := []
  leaseGrants := []
  nextLoan := 0
  funcs := []
  numVfs := 0
  owners := []
  drrNext := 0
  ingestNext := 0
  stripDown := []
  stripDarned := []
  stopped := false
  quiesced := false
  sl := {}
  ports := []
  peerOut := []
  token := 0
  events := {}
  inject := {}
  islands := []
  meterAt := 0
  pwrCap := 0
  trust := {}
  time := 0
  mctpCode := 0
  readback := 0
  inputs := []
  posted := []
  pkSel := 0
  cmdIn := none
  msgIn := none
  mgmtIn := none
  timerIn := none
  grants := []
  cur := none
  tick := 0

end Sys2Proof.Machine
end

