-- ==== Sys2Proof/Config.lean ====
section
/-! DEFINITION. What the spec leaves open, as opaque constants: no proof can see a value of one. Each is a free value of its
arguments (assumption 2); the ones that take a `tick` are fresh at each step. -/

namespace Sys2Proof.Config

/-- Special functions: the candidate result for an operation, a format code and an input encoding (R215). It is used
where it lies within the bound that R215 sets. -/
opaque sfu : Nat → Nat → Nat → Nat

/-- How many nanoseconds a step takes, by step number (R81, R346). -/
opaque stepTime : Nat → Nat

/-- How many cycles island k's clock passes in a step, by step number and island (R346, R386). -/
opaque stepCycles : Nat → Nat → Nat

/-- The C role's pseudo-LRU state of a set after an access to a way, from the state before (R127). -/
opaque plruTouch : Nat → Nat → Nat

/-- The way that a set's pseudo-LRU state names as victim (R127, R260). -/
opaque plruVictim : Nat → Nat

/-- The TLB entry that a fill replaces, by step number (R229). -/
opaque victimTlb : Nat → Nat

/-- The ring node nearest to a core (R288), by core. -/
opaque nearNode : Nat → Nat

/-- SHA-384 of bytes (R374, R381, R383). -/
opaque sha384 : List Byte → BitVec 384

/-- Whether an RSA-3072 signature verifies over bytes: the key's modulus (empty for the fused key of R382), the bytes, the signature
(R382, R385). -/
opaque rsaOk : List Byte → List Byte → List Byte → Bool

/-- Whether an SLH-DSA signature verifies over bytes (R382): the bytes, the signature. -/
opaque slhOk : List Byte → List Byte → Bool

/-- A byte of an attestation or report signature over bytes (R359, R383): whether it is the SLH-DSA one, the bytes, the place. -/
opaque sign : Bool → List Byte → Nat → BitVec 8

/-- The 16 ASCII digits of the module's serial number (R1, R385), by place. -/
opaque serial : Nat → BitVec 8

/-- The 16 bytes of serial and stepping code in a report (R1, R359), by place. -/
opaque ident : Nat → BitVec 8

/-- The fused minimum security version of a component (R382): 0 hub core, 1 Briuk strip, 2 management controller. -/
opaque fusedMin : Nat → Nat

/-- The boot ROM, which MEAS0 measures (R381). -/
opaque bootRom : List Byte

/-- The domain and permission settings that MEAS4 measures (R381). -/
opaque settings : List Byte

/-- A cycle count that a counter of R361 adds for a step, by step number, core and counter. -/
opaque counted : Nat → Nat → Nat → Nat

/-- A byte of a save's header or of the last 256 KiB of a core's slot, whose layout the spec does not give (R315), by step number and
offset. -/
opaque saveByte : Nat → Nat → BitVec 8

/-- The bank of C, counted from its first, that holds a set's way (R127, R129). -/
opaque cBank : Nat → Nat → Nat

/-- Which of the values that R245 allows an element under overlapping runs, or an `ldt` of a row under a run, gets: by step number, core
and tile byte. -/
opaque mangleMix : Nat → Nat → Nat → Nat

/-- What reaches the device, or what its own timing brings next, when nothing is placed in the state's inputs, by step number (R81,
R388). -/
opaque freeInput : Nat → Machine.Input

end Sys2Proof.Config
end

