-- ==== Sys2Proof/Machine/Legal.lean ====
section
/-! DEFINITION. What a legal Echeder instruction word may hold beyond the fields' own ranges (R42 to R61, R172, R202, R207 to R223,
R258 to R274, R287 to R299, R328, R342): the operands each row takes, whether it has a result, and the limits of its
fields. The ranges of an event's arguments stand here too. -/

namespace Sys2Proof.Machine

/-- E, the element count of an integer width (R42, R5). -/
def intCount : IntW → Nat
  | .s64 => 1 | .s32 => 1 | .v32 => 16 | .h16 => 32 | .b8 => 64 | .q4 => 128 | .d64 => 8

/-- n, the element width of an integer width code in bits (R42). -/
def intBits : IntW → Nat
  | .s64 => 64 | .s32 => 32 | .v32 => 32 | .h16 => 16 | .b8 => 8 | .q4 => 4 | .d64 => 64

/-- Whether an integer width code is scalar (R42). -/
def intScalar : IntW → Bool
  | .s64 => true | .s32 => true | _ => false

/-- The width of a floating format in bits (R68). -/
def fmtBits : Fmt → Nat
  | .f64 => 64 | .f32 => 32 | .bf16 => 16 | .f16 => 16 | .e4m3 => 8 | .e5m2 => 8 | .e2m1 => 4 | .e8m0 => 8

/-- The element count of a floating format in its shaped form (R42). -/
def fmtCount (f : Fmt) : Nat := 512 / fmtBits f

/-- Fraction bits plus one: the precision of a format (R68). -/
def fmtPrec : Fmt → Nat
  | .f64 => 53 | .f32 => 24 | .bf16 => 8 | .f16 => 11 | .e4m3 => 4 | .e5m2 => 3 | .e2m1 => 2 | .e8m0 => 1

/-- The exponent bias of a format (R68). -/
def fmtBias : Fmt → Int
  | .f64 => 1023 | .f32 => 127 | .bf16 => 127 | .f16 => 15 | .e4m3 => 7 | .e5m2 => 15 | .e2m1 => 1 | .e8m0 => 127

/-- The exponent of the largest finite value (R68). -/
def fmtEmax : Fmt → Int
  | .f64 => 1023 | .f32 => 127 | .bf16 => 127 | .f16 => 15 | .e4m3 => 8 | .e5m2 => 15 | .e2m1 => 2 | .e8m0 => 127

/-- The exponent of the smallest subnormal, the finest spacing of the format (R68); for e8m0 that of its smallest value. -/
def fmtEsub (f : Fmt) : Int :=
  if f = .e8m0 then -127 else 1 - fmtBias f - (fmtPrec f - 1 : Nat)

/-- Whether a conversion is narrowing (R73): some finite source value has no exact place in the destination. -/
def narrowing (src dst : Fmt) : Bool :=
  if dst = .e8m0 then src != .e8m0
  else ! (decide (fmtPrec src ≤ fmtPrec dst) && decide (fmtEsub dst ≤ fmtEsub src) && decide (fmtEmax src ≤ fmtEmax dst))

/-- Floating formats by code EC[2:0] (R42). -/
def fmtOf : BitVec 3 → Fmt
  | 0#3 => .f64 | 1#3 => .f32 | 2#3 => .bf16 | 3#3 => .f16 | 4#3 => .e4m3 | 5#3 => .e5m2 | 6#3 => .e2m1 | _ => .e8m0

/-- Integer size codes 0 to 4 in bits (R207). -/
def sizeBits (c : BitVec 3) : Nat :=
  match c with
  | 0#3 => 64 | 1#3 => 32 | 2#3 => 16 | 3#3 => 8 | _ => 4

/-- The operands A, B and C that an Echeder instruction takes (R44, and each instruction's entry), in a fired block. -/
def takes : Instr → Bool × Bool × Bool
  | .exitJ _ | .exitCi _ | .movh _ _ | .mov _ | .pnot _ | .lmask _ _ | .anyl _ _ | .alll _ _ => (true, false, false)
  | .pand _ | .por _ | .pxor _ => (true, true, false)
  | .sel _ _ => (true, true, true)
  | .test _ _ _ b => (true, b.isNone, false)
  | .add _ _ b | .sub _ _ b | .adds _ _ b | .subs _ _ b | .mul _ _ b | .mulh _ _ b | .mulhz _ _ b | .div _ _ b
  | .divz _ _ b | .rem _ _ b | .remz _ _ b | .and _ _ b | .or _ _ b | .xor _ _ b | .andn _ _ b | .orn _ _ b
  | .shl _ _ b | .shr _ _ b | .sar _ _ b | .rol _ _ b | .ext _ _ b | .extz _ _ b | .min _ _ b | .max _ _ b
  | .minz _ _ b | .maxz _ _ b | .lea _ _ b => (true, b.isNone, false)
  | .mad _ _ b | .ins _ _ b => (true, b.isNone, true)
  | .clz _ _ | .ctz _ _ | .popc _ _ | .brev _ _ | .bswap _ _ | .abs _ _ | .neg _ _ => (true, false, false)
  | .fadd _ _ b | .fsub _ _ b | .fmul _ _ b | .fmin _ _ b | .fmax _ _ b | .fcpys _ _ b | .fdiv _ _ b =>
    (true, b.isNone, false)
  | .ffma _ _ b | .ffms _ _ b | .fnma _ _ b => (true, b.isNone, true)
  | .fabs _ _ | .fneg _ _ | .fclass _ _ _ | .frcp _ _ | .frsq _ _ | .fsqrt _ _ | .fexp2 _ _ | .flog2 _ _ | .fsinp _ _
  | .fcosp _ _ | .ftanh _ _ | .unpack _ _ _ => (true, false, false)
  | .ftest _ _ _ | .pack _ _ _ | .scaleb _ _ _ => (true, true, false)
  | .fcvt _ _ c | .icvtf _ _ c | .fcvti _ _ c => (true, false, c.merge)
  | .dot _ _ _ => (true, true, true)
  | .quant _ ec c => (true, ec.f = .f32, c.merge)
  | .perm _ _ _ | .compr _ _ => (true, true, false)
  | .rotl _ _ dyn _ => (true, dyn, false)
  | .shfl _ _ _ _ | .bcastl _ _ _ | .redl _ _ _ _ _ | .scanl _ _ _ _ _ _ | .accs _ _ _ _ _ | .stopk _ _ | .tkind _ =>
    (true, false, false)
  | .expnd _ _ m => (true, true, m)
  | .lsel _ _ => (true, true, true)
  | .lds _ _ _ | .ldt _ _ _ | .ldg _ _ _ _ | .ldn _ _ _ | .prf _ _ _ => (true, false, false)
  | .sts _ _ _ | .stt _ _ _ | .stg _ _ _ _ | .stn _ _ _ | .ldgv _ _ _ _ | .stx _ _ _ | .stxIrr _ _ _ => (true, true, false)
  | .stgv _ _ _ _ => (true, true, true)
  | .atms _ op _ _ | .atmg _ op _ _ | .atmn _ op _ _ => (true, true, op = .cas)
  | .cctlWb _ _ | .cctlInv _ _ | .cctlWbinv _ _ | .cpy _ _ | .tagw _ _ _ | .tagff _ _ | .tagclr _ | .mload _ _
  | .marm _ _ | .mzero _ | .pleat _ | .pleatw _ | .pleatq _ | .swm _ | .sealw _ | .waitb _ _ _ | .send _ _ _
  | .constw _ _ _ _ _ | .csrw _ _ | .svcHemlint _ | .svcStalelint _ | .svcRollbacks _ | .svcIdent _ | .svcNotify _
  | .svcReserved _ _ => (true, false, false)
  | .waitm _ _ _ | .tspawn _ _ | .qpost _ _ => (true, true, false)
  | _ => (false, false, false)

/-- The operands taken in a pinned block: streaming `ldg` takes none and streaming `stg` takes B alone (R258). -/
def takesPinned : Instr → Bool × Bool × Bool
  | .ldg _ _ _ _ => (false, false, false)
  | .stg _ _ _ _ => (false, true, false)
  | i => takes i

/-- What an instruction's targets may be: none (no result), any, write entries only (a result formed at commit, R151),
or out-channels only (R220). -/
inductive Results where
  | none | any | writes | outs
deriving DecidableEq, Repr

/-- The result of each Echeder row (R172 and the entries). -/
def results : Instr → Results
  | .exitB _ _ | .exitJ _ | .exitRet _ | .exitT _ | .exitY _ _ | .nulls _ _ | .sts _ _ _ | .stt _ _ _ | .stg _ _ _ _
  | .stgv _ _ _ _ | .prf _ _ _ | .stn _ _ _ | .cctlWb _ _ | .cctlInv _ _ | .cctlWbinv _ _ | .cctlWball _ _
  | .cctlInvall _ _ | .cpy _ _ | .qpost _ _ | .stx _ _ _ | .stxIrr _ _ _ | .send _ _ _ | .constw _ _ _ _ _ | .markt _ _
  | .trap _ _ | .brk _ _ | .nop _ => .none
  | .atms _ _ _ _ | .atmg _ _ _ _ | .atmn _ _ _ _ | .swm _ | .arrive _ _ _ _ => .writes
  | .accs _ _ _ _ _ | .stopk _ _ => .outs
  | _ => .any

/-- A target byte's own limits (R44). -/
def targetOk (r : Results) (t : Target) : Bool :=
  match t with
  | .none => true
  | .write _ => r = .any || r = .writes
  | .out n => (r = .any || r = .outs) && decide (n.toNat < 16)
  | _ => r = .any

/-- T0 and T1 together: each legal, and not the same destination (R44). -/
def headOk (r : Results) (h : Head) : Bool :=
  targetOk r h.t0 && targetOk r h.t1 && (h.t0 = .none || h.t0 != h.t1)

/-- The head of an Echeder instruction; an event has none. -/
def headOf : Instr → Option Head
  | .exitB h _ | .exitJ h | .exitC h _ | .exitCi h | .exitRet h | .exitT h | .exitY h _ | .nullw h | .nulls h _
  | .movi h _ _ | .movh h _ | .mov h | .getid h _ | .constk h _ | .pand h | .por h | .pxor h | .pnot h | .sel h _
  | .lmask h _ | .anyl h _ | .alll h _ | .test h _ _ _ | .add h _ _ | .sub h _ _ | .adds h _ _ | .subs h _ _ | .mul h _ _
  | .mulh h _ _ | .mulhz h _ _ | .mad h _ _ | .div h _ _ | .divz h _ _ | .rem h _ _ | .remz h _ _ | .and h _ _ | .or h _ _
  | .xor h _ _ | .andn h _ _ | .orn h _ _ | .shl h _ _ | .shr h _ _ | .sar h _ _ | .rol h _ _ | .clz h _ | .ctz h _
  | .popc h _ | .brev h _ | .bswap h _ | .ext h _ _ | .extz h _ _ | .ins h _ _ | .min h _ _ | .max h _ _ | .minz h _ _
  | .maxz h _ _ | .abs h _ | .neg h _ | .lea h _ _ | .fadd h _ _ | .fsub h _ _ | .fmul h _ _ | .ffma h _ _ | .ffms h _ _
  | .fnma h _ _ | .fmin h _ _ | .fmax h _ _ | .fabs h _ | .fneg h _ | .fcpys h _ _ | .ftest h _ _ | .fclass h _ _
  | .fcvt h _ _ | .icvtf h _ _ | .fcvti h _ _ | .frcp h _ | .frsq h _ | .fsqrt h _ | .fdiv h _ _ | .fexp2 h _ | .flog2 h _
  | .fsinp h _ | .fcosp h _ | .ftanh h _ | .dot h _ _ | .pack h _ _ | .unpack h _ _ | .scaleb h _ _ | .quant h _ _
  | .perm h _ _ | .rotl h _ _ _ | .shfl h _ _ _ | .bcastl h _ _ | .redl h _ _ _ _ | .scanl h _ _ _ _ _ | .compr h _
  | .expnd h _ _ | .lsel h _ | .iota h _ _ _ | .accs h _ _ _ _ | .stopk h _ | .tkind h | .redn h _ _ _ _ _ | .lds h _ _
  | .sts h _ _ | .ldt h _ _ | .stt h _ _ | .ldg h _ _ _ | .stg h _ _ _ | .ldgv h _ _ _ | .stgv h _ _ _ | .prf h _ _
  | .ldn h _ _ | .stn h _ _ | .atms h _ _ _ | .atmg h _ _ _ | .atmn h _ _ _ | .cctlWb h _ | .cctlInv h _ | .cctlWbinv h _
  | .cctlWball h _ | .cctlInvall h _ | .cpy h _ | .cpyqf h _ _ _ | .tagw h _ _ | .tagff h _ | .tagclr h | .tagrd h _
  | .mload h _ | .mswap h | .marm h _ | .mfence h | .mwait h | .mchk h _ | .mzero h | .pleat h | .pleatw h | .pleatq h
  | .occ h _ | .swm h | .rinr h _ | .sealpt h | .sealw h | .sealrqNowait h | .sealrqWait h | .stx h _ _ | .stxIrr h _ _
  | .escw h | .fenceAcq h _ | .fenceRel h _ | .fenceBoth h _ | .fenceSc h _ | .arrive h _ _ _ | .waitb h _ _ | .bar h
  | .waitm h _ _ | .send h _ _ | .recv h _ | .bind h _ _ | .waitc h _ _ | .tspawn h _ | .tstat h | .qpost h _
  | .constw h _ _ _ _ | .markt h _ | .trap h _ | .brk h _ | .csrr h _ | .csrw h _ | .svcHemlint h | .svcStalelint h
  | .svcRollbacks h | .svcIdent h | .svcNotify h | .svcReserved h _ | .rdcyc h | .rdtime h | .nop h => some h
  | _ => none

/-- The memory format's own limits (R48): SC needs device or system scope. -/
def memOk (m : MemF) : Bool :=
  ! m.sc || m.osc = some .device || m.osc = some .system

/-- IMM beyond the bits that R43 uses must be zero: `n` bits are used. -/
def immOk (n : Nat) (b : Option (BitVec 32)) : Bool :=
  match b with
  | none => true
  | some v => decide (v.toNat < 2 ^ n)

/-- R43 for an integer element code: 32 bits are used for 32-bit and 64-bit elements, else the element's width. -/
def immInt (w : IntW) (b : Option (BitVec 32)) : Bool := immOk (Nat.min 32 (intBits w)) b

/-- R43 for a floating element code. -/
def immFlt (f : Fmt) (b : Option (BitVec 32)) : Bool := immOk (Nat.min 32 (fmtBits f)) b

/-- The access codes a store takes (R56). -/
def acStore : AC → Bool
  | .z8 | .z16 | .z32 | .z64 | .v | .l => true
  | _ => false

/-- The access codes of a gather (R56: 0 to 6). -/
def acGather : AC → Bool
  | .v | .l => false
  | _ => true

/-- The access codes of a scatter (R259: 0 to 3). -/
def acScatter : AC → Bool
  | .z8 | .z16 | .z32 | .z64 => true
  | _ => false

/-- The access codes an sc access may have (R261: 0 to 3 and 9). -/
def acSc : AC → Bool
  | .z8 | .z16 | .z32 | .z64 | .l => true
  | _ => false

/-- The four wide formats (R202). -/
def wide : Fmt → Bool
  | .f64 | .f32 | .bf16 | .f16 => true
  | _ => false

/-- The formats of the special functions (R202). -/
def special : Fmt → Bool
  | .f32 | .bf16 | .f16 => true
  | _ => false

/-- A lane-network element code (R217). -/
def laneOk : EC → Bool
  | .int e => match e.w with
    | .v32 | .h16 | .b8 | .d64 => true
    | _ => false
  | .flt e => ! e.scalar && e.f != .e2m1

/-- Element width and count of a lane element code. -/
def ecBits : EC → Nat
  | .int e => intBits e.w
  | .flt e => fmtBits e.f
def ecCount : EC → Nat
  | .int e => intCount e.w
  | .flt e => if e.scalar then 1 else fmtCount e.f

/-- The operation and rounding fields of `redl`, `scanl`, `accs` and `redn` (R219). -/
def redOk (ec : EC) (rnd : BitVec 3) (op : RedOp) : Bool :=
  laneOk ec && match ec with
    | .int _ => rnd = 0
    | .flt _ => decide (rnd.toNat ≤ 4) && (op = .add || op = .min || op = .max)

/-- POS and MERGE between element counts (R208). -/
def posOk (scalar : Bool) (es ed : Nat) (c : CvtF) : Bool :=
  if scalar then c.pos = 0 && ! c.merge
  else decide (c.pos.toNat < Nat.max es ed / Nat.min es ed) && (! c.merge || decide (es < ed))

/-- `fcvt` (R207 to R209). -/
def fcvtOk (ec : FltEC) (c : CvtF) : Bool :=
  ! c.z && decide (c.rnd.toNat ≤ 5) && (c.rnd != 5 || narrowing ec.f (fmtOf c.fmt)) &&
    posOk ec.scalar (fmtCount ec.f) (fmtCount (fmtOf c.fmt)) c

/-- The integer side of `icvtf` and `fcvti` (R207, R208, R210). -/
def icvtOk (ec : FltEC) (c : CvtF) (toInt : Bool) : Bool :=
  ec.f != .e8m0 && decide (c.fmt.toNat ≤ 4) && decide (c.rnd.toNat ≤ 4) &&
    (! ec.scalar || decide (c.fmt.toNat ≤ 1)) &&
    (if toInt then ! c.sat && posOk ec.scalar (fmtCount ec.f) (512 / sizeBits c.fmt) c
     else posOk ec.scalar (512 / sizeBits c.fmt) (fmtCount ec.f) c)

/-- The pairs of `pack` and `unpack` (R211). -/
def packPair (w n : Fmt) : Bool :=
  match w, n with
  | .f64, .f32 | .f32, .bf16 | .f32, .f16 | .bf16, .e4m3 | .bf16, .e5m2 | .f16, .e4m3 | .f16, .e5m2
  | .e4m3, .e2m1 | .e5m2, .e2m1 => true
  | _, _ => false

/-- `quant` (R212). -/
def quantOk (ec : FltEC) (c : CvtF) : Bool :=
  ! ec.scalar && special ec.f && ! c.z && decide (c.rnd.toNat ≤ 5) &&
    (if c.fmt = 6 then decide (c.pos.toNat < 4) else (c.fmt = 4 || c.fmt = 5) && decide (c.pos.toNat < 2))

/-- The element codes `mload` accepts (R60, R270). -/
def mloadOk : EC → Bool
  | .int e => e.w = .b8
  | .flt e => ! e.scalar && (e.f = .bf16 || e.f = .f16 || e.f = .e4m3 || e.f = .e5m2 || e.f = .e2m1)

/-- The assigned shape codes (R242). -/
def shapeOk (s : BitVec 5) : Bool :=
  [0x00, 0x04, 0x08, 0x0A, 0x0C, 0x0E, 0x12, 0x14, 0x18].contains s.toNat

/-- The limits of an Echeder instruction's own fields. -/
def fieldsOk : Instr → Bool
  | .exitB _ o | .exitC _ o | .exitY _ o => o.toNat % 8 = 0
  | .movi _ w v => immInt w (some v)
  | .getid _ s => decide (s.toNat < 10)
  | .test _ _ w b => immInt w b
  | .add _ e b | .sub _ e b | .adds _ e b | .subs _ e b | .mul _ e b | .mad _ e b | .and _ e b | .or _ e b | .xor _ e b
  | .andn _ e b | .orn _ e b | .shl _ e b | .shr _ e b | .sar _ e b | .rol _ e b => immInt e.w b
  | .mulh _ e b | .div _ e b | .rem _ e b | .min _ e b | .max _ e b => ! e.z && immInt e.w b
  | .mulhz _ e b | .divz _ e b | .remz _ e b | .minz _ e b | .maxz _ e b => e.z && immInt e.w b
  | .bswap _ e => e.w != .q4
  | .ext _ e b | .extz _ e b | .ins _ e b =>
    (e.w = .s64 || e.w = .s32 || e.w = .v32 || e.w = .d64) && immInt e.w b
  | .abs _ e | .neg _ e => ! e.z
  | .lea _ e b => (e.w = .s64 || e.w = .d64) && immInt e.w b
  | .fadd _ e b | .fsub _ e b | .fmul _ e b | .ffma _ e b | .ffms _ e b | .fnma _ e b | .fmin _ e b | .fmax _ e b
  | .fdiv _ e b => wide e.f && immFlt e.f b
  | .fabs _ e | .fneg _ e => e.f != .e8m0
  | .fcpys _ e b => e.f != .e8m0 && immFlt e.f b
  | .ftest _ e _ => e.f != .e8m0 && e.f != .e2m1
  | .fcvt _ e c => fcvtOk e c
  | .icvtf _ e c => icvtOk e c false
  | .fcvti _ e c => icvtOk e c true
  | .frcp _ e | .frsq _ e | .fexp2 _ e | .flog2 _ e | .fsinp _ e | .fcosp _ e | .ftanh _ e => special e.f
  | .fsqrt _ e => wide e.f
  | .dot _ e r => ! e.scalar && e.f != .f64 && e.f != .f32 && e.f != .e8m0 && decide (r.toNat ≤ 4)
  | .pack _ e c => ! e.scalar && packPair e.f (fmtOf c.fmt) && c.pos = 0 && ! c.merge && ! c.z && decide (c.rnd.toNat ≤ 5)
  | .unpack _ e c =>
    ! e.scalar && packPair (fmtOf c.fmt) e.f && decide (c.pos.toNat < 2) && c.rnd = 0 && ! c.sat && ! c.merge && ! c.z
  | .scaleb _ e r => wide e.f && decide (r.toNat ≤ 4)
  | .quant _ e c => quantOk e c
  | .perm _ e _ | .compr _ e | .expnd _ e _ | .lsel _ e => laneOk e
  | .rotl _ e dyn c => laneOk e && (! dyn || c = 0)
  | .shfl _ e m d => laneOk e && m != 3 && (m != 0 || decide (d.toNat < ecCount e))
  | .bcastl _ e j => laneOk e && decide (j.toNat < ecCount e)
  | .redl _ e g r op | .scanl _ e g _ r op => redOk e r op && (g = 0 || decide (2 ^ g.toNat < ecCount e))
  | .iota _ e _ _ => laneOk e && (match e with
    | .int _ => true
    | .flt x => wide x.f)
  | .accs _ e l r op => redOk e r op && l != 0
  | .stopk _ l => l != 0
  | .redn _ e mask _ r op => redOk e r op && decide (2 ≤ ((List.range 16).filter (mask.getLsbD ·)).length)
  | .lds _ _ m | .ldt _ _ m | .ldn _ _ m => ! m.sc
  | .sts _ ac m | .stt _ ac m | .stn _ ac m => acStore ac && ! m.sc
  | .ldg _ ac _ m => memOk m && (! m.sc || acSc ac)
  | .stg _ ac _ m => acStore ac && memOk m && (! m.sc || acSc ac)
  | .ldgv _ ac _ m => acGather ac && ! m.sc
  | .stgv _ ac _ m => acScatter ac && ! m.sc
  | .prf _ _ m | .cctlWb _ m | .cctlInv _ m | .cctlWbinv _ m => m.osc.isNone && ! m.sc
  | .cctlWball _ m | .cctlInvall _ m => m.osc.isNone && ! m.sc && m.ofs = 0
  | .atms _ _ _ m | .atmn _ _ _ m => ! m.sc
  | .atmg _ _ _ m => memOk m
  | .cpy _ m | .qpost _ m => ! m.sc && m.ofs = 0
  | .cpyqf _ self sys _ => self || sys
  | .tagrd _ s | .rinr _ s => s != 3
  | .mload _ e => mloadOk e
  | .marm _ s => shapeOk s
  | .stx _ ac m | .stxIrr _ ac m => acStore ac && ! m.sc
  | .fenceSc _ sc => sc = .device || sc = .system
  | .arrive _ _ _ e => e != 0
  | .send _ k _ => decide (k.toNat ≤ 12)
  | .waitc _ _ n => n != 0 && decide (n.toNat ≤ 64)
  | .csrr _ r => decide (r.toNat < 12)
  | .csrw _ r => decide (r.toNat < 12) && r != 5 && r != 6 && r != 7
  | .svcReserved _ s => decide (5 ≤ s.toNat)
  | _ => true

/-- The number of core records: 3,072 grid cores and 192 darning cores (R11, R13). -/
def coreCount : Nat := 3264

/-- The ranges of an event's arguments: agents that exist (R11, R13, R16, R20, R77, R82, R234, R369, R377, R386). -/
def eventOk : Instr → Bool
  | .packetWrite fn q _ _ | .resume fn q _ | .chead fn q _ => decide (fn < 256) && decide (q < 1024)
  | .registerWrite fn off len _ => decide (fn < 256) && decide (off < 65536) && (len = 4 || len = 8)
  | .ingest q => decide (q < 1024)
  | .darn cl pos => decide (cl < 192) && decide (pos < 16)
  | .stripCoreFailure y => decide (y < 24)
  | .misrouteReportTimer c o => decide (c < coreCount) && decide (o < 32)
  | .contextRequest c o | .flitArrival c o | .spillStart c o | .spillReturn c o
  | .steer c o | .merge c o | .carry c o | .reorder c o => decide (c < coreCount) && decide (o < 16)
  | .taskStart c t | .tspawnRequest c t | .blockFetch c t | .blockCommit c t | .undoStallTimeout c t
  | .residueMismatch c t _ => decide (c < coreCount) && decide (t < 8)
  | .pleatHandshakeStep c | .issueGrant c _ _ | .weightRecompute c | .pinnedInstanceStart c _ | .tlbWalk c _ | .genReply c
  | .mangleRunStart c | .mangleTile c _ _ | .mangleSwapEffect c | .mangleFenceEffect c | .mloadFill c =>
    decide (c < coreCount)
  | .copyWalk cl q => decide (cl < 192) && decide (q < 18)
  | .sealMark p _ | .peerFlitArrival p _ | .peerPortDown p | .peerPortRecover p => decide (p < 18)
  | .worldSwitch a b => decide (0 < a) && decide (a < 256) && decide (0 < b) && decide (b < 256)
  | .snapshotLoRead f j | .snapshotHiRead f j => decide (f < 256) && decide (j < 64)
  | .throttle k _ | .throttleRecover k => decide (k < 32)
  | .numvfs n => decide (n < 256)
  | .serialisingToken n => decide (n < 11)
  | _ => true

/-- Everything a legal step satisfies beyond its fields' own types. -/
def legal (i : Instr) : Bool :=
  match headOf i with
  | some h => headOk (results i) h && fieldsOk i
  | none => eventOk i

end Sys2Proof.Machine
end

