-- ==== Sys2Proof/Machine/Bits.lean ====
section
/-! DEFINITION. Elements of a 64-byte value (R5, R42), extension, saturation and operand B from IMM (R43). -/

namespace Sys2Proof.Machine

/-- `n` bits read as a signed number: sext(x, n) of R5. -/
def sgn (n x : Nat) : Int := if x % 2 ^ n < 2 ^ (n - 1) then ((x % 2 ^ n : Nat) : Int) else ((x % 2 ^ n : Nat) : Int) - 2 ^ n

/-- The low `n` bits of an integer: two's complement wrap (R65). -/
def wrap (n : Nat) (x : Int) : Nat := (x % 2 ^ n).toNat

/-- sat(x, lo, hi) of R5. -/
def sat (x lo hi : Int) : Int := if x < lo then lo else if hi < x then hi else x

/-- Element `e` of `n` bits of a number. -/
def elemN (v n e : Nat) : Nat := v / 2 ^ (e * n) % 2 ^ n

/-- Element `e` of `n` bits of a value (R5: element e lies at bits [n·e+n−1 : n·e]). -/
def elem (v : Value) (n e : Nat) : Nat := elemN v.toNat n e

/-- Elements of `n` bits joined into a number, the first lowest. -/
def joinN (n : Nat) : List Nat → Nat
  | [] => 0
  | x :: xs => x % 2 ^ n + 2 ^ n * joinN n xs

/-- Elements of `n` bits joined into a value. -/
def join (n : Nat) (xs : List Nat) : Value := BitVec.ofNat 512 (joinN n xs)

/-- The first `k` elements of `n` bits of a value. -/
def elems (n k : Nat) (v : Value) : List Nat := (List.range k).map (elem v n)

/-- The bytes of a value in address order (R5). -/
def valueBytes (v : Value) : List Byte := natBytes 64 v.toNat

/-- A value from its bytes. -/
def bytesValue (bs : List Byte) : Value := BitVec.ofNat 512 (bytesNat bs)

/-- A 64-bit scalar result: [511:64] zero (R42). -/
def scalar (x : Nat) : Value := BitVec.ofNat 512 (x % 2 ^ 64)

/-- Bits [63:0] of a value. -/
def lo64 (v : Value) : Nat := v.toNat % 2 ^ 64

/-- Bits [lo+len−1 : lo] of a value as a number. -/
def bitsOf (v : Value) (lo len : Nat) : Nat := v.toNat / 2 ^ lo % 2 ^ len

/-- The result of an integer instruction from its elements (R184): a 32-bit scalar is extended into [63:32] by EC[3]. -/
def intResult (e : IntEC) (xs : List Nat) : Value :=
  match e.w with
  | .s32 =>
    let x := xs.headD 0 % 2 ^ 32
    if e.z then scalar x else scalar (wrap 64 (sgn 32 x))
  | w => join (intBits w) xs

/-- Operand B formed from IMM under an integer element code (R43). -/
def immIntB (z : Bool) (w : IntW) (imm : BitVec 32) : Value :=
  let x := match w with
    | .s64 | .d64 => if z then imm.toNat else wrap 64 (sgn 32 imm.toNat)
    | w => imm.toNat % 2 ^ intBits w
  join (intBits w) (List.replicate (intCount w) x)

/-- An element-wise integer result (R184). -/
def intMap (e : IntEC) (f : Nat → Nat → Nat → Nat) (a b c : Value) : Value :=
  let n := intBits e.w
  intResult e ((List.range (intCount e.w)).map fun k => f (elem a n k) (elem b n k) (elem c n k) % 2 ^ n)

/-- The result of `test` and `ftest` from the elements' truth (R181, R205): 1 or 0, or all ones or zero. -/
def truthResult (scal : Bool) (n : Nat) (bs : List Bool) : Value :=
  if scal then scalar (bs.headD false).toNat
  else join n (bs.map fun b => if b then 2 ^ n - 1 else 0)

end Sys2Proof.Machine
end

