-- ==== Sys2Proof/Machine/Flags.lean ====
section
/-! DEFINITION. The machine has no flags: conditions are values. This file holds every comparison the spec gives: the
conditions of `test`, `waitm` and WAIT (R181, R299, R88), predicates (R45), and the order of interval numbers (R301). -/

namespace Sys2Proof.Machine

/-- A condition on two n-bit elements (R181): eq to ge signed, lo to hs unsigned. -/
def condHolds (c : Cond) (n a b : Nat) : Bool :=
  match c with
  | .eq => sgn n a = sgn n b
  | .ne => sgn n a != sgn n b
  | .lt => decide (sgn n a < sgn n b)
  | .le => decide (sgn n a ≤ sgn n b)
  | .gt => decide (sgn n b < sgn n a)
  | .ge => decide (sgn n b ≤ sgn n a)
  | .lo => decide (a < b)
  | .ls => decide (a ≤ b)
  | .hi => decide (b < a)
  | .hs => decide (b ≤ a)

/-- Whether a condition reads its elements unsigned, which decides how IMM is extended (R181). -/
def condUnsigned : Cond → Bool
  | .lo | .ls | .hi | .hs => true
  | _ => false

/-- A predicate value is true when bit [0] is 1 (R45). -/
def predTrue (v : Value) : Bool := v.getLsbD 0

/-- a is b or later, counting modulo 2^32 (R301): bit 31 of a − b is 0. -/
def rinGe (a b : Rin) : Bool := decide ((a - b).toNat < 2 ^ 31)

/-- a is later than b (R301). -/
def rinGt (a b : Rin) : Bool := rinGe a b && a != b

end Sys2Proof.Machine
end

