-- ==== Sys2Proof/Machine/Float.lean ====
section
/-! DEFINITION. Floating values (R68, R69): decoding, exact arithmetic on rationals, and the one rounding of R71 to R75. -/

namespace Sys2Proof.Machine

/-- A decoded floating value: NaN, an infinity, or (−1)^neg · m · 2^e exactly. -/
inductive FV where
  | nan
  | inf (neg : Bool)
  | fin (neg : Bool) (m : Nat) (e : Int)
deriving DecidableEq, Repr

/-- A rounding that an element is given (R71, R73): one of the four modes, or stochastic with its 32-bit u. -/
inductive RMode where
  | rne | rtz | rup | rdn
  | sr (u : Nat)
deriving DecidableEq, Repr

/-- Modes by code (R71). -/
def modeOf (c : Nat) : RMode :=
  match c % 4 with
  | 0 => .rne | 1 => .rtz | 2 => .rup | _ => .rdn

/-- The canonical NaN of a format (R68); e2m1 has none and takes +0 (R72). -/
def canonNan : Fmt → Nat
  | .f64 => 0x7FF8000000000000 | .f32 => 0x7FC00000 | .bf16 => 0x7FC0 | .f16 => 0x7E00 | .e4m3 => 0x7F | .e5m2 => 0x7E
  | .e2m1 => 0 | .e8m0 => 0xFF

/-- Whether a format has infinities (R68). -/
def hasInf : Fmt → Bool
  | .f64 | .f32 | .bf16 | .f16 | .e5m2 => true
  | _ => false

/-- The sign bit of an encoding in place, or 0. -/
def signBit (f : Fmt) (neg : Bool) : Nat := if neg then 2 ^ (fmtBits f - 1) else 0

/-- The sign of an encoding (R68); e8m0 has none. -/
def encNeg (f : Fmt) (v : Nat) : Bool := f != .e8m0 && v / 2 ^ (fmtBits f - 1) % 2 = 1

/-- The exponent field of an encoding. -/
def encExp (f : Fmt) (v : Nat) : Nat :=
  if f = .e8m0 then v % 256 else v / 2 ^ (fmtPrec f - 1) % 2 ^ (fmtBits f - fmtPrec f)

/-- The fraction field of an encoding. -/
def encFrac (f : Fmt) (v : Nat) : Nat := if f = .e8m0 then 0 else v % 2 ^ (fmtPrec f - 1)

/-- The largest exponent field of a format. -/
def expMax (f : Fmt) : Nat := if f = .e8m0 then 255 else 2 ^ (fmtBits f - fmtPrec f) - 1

/-- Whether an encoding is NaN (R68). -/
def isNanEnc (f : Fmt) (v : Nat) : Bool :=
  match f with
  | .e2m1 => false
  | .e8m0 => v % 256 = 255
  | .e4m3 => v % 128 = 127
  | f => encExp f v = expMax f && encFrac f v != 0

/-- Whether an encoding is an infinity (R68). -/
def isInfEnc (f : Fmt) (v : Nat) : Bool := hasInf f && encExp f v = expMax f && encFrac f v = 0

/-- Whether an encoding is a non-zero subnormal (R68). -/
def isSubEnc (f : Fmt) (v : Nat) : Bool := f != .e8m0 && encExp f v = 0 && encFrac f v != 0

/-- dec of R201: the value of an encoding; with FTZ a subnormal of the four wide formats is a zero of its sign (R75). -/
def dec (f : Fmt) (ftz : Bool) (v : Nat) : FV :=
  if isNanEnc f v then .nan
  else if isInfEnc f v then .inf (encNeg f v)
  else if f = .e8m0 then .fin false 1 ((v % 256 : Nat) - 127)
  else if encExp f v = 0 then
    if ftz && wide f then .fin (encNeg f v) 0 0 else .fin (encNeg f v) (encFrac f v) (fmtEsub f)
  else .fin (encNeg f v) (2 ^ (fmtPrec f - 1) + encFrac f v) (fmtEsub f + (encExp f v : Nat) - 1)

/-- The encoding of a zero. -/
def encZero (f : Fmt) (neg : Bool) : Nat := signBit f neg

/-- The encoding of the largest finite magnitude (R68). -/
def encMax (f : Fmt) (neg : Bool) : Nat :=
  signBit f neg + match f with
    | .e4m3 => 0x7E
    | .e2m1 => 7
    | .e8m0 => 0xFE
    | f => (expMax f - 1) * 2 ^ (fmtPrec f - 1) + (2 ^ (fmtPrec f - 1) - 1)

/-- The encoding of an infinity, for a format that has one. -/
def encInf (f : Fmt) (neg : Bool) : Nat := signBit f neg + expMax f * 2 ^ (fmtPrec f - 1)

/-- The result of an overflow (R72). -/
def overflow (f : Fmt) (neg : Bool) (mode : RMode) (saturate : Bool) : Nat :=
  let toInf := match mode with
    | .rne | .sr _ => true
    | .rtz => false
    | .rup => ! neg
    | .rdn => neg
  if f = .e2m1 then encMax f neg
  else if saturate || ! toInf then encMax f neg
  else if f = .e4m3 then canonNan f
  else encInf f neg

/-- Whether a truncated quotient with remainder r of d is rounded away from zero (R71, R73). -/
def roundsUp (mode : RMode) (neg odd : Bool) (r d : Nat) : Bool :=
  match mode with
  | .rne => decide (d < 2 * r) || (2 * r = d && odd)
  | .rtz => false
  | .rup => ! neg && r != 0
  | .rdn => neg && r != 0
  | .sr u => decide (u * d < r * 2 ^ 32)

/-- floor(log2(n/d)) for positive n and d. -/
def floorLog2 (n d : Nat) : Int :=
  let k : Int := (Nat.log2 n : Int) - Nat.log2 d
  if (if 0 ≤ k then d * 2 ^ k.toNat ≤ n else d ≤ n * 2 ^ (-k).toNat) then k else k - 1

/-- n/d·2^e scaled to units of 2^q: numerator and denominator. -/
def scaleTo (n d : Nat) (e q : Int) : Nat × Nat :=
  if q ≤ e then (n * 2 ^ (e - q).toNat, d) else (n, d * 2 ^ (q - e).toNat)

/-- The encoding of t·2^q, where t is below 2^prec or equal to it (R68). -/
def encFin (f : Fmt) (neg : Bool) (t : Nat) (q : Int) : Nat :=
  let p := fmtPrec f - 1
  let (t, q) := if t = 2 ^ (p + 1) then (2 ^ p, q + 1) else (t, q)
  if t < 2 ^ p then signBit f neg + t
  else signBit f neg + (q - fmtEsub f + 1).toNat * 2 ^ p + (t - 2 ^ p)

/-- Whether t·2^q exceeds the largest finite value of a format (R72). -/
def exceeds (f : Fmt) (t : Nat) (q : Int) : Bool :=
  let k : Int := (Nat.log2 t : Int) + q
  decide (fmtEmax f < k) || (f = .e4m3 && k = 8 && t = 15)

/-- Rounding (−1)^neg · n/d · 2^e, n and d positive, to any format but e8m0 (R72, R73, R75). -/
def rndPos (f : Fmt) (neg : Bool) (n d : Nat) (e : Int) (mode : RMode) (saturate ftz : Bool) : Nat :=
  let k := floorLog2 n d + e
  let q := if k - (fmtPrec f - 1 : Nat) < fmtEsub f then fmtEsub f else k - (fmtPrec f - 1 : Nat)
  -- below a sixteenth of the finest spacing by thousands of binades the remainder is merely small
  let (N, D) := if k < fmtEsub f - 3000 then (1, 2 ^ 64) else scaleTo n d e q
  let t := N / D + (roundsUp mode neg (N / D % 2 = 1) (N % D) D).toNat
  if t = 0 then encZero f neg
  else if exceeds f t q then overflow f neg mode saturate
  else if ftz && wide f && decide (t < 2 ^ (fmtPrec f - 1)) then encZero f neg
  else encFin f neg t q

/-- Rounding n/d·2^e to e8m0 (R72). -/
def rndE8 (neg : Bool) (n d : Nat) (e : Int) (mode : RMode) (saturate : Bool) : Nat :=
  if neg then 0xFF
  else
    let k := floorLog2 n d + e
    if k < -127 then 0
    else if 127 < k then (if saturate then 0xFE else 0xFF)
    else
      let (N, D) := scaleTo n d e k
      -- N/D lies in [1, 2); the remainder above 1 decides, and a tie goes to the even biased exponent
      let up := match mode with
        | .rdn => false
        | m => roundsUp m false ((k + 127) % 2 = 1) (N - D) D
      let k' : Int := if up then k + 1 else k
      if 127 < k' then (if saturate then 0xFE else 0xFF) else (k' + 127).toNat

/-- An exact result before its one rounding: NaN, an infinity, a zero, or (−1)^neg · n/d · 2^e. -/
inductive Exact where
  | nan
  | inf (neg : Bool)
  | zero (neg : Bool)
  | rat (neg : Bool) (n d : Nat) (e : Int)
deriving DecidableEq, Repr

/-- rnd of R201: one rounding of an exact result. -/
def rnd (f : Fmt) (x : Exact) (mode : RMode) (saturate ftz : Bool) : Nat :=
  match x with
  | .nan => canonNan f
  | .inf neg =>
    if f = .e8m0 then (if neg then 0xFF else if saturate then 0xFE else 0xFF)
    else if hasInf f then encInf f neg else overflow f neg mode saturate
  | .zero neg => if f = .e8m0 then 0xFF else encZero f neg
  | .rat neg n d e => if f = .e8m0 then rndE8 neg n d e mode saturate else rndPos f neg n d e mode saturate ftz

/-- A decoded value as an exact result. -/
def FV.exact : FV → Exact
  | .nan => .nan
  | .inf n => .inf n
  | .fin neg m e => if m = 0 then .zero neg else .rat neg m 1 e

/-- −x. -/
def FV.neg : FV → FV
  | .nan => .nan
  | .inf n => .inf (! n)
  | .fin n m e => .fin (! n) m e

/-- The exact product (R69, R203): a zero carries the exclusive OR of the signs. -/
def FV.mul : FV → FV → FV
  | .nan, _ => .nan
  | _, .nan => .nan
  | .inf a, .inf b => .inf (a != b)
  | .inf a, .fin b m _ => if m = 0 then .nan else .inf (a != b)
  | .fin a m _, .inf b => if m = 0 then .nan else .inf (a != b)
  | .fin a m e, .fin b k g => .fin (a != b) (m * k) (e + g)

/-- A signed integer times a power of two, as a decoded value; `z` is the sign of a zero. -/
def ofInt (x : Int) (e : Int) (z : Bool) : FV :=
  if x = 0 then .fin z 0 0 else .fin (decide (x < 0)) x.natAbs e

/-- A finite value's signed integer at exponent e, at or below its own. -/
def finAt (neg : Bool) (m : Nat) (e g : Int) : Int :=
  let k : Int := (m * 2 ^ (e - g).toNat : Nat)
  if neg then -k else k

/-- The exact sum (R69, R203): zeros of one sign keep it, any other exact zero is +0, or −0 when rounding downward. -/
def FV.add (down : Bool) : FV → FV → FV
  | .nan, _ => .nan
  | _, .nan => .nan
  | .inf a, .inf b => if a = b then .inf a else .nan
  | .inf a, .fin _ _ _ => .inf a
  | .fin _ _ _, .inf b => .inf b
  | .fin a m e, .fin b k g =>
    if m = 0 ∧ k = 0 then .fin (if a = b then a else down) 0 0
    else if m = 0 then .fin b k g
    else if k = 0 then .fin a m e
    else
      let h := if e ≤ g then e else g
      ofInt (finAt a m e h + finAt b k g h) h down

/-- The exact quotient (R69). -/
def FV.div : FV → FV → Exact
  | .nan, _ => .nan
  | _, .nan => .nan
  | .inf _, .inf _ => .nan
  | .inf a, .fin b _ _ => .inf (a != b)
  | .fin a _ _, .inf b => .zero (a != b)
  | .fin a m e, .fin b k g =>
    if k = 0 then (if m = 0 then .nan else .inf (a != b))
    else if m = 0 then .zero (a != b)
    else .rat (a != b) m k (e - g)

/-- The integer square root, bit by bit from bit k down. -/
def isqrtFrom (n : Nat) : Nat → Nat → Nat
  | 0, r => if (r + 1) * (r + 1) ≤ n then r + 1 else r
  | k + 1, r => if (r + 2 ^ (k + 1)) * (r + 2 ^ (k + 1)) ≤ n then isqrtFrom n k (r + 2 ^ (k + 1)) else isqrtFrom n k r

/-- floor(√n). -/
def isqrt (n : Nat) : Nat := isqrtFrom n (Nat.log2 n / 2 + 1) 0

/-- The square root of a positive m·2^e, exact or with a sticky half below its last place (R215). -/
def sqrtRat (m : Nat) (e : Int) : Exact :=
  let m' := if e % 2 = 0 then m else 2 * m
  let e' := if e % 2 = 0 then e else e - 1
  let M := m' * 2 ^ 160
  let r := isqrt M
  if r * r = M then .rat false r 1 (e' / 2 - 80) else .rat false (2 * r + 1) 2 (e' / 2 - 80)

/-- The exact square root (R215): √−0 is −0, any other negative gives NaN. -/
def FV.sqrt : FV → Exact
  | .nan => .nan
  | .inf neg => if neg then .nan else .inf false
  | .fin neg m e => if m = 0 then .zero neg else if neg then .nan else sqrtRat m e

/-- −0 before +0, then by value: whether a decoded non-NaN value is below another (R204). -/
def FV.below : FV → FV → Bool
  | .inf a, .inf b => a && ! b
  | .inf a, _ => a
  | _, .inf b => ! b
  | .fin a m e, .fin b k g =>
    let h := if e ≤ g then e else g
    let x := finAt a m e h
    let y := finAt b k g h
    decide (x < y) || (x = y && a && ! b)
  | _, _ => false

/-- Whether two decoded non-NaN values are equal, −0 and +0 alike (R205). -/
def FV.same : FV → FV → Bool
  | .inf a, .inf b => a = b
  | .fin a m e, .fin b k g =>
    let h := if e ≤ g then e else g
    finAt a m e h = finAt b k g h
  | _, _ => false

/-- Rounding to an integer (R67): round, clamp to the range, NaN to 0. -/
def toIntClamp (x : FV) (mode : RMode) (lo hi : Int) : Int :=
  match x with
  | .nan => 0
  | .inf neg => if neg then lo else hi
  | .fin neg m e =>
    if e < -2000 ∧ m.log2 < 1000 then
      let t : Int := (roundsUp mode neg false (if m = 0 then 0 else 1) (2 ^ 64)).toNat
      sat (if neg then -t else t) lo hi
    else
      let (N, D) := scaleTo m 1 e 0
      let t : Int := (N / D + (roundsUp mode neg (N / D % 2 = 1) (N % D) D).toNat : Nat)
      sat (if neg then -t else t) lo hi

/-- An integer as an exact value. -/
def exactInt (x : Int) : Exact := if x = 0 then .zero false else .rat (decide (x < 0)) x.natAbs 1 0

/-- The rounding that a 3-bit selector gives an element (R71): `dyn` is TCTL[1:0], `u` the element's draw where the
conversion is stochastic. -/
def selMode (sel : BitVec 3) (dyn : Nat) (stoch : Bool) (u : Nat) : RMode :=
  if sel = 5 then .sr u
  else if sel = 4 then (if stoch then .sr u else modeOf dyn)
  else modeOf sel.toNat

/-- Draw d from a generator state (R74). -/
def draw (state : BitVec 64) (d : Nat) : BitVec 64 :=
  let z := state + BitVec.ofNat 64 (d * 0x9E3779B97F4A7C15)
  let z := (z ^^^ (z >>> 30)) * 0xBF58476D1CE4E5B9#64
  let z := (z ^^^ (z >>> 27)) * 0x94D049BB133111EB#64
  z ^^^ (z >>> 31)

/-- u of R73: bits [63:32] of a draw. -/
def drawU (state : BitVec 64) (d : Nat) : Nat := (draw state d).toNat / 2 ^ 32

end Sys2Proof.Machine
end

