-- ==== Sys2Proof/Machine/Special.lean ====
section
/-! DEFINITION. The special functions of R215 and R216. Each takes a fixed function of its input bits that the spec bounds
but does not give: `Config.sfu` proposes a result, which stands where it lies within the bound (computed here in fixed
point with 2^−100 to spare); otherwise the correctly rounded value stands (assumption 7). -/

namespace Sys2Proof.Machine

/-- The seven approximated functions. -/
inductive Sfu where
  | rcp | rsq | exp2 | log2 | sinp | cosp | tanh
deriving DecidableEq, Repr

/-- The number of an operation, for `Config.sfu`. -/
def Sfu.code : Sfu → Nat
  | .rcp => 0 | .rsq => 1 | .exp2 => 2 | .log2 => 3 | .sinp => 4 | .cosp => 5 | .tanh => 6

/-- The unit of fixed-point values here: 2^128. -/
def fxOne : Nat := 2 ^ 128

/-- ln 2 in units of 2^−128. -/
def fxLn2 : Nat := 0xB17217F7D1CF79ABC9E3B39803F2F6AF
/-- log2 e in units of 2^−128. -/
def fxLog2e : Nat := 0x171547652B82FE1777D0FFDA0D23A7D11
/-- π in units of 2^−128. -/
def fxPi : Nat := 0x3243F6A8885A308D313198A2E03707344

/-- Σ term·y^k/k!, `n` more terms from the k-th. -/
def expSeries (y : Nat) : Nat → Nat → Nat → Nat
  | 0, _, _ => 0
  | n + 1, k, term => term + expSeries y n (k + 1) (term * y / fxOne / (k + 1))

/-- 2^f for a fraction f in units of 2^−128, in the same units: in [1, 2). -/
def exp2Frac (f : Nat) : Nat := expSeries (f * fxLn2 / fxOne) 45 0 fxOne

/-- The bits of log2 of m in [1, 2) by repeated squaring, `n` of them. -/
def log2Bits : Nat → Nat → Nat → Nat
  | 0, _, acc => acc
  | n + 1, m, acc =>
    let s := m * m / fxOne
    if 2 * fxOne ≤ s then log2Bits n (s / 2) (2 * acc + 1) else log2Bits n s (2 * acc)

/-- The sine series of y in units of 2^−128, `n` more terms. -/
def sinSeries (y2 : Nat) : Nat → Nat → Int → Int
  | 0, _, _ => 0
  | n + 1, k, term => term + sinSeries y2 n (k + 2) (-(term * y2 / fxOne) / ((k + 1) * (k + 2) : Nat))

/-- sin(π·t) for t in [0, 1/2] in units of 2^−128. -/
def sinPi (t : Nat) : Nat :=
  let y := t * fxPi / fxOne
  (sinSeries (y * y / fxOne) 25 1 y).toNat

/-- m·2^e modulo 2 in units of 2^−128. -/
def mod2 (m : Nat) (e : Int) : Nat :=
  if 1 ≤ e then 0
  else
    let k := (-e).toNat
    m % 2 ^ (k + 1) * fxOne / 2 ^ k

/-- sin(π·t) for t in [0, 2): sign and magnitude. -/
def sinPi2 (t : Nat) : Bool × Nat :=
  let neg := decide (fxOne ≤ t)
  let u := if neg then t - fxOne else t
  (neg, sinPi (if fxOne / 2 < u then fxOne - u else u))

/-- 2^(n + f) as a rational: numerator, denominator and exponent. -/
def exp2Rat (n : Int) (f : Nat) : Nat × Nat × Int :=
  (exp2Frac f, fxOne, if n < -3000 then -3000 else if 3000 < n then 3000 else n)

/-- A finite x = m·2^e as its integer part below and a fraction in units of 2^−128, rounded down. -/
def splitFx (neg : Bool) (m : Nat) (e : Int) : Int × Nat :=
  let n : Int := m * 2 ^ e.toNat * fxOne
  let x : Int := (if neg then -n else n) / 2 ^ (-e).toNat
  (x / (fxOne : Int), (x % (fxOne : Int)).toNat)

/-- The exact value of a function at a non-special finite input, to about 2^−100: a zero or a rational (R215). -/
def sfuValue (op : Sfu) (neg : Bool) (m : Nat) (e : Int) : Exact :=
  match op with
  | .rcp => .rat neg 1 m (-e)
  | .rsq =>
    let m' := if e % 2 = 0 then m else 2 * m
    let e' := if e % 2 = 0 then e else e - 1
    .rat false (2 ^ 160) (isqrt (m' * 2 ^ 320)) (-(e' / 2))
  | .exp2 =>
    if neg ∧ 12 < (Nat.log2 m : Int) + e then .rat false 1 1 (-3000)
    else if 12 < (Nat.log2 m : Int) + e then .rat false 1 1 3000
    else
      let (n, f) := splitFx neg m e
      let (a, d, k) := exp2Rat n f
      .rat false a d k
  | .log2 =>
    let k := (Nat.log2 m : Int) + e
    let f := log2Bits 96 (m * fxOne / 2 ^ Nat.log2 m) 0
    let x : Int := k * 2 ^ 96 + f
    if x = 0 then .zero false else .rat (decide (x < 0)) x.natAbs (2 ^ 96) 0
  | .sinp =>
    let (s, v) := sinPi2 (mod2 m e)
    -- below 2^−128 the sine is π·x to the precision kept
    if v = 0 then .rat neg (m * fxPi) fxOne e else .rat (s != neg) v fxOne 0
  | .cosp =>
    let (s, v) := sinPi2 ((mod2 m e + fxOne / 2) % (2 * fxOne))
    if v = 0 then .zero false else .rat s v fxOne 0
  | .tanh =>
    let (n, f) := splitFx false (2 * m * fxLog2e) (e - 128)
    let E := exp2Frac f * 2 ^ n.toNat
    .rat neg (E - fxOne) (E + fxOne) 0

/-- Whether the candidate lies within `b` units of 2^q of the value. Where the value is held in fixed point and not exactly, the bound is
drawn in by 2^(q−40), more than the value's error, so that no candidate beyond it passes. -/
def within (c : FV) (neg : Bool) (n d : Nat) (e : Int) (b : Nat) (q : Int) (exact : Bool) : Bool :=
  match c with
  | .fin cn cm ce =>
    let s := min (min ce e) (q - 40)
    let cv : Int := finAt cn cm ce s
    let xv : Int := finAt neg n e s
    let bound : Nat := b * 2 ^ (q - s).toNat - if exact then 0 else 2 ^ (q - 40 - s).toNat
    decide ((cv * d - xv).natAbs ≤ bound * d)
  | _ => false

/-- The bound of R215 for a function at a value n/d·2^e: a number of units and their exponent. -/
def sfuBound (op : Sfu) (f : Fmt) (n d : Nat) (e : Int) (xm : Nat) (xe : Int) : Nat × Int :=
  let k := floorLog2 n d + e
  let q := if k - (fmtPrec f - 1 : Nat) < fmtEsub f then fmtEsub f else k - (fmtPrec f - 1 : Nat)
  let abs : Int := if f = .f32 then -22 else -10
  let ulps := if f = .f32 then 2 else 1
  match op with
  | .rcp | .rsq => (1, q)
  | .exp2 | .tanh => (ulps, q)
  | .log2 =>
    let kx := (Nat.log2 xm : Int) + xe
    -- 0.5 ≤ x ≤ 2
    if kx = -1 ∨ kx = 0 ∨ (kx = 1 ∧ xm = 2 ^ Nat.log2 xm) then (1, abs) else (ulps, q)
  | .sinp | .cosp => (1, abs)

/-- Results that R215 and R216 fix exactly. -/
def sfuExact (op : Sfu) (f : Fmt) (x : FV) : Option Nat :=
  let one := encFin f false (2 ^ (fmtPrec f - 1)) (-(fmtPrec f - 1 : Nat))
  let mone := one + signBit f true
  match op, x with
  | _, .nan => some (canonNan f)
  | .rcp, .inf n => some (encZero f n)
  | .rcp, .fin n m _ => if m = 0 then some (encInf f n) else none
  | .rsq, .inf n => some (if n then canonNan f else encZero f false)
  | .rsq, .fin n 0 _ => some (encInf f n)
  | .rsq, .fin true _ _ => some (canonNan f)
  | .rsq, .fin false m e =>
    if m = 2 ^ Nat.log2 m ∧ ((Nat.log2 m : Int) + e) % 2 = 0 then
      some (rnd f (.rat false 1 1 (-(((Nat.log2 m : Int) + e) / 2))) .rne false false)
    else none
  | .exp2, .inf n => some (if n then encZero f false else encInf f false)
  | .exp2, .fin _ 0 _ => some one
  | .exp2, .fin n m e =>
    let i : Int := finAt n m e (min e 0)
    -- an integer whose power is representable
    if e < 0 ∧ m % 2 ^ (-e).toNat ≠ 0 then none
    else
      let v : Int := if e < 0 then i / 2 ^ (-e).toNat else i
      if fmtEsub f ≤ v ∧ v ≤ fmtEmax f then some (rnd f (.rat false 1 1 v) .rne false false) else none
  | .log2, .inf n => some (if n then canonNan f else encInf f false)
  | .log2, .fin _ 0 _ => some (encInf f true)
  | .log2, .fin true _ _ => some (canonNan f)
  | .log2, .fin false m e =>
    if m = 2 ^ Nat.log2 m then some (rnd f (exactInt ((Nat.log2 m : Int) + e)) .rne false false) else none
  | .sinp, .inf _ => some (canonNan f)
  | .sinp, .fin n 0 _ => some (encZero f n)
  | .sinp, .fin n m e =>
    if 0 ≤ e then some (encZero f n)
    else
      let k := (-e).toNat
      if m % 2 ^ k = 0 then some (encZero f n)
      else if m % 2 ^ k = 2 ^ (k - 1) then some (if (m / 2 ^ k % 2 = 1) = (n = true) then one else mone)
      else none
  | .cosp, .inf _ => some (canonNan f)
  | .cosp, .fin _ 0 _ => some one
  | .cosp, .fin _ m e =>
    if 1 ≤ e then some one
    else
      let k := (-e).toNat
      if m % 2 ^ k = 0 then some (if m / 2 ^ k % 2 = 0 then one else mone)
      else if m % 2 ^ k = 2 ^ (k - 1) then some (encZero f false)
      else none
  | .tanh, .inf n => some (if n then mone else one)
  | .tanh, .fin n 0 _ => some (encZero f n)
  | .tanh, .fin n m e =>
    if (Nat.log2 m : Int) + e < -12 then some (rnd f (.rat n m 1 e) .rne false false)
    else if 10 * 2 ^ (if e < 0 then (-e).toNat else 0) ≤ m * 2 ^ e.toNat then some (if n then mone else one)
    else none

/-- A special function at one element (R215, R216), with FTZ on the result (R75). -/
def sfu (op : Sfu) (f : Fmt) (ftz : Bool) (v : Nat) : Nat :=
  let x := dec f ftz v
  let r := match sfuExact op f x, x with
    | some r, _ => r
    | none, .fin neg m e =>
      match sfuValue op neg m e with
      | .rat n a d k =>
        let rounded := rnd f (.rat n a d k) .rne false false
        -- above the largest finite value (R215: frcp and fexp2 overflow)
        let top := floorLog2 a d + k
        let sc := scaleTo a d k (fmtEmax f - (fmtPrec f - 1 : Nat))
        let past := decide (fmtEmax f < top) || (decide (fmtEmax f = top) && decide ((2 ^ fmtPrec f - 1) * sc.2 < sc.1))
        if past then encInf f n
        else
          let (b, q) := sfuBound op f a d k m e
          let c := Config.sfu op.code (fmtCode' f) v % 2 ^ fmtBits f
          if within (dec f false c) n a d k b q (op = .rcp) then c else rounded
      | y => rnd f y .rne false false
    | none, _ => canonNan f
  if ftz && isSubEnc f r then encZero f (encNeg f r) else r
where
  /-- The format's code for the candidate. -/
  fmtCode' : Fmt → Nat
    | .f64 => 0 | .f32 => 1 | .bf16 => 2 | .f16 => 3 | .e4m3 => 4 | .e5m2 => 5 | .e2m1 => 6 | .e8m0 => 7

end Sys2Proof.Machine
end

