-- ==== Sys2Proof/Machine/Operands.lean ====
section
/-! DEFINITION. Operand forms and the results of the computing instructions as functions of their operands: integer
(R184 to R189), floating (R201 to R216) and lane-network (R217 to R219) instructions. -/

namespace Sys2Proof.Machine

/-! ### Operand B (R43) -/

/-- Operand B of an integer instruction: from a producer, or from IMM. -/
def opBInt (e : IntEC) (b : Option (BitVec 32)) (v : Value) : Value :=
  match b with
  | none => v
  | some imm => immIntB e.z e.w imm

/-- Operand B of `test`: unsigned conditions zero-extend IMM, the others sign-extend it (R181). -/
def opBTest (c : Cond) (w : IntW) (b : Option (BitVec 32)) (v : Value) : Value :=
  match b with
  | none => v
  | some imm => immIntB (condUnsigned c) w imm

/-- Operand B formed from IMM under a floating element code (R43): an f64 takes the f32 value IMM widened exactly. -/
def immFltB (e : FltEC) (imm : BitVec 32) : Value :=
  let x := match e.f with
    | .f64 => rnd .f64 (dec .f32 false imm.toNat).exact .rne false false
    | f => imm.toNat % 2 ^ fmtBits f
  join (fmtBits e.f) (List.replicate (if e.scalar then 1 else fmtCount e.f) x)

/-- Operand B of a floating instruction. -/
def opBFlt (e : FltEC) (b : Option (BitVec 32)) (v : Value) : Value :=
  match b with
  | none => v
  | some imm => immFltB e imm

/-! ### Integer instructions (R184 to R189), one element at a time -/

/-- The range of a type (R65). -/
def typeMin (z : Bool) (n : Nat) : Int := if z then 0 else -(2 ^ (n - 1) : Int)
/-- The range of a type (R65). -/
def typeMax (z : Bool) (n : Nat) : Int := if z then 2 ^ n - 1 else 2 ^ (n - 1) - 1
/-- An element read as signed or unsigned. -/
def rd (z : Bool) (n x : Nat) : Int := if z then (x : Int) else sgn n x

/-- `adds`, `subs` (R185). -/
def satAdd (z : Bool) (n a b : Nat) : Nat := wrap n (sat (rd z n a + rd z n b) (typeMin z n) (typeMax z n))
/-- `subs` (R185). -/
def satSub (z : Bool) (n a b : Nat) : Nat := wrap n (sat (rd z n a - rd z n b) (typeMin z n) (typeMax z n))
/-- `sub` (R185). -/
def subN (n a b : Nat) : Nat := (a + 2 ^ n - b) % 2 ^ n
/-- `mulh`, `mulhz` (R185): the high half of the exact product. -/
def mulHigh (z : Bool) (n a b : Nat) : Nat := wrap n ((rd z n a * rd z n b) / 2 ^ n)
/-- `div`, `divz` (R66). -/
def quot (z : Bool) (n a b : Nat) : Nat := if b = 0 then 2 ^ n - 1 else wrap n (Int.tdiv (rd z n a) (rd z n b))
/-- `rem`, `remz` (R66). -/
def remn (z : Bool) (n a b : Nat) : Nat := if b = 0 then a else wrap n (Int.tmod (rd z n a) (rd z n b))
/-- Bitwise complement in n bits. -/
def notN (n a : Nat) : Nat := 2 ^ n - 1 - a % 2 ^ n
/-- `min`, `minz` (R185). -/
def minN (z : Bool) (n a b : Nat) : Nat := if rd z n b < rd z n a then b else a
/-- `max`, `maxz` (R185). -/
def maxN (z : Bool) (n a b : Nat) : Nat := if rd z n a < rd z n b then b else a
/-- `abs` (R185). -/
def absN (n a : Nat) : Nat := wrap n (sgn n a).natAbs
/-- `neg` (R185). -/
def negN (n a : Nat) : Nat := (2 ^ n - a % 2 ^ n) % 2 ^ n
/-- `shl` (R186). -/
def shlN (n a c : Nat) : Nat := if c < n then a * 2 ^ c % 2 ^ n else 0
/-- `shr` (R186). -/
def shrN (n a c : Nat) : Nat := if c < n then a / 2 ^ c else 0
/-- `sar` (R186). -/
def sarN (n a c : Nat) : Nat := wrap n (sgn n a / 2 ^ (if c < n then c else n))
/-- `rol` (R186). -/
def rolN (n a c : Nat) : Nat := (a * 2 ^ (c % n) + a / 2 ^ (n - c % n)) % 2 ^ n
/-- The bits of an element, lowest first. -/
def bitsN (n a : Nat) : List Bool := (List.range n).map fun i => a.testBit i
/-- Leading false entries. -/
def leading : List Bool → Nat
  | [] => 0
  | true :: _ => 0
  | false :: r => leading r + 1
/-- `clz` (R187). -/
def clzN (n a : Nat) : Nat := leading (bitsN n a).reverse
/-- `ctz` (R187). -/
def ctzN (n a : Nat) : Nat := leading (bitsN n a)
/-- `popc` (R187). -/
def popN (n a : Nat) : Nat := ((bitsN n a).filter id).length
/-- `brev` (R187). -/
def brevN (n a : Nat) : Nat := joinN 1 ((bitsN n a).reverse.map Bool.toNat)
/-- `bswap` (R187). -/
def bswapN (n a : Nat) : Nat := joinN 8 ((List.range (n / 8)).map (elemN a 8)).reverse

/-- The field of `ext`, `extz` and `ins`: position and m = min(l, n) (R188). -/
def extPos (b : Nat) : Nat := b % 128
/-- The field's length (R188). -/
def extLen (n b : Nat) : Nat := Nat.min (b / 256 % 128) n
/-- `extz` (R188). -/
def extzN (n a b : Nat) : Nat := a / 2 ^ extPos b % 2 ^ extLen n b
/-- `ext` (R188). -/
def extN (n a b : Nat) : Nat := if extLen n b = 0 then 0 else wrap n (sgn (extLen n b) (extzN n a b))
/-- `ins` (R188). -/
def insN (n a b c : Nat) : Nat :=
  let k := (2 ^ extLen n b - 1) * 2 ^ extPos b % 2 ^ n
  (a &&& notN n k) ||| ((c * 2 ^ extPos b) &&& k)
/-- `lea` (R189). -/
def leaN (a b : Nat) : Nat := (a + b) % 2 ^ 48

/-- `test` (R181). -/
def testResult (c : Cond) (w : IntW) (a b : Value) : Value :=
  let n := intBits w
  truthResult (intScalar w) n ((List.range (intCount w)).map fun k => condHolds c n (elem a n k) (elem b n k))

/-- `sel` (R183). -/
def selResult (w : IntW) (a b c : Value) : Value :=
  let n := intBits w
  join n ((List.range (intCount w)).map fun k => if elem a n k ≠ 0 then elem b n k else elem c n k)

/-- The non-zero bitmap of `lmask`, `anyl` and `alll` (R183). -/
def nonzero (w : IntW) (a : Value) : List Bool :=
  (List.range (intCount w)).map fun k => elem a (intBits w) k != 0

/-- `movi` (R178): codes 000 and 110 sign-extend, 001 zero-extends. -/
def moviResult (w : IntW) (imm : BitVec 32) : Value :=
  match w with
  | .s32 => scalar imm.toNat
  | w => immIntB false w imm

/-- `movh` (R178): A with bits [63:32] := IMM. -/
def movhResult (imm : BitVec 32) (a : Value) : Value :=
  BitVec.ofNat 512 (a.toNat - bitsOf a 32 32 * 2 ^ 32 + imm.toNat * 2 ^ 32)

/-! ### Floating instructions (R201 to R216) -/

/-- What a floating instruction reads of its task (R201): TCTL[1:0], TCTL[2] and TCTL[3]; pinned blocks have none of
them (R71, R75). `gen` is the generator state and `base` the draws taken by lower slots (R74). -/
structure FEnv where
  dyn : Nat := 0
  sr : Bool := false
  ftz : Bool := false
  gen : BitVec 64 := 0
  base : Nat := 0
deriving DecidableEq, Repr

/-- The rounding of an instruction without a selector (R71, R201). -/
def FEnv.mode (v : FEnv) : RMode := modeOf v.dyn

/-- The rounding of a non-narrowing selector (R71). -/
def FEnv.sel (v : FEnv) (s : BitVec 3) : RMode := selMode s v.dyn false 0

/-- The rounding of a conversion's element k (R71, R73, R74). -/
def FEnv.conv (v : FEnv) (s : BitVec 3) (narrow : Bool) (k : Nat) : RMode :=
  selMode s v.dyn (v.sr && narrow) (drawU v.gen (v.base + k + 1))

/-- Whether a conversion draws (R73, R209). -/
def FEnv.stoch (v : FEnv) (s : BitVec 3) (narrow : Bool) : Bool := s = 5 || (s = 4 && v.sr && narrow)

/-- Elements that a floating element code names. -/
def fltCount (e : FltEC) : Nat := if e.scalar then 1 else fmtCount e.f

/-- An element-wise floating result; a scalar form zeroes every other bit (R42). -/
def fltMap (e : FltEC) (f : Nat → Nat → Nat → Nat) (a b c : Value) : Value :=
  let n := fmtBits e.f
  join n ((List.range (fltCount e)).map fun k => f (elem a n k) (elem b n k) (elem c n k))

/-- The six arithmetic forms (R203). -/
inductive FOp where
  | add | sub | mul | fma | fms | nma
deriving DecidableEq, Repr

/-- The exact result of an arithmetic form (R203). -/
def fopExact (op : FOp) (down : Bool) (a b c : FV) : FV :=
  match op with
  | .add => a.add down b
  | .sub => a.add down b.neg
  | .mul => a.mul b
  | .fma => (a.mul b).add down c
  | .fms => (a.mul b).add down c.neg
  | .nma => (a.mul b).neg.add down c

/-- An arithmetic form on encodings, rounded once (R203). -/
def fopEnc (op : FOp) (f : Fmt) (mode : RMode) (ftz : Bool) (a b c : Nat) : Nat :=
  rnd f (fopExact op (mode = .rdn) (dec f ftz a) (dec f ftz b) (dec f ftz c)).exact mode false ftz

/-- An encoding after `dec`'s flush (R75). -/
def flushEnc (f : Fmt) (ftz : Bool) (v : Nat) : Nat :=
  if ftz && wide f && isSubEnc f v then encZero f (encNeg f v) else v % 2 ^ fmtBits f

/-- `fmin` and `fmax` (R204). -/
def fminmax (mx : Bool) (f : Fmt) (ftz : Bool) (a b : Nat) : Nat :=
  if isNanEnc f a then (if isNanEnc f b then canonNan f else flushEnc f ftz b)
  else if isNanEnc f b then flushEnc f ftz a
  else
    let less := (dec f ftz b).below (dec f ftz a)
    if less != mx then flushEnc f ftz b else flushEnc f ftz a

/-- `fabs`, `fneg`, `fcpys`: a given sign on A's magnitude (R204). -/
def withSign (f : Fmt) (ftz neg : Bool) (a : Nat) : Nat :=
  if isNanEnc f a then canonNan f
  else flushEnc f ftz a - signBit f (encNeg f a) + signBit f neg

/-- `ftest` on decoded values (R205). -/
def fcondHolds (c : FCond) (a b : FV) : Bool :=
  let un := a = .nan || b = .nan
  match c with
  | .eq => ! un && a.same b
  | .ne => un || ! a.same b
  | .lt => ! un && ! a.same b && a.below b
  | .le => ! un && (a.same b || a.below b)
  | .gt => ! un && ! a.same b && b.below a
  | .ge => ! un && (a.same b || b.below a)
  | .un => un
  | .or => ! un

/-- The class of an encoding, bits 0 to 8 of R206. -/
def fclassOf (f : Fmt) (v : Nat) : Nat :=
  if isNanEnc f v then 8
  else if isInfEnc f v then (if encNeg f v then 0 else 7)
  else if f = .e8m0 then 6
  else if encExp f v = 0 ∧ encFrac f v = 0 then (if encNeg f v then 3 else 4)
  else if encExp f v = 0 then (if encNeg f v then 2 else 5)
  else if encNeg f v then 1 else 6

/-- Elements converted and placed (R208): `cv k i` converts source element i, the k-th converted. -/
def placed (es ed bits pos : Nat) (merge : Bool) (cv : Nat → Nat → Nat) (c : Value) : Value :=
  if es < ed then
    join bits ((List.range ed).map fun j =>
      if pos * es ≤ j ∧ j < pos * es + es then cv (j - pos * es) (j - pos * es)
      else if merge then elem c bits j else 0)
  else join bits ((List.range ed).map fun k => cv k (if ed < es then pos * ed + k else k))

/-- `fcvt` (R209). -/
def fcvtResult (v : FEnv) (e : FltEC) (c : CvtF) (a cc : Value) : Value :=
  let d := fmtOf c.fmt
  placed (fltCount e) (if e.scalar then 1 else fmtCount d) (fmtBits d) c.pos.toNat c.merge
    (fun k i => rnd d (dec e.f v.ftz (elem a (fmtBits e.f) i)).exact (v.conv c.rnd (narrowing e.f d) k) c.sat v.ftz) cc

/-- `icvtf` (R210). -/
def icvtfResult (v : FEnv) (e : FltEC) (c : CvtF) (a cc : Value) : Value :=
  let n := sizeBits c.fmt
  placed (if e.scalar then 1 else 512 / n) (fltCount e) (fmtBits e.f) c.pos.toNat c.merge
    (fun _ i => rnd e.f (exactInt (rd c.z n (elem a n i))) (v.sel c.rnd) c.sat v.ftz) cc

/-- `fcvti` (R210, R67); a 32-bit scalar is extended by Z (R208). -/
def fcvtiResult (v : FEnv) (e : FltEC) (c : CvtF) (a cc : Value) : Value :=
  let n := sizeBits c.fmt
  let cv := fun i => wrap n (toIntClamp (dec e.f v.ftz (elem a (fmtBits e.f) i)) (v.sel c.rnd) (typeMin c.z n) (typeMax c.z n))
  if e.scalar then
    if c.z then scalar (cv 0) else scalar (wrap 64 (sgn n (cv 0)))
  else placed (fltCount e) (512 / n) n c.pos.toNat c.merge (fun _ i => cv i) cc

/-- `pack` (R211). -/
def packResult (v : FEnv) (e : FltEC) (c : CvtF) (a b : Value) : Value :=
  let d := fmtOf c.fmt
  let es := fmtCount e.f
  join (fmtBits d) ((List.range (2 * es)).map fun k =>
    rnd d (dec e.f v.ftz (if k < es then elem a (fmtBits e.f) k else elem b (fmtBits e.f) (k - es))).exact
      (v.conv c.rnd true k) c.sat v.ftz)

/-- `unpack` (R211): exact. -/
def unpackResult (v : FEnv) (e : FltEC) (c : CvtF) (a : Value) : Value :=
  let d := fmtOf c.fmt
  let ed := fmtCount d
  join (fmtBits d) ((List.range ed).map fun k =>
    rnd d (dec e.f v.ftz (elem a (fmtBits e.f) (c.pos.toNat * ed + k))).exact .rne false v.ftz)

/-- The magnitude of a finite value as a rational at exponent e, for the largest of a block. -/
def FV.log2 : FV → Option Int
  | .fin _ m e => if m = 0 then none else some ((Nat.log2 m : Int) + e)
  | _ => none

/-- `quant` (R212): the data result and the scale result. -/
def quantResult (v : FEnv) (e : FltEC) (c : CvtF) (a b cc : Value) : Value × Value :=
  let d := fmtOf c.fmt
  let n := fmtBits e.f
  let enc := fun i => if e.f = .f32 then (if i < 16 then elem a n i else elem b n (i - 16)) else elem a n i
  let xs := (List.range 32).map fun i => dec e.f v.ftz (enc i)
  let bad := xs.any fun x => match x with
    | .fin _ _ _ => false
    | _ => true
  let tops := xs.filterMap FV.log2
  let s : Nat :=
    if bad then 0xFF
    else match tops with
      | [] => 0
      | t :: ts => (sat (ts.foldl max t - fmtEmax d) (-127) 127 + 127).toNat
  let q := fun k =>
    if bad then canonNan d
    else match xs.getD k .nan with
      | .fin neg m x => rnd d (FV.fin neg m (x - ((s : Int) - 127))).exact (v.conv c.rnd true k) c.sat v.ftz
      | _ => canonNan d
  let w := fmtBits d
  let data := join w ((List.range (512 / w)).map fun j =>
    if c.pos.toNat * 32 ≤ j ∧ j < c.pos.toNat * 32 + 32 then q (j - c.pos.toNat * 32)
    else if c.merge then elem cc w j else 0)
  (data, BitVec.ofNat 512 (s * 2 ^ (8 * c.pos.toNat)))

/-- `scaleb` (R213). -/
def scalebEnc (f : Fmt) (mode : RMode) (ftz : Bool) (a k : Nat) : Nat :=
  match dec f ftz a with
  | .fin neg m e => rnd f (FV.fin neg m (e + sgn (fmtBits f) k)).exact mode false ftz
  | x => rnd f x.exact mode false ftz

/-- A group's exact sum (R76): NaN, opposite infinities, the zero rule. -/
def groupSum (ts : List FV) : FV :=
  if ts.any (· = .nan) then .nan
  else if ts.any (· = .inf true) then (if ts.any (· = .inf false) then .nan else .inf true)
  else if ts.any (· = .inf false) then .inf false
  else
    let h := ts.foldl (fun h t => match t with
      | .fin _ _ e => min h e
      | _ => h) 0
    let s := ts.foldl (fun (s : Int) t => match t with
      | .fin n m e => s + finAt n m e h
      | _ => s) 0
    ofInt s h (ts.all fun t => match t with
      | .fin n m _ => n && m = 0
      | _ => false)

/-- `dot` (R214). -/
def dotResult (v : FEnv) (e : FltEC) (r : BitVec 3) (a b c : Value) : Value :=
  let n := fmtBits e.f
  let k := 32 / n
  let mode := v.sel r
  join 32 ((List.range 16).map fun lane =>
    let s := groupSum ((List.range k).map fun j =>
      (dec e.f v.ftz (elem a n (lane * k + j))).mul (dec e.f v.ftz (elem b n (lane * k + j))))
    rnd .f32 ((dec .f32 v.ftz (elem c 32 lane)).add (mode = .rdn) s).exact mode false v.ftz)

/-! ### The lane network (R217 to R219) -/

/-- `perm` (R218). -/
def permResult (e : EC) (zoob : Bool) (a b : Value) : Value :=
  let n := ecBits e
  let E := ecCount e
  join n ((List.range E).map fun k =>
    let i := elem b n k
    if zoob && decide (E ≤ i) then 0 else elem a n (i % E))

/-- `rotl` (R218): element e moves to (e + c) mod E. -/
def rotlResult (e : EC) (c : Nat) (a : Value) : Value :=
  let E := ecCount e
  join (ecBits e) ((List.range E).map fun k => elem a (ecBits e) ((k + E - c % E) % E))

/-- `shfl` (R218). -/
def shflResult (e : EC) (mode : BitVec 2) (d : Nat) (a : Value) : Value :=
  let n := ecBits e
  let E := ecCount e
  join n ((List.range E).map fun k =>
    match mode with
    | 0#2 => elem a n (k ^^^ d)
    | 1#2 => if d ≤ k then elem a n (k - d) else elem a n k
    | _ => if k + d < E then elem a n (k + d) else elem a n k)

/-- `bcastl` (R218). -/
def bcastlResult (e : EC) (j : Nat) (a : Value) : Value :=
  join (ecBits e) (List.replicate (ecCount e) (elem a (ecBits e) j))

/-- `compr` (R218). -/
def comprResult (e : EC) (a b : Value) : Value :=
  join (ecBits e) (((List.range (ecCount e)).filter fun k => b.getLsbD k).map (elem a (ecBits e)))

/-- Mask bits set below e. -/
def maskBelow (m : Value) (e : Nat) : Nat := ((List.range e).filter fun k => m.getLsbD k).length

/-- `expnd` (R218). -/
def expndResult (e : EC) (merge : Bool) (a b c : Value) : Value :=
  join (ecBits e) ((List.range (ecCount e)).map fun k =>
    if b.getLsbD k then elem a (ecBits e) (maskBelow b k) else if merge then elem c (ecBits e) k else 0)

/-- `lsel` (R218). -/
def lselResult (e : EC) (a b c : Value) : Value :=
  join (ecBits e) ((List.range (ecCount e)).map fun k =>
    if c.getLsbD k then elem a (ecBits e) k else elem b (ecBits e) k)

/-- `iota` (R218). -/
def iotaResult (e : EC) (base : BitVec 16) (inc : BitVec 8) : Value :=
  join (ecBits e) ((List.range (ecCount e)).map fun (k : Nat) =>
    let v : Int := base.toInt + (k : Nat) * inc.toInt
    match e with
    | .int x => wrap (intBits x.w) v
    | .flt x => rnd x.f (exactInt v) .rne false false)

/-- One step of a reduction (R219): integer add wraps, integer min and max by EC[3]; floating add rounds, min and max as
R204. -/
def redStep (e : EC) (op : RedOp) (mode : RMode) (ftz : Bool) (a b : Nat) : Nat :=
  match e with
  | .int x =>
    let n := intBits x.w
    match op with
    | .add => (a + b) % 2 ^ n
    | .min => minN x.z n a b
    | .max => maxN x.z n a b
    | .and => a &&& b
    | .or => a ||| b
    | .xor => a ^^^ b
  | .flt x =>
    match op with
    | .min => fminmax false x.f ftz a b
    | .max => fminmax true x.f ftz a b
    | _ => fopEnc .add x.f mode ftz a b 0

/-- An element taken as a fold's first partial: a floating NaN is the canonical one, and under FTZ a subnormal of the wide formats is a zero
of its sign (R69, R75). -/
def foldFirst (e : EC) (ftz : Bool) (a : Nat) : Nat :=
  match e with
  | .int _ => a
  | .flt x =>
    if isNanEnc x.f a then canonNan x.f
    else if ftz && wide x.f && isSubEnc x.f a then encZero x.f (encNeg x.f a)
    else a

/-- The identity of an exclusive scan (R219); a format that cannot hold it takes what R72 gives for it (assumption 8). -/
def redIdentity (e : EC) (op : RedOp) : Nat :=
  match e with
  | .int x =>
    let n := intBits x.w
    match op with
    | .add | .or | .xor => 0
    | .and => 2 ^ n - 1
    | .min => wrap n (typeMax x.z n)
    | .max => wrap n (typeMin x.z n)
  | .flt x =>
    match op with
    | .min => rnd x.f (.inf false) .rne false false
    | .max => rnd x.f (.inf true) .rne false false
    | _ => rnd x.f (.zero false) .rne false false

/-- Neighbours combined, left operand first. -/
def pairUp (f : Nat → Nat → Nat) : List Nat → List Nat
  | x :: y :: r => f x y :: pairUp f r
  | r => r

/-- A pairwise tree of `k` levels (R219). -/
def treeFold (f : Nat → Nat → Nat) : Nat → List Nat → List Nat
  | 0, xs => xs
  | k + 1, xs => treeFold f k (pairUp f xs)

/-- The group size of `redl` and `scanl` (R219). -/
def groupSize (e : EC) (g : BitVec 3) : Nat := if g = 0 then ecCount e else 2 ^ g.toNat

/-- `redl` (R219). -/
def redlResult (e : EC) (g : BitVec 3) (op : RedOp) (mode : RMode) (ftz : Bool) (a : Value) : Value :=
  let k := groupSize e g
  join (ecBits e) ((List.range (ecCount e / k)).map fun j =>
    (treeFold (redStep e op mode ftz) (Nat.log2 k) ((List.range k).map fun i => elem a (ecBits e) (j * k + i))).headD 0)

/-- A running fold: every partial, first to last (R219). -/
def runFold (f : Nat → Nat → Nat) : Nat → List Nat → List Nat
  | _, [] => []
  | s, x :: xs => f s x :: runFold f (f s x) xs

/-- The partials of one group (R219). -/
def scanGroup (first : Nat → Nat) (f : Nat → Nat → Nat) (xs : List Nat) : List Nat :=
  match xs with
  | [] => []
  | x :: r => first x :: runFold f (first x) r

/-- `scanl` (R219). -/
def scanlResult (e : EC) (g : BitVec 3) (excl : Bool) (op : RedOp) (mode : RMode) (ftz : Bool) (a : Value) : Value :=
  let k := groupSize e g
  join (ecBits e) ((List.range (ecCount e / k)).flatMap fun j =>
    let r := scanGroup (foldFirst e ftz) (redStep e op mode ftz) ((List.range k).map fun i => elem a (ecBits e) (j * k + i))
    if excl then redIdentity e op :: r.dropLast else r)

/-- A whole value taken as a fold's first, element by element (R221, R223). -/
def foldStart (e : EC) (ftz : Bool) (a : Value) : Value :=
  join (ecBits e) ((List.range (ecCount e)).map fun k => foldFirst e ftz (elem a (ecBits e) k))

/-- One fold of whole values, element by element (R221, R223). -/
def redValue (e : EC) (op : RedOp) (mode : RMode) (ftz : Bool) (a b : Value) : Value :=
  join (ecBits e) ((List.range (ecCount e)).map fun k =>
    redStep e op mode ftz (elem a (ecBits e) k) (elem b (ecBits e) k))

/-! ### Access codes (R56, R253) -/

/-- The bytes of an access code. -/
def acBytes : AC → Nat
  | .z8 | .s8 => 1
  | .z16 | .s16 => 2
  | .z32 | .s32 => 4
  | .z64 => 8
  | .v | .l => 64

/-- A loaded value from its bytes (R56): zero- or sign-extended to 64 bits, or the 64 bytes. -/
def acValue (ac : AC) (bs : List Byte) : Value :=
  let x := bytesNat bs
  match ac with
  | .s8 => scalar (wrap 64 (sgn 8 x))
  | .s16 => scalar (wrap 64 (sgn 16 x))
  | .s32 => scalar (wrap 64 (sgn 32 x))
  | _ => BitVec.ofNat 512 x

/-- The bytes that a store of an access code writes. -/
def acStoreBytes (ac : AC) (v : Value) : List Byte := natBytes (acBytes ac) v.toNat

end Sys2Proof.Machine
end

