-- ==== Sys2Proof/Machine/Tables.lean ====
section
/-! DEFINITION. Reading and writing sparse tables and memories. A memory keeps its canonical form: writing the blank byte
removes the entry. -/

namespace Sys2Proof.Machine

/-! ### Tables -/

/-- The entry at an index, if listed. -/
def tfind {α : Type} : Table α → Nat → Option α
  | [], _ => none
  | (k, v) :: t, i => if k = i then some v else tfind t i

/-- The entry at an index, or the blank. -/
def tgetD {α : Type} (t : Table α) (i : Nat) (d : α) : α := (tfind t i).getD d

/-- An element put before the first that an order does not put before it. -/
def insertBy {α : Type} (le : α → α → Bool) (x : α) : List α → List α
  | [] => [x]
  | y :: ys => if le x y then x :: y :: ys else y :: insertBy le x ys

/-- A list sorted by an order; equal elements keep theirs. -/
def sortBy {α : Type} (le : α → α → Bool) (l : List α) : List α := l.foldr (insertBy le) []

/-- The table with an entry written, indices rising. -/
def tset {α : Type} : Table α → Nat → α → Table α
  | [], i, x => [(i, x)]
  | (k, v) :: t, i, x => if i < k then (i, x) :: (k, v) :: t else if k = i then (i, x) :: t else (k, v) :: tset t i x

/-- The table without an entry. -/
def terase {α : Type} (t : Table α) (i : Nat) : Table α := t.filter (·.1 != i)

/-- Every entry of a table changed. -/
def tmap {α : Type} (f : Nat → α → α) (t : Table α) : Table α := t.map fun e => (e.1, f e.1 e.2)

/-- One entry changed, from the blank if it is not listed. -/
def tmod {α : Type} (t : Table α) (i : Nat) (d : α) (f : α → α) : Table α := tset t i (f (tgetD t i d))

/-! ### Memories -/

/-- The byte at an address. -/
def Memory.get : Memory → Nat → Byte
  | [], _ => Memory.blank
  | (k, v) :: m, a => if k = a then v else Memory.get m a

/-- The memory with one byte written. -/
def Memory.set : Memory → Nat → Byte → Memory
  | [], a, b => if b = Memory.blank then [] else [(a, b)]
  | (k, v) :: m, a, b =>
    if a < k then (if b = Memory.blank then (k, v) :: m else (a, b) :: (k, v) :: m)
    else if k = a then (if b = Memory.blank then m else (a, b) :: m)
    else (k, v) :: Memory.set m a b

/-- `n` bytes from an address up. -/
def Memory.read (m : Memory) (a : Nat) : Nat → List Byte
  | 0 => []
  | n + 1 => m.get a :: Memory.read m (a + 1) n

/-- Bytes written from an address up. -/
def Memory.write (m : Memory) (a : Nat) : List Byte → Memory
  | [] => m
  | b :: bs => Memory.write (m.set a b) (a + 1) bs

/-- A little-endian number of `n` bytes. -/
def Memory.num (m : Memory) (a n : Nat) : Nat := bytesNat (m.read a n)

/-- The bytes of [lo, lo + n) made blank. -/
def Memory.clear (m : Memory) (lo n : Nat) : Memory := m.filter fun c => decide (c.1 < lo) || decide (lo + n ≤ c.1)

/-- The 64-byte line at an address. -/
def Memory.line (m : Memory) (a : Nat) : Value := bytesValue (m.read a 64)

/-- The bytes of [lo, lo + n) moved to `d` in another memory, whose own bytes there are replaced. -/
def Memory.copyIn (dst src : Memory) (lo n d : Nat) : Memory :=
  (src.filter fun c => decide (lo ≤ c.1) && decide (c.1 < lo + n)).foldl (fun m c => m.set (c.1 - lo + d) c.2) (dst.clear d n)

/-! ### Lists -/

/-- Set position i of a list. -/
def lset {α : Type} : List α → Nat → α → List α
  | [], _, _ => []
  | _ :: xs, 0, y => y :: xs
  | x :: xs, i + 1, y => x :: lset xs i y

/-- Change position i of a list. -/
def lmod {α : Type} : List α → Nat → (α → α) → List α
  | [], _, _ => []
  | x :: xs, 0, f => f x :: xs
  | x :: xs, i + 1, f => x :: lmod xs i f

/-- Keep the last `n` of a list. -/
def lastN {α : Type} (n : Nat) (xs : List α) : List α := xs.drop (xs.length - n)

/-- Split a list into its 64-byte groups (the last may be shorter), `fuel` of them at most. -/
def chunks {α : Type} (k : Nat) : Nat → List α → List (List α)
  | 0, _ => []
  | f + 1, xs => if xs.isEmpty then [] else xs.take k :: chunks k f (xs.drop k)

end Sys2Proof.Machine
end

