-- ==== Sys2Proof/Machine/Access.lean ====
section
/-! DEFINITION. Where things stand: cores and their positions (R11 to R15), kernel header fields (R28), configuration fields
(R36), the pool's mapping (R120 to R126), a lease's memory (R106, R107). -/

namespace Sys2Proof.Machine

/-! ### Entries of the state -/

/-- A core's record. -/
def State.core (s : State) (cid : Nat) : Core := tgetD s.cores cid {}
/-- Write a core's record. -/
def State.setCore (s : State) (cid : Nat) (c : Core) : State := { s with cores := tset s.cores cid c }
/-- Change a core's record. -/
def State.modCore (s : State) (cid : Nat) (f : Core → Core) : State := s.setCore cid (f (s.core cid))
/-- A cluster's record. -/
def State.cluster (s : State) (cl : Nat) : Cluster := tgetD s.clusters cl {}
/-- Change a cluster's record. -/
def State.modCluster (s : State) (cl : Nat) (f : Cluster → Cluster) : State :=
  { s with clusters := tset s.clusters cl (f (s.cluster cl)) }
/-- A patch's record. -/
def State.patch (s : State) (pt : Nat) : Option Patch := tfind s.patches pt
/-- Change a patch's record. -/
def State.modPatch (s : State) (pt : Nat) (f : Patch → Patch) : State :=
  { s with patches := tmap (fun k p => if k = pt then f p else p) s.patches }
/-- A lease's record. -/
def State.lease (s : State) (l : Nat) : Option Lease := tfind s.leases l
/-- Change a lease's record. -/
def State.modLease (s : State) (l : Nat) (f : Lease → Lease) : State :=
  { s with leases := tmap (fun k x => if k = l then f x else x) s.leases }
/-- A queue's record. -/
def State.queue (s : State) (q : Nat) : Queue := tgetD s.queues q {}
/-- Change a queue's record. -/
def State.modQueue (s : State) (q : Nat) (f : Queue → Queue) : State := { s with queues := tmod s.queues q {} f }
/-- A function's record. -/
def State.fn (s : State) (f : Nat) : Func := tgetD s.funcs f {}
/-- Change a function's record. -/
def State.modFn (s : State) (f : Nat) (g : Func → Func) : State := { s with funcs := tmod s.funcs f {} g }
/-- An owner's record. -/
def State.ownerOf (s : State) (o : Nat) : Owner := tgetD s.owners o {}
/-- Change an owner's record. -/
def State.modOwner (s : State) (o : Nat) (f : Owner → Owner) : State := { s with owners := tmod s.owners o {} f }
/-- A packet of the pipeline. -/
def State.pkt (s : State) (n : Nat) : Option Pkt := s.pipe.find? (·.num = n)
/-- Change a packet of the pipeline. -/
def State.modPkt (s : State) (n : Nat) (f : Pkt → Pkt) : State :=
  { s with pipe := s.pipe.map fun p => if p.num = n then f p else p }
/-- An in-channel of a core. -/
def Core.inCh (c : Core) (j : Nat) : InCh := tgetD c.ins j {}
/-- Change an in-channel. -/
def Core.modIn (c : Core) (j : Nat) (f : InCh → InCh) : Core := { c with ins := tmod c.ins j {} f }
/-- An out-channel of a core. -/
def Core.outCh (c : Core) (j : Nat) : OutCh := tgetD c.outs j {}
/-- Change an out-channel. -/
def Core.modOut (c : Core) (j : Nat) (f : OutCh → OutCh) : Core := { c with outs := tmod c.outs j {} f }
/-- A task slot of a core. -/
def Core.task (c : Core) (k : Nat) : Task := tgetD c.tasks k {}
/-- Change a task slot. -/
def Core.modTask (c : Core) (k : Nat) (f : Task → Task) : Core := { c with tasks := tmod c.tasks k {} f }
/-- A context entry of a core. -/
def Core.ctx (c : Core) (x : Nat) : Ctx := tgetD c.ctxs x {}
/-- Change a context entry. -/
def Core.modCtx (c : Core) (x : Nat) (f : Ctx → Ctx) : Core := { c with ctxs := tmod c.ctxs x {} f }
/-- A copy tag of a core. -/
def Core.tag (c : Core) (t : Nat) : Tag := tgetD c.tags t {}
/-- Change a copy tag. -/
def Core.modTag (c : Core) (t : Nat) (f : Tag → Tag) : Core := { c with tags := tmod c.tags t {} f }

/-! ### Positions (R11 to R14) -/

/-- The cluster of a core record (R13). -/
def clusterOf (cid : Nat) : Nat := if cid < 3072 then cid % 64 / 4 + 16 * (cid / 64 / 4) else cid - 3072
/-- The cluster position of a core record: a darning core reports the position it darns (R13, R179). -/
def posOf (s : State) (cid : Nat) : Nat :=
  if cid < 3072 then cid % 64 % 4 + 4 * (cid / 64 % 4) else ((s.cluster (cid - 3072)).darned.getD 16)
/-- The core record that stands at a cluster position (R14). -/
def coreAt (s : State) (cl pos : Nat) : Nat :=
  if (s.cluster cl).darned = some pos then 3072 + cl
  else (cl % 16 * 4 + pos % 4) + 64 * (cl / 16 * 4 + pos / 4)
/-- The core record that stands at a grid position (R11, R14). -/
def coreXY (s : State) (x y : Nat) : Nat := coreAt s (x / 4 + 16 * (y / 4)) (x % 4 + 4 * (y % 4))
/-- The grid position of a core record (R11, R13). -/
def xyOf (s : State) (cid : Nat) : Nat × Nat :=
  if cid < 3072 then (cid % 64, cid / 64)
  else
    let cl := cid - 3072
    let pos := (s.cluster cl).darned.getD 0
    (cl % 16 * 4 + pos % 4, cl / 16 * 4 + pos / 4)

/-- Whether a grid position lies in a rectangle. -/
def inRect (x y rx ry rw rh : Nat) : Bool :=
  decide (rx ≤ x) && decide (x < rx + rw) && decide (ry ≤ y) && decide (y < ry + rh)

/-- The lease whose rectangle holds a grid position, loans aside (R102, R116). -/
def leaseAt (s : State) (x y : Nat) : Option Nat :=
  (s.leases.find? fun e => (e.2.st != .granting) && inRect x y e.2.x e.2.y e.2.w e.2.h).map (·.1)

/-- Who holds a grid position: on a loan, the lease of the borrower's patch that stands there; else the lease of the rectangle
(R116). -/
def holderAt (s : State) (x y : Nat) : Option Nat :=
  match leaseAt s x y with
  | none => none
  | some l =>
    match s.lease l with
    | none => none
    | some L =>
      if L.loans.any fun n => inRect x y n.x n.y n.w n.h then
        ((s.core (coreXY s x y)).patch.bind s.patch).map (·.lease)
      else some l

/-! ### Kernel header fields (R28) -/

/-- Bits [lo+len−1 : lo] of the header word at a byte offset. -/
def hdrF (h : List CWord) (off lo len : Nat) : Nat := natBits ((h.getD (off / 4) 0).toNat) lo len

/-- A 64-bit header field. -/
def hdr64 (h : List CWord) (off : Nat) : Nat := hdrF h off 0 32 + 2 ^ 32 * hdrF h (off + 4) 0 32

/-- TASKS. -/
def hTasks (h : List CWord) : Nat := hdrF h 0x10 16 4
/-- FRAME. -/
def hFrame (h : List CWord) : Nat := hdrF h 0x10 20 8
/-- NCTX. -/
def hNctx (h : List CWord) : Nat := hdrF h 0x10 12 4
/-- SPILL. -/
def hSpill (h : List CWord) : Bool := hdrF h 0x10 30 1 = 1
/-- ESC. -/
def hEsc (h : List CWord) : Bool := hdrF h 0x10 31 1 = 1
/-- CLASS S. -/
def hClassS (h : List CWord) : Bool := hdrF h 0x10 28 2 = 1
/-- PLEAT. -/
def hPleat (h : List CWord) : BitVec 32 := h.getD 5 0
/-- SCRATCH. -/
def hScratch (h : List CWord) : Nat := hdrF h 0x18 0 32
/-- TILE. -/
def hTile (h : List CWord) : Nat := hdrF h 0x1C 0 32
/-- CBAR. -/
def hCbar (h : List CWord) : Nat := hdrF h 0x20 0 5
/-- LBAR. -/
def hLbar (h : List CWord) : Nat := hdrF h 0x20 8 7
/-- PERMS. -/
def hPerms (h : List CWord) : Nat := hdrF h 0x24 0 3
/-- SAVEVA. -/
def hSaveVa (h : List CWord) : Nat := hdr64 h 0x28
/-- SAVELEN. -/
def hSaveLen (h : List CWord) : Nat := hdr64 h 0x30
/-- Bit c of CTXKIND. -/
def hPinned (h : List CWord) (c : Nat) : Bool := (hdrF h 0x70 0 6).testBit c
/-- ARGLEN. -/
def hArgs (h : List CWord) : Nat := hdrF h 0x70 8 8
/-- TCTL. -/
def hTctl (h : List CWord) : Nat := hdrF h 0x74 0 4
/-- SEED. -/
def hSeed (h : List CWord) : BitVec 64 := BitVec.ofNat 64 (hdr64 h 0x78)

/-! ### Configuration fields (R36) -/

/-- A configuration word of a context's active copy. -/
def Ctx.word (x : Ctx) (unit field : Nat) : Nat := (tgetD x.active (unit * 2048 + field) 0).toNat

/-- A configuration word of the core's current context. -/
def Core.cfg (c : Core) (unit field : Nat) : Nat := (c.ctx (c.act.getD 0)).word unit field

/-- Whether the core's current context is pinned. -/
def Core.isPinned (c : Core) : Bool := c.act.isSome && (c.ctx (c.act.getD 0)).pinned

/-- Whether an in-channel is bound in the current context (R36 unit 8). -/
def Core.inBound (c : Core) (j : Nat) : Bool := c.act.isSome && (c.cfg 8 j).testBit 10
/-- Its depth. -/
def Core.inDepth (c : Core) (j : Nat) : Nat := natBits (c.cfg 8 j) 0 7
/-- The task slot it is configured to. -/
def Core.inSlot (c : Core) (j : Nat) : Nat := natBits (c.cfg 8 j) 7 3
/-- Whether an out-channel is bound in the current context. -/
def Core.outBound (c : Core) (j : Nat) : Bool := c.act.isSome && (c.cfg 8 (16 + j)).testBit 10
/-- Its depth. -/
def Core.outDepth (c : Core) (j : Nat) : Nat := natBits (c.cfg 8 (16 + j)) 0 7
/-- Its route word (R161). -/
def Core.route (c : Core) (j : Nat) : Nat := c.cfg 7 j
/-- The kind of a route word (R161). -/
def routeKind (r : Nat) : Nat := natBits r 29 3

/-- The task slot an in-channel is bound to at run time (R193). -/
def Core.inTask (c : Core) (j : Nat) : Nat := ((c.inCh j).slot).getD (c.inSlot j)

/-- A free slot in an out-channel's buffer (R160, R191); a spilling channel takes every flit (R169). -/
def Core.outRoom (c : Core) (j n : Nat) : Bool :=
  (c.outCh j).spill.isSome || decide ((c.outCh j).buf.length + (c.outCh j).resv + n ≤ c.outDepth j)

/-- Constant register k of the current context (R180). -/
def Core.constReg (c : Core) (k : Nat) : Value :=
  BitVec.ofNat 512 (joinN 32 ((List.range 16).map fun i => c.cfg 9 (16 * k + i)))

/-- A constant register of a context entry written (R198). -/
def Ctx.setConst (x : Ctx) (k : Nat) (v : Value) : Ctx :=
  { x with active := (List.range 16).foldl (fun t i => tset t (9 * 2048 + 16 * k + i) (BitVec.ofNat 32 (elem v 32 i))) x.active }

/-- Every pending `constw` value of a core applied, each in its own context entry (R198). -/
def Core.applyConst (c : Core) : Core :=
  { c with ctxs := tmap (fun _ x => { x.pendingK.foldl (fun x e => x.setConst e.1 e.2) x with pendingK := [] }) c.ctxs }

/-- The instruction word that the configuration gives a pinned slot as its own in an arm (R153). -/
def Core.armWord (c : Core) (arm slot : Nat) : IWord :=
  BitVec.ofNat 64 (c.cfg (1 + slot / 2) (4 * arm + 2 * (slot % 2)) + 2 ^ 32 * c.cfg (1 + slot / 2) (4 * arm + 2 * (slot % 2) + 1))

/-- The arm whose word a slot runs in an arm: arm 1 where the slot has a word there, else arm 0 (R157). -/
def Core.wordArm (c : Core) (arm slot : Nat) : Nat := if arm = 1 ∧ c.armWord 1 slot ≠ 0 then 1 else 0

/-- Stage, main or lane: the instruction word of a pinned slot in an arm (R153, R157). -/
def Core.stageWord (c : Core) (arm slot : Nat) : IWord := c.armWord (c.wordArm arm slot) slot

/-- Read entry j of a pinned block (R154). -/
def Core.pinRead (c : Core) (j : Nat) : Nat := natBits (c.cfg (1 + j / 8) (8 + j % 8 / 2)) (16 * (j % 2)) 16
/-- Write entry j of a pinned block (R154). -/
def Core.pinWrite (c : Core) (j : Nat) : Nat := natBits (c.cfg (1 + j / 8) (12 + j % 8 / 4)) (8 * (j % 4)) 8
/-- NR, NW, ASEN and ASEL of a pinned block (R154). -/
def Core.pinNr (c : Core) : Nat := natBits (c.cfg 1 14) 0 6
/-- NW. -/
def Core.pinNw (c : Core) : Nat := natBits (c.cfg 1 14) 6 6
/-- ASEN. -/
def Core.pinAsen (c : Core) : Bool := (c.cfg 1 14).testBit 12
/-- ASEL. -/
def Core.pinAsel (c : Core) : Nat := natBits (c.cfg 1 14) 13 4

/-! ### The pool (R120 to R126) -/

/-- G granules of a pleat word (R121). -/
def plG (w : BitVec 32) : Nat := natBits w.toNat 0 4
/-- T granules. -/
def plT (w : BitVec 32) : Nat := natBits w.toNat 4 4
/-- S granules. -/
def plS (w : BitVec 32) : Nat := natBits w.toNat 8 4

/-- Rows that a frame takes in each G bank (R122). -/
def frameRows (frame g : Nat) : Nat := (frame + 4 * g - 1) / (4 * g)

/-- The pool address of a bank, row and byte: banks of 256 rows of 64 bytes. -/
def poolAddr (bank row byte : Nat) : Nat := bank * 16384 + row * 64 + byte

/-- Register g of slot k's frame (R124), under a pleat word laid from bank b0. -/
def gAddr (w : BitVec 32) (b0 frame k g : Nat) : Nat :=
  let nG := 4 * plG w
  poolAddr (b0 + g % nG) (k * frameRows frame (plG w) + g / nG) 0

/-- Scratch byte b (R125). -/
def sAddr (w : BitVec 32) (b0 b : Nat) : Nat :=
  let nS := 4 * plS w
  let x := b / 4
  poolAddr (b0 + 4 * (plG w + plT w) + x % nS) (x / nS / 16) (4 * (x / nS % 16) + b % 4)

/-- Tile byte t (R126). -/
def tAddr (w : BitVec 32) (b0 t : Nat) : Nat :=
  let nT := 4 * plT w
  let r := t / 64
  poolAddr (b0 + 4 * plG w + r % nT) (r / nT) (t % 64)

/-- The pool address of a role's byte under the pleat word in effect. -/
def Core.roleAddr (c : Core) (role : PoolRole) (o : Nat) : Nat :=
  match role with
  | .s => sAddr c.pleat.word c.pleat.bank0 o
  | .t => tAddr c.pleat.word c.pleat.bank0 o

/-- Register g of task slot k. -/
def Core.readG (c : Core) (k g : Nat) : Value := c.pool.line (gAddr c.pleat.word c.pleat.bank0 c.frame k g)

/-- The bank of a pool address. -/
def bankOf (a : Nat) : Nat := a / 16384

/-- One byte of the pool written; the bank is marked written since the last save (R315). -/
def Core.putByte (c : Core) (a : Nat) (b : Byte) : Core :=
  { c with pool := c.pool.set a b,
           bankDirty := if c.bankDirty.contains (bankOf a) then c.bankDirty else bankOf a :: c.bankDirty }

/-- Bytes of the pool written, each at its own address. -/
def Core.putBytes (c : Core) : List (Nat × Byte) → Core
  | [] => c
  | (a, b) :: r => Core.putBytes (c.putByte a b) r

/-- A row written whole loses its poison (R240). -/
def Core.putRow (c : Core) (a : Nat) (v : Value) : Core :=
  { c.putBytes ((List.range 64).zip (valueBytes v) |>.map fun p => (a + p.1, p.2)) with
    poisonRows := c.poisonRows.filter (· != a / 64) }

/-- Write register g of task slot k. -/
def Core.writeG (c : Core) (k g : Nat) (v : Value) : Core :=
  c.putRow (gAddr c.pleat.word c.pleat.bank0 c.frame k g) v

/-- The frame of a slot zero-filled (R123). -/
def Core.zeroFrame (c : Core) (k : Nat) : Core := (List.range c.frame).foldl (fun c g => c.writeG k g 0) c

/-- `n` bytes of a role from an offset. -/
def Core.readRole (c : Core) (role : PoolRole) (o n : Nat) : List Byte :=
  (List.range n).map fun i => c.pool.get (c.roleAddr role (o + i))

/-- Bytes of a role written from an offset; a whole row of T loses its poison (R240). -/
def Core.writeRole (c : Core) (role : PoolRole) (o : Nat) (bs : List Byte) : Core :=
  let a := c.roleAddr role o
  let c := c.putBytes ((List.range bs.length).zip bs |>.map fun p => (c.roleAddr role (o + p.1), p.2))
  if role = .t ∧ bs.length = 64 ∧ o % 64 = 0 then { c with poisonRows := c.poisonRows.filter (· != a / 64) } else c

/-- Whether a byte range of a role touches a poisoned row (R240). -/
def Core.rolePoisoned (c : Core) (role : PoolRole) (o n : Nat) : Bool :=
  (List.range n).any fun i => c.poisonRows.contains (c.roleAddr role (o + i) / 64)

/-- Capacity of S and T in bytes under the pleat word in effect. -/
def Core.capS (c : Core) : Nat := plS c.pleat.word * 65536
/-- Capacity of T. -/
def Core.capT (c : Core) : Nat := plT c.pleat.word * 65536

/-- C granules in banks, the number C has now (R127, R129, R350). -/
def Core.cGran (c : Core) : Nat := c.pleat.cBanks / 4

/-! ### A lease's memory (R106, R107) -/

/-- Bytes that a pseudo-channel offers its lease. -/
def chanBytes : Nat := 240 * 2 ^ 20

/-- The physical address of a lease-local address in HBM (R106). -/
def hbmPhys (L : Lease) (a : Nat) : Option Nat :=
  let n := L.chans.length
  if n = 0 ∨ n * chanBytes ≤ a then none
  else some (L.chans.getD (a / 256 % n) 0 * 2 ^ 28 + a / (256 * n) * 256 + a % 256)

/-- The physical address of a lease-local address in the second tier (R107). -/
def tierPhys (L : Lease) (a : Nat) : Option Nat :=
  if a / 2 ^ 29 < L.exts.length then some (2 ^ 42 + L.exts.getD (a / 2 ^ 29) 0 * 2 ^ 29 + a % 2 ^ 29) else none

/-- The lease that owns a physical address: the one whose channel set or extents hold it (R108). -/
def ownerOfPa (s : State) (pa : Nat) : Option (Nat × BitVec 8) :=
  (s.leases.find? fun e =>
    if pa < 2 ^ 42 then e.2.chans.contains (pa / 2 ^ 28) else e.2.exts.contains ((pa - 2 ^ 42) / 2 ^ 29)).map
    fun e => (e.1, e.2.gen)

/-- The lease-local address of a physical address of a lease, with its tier (R106, R107). -/
def localOf (L : Lease) (pa : Nat) : Option (Bool × Nat) :=
  if pa < 2 ^ 42 then
    (L.chans.findIdx? (· = pa / 2 ^ 28)).map fun i =>
      (false, (pa % 2 ^ 28 / 256 * L.chans.length + i) * 256 + pa % 256)
  else (L.exts.findIdx? (· = (pa - 2 ^ 42) / 2 ^ 29)).map fun i => (true, i * 2 ^ 29 + pa % 2 ^ 29)

/-- The controller that holds a physical line: pseudo-channel c, or 1,536 plus the sub-channel controller of an extent
(R17, R107): extents lie on the 96 controllers in turn (assumption 9). -/
def ctrlOf (pa : Nat) : Nat := if pa < 2 ^ 42 then pa / 2 ^ 28 else 1536 + (pa - 2 ^ 42) / 2 ^ 29 % 96

end Sys2Proof.Machine
end

