-- ==== Sys2Proof/Machine/MangleSums.lean ====
section
/-! DEFINITION. The mangle's arithmetic: descriptors and shapes (R241 to R243), the sums of a tile (R76), and what rows under a run may
hold (R245). -/

namespace Sys2Proof.Machine

/-! ### Descriptors and shapes (R241 to R243) -/

/-- TBASE. -/
def mdT (d : Nat) : Nat := natBits d 44 20
/-- SOFS. -/
def mdS (d : Nat) : Nat := natBits d 24 20
/-- IN. -/
def mdIn (d : Nat) : Nat := natBits d 20 4
/-- SRCK. -/
def mdSrck (d : Nat) : Bool := d.testBit 18
/-- CONT. -/
def mdCont (d : Nat) : Bool := d.testBit 17
/-- ACC. -/
def mdAcc (d : Nat) : Bool := d.testBit 16
/-- TC. -/
def mdTc (d : Nat) : Nat := natBits d 0 16

/-- The activation format of a shape. -/
def shapeFmt (sh : BitVec 5) : Nat := natBits sh.toNat 2 3
/-- SCL of a shape. -/
def shapeScl (sh : BitVec 5) : Bool := sh.getLsbD 1
/-- The width class of a format (R242). -/
def widthClass (f : Nat) : Nat :=
  match f with
  | 0 | 1 => 0
  | 2 | 3 => 1
  | 4 => 2
  | _ => 3
/-- Scale rows of a tile (R243). -/
def sclRows (sh : BitVec 5) : Nat := if shapeScl sh then (if shapeFmt sh = 4 then 2 else 1) else 0
/-- Rows of a tile. -/
def tileRows (sh : BitVec 5) : Nat := 32 + sclRows sh

/-- The plane format of an `mload` (R270). -/
def planeFmt : EC → Nat
  | .flt e => match e.f with
    | .bf16 => 0
    | .f16 => 1
    | .e4m3 => 2
    | .e5m2 => 3
    | _ => 4
  | .int e => if e.z then 6 else 5

/-- Scale bytes that an `mload` reads (R271). -/
def scaleBytes (fmt : Nat) (scl : Bool) : Nat :=
  if ! scl then 0
  else match fmt with
    | 2 | 3 => 64
    | 4 => 128
    | _ => 0

/-- Whether SCL suits a format: scales are optional on e4m3 and e5m2, required on e2m1, else absent (R241, R271). -/
def sclOk (fmt : Nat) (scl : Bool) : Bool :=
  match fmt with
  | 2 | 3 => true
  | 4 => scl
  | _ => ! scl

/-! ### Elements and sums (R76, R241, R242) -/

/-- The floating format of a code; s8 and z8 have none. -/
def mFmt (f : Nat) : Fmt :=
  match f with
  | 0 => .bf16
  | 1 => .f16
  | 2 => .e4m3
  | 3 => .e5m2
  | _ => .e2m1

/-- Bits of an element of a format. -/
def mBits (f : Nat) : Nat :=
  match widthClass f with
  | 0 => 16
  | 2 => 4
  | _ => 8

/-- K of a format (R241), and its group size (R76). -/
def mK (f : Nat) : Nat := 512 / mBits f
/-- Products in a group. -/
def mGroup (f : Nat) : Nat := 64 / mBits f
/-- Scale blocks of a row or column: of 32 elements. -/
def mBlocks (f : Nat) : Nat := mK f / 32

/-- Element i of bytes held as a number. -/
def mElem (bits n i : Nat) : Nat := natBits n (bits * i) bits

/-- A value times a power of two. -/
def FV.scale (v : FV) (k : Int) : FV :=
  match v with
  | .fin n m e => .fin n m (e + k)
  | v => v

/-- One group's exact sum for an output element: `xs` and `ws` give the operands by K index, `sc` the two scale bytes (R76). -/
def groupAt (fx fw : Nat) (xs ws : Nat → Nat) (sc : Option (Nat × Nat)) (ks : List Nat) : FV :=
  match sc with
  | some (a, b) =>
    if a = 0xFF ∨ b = 0xFF then .nan
    else (groupSum (ks.map fun k => (dec (mFmt fx) false (xs k)).mul (dec (mFmt fw) false (ws k)))).scale ((a : Int) + b - 254)
  | none => groupSum (ks.map fun k => (dec (mFmt fx) false (xs k)).mul (dec (mFmt fw) false (ws k)))

/-- An integer operand: s8 or z8. -/
def mInt (f v : Nat) : Int := if f = 6 then v else sgn 8 v

/-- One output element of a tile after its first `n` groups (R76): the accumulator with each group's sum added in ascending K. -/
def tileElem (n fx fw : Nat) (acc : Nat) (xs ws : Nat → Nat) (sc : Nat → Option (Nat × Nat)) : Nat :=
  let g := mGroup fx
  (List.range n).foldl (fun acc i =>
    let ks := (List.range g).map fun j => g * i + j
    if widthClass fx = 3 then
      wrap 32 (sgn 32 acc + (ks.map fun k => mInt fx (xs k) * mInt fw (ws k)).foldl (· + ·) 0)
    else
      rnd .f32 ((dec .f32 false acc).add false (groupAt fx fw xs ws (sc (g * i / 32)) ks)).exact .rne false false) acc

/-- Groups of a shape's whole K. -/
def tileGroups (sh : BitVec 5) : Nat := mK (shapeFmt sh) / mGroup (shapeFmt sh)

/-- What a tile makes of an output's accumulator by its first `n` groups: `rows` holds the scale rows, if any, then the activation rows;
then the row, the column and the accumulator. -/
def tileFn (sh : BitVec 5) (plane : Plane) (rows : List Value) : Nat → Nat → Nat → Nat → Nat :=
  let fx := shapeFmt sh
  let fw := plane.fmt.toNat
  let bits := mBits fx
  let w := bytesNat (plane.data.read 0 2048)
  let wsc := bytesNat (plane.scales.read 0 128)
  let f := sclRows sh
  let xsc := bytesNat ((rows.take f).flatMap valueBytes)
  let nb := mBlocks fx
  fun n i c acc =>
    tileElem n fx fw acc (mElem bits (rows.getD (f + i) 0).toNat) (fun k => mElem bits w (32 * k + c))
      (fun b => if shapeScl sh then some (mElem 8 xsc (nb * i + b), mElem 8 wsc (nb * c + b)) else none)

/-- The 32 × 32 outputs of a tile as rows of 128 bytes. -/
def tileRowsOut (sh : BitVec 5) (plane : Plane) (rows : List Value) (acc : Nat → Nat → Nat) : List (List Byte) :=
  let f := tileFn sh plane rows (tileGroups sh)
  (List.range 32).map fun i => (List.range 32).flatMap fun c => natBytes 4 (f i c (acc i c))

/-! ### Rows under a run (R245) -/

/-- A started run's tile that has done the accumulator element at a tile byte: its descriptor, shape, rows and what the 4 KiB held before,
with the element's row and column in the tile. -/
structure Under where
  sh : BitVec 5
  d : BitVec 64
  rows : List Value
  old : List Byte
  i : Nat
  c : Nat

/-- Where a started run stands over a tile byte, if it has done the tile there. -/
def MEnt.under (q : MEnt) (t : Nat) : Option Under :=
  match q.op with
  | .run sh d =>
    let o := t - mdT d.toNat
    if t < mdT d.toNat then none
    else (q.did.find? fun e => e.1 = o / 4096).map fun e =>
      { sh := sh, d := d, rows := e.2.1, old := e.2.2, i := o % 4096 / 128, c := o % 128 / 4 }
  | _ => none

/-- What the element held before that tile. -/
def Under.base (u : Under) : Nat := bytesNat ((u.old.drop (128 * u.i + 4 * u.c)).take 4)

/-- The element by that tile's first `n` groups, from an accumulator. -/
def Under.val (u : Under) (plane : Plane) (n acc : Nat) : Nat := tileFn u.sh plane u.rows n u.i u.c (if mdAcc u.d.toNat then acc else 0)

/-- An accumulator element as an `ldt` finds it under a run that has not finished (R245): the value before or after any of the run's group
additions. -/
def Mangle.seenElem (m : Mangle) (pick : Nat → Nat) (t now : Nat) : Nat :=
  match m.queue.findSome? fun q => if q.started then q.under t else none with
  | none => now
  | some u =>
    let g := tileGroups u.sh
    match pick t % (g + 1) with
    | 0 => u.base
    | n => if n = g then now else u.val m.active n u.base

/-- Bytes loaded from T (R245): where no run that goes on has done their tile, as they stand. -/
def Core.tileView (c : Core) (pick : Nat → Nat) (o : Nat) (bs : List Byte) : List Byte :=
  if c.mangle.queue.all fun q => q.did.isEmpty then bs
  else
    let elems := (List.range ((o + bs.length + 3) / 4 - o / 4)).flatMap fun k =>
      let t := 4 * (o / 4 + k)
      natBytes 4 (c.mangle.seenElem pick t (bytesNat (c.readRole .t t 4)))
    (elems.drop (o % 4)).take bs.length

end Sys2Proof.Machine
end

