-- ==== Sys2Proof/WellFormed.lean ====
section
/-! DEFINITION. Well-formed steps: the legal field combinations of each row (Machine/Legal.lean). -/

namespace Sys2Proof

/-- A step whose fields obey the limits of its row. -/
def Instr.wf (i : Instr) : Bool := Machine.legal i

/-- An Echeder instruction: a step that has an instruction word (R41). -/
def Instr.isWord (i : Instr) : Bool := (Machine.headOf i).isSome

end Sys2Proof
end

