-- ==== Sys2Proof/Decode.lean ====
section
/-! DEFINITION. Decoding an Echeder instruction word (R41 to R49, R56 to R62) and, after it, its encoder. A word decodes to
exactly one instruction or is rejected by name: an unassigned opcode, or a malformed word (R61). What depends on the
block around it (producers, target indices, modes, LSIDs, R44 to R55) is judged in Machine/Block.lean. -/

namespace Sys2Proof

/-- Why a word is no instruction (R61): an unassigned OPC, or any other breach of the encoding. -/
inductive DecErr where
  | illegalOp
  | malformed
deriving DecidableEq, Repr

/-! ### The fields of a word (R41) -/

/-- OPC, bits [63:56]. -/
def opcF (w : IWord) : BitVec 8 := w.extractLsb' 56 8
/-- I, bit [55]; SC in the memory format. -/
def iF (w : IWord) : Bool := w.getLsbD 55
/-- XOP, bits [54:50]. -/
def xopF (w : IWord) : BitVec 5 := w.extractLsb' 50 5
/-- PM, bits [49:48]. -/
def pmF (w : IWord) : BitVec 2 := w.extractLsb' 48 2
/-- T0, bits [47:40]. -/
def t0F (w : IWord) : BitVec 8 := w.extractLsb' 40 8
/-- T1, bits [39:32]. -/
def t1F (w : IWord) : BitVec 8 := w.extractLsb' 32 8
/-- IMM, bits [31:0]. -/
def immF (w : IWord) : BitVec 32 := w.extractLsb' 0 32

/-- PM (R41, R45). -/
def pmOf : BitVec 2 → Option Pm
  | 0#2 => some .always | 1#2 => some .onTrue | 2#2 => some .onFalse | _ => none

/-- The code of a PM. -/
def pmBits : Pm → BitVec 2
  | .always => 0 | .onTrue => 1 | .onFalse => 2

/-- A target byte (R44): kind in [7:5], index in [4:0]. -/
def targetOf (b : BitVec 8) : Option Target :=
  let n := b.extractLsb' 0 5
  match b.extractLsb' 5 3 with
  | 0#3 => if n = 0 then some .none else none
  | 1#3 => some (.opA n) | 2#3 => some (.opB n) | 3#3 => some (.opC n) | 4#3 => some (.pred n)
  | 5#3 => some (.write n) | 6#3 => some (.out n) | _ => none

/-- The byte of a target. -/
def targetBits : Target → BitVec 8
  | .none => 0
  | .opA n => 1#3 ++ n | .opB n => 2#3 ++ n | .opC n => 3#3 ++ n | .pred n => 4#3 ++ n
  | .write n => 5#3 ++ n | .out n => 6#3 ++ n

/-- Width codes (R42). -/
def intWOf : BitVec 3 → Option IntW
  | 0#3 => some .s64 | 1#3 => some .s32 | 2#3 => some .v32 | 3#3 => some .h16 | 4#3 => some .b8 | 5#3 => some .q4
  | 6#3 => some .d64 | _ => none

/-- The code of a width. -/
def intWBits : IntW → BitVec 3
  | .s64 => 0 | .s32 => 1 | .v32 => 2 | .h16 => 3 | .b8 => 4 | .q4 => 5 | .d64 => 6

/-- XOP as a width code alone: W of R56. -/
def xW (x : BitVec 5) : Option IntW := if x.extractLsb' 3 2 = 0 then intWOf (x.extractLsb' 0 3) else none

/-- XOP as an integer element code (R42, R58). -/
def xInt (x : BitVec 5) : Option IntEC :=
  if x.getLsbD 4 then none else (intWOf (x.extractLsb' 0 3)).map fun w => ⟨x.getLsbD 3, w⟩

/-- The XOP of an integer element code. -/
def intBits5 (e : IntEC) : BitVec 5 := 0#1 ++ BitVec.ofBool e.z ++ intWBits e.w

/-- The code of a floating format (R42). -/
def fmtCode : Fmt → BitVec 3
  | .f64 => 0 | .f32 => 1 | .bf16 => 2 | .f16 => 3 | .e4m3 => 4 | .e5m2 => 5 | .e2m1 => 6 | .e8m0 => 7

/-- XOP as a floating element code (R42, R59). -/
def xFlt (x : BitVec 5) : Option FltEC :=
  if x.getLsbD 4 then some ⟨x.getLsbD 3, Machine.fmtOf (x.extractLsb' 0 3)⟩ else none

/-- The XOP of a floating element code. -/
def fltBits5 (e : FltEC) : BitVec 5 := 1#1 ++ BitVec.ofBool e.scalar ++ fmtCode e.f

/-- XOP as an element code of either kind. -/
def xEC (x : BitVec 5) : Option EC :=
  if x.getLsbD 4 then (xFlt x).map .flt else (xInt x).map .int

/-- The XOP of an element code. -/
def ecBits5 : EC → BitVec 5
  | .int e => intBits5 e
  | .flt e => fltBits5 e

/-- Conditions (R57, R181). -/
def condOf : BitVec 4 → Option Cond
  | 0#4 => some .eq | 1#4 => some .ne | 2#4 => some .lt | 3#4 => some .le | 4#4 => some .gt | 5#4 => some .ge
  | 6#4 => some .lo | 7#4 => some .ls | 8#4 => some .hi | 9#4 => some .hs | _ => none

/-- The code of a condition. -/
def condBits : Cond → BitVec 4
  | .eq => 0 | .ne => 1 | .lt => 2 | .le => 3 | .gt => 4 | .ge => 5 | .lo => 6 | .ls => 7 | .hi => 8 | .hs => 9

/-- Conditions of `ftest` (R205). -/
def fcondOf : BitVec 4 → Option FCond
  | 0#4 => some .eq | 1#4 => some .ne | 2#4 => some .lt | 3#4 => some .le | 4#4 => some .gt | 5#4 => some .ge
  | 6#4 => some .un | 7#4 => some .or | _ => none

/-- The code of an `ftest` condition. -/
def fcondBits : FCond → BitVec 4
  | .eq => 0 | .ne => 1 | .lt => 2 | .le => 3 | .gt => 4 | .ge => 5 | .un => 6 | .or => 7

/-- Access codes (R56). -/
def acOf : BitVec 4 → Option AC
  | 0#4 => some .z8 | 1#4 => some .z16 | 2#4 => some .z32 | 3#4 => some .z64 | 4#4 => some .s8 | 5#4 => some .s16
  | 6#4 => some .s32 | 8#4 => some .v | 9#4 => some .l | _ => none

/-- The code of an access. -/
def acBits : AC → BitVec 4
  | .z8 => 0 | .z16 => 1 | .z32 => 2 | .z64 => 3 | .s8 => 4 | .s16 => 5 | .s32 => 6 | .v => 8 | .l => 9

/-- Scope codes 001 to 101 (R48). -/
def scopeOf : BitVec 3 → Option Scope
  | 1#3 => some .core | 2#3 => some .cluster | 3#3 => some .lease | 4#3 => some .device | 5#3 => some .system
  | _ => none

/-- The code of a scope. -/
def scopeBits : Scope → BitVec 3
  | .core => 1 | .cluster => 2 | .lease => 3 | .device => 4 | .system => 5

/-- OSC: 000 is none (R48). -/
def oscOf (b : BitVec 3) : Option (Option Scope) := if b = 0 then some none else (scopeOf b).map some

/-- The code of an OSC. -/
def oscBits : Option Scope → BitVec 3
  | none => 0
  | some s => scopeBits s

/-- Reduction operations (R219). -/
def redOf : BitVec 4 → Option RedOp
  | 0#4 => some .add | 1#4 => some .min | 2#4 => some .max | 3#4 => some .and | 4#4 => some .or | 5#4 => some .xor
  | _ => none

/-- The code of a reduction operation. -/
def redBits : RedOp → BitVec 4
  | .add => 0 | .min => 1 | .max => 2 | .and => 3 | .or => 4 | .xor => 5

/-- Atomic operations (R60). -/
def atOf : BitVec 4 → Option AtOp
  | 0#4 => some .add | 1#4 => some .and | 2#4 => some .or | 3#4 => some .xor | 4#4 => some .min | 5#4 => some .max
  | 6#4 => some .minz | 7#4 => some .maxz | 8#4 => some .swap | 9#4 => some .cas | 10#4 => some .fadd
  | 11#4 => some .fmin | 12#4 => some .fmax | _ => none

/-- The code of an atomic operation. -/
def atBits : AtOp → BitVec 4
  | .add => 0 | .and => 1 | .or => 2 | .xor => 3 | .min => 4 | .max => 5 | .minz => 6 | .maxz => 7 | .swap => 8
  | .cas => 9 | .fadd => 10 | .fmin => 11 | .fmax => 12

/-- Operand B of class B: IMM under I = 1, else zero IMM (R43, R46). -/
def bArg (i : Bool) (imm : BitVec 32) : Option (Option (BitVec 32)) :=
  if i then some (some imm) else if imm = 0 then some none else none

/-- The I bit and IMM of a class B operand. -/
def bI (b : Option (BitVec 32)) : Bool := b.isSome
/-- IMM of a class B operand. -/
def bImm (b : Option (BitVec 32)) : BitVec 32 := b.getD 0

/-- The memory format (R47). -/
def memOf (i : Bool) (imm : BitVec 32) : Option MemF :=
  (oscOf (imm.extractLsb' 24 3)).map fun o => ⟨i, imm.extractLsb' 27 5, o, imm.extractLsb' 0 24⟩

/-- IMM of the memory format. -/
def memImm (m : MemF) : BitVec 32 := m.lsid ++ oscBits m.osc ++ m.ofs

/-- The conversion fields (R207), with [31:13] zero. -/
def cvtOf (imm : BitVec 32) : Option CvtF :=
  if imm.extractLsb' 13 19 = 0 then
    some ⟨imm.extractLsb' 9 4, imm.getLsbD 8, imm.getLsbD 7, imm.extractLsb' 4 3, imm.getLsbD 3, imm.extractLsb' 0 3⟩
  else none

/-- IMM of the conversion fields. -/
def cvtImm (c : CvtF) : BitVec 32 :=
  0#19 ++ c.pos ++ BitVec.ofBool c.merge ++ BitVec.ofBool c.sat ++ c.rnd ++ BitVec.ofBool c.z ++ c.fmt

/-- IMM with a field of n bits at bit 0 and zeros above. -/
def low (n : Nat) (imm : BitVec 32) : Option (BitVec n) :=
  if imm.toNat < 2 ^ n then some (imm.setWidth n) else none

/-- One bit at bit 0, zeros above. -/
def low1 (imm : BitVec 32) : Option Bool := (low 1 imm).map (fun b => b.getLsbD 0)

/-- A field as IMM, zeros above. -/
def up {n : Nat} (b : BitVec n) : BitVec 32 := b.setWidth 32
/-- One bit as IMM. -/
def up1 (b : Bool) : BitVec 32 := up (BitVec.ofBool b)

/-- A guard in a parser. -/
def need (b : Bool) : Option Unit := if b then some () else none

/-! ### The opcode map (R57 to R60), by the high nibble of OPC -/


/-- `test`, 0x0C to 0x0F: the width code is 2·(OPC − 0x0C) + XOP[4] (R57, R181). -/
def parseTest (o : BitVec 2) (i : Bool) (x : BitVec 5) (imm : BitVec 32) : Option (Head → Instr) := do
  let w ← intWOf (o ++ x.extractLsb' 4 1)
  let c ← condOf (x.extractLsb' 0 4)
  let b ← bArg i imm
  some (fun h => .test h c w b)

/-- OPC 0x00 to 0x0F: control. -/
def parse0 (o : Nat) (i : Bool) (x : BitVec 5) (imm : BitVec 32) : Option (Head → Instr) :=
  match o with
  | 0x1 => do
    need (! i)
    if x = 0 then some (fun h => .exitB h imm)
    else if x = 1 then do need (imm = 0); some (fun h => .exitJ h)
    else if x = 2 then some (fun h => .exitC h imm)
    else if x = 3 then do need (imm = 0); some (fun h => .exitCi h)
    else if x = 4 then do need (imm = 0); some (fun h => .exitRet h)
    else if x = 5 then do need (imm = 0); some (fun h => .exitT h)
    else if x = 6 then some (fun h => .exitY h imm)
    else none
  | 0x2 => do
    need (! i)
    if x = 0 then do need (imm = 0); some (fun h => .nullw h)
    else if x = 1 then do need (imm.extractLsb' 0 27 = 0); some (fun h => .nulls h (imm.extractLsb' 27 5))
    else none
  | 0x3 => do need (! i); let w ← xW x; some (fun h => .movi h w imm)
  | 0x4 => do need (! i); need (x = 0); some (fun h => .movh h imm)
  | 0x5 => do need (! i); need (imm = 0); need (x = 0); some (fun h => .mov h)
  | 0x6 => do need (! i); need (imm = 0); some (fun h => .getid h x)
  | 0x7 => do need (! i); need (x = 0); let k ← low 4 imm; some (fun h => .constk h k)
  | 0x8 => do
    need (! i); need (imm = 0)
    if x = 0 then some (fun h => .pand h) else if x = 1 then some (fun h => .por h)
    else if x = 2 then some (fun h => .pxor h) else if x = 3 then some (fun h => .pnot h) else none
  | 0x9 => do need (! i); need (imm = 0); let w ← xW x; some (fun h => .sel h w)
  | 0xA => do need (! i); need (imm = 0); let w ← xW x; some (fun h => .lmask h w)
  | 0xB => do
    need (! i); need (imm = 0); need (! x.getLsbD 4)
    let w ← intWOf (x.extractLsb' 0 3)
    some (fun h => if x.getLsbD 3 then .alll h w else .anyl h w)
  | 0xC => parseTest 0#2 i x imm
  | 0xD => parseTest 1#2 i x imm
  | 0xE => parseTest 2#2 i x imm
  | 0xF => parseTest 3#2 i x imm
  | _ => none

/-- OPC 0x10 to 0x1F: integer, first row. -/
def parse1 (o : Nat) (i : Bool) (x : BitVec 5) (imm : BitVec 32) : Option (Head → Instr) :=
  match o with
  | 0x0 => do let e ← xInt x; let b ← bArg i imm; some (fun h => .add h e b)
  | 0x1 => do let e ← xInt x; let b ← bArg i imm; some (fun h => .sub h e b)
  | 0x2 => do let e ← xInt x; let b ← bArg i imm; some (fun h => .adds h e b)
  | 0x3 => do let e ← xInt x; let b ← bArg i imm; some (fun h => .subs h e b)
  | 0x4 => do let e ← xInt x; let b ← bArg i imm; some (fun h => .mul h e b)
  | 0x5 => do let e ← xInt x; let b ← bArg i imm; some (fun h => .mulh h e b)
  | 0x6 => do let e ← xInt x; let b ← bArg i imm; some (fun h => .mulhz h e b)
  | 0x7 => do let e ← xInt x; let b ← bArg i imm; some (fun h => .mad h e b)
  | 0x8 => do let e ← xInt x; let b ← bArg i imm; some (fun h => .div h e b)
  | 0x9 => do let e ← xInt x; let b ← bArg i imm; some (fun h => .divz h e b)
  | 0xA => do let e ← xInt x; let b ← bArg i imm; some (fun h => .rem h e b)
  | 0xB => do let e ← xInt x; let b ← bArg i imm; some (fun h => .remz h e b)
  | 0xC => do let e ← xInt x; let b ← bArg i imm; some (fun h => .and h e b)
  | 0xD => do let e ← xInt x; let b ← bArg i imm; some (fun h => .or h e b)
  | 0xE => do let e ← xInt x; let b ← bArg i imm; some (fun h => .xor h e b)
  | 0xF => do let e ← xInt x; let b ← bArg i imm; some (fun h => .andn h e b)
  | _ => none

/-- OPC 0x20 to 0x2F: integer, second row. -/
def parse2 (o : Nat) (i : Bool) (x : BitVec 5) (imm : BitVec 32) : Option (Head → Instr) :=
  match o with
  | 0x0 => do let e ← xInt x; let b ← bArg i imm; some (fun h => .orn h e b)
  | 0x1 => do let e ← xInt x; let b ← bArg i imm; some (fun h => .shl h e b)
  | 0x2 => do let e ← xInt x; let b ← bArg i imm; some (fun h => .shr h e b)
  | 0x3 => do let e ← xInt x; let b ← bArg i imm; some (fun h => .sar h e b)
  | 0x4 => do let e ← xInt x; let b ← bArg i imm; some (fun h => .rol h e b)
  | 0x5 => do need (! i); need (imm = 0); let e ← xInt x; some (fun h => .clz h e)
  | 0x6 => do need (! i); need (imm = 0); let e ← xInt x; some (fun h => .ctz h e)
  | 0x7 => do need (! i); need (imm = 0); let e ← xInt x; some (fun h => .popc h e)
  | 0x8 => do need (! i); need (imm = 0); let e ← xInt x; some (fun h => .brev h e)
  | 0x9 => do need (! i); need (imm = 0); let e ← xInt x; some (fun h => .bswap h e)
  | 0xA => do let e ← xInt x; let b ← bArg i imm; some (fun h => .ext h e b)
  | 0xB => do let e ← xInt x; let b ← bArg i imm; some (fun h => .extz h e b)
  | 0xC => do let e ← xInt x; let b ← bArg i imm; some (fun h => .ins h e b)
  | 0xD => do let e ← xInt x; let b ← bArg i imm; some (fun h => .min h e b)
  | 0xE => do let e ← xInt x; let b ← bArg i imm; some (fun h => .max h e b)
  | 0xF => do let e ← xInt x; let b ← bArg i imm; some (fun h => .minz h e b)
  | _ => none

/-- OPC 0x30 to 0x3F: integer, third row. -/
def parse3 (o : Nat) (i : Bool) (x : BitVec 5) (imm : BitVec 32) : Option (Head → Instr) :=
  match o with
  | 0x0 => do let e ← xInt x; let b ← bArg i imm; some (fun h => .maxz h e b)
  | 0x1 => do need (! i); need (imm = 0); let e ← xInt x; some (fun h => .abs h e)
  | 0x2 => do need (! i); need (imm = 0); let e ← xInt x; some (fun h => .neg h e)
  | 0x3 => do let e ← xInt x; let b ← bArg i imm; some (fun h => .lea h e b)
  | _ => none

/-- OPC 0x40 to 0x4F: floating, first row. -/
def parse4 (o : Nat) (i : Bool) (x : BitVec 5) (imm : BitVec 32) : Option (Head → Instr) :=
  match o with
  | 0x0 => do let e ← xFlt x; let b ← bArg i imm; some (fun h => .fadd h e b)
  | 0x1 => do let e ← xFlt x; let b ← bArg i imm; some (fun h => .fsub h e b)
  | 0x2 => do let e ← xFlt x; let b ← bArg i imm; some (fun h => .fmul h e b)
  | 0x3 => do let e ← xFlt x; let b ← bArg i imm; some (fun h => .ffma h e b)
  | 0x4 => do let e ← xFlt x; let b ← bArg i imm; some (fun h => .ffms h e b)
  | 0x5 => do let e ← xFlt x; let b ← bArg i imm; some (fun h => .fnma h e b)
  | 0x6 => do let e ← xFlt x; let b ← bArg i imm; some (fun h => .fmin h e b)
  | 0x7 => do let e ← xFlt x; let b ← bArg i imm; some (fun h => .fmax h e b)
  | 0x8 => do need (! i); need (imm = 0); let e ← xFlt x; some (fun h => .fabs h e)
  | 0x9 => do need (! i); need (imm = 0); let e ← xFlt x; some (fun h => .fneg h e)
  | 0xA => do let e ← xFlt x; let b ← bArg i imm; some (fun h => .fcpys h e b)
  | 0xB => do need (! i); let e ← xFlt x; let k ← low 4 imm; let c ← fcondOf k; some (fun h => .ftest h e c)
  | 0xC => do need (! i); let e ← xFlt x; let m ← low 9 imm; some (fun h => .fclass h e m)
  | 0xD => do need (! i); let e ← xFlt x; let c ← cvtOf imm; some (fun h => .fcvt h e c)
  | 0xE => do need (! i); let e ← xFlt x; let c ← cvtOf imm; some (fun h => .icvtf h e c)
  | 0xF => do need (! i); let e ← xFlt x; let c ← cvtOf imm; some (fun h => .fcvti h e c)
  | _ => none

/-- OPC 0x50 to 0x5F: floating, second row. -/
def parse5 (o : Nat) (i : Bool) (x : BitVec 5) (imm : BitVec 32) : Option (Head → Instr) :=
  match o with
  | 0x0 => do need (! i); need (imm = 0); let e ← xFlt x; some (fun h => .frcp h e)
  | 0x1 => do need (! i); need (imm = 0); let e ← xFlt x; some (fun h => .frsq h e)
  | 0x2 => do need (! i); need (imm = 0); let e ← xFlt x; some (fun h => .fsqrt h e)
  | 0x3 => do let e ← xFlt x; let b ← bArg i imm; some (fun h => .fdiv h e b)
  | 0x4 => do need (! i); need (imm = 0); let e ← xFlt x; some (fun h => .fexp2 h e)
  | 0x5 => do need (! i); need (imm = 0); let e ← xFlt x; some (fun h => .flog2 h e)
  | 0x6 => do need (! i); need (imm = 0); let e ← xFlt x; some (fun h => .fsinp h e)
  | 0x7 => do need (! i); need (imm = 0); let e ← xFlt x; some (fun h => .fcosp h e)
  | 0x8 => do need (! i); need (imm = 0); let e ← xFlt x; some (fun h => .ftanh h e)
  | 0x9 => do
    need (! i)
    let e ← xFlt x
    need (imm.extractLsb' 0 4 = 0)
    need (imm.extractLsb' 7 25 = 0)
    some (fun h => .dot h e (imm.extractLsb' 4 3))
  | 0xA => do need (! i); let e ← xFlt x; let c ← cvtOf imm; some (fun h => .pack h e c)
  | 0xB => do need (! i); let e ← xFlt x; let c ← cvtOf imm; some (fun h => .unpack h e c)
  | 0xC => do
    need (! i)
    let e ← xFlt x
    need (imm.extractLsb' 0 4 = 0)
    need (imm.extractLsb' 7 25 = 0)
    some (fun h => .scaleb h e (imm.extractLsb' 4 3))
  | 0xD => do need (! i); let e ← xFlt x; let c ← cvtOf imm; some (fun h => .quant h e c)
  | _ => none

/-- OPC 0x60 to 0x6F: lane and stream. -/
def parse6 (o : Nat) (i : Bool) (x : BitVec 5) (imm : BitVec 32) : Option (Head → Instr) :=
  match o with
  | 0x0 => do need (! i); let e ← xEC x; let z ← low1 imm; some (fun h => .perm h e z)
  | 0x1 => do
    need (! i)
    let e ← xEC x
    let f ← low 8 imm
    some (fun h => .rotl h e (f.getLsbD 7) (f.extractLsb' 0 7))
  | 0x2 => do
    need (! i)
    let e ← xEC x
    let f ← low 8 imm
    some (fun h => .shfl h e (f.extractLsb' 6 2) (f.extractLsb' 0 6))
  | 0x3 => do need (! i); let e ← xEC x; let j ← low 6 imm; some (fun h => .bcastl h e j)
  | 0x4 => do
    need (! i)
    let e ← xEC x
    let f ← low 11 imm
    need (! f.getLsbD 7)
    let op ← redOf (f.extractLsb' 0 4)
    some (fun h => .redl h e (f.extractLsb' 8 3) (f.extractLsb' 4 3) op)
  | 0x5 => do
    need (! i)
    let e ← xEC x
    let f ← low 11 imm
    let op ← redOf (f.extractLsb' 0 4)
    some (fun h => .scanl h e (f.extractLsb' 8 3) (f.getLsbD 7) (f.extractLsb' 4 3) op)
  | 0x6 => do need (! i); let e ← xEC x; need (imm = 0); some (fun h => .compr h e)
  | 0x7 => do need (! i); let e ← xEC x; let m ← low1 imm; some (fun h => .expnd h e m)
  | 0x8 => do need (! i); let e ← xEC x; need (imm = 0); some (fun h => .lsel h e)
  | 0x9 => do
    need (! i)
    let e ← xEC x
    let f ← low 24 imm
    some (fun h => .iota h e (f.extractLsb' 0 16) (f.extractLsb' 16 8))
  | 0xA => do
    need (! i)
    let e ← xEC x
    let f ← low 10 imm
    let op ← redOf (f.extractLsb' 0 4)
    some (fun h => .accs h e (f.extractLsb' 7 3) (f.extractLsb' 4 3) op)
  | 0xB => do need (! i); need (imm = 0); need (x.extractLsb' 3 2 = 0); some (fun h => .stopk h (x.extractLsb' 0 3))
  | 0xC => do need (! i); need (imm = 0); need (x = 0); some (fun h => .tkind h)
  | 0xD => do
    need (! i)
    let e ← xEC x
    let f ← low 24 imm
    let op ← redOf (f.extractLsb' 0 4)
    some (fun h => .redn h e (f.extractLsb' 8 16) (f.getLsbD 7) (f.extractLsb' 4 3) op)
  | _ => none

/-- OPC 0x70 to 0x7F: memory. -/
def parse7 (o : Nat) (i : Bool) (x : BitVec 5) (imm : BitVec 32) : Option (Head → Instr) :=
  match o with
  | 0x0 => do
    need (! x.getLsbD 4)
    let ac ← acOf (x.extractLsb' 0 4)
    let m ← memOf i imm
    some (fun h => .lds h ac m)
  | 0x1 => do
    need (! x.getLsbD 4)
    let ac ← acOf (x.extractLsb' 0 4)
    let m ← memOf i imm
    some (fun h => .sts h ac m)
  | 0x2 => do
    need (! x.getLsbD 4)
    let ac ← acOf (x.extractLsb' 0 4)
    let m ← memOf i imm
    some (fun h => .ldt h ac m)
  | 0x3 => do
    need (! x.getLsbD 4)
    let ac ← acOf (x.extractLsb' 0 4)
    let m ← memOf i imm
    some (fun h => .stt h ac m)
  | 0x4 => do let ac ← acOf (x.extractLsb' 0 4); let m ← memOf i imm; some (fun h => .ldg h ac (x.getLsbD 4) m)
  | 0x5 => do let ac ← acOf (x.extractLsb' 0 4); let m ← memOf i imm; some (fun h => .stg h ac (x.getLsbD 4) m)
  | 0x6 => do let ac ← acOf (x.extractLsb' 0 4); let m ← memOf i imm; some (fun h => .ldgv h ac (x.getLsbD 4) m)
  | 0x7 => do let ac ← acOf (x.extractLsb' 0 4); let m ← memOf i imm; some (fun h => .stgv h ac (x.getLsbD 4) m)
  | 0x8 => do need (x.extractLsb' 0 4 = 9); let m ← memOf i imm; some (fun h => .prf h (x.getLsbD 4) m)
  | 0x9 => do
    need (! x.getLsbD 4)
    let ac ← acOf (x.extractLsb' 0 4)
    let m ← memOf i imm
    some (fun h => .ldn h ac m)
  | 0xA => do
    need (! x.getLsbD 4)
    let ac ← acOf (x.extractLsb' 0 4)
    let m ← memOf i imm
    some (fun h => .stn h ac m)
  | 0xB => do let op ← atOf (x.extractLsb' 1 4); let m ← memOf i imm; some (fun h => .atms h op (x.getLsbD 0) m)
  | 0xC => do let op ← atOf (x.extractLsb' 1 4); let m ← memOf i imm; some (fun h => .atmg h op (x.getLsbD 0) m)
  | 0xD => do let op ← atOf (x.extractLsb' 1 4); let m ← memOf i imm; some (fun h => .atmn h op (x.getLsbD 0) m)
  | 0xE => do
    let m ← memOf i imm
    if x = 0 then some (fun h => .cctlWb h m) else if x = 1 then some (fun h => .cctlInv h m)
    else if x = 2 then some (fun h => .cctlWbinv h m) else if x = 3 then some (fun h => .cctlWball h m)
    else if x = 4 then some (fun h => .cctlInvall h m) else none
  | _ => none

/-- OPC 0x90 to 0x9F: copies and tags. -/
def parse9 (o : Nat) (i : Bool) (x : BitVec 5) (imm : BitVec 32) : Option (Head → Instr) :=
  match o with
  | 0x0 => do need (x = 0); let m ← memOf i imm; some (fun h => .cpy h m)
  | 0x1 => do
    need (! i)
    need (x = 0)
    let f ← low 5 imm
    let o ← oscOf (f.extractLsb' 2 3)
    some (fun h => .cpyqf h (f.getLsbD 0) (f.getLsbD 1) o)
  | 0x2 => do
    need (! i)
    need (x = 0)
    let f ← low 4 imm
    let o ← oscOf (f.extractLsb' 0 3)
    some (fun h => .tagw h o (f.getLsbD 3))
  | 0x3 => do need (! i); need (x = 0); let f ← low 3 imm; let o ← oscOf f; some (fun h => .tagff h o)
  | 0x4 => do need (! i); need (imm = 0); need (x = 0); some (fun h => .tagclr h)
  | 0x5 => do need (! i); need (x = 0); let s ← low 2 imm; some (fun h => .tagrd h s)
  | _ => none

/-- OPC 0xA0 to 0xAF: mangle. -/
def parseA (o : Nat) (i : Bool) (x : BitVec 5) (imm : BitVec 32) : Option (Head → Instr) :=
  match o with
  | 0x0 => do need (! i); need (imm = 0); let e ← xEC x; some (fun h => .mload h e)
  | 0x1 => do need (! i); need (imm = 0); need (x = 0); some (fun h => .mswap h)
  | 0x2 => do need (! i); need (imm = 0); some (fun h => .marm h x)
  | 0x3 => do need (! i); need (imm = 0); need (x = 0); some (fun h => .mfence h)
  | 0x4 => do need (! i); need (imm = 0); need (x = 0); some (fun h => .mwait h)
  | 0x5 => do need (! i); need (x = 0); let c ← low1 imm; some (fun h => .mchk h c)
  | 0x6 => do need (! i); need (imm = 0); need (x = 0); some (fun h => .mzero h)
  | _ => none

/-- OPC 0xB0 to 0xBF: pool and sealing. -/
def parseB (o : Nat) (i : Bool) (x : BitVec 5) (imm : BitVec 32) : Option (Head → Instr) :=
  match o with
  | 0x0 => do need (! i); need (imm = 0); need (x = 0); some (fun h => .pleat h)
  | 0x1 => do need (! i); need (imm = 0); need (x = 0); some (fun h => .pleatw h)
  | 0x2 => do need (! i); need (imm = 0); need (x = 0); some (fun h => .pleatq h)
  | 0x3 => do need (! i); need (imm = 0); need (! x.getLsbD 4); some (fun h => .occ h (x.extractLsb' 0 4))
  | 0x4 => do need (! i); need (imm = 0); need (x = 0); some (fun h => .swm h)
  | 0x8 => do need (! i); need (x = 0); let s ← low 2 imm; some (fun h => .rinr h s)
  | 0x9 => do need (! i); need (imm = 0); need (x = 0); some (fun h => .sealpt h)
  | 0xA => do need (! i); need (imm = 0); need (x = 0); some (fun h => .sealw h)
  | 0xB => do
    need (! i)
    need (x = 0)
    let w ← low1 imm
    some (fun h => if w then .sealrqWait h else .sealrqNowait h)
  | 0xC => do
    let ac ← acOf (x.extractLsb' 0 4)
    let m ← memOf i imm
    some (fun h => if x.getLsbD 4 then .stxIrr h ac m else .stx h ac m)
  | 0xD => do need (! i); need (imm = 0); need (x = 0); some (fun h => .escw h)
  | _ => none

/-- OPC 0xC0 to 0xCF: synchronising. -/
def parseC (o : Nat) (i : Bool) (x : BitVec 5) (imm : BitVec 32) : Option (Head → Instr) :=
  match o with
  | 0x0 => do
    need (! i); need (imm = 0)
    let s ← scopeOf (x.extractLsb' 0 3)
    match x.extractLsb' 3 2 with
    | 0#2 => some (fun h => .fenceAcq h s) | 1#2 => some (fun h => .fenceRel h s)
    | 2#2 => some (fun h => .fenceBoth h s) | _ => some (fun h => .fenceSc h s)
  | 0x1 => do
    need (! i)
    need (x.extractLsb' 1 4 = 0)
    let f ← low 24 imm
    need (f.extractLsb' 6 2 = 0)
    some (fun h => .arrive h (x.getLsbD 0) (f.extractLsb' 0 6) (f.extractLsb' 8 16))
  | 0x2 => do need (! i); need (x.extractLsb' 1 4 = 0); let k ← low 6 imm; some (fun h => .waitb h (x.getLsbD 0) k)
  | 0x3 => do need (! i); need (imm = 0); need (x = 0); some (fun h => .bar h)
  | 0x4 => do
    need (! i)
    need (! x.getLsbD 4)
    let c ← condOf (x.extractLsb' 0 4)
    let f ← low 3 imm
    let o ← oscOf f
    some (fun h => .waitm h c o)
  | _ => none

/-- OPC 0xD0 to 0xDF: tasks and channels. -/
def parseD (o : Nat) (i : Bool) (x : BitVec 5) (imm : BitVec 32) : Option (Head → Instr) :=
  match o with
  | 0x0 => do need (! i); need (! x.getLsbD 4); let j ← low 4 imm; some (fun h => .send h (x.extractLsb' 0 4) j)
  | 0x1 => do need (! i); need (x = 0); let j ← low 4 imm; some (fun h => .recv h j)
  | 0x2 => do need (! i); need (x = 0); let f ← low 5 imm; some (fun h => .bind h (f.extractLsb' 0 4) (f.getLsbD 4))
  | 0x3 => do
    need (! i)
    need (x = 0)
    let f ← low 11 imm
    some (fun h => .waitc h (f.extractLsb' 0 4) (f.extractLsb' 4 7))
  | 0x4 => do need (! i); need (x = 0); let w ← low1 imm; some (fun h => .tspawn h w)
  | 0x5 => do need (! i); need (imm = 0); need (x = 0); some (fun h => .tstat h)
  | 0x6 => do need (x = 0); let m ← memOf i imm; some (fun h => .qpost h m)
  | 0x7 => do
    need (! i)
    need (x = 0)
    let f ← low 19 imm
    some (fun h => .constw h (f.extractLsb' 0 6) (f.extractLsb' 6 6) (f.extractLsb' 12 4) (f.extractLsb' 16 3))
  | 0x8 => do need (! i); need (x = 0); let m ← low 16 imm; some (fun h => .markt h m)
  | _ => none

/-- OPC 0xE0 to 0xEF: system. -/
def parseE (o : Nat) (i : Bool) (x : BitVec 5) (imm : BitVec 32) : Option (Head → Instr) :=
  match o with
  | 0x0 => do need (! i); need (x = 0); let c ← low 16 imm; some (fun h => .trap h c)
  | 0x1 => do need (! i); need (x = 0); let c ← low 8 imm; some (fun h => .brk h c)
  | 0x2 => do need (! i); need (x = 0); let c ← low 8 imm; some (fun h => .csrr h c)
  | 0x3 => do need (! i); need (x = 0); let c ← low 8 imm; some (fun h => .csrw h c)
  | 0x4 => do
    need (! i); need (x = 0)
    let s ← low 8 imm
    some (fun h => if s = 0 then .svcHemlint h else if s = 1 then .svcStalelint h else if s = 2 then .svcRollbacks h
      else if s = 3 then .svcIdent h else if s = 4 then .svcNotify h else .svcReserved h s)
  | 0x5 => do need (! i); need (imm = 0); need (x = 0); some (fun h => .rdcyc h)
  | 0x6 => do need (! i); need (imm = 0); need (x = 0); some (fun h => .rdtime h)
  | 0x7 => do need (! i); need (imm = 0); need (x = 0); some (fun h => .nop h)
  | _ => none

/-- The assigned opcodes (R57 to R60). -/
def opcKnown (o : Nat) : Bool :=
  (decide (0x01 ≤ o) && decide (o ≤ 0x33)) ||
  (decide (0x40 ≤ o) && decide (o ≤ 0x5D)) ||
  (decide (0x60 ≤ o) && decide (o ≤ 0x6D)) ||
  (decide (0x70 ≤ o) && decide (o ≤ 0x7E)) ||
  (decide (0x90 ≤ o) && decide (o ≤ 0x95)) ||
  (decide (0xA0 ≤ o) && decide (o ≤ 0xA6)) ||
  (decide (0xB0 ≤ o) && decide (o ≤ 0xB4)) ||
  (decide (0xB8 ≤ o) && decide (o ≤ 0xBD)) ||
  (decide (0xC0 ≤ o) && decide (o ≤ 0xC4)) ||
  (decide (0xD0 ≤ o) && decide (o ≤ 0xD8)) ||
  (decide (0xE0 ≤ o) && decide (o ≤ 0xE7))

/-- The instruction of an OPC, I, XOP and IMM, for whatever head. -/
def parse (o : Nat) (i : Bool) (x : BitVec 5) (imm : BitVec 32) : Option (Head → Instr) :=
  match o / 16 with
  | 0x0 => parse0 (o % 16) i x imm
  | 0x1 => parse1 (o % 16) i x imm
  | 0x2 => parse2 (o % 16) i x imm
  | 0x3 => parse3 (o % 16) i x imm
  | 0x4 => parse4 (o % 16) i x imm
  | 0x5 => parse5 (o % 16) i x imm
  | 0x6 => parse6 (o % 16) i x imm
  | 0x7 => parse7 (o % 16) i x imm
  | 0x9 => parse9 (o % 16) i x imm
  | 0xA => parseA (o % 16) i x imm
  | 0xB => parseB (o % 16) i x imm
  | 0xC => parseC (o % 16) i x imm
  | 0xD => parseD (o % 16) i x imm
  | 0xE => parseE (o % 16) i x imm
  | _ => none

/-- PM, T0 and T1 of a word (R41). -/
def headOfWord (w : IWord) : Option Head := do
  let pm ← pmOf (pmF w)
  let t0 ← targetOf (t0F w)
  let t1 ← targetOf (t1F w)
  some ⟨pm, t0, t1⟩

/-- Decoding one instruction word (R61): total, and rejecting by name. -/
def decode (w : IWord) : Except DecErr Instr :=
  if opcKnown (opcF w).toNat then
    match parse (opcF w).toNat (iF w) (xopF w) (immF w), headOfWord w with
    | some f, some h => if (f h).wf then .ok (f h) else .error .malformed
    | _, _ => .error .malformed
  else .error .illegalOp

/-- What the host's opcode-table word stands for: the 64-bit word w, where `nbits` says that the row has no more bits
than one word. The table of this hardware gives no row any bits, and a device event has no word. -/
def decodeTableWord (nbits w : Nat) : Option Instr :=
  if nbits ≤ 64 ∧ w < 2 ^ 64 then
    match decode (BitVec.ofNat 64 w) with
    | .ok i => some i
    | .error _ => none
  else none

/-! ### The encoder (R41), from the same tables -/

/-- A word from its fields (R41). -/
def mk (o : BitVec 8) (i : Bool) (x : BitVec 5) (h : Head) (imm : BitVec 32) : Option IWord :=
  some (o ++ BitVec.ofBool i ++ x ++ pmBits h.pm ++ targetBits h.t0 ++ targetBits h.t1 ++ imm)

/-- The word of an Echeder instruction; a device event has none. -/
def encode : Instr → Option IWord
  | .exitB h o => mk 0x01 false 0 h o
  | .exitJ h => mk 0x01 false 1 h 0
  | .exitC h o => mk 0x01 false 2 h o
  | .exitCi h => mk 0x01 false 3 h 0
  | .exitRet h => mk 0x01 false 4 h 0
  | .exitT h => mk 0x01 false 5 h 0
  | .exitY h o => mk 0x01 false 6 h o
  | .nullw h => mk 0x02 false 0 h 0
  | .nulls h l => mk 0x02 false 1 h (l ++ 0#27)
  | .movi h w v => mk 0x03 false (0#2 ++ intWBits w) h v
  | .movh h v => mk 0x04 false 0 h v
  | .mov h => mk 0x05 false 0 h 0
  | .getid h s => mk 0x06 false s h 0
  | .constk h k => mk 0x07 false 0 h (up k)
  | .pand h => mk 0x08 false 0 h 0
  | .por h => mk 0x08 false 1 h 0
  | .pxor h => mk 0x08 false 2 h 0
  | .pnot h => mk 0x08 false 3 h 0
  | .sel h w => mk 0x09 false (0#2 ++ intWBits w) h 0
  | .lmask h w => mk 0x0A false (0#2 ++ intWBits w) h 0
  | .anyl h w => mk 0x0B false (0#2 ++ intWBits w) h 0
  | .alll h w => mk 0x0B false (1#2 ++ intWBits w) h 0
  | .test h c w b => mk (3#6 ++ (intWBits w).extractLsb' 1 2) (bI b) ((intWBits w).extractLsb' 0 1 ++ condBits c) h (bImm b)
  | .add h e b => mk 0x10 (bI b) (intBits5 e) h (bImm b)
  | .sub h e b => mk 0x11 (bI b) (intBits5 e) h (bImm b)
  | .adds h e b => mk 0x12 (bI b) (intBits5 e) h (bImm b)
  | .subs h e b => mk 0x13 (bI b) (intBits5 e) h (bImm b)
  | .mul h e b => mk 0x14 (bI b) (intBits5 e) h (bImm b)
  | .mulh h e b => mk 0x15 (bI b) (intBits5 e) h (bImm b)
  | .mulhz h e b => mk 0x16 (bI b) (intBits5 e) h (bImm b)
  | .mad h e b => mk 0x17 (bI b) (intBits5 e) h (bImm b)
  | .div h e b => mk 0x18 (bI b) (intBits5 e) h (bImm b)
  | .divz h e b => mk 0x19 (bI b) (intBits5 e) h (bImm b)
  | .rem h e b => mk 0x1A (bI b) (intBits5 e) h (bImm b)
  | .remz h e b => mk 0x1B (bI b) (intBits5 e) h (bImm b)
  | .and h e b => mk 0x1C (bI b) (intBits5 e) h (bImm b)
  | .or h e b => mk 0x1D (bI b) (intBits5 e) h (bImm b)
  | .xor h e b => mk 0x1E (bI b) (intBits5 e) h (bImm b)
  | .andn h e b => mk 0x1F (bI b) (intBits5 e) h (bImm b)
  | .orn h e b => mk 0x20 (bI b) (intBits5 e) h (bImm b)
  | .shl h e b => mk 0x21 (bI b) (intBits5 e) h (bImm b)
  | .shr h e b => mk 0x22 (bI b) (intBits5 e) h (bImm b)
  | .sar h e b => mk 0x23 (bI b) (intBits5 e) h (bImm b)
  | .rol h e b => mk 0x24 (bI b) (intBits5 e) h (bImm b)
  | .clz h e => mk 0x25 false (intBits5 e) h 0
  | .ctz h e => mk 0x26 false (intBits5 e) h 0
  | .popc h e => mk 0x27 false (intBits5 e) h 0
  | .brev h e => mk 0x28 false (intBits5 e) h 0
  | .bswap h e => mk 0x29 false (intBits5 e) h 0
  | .ext h e b => mk 0x2A (bI b) (intBits5 e) h (bImm b)
  | .extz h e b => mk 0x2B (bI b) (intBits5 e) h (bImm b)
  | .ins h e b => mk 0x2C (bI b) (intBits5 e) h (bImm b)
  | .min h e b => mk 0x2D (bI b) (intBits5 e) h (bImm b)
  | .max h e b => mk 0x2E (bI b) (intBits5 e) h (bImm b)
  | .minz h e b => mk 0x2F (bI b) (intBits5 e) h (bImm b)
  | .maxz h e b => mk 0x30 (bI b) (intBits5 e) h (bImm b)
  | .abs h e => mk 0x31 false (intBits5 e) h 0
  | .neg h e => mk 0x32 false (intBits5 e) h 0
  | .lea h e b => mk 0x33 (bI b) (intBits5 e) h (bImm b)
  | .fadd h e b => mk 0x40 (bI b) (fltBits5 e) h (bImm b)
  | .fsub h e b => mk 0x41 (bI b) (fltBits5 e) h (bImm b)
  | .fmul h e b => mk 0x42 (bI b) (fltBits5 e) h (bImm b)
  | .ffma h e b => mk 0x43 (bI b) (fltBits5 e) h (bImm b)
  | .ffms h e b => mk 0x44 (bI b) (fltBits5 e) h (bImm b)
  | .fnma h e b => mk 0x45 (bI b) (fltBits5 e) h (bImm b)
  | .fmin h e b => mk 0x46 (bI b) (fltBits5 e) h (bImm b)
  | .fmax h e b => mk 0x47 (bI b) (fltBits5 e) h (bImm b)
  | .fabs h e => mk 0x48 false (fltBits5 e) h 0
  | .fneg h e => mk 0x49 false (fltBits5 e) h 0
  | .fcpys h e b => mk 0x4A (bI b) (fltBits5 e) h (bImm b)
  | .ftest h e c => mk 0x4B false (fltBits5 e) h (up (fcondBits c))
  | .fclass h e m => mk 0x4C false (fltBits5 e) h (up m)
  | .fcvt h e c => mk 0x4D false (fltBits5 e) h (cvtImm c)
  | .icvtf h e c => mk 0x4E false (fltBits5 e) h (cvtImm c)
  | .fcvti h e c => mk 0x4F false (fltBits5 e) h (cvtImm c)
  | .frcp h e => mk 0x50 false (fltBits5 e) h 0
  | .frsq h e => mk 0x51 false (fltBits5 e) h 0
  | .fsqrt h e => mk 0x52 false (fltBits5 e) h 0
  | .fdiv h e b => mk 0x53 (bI b) (fltBits5 e) h (bImm b)
  | .fexp2 h e => mk 0x54 false (fltBits5 e) h 0
  | .flog2 h e => mk 0x55 false (fltBits5 e) h 0
  | .fsinp h e => mk 0x56 false (fltBits5 e) h 0
  | .fcosp h e => mk 0x57 false (fltBits5 e) h 0
  | .ftanh h e => mk 0x58 false (fltBits5 e) h 0
  | .dot h e r => mk 0x59 false (fltBits5 e) h (0#25 ++ r ++ 0#4)
  | .pack h e c => mk 0x5A false (fltBits5 e) h (cvtImm c)
  | .unpack h e c => mk 0x5B false (fltBits5 e) h (cvtImm c)
  | .scaleb h e r => mk 0x5C false (fltBits5 e) h (0#25 ++ r ++ 0#4)
  | .quant h e c => mk 0x5D false (fltBits5 e) h (cvtImm c)
  | .perm h e z => mk 0x60 false (ecBits5 e) h (up1 z)
  | .rotl h e d c => mk 0x61 false (ecBits5 e) h (up (BitVec.ofBool d ++ c))
  | .shfl h e m d => mk 0x62 false (ecBits5 e) h (up (m ++ d))
  | .bcastl h e j => mk 0x63 false (ecBits5 e) h (up j)
  | .redl h e g r op => mk 0x64 false (ecBits5 e) h (up (g ++ 0#1 ++ r ++ redBits op))
  | .scanl h e g ex r op => mk 0x65 false (ecBits5 e) h (up (g ++ BitVec.ofBool ex ++ r ++ redBits op))
  | .compr h e => mk 0x66 false (ecBits5 e) h 0
  | .expnd h e m => mk 0x67 false (ecBits5 e) h (up1 m)
  | .lsel h e => mk 0x68 false (ecBits5 e) h 0
  | .iota h e b s => mk 0x69 false (ecBits5 e) h (up (s ++ b))
  | .accs h e l r op => mk 0x6A false (ecBits5 e) h (up (l ++ r ++ redBits op))
  | .stopk h l => mk 0x6B false (0#2 ++ l) h 0
  | .tkind h => mk 0x6C false 0 h 0
  | .redn h e m a r op => mk 0x6D false (ecBits5 e) h (up (m ++ BitVec.ofBool a ++ r ++ redBits op))
  | .lds h ac m => mk 0x70 m.sc (0#1 ++ acBits ac) h (memImm m)
  | .sts h ac m => mk 0x71 m.sc (0#1 ++ acBits ac) h (memImm m)
  | .ldt h ac m => mk 0x72 m.sc (0#1 ++ acBits ac) h (memImm m)
  | .stt h ac m => mk 0x73 m.sc (0#1 ++ acBits ac) h (memImm m)
  | .ldg h ac na m => mk 0x74 m.sc (BitVec.ofBool na ++ acBits ac) h (memImm m)
  | .stg h ac na m => mk 0x75 m.sc (BitVec.ofBool na ++ acBits ac) h (memImm m)
  | .ldgv h ac na m => mk 0x76 m.sc (BitVec.ofBool na ++ acBits ac) h (memImm m)
  | .stgv h ac na m => mk 0x77 m.sc (BitVec.ofBool na ++ acBits ac) h (memImm m)
  | .prf h na m => mk 0x78 m.sc (BitVec.ofBool na ++ 9#4) h (memImm m)
  | .ldn h ac m => mk 0x79 m.sc (0#1 ++ acBits ac) h (memImm m)
  | .stn h ac m => mk 0x7A m.sc (0#1 ++ acBits ac) h (memImm m)
  | .atms h op wd m => mk 0x7B m.sc (atBits op ++ BitVec.ofBool wd) h (memImm m)
  | .atmg h op wd m => mk 0x7C m.sc (atBits op ++ BitVec.ofBool wd) h (memImm m)
  | .atmn h op wd m => mk 0x7D m.sc (atBits op ++ BitVec.ofBool wd) h (memImm m)
  | .cctlWb h m => mk 0x7E m.sc 0 h (memImm m)
  | .cctlInv h m => mk 0x7E m.sc 1 h (memImm m)
  | .cctlWbinv h m => mk 0x7E m.sc 2 h (memImm m)
  | .cctlWball h m => mk 0x7E m.sc 3 h (memImm m)
  | .cctlInvall h m => mk 0x7E m.sc 4 h (memImm m)
  | .cpy h m => mk 0x90 m.sc 0 h (memImm m)
  | .cpyqf h se sy o => mk 0x91 false 0 h (up (oscBits o ++ BitVec.ofBool sy ++ BitVec.ofBool se))
  | .tagw h o an => mk 0x92 false 0 h (up (BitVec.ofBool an ++ oscBits o))
  | .tagff h o => mk 0x93 false 0 h (up (oscBits o))
  | .tagclr h => mk 0x94 false 0 h 0
  | .tagrd h s => mk 0x95 false 0 h (up s)
  | .mload h e => mk 0xA0 false (ecBits5 e) h 0
  | .mswap h => mk 0xA1 false 0 h 0
  | .marm h s => mk 0xA2 false s h 0
  | .mfence h => mk 0xA3 false 0 h 0
  | .mwait h => mk 0xA4 false 0 h 0
  | .mchk h c => mk 0xA5 false 0 h (up1 c)
  | .mzero h => mk 0xA6 false 0 h 0
  | .pleat h => mk 0xB0 false 0 h 0
  | .pleatw h => mk 0xB1 false 0 h 0
  | .pleatq h => mk 0xB2 false 0 h 0
  | .occ h s => mk 0xB3 false (0#1 ++ s) h 0
  | .swm h => mk 0xB4 false 0 h 0
  | .rinr h s => mk 0xB8 false 0 h (up s)
  | .sealpt h => mk 0xB9 false 0 h 0
  | .sealw h => mk 0xBA false 0 h 0
  | .sealrqNowait h => mk 0xBB false 0 h 0
  | .sealrqWait h => mk 0xBB false 0 h 1
  | .stx h ac m => mk 0xBC m.sc (0#1 ++ acBits ac) h (memImm m)
  | .stxIrr h ac m => mk 0xBC m.sc (1#1 ++ acBits ac) h (memImm m)
  | .escw h => mk 0xBD false 0 h 0
  | .fenceAcq h s => mk 0xC0 false (0#2 ++ scopeBits s) h 0
  | .fenceRel h s => mk 0xC0 false (1#2 ++ scopeBits s) h 0
  | .fenceBoth h s => mk 0xC0 false (2#2 ++ scopeBits s) h 0
  | .fenceSc h s => mk 0xC0 false (3#2 ++ scopeBits s) h 0
  | .arrive h l k e => mk 0xC1 false (0#4 ++ BitVec.ofBool l) h (up (e ++ 0#2 ++ k))
  | .waitb h l k => mk 0xC2 false (0#4 ++ BitVec.ofBool l) h (up k)
  | .bar h => mk 0xC3 false 0 h 0
  | .waitm h c o => mk 0xC4 false (0#1 ++ condBits c) h (up (oscBits o))
  | .send h k j => mk 0xD0 false (0#1 ++ k) h (up j)
  | .recv h j => mk 0xD1 false 0 h (up j)
  | .bind h j r => mk 0xD2 false 0 h (up (BitVec.ofBool r ++ j))
  | .waitc h j n => mk 0xD3 false 0 h (up (n ++ j))
  | .tspawn h w => mk 0xD4 false 0 h (up1 w)
  | .tstat h => mk 0xD5 false 0 h 0
  | .qpost h m => mk 0xD6 m.sc 0 h (memImm m)
  | .constw h px py k c => mk 0xD7 false 0 h (up (c ++ k ++ py ++ px))
  | .markt h m => mk 0xD8 false 0 h (up m)
  | .trap h c => mk 0xE0 false 0 h (up c)
  | .brk h c => mk 0xE1 false 0 h (up c)
  | .csrr h c => mk 0xE2 false 0 h (up c)
  | .csrw h c => mk 0xE3 false 0 h (up c)
  | .svcHemlint h => mk 0xE4 false 0 h 0
  | .svcStalelint h => mk 0xE4 false 0 h 1
  | .svcRollbacks h => mk 0xE4 false 0 h 2
  | .svcIdent h => mk 0xE4 false 0 h 3
  | .svcNotify h => mk 0xE4 false 0 h 4
  | .svcReserved h s => mk 0xE4 false 0 h (up s)
  | .rdcyc h => mk 0xE5 false 0 h 0
  | .rdtime h => mk 0xE6 false 0 h 0
  | .nop h => mk 0xE7 false 0 h 0
  | _ => none

end Sys2Proof
end

