-- ==== Sys2Proof/Machine/Memory.lean ====
section
/-! DEFINITION. Global memory: translation (R226 to R229), device memory with its undo log (R303 to R308), escapes (R323,
R324), the C role (R127, R285), waiters on signals (R291). -/

namespace Sys2Proof.Machine

/-! ### Translation (R226 to R229) -/

/-- Fields of a page-table entry (R227). -/
def peV (e : BitVec 64) : Bool := e.getLsbD 0
/-- R. -/
def peR (e : BitVec 64) : Bool := e.getLsbD 3
/-- W. -/
def peW (e : BitVec 64) : Bool := e.getLsbD 4
/-- X. -/
def peX (e : BitVec 64) : Bool := e.getLsbD 5
/-- REC. -/
def peRec (e : BitVec 64) : Bool := e.getLsbD 6
/-- TIER. -/
def peTier (e : BitVec 64) : Bool := e.getLsbD 7
/-- MIG. -/
def peMig (e : BitVec 64) : Bool := e.getLsbD 8
/-- DEST. -/
def peDest (e : BitVec 64) : Nat := natBits e.toNat 12 4
/-- PA, as an address. -/
def pePa (e : BitVec 64) : Nat := natBits e.toNat 16 36 * 65536
/-- PEER. -/
def pePeer (e : BitVec 64) : Nat := natBits e.toNat 52 12

/-- An entry from its fields (R227). -/
def mkEntry (peer pa dest : Nat) (mig tier recov x w r leaf : Bool) : BitVec 64 :=
  BitVec.ofNat 64 (peer % 4096 * 2 ^ 52 + pa / 65536 % 2 ^ 36 * 65536 + dest % 16 * 4096 + mig.toNat * 256 + tier.toNat * 128 +
    recov.toNat * 64 + x.toNat * 32 + w.toNat * 16 + r.toNat * 8 + leaf.toNat * 4 + 1)

/-- The walk of R226: the leaf that maps an address, its size and its entry. -/
def walk (L : Lease) (va : Nat) : Option (Bool × BitVec 64) :=
  match tfind L.big (va / 2 ^ 29) with
  | some e => if peV e then some (true, e) else none
  | none =>
    match tfind L.small (va / 2 ^ 16) with
    | some e => if peV e then some (false, e) else none
    | none => none

/-- Whether a walk for an address reads a poisoned line of its lease's page table (R226, R229): the levels it reads, by entry div 8. -/
def walkBad (L : Lease) (va : Nat) : Bool :=
  L.ptBad.contains (1, va / 2 ^ 38 / 8) || L.ptBad.contains (2, va / 2 ^ 29 / 8) ||
    ((tfind L.big (va / 2 ^ 29)).isNone && L.ptBad.contains (3, va / 2 ^ 16 / 8))

/-- A TLB entry that serves an address of a lease and generation (R229). -/
def tlbHit (tlb : List TlbEntry) (l : Nat) (gen : BitVec 8) (va : Nat) : Option (Bool × BitVec 64) :=
  (tlb.find? fun t => t.lease = l && t.gen = gen && t.page = (if t.big then va / 2 ^ 29 else va / 2 ^ 16)).map
    fun t => (t.big, t.entry)

/-- The first two stages of R229: the core's TLB, the cluster's. -/
def tlbLookup (s : State) (cid l : Nat) (L : Lease) (va : Nat) : Option (Bool × BitVec 64) :=
  (tlbHit (s.core cid).tlb l L.gen va).or (tlbHit (s.cluster (clusterOf cid)).tlb l L.gen va)

/-- The three stages of R229: the core's TLB, the cluster's, a walk. -/
def lookup (s : State) (cid l va : Nat) : Option (Bool × BitVec 64) :=
  (s.lease l).bind fun L => (tlbLookup s cid l L va).or (walk L va)

/-- Where an entry sends an address: device memory by R106 or R107, the host, a peer in or outside the domain (R227). -/
def locOf (L : Lease) (big : Bool) (e : BitVec 64) (va : Nat) : Option Loc :=
  let a := pePa e + va % (if big then 2 ^ 29 else 2 ^ 16)
  match peDest e with
  | 0 => (if peTier e then tierPhys L a else hbmPhys L a).map fun pa => .dev pa (peRec e)
  | 1 => some (.host a)
  | 2 => some (.peer (pePeer e) a)
  | 3 => some (.ext (pePeer e) a)
  | _ => none

/-- What a translation answers. -/
inductive Xlate where
  | ok (l : Loc) (e : BitVec 64)
  | unmapped
  | moving
  | poisoned
deriving DecidableEq, Repr

/-- Translation of one address for a lease (R229): MIG makes the access wait; a walk that reads poison gives poison. -/
def translate (s : State) (cid l va : Nat) : Xlate :=
  match s.lease l, lookup s cid l va with
  | some L, e =>
    if (tlbLookup s cid l L va).isNone && walkBad L va then .poisoned
    else match e with
      | none => .unmapped
      | some (big, e) =>
        if peMig e then .moving
        else
          match locOf L big e va with
          | some x => .ok x e
          | none => .unmapped
  | none, _ => .unmapped

/-- Whether a target leaves the seal domain (R227, R323). -/
def Loc.isSystem : Loc → Bool
  | .host _ | .ext _ _ => true
  | _ => false

/-- A target moved up by k bytes. -/
def Loc.plus (k : Nat) : Loc → Loc
  | .dev pa r => .dev (pa + k) r
  | .host a => .host (a + k)
  | .peer d a => .peer d (a + k)
  | .ext d a => .ext d (a + k)

/-- A target's location as a key: two addresses that translate to one target are one location (R277). -/
def Loc.key : Loc → Nat × Nat
  | .dev pa _ => (1, pa)
  | .host a => (2, a)
  | .peer d a => (3, d * 2 ^ 48 + a)
  | .ext d a => (4, d * 2 ^ 48 + a)

/-! ### Owner meters (R358) -/

/-- The owner of a lease. -/
def leaseOwner (s : State) (l : Nat) : Nat := ((s.lease l).map (·.owner)).getD 0

/-- Charge an owner's meter, by its place in the table of R358; meters saturate. -/
def charge (s : State) (o m n : Nat) : State :=
  s.modOwner o fun w => { w with meters := tset w.meters m (Nat.min (tgetD w.meters m 0 + n) (2 ^ 64 - 1)) }

/-- Charge the bytes moved at the controller of a physical address to the owner of its lease (HBM_BYTES is meter 7,
TIER2_BYTES meter 8). -/
def chargePa (s : State) (pa n : Nat) : State :=
  match ownerOfPa s pa with
  | some (l, _) =>
    (charge s (leaseOwner s l) (if pa < 2 ^ 42 then 7 else 8) n).modOwner (leaseOwner s l) fun w => { w with moved := w.moved + n }
  | none => s

/-- Charge the bytes that a read of a target moves. -/
def chargeRead (s : State) (l : Loc) (n : Nat) : State :=
  match l with
  | .dev pa _ => chargePa s pa n
  | _ => s

/-! ### Injected poison (R416, R417) -/

/-- Whether a read of a target by a request of a lease matches the injection that is armed. -/
def injectMatch (s : State) (lease : Nat) (l : Loc) : Bool :=
  let c := s.inject.ctl.toNat
  match l, s.lease lease with
  | .dev pa _, some L =>
    c.testBit 0 && natBits c 20 12 = lease && (natBits c 32 32 = 0 || natBits c 32 32 = s.sl.cur.toNat) &&
      match localOf L pa with
      | some (_, a) => natBits s.inject.line.toNat 6 42 = a / 64
      | none => false
  | _, _ => false

/-- Whether the next read of a target by a lease is the one that the injection answers poisoned. -/
def injected (s : State) (lease : Nat) (l : Loc) : Bool :=
  injectMatch s lease l && s.inject.seen + 1 = natBits s.inject.ctl.toNat 16 4

/-- A read of a target by a request of a lease, as the injection sees it: counted where it matches; the NTH fires and disarms. -/
def noteRead (s : State) (lease : Nat) (l : Loc) : State :=
  if ! injectMatch s lease l then s
  else
    let fire := injected s lease l
    { s with inject := { s.inject with
        seen := Nat.min (s.inject.seen + 1) 65535,
        fires := if fire then Nat.min (s.inject.fires + 1) (2 ^ 32 - 1) else s.inject.fires,
        ctl := if fire then s.inject.ctl &&& ~~~1#64 else s.inject.ctl } }

/-- A read by a request of a lease: its bytes charged, and seen by the injection. -/
def countRead (s : State) (lease : Nat) (l : Loc) (n : Nat) : State := noteRead (chargeRead s l n) lease l

/-! ### Device memory and the undo log (R303 to R308) -/

/-- The tag of an interval (R303). -/
def tagOf (r : Rin) : BitVec 16 := BitVec.ofNat 16 (r.toNat % 65535 + 1)

/-- A line's interval tag (R303). -/
def State.lineTag (s : State) (pa : Nat) : BitVec 16 := tgetD s.lineTags (pa / 64) 0

/-- Entries that a controller holds in an area (R307). -/
def undoCount (s : State) (ctrl area : Nat) : Nat := (s.undo.filter fun u => u.ctrl = ctrl && u.area = area).length

/-- Entries of a controller's slice (R307). -/
def sliceSize (ctrl : Nat) : Nat := if ctrl < 1536 then 1048576 else 4194304

/-- The spare slice that takes a full controller's next entry (R307): one that it has and that is not full, else one that holds no
entry. A spare that a SEALED empties is thereby back in the shared set. -/
def spareFor (s : State) (ctrl : Nat) : Option Nat :=
  let mine := fun k => s.undo.any fun u => u.area = 2 + k && u.ctrl = ctrl
  ((List.range 128).find? fun k => mine k && decide (undoCount s ctrl (2 + k) < 1048576)).or
    ((List.range 128).find? fun k => ! s.undo.any (·.area = 2 + k))

/-- The area that takes a controller's next entry (R307): an HBM ring of 131,072, its slice, a spare slice. -/
def areaFor (s : State) (ctrl : Nat) : Option Nat :=
  if ctrl < 1536 ∧ undoCount s ctrl 0 < 131072 then some 0
  else if undoCount s ctrl 1 < sliceSize ctrl then some 1
  else (spareFor s ctrl).map (2 + ·)

/-- The area of an entry for which there is no room: a step that would leave one stalls instead (R308). -/
def noArea : Nat := 130

/-- Whether a store of interval r to a line needs an undo entry (R305). -/
def needsUndo (s : State) (pa : Nat) (recov : Bool) (r : Rin) : Bool := recov && s.lineTag pa != tagOf r

/-- Whether a store to a line would stall for undo space (R308). -/
def undoStalls (s : State) (pa : Nat) (recov : Bool) (r : Rin) : Bool := needsUndo s pa recov r && (areaFor s (ctrlOf pa)).isNone

/-- The lease whose line found no room for its undo entry in what was done (R308): what was done stalls instead. -/
def overLease (s : State) : Option Nat := (s.undo.find? (·.area = noArea)).map (·.lease)

/-- A step's outcome unless its stores found no room for their undo entries: then it stalls, and nothing of it has happened (R308). -/
def unlessFull (s s' : State) : State := if (overLease s').isSome then s else s'

/-- The old line logged before a store of interval r (R305). -/
def logLine (s : State) (pa : Nat) (recov : Bool) (r : Rin) : State :=
  if needsUndo s pa recov r then
    let line := pa / 64
    let own := (ownerOfPa s pa).getD (0, 0)
    let s := chargePa s pa 128
    { s with
      undo := { ctrl := ctrlOf pa, pa := line * 64, lease := own.1, gen := own.2, rin := r, otag := s.lineTag pa,
                poison := s.poison.contains line, data := s.mem.line (line * 64), bad := false,
                area := (areaFor s (ctrlOf pa)).getD noArea } :: s.undo,
      lineTags := tset s.lineTags line (tagOf r) }
  else s

/-- The key of the line that a signal's target lies in (R291). -/
def lineKey (l : Loc) : Nat := match l.key with
  | (1, a) => a / 64
  | (k, a) => 2 ^ 64 * k + a / 64

/-- A message to another device about a lease there, from a lease here: under the generation that PAIR named (R377). -/
def peerNote (s : State) (lease device far : Nat) (m : PeerMsg) : PeerFlit :=
  let gen := match (s.lease lease).bind (·.pair) with
    | some q => q.2.2.toNat
    | none => 0
  { destDevice := device, destLease := far, destGen := gen, srcDevice := s.sl.device, srcLease := lease, px := 0, py := 0, chan := 0,
    kind := 0, value := 0, rin := s.sl.cur, msg := m }

/-- Word of a write to a line for the waiters that other devices hold on it (R291). -/
def notices (s : State) (line : Nat) : List PeerFlit :=
  s.waiters.filterMap fun w => if w.line = line then w.remote.map fun r => peerNote s w.lease r.1 r.2 (.released w.va none) else none

/-- Waiters on a line are told of a write (R291, R95, R299): a packet rereads its dependence, a task's `waitm` its signal, another device
its own waiter's. -/
def wakeLine (s : State) (line : Nat) : State :=
  { s with
    pipe := s.pipe.map fun p =>
      if s.waiters.any (fun w => w.line = line && w.pk = some p.num) then { p with registered := false } else p,
    waiters := s.waiters.map fun w => if w.line = line then { w with woken := true } else w,
    peerOut := s.peerOut ++ notices s line }

/-- The device and the line address of a line key that is a peer's. -/
def peerLine (line : Nat) : Option (Nat × Nat) :=
  let a := line % 2 ^ 64 * 64
  if line / 2 ^ 64 = 3 then some (a / 2 ^ 48, a % 2 ^ 48) else none

/-- The device of a signal told that a lease waits, or no longer waits, on one of its lines (R95, R291). -/
def tellSignal (s : State) (lease line : Nat) (on : Bool) : State :=
  match peerLine line, (s.lease lease).bind (·.pair) with
  | some (d, a), some q => { s with peerOut := s.peerOut ++ [peerNote s lease d q.2.1 (if on then .register a else .unregister a)] }
  | _, _ => s

/-- Whether a lease of this device waits on a line. -/
def waitsOn (ws : List Waiter) (lease line : Nat) : Bool := ws.any fun w => w.remote.isNone && w.lease = lease && w.line = line

/-- A waiter registered, in the place of what `old` picks (R291). -/
def enlist (s : State) (w : Waiter) (old : Waiter → Bool) : State :=
  let t := { s with waiters := w :: s.waiters.filter fun x => ! old x }
  if waitsOn s.waiters w.lease w.line then t else tellSignal t w.lease w.line true

/-- Waiters taken off (R291). -/
def delist (s : State) (out : Waiter → Bool) : State :=
  let kept := s.waiters.filter fun w => ! out w
  (s.waiters.filter out).foldl (fun t w => if waitsOn kept w.lease w.line then t else tellSignal t w.lease w.line false)
    { s with waiters := kept }

/-- Whether another device holds a waiter on the line of a target (R291). -/
def markedAfar (s : State) (l : Loc) : Bool := s.waiters.any fun w => w.remote.isSome && w.line = lineKey l

/-- The scope at which an access of a scope that writes some targets releases: system scope where another device waits on one (R291). -/
def promoted (s : State) (ls : List Loc) (osc : Option Scope) : Option Scope :=
  if osc.isSome && ls.any (markedAfar s) then some .system else osc

/-- A seal message of this device (R311). -/
def sealMsg (s : State) (ty : Nat) (irr : Bool) (r : Rin) : SealMsg :=
  { ty := BitVec.ofNat 4 ty, irr := irr, domain := s.sl.domain, rin := r, device := BitVec.ofNat 12 s.sl.device,
    time := BitVec.ofNat 64 s.time }

/-- A message for the coordinator (R309, R311): on its way to it, or at once in its own hands. -/
def toCoordinator (s : State) (ty : Nat) (irr : Bool) (r : Rin) : State :=
  let m := sealMsg s ty irr r
  if s.sl.device = s.sl.coordinator then { s with sl := { s.sl with due := s.sl.due ++ [m] } }
  else { s with sl := { s.sl with outbox := s.sl.outbox ++ [m] } }

/-- A message that the coordinator broadcasts (R309): to itself too. -/
def broadcast (s : State) (ty : Nat) (r : Rin) : State :=
  let m := sealMsg s ty false r
  let others := s.sl.members.any (· != s.sl.device)
  { s with sl := { s.sl with due := s.sl.due ++ [m], outbox := if others then s.sl.outbox ++ [m] else s.sl.outbox } }

/-- A REQUEST for a seal (R309): the coordinator notes it; any other device sends it the message. -/
def requestSeal (s : State) (irr : Bool) : State :=
  if s.sl.device = s.sl.coordinator then { s with sl := { s.sl with requested := true } } else toCoordinator s 4 irr s.sl.cur

/-- The early-seal request when a ring reaches three quarters, once per interval (R308). -/
def earlySeal (s : State) (ctrl : Nat) : State :=
  if ctrl < 1536 ∧ 98304 ≤ undoCount s ctrl 0 ∧ s.sl.earlySent ≠ some s.sl.cur then
    requestSeal { s with sl := { s.sl with earlySent := some s.sl.cur } } false
  else s

/-- A memory node by number (R302): a controller, the peer ports, the Briuk strip. -/
def nodeNo (l : Loc) : Nat :=
  match l with
  | .dev pa _ => ctrlOf pa
  | .peer _ _ | .ext _ _ => 1632
  | .host _ => 1633

/-- The current RIN of a target's node: the device's, unless a later stamp has reached it (R302, R309). -/
def nodeRin (s : State) (l : Loc) : Rin :=
  match tfind s.nodeRins (nodeNo l) with
  | some r => if rinGt r s.sl.cur then r else s.sl.cur
  | none => s.sl.cur

/-- A node receives a stamp (R302). -/
def nodeSaw (s : State) (l : Loc) (r : Rin) : State :=
  if rinGt r (nodeRin s l) then { s with nodeRins := tset s.nodeRins (nodeNo l) r } else s

/-- A core receives a later stamp (R302): its current RIN advances. -/
def Core.sawRin (c : Core) (r : Rin) : Core := if rinGt r c.rin then { c with rin := r } else c

/-- A reply from a target's node reaches a core with that node's RIN (R302). -/
def heard (s : State) (cid : Nat) (l : Loc) : State := s.modCore cid fun c => c.sawRin (nodeRin s l)

/-- Bytes written at a device-memory address, all within one line (R305): the old line is logged, the tag set, and a write of
the whole line clears its poison (R257). -/
def devWrite (s : State) (pa : Nat) (bs : List Byte) (recov : Bool) (r : Rin) : State :=
  let s := chargePa (earlySeal (logLine s pa recov r) (ctrlOf pa)) pa bs.length
  let s := { s with mem := s.mem.write pa bs,
                    poison := if bs.length = 64 then s.poison.filter (· != pa / 64) else s.poison }
  wakeLine s (pa / 64)

/-- Bytes written at a target at its memory node (R256, R257). System targets are not written here: their writes are
escapes (R323). -/
def nodeWrite (s : State) (l : Loc) (bs : List Byte) (r : Rin) : State :=
  let s := nodeSaw s l r
  match l with
  | .dev pa recov => devWrite s pa bs recov r
  | .peer d a => wakeLine { s with peerMem := s.peerMem.write (d * 2 ^ 48 + a) bs } (lineKey l)
  | .host a => { s with hostMem := s.hostMem.write a bs }
  | .ext d a => { s with peerMem := s.peerMem.write (d * 2 ^ 48 + a) bs }

/-- Bytes covered by a held escape of a lease laid over what was read (R292). -/
def overlayEsc (s : State) (lease : Nat) (l : Loc) (bs : List Byte) : List Byte :=
  (List.range bs.length).map fun i =>
    s.escapes.foldl (fun b e =>
      let (k, a) := (l.plus i).key
      let (k', a') := e.loc.key
      if e.lease = some lease ∧ k = k' ∧ a' ≤ a ∧ a < a' + e.data.length then e.data.getD (a - a') 0 else b) (bs.getD i 0)

/-- `n` bytes at a target as its memory node holds them, for a reader of a lease (R257, R292). -/
def nodeRead (s : State) (lease : Nat) (l : Loc) (n : Nat) : List Byte :=
  match l with
  | .dev pa _ => s.mem.read pa n
  | .peer d a => s.peerMem.read (d * 2 ^ 48 + a) n
  | .host a => overlayEsc s lease l (s.hostMem.read a n)
  | .ext d a => overlayEsc s lease l (s.peerMem.read (d * 2 ^ 48 + a) n)

/-- Whether a target's line is poisoned (R257). -/
def locPoisoned (s : State) (l : Loc) : Bool :=
  match l with
  | .dev pa _ => s.poison.contains (pa / 64)
  | _ => false

/-- Whether the next read of a target by a request of a lease brings poison (R257, R417). -/
def readBad (s : State) (lease : Nat) (l : Loc) : Bool := locPoisoned s l || injected s lease l

/-! ### Escapes (R323, R324) -/

/-- Entries of the escape ring: 1 GiB of 128-byte entries (R323). -/
def escapeRoom (s : State) : Bool := decide (s.escapes.length < 8388608)

/-- An escape held (R323); at three quarters the device asks for a seal. -/
def holdEscape (s : State) (l : Loc) (lease : Option Nat) (ac : AC) (irr retained : Bool) (px py slot : Nat) (r : Rin)
    (bs : List Byte) : State :=
  let s := if s.escapes.length + 1 = 6291456 then requestSeal s false else s
  { s with
    escapes := s.escapes ++ [{ id := s.escNext, loc := l, rin := r, lease := lease, ac := ac, irr := irr,
                               retained := retained, px := px, py := py, slot := slot, data := bs }],
    escNext := s.escNext + 1 }

/-! ### The C role (R127, R285, R302) -/

/-- The set of a line (R127). -/
def cSet (line banks : Nat) : Nat := (line ^^^ (line / 2 ^ 17) ^^^ (line / 2 ^ 34)) % (64 * banks)

/-- A line held in C. -/
def Core.cFind (c : Core) (line : Nat) : Option CLine := c.cache.find? (·.line = line)

/-- Replace the entry of a line. -/
def Core.cPut (c : Core) (x : CLine) : Core := { c with cache := x :: c.cache.filter (·.line != x.line) }

/-- Drop a line. -/
def Core.cDrop (c : Core) (line : Nat) : Core :=
  { c with cache := c.cache.filter (·.line != line), dirtyQ := c.dirtyQ.filter (· != line) }

/-- Whether C allocates now (R127, R129): it has granules, and no handshake that changes their number is under way. -/
def Core.cAlloc (c : Core) : Bool :=
  decide (0 < c.pleat.cBanks) && (decide (c.pleat.phase < 2) ||
    c.pleat.cBanks = 4 * (16 - plG c.pleat.req - plT c.pleat.req - plS c.pleat.req))

/-- Dirty bytes of a line of C written at their node under the line's stamp (R285, R302). Each dirty byte is its own write within the
one store. -/
def lineOut (s : State) (x : CLine) : State :=
  let s := nodeSaw s x.loc x.stamp
  match x.loc with
  | .dev pa recov =>
    let s := chargePa (earlySeal (logLine s pa recov x.stamp) (ctrlOf pa)) pa
      ((List.range 64).filter fun i => x.dirty.getLsbD i).length
    let bs := valueBytes x.data
    let mem := (List.range 64).foldl (fun m i => if x.dirty.getLsbD i then m.set (pa + i) (bs.getD i 0) else m) s.mem
    wakeLine { s with mem := mem, poison := if x.dirty = BitVec.allOnes 64 then s.poison.filter (· != pa / 64) else s.poison }
      (pa / 64)
  | .peer d a =>
    let bs := valueBytes x.data
    let put := fun (m : Memory) i => if x.dirty.getLsbD i then m.set (d * 2 ^ 48 + a + i) (bs.getD i 0) else m
    wakeLine { s with peerMem := (List.range 64).foldl put s.peerMem } (lineKey x.loc)
  | _ => s

/-- A dirty line written back (R285); the line stays, clean. -/
def writeBack (s : State) (cid : Nat) (x : CLine) : State :=
  if x.dirty = 0 then s
  else lineOut (s.modCore cid fun c => { c.cPut { x with dirty := 0 } with dirtyQ := c.dirtyQ.filter (· != x.line) }) x

/-- A line written back if dirty and then invalidated. -/
def flushLine (s : State) (cid line : Nat) : State :=
  match (s.core cid).cFind line with
  | none => s
  | some x => (writeBack s cid x).modCore cid fun c => c.cDrop line

/-- Every dirty line of a core written back (R265, R285): the dirty-line queue empties. -/
def drainC (s : State) (cid : Nat) : State :=
  ((s.core cid).cache.filter (·.dirty != 0)).foldl (fun s x => writeBack s cid x) s

/-- Whether the write-back of a line would stall for undo space (R308). -/
def lineStalls (s : State) (x : CLine) : Bool :=
  x.dirty != 0 && match x.loc with
    | .dev pa recov => undoStalls s pa recov x.stamp
    | _ => false

/-- Whether draining a core's C would stall for undo space (R308). -/
def drainStalls (s : State) (cid : Nat) : Bool :=
  (s.core cid).cache.any (lineStalls s) || (overLease (drainC s cid)).isSome

/-- The cache generation advances (R285); on a wrap to 0 every clean line is invalidated. -/
def advanceGen (s : State) (cid : Nat) : State :=
  s.modCore cid fun c =>
    if c.cacheGen = 0xFFFF#16 then { c with cacheGen := 0, cache := c.cache.filter (·.dirty != 0), blocks := [] }
    else { c with cacheGen := c.cacheGen + 1 }

/-- Make room for a line in its set and enter it (R127): an invalid way first, else the pseudo-LRU victim, whose dirty
bytes are written back. A `.na` prefetch takes the way that the pseudo-LRU state names and leaves that state (R260). -/
def cFill (s : State) (cid line : Nat) (l : Loc) (data : Value) (poisoned touch : Bool) : State :=
  let c := s.core cid
  if ! c.cAlloc then s
  else
    let set := cSet line c.pleat.cBanks
    let used := (c.cache.filter (·.set = set)).map (·.way)
    let st := tgetD c.plru set 0
    let victim := Config.plruVictim st % 4
    let way := if touch then ((List.range 4).find? fun w => ! used.contains w).getD victim else victim
    let s := match c.cache.find? (fun x => x.set = set && x.way = way) with
      | some x => flushLine s cid x.line
      | none => s
    s.modCore cid fun c =>
      let c := c.cPut { line := line, gen := c.cacheGen, set := set, way := way, data := data, dirty := 0, stamp := c.rin,
                        poison := poisoned, loc := l }
      if touch then { c with plru := tset c.plru set (Config.plruTouch st way) } else c

/-- A hit recorded in the pseudo-LRU state. -/
def Core.cTouch (c : Core) (x : CLine) : Core :=
  { c with plru := tset c.plru x.set (Config.plruTouch (tgetD c.plru x.set 0) x.way) }

/-- Add to a saturating occupancy counter (R132). -/
def sat64 (n : Nat) : Nat := Nat.min n (2 ^ 64 - 1)

/-- The target of the start of a line, given the target of one of its bytes. -/
def lineLoc (l : Loc) (off : Nat) : Loc :=
  match l with
  | .dev pa r => .dev (pa - off) r
  | .host a => .host (a - off)
  | .peer d a => .peer d (a - off)
  | .ext d a => .ext d (a - off)

/-- Lines of a core that other virtual addresses hold of one target, written back and dropped: two addresses of one target are one
location (R277, R281). -/
def flushAliases (s : State) (cid line : Nat) (l : Loc) : State :=
  ((s.core cid).cache.filter fun x => x.line != line && decide (x.loc.key = l.key)).foldl (fun s x => flushLine s cid x.line) s

/-- The core's own dirty bytes of a target's line written back, under whatever address it holds them (R285). -/
def cleanLine (s : State) (cid line : Nat) (l : Loc) : State :=
  let s := flushAliases s cid line l
  match (s.core cid).cFind line with
  | some x => writeBack s cid x
  | none => s

/-- Whether a line of C serves accesses to a target now: it is of the current generation and holds that target (R281, R285). -/
def Core.serves (c : Core) (x : CLine) (l : Loc) : Bool := x.gen = c.cacheGen && x.loc.key = l.key

/-- A line of a target looked up for use (R285): a line that serves it hits; any other dirty line is written back and refilled, a
clean one is a miss. Where only the recoverability of its page has changed (R230), dirty bytes go out under the old translation before the
line takes the new one. -/
def cLookup (s : State) (cid line : Nat) (l : Loc) : State × Option CLine :=
  let s := flushAliases s cid line l
  match (s.core cid).cFind line with
  | none => (s, none)
  | some x =>
    if (s.core cid).serves x l then
      let s := if x.loc = l then s else writeBack s cid x
      let x := if x.loc = l then x else { x with dirty := 0, loc := l }
      (s.modCore cid fun c => (c.cPut x).cTouch x, some x)
    else (flushLine s cid line, none)

/-- One line read through C (R256): a hit returns it; a miss reads the node and fills unless `na`. Answers the bytes and
whether they are poisoned. System targets never go through C (R257). -/
def cRead (s : State) (cid lease line : Nat) (l : Loc) (na : Bool) : State × Value × Bool :=
  match cLookup s cid line l with
  | (s, some x) =>
    (s.modCore cid fun c => { c with occ := { c.occ with chit := sat64 (c.occ.chit + 1) } }, x.data, x.poison)
  | (s, none) =>
    let s := s.modCore cid fun c => { c with occ := { c.occ with cmiss := sat64 (c.occ.cmiss + 1) } }
    let data := bytesValue (nodeRead s lease l 64)
    let p := readBad s lease l
    let s := heard (countRead s lease l 64) cid l
    (if na then s else cFill s cid line l data p true, data, p)

/-- Bytes of a line replaced. -/
def patchLine (v : Value) (off : Nat) (bs : List Byte) : Value :=
  bytesValue ((valueBytes v).take off ++ bs ++ (valueBytes v).drop (off + bs.length))

/-- The dirty mask of bytes [off, off + n). -/
def maskOf (off n : Nat) : BitVec 64 := BitVec.ofNat 64 ((2 ^ n - 1) * 2 ^ off)

/-- Bytes stored into a line of C that is present: it becomes dirty under the core's RIN; dirty bytes of an earlier interval
are written back first (R302); the dirty-line queue takes the line if it was clean, and at 4,096 its oldest is written back
first (R127). -/
def cMerge (s : State) (cid : Nat) (x : CLine) (off : Nat) (bs : List Byte) : State :=
  let c := s.core cid
  let s := if x.dirty ≠ 0 ∧ x.stamp ≠ c.rin then writeBack s cid x else s
  let x := ((s.core cid).cFind x.line).getD x
  let full := decide (4096 ≤ (s.core cid).dirtyQ.length) && x.dirty = 0
  let s := if full then
      match (s.core cid).dirtyQ with
      | o :: _ => match (s.core cid).cFind o with
        | some y => writeBack s cid y
        | none => s
      | [] => s
    else s
  s.modCore cid fun c =>
    let c := c.cPut { x with data := patchLine x.data off bs, dirty := x.dirty ||| maskOf off bs.length, stamp := c.rin,
                             poison := x.poison && bs.length != 64 }
    let q := if x.dirty = 0 then c.dirtyQ ++ [x.line] else c.dirtyQ
    { c with dirtyQ := q, occ := { c.occ with dqhwm := Nat.max c.occ.dqhwm q.length } }

/-- The fill of a partial store's miss (R256): the line read at its node; a store of the whole line allocates without one. -/
def storeFill (s : State) (cid lease line : Nat) (l : Loc) (n : Nat) : State :=
  if n = 64 then cFill s cid line l 0 false true
  else
    let s' := heard (countRead s lease l 64) cid l
    cFill s' cid line l (bytesValue (nodeRead s lease l 64)) (locPoisoned s l) true

/-- Bytes of one line stored by a core at commit (R256, R257): into C, allocating unless `na`; through to the node where C
does not hold the line and does not allocate. -/
def cStore (s : State) (cid lease va : Nat) (l : Loc) (bs : List Byte) (na : Bool) : State :=
  let line := va / 64
  let off := va % 64
  match cLookup s cid line (lineLoc l off) with
  | (s, some x) =>
    let s := s.modCore cid fun c => { c with occ := { c.occ with chit := sat64 (c.occ.chit + 1) } }
    cMerge s cid x off bs
  | (s, none) =>
    let s := s.modCore cid fun c => { c with occ := { c.occ with cmiss := sat64 (c.occ.cmiss + 1) } }
    if na || ! (s.core cid).cAlloc then nodeWrite s l bs (s.core cid).rin
    else
      let s := storeFill s cid lease line (lineLoc l off) bs.length
      match (s.core cid).cFind line with
      | some x => cMerge s cid x off bs
      | none => nodeWrite s l bs (s.core cid).rin

/-- Whether a partial store meets poison at its merge (R257): in C, at its node, or as C reads the line to take it in. -/
def storePoisoned (s : State) (cid lease line : Nat) (l : Loc) (n : Nat) (fills : Bool) : Bool :=
  n != 64 && match (s.core cid).cFind line with
    | some x => if (s.core cid).serves x l then x.poison else locPoisoned s l || fills && injected s lease l
    | none => locPoisoned s l || fills && injected s lease l


/-! ### Owner lists (R107, R108) -/

/-- An entry of an owner list (R108): a lease and its generation, with its read and write permission. -/
structure OwnEnt where
  lease : Nat
  gen : BitVec 8
  r : Bool
  w : Bool
deriving DecidableEq, Repr

/-- The index of a channel or an extent among a lease's permissions. -/
def rightIx (pa : Nat) : Nat := if pa < 2 ^ 42 then pa / 2 ^ 28 else 2048 + (pa - 2 ^ 42) / 2 ^ 29

/-- Whether a lease's channel set or extents hold a physical address. -/
def Lease.holdsPa (L : Lease) (pa : Nat) : Bool :=
  if pa < 2 ^ 42 then L.chans.contains (pa / 2 ^ 28) else L.exts.contains ((pa - 2 ^ 42) / 2 ^ 29)

/-- The owner list by which a physical address is judged (R107, R108): the leases that have its channel, or its extent, at most 8. -/
def ownerList (s : State) (pa : Nat) : List OwnEnt :=
  ((s.leases.filter fun e => e.2.holdsPa pa).map fun e =>
    let rw := tgetD e.2.rights (rightIx pa) (true, true)
    ({ lease := e.1, gen := e.2.gen, r := rw.1, w := rw.2 } : OwnEnt)).take 8

/-- Whether a controller denies a lease's request: no entry of the owner list has its identity and generation with the permission it
needs (R108). -/
def denied (s : State) (lease : Nat) (gen : BitVec 8) (write : Bool) (l : Loc) : Bool :=
  match l with
  | .dev pa _ => ! (ownerList s pa).any fun e => e.lease = lease && e.gen = gen && if write then e.w else e.r
  | _ => false

/-- A denied request counted, in the controller's counter for the lease and in the lease's sum (R108). -/
def noteDenied (s : State) (lease : Nat) (l : Loc) : State :=
  match l with
  | .dev pa _ =>
    { s with denials := tmod s.denials (4096 * ctrlOf pa + lease) 0 (· + 1) }.modLease lease fun L => { L with denied := L.denied + 1 }
  | _ => s

end Sys2Proof.Machine
end

