-- ==== Sys2Proof/Machine/Observe.lean ====
section
/-! DEFINITION. What the device writes about a work: records of a profiling session (R362 to R364), owner meters (R358), the PF
event ring (R376), poison consumed (R326). -/

namespace Sys2Proof.Machine

/-- Bytes at a virtual address cut at line boundaries. -/
def lineCuts : Nat → Nat → List Byte → List (Nat × List Byte)
  | 0, _, _ => []
  | f + 1, va, bs =>
    if bs.isEmpty then []
    else
      let n := 64 - va % 64
      (va, bs.take n) :: lineCuts f (va + n) (bs.drop n)

/-- Bytes stored at a lease's virtual addresses by the device itself, each line at its memory node under interval r; a line
that does not translate is left out. -/
def putVa (s : State) (cid lease va : Nat) (bs : List Byte) (r : Rin) : State :=
  (lineCuts (bs.length + 1) va bs).foldl (fun s p =>
    match translate s cid lease p.1 with
    | .ok l _ => nodeWrite s l p.2 r
    | _ => s) s

/-- Bytes of a number, little-endian. -/
def num (k n : Nat) : List Byte := natBytes k n

/-- A lease's generation. -/
def genOf (s : State) (l : Nat) : BitVec 8 := ((s.lease l).map (·.gen)).getD 0

/-- The lease for which a core's patch acts. -/
def coreLease (s : State) (cid : Nat) : Nat :=
  match (s.core cid).patch with
  | none => 0
  | some pt => ((s.patch pt).map (·.lease)).getD 0

/-- A request of the device itself at a core's GEN port, for a lease (R23). -/
def ownReq (s : State) (lease : Nat) (k : ReqKind) (data : List Byte) : GenReq :=
  { kind := k, pinned := true, task := 0, inst := 0, slot := 0, lsid := 0, ac := .l, gather := false, na := false, elems := [], data := data,
    osc := none, sc := false, lease := lease, gen := genOf s lease, epoch := ((s.lease lease).map (·.epoch)).getD 0 }

/-- A request of the device itself waits for its core's GEN port, at the lowest priority (R23). -/
def pushLate (s : State) (cid lease : Nat) (k : ReqKind) (data : List Byte) : State :=
  let r := ownReq s lease k data
  s.modCore cid fun c => { c with late := c.late ++ [r] }

/-- One record sent to a lease's profiling ring through the core's GEN port (R23, R364): a full ring drops and counts it; the next one
written after a drop follows a record of kind 5 with the count. -/
def profWrite (s : State) (cid lease : Nat) (bs : List Byte) : State :=
  match s.lease lease with
  | none => s
  | some L =>
    match L.prof with
    | none => s
    | some p =>
      let lostRec : List Byte :=
        if p.lost = 0 then []
        else num 1 5 ++ num 7 0 ++ num 8 p.lost ++ num 8 s.time ++ num 2 lease ++ num 6 0
      let all := lostRec ++ bs
      if p.size < p.next + all.length then s.modLease lease fun L => { L with prof := some { p with lost := p.lost + 1 } }
      else
        let s := pushLate s cid lease (.record (p.va + p.next)) all
        s.modLease lease fun L => { L with prof := some { p with next := p.next + all.length, lost := 0 } }

/-- The frame number of a task slot: 8 more for work in contexts 6 and 7 (R337, R350). -/
def frameNo (c : Core) (k : Nat) : Nat := c.frame0 + k

/-- Patch-relative coordinates of a core and its lease, as records carry them. -/
def xy12 (x y : Nat) : Nat := x % 64 + 64 * (y % 64)

/-- A trace record (R363). -/
def traceBytes (kind frame xy : Nat) (r : Rin) (what time lease ctx : Nat) : List Byte :=
  num 1 kind ++ num 1 frame ++ num 2 xy ++ num 4 r.toNat ++ num 8 what ++ num 8 time ++ num 2 lease ++ num 1 ctx ++ num 5 0

/-- A trace record of a task's block, at commit (1) or discard (2), if the block and the task trace (R52, R339, R363). -/
def traceBlock (s : State) (cid k kind : Nat) (inst : Inst) : State :=
  let c := s.core cid
  let t := c.task k
  if inst.hdr1.getLsbD 13 && t.dbg.getLsbD 0 then
    profWrite s cid (coreLease s cid) (traceBytes kind (frameNo c k) (xy12 c.px c.py) c.rin inst.blk s.time
      (coreLease s cid) (c.act.getD 0))
  else s

/-- An entry of the PF event ring (R376): 128 bytes at device address BASE + 128·(TAIL mod SIZE); where the ring is full it
is dropped, and the next entry's bytes 16 to 19 count the drops. -/
def pfEvent (s : State) (kind lease : Nat) (rec : List Byte) : State :=
  let e := s.events
  let n := e.size.toNat
  if e.en && decide (0 < n) && decide ((e.tail - e.head).toNat < n) then
    let bs := num 1 kind ++ num 3 0 ++ num 2 lease ++ num 2 0 ++ num 8 s.time ++ num 4 e.dropped ++ num 44 0 ++ (rec ++ List.replicate 64 0).take 64
    { s with mem := s.mem.write (e.base.toNat + 128 * (e.tail.toNat % n)) bs,
             events := { e with tail := e.tail + 1, dropped := 0 } }
  else if e.en then { s with events := { e with dropped := e.dropped + 1 } }
  else s

/-- Poison consumed by a lease (R326): POISON goes to the coordinator, and READY for that interval is withheld (R309). -/
def poisonUsed (s : State) (r : Rin) : State :=
  let s := toCoordinator s 5 false r
  { s with sl := { s.sl with poisoned := some (match s.sl.poisoned with
      | some q => if rinGt q r then r else q
      | none => r) } }

end Sys2Proof.Machine
end

