-- ==== Sys2Proof/Machine/Ops.lean ====
section
/-! DEFINITION. The shared operations of a firing: what the instruction being granted finds (R45, R172, R173), delivery to
targets (R44, R46), capture (R151), discard (R152), and the one operation by which a cause is raised: delivery to a task's
handler (R340) or the stop of its patch (R335, R336). The return from a handler is `exit.j` and a `csrw` of INH
(Machine/Control.lean, Machine/System.lean). -/

namespace Sys2Proof.Machine

/-! ### The firing -/

/-- What a granted firing stands on: the core record, the task slot (none in a pinned context), the slot, and the core, task,
instance, slot state and patch found there. -/
structure Env where
  cid : Nat
  k : Option Nat
  slot : Nat
  c : Core
  t : Task
  inst : Inst
  ss : SlotSt
  pt : Nat
  p : Patch
deriving DecidableEq, Repr

/-- The operand values of a firing. -/
structure Vals where
  a : Value := 0
  b : Value := 0
  c : Value := 0
deriving DecidableEq, Repr

/-- Whether a patch's instances go on: until its stop is complete they run to their commit or discard (R335). -/
def PatchState.active : PatchState → Bool
  | .running | .stopping => true
  | _ => false

/-- The firing under the cursor, if its core, patch, task and instance are there. -/
def envOf (s : State) : Option Env :=
  match s.cur with
  | none => none
  | some g =>
    let c := s.core g.cid
    match c.patch with
    | none => none
    | some pt =>
      match s.patch pt with
      | none => none
      | some p =>
        let mk := fun (t : Task) (inst : Inst) =>
          if inst.id = g.inst ∧ p.st.active ∧ g.slot < inst.slots.length then
            some { cid := g.cid, k := g.task, slot := g.slot, c := c, t := t, inst := inst,
                   ss := inst.slots.getD g.slot {}, pt := pt, p := p : Env }
          else none
        match g.task with
        | some k => match (c.task k).inst with
          | some i => mk (c.task k) i
          | none => none
        | none => match c.pinst.find? (·.id = g.inst) with
          | some i => mk {} i
          | none => none

/-- Whether the firing is of a pinned block. -/
def Env.pinned (e : Env) : Bool := e.k.isNone
/-- The task slot. -/
def Env.slotK (e : Env) : Nat := e.k.getD 0
/-- The lease for which the patch acts. -/
def Env.lease (e : Env) : Nat := e.p.lease

/-! ### Instances -/

/-- The value of an operand that has been delivered. -/
def Opnd.value : Opnd → Value
  | .val v => v
  | .tok _ v => v
  | .null => 0

/-- What a slot finds: it waits, its predicate does not match, it is null, or it may fire with its operands. -/
inductive Verdict where
  | wait | dead | null | go (v : Vals)
deriving DecidableEq, Repr

/-- The predicate's part: none while it is missing (R45, R173). -/
def predOf (pm : Pm) (p : Option Opnd) : Option (Option Bool) :=
  match pm with
  | .always => some (some true)
  | _ =>
    match p with
    | none => none
    | some .null => some none
    | some (.val v) => some (some (predTrue v == decide (pm = .onTrue)))
    | some (.tok _ v) => some (some (predTrue v == decide (pm = .onTrue)))

/-- The rules of R45 and R173 for a slot that takes the operands `needs`. -/
def verdict (pm : Pm) (needs : Bool × Bool × Bool) (ss : SlotSt) : Verdict :=
  if ss.ph ≠ .idle then .wait
  else match predOf pm ss.p with
    | none => .wait
    | some none => .null
    | some (some false) => .dead
    | some (some true) =>
      let ops := (if needs.1 then [ss.a] else []) ++ (if needs.2.1 then [ss.b] else []) ++ (if needs.2.2 then [ss.c] else [])
      if ops.contains (some Opnd.null) then .null
      else if ops.contains none then .wait
      else .go { a := (ss.a.map Opnd.value).getD 0, b := (ss.b.map Opnd.value).getD 0, c := (ss.c.map Opnd.value).getD 0 }

/-- The operands an instruction takes in the mode it runs in. -/
def needsOf (pinned : Bool) (i : Instr) : Bool × Bool × Bool := if pinned then takesPinned i else takes i

/-- The instruction in a slot of an instance, if its word holds one. -/
def Inst.at (x : Inst) (j : Nat) : Option Instr :=
  match decode (x.code.getD j 0) with
  | .ok i => some i
  | .error _ => none

/-- Change one slot. -/
def Inst.modSlot (x : Inst) (j : Nat) (f : SlotSt → SlotSt) : Inst := { x with slots := lmod x.slots j f }

/-- Put an operand where nothing was delivered yet; a second delivery is remembered (R46). -/
def putOpnd (old : Option Opnd) (o : Opnd) : Option Opnd := some (old.getD o)

/-- A delivery to a target (R44). -/
def Inst.deliver (x : Inst) (from' : Nat) (t : Target) (o : Opnd) : Inst :=
  match t with
  | .none => x
  | .opA n => { x.modSlot n.toNat (fun s => { s with a := putOpnd s.a o }) with
      twice := x.twice || ((x.slots.getD n.toNat {}).a).isSome }
  | .opB n => { x.modSlot n.toNat (fun s => { s with b := putOpnd s.b o }) with
      twice := x.twice || ((x.slots.getD n.toNat {}).b).isSome }
  | .opC n => { x.modSlot n.toNat (fun s => { s with c := putOpnd s.c o }) with
      twice := x.twice || ((x.slots.getD n.toNat {}).c).isSome }
  | .pred n => { x.modSlot n.toNat (fun s => { s with p := putOpnd s.p o }) with
      twice := x.twice || ((x.slots.getD n.toNat {}).p).isSome }
  | .write n => { x with writes := lmod x.writes n.toNat (fun w => putOpnd w o),
                         twice := x.twice || (x.writes.getD n.toNat none).isSome }
  | .out n =>
    let f : Flit := match o with
      | .val v => { kind := 0, value := v, rin := 0 }
      | .tok k v => { kind := k, value := v, rin := 0 }
      | .null => { kind := 12, value := 0, rin := 0 }
    { x with outs := x.outs ++ [(from', n.toNat, f)] }

/-- A slot made null delivers a null to each of its targets (R173). -/
def Inst.nullOut (x : Inst) (j : Nat) (h : Head) : Inst :=
  ((x.modSlot j fun s => { s with ph := .nulled }).deliver j h.t0 .null).deliver j h.t1 .null

/-- Settle one slot: a mismatch leaves it dead, a null passes on (R45, R173). -/
def Inst.settle1 (pinned : Bool) (x : Inst) (j : Nat) : Inst :=
  match x.at j with
  | none => x
  | some i =>
    match headOf i with
    | none => x
    | some h =>
      match verdict h.pm (needsOf pinned i) (x.slots.getD j {}) with
      | .dead => x.modSlot j fun s => { s with ph := .dead }
      | .null => x.nullOut j h
      | _ => x

/-- Settle every slot, in ascending order: targets point forward (R44), so one pass is enough. -/
def Inst.settle (pinned : Bool) (x : Inst) : Inst := (List.range x.slots.length).foldl (Inst.settle1 pinned) x

/-- Every result delivered to both targets as the slot fires. -/
def Inst.fire (x : Inst) (j : Nat) (h : Head) (o0 o1 : Option Opnd) : Inst :=
  let x := x.modSlot j fun s => { s with ph := .fired }
  let x := match o0 with
    | some o => x.deliver j h.t0 o
    | none => x
  match o1 with
  | some o => x.deliver j h.t1 o
  | none => x

/-! ### Writing an instance back -/

/-- Replace the instance of a firing. -/
def putInst (s : State) (cid : Nat) (k : Option Nat) (x : Inst) : State :=
  s.modCore cid fun c =>
    match k with
    | some k => c.modTask k fun t => { t with inst := some x }
    | none => { c with pinst := c.pinst.map fun y => if y.id = x.id then x else y }

/-- A firing happened in the patch (R168). -/
def markFiring (s : State) (pt : Nat) : State := s.modPatch pt fun p => { p with idle := 0 }

/-! ### Which slots may still fire (R55, R74, R158) -/

/-- Whether a target delivers to an input of a slot: 0 to 2 for A, B and C, 3 for the predicate. -/
def feeds (t : Target) (j inp : Nat) : Bool :=
  match t with
  | .opA n => inp = 0 && n.toNat = j
  | .opB n => inp = 1 && n.toNat = j
  | .opC n => inp = 2 && n.toNat = j
  | .pred n => inp = 3 && n.toNat = j
  | _ => false

/-- Whether slot j may still fire, given which lower slots may: each missing input has a producer that may. -/
def Inst.mayFire1 (pinned : Bool) (x : Inst) (may : List Bool) (j : Nat) : Bool :=
  let ss := x.slots.getD j {}
  match ss.ph with
  | .pending => true
  | .fired | .nulled | .dead | .failed => false
  | .idle =>
    match x.at j with
    | none => false
    | some i =>
      match headOf i with
      | none => false
      | some h =>
        let prod := fun inp => (List.range j).any fun p => may.getD p false && match (x.at p).bind headOf with
          | some hp => feeds hp.t0 j inp || feeds hp.t1 j inp
          | none => false
        let n := needsOf pinned i
        (ss.a.isSome || ! n.1 || prod 0) && (ss.b.isSome || ! n.2.1 || prod 1) && (ss.c.isSome || ! n.2.2 || prod 2) &&
          (decide (h.pm = .always) || ss.p.isSome || prod 3)

/-- Which slots may still fire, lowest first. -/
def Inst.mayFire (pinned : Bool) (x : Inst) : List Bool :=
  (List.range x.slots.length).foldl (fun may j => may ++ [x.mayFire1 pinned may j]) []

/-! ### Emission of a pinned block (R155, R158) -/

/-- Whether a pinned instance has ended its passage through the stages: no slot of it may still fire. -/
def Inst.passed (x : Inst) : Bool := ! (x.mayFire true).any (fun b => b)

/-- What a pinned instance emits: its kind 110 deliveries in slot order, then its write entries (R54, R155); an entry to
which nothing was delivered emits nothing. -/
def emissions (nw : Nat → Nat) (x : Inst) : List (Nat × Flit) :=
  let outs := ((List.range x.slots.length).flatMap fun j => x.outs.filter (·.1 = j)).map (·.2)
  let ws := (List.range x.writes.length).filterMap fun j =>
    match x.writes.getD j none with
    | some (.val v) => some (nw j, ({ kind := 0, value := v, rin := 0 } : Flit))
    | some (.tok k v) => some (nw j, { kind := k, value := v, rin := 0 })
    | some .null => some (nw j, { kind := 12, value := 0, rin := 0 })
    | none => none
  outs ++ ws

/-- A flit enters an out-channel, stamped with the core's RIN (R302); behind any spilled flit where the channel spills
(R169). -/
def Core.emit (c : Core) (j : Nat) (f : Flit) : Core :=
  c.modOut j fun o =>
    let f := { f with rin := c.rin }
    match o.spill with
    | some sp => { o with spill := some { sp with wait := sp.wait ++ [f] } }
    | none => { o with buf := o.buf ++ [f] }

/-- Write entry j's out-channel. -/
def Core.pinOut (c : Core) (j : Nat) : Nat := natBits (c.pinWrite j) 0 4

/-- The reservations that a pinned instance made in out-channels at its start are given back as it emits. -/
def Core.unreserve (c : Core) (js : List Nat) : Core :=
  js.foldl (fun c j => c.modOut j fun o => { o with resv := o.resv - 1 }) c

/-- Whether a flit fits in each of these out-channels' buffers, reservations aside: a RELATCH may have taken a place reserved by an
instance behind it (R232). -/
def Core.fits (c : Core) (js : List Nat) : Bool :=
  js.eraseDups.all fun j => (c.outCh j).spill.isSome || decide ((c.outCh j).buf.length + js.count j ≤ c.outDepth j)

/-- Whether a slot of an instance failed: such an instance never emits, nor what started behind it (assumption 109). -/
def Inst.failed (x : Inst) : Bool := x.slots.any fun q => decide (q.ph = .failed)

/-- Passed instances at the head of the queue emit and leave, in start order (R158). -/
def drainPinned : Nat → Core → Core
  | 0, c => c
  | n + 1, c =>
    match c.pinst with
    | [] => c
    | x :: r =>
      if x.passed && ! x.failed && c.fits x.resv then
        let c := Core.unreserve { c with pinst := r } x.resv
        drainPinned n ((emissions c.pinOut x).foldl (fun c e => c.emit e.1 e.2) c)
      else c

/-- The instance changed, its slots settled; a pinned core then emits what has passed. -/
def Env.update (e : Env) (f : Inst → Inst) (s : State) : State :=
  let cur := match e.k with
    | some k => ((s.core e.cid).task k).inst
    | none => (s.core e.cid).pinst.find? (·.id = e.inst.id)
  match cur with
  | none => s
  | some x =>
    let s := putInst s e.cid e.k ((f x).settle e.pinned)
    let s := markFiring s e.pt
    if e.pinned then s.modCore e.cid fun c => drainPinned c.pinst.length c else s

/-- Fire with a result: the value goes to both targets. -/
def Env.result (e : Env) (h : Head) (v : Value) (s : State) : State :=
  e.update (fun x => x.fire e.slot h (some (.val v)) (some (.val v))) s

/-- Fire with two results: the first to T0, the second to T1 (R192, R212). -/
def Env.result2 (e : Env) (h : Head) (v w : Value) (s : State) : State :=
  e.update (fun x => x.fire e.slot h (some (.val v)) (some (.val w))) s

/-- Fire with no result. -/
def Env.done (e : Env) (s : State) : State :=
  e.update (fun x => x.modSlot e.slot fun q => { q with ph := .fired }) s

/-- Fire capturing an effect for commit (R151). A null operand never reaches here. -/
def Env.capture (e : Env) (h : Head) (lsid : Option Nat) (eff : Effect) (r : Option Value) (s : State) : State :=
  e.update (fun x =>
    { x.fire e.slot h (r.map .val) (r.map .val) with
      caps := x.caps ++ [{ slot := e.slot, lsid := lsid, eff := eff, t0 := h.t0, t1 := h.t1 }] }) s

/-- An acknowledgement: zext(0, 64) (R250). -/
def ack : Value := 0

/-! ### Store groups (R49, R55) -/

/-- The LSID of a memory-format instruction (R49); `nulls` only names one. -/
def lsidOf : Instr → Option Nat
  | .lds _ _ m | .sts _ _ m | .ldt _ _ m | .stt _ _ m | .ldn _ _ m | .stn _ _ m | .stx _ _ m | .stxIrr _ _ m => some m.lsid.toNat
  | .ldg _ _ _ m | .stg _ _ _ m | .ldgv _ _ _ m | .stgv _ _ _ m | .prf _ _ m => some m.lsid.toNat
  | .atms _ _ _ m | .atmg _ _ _ m | .atmn _ _ _ m => some m.lsid.toNat
  | .cctlWb _ m | .cctlInv _ m | .cctlWbinv _ m | .cctlWball _ m | .cctlInvall _ m | .cpy _ m | .qpost _ m => some m.lsid.toNat
  | _ => none

/-- Store-class instructions (R49). -/
def storeClass : Instr → Bool
  | .sts _ _ _ | .stt _ _ _ | .stg _ _ _ _ | .stgv _ _ _ _ | .stn _ _ _ | .atms _ _ _ _ | .atmg _ _ _ _ | .atmn _ _ _ _
  | .stx _ _ _ | .stxIrr _ _ _ | .cpy _ _ | .qpost _ _ => true
  | _ => false

/-- Commit-acting instructions (R55). -/
def commitActing : Instr → Bool
  | .send _ _ _ | .markt _ _ | .constw _ _ _ _ _ | .nulls _ _ | .cctlWb _ _ | .cctlInv _ _ | .cctlWbinv _ _ | .cctlWball _ _
  | .cctlInvall _ _ => true
  | _ => false

/-- The slots of the store group of an LSID. -/
def Inst.groupSlots (x : Inst) (l : Nat) : List Nat :=
  (List.range x.slots.length).filter fun j => match x.at j with
    | some i => storeClass i && lsidOf i = some l
    | none => false

/-- The slots that hold a `nulls` of an LSID. -/
def Inst.nullsSlots (x : Inst) (l : Nat) : List Nat :=
  (List.range x.slots.length).filter fun j => match x.at j with
    | some (.nulls _ k) => k.toNat = l
    | _ => false

/-- LSIDs of the block's store groups, ascending. -/
def Inst.groups (x : Inst) : List Nat := (List.range 32).filter fun l => ! (x.groupSlots l).isEmpty

/-- Whether a slot has resolved: fired, null, or its predicate did not match. -/
def Inst.resolvedSlot (x : Inst) (j : Nat) : Bool :=
  match (x.slots.getD j {}).ph with
  | .fired | .nulled | .dead => true
  | _ => false

/-- Whether a slot is null or dead. -/
def Inst.quietSlot (x : Inst) (j : Nat) : Bool :=
  match (x.slots.getD j {}).ph with
  | .nulled | .dead => true
  | _ => false

/-- Whether a store group is resolved (R55). -/
def Inst.groupDone (x : Inst) (l : Nat) : Bool :=
  let js := x.groupSlots l
  x.nulls.contains l || js.any (fun j => (x.slots.getD j {}).ph = .fired) || js.all x.quietSlot

/-- Whether a load of an LSID must still wait: a lower store-class instruction, or a `nulls` of its LSID, is unresolved
(R49). -/
def Inst.loadBlocked (x : Inst) (lsid : Nat) : Bool :=
  (List.range lsid).any fun l =>
    (x.groupSlots l).any (fun j => ! x.resolvedSlot j) && ! x.groupDone l || (x.nullsSlots l).any fun j => ! x.resolvedSlot j

/-- The slots that a slot's results reach through the dataflow, itself among them; targets point forward (R44). -/
def Inst.reached (x : Inst) (j : Nat) : List Bool :=
  (List.range x.slots.length).foldl (fun r n => r ++ [n = j || (List.range n).any fun p => r.getD p false &&
    match (x.at p).bind headOf with
    | some h => [0, 1, 2, 3].any fun inp => feeds h.t0 n inp || feeds h.t1 n inp
    | none => false]) []

/-- The space a load reads (R225): a scratch, a tile store, global memory. -/
def loadSpace : Instr → Option Nat
  | .lds _ _ _ | .ldn _ _ _ => some 0
  | .ldt _ _ _ => some 1
  | .ldg _ _ _ _ | .ldgv _ _ _ _ => some 2
  | _ => none

/-- Slots that hold an idle load or `cctl` that may still fire. -/
def Inst.dueSlots (x : Inst) (p : Instr → Bool) : List Nat :=
  let may := x.mayFire false
  (List.range x.slots.length).filter fun j => may.getD j false && (x.slots.getD j {}).ph = .idle &&
    match x.at j with
    | some i => p i
    | none => false

/-- Whether a load must wait for a lower load of its space, which may be of its location: loads of one location perform in LSID order
(R49). One that depends on a load no lower than this one is not waited for. -/
def Inst.loadBehind (x : Inst) (i : Instr) (lsid : Nat) : Bool :=
  let due := x.dueSlots fun q => (loadSpace q).isSome
  let lsidAt := fun j => ((x.at j).bind lsidOf).getD 0
  due.any fun p => decide (lsidAt p < lsid) && ((x.at p).bind loadSpace == loadSpace i) &&
    ! due.any fun q => decide (lsid ≤ lsidAt q) && (x.reached q).getD p false

/-- Whether an instruction is a `cctl`. -/
def isCctl : Instr → Bool
  | .cctlWb _ _ | .cctlInv _ _ | .cctlWbinv _ _ | .cctlWball _ _ | .cctlInvall _ _ => true
  | _ => false

/-- Whether a global load must wait for a lower `cctl`, which may name its line (R265). -/
def Inst.cctlBehind (x : Inst) (i : Instr) (lsid : Nat) : Bool :=
  loadSpace i = some 2 && (x.dueSlots isCctl).any fun p => decide (((x.at p).bind lsidOf).getD 0 < lsid)

/-- Whether a memory-format instruction must wait for every lower LSID because the block's ORD flag is 1 (R49, R51). -/
def Inst.ordBlocked (x : Inst) (lsid : Nat) : Bool :=
  x.hdr0.getLsbD 18 && (List.range x.slots.length).any fun j => match x.at j with
    | some i => ! storeClass i && ! commitActing i && match lsidOf i with
      | some l => decide (l < lsid) && ! x.resolvedSlot j
      | none => false
    | none => false

/-- Whether an instruction is a load: it performs at fire, ordered behind lower stores of its block (R49). -/
def isLoad (i : Instr) : Bool := (loadSpace i).isSome

/-- Whether the LSID rules of R49 and R265 hold an instruction back in a fired block. -/
def Inst.lsidBlocked (x : Inst) (i : Instr) : Bool :=
  match lsidOf i with
  | none => false
  | some l => (isLoad i && (x.loadBlocked l || x.loadBehind i l || x.cctlBehind i l)) ||
    (! storeClass i && ! commitActing i && x.ordBlocked l)

/-! ### Stochastic draws (R74) -/

/-- How many draws a stochastic conversion makes, if the instruction is one under a task's TCTL (R73, R74, R209, R211,
R212). -/
def drawsOf (sr : Bool) : Instr → Option Nat
  | .fcvt _ e c =>
    let narrow := narrowing e.f (fmtOf c.fmt)
    if c.rnd = 5 ∨ (c.rnd = 4 ∧ sr ∧ narrow) then
      some (if e.scalar then 1 else Nat.min (fmtCount e.f) (fmtCount (fmtOf c.fmt)))
    else none
  | .pack _ e c => if c.rnd = 5 ∨ (c.rnd = 4 ∧ sr) then some (2 * fmtCount e.f) else none
  | .quant _ _ c => if c.rnd = 5 ∨ (c.rnd = 4 ∧ sr) then some 32 else none
  | _ => none

/-- The slots that wait for a slot, through the dataflow or as loads behind lower stores that do (R49), itself among them. -/
def Inst.heldUp (x : Inst) (j : Nat) : List Nat :=
  (List.range x.slots.length).foldl (fun (r : List Nat) _ =>
    let down := (r.flatMap fun q => (List.range x.slots.length).filter fun n => (x.reached q).getD n false).eraseDups
    let lsids := down.filterMap fun q => if (x.at q).any storeClass && ! x.resolvedSlot q then (x.at q).bind lsidOf else none
    down ++ (List.range x.slots.length).filter fun n => ! down.contains n && (x.at n).any fun i =>
      isLoad i && lsids.any fun l => decide (l < (lsidOf i).getD 0)) [j]

/-- Whether a stochastic conversion must wait for a lower one of its instance, whose draws come first (R74); one that itself waits for
this one is counted and not waited for (assumption 98). -/
def Inst.drawBlocked (x : Inst) (sr : Bool) (i : Instr) (j : Nat) : Bool :=
  (drawsOf sr i).isSome && (List.range j).any fun p => (x.mayFire false).getD p false && (match x.at p with
    | some q => (drawsOf sr q).isSome
    | none => false) && ! (x.heldUp j).contains p

/-- Draws of the lower slots of the instance: those used, and those of a lower conversion that may still fire (R74). -/
def Inst.drawBase (x : Inst) (sr : Bool) (j : Nat) : Nat :=
  ((List.range j).map fun p =>
    if (x.mayFire false).getD p false then (((x.at p).bind (drawsOf sr)).getD 0) else (x.slots.getD p {}).draws).foldl (· + ·) 0

/-! ### Issue -/

/-- The pool role that a pinned pool access names (R255). -/
def poolSpace : Instr → Option PoolRole
  | .lds _ _ _ | .sts _ _ _ => some .s
  | .ldt _ _ _ | .stt _ _ _ => some .t
  | _ => none

/-- Whether an instance has an access to a pool role still to come, one below an LSID where one is given, that does not depend on
slot j. -/
def Inst.poolDue (x : Inst) (r : PoolRole) (below : Option (Nat × Nat)) : Bool :=
  let may := x.mayFire true
  (List.range x.slots.length).any fun p => may.getD p false && match x.at p with
    | some i => (poolSpace i == some r) && match below with
      | some (l, j) => decide ((lsidOf i).getD 0 < l) && ! (x.reached j).getD p false
      | none => true
    | none => false

/-- Instances pass the stages in order: a slot waits for the same slot of every instance started before, until that has fired or asked the
GEN port, and for ever where it failed (R158, R258; assumption 109). A pool access waits for those of earlier instances, and of its own with
lower LSIDs, to its role, since they may be to its location (R255). -/
def Env.behind (e : Env) (i : Instr) : Bool :=
  let before := e.c.pinst.takeWhile (·.id != e.inst.id)
  e.pinned && (before.any (fun x => (x.slots.getD e.slot {}).ph = .failed ||
      (x.mayFire true).getD e.slot false && (x.slots.getD e.slot {}).ph = .idle) ||
    match poolSpace i with
    | some r => before.any (·.poolDue r none) || e.inst.poolDue r (some ((lsidOf i).getD 0, e.slot))
    | none => false)

/-- One granted instruction: what its slot finds decides what happens (R45, R173); a firing that the LSID rules, the draws or
a resource hold back waits. `body` is the instruction's own effect. -/
def issue (i : Instr) (s : State) (body : Head → Env → Vals → State → State) : Host.Outcome State Fault Refusal :=
  .next (match envOf s, headOf i with
    | some e, some h =>
      match verdict h.pm (needsOf e.pinned i) e.ss with
      | .wait => s
      | .dead => e.update (fun x => x.modSlot e.slot fun q => { q with ph := .dead }) s
      | .null => e.update (fun x => x.nullOut e.slot h) s
      | .go v =>
        if e.behind i || (e.k.isSome && (e.inst.lsidBlocked i || e.inst.drawBlocked (e.t.tctl.getLsbD 2) i e.slot)) then s
        else body h e v s
    | _, _ => s)

/-! ### Discard (R152, R190) -/

/-- Take one off a reservation table. -/
def tdec (t : Table Nat) (k : Nat) : Table Nat := tset t k (tgetD t k 0 - 1)

/-- What one captured effect reserved is released (R137, R190 to R199, R266, R273, R345). -/
def releaseCap (cid k : Nat) (s : State) (q : Capture) : State :=
  match q.eff with
  | .send j _ _ => s.modCore cid fun c => c.modOut j fun o => { o with resv := o.resv - 1 }
  | .markt m => s.modCore cid fun c =>
      c.unreserve ((List.range 16).filter fun j => m.getLsbD j)
  | .bar => s.modCore cid fun c => c.unreserve ((List.range 16).filter fun j =>
      c.outBound j && (routeKind (c.route j) = 1 || routeKind (c.route j) = 4))
  | .spawn tc sl _ _ _ _ => s.modCore tc fun c => c.modTask sl fun t => { t with resv := none }
  | .bind j _ => s.modCore cid fun c => c.modIn j fun ch => { ch with resv := none }
  | .swm _ => s.modCore cid fun c => { c with pleat := { c.pleat with holds := terase c.pleat.holds k } }
  | .pleat _ => s.modCore cid fun c =>
      if c.pleat.phase = 1 then { c with pleat := { c.pleat with phase := 0, owner := none } } else c
  | .cpy p _ =>
      let q := natBits p.toNat 26 5
      let t := natBits p.toNat 17 6
      (s.modCluster (clusterOf cid) fun cl => { cl with resv := tdec cl.resv q }).modCore cid fun c =>
        c.modTag t fun g => { g with resv := g.resv - 1 }
  | .qpost q _ _ => s.modQueue q fun w => { w with rresv := w.rresv - 1 }
  | .notify _ =>
      match (s.core cid).patch.bind s.patch with
      | some p => s.modQueue p.queue fun w => { w with cresv := w.cresv - 1 }
      | none => s
  | .marm _ _ => s.modCore cid fun c => { c with mangle := { c.mangle with resv := c.mangle.resv - 1 } }
  | _ => s

/-- A task's block instance is discarded: nothing it captured performs, its reservations are released, replies it waits for
are forgotten (R152); a traced block writes a record (R363). -/
def discard (s : State) (cid k : Nat) : State :=
  match ((s.core cid).task k).inst with
  | none => s
  | some x =>
    let s := x.caps.foldl (releaseCap cid k) s
    let s := traceBlock s cid k 2 x
    (delist s fun w => w.core = some (cid, k)).modCore cid fun c =>
      { c.modTask k (fun t => { t with inst := none, spawns := t.spawns.filter (·.1 != x.id) }) with
        gen := c.gen.filter fun r => r.pinned || r.task != k || r.inst != x.id }

/-! ### Causes (R335 to R340) -/

/-- A cause to be raised, with what the record says of it (R337). -/
structure Cause where
  cause : BitVec 8
  sub : BitVec 8 := 0
  slot : Option Nat := none
  lsid : Option Nat := none
  lane : Option Nat := none
  addr : BitVec 64 := 0
  chan : Option (Bool × Nat) := none
  atDecode : Bool := false
  atCommit : Bool := false
  async : Bool := false
  word : Nat := 0
deriving DecidableEq, Repr

/-- Classes of causes (R336). -/
inductive CauseClass where
  | h | s | b | l
deriving DecidableEq, Repr

/-- The class of a cause raised against a task (R336). -/
def classOf (cause sub : BitVec 8) : CauseClass :=
  if cause = 0x0B ∨ cause = 0x12 ∨ (cause = 0x0E ∧ sub = 2) then .b
  else if cause = 0x13 ∨ cause = 0x14 then .s
  else if cause = 0x15 then .l
  else .h

/-- FLAGS of a fault record (R337), MORE aside. -/
def causeFlags (pinned : Bool) (x : Cause) : BitVec 8 :=
  BitVec.ofNat 8 (pinned.toNat + 2 * x.atDecode.toNat + 4 * x.atCommit.toNat + 8 * x.async.toNat)

/-- What a fault record will say (R337). -/
def faultInfo (s : State) (cid : Nat) (k : Option Nat) (blk arm : Nat) (x : Cause) : FaultInfo :=
  let c := s.core cid
  { cause := x.cause, sub := x.sub, flags := causeFlags (k.isNone && c.isPinned) x, slot := x.slot,
    task := (match k with
      | some k => k + 8 * frameNo c k
      | none => 0),
    ctx := c.act.getD 0, arm := arm,
    stage := (if k.isNone && c.isPinned then (x.slot.map (· / 2)).getD c.stage else c.stage), lsid := x.lsid, lane := x.lane,
    blk := (if k.isSome then blk else 0), addr := x.addr, px := c.px, py := c.py, chan := x.chan, word := x.word,
    rin := c.rin, time := s.time }

/-- A patch begins to stop for a fault (R335); the first fault is described and others counted, and one of class B takes
precedence (R338). -/
def stopPatch (s : State) (pt : Nat) (f : FaultInfo) : State :=
  s.modPatch pt fun p =>
    match p.fault with
    | none => { p with fault := some f, st := if p.st = .running then .stopping else p.st }
    | some g =>
      let isB := fun (q : FaultInfo) => classOf q.cause q.sub = .b
      { p with extra := Nat.min (p.extra + 1) (2 ^ 32 - 1),
               fault := some (if isB f && ! isB g then { f with flags := f.flags ||| 0x10 } else { g with flags := g.flags ||| 0x10 }) }

/-- Poison that an injected read brought and that stopped its reader there (R417). -/
def noteInjected (s : State) (cid : Nat) (x : Cause) : State :=
  let l := coreLease s cid
  match translate s cid l x.addr.toNat with
  | .ok t _ => if x.cause = 0x0B && injected s l t then noteRead s l t else s
  | _ => s

/-- A TENANT_DENIED that a controller answered is counted there (R108); a copy walk's has been already. -/
def noteDenial (s : State) (cid : Nat) (x : Cause) : State :=
  if x.cause = 0x0A ∧ x.sub = 1 ∧ ! x.async then
    match translate s cid (coreLease s cid) x.addr.toNat with
    | .ok l _ => noteDenied s (coreLease s cid) l
    | _ => s
  else s

/-- A cause raised against a core: its patch stops (R336). Class B is poison consumed (R326). -/
def raiseCore (s : State) (cid : Nat) (k : Option Nat) (blk arm : Nat) (x : Cause) : State :=
  match (s.core cid).patch with
  | none => s
  | some pt =>
    let s := noteDenial s cid x
    let s := if classOf x.cause x.sub = .b then poisonUsed (noteInjected s cid x) (s.core cid).rin else s
    stopPatch s pt (faultInfo s cid k blk arm x)

/-- Whether a lease's debug enable is set (R341). -/
def debugOn (s : State) (l : Nat) : Bool := ((s.lease l).map (·.debug)).getD false

/-- Whether a task's handler takes a cause (R340, R341). -/
def handled (s : State) (cid k : Nat) (x : Cause) : Bool :=
  let t := (s.core cid).task k
  (classOf x.cause x.sub = .h) && t.tmask.getLsbD x.cause.toNat && (t.tvec != 0) && ! t.tcause.getLsbD 16 &&
    ! (x.cause = 0x0F && debugOn s (coreLease s cid))

/-- TINFO (R339). -/
def tinfoOf (x : Cause) : BitVec 64 :=
  BitVec.ofNat 64 ((x.slot.getD 0) % 32 * 2 ^ 20 + (x.lsid.getD 0) % 32 * 2 ^ 15 + x.lsid.isSome.toNat * 2 ^ 14 +
    (x.lane.getD 0) % 16 * 2 ^ 10 + x.lane.isSome.toNat * 2 ^ 9 + ((x.chan.map (·.2)).getD 0) % 16 * 2 ^ 5 + x.chan.isSome.toNat * 16)

/-- Delivery to the handler (R340): TCAUSE, TBLK, TADDR and TINFO written, INH set, the next block is at TVEC. -/
def deliverCause (t : Task) (blk : Nat) (x : Cause) : Task :=
  { t with tcause := BitVec.ofNat 64 (2 ^ 16 + 256 * x.sub.toNat + x.cause.toNat), tblk := BitVec.ofNat 64 (blk % 2 ^ 48),
           taddr := x.addr, tinfo := tinfoOf x, pc := t.tvec.setWidth 48 }

/-- Taking an exception. A cause raised against a task whose block starts at `blk`: the instance is discarded (R152), then
the handler takes it (R340), or the patch stops (R335). -/
def raiseTask (s : State) (cid k blk : Nat) (x : Cause) : State :=
  let s := discard s cid k
  if handled s cid k x then (noteDenial s cid x).modCore cid fun c => c.modTask k fun t => deliverCause t blk x
  else raiseCore s cid (some k) blk 0 x

/-- A slot of a pinned instance that will have no result, since it raised a cause or lost its reply behind one (R171, R233). -/
def Core.failSlot (c : Core) (inst slot : Nat) : Core :=
  { c with pinst := c.pinst.map fun y => if y.id = inst then y.modSlot slot fun q => { q with ph := .failed } else y }

/-- A cause raised by the firing instruction. -/
def Env.raise (e : Env) (x : Cause) (s : State) : State :=
  let x := { x with slot := some (x.slot.getD e.slot) }
  match e.k with
  | some k => raiseTask s e.cid k e.inst.blk x
  | none => (raiseCore s e.cid none 0 e.inst.arm x).modCore e.cid fun c => c.failSlot e.inst.id e.slot

/-- MALFORMED_BLOCK at fire, SUB 1 (R336). -/
def malformed : Cause := { cause := 0x02, sub := 1 }

end Sys2Proof.Machine
end

