-- ==== Sys2Proof/Machine/Block.lean ====
section
/-! DEFINITION. Decoding a whole block (R49 to R56, R61, R62): what a task fetches, and the arms of a pinned block. -/

namespace Sys2Proof.Machine

/-- A block refused at decode: the cause and the slot it names, if any (R61, R62). -/
structure BlockErr where
  cause : BitVec 8
  slot : Option Nat := none
deriving DecidableEq, Repr

/-- MALFORMED_BLOCK at decode. -/
def badBlock (slot : Option Nat) : BlockErr := { cause := 0x02, slot := slot }

/-! ### Headers and entries (R50 to R54) -/

/-- NI (R51). -/
def hdrNi (w : IWord) : Nat := natBits w.toNat 0 5 + 1
/-- NR. -/
def hdrNr (w : IWord) : Nat := natBits w.toNat 5 6
/-- NW. -/
def hdrNw (w : IWord) : Nat := natBits w.toNat 11 6
/-- SCNT. -/
def hdrScnt (w : IWord) : Nat := natBits w.toNat 32 6
/-- GMAX (R52). -/
def hdrGmax (w : IWord) : Nat := natBits w.toNat 0 7
/-- GUSE. -/
def hdrGuse (w : IWord) : Bool := w.getLsbD 7

/-- Header word 0 of a fired block (R51). -/
def hdr0Ok (w : IWord) : Bool :=
  natBits w.toNat 38 26 = 0 && decide (hdrScnt w ≤ 32) && natBits w.toNat 19 13 = 0 && ! w.getLsbD 17 &&
    decide (hdrNw w ≤ 32) && decide (hdrNr w ≤ 40)

/-- Header word 1 of a fired block (R52). -/
def hdr1Ok (w : IWord) : Bool := natBits w.toNat 14 50 = 0 && natBits w.toNat 8 5 = 0 && (hdrGuse w || hdrGmax w = 0)

/-- Words of read entries, of write entries, and of the whole block (R50). -/
def readWords (w : IWord) : Nat := (hdrNr w + 3) / 4
/-- Words of write entries. -/
def writeWords (w : IWord) : Nat := (hdrNw w + 7) / 8
/-- Words of the whole block. -/
def blockWords (w : IWord) : Nat := 2 + readWords w + writeWords w + hdrNi w

/-- Read entry j of a list of entry words (R53). -/
def readEntry (ws : List IWord) (j : Nat) : Nat := natBits ((ws.getD (j / 4) 0).toNat) (16 * (j % 4)) 16
/-- Write entry j of a list of entry words (R54). -/
def writeEntry (ws : List IWord) (j : Nat) : Nat := natBits ((ws.getD (j / 8) 0).toNat) (8 * (j % 8)) 8

/-- The target of a read entry. -/
def entryTarget (e : Nat) : Option Target := targetOf (BitVec.ofNat 8 (natBits e 7 8))
/-- The index of a read entry. -/
def entryIndex (e : Nat) : Nat := natBits e 0 7

/-! ### What a consumer slot takes (R62) -/

/-- Words that stand for a word's OPC and XOP alone: other fields neutral, IMM one of the few values that some row needs. -/
def neutralWords (w : IWord) : List IWord :=
  [0, 1, 2, 3, 4, 5, 6, 7, 16, 0x80, 0x100, 0x300].filterMap fun (n : Nat) =>
    mk (opcF w) false (xopF w) ⟨.always, .none, .none⟩ (BitVec.ofNat 32 n)

/-- Whether the low half of a word, its IMM, is at fault where the word breaks a rule: the same high half with another IMM keeps it
(R61). -/
def immAtFault (ok : IWord → Bool) (w : IWord) : Bool :=
  [0, 1, 2, 3, 4, 5, 6, 7, 16, 0x80, 0x100, 0x300].any fun (n : Nat) =>
    ok ((w.extractLsb' 32 32) ++ BitVec.ofNat 32 n)

/-- Whether an OPC is of the memory format, where bit 55 is SC (R41, R47). -/
def memOpc (o : Nat) : Bool := (decide (0x70 ≤ o) && decide (o ≤ 0x7E)) || o = 0x90 || o = 0xBC || o = 0xD6

/-- The operands that a consumer slot takes in the mode of its block (R44, R258), as its OPC and XOP define them, with the IMM bits that add
one (MERGE, DYN, IMM forms of B); none where OPC or XOP is unassigned. -/
def consumer (pinned : Bool) (w : IWord) : Option (Bool × Bool × Bool) :=
  let found := match decode w with
    | .ok i => some i
    | .error _ => (neutralWords w).findSome? fun n => match decode n with
      | .ok i => some i
      | .error _ => none
  found.map fun i =>
    let t := needsOf pinned i
    let t := match i with
      | .fcvt _ _ _ | .icvtf _ _ _ | .fcvti _ _ _ | .quant _ _ _ => (t.1, t.2.1, (immF w).getLsbD 8)
      | .expnd _ _ _ => (t.1, t.2.1, (immF w).getLsbD 0)
      | .rotl _ _ _ _ => (t.1, (immF w).getLsbD 7, t.2.2)
      | _ => t
    if iF w && ! memOpc (opcF w).toNat then (t.1, false, t.2.2) else t

/-! ### Targets within a block (R44) -/

/-- A block as targets see it: whether it is pinned, its instruction words, its number of write entries. -/
structure Frame where
  pinned : Bool
  code : List IWord
  nw : Nat
deriving DecidableEq, Repr

/-- Whether slot n stands later than slot j: a higher slot, in a pinned block a slot of a later stage (R44, R153). A read
entry (no producer slot) comes before every slot. -/
def Frame.later (f : Frame) (j : Option Nat) (n : Nat) : Bool :=
  match j with
  | none => true
  | some j => if f.pinned then decide (j / 2 < n / 2) else decide (j < n)

/-- A delivery to an operand (input 0 to 2) or the predicate (3) of slot n is legal. -/
def Frame.inputOk (f : Frame) (j : Option Nat) (n inp : Nat) : Bool :=
  decide (n < f.code.length) && f.later j n &&
    match consumer f.pinned (f.code.getD n 0) with
    | none => false
    | some t =>
      match inp with
      | 0 => t.1
      | 1 => t.2.1
      | 2 => t.2.2
      | _ => pmF (f.code.getD n 0) != 0

/-- A target is legal in its block. -/
def Frame.targetOk (f : Frame) (j : Option Nat) (t : Target) : Bool :=
  match t with
  | .none => true
  | .opA n => f.inputOk j n.toNat 0
  | .opB n => f.inputOk j n.toNat 1
  | .opC n => f.inputOk j n.toNat 2
  | .pred n => f.inputOk j n.toNat 3
  | .write n => decide (n.toNat < f.nw)
  | .out n => f.pinned && decide (n.toNat < 16)

/-- The targets of a word, for producers whose word decodes. -/
def wordTargets (w : IWord) : List Target :=
  match decode w with
  | .ok i => match headOf i with
    | some h => [h.t0, h.t1]
    | none => []
  | .error _ => []

/-- Producers of an input of slot n: read entries by number, then slots by 40 plus their number (R46, R49). -/
def producers (f : Frame) (reads : List Target) (n inp : Nat) : List Nat :=
  ((List.range reads.length).filter fun j => feeds (reads.getD j .none) n inp) ++
    (((List.range f.code.length).filter fun j => (wordTargets (f.code.getD j 0)).any fun t => feeds t n inp).map (40 + ·))

/-- Every operand that an instruction takes has a producer, and an unpredicated one has no predicate producer (R45, R46). -/
def fedOk (f : Frame) (reads : List Target) (n : Nat) (i : Instr) (pm : Pm) : Bool :=
  let t := needsOf f.pinned i
  let has := fun inp => ! (producers f reads n inp).isEmpty
  (! t.1 || has 0) && (! t.2.1 || has 1) && (! t.2.2 || has 2) && (pm != .always || ! has 3)

/-- The instructions that a task's block may not hold: modes O and D (R56, R61). -/
def pinnedOnly : Instr → Bool
  | .accs _ _ _ _ _ | .stopk _ _ | .tkind _ | .redn _ _ _ _ _ _ => true
  | _ => false

/-- One slot of a block (R61, R62): its word, then what its fields mean in this block. -/
def slotErr (f : Frame) (reads : List Target) (j : Nat) : Option BlockErr :=
  let w := f.code.getD j 0
  match decode w with
  | .error .illegalOp => some { cause := 0x01, slot := some j }
  | .error .malformed => some (badBlock (some j))
  | .ok i =>
    match headOf i with
    | none => some (badBlock (some j))
    | some h =>
      if (! f.pinned && pinnedOnly i) || ! f.targetOk (some j) h.t0 || ! f.targetOk (some j) h.t1 ||
          ! fedOk f reads j i h.pm then
        some (badBlock (some j))
      else none

/-! ### LSIDs and store groups (R49) -/

/-- Two instructions may share an LSID: both predicated, with opposite PM, fed by the same producers, not none (R49). -/
def sharedOk (f : Frame) (reads : List Target) (a b : Nat) : Bool :=
  let pa := pmF (f.code.getD a 0)
  let pb := pmF (f.code.getD b 0)
  let ra := producers f reads a 3
  let rb := producers f reads b 3
  ((pa = 1 && pb = 2) || (pa = 2 && pb = 1)) && ! ra.isEmpty && decide (ra = rb)

/-- The slots that bear an LSID. -/
def lsidSlots (f : Frame) (l : Nat) : List Nat :=
  (List.range f.code.length).filter fun j => match decode (f.code.getD j 0) with
    | .ok i => lsidOf i = some l
    | .error _ => false

/-- The first LSID that breaks the uniqueness rule, by the slot that repeats it. -/
def lsidErr (f : Frame) (reads : List Target) : Option Nat :=
  (List.range 32).findSome? fun l =>
    match lsidSlots f l with
    | [] | [_] => none
    | [a, b] => if sharedOk f reads a b then none else some b
    | _ :: b :: _ => some b

/-- LSIDs with a store group. -/
def storeLsids (f : Frame) : List Nat :=
  (List.range 32).filter fun l => (lsidSlots f l).any fun j => match decode (f.code.getD j 0) with
    | .ok i => storeClass i
    | .error _ => false

/-- The first `nulls` that names no store group. -/
def nullsErr (f : Frame) : Option Nat :=
  (List.range f.code.length).find? fun j => match decode (f.code.getD j 0) with
    | .ok (.nulls _ l) => ! (storeLsids f).contains l.toNat
    | _ => false

/-- Whether a block holds an exit (R55). -/
def hasExit (f : Frame) : Bool :=
  f.code.any fun w => match decode w with
    | .ok i => match i with
      | .exitB _ _ | .exitJ _ | .exitC _ _ | .exitCi _ | .exitRet _ | .exitT _ | .exitY _ _ => true
      | _ => false
    | .error _ => false

/-! ### The whole block (R62) -/

/-- Header checks, before the rest of the block is read. -/
def headersErr (w0 w1 : IWord) : Option BlockErr := if hdr0Ok w0 && hdr1Ok w1 then none else some (badBlock none)

/-- The parts of a block's words. -/
def readPart (ws : List IWord) : List IWord := (ws.drop 2).take (readWords (ws.getD 0 0))
/-- Write-entry words. -/
def writePart (ws : List IWord) : List IWord := (ws.drop (2 + readWords (ws.getD 0 0))).take (writeWords (ws.getD 0 0))
/-- Instruction words. -/
def codePart (ws : List IWord) : List IWord :=
  (ws.drop (2 + readWords (ws.getD 0 0) + writeWords (ws.getD 0 0))).take (hdrNi (ws.getD 0 0))

/-- A fired block's frame. -/
def frameOf (ws : List IWord) : Frame := { pinned := false, code := codePart ws, nw := hdrNw (ws.getD 0 0) }

/-- The targets of the read entries. -/
def readTargets (ws : List IWord) : List Target :=
  (List.range (hdrNr (ws.getD 0 0))).map fun j => (entryTarget (readEntry (readPart ws) j)).getD .none

/-- A read entry is legal (R53): valid, with a target of kinds 001 to 101 that its block takes, its register within GMAX. -/
def readOk (ws : List IWord) (j : Nat) : Bool :=
  let e := readEntry (readPart ws) j
  e.testBit 15 && hdrGuse (ws.getD 1 0) && decide (entryIndex e ≤ hdrGmax (ws.getD 1 0)) &&
    match entryTarget e with
    | none => false
    | some t => t != .none && (frameOf ws).targetOk none t

/-- A write entry is legal (R54). -/
def writeOk (ws : List IWord) (j : Nat) : Bool :=
  let e := writeEntry (writePart ws) j
  e.testBit 7 && hdrGuse (ws.getD 1 0) && decide (natBits e 0 7 ≤ hdrGmax (ws.getD 1 0)) &&
    (List.range j).all fun k => writeEntry (writePart ws) k != e

/-- Entries at or beyond the count are zero. -/
def entriesZero (ws : List IWord) : Bool :=
  let w := ws.getD 0 0
  ((List.range (4 * readWords w)).drop (hdrNr w)).all (fun j => readEntry (readPart ws) j = 0)

/-- Write entries at or beyond the count are zero. -/
def writesZero (ws : List IWord) : Bool :=
  let w := ws.getD 0 0
  ((List.range (8 * writeWords w)).drop (hdrNw w)).all (fun j => writeEntry (writePart ws) j = 0)

/-- Block decode (R62): the first failing check, or none. `frame` is the task's frame size. -/
def blockErr (frame : Nat) (ws : List IWord) : Option BlockErr :=
  let w0 := ws.getD 0 0
  let w1 := ws.getD 1 0
  let f := frameOf ws
  let reads := readTargets ws
  if ! (hdr0Ok w0 && hdr1Ok w1) then some (badBlock none)
  else if ! ((List.range (hdrNr w0)).all (readOk ws) && entriesZero ws) then some (badBlock none)
  else if ! ((List.range (hdrNw w0)).all (writeOk ws) && writesZero ws) then some (badBlock none)
  else match (List.range f.code.length).findSome? (slotErr f reads) with
    | some e => some e
    | none =>
      match lsidErr f reads with
      | some j => some (badBlock (some j))
      | none =>
        match nullsErr f with
        | some j => some (badBlock (some j))
        | none =>
          if (storeLsids f).length ≠ hdrScnt w0 ∨ ! hasExit f then some (badBlock none)
          else if hdrGuse w1 && decide (frame ≤ hdrGmax w1) then some { cause := 0x03 }
          else none

/-! ### Pinned blocks (R56, R153 to R157) -/

/-- Whether a role's stage slot may hold an instruction (R56, R61, R179, R255, R258, R261): role 1 is GEN, 3 is RED. -/
def pinnedOk (role : Nat) : Instr → Bool
  | .nullw _ | .movi _ _ _ | .movh _ _ | .mov _ | .constk _ _ | .pand _ | .por _ | .pxor _ | .pnot _ | .sel _ _ | .lmask _ _
  | .anyl _ _ | .alll _ _ | .test _ _ _ _ | .rdcyc _ | .rdtime _ | .nop _ => true
  | .getid _ s => s != 5
  | .nulls _ _ | .mload _ _ | .marm _ _ => role = 1
  | .add _ _ _ | .sub _ _ _ | .adds _ _ _ | .subs _ _ _ | .mul _ _ _ | .mulh _ _ _ | .mulhz _ _ _ | .mad _ _ _ | .div _ _ _
  | .divz _ _ _ | .rem _ _ _ | .remz _ _ _ | .and _ _ _ | .or _ _ _ | .xor _ _ _ | .andn _ _ _ | .orn _ _ _ | .shl _ _ _
  | .shr _ _ _ | .sar _ _ _ | .rol _ _ _ | .clz _ _ | .ctz _ _ | .popc _ _ | .brev _ _ | .bswap _ _ | .ext _ _ _ | .extz _ _ _
  | .ins _ _ _ | .min _ _ _ | .max _ _ _ | .minz _ _ _ | .maxz _ _ _ | .abs _ _ | .neg _ _ | .lea _ _ _ => true
  | .fadd _ _ _ | .fsub _ _ _ | .fmul _ _ _ | .ffma _ _ _ | .ffms _ _ _ | .fnma _ _ _ | .fmin _ _ _ | .fmax _ _ _ | .fabs _ _
  | .fneg _ _ | .fcpys _ _ _ | .ftest _ _ _ | .fclass _ _ _ | .fcvt _ _ _ | .icvtf _ _ _ | .fcvti _ _ _ | .frcp _ _
  | .frsq _ _ | .fsqrt _ _ | .fdiv _ _ _ | .fexp2 _ _ | .flog2 _ _ | .fsinp _ _ | .fcosp _ _ | .ftanh _ _ | .dot _ _ _
  | .pack _ _ _ | .unpack _ _ _ | .scaleb _ _ _ | .quant _ _ _ => true
  | .perm _ _ _ | .rotl _ _ _ _ | .shfl _ _ _ _ | .bcastl _ _ _ | .redl _ _ _ _ _ | .scanl _ _ _ _ _ _ | .compr _ _
  | .expnd _ _ _ | .lsel _ _ | .iota _ _ _ _ | .accs _ _ _ _ _ | .stopk _ _ | .tkind _ => true
  | .redn _ _ _ _ _ _ => role = 3
  | .lds _ _ m | .sts _ _ m | .ldt _ _ m | .stt _ _ m => m.osc.isNone
  | .ldg _ _ _ m | .stg _ _ _ m => role = 1 && m.osc.isNone && decide (m.ofs.toNat < 8)
  | .ldgv _ _ _ _ | .stgv _ _ _ _ | .prf _ _ _ | .cpy _ _ => role = 1
  | _ => false

/-- Whether an OPC is of the lane slots: 0x60 to 0x6F (R153). -/
def laneOpc (w : IWord) : Bool := decide (0x60 ≤ (opcF w).toNat) && decide ((opcF w).toNat < 0x70)

end Sys2Proof.Machine
end

