-- ==== Sys2Proof/Machine/Places.lean ====
section
/-! DEFINITION. Where a memory access goes: addresses of R252, the checks of R275, forwarding within a block (R49), the actions
of acquires and releases on C (R285). -/

namespace Sys2Proof.Machine

/-! ### Holds of a pleat handshake (R129) -/

/-- Whether T moves between two pleat words: its base bank or bank count changes. -/
def movesT (w w' : BitVec 32) : Bool := plG w != plG w' || plT w != plT w'
/-- Whether S moves. -/
def movesS (w w' : BitVec 32) : Bool := plG w + plT w != plG w' + plT w' || plS w != plS w'
/-- Whether G moves. -/
def movesG (w w' : BitVec 32) : Bool := plG w != plG w'

/-- C granules of a pleat word (R120). -/
def plC (w : BitVec 32) : Nat := 16 - plG w - plT w - plS w

/-- Whether the step of a handshake's phase has something to do (R129): phases 2 to 6 are the steps 1 to 5. -/
def stepDue (p : Pleat) (w : BitVec 32) (phase : Nat) : Bool :=
  match phase with
  | 2 => 4 * plC w != p.cBanks
  | 3 => movesG p.word w
  | 4 => movesT p.word w
  | 5 => movesS p.word w
  | 6 => w != p.word
  | _ => false

/-- The phase after one, steps with nothing to do skipped; 0 for a word already in effect, which completes at once (R129, R130). -/
def nextStep (p : Pleat) (w : BitVec 32) (phase : Nat) : Nat :=
  ((List.range 7).find? fun n => decide (phase < n) && stepDue p w n).getD 0

/-- Whether block starts and commits are held: from the start of step 2 until completion (R129). -/
def Core.holdG (c : Core) : Bool := decide (3 ≤ c.pleat.phase) && movesG c.pleat.word c.pleat.req
/-- Whether T access is held: from the start of step 3. -/
def Core.holdT (c : Core) : Bool := decide (4 ≤ c.pleat.phase) && movesT c.pleat.word c.pleat.req
/-- Whether S access is held: from the start of step 4. -/
def Core.holdS (c : Core) : Bool := decide (5 ≤ c.pleat.phase) && movesS c.pleat.word c.pleat.req

/-- Whether a role's accesses are held. -/
def Core.holdRole (c : Core) (r : PoolRole) : Bool :=
  match r with
  | .s => c.holdS
  | .t => c.holdT

/-- The end of a role's legal range: the watermark, or T × 64 KiB (R225); a core with no patch has 0. -/
def Core.roleEnd (c : Core) (r : PoolRole) : Nat :=
  if c.patch.isNone then 0
  else match r with
    | .s => c.pleat.swm.toNat
    | .t => c.capT

/-- The bound cause of a role (R225). -/
def boundCause (r : PoolRole) : BitVec 8 :=
  match r with
  | .s => 0x04
  | .t => 0x05

/-- Whether the GEN port takes one more request (R233). -/
def Core.genRoom (c : Core) : Bool := decide (c.gen.length < 64)

/-! ### Addresses (R252) -/

/-- The bytes of one piece of an access: 4 per lane of `.v`. -/
def pieceBytes (ac : AC) : Nat :=
  match ac with
  | .v => 4
  | ac => acBytes ac

/-- Address words of an access by lane: one for scalar and `.l` forms, 16 lanes for `.v`, inactive lanes left out. -/
def laneWords (ac : AC) (a : Value) : List (Nat × Nat) :=
  match ac with
  | .v => ((List.range 16).map fun l => (l, elem a 32 l)).filter fun p => p.2 != 0x80000000
  | _ => [(0, bitsOf a 0 32)]

/-- The lane that a record names (R337): only `.v` forms have lanes. -/
def laneOf (ac : AC) (l : Nat) : Option Nat := if ac = .v then some l else none

/-- A place in a pool: the core record and the byte offset in its role. -/
structure PoolPlace where
  lane : Nat
  cid : Nat
  off : Nat
deriving DecidableEq, Repr

/-- What the checks of an access answer: a cause, a wait, or the places. -/
inductive Checked (α : Type) where
  | bad (c : Cause)
  | hold
  | ok (x : α)
deriving DecidableEq, Repr

/-- The checks of R275 for one offset of a pool role: alignment, then bound. -/
def poolCheck1 (c : Core) (role : PoolRole) (n : Nat) (o : Int) : Option (BitVec 8) :=
  if o % (n : Int) ≠ 0 then some 0x07
  else if o < 0 ∨ (c.roleEnd role : Int) < o + n then some (boundCause role)
  else none

/-- An own-pool access: every lane checked in turn (R255, R275). -/
def poolPlaces (cid : Nat) (c : Core) (role : PoolRole) (ac : AC) (lsid : Nat) (ofs : Int) :
    List (Nat × Nat) → Checked (List PoolPlace)
  | [] => .ok []
  | (l, w) :: r =>
    let o : Int := (w : Int) + ofs
    match poolCheck1 c role (pieceBytes ac) o with
    | some x => .bad { cause := x, lsid := some lsid, lane := laneOf ac l, addr := BitVec.ofInt 64 o }
    | none =>
      match poolPlaces cid c role ac lsid ofs r with
      | .ok ps => .ok ({ lane := l, cid := cid, off := o.toNat } :: ps)
      | x => x

/-- The bound of a neighbour offset (R252, R275): of a core of the issuing lease, the core's watermark; at any other, whose watermark
is no tenant's to know, the 20 bits of the address word (assumption 110). -/
def neighbourCheck (c : Core) (own : Bool) (n : Nat) (o : Int) : Option (BitVec 8) :=
  if own then poolCheck1 c .s n o
  else if o % (n : Int) ≠ 0 then some 0x07
  else if o < 0 ∨ 2 ^ 20 < o + n then some 0x04
  else none

/-- A neighbour address word (R252, R275): alignment, reserved bits and bound, then membership. The target must be a core of the cluster and
of the issuing lease (R225). -/
def neighbourPlaces (s : State) (cid lease : Nat) (ac : AC) (lsid : Nat) (ofs : Int) :
    List (Nat × Nat) → Checked (List PoolPlace)
  | [] => .ok []
  | (l, w) :: r =>
    let o : Int := (natBits w 0 20 : Int) + ofs
    let tc := coreAt s (clusterOf cid) (natBits w 24 4)
    let xy := xyOf s tc
    let c := s.core tc
    let bad := fun (x sub : BitVec 8) =>
      Checked.bad (α := List PoolPlace)
        { cause := x, sub := sub, lsid := some lsid, lane := laneOf ac l, addr := BitVec.ofNat 64 w }
    if o % (pieceBytes ac : Int) ≠ 0 then bad 0x07 0
    else if natBits w 28 4 ≠ 0 ∨ natBits w 20 4 ≠ 0 then bad 0x04 0
    else match neighbourCheck c (holderAt s xy.1 xy.2 = some lease) (pieceBytes ac) o with
      | some x => bad x 0
      | none =>
        if holderAt s xy.1 xy.2 ≠ some lease then bad 0x0A 2
        else if c.holdS then .hold
        else match neighbourPlaces s cid lease ac lsid ofs r with
          | .ok ps => .ok ({ lane := l, cid := tc, off := o.toNat } :: ps)
          | x => x

/-! ### Global pieces -/

/-- What a global access needs of its page (R229, R256, R257, R262, R299, R331). -/
inductive GKind where
  | load | store | atomic | stx | irr | waitm
deriving DecidableEq, Repr

/-- One global piece: its lane or element, address and target. -/
structure GPiece where
  lane : Nat
  va : Nat
  loc : Loc
deriving DecidableEq, Repr

/-- The permission check of one piece (R227, R229). -/
def permOk (k : GKind) (l : Loc) (e : BitVec 64) : Bool :=
  match k with
  | .load => peR e
  | .store => peW e
  | .atomic => peR e && peW e && ! l.isSystem
  | .stx | .irr => peW e && l.isSystem
  | .waitm => peR e && ! l.isSystem

/-- Whether an escape is denied (R30, R257, R331): ESC = 0; `.irr` without PERMS[1] or in a class R kernel. -/
def escDenied (p : Patch) (k : GKind) (l : Loc) : Bool :=
  match k with
  | .store | .stx => l.isSystem && ! hEsc p.hdr
  | .irr => ! hEsc p.hdr || ! p.perms.getLsbD 1 || ! hClassS p.hdr
  | _ => false

/-- The checks of R275 for global pieces of `n` bytes, in ascending order: alignment, translation, permission, escape. A page
in migration makes the access wait (R257), a poisoned walk is poison consumed (R229). -/
def globalPieces (s : State) (cid : Nat) (p : Patch) (k : GKind) (n : Nat) (lsid : Option Nat) (lanes : Bool) :
    List (Nat × Nat) → Checked (List GPiece)
  | [] => .ok []
  | (l, va) :: r =>
    let bad := fun (x : BitVec 8) =>
      Checked.bad (α := List GPiece) { cause := x, lsid := lsid, lane := if lanes then some l else none, addr := BitVec.ofNat 64 va }
    if va % n ≠ 0 then bad 0x07
    else match translate s cid p.lease va with
      | .unmapped => bad 0x08
      | .poisoned => bad 0x0B
      | .moving => .hold
      | .ok loc e =>
        if ! permOk k loc e then bad 0x09
        else if escDenied p k loc then bad 0x11
        else match globalPieces s cid p k n lsid lanes r with
          | .ok ps => .ok ({ lane := l, va := va, loc := loc } :: ps)
          | x => x

/-- (A[47:0] + offset) mod 2^48 (R252). -/
def globalVa (a : Value) (ofs : Int) : Nat := wrap 48 ((bitsOf a 0 48 : Int) + ofs)

/-- The pieces of a contiguous access (R252, R253): 16 lanes of 4 bytes for `.v`, one otherwise. -/
def contiguous (ac : AC) (va : Nat) : List (Nat × Nat) :=
  match ac with
  | .v => (List.range 16).map fun l => (l, (va + 4 * l) % 2 ^ 48)
  | _ => [(0, va)]

/-- The elements of a gather or scatter (R259): 8 pairs for AC 3, else 16 lanes; inactive ones left out. -/
def scattered (ac : AC) (a b : Value) (ofs : Int) : List (Nat × Nat) :=
  let es := (List.range (if ac = .z64 then 8 else 16)).filter fun e => elem b 32 e != 0x80000000
  es.map fun e => (e, wrap 48 ((bitsOf a 0 48 : Int) + sgn 32 (elem b 32 e) + ofs))

/-! ### Forwarding (R49) -/

/-- Captured effects of lower LSIDs that no `nulls` has cancelled, in ascending LSID. -/
def Inst.lower (x : Inst) (lsid : Nat) : List Capture :=
  ((List.range lsid).filter fun l => ! x.nulls.contains l).flatMap fun l => x.caps.filter fun q => q.lsid = some l

/-- The last of the values that hold, if any. -/
def lastSome {α : Type} (xs : List (Option α)) : Option α := xs.foldl (fun r x => x.or r) none

/-- The byte that a captured pool store writes at a place. -/
def capPool (cid : Nat) (role : PoolRole) (off : Nat) (q : Capture) : Option Byte :=
  match q.eff with
  | .poolStore r c ps =>
    if r = role ∧ c = cid then
      lastSome (ps.map fun p => if p.1 ≤ off ∧ off < p.1 + p.2.length then p.2[off - p.1]? else none)
    else none
  | _ => none

/-- The byte that a captured global store writes at a target. -/
def capGlobal (l : Loc) (q : Capture) : Option Byte :=
  match q.eff with
  | .globalStore ps _ _ _ _ _ _ =>
    lastSome (ps.map fun p =>
      let k := p.2.1.key
      let j := l.key
      if k.1 = j.1 ∧ k.2 ≤ j.2 ∧ j.2 < k.2 + p.2.2.length then p.2.2[j.2 - k.2]? else none)
  | _ => none

/-- Whether an access of `n` bytes at a pool place overlaps a captured atomic of a lower LSID. -/
def overPoolAtomic (x : Inst) (lsid cid : Nat) (role : PoolRole) (off n : Nat) : Bool :=
  role = .s && (x.lower lsid).any fun q => match q.eff with
    | .poolAtomic c o _ w _ _ _ => c = cid && decide (o < off + n) && decide (off < o + (if w then 8 else 4))
    | _ => false

/-- Whether an access of `n` bytes at a target overlaps a captured global atomic of a lower LSID. -/
def overGlobalAtomic (x : Inst) (lsid : Nat) (l : Loc) (n : Nat) : Bool :=
  (x.lower lsid).any fun q => match q.eff with
    | .globalAtomic _ m _ w _ _ _ _ =>
      m.key.1 = l.key.1 && decide (m.key.2 < l.key.2 + n) && decide (l.key.2 < m.key.2 + (if w then 8 else 4))
    | _ => false

/-- Bytes read, with the bytes that lower stores of the block write laid over them (R49). -/
def forwardPool (x : Inst) (lsid cid : Nat) (role : PoolRole) (off : Nat) (bs : List Byte) : List Byte :=
  (List.range bs.length).map fun i =>
    (lastSome ((x.lower lsid).map (capPool cid role (off + i)))).getD (bs.getD i 0)

/-- The same for global bytes, from the lower stores that a test keeps. -/
def forwardGlobal (x : Inst) (lsid : Nat) (keep : Capture → Bool) (l : Loc) (bs : List Byte) : List Byte :=
  (List.range bs.length).map fun i =>
    (lastSome (((x.lower lsid).filter keep).map (capGlobal (l.plus i)))).getD (bs.getD i 0)

/-- The last `cctl` of a lower LSID that takes a line out of C, by its LSID and whether the line's dirty bytes are discarded: a load
behind it finds the line as it leaves it (R265). -/
def Inst.lastDrop (x : Inst) (lsid line : Nat) : Option (Nat × Bool) :=
  lastSome ((x.lower lsid).map fun q => match q.eff with
    | .cctl 1 n => if n = line then some (q.lsid.getD 0, true) else none
    | .cctl 2 n => if n = line then some (q.lsid.getD 0, false) else none
    | .cctl 4 _ => some (q.lsid.getD 0, false)
    | _ => none)

/-- Whether a scope is cluster or wider. -/
def wideScope : Option Scope → Bool
  | none | some .core => false
  | _ => true

/-- Whether a piece goes straight to its node (R256, R285). -/
def goesDirect (c : Core) (va : Nat) (wide na : Bool) : Bool := wide || ((c.cFind (va / 64)).isNone && (na || ! c.cAlloc))

/-- Whether a lower store's bytes stand for a load of a line behind a `cctl`: those of a store into C below a `cctl.inv` are discarded
with the line (R265). -/
def capKept (c : Core) (line : Nat) (d : Option (Nat × Bool)) (q : Capture) : Bool :=
  match d, q.eff with
  | some (n, true), .globalStore _ _ na _ _ osc _ => decide (n < q.lsid.getD 0) || goesDirect c (64 * line) (wideScope osc) na
  | _, _ => true

/-! ### Acquires and releases (R285) -/

/-- An acquire's action on the issuing core: the cache generation advances (R285). -/
def acquire (s : State) (cid : Nat) (sc : Option Scope) : State := if wideScope sc then advanceGen s cid else s

/-- A release's action on the issuing core: dirty lines are written back first (R285). -/
def release (s : State) (cid : Nat) (sc : Option Scope) : State := if wideScope sc then drainC s cid else s

/-- The ring node that a target's memory node is, for the serialising token (R288): 0 to 7 the HBM stacks, 8 the LPDDR6
groups, 9 the peer ports, 10 the Briuk strip. -/
def nodeOf (l : Loc) : Nat :=
  match l with
  | .dev pa _ => if pa < 2 ^ 42 then pa / 2 ^ 28 / 192 else 8
  | .peer _ _ | .ext _ _ => 9
  | .host _ => 10

/-- Whether an sc access may take its place in the sc order: its node holds the token; at system scope no seal is in
progress (R288). -/
def scReady (s : State) (node : Nat) (sys : Bool) : Bool := s.token = node && (! sys || s.sl.sealing.isNone)

end Sys2Proof.Machine
end

