-- ==== Sys2Proof/Machine/Waits.lean ====
section
/-! DEFINITION. Conditions that an instruction waits for before it fires (R146, R190, R251): each said once, for the instruction
itself, for `tstat`, and for the arbiter's view of a task. -/

namespace Sys2Proof.Machine

/-! ### Channels -/

/-- The head flit of an in-channel. -/
def Core.headFlit (c : Core) (j : Nat) : Option Flit := ((c.inCh j).buf.head?).map (·.2)

/-- Flits that `recv` and `waitc` see (R194): those an in-channel holds, none while its head is a BARRIER (R295). -/
def Core.flitsSeen (c : Core) (j : Nat) : Nat := if (c.headFlit j).any (·.kind = 8) then 0 else (c.inCh j).buf.length

/-- Whether a run that has started takes its rows from an in-channel: no other consumer does then (R244). -/
def Mangle.takesFrom (m : Mangle) (j : Nat) : Bool := m.queue.any fun q => q.started && match q.op with
  | .run _ d => mdSrck d.toNat && mdIn d.toNat = j
  | _ => false

/-- `recv` has a flit to read (R192, R244, R295). -/
def recvReady (c : Core) (j : Nat) : Bool := decide (0 < c.flitsSeen j) && ! c.mangle.takesFrom j

/-- `waitc` has enough flits (R194). -/
def waitcReady (c : Core) (j n : Nat) : Bool := decide (Nat.min n (c.inDepth j) ≤ c.flitsSeen j)

/-- Every out-channel of a list has a free slot. -/
def roomIn (c : Core) (js : List Nat) : Bool := js.all fun j => c.outRoom j 1

/-- The channels of a mask. -/
def maskChans (m : BitVec 16) : List Nat := (List.range 16).filter fun j => m.getLsbD j

/-- The out-channels that `bar` emits on: bound, with a PATH or PEER route (R294). -/
def barChans (c : Core) : List Nat :=
  (List.range 16).filter fun j => c.outBound j && (routeKind (c.route j) = 1 || routeKind (c.route j) = 4)

/-- Slots reserved in out-channels. -/
def Core.reserve (c : Core) (js : List Nat) : Core := js.foldl (fun c j => c.modOut j fun o => { o with resv := o.resv + 1 }) c

/-! ### Copy engine and tags -/

/-- Whether a tag is complete (R268). -/
def Core.tagComplete (c : Core) (t : Nat) : Bool := (c.tag t).pending = 0

/-- The bitmap of the masked tags for which a test holds. -/
def tagMap (m : Nat) (f : Nat → Bool) : Nat := joinN 1 ((List.range 64).map fun t => (m.testBit t && f t).toNat)

/-- `tagw` may fire (R268). -/
def tagwReady (c : Core) (m : Nat) (any : Bool) : Bool :=
  let ts := (List.range 64).filter m.testBit
  if any then ts.isEmpty || ts.any c.tagComplete else ts.all c.tagComplete

/-- Packets of one queue of a cluster. -/
def copyQ (s : State) (cl q : Nat) : List CopyEnt := tgetD (s.cluster cl).queues q []

/-- A queue entry is free: 16 packets, reserved entries among them (R234). -/
def copyRoom (s : State) (cl q : Nat) : Bool := decide ((copyQ s cl q).length + tgetD (s.cluster cl).resv q 0 < 16)

/-- A tag's count may rise (R239). -/
def tagRoom (c : Core) (t : Nat) : Bool := decide ((c.tag t).pending + (c.tag t).resv < 255)

/-- The packets that a `cpyqf` waits for: its position's, and the system queues' packets of its lease (R267). -/
def cpyqfPackets (s : State) (cid lease : Nat) (self sys : Bool) : List (Nat × CopyEnt) :=
  let cl := clusterOf cid
  (if self then (copyQ s cl (posOf s cid)).map (posOf s cid, ·) else []) ++
    (if sys then ((copyQ s cl 16).map (16, ·) ++ (copyQ s cl 17).map (17, ·)).filter (·.2.lease = lease) else [])

/-! ### Mangle -/

/-- Runs and `mzero` entries in the mangle's queue (R245). -/
def Mangle.runs (m : Mangle) : Nat :=
  (m.queue.filter fun q => match q.op with
    | .run _ _ | .zero _ => true
    | _ => false).length

/-- A run slot is free (R245, R273). -/
def marmReady (m : Mangle) : Bool := decide (m.runs + m.resv < 4)

/-- `mload` may fire: a run slot is free (R251), and the GEN port has room where a pinned block reads global memory (R271). -/
def mloadReady (c : Core) (port : Bool) : Bool := marmReady c.mangle && (! port || c.genRoom)

/-- Everything queued before a mark has finished, fences aside (R272). -/
def mwaitReady (m : Mangle) (mark : Nat) : Bool :=
  m.queue.all fun q => decide (mark ≤ q.id) || q.op == .fence

/-! ### Queues -/

/-- Whether a queue serves a VF (R82). -/
def Queue.isOpen (q : Queue) : Bool := q.vf != 0

/-- A ring slot is free, reserved slots counted (R84). -/
def Queue.room (q : Queue) : Bool := decide ((q.tail - q.head).toNat + q.rresv < q.size)

/-- Whether a queue takes posts of a lease (R197): open, of the lease's VF, the lease among its posters. -/
def mayPost (s : State) (q : Queue) (lease : Nat) : Bool :=
  q.isOpen && (s.lease lease).map (·.vf) = some q.vf && q.posters.contains lease

/-- A slot of the completion ring is free, reserved slots counted (R85). -/
def Queue.cRoom (q : Queue) : Bool := decide ((q.ctail - q.chead).toNat + q.cresv < q.size)

/-! ### Barrier objects -/

/-- The cluster of the patch that a core lies in, by patch-relative position. -/
def Core.relCluster (c : Core) : Nat := c.py / 4 * 16 + c.px / 4

/-- The object that an `arrive` or `waitb` of a core names (R296). -/
def barObj (p : Patch) (c : Core) (lobj : Bool) (k : Nat) : BarObj :=
  if lobj then tgetD p.lbars k {} else tgetD p.bars (64 * c.relCluster + k) {}

/-- Whether an object is declared (R297). -/
def barDeclared (p : Patch) (lobj : Bool) (k : Nat) : Bool := decide (k < if lobj then hLbar p.hdr else hCbar p.hdr)

/-- `waitb` may fire: the phase is past the ticket's (R298). -/
def waitbReady (o : BarObj) (ticket : BitVec 32) : Bool :=
  let d := (o.phase - ticket).toNat
  decide (1 ≤ d) && decide (d < 2 ^ 31)

/-! ### Pleats -/

/-- What a ticket asks of `pleatw` and `pleatq` (R135): whether it is done, its code, and whether it names a request that the
given block instance itself reserved. -/
def ticketState (c : Core) (me : Option (Nat × Nat)) (t : Nat) : Bool × Nat × Bool :=
  if 2 ^ 21 ≤ t then (true, 0, false)
  else if natBits t 16 1 = 1 then (true, natBits t 17 4, false)
  else if c.pleat.phase ≥ 2 ∧ natBits t 0 16 = c.pleat.seq.toNat then (false, 0, false)
  else if c.pleat.phase = 1 ∧ natBits t 0 16 = (c.pleat.seq + 1).toNat then (false, 0, me == c.pleat.owner)
  else (true, 0, false)

/-! ### Seals -/

/-- `sealw` may fire (R328): the RIN is sealed. -/
def sealwReady (s : State) (r : Rin) : Bool := rinGe s.sl.s r

/-- No escape of a task numbered below a mark is held (R332). -/
def escwReady (s : State) (px py k lease mark : Nat) : Bool :=
  s.escapes.all fun e => ! (e.lease = some lease && e.px = px && e.py = py && e.slot = k && decide (e.id < mark))

/-! ### Memory -/

/-- A fence may fire: its release has no write-back that stalls, and an sc fence finds its token (R287, R288). -/
def fenceReady (s : State) (cid : Nat) (rel sc : Bool) (scope : Scope) : Bool :=
  (! rel || ! wideScope (some scope) || ! drainStalls s cid) &&
    (! sc || scReady s (Config.nearNode cid % 11) (scope = .system))

/-- What `waitm` finds (R299): a cause, a wait, or the value that meets its condition. -/
inductive SignalRead where
  | bad (c : Cause)
  | hold
  | unmet (l : Loc)
  | met (l : Loc) (v : Nat)
deriving DecidableEq, Repr

/-- The state in which `waitm` reads its signal: the core's own dirty bytes of the line are at the node (R281, R285). -/
def signalState (s : State) (cid : Nat) (va : Nat) (l : Loc) : State := cleanLine s cid (va / 64) (lineLoc l (va % 64))

/-- The checks and the read of `waitm` (R299), in order: alignment, translation, permission, denial, poison, condition. -/
def readSignal (s : State) (cid : Nat) (p : Patch) (c : Cond) (a b : Value) : SignalRead :=
  let va := bitsOf a 0 48
  match globalPieces s cid p .waitm 8 none false [(0, va)] with
  | .bad x => .bad x
  | .hold => .hold
  | .ok [] => .hold
  | .ok (g :: _) =>
    if denied s p.lease (((s.lease p.lease).map (·.gen)).getD 0) false g.loc then
      .bad { cause := 0x0A, sub := 1, addr := BitVec.ofNat 64 va }
    else if readBad s p.lease g.loc then .bad { cause := 0x0B, addr := BitVec.ofNat 64 va }
    else if (overLease (signalState s cid va g.loc)).isSome then .hold
    else
      let s := signalState s cid va g.loc
      let v := bytesNat (nodeRead s p.lease g.loc 8)
      if condHolds c 64 v (lo64 b) then .met g.loc v else .unmet g.loc

/-! ### All of them -/

/-- Whether an instruction has something to do now: the resource it waits for is there, it would raise a cause, or its wait is
still to be noted (`cpyqf`, `sealrq.wait`, `waitm`). -/
def ready (s : State) (e : Env) (i : Instr) (v : Vals) : Bool :=
  match i with
  | .recv _ j => ! e.c.inBound j.toNat || e.c.inTask j.toNat != e.slotK || recvReady e.c j.toNat
  | .waitc _ j n => ! e.c.inBound j.toNat || waitcReady e.c j.toNat n.toNat
  | .send _ _ j => ! e.c.outBound j.toNat || e.c.outRoom j.toNat 1
  | .markt _ m => (maskChans m).any (fun j => ! e.c.outBound j) || roomIn e.c (maskChans m)
  | .bar _ => roomIn e.c (barChans e.c)
  | .qpost _ _ => let q := s.queue (bitsOf v.a 0 10); ! mayPost s q e.lease || q.room
  | .cpy _ _ =>
    let q := bitsOf v.a 26 5
    q != posOf s e.cid || (copyRoom s (clusterOf e.cid) q && tagRoom e.c (bitsOf v.a 17 6))
  | .cpyqf _ self sys _ => e.ss.wait.isEmpty || (cpyqfPackets s e.cid e.lease self sys).isEmpty
  | .tagw _ _ any => tagwReady e.c (lo64 v.a) any
  | .marm _ _ => marmReady e.c.mangle
  | .mload _ _ => mloadReady e.c (e.pinned && bitsOf v.a 63 1 = 1)
  | .mwait _ => mwaitReady e.c.mangle e.inst.mark
  | .pleatw _ =>
    let t := ticketState e.c (e.k.map fun k => (k, e.inst.id)) (lo64 v.a)
    t.1 || t.2.2
  | .swm _ => e.c.pleat.phase = 0
  | .sealw _ => sealwReady s (BitVec.ofNat 32 (bitsOf v.a 0 32))
  | .sealrqWait _ => match e.ss.wait with
    | r :: _ => sealwReady s (BitVec.ofNat 32 r)
    | [] => true
  | .escw _ => escwReady s e.c.px e.c.py e.slotK e.lease e.inst.escMark
  | .fenceAcq _ sc => fenceReady s e.cid false false sc
  | .fenceRel _ sc | .fenceBoth _ sc => fenceReady s e.cid true false sc
  | .fenceSc _ sc => fenceReady s e.cid true true sc
  | .waitb _ lobj k => ! barDeclared e.p lobj k.toNat || waitbReady (barObj e.p e.c lobj k.toNat) (BitVec.ofNat 32 (bitsOf v.a 0 32))
  | .waitm _ c _ => match readSignal s e.cid e.p c v.a v.b with
    | .hold => false
    | .unmet l => ! s.waiters.any fun w => w.core = some (e.cid, e.slotK) && w.line = lineKey l && ! w.woken
    | _ => true
  | .svcNotify _ => (s.queue e.p.queue).cRoom
  | .lds _ _ _ | .sts _ _ _ | .atms _ _ _ _ => ! e.c.holdS
  | .ldt _ _ _ | .stt _ _ _ => ! e.c.holdT
  | .ldg _ _ _ _ | .ldgv _ _ _ _ => e.c.genRoom
  | _ => true

/-- The firing of a slot, as `issue` would find it. -/
def envAt (s : State) (cid : Nat) (k : Option Nat) (x : Inst) (j : Nat) : Option Env :=
  let c := s.core cid
  match c.patch with
  | none => none
  | some pt => (s.patch pt).map fun p =>
    { cid := cid, k := k, slot := j, c := c, t := (k.map c.task).getD {}, inst := x, ss := x.slots.getD j {}, pt := pt, p := p }

/-- What a slot of an instance can do now: nothing, wait for a resource, or fire (R45, R49, R74, R146). -/
inductive SlotView where
  | idle | waits | fires
deriving DecidableEq, Repr

/-- What a slot can do now. -/
def slotView (s : State) (cid : Nat) (k : Option Nat) (x : Inst) (j : Nat) : SlotView :=
  match x.at j, envAt s cid k x j with
  | some i, some e =>
    match headOf i with
    | none => .idle
    | some h =>
      match verdict h.pm (needsOf e.pinned i) e.ss with
      | .go v =>
        if e.behind i || (k.isSome && (x.lsidBlocked i || x.drawBlocked (e.t.tctl.getLsbD 2) i j)) then .idle
        else if ready s e i v then .fires else .waits
      | .dead | .null => .fires
      | .wait => if e.ss.ph = .pending then .waits else .idle
  | _, _ => .idle

/-- The slots of an instance that can fire now. -/
def firable (s : State) (cid : Nat) (k : Option Nat) (x : Inst) : List Nat :=
  (List.range x.slots.length).filter fun j => slotView s cid k x j = .fires

/-- Whether a block is quiescent: nothing of it can fire, now or after a wait (R55). -/
def quiescent (s : State) (cid : Nat) (k : Option Nat) (x : Inst) : Bool :=
  (List.range x.slots.length).all fun j => slotView s cid k x j = .idle

/-- Whether a task waits in `tagw`, `waitm` or `waitb`, which pauses its patch's watchdog (R168). -/
def waitsQuietly (s : State) (cid k : Nat) (x : Inst) : Bool :=
  (List.range x.slots.length).any fun j => slotView s cid (some k) x j = .waits && match x.at j with
    | some (.tagw _ _ _) | some (.waitm _ _ _) | some (.waitb _ _ _) => true
    | _ => false

end Sys2Proof.Machine
end

