-- ==== Sys2Proof/Machine/CopyTags.lean ====
section
/-! DEFINITION. The copy engine's packets (R235, R236) and the instructions that post them and wait for them (R266 to R269). -/

namespace Sys2Proof.Machine

/-! ### The packet (R235, R236) -/

/-- QUEUE. -/
def cpQueue (p : Value) : Nat := bitsOf p 26 5
/-- SCOPE code. -/
def cpScope (p : Value) : Nat := bitsOf p 23 3
/-- TAG. -/
def cpTag (p : Value) : Nat := bitsOf p 17 6
/-- SWF. -/
def cpSwf (p : Value) : Nat := bitsOf p 14 3
/-- SWEN. -/
def cpSwen (p : Value) : Bool := bitsOf p 13 1 = 1
/-- log2 of the chunk size. -/
def cpChunk (p : Value) : Nat := 4 + bitsOf p 11 2
/-- RTYPE. -/
def cpRtype (p : Value) : Nat := bitsOf p 7 4
/-- ESZ. -/
def cpEsz (p : Value) : Nat := bitsOf p 4 3
/-- OP. -/
def cpOp (p : Value) : Nat := bitsOf p 0 4
/-- SD. -/
def cpSd (p : Value) : Nat := bitsOf p 32 64
/-- DD. -/
def cpDd (p : Value) : Nat := bitsOf p 96 64
/-- N of counter k. -/
def cpN (p : Value) (k : Nat) : Nat := bitsOf p (160 + 48 * k) 16 + 1
/-- Stride of counter k. -/
def cpStr (p : Value) (k : Nat) : Int := sgn 32 (bitsOf p (176 + 48 * k) 32)
/-- AUX. -/
def cpAux (p : Value) : Nat := bitsOf p 448 64

/-- Whether a descriptor names a pool. -/
def isPool (d : Nat) : Bool := d.testBit 63

/-- A descriptor's reserved bits are zero (R236). -/
def descOk (d : Nat) : Bool :=
  if isPool d then ! d.testBit 62 && natBits d 56 5 = 0 && natBits d 32 20 = 0 else natBits d 48 15 = 0

/-- ESZ of a reduce type. -/
def rtypeEsz (t : Nat) : Nat :=
  match t with
  | 0 | 2 => 2
  | 1 | 3 => 3
  | _ => 1

/-- AUX is as its operation has it. -/
def auxOk (p : Value) : Bool :=
  let a := cpAux p
  match cpOp p with
  | 1 | 2 => natBits a 48 16 = 0 && natBits a 0 2 = 0
  | 3 => decide (a < 2 ^ (8 * 2 ^ cpEsz p))
  | _ => a = 0

/-- The limits of R235 and R236. -/
def packetOk (p : Value) : Bool :=
  bitsOf p 31 1 = 0 && decide (cpQueue p ≤ 17) && decide (1 ≤ cpScope p) && decide (cpScope p ≤ 5) &&
    (! cpSwen p || (isPool (cpSd p) != isPool (cpDd p))) &&
    (if cpOp p = 4 then decide (cpRtype p ≤ 5) && cpEsz p = rtypeEsz (cpRtype p) else cpRtype p = 0) &&
    decide (cpEsz p ≤ 6) && (cpOp p != 3 || decide (cpEsz p ≤ 3)) && decide (cpOp p ≤ 4) &&
    (if cpOp p = 3 then cpSd p = 0 else descOk (cpSd p)) && descOk (cpDd p) && auxOk p

/-! ### Acceptance (R234, R239) -/

/-- A tag's done bit sets (R239). -/
def Tag.setDone (g : Tag) : Tag := { g with done := true, doneSets := g.doneSets + 1 }
/-- A tag's error bit sets (R240). -/
def Tag.setErr (g : Tag) : Tag := { g with err := true, errSets := g.errSets + 1 }

/-- A tag's count rises and its done bit clears (R239). -/
def Core.acceptTag (c : Core) (t : Nat) : Core := c.modTag t fun g => { g with pending := g.pending + 1, done := false }

/-- A packet accepted into a queue of a cluster, numbered in order. -/
def enqueueCopy (s : State) (cl q : Nat) (e : CopyEnt) : State :=
  s.modCluster cl fun c => { c with queues := tmod c.queues q [] (· ++ [{ e with id := c.nextId }]), nextId := c.nextId + 1 }

/-- A packet of a core accepted: by the task slot that committed it, or from a GEN core (R239). -/
def acceptCopy (s : State) (cid : Nat) (k : Option Nat) (p : Patch) (packet : Value) : State :=
  let s := s.modCore cid fun c => c.acceptTag (cpTag packet)
  enqueueCopy s (clusterOf cid) (cpQueue packet)
    { id := 0, packet := packet, cid := cid, task := k, lease := p.lease, gen := ((s.lease p.lease).map (·.gen)).getD 0,
      esc := hEsc p.hdr, pk := none, next := 0, rin := (s.core cid).rin }

/-! ### Instructions -/

/-- `cpy` (R266): posts a packet to its own position's queue. -/
def execCpy (h : Head) (m : MemF) (s : State) : Host.Outcome State Fault Refusal :=
  issue (.cpy h m) s fun h e v s =>
    let q := cpQueue v.a
    if ! packetOk v.a then e.raise { malformed with lsid := some m.lsid.toNat } s
    else if q ≠ posOf s e.cid then e.raise { cause := 0x09, lsid := some m.lsid.toNat } s
    else if ! (copyRoom s (clusterOf e.cid) q && tagRoom e.c (cpTag v.a)) then s
    else if e.pinned then e.done (acceptCopy (release s e.cid m.osc) e.cid none e.p v.a)
    else
      let s := s.modCluster (clusterOf e.cid) fun c => { c with resv := tmod c.resv q 0 (· + 1) }
      let s := s.modCore e.cid fun c => c.modTag (cpTag v.a) fun g => { g with resv := g.resv + 1 }
      e.capture h (some m.lsid.toNat) (.cpy v.a m.osc) none s

/-- `cpyqf` (R267): waits until the named queues hold no packet accepted before; the result says whether one that it waited
for ended with an error. -/
def execCpyqf (h : Head) (self sys : Bool) (osc : Option Scope) (s : State) : Host.Outcome State Fault Refusal :=
  issue (.cpyqf h self sys osc) s fun h e _ s =>
    let ps := cpyqfPackets s e.cid e.lease self sys
    let cl := s.cluster (clusterOf e.cid)
    let wait := if e.ss.wait.isEmpty then cl.nextId :: ps.map (·.2.id) else e.ss.wait
    if ps.isEmpty then
      let from' := wait.headD 0
      let mine := fun (q l : Nat) => (self && q = posOf s e.cid) || (sys && (q = 16 || q = 17) && l = e.lease)
      let bad := cl.errs.any fun x => mine x.2.1 x.2.2 && (decide (from' ≤ x.1) || wait.tail.contains x.1)
      e.result h (scalar bad.toNat) (acquire s e.cid osc)
    else if e.ss.wait.isEmpty then putInst s e.cid e.k (e.inst.modSlot e.slot fun q => { q with wait := wait })
    else s

/-- `tagw` (R268): waits for tags. -/
def execTagw (h : Head) (osc : Option Scope) (any : Bool) (s : State) : Host.Outcome State Fault Refusal :=
  issue (.tagw h osc any) s fun h e v s =>
    let m := lo64 v.a
    if tagwReady e.c m any then e.result h (scalar (tagMap m e.c.tagComplete)) (acquire s e.cid osc) else s

/-- `tagff` (R269): the lowest masked tag whose done bit is 1, or 64. -/
def execTagff (h : Head) (osc : Option Scope) (s : State) : Host.Outcome State Fault Refusal :=
  issue (.tagff h osc) s fun h e v s =>
    match (List.range 64).find? fun t => (lo64 v.a).testBit t && (e.c.tag t).done with
    | some t => e.result h (scalar t) (acquire s e.cid osc)
    | none => e.result h (scalar 64) s

/-- `tagclr` (R269): the masked done bits; at commit those bits and the masked error bits are cleared. -/
def execTagclr (h : Head) (s : State) : Host.Outcome State Fault Refusal :=
  issue (.tagclr h) s fun h e v s =>
    let d := tagMap (lo64 v.a) fun t => (e.c.tag t).done
    let r := tagMap (lo64 v.a) fun t => (e.c.tag t).err
    let sets := ((List.range 64).filter (lo64 v.a).testBit).map fun t => (t, (e.c.tag t).doneSets, (e.c.tag t).errSets)
    e.capture h none (.tagclr (BitVec.ofNat 64 d) (BitVec.ofNat 64 r) sets) (some (scalar d)) s

/-- `tagrd` (R269): a bitmap of all tags: complete, done or error. -/
def execTagrd (h : Head) (sel : BitVec 2) (s : State) : Host.Outcome State Fault Refusal :=
  issue (.tagrd h sel) s fun h e _ s =>
    let f := fun t => match sel with
      | 0 => e.c.tagComplete t
      | 1 => (e.c.tag t).done
      | _ => (e.c.tag t).err
    e.result h (scalar (tagMap (2 ^ 64 - 1) f)) s

end Sys2Proof.Machine
end

