-- ==== Sys2Proof/Machine/MangleOps.lean ====
section
/-! DEFINITION. The mangle's instructions (R270 to R274) and the limits of a run (R242 to R244). -/

namespace Sys2Proof.Machine

/-! ### Formats (R244) -/

/-- The formats of the active and shadow planes once everything queued has taken effect (R244). -/
def Mangle.fmtsAfter (m : Mangle) : Nat × Nat :=
  m.queue.foldl (fun f q => match q.op with
    | .load fmt _ _ => (f.1, fmt.toNat)
    | .swap => (f.2, f.1)
    | _ => f) (m.active.fmt.toNat, m.shadow.fmt.toNat)

/-! ### In-channels that something reads (R141, R163, R244) -/

/-- The in-channels of the current context's read entries. -/
def Core.readChans (c : Core) : List Nat :=
  if c.isPinned then (List.range c.pinNr).map fun j => natBits (c.pinRead j) 0 4 else []

/-- The masks of a pinned block's `redn` instructions. -/
def Core.rednChans (c : Core) : List Nat :=
  if c.isPinned then
    (List.range 12).flatMap fun j => [0, 1].flatMap fun a => match decode (c.stageWord a j) with
      | .ok (.redn _ _ m _ _ _) => maskChans m
      | _ => []
  else []

/-- Inputs of router elements (R163). -/
def Core.elemType (c : Core) (e : Nat) : Nat := natBits (c.cfg 7 (16 + 3 * e)) 28 4
/-- IN0. -/
def Core.elemIn0 (c : Core) (e : Nat) : Nat := natBits (c.cfg 7 (16 + 3 * e)) 24 4
/-- IN1. -/
def Core.elemIn1 (c : Core) (e : Nat) : Nat := natBits (c.cfg 7 (16 + 3 * e)) 20 4
/-- IN2. -/
def Core.elemIn2 (c : Core) (e : Nat) : Nat := natBits (c.cfg 7 (16 + 3 * e)) 16 4
/-- The inputs an element reads. -/
def Core.elemIns (c : Core) (e : Nat) : List Nat :=
  match c.elemType e with
  | 1 => [c.elemIn0 e, c.elemIn1 e]
  | 2 => [c.elemIn0 e, c.elemIn1 e, c.elemIn2 e]
  | 3 | 4 => [c.elemIn0 e]
  | _ => []

/-- Every element input of the current context. -/
def Core.elemChans (c : Core) : List Nat := (List.range 16).flatMap c.elemIns

/-- The ASEL, if ASEN. -/
def Core.aselChans (c : Core) : List Nat := if c.isPinned && c.pinAsen then [c.pinAsel] else []

/-! ### The limits of a run (R244) -/

/-- Whether a descriptor's extent or alignment breaks a limit that `mzero` shares: alignment, then T. -/
def extentCause (c : Core) (d : Nat) : Option (BitVec 8) :=
  if mdTc d = 0 ∨ mdT d % 128 ≠ 0 then some 0x07
  else if c.capT < mdT d + mdTc d * 4096 then some 0x05
  else none

/-- The first limit of R244 and R273 that a run breaks, with its SUB. `a` is the whole operand. -/
def runCause (c : Core) (sh : BitVec 5) (a : Value) : Option (BitVec 8 × BitVec 8) :=
  let d := lo64 a
  let f := shapeFmt sh
  if a.toNat ≠ d ∨ d.testBit 19 ∨ mdTc d = 0 ∨ mdT d % 128 ≠ 0 ∨ mdS d % 64 ≠ 0 then some (0x07, 0)
  else if c.capT < mdT d + mdTc d * 4096 then some (0x05, 0)
  else if ! mdSrck d ∧ c.pleat.swm.toNat < mdS d + mdTc d * tileRows sh * 64 then some (0x04, 0)
  else if mdSrck d ∧ (! c.inBound (mdIn d) ∨ c.readChans.contains (mdIn d) ∨ c.aselChans.contains (mdIn d) ∨
      c.elemChans.contains (mdIn d)) then some (0x0C, 0)
  else if widthClass f ≠ widthClass c.mangle.fmtsAfter.1 ∨ ! sclOk f (shapeScl sh) ∨ (mdCont d ∧ ! mdAcc d) then
    some (0x0E, 1)
  else none

/-- An entry appended to the mangle's queue, numbered in arm order (R245). -/
def Core.queueMangle (c : Core) (op : MOp) : Core :=
  { c with mangle := { c.mangle with
      queue := c.mangle.queue ++ [{ id := c.mangle.nextId, op := op, started := false, tile := 0, rows := [] }],
      nextId := c.mangle.nextId + 1 } }

/-- Whether the element check is off: unit 11 field 3 with the lease's check-off permission (R248). -/
def chkOff (c : Core) (p : Patch) : Bool := (c.cfg 11 3).testBit 0 && p.perms.getLsbD 5

/-- A plane's load queued; one from global memory takes its place at the GEN port (R271, R233). -/
def armLoad (s : State) (cid lease : Nat) (fmt : BitVec 3) (src : BitVec 64) (ls : List Loc) : State :=
  let r := ownReq s lease (.plane (s.core cid).mangle.nextId) []
  s.modCore cid fun c =>
    let c := c.queueMangle (.load fmt src ls)
    if src.getLsbD 63 then { c with gen := c.gen ++ [r] } else c

/-! ### Instructions -/

/-- The lines of an `mload` source (R271). -/
def loadLines (n va : Nat) : List (Nat × Nat) := (List.range (n / 64)).map fun i => (i, (va + 64 * i) % 2 ^ 48)

/-- `mload` at fire (R271): its checks; the targets of its lines where it reads global memory. -/
def mloadCheck (s : State) (e : Env) (fmt : Nat) (a : Value) : Checked (List Loc) :=
  let scl := bitsOf a 62 1 = 1
  let n := 2048 + scaleBytes fmt scl
  let o := bitsOf a 0 48
  if bitsOf a 48 14 ≠ 0 ∨ o % 64 ≠ 0 then .bad { cause := 0x07, addr := BitVec.ofNat 64 o }
  else if bitsOf a 63 1 = 0 then
    if e.c.pleat.swm.toNat < o + n then .bad { cause := 0x04, addr := BitVec.ofNat 64 o } else .ok []
  else match globalPieces s e.cid e.p .load 64 none false (loadLines n o) with
    | .bad x => .bad x
    | .hold => .hold
    | .ok ps => .ok (ps.map (·.loc))

/-- `mload` (R251, R271): waits for a run slot and fills the shadow plane, in commit order; a GEN core's performs at fire. -/
def execMload (h : Head) (ec : EC) (s : State) : Host.Outcome State Fault Refusal :=
  issue (.mload h ec) s fun h e v s =>
    let fmt := planeFmt ec
    let src := BitVec.ofNat 64 (lo64 v.a)
    if ! mloadReady e.c (e.pinned && bitsOf v.a 63 1 = 1) then s
    else match mloadCheck s e fmt v.a with
    | .bad x => e.raise x s
    | .hold => s
    | .ok ls =>
      if e.pinned then
        if sclOk fmt (src.getLsbD 62) then
          e.result h ack (armLoad s e.cid e.lease (BitVec.ofNat 3 fmt) src ls)
        else e.raise { cause := 0x0E, sub := 1 } s
      else e.capture h none (.mload (BitVec.ofNat 3 fmt) src ls) (some ack) s

/-- `mswap` (R272): queues a swap of the planes at commit. -/
def execMswap (h : Head) (s : State) : Host.Outcome State Fault Refusal :=
  issue (.mswap h) s fun h e _ s => e.capture h none .mswap (some ack) s

/-- `marm` (R273): arms a run at commit; a GEN core's is checked and armed as it fires. -/
def execMarm (h : Head) (shape : BitVec 5) (s : State) : Host.Outcome State Fault Refusal :=
  issue (.marm h shape) s fun h e v s =>
    if ! marmReady e.c.mangle then s
    else if e.pinned then
      match runCause e.c shape v.a with
      | some x => e.raise { cause := x.1, sub := x.2 } s
      | none => e.result h ack (s.modCore e.cid fun c => c.queueMangle (.run shape (BitVec.ofNat 64 (lo64 v.a))))
    else
      let s := s.modCore e.cid fun c => { c with mangle := { c.mangle with resv := c.mangle.resv + 1 } }
      e.capture h none (.marm shape v.a) (some ack) s

/-- `mfence` (R272): queues a fence at commit. -/
def execMfence (h : Head) (s : State) : Host.Outcome State Fault Refusal :=
  issue (.mfence h) s fun h e _ s => e.capture h none .mfence (some ack) s

/-- `mwait` (R272): waits for everything committed before its block instance started. -/
def execMwait (h : Head) (s : State) : Host.Outcome State Fault Refusal :=
  issue (.mwait h) s fun h e _ s => if mwaitReady e.c.mangle e.inst.mark then e.result h ack s else s

/-- `mchk` (R274): the check counters; CLR zeroes them at commit. -/
def execMchk (h : Head) (clr : Bool) (s : State) : Host.Outcome State Fault Refusal :=
  issue (.mchk h clr) s fun h e _ s =>
    let m := e.c.mangle
    let r := scalar (Nat.min m.checked (2 ^ 32 - 1) + 2 ^ 32 * Nat.min m.corrected (2 ^ 16 - 1) +
      2 ^ 48 * (chkOff e.c e.p).toNat)
    if clr then e.capture h none .mchk (some r) s else e.result h r s

/-- `mzero` (R274): zeroes an extent in arm order. -/
def execMzero (h : Head) (s : State) : Host.Outcome State Fault Refusal :=
  issue (.mzero h) s fun h e v s =>
    let d := lo64 v.a
    if v.a.toNat ≠ d ∨ natBits d 16 28 ≠ 0 then e.raise { cause := 0x07 } s
    else e.capture h none (.mzero (BitVec.ofNat 64 d)) (some ack) s

end Sys2Proof.Machine
end

