-- ==== Sys2Proof/Machine/PoolOps.lean ====
section
/-! DEFINITION. The pool's instructions (R129 to R137): `pleat`, its tickets, occupancy, the scratch watermark. -/

namespace Sys2Proof.Machine

/-- The permissions of a lease's function (R373). -/
def leasePerms (s : State) (l : Nat) : BitVec 8 := ((s.lease l).map fun L => (s.fn L.vf).perms).getD 0

/-- Runs and `mzero` entries not finished: their extents are armed (R130). -/
def Core.armed (c : Core) : List (Nat × Nat) :=
  c.mangle.queue.filterMap (fun q => match q.op with
    | .run _ d | .zero d => some (mdT d.toNat, mdTc d.toNat)
    | _ => none) ++ c.mangle.carries.map fun x => (x.base, x.tc)

/-- The highest end offset of an armed extent (R132 TEND). -/
def Core.tEnd (c : Core) : Nat := (c.armed.map fun x => x.1 + x.2 * 4096).foldl Nat.max 0

/-- Bytes of T that lie in an armed extent, each once (R132 TARMB); extents begin and end on 128 bytes (R244). -/
def Core.tArmed (c : Core) : Nat :=
  128 * ((List.range (c.tEnd / 128)).filter fun i => c.armed.any fun x => decide (x.1 ≤ 128 * i) && decide (128 * i < x.1 + x.2 * 4096)).length

/-- The watermark that a legality check compares (R130, R137). -/
def Core.swmHeld (c : Core) : Nat := (c.pleat.holds.map (·.2.toNat)).foldl Nat.max c.pleat.swm.toNat

/-- The legality check of R130: its code, 0 if the word is accepted. -/
def pleatCheck (s : State) (c : Core) (lease : Nat) (w : Nat) : Nat :=
  let g := natBits w 0 4
  let t := natBits w 4 4
  let sc := natBits w 8 4
  if c.pleat.lock then 6
  else if c.pleat.phase ≠ 0 then 5
  else if 6 ≤ c.act.getD 0 ∨ ! (leasePerms s lease).getLsbD 4 then 7
  else if natBits w 12 20 ≠ 0 ∨ 16 < g + t + sc then 1
  else if g + t + sc = 16 then 8
  else if g = 0 ∨ 256 < c.nTasks * frameRows c.frame g then 2
  else if t * 65536 < c.tEnd then 3
  else if sc * 65536 < c.swmHeld then 4
  else 0

/-- `pleat` (R134): a ticket at once; an accepted request reserves the handshake and is submitted at commit. -/
def execPleat (h : Head) (s : State) : Host.Outcome State Fault Refusal :=
  issue (.pleat h) s fun h e v s =>
    let w := bitsOf v.a 0 32
    let code := pleatCheck s e.c e.lease w
    if code = 0 then
      let s := s.modCore e.cid fun c => { c with pleat := { c.pleat with phase := 1, owner := some (e.slotK, e.inst.id) } }
      e.capture h none (.pleat (BitVec.ofNat 32 w)) (some (scalar (e.c.pleat.seq + 1).toNat)) s
    else e.capture h none .pleatRefused (some (scalar (e.c.pleat.seq.toNat + 2 ^ 16 + 2 ^ 17 * code))) s

/-- The result of `pleatw` and `pleatq` (R135). -/
def ticketResult (c : Core) (t code : Nat) (done : Bool) : Value :=
  scalar (2 ^ 32 * c.pleat.word.toNat + 2 ^ 16 * natBits t 0 16 + 16 * done.toNat + code)

/-- The block instance that fires, as a handshake's owner. -/
def Env.me (e : Env) : Option (Nat × Nat) := e.k.map fun k => (k, e.inst.id)

/-- `pleatw` (R135): waits for a request's completion. -/
def execPleatw (h : Head) (s : State) : Host.Outcome State Fault Refusal :=
  issue (.pleatw h) s fun h e v s =>
    let t := lo64 v.a
    match ticketState e.c e.me t with
    | (true, code, _) => e.result h (ticketResult e.c t code true) s
    | (false, _, true) => e.raise malformed s
    | (false, _, false) => s

/-- `pleatq` (R135): asks whether a request is complete. -/
def execPleatq (h : Head) (s : State) : Host.Outcome State Fault Refusal :=
  issue (.pleatq h) s fun h e v s =>
    let t := lo64 v.a
    let r := ticketState e.c e.me t
    e.result h (ticketResult e.c t r.2.1 r.1) s

/-- Live tasks of a core (R132 FLIVE). -/
def Core.fLive (c : Core) : Nat := (c.tasks.filter fun t => t.2.st != .free).length

/-- An occupancy register (R132). -/
def occRead (c : Core) (sel : Nat) : Nat :=
  let w := c.pleat.word
  let fr := frameRows c.frame (plG w)
  match sel with
  | 0 => w.toNat + 2 ^ 32 * c.pleat.seq.toNat + 2 ^ 48 * (decide (c.pleat.phase ≠ 0)).toNat + 2 ^ 49 * c.pleat.phase +
      2 ^ 52 * c.pleat.lock.toNat
  | 1 => c.nTasks + 2 ^ 8 * c.fLive + 2 ^ 16 * c.occ.fhwm + 2 ^ 24 * Nat.min 255 (256 / fr) + 2 ^ 32 * fr
  | 2 => c.pleat.swm.toNat + 2 ^ 32 * c.capS
  | 3 => c.cache.length + 2 ^ 32 * (c.cache.filter (·.dirty != 0)).length
  | 4 => c.occ.chit
  | 5 => c.occ.cmiss
  | 6 => c.tArmed % 2 ^ 32 + 2 ^ 32 * c.tEnd
  | 7 => c.dirtyQ.length + 2 ^ 32 * c.occ.dqhwm
  | 8 => c.occ.replay
  | 9 => c.occ.pacc % 2 ^ 32 + 2 ^ 32 * (c.occ.pref % 2 ^ 32)
  | _ => 0

/-- `occ` (R136): an occupancy register as it stands. -/
def execOcc (h : Head) (sel : BitVec 4) (s : State) : Host.Outcome State Fault Refusal :=
  issue (.occ h sel) s fun h e _ s => e.result h (scalar (occRead e.c sel.toNat)) s

/-- `swm` (R137): sets the watermark at commit; its value is held meanwhile. -/
def execSwm (h : Head) (s : State) : Host.Outcome State Fault Refusal :=
  issue (.swm h) s fun h e v s =>
    let m := bitsOf v.a 0 32
    if e.c.pleat.phase ≠ 0 then s
    else if m % 64 ≠ 0 then e.raise { cause := 0x07 } s
    else if e.c.capS < m then e.raise { cause := 0x04 } s
    else
      let old := (tgetD e.c.pleat.holds e.slotK 0).toNat
      let hs := tset e.c.pleat.holds e.slotK (BitVec.ofNat 32 (Nat.max old m))
      let s := s.modCore e.cid fun c => { c with pleat := { c.pleat with holds := hs } }
      e.capture h none (.swm (BitVec.ofNat 32 m)) none s

end Sys2Proof.Machine
end

