-- ==== Sys2Proof/Machine/Records.lean ====
section
/-! DEFINITION. Records that the device writes for software: the 32-byte completion record (R98, R111, R327, R345) and the 64-byte
fault record (R337). -/

namespace Sys2Proof.Machine

/-- A record in the layout of R98. -/
def record (ptag : BitVec 32) (status type field : Nat) (result : BitVec 64) (rin : Rin) (time : Nat) : BitVec 256 :=
  BitVec.ofNat 256 (ptag.toNat + 2 ^ 32 * (status % 256) + 2 ^ 40 * (type % 16) + 2 ^ 48 * (field % 65536) +
    2 ^ 64 * result.toNat + 2 ^ 128 * rin.toNat + 2 ^ 192 * (time % 2 ^ 64))

/-- A record written into a queue's completion ring (R85). -/
def postRecord (s : State) (q : Nat) (r : BitVec 256) : State :=
  s.modQueue q fun w => { w with recs := tset w.recs (w.ctail.toNat % Nat.max w.size 1) r, ctail := w.ctail + 1 }

/-- A fault record (R337). -/
def faultRecord (s : State) (p : Patch) (f : FaultInfo) (extra : Nat) : BitVec 512 :=
  let slot := match f.slot with
    | some n => n % 32
    | none => 128
  let lsid := match f.lsid with
    | some n => n % 32 + 128
    | none => 0
  let lane := match f.lane with
    | some n => n % 16 + 16
    | none => 0
  let chan := match f.chan with
    | some (out, j) => j % 16 + 16 * out.toNat + 128
    | none => 0
  let gen := ((s.lease p.lease).map (·.gen.toNat)).getD 0
  BitVec.ofNat 512 (bytesNat (
    num 1 f.cause.toNat ++ num 1 f.sub.toNat ++ num 1 f.flags.toNat ++ num 1 slot ++ num 1 f.task ++
    num 1 (f.ctx % 8 + 8 * (f.arm % 2) + 16 * (f.stage % 16)) ++ num 1 lsid ++ num 1 lane ++
    num 8 f.blk ++ num 8 f.addr.toNat ++ num 2 (xy12 f.px f.py) ++ num 2 p.lease ++ num 1 gen ++ num 1 chan ++ num 2 0 ++
    num 4 f.word ++ num 4 extra ++ num 4 f.rin.toNat ++ num 4 0 ++ num 8 f.time ++ num 8 (p.ptag.toNat + 2 ^ 32 * (p.queue % 1024))))

/-- A fault record kept in its lease's ring of 16 and counted, with a copy for the PF (R337). -/
def keepFault (s : State) (lease : Nat) (r : BitVec 512) : State :=
  let s := s.modLease lease fun L => { L with faults := lastN 16 (L.faults ++ [r]), faultCount := L.faultCount + 1 }
  pfEvent s 2 lease (natBytes 64 r.toNat)

end Sys2Proof.Machine
end

