-- ==== Sys2Proof/Machine/MemoryOps.lean ====
section
/-! DEFINITION. Loads, stores, gathers, prefetches, atomics and cache control (R250 to R265, R275): their firing. What is captured
performs at commit (Machine/Commit.lean); what is asked of the GEN port performs at its reply (Machine/Reply.lean). -/

namespace Sys2Proof.Machine

/-- The signed offset of a memory-format word. -/
def offsetOf (m : MemF) : Int := m.ofs.toInt

/-! ### Pool loads and stores (R255) -/

/-- Passes of a vector or line access to S (R125): the most distinct rows that one bank serves, for pieces of n bytes at offsets. -/
def passes (c : Core) (offs : List Nat) (n : Nat) : Nat :=
  let rows := (offs.flatMap fun o => (List.range (n / 4)).map fun i => c.roleAddr .s (o + 4 * i) / 64).eraseDups
  (rows.map fun r => (rows.filter fun q => q / 256 = r / 256).length).foldl Nat.max 1

/-- Replays of an access to S counted at the cores that serve it (R125, R132): pieces by core and offset. -/
def noteReplays (role : PoolRole) (ac : AC) (ps : List (Nat × Nat)) (s : State) : State :=
  if role = .s ∧ (ac = .v ∨ ac = .l) then
    (ps.map (·.1)).eraseDups.foldl (fun s cid => s.modCore cid fun c =>
      let offs := (ps.filter (·.1 = cid)).map (·.2)
      { c with occ := { c.occ with replay := sat64 (c.occ.replay + passes c offs (pieceBytes ac) - 1) } }) s
  else s

/-- The loaded value from the bytes of each place. -/
def loadedValue (ac : AC) (ps : List (Nat × List Byte)) : Value :=
  match ac with
  | .v => join 32 ((List.range 16).map fun l => ((ps.find? (·.1 = l)).map fun p => bytesNat p.2).getD 0)
  | ac => acValue ac ((ps.map (·.2)).headD [])

/-- Bytes of a pool role as a load finds them: in T under a run as R245 allows. -/
def readPool (s : State) (cid : Nat) (role : PoolRole) (o n : Nat) : List Byte :=
  let bs := (s.core cid).readRole role o n
  match role with
  | .s => bs
  | .t => (s.core cid).tileView (Config.mangleMix s.tick cid) o bs

/-- A load from pools performs at fire (R49, R151, R255): overlap with an atomic and poison first, then the bytes. -/
def Env.poolLoad (e : Env) (h : Head) (role : PoolRole) (ac : AC) (m : MemF) (ps : List PoolPlace) (s : State) : State :=
  let n := pieceBytes ac
  let l := m.lsid.toNat
  if ps.any fun p => overPoolAtomic e.inst l p.cid role p.off n then e.raise { malformed with lsid := some l } s
  else if ps.any fun p => (s.core p.cid).rolePoisoned role p.off n then e.raise { cause := 0x0B, lsid := some l } s
  else
    let bs := ps.map fun p => (p.lane, forwardPool e.inst l p.cid role p.off (readPool s p.cid role p.off n))
    let s := noteReplays role ac (ps.map fun p => (p.cid, p.off)) s
    e.result h (loadedValue ac bs) (acquire s e.cid m.osc)

/-- The pieces that a pool store writes (R255): the lanes in ascending order. -/
def storePieces (ac : AC) (b : Value) (ps : List PoolPlace) : List (Nat × Nat × List Byte) :=
  match ac with
  | .v => ps.map fun p => (p.cid, p.off, natBytes 4 (elem b 32 p.lane))
  | ac => ps.map fun p => (p.cid, p.off, acStoreBytes ac b)

/-- Pieces written into pools. -/
def writePool (s : State) (role : PoolRole) (ps : List (Nat × Nat × List Byte)) : State :=
  ps.foldl (fun s p => s.modCore p.1 fun c => c.writeRole role p.2.1 p.2.2) s

/-- A pool store: captured in a fired block, performed as the instance reaches the stage in a pinned one (R255). A `stn` to
several cores is one capture for each core. -/
def Env.poolStore (e : Env) (h : Head) (role : PoolRole) (ac : AC) (m : MemF) (ps : List (Nat × Nat × List Byte)) (s : State) : State :=
  if e.pinned then e.done (writePool (noteReplays role ac (ps.map fun p => (p.1, p.2.1)) s) role ps)
  else
    e.update (fun x =>
      { x.fire e.slot h none none with
        caps := x.caps ++ (if ps.isEmpty then [e.cid] else (ps.map (·.1)).eraseDups).map fun cid =>
          { slot := e.slot, lsid := some m.lsid.toNat, eff := .poolStore role cid ((ps.filter (·.1 = cid)).map (·.2)),
            t0 := .none, t1 := .none } }) s

/-- The scope of a store's capture: a scoped pool store is a release (R48, R283), captured before its bytes. -/
def Env.releaseFirst (e : Env) (m : MemF) (s : State) : State :=
  match m.osc with
  | none => s
  | some sc => e.update (fun x =>
      { x with caps := x.caps ++ [{ slot := e.slot, lsid := some m.lsid.toNat, eff := .release sc, t0 := .none, t1 := .none }] }) s

/-- An own-pool load. -/
def Env.ownLoad (e : Env) (h : Head) (role : PoolRole) (ac : AC) (m : MemF) (v : Vals) (s : State) : State :=
  if e.c.holdRole role then s
  else match poolPlaces e.cid e.c role ac m.lsid.toNat (offsetOf m) (laneWords ac v.a) with
    | .bad x => e.raise x s
    | .hold => s
    | .ok ps => e.poolLoad h role ac m ps s

/-- An own-pool store. -/
def Env.ownStore (e : Env) (h : Head) (role : PoolRole) (ac : AC) (m : MemF) (v : Vals) (s : State) : State :=
  if e.c.holdRole role then s
  else match poolPlaces e.cid e.c role ac m.lsid.toNat (offsetOf m) (laneWords ac v.a) with
    | .bad x => e.raise x s
    | .hold => s
    | .ok ps => e.poolStore h role ac m (storePieces ac v.b ps) (e.releaseFirst m s)

/-- `lds` (R254, R255): load from scratch. -/
def execLds (h : Head) (ac : AC) (m : MemF) (s : State) : Host.Outcome State Fault Refusal :=
  issue (.lds h ac m) s fun h e v s => e.ownLoad h .s ac m v s

/-- `sts` (R254, R255): store to scratch. -/
def execSts (h : Head) (ac : AC) (m : MemF) (s : State) : Host.Outcome State Fault Refusal :=
  issue (.sts h ac m) s fun h e v s => e.ownStore h .s ac m v s

/-- `ldt` (R254, R255): load from the tile store. -/
def execLdt (h : Head) (ac : AC) (m : MemF) (s : State) : Host.Outcome State Fault Refusal :=
  issue (.ldt h ac m) s fun h e v s => e.ownLoad h .t ac m v s

/-- `stt` (R254, R255): store to the tile store. -/
def execStt (h : Head) (ac : AC) (m : MemF) (s : State) : Host.Outcome State Fault Refusal :=
  issue (.stt h ac m) s fun h e v s => e.ownStore h .t ac m v s

/-- `ldn` (R252, R254): load from a neighbour's scratch. -/
def execLdn (h : Head) (ac : AC) (m : MemF) (s : State) : Host.Outcome State Fault Refusal :=
  issue (.ldn h ac m) s fun h e v s =>
    match neighbourPlaces s e.cid e.lease ac m.lsid.toNat (offsetOf m) (laneWords ac v.a) with
    | .bad x => e.raise x s
    | .hold => s
    | .ok ps => e.poolLoad h .s ac m ps s

/-- `stn` (R252, R254): store to a neighbour's scratch. -/
def execStn (h : Head) (ac : AC) (m : MemF) (s : State) : Host.Outcome State Fault Refusal :=
  issue (.stn h ac m) s fun h e v s =>
    match neighbourPlaces s e.cid e.lease ac m.lsid.toNat (offsetOf m) (laneWords ac v.a) with
    | .bad x => e.raise x s
    | .hold => s
    | .ok ps => e.poolStore h .s ac m (storePieces ac v.b ps) (e.releaseFirst m s)

/-! ### GEN streams (R231, R232, R258) -/

/-- Stream fields: base, stride, enabled, direction, access code, count (R231). -/
def Core.streamBase (c : Core) (s : Nat) : Nat := c.cfg 10 (4 * s) + 2 ^ 32 * natBits (c.cfg 10 (4 * s + 1)) 0 16
/-- STRIDE. -/
def Core.streamStride (c : Core) (s : Nat) : Int := sgn 32 (c.cfg 10 (4 * s + 2))
/-- EN. -/
def Core.streamOn (c : Core) (s : Nat) : Bool := (c.cfg 10 (4 * s + 3)).testBit 31
/-- COUNT. -/
def Core.streamCount (c : Core) (s : Nat) : Nat := natBits (c.cfg 10 (4 * s + 3)) 0 24 + 1
/-- The element counter e. -/
def Core.streamAt (c : Core) (s : Nat) : Nat := tgetD c.streams s 0
/-- The stream's next address. -/
def Core.streamVa (c : Core) (s : Nat) : Nat :=
  wrap 48 ((c.streamBase s : Int) + (c.streamAt s : Nat) * c.streamStride s)
/-- Whether the stream has ended. -/
def Core.streamEnded (c : Core) (s : Nat) : Bool := decide (c.streamCount s ≤ c.streamAt s)

/-- The latch of a stream matches an address: its leaf size, physical address and permissions as an entry (R232). -/
def Core.latch (c : Core) (k va : Nat) : Option (Bool × BitVec 64) :=
  let f := c.cfg 10 (34 + 4 * k)
  let big := f.testBit 1
  let page := c.cfg 10 (32 + 4 * k)
  if f.testBit 0 ∧ (if big then page / 2 ^ 13 = va / 2 ^ 29 else page = va / 2 ^ 16) then
    some (big, mkEntry 0 (c.cfg 10 (33 + 4 * k) * 65536) 0 false (f.testBit 5) (f.testBit 4) false (f.testBit 3) (f.testBit 2) true)
  else none

/-- Set a configuration word of the current context, which only the placer and the GEN port's latches do (R232). -/
def Core.setCfg (c : Core) (unit field v : Nat) : Core :=
  match c.act with
  | none => c
  | some a => c.modCtx a fun x => { x with active := tset x.active (unit * 2048 + field) (BitVec.ofNat 32 v) }

/-- The latch replaced by the translation of a DEST 0 page (R232). -/
def Core.setLatch (c : Core) (k va : Nat) (big : Bool) (e : BitVec 64) : Core :=
  let page := if big then va / 2 ^ 29 * 2 ^ 13 else va / 2 ^ 16
  let fl := (peTier e).toNat * 32 + (peRec e).toNat * 16 + (peW e).toNat * 8 + (peR e).toNat * 4 + big.toNat * 2 + 1
  ((c.setCfg 10 (32 + 4 * k) page).setCfg 10 (33 + 4 * k) (pePa e / 65536)).setCfg 10 (34 + 4 * k) fl

/-- Every latch cleared, as a RELATCH does (R232). -/
def Core.clearLatches (c : Core) : Core := (List.range 8).foldl (fun c k => c.setCfg 10 (34 + 4 * k) 0) c

/-- Translation of a stream's address: its latch, or R229 and a new latch (R232). -/
def streamXlate (s : State) (cid lease k va : Nat) : State × Xlate :=
  let c := s.core cid
  match c.latch k va, s.lease lease with
  | some (big, e), some L =>
    (s, match locOf L big e va with
      | some l => .ok l e
      | none => .unmapped)
  | _, _ =>
    match translate s cid lease va, lookup s cid lease va with
    | .ok l e, some (big, _) => (if peDest e = 0 then s.modCore cid fun c => c.setLatch k va big e else s, .ok l e)
    | x, _ => (s, x)

/-- The pieces of a stream's access, checked in order (R258, R275). -/
def streamPieces (s : State) (cid : Nat) (p : Patch) (gk : GKind) (n lsid k : Nat) (lanes : Bool) :
    List (Nat × Nat) → State × Checked (List GPiece)
  | [] => (s, .ok [])
  | (l, va) :: r =>
    let bad := fun (x : BitVec 8) =>
      Checked.bad (α := List GPiece)
        { cause := x, lsid := some lsid, lane := if lanes then some l else none, addr := BitVec.ofNat 64 va }
    if va % n ≠ 0 then (s, bad 0x07)
    else match streamXlate s cid p.lease k va with
      | (s, .unmapped) => (s, bad 0x08)
      | (s, .poisoned) => (s, bad 0x0B)
      | (s, .moving) => (s, .hold)
      | (s, .ok loc e) =>
        if ! permOk gk loc e then (s, bad 0x09)
        else if escDenied p gk loc then (s, bad 0x11)
        else match streamPieces s cid p gk n lsid k lanes r with
          | (s, .ok ps) => (s, .ok ({ lane := l, va := va, loc := loc } :: ps))
          | x => x

/-! ### Global loads (R256, R258, R259) -/

/-- A lease's translation epoch (R230). -/
def leaseEpoch (s : State) (l : Nat) : Nat := ((s.lease l).map (·.epoch)).getD 0

/-- The elements of a request, by lane or element number; an inactive one is none. -/
def elemsOf (count : Nat) (ps : List GPiece) : List (Option (Nat × Loc)) :=
  (List.range count).map fun i => (ps.find? (·.lane = i)).map fun p => (p.va, p.loc)

/-- A request for the firing instruction. -/
def Env.request (e : Env) (kind : ReqKind) (ac : AC) (gather na : Bool) (m : MemF) (elems : List (Option (Nat × Loc)))
    (data : List Byte) (s : State) : GenReq :=
  { kind := kind, pinned := e.pinned, task := e.slotK, inst := e.inst.id, slot := e.slot, lsid := m.lsid.toNat, ac := ac,
    gather := gather, na := na, elems := elems, data := data, osc := m.osc, sc := m.sc, lease := e.lease,
    gen := genOf s e.lease, epoch := leaseEpoch s e.lease }

/-- A request accepted by the core's GEN port (R233). -/
def pushGen (s : State) (cid : Nat) (r : GenReq) : State := s.modCore cid fun c => { c with gen := c.gen ++ [r] }

/-- A load asks the GEN port and waits for its reply. -/
def Env.askLoad (e : Env) (ac : AC) (gather na : Bool) (m : MemF) (count : Nat) (ps : List GPiece) (s : State) : State :=
  if ps.any fun p => overGlobalAtomic e.inst m.lsid.toNat p.loc (pieceBytes ac) then
    e.raise { malformed with lsid := some m.lsid.toNat } s
  else if e.c.genRoom then
    pushGen (e.update (fun x => x.modSlot e.slot fun q => { q with ph := .pending }) s) e.cid
      (e.request .load ac gather na m (elemsOf count ps) [] s)
  else s

/-- Elements of a contiguous access: 16 lanes of `.v`, else 1. -/
def contCount (ac : AC) : Nat := if ac = .v then 16 else 1

/-- The stream an access names (R258). -/
def streamNo (m : MemF) : Nat := natBits m.ofs.toNat 0 3

/-- A stream's counter advances (R231). -/
def bumpStream (s : State) (cid k : Nat) : State :=
  s.modCore cid fun c => { c with streams := tset c.streams k (c.streamAt k + 1) }

/-- `ldg` (R254, R256; in a GEN block R258): load from global memory. -/
def execLdg (h : Head) (ac : AC) (na : Bool) (m : MemF) (s : State) : Host.Outcome State Fault Refusal :=
  issue (.ldg h ac na m) s fun h e v s =>
    if e.pinned then
      let k := streamNo m
      if e.c.streamEnded k then e.update (fun x => x.nullOut e.slot h) s
      else if ! e.c.genRoom then s
      else match streamPieces s e.cid e.p .load (pieceBytes ac) m.lsid.toNat k (ac = .v) (contiguous ac (e.c.streamVa k)) with
        | (s, .bad x) => e.raise x s
        | (s, .hold) => s
        | (s, .ok ps) => e.askLoad ac false na m (contCount ac) ps (bumpStream s e.cid k)
    else
      match globalPieces s e.cid e.p .load (pieceBytes ac) (some m.lsid.toNat) (ac = .v) (contiguous ac (globalVa v.a (offsetOf m))) with
      | .bad x => e.raise x s
      | .hold => s
      | .ok ps => e.askLoad ac false na m (contCount ac) ps s

/-- `ldgv` (R259): gather from global memory. -/
def execLdgv (h : Head) (ac : AC) (na : Bool) (m : MemF) (s : State) : Host.Outcome State Fault Refusal :=
  issue (.ldgv h ac na m) s fun _ e v s =>
    match globalPieces s e.cid e.p .load (acBytes ac) (some m.lsid.toNat) true (scattered ac v.a v.b (offsetOf m)) with
    | .bad x => e.raise x s
    | .hold => s
    | .ok ps => e.askLoad ac true na m (if ac = .z64 then 8 else 16) ps s

/-! ### Global stores (R256, R258, R259) -/

/-- The bytes that each piece of a contiguous store writes. -/
def contBytes (ac : AC) (b : Value) (lane : Nat) : List Byte :=
  match ac with
  | .v => natBytes 4 (elem b 32 lane)
  | ac => acStoreBytes ac b

/-- The bytes of a scatter's element: the low bytes of C lane l, or pair j for AC 3 (R259). -/
def scatBytes (ac : AC) (c : Value) (e : Nat) : List Byte :=
  natBytes (acBytes ac) (if ac = .z64 then elem c 64 e else elem c 32 e)

/-- Whether a streaming store has been cancelled by a `nulls` of its instance, and whether that is still open (R177). -/
def Env.cancelOpen (e : Env) (l : Nat) : Bool :=
  (e.inst.nullsSlots l).any fun j => (e.inst.mayFire true).getD j false

/-- A streaming store's request, or a scatter's in a GEN block: the slot fires, the request performs in its turn (R233). -/
def Env.askStore (e : Env) (ac : AC) (gather na : Bool) (m : MemF) (count : Nat) (ps : List GPiece) (data : List Byte)
    (s : State) : State :=
  pushGen (e.done s) e.cid (e.request .store ac gather na m (elemsOf count ps) data s)

/-- `stg` (R254, R256; in a GEN block R258): store to global memory. -/
def execStg (h : Head) (ac : AC) (na : Bool) (m : MemF) (s : State) : Host.Outcome State Fault Refusal :=
  issue (.stg h ac na m) s fun h e v s =>
    let l := m.lsid.toNat
    if e.pinned then
      let k := streamNo m
      if e.cancelOpen l ∨ ! e.c.genRoom then s
      else if e.c.streamEnded k then e.update (fun x => x.nullOut e.slot h) s
      else if e.inst.nulls.contains l then e.askStore ac false na m 0 [] [] (bumpStream s e.cid k)
      else match streamPieces s e.cid e.p .store (pieceBytes ac) l k (ac = .v) (contiguous ac (e.c.streamVa k)) with
        | (s, .bad x) => e.raise x s
        | (s, .hold) => s
        | (s, .ok ps) => e.askStore ac false na m (contCount ac) ps (acStoreBytes ac v.b) (bumpStream s e.cid k)
    else
      match globalPieces s e.cid e.p .store (pieceBytes ac) (some l) (ac = .v) (contiguous ac (globalVa v.a (offsetOf m))) with
      | .bad x => e.raise x s
      | .hold => s
      | .ok ps => e.capture h (some l)
          (.globalStore (ps.map fun p => (p.va, p.loc, contBytes ac v.b p.lane)) ac na false false m.osc m.sc) none s

/-- `stgv` (R259): scatter to global memory. -/
def execStgv (h : Head) (ac : AC) (na : Bool) (m : MemF) (s : State) : Host.Outcome State Fault Refusal :=
  issue (.stgv h ac na m) s fun h e v s =>
    let l := m.lsid.toNat
    let n := if ac = .z64 then 8 else 16
    match globalPieces s e.cid e.p .store (acBytes ac) (some l) true (scattered ac v.a v.b (offsetOf m)) with
    | .bad x => e.raise x s
    | .hold => s
    | .ok ps =>
      if e.pinned then
        if e.cancelOpen l ∨ ! e.c.genRoom then s
        else if e.inst.nulls.contains l then e.askStore ac true na m 0 [] [] s
        else e.askStore ac true na m n ps ((List.range n).flatMap (scatBytes ac v.c)) s
      else e.capture h (some l)
        (.globalStore (ps.map fun p => (p.va, p.loc, scatBytes ac v.c p.lane)) ac na false false m.osc m.sc) none s

/-- `prf` (R260): asks C to fill a line; it never faults. On a page in migration it waits (R229, R257). -/
def execPrf (h : Head) (na : Bool) (m : MemF) (s : State) : Host.Outcome State Fault Refusal :=
  issue (.prf h na m) s fun _ e v s =>
    let va := globalVa v.a (offsetOf m) / 64 * 64
    match translate s e.cid e.lease va with
    | .ok l pe =>
      let q := cLookup s e.cid (va / 64) l
      if peR pe && peDest pe = 0 && ! readBad s e.lease l && q.2.isNone then
        let s' := heard (countRead q.1 e.lease l 64) e.cid l
        e.done (cFill s' e.cid (va / 64) l (bytesValue (nodeRead q.1 e.lease l 64)) false (! na))
      else e.done s
    | .moving => s
    | _ => e.done s

/-! ### Atomics (R262 to R264) -/

/-- Bytes of an atomic. -/
def atBytes (w : Bool) : Nat := if w then 8 else 4

/-- An atomic's access code, for the checks. -/
def atAc (w : Bool) : AC := if w then .z64 else .z32

/-- The low n bits of an operand. -/
def lowBits (w : Bool) (v : Value) : Nat := bitsOf v 0 (8 * atBytes w)

/-- A pool atomic captured (R262). -/
def Env.poolAtomic (e : Env) (h : Head) (op : AtOp) (w : Bool) (m : MemF) (v : Vals) (ps : List PoolPlace) (s : State) : State :=
  match ps with
  | [] => s
  | p :: _ => e.capture h (some m.lsid.toNat) (.poolAtomic p.cid p.off op w (lowBits w v.b) (lowBits w v.c) m.osc) none s

/-- `atms` (R262 to R264): atomic on the core's own scratch. -/
def execAtms (h : Head) (op : AtOp) (wide : Bool) (m : MemF) (s : State) : Host.Outcome State Fault Refusal :=
  issue (.atms h op wide m) s fun h e v s =>
    if e.c.holdS then s
    else match poolPlaces e.cid e.c .s (atAc wide) m.lsid.toNat (offsetOf m) (laneWords (atAc wide) v.a) with
      | .bad x => e.raise x s
      | .hold => s
      | .ok ps => e.poolAtomic h op wide m v ps s

/-- `atmn` (R262 to R264): atomic on a neighbour's scratch. -/
def execAtmn (h : Head) (op : AtOp) (wide : Bool) (m : MemF) (s : State) : Host.Outcome State Fault Refusal :=
  issue (.atmn h op wide m) s fun h e v s =>
    match neighbourPlaces s e.cid e.lease (atAc wide) m.lsid.toNat (offsetOf m) (laneWords (atAc wide) v.a) with
    | .bad x => e.raise x s
    | .hold => s
    | .ok ps => e.poolAtomic h op wide m v ps s

/-- `atmg` (R262 to R264): atomic on global memory. -/
def execAtmg (h : Head) (op : AtOp) (wide : Bool) (m : MemF) (s : State) : Host.Outcome State Fault Refusal :=
  issue (.atmg h op wide m) s fun h e v s =>
    match globalPieces s e.cid e.p .atomic (atBytes wide) (some m.lsid.toNat) false [(0, globalVa v.a (offsetOf m))] with
    | .bad x => e.raise x s
    | .hold => s
    | .ok ps =>
      match ps with
      | [] => s
      | p :: _ => e.capture h (some m.lsid.toNat)
          (.globalAtomic p.va p.loc op wide (lowBits wide v.b) (lowBits wide v.c) m.osc m.sc) none s

/-! ### Cache control (R265) -/

/-- A `cctl` captured: form 0 wb, 1 inv, 2 wbinv, 3 wball, 4 invall, and its line. -/
def Env.cctl (e : Env) (h : Head) (form : Nat) (m : MemF) (a : Value) (s : State) : State :=
  e.capture h (some m.lsid.toNat) (.cctl form (globalVa a (offsetOf m) / 64)) none s

/-- `cctl.wb` (R265). -/
def execCctlWb (h : Head) (m : MemF) (s : State) : Host.Outcome State Fault Refusal :=
  issue (.cctlWb h m) s fun h e v s => e.cctl h 0 m v.a s
/-- `cctl.inv` (R265). -/
def execCctlInv (h : Head) (m : MemF) (s : State) : Host.Outcome State Fault Refusal :=
  issue (.cctlInv h m) s fun h e v s => e.cctl h 1 m v.a s
/-- `cctl.wbinv` (R265). -/
def execCctlWbinv (h : Head) (m : MemF) (s : State) : Host.Outcome State Fault Refusal :=
  issue (.cctlWbinv h m) s fun h e v s => e.cctl h 2 m v.a s
/-- `cctl.wball` (R265). -/
def execCctlWball (h : Head) (m : MemF) (s : State) : Host.Outcome State Fault Refusal :=
  issue (.cctlWball h m) s fun h e _ s => e.cctl h 3 m 0 s
/-- `cctl.invall` (R265). -/
def execCctlInvall (h : Head) (m : MemF) (s : State) : Host.Outcome State Fault Refusal :=
  issue (.cctlInvall h m) s fun h e _ s => e.cctl h 4 m 0 s

end Sys2Proof.Machine
end

