-- ==== Sys2Proof/Machine/Sealing.lean ====
section
/-! DEFINITION. The sealing instructions (R328 to R332). -/

namespace Sys2Proof.Machine

/-- `rinr` (R328): current RIN, sealed RIN, or retention point; in class S `.ret` is the last save's RIN. -/
def execRinr (h : Head) (sel : BitVec 2) (s : State) : Host.Outcome State Fault Refusal :=
  issue (.rinr h sel) s fun h e _ s =>
    let r := match sel with
      | 0 => e.c.rin
      | 1 => s.sl.s
      | _ => if hClassS e.p.hdr then e.p.saveRin else e.p.retention
    e.result h (scalar r.toNat) s

/-- `sealpt` (R329): arrives at commit; the result that its write entries hold is put right when the save is sealed. -/
def execSealpt (h : Head) (s : State) : Host.Outcome State Fault Refusal :=
  issue (.sealpt h) s fun h e _ s =>
    if hSaveVa e.p.hdr = 0 then e.raise { cause := 0x09 } s
    else e.capture h none .sealpt (some (scalar e.c.rin.toNat)) s

/-- `sealw` (R328): waits until a RIN is sealed. -/
def execSealw (h : Head) (s : State) : Host.Outcome State Fault Refusal :=
  issue (.sealw h) s fun h e v s =>
    if sealwReady s (BitVec.ofNat 32 (bitsOf v.a 0 32)) then e.result h (scalar s.sl.s.toNat) s else s

/-- `sealrq` (R330): the RIN at once; the REQUEST goes at commit. -/
def execSealrqNowait (h : Head) (s : State) : Host.Outcome State Fault Refusal :=
  issue (.sealrqNowait h) s fun h e _ s => e.capture h none .sealrq (some (scalar e.c.rin.toNat)) s

/-- `sealrq.wait` (R330): sends its REQUEST when ready, and fires once that interval is sealed. -/
def execSealrqWait (h : Head) (s : State) : Host.Outcome State Fault Refusal :=
  issue (.sealrqWait h) s fun h e _ s =>
    match e.ss.wait with
    | [] => requestSeal (putInst s e.cid e.k (e.inst.modSlot e.slot fun q => { q with wait := [e.c.rin.toNat] })) false
    | r :: _ => if sealwReady s (BitVec.ofNat 32 r) then e.result h (scalar r) s else s

/-- `stx` and `stx.irr` at fire (R331): checked as R275 orders, captured for commit. -/
def Env.stx (e : Env) (h : Head) (irr : Bool) (ac : AC) (m : MemF) (v : Vals) (s : State) : State :=
  let l := m.lsid.toNat
  let gk : GKind := if irr then .irr else .stx
  match globalPieces s e.cid e.p gk (pieceBytes ac) (some l) (ac = .v) (contiguous ac (globalVa v.a (offsetOf m))) with
  | .bad x => e.raise x s
  | .hold => s
  | .ok ps => e.capture h (some l)
      (.globalStore (ps.map fun p => (p.va, p.loc, contBytes ac v.b p.lane)) ac false true irr m.osc false) none s

/-- `stx` (R331): a store that must leave the domain. -/
def execStx (h : Head) (ac : AC) (m : MemF) (s : State) : Host.Outcome State Fault Refusal :=
  issue (.stx h ac m) s fun h e v s => e.stx h false ac m v s

/-- `stx.irr` (R331): the irrevocable form. -/
def execStxIrr (h : Head) (ac : AC) (m : MemF) (s : State) : Host.Outcome State Fault Refusal :=
  issue (.stxIrr h ac m) s fun h e v s => e.stx h true ac m v s

/-- `escw` (R332): waits until every escape of the task from earlier blocks has performed. -/
def execEscw (h : Head) (s : State) : Host.Outcome State Fault Refusal :=
  issue (.escw h) s fun h e _ s =>
    if escwReady s e.c.px e.c.py e.slotK e.lease e.inst.escMark then e.result h ack s else s

end Sys2Proof.Machine
end

