-- ==== Sys2Proof/Machine/Sync.lean ====
section
/-! DEFINITION. Synchronising instructions: fences (R287, R288), barrier tokens and objects (R294 to R298), `waitm` (R299). -/

namespace Sys2Proof.Machine

/-- A fence fires (R285, R287): a release drains C, then an acquire advances the cache generation. -/
def Env.fence (e : Env) (h : Head) (acq rel sc : Bool) (scope : Scope) (s : State) : State :=
  if fenceReady s e.cid rel sc scope then
    let s := if rel then release s e.cid (some scope) else s
    let s := if acq then acquire s e.cid (some scope) else s
    e.result h ack s
  else s

/-- `fence.acq` (R287). -/
def execFenceAcq (h : Head) (scope : Scope) (s : State) : Host.Outcome State Fault Refusal :=
  issue (.fenceAcq h scope) s fun h e _ s => e.fence h true false false scope s

/-- `fence.rel` (R287). -/
def execFenceRel (h : Head) (scope : Scope) (s : State) : Host.Outcome State Fault Refusal :=
  issue (.fenceRel h scope) s fun h e _ s => e.fence h false true false scope s

/-- `fence.both` (R287). -/
def execFenceBoth (h : Head) (scope : Scope) (s : State) : Host.Outcome State Fault Refusal :=
  issue (.fenceBoth h scope) s fun h e _ s => e.fence h true true false scope s

/-- `fence.sc` (R287, R288): as `both`, while the nearest node holds the token. -/
def execFenceSc (h : Head) (scope : Scope) (s : State) : Host.Outcome State Fault Refusal :=
  issue (.fenceSc h scope) s fun h e _ s => e.fence h true true true scope s

/-- The most parties that could arrive at an object (R297). -/
def maxParties (p : Patch) (lobj : Bool) : Nat := if lobj then 8 * p.w * p.h else 128

/-- `arrive` (R297): counted at commit, where the ticket is formed. -/
def execArrive (h : Head) (lobj : Bool) (k : BitVec 6) (e : BitVec 16) (s : State) : Host.Outcome State Fault Refusal :=
  issue (.arrive h lobj k e) s fun h v _ s =>
    if ! barDeclared v.p lobj k.toNat ∨ maxParties v.p lobj < e.toNat then v.raise { cause := 0x06 } s
    else v.capture h none (.arrive lobj k.toNat e.toNat) none s

/-- The scope of an object. -/
def objScope (lobj : Bool) : Option Scope := some (if lobj then .lease else .cluster)

/-- `waitb` (R298): waits for the end of a ticket's phase. -/
def execWaitb (h : Head) (lobj : Bool) (k : BitVec 6) (s : State) : Host.Outcome State Fault Refusal :=
  issue (.waitb h lobj k) s fun h e v s =>
    if ! barDeclared e.p lobj k.toNat then e.raise { cause := 0x06 } s
    else if waitbReady (barObj e.p e.c lobj k.toNat) (BitVec.ofNat 32 (bitsOf v.a 0 32)) then
      e.result h ack (acquire s e.cid (objScope lobj))
    else s

/-- `bar` (R294): reserves a slot in every PATH and PEER out-channel; the tokens go at commit. -/
def execBar (h : Head) (s : State) : Host.Outcome State Fault Refusal :=
  issue (.bar h) s fun h e _ s =>
    if roomIn e.c (barChans e.c) then
      e.capture h none .bar (some ack) (s.modCore e.cid fun c => c.reserve (barChans c))
    else s

/-- `waitm` (R299): registers a waiter on the signal's line, and fires with a value that meets its condition. -/
def execWaitm (h : Head) (c : Cond) (osc : Option Scope) (s : State) : Host.Outcome State Fault Refusal :=
  issue (.waitm h c osc) s fun h e v s =>
    let mine : Option (Nat × Nat) := some (e.cid, e.slotK)
    let va := bitsOf v.a 0 48
    match readSignal s e.cid e.p c v.a v.b with
    | .bad x => e.raise x s
    | .hold => s
    | .unmet l =>
      let w : Waiter := { line := lineKey l, pk := none, core := mine, woken := false, lease := e.lease, va := va }
      if s.waiters.contains w then s
      else
        let s := signalState s e.cid va l
        heard (countRead (enlist s w fun x => x.core = mine && x.line = w.line) e.lease l 8) e.cid l
    | .met l x =>
      let s := signalState s e.cid va l
      let s := heard (countRead (delist s fun w => w.core = mine && w.line = lineKey l) e.lease l 8) e.cid l
      e.result h (scalar x) (acquire s e.cid osc)

end Sys2Proof.Machine
end

