-- ==== Sys2Proof/Machine/System.lean ====
section
/-! DEFINITION. System instructions (R342 to R346) and the task control registers (R339). -/

namespace Sys2Proof.Machine

/-- `trap` (R343): raises TRAP_INSN. -/
def execTrap (h : Head) (code : BitVec 16) (s : State) : Host.Outcome State Fault Refusal :=
  issue (.trap h code) s fun _ e _ s => e.raise { cause := 0x10, addr := code.setWidth 64 } s

/-- `brk` (R343): raises BREAKPOINT, SUB 0. -/
def execBrk (h : Head) (num : BitVec 8) (s : State) : Host.Outcome State Fault Refusal :=
  issue (.brk h num) s fun _ e _ s => e.raise { cause := 0x0F, addr := num.setWidth 64 } s

/-- A task control register (R339). -/
def csrRead (t : Task) (r : Nat) : BitVec 64 :=
  match r with
  | 0 => t.tctl
  | 1 => t.rstate
  | 2 => t.tvec
  | 3 => t.tmask
  | 4 => t.tcause
  | 5 => t.tblk
  | 6 => t.taddr
  | 7 => t.tinfo
  | 8 => BitVec.ofNat 64 (t.lsdrop.toNat + 256 * t.link.length)
  | 9 => t.dbg
  | 10 => t.brka0
  | _ => t.brka1

/-- The bits of TMASK that take a write: 1 to 22 but for 11 and 18 to 21 (R339). -/
def tmaskBits : BitVec 64 := 0x0043F7FE
/-- Bits [47:3]. -/
def addrBits : BitVec 64 := 0x0000FFFFFFFFFFF8
/-- EN and BADDR. -/
def brkaBits : BitVec 64 := 0x8000FFFFFFFFFFF8

/-- A register written under its access codes (R6, R339): RW fields take the bits, INH clears where a 1 is written. -/
def csrWrite (t : Task) (r : Nat) (v : BitVec 64) : Task :=
  match r with
  | 0 => { t with tctl := v &&& 0xF }
  | 1 => { t with rstate := v }
  | 2 => { t with tvec := v &&& addrBits }
  | 3 => { t with tmask := v &&& tmaskBits }
  | 4 => { t with tcause := t.tcause &&& ~~~ (v &&& 0x10000) }
  | 8 => { t with lsdrop := v.setWidth 8 }
  | 9 => { t with dbg := v &&& 3 }
  | 10 => { t with brka0 := v &&& brkaBits }
  | 11 => { t with brka1 := v &&& brkaBits }
  | _ => t

/-- `csrr` (R344): a register as it stood when the instance started; only commits and deliveries change one. -/
def execCsrr (h : Head) (r : BitVec 8) (s : State) : Host.Outcome State Fault Refusal :=
  issue (.csrr h r) s fun h e _ s => e.result h (scalar (csrRead e.t r.toNat).toNat) s

/-- `csrw` (R344): the old value; the write goes at commit. -/
def execCsrw (h : Head) (r : BitVec 8) (s : State) : Host.Outcome State Fault Refusal :=
  issue (.csrw h r) s fun h e v s =>
    e.capture h none (.csrw r.toNat (BitVec.ofNat 64 (lo64 v.a))) (some (scalar (csrRead e.t r.toNat).toNat)) s

/-- A number of the issuing lease (R345). -/
def Env.leaseNum (e : Env) (s : State) (f : Lease → Nat) : Nat := ((s.lease e.lease).map f).getD 0

/-- `svc` HEMLINT (R345). -/
def execSvcHemlint (h : Head) (s : State) : Host.Outcome State Fault Refusal :=
  issue (.svcHemlint h) s fun h e _ s => e.result h (scalar (e.leaseNum s (·.hemlint))) s

/-- `svc` STALELINT (R345). -/
def execSvcStalelint (h : Head) (s : State) : Host.Outcome State Fault Refusal :=
  issue (.svcStalelint h) s fun h e _ s => e.result h (scalar (e.leaseNum s (·.stalelint))) s

/-- `svc` ROLLBACKS (R345). -/
def execSvcRollbacks (h : Head) (s : State) : Host.Outcome State Fault Refusal :=
  issue (.svcRollbacks h) s fun h e _ s => e.result h (scalar (e.leaseNum s (·.rollbacks))) s

/-- `svc` IDENT (R345): owner, lease identity, generation. -/
def execSvcIdent (h : Head) (s : State) : Host.Outcome State Fault Refusal :=
  issue (.svcIdent h) s fun h e _ s =>
    e.result h (scalar (e.leaseNum s (·.owner) + 2 ^ 8 * e.lease + 2 ^ 20 * e.leaseNum s (·.gen.toNat))) s

/-- `svc` NOTIFY (R345): reserves a completion record; it is written at commit. -/
def execSvcNotify (h : Head) (s : State) : Host.Outcome State Fault Refusal :=
  issue (.svcNotify h) s fun h e v s =>
    if (s.queue e.p.queue).cRoom then
      e.capture h none (.notify (BitVec.ofNat 64 (lo64 v.a))) (some (scalar 0))
        (s.modQueue e.p.queue fun q => { q with cresv := q.cresv + 1 })
    else s

/-- `svc` 5 to 255 (R345): all ones, no effect. -/
def execSvcReserved (h : Head) (n : BitVec 8) (s : State) : Host.Outcome State Fault Refusal :=
  issue (.svcReserved h n) s fun h e _ s => e.result h (scalar (2 ^ 64 - 1)) s

/-- The island of a grid position (R386): seven to a die, one for each of its cluster rows and one for its uncore. -/
def islandXY (x y : Nat) : Nat := 7 * (x / 32 + 2 * (y / 24)) + y % 24 / 4

/-- The cycles that a core's island has counted (R346, R386). -/
def cyclesOf (s : State) (cid : Nat) : Nat :=
  (tgetD s.islands (islandXY (xyOf s cid).1 (xyOf s cid).2) {}).cycles

/-- `rdcyc` (R346). -/
def execRdcyc (h : Head) (s : State) : Host.Outcome State Fault Refusal :=
  issue (.rdcyc h) s fun h e _ s => e.result h (scalar (cyclesOf s e.cid)) s

/-- `rdtime` (R346). -/
def execRdtime (h : Head) (s : State) : Host.Outcome State Fault Refusal :=
  issue (.rdtime h) s fun h e _ s => e.result h (scalar s.time) s

/-- `nop` (R346). -/
def execNop (h : Head) (s : State) : Host.Outcome State Fault Refusal :=
  issue (.nop h) s fun _ e _ s => e.done s

end Sys2Proof.Machine
end

