-- ==== Sys2Proof/Machine/Tasks.lean ====
section
/-! DEFINITION. Instructions on tasks, channels and queues (R190 to R199): what they do at fire. -/

namespace Sys2Proof.Machine

/-- CHANNEL_UNBOUND for a channel (R336). -/
def unbound (out : Bool) (j : Nat) : Cause := { cause := 0x0C, chan := some (out, j) }

/-- `send` (R191): reserves a slot; the flit enters at commit. -/
def execSend (h : Head) (kind : BitVec 4) (j : BitVec 4) (s : State) : Host.Outcome State Fault Refusal :=
  issue (.send h kind j) s fun h e v s =>
    if ! e.c.outBound j.toNat then e.raise (unbound true j.toNat) s
    else if ! e.c.outRoom j.toNat 1 then s
    else e.capture h none (.send j.toNat kind (if kind = 12 then 0 else v.a)) none
      (s.modCore e.cid fun c => c.reserve [j.toNat])

/-- `recv` (R192): the head flit's value to T0 and its kind to T1; the flit leaves at commit. -/
def execRecv (h : Head) (j : BitVec 4) (s : State) : Host.Outcome State Fault Refusal :=
  issue (.recv h j) s fun h e _ s =>
    if ! e.c.inBound j.toNat ∨ e.c.inTask j.toNat ≠ e.slotK then e.raise (unbound false j.toNat) s
    else if ! recvReady e.c j.toNat then s
    else match e.c.headFlit j.toNat with
      | none => s
      | some f =>
        e.update (fun x =>
          { x.fire e.slot h (some (.val f.value)) (some (.val (scalar f.kind.toNat))) with
            caps := x.caps ++ [{ slot := e.slot, lsid := none, eff := .recv j.toNat, t0 := h.t0, t1 := h.t1 }],
            recvd := j.toNat :: x.recvd }) (s.modCore e.cid fun c => c.sawRin f.rin)

/-- The status of a `bind` (R193). -/
def bindStatus (c : Core) (k j : Nat) (rel : Bool) : Nat :=
  if ! c.inBound j then 2
  else if (c.inCh j).resv.isSome then 1
  else if rel then (if c.inTask j = k then 0 else 1)
  else if c.inTask j ≠ k ∧ (c.task (c.inTask j)).st ≠ .free then 1
  else 0

/-- `bind` (R193): moves an in-channel to the task, or back, at commit. -/
def execBind (h : Head) (j : BitVec 4) (rel : Bool) (s : State) : Host.Outcome State Fault Refusal :=
  issue (.bind h j rel) s fun h e _ s =>
    let st := bindStatus e.c e.slotK j.toNat rel
    if st = 0 then
      e.capture h none (.bind j.toNat rel) (some (scalar 0))
        (s.modCore e.cid fun c => c.modIn j.toNat fun ch => { ch with resv := some (e.slotK, rel) })
    else e.result h (scalar st) s

/-- `waitc` (R194): waits for flits without consuming them. -/
def execWaitc (h : Head) (j : BitVec 4) (n : BitVec 7) (s : State) : Host.Outcome State Fault Refusal :=
  issue (.waitc h j n) s fun h e _ s =>
    if ! e.c.inBound j.toNat then e.raise (unbound false j.toNat) s
    else if waitcReady e.c j.toNat n.toNat then e.result h (scalar (e.c.flitsSeen j.toNat)) s
    else s

/-- `tspawn` (R195): the request goes out; the target core answers it (TSPAWN_REQUEST), and then it fires. -/
def execTspawn (h : Head) (wait : Bool) (s : State) : Host.Outcome State Fault Refusal :=
  issue (.tspawn h wait) s fun _ e v s =>
    let s := e.update (fun x => x.modSlot e.slot fun q => { q with ph := .pending }) s
    s.modCore e.cid fun c => c.modTask e.slotK fun t => { t with spawns := t.spawns ++ [(e.inst.id, e.slot, wait, v.a, v.b)] }

/-- Whether a slot's access waits only for the S or T that a pleat step holds (R129). -/
def pleatHolds (s : State) (cid k : Nat) (x : Inst) : Bool :=
  let c := s.core cid
  (List.range x.slots.length).any fun j => slotView s cid (some k) x j = .waits && match (x.at j).bind poolSpace, x.at j with
    | some .s, _ | _, some (.atms _ _ _ _) => c.holdS
    | some .t, _ => c.holdT
    | _, _ => false

/-- A task slot's state as `tstat` reads it (R144, R196): HELD where a pleat step, a stop of its patch or a freeze holds what it would do
next. -/
def slotState (s : State) (cid k : Nat) : Nat :=
  let c := s.core cid
  let t := c.task k
  let stopped := (c.patch.bind s.patch).any fun p => p.st != .running
  match t.st with
  | .free => 0
  | .held => 3
  | .live =>
    match t.inst with
    | none => if c.holdG || stopped then 3 else if t.sealWait then 2 else 1
    | some x =>
      if ! (firable s cid (some k) x).isEmpty then 1
      else if quiescent s cid (some k) x then (if c.holdG then 3 else 1)
      else if pleatHolds s cid k x then 3
      else 2

/-- `tstat` (R196): the states of the core's slots, their reservations, and the task's own slot. -/
def execTstat (h : Head) (s : State) : Host.Outcome State Fault Refusal :=
  issue (.tstat h) s fun h e _ s =>
    let ks := List.range (Nat.min 8 e.c.nTasks)
    let states := joinN 2 (ks.map fun k => if k = e.slotK then 1 else slotState s e.cid k)
    let rsv := joinN 1 (ks.map fun k => ((e.c.task k).resv.isSome).toNat)
    e.result h (scalar (states + 2 ^ 16 * rsv + 2 ^ 24 * e.slotK)) s

/-- `qpost` (R197): reserves a ring slot; the packet enters at commit. -/
def execQpost (h : Head) (m : MemF) (s : State) : Host.Outcome State Fault Refusal :=
  issue (.qpost h m) s fun h e v s =>
    let q := bitsOf v.a 0 10
    if ! mayPost s (s.queue q) e.lease then e.raise { cause := 0x09, lsid := some m.lsid.toNat } s
    else if ! (s.queue q).room then s
    else e.capture h (some m.lsid.toNat) (.qpost q v.b m.osc) none (s.modQueue q fun w => { w with rresv := w.rresv + 1 })

/-- Whether `constw` names cores of the patch and a context of the kernel (R198). -/
def constwOk (p : Patch) (px py c : Nat) : Bool :=
  decide (c < hNctx p.hdr) &&
    (if py = 63 then px = 63 || decide (px < p.w) else decide (py < 48) && decide (py < p.h) && decide (px < p.w))

/-- `constw` (R198): sends a constant to a context entry of named cores, at commit. -/
def execConstw (h : Head) (px py : BitVec 6) (k : BitVec 4) (c : BitVec 3) (s : State) : Host.Outcome State Fault Refusal :=
  issue (.constw h px py k c) s fun h e v s =>
    if constwOk e.p px.toNat py.toNat c.toNat then
      e.capture h none (.constw px.toNat py.toNat k.toNat c.toNat v.a) none s
    else e.raise { cause := 0x14 } s

/-- `markt` (R199): reserves a slot in every masked out-channel; constants and MARKERs go at commit. -/
def execMarkt (h : Head) (mask : BitVec 16) (s : State) : Host.Outcome State Fault Refusal :=
  issue (.markt h mask) s fun h e _ s =>
    match (maskChans mask).find? fun j => ! e.c.outBound j with
    | some j => e.raise (unbound true j) s
    | none =>
      if roomIn e.c (maskChans mask) then
        e.capture h none (.markt mask) none (s.modCore e.cid fun c => c.reserve (maskChans mask))
      else s

end Sys2Proof.Machine
end

