-- ==== Sys2Proof/Machine/Commit.lean ====
section
/-! DEFINITION. Block commit (R55, R151): when it happens, and what each captured effect performs. The whole commit is worked out on a copy
of the state: a cause discards the block instead (R152), and a stall leaves it uncommitted. -/

namespace Sys2Proof.Machine

/-! ### Outcomes -/

/-- What performing an effect answers: the state after it, a cause, or a stall, with the lease that a stall for undo space is counted in
(R308). -/
inductive Done where
  | ok (s : State)
  | bad (x : Cause)
  | stall (undo : Option Nat)
deriving DecidableEq, Repr

/-- A state whose stores found room for their undo entries; else a stall, before any of them (R308). -/
def okRoom (s : State) : Done :=
  match overLease s with
  | some l => .stall (some l)
  | none => .ok s

/-- Go on with the state after an effect. -/
def Done.then (d : Done) (f : State → Done) : Done :=
  match d with
  | .ok s => f s
  | x => x

/-- Perform in turn. -/
def eachDone {α : Type} (f : α → State → Done) : List α → State → Done
  | [], s => .ok s
  | x :: xs, s => (f x s).then (eachDone f xs)

/-! ### Registers -/

/-- The register that a write entry names (R54). -/
def Inst.regOf (x : Inst) (j : Nat) : Nat := natBits (writeEntry x.entries j) 0 7

/-- Write entries that a capture's targets name. -/
def Capture.entries (q : Capture) : List Nat :=
  [q.t0, q.t1].filterMap fun t => match t with
    | .write n => some n.toNat
    | _ => none

/-- Whether an effect's result is formed at commit (R151). -/
def Effect.late : Effect → Bool
  | .poolAtomic _ _ _ _ _ _ _ | .globalAtomic _ _ _ _ _ _ _ _ | .swm _ | .arrive _ _ _ => true
  | _ => false

/-- A value written to a task's register. -/
def writeReg (s : State) (cid k g : Nat) (v : Value) : State := s.modCore cid fun c => c.writeG k g v

/-- A result formed at commit goes to its write entries (R151). -/
def giveLate (cid k : Nat) (x : Inst) (q : Capture) (v : Value) (s : State) : State :=
  q.entries.foldl (fun s j => writeReg s cid k (x.regOf j) v) s

/-- The G registers written at commit: each value; a null leaves its register (R54, R177). -/
def writeRegs (cid k : Nat) (x : Inst) (s : State) : State :=
  (List.range x.writes.length).foldl (fun s j =>
    match x.writes.getD j none with
    | some (.val v) | some (.tok _ v) => writeReg s cid k (x.regOf j) v
    | _ => s) s

/-! ### Global stores (R256, R257, R285, R323) -/

/-- Bytes written through to the node under a wide release; C's own copy follows, and a whole line loses its poison there too (R257,
R285). -/
def storeThrough (s : State) (cid va : Nat) (l : Loc) (bs : List Byte) : State :=
  let q := cLookup s cid (va / 64) (lineLoc l (va % 64))
  let s := nodeWrite q.1 l bs (s.core cid).rin
  s.modCore cid fun c => match c.cFind (va / 64) with
    | some x => c.cPut { x with data := patchLine x.data (va % 64) bs, poison := x.poison && bs.length != 64 }
    | none => c

/-- One piece of a store to a page of the domain. -/
def storePiece (cid lease lsid : Nat) (wide na : Bool) (p : Nat × Loc × List Byte) (s : State) : Done :=
  let c := s.core cid
  let addr := BitVec.ofNat 64 p.1
  if denied s lease (genOf s lease) true p.2.1 then .bad { cause := 0x0A, sub := 1, lsid := some lsid, addr := addr }
  else if storePoisoned s cid lease (p.1 / 64) (lineLoc p.2.1 (p.1 % 64)) p.2.2.length (! goesDirect c p.1 wide na) then
    .bad { cause := 0x0B, lsid := some lsid, addr := addr }
  else okRoom (if wide then storeThrough s cid p.1 p.2.1 p.2.2 else cStore s cid lease p.1 p.2.1 p.2.2 na)

/-- Neighbouring system pieces joined: a `.v` store is one escape where its target is one range (R323). -/
def joinPieces : List (Nat × Loc × List Byte) → List (Nat × Loc × List Byte)
  | [] => []
  | p :: r =>
    match joinPieces r with
    | [] => [p]
    | q :: r =>
      if p.2.1.isSystem && q.2.1.key = (p.2.1.plus p.2.2.length).key && decide (p.2.2.length + q.2.2.length ≤ 64) then
        (p.1, p.2.1, p.2.2 ++ q.2.2) :: r
      else p :: q :: r

/-- One piece of a store to a system page: held as an escape (R257, R323); class R retains it (R320). -/
def escapePiece (cid k : Nat) (p : Patch) (ac : AC) (irr : Bool) (x : Nat × Loc × List Byte) (s : State) : Done :=
  let c := s.core cid
  if escapeRoom s then
    .ok (holdEscape s x.2.1 (some p.lease) ac irr (! hClassS p.hdr) c.px c.py k c.rin x.2.2)
  else .stall (some p.lease)

/-- A global store performs (R49, R256, R257, R283, R288). -/
def doStore (cid k lsid : Nat) (p : Patch) (ps : List (Nat × Loc × List Byte)) (ac : AC) (na irr : Bool) (osc : Option Scope)
    (sc : Bool) (s : State) : Done :=
  let node := match ps with
    | x :: _ => nodeOf x.2.1
    | [] => s.token
  if sc && ! scReady s node (osc = some .system) then .stall none
  else
    let osc := promoted s (ps.map (·.2.1)) osc
    (okRoom (release s cid osc)).then fun s =>
    eachDone (fun x s =>
      if x.2.1.isSystem then escapePiece cid k p ac irr x s else storePiece cid p.lease lsid (wideScope osc) na x s)
      (if ac = .v then joinPieces ps else ps) s |>.then fun s =>
        .ok (if sc then acquire s cid osc else s)

/-! ### Atomics (R263, R264) -/

/-- `fmin` and `fmax` of an atomic: the stored value stays where neither is beyond the other (R263). -/
def atomMinMax (mx : Bool) (f : Fmt) (a b : Nat) : Nat :=
  if isNanEnc f a && isNanEnc f b then canonNan f
  else if isNanEnc f a then b
  else if isNanEnc f b then a
  else if fcondHolds (if mx then .gt else .lt) (dec f false b) (dec f false a) then b else a

/-- The new value of an atomic, or none where a `cas` does not match (R263). -/
def atomNew (op : AtOp) (wide : Bool) (old b c : Nat) : Option Nat :=
  let n := if wide then 64 else 32
  let f : Fmt := if wide then .f64 else .f32
  match op with
  | .add => some ((old + b) % 2 ^ n)
  | .and => some (old &&& b)
  | .or => some (old ||| b)
  | .xor => some (old ^^^ b)
  | .min => some (minN false n old b)
  | .max => some (maxN false n old b)
  | .minz => some (minN true n old b)
  | .maxz => some (maxN true n old b)
  | .swap => some b
  | .cas => if old = c then some b else none
  | .fadd => some (fopEnc .add f .rne false old b 0)
  | .fmin => some (atomMinMax false f old b)
  | .fmax => some (atomMinMax true f old b)

/-- A pool atomic performs at the target's S bank port (R264). -/
def doPoolAtomic (cid k : Nat) (x : Inst) (q : Capture) (tc off : Nat) (op : AtOp) (wide : Bool) (b c : Nat)
    (osc : Option Scope) (s : State) : Done :=
  let n := atBytes wide
  let t := s.core tc
  if t.holdS then .stall none
  else if t.rolePoisoned .s off n then .bad { cause := 0x0B, lsid := q.lsid }
  else
    (okRoom (release s cid osc)).then fun s =>
    let old := bytesNat ((s.core tc).readRole .s off n)
    let s := match atomNew op wide old b c with
      | some v => s.modCore tc fun t => t.writeRole .s off (natBytes n v)
      | none => s
    .ok (acquire (giveLate cid k x q (scalar old) s) cid osc)

/-- A global atomic performs at its node, after the core's own copy of the line has gone (R264). -/
def doGlobalAtomic (cid k : Nat) (lease : Nat) (x : Inst) (q : Capture) (va : Nat) (l : Loc) (op : AtOp) (wide : Bool) (b c : Nat)
    (osc : Option Scope) (sc : Bool) (s : State) : Done :=
  let n := atBytes wide
  let addr := BitVec.ofNat 64 va
  let rin := (s.core cid).rin
  if sc && ! scReady s (nodeOf l) (osc = some .system) then .stall none
  else if denied s lease (genOf s lease) false l || denied s lease (genOf s lease) true l then
    .bad { cause := 0x0A, sub := 1, lsid := q.lsid, addr := addr }
  else
    let s := release s cid (promoted s [l] osc)
    let s := flushLine (flushAliases s cid (va / 64) (lineLoc l (va % 64))) cid (va / 64)
    if readBad s lease l then .bad { cause := 0x0B, lsid := q.lsid, addr := addr }
    else
      let old := bytesNat (nodeRead s lease l n)
      let s := match atomNew op wide old b c with
        | some v => nodeWrite s l (natBytes n v) rin
        | none => s
      (okRoom s).then fun s => .ok (acquire (giveLate cid k x q (scalar old) (heard (countRead s lease l n) cid l)) cid osc)

/-! ### Cache control (R265) -/

/-- The effect of a `cctl`. -/
def doCctl (cid form line : Nat) (s : State) : Done :=
  okRoom (match form with
    | 0 => match (s.core cid).cFind line with
      | some x => writeBack s cid x
      | none => s
    | 1 => s.modCore cid fun c => c.cDrop line
    | 2 => flushLine s cid line
    | 3 => drainC s cid
    | _ => (drainC s cid).modCore cid fun c => { c with cache := [], dirtyQ := [], blocks := [] })

/-! ### Tasks, channels and queues -/

/-- A task starts in a slot (R145): zeroed frame, task control from TCTL, generator, weight, entry address. -/
def startTask (s : State) (cid k pc : Nat) (seed : BitVec 64) (weight : Nat) : State :=
  let tctl := match (s.core cid).patch.bind s.patch with
    | some p => hTctl p.hdr
    | none => 0
  let posts := (s.cluster (clusterOf cid)).nextId
  s.modCore cid fun c =>
    let c := c.zeroFrame k
    let c := c.modTask k fun _ =>
      { st := .live, pc := BitVec.ofNat 48 pc, tctl := BitVec.ofNat 64 tctl, rstate := seed, weight := weight, eff := weight, since := posts }
    { c with occ := { c.occ with fhwm := Nat.max c.occ.fhwm c.fLive } }

/-- What a pending cause of a copy walk raises (R240, R337). -/
def AsyncCause.raised (a : AsyncCause) : Cause := { cause := a.cause, sub := a.sub, addr := a.addr, async := true }

/-- A task ends (R175): its slot is FREE, and every in-channel it took returns to its configured slot. A cause that a copy walk still
holds against it finds no task and stops the patch (R240). -/
def endTask (s : State) (cid k : Nat) : State :=
  let due := ((s.core cid).task k).async
  let s := s.modCore cid fun c =>
    let c := c.modTask k fun t => { t with st := .free, inst := none, spawns := [], sealWait := false, link := [], async := [] }
    { c with ins := tmap (fun _ ch => if ch.slot = some k then { ch with slot := none } else ch) c.ins }
  due.foldl (fun s a => raiseCore s cid (some k) 0 0 a.raised) s

/-- A constant arrives at a context entry of a core and is pending there (R198). -/
def pendConst (c : Core) (ctx k : Nat) (v : Value) : Core :=
  c.modCtx ctx fun x => { x with pendingK := tset x.pendingK k v }

/-- The cores of a patch that a `constw` names. -/
def namedCores (s : State) (pt px py : Nat) : List Nat :=
  (s.cores.filter fun e => e.2.patch = some pt && (decide (py = 63) && (px = 63 || e.2.px = px) || (e.2.px = px && e.2.py = py))).map (·.1)

/-- A MARKER's value (R199). -/
def markerValue (s : State) (c : Core) : Value := BitVec.ofNat 512 (s.time % 2 ^ 64 + 2 ^ 64 * c.px + 2 ^ 70 * c.py)

/-- A packet enters a queue's ring (R84). -/
def enqueuePacket (s : State) (q : Nat) (v : Value) : State :=
  s.modQueue q fun w => { w with ring := w.ring ++ [v], tail := w.tail + 1 }

/-- A barrier object changed. -/
def setBar (p : Patch) (c : Core) (lobj : Bool) (k : Nat) (o : BarObj) : Patch :=
  if lobj then { p with lbars := tset p.lbars k o } else { p with bars := tset p.bars (64 * c.relCluster + k) o }

/-- An arrival (R297): the object after it. -/
def BarObj.arrive (o : BarObj) (e : Nat) : BarObj :=
  let n := o.count + 1
  if n = e then { phase := o.phase + 1, count := 0, expect := e } else { o with count := n, expect := e }

/-! ### One captured effect -/

/-- The replays of a captured store to S, counted as its first piece performs (R125, R151). -/
def storeReplays (x : Inst) (q : Capture) (s : State) : State :=
  let pieces := (x.caps.filter (·.slot = q.slot)).flatMap fun r => match r.eff with
    | .poolStore .s tc ps => ps.map fun w => (tc, w.1)
    | _ => []
  if (x.caps.find? fun r => r.slot = q.slot && r.eff matches .poolStore _ _ _) = some q then
    match x.at q.slot with
    | some (.sts _ ac _) | some (.stn _ ac _) => noteReplays .s ac pieces s
    | _ => s
  else s

/-- A captured effect performs (R151). -/
def doEffect (cid k pt : Nat) (p : Patch) (x : Inst) (q : Capture) (s : State) : Done :=
  let c := s.core cid
  let lsid := q.lsid.getD 0
  match q.eff with
  | .poolStore role tc ps =>
    if (s.core tc).holdRole role then .stall none
    else .ok ((storeReplays x q s).modCore tc fun t => ps.foldl (fun t w => t.writeRole role w.1 w.2) t)
  | .globalStore ps ac na _ irr osc sc => doStore cid k lsid p ps ac na irr osc sc s
  | .poolAtomic tc off op wide b cc osc => doPoolAtomic cid k x q tc off op wide b cc osc s
  | .globalAtomic va l op wide b cc osc sc => doGlobalAtomic cid k p.lease x q va l op wide b cc osc sc s
  | .cctl form line => doCctl cid form line s
  | .release sc => okRoom (release s cid (some sc))
  | .cpy packet osc =>
    (okRoom (release s cid osc)).then fun s => .ok (acceptCopy (releaseCap cid k s q) cid (some k) p packet)
  | .qpost n packet osc =>
    (okRoom (release s cid osc)).then fun s =>
      let s := releaseCap cid k s q
      .ok (if (s.queue n).isOpen then enqueuePacket s n packet else s)
  | .send j kind v =>
    .ok (s.modCore cid fun c => (c.unreserve [j]).emit j { kind := kind, value := v, rin := c.rin })
  | .markt m =>
    .ok (s.modCore cid fun c =>
      let c := (c.applyConst).unreserve (maskChans m)
      (maskChans m).foldl (fun c j => c.emit j { kind := 9, value := markerValue s c, rin := c.rin }) c)
  | .constw px py n ctx v =>
    .ok ((namedCores s pt px py).foldl (fun s d => s.modCore d fun c => pendConst c ctx n v) s)
  | .spawn tc sl entry seed weight arg =>
    let s := startTask s tc sl entry seed weight
    .ok (writeReg s tc sl 0 arg)
  | .recv j =>
    .ok (s.modCore cid fun c => c.modIn j fun ch => { ch with buf := ch.buf.tail })
  | .bind j rel =>
    .ok (s.modCore cid fun c => c.modIn j fun ch => { ch with slot := if rel then none else some k, resv := none })
  | .swm m =>
    let s := giveLate cid k x q (scalar c.pleat.swm.toNat) s
    .ok (s.modCore cid fun c => { c with pleat := { c.pleat with swm := m, holds := terase c.pleat.holds k } })
  | .pleat w =>
    .ok (s.modCore cid fun c =>
      { c with pleat := { c.pleat with phase := nextStep c.pleat w 1, req := w, seq := c.pleat.seq + 1, owner := none },
               occ := { c.occ with pacc := c.occ.pacc + 1 } })
  | .pleatRefused => .ok (s.modCore cid fun c => { c with occ := { c.occ with pref := c.occ.pref + 1 } })
  | .arrive lobj n e =>
    let o := barObj ((s.patch pt).getD p) c lobj n
    if o.count ≠ 0 ∧ o.expect ≠ e then .bad { cause := 0x06 }
    else
      (okRoom (release s cid (objScope lobj))).then fun s =>
      let s := s.modPatch pt fun p => setBar p c lobj n (o.arrive e)
      .ok (giveLate cid k x q (scalar o.phase.toNat) s)
  | .bar =>
    (okRoom (release s cid (some .lease))).then fun s =>
      let s := releaseCap cid k s q
      .ok (s.modCore cid fun c => (barChans c).foldl (fun c j => c.emit j { kind := 8, value := 0, rin := c.rin }) c)
  | .tagclr d r sets =>
    .ok (s.modCore cid fun c => sets.foldl (fun c n => c.modTag n.1 fun g =>
      { g with done := g.done && ! (d.getLsbD n.1 && g.doneSets = n.2.1), err := g.err && ! (r.getLsbD n.1 && g.errSets = n.2.2) }) c)
  | .mload fmt src ls =>
    if sclOk fmt.toNat (src.getLsbD 62) then
      if src.getLsbD 63 && ! c.genRoom then .stall none else .ok (armLoad s cid p.lease fmt src ls)
    else .bad { cause := 0x0E, sub := 1 }
  | .mswap => .ok (s.modCore cid fun c => c.queueMangle .swap)
  | .mfence => .ok (s.modCore cid fun c => c.queueMangle .fence)
  | .marm shape a =>
    match runCause c shape a with
    | some y => .bad { cause := y.1, sub := y.2 }
    | none =>
      let s := releaseCap cid k s q
      .ok (s.modCore cid fun c => c.queueMangle (.run shape (BitVec.ofNat 64 (lo64 a))))
  | .mzero d =>
    match extentCause c d.toNat with
    | some y => .bad { cause := y }
    | none => if marmReady c.mangle then .ok (s.modCore cid fun c => c.queueMangle (.zero d)) else .stall none
  | .mchk => .ok (s.modCore cid fun c => { c with mangle := { c.mangle with checked := 0, corrected := 0 } })
  | .csrw r v => .ok (s.modCore cid fun c => c.modTask k fun t => csrWrite t r v)
  | .sealpt => .ok (s.modCore cid fun c => c.modTask k fun t => { t with sealWait := true, sealG := q.entries.map x.regOf })
  | .sealrq => .ok (requestSeal s false)
  | .notify v =>
    let s := releaseCap cid k s q
    .ok (postRecord s p.queue (record 0 34 15 (c.px % 64 + 64 * (c.py % 64) + 4096 * (k % 8)) v c.rin s.time))

/-! ### The commit condition (R55) -/

/-- Deliveries that a write entry has received or will receive at commit; an atomic that a `nulls` cancelled delivers nothing (R55,
R177). -/
def Inst.fills (x : Inst) (j : Nat) : Nat :=
  let performs := fun (q : Capture) => q.eff.late && ! x.nulls.any fun l => q.lsid = some l
  (x.writes.getD j none).isSome.toNat + ((x.caps.filter performs).flatMap Capture.entries).count j

/-- The lowest write entry that nothing fills. -/
def Inst.unfilled (x : Inst) : Option Nat := (List.range x.writes.length).find? fun j => x.fills j = 0

/-- The lowest store group that is not resolved. -/
def Inst.openGroup (x : Inst) : Option Nat := x.groups.find? fun l => ! x.groupDone l

/-- The lowest commit-acting slot that is not resolved. -/
def Inst.openActing (x : Inst) : Option Nat :=
  (List.range x.slots.length).find? fun j => ! x.resolvedSlot j && match x.at j with
    | some i => commitActing i
    | none => false

/-- An enabled fence that has not fired holds the commit (R287). -/
def Inst.fenceOpen (x : Inst) : Bool :=
  (List.range x.slots.length).any fun j => match x.at j with
    | some (.fenceAcq h _) | some (.fenceRel h _) | some (.fenceBoth h _) | some (.fenceSc h _) =>
      match verdict h.pm (false, false, false) (x.slots.getD j {}) with
      | .go _ => true
      | _ => false
    | _ => false

/-- Whether the instance may commit (R55, R287). -/
def Inst.complete (x : Inst) : Bool :=
  x.unfilled.isNone && x.openGroup.isNone && x.openActing.isNone && x.exits = 1 && ! x.fenceOpen

/-- Whether the instance breaks R55 or R46 for good: a second exit, a second delivery, a second `recv` of a channel (R192). -/
def Inst.broken (x : Inst) : Bool :=
  decide (2 ≤ x.exits) || x.twice || (List.range x.writes.length).any (fun j => decide (2 ≤ x.fills j)) ||
    x.recvd.eraseDups.length != x.recvd.length

/-- MALFORMED_BLOCK at commit, naming the first unmet item (R55). -/
def unmetCause (x : Inst) : Cause :=
  let base : Cause := { cause := 0x02, sub := 2, atCommit := true }
  match x.unfilled with
  | some j => { base with slot := some j }
  | none =>
    match x.openGroup with
    | some l => { base with lsid := some l }
    | none => { base with slot := x.openActing }

/-! ### The commit -/

/-- Whether an effect sends a constant. -/
def Effect.sendsConst : Effect → Bool
  | .constw _ _ _ _ _ => true
  | _ => false

/-- Captured effects in the order in which they perform: those with an LSID that no `nulls` cancelled by LSID (R49), then the
others by slot, constants before the MARKERs that apply them (R199, R200), BARRIERs last (R294). -/
def Inst.inOrder (x : Inst) : List Capture :=
  let lo := (List.range 32).flatMap fun l => x.caps.filter fun q => q.lsid = some l && ! x.nulls.contains l
  let hi := (List.range x.slots.length).flatMap fun j => x.caps.filter fun q => q.lsid.isNone && q.slot = j
  lo ++ hi.filter (fun q => q.eff.sendsConst) ++ hi.filter (fun q => q.eff != .bar && ! q.eff.sendsConst) ++
    hi.filter (fun q => q.eff == .bar)

/-- Reservations of stores that a `nulls` cancelled are released. -/
def releaseNulled (cid k : Nat) (x : Inst) (s : State) : State :=
  (x.caps.filter fun q => match q.lsid with
    | some l => x.nulls.contains l
    | none => false).foldl (releaseCap cid k) s

/-- Draws used, and the generator's advance (R74). -/
def advanceGenr (s : State) (cid k : Nat) (x : Inst) : State :=
  let d := (x.slots.map (·.draws)).foldl (· + ·) 0
  s.modCore cid fun c => c.modTask k fun t => { t with rstate := t.rstate + BitVec.ofNat 64 (d * 0x9E3779B97F4A7C15) }

/-- Push on the link stack of 16 (R175). -/
def pushLink (t : Task) (a : BitVec 48) : Task :=
  if t.link.length < 16 then { t with link := a :: t.link }
  else { t with link := a :: t.link.take 15, lsdrop := if t.lsdrop = 255 then 255 else t.lsdrop + 1 }

/-- The exit's effect (R175); a request for a task that has had no answer ends with the block that made it (R195). -/
def doExit (cid k : Nat) (a : ExitAct) (s : State) : Done :=
  let set := fun (f : Task → Task) => Done.ok (s.modCore cid fun c => c.modTask k fun t => { f t with inst := none, spawns := [] })
  match a with
  | .go t => set fun q => { q with pc := BitVec.ofNat 48 t }
  | .call t r => set fun q => { pushLink q (BitVec.ofNat 48 r) with pc := BitVec.ofNat 48 t }
  | .ret =>
    match ((s.core cid).task k).link with
    | [] => .bad { cause := 0x02, sub := 2, atCommit := true }
    | a :: r => set fun q => { q with pc := a, link := r }
  | .yield t => set fun q => { q with pc := BitVec.ofNat 48 t, creditLane := 0, creditSeq := 0 }
  | .stop => .ok (endTask s cid k)

/-- Escapes of `stx.irr` that this commit held: their release completes the commit (R331). -/
def noteIrr (before : Nat) (cid k : Nat) (s : State) : State :=
  let due := (s.escapes.filter fun e => e.irr && decide (before ≤ e.id)).map (·.id)
  if due.isEmpty then s
  else requestSeal (s.modCore cid fun c => c.modTask k fun t => { t with escDue := due }) true

/-- A commit, worked out to its end (R55). -/
def commitAll (cid k pt : Nat) (p : Patch) (x : Inst) (s : State) : Done :=
  let s0 := advanceGenr (writeRegs cid k x s) cid k x
  let act := fun q s => match doEffect cid k pt p x q s with
    | .bad y => .bad { y with slot := some (y.slot.getD q.slot) }
    | r => r
  (eachDone act x.inOrder (releaseNulled cid k x s0)).then fun s1 =>
    (doExit cid k (x.exit.getD .stop) s1).then fun s2 => .ok (noteIrr s.escNext cid k s2)

/-- A lease's undo stall counter advances (R308). -/
def countStall (s : State) (lease : Nat) : State := s.modLease lease fun L => { L with undoStalls := L.undoStalls + 1 }

/-- A block's stall for undo space: counted once, and timed (R308). -/
def noteStall (s : State) (cid k : Nat) (x : Inst) (lease : Nat) : State :=
  match x.stalled with
  | some _ => s
  | none => countStall (putInst s cid (some k) { x with stalled := some (cyclesOf s cid) }) lease

/-- The cores of a patch. -/
def patchCores (s : State) (pt : Nat) : List Nat := (s.cores.filter fun e => e.2.patch = some pt).map (·.1)

/-- When every live task of a patch waits in `sealpt`, the strip requests a seal (R329). -/
def sealptCheck (s : State) (pt : Nat) : State :=
  let live := (patchCores s pt).flatMap fun c => (s.core c).tasks.filter fun t => t.2.st != .free
  match s.patch pt with
  | some p =>
    if ! p.sealpt && ! live.isEmpty && live.all (·.2.sealWait) then
      requestSeal (s.modPatch pt fun p => { p with sealpt := true }) false
    else s
  | none => s

/-- BLOCK_COMMIT (R55): a task's block instance commits, is discarded because it never can, or goes on waiting. -/
def execBlockCommit (cid slot : Nat) (s : State) : Host.Outcome State Fault Refusal :=
  let c := s.core cid
  .next (match c.patch, (c.task slot).inst with
    | some pt, some x =>
      match s.patch pt with
      | none => s
      | some p =>
        if ! p.st.active || c.holdG then s
        else if x.broken then raiseTask s cid slot x.blk { cause := 0x02, sub := 2, atCommit := true }
        else if x.complete then
          match commitAll cid slot pt p x (traceBlock s cid slot 1 x) with
          | .ok s' =>
            let s' := sealptCheck (markFiring s' pt) pt
            if (c.task slot).dbg.getLsbD 1 && debugOn s p.lease then
              raiseTask s' cid slot ((s'.core cid).task slot).pc.toNat { cause := 0x0F, sub := 3 }
            else s'
          | .bad y => raiseTask s cid slot x.blk { y with atCommit := true }
          | .stall (some l) => noteStall s cid slot x l
          | .stall none => s
        else if quiescent s cid (some slot) x then raiseTask s cid slot x.blk (unmetCause x)
        else s
    | _, _ => s)

/-- Whether a store that stalls since a cycle has stalled for 2^25 cycles of its island (R308). -/
def stalledOut (s : State) (cid : Nat) (since : Option Nat) : Bool := since.any fun n => decide (n + 2 ^ 25 ≤ cyclesOf s cid)

/-- UNDO_STALL_TIMEOUT (R308): a commit that has stalled for 2^25 cycles is discarded with its cause; a pinned core's store that has
leaves its port with the cause raised against the core. -/
def execUndoStallTimeout (cid slot : Nat) (s : State) : Host.Outcome State Fault Refusal :=
  .next (match ((s.core cid).task slot).inst, (s.core cid).gen with
    | some x, _ => if stalledOut s cid x.stalled then raiseTask s cid slot x.blk { cause := 0x16, atCommit := true } else s
    | none, r :: rest =>
      if r.pinned && stalledOut s cid r.stalled then
        raiseCore (s.modCore cid fun c => { c with gen := rest }) cid none 0 0
          { cause := 0x16, slot := some r.slot, lsid := some r.lsid }
      else s
    | none, [] => s)

end Sys2Proof.Machine
end

