-- ==== Sys2Proof/Machine/Fetch.lean ====
section
/-! DEFINITION. Tasks between their blocks: start (R145), fetch (R149, R176), the arbiter (R147, R150), spawn requests (R195),
replayed blocks (R347). -/

namespace Sys2Proof.Machine

/-! ### The decoded block buffer and the fetch (R149, R176) -/

/-- What reading one word of code answers. -/
inductive FetchRes (α : Type) where
  | ok (s : State) (x : α)
  | bad (c : Cause)
  | hold
deriving DecidableEq, Repr

/-- One instruction word read through C with permission X (R149, R176). -/
def fetchWordAt (cid : Nat) (lease a : Nat) (s : State) : FetchRes IWord :=
  let addr := BitVec.ofNat 64 a
  match translate s cid lease a with
  | .unmapped => .bad { cause := 0x08, slot := some 0, addr := addr }
  | .poisoned => .bad { cause := 0x0B, slot := some 0, addr := addr }
  | .moving => .hold
  | .ok l e =>
    if ! peX e then .bad { cause := 0x09, slot := some 0, addr := addr }
    else if denied s lease (genOf s lease) false l then .bad { cause := 0x0A, sub := 1, slot := some 0, addr := addr }
    else if l.isSystem then .ok (heard s cid l) (BitVec.ofNat 64 (bytesNat (nodeRead s lease l 8)))
    else
      let off := a % 64
      match cRead s cid lease (a / 64) (lineLoc l off) false with
      | (s, v, poisoned) =>
        if poisoned then .bad { cause := 0x0B, slot := some 0, addr := addr }
        else .ok s (BitVec.ofNat 64 (bitsOf v (8 * off) 64))

/-- `n` words from an address up. -/
def fetchWords (cid lease : Nat) : Nat → Nat → State → FetchRes (List IWord)
  | 0, _, s => .ok s []
  | n + 1, a, s =>
    match fetchWordAt cid lease (a % 2 ^ 48) s with
    | .bad c => .bad c
    | .hold => .hold
    | .ok s w =>
      match fetchWords cid lease n (a + 8) s with
      | .bad c => .bad c
      | .hold => .hold
      | .ok s ws => .ok s (w :: ws)

/-- A buffered block of the current cache generation (R149). -/
def Core.decoded (c : Core) (a : Nat) : Option DecBlock := c.blocks.find? fun b => b.addr = a && b.gen = c.cacheGen

/-- A block entered in the buffer of 16, the most recently used first (R149). -/
def Core.keepBlock (c : Core) (b : DecBlock) : Core :=
  { c with blocks := (b :: c.blocks.filter (·.addr != b.addr)).take 16 }

/-- A block's words: from the buffer, or read: first the headers, then the rest. -/
def readBlock (cid lease a : Nat) (s : State) : FetchRes (List IWord) :=
  match (s.core cid).decoded a with
  | some b => .ok s b.words
  | none =>
    match fetchWords cid lease 2 a s with
    | .bad c => .bad c
    | .hold => .hold
    | .ok s hs =>
      if (headersErr (hs.getD 0 0) (hs.getD 1 0)).isSome then .ok s hs
      else match fetchWords cid lease (blockWords (hs.getD 0 0) - 2) (a + 16) s with
        | .bad c => .bad c
        | .hold => .hold
        | .ok s ws => .ok s (hs ++ ws)

/-! ### Block start -/

/-- A fresh block instance of a task. -/
def freshInst (n blk mark escMark : Nat) (ws : List IWord) : Inst :=
  { id := n, blk := blk, hdr0 := ws.getD 0 0, hdr1 := ws.getD 1 0, entries := writePart ws, code := codePart ws,
    slots := (codePart ws).map fun _ => {}, writes := List.replicate (hdrNw (ws.getD 0 0)) none, caps := [], exit := none,
    exits := 0, nulls := [], twice := false, mark := mark, escMark := escMark, arm := 0, outs := [], recvd := [],
    heads := [], consts := [], resv := [], stalled := none, epoch := 0 }

/-- The read entries delivered at block start (R53, R149). -/
def deliverReads (c : Core) (k : Nat) (ws : List IWord) (x : Inst) : Inst :=
  (List.range (hdrNr (ws.getD 0 0))).foldl (fun x j =>
    x.deliver 0 ((readTargets ws).getD j .none) (.val (c.readG k (entryIndex (readEntry (readPart ws) j))))) x

/-- A block starts (R149): its instance in flight, its reads delivered. -/
def startBlock (s : State) (cid k : Nat) (ws : List IWord) : State :=
  let c := s.core cid
  let blk := (c.task k).pc.toNat
  let x0 := { freshInst c.nextInst blk c.mangle.nextId s.escNext ws with epoch := leaseEpoch s (coreLease s cid) }
  let x := (deliverReads c k ws x0).settle false
  s.modCore cid fun c =>
    { (c.keepBlock { addr := blk, gen := c.cacheGen, words := ws }).modTask k fun t => { t with inst := some x, broke := false } with
      nextInst := c.nextInst + 1 }

/-- Whether an enabled address breakpoint names a block address (R341): 1 for BRKA0, 2 for BRKA1. -/
def breakAt (t : Task) : Option (BitVec 8) :=
  let hit := fun (r : BitVec 64) => r.getLsbD 63 && (r &&& addrBits).setWidth 48 = t.pc
  if t.broke then none else if hit t.brka0 then some 1 else if hit t.brka1 then some 2 else none

/-- The cause a fetched block is refused for at decode (R61, R62). -/
def decodeCause (e : BlockErr) : Cause :=
  { cause := e.cause, sub := if e.cause = 0x02 then 1 else 0, slot := e.slot, atDecode := true }

/-- BLOCK_FETCH (R149): a live task between blocks fetches its next block and starts it. A cause of a copy walk is
delivered first (R240, R340), then an address breakpoint (R341). -/
def execBlockFetch (cid slot : Nat) (s : State) : Host.Outcome State Fault Refusal :=
  let c := s.core cid
  let t := c.task slot
  .next (match c.patch.bind s.patch with
    | none => s
    | some p =>
      if p.st ≠ .running ∨ p.stop.isSome ∨ t.st ≠ .live ∨ t.inst.isSome ∨ t.sealWait ∨ c.holdG ∨
          s.escapes.any (fun e => t.escDue.contains e.id) then s
      else match t.async with
        | a :: more =>
          let s := s.modCore cid fun c => c.modTask slot fun t => { t with async := more }
          raiseTask s cid slot t.pc.toNat a.raised
        | [] =>
          match breakAt t with
          | some sub =>
            let s := s.modCore cid fun c => c.modTask slot fun t => { t with broke := debugOn s p.lease }
            raiseTask s cid slot t.pc.toNat { cause := 0x0F, sub := sub }
          | none =>
            match readBlock cid p.lease t.pc.toNat s with
            | .hold => s
            | .bad x => raiseTask s cid slot t.pc.toNat x
            | .ok s ws =>
              match blockErr c.frame ws with
              | some e => raiseTask s cid slot t.pc.toNat (decodeCause e)
              | none => startBlock s cid slot ws)

/-! ### Starts (R145, R195) -/

/-- The entry address of a slot in the current context (R36 unit 0). -/
def Core.entryOf (c : Core) (k : Nat) : Nat := c.cfg 0 k + 2 ^ 32 * natBits (c.cfg 0 (8 + k)) 0 16
/-- The configured weight of a slot. -/
def Core.weightOf (c : Core) (k : Nat) : Nat := natBits (c.cfg 0 (16 + k)) 0 4

/-- A task of the current context starts at its configured entry, seeded with SEED xor k (R74, R145). -/
def startConfigured (s : State) (cid k : Nat) : State :=
  let c := s.core cid
  let seed := ((c.patch.bind s.patch).map (·.seed)).getD 0
  startTask s cid k (c.entryOf k) (seed ^^^ BitVec.ofNat 64 k) (c.weightOf k)

/-- Whether a core runs tasks now: its current context is a task context. -/
def Core.inTasks (c : Core) : Bool := c.act.isSome && ! c.isPinned

/-- TASK_START (R145): a FREE slot with a flit, other than a BARRIER, at the head of a channel bound to it. -/
def execTaskStart (cid slot : Nat) (s : State) : Host.Outcome State Fault Refusal :=
  let c := s.core cid
  let t := c.task slot
  let waiting := (List.range 16).any fun j => c.inBound j && c.inTask j = slot && recvReady c j
  .next (match c.patch.bind s.patch with
    | none => s
    | some p =>
      if p.st = .running ∧ p.stop.isNone ∧ c.inTasks ∧ slot < c.nTasks ∧ t.st = .free ∧ t.resv.isNone ∧ waiting ∧ ! c.holdG then
        startConfigured s cid slot
      else s)

/-- The core of a patch at patch-relative coordinates. -/
def patchCore (s : State) (pt px py : Nat) : Option Nat :=
  (s.cores.find? fun e => e.2.patch = some pt && e.2.px = px && e.2.py = py).map (·.1)

/-- What a `tspawn` is answered (R195): a status, or the core and slot reserved, or nothing yet. -/
inductive SpawnReply where
  | status (n : Nat)
  | slot (cid k : Nat)
  | wait
deriving DecidableEq, Repr

/-- The target's checks in order (R195). -/
def spawnCheck (s : State) (pt : Nat) (p : Patch) (wait : Bool) (a : Value) : SpawnReply :=
  let x := bitsOf a 48 6
  let y := bitsOf a 54 6
  if p.w ≤ x ∨ p.h ≤ y then .status 3
  else match patchCore s pt x y with
    | none => .status 3
    | some tc =>
      let c := s.core tc
      if ! c.inTasks then .status 2
      else if bitsOf a 60 4 = 0 then .status 4
      else if bitsOf a 0 3 ≠ 0 then .status 5
      else match (List.range c.nTasks).find? fun k => (c.task k).st = .free && (c.task k).resv.isNone with
        | some k => .slot tc k
        | none => if wait then .wait else .status 1

/-- One request answered: the result delivered, an OK captured for commit. -/
def answerSpawn (s : State) (cid k pt : Nat) (p : Patch) (q : Nat × Nat × Bool × Value × Value) : State :=
  let drop := fun (s : State) => s.modCore cid fun c => c.modTask k fun t => { t with spawns := t.spawns.filter (· != q) }
  match ((s.core cid).task k).inst.filter (·.id = q.1) with
  | none => drop s
  | some x =>
    match envAt s cid (some k) x q.2.1, (x.at q.2.1).bind headOf with
    | some e, some h =>
      match spawnCheck s pt p q.2.2.1 q.2.2.2.1 with
      | .wait => s
      | .status n => drop (e.result h (scalar n) s)
      | .slot tc sl =>
        let a := q.2.2.2.1
        let s := s.modCore tc fun c => c.modTask sl fun t => { t with resv := some (cid, k) }
        drop (e.capture h none
          (.spawn tc sl (bitsOf a 0 48) (BitVec.ofNat 64 (bitsOf a 64 64)) (bitsOf a 60 4) q.2.2.2.2) (some (scalar (256 * sl))) s)
    | _, _ => drop s

/-- TSPAWN_REQUEST (R195): the first request of a task that its target can answer is answered; while the placer stops the patch, no start
is (R171). -/
def execTspawnRequest (cid slot : Nat) (s : State) : Host.Outcome State Fault Refusal :=
  let c := s.core cid
  .next (match c.patch with
    | none => s
    | some pt =>
      match s.patch pt with
      | none => s
      | some p =>
        if p.st ≠ .running ∨ p.stop.isSome then s
        else match (c.task slot).spawns.find? fun q => spawnCheck s pt p q.2.2.1 q.2.2.2.1 != .wait with
          | some q => answerSpawn s cid slot pt p q
          | none => s)

/-! ### The arbiter (R147, R150) -/

/-- Whether an element code is shaped, not scalar. -/
def shapedW : IntW → Bool
  | .s64 | .s32 => false
  | _ => true

/-- Whether an instruction issues in the lane slot (R150). -/
def laneClass (i : Instr) : Bool :=
  match i with
  | .add _ e _ | .sub _ e _ | .adds _ e _ | .subs _ e _ | .mul _ e _ | .mulh _ e _ | .mulhz _ e _ | .mad _ e _ | .div _ e _
  | .divz _ e _ | .rem _ e _ | .remz _ e _ | .and _ e _ | .or _ e _ | .xor _ e _ | .andn _ e _ | .orn _ e _ | .shl _ e _
  | .shr _ e _ | .sar _ e _ | .rol _ e _ | .ext _ e _ | .extz _ e _ | .ins _ e _ | .min _ e _ | .max _ e _ | .minz _ e _
  | .maxz _ e _ | .lea _ e _ | .clz _ e | .ctz _ e | .popc _ e | .brev _ e | .bswap _ e | .abs _ e | .neg _ e => shapedW e.w
  | .test _ _ w _ | .sel _ w | .lmask _ w | .anyl _ w | .alll _ w | .movi _ w _ => shapedW w
  | .fadd _ e _ | .fsub _ e _ | .fmul _ e _ | .ffma _ e _ | .ffms _ e _ | .fnma _ e _ | .fmin _ e _ | .fmax _ e _
  | .fcpys _ e _ | .fdiv _ e _ | .fabs _ e | .fneg _ e | .ftest _ e _ | .fclass _ e _ | .fcvt _ e _ | .icvtf _ e _
  | .fcvti _ e _ | .frcp _ e | .frsq _ e | .fsqrt _ e | .fexp2 _ e | .flog2 _ e | .fsinp _ e | .fcosp _ e | .ftanh _ e
  | .dot _ e _ | .pack _ e _ | .unpack _ e _ | .scaleb _ e _ | .quant _ e _ => ! e.scalar
  | .perm _ _ _ | .rotl _ _ _ _ | .shfl _ _ _ _ | .bcastl _ _ _ | .redl _ _ _ _ _ | .scanl _ _ _ _ _ _ | .compr _ _
  | .expnd _ _ _ | .lsel _ _ | .iota _ _ _ _ => true
  | _ => false

/-- The slots of a task's instance that one issue slot could take now. -/
def issuable (s : State) (cid k : Nat) (lane : Bool) : List Nat :=
  match ((s.core cid).task k).inst with
  | none => []
  | some x => (firable s cid (some k) x).filter fun j => match x.at j with
    | some i => laneClass i == lane
    | none => false

/-- A task's credit in one of the two selections. -/
def Task.credit (t : Task) (lane : Bool) : Int := if lane then t.creditLane else t.creditSeq
/-- It changed. -/
def Task.addCredit (t : Task) (lane : Bool) (n : Int) : Task :=
  if lane then { t with creditLane := t.creditLane + n } else { t with creditSeq := t.creditSeq + n }

/-- One selection (R147): ready tasks gain their weights; the greatest credit, then the lowest slot, is granted and pays the sum. -/
def selectTask (s : State) (cid : Nat) (lane : Bool) (pick : Nat) : State :=
  let ks := (List.range 8).filter fun k => ! (issuable s cid k lane).isEmpty
  let total := ((ks.map fun k => ((s.core cid).task k).eff).foldl (· + ·) 0 : Nat)
  let c := ks.foldl (fun c k => c.modTask k fun t => t.addCredit lane t.eff) (s.core cid)
  let best := ks.foldl (fun (b : Option Nat) k => match b with
    | none => some k
    | some m => if (c.task m).credit lane < (c.task k).credit lane then some k else some m) none
  match best with
  | none => s
  | some k =>
    let js := issuable s cid k lane
    let g : Grant := { cid := cid, task := some k, inst := (((s.core cid).task k).inst.map (·.id)).getD 0,
                       slot := js.getD (pick % js.length) 0 }
    { s.setCore cid (c.modTask k fun t => t.addCredit lane (-(total : Int))) with grants := s.grants ++ [g] }

/-- The unit in which fill is counted: every depth from 1 to 64, and every number of channels from 1 to 16, divides its root. -/
def fillUnit : Nat := ((List.range 64).foldl (fun n i => Nat.lcm n (i + 1)) 1) ^ 2

/-- The mean over a task's bound in-channels of flits held divided by depth, in `fillUnit`ths (R147). -/
def fillShare (c : Core) (k : Nat) : Nat :=
  let js := (List.range 16).filter fun j => c.inBound j && c.inTask j = k
  ((js.map fun j => fillUnit / Nat.max 1 (c.inDepth j) * (c.inCh j).buf.length).foldl (· + ·) 0) / Nat.max 1 js.length

/-- `n` cycles added to the window of R147: each slot's fill over them, and their number. -/
def Core.sampleFill (n : Nat) (c : Core) : Core :=
  { c with winFill := (List.range c.nTasks).foldl (fun w k =>
      tmod w k (0, 0) fun p => (p.1 + n * fillShare c k, p.2 + n)) c.winFill }

/-- The slots of a pinned core's instances that can fire, oldest instance first. -/
def pinnedGrants (s : State) (cid : Nat) : List Grant :=
  (s.core cid).pinst.flatMap fun x => (firable s cid none x).map fun j => { cid := cid, task := none, inst := x.id, slot := j }

/-- A wave of BARRIERs in a task context (R295): when every bound in-channel holds one at its head and there is room, the core consumes
them all as an acquire and emits one on every bound PATH or PEER out-channel as a release. -/
def barrierWave (s : State) (cid : Nat) : State :=
  let c := s.core cid
  let js := (List.range 16).filter c.inBound
  if c.inTasks && ! js.isEmpty && js.all (fun j => (c.headFlit j).map (·.kind) = some 8) && roomIn c (barChans c) &&
      ! drainStalls s cid then
    let v := (((js.head?).bind c.headFlit).map (·.value)).getD 0
    let s := release (acquire s cid (some .lease)) cid (some .lease)
    s.modCore cid fun c =>
      let c := js.foldl (fun c j => c.modIn j fun ch => { ch with buf := ch.buf.tail }) c
      (barChans c).foldl (fun c j => c.emit j { kind := 8, value := v, rin := c.rin }) c
  else s

/-- ISSUE_GRANT (R147): one issue cycle of a core: the lane slot's selection and the sequencer slot's. In a pinned context
every stage fires what it can. `pickLane` and `pickSeq` choose among the granted task's ready instructions. -/
def execIssueGrant (cid pickLane pickSeq : Nat) (s : State) : Host.Outcome State Fault Refusal :=
  .next (match (s.core cid).patch.bind s.patch with
    | none => s
    | some p =>
      if ! p.st.active then s
      else
        let s := if p.st = .running then barrierWave s cid else s
        let s := selectTask (selectTask s cid true pickLane) cid false pickSeq
        { s with grants := s.grants ++ pinnedGrants s cid })

/-- Whether a window of 4,096 cycles has passed (R147). -/
def Core.windowDone (c : Core) : Bool := decide (4096 ≤ (tgetD c.winFill 0 (0, 0)).2)

/-- WEIGHT_RECOMPUTE (R147): effective weights from the mean over the window that has passed. -/
def execWeightRecompute (cid : Nat) (s : State) : Host.Outcome State Fault Refusal :=
  .next (s.modCore cid fun c =>
    if ! c.windowDone then c
    else
      { (List.range c.nTasks).foldl (fun c k =>
          let w := tgetD c.winFill k (0, 0)
          c.modTask k fun t => { t with eff := Nat.min 15 (t.weight + 4 * w.1 / (fillUnit * Nat.max 1 w.2)) }) c with winFill := [] })

/-! ### Replay (R347) -/

/-- A replay failure, counted with those of the last second (R117, R347). -/
def Core.replayFailed (now : Nat) (c : Core) : Core :=
  if 3 ≤ c.replays.length then c else { c with replays := now :: c.replays.filter fun t => decide (now < t + 10 ^ 9) }

/-- RESIDUE_MISMATCH (R347): a mismatch reruns the block instance as a new one, or replays the pinned instances, with no
other effect; a second mismatch is a replay failure, counted for darning (R117). -/
def execResidueMismatch (cid slot : Nat) (again : Bool) (s : State) : Host.Outcome State Fault Refusal :=
  .next (
    if again then s.modCore cid (Core.replayFailed s.time)
    else discard s cid slot)

end Sys2Proof.Machine
end

