-- ==== Sys2Proof/Machine/Pinned.lean ====
section
/-! DEFINITION. How an instance of a pinned block starts (R155 to R159, R220 to R223): which heads it takes, what kind of instance
they make, what room it needs, and the instance itself. -/

namespace Sys2Proof.Machine

/-! ### What the block reads and emits (R154, R156, R220) -/

/-- The instruction in a stage slot of an arm. -/
def Core.stageInstr (c : Core) (arm slot : Nat) : Option Instr :=
  match decode (c.stageWord arm slot) with
  | .ok i => some i
  | .error _ => none

/-- The words of an arm, by slot (R157). -/
def Core.armCode (c : Core) (arm : Nat) : List IWord := (List.range 12).map (c.stageWord arm)

/-- The operators that see a head's kind (R156). -/
def streamOp : Instr → Bool
  | .accs _ _ _ _ _ | .stopk _ _ | .tkind _ => true
  | _ => false

/-- The slot a target delivers to. -/
def targetSlot : Target → Option Nat
  | .opA n | .opB n | .opC n | .pred n => some n.toNat
  | _ => none

/-- The target of read entry j. -/
def Core.pinTarget (c : Core) (j : Nat) : Target := (entryTarget (c.pinRead j)).getD .none
/-- Its in-channel. -/
def Core.pinChan (c : Core) (j : Nat) : Nat := natBits (c.pinRead j) 0 4

/-- Whether read entry j delivers only to stream operators in an arm. -/
def Core.toOp (c : Core) (arm j : Nat) : Bool :=
  match (targetSlot (c.pinTarget j)).bind (c.stageInstr arm) with
  | some i => streamOp i
  | none => false

/-- Whether read entry j falls under R156. -/
def Core.viaOp (c : Core) (j : Nat) : Bool := c.toOp 0 j && (! c.pinAsen || c.toOp 1 j)

/-- In-channels that take part in R155: read entries not under R156, and the masks of `redn` (R223). -/
def Core.partChans (c : Core) : List Nat :=
  (((List.range c.pinNr).filter fun j => ! c.viaOp j).map c.pinChan ++ c.rednChans).eraseDups

/-- In-channels that only stream operators read. -/
def Core.opChans (c : Core) : List Nat :=
  (((List.range c.pinNr).filter c.viaOp).map c.pinChan).eraseDups.filter fun j => ! c.partChans.contains j

/-- Every in-channel an instance consumes a head of. -/
def Core.pinChans (c : Core) : List Nat := (c.partChans ++ c.opChans ++ c.aselChans).eraseDups

/-- Out-channels of the write entries, in entry order. -/
def Core.writeChans (c : Core) : List Nat := (List.range c.pinNw).map c.pinOut

/-- Slots that a data instance may fill by kind 110 targets: two for `accs`, one for any other producer (R220). -/
def Core.outTargets (c : Core) (arm : Nat) : List Nat :=
  (List.range 12).flatMap fun j => match c.stageInstr arm j with
    | none => []
    | some i => match headOf i with
      | none => []
      | some h => [h.t0, h.t1].flatMap fun t => match t with
        | .out n => match i with
          | .accs _ _ _ _ _ => [n.toNat, n.toNat]
          | _ => [n.toNat]
        | _ => []

/-- Whether every out-channel of a list has room for as many tokens as the list names it. -/
def roomForAll (c : Core) (js : List Nat) : Bool := js.eraseDups.all fun j => c.outRoom j (js.count j)

/-- Bound out-channels of the current context. -/
def Core.boundOuts (c : Core) : List Nat := (List.range 16).filter c.outBound

/-! ### What kind of instance the heads make (R155) -/

/-- What the heads make: a wait, CHANNEL_KIND on an in-channel, or an instance. -/
inductive PinKind where
  | wait | bad (ch : Nat) | data | stop (level : Nat) | aligned (kind : Nat)
deriving DecidableEq, Repr

/-- Aligned kinds: BARRIER, MARKER, RELATCH (R24). -/
def alignedKind (k : Nat) : Bool := k = 8 || k = 9 || k = 11
/-- STOP kinds. -/
def stopKind (k : Nat) : Bool := decide (1 ≤ k) && decide (k ≤ 7)

/-- The kind of an in-channel's head. -/
def Core.headKind (c : Core) (j : Nat) : Nat := ((c.headFlit j).map (·.kind.toNat)).getD 0

/-- Heads all present: the table of R155, with the entries of R156 apart. -/
def pinKindOf (c : Core) : PinKind :=
  let all := c.pinChans
  let part := c.partChans ++ c.aselChans
  match all.find? (fun j => alignedKind (c.headKind j)) with
  | some a =>
    let k := c.headKind a
    match all.find? (fun j => alignedKind (c.headKind j) && c.headKind j != k) with
    | some j => .bad j
    | none => if all.all (fun j => c.headKind j = k) then .aligned k else .wait
  | none =>
    match c.opChans.find? (fun j => ! (decide (c.headKind j ≤ 7) || c.headKind j = 12)) with
    | some j => .bad j
    | none =>
      match part.find? (fun j => stopKind (c.headKind j)) with
      | some a =>
        match part.find? (fun j => c.headKind j != c.headKind a) with
        | some j => .bad j
        | none => .stop (c.headKind a)
      | none =>
        match c.partChans.find? (fun j => ! (c.headKind j = 0 || c.headKind j = 12)) with
        | some j => .bad j
        | none =>
          match c.aselChans.find? (fun j => c.headKind j != 10) with
          | some j => .bad j
          | none => .data

/-! ### The instance -/

/-- A pinned instance before anything is delivered to it. -/
def freshPin (c : Core) (arm : Nat) : Inst :=
  { id := c.nextInst, blk := 0, hdr0 := 0, hdr1 := 0, entries := [], code := c.armCode arm,
    slots := List.replicate 12 {}, writes := List.replicate c.pinNw none, caps := [], exit := none, exits := 0, nulls := [],
    twice := false, mark := 0, escMark := 0, arm := arm, outs := [], recvd := [], heads := [], consts := [],
    resv := [], stalled := none, epoch := 0 }

/-- The operand that read entry j delivers in an arm, given its head (R155, R156, R173, R220). -/
def pinOpnd (c : Core) (arm j : Nat) (f : Flit) : Opnd :=
  if c.toOp arm j then .tok f.kind f.value else if f.kind = 12 then .null else .val f.value

/-- Read entries delivered, those that `p` picks. -/
def deliverHeads (c : Core) (arm : Nat) (p : Nat → Bool) (x : Inst) : Inst :=
  ((List.range c.pinNr).filter p).foldl (fun x j => match c.headFlit (c.pinChan j) with
    | some f => x.deliver 0 (c.pinTarget j) (pinOpnd c arm j f)
    | none => x) x

/-- Constants that the instance reads, as they stand when it starts (R180). -/
def pinConsts (c : Core) (arm : Nat) : Table Value :=
  (List.range 12).foldl (fun t j => match c.stageInstr arm j with
    | some (.constk _ k) => tset t k.toNat (c.constReg k.toNat)
    | _ => t) []

/-- A data instance (R155). -/
def dataInst (c : Core) (arm : Nat) : Inst :=
  let x := deliverHeads c arm (fun _ => true) (freshPin c arm)
  let hs := c.rednChans.eraseDups.filterMap fun j => ((c.inCh j).buf.head?).map fun f => (j, f.1, f.2)
  { x with heads := hs, consts := pinConsts c arm, resv := c.writeChans ++ c.outTargets arm }.settle true

/-- A stop instance (R155): STOP L on every write entry; of the slots only stream operators fire, those of arm 0. -/
def stopInst (c : Core) (level : Nat) : Inst :=
  let x := deliverHeads c 0 c.viaOp (freshPin c 0)
  let live := fun (j : Nat) => match c.stageInstr 0 j with
    | some i => streamOp i
    | none => false
  let slots := (List.range 12).map fun j => if live j then x.slots.getD j {} else { x.slots.getD j {} with ph := .dead }
  { x with slots := slots, writes := x.writes.map fun _ => some (.tok (BitVec.ofNat 4 level) 0),
           resv := c.writeChans ++ c.outTargets 0 }.settle true

/-- An aligned instance (R155): one token of its kind on every bound out-channel; no slot fires. -/
def alignedInst (c : Core) (kind : Nat) : Inst :=
  let x := freshPin c 0
  let low := c.pinChans.foldl Nat.min 16
  let f : Flit := { kind := BitVec.ofNat 4 kind, value := ((c.headFlit low).map (·.value)).getD 0, rin := 0 }
  { x with slots := x.slots.map (fun q => { q with ph := .dead }), writes := [], outs := c.boundOuts.map fun j => (0, j, f),
           resv := c.boundOuts }

/-- Every consumed channel's head removed; a STOP of level 7 is remembered (R141). -/
def Core.consume (c : Core) (js : List Nat) : Core :=
  js.foldl (fun c j =>
    let c := if c.headKind j = 7 ∧ ! c.seen7.contains j then { c with seen7 := j :: c.seen7 } else c
    c.modIn j fun ch => { ch with buf := ch.buf.tail }) c

/-- An instance enters the stages behind the others (R158). -/
def startPin (s : State) (cid pt : Nat) (js : List Nat) (x : Inst) : State :=
  let s := s.modCore cid fun c =>
    let c := (c.consume js).reserve x.resv
    drainPinned (c.pinst.length + 1) { c with pinst := c.pinst ++ [x], nextInst := c.nextInst + 1 }
  markFiring s pt

/-! ### Blocks paced by their streams (R159) -/

/-- The streams that the block's accesses name. -/
def Core.namedStreams (c : Core) : List Nat :=
  ((List.range 12).filterMap fun j => match c.stageInstr 0 j with
    | some (.ldg _ _ _ m) | some (.stg _ _ _ m) => some (streamNo m)
    | _ => none).eraseDups

/-- Instances in the stages whose access of a stream is still to come. -/
def Core.streamDue (c : Core) (k : Nat) : Nat :=
  (c.pinst.filter fun x => (List.range 12).any fun j => (x.mayFire true).getD j false && (x.slots.getD j {}).ph = .idle &&
    match x.at j with
    | some (.ldg _ _ _ m) | some (.stg _ _ _ m) => streamNo m = k
    | _ => false).length

/-- Whether another element is left for an instance to take. -/
def Core.moreElements (c : Core) : Bool :=
  c.namedStreams.any fun k => decide (c.streamAt k + c.streamDue k < c.streamCount k)

/-- A block without inputs: an instance per element, then one STOP 7 on every bound out-channel (R159); none where neither can come now. -/
def paceStreams (cid pt : Nat) (s : State) : Option State :=
  let c := s.core cid
  if c.moreElements then
    let x := dataInst c 0
    if roomForAll c x.resv then some (startPin s cid pt [] x) else none
  else if ! c.stop7 && c.pinst.isEmpty && c.namedStreams.all c.streamEnded && roomForAll c c.boundOuts then
    some (markFiring (s.modCore cid fun c =>
      { c.boundOuts.foldl (fun c j => c.emit j { kind := 7, value := 0, rin := c.rin }) c with stop7 := true }) pt)
  else none

/-- The next instance of a core's pinned block as its heads and its room allow it (R155), or the cause that they raise; none where nothing
starts. At an aligned MARKER a discrepancy found by the conservation check is RATE_IMBALANCE and a replay failure, and the instance does
not start (R347). A BARRIER's instance starts when every instance before it has emitted and every request of theirs has performed, and
emits at once: its release covers their stores (R283, R295). -/
def pinStep (s : State) (cid pt : Nat) (bad : Bool) : Option State :=
  let c := s.core cid
  if c.armCode 0 = List.replicate 12 0 ∧ c.pinNr = 0 ∧ c.pinNw = 0 then none
  else if c.pinNr = 0 ∧ ! c.pinAsen ∧ c.rednChans = [] then paceStreams cid pt s
  else if ! c.pinChans.all fun j => (c.headFlit j).isSome then none
  else match pinKindOf c with
    | .wait => none
    | .bad j => some (raiseCore s cid none 0 0 { cause := 0x0D, chan := some (false, j) })
    | .data =>
      let arm := match c.aselChans with
        | j :: _ => ((c.headFlit j).map (·.value.toNat % 2)).getD 0
        | [] => 0
      let x := dataInst c arm
      if roomForAll c x.resv then some (startPin s cid pt c.pinChans x) else none
    | .stop l =>
      let x := stopInst c l
      if roomForAll c x.resv then some (startPin s cid pt c.pinChans x) else none
    | .aligned k =>
      let x := alignedInst c k
      if ! roomForAll c x.resv then none
      else if k = 9 ∧ bad then some (raiseCore (s.modCore cid (Core.replayFailed s.time)) cid none 0 0 { cause := 0x12 })
      else if k = 8 then
        if drainStalls s cid ∨ c.pinst ≠ [] ∨ c.gen ≠ [] then none
        else some (startPin (release (acquire s cid (some .lease)) cid (some .lease)) cid pt c.pinChans x)
      else some (startPin (if k = 9 then s.modCore cid Core.applyConst else s) cid pt c.pinChans x)

/-- PINNED_INSTANCE_START (R155): an instance starts when its heads and its room are there; not while the patch stands at a transition for
the placer (R35). -/
def execPinnedInstanceStart (cid : Nat) (bad : Bool) (s : State) : Host.Outcome State Fault Refusal :=
  .next (match (s.core cid).patch.bind fun pt => (s.patch pt).map fun p => (pt, p) with
    | none => s
    | some (pt, p) => if p.st ≠ .running ∨ p.held ∨ ! (s.core cid).isPinned then s else (pinStep s cid pt bad).getD s)

end Sys2Proof.Machine
end

