-- ==== Sys2Proof/Machine/Region.lean ====
section
/-! DEFINITION. A patch as a whole: local done and the region sequencer (R140 to R143), retirement (R355, R356), the stop for a
fault (R335), the stall watchdog (R168, R170), the pleat handshake (R129), rinse (R112). -/

namespace Sys2Proof.Machine

/-! ### Rinse and the end of a patch (R112, R356) -/

/-- Whether a request is of a spilling channel. -/
def ReqKind.forChannel : ReqKind → Bool
  | .spill _ | .unspill _ => true
  | _ => false

/-- Whether a request's reply is a firing (R168): the device's own requests make none. -/
def ReqKind.fires : ReqKind → Bool
  | .spill _ | .unspill _ | .record _ => false
  | _ => true

/-- A core rinsed (R25, R112): pool, latches, channels, contexts, constants, tags, planes and event counters zero. What is not the work's
stays: its RIN, its own replays, whether it is withdrawn, its gathered misroutes (R111), records still to be written (R362), and replies
still on their way, which it will drop (R357). -/
def rinsedCore (c : Core) : Core :=
  { rin := c.rin, gen := c.gen, late := c.late.filter fun r => ! r.kind.forChannel, replays := c.replays, withdrawn := c.withdrawn,
    outs := (c.outs.filter fun o => o.2.drops.isSome).map fun o => (o.1, { drops := o.2.drops : OutCh }) }

/-- A core rinsed in place; its cluster's TLB loses the lease's entries. -/
def rinseCore (s : State) (cid lease : Nat) : State :=
  (s.setCore cid (rinsedCore (s.core cid))).modCluster (clusterOf cid) fun cl =>
    { cl with tlb := cl.tlb.filter (·.lease != lease) }

/-- A residency interval ends (R362): with a profiling session open on the lease, the core writes its record. -/
def closeResidency (s : State) (cid : Nat) (flags : Nat) : State :=
  let c := s.core cid
  let l := coreLease s cid
  let ptag := ((c.patch.bind s.patch).map (·.ptag.toNat)).getD 0
  let now := tgetD c.counters (c.act.getD 0) []
  let events := (List.range 48).flatMap fun e => num 8 (tgetD now e 0 - tgetD c.resBase e 0)
  let rec' := num 2 (xy12 c.px c.py) ++ num 1 (c.act.getD 0) ++ num 1 flags ++ num 2 1 ++ num 2 l ++ num 8 c.resStart ++
    num 8 s.time ++ num 4 c.rin.toNat ++ num 4 ptag ++ num 32 0 ++ events
  let s := if c.act.isSome then profWrite s cid l rec' else s
  s.modCore cid fun c => { c with resStart := s.time, resBase := now }

/-- Cores of every patch: the cores that hold it, wherever it stands. -/
def forCores (s : State) (pt : Nat) (f : State → Nat → State) : State := (patchCores s pt).foldl f s

/-- A patch dropped: its cores rinsed but for the event counts, which the next launch resets (R361); its record, its image and its waiters
gone (R356, R357). -/
def dropPatch (s : State) (pt : Nat) : State :=
  let lease := ((s.patch pt).map (·.lease)).getD 0
  let cs := patchCores s pt
  let s := cs.foldl (fun s cid =>
    let n := (s.core cid).counters
    (rinseCore s cid lease).modCore cid fun c => { c with counters := n }) s
  let s := delist s fun w => w.core.any fun c => cs.contains c.1
  { s with patches := terase s.patches pt, images := terase s.images pt, victims := s.victims.filter fun e => e.2.patch != some pt }

/-- The borrowed core-ns of a packet up to now (R99). -/
def Pkt.lentNow (p : Pkt) (now : Nat) : Nat := p.lent + if p.stage = .running then p.borrowed * (now - p.began) else 0

/-- The cores that a packet's patch borrows from now on (R99). -/
def reborrow (s : State) (n cores : Nat) : State :=
  s.modPkt n fun p => { p with lent := p.lentNow s.time, began := s.time, borrowed := cores }

/-- A LAUNCH in fill goes back to the place stage: its patch is dropped, its estimate given back (R99, R100). -/
def backToPlace (s : State) (pt n : Nat) : State :=
  let s := dropPatch s pt
  match s.pkt n with
  | none => s
  | some p =>
    (s.modOwner (s.queue p.queue).owner fun o => { o with deficit := o.deficit + p.charge }).modPkt n fun q =>
      { q with stage := .place, patch := none, skipFill := false, borrowed := 0, charge := 0 }

/-- The last step of a placer's operation (R113 step 7, R115): the patch's cuts open, its `pleat` requests are heard again. -/
def endStop (s : State) (pt : Nat) : State :=
  forCores (s.modPatch pt fun p => { p with stop := none, held := false }) pt fun s cid =>
    s.modCore cid fun c => { c with pleat := { c.pleat with lock := false } }

/-- Placer operations that are not to be carried out any more are given up: the patches that they were stopping run on. -/
def giveUp (s : State) (pick : Instr × Nat → Bool) : State :=
  (s.patches.filter fun e => e.2.stop.any pick).foldl (fun s e => endStop s e.1) s

/-- A packet goes to the complete stage with its outcome (R97, R98); its dependence entries are free again. A LAUNCH that ran gives its
estimate back to its owner's deficit and is charged the borrowed cores' time (R99). -/
def endPkt (s : State) (n status field : Nat) (result : BitVec 64) : State :=
  match (s.pkt n).filter (·.stage != .complete) with
  | none => s
  | some p =>
    let ran := p.lentNow s.time / 1000
    let s := s.modOwner (s.queue p.queue).owner fun o => { o with deficit := o.deficit + p.charge - ran }
    let seq := s.tick
    let s := giveUp (delist s fun w => w.pk = some n) fun k => k.2 = n + 1
    s.modPkt n fun p => { p with stage := .complete, status := status, field := field, result := result, doneSeq := seq, charge := 0 }

/-! ### Local done (R141) -/

/-- Copy packets of a core still in a queue (R234). -/
def copyOf (s : State) (cid : Nat) : Bool :=
  (s.cluster (clusterOf cid)).queues.any fun q => q.2.any fun e => e.cid = cid && e.pk.isNone

/-- Whether nothing the core issued is outstanding: GEN port, copy engine, mangle. -/
def settledCore (s : State) (cid : Nat) : Bool :=
  let c := s.core cid
  c.gen.isEmpty && ! c.late.any (·.kind.forChannel) && ! copyOf s cid && c.mangle.queue.isEmpty

/-- Whether every out-channel of a core is empty. -/
def Core.outsEmpty (c : Core) : Bool := c.outs.all fun o => o.2.buf.isEmpty && o.2.spill.isNone

/-- In-channels that the block and the elements of the current pinned context read (R141). -/
def Core.readsAll (c : Core) : List Nat := (c.pinChans ++ c.elemChans).eraseDups

/-- Whether the pinned context's block stands without inputs (R159). -/
def Core.paced (c : Core) : Bool :=
  decide (c.pinNr = 0) && ! c.pinAsen && c.rednChans.isEmpty && (c.armCode 0).any (· != 0)

/-- Local done (R141). -/
def localDone (s : State) (cid : Nat) : Bool :=
  let c := s.core cid
  let bound := (List.range 16).filter c.inBound
  c.outsEmpty && settledCore s cid &&
    if c.isPinned then
      c.pinst.isEmpty && (! c.paced || c.stop7) && c.elems.all (·.2.outq.isEmpty) &&
        bound.all fun j => if c.readsAll.contains j then c.seen7.contains j else (c.inCh j).buf.isEmpty
    else
      (List.range 8).all (fun k => (c.task k).st = .free && (c.task k).resv.isNone) && bound.all fun j => (c.inCh j).buf.isEmpty

/-! ### Requests (R140, R142) -/

/-- The first context entry of a patch: 6 for work in a victim's cores (R350). -/
def ctxBase (p : Patch) : Nat := if p.host.isSome then 6 else 0

/-- Occupancy mode: bit 28 of the context's SEQ route words (R142). -/
def patchOcc (s : State) (pt : Nat) : Bool :=
  (patchCores s pt).any fun cid => (List.range 16).any fun j =>
    routeKind ((s.core cid).route j) = 3 && ((s.core cid).route j).testBit 28

/-- Whether some core of a patch holds local done. -/
def someDone (s : State) (pt : Nat) : Bool := (patchCores s pt).any (localDone s)

/-- In predicate mode the oldest request is latched once a core has reported done (R142); while the placer has the patch in hand none is,
and the oldest stays the oldest. -/
def latchCtx (s : State) (pt : Nat) : State :=
  if ! patchOcc s pt && someDone s pt then
    s.modPatch pt fun p => if p.stop.isSome then p else { p with latched := p.latched.or (p.reqs.head?.map (·.1)) }
  else s

/-- A flit that comes over a SEQ route enters the sequencer's queue of 64, or raises its cause; none while the queue is full (R140). `key`
is the out-channel, none for a router element. -/
def toSequencer (s : State) (cid : Nat) (key : Option Nat) (f : Flit) : Option State :=
  let c := s.core cid
  let chan := key.map fun j => (true, j)
  match c.patch.bind fun pt => (s.patch pt).map fun p => (pt, p) with
  | none => none
  | some (pt, p) =>
    let n := bitsOf f.value 0 3
    if p.st ≠ .running then none
    else if f.kind ≠ 10 then some (raiseCore s cid none 0 0 { cause := 0x0D, chan := chan })
    else if hNctx p.hdr ≤ n then some (raiseCore s cid none 0 0 { cause := 0x14, chan := chan })
    else if 64 ≤ p.reqs.length then none
    else some (s.modPatch pt fun p => { p with reqs := p.reqs ++ [(n, c.px, c.py)] })

/-- CONTEXT_REQUEST (R140): the head of a SEQ-routed out-channel goes to the sequencer. -/
def execContextRequest (cid out : Nat) (s : State) : Host.Outcome State Fault Refusal :=
  let c := s.core cid
  .next (if ! c.outBound out ∨ routeKind (c.route out) ≠ 3 then s
    else match (c.outCh out).buf with
      | [] => s
      | f :: r => match toSequencer s cid (some out) f with
        | some s => latchCtx (s.modCore cid fun c => c.modOut out fun o => { o with buf := r }) (c.patch.getD 0)
        | none => s)

/-- The context named by the most queued requests, the lower number on a tie (R142). -/
def mostAsked (reqs : List (Nat × Nat × Nat)) : Nat :=
  let count := fun n => (reqs.filter (·.1 = n)).length
  (List.range 8).foldl (fun b n => if count b < count n then n else b) 0

/-- The sequencer's choice and the queue left (R142); none where the queue is empty. -/
def chooseCtx (occ : Bool) (p : Patch) : Option (Nat × List (Nat × Nat × Nat)) :=
  match p.reqs with
  | [] => none
  | q :: r =>
    if occ then
      let n := mostAsked p.reqs
      some (n, p.reqs.filter (·.1 != n))
    else some (q.1, r)

/-! ### A transition (R143) -/

/-- What a context entry starts from: empty channels, elements and accumulators as at first (R143, R165, R220, R231). -/
def Core.enterCtx (c : Core) (ctx : Nat) : Core :=
  let c := match c.act with
    | some a => c.modCtx a fun x => { x with st := .loaded }
    | none => c
  let c := c.modCtx ctx fun x => { x with st := .active }
  { c with act := some ctx, ins := [], outs := tmap (fun _ o => { drops := o.drops : OutCh }) c.outs, elems := [], accs := [],
           streams := [], seen7 := [], stop7 := false, pinst := [] }

/-- The argument flits of a launch placed in a task's frame (R87, R145). -/
def Core.giveArgs (c : Core) (args : List Value) (k : Nat) : Core :=
  ((List.range c.frame).zip args).foldl (fun c a => c.writeG k a.1 a.2) c

/-- Tasks whose start bit is set start, with the arguments of their launch (R36 unit 0, R87, R143, R145). -/
def startBits (s : State) (cid : Nat) : State :=
  let c := s.core cid
  let args := ((c.patch.bind s.patch).map (·.args)).getD []
  if c.inTasks then
    ((List.range c.nTasks).filter fun k => (c.cfg 0 (16 + k)).testBit 4).foldl
      (fun s k => (startConfigured s cid k).modCore cid fun c => c.giveArgs args k) s
  else s

/-- Whether any task of a patch traces (R363). -/
def patchTraces (s : State) (pt : Nat) : Bool :=
  (patchCores s pt).any fun cid => (s.core cid).tasks.any fun t => t.2.dbg.getLsbD 0

/-- A record on patch core (0, 0) while any task of the patch traces (R363). -/
def tracePatch (s : State) (pt kind what : Nat) : State :=
  match patchCore s pt 0 0 with
  | some cid =>
    if patchTraces s pt then
      let c := s.core cid
      profWrite s cid (coreLease s cid) (traceBytes kind 0 0 c.rin what s.time (coreLease s cid) (c.act.getD 0))
    else s
  | none => s

/-- Every core of a patch enters a context at once (R143). -/
def enterAll (s : State) (pt ctx : Nat) : State :=
  let s := forCores s pt fun s cid => (closeResidency s cid 0).modCore cid fun c => c.enterCtx ctx
  forCores (s.modPatch pt fun p => { p with ctx := ctx }) pt startBits

/-! ### Retirement (R355, R356) -/

/-- The last of retirement: the device-scope release, then residency; a kept patch stays resident,
any other, and pre-empting work (R350), is rinsed. -/
def finishPatch (s : State) (pt : Nat) (keep : Bool) : State :=
  let s := forCores s pt fun s cid => closeResidency (drainC s cid) cid 2
  if keep && ((s.patch pt).bind (·.host)).isNone then
    let s := forCores s pt fun s cid => s.modCore cid fun c =>
      match c.act with
      | some a => { c.modCtx a (fun x => { x with st := .loaded }) with act := none, tasks := [] }
      | none => c
    s.modPatch pt fun p => { p with st := .resident, reqs := [], latched := none }
  else dropPatch s pt

/-- The region is done: its kernel retires (R355). A class R kernel waits for the SEALED of its interval (R320). -/
def retire (s : State) (pt : Nat) (p : Patch) : State :=
  let r := (patchCores s pt).foldl (fun r cid => if rinGt (s.core cid).rin r then (s.core cid).rin else r) p.retention
  if hClassS p.hdr then
    let s := finishPatch s pt p.keep
    endPkt s p.pk 0 0xFFFF 0
  else
    let s := s.modPatch pt fun p => { p with st := .retiring, retireRin := some r }
    (endPkt s p.pk 0 0xFFFF 0).modPkt p.pk fun q => { q with sealFor := some r }

/-- Whether a patch's current context is pinned and has no baste cut: the placer stops it only as it is entered (R35). -/
def noCut (s : State) (pt : Nat) : Bool :=
  let cs := patchCores s pt
  cs.any (fun cid => (s.core cid).isPinned) && cs.all fun cid => let c := s.core cid; (c.ctx (c.act.getD 0)).cuts.isEmpty

/-- A context is entered; one that the placer can stop at no other time stands there for it (R35, R115). -/
def enterNext (s : State) (pt ctx : Nat) : State :=
  let s := enterAll s pt ctx
  s.modPatch pt fun p => { p with held := p.stop.isSome && noCut s pt }

/-- CONTEXT_TRANSITION (R142, R143, R289): when every core of the patch holds local done, the next context is chosen and entered
after a lease-scope release and acquire by every core; with no request left the kernel retires. -/
def execContextTransition (pt : Nat) (s : State) : Host.Outcome State Fault Refusal :=
  .next (match s.patch pt with
    | none => s
    | some p =>
      let cs := patchCores s pt
      if p.st ≠ .running ∨ p.held ∨ cs.isEmpty then s
      else if ! cs.all (localDone s) then latchCtx s pt
      else if cs.any (drainStalls s) then s
      else match chooseCtx (patchOcc s pt) p with
        | none => retire s pt p
        | some (n, rest) =>
          let s := forCores s pt fun s cid => advanceGen (drainC s cid) cid
          let s := tracePatch s pt 3 n
          enterNext (s.modPatch pt fun p => { p with reqs := rest, latched := none }) pt (ctxBase p + n))

/-! ### The stop for a fault (R335) -/

/-- Whether a mangle entry is not waited for: a run that takes from an in-channel whose tokens will not come, since the patch's cores have
stopped, and what stands behind it (assumption 87). -/
def starved (c : Core) (q : MEnt) : Bool :=
  match q.op with
  | .run _ d => mdSrck d.toNat && (c.inCh (mdIn d.toNat)).buf.isEmpty
  | _ => false

/-- Whether everything the patch's cores issued has completed (R113 step 3, R335), pinned instances that had started among it, but for one
that failed and those behind it (assumption 109). -/
def patchQuiet (s : State) (pt : Nat) : Bool :=
  (patchCores s pt).all fun cid =>
    let c := s.core cid
    c.gen.isEmpty && ! c.late.any (·.kind.forChannel) && ! copyOf s cid &&
      ((c.mangle.queue.head?).all (starved c)) && (c.pinst.takeWhile fun x => ! x.failed).all fun x => x.passed

/-- The state of a core's current context entry set (R138). -/
def Core.setAct (c : Core) (st : CtxState) : Core :=
  match c.act with
  | some a => c.modCtx a fun x => { x with st := st }
  | none => c

/-- Every block instance of a patch's tasks discarded: its tasks stand at their last commits (R334). -/
def discardAll (s : State) (pt : Nat) : State :=
  forCores s pt fun s cid => (List.range 8).foldl (fun s k => discard s cid k) s

/-- FAULT_STOP (R335): not while the placer has the patch in hand (R115, R354); the stop completes, the record is written, and the LAUNCH
completes FAULTED. A debug stop completes nothing (R341); after poison the rollback follows instead (R338). -/
def execFaultStop (pt : Nat) (s : State) : Host.Outcome State Fault Refusal :=
  .next (match s.patch pt with
    | none => s
    | some p =>
      match p.fault with
      | none => s
      | some f =>
        if p.st ≠ .stopping ∨ p.stop.isSome ∨ ! patchQuiet s pt then s
        else
          let s := discardAll s pt
          let s := forCores s pt fun s cid => (closeResidency s cid 1).modCore cid fun c => c.setAct .frozen
          let s := keepFault s p.lease (faultRecord s p f p.extra)
          let s := s.modPatch pt fun p => { p with fault := none, extra := 0, st := .frozen }
          if f.cause = 0x0F ∧ debugOn s p.lease then s.modPatch pt fun p => { p with st := .debugStop }
          else if classOf f.cause f.sub = .b then s
          else endPkt s p.pk 17 0xFFFF (BitVec.ofNat 64 f.cause.toNat))

/-! ### The watchdog (R168, R170) -/

/-- The out-channels that have stood full for 4,096 cycles of their island and do not spill. -/
def stuckOuts (s : State) (cid : Nat) : List Nat :=
  (List.range 16).filter fun j => ((s.core cid).outCh j).spill.isNone && match ((s.core cid).outCh j).fullSince with
    | some t => decide (t + 4096 ≤ cyclesOf s cid)
    | none => false

/-- Where the watchdog finds a stall: a full channel of a patch that does not spill, or nothing at all for 1,048,576 cycles. -/
def stallAt (s : State) (pt : Nat) (p : Patch) : Option (Nat × Option (Bool × Nat)) :=
  let cs := patchCores s pt
  let full := if ! hSpill p.hdr && decide (4096 ≤ p.idle) then
      cs.findSome? fun cid => (stuckOuts s cid).head?.map fun j => (cid, some (true, j))
    else none
  match full with
  | some x => some x
  | none =>
    if 1048576 ≤ p.idle ∧ ! cs.all (localDone s) ∧ patchQuiet s pt then
      (patchCore s pt 0 0).map fun cid => (cid, none)
    else none

/-- STALL_REPORT (R168, R170). -/
def execStallReport (pt : Nat) (s : State) : Host.Outcome State Fault Refusal :=
  .next (match s.patch pt with
    | none => s
    | some p =>
      if p.st ≠ .running then s
      else match stallAt s pt p with
        | some (cid, ch) => raiseCore s cid none 0 0 { cause := 0x13, chan := ch }
        | none => s)

/-! ### The pleat handshake (R129) -/

/-- The bank that a line of C lies in, the spec not saying how sets and ways lie in C's banks (assumption 100), and the banks that C
loses to a word (R129). -/
def Core.departs (c : Core) (w : BitVec 32) (x : CLine) : Bool :=
  let base := 64 - c.pleat.cBanks
  let bank := base + Config.cBank x.set x.way % Nat.max 1 c.pleat.cBanks
  decide (bank < 64 - 4 * plC w)

/-- Lines that step 1 sends away: those in a departing bank, or whose set changes with the granule count. -/
def cMoved (c : Core) (w : BitVec 32) : List CLine :=
  if 4 * plC w = c.pleat.cBanks then []
  else c.cache.filter fun x => c.departs w x || cSet x.line (4 * plC w) != cSet x.line c.pleat.cBanks

/-- Step 1: moved lines written back if dirty, then invalidated. -/
def reindexC (s : State) (cid : Nat) : State :=
  (cMoved (s.core cid) (s.core cid).pleat.req).foldl (fun s x => flushLine s cid x.line) s

/-- Whether a write-back of step 1 would stall for undo space (R308). -/
def reindexStalls (s : State) (cid : Nat) : Bool :=
  (cMoved (s.core cid) (s.core cid).pleat.req).any (lineStalls s)

/-- The pool laid anew (R129 steps 2 to 5): frames, T and S up to the smaller capacity; every other row zero. -/
def relaid (c : Core) (w : BitVec 32) : Memory :=
  let old := c.pleat.word
  let b := c.pleat.bank0
  let put := fun (m : Memory) (a d : Nat) => m.set d (c.pool.get a)
  let m := (List.range c.nTasks).foldl (fun m k => (List.range c.frame).foldl (fun m g => (List.range 64).foldl (fun m i =>
    put m (gAddr old b c.frame k g + i) (gAddr w b c.frame k g + i)) m) m) []
  let m := (List.range (65536 * Nat.min (plT old) (plT w))).foldl (fun m i => put m (tAddr old b i) (tAddr w b i)) m
  (List.range (65536 * Nat.min (plS old) (plS w))).foldl (fun m i => put m (sAddr old b i) (sAddr w b i)) m

/-- Poisoned T rows keep their poison where they go (R240). -/
def relaidPoison (c : Core) (w : BitVec 32) : List Nat :=
  (List.range (1024 * Nat.min (plT c.pleat.word) (plT w))).filterMap fun r =>
    if c.poisonRows.contains (tAddr c.pleat.word c.pleat.bank0 (64 * r) / 64) then some (tAddr w c.pleat.bank0 (64 * r) / 64)
    else none

/-- Banks that a word in place of another relocates or lets out (R131): those of each role that moves, and those that C gains. -/
def Core.relaidBanks (c : Core) (w : BitVec 32) : List Nat :=
  let old := c.pleat.word
  let g := 4 * plG w
  let t := 4 * plT w
  let sc := 4 * plS w
  (if movesG old w then List.range g else []) ++
    (if movesT old w then (List.range t).map (g + ·) else []) ++
    (if movesS old w then (List.range sc).map (g + t + ·) else []) ++
    (List.range 64).filter fun b => decide (g + t + sc ≤ b) && decide (b < 64 - c.pleat.cBanks)

/-- Step 6: the new word takes effect and the handshake is released. -/
def Core.completePleat (c : Core) : Core :=
  let w := c.pleat.req
  if w = c.pleat.word then { c with pleat := { c.pleat with phase := 0, owner := none } }
  else
    { c with pool := relaid c w, poisonRows := relaidPoison c w,
             bankDirty := c.bankDirty ++ (c.relaidBanks w).filter fun b => ! c.bankDirty.contains b,
             cache := c.cache.map fun x => { x with set := cSet x.line (4 * plC w) },
             pleat := { c.pleat with word := w, phase := 0, owner := none, cBanks := 4 * plC w } }

/-- Rows that the step of a handshake's phase copies from (R129). -/
def Core.copiedRows (c : Core) : List Nat :=
  let old := c.pleat.word
  let w := c.pleat.req
  let b := c.pleat.bank0
  match c.pleat.phase with
  | 3 => (List.range c.nTasks).flatMap fun k => (List.range c.frame).map fun g => gAddr old b c.frame k g / 64
  | 4 => (List.range (1024 * Nat.min (plT old) (plT w))).map fun r => tAddr old b (64 * r) / 64
  | 5 => ((List.range (16384 * Nat.min (plS old) (plS w))).map fun i => sAddr old b (4 * i) / 64)
  | _ => []

/-- Whether the step in progress meets a poisoned row among those that it copies. -/
def Core.movesPoison (c : Core) : Bool := ! c.poisonRows.isEmpty && c.copiedRows.any c.poisonRows.contains

/-- Whether a run or `mzero` is in progress. -/
def Mangle.busy (m : Mangle) : Bool := m.queue.any fun q => q.started && match q.op with
  | .run _ _ | .zero _ => true
  | _ => false

/-- PLEAT_HANDSHAKE_STEP (R129): the step in progress ends and the next that has something to do begins; after the last the new word
takes effect. T moves only once no run is in progress. -/
def execPleatHandshakeStep (cid : Nat) (s : State) : Host.Outcome State Fault Refusal :=
  let c := s.core cid
  let go := fun (s : State) =>
    let n := nextStep c.pleat c.pleat.req c.pleat.phase
    if n = 4 ∧ c.mangle.busy then s
    else s.modCore cid fun c => if n = 0 then c.completePleat else { c with pleat := { c.pleat with phase := n } }
  .next (match c.pleat.phase with
    | 2 => if reindexStalls s cid then s else go (reindexC s cid)
    | 3 | 4 | 5 => if c.movesPoison then raiseCore s cid none 0 0 { cause := 0x0B } else go s
    | 6 => s.modCore cid Core.completePleat
    | _ => s)

end Sys2Proof.Machine
end

