-- ==== Sys2Proof/Machine/Channels.lean ====
section
/-! DEFINITION. Flits on their way: paths and hems (R109 to R111, R160 to R162), peer, copy and mangle routes (R234, R247, R378),
router elements (R163 to R166), spill (R168, R169). -/

namespace Sys2Proof.Machine

/-! ### Hem drops and misroute reports (R109 to R111) -/

/-- A 48-bit counter, saturating. -/
def sat48 (n : Nat) : Nat := Nat.min n (2 ^ 48 - 1)

/-- A misroute report (R111): written to the queue that posted the lease's REQUEST, and copied to the PF; none where that ring is
full. `key` is the out-channel, or 16 more than a router element. -/
def reportMisroute (s : State) (cid key : Nat) : State :=
  let c := s.core cid
  match (c.outCh key).drops with
  | none => s
  | some d => match s.lease d.lease with
  | none => s
  | some L =>
    if L.gen.toNat ≠ d.gen ∨ ! (s.queue L.reqQueue).cRoom then s
    else
      let xy := xyOf s cid
      let res := (xy.1 - L.x) % 64 + 64 * ((xy.2 - L.y) % 64) + 4096 * (key % 16) + 65536 * d.kind.toNat +
        2 ^ 20 * Nat.min d.count (2 ^ 32 - 1)
      let rec' := fun (far : Nat) => record 0 32 15 0xFFFF (BitVec.ofNat 64 (res + 2 ^ 52 * far)) c.rin d.since
      let s := postRecord s L.reqQueue (rec' 0)
      let s := pfEvent s 1 d.lease (natBytes 32 (rec' (d.far % 4096)).toNat)
      s.modCore cid fun c => c.modOut key fun o => { o with drops := some { d with count := 0, last := s.time } }

/-- A flit dropped at a hem, or at a core of the lease that runs nothing (R109, R160): counted, and reported (R111). -/
def dropFlit (s : State) (cid key far : Nat) (f : Flit) : State :=
  let l := coreLease s cid
  let g := genOf s l
  let s := s.modLease l fun L => { L with hemlint := sat48 (L.hemlint + 1) }
  match ((s.core cid).outCh key).drops.filter fun d => d.lease = l && d.gen = g.toNat with
  | none =>
    let d : Misroute := { count := 1, kind := f.kind, since := s.time, last := s.time, far := far, lease := l, gen := g.toNat }
    reportMisroute (s.modCore cid fun c => c.modOut key fun o => { o with drops := some d }) cid key
  | some d =>
    let d' : Misroute := if d.count = 0 then { d with count := 1, kind := f.kind, since := s.time, far := far }
      else { d with count := d.count + 1 }
    s.modCore cid fun c => c.modOut key fun o => { o with drops := some d' }

/-- MISROUTE_REPORT_TIMER (R111): gathered drops reported, at most once a millisecond. -/
def execMisrouteReportTimer (cid out : Nat) (s : State) : Host.Outcome State Fault Refusal :=
  .next (match ((s.core cid).outCh out).drops with
    | some d => if 0 < d.count ∧ d.last + 1000000 ≤ s.time then reportMisroute s cid out else s
    | none => s)

/-! ### Paths (R109, R161) -/

/-- The positions of a path after its first, x steps before y steps unless `yx`. -/
def pathCells (x y : Int) (dx dy : Int) (yx : Bool) : List (Int × Int) :=
  let run := fun (n : Int) => (List.range n.natAbs).map fun (i : Nat) => if 0 ≤ n then (i : Int) + 1 else -((i : Int) + 1)
  let xs := run dx
  let ys := run dy
  if yx then ys.map (fun b => (x, y + b)) ++ xs.map (fun a => (x + a, y + dy))
  else xs.map (fun a => (x + a, y)) ++ ys.map (fun b => (x + dx, y + b))

/-- The area that hems bound at a position (R109, R116): the lease whose rectangle holds it, and the loan of it, if any; outside the grid
there is none. -/
def hemArea (s : State) (p : Int × Int) : Option (Nat × Option Nat) :=
  if 0 ≤ p.1 ∧ p.1 < 64 ∧ 0 ≤ p.2 ∧ p.2 < 48 then
    (leaseAt s p.1.toNat p.2.toNat).map fun l =>
      (l, ((s.lease l).bind fun L => L.loans.find? fun n => inRect p.1.toNat p.2.toNat n.x n.y n.w n.h).map (·.num))
  else none

/-- The lease identity that a hem holds for a position; 0 where there is none. -/
def hemId (s : State) (p : Int × Int) : Nat :=
  if 0 ≤ p.1 ∧ p.1 < 64 ∧ 0 ≤ p.2 ∧ p.2 < 48 then (holderAt s p.1.toNat p.2.toNat).getD 0 else 0

/-- Where a PATH route ends: at the first hem, with the identity beyond it, or at a core (R109, R161). -/
inductive PathEnd where
  | hem (far : Nat)
  | core (cid : Nat)
deriving DecidableEq, Repr

/-- The end of a core's PATH route. DESIGN CHOICE (assumption 99): a path that leads off the grid ends there as at a hem. -/
def pathEnd (s : State) (cid r : Nat) : PathEnd :=
  let xy := xyOf s cid
  let me := hemArea s (xy.1, xy.2)
  let dx := sgn 7 (natBits r 22 7)
  let dy := sgn 7 (natBits r 15 7)
  let cells := pathCells xy.1 xy.2 dx dy (r.testBit 14)
  match cells.find? fun p => hemArea s p != me with
  | some p => .hem (hemId s p)
  | none => .core (coreXY s ((xy.1 : Int) + dx).toNat ((xy.2 : Int) + dy).toNat)

/-! ### Arrival at a core (R160) -/

/-- What a core does with a flit at an in-channel: takes it, drops it as lint, discards it with a cause, or holds it back. -/
inductive Arrival where
  | hold
  | lint
  | bad (cause : BitVec 8)
  | take
deriving DecidableEq, Repr

/-- The rules of R24 and R160 for one flit; a flit of a later interval is held while a save is still to be written (R317). -/
def arrivalAt (s : State) (cid j : Nat) (f : Flit) : Arrival :=
  let c := s.core cid
  match c.patch.bind s.patch with
  | none => .lint
  | some p =>
    if p.st = .resident ∨ p.st = .frozen then .lint
    else if c.act.isNone ∨ (p.saveDue.isSome ∧ rinGt f.rin c.rin) then .hold
    else if 13 ≤ f.kind.toNat then .bad 0x0D
    else if ! c.inBound j then .bad 0x0C
    else if (c.inCh j).buf.length < c.inDepth j then .take
    else .hold

/-- A flit put at the end of an in-channel; the core advances to its stamp first (R302). A MARKER that comes to a task context applies the
pending constants (R198). -/
def putFlit (s : State) (cid j : Nat) (f : Flit) : State :=
  s.modCore cid fun c =>
    let c := c.sawRin f.rin
    let c := if f.kind = 9 ∧ c.inTasks then c.applyConst else c
    { c.modIn j (fun ch => { ch with buf := ch.buf ++ [(c.arrivals, f)] }) with arrivals := c.arrivals + 1 }

/-- A flit delivered to a core's in-channel, if it does not hold it back. -/
def arrive (s : State) (src key dst j : Nat) (f : Flit) : Option State :=
  match arrivalAt s dst j f with
  | .hold => none
  | .lint => some (dropFlit s src key (coreLease s src) f)
  | .bad x => some (raiseCore s dst none 0 0 { cause := x, chan := some (false, j) })
  | .take => some (putFlit s dst j f)

/-! ### The other routes (R234, R247, R378) -/

/-- A flit for the copy port of a GEN core (R234): DATA is a packet, a full queue or tag holds it back. -/
def toCopyPort (s : State) (cid : Nat) (f : Flit) : Option State :=
  let raise := fun (x : BitVec 8) (sub : BitVec 8) => some (raiseCore s cid none 0 0 { cause := x, sub := sub })
  match (s.core cid).patch.bind s.patch with
  | none => none
  | some p =>
    if f.kind = 0 then
      if ! packetOk f.value then raise 0x02 1
      else if cpQueue f.value ≠ posOf s cid then raise 0x09 0
      else if copyRoom s (clusterOf cid) (cpQueue f.value) && tagRoom (s.core cid) (cpTag f.value) then
        some (acceptCopy s cid none p f.value)
      else none
    else if f.kind = 10 ∨ 13 ≤ f.kind.toNat then raise 0x0D 0
    else some s

/-- A flit for the mangle port of a GEN core (R243, R247): DATA is an arm token, whose shape is unit 11 field 0. -/
def toManglePort (s : State) (cid : Nat) (f : Flit) : Option State :=
  let c := s.core cid
  if f.kind = 0 then
    let sh := BitVec.ofNat 5 (c.cfg 11 0)
    if ! marmReady c.mangle then none
    else match runCause c sh f.value with
      | some x => some (raiseCore s cid none 0 0 { cause := x.1, sub := x.2 })
      | none => some (s.modCore cid fun c => c.queueMangle (.run sh (BitVec.ofNat 64 (lo64 f.value))))
  else if f.kind = 10 ∨ 13 ≤ f.kind.toNat then some (raiseCore s cid none 0 0 { cause := 0x0D })
  else some s

/-- The RIN that a flit carries over a peer port: every flit sent after a mark has the RIN that the mark began, or a later one (R310). -/
def portRin (s : State) (r : Rin) : Rin := if rinGt s.sl.cur r then s.sl.cur else r

/-- A flit for a peer port: over the out-channel's binding, while its port is up (R378). -/
def toPeer (s : State) (cid key : Nat) (f : Flit) : Option State :=
  let c := s.core cid
  match s.lease (coreLease s cid) with
  | none => none
  | some L =>
    match L.binds.find? fun b => b.px = c.px && b.py = c.py && b.out = key with
    | none => none
    | some b =>
      if (tgetD s.ports b.port {}).down then none
      else
        let gen := match L.pair with
          | some q => q.2.2.toNat
          | none => 0
        let g : PeerFlit :=
          { destDevice := b.device, destLease := b.lease, destGen := gen, srcDevice := s.sl.device,
            srcLease := coreLease s cid, px := b.rx, py := b.ry, chan := b.rin, kind := f.kind, value := f.value, rin := portRin s f.rin }
        some { s with peerOut := s.peerOut ++ [g] }

/-- A flit sent on a route word (R161); none while something holds it back. A SEQ route's own step is CONTEXT_REQUEST. A reserved kind
goes no further than this port (R24). -/
def sendRoute (s : State) (cid key r : Nat) (f : Flit) : Option State :=
  if 13 ≤ f.kind.toNat then some (raiseCore s cid none 0 0 { cause := 0x0D, chan := if key < 16 then some (true, key) else none })
  else match routeKind r with
  | 1 => match pathEnd s cid r with
    | .hem far => some (dropFlit s cid key far f)
    | .core d => arrive s cid key d (natBits r 10 4) f
  | 4 => toPeer s cid key f
  | 5 => toCopyPort s cid f
  | 6 => toManglePort s cid f
  | _ => none

/-- Whether a core's patch lets its flits go. -/
def sends (s : State) (cid : Nat) : Bool :=
  match (s.core cid).patch.bind s.patch with
  | some p => p.st.active
  | none => false

/-- Whether an out-channel is a baste cut of the current context that stands closed: the placer, or a fault, is stopping the patch (R35,
R113, R171). -/
def cutClosed (s : State) (cid out : Nat) : Bool :=
  let c := s.core cid
  c.isPinned && (c.ctx (c.act.getD 0)).cuts.any (·.1 = out) &&
    (c.patch.bind s.patch).any fun p => p.stop.isSome || p.st = .stopping

/-- FLIT_ARRIVAL (R160): the head of an out-channel goes where its route leads, unless it is held back. -/
def execFlitArrival (cid out : Nat) (s : State) : Host.Outcome State Fault Refusal :=
  let c := s.core cid
  .next (if ! sends s cid ∨ ! c.outBound out ∨ cutClosed s cid out then s
    else match (c.outCh out).buf with
      | [] => s
      | f :: _ => match sendRoute s cid out (c.route out) f with
        | some s' => s'.modCore cid fun c =>
          drainPinned c.pinst.length (c.modOut out fun o => { o with buf := o.buf.tail, fullSince := none })
        | none => s)

/-! ### Router elements (R163 to R166) -/

/-- An element's first route, and its second word's other use. -/
def Core.elemRoute (c : Core) (e arm : Nat) : Nat := c.cfg 7 (17 + 3 * e + arm)

/-- An element sends one flit on one of its routes, under the core's RIN; on a SEQ route, to the region sequencer (R140). -/
def elemSend (s : State) (cid e arm : Nat) (f : Flit) : Option State :=
  let c := s.core cid
  let r := c.elemRoute e arm
  if routeKind r = 3 then toSequencer s cid none f else sendRoute s cid (16 + e) r { f with rin := c.rin }

/-- What an element did: nothing yet, a wrong pairing of kinds, or its new state, in which it has emitted or only taken a head. -/
inductive ElemStep where
  | wait
  | bad (ch : Nat)
  | go (s : State)
  | took (s : State)
deriving DecidableEq, Repr

/-- An element's step applied: an emission is a firing (R168); a wrong pairing raises CHANNEL_KIND. -/
def elemApply (s : State) (cid : Nat) (r : ElemStep) : State :=
  match r with
  | .wait => s
  | .bad j => raiseCore s cid none 0 0 { cause := 0x0D, chan := some (false, j) }
  | .go s => match (s.core cid).patch with
    | some pt => markFiring s pt
    | none => s
  | .took s => s

/-- Heads taken once their flit has gone; one in-channel named twice gives one head. -/
def elemTake (cid : Nat) (js : List Nat) (r : Option State) : ElemStep :=
  match r with
  | some s => .go (s.modCore cid fun c => c.consume js.eraseDups)
  | none => .wait

/-- DATA or NULL. -/
def plainKind (k : Nat) : Bool := k = 0 || k = 12

/-- Whether a core's element of a type may act now. -/
def elemActs (s : State) (cid e ty : Nat) : Bool :=
  decide (e < 16) && sends s cid && (s.core cid).act.isSome && (s.core cid).elemType e = ty

/-- One step of a steer (R164). -/
def steerStep (s : State) (cid e : Nat) : ElemStep :=
  let c := s.core cid
  match c.headFlit (c.elemIn0 e), c.headFlit (c.elemIn1 e) with
  | some f, some g =>
    let js := [c.elemIn0 e, c.elemIn1 e]
    let k := f.kind.toNat
    if plainKind k then
      if g.kind = 10 then elemTake cid js (elemSend s cid e (g.value.toNat % 2) f) else .bad (c.elemIn1 e)
    else if (stopKind k || alignedKind k) && g.kind = f.kind then
      elemTake cid js ((elemSend s cid e 0 f).bind fun s => elemSend s cid e 1 f)
    else .bad (c.elemIn0 e)
  | _, _ => .wait

/-- STEER (R164). -/
def execSteer (cid e : Nat) (s : State) : Host.Outcome State Fault Refusal :=
  .next (if elemActs s cid e 1 then elemApply s cid (steerStep s cid e) else s)

/-- One step of a merge (R164). -/
def mergeStep (s : State) (cid e : Nat) : ElemStep :=
  let c := s.core cid
  match c.headFlit (c.elemIn1 e) with
  | none => .wait
  | some g =>
    let k := g.kind.toNat
    if k = 10 then
      let ch := if g.value.toNat % 2 = 0 then c.elemIn0 e else c.elemIn2 e
      match c.headFlit ch with
      | none => .wait
      | some f => if plainKind f.kind.toNat then elemTake cid [ch, c.elemIn1 e] (elemSend s cid e 0 f) else .bad ch
    else if stopKind k || alignedKind k then
      match c.headFlit (c.elemIn0 e), c.headFlit (c.elemIn2 e) with
      | some a, some b =>
        if a.kind ≠ g.kind then .bad (c.elemIn0 e)
        else if b.kind ≠ g.kind then .bad (c.elemIn2 e)
        else
          let js := [c.elemIn0 e, c.elemIn1 e, c.elemIn2 e]
          let v := ((c.headFlit (js.foldl Nat.min 16)).map (·.value)).getD 0
          elemTake cid js (elemSend s cid e 0 { kind := g.kind, value := v, rin := 0 })
      | some a, none => if a.kind = g.kind then .wait else .bad (c.elemIn0 e)
      | none, some b => if b.kind = g.kind then .wait else .bad (c.elemIn2 e)
      | none, none => .wait
    else .bad (c.elemIn1 e)

/-- MERGE (R164). -/
def execMerge (cid e : Nat) (s : State) : Host.Outcome State Fault Refusal :=
  .next (if elemActs s cid e 2 then elemApply s cid (mergeStep s cid e) else s)

/-- An element's own state. -/
def Core.elem (c : Core) (e : Nat) : Elem := tgetD c.elems e {}
/-- It changed. -/
def Core.modElem (c : Core) (e : Nat) (f : Elem → Elem) : Core := { c with elems := tmod c.elems e {} f }

/-- The first flit that an element has still to emit goes, if its route takes it. -/
def elemFlush (s : State) (cid e : Nat) (f : Flit) : ElemStep :=
  match elemSend s cid e 0 f with
  | some s => .go (s.modCore cid fun c => c.modElem e fun x => { x with outq := x.outq.tail })
  | none => .wait

/-- One step of a carry (R165). -/
def carryStep (s : State) (cid e : Nat) : ElemStep :=
  let c := s.core cid
  let x := c.elem e
  let first : Flit := { kind := 0, value := c.constReg (natBits (c.cfg 7 (16 + 3 * e)) 12 4), rin := 0 }
  let j := c.elemIn0 e
  let set := fun (f : Elem → Elem) (r : ElemStep) => match r with
    | .go s => .go (s.modCore cid fun c => c.modElem e f)
    | r => r
  match x.outq with
  | f :: _ => elemFlush s cid e f
  | [] =>
    if x.phase = 0 then set (fun x => { x with phase := 1 }) (match elemSend s cid e 0 first with
      | some s => .go s
      | none => .wait)
    else if x.phase = 1 then
      match c.headFlit j with
      | none => .wait
      | some f =>
        let k := f.kind.toNat
        if plainKind k || alignedKind k then elemTake cid [j] (elemSend s cid e 0 f)
        else if k = 7 then set (fun x => { x with phase := 2 }) (elemTake cid [j] (elemSend s cid e 0 f))
        else if stopKind k then set (fun x => { x with outq := [first] }) (elemTake cid [j] (elemSend s cid e 0 f))
        else .bad j
    else .wait

/-- CARRY (R165). -/
def execCarry (cid e : Nat) (s : State) : Host.Outcome State Fault Refusal :=
  .next (if elemActs s cid e 3 then elemApply s cid (carryStep s cid e) else s)

/-- The position that a reorder's output k takes (R166). -/
def reorderPos (w k : Nat) : Nat :=
  let n := 2 ^ natBits w 29 3
  let n0 := natBits w 23 6 + 1
  (k % n0 * natBits w 17 6 + k / n0 * natBits w 11 6) % n

/-- A frame in output order, missing positions skipped (R166). -/
def reordered (w : Nat) (fs : List Flit) : List Flit := (List.range (2 ^ natBits w 29 3)).filterMap fun k => fs[reorderPos w k]?

/-- One step of a reorder (R166): it emits what is due, or takes its next head. -/
def reorderStep (s : State) (cid e : Nat) : ElemStep :=
  let c := s.core cid
  let x := c.elem e
  let j := c.elemIn0 e
  let w := c.cfg 7 (18 + 3 * e)
  match x.outq with
  | f :: _ => elemFlush s cid e f
  | [] =>
    match c.headFlit j with
    | none => .wait
    | some f =>
      let s := s.modCore cid fun c => c.consume [j]
      let put := fun (fr out : List Flit) => ElemStep.took (s.modCore cid fun c => c.modElem e fun x => { x with frame := fr, outq := out })
      if plainKind f.kind.toNat then
        let fr := x.frame ++ [f]
        if fr.length = 2 ^ natBits w 29 3 then put [] (reordered w fr) else put fr []
      else put [] (reordered w x.frame ++ [f])

/-- REORDER (R166). -/
def execReorder (cid e : Nat) (s : State) : Host.Outcome State Fault Refusal :=
  .next (if elemActs s cid e 4 then elemApply s cid (reorderStep s cid e) else s)

/-! ### Spill (R169) -/

/-- Where record n of a lease's overflow area lies. -/
def spillVa (n : Nat) : Nat := 0xFFFFF0000000 + 128 * n

/-- Pages of the overflow area that hold records of a lease's channels. -/
def spillPages (s : State) (lease : Nat) : List Nat :=
  s.cores.flatMap fun e => if coreLease s e.1 = lease then
      e.2.outs.flatMap fun o => match o.2.spill with
        | some sp => sp.recs.map fun r => r.1 / 512
        | none => []
    else []

/-- The next record of a channel: in its last page while that has room, else in the lowest page that is free. -/
def nextRecord (s : State) (lease : Nat) (recs : List (Nat × Rin)) : Option Nat :=
  let fresh := ((List.range 4096).find? fun p => ! (spillPages s lease).contains p).map (512 * ·)
  match recs.getLast? with
  | some r => if r.1 % 512 < 511 then some (r.1 + 1) else fresh
  | none => fresh

/-- A record's two lines (R169). -/
def spillLines (f : Flit) : List Byte × List Byte := (valueBytes f.value, num 1 f.kind.toNat ++ num 63 0)

/-- Whether a request of one kind is on its way or at a core's port. -/
def Core.asked (c : Core) (k : ReqKind) : Bool := (c.late ++ c.gen).any (·.kind = k)

/-- SPILL_START (R168, R169): a channel stuck long enough begins to spill; a spilling channel asks the port for its next record. -/
def execSpillStart (cid out : Nat) (s : State) : Host.Outcome State Fault Refusal :=
  let c := s.core cid
  .next (match c.patch.bind s.patch with
    | none => s
    | some p =>
      if p.st ≠ .running then s
      else match (c.outCh out).spill with
        | none =>
          if hSpill p.hdr ∧ 4096 ≤ p.idle ∧ (stuckOuts s cid).contains out then
            s.modCore cid fun c => drainPinned c.pinst.length (c.modOut out fun o =>
              { o with buf := [], fullSince := none, spill := some { recs := [], wait := o.buf } })
          else s
        | some sp =>
          if sp.wait.isEmpty || c.asked (.spill out) then s else pushLate s cid p.lease (.spill out) [])

/-- SPILL_RETURN (R169): a spilling channel whose buffer has space asks the port for its oldest record. -/
def execSpillReturn (cid out : Nat) (s : State) : Host.Outcome State Fault Refusal :=
  let c := s.core cid
  .next (match c.patch.bind s.patch, (c.outCh out).spill with
    | some p, some sp =>
      if ! p.st.active || sp.recs.isEmpty || decide (c.outDepth out ≤ (c.outCh out).buf.length) || c.asked (.unspill out) then s
      else pushLate s cid p.lease (.unspill out) []
    | _, _ => s)

end Sys2Proof.Machine
end

