-- ==== Sys2Proof/Machine/KernelObj.lean ====
section
/-! DEFINITION. Kernel objects as the validate stage reads them (R26 to R35, R122): the header, the stage and role tables, the
configuration stream. -/

namespace Sys2Proof.Machine

/-! ### Reading -/

/-- The number of an agent without a core and without a TLB: the Briuk strip. -/
def stripCid : Nat := 3264

/-- `n` bytes at a virtual address of a lease, read at their nodes; a byte that does not translate reads as zero. -/
def stripRead (s : State) (lease va n : Nat) : List Byte :=
  (lineCuts (n + 1) va (List.replicate n 0)).flatMap fun p =>
    match translate s stripCid lease (p.1 % 2 ^ 48) with
    | .ok l _ => nodeRead s lease l p.2.length
    | _ => p.2

/-- Where an address of a lease is mapped, with its entry; one under migration is mapped, its accesses wait (R227). -/
def stripMap (s : State) (lease va : Nat) : Option (Loc × BitVec 64) :=
  match s.lease lease, lookup s stripCid lease va with
  | some L, some (big, e) => (locOf L big e va).map (·, e)
  | _, _ => none

/-- The page addresses of a byte range, modulo 2^48: bits above an address field's 48 are not looked at (assumption 102). -/
def stripPages (va n : Nat) : List Nat :=
  let p0 := va / 65536
  (List.range ((va + Nat.max n 1 - 1) / 65536 - p0 + 1)).map fun k => (p0 + k) * 65536 % 2 ^ 48

/-- Whether a byte range lies on mapped pages whose entries pass a test. -/
def stripMapped (s : State) (lease va n : Nat) (need : Loc → BitVec 64 → Bool) : Bool :=
  (stripPages va n).all fun a => (stripMap s lease a).any fun m => need m.1 m.2

/-- Whether an access to a byte range waits: a page of it is mapped and cannot be read now (R227). -/
def stripWaits (s : State) (lease va n : Nat) : Bool :=
  (stripPages va n).any fun a => (stripMap s lease a).isSome && match translate s stripCid lease a with
    | .ok _ _ => false
    | _ => true

/-- A walk of the strip, or of the placer, that reads a poisoned line of the page table consumes poison for the lease (R229, R326). -/
def stripWalk (s : State) (lease va n : Nat) : State :=
  if (stripPages va n).any fun a => translate s stripCid lease a = .poisoned then poisonUsed s s.sl.cur else s

/-- Whether a byte range lies on lines that are poisoned; the first such byte offset from the start, by lines. -/
def stripPoison (s : State) (lease va n : Nat) : Option Nat :=
  ((lineCuts (n + 1) va (List.replicate n 0)).find? fun p =>
    match translate s stripCid lease (p.1 % 2 ^ 48) with
    | .ok l _ => readBad s lease l
    | _ => false).map fun p => p.1 - va

/-- The strip's read of a range counted (R358, R417). -/
def stripCharge (s : State) (lease va n : Nat) : State :=
  (lineCuts (n + 1) va (List.replicate n 0)).foldl (fun s p =>
    match translate s stripCid lease (p.1 % 2 ^ 48) with
    | .ok l _ => countRead s lease l p.2.length
    | _ => s) s

/-- Bytes as 32-bit words, little-endian. -/
def toWords (bs : List Byte) : List CWord := (chunks 4 bs.length bs).map fun w => BitVec.ofNat 32 (bytesNat w)

/-- One bit of the CRC. -/
def crcBit (c : CWord) : CWord := if c.getLsbD 0 then (c >>> 1) ^^^ 0x82F63B78 else c >>> 1

/-- CRC-32C (R34): Castagnoli, reflected, initial value and final XOR all ones. -/
def crc32c (bs : List Byte) : CWord :=
  (bs.foldl (fun (c : CWord) b => (List.range 8).foldl (fun c _ => crcBit c) (c ^^^ b.setWidth 32)) 0xFFFFFFFF) ^^^ 0xFFFFFFFF

/-! ### The header (R28 to R30) -/

/-- A refusal: the status of R97, the FIELD and the RESULT of R98. -/
structure Refused where
  status : Nat
  field : Nat
  index : Nat
deriving DecidableEq, Repr

/-- One check of the header: whether it passes, its status, and the header byte it names. -/
structure HdrCheck where
  ok : Bool
  status : Nat
  off : Nat
deriving DecidableEq, Repr

/-- W. -/
def hW (h : List CWord) : Nat := hdrF h 0x10 0 6 + 1
/-- H. -/
def hH (h : List CWord) : Nat := hdrF h 0x10 6 6 + 1
/-- CTXKIND has a task context among the kernel's. -/
def hTaskCtx (h : List CWord) : Bool := (List.range (hNctx h)).any fun c => ! hPinned h c

/-- The bits of a header word outside `named` are zero; the lowest that is not names the byte. -/
def hdrRsv (h : List CWord) (off : Nat) (named : CWord) : HdrCheck :=
  let bad := (h.getD (off / 4) 0) &&& ~~~ named
  { ok := bad = 0, status := 1, off := off + (((List.range 32).find? fun i => bad.getLsbD i).getD 0) / 8 }

/-- Whether a pleat word is possible for a number of tasks and a frame size (R122). -/
def pleatPossible (w : BitVec 32) (tasks frame : Nat) : Bool :=
  natBits w.toNat 12 20 = 0 && decide (plG w + plT w + plS w ≤ 16) &&
    (tasks = 0 || (plG w != 0 && decide (tasks * frameRows frame (plG w) ≤ 256)))

/-- The sections: offset, length in bytes, the header offset of the offset field (R26, R31). -/
def sections (h : List CWord) : List (Nat × Nat × Nat) :=
  let n := hW h * hH h
  let f := fun o => hdrF h o 0 32
  [(f 0x38, 4 * f 0x3C, 0x38), (f 0x40, n, 0x40), (f 0x44, hNctx h * n, 0x44), (f 0x48, f 0x4C, 0x48),
   (f 0x50, 16 * f 0x54, 0x50), (f 0x58, 16 * f 0x5C, 0x58), (f 0x60, f 0x64, 0x60), (f 0x68, f 0x6C, 0x68)]

/-- Whether an origin of a lease takes a patch: it lies inside, and with cluster barriers it keeps to clusters (R279). -/
def originOk (L : Lease) (w h cbar x y : Nat) : Bool :=
  decide (x + w ≤ L.w) && decide (y + h ≤ L.h) && (cbar = 0 || ((L.x + x) % 4 = 0 && (L.y + y) % 4 = 0))

/-- Every origin of a lease that takes a patch, lowest y and then lowest x first (R112). -/
def origins (L : Lease) (w h cbar : Nat) : List (Nat × Nat) :=
  ((List.range L.h).flatMap fun y => (List.range L.w).map fun x => (x, y)).filter fun p => originOk L w h cbar p.1 p.2

/-- The leases that a VF holds: granted, or being resized (R104). -/
def vfLeases (s : State) (vf : Nat) : List (Nat × Lease) :=
  s.leases.filter fun e => e.2.vf = vf && (e.2.st = .granted || (e.2.st = .rinsing && e.2.want.isSome))

/-- Whether the shape of a header fits (R28, R87, R279): some lease of the tenant holds it, and the named lease has an origin for it,
the fixed one where one is named. -/
def shapeFits (s : State) (L : Lease) (h : List CWord) (fixed : Option (Nat × Nat)) : Bool :=
  (vfLeases s L.vf).any (fun e => decide (hW h ≤ e.2.w) && decide (hH h ≤ e.2.h)) &&
    match fixed with
    | some p => originOk L (hW h) (hH h) (hCbar h) p.1 p.2
    | none => hCbar h = 0 || ! (origins L (hW h) (hH h) (hCbar h)).isEmpty

/-- The save area (R28, R314): of either class where there is one, on recoverable device pages that can be written. Without an address
there is none, whatever SAVELEN holds (assumption 103); class S needs one. -/
def saveMapped (s : State) (lease : Nat) (h : List CWord) : Bool :=
  if hSaveVa h = 0 then ! hClassS h
  else stripMapped s lease (hSaveVa h) (hSaveLen h) fun l e => match l with
    | .dev _ _ => peW e && peRec e
    | _ => false

/-- Whether a kernel has a save area (R314, R329). -/
def hSaves (h : List CWord) : Bool := hSaveVa h != 0

/-- A section's offset obeys R26. DESIGN CHOICE (assumption 46): one that does not is refused LR_HEADER at its field, in this place among the
rows. -/
def offCheck (x : Nat × Nat × Nat) : HdrCheck :=
  { ok := x.1 % 64 = 0 && (x.2.1 != 0 || x.1 = 0), status := 1, off := x.2.2 }

/-- The rows of R28 in order. -/
def hdrRows (s : State) (lease : Nat) (L : Lease) (perms : BitVec 8) (h : List CWord) (raw : List Byte)
    (fixed : Option (Nat × Nat)) : List HdrCheck :=
  let f := hdrF h
  let mk := fun (ok : Bool) (st off : Nat) => ({ ok := ok, status := st, off := off } : HdrCheck)
  let w := hPleat h
  [mk (f 0 0 32 = 0x4A4B5A31) 1 0x00, mk (f 4 0 16 = 1) 1 0x04, mk (f 4 16 16 = 256) 1 0x06,
   mk (f 8 0 32 % 64 = 0) 1 0x08, mk (BitVec.ofNat 32 (f 0xC 0 32) = crc32c (raw.drop 0x10)) 1 0x0C,
   mk (decide (f 0x10 28 2 < 2)) 1 0x13, mk (decide (hFrame h ≤ 128)) 2 0x12, mk (hFrame h % 8 = 0) 1 0x12,
   mk (decide (hTasks h ≤ 8)) 3 0x12, mk (decide (1 ≤ hNctx h) && decide (hNctx h ≤ 6)) 7 0x11,
   mk (decide (hH h ≤ 48)) 1 0x10, mk (shapeFits s L h fixed) 9 0x10, mk (pleatPossible w (hTasks h) (hFrame h)) 4 0x14,
   mk (hScratch h % 64 = 0) 1 0x18, mk (decide (hScratch h ≤ plS w * 65536)) 5 0x18,
   mk (hTile h % 128 = 0) 1 0x1C, mk (decide (hTile h ≤ plT w * 65536)) 6 0x1C,
   hdrRsv h 0x20 0x7F1F, mk (decide (hLbar h ≤ 64)) 8 0x21, mk (decide (hCbar h ≤ 16)) 8 0x20,
   hdrRsv h 0x24 0x7, mk (decide (hPerms h &&& perms.toNat = hPerms h)) 11 0x24,
   mk (hSaveVa h % 65536 = 0 && saveMapped s lease h) 10 0x28,
   mk (! hClassS h && ! hSaves h || decide (65536 + hW h * hH h * 1310720 ≤ hSaveLen h)) 10 0x30] ++
  (sections h).map offCheck ++
  [hdrRsv h 0x70 0xFF3F, mk (decide (f 0x70 0 6 < 2 ^ hNctx h)) 1 0x70, mk (decide (hArgs h < 16)) 1 0x71, hdrRsv h 0x74 0xF] ++
  (List.range 32).map fun k => hdrRsv h (0x80 + 4 * k) 0

/-- Whether section x overlaps one placed no higher, the header included. -/
def overlaps (xs : List (Nat × Nat × Nat)) (x : Nat × Nat × Nat) : Bool :=
  decide (x.1 < 256) || xs.any fun y =>
    y != x && (decide (y.1 < x.1) || (y.1 = x.1 && decide (y.2.2 < x.2.2))) && decide (x.1 < y.1 + y.2.1)

/-- The overlapping section that lies lowest. -/
def firstOverlap (h : List CWord) : Option (Nat × Nat × Nat) :=
  let xs := (sections h).filter (·.2.1 != 0)
  (xs.filter (overlaps xs)).foldl (fun b x => match b with
    | none => some x
    | some y => if x.1 < y.1 then some x else b) none

/-- The items of R29 in order. -/
def hdrItems (h : List CWord) : List HdrCheck :=
  let mk := fun (ok : Bool) (off : Nat) => ({ ok := ok, status := 1, off := off } : HdrCheck)
  let w := hPleat h
  let len := hdrF h 8 0 32
  [mk (hTasks h != 0 || ! hTaskCtx h) 0x12, mk ((hTasks h = 0) == (hFrame h = 0)) 0x12,
   mk (! hTaskCtx h || decide (plG w + plT w + plS w < 16)) 0x14, mk (! hEsc h || (hPerms h).testBit 0) 0x13,
   mk (decide (256 ≤ len) && (sections h).all fun x => decide (x.1 + x.2.1 ≤ len)) 0x08,
   mk (firstOverlap h).isNone (((firstOverlap h).map (·.2.2)).getD 0)]

/-- The first failing check of the header (R29), with its FIELD. -/
def hdrRefused (s : State) (lease : Nat) (L : Lease) (perms : BitVec 8) (h : List CWord) (raw : List Byte)
    (fixed : Option (Nat × Nat)) : Option Refused :=
  ((hdrRows s lease L perms h raw fixed ++ hdrItems h).find? (! ·.ok)).map fun x =>
    { status := x.status, field := 0x100 + x.off, index := 0 }

/-! ### Stage and role tables (R31) -/

/-- The first bad byte of the stage table, or of the role table. -/
def tablesRefused (h : List CWord) (stages roles : List Byte) : Option Refused :=
  match (List.range stages.length).find? fun i => decide (16 ≤ (stages.getD i 0).toNat) with
  | some i => some { status := 1, field := 0x201, index := i }
  | none =>
    let n := hW h * hH h
    ((List.range roles.length).find? fun i =>
      let r := (roles.getD i 0).toNat
      decide (4 ≤ r) || ((r = 0) == hPinned h (i / n))).map fun i => { status := 1, field := 0x202, index := i }

/-! ### The configuration stream (R32 to R35) -/

/-- One value word: its index in the stream, the cores that it addresses, and the field it writes. -/
structure CfgWrite where
  idx : Nat
  px : Nat
  py : Nat
  unit : Nat
  ctx : Nat
  field : Nat
  val : CWord
deriving DecidableEq, Repr

/-- A baste point (R35). -/
structure Baste where
  idx : Nat
  px : Nat
  py : Nat
  out : Nat
  ctx : Nat
  num : Nat
deriving DecidableEq, Repr

/-- What a stream holds. -/
structure Stream where
  writes : List CfgWrite := []
  bastes : List Baste := []
  notes : List Nat := []
deriving DecidableEq, Repr

/-- Fields of a unit (R36); units 14 and 15 have none. -/
def unitFields (u : Nat) : Nat :=
  match u with
  | 0 => 24
  | 7 => 64
  | 8 => 32
  | 9 => 256
  | 10 => 64
  | 11 => 4
  | 12 => 1
  | 13 => 2
  | u => if u < 7 then 16 else 0

/-- A baste point entered: of two for one channel and context the lower number stays (R35). -/
def addBaste (bs : List Baste) (b : Baste) : List Baste :=
  match bs.find? fun c => c.px = b.px && c.py = b.py && c.out = b.out && c.ctx = b.ctx with
  | some c => if b.num < c.num then bs.filter (· != c) ++ [b] else bs
  | none => bs ++ [b]

/-- The scan of R34: `i` is the index of the next command, `ws` the words from it on. A broadcast to a column outside the patch names no core
and is not refused. DESIGN CHOICE (assumption 104): of a stream that has no END, RESULT names the last word. -/
def scanStream (w h nctx : Nat) (all : List CWord) : Nat → Nat → List CWord → Option (Nat × Nat × Nat × Nat) → Stream →
    Except Refused Stream
  | 0, i, _, _, _ => .error { status := 1, field := 0x200, index := i - 1 }
  | fuel + 1, i, ws, cur, st =>
    let bad : Except Refused Stream := .error { status := 1, field := 0x200, index := i }
    match ws with
    | [] => .error { status := 1, field := 0x200, index := i - 1 }
    | c :: r =>
      let b := fun lo n => natBits c.toNat lo n
      match b 30 2 with
      | 0 =>
        let px := b 24 6
        let py := b 18 6
        let u := b 14 4
        let x := b 11 3
        let f := b 0 11
        if py ≠ 63 ∧ (h ≤ py ∨ w ≤ px) then bad
        else if unitFields u ≤ f ∨ (u = 12 ∧ x ≠ 0) then bad
        else if nctx ≤ x then .error { status := 7, field := 0x200, index := i }
        else match r with
          | [] => bad
          | v :: r =>
            scanStream w h nctx all fuel (i + 2) r (some (px, py, u, x))
              { st with writes := st.writes ++ [⟨i + 1, px, py, u, x, f, v⟩] }
      | 1 =>
        let n := b 16 14
        let f0 := b 0 16
        match cur with
        | none => bad
        | some (px, py, u, x) =>
          if n = 0 ∨ unitFields u < f0 + n ∨ r.length < n then bad
          else
            let vs := ((List.range n).zip r).map fun p => (⟨i + 1 + p.1, px, py, u, x, f0 + p.1, p.2⟩ : CfgWrite)
            scanStream w h nctx all fuel (i + 1 + n) (r.drop n) cur { st with writes := st.writes ++ vs }
      | 2 =>
        match b 28 2 with
        | 0 =>
          let px := b 22 6
          let py := b 16 6
          let x := b 9 3
          if w ≤ px ∨ h ≤ py then bad
          else if nctx ≤ x then .error { status := 7, field := 0x200, index := i }
          else scanStream w h nctx all fuel (i + 1) r cur
            { st with bastes := addBaste st.bastes ⟨i, px, py, b 12 4, x, b 0 9⟩ }
        | 1 => scanStream w h nctx all fuel (i + 1) r cur st
        | 2 => scanStream w h nctx all fuel (i + 1) r cur { st with notes := st.notes ++ [b 0 28] }
        | _ => bad
      | _ =>
        if b 0 30 ≠ i then bad
        else match r with
          | [crc] =>
            if crc32c ((all.take (i + 1)).flatMap fun w => natBytes 4 w.toNat) = crc then .ok st
            else .error { status := 1, field := 0x200, index := i + 1 }
          | _ => bad

/-- A whole stream scanned. -/
def parseStream (h : List CWord) (ws : List CWord) : Except Refused Stream :=
  scanStream (hW h) (hH h) (hNctx h) ws (ws.length + 1) 0 ws none {}

/-! ### The object -/

/-- What the strip keeps of an object: header words, stages, roles, stream words, the stream parsed. -/
structure KObj where
  hdr : List CWord
  stages : List Byte
  roles : List Byte
  words : List CWord
  strm : Stream
deriving DecidableEq, Repr

/-- The 256 bytes of a header. -/
def readHdr (s : State) (lease va : Nat) : List Byte := stripRead s lease va 256

/-- The parts of an object that a load reads beside its header: offset and length of the stage table, the role table, the stream. -/
def objParts (h : List CWord) : List (Nat × Nat) :=
  let f := fun o => hdrF h o 0 32
  let n := hW h * hH h
  [(f 0x40, n), (f 0x44, hNctx h * n), (f 0x38, 4 * f 0x3C)]

/-- Whether a read of an object's parts waits for a page under migration (R227). -/
def partsWait (s : State) (lease va : Nat) (h : List CWord) : Bool := (objParts h).any fun x => stripWaits s lease (va + x.1) x.2

/-- The walks of such a read. -/
def partsWalk (s : State) (lease va : Nat) (h : List CWord) : State := (objParts h).foldl (fun s x => stripWalk s lease (va + x.1) x.2) s

/-- The object at an address of a lease, once its header has passed. -/
def readObj (s : State) (lease va : Nat) (h : List CWord) : Except Refused KObj :=
  let f := fun o => hdrF h o 0 32
  let n := hW h * hH h
  if ! (objParts h).all fun x => stripMapped s lease (va + x.1) x.2 fun _ _ => true then .error { status := 11, field := 32, index := 0 }
  else
    let stages := stripRead s lease (va + f 0x40) n
    let roles := stripRead s lease (va + f 0x44) (hNctx h * n)
    match tablesRefused h stages roles with
    | some r => .error r
    | none =>
      let ws := toWords (stripRead s lease (va + f 0x38) (4 * f 0x3C))
      match parseStream h ws with
      | .error r => .error r
      | .ok st => .ok { hdr := h, stages := stages, roles := roles, words := ws, strm := st }

/-- The validate stage's check of an object (R28 to R34): refused, or the object. -/
def checkObj (s : State) (lease : Nat) (L : Lease) (va : Nat) (fixed : Option (Nat × Nat)) : Except Refused KObj :=
  let raw := readHdr s lease va
  let h := toWords raw
  match hdrRefused s lease L (s.fn L.vf).perms h raw fixed with
  | some r => .error r
  | none => readObj s lease va h

/-- Whether that check waits for a page under migration: its header, or a part of an object whose header passes (R227). -/
def objWaits (s : State) (lease : Nat) (L : Lease) (va : Nat) (fixed : Option (Nat × Nat)) : Bool :=
  stripWaits s lease va 256 ||
    let raw := readHdr s lease va
    let h := toWords raw
    partsWait s lease va h && (hdrRefused s lease L (s.fn L.vf).perms h raw fixed).isNone

/-- The stream's CRC word (R356). -/
def KObj.crc (o : KObj) : CWord := o.words.getD (o.words.length - 1) 0

/-- The stage of a patch core (R31). -/
def KObj.stageOf (o : KObj) (px py : Nat) : Nat := (o.stages.getD (py * hW o.hdr + px) 0).toNat

/-- The role of a patch core in a context (R31). -/
def KObj.roleOf (o : KObj) (ctx px py : Nat) : Nat := (o.roles.getD (ctx * (hW o.hdr * hH o.hdr) + py * hW o.hdr + px) 0).toNat

end Sys2Proof.Machine
end

