-- ==== Sys2Proof/Machine/Queues.lean ====
section
/-! DEFINITION. Hardware queues and their windows (R82 to R85), ingest (R96), the fields of a packet (R86 to R93). -/

namespace Sys2Proof.Machine

/-! ### Windows (R83 to R85) -/

/-- Whether a function's BAR maps the window of a queue: the queue serves it (R83). -/
def ownsQueue (s : State) (fn q : Nat) : Bool := fn != 0 && (s.queue q).vf = fn

/-- A discarded write counted in BADWR. -/
def badWrite (s : State) (q : Nat) : State := s.modQueue q fun w => { w with badwr := Nat.min (w.badwr + 1) 0xFFFF }

/-- A host packet enters a queue's ring, or is discarded on a full one (R84). -/
def hostPacket (s : State) (q : Nat) (bs : List Byte) : State :=
  if (s.queue q).room then enqueuePacket s q (bytesValue bs) else s.modQueue q fun w => { w with ovfl := true }

/-- RESUME written (R85). -/
def doResume (s : State) (q : Nat) (v : BitVec 32) : State := if v = 1 then s.modQueue q fun w => { w with stopped := false } else s

/-- CHEAD written (R85): ignored where it would make the count negative or larger than the ring. -/
def doChead (s : State) (q : Nat) (v : BitVec 32) : State :=
  if ((s.queue q).ctail - v).toNat ≤ (s.queue q).size then s.modQueue q fun w => { w with chead := v } else s

/-- The word of OVFL written: the write is counted like any other there (R83), and a 1 in OVFL's place clears it (R6, R85;
assumption 51). -/
def clearOvfl (s : State) (q : Nat) (v : BitVec 32) : State :=
  (badWrite s q).modQueue q fun w => { w with ovfl := w.ovfl && ! v.getLsbD 2 }

/-- The function whose posted write a step is, if it is one. -/
def postedBy (i : Instr) : Option Nat :=
  match i with
  | .hostWindowWrite fn _ _ | .packetWrite fn _ _ _ | .resume fn _ _ | .chead fn _ _ | .registerWrite fn _ _ _ => some fn
  | _ => none

/-- A function's posted write performs in its turn (R290): it waits at the port while an earlier one of its function does. -/
def inOrder (s : State) (fn : Nat) (i : Instr) (go : State → State) : State :=
  if s.posted.any fun j => postedBy j = some fn then { s with posted := s.posted ++ [i] } else go s

/-- A write to a queue's window (R83): each whole 64-byte unit that an aligned write covers enters as a packet; any other write is counted
and discarded, but for 4-byte writes to RESUME and CHEAD, and one that writes a 1 to OVFL, which is counted and clears it (R6, R85;
assumption 51). -/
def packetPut (fn q off : Nat) (data : List Byte) (s : State) : State :=
  if ! ownsQueue s fn q then s
  else if off = 0xFCC ∧ data.length = 4 then doResume s q (BitVec.ofNat 32 (bytesNat data))
  else if off = 0xFD0 ∧ data.length = 4 then doChead s q (BitVec.ofNat 32 (bytesNat data))
  else if off = 0xFC8 ∧ data.length = 4 then clearOvfl s q (BitVec.ofNat 32 (bytesNat data))
  else if off % 64 ≠ 0 ∨ data.length < 64 ∨ 0xFC0 ≤ off then badWrite s q
  else ((chunks 64 data.length data).take ((0xFC0 - off) / 64)).foldl (fun s u => if u.length = 64 then hostPacket s q u else s) s

/-- A write to RESUME. -/
def resumePut (fn q : Nat) (v : BitVec 32) (s : State) : State := if ownsQueue s fn q then doResume s q v else s

/-- A write to CHEAD. -/
def cheadPut (fn q : Nat) (v : BitVec 32) (s : State) : State := if ownsQueue s fn q then doChead s q v else s

/-- PACKET_WRITE (R83, R290). -/
def execPacketWrite (fn q off : Nat) (data : List Byte) (s : State) : Host.Outcome State Fault Refusal :=
  .next (inOrder s fn (.packetWrite fn q off data) (packetPut fn q off data))

/-- RESUME (R85, R290). -/
def execResume (fn q : Nat) (v : BitVec 32) (s : State) : Host.Outcome State Fault Refusal :=
  .next (inOrder s fn (.resume fn q v) (resumePut fn q v))

/-- CHEAD (R85, R290). -/
def execChead (fn q : Nat) (v : BitVec 32) (s : State) : Host.Outcome State Fault Refusal :=
  .next (inOrder s fn (.chead fn q v) (cheadPut fn q v))

/-! ### The fields of a packet (R86 to R93) -/

/-- TYPE. -/
def pkType (v : Value) : Nat := bitsOf v 0 4
/-- STOP. -/
def pkStop (v : Value) : Bool := v.getLsbD 4
/-- ORD. -/
def pkOrd (v : Value) : Bool := v.getLsbD 5
/-- PTAG. -/
def pkPtag (v : Value) : BitVec 32 := BitVec.ofNat 32 (bitsOf v 32 32)
/-- The 64-bit word at byte 8k. -/
def pkWord (v : Value) (k : Nat) : Nat := bitsOf v (64 * k) 64
/-- The signal address of dependence k, 0 or 1, if it is valid. -/
def pkDep (v : Value) (k : Nat) : Option Nat :=
  let w := pkWord v (k + 1)
  if w.testBit 48 then some (natBits w 0 48) else none
/-- CSIG's address, if it is valid and well formed. -/
def pkCsig (v : Value) : Option Nat :=
  let w := pkWord v 3
  if w.testBit 51 && natBits w 52 12 = 0 && natBits w 0 3 = 0 then some (natBits w 0 48) else none
/-- The address in the first body word. -/
def pkAddr (v : Value) : Nat := natBits (pkWord v 4) 0 48
/-- LAUNCH's ARGVA. -/
def pkArgs (v : Value) : Nat := natBits (pkWord v 5) 0 48
/-- LAUNCH's lease. -/
def pkLease (v : Value) : Nat := natBits (pkWord v 6) 0 12
/-- LAUNCH's FIXED origin. -/
def pkFixed (v : Value) : Option (Nat × Nat) :=
  let w := pkWord v 6
  if w.testBit 12 then some (natBits w 13 6, natBits w 19 6) else none
/-- KEEP. -/
def pkKeep (v : Value) : Bool := (pkWord v 6).testBit 25
/-- SEEDOVR. -/
def pkSeed (v : Value) : Option (BitVec 64) := if (pkWord v 6).testBit 26 then some (BitVec.ofNat 64 (pkWord v 7)) else none
/-- LEASE's OP. -/
def pkOp (v : Value) : Nat := natBits (pkWord v 4) 0 3
/-- LEASE's identity. -/
def pkIdent (v : Value) : Nat := natBits (pkWord v 4) 16 12
/-- RECT. -/
def pkRect (v : Value) : Nat := pkWord v 5
/-- RECT's x. -/
def rcX (r : Nat) : Nat := natBits r 0 6
/-- RECT's y. -/
def rcY (r : Nat) : Nat := natBits r 6 6
/-- RECT's W. -/
def rcW (r : Nat) : Nat := natBits r 12 6 + 1
/-- RECT's H. -/
def rcH (r : Nat) : Nat := natBits r 18 6 + 1
/-- RECT's FIXED. -/
def rcFixed (r : Nat) : Bool := r.testBit 24
/-- RECT's pseudo-channel count. -/
def rcChans (r : Nat) : Nat := natBits r 25 11
/-- RECT's borrower. -/
def rcBorrower (r : Nat) : Nat := natBits r 36 8
/-- RECT's loan number. -/
def rcLoan (r : Nat) : Nat := natBits r 44 16

/-! ### Ingest (R96) -/

/-- Whether a queue has a packet that may leave its ring. -/
def Queue.leaves (q : Queue) : Bool := q.isOpen && ! q.stopped && ! q.ring.isEmpty

/-- The next queue that ingest visits with a packet to take: round-robin from `ingestNext`. -/
def nextQueue (s : State) : Option Nat :=
  let qs := (s.queues.filter fun e => e.2.leaves).map (·.1)
  (qs.find? fun q => decide (s.ingestNext ≤ q)).or qs.head?

/-- A VF that has been switched out (R353): its queues hold their packets. -/
def vfOut (s : State) (vf : Nat) : Bool := (s.fn vf).out

/-- A packet as it leaves its queue's ring. -/
def newPkt (s : State) (q : Nat) (v : Value) : Pkt :=
  { num := s.nextPkt, queue := q, words := v, stage := .validate, ingest := s.time, rin := s.sl.cur, lease := 4096,
    registered := false, status := 0, field := 0xFFFF, result := 0, ready := none, levels := 0,
    patch := none, sealFor := none, copied := 0, charge := 0, skipFill := false, requests := [], began := 0,
    borrowed := 0, doneSeq := 0, hdr := [], vf := (s.queue q).vf }

/-- Packets of a queue's ring that are not to run complete ABORTED (R15, R97): they leave it for the complete stage. -/
def abortRing (s : State) (q : Nat) (pick : Value → Bool) : State :=
  let out := (s.queue q).ring.filter pick
  out.foldl (fun s v =>
      { s with pipe := s.pipe ++ [{ newPkt s q v with stage := .complete, status := 18, doneSeq := s.tick }], nextPkt := s.nextPkt + 1 })
    (s.modQueue q fun w => { w with ring := w.ring.filter fun v => ! pick v, head := w.head + BitVec.ofNat 32 out.length })

/-- INGEST (R96): the head of the ring that round-robin names leaves it; its ingest time is recorded. On a device that has stopped
nothing runs: what was still posted completes ABORTED (R15). -/
def execIngest (q : Nat) (s : State) : Host.Outcome State Fault Refusal :=
  .next (
    if s.stopped then abortRing s q fun _ => true
    else if s.quiesced ∨ nextQueue s ≠ some q then s
    else if vfOut s (s.queue q).vf then { s with ingestNext := (q + 1) % 1024 }
    else match (s.queue q).ring with
      | [] => s
      | v :: r =>
        { s.modQueue q (fun w => { w with ring := r, head := w.head + 1 }) with
          pipe := s.pipe ++ [newPkt s q v], nextPkt := s.nextPkt + 1, ingestNext := (q + 1) % 1024 })

/-! ### The status words of a window (R6, R85) -/

/-- What a read of a window's word returns; the write-only RESUME and reserved words read as zero. A read changes nothing, and no row of
the table is one. -/
def windowWord (s : State) (q off : Nat) : BitVec 32 :=
  let w := s.queue q
  match off with
  | 0xFC0 => w.head
  | 0xFC4 => w.tail
  | 0xFC8 => BitVec.ofNat 32 (w.badwr * 2 ^ 16 + w.prio % 8 * 2 ^ 10 + w.ovfl.toNat * 4 + w.stopped.toNat * 2 + w.isOpen.toNat)
  | 0xFD0 => w.chead
  | 0xFD4 => w.ctail
  | _ => 0

/-- The packet that the strip turns to, if it stands at a stage. -/
def pktAt (s : State) (st : Stage) : Option Pkt := (s.pkt s.pkSel).filter fun p => p.stage = st

/-- Earlier packets of the same queue still in the pipeline (R86, R94). -/
def earlier (s : State) (p : Pkt) : List Pkt := s.pipe.filter fun q => q.queue = p.queue && decide (q.num < p.num)

end Sys2Proof.Machine
end

