-- ==== Sys2Proof/Machine/Validate.lean ====
section
/-! DEFINITION. The validate stage (R86 to R93, R96): a packet's own limits, the lease it acts for, the addresses it names, what its type
asks beyond them. -/

namespace Sys2Proof.Machine

/-- LR_HEADER for a packet field. -/
def lrHeader (field : Nat) : Refused := { status := 1, field := field, index := 0 }
/-- LR_SHAPE. -/
def lrShape (field : Nat) : Refused := { status := 9, field := field, index := 0 }
/-- LR_PERM. -/
def lrPerm (field : Nat) : Refused := { status := 11, field := field, index := 0 }

/-- The first refusal of a list of checks. -/
def firstBad (cs : List (Bool × Refused)) : Option Refused := (cs.find? (! ·.1)).map (·.2)

/-! ### Layout (R86 to R93) -/

/-- A dependence entry: valid with an aligned address, or all zero. -/
def depOk (w : Nat) : Bool := if w.testBit 48 then natBits w 49 15 = 0 && natBits w 0 3 = 0 else w = 0

/-- CSIG. -/
def csigOk (w : Nat) : Bool :=
  if w.testBit 51 then natBits w 52 12 = 0 && decide (1 ≤ natBits w 48 3) && decide (natBits w 48 3 ≤ 5) && natBits w 0 3 = 0 else w = 0

/-- A signal word of WAIT or SIGNAL: address, scope, and a code below `codes` in `width` bits from bit 52. -/
def signalOk (w width codes : Nat) : Bool :=
  natBits w 0 3 = 0 && decide (1 ≤ natBits w 48 3) && decide (natBits w 48 3 ≤ 5) && ! w.testBit 51 &&
    decide (natBits w 52 width < codes) && natBits w (52 + width) (12 - width) = 0

/-- RECT's bits that its table gives to other OPs alone are zero (R92); the rectangle's own, which the table gives to every OP, may hold
anything where the OP has no use for them. -/
def rectOk (op r : Nat) : Bool :=
  natBits r 60 4 = 0 &&
    match op with
    | 0 | 1 => natBits r 36 24 = 0
    | 2 => natBits r 24 12 = 0 && natBits r 44 16 = 0
    | 3 => natBits r 24 20 = 0
    | _ => natBits r 24 36 = 0

/-- The body of a packet by its type. -/
def bodyChecks (v : Value) : List (Bool × Refused) :=
  let w := pkWord v
  let zero := fun k => (decide (w k = 0), lrHeader (8 * k))
  match pkType v with
  | 1 =>
    [(natBits (w 4) 48 16 = 0 && natBits (w 4) 0 16 = 0, lrHeader 32), (natBits (w 5) 48 16 = 0 && natBits (w 5) 0 6 = 0, lrHeader 40),
     (natBits (w 6) 27 37 = 0 && ((w 6).testBit 12 || natBits (w 6) 13 12 = 0), lrHeader 48),
     ((w 6).testBit 26 || w 7 = 0, lrHeader 56)]
  | 2 => [(signalOk (w 4) 4 10, lrHeader 32), zero 6, zero 7]
  | 3 => [(signalOk (w 4) 2 2, lrHeader 32), zero 6, zero 7]
  | 4 =>
    [(natBits (w 4) 48 16 = 0, lrHeader 32), (natBits (w 5) 0 16 != 0, lrHeader 40),
     (natBits (w 5) 16 48 = 0, lrHeader 42), zero 6, zero 7]
  | 5 => [(natBits (w 4) 1 63 = 0, lrHeader 32), zero 5, zero 6, zero 7]
  | 6 =>
    [(decide (pkOp v ≤ 4) && natBits (w 4) 3 5 = 0, lrHeader 32), (natBits (w 4) 8 8 = 0, lrHeader 33),
     (natBits (w 4) 28 4 = 0 && (pkOp v != 0 || pkIdent v = 0), lrHeader 34), (natBits (w 4) 32 32 = 0, lrHeader 36),
     (rectOk (pkOp v) (w 5), lrHeader 40), zero 6, zero 7]
  | _ => [zero 4, zero 5, zero 6, zero 7]

/-- The limits of R86 to R93. -/
def layoutRefused (v : Value) : Option Refused :=
  firstBad ([(natBits (pkWord v 0) 6 26 = 0 && decide (1 ≤ pkType v) && decide (pkType v ≤ 7), lrHeader 0),
    (depOk (pkWord v 1), lrHeader 8), (depOk (pkWord v 2), lrHeader 16), (csigOk (pkWord v 3), lrHeader 24)] ++ bodyChecks v)

/-! ### Addresses and the posting lease (R87, R94, R96) -/

/-- What a packet asks of an address: read, write, or an atomic. -/
inductive PkNeed where
  | read | write | atomic
deriving DecidableEq, Repr

/-- Whether an address of a lease translates for a need. -/
def pkMapped (s : State) (lease : Nat) (n : PkNeed) (va : Nat) : Bool :=
  (stripMap s lease va).any fun m => match n with
    | .read => peR m.2
    | .write => peW m.2
    | .atomic => peR m.2 && peW m.2 && ! m.1.isSystem

/-- The addresses that a packet names: field, need, address. -/
def pkAddrs (v : Value) : List (Nat × PkNeed × Nat) :=
  let dep := fun k => match pkDep v k with
    | some a => [(8 * (k + 1), PkNeed.read, a)]
    | none => []
  let csig := match pkCsig v with
    | some a => [(24, PkNeed.write, a)]
    | none => []
  let body := match pkType v with
    | 1 => (32, PkNeed.read, pkAddr v) :: if pkArgs v = 0 then [] else [(40, .read, pkArgs v)]
    | 2 => [(32, PkNeed.read, pkAddr v)]
    | 3 => [(32, if natBits (pkWord v 4) 52 2 = 1 then PkNeed.atomic else .write, pkAddr v)]
    | 4 => [(32, PkNeed.read, pkAddr v)]
    | _ => []
  dep 0 ++ dep 1 ++ csig ++ body

/-- The first address of a packet that a lease does not translate. -/
def badAddr (s : State) (lease : Nat) (v : Value) : Option Nat :=
  ((pkAddrs v).find? fun a => ! pkMapped s lease a.2.1 a.2.2).map (·.1)

/-- The lease that a packet acts for, or the refusal. A LAUNCH and a LEASE name theirs; any other packet acts for the lowest-numbered
granted lease of its VF that translates every address it names. -/
def postingLease (s : State) (p : Pkt) : Except Refused Nat :=
  let v := p.words
  let ls := vfLeases s (s.queue p.queue).vf
  let named := if pkType v = 1 then some (pkLease v, 48) else if pkType v = 6 ∧ pkOp v ≠ 0 then some (pkIdent v, 34) else none
  match named with
  | some (l, f) =>
    if ! ls.any (·.1 = l) then .error (lrPerm f)
    else match badAddr s l v with
      | some b => .error (lrPerm b)
      | none => .ok l
  | none =>
    if (pkAddrs v).isEmpty then .ok 4096
    else match ls.find? fun e => (badAddr s e.1 v).isNone with
      | some e => .ok e.1
      | none => .error (lrPerm ((ls.head?.bind fun e => badAddr s e.1 v).getD (((pkAddrs v).head?.map (·.1)).getD 32)))

/-! ### LEASE (R15, R92, R102) -/

/-- Whether a rectangle touches the Briuk strip. -/
def onStrip (x y : Nat) : Bool := x = 0 && decide (y < 24)

/-- Whether a rectangle stands on the grid and off the strip. -/
def rectPlace (x y w h : Nat) : Bool := decide (x + w ≤ 64) && decide (y + h ≤ 48) && ! onStrip x y

/-- Whether a rectangle's fixed place, if it names one, is on the grid and off the strip (R92, R102); one without is judged where it is
placed: a REQUEST that fits nowhere is held. -/
def fixedOk (r : Nat) : Bool := ! rcFixed r || rectPlace (rcX r) (rcY r) (rcW r) (rcH r)

/-- Cores, and pseudo-channels, of a VF's leases, one lease left out. -/
def vfTotal (s : State) (vf : Nat) (but : Option Nat) (f : Lease → Nat) : Nat :=
  ((s.leases.filter fun e => e.2.vf = vf && some e.1 != but).map fun e => f e.2).foldl (· + ·) 0

/-- The checks of a LEASE packet; a REQUEST before DOMAIN is refused (R388). -/
def leaseRefused (s : State) (p : Pkt) : Option Refused :=
  let v := p.words
  let vf := (s.queue p.queue).vf
  let fn := s.fn vf
  let r := pkRect v
  let lend := fn.perms.getLsbD 3
  match pkOp v, s.lease (pkIdent v) with
  | 0, _ =>
    firstBad [(s.sl.formed, lrPerm 32), (decide (1 ≤ rcChans r) && decide (rcChans r ≤ 1520) &&
        decide (vfTotal s vf none (·.chans.length) + rcChans r ≤ fn.chans), lrShape 40),
      (decide (vfTotal s vf none (fun L => L.w * L.h) + rcW r * rcH r ≤ fn.cores), lrShape 40),
      (fixedOk r, lrShape 40)]
  | 1, _ =>
    let me := some (pkIdent v)
    firstBad [(rcChans r = 0 || (decide (rcChans r ≤ 1520) &&
        decide (vfTotal s vf me (·.chans.length) + rcChans r ≤ fn.chans)), lrShape 40),
      (decide (vfTotal s vf me (fun L => L.w * L.h) + rcW r * rcH r ≤ fn.cores), lrShape 40),
      (fixedOk r, lrShape 40)]
  | 2, some L =>
    firstBad [(lend, lrPerm 32), (decide (rcX r + rcW r ≤ L.w) && decide (rcY r + rcH r ≤ L.h), lrShape 40)]
  | 3, some L => firstBad [(lend, lrPerm 32), (L.loans.any (·.num = rcLoan r), lrPerm 40)]
  | _, _ => none

/-! ### The stage -/

/-- The requests of a COPY packet (R90). -/
def copyRequests (s : State) (lease : Nat) (v : Value) : List Value :=
  let n := natBits (pkWord v 5) 0 16
  (chunks 64 n (stripRead s lease (pkAddr v) (64 * n))).map bytesValue

/-- What a type asks beyond its layout and its addresses: the packet as the later stages take it, or the refusal. -/
def typeCheck (s : State) (p : Pkt) (lease : Nat) : Except Refused Pkt :=
  let v := p.words
  let p := { p with lease := lease, leaseGen := ((s.lease lease).map (·.gen)).getD 0 }
  match pkType v, s.lease lease with
  | 1, some L =>
    match checkObj s lease L (pkAddr v) (pkFixed v) with
    | .error r => .error r
    | .ok o =>
      if (hArgs o.hdr != 0) != (pkArgs v != 0) then .error (lrHeader 40)
      else if ! stripMapped s lease (pkArgs v) (64 * hArgs o.hdr) (fun _ e => peR e) && hArgs o.hdr != 0 then .error (lrPerm 40)
      else .ok { p with hdr := o.hdr }
  | 4, _ =>
    let n := natBits (pkWord v 5) 0 16
    if ! stripMapped s lease (pkAddr v) (64 * n) (fun _ e => peR e) then .error (lrPerm 32)
    else
      let rs := copyRequests s lease v
      match rs.findSome? fun r => if ! packetOk r then some (lrHeader 32) else if cpQueue r < 16 then some (lrPerm 32) else none with
      | some r => .error r
      | none => .ok { p with requests := rs }
  | 6, _ =>
    match leaseRefused s p with
    | some r => .error r
    | none => .ok p
  | _, _ => .ok p

/-- Validate a packet. -/
def validated (s : State) (p : Pkt) : Except Refused Pkt :=
  match layoutRefused p.words with
  | some r => .error r
  | none =>
    match postingLease s p with
    | .error r => .error r
    | .ok l => typeCheck s p l

/-- Whether what the stage reads for a packet, an object or an array of requests, waits for a page under migration (R227). -/
def readsWait (s : State) (p : Pkt) : Bool :=
  let v := p.words
  match layoutRefused v, postingLease s p with
  | none, .ok l =>
    if pkType v = 1 then (s.lease l).any fun L => objWaits s l L (pkAddr v) (pkFixed v)
    else pkType v = 4 && stripWaits s l (pkAddr v) (64 * natBits (pkWord v 5) 0 16)
  | _, _ => false

/-- The walks of those reads (R229). -/
def readsWalk (s : State) (p : Pkt) : State :=
  let v := p.words
  match postingLease s p with
  | .ok l =>
    if pkType v = 4 then stripWalk s l (pkAddr v) (64 * natBits (pkWord v 5) 0 16)
    else if stripWaits s l (pkAddr v) 256 then stripWalk s l (pkAddr v) 256
    else partsWalk s l (pkAddr v) (toWords (readHdr s l (pkAddr v)))
  | .error _ => s

/-- VALIDATE (R96): a packet goes on to depend, or straight to complete with its refusal; STOP = 1 then stops its queue. -/
def execValidate (s : State) : Host.Outcome State Fault Refusal :=
  .next (match pktAt s .validate with
    | none => s
    | some p =>
      if readsWait s p then readsWalk s p
      else match validated s p with
      | .ok q => s.modPkt p.num fun _ => { q with stage := .depend }
      | .error r =>
        let s := endPkt s p.num r.status r.field (BitVec.ofNat 64 r.index)
        if pkStop p.words then s.modQueue p.queue fun w => { w with stopped := true } else s)

end Sys2Proof.Machine
end

