-- ==== Sys2Proof/Machine/Depend.lean ====
section
/-! DEFINITION. The depend stage (R86, R94, R95), what WAIT, SIGNAL, SEALRQ and MARKER do there (R88, R89, R91, R93), where LAUNCH and
COPY go from it, and the complete stage (R97, R98). -/

namespace Sys2Proof.Machine

/-! ### The strip at a signal -/

/-- Where an address of a lease leads, as the strip reads it. -/
def stripLoc (s : State) (lease va : Nat) : Option Loc :=
  match translate s stripCid lease va with
  | .ok l _ => some l
  | _ => none

/-- Bytes stored by the strip at a target: at its node, or held as an escape; none while there is no room for the undo entry or the
escape (R308, R323). Poison met is poison consumed. -/
def stripStore (s : State) (lease : Nat) (l : Loc) (bs : List Byte) : Option State :=
  if locPoisoned s l && bs.length != 64 then some (poisonUsed s s.sl.cur)
  else match l with
    | .dev pa recov => if undoStalls s pa recov s.sl.cur then none else some (nodeWrite s l bs s.sl.cur)
    | .peer _ _ => some (nodeWrite s l bs s.sl.cur)
    | _ => if escapeRoom s then some (holdEscape s l (some lease) .z64 false false 0 0 0 s.sl.cur bs) else none

/-! ### Dependences (R94, R95) -/

/-- The addresses of a packet's dependences. -/
def depAddrs (v : Value) : List Nat := [pkDep v 0, pkDep v 1].filterMap id

/-- The targets of a packet's dependences, once every one translates. -/
def depLocs (s : State) (p : Pkt) : Option (List Loc) := (depAddrs p.words).mapM fun a => stripLoc s p.lease a

/-- The walks of those addresses (R229). -/
def depsWalk (s : State) (p : Pkt) : State := (depAddrs p.words).foldl (fun s a => stripWalk s p.lease a 8) s

/-- Whether a packet holds dependence entries. -/
def holdsEntries (s : State) (p : Pkt) : Bool := s.waiters.any fun w => w.pk = some p.num

/-- Whether a queue's 16 entries have room for a packet: eight hold entries at once, and one goes before those behind it, so that the
packets leave in order. -/
def entryRoom (s : State) (p : Pkt) : Bool :=
  decide ((s.pipe.filter fun q => q.queue = p.queue && holdsEntries s q).length < 8) &&
    (earlier s p).all fun q => holdsEntries s q || (depAddrs q.words).isEmpty || (q.stage != .validate && q.stage != .depend)

/-- A waiter of a packet on a signal (R95, R291). -/
def pkWaiter (p : Pkt) (a : Nat) (l : Loc) : Waiter :=
  { line := lineKey l, pk := some p.num, core := none, woken := false, lease := p.lease, va := a }

/-- A packet waits on its signals (R95): at a peer's the peer is told. -/
def pkEnlist (s : State) (p : Pkt) (ls : List Loc) : State :=
  ((depAddrs p.words).zip ls).foldl (fun s e => enlist s (pkWaiter p e.1 e.2) fun _ => false) s

/-- What the dependences say. -/
inductive DepJudge where
  | failed | hold | met | poisoned
deriving DecidableEq, Repr

/-- The dependences judged on signed values: a negative one fails, a positive one holds. -/
def judgeDeps (s : State) (p : Pkt) (ls : List Loc) : DepJudge :=
  let vs := ls.map fun l => sgn 64 (bytesNat (nodeRead s p.lease l 8))
  if ls.any (readBad s p.lease) then .poisoned
  else if vs.any fun v => decide (v < 0) then .failed
  else if vs.any fun v => decide (0 < v) then .hold
  else .met

/-- Whether it is a packet's turn to leave depend: packets of a queue leave in order, and ORD waits for every earlier one to complete. -/
def myTurn (s : State) (p : Pkt) : Bool :=
  (earlier s p).all (fun q => q.stage != .validate && q.stage != .depend && q.stage != .act) && (! pkOrd p.words || (earlier s p).isEmpty)

/-- The packet leaves its dependences: a LEASE to the place stage, any other to its own effect. -/
def leaveDepend (s : State) (p : Pkt) : State :=
  let s := delist s fun w => w.pk = some p.num
  let now := s.time
  s.modPkt p.num fun q =>
    if pkType p.words = 6 then { q with stage := .place, ready := some now } else { q with stage := .act }

/-- The dependences read and judged. A packet held back rereads after the next write to a signal's line (R95), here or on a peer; a
location whose writes the device does not see is read again whenever the strip turns to the packet. -/
def judge (s : State) (p : Pkt) (ls : List Loc) : State :=
  let found := judgeDeps s p ls
  let s := ls.foldl (fun s l => countRead s p.lease l 8) s
  match found with
  | .poisoned => poisonUsed s s.sl.cur
  | .failed => endPkt s p.num 16 0xFFFF 0
  | .met => leaveDepend s p
  | .hold =>
    let seen := ls.all fun l => ! l.isSystem
    s.modPkt p.num fun q => { q with registered := seen }

/-- DEPEND (R94, R95): waiters are registered first; in its turn the packet's signals are read. -/
def execDepend (s : State) : Host.Outcome State Fault Refusal :=
  .next (match pktAt s .depend with
    | none => s
    | some p =>
      match depLocs s p with
      | none => depsWalk s p
      | some ls =>
        if ! ls.isEmpty && ! holdsEntries s p && ! entryRoom s p then s
        else
          let s := if ls.isEmpty || holdsEntries s p then s else pkEnlist s p ls
          if p.registered || ! myTurn s p then s else judge s p ls)

/-- DEPENDENCE_REREAD (R95): a later release woke the packet's waiter. -/
def execDependenceReread (s : State) : Host.Outcome State Fault Refusal :=
  .next (match pktAt s .depend with
    | none => s
    | some p =>
      match depLocs s p with
      | none => depsWalk s p
      | some ls => if p.registered || ! holdsEntries s p || ! myTurn s p then s else judge s p ls)

/-! ### The types -/

/-- A packet of a type that has left its dependences; none acts while a rollback holds the leases (R326). -/
def actOf (s : State) (ty : Nat) : Option Pkt :=
  if s.sl.rolling.isSome then none else (pktAt s .act).filter fun p => pkType p.words = ty

/-- LAUNCH (R87): on to the place stage. -/
def execLaunch (s : State) : Host.Outcome State Fault Refusal :=
  .next (match actOf s 1 with
    | none => s
    | some p => s.modPkt p.num fun q => { q with stage := .place, ready := some s.time })

/-- WAIT (R88): completes when signal cond comparand holds. -/
def execWait (s : State) : Host.Outcome State Fault Refusal :=
  .next (match actOf s 2 with
    | none => s
    | some p =>
      match stripLoc s p.lease (pkAddr p.words), condOf (BitVec.ofNat 4 (natBits (pkWord p.words 4) 52 4)) with
      | some l, some c =>
        let bad := readBad s p.lease l
        let v := bytesNat (nodeRead s p.lease l 8)
        let s := countRead s p.lease l 8
        if bad then poisonUsed s s.sl.cur
        else if condHolds c 64 v (pkWord p.words 5) then endPkt s p.num 0 0xFFFF 0
        else if l.isSystem || holdsEntries s p then s
        else enlist s (pkWaiter p (pkAddr p.words) l) fun _ => false
      | _, _ => stripWalk s p.lease (pkAddr p.words) 8)

/-- SIGNAL (R89): a store or an atomic add, and complete. -/
def execSignal (s : State) : Host.Outcome State Fault Refusal :=
  .next (match actOf s 3 with
    | none => s
    | some p =>
      match stripLoc s p.lease (pkAddr p.words) with
      | none => stripWalk s p.lease (pkAddr p.words) 8
      | some l =>
        let v := pkWord p.words 5
        let adds := natBits (pkWord p.words 4) 52 2 = 1
        let bad := adds && injected s p.lease l
        let v := if adds then (bytesNat (nodeRead s p.lease l 8) + v) % 2 ^ 64 else v
        let s := if adds then countRead s p.lease l 8 else s
        if bad then poisonUsed s s.sl.cur
        else match stripStore s p.lease l (natBytes 8 v) with
        | none => s
        | some s => endPkt s p.num 0 0xFFFF 0)

/-- COPY (R90): on to the launch stage, where its requests issue. -/
def execCopy (s : State) : Host.Outcome State Fault Refusal :=
  .next (match actOf s 4 with
    | none => s
    | some p => s.modPkt p.num fun q => { q with stage := .launch, began := s.time })

/-- SEALRQ (R91): asks for an early seal; with WAITSEAL it completes at the SEALED of the interval current now. -/
def execSealrq (s : State) : Host.Outcome State Fault Refusal :=
  .next (match actOf s 5 with
    | none => s
    | some p =>
      let r := s.sl.cur
      let s := requestSeal s false
      if (pkWord p.words 4).testBit 0 then s.modPkt p.num fun q => { q with stage := .running, sealFor := some r }
      else endPkt s p.num 0 0xFFFF 0)

/-- MARKER (R93): completes with its ingest time. -/
def execMarker (s : State) : Host.Outcome State Fault Refusal :=
  .next (match actOf s 7 with
    | none => s
    | some p => endPkt s p.num 0 0xFFFF (BitVec.ofNat 64 p.ingest))

/-! ### Complete (R97, R98) -/

/-- Whether a packet goes before another of its queue at the complete stage: in the order in which they were done. -/
def doneBefore (a b : Pkt) : Bool := decide (a.doneSeq < b.doneSeq) || (a.doneSeq = b.doneSeq && decide (a.num ≤ b.num))

/-- Whether a packet is the next of its queue to complete; one held for its SEALED (R320) holds nobody back. -/
def nextDone (s : State) (p : Pkt) : Bool :=
  p.sealFor.isNone && s.pipe.all fun q => q.queue != p.queue || q.stage != .complete || q.sealFor.isSome || doneBefore p q

/-- The lease in which CSIG is released: the packet's own, while it is still the one that the packet acted for; for a packet refused
before it had one, the lease it names, else the lowest lease of its VF that translates the address (assumption 49). -/
def csigLease (s : State) (p : Pkt) (a : Nat) : Option Nat :=
  if p.lease < 4096 then if (s.lease p.lease).any (·.gen = p.leaseGen) then some p.lease else none
  else
    let ls := vfLeases s p.vf
    let named := if pkType p.words = 1 then ls.find? (·.1 = pkLease p.words) else none
    (named.or (ls.find? fun e => pkMapped s e.1 .write a)).map (·.1)

/-- The lease and the address of CSIG, where it is mapped to be written. -/
def csigAt (s : State) (p : Pkt) : Option (Nat × Nat) :=
  (pkCsig p.words).bind fun a => ((csigLease s p a).filter fun l => pkMapped s l .write a).map (·, a)

/-- The target of CSIG, in its lease. -/
def csigLoc (s : State) (p : Pkt) : Option (Nat × Loc) := (csigAt s p).bind fun q => (stripLoc s q.1 q.2).map fun x => (q.1, x)

/-- Whether the release of CSIG waits for a page under migration (R227). -/
def csigWaits (s : State) (p : Pkt) : Bool := (csigAt s p).any fun q => stripWaits s q.1 q.2 8

/-- The walk of that release (R229). -/
def csigWalk (s : State) (p : Pkt) : State := ((csigAt s p).map fun q => stripWalk s q.1 q.2 8).getD s

/-- The record of a packet (R98). -/
def pktRecord (s : State) (p : Pkt) : BitVec 256 :=
  record (pkPtag p.words) p.status (pkType p.words) p.field p.result s.sl.cur s.time

/-- A packet's record written and its CSIG released (R98): none while the release waits for room. -/
def finishPkt (s : State) (p : Pkt) : Option State :=
  let s' := if (s.queue p.queue).cRoom then postRecord s p.queue (pktRecord s p) else s
  let out := fun (s : State) => { s with pipe := s.pipe.filter fun q => q.num != p.num }
  match csigLoc s p with
  | none => if csigWaits s p then none else some (out s')
  | some (l, x) => (stripStore s' l x (natBytes 8 ((2 ^ 64 - p.status) % 2 ^ 64))).map out

/-- COMPLETE (R98): the record, then the release of CSIG; with the completion ring full the packet waits. -/
def execComplete (s : State) : Host.Outcome State Fault Refusal :=
  .next (match pktAt s .complete with
    | none => s
    | some p =>
      if ! nextDone s p || ! (s.queue p.queue).cRoom then s else (finishPkt s p).getD (csigWalk s p))

end Sys2Proof.Machine
end

