-- ==== Sys2Proof/Machine/ConfigLoad.lean ====
section
/-! DEFINITION. Configuration loads (R33 to R37, R123, R138, R139): shadow copies, the checks of value words, the commit. -/

namespace Sys2Proof.Machine

/-! ### Shadow copies (R139) -/

/-- The value words of a stream that one core and context take, broadcasts among them (R33). -/
def coreWrites (o : KObj) (px py ctx : Nat) : List CfgWrite :=
  o.strm.writes.filter fun w => w.ctx = ctx && ((w.px = px && w.py = py) || (w.py = 63 && (w.px = 63 || w.px = px)))

/-- A table of configuration words after value words, the later one of two for a field standing (R34). -/
def applyWrites (t : Table CWord) (ws : List CfgWrite) : Table CWord :=
  ws.foldl (fun t w => tset t (w.unit * 2048 + w.field) w.val) t

/-- The stream index of the word that wrote a field last, which is the one in effect (R34). -/
def idxOf (ws : List CfgWrite) (unit field : Nat) : Option Nat :=
  ws.foldl (fun r w => if w.unit = unit && w.field = field then some w.idx else r) none

/-! ### Words judged alone (R36, R161, R231, R248) -/

/-- A route word (R161) for a role. -/
def routeOk (role r : Nat) : Bool :=
  match routeKind r with
  | 0 => r = 0
  | 1 => natBits r 0 10 = 0
  | 3 => natBits r 0 28 = 0
  | 4 => natBits r 0 29 = 0
  | 5 | 6 => natBits r 0 29 = 0 && role = 1
  | _ => false

/-- What a value word is judged by: the header, the lease's and the header's permissions together, the kind of its context and
the core's role. -/
structure Judge where
  hdr : List CWord
  pinned : Bool
  role : Nat
deriving DecidableEq, Repr

/-- A channel binding (R36 unit 8): depth 1 to 64 where it is bound, never above 64. -/
def bindingOk (v : Nat) : Bool := (! v.testBit 10 || natBits v 0 7 != 0) && decide (natBits v 0 7 ≤ 64)

/-- The access codes assigned (R56). -/
def acCode (n : Nat) : Bool := decide (n ≤ 6) || n = 8 || n = 9

/-- The flags word of a GEN stream (R231). -/
def streamWordOk (v : Nat) : Bool :=
  natBits v 24 2 = 0 && (v.testBit 31 || v = 0) && acCode (natBits v 26 4) &&
    (! v.testBit 30 || ! (decide (4 ≤ natBits v 26 4) && decide (natBits v 26 4 ≤ 6)))

/-- One value word against its unit's entry. A unit 0 field of a slot at or above TASKS is illegal in every context (R144; assumption
96). -/
def wordOk (j : Judge) (unit field v : Nat) : Bool :=
  match unit with
  | 0 =>
    decide (field % 8 < hTasks j.hdr) &&
      (if field < 8 then true else if field < 16 then natBits v 16 16 = 0 else natBits v 5 27 = 0)
  | 7 => decide (16 ≤ field) || routeOk j.role v
  | 8 =>
    if field < 16 then natBits v 11 21 = 0 && bindingOk v
    else natBits v 12 20 = 0 && bindingOk v && (! v.testBit 11 || (hPerms j.hdr).testBit 2)
  | 9 => true
  | 10 =>
    if 32 ≤ field then false
    else if field % 4 = 1 then natBits v 16 16 = 0
    else if field % 4 = 3 then streamWordOk v
    else true
  | 11 =>
    match field with
    | 0 => natBits v 5 27 = 0 && shapeOk (BitVec.ofNat 5 v)
    | 1 => decide (v < 7)
    | 2 => ! v.testBit 0 && natBits v 7 25 = 0
    | _ => decide (v < 2)
  | 12 =>
    let w := BitVec.ofNat 32 v
    pleatPossible w (hTasks j.hdr) (hFrame j.hdr) && (! hTaskCtx j.hdr || decide (plG w + plT w + plS w < 16)) &&
      decide (hScratch j.hdr ≤ plS w * 65536) && decide (hTile j.hdr ≤ plT w * 65536)
  | 13 => field != 0 || natBits v 7 25 = 0
  | _ => j.pinned

/-! ### Words judged together -/

/-- A value that a load refuses: where it stands, its own stream index where it is judged alone, the decode cause that a fired block
would have (R61), its slot and arm. -/
structure BadAt where
  unit : Nat
  field : Nat
  idx : Option Nat := none
  sub : BitVec 8 := 0
  slot : Option Nat := none
  arm : Nat := 0
deriving DecidableEq, Repr

/-- The stream index that the record names (R34): the word's own, else that of the word in effect at the place; of a stage word whose
half the stream did not write, the other half's; 0 where the stream wrote neither (assumption 97). -/
def BadAt.word (ws : List CfgWrite) (b : BadAt) : Nat :=
  let other := if b.slot.isSome then idxOf ws b.unit (b.field / 2 * 2 + (1 - b.field % 2)) else none
  ((b.idx.or (idxOf ws b.unit b.field)).or other).getD 0

/-- A check at a place. -/
def must (ok : Bool) (b : BadAt) : List BadAt := if ok then [] else [b]

/-- A counter word permutes its frame (R166). -/
def permutes (w : Nat) : Bool :=
  let lg := natBits w 29 3
  let ps := (List.range (2 ^ lg)).map fun k =>
    ((k % (natBits w 23 6 + 1)) * natBits w 17 6 + (k / (natBits w 23 6 + 1)) * natBits w 11 6) % 2 ^ lg
  decide (1 ≤ lg) && decide (lg ≤ 6) && natBits w 0 11 = 0 && (List.range (2 ^ lg)).all ps.contains

/-- Router element e (R163 to R166). An element of TYPE none may hold any IN0: R163 asks nothing of it (assumption 96). -/
def elemBads (c : Core) (role e : Nat) : List BadAt :=
  let f := 16 + 3 * e
  let w0 := c.cfg 7 f
  let w1 := c.cfg 7 (f + 1)
  let w2 := c.cfg 7 (f + 2)
  let at' := fun i => ({ unit := 7, field := f + i } : BadAt)
  match natBits w0 28 4 with
  | 0 => must (natBits w0 0 24 = 0) (at' 0) ++ must (w1 = 0) (at' 1) ++ must (w2 = 0) (at' 2)
  | ty =>
    let ins := c.elemIns e
    let others := (List.range 16).flatMap fun k => if k = e then [] else c.elemIns k
    must (decide (ty ≤ 4) && natBits w0 0 12 = 0 && (decide (ty ≤ 2) || natBits w0 20 4 = 0) &&
      (ty = 2 || natBits w0 16 4 = 0) && (ty = 3 || natBits w0 12 4 = 0)) (at' 0) ++
    must (ins.all c.inBound &&
      ins.all fun j => ! others.contains j && ! c.readChans.contains j && ! c.aselChans.contains j) (at' 0) ++
    must (routeOk role w1) (at' 1) ++
    must (match ty with
      | 1 => routeOk role w2
      | 4 => permutes w2
      | _ => w2 = 0) (at' 2)

/-- The place of read entry j, of write entry j, and of a stage word (R36, R154). -/
def readPlace (j : Nat) : BadAt := { unit := 1 + j / 8, field := 8 + j % 8 / 2, sub := 0x02 }
/-- A write entry. -/
def writePlace (j : Nat) : BadAt := { unit := 1 + j / 8, field := 12 + j % 8 / 4, sub := 0x02 }
/-- A stage word's low or high half: the arm-1 word where the arm has one of its own (R157). -/
def stagePlace (c : Core) (arm j : Nat) (low : Bool) (sub : BitVec 8) : BadAt :=
  let a := c.wordArm arm j
  { unit := 1 + j / 2, field := 4 * a + 2 * (j % 2) + (if low then 0 else 1), sub := sub, slot := some j, arm := a }

/-- An arm as its targets see it. -/
def armFrame (c : Core) (arm : Nat) : Frame := { pinned := true, code := c.armCode arm, nw := c.pinNw }
/-- Targets of the read entries. -/
def armReads (c : Core) : List Target := (List.range c.pinNr).map c.pinTarget

/-- The block's header field, its entries in ascending order and its reserved fields (R52 to R54, R62, R154), as one arm has them. -/
def entryBads (c : Core) (arm : Nat) : List BadAt :=
  let h := c.cfg 1 14
  let f := armFrame c arm
  must (natBits h 17 15 = 0 && decide (c.pinNr ≤ 40) && decide (c.pinNw ≤ 32) && (c.pinAsen || c.pinAsel = 0))
    { unit := 1, field := 14, sub := 0x02 } ++
  ((List.range 6).flatMap fun k =>
    must (c.cfg (1 + k) 15 = 0) { unit := 1 + k, field := 15, sub := 0x02 } ++
      (if k = 0 then [] else must (c.cfg (1 + k) 14 = 0) { unit := 1 + k, field := 14, sub := 0x02 })) ++
  ((List.range 48).flatMap fun j =>
    let e := c.pinRead j
    let t := (entryTarget e).getD .none
    if j < c.pinNr then
      must (e.testBit 15 && decide (natBits e 0 7 < 16) && t != .none && f.targetOk none t) (readPlace j) ++
        must (c.inBound (natBits e 0 4)) { readPlace j with sub := 0 }
    else must (e = 0) (readPlace j)) ++
  ((List.range 48).flatMap fun j =>
    let e := c.pinWrite j
    if j < c.pinNw then
      must (e.testBit 7 && decide (natBits e 0 7 < 16) && (List.range j).all fun k => c.pinWrite k != e) (writePlace j) ++
        must (c.outBound (natBits e 0 4)) { writePlace j with sub := 0 }
    else must (e = 0) (writePlace j)) ++
  must (! c.pinAsen || c.inBound c.pinAsel) { unit := 1, field := 14 }

/-- What a stage word may not hold beyond decode (R71, R153, R159, R220, R223, R258, R270). -/
def stageRuleOk (c : Core) (role slot : Nat) (w : IWord) (i : Instr) : Bool :=
  (laneOpc w == decide (slot % 2 = 1)) && pinnedOk role i && (drawsOf false i).isNone &&
    (match headOf i with
      | some h => [h.t0, h.t1].all fun t => match t with
        | .out n => c.outBound n.toNat
        | _ => true
      | none => true) &&
    match i with
    | .ldg _ ac _ m => streamBound c m.ofs.toNat 0 ac
    | .stg _ ac _ m => streamBound c m.ofs.toNat 1 ac
    | .marm _ sh => sh.toNat = natBits (c.cfg 11 0) 0 5
    | .redn _ _ m _ _ _ => (maskChans m).all fun j => c.inBound j && ! c.readChans.contains j && ! c.aselChans.contains j &&
        ! c.elemChans.contains j
    | _ => true
where
  /-- The stream is enabled in its direction with the instruction's access code (R258). -/
  streamBound (c : Core) (s dir : Nat) (ac : AC) : Bool :=
    let f := c.cfg 10 (4 * s + 3)
    f.testBit 31 && natBits f 30 1 = dir && natBits f 26 4 = (acBits ac).toNat

/-- One arm of the block (R44 to R49, R61, R62, R157). -/
def armBads (c : Core) (role arm : Nat) : List BadAt :=
  let f := armFrame c arm
  let reads := armReads c
  let rule := fun (j : Nat) (w : IWord) => match decode w with
    | .ok i => stageRuleOk c role j w i
    | .error _ => false
  entryBads c arm ++
  ((List.range 12).flatMap fun j =>
    let w := c.stageWord arm j
    if w = 0 then []
    else match slotErr f reads j with
      | some e => [stagePlace c arm j (immAtFault (fun w => (slotErr { f with code := f.code.set j w } reads j).isNone) w) e.cause]
      | none => must (rule j w) (stagePlace c arm j (immAtFault (rule j) w) 0)) ++
  (match lsidErr f reads with
    | some j => [stagePlace c arm j true 0x02]
    | none => []) ++
  match nullsErr f with
    | some j => [stagePlace c arm j true 0x02]
    | none => []

/-- Whether a context's stage units hold anything. -/
def hasBlock (c : Core) : Bool :=
  (List.range 6).any fun k => (List.range 16).any fun f => c.cfg (1 + k) f != 0

/-- Whether a context holds an `accs` (R220). -/
def hasAccs (c : Core) : Bool :=
  [0, 1].any fun a => (List.range 12).any fun j => match c.stageInstr a j with
    | some (.accs _ _ _ _ _) => true
    | _ => false

/-- The pinned block (R153 to R159, R220). -/
def blockBads (c : Core) (role : Nat) (ws : List CfgWrite) : List BadAt :=
  if ! hasBlock c then []
  else
    must (c.pinNr != 0 || c.pinAsen || role = 1) { unit := 1, field := 14 } ++ armBads c role 0 ++ armBads c role 1 ++
      must (! hasAccs c || ! ws.any (·.unit = 13) || (c.cfg 13 0).testBit 6) { unit := 13, field := 0 }

/-- A core as it would be with one context in force, for the checks. -/
def trialCore (x : Ctx) : Core := { act := some 0, ctxs := [(0, x)] }

/-- Everything that a load refuses in one core's context. -/
def ctxBads (j : Judge) (t : Table CWord) (ws : List CfgWrite) : List BadAt :=
  let c := trialCore { pinned := j.pinned, role := j.role, active := t }
  (ws.flatMap fun w => must (wordOk j w.unit w.field w.val.toNat) { unit := w.unit, field := w.field, idx := some w.idx }) ++
  (if j.pinned then [] else
    (List.range (hTasks j.hdr)).flatMap fun k => must (natBits (c.cfg 0 (16 + k)) 0 4 != 0) { unit := 0, field := 16 + k }) ++
  ((List.range 16).flatMap fun k =>
    must (! c.outBound k || routeKind (c.route k) != 0) { unit := if (tfind t (7 * 2048 + k)).isSome then 7 else 8,
                                                           field := if (tfind t (7 * 2048 + k)).isSome then k else 16 + k }) ++
  ((List.range 16).flatMap (elemBads c j.role)) ++
  (if j.pinned then blockBads c j.role ws else [])

/-! ### A whole load -/

/-- Why a load is refused (R61, R139, R337). -/
structure LoadBad where
  px : Nat
  py : Nat
  ctx : Nat
  idx : Nat
  sub : BitVec 8
  slot : Option Nat
  arm : Nat
  chan : Option (Bool × Nat)
deriving DecidableEq, Repr

/-- The patch coordinates of a header, by rows (R338). -/
def cells (h : List CWord) : List (Nat × Nat) :=
  (List.range (hH h)).flatMap fun y => (List.range (hW h)).map fun x => (x, y)

/-- The committed words of a core's context entries before the load. -/
abbrev OldCfg := Nat → Nat → Nat → Table CWord

/-- The words of a core's context after the load. -/
def newCfg (o : KObj) (old : OldCfg) (px py ctx : Nat) : Table CWord := applyWrites (old px py ctx) (coreWrites o px py ctx)

/-- The value checks of one core. -/
def coreBad (o : KObj) (old : OldCfg) (p : Nat × Nat) : Option LoadBad :=
  (List.range (hNctx o.hdr)).findSome? fun ctx =>
    let ws := coreWrites o p.1 p.2 ctx
    let j : Judge := { hdr := o.hdr, pinned := hPinned o.hdr ctx, role := o.roleOf ctx p.1 p.2 }
    ((ctxBads j (newCfg o old p.1 p.2 ctx) ws).head?).map fun b =>
      { px := p.1, py := p.2, ctx := ctx, idx := b.word ws, sub := b.sub, slot := b.slot, arm := b.arm, chan := none }

/-- Route words of kind SEQ that disagree on the mode of their context (R142). -/
def seqBad (o : KObj) (old : OldCfg) (ctx : Nat) : Option LoadBad :=
  let all := (cells o.hdr).flatMap fun p => (List.range 16).filterMap fun k =>
    let r := ((tfind (newCfg o old p.1 p.2 ctx) (7 * 2048 + k)).getD 0).toNat
    if routeKind r = 3 then some (p, k, r.testBit 28) else none
  match all with
  | [] => none
  | q :: _ => (all.find? fun e => e.2.2 != q.2.2).map fun e =>
    { px := e.1.1, py := e.1.2, ctx := ctx, idx := (idxOf (coreWrites o e.1.1 e.1.2 ctx) 7 e.2.1).getD 0, sub := 0, slot := none, arm := 0,
      chan := none }

/-- A baste point is a bound PATH to a core of the patch of a strictly higher stage (R35). -/
def basteOk (o : KObj) (old : OldCfg) (b : Baste) : Bool :=
  let t := newCfg o old b.px b.py b.ctx
  let r := ((tfind t (7 * 2048 + b.out)).getD 0).toNat
  let x := (b.px : Int) + sgn 7 (natBits r 22 7)
  let y := (b.py : Int) + sgn 7 (natBits r 15 7)
  (((tfind t (8 * 2048 + 16 + b.out)).getD 0).toNat).testBit 10 && routeKind r = 1 &&
    decide (0 ≤ x) && decide (x < hW o.hdr) && decide (0 ≤ y) && decide (y < hH o.hdr) &&
    decide (o.stageOf b.px b.py < o.stageOf x.toNat y.toNat)

/-- The first thing that a load refuses, by core, then SEQ modes, then baste points. -/
def loadBad (o : KObj) (old : OldCfg) : Option LoadBad :=
  match (cells o.hdr).findSome? (coreBad o old) with
  | some b => some b
  | none =>
    match (List.range (hNctx o.hdr)).findSome? (seqBad o old) with
    | some b => some b
    | none => (o.strm.bastes.find? fun b => ! basteOk o old b).map fun b =>
      { px := b.px, py := b.py, ctx := b.ctx, idx := b.idx, sub := 0, slot := none, arm := 0, chan := some (true, b.out) }

/-! ### Filling and committing (R123, R138, R139) -/

/-- A GEN stream's latch as the placer writes it (R112, R232): the translation of the stream's base where its page is DEST 0. -/
def latchWords (s : State) (lease : Nat) (x : Ctx) (k : Nat) : List CWord :=
  let va := (x.word 10 (4 * k) + 2 ^ 32 * natBits (x.word 10 (4 * k + 1)) 0 16) % 2 ^ 48
  let none' : List CWord := [0, 0, 0, 0]
  if ! (x.word 10 (4 * k + 3)).testBit 31 then none'
  else match (s.lease lease).bind fun L => walk L va with
    | some (big, e) =>
      if peDest e = 0 ∧ ! peMig e then
        [BitVec.ofNat 32 (if big then va / 2 ^ 29 * 2 ^ 13 else va / 2 ^ 16), BitVec.ofNat 32 (pePa e / 65536),
         BitVec.ofNat 32 ((peTier e).toNat * 32 + (peRec e).toNat * 16 + (peW e).toNat * 8 + (peR e).toNat * 4 + big.toNat * 2 + 1), 0]
      else none'
    | none => none'

/-- Every latch of a context entry written. -/
def writeLatches (s : State) (lease : Nat) (x : Ctx) : Ctx :=
  { x with active := (List.range 8).foldl (fun t k =>
      ((List.range 4).zip (latchWords s lease x k)).foldl (fun t p => tset t (10 * 2048 + 32 + 4 * k + p.1) p.2) t) x.active }

/-- The pleat word of a core: unit 12 where its stream wrote that unit, else PLEAT (R123). -/
def corePleat (o : KObj) (px py : Nat) : BitVec 32 :=
  if (coreWrites o px py 0).any (·.unit = 12) then (tfind (applyWrites [] (coreWrites o px py 0)) (12 * 2048)).getD 0 else hPleat o.hdr

/-- Shadow copies written on every core of a patch, into the entries from `base` up; each core takes its stage and its pleat word,
which waits for the commit (R123). -/
def writeShadows (s : State) (pt base : Nat) (o : KObj) (old : OldCfg) : State :=
  forCores s pt fun s cid => s.modCore cid fun c =>
    let c := { c with stage := o.stageOf c.px c.py, pleat := { c.pleat with req := corePleat o c.px c.py } }
    (List.range (hNctx o.hdr)).foldl (fun c ctx =>
      c.modCtx (base + ctx) fun x =>
        { x with shadow := newCfg o old c.px c.py ctx, pinned := hPinned o.hdr ctx, role := o.roleOf ctx c.px c.py,
                 cuts := (o.strm.bastes.filter fun b => b.px = c.px && b.py = c.py && b.ctx = ctx).map fun b => (b.out, b.num) }) c

/-- One core's shadows commit: its entries are LOADED, its pool is divided, its watermark is SCRATCH, its frames are allocated, its
planes have the format of its first context (R123, R138, R241). Banks above the granules given to roles are C's. -/
def commitCore (s : State) (lease base : Nat) (h : List CWord) (c : Core) : Core :=
  let w := c.pleat.req
  let c := (List.range (hNctx h)).foldl (fun c ctx =>
    c.modCtx (base + ctx) fun x => writeLatches s lease { x with active := x.shadow, shadow := [], st := .loaded }) c
  let f := BitVec.ofNat 3 ((c.ctx base).word 11 1)
  { c with
    nTasks := hTasks h, frame := hFrame h,
    pleat := { c.pleat with word := w, swm := BitVec.ofNat 32 (hScratch h),
                            cBanks := 64 - c.pleat.bank0 - 4 * (plG w + plT w + plS w) },
    mangle := { c.mangle with active := { c.mangle.active with fmt := f }, shadow := { c.mangle.shadow with fmt := f } } }

/-- All shadows of all cores of a patch commit at once. -/
def commitLoad (s : State) (pt lease base : Nat) (h : List CWord) : State :=
  forCores s pt fun s cid => s.modCore cid (commitCore s lease base h)

/-- The fault of a refused load (R61, R337). -/
def loadFault (s : State) (pt : Nat) (cause : BitVec 8) (b : LoadBad) : FaultInfo :=
  let rin := ((patchCore s pt b.px b.py).map fun cid => (s.core cid).rin).getD s.sl.cur
  let c := ((patchCore s pt b.px b.py).map s.core).getD {}
  { cause := cause, sub := b.sub, flags := causeFlags true { cause := cause }, slot := b.slot, task := 0, ctx := b.ctx, arm := b.arm,
    stage := (b.slot.map (· / 2)).getD c.stage, lsid := none, lane := none, blk := 0, addr := 0, px := b.px, py := b.py,
    chan := b.chan, word := b.idx, rin := rin, time := s.time }

end Sys2Proof.Machine
end

