-- ==== Sys2Proof/Machine/Readout.lean ====
section
/-! DEFINITION. How the placer stops a patch (R35, R113 steps 1 to 3, R115, R131, R171), what the readout chain emits of a core (R37,
R112), and how a stream and an image are applied at an origin (R113 steps 5 to 7, R348). -/

namespace Sys2Proof.Machine

/-! ### Stopping (R35, R113, R115) -/

/-- Whether a pinned context can be stopped here: some core of the patch has a baste cut in it, or the patch stands at its entry for the
placer (R35). Task contexts stop at block boundaries. -/
def pinnedStops (s : State) (pt : Nat) (p : Patch) : Bool := ! noCut s pt || p.held

/-- Whether a step of an element does nothing. -/
def ElemStep.waits : ElemStep → Bool
  | .wait => true
  | _ => false

/-- Whether no router element of a core can act now. -/
def elemsWait (s : State) (cid : Nat) : Bool :=
  (List.range 16).all fun e => match (s.core cid).elemType e with
    | 1 => (steerStep s cid e).waits
    | 2 => (mergeStep s cid e).waits
    | 3 => (carryStep s cid e).waits
    | 4 => (reorderStep s cid e).waits
    | _ => true

/-- Whether a core of a pinned context has run out (R113 step 2): its instances are complete; the channels that it consumes are empty, or
it can fire no further; and nothing leaves its out-channels any more but at a cut. -/
def drained (s : State) (cid pt : Nat) (p : Patch) : Bool :=
  let c := s.core cid
  c.pinst.isEmpty && (p.held || c.readsAll.all (fun j => (c.inCh j).buf.isEmpty) ||
      ((pinStep s cid pt false).isNone && elemsWait s cid)) &&
    (List.range 16).all fun k => match (c.outCh k).buf with
      | [] => true
      | f :: _ => (c.ctx (c.act.getD 0)).cuts.any (·.1 = k) || (sendRoute s cid k (c.route k) f).isNone

/-- Whether what a core issued has completed, armed runs among it (R113 step 3, R249), and no pleat handshake is in progress (R131). -/
def coreStops (s : State) (cid : Nat) : Bool :=
  let c := s.core cid
  decide (c.pleat.phase ≤ 1) && c.gen.isEmpty && c.late.isEmpty && ! copyOf s cid && ! drainStalls s cid && c.mangle.queue.isEmpty

/-- Whether a patch stands at its cuts and block boundaries: its cores have run out and what they issued has completed; one that already
stood only gives up its dirty lines. A patch that meets a fault while the placer stops it takes it after it resumes (R115, R354). -/
def patchStands (s : State) (pt : Nat) (p : Patch) : Bool :=
  p.host.isNone && match p.st with
    | .running => pinnedStops s pt p && (patchCores s pt).all fun cid => coreStops s cid && (! (s.core cid).isPinned || drained s cid pt p)
    | .stopping => p.stop.isSome && (patchCores s pt).all fun cid => coreStops s cid && (! (s.core cid).isPinned || drained s cid pt p)
    | .resident | .frozen | .debugStop => (patchCores s pt).all fun cid => ! drainStalls s cid
    | _ => false

/-- Whether the placer can act on a patch now: it stands, and no context is latched (R115). -/
def placerStops (s : State) (pt : Nat) (p : Patch) : Bool := p.latched.isNone && patchStands s pt p

/-- A stop carried out: tasks stand at their last commit or discard, C is written back, residency intervals end (R334, R362). -/
def stopForPlacer (s : State) (pt : Nat) : State :=
  forCores (discardAll s pt) pt fun s cid => closeResidency (drainC s cid) cid 1

/-! ### What is read out (R37) -/

/-- The readout mask of a core's current context: everything where its stream writes neither field; where it writes one of the two, the
other is 0, as a field that no stream writes (assumption 105). -/
def readMask (c : Core) : Nat × Nat :=
  let f := fun i => tfind (c.ctx (c.act.getD 0)).active (13 * 2048 + i)
  match f 0, f 1 with
  | none, none => (127, 2 ^ 32 - 1)
  | a, b => (((a.getD 0).toNat), (b.getD 0).toNat)

/-- Whether a tile byte lies in an armed extent (R130). -/
def Core.armedAt (c : Core) (o : Nat) : Bool := c.armed.any fun x => decide (x.1 ≤ o) && decide (o < x.1 + x.2 * 4096)

/-- Where a pool address lies: the role's byte offset under the word in effect, for T by R126 and for S by R125. -/
def Core.roleOf (c : Core) (a : Nat) : Option (PoolRole × Nat) :=
  let w := c.pleat.word
  let b := a / 16384 - c.pleat.bank0
  let nG := 4 * plG w
  let nT := 4 * plT w
  let nS := 4 * plS w
  if b < nG then none
  else if b < nG + nT then some (.t, 64 * (a % 16384 / 64 * nT + (b - nG)) + a % 64)
  else if b < nG + nT + nS then some (.s, 4 * ((a % 16384 / 64 * 16 + a % 64 / 4) * nS + (b - nG - nT)) + a % 4)
  else none

/-- Whether a pool byte is read out: G frames, S up to the watermark, armed T extents, each under its bit of the mask. -/
def keepsByte (c : Core) (m a : Nat) : Bool :=
  match c.roleOf a with
  | some (.t, o) => m.testBit 2 && c.armedAt o
  | some (.s, o) => m.testBit 1 && decide (o < c.pleat.swm.toNat)
  | none => m.testBit 0 && decide (a / 16384 - c.pleat.bank0 < 4 * plG c.pleat.word)

/-- A core as read out: unselected elements are not emitted; C, decoded blocks and translations never are. The placer holds the
pleat lock of what it has read out (R115, R132). -/
def readout (c : Core) : Core :=
  let m := (readMask c).1
  let sel := (readMask c).2
  let on := m.testBit
  { c with
    pool := c.pool.filter fun b => keepsByte c m b.1,
    poisonRows := c.poisonRows.filter fun r => keepsByte c m (64 * r),
    ctxs := if on 5 then c.ctxs else tmap (fun _ x => { x with pendingK := [] }) c.ctxs,
    ins := tmap (fun j ch => if on 4 && sel.testBit j then ch else { ch with buf := [] }) c.ins,
    outs := tmap (fun j ch => if on 4 && sel.testBit (16 + j) then ch else ({} : OutCh)) c.outs,
    elems := if on 6 then c.elems else [], accs := if on 6 then c.accs else [],
    tasks := if on 3 then c.tasks else [], tags := if on 3 then c.tags else [], occ := if on 3 then c.occ else {},
    mangle := if on 2 then c.mangle else { c.mangle with carries := [], checked := 0, corrected := 0 },
    pleat := { c.pleat with lock := true }, cache := [], dirtyQ := [], plru := [], blocks := [], tlb := [], gen := [], late := [] }

/-- Whether what is read out of a core meets poison (R115). -/
def readPoison (c : Core) : Bool := c.poisonRows.any fun r => keepsByte c (readMask c).1 (64 * r)

/-- The images of a patch's cores, by 64·py + px. -/
def readAll (s : State) (pt : Nat) : Table Core :=
  (patchCores s pt).foldl (fun t cid => let c := s.core cid; tset t (64 * c.py + c.px) (readout c)) []

/-- The region sequencer as read out: with the task control of patch core (0, 0) (R140). -/
def Patch.readSeq (p : Patch) (imgs : Table Core) : Patch :=
  if (tfind imgs 0).all fun c => (readMask c).1.testBit 3 then p else { p with reqs := [], latched := none }

/-! ### Placing the stream again (R113 step 5, R348) -/

/-- A load that a place, move, restore or darn makes: the object, or the cause and what it names. -/
def reload (s : State) (lease obj : Nat) (h : List CWord) : Except (BitVec 8 × LoadBad) KObj :=
  let f := fun o => hdrF h o 0 32
  let none' : LoadBad := { px := 0, py := 0, ctx := 0, idx := 0, sub := 0, slot := none, arm := 0, chan := none }
  match stripPoison s lease (obj + f 0x38) (4 * f 0x3C) with
  | some off => .error (0x15, { none' with idx := off / 4 })
  | none =>
    match readObj s lease obj h with
    | .error r => .error (0x14, { none' with idx := r.index })
    | .ok o => match loadBad o fun _ _ _ => [] with
      | some b => .error (0x14, b)
      | none => .ok o

/-- The read of a stream from memory, counted. -/
def loadCharge (s : State) (lease obj : Nat) (h : List CWord) : State :=
  stripCharge s lease (obj + hdrF h 0x38 0 32) (4 * hdrF h 0x3C 0 32)

/-- The record of a load that was refused (class L, R336). -/
def recordLoad (s : State) (pt : Nat) (p : Patch) (cause : BitVec 8) (b : LoadBad) : State :=
  keepFault s p.lease (faultRecord s p (loadFault s pt cause b) 0)

/-- The stream applied below an image: its words, but for the constants where they were read out (R37); the GEN latches anew
(R112). A core whose task control was not read out takes its stream's pleat word and watermark. -/
def reapply (s : State) (lease : Nat) (o : KObj) (c : Core) : Core :=
  let keepK := (readMask c).1.testBit 5
  let c' := (List.range (hNctx o.hdr)).foldl (fun (d : Core) ctx =>
    d.modCtx ctx fun x =>
      let t := newCfg o (fun _ _ _ => []) c.px c.py ctx
      let t := if keepK then (x.active.filter fun e => e.1 / 2048 = 9).foldl (fun t e => tset t e.1 e.2) t else t
      writeLatches s lease { x with active := t }) c
  if (readMask c).1.testBit 3 then c'
  else { c' with pleat := { c'.pleat with word := corePleat o c.px c.py, swm := BitVec.ofNat 32 (hScratch o.hdr) } }

/-- An image set down on a core: what belongs to the core itself stays. -/
def putImage (s : State) (cid : Nat) (img : Core) : State :=
  s.modCore cid fun o =>
    { img with pleat := { img.pleat with lock := false }, rin := (if rinGt o.rin img.rin then o.rin else img.rin),
               replays := o.replays, withdrawn := o.withdrawn, resStart := s.time, resBase := tgetD img.counters (img.act.getD 0) [] }

/-- The phase notes of a stream pass to trace (R35). -/
def passNotes (s : State) (pt : Nat) (o : KObj) : State := o.strm.notes.foldl (fun s n => tracePatch s pt 4 n) s

/-- Tasks of a core whose control was not read out start as configured (R37). -/
def restart (s : State) (cid : Nat) : State := if (readMask (s.core cid)).1.testBit 3 then s else startBits s cid

/-- Images set down with their stream at an origin (package coordinates), and the patch told where it stands; its packet is charged for
a loan from now on, or no more (R99). Tasks whose control was not read out start as configured; phase notes pass. -/
def setDown (s : State) (pt lease : Nat) (o : KObj) (imgs : Table Core) (x y : Nat) (loan : Option Nat) : State :=
  let s := imgs.foldl (fun s e =>
    let c := reapply s lease o e.2
    putImage s (coreXY s (x + c.px) (y + c.py)) c) s
  let p := s.patch pt
  let s := s.modPatch pt fun p => { p.readSeq imgs with x := x, y := y, loan := loan, stop := none, held := false }
  let s := p.elim s fun p => reborrow s p.pk (if loan.isSome then p.w * p.h else 0)
  passNotes (forCores s pt restart) pt o

/-! ### Peer bindings of a patch that moves (R113 steps 5 and 6) -/

/-- A lease-relative coordinate as a peer binding holds it: six bits, so that a loan's cores have one too. -/
def relTo (a b : Nat) : Nat := (a + 64 - b % 64) % 64

/-- Where a lease-relative core of a moved rectangle is now. -/
def movedTo (x y w h nx ny : Nat) (p : Nat × Nat) : Nat × Nat :=
  let i := relTo p.1 x
  let j := relTo p.2 y
  if i < w ∧ j < h then ((nx + i) % 64, (ny + j) % 64) else p

/-- Flits held at the ports, or on their way, for a moved rectangle take its new coordinates, and the paired device is told to rewrite its
bindings. -/
def rebind (s : State) (lease : Nat) (w h x y nx ny : Nat) : State :=
  if (x, y) = (nx, ny) then s
  else
    let go := fun (f : PeerFlit) =>
      if f.destLease = lease && f.destDevice = s.sl.device && decide (f.msg = PeerMsg.flit) then
        let q := movedTo x y w h nx ny (f.px, f.py)
        { f with px := q.1, py := q.2 }
      else f
    let s := { s with
      ports := tmap (fun _ p => { p with held := p.held.map go }) s.ports,
      inputs := s.inputs.map fun (i : Input) => match i.step with
        | .peerFlitArrival port f => { i with step := .peerFlitArrival port (go f) }
        | _ => i }
    match (s.lease lease).bind (·.pair) with
    | some q => { s with peerOut := s.peerOut ++ [peerNote s lease q.1 q.2.1 (.moved x y w h nx ny)] }
    | none => s

/-- A patch's peer bindings rewritten for a new origin in its lease. -/
def rebindPatch (s : State) (p : Patch) (x y : Nat) : State :=
  match s.lease p.lease with
  | some L => rebind s p.lease p.w p.h (relTo p.x L.x) (relTo p.y L.y) (relTo x L.x) (relTo y L.y)
  | none => s

/-! ### An operation in its steps (R113, R115) -/

/-- The placer's first step on a patch: its cuts close, its tasks start no block, its `pleat` requests are refused (R113, R115, R131). -/
def beginStop (s : State) (key : Instr × Nat) (e : Nat × Patch) : State :=
  let ready := (patchCores s e.1).all fun cid => decide ((s.core cid).pleat.phase ≤ 1)
  if (e.2.st = .running || e.2.st = .stopping) && e.2.host.isNone && ready then
    forCores (s.modPatch e.1 fun p => { p with stop := some key }) e.1 fun s cid =>
      s.modCore cid fun c => { c with pleat := { c.pleat with lock := true } }
  else s

/-- Whether another operation has the placer's first step on a lease behind it: the two run one at a time (R115). -/
def placerBusy (s : State) (key : Instr × Nat) (lease : Nat) : Bool :=
  s.patches.any fun e => e.2.lease = lease && e.2.stop.isSome && e.2.stop != some key

/-- An operation of the placer on patches: carried out once all of them can be stopped, and until then it stops them; one with a context
latched is left alone until its transition (R115). -/
def placerStep (s : State) (key : Instr × Nat) (ps : List (Nat × Patch)) (go : State → State) : State :=
  if ps.any fun e => placerBusy s key e.2.lease then s
  else if ps.all fun e => placerStops s e.1 e.2 then ps.foldl (fun s e => endStop s e.1) (go s)
  else (ps.filter fun e => e.2.latched.isNone && ! patchStands s e.1 e.2).foldl (fun s e => beginStop s key e) s

/-! ### Rectangles -/

/-- Whether two rectangles share a core. -/
def rectsMeet (x y w h x' y' w' h' : Nat) : Bool := decide (x < x' + w') && decide (x' < x + w) && decide (y < y' + h') && decide (y' < y + h)

/-- Whether a rectangle holds no withdrawn core. -/
def rectWhole (s : State) (x y w h : Nat) : Bool :=
  (List.range h).all fun j => (List.range w).all fun i => ! (s.core (coreXY s (x + i) (y + j))).withdrawn

/-- Patches that stand on cores, those named left out. -/
def standing (s : State) (but : Nat → Patch → Bool) : List (Nat × Patch) :=
  s.patches.filter fun e => e.2.st != .evicted && ! but e.1 e.2

/-- Whether no patch stands in a rectangle, those named left out. -/
def rectClear (s : State) (but : Nat → Patch → Bool) (x y w h : Nat) : Bool :=
  (standing s but).all fun e => ! rectsMeet x y w h e.2.x e.2.y e.2.w e.2.h

/-- Whether an origin of a lease (lease-relative) takes a patch now: fit, whole cores, no loan, no patch in the way. -/
def originFree (s : State) (L : Lease) (but : Nat → Patch → Bool) (w h cbar x y : Nat) : Bool :=
  originOk L w h cbar x y && rectWhole s (L.x + x) (L.y + y) w h && rectClear s but (L.x + x) (L.y + y) w h &&
    L.loans.all fun n => ! rectsMeet (L.x + x) (L.y + y) w h n.x n.y n.w n.h

/-- The lowest free origin of a lease, in package coordinates (R112). -/
def freeOrigin (s : State) (L : Lease) (but : Nat → Patch → Bool) (w h cbar : Nat) (fixed : Option (Nat × Nat)) : Option (Nat × Nat) :=
  let ok := fun (p : Nat × Nat) => originFree s L but w h cbar p.1 p.2
  let all := match fixed with
    | some p => [p]
    | none => origins L w h cbar
  (all.find? ok).map fun (p : Nat × Nat) => (L.x + p.1, L.y + p.2)

/-- Origins inside a loan, in package coordinates, lowest y and then lowest x first. -/
def loanOrigin (s : State) (but : Nat → Patch → Bool) (n : Loan) (w h cbar : Nat) : Option (Nat × Nat) :=
  ((List.range n.h).flatMap fun y => (List.range n.w).map fun x => (x, y)).findSome? fun (p : Nat × Nat) =>
    if p.1 + w ≤ n.w ∧ p.2 + h ≤ n.h ∧ (cbar = 0 ∨ ((n.x + p.1) % 4 = 0 ∧ (n.y + p.2) % 4 = 0)) ∧ rectWhole s (n.x + p.1) (n.y + p.2) w h ∧
        rectClear s but (n.x + p.1) (n.y + p.2) w h then
      some (n.x + p.1, n.y + p.2)
    else none

/-- Every loan made to an owner, with the lease that made it. -/
def loansTo (s : State) (o : Nat) : List (Nat × Loan) :=
  s.leases.flatMap fun e => (e.2.loans.filter fun n => n.borrower = o && n.rinsed).map fun n => (e.1, n)

/-! ### Move, evict, restore as operations (R112, R113, R348) -/

/-- A move of a stopped patch: aborted where its stream is refused, the patch then runs on at the old origin; poison read out is poison
consumed (R115). -/
def movePatch (s : State) (pt : Nat) (p : Patch) (x y : Nat) (loan : Option Nat) : State :=
  match (patchCores s pt).find? fun cid => readPoison (s.core cid) with
  | some cid => raiseCore s cid none 0 0 { cause := 0x0B }
  | none =>
    let s := stopForPlacer s pt
    let got := reload s p.lease p.obj p.hdr
    let s := loadCharge s p.lease p.obj p.hdr
    match got with
    | .error (cause, b) => recordLoad s pt p cause b
    | .ok o =>
      let imgs := readAll s pt
      let s := forCores s pt fun s cid => rinseCore s cid p.lease
      setDown (rebindPatch s p x y) pt p.lease o imgs x y loan

/-- The bytes of an image in the placer's area of the second tier, as R315 lays a save out. -/
def imageBytes (cores : Nat) : Nat := 65536 + cores * 1310720

/-- Whether the 64 GiB of the eviction store have room for the images of patches (R107, R112). -/
def storeRoom (s : State) (ps : List Patch) : Bool :=
  decide (((s.images.map fun e => imageBytes e.2.cores.length) ++ ps.map fun p => imageBytes (p.w * p.h)).foldl (· + ·) 0 ≤ 2 ^ 36)

/-- The image of a patch in the eviction store, under its lease's identity and generation (R112). -/
def imageOf (s : State) (pt : Nat) (p : Patch) : Table Core :=
  match tfind s.images pt with
  | some i => if i.lease = p.lease && (s.lease p.lease).any (·.gen = i.gen) then i.cores else []
  | none => []

/-- An evict of a stopped patch: its image goes to the eviction store and its cores are rinsed; while the store has no room, it stays. -/
def evictPatch (s : State) (pt : Nat) (p : Patch) (ahead : Bool) : State :=
  match (patchCores s pt).find? fun cid => readPoison (s.core cid) with
  | some cid => raiseCore s cid none 0 0 { cause := 0x0B }
  | none =>
    if ! storeRoom s [p] then s
    else
      let s := stopForPlacer s pt
      let imgs := readAll s pt
      let s := forCores s pt fun s cid => rinseCore s cid p.lease
      let s := reborrow s p.pk 0
      let gen := ((s.lease p.lease).map (·.gen)).getD 0
      { s with images := tset s.images pt { lease := p.lease, gen := gen, cores := imgs } }.modPatch pt fun p =>
        { p.readSeq imgs with was := p.st, st := .evicted, ahead := ahead, loan := none, stop := none, held := false }

/-- The record of kind 4: a position withdrawn or a patch left evicted (R117, R348, R376). -/
def tellEvicted (s : State) (cl pos lease : Nat) : State := pfEvent s 4 lease (num 4 cl ++ num 4 pos)

/-- A restore of an evicted patch; where its stream is refused it stays evicted and the PF is told (R348). -/
def restorePatch (s : State) (pt : Nat) (p : Patch) (x y : Nat) (loan : Option Nat) : State :=
  let got := reload s p.lease p.obj p.hdr
  let s := loadCharge s p.lease p.obj p.hdr
  match got with
  | .error (cause, b) =>
    tellEvicted (recordLoad s pt p cause b) (x / 4 + 16 * (y / 4)) (x % 4 + 4 * (y % 4)) p.lease
  | .ok o =>
    let imgs := imageOf s pt p
    let s := { s with images := terase s.images pt }.modPatch pt fun p => { p with st := p.was, ahead := false }
    setDown (rebindPatch s p x y) pt p.lease o imgs x y loan

/-- A patch that has to leave its cores: moved to a place found for it; evicted where there is none, or its stream is refused there. -/
def leaveCores (s : State) (pt : Nat) (p : Patch) (spot : Option (Nat × Nat × Option Nat)) : State :=
  match spot with
  | none => evictPatch s pt p false
  | some q =>
    match reload s p.lease p.obj p.hdr with
    | .ok _ => movePatch s pt p q.1 q.2.1 q.2.2
    | .error _ => evictPatch (movePatch s pt p q.1 q.2.1 q.2.2) pt p false

/-- Where a patch can be set down: the lowest free origin of a lease, else of a loan to its owner. -/
def placeIn (s : State) (L : Lease) (pt : Nat) (p : Patch) : Option (Nat × Nat × Option Nat) :=
  let but : Nat → Patch → Bool := fun k _ => k = pt
  match freeOrigin s L but p.w p.h (hCbar p.hdr) none with
  | some q => some (q.1, q.2, none)
  | none => (loansTo s L.owner).findSome? fun n => (loanOrigin s but n.2 p.w p.h (hCbar p.hdr)).map fun q => (q.1, q.2, some n.2.num)

/-- Where a patch of a lease can be set down, once its stream can be read. -/
def placeFor (s : State) (pt : Nat) (p : Patch) : Option (Nat × Nat × Option Nat) :=
  ((s.lease p.lease).filter fun _ => p.saveDue.isNone && ! partsWait s p.lease p.obj p.hdr).bind fun L => placeIn s L pt p

end Sys2Proof.Machine
end

