-- ==== Sys2Proof/Machine/Placement.lean ====
section
/-! DEFINITION. The place, fill and launch stages (R96): the dispatcher (R99), where a patch goes (R112, R116, R279, R356), pre-emption
(R349, R350), the configuration load (R123, R139, R348), the start (R145, R290), and the issue of a COPY's requests (R90). -/

namespace Sys2Proof.Machine

/-! ### A new patch (R112, R350) -/

/-- The first bank that a victim's core frees: above its roles and the one granule of C that it keeps (R350). -/
def freedBank (c : Core) : Nat := 4 * (plG c.pleat.word + plT c.pleat.word + plS c.pleat.word) + 4

/-- A core's C taken in, or let out, to a number of banks: lines whose set changes are written back and invalidated (R127, R131). -/
def takeIn (s : State) (cid banks : Nat) : State :=
  let c := s.core cid
  let moved := c.cache.filter fun x => cSet x.line banks != cSet x.line c.pleat.cBanks
  (moved.foldl (fun s x => flushLine s cid x.line) s).modCore cid fun c =>
    { c with cache := c.cache.map fun x => { x with set := cSet x.line banks }, pleat := { c.pleat with cBanks := banks } }

/-- The cores of a rectangle, with patch-relative coordinates. -/
def rectCores (s : State) (x y w h : Nat) : List (Nat × Nat × Nat) :=
  (List.range h).flatMap fun j => (List.range w).map fun i => (coreXY s (x + i) (y + j), i, j)

/-- A victim freezes whole; on each core that the new work covers, C is taken in to one granule and the core's record is put aside
(R350 steps 1 and 2). -/
def freezeVictim (s : State) (vt : Nat) (cover : List Nat) : State :=
  let s := forCores (discardAll s vt) vt fun s cid => (closeResidency s cid 1).modCore cid fun c => c.setAct .frozen
  let s := s.modPatch vt fun p => { p with was := p.st, st := .victim }
  cover.foldl (fun s cid =>
    let s := takeIn s cid 4
    { s with victims := tset s.victims cid (s.core cid) }) s

/-- A patch takes its cores: blank ones, or for pre-empting work what the victim's cores free (R350 step 4). -/
def takeCores (s : State) (n x y w h : Nat) (host : Option Nat) : State :=
  (rectCores s x y w h).foldl (fun s q => s.modCore q.1 fun c =>
    let b := if host.isSome then freedBank c else 0
    { rinsedCore c with patch := some n, px := q.2.1, py := q.2.2, counters := [], gen := if host.isSome then [] else c.gen,
                        frame0 := if host.isSome then 8 else 0, pleat := { bank0 := b } }) s

/-- The record of a patch that a LAUNCH makes (R112, R320): its permissions are its header's and its function's. -/
def newPatch (s : State) (p : Pkt) (L : Lease) (crc : CWord) (x y : Nat) (loan host : Option Nat) : State :=
  let h := p.hdr
  let v := p.words
  let n := s.nextPatch
  let perms := BitVec.ofNat 8 (hPerms h % 8 + 8 * ((s.fn L.vf).perms.toNat / 8))
  let pt : Patch :=
    { lease := p.lease, pk := p.num, queue := p.queue, ptag := pkPtag v, x := x, y := y, w := hW h, h := hH h, hdr := h,
      obj := pkAddr v, crc := crc, st := .loaded, prio := (s.queue p.queue).prio, keep := pkKeep v, seed := (pkSeed v).getD (hSeed h),
      perms := perms, reqs := [], latched := none, ctx := 0, bars := [], lbars := [], retention := s.sl.cur,
      saveRin := s.sl.cur, launched := s.time, ingested := p.rin, idle := 0, fault := none, extra := 0,
      sealpt := false, args := [], host := host, loan := loan, retireRin := none, ahead := false, was := .running, words := v }
  takeCores { s with patches := tset s.patches n pt, nextPatch := n + 1 } n x y (hW h) (hH h) host

/-! ### Where a LAUNCH goes (R112, R116, R349, R356) -/

/-- Where the place stage sends a patch: onto a resident one unchanged, to a free rectangle, to a loan, into a victim, or in a victim's
stead. -/
inductive Spot where
  | resident (pt : Nat)
  | fresh (x y : Nat)
  | loan (num x y : Nat)
  | inPlace (vt x y : Nat)
  | instead (vt : Nat)
deriving DecidableEq, Repr

/-- Resident patches of a lease, which a LAUNCH that needs their cores drops (R356). -/
def isResident (lease : Nat) (_ : Nat) (q : Patch) : Bool := q.st = .resident && q.lease = lease

/-- The resident patch that a LAUNCH finds unchanged (R356). -/
def unchanged (s : State) (p : Pkt) (L : Lease) (crc : CWord) : Option Nat :=
  (s.patches.find? fun e =>
    let q := e.2
    q.st = .resident && q.lease = p.lease && q.obj = pkAddr p.words && q.hdr.getD 3 0 = p.hdr.getD 3 0 && q.crc = crc &&
      match pkFixed p.words with
      | some o => (q.x, q.y) = (L.x + o.1, L.y + o.2)
      | none => true).map (·.1)

/-- Patches that a LAUNCH of priority 7 may pre-empt: running, of its lease, launched from a queue of lower priority, not in contexts 6
and 7; the lowest priority first, the most recently launched first among equals (R349). -/
def victimsOf (s : State) (lease : Nat) : List (Nat × Patch) :=
  let before := fun (a b : Nat × Patch) =>
    decide (a.2.prio < b.2.prio) || (a.2.prio = b.2.prio && (decide (b.2.launched < a.2.launched) ||
      (a.2.launched = b.2.launched && decide (b.1 ≤ a.1))))
  sortBy before (s.patches.filter fun e => e.2.st = .running && e.2.lease = lease && decide (e.2.prio < 7) && e.2.host.isNone)

/-- Whether a core of a victim has room for new work under a pleat word (R349). -/
def guestFits (c : Core) (w : BitVec 32) : Bool := decide (plG w + plT w + plS w + 2 ≤ c.cGran)

/-- Where in a victim new work fits (R349): the fixed origin, else the lowest y and then the lowest x. -/
def guestOrigin (s : State) (p : Pkt) (L : Lease) (o : KObj) (v : Patch) : Option (Nat × Nat) :=
  let w := hW p.hdr
  let h := hH p.hdr
  let spots := (List.range v.h).flatMap fun j => (List.range v.w).map fun i => (v.x + i, v.y + j)
  let spots := match pkFixed p.words with
    | some f => spots.filter (· = (L.x + f.1, L.y + f.2))
    | none => spots
  spots.find? fun q =>
    decide (q.1 + w ≤ v.x + v.w) && decide (q.2 + h ≤ v.y + v.h) &&
      (rectCores s q.1 q.2 w h).all fun c => guestFits (s.core c.1) (corePleat o c.2.1 c.2.2)

/-- What a LAUNCH of priority 7 without room does: a victim in place if one qualifies, else a victim whose removal makes room. -/
def preempt (s : State) (p : Pkt) (L : Lease) (o : KObj) : Option ((Nat × Patch) × Spot) :=
  let vs := victimsOf s p.lease
  let mine := if hNctx p.hdr ≤ 2 ∧ hCbar p.hdr = 0 ∧ ! hClassS p.hdr then
      vs.findSome? fun e => (guestOrigin s p L o e.2).map fun q => (e, Spot.inPlace e.1 q.1 q.2)
    else none
  mine.or <| (vs.find? fun e =>
      (freeOrigin s L (fun k q => k = e.1 || isResident p.lease k q) (hW p.hdr) (hH p.hdr) (hCbar p.hdr) (pkFixed p.words)).isSome).map
    fun e => (e, Spot.instead e.1)

/-- Whether a victim can give way now: in place it freezes with its latch (R171), to be evicted it stops as for any operation (R115), and
the store has room for it. -/
def givesWay (s : State) (v : (Nat × Patch) × Spot) : Bool :=
  match v.2 with
  | .inPlace _ _ _ => patchStands s v.1.1 v.1.2
  | _ => placerStops s v.1.1 v.1.2 && storeRoom s [v.1.2]

/-- The place stage's choice for a LAUNCH, if there is one, with the victim that has to give way first. -/
def spotOr (s : State) (p : Pkt) : Option ((Spot × CWord) × Option (Nat × Patch)) :=
  match (s.lease p.lease).filter fun _ => ! partsWait s p.lease (pkAddr p.words) p.hdr, readObj s p.lease (pkAddr p.words) p.hdr with
  | some L, obj =>
    let crc := match obj with
      | .ok o => o.crc
      | .error _ => 0
    let cb := hCbar p.hdr
    let spot : Option (Spot × Option (Nat × Patch)) :=
      if L.st ≠ .granted ∨ vfOut s L.vf then none
      else match unchanged s p L crc with
        | some pt => some (.resident pt, none)
        | none =>
          match freeOrigin s L (isResident p.lease) (hW p.hdr) (hH p.hdr) cb (pkFixed p.words) with
          | some q => some (.fresh q.1 q.2, none)
          | none =>
            let lent := if (pkFixed p.words).isSome then none
              else (loansTo s (s.queue p.queue).owner).findSome? fun n =>
                (loanOrigin s (isResident p.lease) n.2 (hW p.hdr) (hH p.hdr) cb).map fun q => Spot.loan n.2.num q.1 q.2
            match lent, obj with
            | some x, _ => some (x, none)
            | none, .ok o => if (s.queue p.queue).prio = 7 then
                (preempt s p L o).map fun v => (v.2, if givesWay s v then none else some v.1)
              else none
            | none, .error _ => none
    spot.map fun x => ((x.1, crc), x.2)
  | none, _ => none

/-- The place stage's choice for a LAUNCH, if it can be placed now. -/
def spotFor (s : State) (p : Pkt) : Option (Spot × CWord) := ((spotOr s p).filter (·.2.isNone)).map (·.1)

/-- The placer's step as an operation of the place stage for a packet. -/
def placeKey (p : Pkt) : Instr × Nat := (.place, p.num + 1)

/-- A victim that a LAUNCH waits for is stopped (R113, R350), unless another operation has its lease in hand (R115). -/
def stopVictim (s : State) (p : Pkt) : State :=
  match (spotOr s p).bind (·.2) with
  | some v => if placerBusy s (placeKey p) v.2.lease || patchStands s v.1 v.2 then s else beginStop s (placeKey p) v
  | none => s

/-! ### The dispatcher (R99) -/

/-- A packet's priority now. -/
def level (s : State) (p : Pkt) : Nat := Nat.min 7 ((s.queue p.queue).prio + p.levels)

/-- A ready packet waits while an evicted patch of its owner, whose queue had the higher priority, is to be restored first (R349). -/
def heldBack (s : State) (p : Pkt) : Bool :=
  s.patches.any fun e => e.2.st = .evicted && e.2.ahead && leaseOwner s e.2.lease = (s.queue p.queue).owner && decide (level s p < e.2.prio)

/-- Whether a packet at the place stage can be dispatched now. -/
def dispatchable (s : State) (p : Pkt) : Bool :=
  p.stage = .place && (pkType p.words = 6 || (! heldBack s p && (spotFor s p).isSome))

/-- The packets that can be dispatched, with their owners. -/
def readyPkts (s : State) : List (Nat × Pkt) := (s.pipe.filter (dispatchable s)).map fun p => ((s.queue p.queue).owner, p)

/-- Whether a ready packet goes before another of its owner: the higher level, then the lower queue, then the earlier. -/
def readyBefore (s : State) (a b : Pkt) : Bool :=
  decide (level s b < level s a) || (level s a = level s b && (decide (a.queue < b.queue) || (a.queue = b.queue && decide (a.num ≤ b.num))))

/-- The visits of deficit round-robin: each adds the owner's quantum; it stops at an owner whose deficit is positive. -/
def visitOwners (owners : List Nat) : Nat → State → State × Option Nat
  | 0, s => (s, none)
  | n + 1, s =>
    if owners.contains s.drrNext && decide (0 < (s.ownerOf s.drrNext).deficit) then (s, some s.drrNext)
    else match ((owners.filter fun o => decide (s.drrNext < o)) ++ owners).head? with
      | none => (s, none)
      | some o =>
        visitOwners owners n ({ s with drrNext := o }.modOwner o fun w => { w with deficit := w.deficit + w.weight * 64 })

/-- The dispatcher's next packet, after its visits; an owner with nothing ready has no deficit. -/
def dispatcher (s : State) : State × Option Pkt :=
  let ready := readyPkts s
  let owners := ((List.range 256).filter fun o => ready.any (·.1 = o))
  let s := { s with owners := tmap (fun o w => if owners.contains o then w else { w with deficit := 0 }) s.owners }
  match visitOwners owners 1024 s with
  | (s, none) => (s, none)
  | (s, some o) =>
    let mine := (ready.filter (·.1 = o)).map (·.2)
    (s, mine.find? fun p => mine.all (readyBefore s p))

/-- PRIORITY_AGING (R99): a packet ready for a further millisecond rises one level, up to 7. -/
def execPriorityAging (s : State) : Host.Outcome State Fault Refusal :=
  .next (match pktAt s .place with
    | none => s
    | some p =>
      match p.ready with
      | none => s
      | some t =>
        if t + (p.levels + 1) * 1000000 ≤ s.time ∧ level s p < 7 then s.modPkt p.num fun q => { q with levels := q.levels + 1 } else s)

/-! ### Place (R96, R99) -/

/-- Resident patches of a lease dropped where a rectangle needs their cores (R356). -/
def dropResidents (s : State) (lease x y w h : Nat) : State :=
  (s.patches.filter fun e => isResident lease e.1 e.2 && rectsMeet x y w h e.2.x e.2.y e.2.w e.2.h).foldl (fun s e => dropPatch s e.1) s

/-- A packet with a new patch goes on to fill. -/
def toFill (s : State) (p : Pkt) (L : Lease) (crc : CWord) (x y : Nat) (loan host : Option Nat) (borrowed : Nat) : State :=
  let s := dropResidents s p.lease x y (hW p.hdr) (hH p.hdr)
  let n := s.nextPatch
  (newPatch s p L crc x y loan host).modPkt p.num fun q =>
    { q with stage := .fill, patch := some n, borrowed := borrowed, skipFill := false }

/-- A resident patch is launched again: fill is skipped, the watermark is SCRATCH and every barrier object blank again (R123, R296,
R356). -/
def toRelaunch (s : State) (p : Pkt) (pt : Nat) : State :=
  let v := p.words
  let s := s.modPatch pt fun q =>
    { q with pk := p.num, queue := p.queue, ptag := pkPtag v, prio := (s.queue p.queue).prio, keep := pkKeep v,
             seed := (pkSeed v).getD (hSeed p.hdr), ingested := p.rin, reqs := [], latched := none, retireRin := none, words := v,
             bars := [], lbars := [] }
  let s := forCores s pt fun s cid => s.modCore cid fun c =>
    { c with pleat := { c.pleat with swm := BitVec.ofNat 32 (hScratch p.hdr) } }
  let lent := ((s.patch pt).filter (·.loan.isSome)).elim 0 fun q => q.w * q.h
  s.modPkt p.num fun q => { q with stage := .launch, patch := some pt, borrowed := lent }

/-- A LAUNCH dispatched to its spot. -/
def placeAt (s : State) (p : Pkt) (L : Lease) (crc : CWord) (spot : Spot) : State :=
  let size := hW p.hdr * hH p.hdr
  let s := giveUp s (· = placeKey p)
  match spot with
  | .resident pt => toRelaunch s p pt
  | .fresh x y => toFill s p L crc x y none none 0
  | .loan n x y => toFill s p L crc x y (some n) none size
  | .inPlace vt x y =>
    let s := freezeVictim s vt ((rectCores s x y (hW p.hdr) (hH p.hdr)).map (·.1))
    toFill s p L crc x y none (some vt) 0
  | .instead vt =>
    match s.patch vt with
    | none => s
    | some v =>
      let s := evictPatch s vt v true
      match freeOrigin s L (isResident p.lease) (hW p.hdr) (hH p.hdr) (hCbar p.hdr) (pkFixed p.words) with
      | some q => toFill s p L crc q.1 q.2 none none 0
      | none => s

/-- PLACE (R96, R99): the dispatcher's packet leaves the place stage: a LEASE to be carried out, a LAUNCH to its cores, charged its
estimate. -/
def execPlace (s : State) : Host.Outcome State Fault Refusal :=
  .next (match (pktAt s .place).filter fun _ => s.sl.rolling.isNone with
    | none => s
    | some p =>
      match dispatcher s with
      | (s', none) =>
        let s' := if pkType p.words = 1 then partsWalk s' p.lease (pkAddr p.words) p.hdr else s'
        if pkType p.words = 1 && ! heldBack s p then stopVictim s' p else s'
      | (s', some q) =>
        if q.num ≠ p.num then s
        else if pkType p.words = 6 then s'.modPkt p.num fun q => { q with stage := .leasing }
        else
          match s'.lease p.lease, spotFor s' p with
          | some L, some (spot, crc) =>
            let size := hW p.hdr * hH p.hdr
            let s := placeAt s' p L crc spot
            (s.modOwner (s.queue p.queue).owner fun o => { o with deficit := o.deficit - size }).modPkt p.num fun q => { q with charge := size }
          | _, _ => s')

/-! ### Fill and commit (R96, R123, R139, R348) -/

/-- The argument block of a LAUNCH. -/
def readArgs (s : State) (p : Pkt) : List Value :=
  let n := hArgs p.hdr
  (chunks 64 n (stripRead s p.lease (pkArgs p.words) (64 * n))).map bytesValue

/-- Whether a read of the argument block waits for a page under migration (R227). -/
def argsWait (s : State) (p : Pkt) : Bool := hArgs p.hdr != 0 && stripWaits s p.lease (pkArgs p.words) (64 * hArgs p.hdr)

/-- The walks of that read (R229). -/
def argsWalk (s : State) (p : Pkt) : State :=
  if hArgs p.hdr = 0 then s else stripWalk s p.lease (pkArgs p.words) (64 * hArgs p.hdr)

/-- Whether the argument block holds poison. -/
def argsBad (s : State) (p : Pkt) : Bool :=
  hArgs p.hdr != 0 && (stripPoison s p.lease (pkArgs p.words) (64 * hArgs p.hdr)).isSome

/-- FILL (R96, R123, R139): the stream is scanned and checked again and its shadows are written; the arguments are read. A refused
load completes its LAUNCH FAULTED and rinses its cores. -/
def execFill (s : State) : Host.Outcome State Fault Refusal :=
  .next (match pktAt s .fill with
    | none => s
    | some p =>
      match p.patch, p.patch.bind s.patch with
      | some pt, some q =>
        if p.skipFill then s
        else if partsWait s p.lease q.obj p.hdr || argsWait s p then argsWalk (partsWalk s p.lease q.obj p.hdr) p
        else
          let got := reload s p.lease q.obj p.hdr
          let s := loadCharge s p.lease q.obj p.hdr
          match got with
          | .error (cause, b) =>
            endPkt (dropPatch (recordLoad s pt q cause b) pt) p.num 17 0xFFFF (BitVec.ofNat 64 cause.toNat)
          | .ok o =>
            let bad := argsBad s p
            let args := readArgs s p
            let s := stripCharge s p.lease (pkArgs p.words) (64 * hArgs p.hdr)
            if bad then poisonUsed s s.sl.cur
            else
              let s := writeShadows s pt (ctxBase q) o fun _ _ _ => []
              (s.modPatch pt fun q => { q with args := args }).modPkt p.num fun q => { q with skipFill := true }
      | _, _ => s)

/-- PLACER_PLACE (R112, R139): every shadow of the patch commits in one step, with the GEN latches; the packet goes to launch. -/
def execPlacerPlace (s : State) : Host.Outcome State Fault Refusal :=
  .next (match pktAt s .fill with
    | none => s
    | some p =>
      match p.patch, p.patch.bind s.patch with
      | some pt, some q =>
        if p.skipFill then (commitLoad s pt p.lease (ctxBase q) p.hdr).modPkt p.num fun q => { q with stage := .launch } else s
      | _, _ => s)

/-! ### Launch (R87, R90, R96, R145, R290, R361) -/

/-- A patch starts: every core takes the strip's interval and acquires (R290, R302), the first context is entered, its tasks start with
their arguments. -/
def startPatch (s : State) (p : Pkt) (pt : Nat) (q : Patch) : State :=
  let args := if q.st = .resident then readArgs s p else q.args
  let s := forCores s pt fun s cid => (advanceGen s cid).modCore cid fun c => c.sawRin s.sl.cur
  let s := s.modPatch pt fun q =>
    { q with st := .running, retention := s.sl.cur, saveRin := s.sl.cur, launched := s.time, idle := 0, args := args }
  let s := enterAll s pt (ctxBase q)
  s.modPkt p.num fun q => { q with stage := .running, began := s.time }

/-- The next request of a COPY packet, once the one before it has finished: it enters its system queue at the cluster of the lease's
first core; after the last the packet is done. -/
def copyNext (s : State) (p : Pkt) (L : Lease) : State :=
  let cid := coreXY s L.x L.y
  let cl := clusterOf cid
  let out := (s.clusters.any fun c => c.2.queues.any fun q => q.2.any fun e => e.pk = some p.num)
  if out then s
  else match p.requests[p.copied]? with
    | none => endPkt s p.num 0 0xFFFF 0
    | some r =>
      if copyRoom s cl (cpQueue r) then
        enqueueCopy s cl (cpQueue r)
          { id := 0, packet := r, cid := cid, task := none, lease := p.lease, gen := L.gen, esc := (leasePerms s p.lease).getLsbD 0,
            pk := some p.num, next := 0, rin := s.sl.cur }
      else s

/-- LAUNCH_STAGE (R96): contexts and tasks start; a COPY issues its requests here, one after the other. -/
def execLaunchStage (s : State) : Host.Outcome State Fault Refusal :=
  .next (match (pktAt s .launch).filter fun _ => s.sl.rolling.isNone with
    | none => s
    | some p =>
      if pkType p.words = 4 then
        match s.lease p.lease with
        | none => s
        | some L => copyNext s p L
      else match p.patch, p.patch.bind s.patch with
        | some pt, some q =>
          if q.st = .loaded then startPatch s p pt q
          else if q.st = .resident then
            if argsWait s p then argsWalk s p
            else if argsBad s p then poisonUsed s s.sl.cur
            else startPatch s p pt q
          else s
        | _, _ => s)

end Sys2Proof.Machine
end

