-- ==== Sys2Proof/Machine/Leases.lean ====
section
/-! DEFINITION. LEASE packets and a lease's states (R92, R100, R102 to R104, R116, R357): REQUEST, RESIZE, LEND, RECALL, RELEASE, and
rinse (R112). -/

namespace Sys2Proof.Machine

/-! ### Helpers -/

/-- A LEASE packet being carried out. -/
def leasing (s : State) (op : Nat) : Option Pkt :=
  if s.sl.rolling.isSome then none else (pktAt s .leasing).filter fun p => pkType p.words = 6 && pkOp p.words = op

/-- A packet refused after validate: STOP = 1 stops its queue (R96). -/
def refusePkt (s : State) (p : Pkt) (status field : Nat) : State :=
  let s := endPkt s p.num status field 0
  if pkStop p.words then s.modQueue p.queue fun w => { w with stopped := true } else s

/-- A LEASE packet that waits for a rinse. -/
def leaseWaits (s : State) (p : Pkt) : State := s.modPkt p.num fun q => { q with stage := .running }

/-- RESULT of a LEASE record (R98). -/
def leaseResult (l : Nat) (gen : BitVec 8) (loan : Nat) : BitVec 64 := BitVec.ofNat 64 (l + 2 ^ 12 * gen.toNat + 2 ^ 20 * (loan % 65536))

/-- The rectangles that a lease holds or is going to hold. -/
def Lease.rects (L : Lease) : List (Nat × Nat × Nat × Nat) :=
  (L.x, L.y, L.w, L.h) :: match L.want with
    | some (r, _) => [r]
    | none => []

/-- Whether a rectangle meets a lease that a test picks. -/
def rectTaken (s : State) (pick : Nat → Lease → Bool) (x y w h : Nat) : Bool :=
  s.leases.any fun e => pick e.1 e.2 && e.2.rects.any fun r => rectsMeet x y w h r.1 r.2.1 r.2.2.1 r.2.2.2

/-- Whether a rectangle can be leased: on the grid, off the strip, on whole cores, free. -/
def rectFree (s : State) (but : Option Nat) (x y w h : Nat) : Bool :=
  rectPlace x y w h && rectWhole s x y w h && ! rectTaken s (fun l _ => some l != but) x y w h

/-- The lowest y and then the lowest x at which a rectangle fits on free cores (R102). -/
def lowestFree (s : State) (w h : Nat) : Option (Nat × Nat) :=
  ((List.range 48).flatMap fun y => (List.range 64).map fun x => (x, y)).find? fun (p : Nat × Nat) => rectFree s none p.1 p.2 w h

/-- Pseudo-channels that leases can be granted: the top two of each stack's 192 are the device's (R106). -/
def grantable (c : Nat) : Bool := decide (c % 192 < 190)

/-- The n lowest free pseudo-channels, one lease's own counted as taken. -/
def freeChans (s : State) (n : Nat) : Option (List Nat) :=
  let used := s.leases.flatMap fun e => e.2.chans ++ ((e.2.want.map (·.2)).getD [])
  let free := ((List.range 1536).filter fun c => grantable c && ! used.contains c).take n
  if free.length = n then some free else none

/-- The cores of a rectangle. -/
def rectCids (s : State) (r : Nat × Nat × Nat × Nat) : List Nat := (rectCores s r.1 r.2.1 r.2.2.1 r.2.2.2).map (·.1)

/-! ### REQUEST (R102, R103) -/

/-- The generation that an identity's next grant takes: one more than its previous one, modulo 256. -/
def nextGen (s : State) (l : Nat) : BitVec 8 := BitVec.ofNat 8 (tgetD s.leaseGrants l 0 + 1)

/-- Whether a core port holds no request of an identity. -/
def portClear (l : Nat) (c : Core) : Bool := c.gen.all (·.lease != l) && c.late.all (·.lease != l)

/-- The sweep of R103, made before a generation comes again: no request of the identity is in any core port or copy engine. -/
def sweepClear (s : State) (l : Nat) : Bool :=
  decide (tgetD s.leaseGrants l 0 < 256) ||
    (s.cores.all (fun e => portClear l e.2) && s.victims.all (fun e => portClear l e.2) &&
      s.clusters.all fun c => c.2.queues.all fun q => q.2.all (·.lease != l))

/-- A lease in GRANTING. -/
def newLease (s : State) (p : Pkt) (vf x y w h : Nat) (gen : BitVec 8) (chans : List Nat) : Lease :=
  { st := .granting, gen := gen, vf := vf, owner := (s.fn vf).owner, x := x, y := y, w := w, h := h, chans := chans, exts := [], big := [],
    small := [], epoch := 0, hemlint := 0, stalelint := 0, rollbacks := 0, undoStalls := 0, denied := 0, faults := [], faultCount := 0,
    debug := false, prof := none, binds := [], pair := none, loans := [], reqQueue := p.queue, pk := some p.num,
    rinses := rectCids s (x, y, w, h), want := none }

/-- LEASE_REQUEST (R102, R103): the lowest free identity, rectangle and channels; held until there are any; a fixed rectangle on a
granted lease or a withdrawn position is refused. -/
def execLeaseRequest (s : State) : Host.Outcome State Fault Refusal :=
  .next (match leasing s 0 with
    | none => s
    | some p =>
      let r := pkRect p.words
      let vf := (s.queue p.queue).vf
      let w := rcW r
      let h := rcH r
      let bad := rcFixed r && (! rectWhole s (rcX r) (rcY r) w h || rectTaken s (fun _ L => L.st = .granted || L.want.isSome) (rcX r) (rcY r) w h)
      let at' := if rcFixed r then (if rectFree s none (rcX r) (rcY r) w h then some (rcX r, rcY r) else none) else lowestFree s w h
      if bad then refusePkt s p 9 40
      else match at', freeChans s (rcChans r), (List.range 4096).find? fun l => (s.lease l).isNone with
        | some (x, y), some cs, some l =>
          if ! sweepClear s l then s
          else
            let L := newLease s p vf x y w h (nextGen s l) cs
            leaseWaits { s with leases := tset s.leases l L, leaseGrants := tset s.leaseGrants l (tgetD s.leaseGrants l 0 + 1),
                                released := terase s.released l } p
        | _, _, _ => s)

/-! ### RESIZE (R104) -/

/-- The overlap of a lease's rectangle with another, as a lease of that rectangle. -/
def Lease.within (L : Lease) (x y w h : Nat) : Lease :=
  let x0 := Nat.max L.x x
  let y0 := Nat.max L.y y
  { L with x := x0, y := y0, w := Nat.min (L.x + L.w) (x + w) - x0, h := Nat.min (L.y + L.h) (y + h) - y0 }

/-- A patch taken off cores that go: moved where it fits in what stays of its lease, else to a loan of its owner, else evicted. One whose
stream's pages are under migration stays for now (R227). -/
def moveOff (s : State) (L : Lease) (e : Nat × Patch) : State :=
  match s.patch e.1 with
  | none => s
  | some p => if partsWait s p.lease p.obj p.hdr then partsWalk s p.lease p.obj p.hdr else leaveCores s e.1 p (placeIn s L e.1 p)

/-- Whether a patch stands partly outside a rectangle. -/
def standsOutside (q : Patch) (x y w h : Nat) : Bool :=
  decide (q.x < x) || decide (q.y < y) || decide (x + w < q.x + q.w) || decide (y + h < q.y + q.h)

/-- The patches that stand partly outside a rectangle of their lease. -/
def outside (s : State) (l x y w h : Nat) : List (Nat × Patch) :=
  (standing s fun _ q => q.lease != l || q.loan.isSome).filter fun e => standsOutside e.2 x y w h

/-- A RESIZE with nothing on the cores that go: the cores that come or go are to be rinsed. -/
def resized (s : State) (p : Pkt) (l x y w h : Nat) (L : Lease) (cs : List Nat) : State :=
  let old := rectCids s (L.x, L.y, L.w, L.h)
  let new := rectCids s (x, y, w, h)
  let gone := old.filter fun c => ! new.contains c
  let come := new.filter fun c => ! old.contains c
  leaseWaits (s.modLease l fun L =>
    { L with st := if gone.isEmpty then .granted else .rinsing, want := some ((x, y, w, h), cs), rinses := gone ++ come, pk := some p.num }) p

/-- LEASE_RESIZE (R104): the placer stops the patches on cores that go and moves them off, or evicts them; resident and frozen ones there
are dropped. Cores that come or go are rinsed before the new rectangle holds. -/
def execLeaseResize (s : State) : Host.Outcome State Fault Refusal :=
  .next (match leasing s 1, (leasing s 1).bind fun p => s.lease (pkIdent p.words) with
    | some p, some L =>
      let l := pkIdent p.words
      let r := pkRect p.words
      let x := if rcFixed r then rcX r else L.x
      let y := if rcFixed r then rcY r else L.y
      let w := rcW r
      let h := rcH r
      let n := rcChans r
      let chans := if n = 0 then some L.chans
        else if n ≤ L.chans.length then some (L.chans.take n)
        else (freeChans s (n - L.chans.length)).map (L.chans ++ ·)
      let lent := L.loans.any fun k => decide (k.x < x) || decide (k.y < y) || decide (x + w < k.x + k.w) || decide (y + h < k.y + k.h)
      if L.st ≠ .granted ∨ L.want.isSome then s
      else if ! rectFree s (some l) x y w h then refusePkt s p 9 40
      else match chans with
        | none => s
        | some cs =>
          let off := outside s l x y w h
          let idle := fun (e : Nat × Patch) => e.2.st = .resident || e.2.st = .frozen
          if lent then s
          else placerStep s (.leaseResize, p.num + 1) (off.filter fun e => ! idle e) fun s =>
            let s := off.foldl (fun s e => if idle e then dropPatch s e.1 else moveOff s (L.within x y w h) e) s
            if (outside s l x y w h).isEmpty then resized s p l x y w h L cs else s
    | _, _ => s)

/-! ### LEND and RECALL (R100, R116) -/

/-- LEASE_LEND (R116): the rectangle becomes a loan with its own hems, once no patch stands on it; its cores are rinsed. -/
def execLeaseLend (s : State) : Host.Outcome State Fault Refusal :=
  .next (match leasing s 2, (leasing s 2).bind fun p => s.lease (pkIdent p.words) with
    | some p, some L =>
      let l := pkIdent p.words
      let r := pkRect p.words
      let x := L.x + rcX r
      let y := L.y + rcY r
      if L.st ≠ .granted ∨ ! rectClear s (fun _ _ => false) x y (rcW r) (rcH r) then s
      else if L.loans.any fun n => rectsMeet x y (rcW r) (rcH r) n.x n.y n.w n.h then refusePkt s p 9 40
      else
        let s := (rectCids s (x, y, rcW r, rcH r)).foldl (fun s cid => rinseCore s cid l) s
        let n := s.nextLoan
        let k : Loan := { num := n, x := x, y := y, w := rcW r, h := rcH r, borrower := rcBorrower r, rinsed := true }
        endPkt ({ s with nextLoan := (n + 1) % 65536 }.modLease l fun L => { L with loans := L.loans ++ [k] }) p.num 0 0xFFFF
          (leaseResult l L.gen n)
    | _, _ => s)

/-- A borrower's patch taken off a loan: a LAUNCH in fill goes back to place; any other is stopped, and moved or evicted. -/
def vacate (key : Instr × Nat) (s : State) (e : Nat × Patch) : State :=
  match s.patch e.1 with
  | none => s
  | some p =>
    if p.st = .loaded then backToPlace s e.1 p.pk
    else placerStep s key [(e.1, p)] fun s =>
      if partsWait s p.lease p.obj p.hdr then partsWalk s p.lease p.obj p.hdr else leaveCores s e.1 p (placeFor s e.1 p)

/-- A loan vacated as far as that is possible now: nobody is placed on it any more, and its patches leave. -/
def vacateLoan (s : State) (key : Instr × Nat) (l num : Nat) : State :=
  let s := s.modLease l fun L => { L with loans := L.loans.map fun n => if n.num = num then { n with rinsed := false } else n }
  (s.patches.filter fun e => e.2.loan = some num && e.2.st != .evicted).foldl (vacate key) s

/-- An empty loan returns to its lease: cores rinsed, hems removed. -/
def endLoan (s : State) (l : Nat) (n : Loan) : State :=
  let s := (rectCids s (n.x, n.y, n.w, n.h)).foldl (fun s cid => rinseCore s cid l) s
  s.modLease l fun L => { L with loans := L.loans.filter (·.num != n.num) }

/-- Whether a patch still stands on a loan. -/
def loanBusy (s : State) (num : Nat) : Bool := s.patches.any fun e => e.2.loan = some num && e.2.st != .evicted

/-- Every loan of a lease recalled as far as that is possible now. -/
def recallAll (s : State) (key : Instr × Nat) (l : Nat) (L : Lease) : State :=
  L.loans.foldl (fun s n =>
    let s := vacateLoan s key l n.num
    if loanBusy s n.num then s else endLoan s l n) s

/-- LEASE_RECALL (R100, R116). -/
def execLeaseRecall (s : State) : Host.Outcome State Fault Refusal :=
  .next (match leasing s 3, (leasing s 3).bind fun p => s.lease (pkIdent p.words) with
    | some p, some L =>
      let l := pkIdent p.words
      match L.loans.find? (·.num = rcLoan (pkRect p.words)) with
      | none => refusePkt s p 11 40
      | some n =>
        let s := vacateLoan s (.leaseRecall, p.num + 1) l n.num
        if loanBusy s n.num then s else endPkt (endLoan s l n) p.num 0 0xFFFF (leaseResult l L.gen n.num)
    | _, _ => s)

/-! ### RELEASE (R104, R357) -/

/-- A packet completes ABORTED (R97), one that is held for its SEALED among them. -/
def abortPkt (s : State) (p : Pkt) : State :=
  if p.stage = .complete then
    if p.sealFor.isSome then s.modPkt p.num fun q => { q with sealFor := none, status := 18, field := 0xFFFF, result := 0 } else s
  else (endPkt s p.num 18 0xFFFF 0).modPkt p.num fun q => { q with sealFor := none }

/-- Whether a packet acts, or is going to act, for a lease. -/
def actsFor (s : State) (l : Nat) (p : Pkt) : Bool :=
  if p.stage = .validate then match postingLease s p with
    | .ok k => k = l
    | .error _ => false
  else p.lease = l

/-- The unfinished packets of a lease complete ABORTED, those still posted in their rings among them (R97), and its patches are discarded
wherever they stand. -/
def abortLease (s : State) (l : Nat) (but : Nat) : State :=
  let t := s
  let s := (s.pipe.filter fun p => actsFor t l p && p.num != but).foldl abortPkt s
  let mine := t.queues.filter fun q => (t.lease l).any fun L => L.vf = q.2.vf
  let s := mine.foldl (fun s q => abortRing s q.1 fun v => actsFor t l (newPkt t q.1 v)) s
  (s.patches.filter (·.2.lease = l)).foldl (fun s e => dropPatch s e.1) s

/-- LEASE_RELEASE (R104, R357): packets aborted, patches discarded, loans recalled; then the cores wait for their rinse. -/
def execLeaseRelease (s : State) : Host.Outcome State Fault Refusal :=
  .next (match leasing s 4, (leasing s 4).bind fun p => s.lease (pkIdent p.words) with
    | some p, some L =>
      let l := pkIdent p.words
      let s := if L.st = .releasing then s else (abortLease s l p.num).modLease l fun L => { L with st := .releasing }
      let s := recallAll s (.leaseRelease, p.num + 1) l L
      match s.lease l with
      | some L =>
        if L.loans.isEmpty then
          leaseWaits (s.modLease l fun L =>
            { L with st := .rinsing, want := none, rinses := rectCids s (L.x, L.y, L.w, L.h), pk := some p.num }) p
        else s
      | none => s
    | _, _ => s)

/-! ### Rinse (R104, R112, R357) -/

/-- Whether some page of a lease maps a physical address as recoverable (R227, R305). -/
def recoverable (L : Lease) (pa : Nat) : Bool :=
  match localOf L pa with
  | none => false
  | some (t, a) =>
    let has := fun (size : Nat) (e : Nat × BitVec 64) =>
      peV e.2 && peDest e.2 = 0 && peRec e.2 && (peTier e.2 == t) && decide (pePa e.2 ≤ a) && decide (a < pePa e.2 + size)
    L.big.any (has (2 ^ 29)) || L.small.any (has (2 ^ 16))

/-- The lines of device memory that hold anything and lie in channels or extents of a lease that go. -/
def heldLines (s : State) (chans exts : List Nat) : List Nat :=
  ((s.mem.filter fun c => if c.1 < 2 ^ 42 then chans.contains (c.1 / 2 ^ 28) else exts.contains ((c.1 - 2 ^ 42) / 2 ^ 29)).map
    fun c => c.1 / 64).eraseDups

/-- Memory given up is zero-filled: stores for the undo log (R305, R357). -/
def zeroLines (s : State) (L : Lease) (ls : List Nat) : State :=
  ls.foldl (fun s n => devWrite s (64 * n) (List.replicate 64 0) (recoverable L (64 * n)) s.sl.cur) s

/-- Memory that a lease gives up: all of it at release, the channels it loses at a RESIZE. -/
def memGone (L : Lease) : List Nat × List Nat :=
  match L.st, L.want with
  | .rinsing, none => (L.chans, L.exts)
  | _, some (_, cs) => (L.chans.filter fun c => ! cs.contains c, [])
  | _, _ => ([], [])

/-- RINSE (R112, R357): the cores that a lease takes or gives up are rinsed, memory that it gives up is zero-filled. -/
def execRinse (lease : Nat) (s : State) : Host.Outcome State Fault Refusal :=
  .next (match s.lease lease with
    | none => s
    | some L =>
      let ls := heldLines s (memGone L).1 (memGone L).2
      if L.rinses.isEmpty ∧ ls.isEmpty then s
      else if ls.any fun n => undoStalls s (64 * n) (recoverable L (64 * n)) s.sl.cur then s
      else
        let s := L.rinses.foldl (fun s cid => rinseCore s cid lease) s
        (zeroLines s L ls).modLease lease fun L => { L with rinses := [] })

/-- RINSE_DONE (R102, R104): with every core rinsed, a lease is granted, resized, or free. -/
def execRinseDone (lease : Nat) (s : State) : Host.Outcome State Fault Refusal :=
  .next (match s.lease lease with
    | none => s
    | some L =>
      let ends := fun (s : State) => match L.pk with
        | some n => endPkt s n 0 0xFFFF (leaseResult lease L.gen 0)
        | none => s
      if ! L.rinses.isEmpty ∨ ! (heldLines s (memGone L).1 (memGone L).2).isEmpty then s
      else match L.st, L.want with
        | .granting, _ => ends (s.modLease lease fun L => { L with st := .granted, pk := none })
        | .granted, some ((x, y, w, h), cs) | .rinsing, some ((x, y, w, h), cs) =>
          ends (s.modLease lease fun L => { L with st := .granted, x := x, y := y, w := w, h := h, chans := cs, want := none, pk := none })
        | .rinsing, none =>
          ends { s with leases := terase s.leases lease, released := tset s.released lease { L with pk := none } }
        | _, _ => s)

end Sys2Proof.Machine
end

