-- ==== Sys2Proof/Machine/Placer.lean ====
section
/-! DEFINITION. The placer's operations as steps (R112 to R117), failing Briuk strip cores (R14, R15), the end of in-place pre-emption
(R350), the world switch (R353). Each operation first stops the patches that it acts on, and is carried out once they stand (R113, R115). -/

namespace Sys2Proof.Machine

/-! ### Move, evict, restore (R112, R113) -/

/-- An operation that a placer's event starts by itself. -/
def eventKey (i : Instr) : Instr × Nat := (i, 0)

/-- A patch with the lease that it runs under, while that lease is granted. -/
def grantedPatch (s : State) (pt : Nat) : Option (Patch × Lease) :=
  (s.patch pt).bind fun p => ((s.lease p.lease).filter fun L => L.st = .granted).map fun L => (p, L)

/-- MOVE (R113): a patch set down at a free origin of its lease. -/
def execMove (pt x y : Nat) (s : State) : Host.Outcome State Fault Refusal :=
  let key := eventKey (.move pt x y)
  .next (match grantedPatch s pt with
    | some (p, L) =>
      if originFree s L (fun k _ => k = pt) p.w p.h (hCbar p.hdr) x y && ! partsWait s p.lease p.obj p.hdr then
        placerStep s key [(pt, p)] fun s => movePatch s pt p (L.x + x) (L.y + y) none
      else giveUp (partsWalk s p.lease p.obj p.hdr) (· = key)
    | none => giveUp s (· = key))

/-- EVICT (R112). -/
def execEvict (pt : Nat) (s : State) : Host.Outcome State Fault Refusal :=
  let key := eventKey (.evict pt)
  .next (match s.patch pt with
    | some p => if storeRoom s [p] then placerStep s key [(pt, p)] fun s => evictPatch s pt p false else giveUp s (· = key)
    | none => s)

/-- RESTORE (R112): at any origin of the lease that is free; not while its VF is switched out (R353). -/
def execRestore (pt x y : Nat) (s : State) : Host.Outcome State Fault Refusal :=
  .next (match grantedPatch s pt with
    | some (p, L) =>
      if p.st = .evicted && p.saveDue.isNone && ! vfOut s L.vf && originFree s L (fun k _ => k = pt) p.w p.h (hCbar p.hdr) x y &&
          ! partsWait s p.lease p.obj p.hdr && ! placerBusy s (eventKey (.restore pt x y)) p.lease then
        restorePatch s pt p (L.x + x) (L.y + y) none
      else partsWalk s p.lease p.obj p.hdr
    | none => s)

/-! ### Press (R114) -/

/-- Where a press puts a lease: its loans shift with it. -/
def pressLease (ms : List PressMove) (l : Nat) (L : Lease) : Lease :=
  match ms.find? fun m => ! m.patch && m.id = l with
  | some m => { L with x := m.x, y := m.y, loans := L.loans.map fun n => { n with x := m.x + (n.x - L.x), y := m.y + (n.y - L.y) } }
  | none => L

/-- The lease on whose cores a patch stands: the lender's on a loan. -/
def standsIn (s : State) (p : Patch) : Option (Nat × Lease) :=
  match p.loan with
  | some n => s.leases.find? fun e => e.2.loans.any (·.num = n)
  | none => (s.lease p.lease).map fun L => (p.lease, L)

/-- Where a press puts a patch, in package coordinates: one that it names, into its own lease; any other shifts with the lease on whose
cores it stands. -/
def pressPatch (s : State) (ms : List PressMove) (pt : Nat) (p : Patch) : Nat × Nat × Option Nat :=
  match ms.find? (fun m => m.patch && m.id = pt), s.lease p.lease, standsIn s p with
  | some m, some L, _ => let N := pressLease ms p.lease L; (N.x + m.x, N.y + m.y, none)
  | _, _, some (l, L) => let N := pressLease ms l L; (N.x + (p.x - L.x), N.y + (p.y - L.y), p.loan)
  | _, _, none => (p.x, p.y, p.loan)

/-- The patches that a press moves: those it names, and all that stand on cores of the leases it names, borrowers' among them. -/
def pressed (s : State) (ms : List PressMove) : List (Nat × Patch) :=
  s.patches.filter fun e => e.2.st != .evicted &&
    ms.any fun m => if m.patch then m.id = e.1 else (standsIn s e.2).any (·.1 = m.id)

/-- Whether the layout that a press leads to is a layout: its leases are granted and lie whole and apart; its patches lie whole and apart,
those that it names in their own leases and off their loans; and every stream can be read. -/
def pressOk (s : State) (ms : List PressMove) : Bool :=
  let ps := pressed s ms
  let ls := s.leases.map fun e => (e.1, pressLease ms e.1 e.2)
  let all := (standing s fun _ _ => false).map fun e => (e.1, e.2, pressPatch s ms e.1 e.2)
  (s.leases.all fun e => ! ms.any (fun m => ! m.patch && m.id = e.1) ||
    (e.2.st = .granted && e.2.want.isNone &&
      let N := pressLease ms e.1 e.2
      rectPlace N.x N.y N.w N.h && rectWhole s N.x N.y N.w N.h &&
        ls.all fun f => f.1 = e.1 || ! f.2.rects.any fun r => rectsMeet N.x N.y N.w N.h r.1 r.2.1 r.2.2.1 r.2.2.2)) &&
  ps.all fun e =>
    let q := pressPatch s ms e.1 e.2
    let named := ms.any fun m => m.patch && m.id = e.1
    ! partsWait s e.2.lease e.2.obj e.2.hdr && rectWhole s q.1 q.2.1 e.2.w e.2.h &&
      (hCbar e.2.hdr = 0 || (q.1 % 4 = 0 && q.2.1 % 4 = 0)) &&
      (! named || match s.lease e.2.lease with
        | some L =>
          let N := pressLease ms e.2.lease L
          originOk N e.2.w e.2.h (hCbar e.2.hdr) (q.1 - N.x) (q.2.1 - N.y) &&
            N.loans.all fun n => ! rectsMeet q.1 q.2.1 e.2.w e.2.h n.x n.y n.w n.h
        | none => false) &&
      all.all fun f => f.1 = e.1 || ! rectsMeet q.1 q.2.1 e.2.w e.2.h f.2.2.1 f.2.2.2.1 f.2.1.w f.2.1.h

/-- The patches of a press set down, each with its place, its object and its images; peer bindings follow where a patch has other
coordinates in its lease than before. -/
def pressDown (olds : Table Lease) : List ((Nat × Patch) × (Nat × Nat × Option Nat) × KObj × Table Core) → State → State
  | [], s => s
  | (e, q, o, imgs) :: r, s =>
    let s := match tfind olds e.2.lease, s.lease e.2.lease with
      | some L, some N => rebind s e.2.lease e.2.w e.2.h (relTo e.2.x L.x) (relTo e.2.y L.y) (relTo q.1 N.x) (relTo q.2.1 N.y)
      | _, _ => s
    pressDown olds r (setDown s e.1 e.2.lease o imgs q.1 q.2.1 q.2.2)

/-- A press carried out on stopped patches: every patch is read out before any hem moves, and every hem stands before any patch resumes. A
load that is refused leaves everything where it was. -/
def doPress (moves : List PressMove) (ps : List (Nat × Patch)) (s : State) : State :=
  match (ps.flatMap fun e => patchCores s e.1).find? fun cid => readPoison (s.core cid) with
  | some cid => raiseCore s cid none 0 0 { cause := 0x0B }
  | none =>
    let old := s
    let s := ps.foldl (fun s e => stopForPlacer s e.1) s
    let bad := ps.findSome? fun e => match reload s e.2.lease e.2.obj e.2.hdr with
      | .error b => some (e, b)
      | .ok _ => none
    let got := ps.filterMap fun e => match reload s e.2.lease e.2.obj e.2.hdr with
      | .ok o => some (e, pressPatch old moves e.1 e.2, o, readAll s e.1)
      | .error _ => none
    let s := ps.foldl (fun s e => loadCharge s e.2.lease e.2.obj e.2.hdr) s
    match bad with
    | some (e, b) => recordLoad s e.1 e.2 b.1 b.2
    | none =>
      let s := ps.foldl (fun s e => forCores s e.1 fun s cid => rinseCore s cid e.2.lease) s
      pressDown old.leases got { s with leases := tmap (fun l L => pressLease moves l L) s.leases }

/-- PRESS (R114): leases and patches are moved at once, within the fabric. -/
def execPress (moves : List PressMove) (s : State) : Host.Outcome State Fault Refusal :=
  let key := eventKey (.press moves)
  .next (if pressOk s moves then placerStep s key (pressed s moves) (doPress moves (pressed s moves))
    else giveUp ((pressed s moves).foldl (fun s e => partsWalk s e.2.lease e.2.obj e.2.hdr) s) (· = key))

/-! ### Darning and withdrawal (R14, R15, R117) -/

/-- The patch that stands on a core, with its record. -/
def patchOn (s : State) (cid : Nat) : Option (Nat × Patch) := (s.core cid).patch.bind fun n => (s.patch n).map fun p => (n, p)

/-- What stands on a core. -/
def onCore (s : State) (cid : Nat) : List (Nat × Patch) := (patchOn s cid).toList

/-- A core withdrawn; the PF is told (R14, R117, R376). -/
def losePos (s : State) (cid lease : Nat) : State :=
  tellEvicted (s.modCore cid fun c => { c with withdrawn := true, replays := [] }) (clusterOf cid) (posOf s cid) lease

/-- A core withdrawn once what stands on it has stopped: the patch is evicted, and restored where it fits in its lease (R117). One whose
read-out meets poison awaits its rollback first. -/
def withdraw (s : State) (cid : Nat) : State :=
  match patchOn s cid with
  | none => losePos s cid 0
  | some (n, p) =>
    let t := evictPatch s n p false
    match (t.patch n).filter fun q => q.st = .evicted with
    | none => t
    | some q =>
      let t := losePos t cid p.lease
      match ((t.lease p.lease).filter fun _ => ! partsWait t p.lease p.obj p.hdr).bind fun L =>
          freeOrigin t L (fun k _ => k = n) p.w p.h (hCbar p.hdr) none with
      | some o => restorePatch t n q o.1 o.2 none
      | none => t

/-- A position put on its darning core: what stands on it is read out and applied there (R117). -/
def darnPos (s : State) (cl pos cid : Nat) : State :=
  let take := fun (s : State) => s.modCluster cl fun c => { c with darned := some pos }
  match patchOn s cid with
  | none => (take s).setCore (3072 + cl) (rinsedCore (s.core (3072 + cl)))
  | some (n, p) =>
    if readPoison (s.core cid) then raiseCore s cid none 0 0 { cause := 0x0B }
    else
      let s := stopForPlacer s n
      let got := reload s p.lease p.obj p.hdr
      let s := loadCharge s p.lease p.obj p.hdr
      match got with
      | .error (cause, b) => recordLoad s n p cause b
      | .ok o =>
        let img := reapply s p.lease o (readout (s.core cid))
        let s := take (rinseCore (rinseCore s cid p.lease) (3072 + cl) p.lease)
        let s := putImage (s.modCore cid fun c => { c with replays := [] }) (3072 + cl) { img with patch := some n }
        passNotes (restart s (3072 + cl)) n o

/-- Whether a cluster position belongs to the Briuk strip. -/
def stripPos (cl pos : Nat) : Bool := cl % 16 = 0 && decide (cl < 96) && pos % 4 = 0

/-- When a position failed: at the third replay failure within a second (R117). -/
def failedAt (s : State) (cl pos : Nat) : Option Nat :=
  let c := s.core (coreAt s cl pos)
  if stripPos cl pos || c.withdrawn || decide (c.replays.length < 3) then none else c.replays.head?

/-- Whether a position that failed is the first of its cluster: earlier than every other, the lower-numbered where two fail at once
(R14). -/
def firstFailed (s : State) (cl pos t : Nat) : Bool :=
  (List.range 16).all fun q => match failedAt s cl q with
    | some u => decide (t < u) || (t = u && decide (pos ≤ q))
    | none => true

/-- Whether a position that failed is darned: the darning core is free, and no other position comes first (R14). -/
def darns (s : State) (cl pos t : Nat) : Bool :=
  (s.cluster cl).darned.isNone && ! (s.core (3072 + cl)).withdrawn && firstFailed s cl pos t

/-- DARN (R14, R117): three replay failures within a second darn a position; one that cannot be darned is withdrawn. -/
def execDarn (cl pos : Nat) (s : State) : Host.Outcome State Fault Refusal :=
  let cid := coreAt s cl pos
  let key := eventKey (.darn cl pos)
  let ps := onCore s cid
  .next (match (failedAt s cl pos).filter fun _ => (tfind s.victims cid).isNone with
    | none => s
    | some t =>
      if darns s cl pos t then
        if ps.any fun e => partsWait s e.2.lease e.2.obj e.2.hdr then ps.foldl (fun s e => partsWalk s e.2.lease e.2.obj e.2.hdr) s
        else placerStep s key ps fun s => darnPos s cl pos cid
      else if storeRoom s (ps.map (·.2)) then placerStep s key ps fun s => withdraw s cid
      else s)

/-- Every packet not yet completed completes ABORTED (R15), those still posted in their rings among them. -/
def abortAll (s : State) : State :=
  s.queues.foldl (fun s q => abortRing s q.1 fun _ => true) (s.pipe.foldl abortPkt s)

/-- The strip core at (0, y) takes its cluster's darning core. -/
def stripTakes (s : State) (y : Nat) : State :=
  let cl := 16 * (y / 4)
  { (s.modCluster cl fun c => { c with darned := some (4 * (y % 4)) }).setCore (3072 + cl) (rinsedCore (s.core (3072 + cl))) with
    stripDarned := s.stripDarned ++ [y] }

/-- STRIP_CORE_FAILURE (R15): the strip core takes its cluster's darning core, before any leased position; with that core serving
another strip core it is withdrawn, and a third withdrawal stops the device. A darning core that has itself been withdrawn, on a leased
position, serves the strip core all the same: the spec does not say (assumption 106). -/
def execStripCoreFailure (y : Nat) (s : State) : Host.Outcome State Fault Refusal :=
  let cl := 16 * (y / 4)
  let spare := 3072 + cl
  let ps := onCore s spare
  .next (
    if s.stripDown.contains y ∨ s.stopped then s
    else match (s.cluster cl).darned with
      | none => stripTakes s y
      | some q =>
        if ! stripPos cl q then
          if (tfind s.victims spare).isSome || ! storeRoom s (ps.map (·.2)) then s
          else placerStep s (eventKey (.stripCoreFailure y)) ps fun s =>
            let s := if (s.core spare).withdrawn then s else withdraw s spare
            if ! (s.core spare).withdrawn then s
            else
              let s := (s.modCluster cl fun c => { c with darned := none }).modCore spare fun c => { c with withdrawn := false }
              stripTakes (s.modCore (coreAt s cl q) fun c => { c with withdrawn := true }) y
        else
          let s := { s with stripDown := s.stripDown ++ [y], stripDarned := s.stripDarned.filter (· != y) }
          let s := tellEvicted s cl (4 * (y % 4)) 0
          if 3 ≤ s.stripDown.length then abortAll { s with stopped := true } else s)

/-! ### The end of in-place pre-emption (R350) -/

/-- A victim's core as it resumes: its own record, with the counter sets of contexts 6 and 7 beside its own. -/
def resumedCore (now v : Core) : Core :=
  { v with rin := (if rinGt now.rin v.rin then now.rin else v.rin), replays := now.replays, withdrawn := now.withdrawn,
           counters := (now.counters.filter fun e => decide (6 ≤ e.1)).foldl (fun t e => tset t e.1 e.2) v.counters }

/-- A victim resumes: the freed banks are let out to its C with no valid line. -/
def resumeVictim (s : State) (pt : Nat) : State :=
  let vs := s.victims.filter fun e => e.2.patch = some pt
  let s := vs.foldl (fun s e =>
    let c := resumedCore (s.core e.1) e.2
    takeIn (s.setCore e.1 c) e.1 (64 - 4 * (plG c.pleat.word + plT c.pleat.word + plS c.pleat.word))) s
  let s := { s with victims := s.victims.filter fun e => e.2.patch != some pt }
  let s := forCores s pt fun s cid => s.modCore cid fun c => { c.setAct .active with resStart := s.time, resBase := tgetD c.counters (c.act.getD 0) [] }
  s.modPatch pt fun p => { p with st := p.was }

/-- PREEMPT_RESUME (R350): the pre-empting work has retired, or was ended by a fault; it is rinsed and its victim resumes. -/
def execPreemptResume (pt : Nat) (s : State) : Host.Outcome State Fault Refusal :=
  .next (match s.patch pt with
    | none => s
    | some p =>
      let stalls := s.victims.any fun e => e.2.patch = some pt && e.2.cache.any (lineStalls s)
      if p.st ≠ .victim ∨ p.saveDue.isSome ∨ stalls then s
      else match s.patches.find? fun e => e.2.host = some pt with
        | none => resumeVictim s pt
        | some (n, g) => if g.st = .frozen then resumeVictim (dropPatch s n) pt else s)

/-! ### The world switch (R353) -/

/-- The patches of a VF that stand on cores. -/
def vfPatches (s : State) (vf : Nat) : List (Nat × Patch) :=
  s.patches.filter fun e => ((s.lease e.2.lease).map (·.vf)) = some vf && e.2.st != .evicted

/-- The patches of a VF that a switch has to stop: all but those in fill. -/
def vfStops (s : State) (vf : Nat) : List (Nat × Patch) := (vfPatches s vf).filter fun e => e.2.st != .loaded

/-- A VF switched out: its patches are evicted, launches in fill go back to place, its snapshot registers are saved. One whose read-out
meets poison stays until its rollback. -/
def switchOut (s : State) (vf : Nat) : State :=
  let s := (vfPatches s vf).foldl (fun s e => if e.2.st = .loaded then backToPlace s e.1 e.2.pk else evictPatch s e.1 e.2 false) s
  if (vfPatches s vf).isEmpty then s.modFn vf fun f => { f with out := true, world := f.snaps, snaps := [] } else s

/-- A VF switched in: its registers are restored, its queues resume, its evicted patches are restored where they fit. -/
def switchIn (s : State) (vf : Nat) : State :=
  if ! (s.fn vf).out then s
  else
    let s := s.modFn vf fun f => { f with out := false, snaps := f.world, world := [] }
    (s.patches.filter fun e => ((s.lease e.2.lease).map (·.vf)) = some vf && e.2.st = .evicted).foldl (fun s e =>
      match s.patch e.1 with
      | none => s
      | some p => match placeFor s e.1 p with
        | some (x, y, k) => restorePatch s e.1 p x y k
        | none => s) s

/-- WORLD_SWITCH (R353): one VF leaves and another comes in; a mailbox command in progress completes first. -/
def execWorldSwitch (vfOut vfIn : Nat) (s : State) : Host.Outcome State Fault Refusal :=
  let key := eventKey (.worldSwitch vfOut vfIn)
  let ps := vfStops s vfOut
  .next (
    if vfOut = vfIn ∨ (s.fn vfOut).busy ∨ (s.fn vfOut).out ∨ ! storeRoom s (ps.map (·.2)) then giveUp s (· = key)
    else placerStep s key ps fun s =>
      let s := switchOut s vfOut
      if (s.fn vfOut).out then switchIn s vfIn else s)

end Sys2Proof.Machine
end

