-- ==== Sys2Proof/Machine/Seal.lean ====
section
/-! DEFINITION. The seal protocol (R301 to R312, R316): messages, interval timer, ADVANCE with its saves (R314 to R319, R329), READY,
SEALED with what it releases (R307, R320 to R324), the patrol sweep. A message that has arrived waits until it can be acted on. -/

namespace Sys2Proof.Machine

/-! ### Messages (R311) -/

/-- A message's 32 bytes. -/
def sealBytes (m : SealMsg) : List Byte :=
  num 1 m.ty.toNat ++ num 1 m.irr.toNat ++ num 2 m.domain.toNat ++ num 4 m.rin.toNat ++ num 2 m.device.toNat ++ num 6 0 ++
    num 8 m.time.toNat ++ num 8 0

/-- The message of this step joins those that wait; one of another type or another domain is discarded and counted. -/
def gotMsg (s : State) (ty : Nat) : State :=
  match s.msgIn with
  | none => s
  | some m =>
    if m.ty.toNat = ty ∧ m.domain = s.sl.domain ∧ s.sl.formed then { s with msgIn := none, sl := { s.sl with due := s.sl.due ++ [m] } }
    else { s with msgIn := none, sl := { s.sl with bad := s.sl.bad + 1 } }

/-- The oldest waiting message of a type. -/
def dueMsg (s : State) (ty : Nat) : Option SealMsg := s.sl.due.find? fun m => m.ty.toNat = ty

/-- The oldest waiting message of a type taken away. -/
def takeDue (s : State) (ty : Nat) : State :=
  { s with sl := { s.sl with due := s.sl.due.eraseP fun m => m.ty.toNat = ty } }

/-- Whether this device is its domain's coordinator. -/
def isCoordinator (s : State) : Bool := s.sl.device = s.sl.coordinator

/-- The ports that lead to devices of the domain (R309, R377). -/
def domainPorts (s : State) : List Nat :=
  ((s.sl.members.filter (· != s.sl.device)).filterMap fun d => tfind s.sl.routes d).eraseDups

/-- The later of two RINs. -/
def laterRin (a b : Rin) : Rin := if rinGt a b then a else b

/-! ### Starting an interval (R309, R316, R330) -/

/-- The interval timer as the PF sets it: from 250 µs to 100 ms (R316); any other value leaves it (assumption 88). -/
def setTimer (s : State) : State :=
  match s.timerIn with
  | some t => if 250000 ≤ t ∧ t ≤ 100000000 then { s with sl := { s.sl with timer := t }, timerIn := none } else { s with timerIn := none }
  | none => s

/-- INTERVAL_TIMER (R309, R316): the coordinator broadcasts ADVANCE on its timer, or on a request once 250 µs have passed since the
last; never during a seal or a rollback. -/
def execIntervalTimer (s : State) : Host.Outcome State Fault Refusal :=
  .next (
    let s := setTimer s
    let due := decide (s.sl.lastAdvance + s.sl.timer ≤ s.time) || s.sl.requested && decide (s.sl.lastAdvance + 250000 ≤ s.time)
    if s.sl.formed && isCoordinator s && s.sl.sealing.isNone && s.sl.rolling.isNone && (dueMsg s 1).isNone && due then
      broadcast { s with sl := { s.sl with requested := false, lastAdvance := s.time } } 1 (s.sl.cur + 1)
    else s)

/-- SEAL_REQUEST (R309, R311): the coordinator merges it into its next start. -/
def execSealRequest (s : State) : Host.Outcome State Fault Refusal :=
  .next (
    let s := gotMsg s 4
    match dueMsg s 4 with
    | none => s
    | some _ =>
      let s := takeDue s 4
      if isCoordinator s then { s with sl := { s.sl with requested := true } } else s)

/-! ### Saves (R314 to R319, R329) -/

/-- Whether every live task of a patch waits in `sealpt` (R329). -/
def sealptReady (s : State) (pt : Nat) : Bool :=
  (patchCores s pt).all fun cid => (s.core cid).tasks.all fun t => t.2.st = .free || t.2.sealWait

/-- Patches that ADVANCE saves: running class S kernels, and those whose `sealpt` waits for its seal; work in contexts 6 and 7 never
(R317, R319, R329). -/
def toSave (s : State) : List (Nat × Patch) :=
  s.patches.filter fun e => e.2.host.isNone && (hClassS e.2.hdr || (e.2.sealpt && sealptReady s e.1)) &&
    (e.2.st = .running || e.2.st = .debugStop || e.2.st = .victim || e.2.st = .evicted && e.2.was != .frozen)

/-- The patches that ADVANCE has to freeze: those that it saves and that do not stand put aside or evicted (R317, R318, R319). -/
def toFreeze (s : State) : List (Nat × Patch) := (toSave s).filter fun e => e.2.st = .running || e.2.st = .debugStop

/-- The cores of a patch at its save, by 64·py + px: an evicted patch's image; else what is read out, of a pre-empted core from its
record put aside. -/
def saveImages (s : State) (e : Nat × Patch) : Table Core :=
  if e.2.st = .evicted then imageOf s e.1 e.2
  else
    let t := (patchCores s e.1).foldl (fun t cid => let c := s.core cid; tset t (64 * c.py + c.px) (readout c)) ([] : Table Core)
    (s.victims.filter fun v => v.2.patch = some e.1).foldl (fun t v => tset t (64 * v.2.py + v.2.px) (readout v.2)) t

/-- Whether the k-th of the n banks of T holds a line of an armed extent (R126, R130). -/
def Core.armedBank (c : Core) (n k : Nat) : Bool :=
  c.armed.any fun x => (List.range (Nat.min (64 * x.2) n)).any fun i => (x.1 / 64 + i) % n = k

/-- Banks of a core that a save's slot holds (R315): of G, of S below the watermark, of an armed T extent. -/
def Core.keptBanks (c : Core) : List Nat :=
  let w := c.pleat.word
  let nG := 4 * plG w
  let nT := 4 * plT w
  (List.range 64).filter fun b =>
    decide (b < nG) || (decide (nG ≤ b) && decide (b < nG + nT) && c.armedBank nT (b - nG)) ||
      (decide (nG + nT ≤ b) && decide (b < nG + nT + 4 * plS w) && decide (4 * (b - nG - nT) < c.pleat.swm.toNat))

/-- Banks of an image that a save writes: of those, the ones written since the last save. -/
def savedBanks (c : Core) : List Nat := c.keptBanks.filter c.bankDirty.contains

/-- Where a core's slot lies in the save area (R315). -/
def slotOff (w px py : Nat) : Nat := 65536 + 1310720 * (py * w + px)

/-- Bytes to which the spec gives contents and no layout (R315): the header's interval, origin, pleat words, watermarks and bank maps, a
slot's readout state outside the pool. The bytes are free values; the contents stand in the save's record (assumption 17). -/
def freeBytes (s : State) (off n : Nat) : List Byte := (List.range n).map fun i => Config.saveByte s.tick (off + i)

/-- What a save writes, by offset in the save area (R315): the header, each core's banks, and the rest of its readout state. -/
def saveWrites (s : State) (p : Patch) (imgs : Table Core) : List (Nat × List Byte) :=
  (0, freeBytes s 0 65536) :: imgs.flatMap fun e =>
    let o := slotOff p.w e.2.px e.2.py
    ((savedBanks e.2).map fun b => (o + 16384 * b, e.2.pool.read (16384 * b) 16384)) ++
      [(o + 1048576, freeBytes s (o + 1048576) 262144)]

/-- Whether a line of the save area would stall for undo space (R308). -/
def saveStalls (s : State) (p : Patch) : Bool :=
  (List.range ((65536 + p.w * p.h * 1310720) / 64)).any fun i =>
    match translate s stripCid p.lease (hSaveVa p.hdr + 64 * i) with
    | .ok (.dev pa r) _ => undoStalls s pa r s.sl.cur
    | _ => false

/-- An image once it is saved: no bank is dirty. -/
def savedImage (c : Core) : Core := { c with bankDirty := [] }

/-- A patch that stands saved at interval n (R315, R317): its state read out and written as stores stamped n. Poison read out is poison
consumed, and there is no save (R115). -/
def savePatch (n : Rin) (s : State) (e : Nat × Patch) : State :=
  let imgs := saveImages s e
  let bad := if e.2.st = .evicted then none else (patchCores s e.1).find? fun cid => readPoison (s.core cid)
  match bad with
  | some cid => raiseCore s cid none 0 0 { cause := 0x0B }
  | none =>
    let s := (saveWrites s e.2 imgs).foldl (fun s w => putVa s stripCid e.2.lease (hSaveVa e.2.hdr + w.1) w.2 n) s
    let s := forCores s e.1 fun s cid => s.modCore cid savedImage
    let s := { s with victims := tmap (fun _ v => if v.patch = some e.1 then savedImage v else v) s.victims,
                      images := tmap (fun k i => if k = e.1 then { i with cores := tmap (fun _ c => savedImage c) i.cores } else i) s.images }
    let s := s.modPatch e.1 fun p =>
      { p with saveRin := if hClassS p.hdr then n else p.saveRin, st := if p.st = .saving then p.was else p.st, saveDue := none }
    match s.patch e.1 with
    | none => s
    | some p => { s with saves := { rin := n, pt := e.1, patch := p, cores := tmap (fun _ c => savedImage c) imgs } :: s.saves }

/-- A patch frozen for its save at interval n; while its area has no room for the undo entries it stays frozen (R308, R317). -/
def freezeSave (n : Rin) (s : State) (e : Nat × Patch) : State :=
  let s := if e.2.st = .running then stopForPlacer s e.1 else s
  if saveStalls s e.2 then
    (countStall s e.2.lease).modPatch e.1 fun p =>
      if p.st = .running ∨ p.st = .debugStop then { p with saveDue := some n, st := .saving, was := p.st } else { p with saveDue := some n }
  else savePatch n s e

/-- Whether a core holds a patch whose save is still to be written: it keeps its interval (R317). -/
def savesYet (s : State) (c : Core) : Bool := (c.patch.bind s.patch).any (·.saveDue.isSome)

/-! ### ADVANCE (R309, R310) -/

/-- Requests of COPY packets in copy queues, by cluster and queue. -/
def copyEnts (s : State) : List (Nat × Nat × CopyEnt) :=
  s.clusters.flatMap fun c => c.2.queues.flatMap fun q => (q.2.filter fun e => e.pk.isSome).map fun e => (c.1, q.1, e)

/-- The Briuk strip's state as interval n ends. -/
def stripSnap (s : State) (n : Rin) : BriukSnap :=
  { rin := n, queues := s.queues, pipe := s.pipe, patches := s.patches, leases := s.leases, copies := copyEnts s }

/-- Every core, those put aside among them, advances to an interval, but for those whose save is still to be written (R302, R309, R317). -/
def advanceCores (s : State) (r : Rin) : State :=
  let go := fun (_ : Nat) (c : Core) => if savesYet s c then c else c.sawRin r
  { s with cores := tmap go s.cores, victims := tmap go s.victims }

/-- Saves that have waited for room are written, and their leases resume in the present interval (R308, R317). -/
def saveMore (s : State) : State :=
  s.patches.foldl (fun s e => match (s.patch e.1).bind fun p => p.saveDue.map fun n => (p, n) with
    | some (p, n) => if saveStalls s p then s else advanceCores (savePatch n s (e.1, p)) s.sl.cur
    | none => s) s

/-- A seal mark sent on every peer port (R309, R310). -/
def sendMarks (s : State) (n : Rin) : State :=
  (List.range 18).foldl (fun s p => { s with ports := tmod s.ports p {} fun q => { q with sent := n } }) s

/-- How many intervals before r the interval lies that a non-zero tag names (R303, R304). -/
def tagAge (r : Rin) (t : BitVec 16) : Nat :=
  let d := (r.toNat % 65535 + 65535 - (t.toNat - 1)) % 65535
  if d ≤ r.toNat then d else (r.toNat + 1 + 65535 - (t.toNat - 1)) % 65535

/-- Whether a tag names an interval 32,768 or more before the present one. -/
def tagOld (s : State) (t : BitVec 16) : Bool := t != 0 && decide (32768 ≤ tagAge s.sl.cur t)

/-- The sweep has come by every line in time (R304): no tag lives to be taken for a later interval's (assumption 67). -/
def sweptTags (s : State) : State := { s with lineTags := s.lineTags.filter fun e => ! tagOld s e.2 }

/-- The end of interval n (R309 step 1): the saves, the strip's state, the marks; every other core, engine and node is in interval m. -/
def beginInterval (s : State) (n m : Rin) : State :=
  let s := (toSave s).foldl (freezeSave n) s
  let s := sendMarks (advanceCores { s with snaps := stripSnap s n :: s.snaps } m) n
  sweptTags
  { s with sl := { s.sl with cur := m, high := laterRin m s.sl.high, sealing := some n, readySent := false, readyFrom := [],
                             lastAdvance := s.time, openSince := s.time } }

/-- Leases resume after a rollback (R326): restored patches run. -/
def resumeAll (s : State) : State :=
  { s with sl := { s.sl with rolling := none, rolledFrom := [], lastAdvance := s.time },
           patches := tmap (fun _ p => if p.st = .saving then { p with st := p.was, idle := 0 } else p) s.patches }

/-- ADVANCE (R309): the device freezes what it saves (R317), and once that stands begins the interval; saves that wait for room are
written later. After a rollback the coordinator's ADVANCE of the interval that the device already holds lets its leases resume. -/
def execAdvance (s : State) : Host.Outcome State Fault Refusal :=
  .next (
    let s := gotMsg s 1
    match dueMsg s 1 with
    | none => if s.sl.rolling.isSome then s else saveMore s
    | some m =>
      if s.sl.rolling.isSome then (if m.rin = s.sl.cur then resumeAll (takeDue s 1) else s)
      else if ! rinGt m.rin s.sl.cur then takeDue s 1
      else if s.sl.sealing.isSome then saveMore s
      else placerStep s (.advance, 0) (toFreeze s) fun s => beginInterval (takeDue s 1) s.sl.cur m.rin)

/-- SEAL_MARK (R310): the mark of interval n has arrived on a port. -/
def execSealMark (port : Nat) (n : Rin) (s : State) : Host.Outcome State Fault Refusal :=
  .next (
    if (tgetD s.ports port {}).down then s
    else { s with ports := tmod s.ports port {} fun q => { q with marked := laterRin n q.marked } })

/-! ### READY (R302, R309) -/

/-- Dirty lines of a list stamped n or earlier written back; one that would stall for undo space takes the present interval (R308). -/
def sealLines (n : Rin) : List CLine → State × List CLine → State × List CLine
  | [], r => r
  | x :: xs, (s, out) =>
    if x.dirty = 0 ∨ ! rinGe n x.stamp then sealLines n xs (s, out ++ [x])
    else if lineStalls s x then sealLines n xs (s, out ++ [{ x with stamp := s.sl.cur }])
    else sealLines n xs (lineOut s x, out ++ [{ x with dirty := 0 }])

/-- A core record's lines drained for READY(n). -/
def sealCore (n : Rin) (s : State) (c : Core) : State × Core :=
  let (s, xs) := sealLines n c.cache (s, [])
  (s, { c with cache := xs, dirtyQ := c.dirtyQ.filter fun l => xs.any fun x => x.line = l && x.dirty != 0 })

/-- Every core's C drained of what READY(n) covers (R302, R309). -/
def drainForReady (s : State) (n : Rin) : State :=
  let s := s.cores.foldl (fun s e => let (s, c) := sealCore n s e.2; s.setCore e.1 c) s
  s.victims.foldl (fun s e => let (s, c) := sealCore n s e.2; { s with victims := tset s.victims e.1 c }) s

/-- Whether the device may send READY(n): marks have arrived on every port of the domain, every save has been written, and no poison of n
or before was consumed. -/
def mayReady (s : State) (n : Rin) : Bool :=
  ! s.sl.readySent && s.patches.all (fun e => e.2.saveDue.isNone) && (domainPorts s).all (fun p => rinGe (tgetD s.ports p {}).marked n) &&
    match s.sl.poisoned with
    | some r => ! rinGe n r
    | none => true

/-- READY (R309): the device's own is sent; at the coordinator the one of the last device brings SEALED. -/
def execReady (s : State) : Host.Outcome State Fault Refusal :=
  .next (
    let s := gotMsg s 2
    match dueMsg s 2 with
    | some m =>
      if ! isCoordinator s || s.sl.rolling.isSome then takeDue s 2
      else if s.sl.sealing ≠ some m.rin then s
      else
        let s := takeDue s 2
        let from' := (m.device.toNat :: s.sl.readyFrom).eraseDups
        let s := { s with sl := { s.sl with readyFrom := from' } }
        if s.sl.members.all from'.contains then broadcast s 3 m.rin else s
    | none =>
      match s.sl.sealing with
      | none => s
      | some n =>
        if s.sl.rolling.isSome || ! mayReady s n then s
        else
          let t := drainForReady s n
          toCoordinator { t with sl := { t.sl with readySent := true } } 2 false n)

/-! ### SEALED (R309, R320 to R324, R329) -/

/-- Whether a class R kernel of a lease still retains what is stamped r, at the seal of n (R320). -/
def retainedBy (s : State) (n : Rin) (lease : Nat) (r : Rin) : Bool :=
  s.patches.any fun e =>
    let p := e.2
    p.lease = lease && ! hClassS p.hdr && p.st != .resident && p.st != .loaded && rinGt r p.retention &&
      match p.retireRin with
      | some q => rinGt q n
      | none => true

/-- Undo entries of intervals up to n leave their rings, but those retained (R307, R320, R322). -/
def releaseUndo (s : State) (n : Rin) : State :=
  { s with undo := s.undo.filter fun u => rinGt u.rin n ||
      ((s.lease u.lease).any fun L => L.gen = u.gen) && retainedBy s n u.lease u.rin }

/-- Whether an escape goes out at the SEALED of n (R324). -/
def escapeGoes (s : State) (n : Rin) (e : Escape) : Bool :=
  rinGe n e.rin && match e.lease with
    | some l => ! retainedBy s n l e.rin
    | none => true

/-- One escape's posted write (R324), with its owner's charge (R358). -/
def postEscape (s : State) (e : Escape) : State :=
  let s := match e.lease with
    | some l => charge s (leaseOwner s l) 13 e.data.length
    | none => s
  match e.loc with
  | .host a => { s with hostMem := s.hostMem.write a e.data }
  | .ext d a => { s with peerMem := s.peerMem.write (d * 2 ^ 48 + a) e.data }
  | _ => s

/-- Held escapes of sealed intervals go out: in ascending RIN, within one as they were held (R324). -/
def releaseEscapes (s : State) (n : Rin) : State :=
  let age := fun (e : Escape) => (n - e.rin).toNat
  let before := fun (a b : Escape) => decide (age b < age a) || (age a = age b && decide (a.id ≤ b.id))
  let go := sortBy before (s.escapes.filter (escapeGoes s n))
  go.foldl postEscape { s with escapes := s.escapes.filter fun e => ! escapeGoes s n e }

/-- Waiting tasks go on with the RIN that covers their save (R329). -/
def sealptDone (s : State) (pt : Nat) (n : Rin) : State :=
  let s := forCores s pt fun s cid =>
    (s.core cid).tasks.foldl (fun s t =>
      if t.2.sealWait then
        let s := t.2.sealG.foldl (fun s g => writeReg s cid t.1 g (scalar n.toNat)) s
        s.modCore cid fun c => c.modTask t.1 fun q => { q with sealWait := false, sealG := [] }
      else s) s
  s.modPatch pt fun p => { p with sealpt := false, retention := n }

/-- The images of an evicted patch whose `sealpt` is sealed. -/
def sealptImages (t : Table Core) (n : Rin) : Table Core :=
  tmap (fun _ c => c.tasks.foldl (fun c t =>
    if t.2.sealWait then
      let c := t.2.sealG.foldl (fun c g => c.writeG t.1 g (scalar n.toNat)) c
      c.modTask t.1 fun q => { q with sealWait := false, sealG := [] }
    else c) c) t

/-- Every `sealpt` that the save of n covers completes (R321, R329). -/
def completeSealpts (s : State) (n : Rin) : State :=
  (s.saves.filter fun v => v.rin = n && v.patch.sealpt).foldl (fun s v =>
    match s.patch v.pt with
    | some p =>
      if p.st = .evicted then
        { s with images := tmap (fun k i => if k = v.pt then { i with cores := sealptImages i.cores n } else i) s.images }.modPatch v.pt fun p =>
          { p with sealpt := false, retention := n }
      else sealptDone s v.pt n
    | none => s) s

/-- What packets wait for at the SEALED of n: WAITSEAL completes (R91), a class R kernel retires (R320). -/
def releasePkts (s : State) (n : Rin) : State :=
  (s.pipe.filter fun p => (p.sealFor.map fun r => rinGe n r).getD false).foldl (fun s p =>
    if pkType p.words = 5 then endPkt (s.modPkt p.num fun q => { q with sealFor := none }) p.num 0 0xFFFF 0
    else
      let seq := s.tick
      let s := s.modPkt p.num fun q => { q with sealFor := none, doneSeq := seq }
      match p.patch.bind s.patch, p.patch with
      | some q, some pt => if q.st = .retiring then finishPatch s pt q.keep else s
      | _, _ => s) s

/-- States and saves that no rollback can return to any more are dropped. -/
def pruneSaves (s : State) (n : Rin) : State :=
  { s with snaps := s.snaps.filter fun b => rinGe b.rin n,
           saves := s.saves.filter fun v => rinGt v.rin n ||
             ! s.saves.any fun w => w.pt = v.pt && rinGe n w.rin && rinGt w.rin v.rin }

/-- The release of step 4 (R309), at the SEALED of n. -/
def releaseSealed (s : State) (n : Rin) : State :=
  let s := completeSealpts { s with sl := { s.sl with s := n, sealing := none, readySent := false, readyFrom := [] } } n
  let s := releasePkts (releaseEscapes (releaseUndo s n) n) n
  let s := pruneSaves s n
  (s.undo.map (·.ctrl)).eraseDups.foldl earlySeal s

/-- SEALED (R309). -/
def execSealed (s : State) : Host.Outcome State Fault Refusal :=
  .next (
    let s := gotMsg s 3
    match dueMsg s 3 with
    | none => s
    | some m => if s.sl.sealing = some m.rin then releaseSealed (takeDue s 3) m.rin else takeDue s 3)

/-- SEAL_LATE (R312): reported every 100 ms while the seal stays open, with the SEALED message that has not come. -/
def execSealLate (s : State) : Host.Outcome State Fault Refusal :=
  .next (match s.sl.sealing with
    | none => s
    | some n =>
      if s.sl.openSince + 100000000 ≤ s.time then
        let s := pfEvent s 3 0 (sealBytes { sealMsg s 3 false n with device := BitVec.ofNat 12 s.sl.coordinator })
        { s with sl := { s.sl with openSince := s.time } }
      else s)

/-! ### The patrol sweep (R304) -/

/-- PATROL_SWEEP (R304): a tag that names an interval 32,768 or more before the present one is rewritten to 0. -/
def execPatrolSweep (line : Nat) (s : State) : Host.Outcome State Fault Refusal :=
  .next (
    if tagOld s (tgetD s.lineTags line 0) then { s with lineTags := terase s.lineTags line } else s)

end Sys2Proof.Machine
end

