-- ==== Sys2Proof/Machine/Rollback.lean ====
section
/-! DEFINITION. Poison and rollback (R301, R306, R320, R326, R327, R354): POISON at the coordinator, ROLLBACK with its seven steps,
ROLLED, uncorrectable errors. -/

namespace Sys2Proof.Machine

/-! ### Uncorrectable errors (R257, R326) -/

/-- The undo entry that a line of a controller's HBM ring holds: the ring's entries lie oldest first from its start (R106, R307). -/
def poisonUndo (s : State) (ctrl k : Nat) : State :=
  let mine := s.undo.reverse.filter (·.ctrl = ctrl)
  match mine[k]? with
  | none => s
  | some u => { s with undo := s.undo.map fun v => if v.ctrl = ctrl && v.pa = u.pa && v.rin = u.rin then { v with bad := true } else v }

/-- UNCORRECTABLE_ERROR (R229, R326): a line of device memory, a pool row or a line of a page table is poisoned; a line of the undo ring
poisons the entry there. -/
def execUncorrectableError (site : ErrorSite) (s : State) : Host.Outcome State Fault Refusal :=
  .next (match site with
    | .line pa =>
      let s := if pa < 2 ^ 42 ∧ chanBytes ≤ pa % 2 ^ 28 then poisonUndo s (pa / 2 ^ 28) ((pa % 2 ^ 28 - chanBytes) / 128) else s
      if s.poison.contains (pa / 64) then s else { s with poison := pa / 64 :: s.poison }
    | .row cid row => s.modCore cid fun c => if c.poisonRows.contains row then c else { c with poisonRows := row :: c.poisonRows }
    | .table lease level line => s.modLease lease fun L =>
      if L.ptBad.contains (level, line) then L else { L with ptBad := (level, line) :: L.ptBad })

/-! ### POISON (R326) -/

/-- POISON (R326): the coordinator lets a seal that has every READY complete, then broadcasts ROLLBACK of its last sealed interval.
POISON of an interval that a rollback has discarded says nothing new. -/
def execPoison (s : State) : Host.Outcome State Fault Refusal :=
  .next (
    let s := gotMsg s 5
    match dueMsg s 5 with
    | none => s
    | some m =>
      if ! isCoordinator s || s.sl.rolling.isSome || ! rinGt m.rin s.sl.s || rinGt s.sl.base m.rin then takeDue s 5
      else if (dueMsg s 3).isSome then s
      else
        let s := takeDue s 5
        broadcast { s with sl := { s.sl with rolling := some s.sl.s, rolledFrom := [] } } 6 s.sl.s)

/-! ### What a rollback returns to -/

/-- The strip's state at the end of an interval. -/
def snapAt (s : State) (r : Rin) : BriukSnap := (s.snaps.find? (·.rin = r)).getD (stripSnap s r)

/-- The last save of a patch that a rollback to r returns to (R321, R326): of class S any, of class R a `sealpt`. -/
def restartSave (s : State) (r : Rin) (pt : Nat) : Option Save := s.saves.find? fun v => v.pt = pt && rinGe r v.rin

/-- Whether a patch of the strip's state at s runs again after the rollback: its kernel had been launched and had not retired by then;
a patch frozen on a fault runs again too (R354). -/
def runsAgain (p : Patch) : Bool := p.st != .resident && p.st != .retiring && (p.host.isNone || p.st != .frozen)

/-- The retention points of the class R kernels that run again, by lease (R320, R321). -/
def retentions (s : State) (r : Rin) (b : BriukSnap) : List (Nat × Rin) :=
  (b.patches.filter fun e => runsAgain e.2 && e.2.st != .loaded && ! hClassS e.2.hdr).map fun e =>
    (e.2.lease, match restartSave s r e.1 with
      | some v => v.rin
      | none => e.2.retention)

/-- Whether what a lease did in an interval is undone (R326 steps 2 and 6). -/
def goesBack (r : Rin) (keeps : List (Nat × Rin)) (lease : Option Nat) (rin : Rin) : Bool :=
  rinGt rin r || keeps.any fun k => lease = some k.1 && rinGt rin k.2

/-! ### Steps 2 to 4 -/

/-- An undo entry replayed (R305, R326): data, tag and poison of the old line. -/
def replayUndo (s : State) (u : Undo) : State :=
  let line := u.pa / 64
  let rest := s.poison.filter (· != line)
  { s with mem := s.mem.write u.pa (valueBytes u.data),
           lineTags := if u.otag = 0 then terase s.lineTags line else tset s.lineTags line u.otag,
           poison := if u.poison then line :: rest else rest }

/-- Step 2: every entry that goes back is replayed, newest first, and leaves its ring; a poisoned one cannot be. -/
def replayAll (s : State) (r : Rin) (keeps : List (Nat × Rin)) : State :=
  let goes := fun (u : Undo) => goesBack r keeps (some u.lease) u.rin
  let s' := (s.undo.filter goes).foldl (fun s u => if u.bad then s else replayUndo s u) s
  { s' with undo := s.undo.filter fun u => ! goes u }

/-- Whether a lease maps a physical address on a volatile DEST 0 page (R306). -/
def volatileIn (L : Lease) (pa : Nat) : Bool :=
  match localOf L pa with
  | none => false
  | some (t, a) =>
    let has := fun (size : Nat) (e : Nat × BitVec 64) =>
      peV e.2 && peDest e.2 = 0 && ! peRec e.2 && (peTier e.2 == t) && decide (pePa e.2 ≤ a) && decide (a < pePa e.2 + size)
    L.big.any (has (2 ^ 29)) || L.small.any (has (2 ^ 16))

/-- Step 3: every line of every volatile DEST 0 page reads zero (R306). -/
def zeroVolatile (s : State) (b : BriukSnap) : State :=
  let vol := fun (pa : Nat) => (s.leases ++ b.leases).any fun e => volatileIn e.2 pa
  { s with mem := s.mem.filter fun c => ! vol c.1, poison := s.poison.filter fun n => ! vol (64 * n) }

/-- Steps 1 and 4: whatever runs is abandoned, every pool is rinsed, every core is in the new interval; copy queues and TLBs are empty. -/
def rinseAll (s : State) (cur : Rin) : State :=
  { s with
    cores := tmap (fun _ c => { rinsedCore c with rin := cur, gen := [] }) s.cores,
    victims := [], waiters := [], images := [], grants := [],
    clusters := tmap (fun _ c => { c with tlb := [], queues := [], resv := [], errs := [] }) s.clusters }

/-! ### Step 5 -/

/-- A lease as it was at s, with what is never rolled back: counters, fault records, and what its driver has set through the mailbox. -/
def leaseBack (s : State) (l : Nat) (old : Lease) : Lease :=
  let keep := fun (now : Lease) =>
    { now with st := old.st, x := old.x, y := old.y, w := old.w, h := old.h, chans := old.chans, loans := old.loans,
               reqQueue := old.reqQueue, pk := old.pk, rinses := old.rinses, want := old.want }
  match s.lease l, tfind s.released l with
  | some now, _ => if now.gen = old.gen then keep now else old
  | none, some now => if now.gen = old.gen then keep now else old
  | none, none => old

/-- A queue whose rings return to what they were at s (R327); its configuration and its window's counters stay. -/
def queueBack (now old : Queue) : Queue :=
  let old := if old.isOpen then old else {}
  { now with head := old.head, tail := old.tail, ring := old.ring, recs := old.recs, ctail := old.ctail, stopped := old.stopped,
             chead := if (old.ctail - now.chead).toNat ≤ now.size then now.chead else old.ctail, rresv := 0, cresv := 0 }

/-- A packet sent back to the place stage: its kernel is launched again from its packet (R314, R326). -/
def relaunchPkt (now : Nat) (p : Pkt) : Pkt :=
  { p with stage := .place, registered := false, status := 0, field := 0xFFFF, result := 0, ready := some now, levels := 0,
           patch := none, sealFor := none, charge := 0, skipFill := false, began := 0, borrowed := 0, lent := 0 }

/-- The packet of a patch frozen on a fault, which runs again (R354). -/
def frozenPkt (s : State) (pt : Nat) (q : Patch) : Pkt :=
  { num := q.pk, queue := q.queue, words := q.words, stage := .running, ingest := q.launched, rin := q.ingested, lease := q.lease,
    registered := false, status := 0, field := 0xFFFF, result := 0, ready := none, levels := 0, patch := some pt,
    sealFor := none, copied := 0, charge := 0, skipFill := false, requests := [], began := s.time, borrowed := 0, doneSeq := 0,
    hdr := q.hdr, vf := (s.queue q.queue).vf, leaseGen := ((s.lease q.lease).map (·.gen)).getD 0 }

/-- Whether a patch of the strip's state returns from a save. -/
def restores (s : State) (r : Rin) (pt : Nat) (q : Patch) : Bool := q.host.isNone && runsAgain q && (restartSave s r pt).isSome

/-- A packet of the strip's state at s as it goes on. -/
def pktBack (s : State) (r : Rin) (b : BriukSnap) (p : Pkt) : Pkt :=
  match p.patch, p.patch.bind fun pt => tfind b.patches pt with
  | some pt, some q =>
    if p.stage = .complete ∧ q.st ≠ .frozen then { p with sealFor := none }
    else if ! runsAgain q then { p with sealFor := none }
    else if restores s r pt q then
      { p with stage := .running, registered := false, status := 0, field := 0xFFFF, result := 0, sealFor := none, began := s.time }
    else relaunchPkt s.time p
  | _, _ => { p with registered := false, sealFor := if p.stage = .complete then none else p.sealFor }

/-- The packets after the rollback, in order: those of the strip's state at s, and those of frozen patches, whose records stand. -/
def pipeBack (s : State) (r : Rin) (b : BriukSnap) : List Pkt :=
  let open' := fun (p : Pkt) => (s.queue p.queue).isOpen
  let again := (b.patches.filter fun e => runsAgain e.2 && ! b.pipe.any fun p => p.num = e.2.pk).map fun e =>
    let p := frozenPkt s e.1 e.2
    if restores s r e.1 e.2 then p else relaunchPkt s.time p
  sortBy (fun p q => decide (p.num ≤ q.num)) ((again ++ b.pipe.map (pktBack s r b)).filter open')

/-- The event counters of a patch's cores as they stand now, by 64·py + px: they are never rolled back (R326, R361). -/
def countersNow (s : State) (pt : Nat) : Table (Table (Table Nat)) :=
  let all := (s.cores.map (·.2)).filter (·.patch = some pt) ++ (s.victims.map (·.2)).filter (·.patch = some pt) ++
    (((tfind s.images pt).map (·.cores)).getD []).map (·.2)
  all.foldl (fun t c => tset t (64 * c.py + c.px) c.counters) []

/-- Bytes of a lease's memory as it stands, whatever migration its pages are under. -/
def areaRead (s : State) (lease va n : Nat) : List Byte :=
  (lineCuts (n + 1) va (List.replicate n 0)).flatMap fun p =>
    match stripMap s lease (p.1 % 2 ^ 48) with
    | some m => nodeRead s lease m.1 p.2.length
    | none => p.2

/-- The pool of a core as its slot of the save area holds it (R315), under the readout mask of its context (R37). -/
def slotPool (s : State) (v : Save) (c : Core) : Memory :=
  let at' := hSaveVa v.patch.hdr + slotOff v.patch.w c.px c.py
  (c.keptBanks.foldl (fun (m : Memory) b => m.write (16384 * b) (areaRead s v.patch.lease (at' + 16384 * b) 16384)) []).filter fun x =>
    keepsByte c (readMask c).1 x.1

/-- A patch restored from its save, at the origin recorded there: its pools from the save area, the rest from the save's record; it runs
when the leases resume. A `sealpt` that the save covers completes. -/
def restoreSave (before : State) (s : State) (v : Save) : State :=
  let cnt := countersNow before v.pt
  let imgs := tmap (fun k c => { c with counters := tgetD cnt k c.counters, pool := slotPool s v c }) v.cores
  let was := if v.patch.st = .victim then v.patch.was else v.patch.st
  let q := { v.patch with stop := none, held := false, saveDue := none }
  let p := { q with st := .saving, was := was, fault := none, extra := 0, retention := v.rin, idle := 0 }
  let stored : Stored := { lease := p.lease, gen := ((s.lease p.lease).map (·.gen)).getD 0, cores := sealptImages imgs v.rin }
  if v.patch.st = .evicted then
    { s with patches := tset s.patches v.pt { q with sealpt := false, retention := v.rin }, images := tset s.images v.pt stored }
  else
    let s := { s with patches := tset s.patches v.pt p }
    match reload s p.lease p.obj p.hdr with
    | .error (cause, b) =>
      let s := tellEvicted (recordLoad s v.pt p cause b) (p.x / 4 + 16 * (p.y / 4)) (p.x % 4 + 4 * (p.y % 4)) p.lease
      { s with patches := tset s.patches v.pt { p with st := .evicted, sealpt := false }, images := tset s.images v.pt stored }
    | .ok o =>
      let s := setDown s v.pt p.lease o imgs p.x p.y p.loan
      if v.patch.sealpt then sealptDone s v.pt v.rin else s

/-- The requests of COPY packets return to their queues. -/
def copiesBack (s : State) (b : BriukSnap) : State :=
  b.copies.foldl (fun s e => s.modCluster e.1 fun c => { c with queues := tmod c.queues e.2.1 [] (· ++ [e.2.2]) }) s

/-- WAITSEAL packets whose interval is sealed complete (R91); others ask again. -/
def waitsealsBack (s : State) (r : Rin) : State :=
  (s.pipe.filter fun p => pkType p.words = 5 && p.stage = .running).foldl (fun s p =>
    if (p.sealFor.map fun q => rinGe r q).getD true then endPkt (s.modPkt p.num fun q => { q with sealFor := none }) p.num 0 0xFFFF 0
    else requestSeal s false) s

/-- Step 5: queues, pipeline and leases return to their state at s; kernels are restored from their saves. -/
def stripBack (before : State) (s : State) (r : Rin) (b : BriukSnap) : State :=
  let leases := tmap (fun l old => leaseBack s l old) b.leases
  let saves := b.patches.filterMap fun e => if restores s r e.1 e.2 then restartSave s r e.1 else none
  let s := { s with leases := leases, released := s.released.filter fun e => ! leases.any (·.1 = e.1),
                    queues := tmap (fun q now => queueBack now (tgetD b.queues q {})) s.queues }
  let s := { s with pipe := pipeBack s r b, patches := [] }
  waitsealsBack (copiesBack (saves.foldl (restoreSave before) s) b) r

/-! ### Steps 6 and 7 -/

/-- The record of R327 in a queue's completion ring, once there is room: the queue's TAIL at s, and the new RIN. -/
def rollbackRecord (s : State) (r : Rin) (q : Nat) : State :=
  let w := s.queue q
  let result := BitVec.ofNat 64 (r.toNat + 2 ^ 32 * w.tail.toNat)
  if w.cRoom then postRecord s q (record 0 33 15 0xFFFF result s.sl.cur s.time)
  else
    let p : Pkt :=
      { num := s.nextPkt, queue := q, words := 15, stage := .complete, ingest := s.time, rin := s.sl.cur, lease := 4096,
        registered := false, status := 33, field := 0xFFFF, result := result, ready := none, levels := 0,
        patch := none, sealFor := none, copied := 0, charge := 0, skipFill := false, requests := [], began := 0, borrowed := 0,
        doneSeq := 0, hdr := [] }
    { s with pipe := s.pipe ++ [p], nextPkt := s.nextPkt + 1 }

/-- The rollback counters of every lease and of every owner of one (R326 step 7). -/
def countRollback (s : State) : State :=
  let owners := (s.leases.map (·.2.owner)).eraseDups
  owners.foldl (fun s o => charge s o 14 1) { s with leases := tmap (fun _ L => { L with rollbacks := L.rollbacks + 1 }) s.leases }

/-- Whether a lease has pages on a controller (R326). -/
def onController (L : Lease) (ctrl : Nat) : Bool :=
  L.chans.contains ctrl || L.exts.any fun e => 1536 + e % 96 = ctrl

/-- A lease ended by a poisoned undo entry (R326): packets ABORTED, the PF told; its cores wait for their rinse. -/
def endPoisoned (s : State) (l : Nat) : State :=
  match s.lease l with
  | none => s
  | some L =>
    let s := pfEvent (abortLease s l (2 ^ 64)) 5 l (num 2 l ++ num 1 L.gen.toNat)
    s.modLease l fun L => { L with st := .rinsing, want := none, rinses := rectCids s (L.x, L.y, L.w, L.h), pk := none, loans := [] }

/-- The highest RIN begun by now, the starts not yet acted on among them (R301). -/
def highest (s : State) : Rin := (s.sl.due.filter fun m => m.ty.toNat = 1).foldl (fun h m => laterRin m.rin h) s.sl.high

/-- Every fault whose stop the rollback overtakes writes its record now: records are written for every fault (R337, R338). -/
def overtaken (s : State) : State :=
  s.patches.foldl (fun s e => match e.2.fault with
    | some f => keepFault s e.2.lease (faultRecord s e.2 f e.2.extra)
    | none => s) s

/-- A rollback to the end of interval r (R326 steps 1 to 7). -/
def rollbackTo (s : State) (r : Rin) : State :=
  let s := overtaken s
  let before := s
  let b := snapAt s r
  let keeps := retentions s r b
  let cur := highest s + 1
  let bad := ((s.undo.filter fun u => u.bad && goesBack r keeps (some u.lease) u.rin).map (·.ctrl)).eraseDups
  let s := rinseAll (zeroVolatile (replayAll s r keeps) b) cur
  let s := { s with
    sl := { s.sl with s := r, cur := cur, high := cur, base := cur, sealing := none, readySent := false, readyFrom := [],
                      earlySent := none, poisoned := none, rolling := some r, rolledFrom := [],
                      due := s.sl.due.filter fun m => m.ty.toNat = 4 || m.ty.toNat = 5 || m.ty.toNat = 7 },
    escapes := s.escapes.filter fun e => ! goesBack r keeps e.lease e.rin,
    snaps := s.snaps.filter (·.rin = r), saves := s.saves.filter fun v => rinGe r v.rin,
    inject := { s.inject with ctl := s.inject.ctl &&& ~~~1#64 } }
  let s := countRollback (stripBack before s r b)
  let s := bad.foldl (fun s c => (s.leases.filter fun e => onController e.2 c).foldl (fun s e => endPoisoned s e.1) s) s
  let s := (s.queues.filter (·.2.isOpen)).foldl (fun s e => rollbackRecord s r e.1) s
  toCoordinator s 7 false r

/-- ROLLBACK (R326): an open seal of that interval counts as sealed first. -/
def execRollback (s : State) : Host.Outcome State Fault Refusal :=
  .next (
    let s := gotMsg s 6
    match dueMsg s 6 with
    | none => s
    | some m =>
      let s := takeDue s 6
      let s := if s.sl.sealing = some m.rin then releaseSealed s m.rin else s
      rollbackTo s m.rin)

/-- ROLLED (R326): with the last device's the coordinator lets the leases resume, other devices by its ADVANCE of the interval that
they hold. -/
def execRolled (s : State) : Host.Outcome State Fault Refusal :=
  .next (
    let s := gotMsg s 7
    match dueMsg s 7 with
    | none => s
    | some m =>
      let s := takeDue s 7
      if ! isCoordinator s || s.sl.rolling ≠ some m.rin then s
      else
        let from' := (m.device.toNat :: s.sl.rolledFrom).eraseDups
        let s := { s with sl := { s.sl with rolledFrom := from' } }
        if ! s.sl.members.all from'.contains then s
        else
          let others := s.sl.members.any (· != s.sl.device)
          let go := sealMsg s 1 false s.sl.cur
          resumeAll { s with sl := { s.sl with outbox := if others then s.sl.outbox ++ [go] else s.sl.outbox } })

end Sys2Proof.Machine
end

