-- ==== Sys2Proof/Machine/Registers.lean ====
section
/-! DEFINITION. What the surroundings do to the device outside its mailbox commands: register writes (R6, R371, R376, R416), snapshot
reads (R365, R366), the device-memory window (R290, R325, R372), functions (R369), peer ports (R377, R378), the serialising token (R288),
meter windows (R358), throttling (R375, R387). -/

namespace Sys2Proof.Machine

/-! ### Functions (R369) -/

/-- Whether a function exists: the PF, or a VF that NumVFs makes; none after a boot that failed (R382). -/
def fnThere (s : State) (fn : Nat) : Bool := ! s.trust.failed && decide (fn ≤ s.numVfs)

/-- NUMVFS (R369). -/
def execNumvfs (n : Nat) (s : State) : Host.Outcome State Fault Refusal := .next (if s.trust.failed then s else { s with numVfs := n })

/-! ### The event ring's registers (R376) -/

/-- Whether a ring size is one: 256 to 65,536, a power of two. -/
def ringSizeOk (lo n : Nat) : Bool := decide (lo ≤ n) && (List.range 17).any fun k => n = 2 ^ k

/-- A write of EN. -/
def ringEn (s : State) (v : BitVec 64) : State :=
  let e := s.events
  if v.getLsbD 0 then
    if ringSizeOk 256 e.size.toNat then { s with events := { e with en := true, head := 0, tail := 0 } } else { s with events := { e with en := false } }
  else { s with events := { e with en := false } }

/-- A write of HEAD: ignored where TAIL − HEAD would be negative or beyond SIZE. -/
def ringHead (s : State) (v : BitVec 32) : State :=
  let e := s.events
  if (e.tail - v).toNat ≤ e.size.toNat then { s with events := { e with head := v } } else s

/-- EVENT_RING_EN (R376). -/
def execEventRingEn (v : BitVec 64) (s : State) : Host.Outcome State Fault Refusal := .next (if s.trust.failed then s else ringEn s v)

/-- EVENT_RING_HEAD (R376). -/
def execEventRingHead (v : BitVec 32) (s : State) : Host.Outcome State Fault Refusal := .next (if s.trust.failed then s else ringHead s v)

/-! ### Test injection (R416) -/

/-- The bits of the injection's control register. -/
def injectMask : BitVec 64 := 0xFFFFFFFFFFFF00F1#64

/-- A write of the control register: a 1 in ARM is ignored while NTH is 0 or KIND is not 1; arming starts SEEN again. -/
def injectWrite (s : State) (v : BitVec 64) : State :=
  let v := v &&& injectMask
  let n := s.inject
  if ! v.getLsbD 0 then { s with inject := { n with ctl := v } }
  else if natBits v.toNat 16 4 = 0 ∨ natBits v.toNat 4 4 ≠ 1 then
    { s with inject := { n with ctl := (v &&& ~~~1#64) ||| (n.ctl &&& 1#64) } }
  else { s with inject := { n with ctl := v, seen := if n.ctl.getLsbD 0 then n.seen else 0 } }

/-- INJECT_CONTROL (R416). -/
def execInjectControl (v : BitVec 64) (s : State) : Host.Outcome State Fault Refusal := .next (if s.trust.failed then s else injectWrite s v)

/-! ### Snapshot slots (R365, R366) -/

/-- A slot of a function. -/
def Func.snap (f : Func) (j : Nat) : Snap := tgetD f.snaps j {}
/-- EN. -/
def Snap.en (x : Snap) : Bool := x.sel.getLsbD 0

/-- Event counters of a core, by context and event. -/
def eventOf (c : Core) (ctx ev : Nat) : Nat := tgetD (tgetD c.counters ctx []) ev 0

/-- The count that a slot's fields name for a lease; none where the event is reserved. -/
def slotCount (s : State) (L : Lease) (sel : Nat) : Option Nat :=
  let ev := natBits sel 10 6
  let x := natBits sel 26 6
  let y := natBits sel 20 6
  let cs := rectCids s (L.x, L.y, L.w, L.h)
  if ev ≤ 47 then
    some (Nat.min (2 ^ 48 - 1)
      (if sel.testBit 16 then (cs.flatMap fun c => (List.range 8).map fun k => eventOf (s.core c) k ev).foldl (· + ·) 0
       else if x < L.w ∧ y < L.h then eventOf (s.core (coreXY s (L.x + x) (L.y + y))) (natBits sel 17 3) ev
       else 0))
  else match ev with
    | 48 => some L.hemlint
    | 49 => some L.stalelint
    | 50 => some L.rollbacks
    | 51 => some L.faultCount.toNat
    | 52 => some L.undoStalls
    | _ => none

/-- A slot's value (R365): zero with EN clear, or where its lease is no longer its function's. -/
def slotValue (s : State) (fn j : Nat) : BitVec 64 :=
  let x := (s.fn fn).snap j
  match s.lease x.lease with
  | some L =>
    if x.en && L.vf = fn then
      match slotCount s L x.sel.toNat with
      | some n => BitVec.ofNat 64 (n % 2 ^ 48)
      | none => BitVec.ofNat 64 (2 ^ 63)
    else 0
  | none => 0

/-- SNAPSHOT_LO_READ (R366): latches the whole value. -/
def execSnapshotLoRead (fn slot : Nat) (s : State) : Host.Outcome State Fault Refusal :=
  .next (
    let v := slotValue s fn slot
    { s.modFn fn (fun f => { f with snaps := tset f.snaps slot { f.snap slot with latch := v, flag := true } }) with
      readback := BitVec.ofNat 512 (v.toNat % 2 ^ 32) })

/-- SNAPSHOT_HI_READ (R366): the latched upper word once, else the present one. -/
def execSnapshotHiRead (fn slot : Nat) (s : State) : Host.Outcome State Fault Refusal :=
  .next (
    let x := (s.fn fn).snap slot
    let v := if x.flag then x.latch else slotValue s fn slot
    { s.modFn fn (fun f => { f with snaps := tset f.snaps slot { x with flag := false } }) with
      readback := BitVec.ofNat 512 (v.toNat / 2 ^ 32) })

/-- A slot's binding word written (R365): EN only where LEASE names a lease of the function. -/
def slotSelect (s : State) (fn j : Nat) (v : BitVec 32) : State :=
  let x := (s.fn fn).snap j
  let mine := fn != 0 && (s.lease x.lease).any (·.vf = fn)
  let v := v &&& 0xFFFFFC01#32
  let v := if v.getLsbD 0 && ! mine then v &&& ~~~1#32 else v
  s.modFn fn fun f => { f with snaps := tset f.snaps j { x with sel := v } }

/-- A slot's LEASE written. -/
def slotLease (s : State) (fn j : Nat) (v : BitVec 32) : State :=
  s.modFn fn fun f => { f with snaps := tset f.snaps j { f.snap j with lease := v.toNat % 4096 } }

/-! ### The mailbox's registers (R371) -/

/-- The commands' codes. -/
def commandCode (n : Nat) : Bool := (decide (1 ≤ n) && decide (n ≤ 14)) || (decide (32 ≤ n) && decide (n ≤ 39))

/-- The answer to a function's command: status in RSP byte 0, results from byte 8; DONE sets (R371). -/
def answer (s : State) (fn status : Nat) (result : List Byte) : State :=
  s.modFn fn fun f => { f with rsp := bytesValue ((num 8 status ++ result).take 64), done := true, busy := false, shoot := none }

/-- GO (R371): CMD is submitted; ignored while BUSY. A code that is no command is answered BADCMD. -/
def submit (s : State) (fn : Nat) : State :=
  let f := s.fn fn
  if f.busy then s
  else
    let s := s.modFn fn fun f => { f with served := f.cmd, busy := true }
    if commandCode (bitsOf f.cmd 0 8) then s else answer s fn 1 []

/-- Half of a 64-bit register replaced. -/
def putHalf (old : BitVec 64) (hi : Bool) (v : BitVec 32) : BitVec 64 :=
  if hi then v ++ old.setWidth 32 else (old.ushiftRight 32).setWidth 32 ++ v

/-- The PF's registers beyond the mailbox. -/
def pfWord (s : State) (off : Nat) (v : BitVec 32) : State :=
  let e := s.events
  let n := s.inject
  match off with
  | 0x9000 => if e.en then s else { s with events := { e with base := putHalf e.base false v } }
  | 0x9004 => if e.en then s else { s with events := { e with base := putHalf e.base true v } }
  | 0x9008 => if e.en then s else { s with events := { e with size := v } }
  | 0x9010 => ringHead s v
  | 0x9018 => ringEn s (v.setWidth 64)
  | 0xB000 => injectWrite s (putHalf n.ctl false v)
  | 0xB004 => { s with inject := { n with ctl := putHalf n.ctl true v } }
  | 0xB008 => { s with inject := { n with line := putHalf n.line false v &&& 0xFFFFFFFFFFC0#64 } }
  | 0xB00C => { s with inject := { n with line := putHalf n.line true v &&& 0xFFFFFFFFFFC0#64 } }
  | _ => s

/-- A 4-byte write to a BAR 2 offset (R6, R371): read-only and reserved places ignore it. -/
def wordWrite (fn off : Nat) (s : State) (v : BitVec 32) : State :=
  if off = 0x80 then
    let s := if v.getLsbD 2 then s.modFn fn fun f => { f with done := false } else s
    if v.getLsbD 0 then submit s fn else s
  else if 0x8000 ≤ off ∧ off < 0x8400 then
    let j := (off - 0x8000) / 16
    if off % 16 = 8 then slotSelect s fn j v else if off % 16 = 12 then slotLease s fn j v else s
  else if fn = 0 then pfWord s off v
  else s

/-- A write to BAR 2 (R6, R371): CMD takes those of its bytes that it covers; any other register its aligned words, the higher first.
DESIGN CHOICE (assumption 107): a write at any other offset than a multiple of 4, outside CMD, is dropped whole. -/
def registerPut (fn off len : Nat) (v : BitVec 64) (s : State) : State :=
  if ! fnThere s fn then s
  else if off < 0x40 then
    s.modFn fn fun f => { f with cmd := patchLine f.cmd off ((natBytes len v.toNat).take (0x40 - off)) }
  else if off % 4 ≠ 0 then s
  else if len = 8 then wordWrite fn off (wordWrite fn (off + 4) s ((v.ushiftRight 32).setWidth 32)) (v.setWidth 32)
  else wordWrite fn off s (v.setWidth 32)

/-- REGISTER_WRITE (R6, R290, R371). -/
def execRegisterWrite (fn off len : Nat) (v : BitVec 64) (s : State) : Host.Outcome State Fault Refusal :=
  .next (inOrder s fn (.registerWrite fn off len v) (registerPut fn off len v))

/-! ### What a read returns (R6) -/

/-- A half of a 64-bit register. -/
def half (v : Nat) (hi : Bool) : BitVec 32 := BitVec.ofNat 32 (if hi then v / 2 ^ 32 else v)

/-- What a read of a word of the mailbox and the snapshot slots' bindings returns (R365, R371); GO reads as zero. A slot's value is read
by SNAPSHOT_LO_READ and SNAPSHOT_HI_READ. -/
def mailWord (s : State) (fn off : Nat) : BitVec 32 :=
  let f := s.fn fn
  let x := f.snap ((off - 0x8000) / 16)
  if off < 0x40 then BitVec.ofNat 32 (bitsOf f.cmd (8 * off) 32)
  else if off < 0x80 then BitVec.ofNat 32 (bitsOf f.rsp (8 * (off - 0x40)) 32)
  else if off = 0x80 then BitVec.ofNat 32 (4 * f.done.toNat + 2 * f.busy.toNat)
  else if 0x8000 ≤ off ∧ off < 0x8400 ∧ off % 16 = 8 then x.sel
  else if 0x8000 ≤ off ∧ off < 0x8400 ∧ off % 16 = 12 then BitVec.ofNat 32 x.lease
  else 0

/-! ### Function-level reset (R6) -/

/-- A queue's window after its function's reset: empty rings, no flags; what QCONF configured stays. -/
def windowReset (q : Queue) : Queue :=
  { q with head := 0, tail := 0, badwr := 0, ovfl := false, stopped := false, chead := 0, ctail := 0, ring := [], recs := [],
           rresv := 0, cresv := 0 }

/-- FUNCTION_LEVEL_RESET (R6): a function's register fields return to their reset values; no field of the map is marked RWS. A command
being served completes. -/
def execFunctionLevelReset (fn : Nat) (s : State) : Host.Outcome State Fault Refusal :=
  .next (
    let s := s.modFn fn fun f => { f with cmd := 0, rsp := 0, done := false, snaps := [], world := [], win := none }
    if fn = 0 then { s with events := {}, inject := {} }
    else { s with queues := tmap (fun _ q => if q.vf = fn then windowReset q else q) s.queues })

/-! ### The device-memory window (R277, R290, R325, R372) -/

/-- The lease and lease-local address at an offset of a function's window; none beyond the lease's memory. -/
def windowAt (s : State) (fn off : Nat) : Option (Nat × Lease × Nat) :=
  (s.fn fn).win.bind fun w => (s.lease w.1).bind fun L => (hbmPhys L (w.2 + off)).map fun pa => (w.1, L, pa)

/-- An 8-byte piece of a host write: a stamped store, logged on a recoverable page (R325). -/
def windowPut (fn : Nat) (s : State) (p : Nat × List Byte) : State :=
  match windowAt s fn p.1 with
  | some (_, L, pa) => devWrite s pa p.2 (recoverable L pa) s.sl.cur
  | none => s

/-- Bytes cut at 8-byte boundaries. -/
def byteCuts : Nat → Nat → List Byte → List (Nat × List Byte)
  | 0, _, _ => []
  | f + 1, a, bs => if bs.isEmpty then [] else (a, bs.take (8 - a % 8)) :: byteCuts f (a + (8 - a % 8)) (bs.drop (8 - a % 8))

/-- Whether a piece of a host write would stall for undo space (R308). -/
def windowStalls (s : State) (fn : Nat) (p : Nat × List Byte) : Bool :=
  match windowAt s fn p.1 with
  | some (_, L, pa) => undoStalls s pa (recoverable L pa) s.sl.cur
  | none => false

/-- A whole aligned line that a host write covers is poisoned no more (R257). -/
def windowWhole (fn off n : Nat) (s : State) : State :=
  let whole := ((List.range (n / 64 + 1)).map fun k => 64 * ((off + 63) / 64 + k)).filter fun a => decide (a + 64 ≤ off + n)
  let lines := whole.filterMap fun a => (windowAt s fn a).map fun w => w.2.2 / 64
  { s with poison := s.poison.filter fun l => ! lines.contains l }

/-- A host write of the window performed: in 8-byte pieces (R277, R325). -/
def windowWrite (fn off : Nat) (data : List Byte) (s : State) : State :=
  windowWhole fn off data.length ((byteCuts (data.length + 1) off data).foldl (windowPut fn) s)

/-- Whether some piece of a host write stalls for undo space (R308). -/
def windowFull (s : State) (fn off : Nat) (data : List Byte) : Bool := (byteCuts (data.length + 1) off data).any (windowStalls s fn)

/-- A host write of the window: one that has no undo space waits at the port, counted as its lease's stall (R308). -/
def hostPut (fn off : Nat) (data : List Byte) (s : State) : State :=
  if windowFull s fn off data then
    let s := match (s.fn fn).win with
      | some w => countStall s w.1
      | none => s
    { s with posted := s.posted ++ [.hostWindowWrite fn off data] }
  else windowWrite fn off data s

/-- HOST_WINDOW_WRITE (R290, R325). -/
def execHostWindowWrite (fn off : Nat) (data : List Byte) (s : State) : Host.Outcome State Fault Refusal :=
  .next (inOrder s fn (.hostWindowWrite fn off data) (hostPut fn off data))

/-- A posted write performed; none while it has no undo space. -/
def performOne (s : State) (i : Instr) : Option State :=
  match i with
  | .hostWindowWrite fn off data => if windowFull s fn off data then none else some (windowWrite fn off data s)
  | .packetWrite fn q off data => some (packetPut fn q off data s)
  | .resume fn q v => some (resumePut fn q v s)
  | .chead fn q v => some (cheadPut fn q v s)
  | .registerWrite fn off len v => some (registerPut fn off len v s)
  | _ => some s

/-- Posted writes that wait at the port perform as they can, each function's in their order (R290). -/
def performPosted : List Instr → State → State
  | [], s => s
  | i :: r, s =>
    let behind := s.posted.any fun j => postedBy j = postedBy i
    match if behind then none else performOne s i with
    | some t => performPosted r t
    | none => performPosted r { s with posted := s.posted ++ [i] }

/-- What waits at the port tried again. -/
def retryPosted (s : State) : State := performPosted s.posted { s with posted := [] }

/-- HOST_WINDOW_READ (R290): what has performed at the node; all ones beyond the lease's memory. -/
def execHostWindowRead (fn off len : Nat) (s : State) : Host.Outcome State Fault Refusal :=
  .next { s with readback := bytesValue ((List.range (Nat.min len 64)).map fun i =>
    match windowAt s fn (off + i) with
    | some (_, _, pa) => s.mem.get pa
    | none => 0xFF#8) }

/-! ### Peer ports (R377, R378) -/

/-- PEER_PORT_DOWN (R378): every channel routed through the port stalls. -/
def execPeerPortDown (port : Nat) (s : State) : Host.Outcome State Fault Refusal :=
  .next { s with ports := tmod s.ports port {} fun p => { p with down := true } }

/-- PEER_PORT_RECOVER (R388). -/
def execPeerPortRecover (port : Nat) (s : State) : Host.Outcome State Fault Refusal :=
  .next { s with ports := tmod s.ports port {} fun p => { p with down := false } }

/-- Whether a peer flit's lease is paired with its sender's (R377). -/
def paired (s : State) (f : PeerFlit) : Option Lease :=
  (s.lease f.destLease).filter fun L => L.gen.toNat = f.destGen && match L.pair with
    | some q => q.1 = f.srcDevice && q.2.1 = f.srcLease
    | none => false

/-- Whether a flit belongs to an interval that a rollback has discarded (R301, R326). -/
def discarded (s : State) (r : Rin) : Bool := rinGt r s.sl.s && rinGt s.sl.base r

/-- Whether a flit's kind is one of the reserved ones (R24). -/
def reservedKind (f : PeerFlit) : Bool := decide (f.msg = PeerMsg.flit) && decide (13 ≤ f.kind.toNat)

/-- The answer to a flit, to the lease that sent it. -/
def backTo (s : State) (f : PeerFlit) (m : PeerMsg) : PeerFlit :=
  { f with destDevice := f.srcDevice, destLease := f.srcLease, srcDevice := s.sl.device, srcLease := f.destLease, rin := s.sl.cur, msg := m }

/-- The core and out-channel of a lease here that are bound to where a flit went. -/
def boundOut (s : State) (l : Nat) (f : PeerFlit) : Option (Nat × Nat) :=
  (s.lease l).bind fun L =>
    (L.binds.find? fun b => b.device = f.srcDevice && b.lease = f.srcLease && b.rx = f.px && b.ry = f.py && b.rin = f.chan).bind fun b =>
      ((s.cores.filter fun e => e.2.patch.isSome && coreLease s e.1 = l && e.2.px = b.px && e.2.py = b.py).head?).map fun e => (e.1, b.out)

/-- Word that a flit of this device was dropped, its lease not being paired: charged to its lease's HEMLINT, and reported (R111, R377). -/
def peerDropped (s : State) (f : PeerFlit) : State :=
  match boundOut s f.destLease f with
  | some (cid, out) => dropFlit s cid out f.srcLease { kind := f.kind, value := f.value, rin := f.rin }
  | none => s

/-- A flit for a lease that has migrated goes on to where it is now, with the number by which repeats are known; the answer that the
sender's tables have been rewritten ends the record (R352). -/
def forwarded (s : State) (w : Forward) (f : PeerFlit) : State :=
  let rest := s.forwards.filter (· != w)
  let to' := fun (m : PeerMsg) => { f with destDevice := w.device, destLease := w.newLease, destGen := w.newGen, msg := m }
  match f.msg with
  | .retargeted => { s with forwards := rest }
  | .released a none => { s with peerOut := s.peerOut ++ [to' (.released a (some w.next))], forwards := { w with next := w.next + 1 } :: rest }
  | m => { s with peerOut := s.peerOut ++ [to' m] }

/-- A waiter of another device's lease, on a line of a lease here by lease-local address (R291). -/
def farWaiter (L : Lease) (f : PeerFlit) (a : Nat) : Option Waiter :=
  (hbmPhys L (64 * (a / 64))).map fun pa =>
    { line := pa / 64, pk := none, core := none, woken := false, remote := some (f.srcDevice, f.srcLease), lease := f.destLease, va := a }

/-- A lease's tables point to where its partner is now (R351, R352): its pairing, its bindings, its partner's waiters. -/
def repoint (s : State) (f : PeerFlit) (device lease gen : Nat) : State :=
  let mine := fun (b : PeerBind) => b.device = f.srcDevice && b.lease = f.srcLease
  let port := fun (b : PeerBind) => (tfind s.sl.routes device).getD b.port
  let s := s.modLease f.destLease fun L =>
    { L with pair := some (device, lease, BitVec.ofNat 8 gen),
             binds := L.binds.map fun b => if mine b then { b with device := device, lease := lease, port := port b } else b }
  { s with
    waiters := s.waiters.map fun w =>
      if w.lease = f.destLease ∧ w.remote = some (f.srcDevice, f.srcLease) then { w with remote := some (device, lease) } else w,
    peerOut := s.peerOut ++ [backTo s f .retargeted] }

/-- A message of a lease's partner acted on (R113, R291, R352). -/
def hearPeer (s : State) (L : Lease) (f : PeerFlit) : State :=
  match f.msg with
  | .register a => match farWaiter L f a with
    | some w => { s with waiters := w :: s.waiters.filter (· != w) }
    | none => s
  | .unregister a => { s with waiters := s.waiters.filter fun w => farWaiter L f a != some { w with woken := false } }
  | .released a none => wakeLine s (lineKey (.peer f.srcDevice a))
  | .released a (some n) =>
    if n < L.heardSeq then s
    else wakeLine (s.modLease f.destLease fun L => { L with heardSeq := n + 1 }) (lineKey (.peer f.srcDevice a))
  | .retarget device lease gen => repoint s f device lease gen
  | .moved x y w h nx ny =>
    s.modLease f.destLease fun L =>
      { L with binds := L.binds.map fun b =>
          if b.device = f.srcDevice && b.lease = f.srcLease then
            let q := movedTo x y w h nx ny (b.rx, b.ry)
            { b with rx := q.1, ry := q.2 }
          else b }
  | _ => s

/-- A channel flit delivered to its core, or dropped; none where it is held back: by its core, while the placer stops the patch (R113), or
for a patch that is evicted. A reserved kind raises its cause here (R24, R160, R317). -/
def deliver (s : State) (L : Lease) (f : PeerFlit) : Option State :=
  let cid := coreXY s ((L.x + f.px) % 64) ((L.y + f.py) % 64)
  let g : Flit := { kind := f.kind, value := f.value, rin := f.rin }
  if reservedKind f then some (raiseCore s cid none 0 0 { cause := 0x0D, chan := some (false, f.chan) })
  else if ((s.core cid).patch.bind s.patch).any (·.stop.isSome) then none
  else match arrivalAt s cid f.chan g with
    | .take => some (putFlit s cid f.chan g)
    | .bad cause => some (raiseCore s cid none 0 0 { cause := cause, chan := some (false, f.chan) })
    | .hold => none
    | .lint => if s.patches.any fun e => e.2.lease = f.destLease && e.2.st = .evicted then none else some s

/-- A flit at a port of its device (R302, R352, R377): dropped with word to its sender where its lease is not paired with the sender's,
dropped where its interval was discarded, sent on where its lease has left; none where it is held. -/
def admitFlit (s : State) (f : PeerFlit) : Option State :=
  if f.msg = PeerMsg.dropped then some (peerDropped s f)
  else match paired s f, s.forwards.find? fun w => w.lease = f.destLease && w.gen.toNat = f.destGen && w.far = f.srcDevice with
    | none, some w => some (if reservedKind f then s else forwarded s w f)
    | none, none => some (if f.msg = PeerMsg.flit then { s with peerOut := s.peerOut ++ [backTo s f .dropped] } else s)
    | some L, _ =>
      if discarded s f.rin then some s
      else if f.msg ≠ PeerMsg.flit then some (hearPeer s L f)
      else if s.sl.rolling.isSome then none
      else deliver s L f

/-- Whether two flits are for one in-channel. -/
def sameChannel (f g : PeerFlit) : Bool := f.destLease = g.destLease && f.px = g.px && f.py = g.py && f.chan = g.chan

/-- A flit admitted, or held at its port; it waits behind those already held for its channel (R113, R162). -/
def atPort (port : Nat) (s : State) (f : PeerFlit) : State :=
  let hold := { s with ports := tmod s.ports port {} fun p => { p with held := p.held ++ [f] } }
  if f.msg = PeerMsg.flit ∧ (tgetD s.ports port {}).held.any (sameChannel f) then hold else (admitFlit s f).getD hold

/-- PEER_FLIT_ARRIVAL (R24, R377): forwarded where it is not for this device, but for a reserved kind, which goes no further than this
port (assumption 70); else admitted or held. -/
def execPeerFlitArrival (port : Nat) (f : PeerFlit) (s : State) : Host.Outcome State Fault Refusal :=
  .next (
    if (tgetD s.ports port {}).down then s
    else if f.destDevice ≠ s.sl.device then (if reservedKind f then s else { s with peerOut := s.peerOut ++ [f] })
    else atPort port s f)

/-- What the ports hold tried again, in order. -/
def retryHeld (s : State) : State :=
  s.ports.foldl (fun s e =>
    if e.2.held.isEmpty then s
    else e.2.held.foldl (atPort e.1) { s with ports := tmod s.ports e.1 {} fun p => { p with held := [] } }) s

/-! ### The serialising token (R288) -/

/-- SERIALISING_TOKEN (R288): the token comes to one of the ring's eleven nodes. -/
def execSerialisingToken (node : Nat) (s : State) : Host.Outcome State Fault Refusal :=
  .next (if node < 11 then { s with token := node } else s)

/-! ### Meter windows (R358) -/

/-- Islands of fabric rows; the others are uncore and hub islands (R386). -/
def rowIsland (k : Nat) : Bool := decide (k < 28) && k % 7 != 6

/-- An owner's share of an island's energy: by active core cycles, for uncore and hub islands by bytes moved. -/
def energyShare (s : State) (o : Owner) (k mj : Nat) : Nat :=
  let part := fun (w : Owner) => if rowIsland k then tgetD w.active k 0 else w.moved
  let all := (s.owners.map fun e => part e.2).foldl (· + ·) 0
  if all = 0 then 0 else mj * part o / all

/-- METER_WINDOW (R358): at the end of a 1 ms window each island's energy is charged, and the window's counts start again. -/
def execMeterWindow (energy : List Nat) (s : State) : Host.Outcome State Fault Refusal :=
  .next (
    if s.time < s.meterAt + 1000000 then s
    else
      let s' := s.owners.foldl (fun t e =>
        (List.range 32).foldl (fun t k => charge t e.1 (15 + k) (energyShare s e.2 k (energy.getD k 0))) t) s
      { s' with owners := tmap (fun _ o => { o with active := [], moved := 0 }) s'.owners, meterAt := s.time })

/-! ### Throttling (R375, R386, R387) -/

/-- The status word of an island (R386). -/
def islandWord (i : Island) : Nat :=
  i.volt % 4096 + 2 ^ 12 * (i.freq % 4096) + 2 ^ 28 * i.cause.toNat + 2 ^ 32 * Nat.min i.tcount 65535

/-- What a read of a word of the PF's registers returns (R376, R386, R416). -/
def pfReadWord (s : State) (off : Nat) : BitVec 32 :=
  let e := s.events
  let n := s.inject
  if 0xA000 ≤ off ∧ off < 0xA100 then half (islandWord (tgetD s.islands ((off - 0xA000) / 8) {})) (off % 8 = 4)
  else match off with
    | 0x9000 | 0x9004 => half e.base.toNat (off = 0x9004)
    | 0x9008 => e.size
    | 0x9010 => e.head
    | 0x9014 => e.tail
    | 0x9018 => BitVec.ofNat 32 e.en.toNat
    | 0xB000 | 0xB004 => half n.ctl.toNat (off = 0xB004)
    | 0xB008 | 0xB00C => half n.line.toNat (off = 0xB00C)
    | 0xB010 => BitVec.ofNat 32 (Nat.min n.fires (2 ^ 32 - 1))
    | 0xB014 => BitVec.ofNat 32 (Nat.min n.seen 0xFFFF)
    | _ => 0

/-- What a 4-byte read of BAR 2 returns to a function (R6); no row of the table is such a read, and it changes nothing. -/
def regWord (s : State) (fn off : Nat) : BitVec 32 :=
  if off < 0x9000 then mailWord s fn off else if fn = 0 then pfReadWord s off else 0

/-- The counters of a lease as the PF reads them directly (R110, R326, R337, R308): HEMLINT, STALELINT, rollbacks, fault records, undo
stalls. No row of the table is such a read. -/
def pfCounters (s : State) (l : Nat) : Option (List Nat) :=
  ((s.lease l).or (tfind s.released l)).map fun L => [L.hemlint, L.stalelint, L.rollbacks, L.faultCount.toNat, L.undoStalls]

/-- A change of an island told in the PF's event ring. -/
def tellIsland (s : State) (k : Nat) : State := pfEvent s 6 0 (num 8 (islandWord (tgetD s.islands k {})))

/-- One island lowered by 50 MHz, to no lower than 1,000. At that floor under the PF's cap an event is written once a second. -/
def lowerIsland (cause : BitVec 4) (s : State) (k : Nat) : State :=
  let i : Island := tgetD s.islands k {}
  if 1050 ≤ i.freq then
    let j := { i with freq := i.freq - 50, cause := cause, tcount := Nat.min (i.tcount + 1) 65535, cleared := s.time, told := s.time }
    tellIsland { s with islands := tset s.islands k j } k
  else
    let s := { s with islands := tset s.islands k { i with cleared := s.time } }
    if cause.getLsbD 0 && decide (i.told + 1000000000 ≤ s.time) then
      tellIsland { s with islands := tset s.islands k { i with cleared := s.time, told := s.time } } k
    else s

/-- THROTTLE (R387): for power or the PF's cap every fabric row island is lowered, for temperature or current the island alone. -/
def execThrottle (island : Nat) (cause : BitVec 4) (s : State) : Host.Outcome State Fault Refusal :=
  .next (
    if cause.getLsbD 0 && s.pwrCap = 0 then s
    else if cause.getLsbD 3 || cause.getLsbD 0 then ((List.range 32).filter rowIsland).foldl (lowerIsland cause) s
    else if cause = 0 then s
    else lowerIsland cause s island)

/-- THROTTLE_RECOVER (R387): 50 MHz back once the cause has cleared for 10 ms. -/
def execThrottleRecover (island : Nat) (s : State) : Host.Outcome State Fault Refusal :=
  .next (
    let i : Island := tgetD s.islands island {}
    if i.freq < 2000 ∧ i.cleared + 10000000 ≤ s.time then
      tellIsland { s with islands := tset s.islands island { i with freq := i.freq + 50 } } island
    else s)

end Sys2Proof.Machine
end

