-- ==== Sys2Proof/Machine/Mailbox.lean ====
section
/-! DEFINITION. Mailbox commands (R371, R372): mappings with their shootdown (R228, R230), debugging, profiling, peers, the window, fault
records and reports (R337, R359, R383), configuration (R82, R373 to R375), migration (R351), the seal domain (R379, R380). A command is
served by the step of its name, again until it is answered. -/

namespace Sys2Proof.Machine

/-! ### Serving (R371) -/

/-- The command being served, if it has a code: its function and its arguments. -/
def serving (s : State) (code : Nat) : Option (Nat × CmdArgs) :=
  s.cmdIn.filter fun c => fnThere s c.1 && (s.fn c.1).busy && bitsOf (s.fn c.1).served 0 8 = code

/-- Byte k of the command. -/
def cmdByte (s : State) (fn k : Nat) : Nat := bitsOf (s.fn fn).served (8 * k) 8

/-- The lease identity that a command names. -/
def cmdLease (s : State) (fn : Nat) : Nat := bitsOf (s.fn fn).served 16 12

/-- A command of the PF; from any other function it is answered PERM. -/
def pfOnly (s : State) (code : Nat) (body : Nat → CmdArgs → State) : State :=
  match serving s code with
  | none => s
  | some (fn, a) => if fn = 0 then body fn a else answer s fn 2 []

/-- A command on a lease that its function holds; any other lease is answered PERM. The PF holds every lease. -/
def onLease (s : State) (code : Nat) (body : Nat → Nat → Lease → CmdArgs → State) : State :=
  match serving s code with
  | none => s
  | some (fn, a) =>
    let l := cmdLease s fn
    match (s.lease l).filter fun L => (fn = 0 || L.vf = fn) && (L.st = .granted || (L.st = .rinsing && L.want.isSome)) with
    | none => answer s fn 2 []
    | some L => body fn l L a

/-- A range of whole pages of a size. -/
def wholePages (unit va size : Nat) : Bool :=
  decide (0 < size) && va % unit = 0 && size % unit = 0 && decide (va + size ≤ 2 ^ 48)

/-- Whether two ranges meet. -/
def rangesMeet (a n b m : Nat) : Bool := decide (a < b + m) && decide (b < a + n)

/-- Whether a range lies on DEST 0 pages with W, where a command may write its output (R371). -/
def outputOk (s : State) (l va n : Nat) : Bool :=
  stripMapped s l va n fun x e => peW e && match x with
    | .dev _ _ => true
    | _ => false

/-- Whether a line of a range would stall for undo space (R308). -/
def rangeStalls (s : State) (l va n : Nat) : Bool :=
  (lineCuts (n + 1) va (List.replicate n 0)).any fun p =>
    match translate s stripCid l p.1 with
    | .ok (.dev pa r) _ => undoStalls s pa r s.sl.cur
    | _ => false

/-- Output written to a virtual address of the lease, then the answer. -/
def answerAt (s : State) (fn l va : Nat) (out : List Byte) (result : List Byte) : State :=
  if ! outputOk s l va out.length then answer s fn 3 []
  else if rangeStalls s l va out.length then s
  else answer (putVa s stripCid l va out s.sl.cur) fn 0 result

/-! ### Waiters of a lease whose mappings change (R95) -/

/-- A waiter of a lease under the target that its address has now; where that is another line, what waits reads again. -/
def rewaitOne (l : Nat) (s : State) (w : Waiter) : State :=
  if w.remote.isSome ∨ w.lease ≠ l then s
  else match stripLoc s l w.va with
    | none => s
    | some x =>
      if lineKey x = w.line then s
      else
        let s := enlist (delist s (· = w)) { w with line := lineKey x, woken := true } fun _ => false
        match w.pk with
        | some n => s.modPkt n fun p => { p with registered := false }
        | none => s

/-- Every waiter of a lease under the targets that its addresses have now: no later write to a signal is lost (R95). -/
def rewait (s : State) (l : Nat) : State := s.waiters.foldl (rewaitOne l) s

/-! ### MAP (R226 to R228) -/

/-- The valid entries of a lease that meet a range: their address and size. -/
def entriesIn (L : Lease) (va size : Nat) : List (Nat × Nat × BitVec 64) :=
  let of := fun (unit : Nat) (t : Table (BitVec 64)) =>
    (t.filter fun e => peV e.2 && rangesMeet (e.1 * unit) unit va size).map fun e => (e.1 * unit, unit, e.2)
  of (2 ^ 29) L.big ++ of (2 ^ 16) L.small

/-- Extents that no lease holds, lowest first. -/
def freeExts (s : State) (n : Nat) : List Nat :=
  let used := s.leases.flatMap (·.2.exts)
  ((List.range (11648 + 1)).filter fun e => decide (e < 11648) && ! used.contains e).take n

/-- A lease with the extents that a second-tier range needs, within its VF's allotment (R107, R373). -/
def withExts (s : State) (L : Lease) (upTo : Nat) : Option Lease :=
  let need := (upTo + 2 ^ 29 - 1) / 2 ^ 29 - L.exts.length
  let more := freeExts s need
  if need = 0 then some L
  else if more.length = need ∧ vfTotal s L.vf none (·.exts.length) + need ≤ (s.fn L.vf).exts then some { L with exts := L.exts ++ more }
  else none

/-- A lease that can hold a range of device addresses: HBM as it is (R106), second-tier extents granted as they are mapped (R107). -/
def reachable (s : State) (L : Lease) (tier : Bool) (pa size : Nat) : Option Lease :=
  if tier then withExts s L (pa + size)
  else if pa + size ≤ L.chans.length * chanBytes then some L else none

/-- A lease with entries set over a range, in leaves of 512 MiB or 64 KiB. -/
def setEntries (L : Lease) (big : Bool) (va size : Nat) (e : Nat → BitVec 64) : Lease :=
  let unit := if big then 2 ^ 29 else 2 ^ 16
  let put := fun (t : Table (BitVec 64)) => (List.range (size / unit)).foldl (fun t k => tset t (va / unit + k) (e (k * unit))) t
  if big then { L with big := put L.big } else { L with small := put L.small }

/-- Whether MAP's fields fit R227. -/
def mapFields (a : MapArgs) : Bool :=
  let unit := if a.big then 2 ^ 29 else 2 ^ 16
  wholePages unit a.va a.size && a.pa % unit = 0 && decide (a.pa + a.size ≤ 2 ^ 52) && decide (a.dest < 4) &&
    (a.dest = 0 || ! a.tier) && (2 ≤ a.dest || a.peer = 0) && decide (a.peer < 4096)

/-- MAP (R228): fills invalid entries; a range with a valid one, an address beyond the lease's memory, or a recoverable system page is
refused. -/
def execMap (s : State) : Host.Outcome State Fault Refusal :=
  .next (onLease s 1 fun fn l L a => match a with
    | .map a =>
      if ! mapFields a then answer s fn 3 []
      else if ! (entriesIn L a.va a.size).isEmpty ∨ (a.recov ∧ (a.dest = 1 ∨ a.dest = 3)) then answer s fn 4 []
      else match (if a.dest = 0 then reachable s L a.tier a.pa a.size else some L) with
        | none => answer s fn 4 []
        | some L =>
          let e := fun o => mkEntry a.peer (a.pa + o) a.dest false a.tier a.recov a.x a.w a.r true
          answer (rewait (s.modLease l fun _ => setEntries L a.big a.va a.size e) l) fn 0 []
    | _ => s)

/-! ### The shootdown (R230) -/

/-- Cores that act for a lease. -/
def leaseCores (s : State) (l : Nat) : List Nat :=
  (s.cores.filter fun e => e.2.patch.isSome && coreLease s e.1 = l).map (·.1)

/-- Whether an instance has captured an access that it translated at fire. -/
def holdsLoc (x : Inst) : Bool := x.caps.any fun q => match q.eff with
  | .globalStore _ _ _ _ _ _ _ | .globalAtomic _ _ _ _ _ _ _ _ | .mload _ _ _ => true
  | _ => false

/-- Block instances of a lease that hold translations. -/
def holders (s : State) (l : Nat) : List (Nat × Nat × Nat) :=
  (leaseCores s l).flatMap fun cid => (s.core cid).tasks.filterMap fun t =>
    t.2.inst.bind fun x => if holdsLoc x then some (cid, t.1, x.id) else none

/-- The RELATCH request of a GEN core (R230, R232). -/
def relatchReq (L : Lease) (l : Nat) : GenReq :=
  { kind := .relatch { kind := 11, value := 0, rin := 0 }, pinned := true, task := 0, inst := 0, slot := 0, lsid := 0, ac := .l,
    gather := false, na := false, elems := [], data := [], osc := none, sc := false, lease := l, gen := L.gen, epoch := L.epoch }

/-- Steps 1 to 3: the entries rewritten, TLBs invalidated, the epoch advanced, RELATCH sent to every GEN core of the lease. -/
def beginShoot (s : State) (fn l va size : Nat) (mig : Option (Nat × Bool)) (change : Lease → Lease) : State :=
  match s.lease l with
  | none => s
  | some L =>
    let held := holders s l
    let drop := fun (t : List TlbEntry) => t.filter fun e =>
      e.lease != l || ! rangesMeet (e.page * (if e.big then 2 ^ 29 else 2 ^ 16)) (if e.big then 2 ^ 29 else 2 ^ 16) va size
    let s := s.modLease l fun L => { change L with epoch := L.epoch + 1 }
    let s := { s with cores := tmap (fun _ c => { c with tlb := drop c.tlb }) s.cores,
                      clusters := tmap (fun _ c => { c with tlb := drop c.tlb }) s.clusters }
    let s := (leaseCores s l).foldl (fun s cid =>
      let c := s.core cid
      let runs := (c.patch.bind s.patch).any fun p => p.st.active
      if runs && c.isPinned && (c.ctx (c.act.getD 0)).role = 1 then s.modCore cid fun c => { c with gen := c.gen ++ [relatchReq L l] } else s) s
    s.modFn fn fun f => { f with shoot := some { lease := l, va := va, size := size, insts := held, mig := mig } }

/-- Step 4: every access translated under an older epoch has performed and every RELATCH has emerged. -/
def shootClear (s : State) (h : Shoot) : Bool :=
  let now := leaseEpoch s h.lease
  (leaseCores s h.lease).all fun cid =>
    let c := s.core cid
    (c.gen.all fun r => r.lease != h.lease || decide (now ≤ r.epoch)) &&
      (c.mangle.queue.all fun q => match q.op with
        | .load _ _ _ => false
        | _ => true) &&
      h.insts.all fun i => i.1 != cid || match (c.task i.2.1).inst with
        | some x => x.id != i.2.2
        | none => true

/-- The lines of C that step 5 sends away. -/
def shotLines (h : Shoot) (c : Core) : List CLine := c.cache.filter fun x => rangesMeet (64 * x.line) 64 h.va h.size

/-- Step 5: dirty bytes written back to the page's old target, then the lines invalidated; in cores put aside too. -/
def shootLines (s : State) (h : Shoot) : State :=
  let s := (leaseCores s h.lease).foldl (fun s cid => (shotLines h (s.core cid)).foldl (fun s x => flushLine s cid x.line) s) s
  let mine := s.victims.filter fun v => (v.2.patch.bind s.patch).any (·.lease = h.lease)
  mine.foldl (fun s v =>
    let s := (shotLines h v.2).foldl (fun s x => if x.dirty = 0 then s else lineOut s x) s
    { s with victims := tset s.victims v.1 ((shotLines h v.2).foldl (fun c x => c.cDrop x.line) v.2) }) s

/-- Whether a write-back of step 5 would stall for undo space. -/
def shootStalls (s : State) (h : Shoot) : Bool :=
  (leaseCores s h.lease).any (fun cid => (shotLines h (s.core cid)).any (lineStalls s)) ||
    s.victims.any fun v => (v.2.patch.bind s.patch).any (·.lease = h.lease) && (shotLines h v.2).any (lineStalls s)

/-- Entries inside a range changed; one that is no longer valid goes. -/
def changeEntries (va size : Nat) (f : Nat → BitVec 64 → BitVec 64) (L : Lease) : Lease :=
  let on := fun (unit : Nat) (t : Table (BitVec 64)) =>
    (tmap (fun k e => if va ≤ k * unit ∧ k * unit < va + size then f (k * unit - va) e else e) t).filter fun e => peV e.2
  { L with big := on (2 ^ 29) L.big, small := on (2 ^ 16) L.small }

/-- Whether a range cuts no leaf in two. -/
def wholeLeaves (L : Lease) (va size : Nat) : Bool :=
  (entriesIn L va size).all fun e => decide (va ≤ e.1) && decide (e.1 + e.2.1 ≤ va + size)

/-- Whether a change leaves the save area of every kernel at work that has one where R314 wants it. -/
def keepsSaves (s : State) (l : Nat) (change : Lease → Lease) : Bool :=
  let t := s.modLease l change
  s.patches.all fun e => e.2.lease != l || ! (hClassS e.2.hdr || hSaves e.2.hdr) || e.2.st = .resident || saveMapped t l e.2.hdr

/-- A command that ends with a shootdown: its first part as it is served, then the rest once everything older has performed. -/
def shootCommand (s : State) (fn : Nat) (start : State) (finish : Shoot → State → State) : State :=
  match (s.fn fn).shoot with
  | none => start
  | some h => if shootClear s h && ! shootStalls s h then finish h (shootLines s h) else s

/-- UNMAP (R228, R230, R314). -/
def execUnmap (s : State) : Host.Outcome State Fault Refusal :=
  .next (onLease s 2 fun fn l L a => match a with
    | .unmap va size =>
      let change := changeEntries va size fun _ _ => 0
      shootCommand s fn
        (if ! wholePages (2 ^ 16) va size ∨ ! wholeLeaves L va size then answer s fn 3 []
         else if ! keepsSaves s l change then answer s fn 4 []
         else beginShoot s fn l va size none change)
        fun _ s => answer (rewait s l) fn 0 []
    | _ => s)

/-- The permission bits of an entry set (R227). -/
def setPerms (r w x recov : Bool) (e : BitVec 64) : BitVec 64 :=
  (e &&& ~~~0x78#64) ||| BitVec.ofNat 64 (8 * r.toNat + 16 * w.toNat + 32 * x.toNat + 64 * recov.toNat)

/-- PROTECT (R228, R230, R314): a recoverable system page is refused (R227). -/
def execProtect (s : State) : Host.Outcome State Fault Refusal :=
  .next (onLease s 3 fun fn l L a => match a with
    | .protect va size r w x recov =>
      let change := changeEntries va size fun _ e => setPerms r w x recov e
      shootCommand s fn
        (if ! wholePages (2 ^ 16) va size ∨ ! wholeLeaves L va size then answer s fn 3 []
         else if (recov && (entriesIn L va size).any fun e => peDest e.2.2 = 1 || peDest e.2.2 = 3) || ! keepsSaves s l change then
           answer s fn 4 []
         else beginShoot s fn l va size none change)
        fun _ s => answer s fn 0 []
    | _ => s)

/-- An entry with MIG set. -/
def setMig (e : BitVec 64) : BitVec 64 := e ||| 0x100#64

/-- An entry at its new target, with MIG clear. -/
def retarget (pa : Nat) (tier : Bool) (e : BitVec 64) : BitVec 64 :=
  mkEntry 0 pa 0 false tier (peRec e) (peX e) (peW e) (peR e) true

/-- The lines of a page moved to its new target: old and new device addresses. -/
def movedLines (L : Lease) (pa : Nat) (tier : Bool) (va size : Nat) : List (Nat × Nat × Bool) :=
  (entriesIn L va size).flatMap fun e => (List.range (e.2.1 / 64)).filterMap fun i =>
    let at' := fun (t : Bool) (a : Nat) => if t then tierPhys L a else hbmPhys L a
    match at' (peTier e.2.2) (pePa e.2.2 + 64 * i), at' tier (pa + (e.1 - va) + 64 * i) with
    | some x, some y => some (x, y, peRec e.2.2)
    | _, _ => none

/-- MIGRATE's second half (R228): the copy, the new entries, the second shootdown. -/
def migrateCopy (fn : Nat) (h : Shoot) (pa : Nat) (tier : Bool) (s : State) : State :=
  match s.lease h.lease with
  | none => s
  | some L =>
    let ls := movedLines L pa tier h.va h.size
    if ls.any fun x => undoStalls s x.2.1 x.2.2 s.sl.cur then s
    else
      let data := ls.map fun x => (x, s.mem.read x.1 64, s.poison.contains (x.1 / 64))
      let s := data.foldl (fun s d =>
        let s := devWrite (chargePa s d.1.1 64) d.1.2.1 d.2.1 d.1.2.2 s.sl.cur
        if d.2.2 then { s with poison := d.1.2.1 / 64 :: s.poison } else s) s
      beginShoot s fn h.lease h.va h.size none (changeEntries h.va h.size fun o e => retarget (pa + o) tier e)

/-- MIGRATE (R228, R230): MIG under a shootdown, the copy, the new entry, and the shootdown again. -/
def execMigrate (s : State) : Host.Outcome State Fault Refusal :=
  .next (onLease s 4 fun fn l L a => match a with
    | .migrate va size pa tier =>
      let start :=
        let es := entriesIn L va size
        if ! wholePages (2 ^ 16) va size ∨ ! wholeLeaves L va size ∨ es.any (fun e => (pa + (e.1 - va)) % e.2.1 ≠ 0) then answer s fn 3 []
        else if es.any fun e => peDest e.2.2 ≠ 0 then answer s fn 4 []
        else match reachable s L tier pa size with
          | none => answer s fn 4 []
          | some N => beginShoot (s.modLease l fun _ => N) fn l va size (some (pa, tier)) (changeEntries va size fun _ e => setMig e)
      shootCommand s fn start fun h s => match h.mig with
        | some (pa, tier) => migrateCopy fn h pa tier s
        | none => answer (rewait s l) fn 0 []
    | _ => s)

/-! ### Debugging and profiling (R341, R364) -/

/-- DEBUG (R341, R373): a VF needs its DEBUG permission. -/
def execDebug (s : State) : Host.Outcome State Fault Refusal :=
  .next (onLease s 5 fun fn l _ a => match a with
    | .debug on =>
      if fn ≠ 0 ∧ ! (s.fn fn).perms.getLsbD 6 then answer s fn 2 []
      else answer (s.modLease l fun L => { L with debug := on }) fn 0 []
    | _ => s)

/-- DRESUME (R341): a debug stop ends. -/
def execDresume (s : State) : Host.Outcome State Fault Refusal :=
  .next (onLease s 6 fun fn l _ a => match a with
    | .dresume =>
      let go := fun (p : Patch) =>
        if p.lease != l then p
        else if p.st = .debugStop then { p with st := .running, idle := 0 }
        else if (p.st = .evicted || p.st = .saving) && p.was = .debugStop then { p with was := .running }
        else p
      answer { s with patches := tmap (fun _ p => go p) s.patches } fn 0 []
    | _ => s)

/-- PROFOPEN (R364): the buffer must lie on volatile DEST 0 pages with W. -/
def execProfopen (s : State) : Host.Outcome State Fault Refusal :=
  .next (onLease s 7 fun fn l _ a => match a with
    | .profopen va size =>
      let ok := decide (0 < size) && decide (va + size ≤ 2 ^ 48) && stripMapped s l va size fun x e => peW e && match x with
        | .dev _ r => ! r
        | _ => false
      if ok then answer (s.modLease l fun L => { L with prof := some { va := va, size := size, next := 0, lost := 0 } }) fn 0 []
      else answer s fn 4 []
    | _ => s)

/-- PROFCLOSE (R364, R372). -/
def execProfclose (s : State) : Host.Outcome State Fault Refusal :=
  .next (onLease s 8 fun fn l _ a => match a with
    | .profclose => answer (s.modLease l fun L => { L with prof := none }) fn 0 []
    | _ => s)

/-! ### Peers (R377, R378) -/

/-- Whether an out-channel of a patch core of the lease can be bound: its remote bit is set and its route is PEER. -/
def peerChannel (s : State) (l px py out : Nat) : Bool :=
  (leaseCores s l).any fun cid =>
    let c := s.core cid
    c.px = px && c.py = py && (c.cfg 8 (16 + out)).testBit 11 && routeKind (c.route out) = 4

/-- Whether the placer has the patch of an out-channel in hand. -/
def peerMoving (s : State) (l px py : Nat) : Bool :=
  (leaseCores s l).any fun cid => (s.core cid).px = px && (s.core cid).py = py && ((s.core cid).patch.bind s.patch).any (·.stop.isSome)

/-- PEERBIND (R378): while the patch is being moved it waits (R388). -/
def execPeerbind (s : State) : Host.Outcome State Fault Refusal :=
  .next (onLease s 9 fun fn l L a => match a with
    | .peerbind px py out device rlease rx ry rin =>
      match tfind s.sl.routes device with
      | none => answer s fn 3 []
      | some port =>
        let rest := L.binds.filter fun b => ! (b.px = px && b.py = py && b.out = out)
        if peerMoving s l px py then s
        else if ! peerChannel s l px py out ∨ 16 ≤ rin then answer s fn 3 []
        else if 256 ≤ rest.length then answer s fn 4 []
        else
          let b : PeerBind := { px := px, py := py, out := out, device := device, lease := rlease, rx := rx, ry := ry, rin := rin, port := port }
          answer (s.modLease l fun L => { L with binds := rest ++ [b] }) fn 0 []
    | _ => s)

/-- PEERUNBIND (R372). -/
def execPeerunbind (s : State) : Host.Outcome State Fault Refusal :=
  .next (onLease s 10 fun fn l _ a => match a with
    | .peerunbind px py out =>
      answer (s.modLease l fun L => { L with binds := L.binds.filter fun b => ! (b.px = px && b.py = py && b.out = out) }) fn 0 []
    | _ => s)

/-- PAIR (R372, R377). -/
def execPair (s : State) : Host.Outcome State Fault Refusal :=
  .next (match serving s 34 with
    | none => s
    | some (fn, _) =>
      if fn ≠ 0 then answer s fn 2 []
      else onLease s 34 fun fn l _ a => match a with
        | .pair device rlease rgen =>
          if (tfind s.sl.routes device).isNone then answer s fn 3 []
          else answer (s.modLease l fun L => { L with pair := some (device, rlease, BitVec.ofNat 8 rgen) }) fn 0 []
        | _ => s)

/-! ### The window and what is read out (R337, R359, R372, R383) -/

/-- WINDOW (R372). -/
def execWindow (s : State) : Host.Outcome State Fault Refusal :=
  .next (onLease s 11 fun fn l _ a => match a with
    | .window pa => if pa % 65536 = 0 then answer (s.modFn fn fun f => { f with win := some (l, pa) }) fn 0 [] else answer s fn 3 []
    | _ => s)

/-- FAULTS (R337, R372): the records, oldest first, to a virtual address; the count in RSP. -/
def execFaults (s : State) : Host.Outcome State Fault Refusal :=
  .next (onLease s 12 fun fn l L a => match a with
    | .faults va => answerAt s fn l va (L.faults.flatMap fun r => natBytes 64 r.toNat) (num 4 L.faultCount.toNat)
    | _ => s)

/-- The two signatures over bytes (R383). -/
def signatures (bs : List Byte) : List Byte :=
  ((List.range 384).map fun i => Config.sign false bs i) ++ (List.range 7856).map fun i => Config.sign true bs i

/-- The serial number and stepping code of a report (R1). -/
def identBytes : List Byte := (List.range 16).map Config.ident

/-- A nonce of 32 bytes. -/
def nonceBytes (n : List Byte) : List Byte := (n ++ List.replicate 32 0).take 32

/-- A meter report (R359). -/
def meterReport (s : State) (o : Nat) (nonce : List Byte) : List Byte :=
  let w := s.ownerOf o
  let body := num 4 0x4D545231 ++ num 1 o ++ num 3 0 ++ identBytes ++ num 8 s.trust.reports ++ num 8 w.epoch ++ num 8 s.time ++
    num 4 s.sl.s.toNat ++ nonceBytes nonce ++ num 4 0 ++ (List.range 47).flatMap fun k => num 8 (tgetD w.meters k 0)
  body ++ signatures body

/-- REPORT (R359): of the owner of the VF that asks. -/
def execReport (s : State) : Host.Outcome State Fault Refusal :=
  .next (onLease s 13 fun fn l _ a => match a with
    | .report o va nonce =>
      if fn ≠ 0 ∧ (s.fn fn).owner ≠ o then answer s fn 2 []
      else
        let out := meterReport s o nonce
        let t := answerAt s fn l va out []
        if outputOk s l va out.length && ! rangeStalls s l va out.length then
          { t with trust := { t.trust with reports := t.trust.reports + 1 } }
        else t
    | _ => s)

/-- An attestation report (R383). -/
def attestation (s : State) (nonce : List Byte) : List Byte :=
  let body := num 4 0x41545331 ++ identBytes ++ nonceBytes nonce ++
    ((List.range 5).flatMap fun k => natBytes 48 (tgetD s.trust.meas k 0).toNat) ++ (List.range 3).flatMap fun k => num 4 (Config.fusedMin k)
  body ++ signatures body

/-- ATTEST (R383). -/
def execAttest (s : State) : Host.Outcome State Fault Refusal :=
  .next (onLease s 14 fun fn l _ a => match a with
    | .attest va nonce => answerAt s fn l va (attestation s nonce) []
    | _ => s)

/-! ### Configuration by the PF (R82, R373 to R375) -/

/-- A queue closed (R97): its packets in the pipeline and those still posted in its ring complete ABORTED. -/
def closeQueue (s : State) (q : Nat) : State :=
  let s := abortRing s q fun _ => true
  let s := (s.pipe.filter (·.queue = q)).foldl (fun s p =>
    let s := abortPkt s p
    match p.patch with
    | some pt => if (s.patch pt).any (·.pk = p.num) then dropPatch s pt else s
    | none => s) s
  s.modQueue q fun w => { w with vf := 0, posters := [] }

/-- The packets of a closed queue finished in their order (R98): none while one waits. DESIGN CHOICE (assumption 101): a queue that opens
again finishes them first, and a record that its ring has no room for is lost. -/
def flushQueue (s : State) (q : Nat) : Option State :=
  (sortBy doneBefore (s.pipe.filter (·.queue = q))).foldlM (fun s p => finishPkt s p) s

/-- QCONF (R82, R85): opens, closes or reconfigures a queue. A queue that changes its VF or its size is closed first; one that opens
starts with empty rings. -/
def execQconf (s : State) : Host.Outcome State Fault Refusal :=
  .next (pfOnly s 32 fun fn a => match a with
    | .qconf q vf owner prio size posters =>
      let w := s.queue q
      if 1024 ≤ q ∨ s.numVfs < vf ∨ 256 ≤ owner ∨ 8 ≤ prio ∨ ! ringSizeOk 64 size ∨ 16 < posters.length ∨ posters.any (4096 ≤ ·) then
        answer s fn 3 []
      else if w.isOpen ∧ w.vf = vf ∧ w.size = size then
        answer (s.modQueue q fun w => { w with owner := owner, prio := prio, posters := posters }) fn 0 []
      else
        let s := if w.isOpen then closeQueue s q else s
        if vf = 0 then answer s fn 0 []
        else match flushQueue s q with
          | none => s
          | some s => answer (s.modQueue q fun _ => { vf := vf, owner := owner, prio := prio, size := size, posters := posters }) fn 0 []
    | _ => s)

/-- What the other VFs' configurations hold. -/
def othersHold (s : State) (vf : Nat) (f : Func → Nat) : Nat :=
  ((s.funcs.filter fun e => e.1 != vf && e.2.configured).map fun e => f e.2).foldl (· + ·) 0

/-- VFCONF (R373). -/
def execVfconf (s : State) : Host.Outcome State Fault Refusal :=
  .next (pfOnly s 33 fun fn a => match a with
    | .vfconf =>
      let b := cmdByte s fn
      let half := fun k => b k + 256 * b (k + 1)
      let vf := b 4
      let peers := (List.range 18).map fun k => b (24 + k)
      let crowded := (List.range 18).any fun k => decide (64 < peers.getD k 0 + othersHold s vf fun f => f.peer.getD k 0)
      if vf = 0 ∨ s.numVfs < vf ∨ 3048 < half 6 ∨ 1520 < half 8 + othersHold s vf (·.chans) ∨ 11648 < half 10 + othersHold s vf (·.exts) ∨
          crowded then answer s fn 3 []
      else if half 6 < vfTotal s vf none (fun L => L.w * L.h) ∨ half 8 < vfTotal s vf none (·.chans.length) ∨
          half 10 < vfTotal s vf none (·.exts.length) then answer s fn 4 []
      else
        answer (s.modFn vf fun f =>
          { f with configured := true, owner := b 5, cores := half 6, chans := half 8, exts := half 10,
                   perms := BitVec.ofNat 8 (b 12 % 128), credits := [half 16, half 18, half 20], peer := peers }) fn 0 []
    | _ => s)

/-- OWNER (R374). -/
def execOwner (s : State) : Host.Outcome State Fault Refusal :=
  .next (pfOnly s 38 fun fn a => match a with
    | .owner =>
      let o := cmdByte s fn 4
      let weight := cmdByte s fn 5
      let hash := BitVec.ofNat 384 (bitsOf (s.fn fn).served 64 384)
      let sets := cmdByte s fn 6 % 2 = 1
      let key := (s.ownerOf o).key
      if weight = 0 then answer s fn 3 []
      else if sets ∧ key.isSome ∧ key ≠ some hash then answer s fn 4 []
      else answer (s.modOwner o fun w => { w with weight := weight, key := if sets then some hash else w.key }) fn 0 []
    | _ => s)

/-- PWRCAP (R375). -/
def execPwrcap (s : State) : Host.Outcome State Fault Refusal :=
  .next (pfOnly s 39 fun fn a => match a with
    | .pwrcap =>
      let w := cmdByte s fn 4 + 256 * cmdByte s fn 5
      if (w = 0 ∨ (1200 ≤ w ∧ w ≤ 2600)) ∧ bitsOf (s.fn fn).served 48 464 = 0 then answer { s with pwrCap := w } fn 0 []
      else answer s fn 3 []
    | _ => s)

/-! ### The seal domain (R301, R379, R380) -/

/-- DOMAIN (R301, R377, R379): interval 1 begins, interval 0 counts as sealed. A device belongs to one domain. -/
def execDomain (s : State) : Host.Outcome State Fault Refusal :=
  .next (pfOnly s 36 fun fn a => match a with
    | .domain ident coordinator device members routes =>
      if s.sl.formed then answer s fn 4 []
      else if 65536 ≤ ident ∨ 4096 < members.length ∨ members.any (4096 ≤ ·) ∨ ! members.contains device ∨ ! members.contains coordinator ∨
          routes.any (fun r => decide (4096 ≤ r.1) || decide (18 ≤ r.2)) then answer s fn 3 []
      else
        let s := { s with cores := tmap (fun _ c => { c with rin := 1 }) s.cores, snaps := [stripSnap s 0] }
        answer { s with sl := { s.sl with
          s := 0, cur := 1, high := 1, base := 1, formed := true, domain := BitVec.ofNat 16 ident, device := device, coordinator := coordinator,
          members := members, routes := routes.foldl (fun t r => tset t r.1 r.2) [], lastAdvance := s.time } } fn 0 []
    | _ => s)

/-- DREMOVE (R380): on the coordinator, of another device of the domain: ROLLBACK goes to the devices that remain, pairings with the
removed one are dropped. -/
def execDremove (s : State) : Host.Outcome State Fault Refusal :=
  .next (pfOnly s 37 fun fn a => match a with
    | .dremove device =>
      if ! s.sl.formed ∨ ! isCoordinator s then answer s fn 4 []
      else if device = s.sl.device ∨ ! s.sl.members.contains device then answer s fn 3 []
      else
        let s := { s with
          sl := { s.sl with members := s.sl.members.filter (· != device), rolling := some s.sl.s, rolledFrom := [] },
          leases := tmap (fun _ L => { L with pair := L.pair.filter (·.1 != device), binds := L.binds.filter (·.device != device) }) s.leases }
        answer (broadcast s 6 s.sl.s) fn 0 []
    | _ => s)

/-! ### Migration of a lease (R351, R352) -/

/-- Whether a lease's class R kernels let it leave: its destination is in the domain, or none is at work. -/
def retentionLeaves (s : State) (l device : Nat) : Bool :=
  s.sl.members.contains device || s.patches.all fun e => e.2.lease != l || hClassS e.2.hdr || e.2.st = .resident

/-- Word to a lease's partner that it is elsewhere now, and the record that forwards what still comes here (R291, R352). -/
def leaveForward (s : State) (l : Nat) (L : Lease) (device newLease newGen : Nat) : State :=
  match L.pair with
  | none => s
  | some q =>
    { s with
      peerOut := s.peerOut ++ [peerNote s l q.1 q.2.1 (.retarget device newLease newGen)],
      forwards := { lease := l, gen := L.gen, device := device, newLease := newLease, newGen := newGen, far := q.1, next := 0 } :: s.forwards }

/-- The lease has left for its new device: its patches, packets, waiters, saves and undo entries with it; with the VF's last lease its
queues. What stays behind is rinsed. -/
def leaseLeaves (s : State) (l : Nat) (L : Lease) : State :=
  let gone := s.patches.filter (·.2.lease = l)
  let s := { s with
    patches := s.patches.filter (·.2.lease != l), images := s.images.filter fun e => ! gone.any (·.1 = e.1),
    saves := s.saves.filter fun v => ! gone.any (·.1 = v.pt), undo := s.undo.filter (·.lease != l),
    pipe := s.pipe.filter (·.lease != l), waiters := s.waiters.filter (·.lease != l) }
  let last := (s.leases.filter fun e => e.2.vf = L.vf).length = 1
  let s := if last then { s with queues := tmap (fun _ q => if q.vf = L.vf then {} else q) s.queues,
                                 pipe := s.pipe.filter fun p => (s.queue p.queue).vf != L.vf } else s
  (s.modFn L.vf fun f => { f with out := false }).modLease l fun L =>
    { L with st := .rinsing, want := none, rinses := rectCids s (L.x, L.y, L.w, L.h), pk := none }

/-- The patches of a lease that stand on cores. -/
def leasePatches (s : State) (l : Nat) : List (Nat × Patch) := s.patches.filter fun e => e.2.lease = l && e.2.st != .evicted

/-- The patches of a lease off their cores: those in fill go back to place, the others are evicted. -/
def evictLease (s : State) (l : Nat) : State :=
  (leasePatches s l).foldl (fun s e => if e.2.st = .loaded then backToPlace s e.1 e.2.pk else evictPatch s e.1 e.2 false) s

/-- Whether nothing holds a lease back: no patch stands on cores or waits for its save, no escape is held, no class R kernel has to
retire. -/
def mayLeave (s : State) (l device : Nat) : Bool :=
  (leasePatches s l).isEmpty && ! (s.escapes.any fun e => e.lease = some l) && retentionLeaves s l device &&
    s.patches.all fun e => e.2.lease != l || e.2.saveDue.isNone

/-- LMIGRATE (R351, R352): loans recalled, queues stopped, patches stopped and evicted, escapes waited for; then the lease leaves. -/
def execLmigrate (s : State) : Host.Outcome State Fault Refusal :=
  .next (match serving s 35 with
    | none => s
    | some (fn, _) =>
      if fn ≠ 0 then answer s fn 2 []
      else onLease s 35 fun fn l L a => match a with
        | .lmigrate device newLease newGen =>
          if (tfind s.sl.routes device).isNone then answer s fn 3 []
          else if s.sl.rolling.isSome then s
          else
            let s := recallAll (s.modFn L.vf fun f => { f with out := true }) (.lmigrate, 0) l L
            let stops := (leasePatches s l).filter fun e => e.2.st != .loaded
            if ((s.lease l).any fun L => ! L.loans.isEmpty) || ! storeRoom s (stops.map (·.2)) then s
            else placerStep s (.lmigrate, 0) stops fun s =>
              let s := evictLease s l
              if mayLeave s l device then
                answer (leaseLeaves (leaveForward s l L device newLease newGen) l L) fn 0 (num 2 newLease ++ num 1 newGen)
              else s
        | _ => s)

end Sys2Proof.Machine
end

