-- ==== Sys2Proof/Machine/Firmware.lean ====
section
/-! DEFINITION. The management controller: the two owner messages (R385), firmware update (R384) under the trust rules (R381, R382), and the
module cold reset (R388). -/

namespace Sys2Proof.Machine

/-! ### Owner messages (R385) -/

/-- A field of an owner message, little-endian. -/
def msgField (m : List Byte) (off len : Nat) : Nat := bytesNat ((m.drop off).take len)

/-- Whether an owner message is malformed: its length, its CMD byte, its reserved bytes, NEWKEY of METER_RESET. -/
def msgBad (m : List Byte) (cmd : Nat) : Bool :=
  m.length != 828 || msgField m 0 1 != cmd || msgField m 2 2 != 0 || (cmd == 1 && msgField m 396 48 != 0)

/-- Whether the key is the registered one and the signature verifies over bytes 0 to 443 and the module's serial number. -/
def msgSigned (m : List Byte) (key : BitVec 384) : Bool :=
  let k := (m.drop 12).take 384
  Config.sha384 k == key && Config.rsaOk k (m.take 444 ++ (List.range 16).map Config.serial) ((m.drop 444).take 384)

/-- The completion code of an owner message. -/
def msgCode (s : State) (m : List Byte) (cmd : Nat) : Nat :=
  if msgBad m cmd then 4
  else
    let w := s.ownerOf (msgField m 1 1)
    match w.key with
    | none => 3
    | some key => if ! msgSigned m key then 1 else if msgField m 4 8 ≠ w.epoch then 2 else 0

/-- An owner message acted on: a refused one changes nothing; an accepted one advances the epoch by 1. -/
def ownerMsg (s : State) (m : List Byte) (cmd : Nat) (f : Owner → Owner) : State :=
  let code := msgCode s m cmd
  let s := { s with mctpCode := code }
  if code = 0 then s.modOwner (msgField m 1 1) fun w => { f w with epoch := (w.epoch + 1) % 2 ^ 64 } else s

/-- METER_RESET (R358, R385). -/
def execMeterReset (s : State) : Host.Outcome State Fault Refusal :=
  .next (match s.mgmtIn with
    | some (.meterReset m) => ownerMsg s m 1 fun w => { w with meters := [], fine := [] }
    | _ => s)

/-- KEYROLL (R385): NEWKEY takes the place of the owner's key hash. -/
def execKeyroll (s : State) : Host.Outcome State Fault Refusal :=
  .next (match s.mgmtIn with
    | some (.keyroll m) => ownerMsg s m 2 fun w => { w with key := some (BitVec.ofNat 384 (msgField m 396 48)) }
    | _ => s)

/-! ### Images (R381, R382) -/

/-- Whether an image may run: both signatures, and a version not below the fused minimum (R382). -/
def imageOk (k : Nat) (i : Image) : Bool :=
  Config.rsaOk [] i.bytes i.rsa && Config.slhOk i.bytes i.slh && decide (Config.fusedMin k ≤ i.version)

/-- A digest as the bytes that a measurement joins. -/
def digestBytes (d : BitVec 384) : List Byte := natBytes 48 d.toNat

/-- A measurement register extended by an image (R381). -/
def extend (t : Trust) (k : Nat) (bytes : List Byte) : Trust :=
  { t with meas := tset t.meas k (Config.sha384 (digestBytes (tgetD t.meas k 0) ++ digestBytes (Config.sha384 bytes))) }

/-- FIRMWARE_TRANSFER (R384): the image is staged where it verifies; the code is 0, else 1. -/
def execFirmwareTransfer (s : State) : Host.Outcome State Fault Refusal :=
  .next (match s.mgmtIn with
    | some (.firmwareTransfer k i) =>
      if k ≤ 2 && imageOk k i then { s with trust := { s.trust with staged := tset s.trust.staged k i }, mctpCode := 0 }
      else { s with mctpCode := 1 }
    | _ => s)

/-! ### Activation (R384) -/

/-- The patches that stand on cores. -/
def onCores (s : State) : List (Nat × Patch) := s.patches.filter fun e => e.2.st != .evicted

/-- Every patch off its cores: those in fill go back to place, the others are evicted. -/
def evictAll (s : State) : State :=
  (onCores s).foldl (fun s e => if e.2.st = .loaded then backToPlace s e.1 e.2.pk else evictPatch s e.1 e.2 false) s

/-- The quiescent point of an activation: every patch stopped and evicted, the next SEALED waited for. -/
def quiesce (s : State) (k : Nat) : State :=
  let s := { s with quiesced := true }
  let stops := (onCores s).filter fun e => e.2.st != .loaded
  if ! storeRoom s (stops.map (·.2)) then s
  else placerStep s (.firmwareActivate, 0) stops fun s =>
    let s := evictAll s
    if (onCores s).isEmpty then requestSeal { s with trust := { s.trust with activating := some (k, s.sl.cur) } } false else s

/-- Every evicted patch restored where it fits; a VF switched out keeps its own evicted (R353). -/
def restoreAll (s : State) : State :=
  (s.patches.filter fun e => e.2.st = .evicted && ! vfOut s (((s.lease e.2.lease).map (·.vf)).getD 0)).foldl (fun s e =>
    match s.patch e.1 with
    | none => s
    | some p => match placeFor s e.1 p with
      | some (x, y, n) => restorePatch s e.1 p x y n
      | none => s) s

/-- The staged image of a component loaded: the measurement is extended, the staging area given free. -/
def loadStaged (s : State) (k : Nat) : State :=
  match tfind s.trust.staged k with
  | some i => { s with trust := { extend s.trust (k + 1) i.bytes with staged := terase s.trust.staged k } }
  | none => s

/-- FIRMWARE_ACTIVATE (R384): component 2 at once; 0 and 1 at a quiescent point, in as many steps as the patches and the
next SEALED take; not during a seal or a rollback. -/
def execFirmwareActivate (s : State) : Host.Outcome State Fault Refusal :=
  .next (match s.mgmtIn with
    | some (.firmwareActivate k) =>
      if (tfind s.trust.staged k).isNone ∨ 2 < k then { s with mctpCode := 1 }
      else
        let again := { s with inputs := s.inputs ++ [{ step := .firmwareActivate, mgmt := some (.firmwareActivate k) }] }
        match s.trust.activating with
        | none =>
          if s.sl.sealing.isSome ∨ s.sl.rolling.isSome then again
          else if k = 2 then { loadStaged s k with mctpCode := 0 }
          else quiesce again k
        | some (j, r) =>
          if j ≠ k then again
          else if ! s.patches.all (fun e => e.2.st = .evicted) then quiesce again k
          else if rinGe s.sl.s r then
            let s := loadStaged { s with trust := { s.trust with activating := none } } k
            { restoreAll { s with quiesced := false } with mctpCode := 0 }
          else again
    | _ => s)

/-! ### Module cold reset (R388) -/

/-- The trust state after the boot ROM has measured and verified the three images (R381, R382). -/
def boot (images : List Image) : Trust :=
  let t := extend {} 0 Config.bootRom
  let t := (List.range 3).foldl (fun t k => match images[k]? with
    | some i => extend t (k + 1) i.bytes
    | none => t) t
  let t := extend t 4 Config.settings
  let ok := (List.range 3).all fun k => (images[k]?).any (imageOk k)
  { t with booted := ok, failed := ! ok }

/-- COLD_RESET (R112, R381, R388): the machine of reset with its images measured; a device whose images do not verify stops. Host and peer
memory stand outside the module. DESIGN CHOICE (assumption 81): the reset finds the strip, and every position, whole (R15). -/
def execColdReset (s : State) : Host.Outcome State Fault Refusal :=
  .next (match s.mgmtIn with
    | some (.coldReset images) =>
      let t := boot images
      { State.reset with trust := t, stopped := t.failed, hostMem := s.hostMem, peerMem := s.peerMem, inputs := s.inputs, tick := s.tick }
    | _ => s)

end Sys2Proof.Machine
end

