-- ==== Sys2Proof/Machine/Cycle.lean ====
section
/-! DEFINITION. What goes on beside the steps: device time and island clocks (R346, R386), the watchdog's counts (R168), cycle classes
and counters (R360, R361), the meters that run with time (R358). Then what a step needs: the word that a grant fires, the next input, and
the staging of one instruction. -/

namespace Sys2Proof.Machine

/-! ### Time (R346, R386) -/

/-- Every island's clock counts on. -/
def islandsTick (s : State) : State :=
  { s with islands := (List.range 32).foldl (fun t k =>
      tmod t k {} fun i => { i with cycles := (i.cycles + Config.stepCycles s.tick k) % 2 ^ 64 }) s.islands }

/-- The cycles that a core's island passes in this step. -/
def stepOn (s : State) (cid : Nat) : Nat := Config.stepCycles s.tick (islandXY (xyOf s cid).1 (xyOf s cid).2)

/-! ### The watchdog (R168) -/

/-- Whether a task of a patch waits in `tagw`, `waitm` or `waitb`. -/
def patchWaits (s : State) (pt : Nat) : Bool :=
  (patchCores s pt).any fun cid => (List.range 8).any fun k => match ((s.core cid).task k).inst with
    | some x => waitsQuietly s cid k x
    | none => false

/-- The watchdog of a running patch counts on, on the clock of its core at (0, 0). -/
def watchdog (s : State) : State :=
  { s with patches := tmap (fun pt p =>
      if p.st = .running ∧ ! patchWaits s pt then { p with idle := p.idle + stepOn s (coreXY s p.x p.y) } else p) s.patches }

/-- An out-channel notes since when it has been full. -/
def noteFull (now : Nat) (c : Core) : Core :=
  { c with outs := tmap (fun j (o : OutCh) =>
      if 0 < c.outDepth j ∧ c.outDepth j ≤ o.buf.length ∧ o.spill.isNone then { o with fullSince := some (o.fullSince.getD now) }
      else { o with fullSince := none }) c.outs }

/-! ### Cycle classes (R360, R361) -/

/-- Cycles split in `parts`, each share a free value. -/
def split (s : State) (cid : Nat) : Nat → Nat → Nat → List Nat
  | _, 0, _ => []
  | _, 1, n => [n]
  | ev, k + 1, n =>
    let x := Config.counted s.tick cid ev % (n + 1)
    x :: split s cid (ev + 1) k (n - x)

/-- What the 48 events add for `n` cycles: the residency; the five classes; codes 0 to 20 of WAIT_OPERAND and of BLOCKED_OUT. -/
def eventAdds (s : State) (cid n : Nat) : List Nat :=
  let classes := split s cid 1 5 n
  n :: classes ++ split s cid 6 21 (classes.getD 3 0) ++ split s cid 27 21 (classes.getD 2 0)

/-- Events added to the counter set of the active context, saturating at 48 bits. -/
def Core.count (c : Core) (adds : List Nat) : Core :=
  match c.act with
  | none => c
  | some x =>
    { c with counters := tmod c.counters x [] fun t =>
        (List.range 48).map fun e => (e, Nat.min (tgetD t e 0 + adds.getD e 0) (2 ^ 48 - 1)) }

/-! ### Meters that run with time (R358) -/

/-- An amount gathered for a meter whose unit is `unit` of it. -/
def accrue (s : State) (o m amount unit : Nat) : State :=
  let w := s.ownerOf o
  let n := tgetD w.fine m 0 + amount
  charge (s.modOwner o fun w => { w with fine := tset w.fine m (n % unit) }) o m (n / unit)

/-- The cores of a rectangle. -/
def area (w h : Nat) : Nat := w * h

/-- CORE_LEASED: the cores of a lease's rectangle; those of a loan that stands count to the borrower. -/
def leasedTime (dt : Nat) (s : State) (L : Lease) : State :=
  let lent := (L.loans.filter (·.rinsed)).foldl (fun n l => n + area l.w l.h) 0
  let s := accrue s L.owner 0 (dt * (area L.w L.h - lent)) 1000
  (L.loans.filter (·.rinsed)).foldl (fun s l => accrue s l.borrower 0 (dt * area l.w l.h) 1000) s

/-- One core that holds a patch: its counters, CORE_ACTIVE, the granules of its roles. -/
def coreTime (dt : Nat) (s : State) (cid : Nat) (c : Core) : State :=
  match c.patch.bind s.patch with
  | none => s
  | some p =>
    let o := leaseOwner s p.lease
    let s := if p.st.active && c.act.isSome then
        let n := stepOn s cid
        let adds := eventAdds s cid n
        let isl := islandXY (xyOf s cid).1 (xyOf s cid).2
        let busy := n - adds.getD 5 0
        let s := (s.setCore cid (noteFull (cyclesOf s cid) ((c.count adds).sampleFill n))).modOwner o fun w =>
          { w with active := tmod w.active isl 0 (· + busy) }
        accrue s o 1 (busy * 1000000 / Nat.max 1 (tgetD s.islands isl {}).freq) 1000000
      else s
    let w := c.pleat.word
    [(9, plG w), (10, plT w), (11, plS w), (12, c.cGran)].foldl (fun s r => accrue s o r.1 (dt * r.2) 1000) s

/-- What passes with one step, whatever the step does. -/
def clock (s : State) : State :=
  let dt := Config.stepTime s.tick
  let s := watchdog (islandsTick { retryHeld (retryPosted s) with time := (s.time + dt) % 2 ^ 64 })
  let s := (s.leases.filter fun e => e.2.st != .granting).foldl (fun s e => leasedTime dt s e.2) s
  let s := s.cores.foldl (fun s e => coreTime dt s e.1 (s.core e.1)) s
  { s with tick := s.tick + 1 }

/-! ### What a grant fires -/

/-- The instance that a grant names. -/
def grantInst (s : State) (g : Grant) : Option Inst :=
  match g.task with
  | some k => ((s.core g.cid).task k).inst.filter (·.id = g.inst)
  | none => (s.core g.cid).pinst.find? (·.id = g.inst)

/-- The instruction that a grant fires: the decoded word of its slot; none where the instance is gone. -/
def grantInstr (s : State) (g : Grant) : Option Instr := (grantInst s g).bind fun x => if g.slot < x.code.length then x.at g.slot else none

/-- Whether a step from outside can be given: a well-formed one with no instruction word. -/
def Input.ok (i : Input) : Bool := i.step.wf && ! i.step.isWord

/-- What an input brings, put where its step finds it. -/
def bring (s : State) (i : Input) : State :=
  { s with pkSel := i.pk, cmdIn := i.cmd, msgIn := i.msg, mgmtIn := i.mgmt, timerIn := i.timer, cur := none }

/-! ### Staging one instruction (Machine/Step.lean) -/

/-- A lease of one core in the corner of the grid. -/
def stageLease : Lease :=
  { st := .granted, gen := 1, vf := 1, owner := 0, x := 0, y := 0, w := 1, h := 1, chans := [0], exts := [], big := [], small := [],
    epoch := 0, hemlint := 0, stalelint := 0, rollbacks := 0, undoStalls := 0, denied := 0, faults := [], faultCount := 0, debug := false,
    prof := none, binds := [], pair := none, loans := [], reqQueue := 0, pk := none, rinses := [], want := none }

/-- A running patch of one core. -/
def stagePatch : Patch :=
  { lease := 0, pk := 0, queue := 0, ptag := 0, x := 0, y := 0, w := 1, h := 1, hdr := [], obj := 0, crc := 0, st := .running, prio := 0,
    keep := false, seed := 0, perms := 0xFF, reqs := [], latched := none, ctx := 0, bars := [], lbars := [],
    retention := 0, saveRin := 0, launched := 0, ingested := 0, idle := 0, fault := none, extra := 0, sealpt := false,
    args := [], host := none, loan := none, retireRin := none, ahead := false, was := .running, words := 0 }

/-- A slot whose operands have come, all zero, and whose predicate matches. -/
def stageSlot (w : IWord) : SlotSt :=
  let p : Value := match headOfWord w with
    | some h => if h.pm = .onFalse then 0 else 1
    | none => 0
  { a := some (.val 0), b := some (.val 0), c := some (.val 0), p := some (.val p) }

/-- An instance whose only slot holds a word. -/
def stageInst (w : IWord) : Inst :=
  { id := 0, blk := 0, hdr0 := 0, hdr1 := 0, entries := [], code := [w], slots := [stageSlot w], writes := List.replicate 12 none, caps := [],
    exit := none, exits := 0, nulls := [], twice := false, mark := 0, escMark := 0, arm := 0, outs := [], recvd := [],
    heads := [], consts := [], resv := [], stalled := none, epoch := 0 }

/-- A core that holds the patch and the instance: in a pinned context, or in task 0. -/
def stageCore (pinned : Bool) (w : IWord) : Core :=
  let x := stageInst w
  { patch := some 0, act := some 0, nTasks := 1, frame := 32, frame0 := 8, ctxs := [(0, { st := .active, pinned := pinned })],
    pinst := if pinned then [x] else [], nextInst := 1,
    tasks := if pinned then [] else [(0, { st := .live, weight := 1, eff := 1, inst := some x })] }

/-- Whether an instruction runs in pinned blocks alone (R60). -/
def wordPinned (w : IWord) : Bool :=
  match decode w with
  | .ok i => pinnedOnly i
  | .error _ => false

/-- A state whose next step fires a word on core (0, 0). -/
def stage (s : State) (w : IWord) : State :=
  let pinned := wordPinned w
  { s with cores := tset s.cores 0 (stageCore pinned w), patches := tset s.patches 0 stagePatch, leases := tset s.leases 0 stageLease,
           grants := [{ cid := 0, task := if pinned then none else some 0, inst := 0, slot := 0 }] }

end Sys2Proof.Machine
end

