-- ==== Sys2Proof/Machine/Control.lean ====
section
/-! DEFINITION. Exits (R174 to R176), nulls, moves, identities, constants (R177 to R180), predicates, selection and lane masks
(R181 to R183). Return from a handler is `exit.j` to TBLK (R340). -/

namespace Sys2Proof.Machine

/-! ### Exits -/

/-- The address of a slot's own instruction word (R50, R175). -/
def Env.wordAddr (e : Env) : Nat :=
  (e.inst.blk + 8 * (2 + readWords e.inst.hdr0 + writeWords e.inst.hdr0 + e.slot)) % 2 ^ 48

/-- The address behind the block: what a call returns to (R175). -/
def Env.afterBlock (e : Env) : Nat := (e.inst.blk + 8 * blockWords e.inst.hdr0) % 2 ^ 48

/-- A relative target (R175). -/
def Env.branchTo (e : Env) (off : BitVec 32) : Nat := wrap 48 ((e.wordAddr : Int) + off.toInt)

/-- An exit fires: it will direct control at commit (R55, R175). -/
def Env.exit (e : Env) (h : Head) (a : ExitAct) (r : Option Value) (s : State) : State :=
  e.update (fun x => { x.fire e.slot h (r.map .val) (r.map .val) with exit := some a, exits := x.exits + 1 }) s

/-- An indirect exit's target, or MISALIGNED (R175). -/
def Env.exitTo (e : Env) (v : Value) (go : Nat → State) (s : State) : State :=
  let tgt := bitsOf v 0 48
  if tgt % 8 ≠ 0 then e.raise { cause := 0x07, addr := BitVec.ofNat 64 tgt } s else go tgt

/-- `exit.b` (R174, R175): branch relative to the exit's own word. -/
def execExitB (h : Head) (off : BitVec 32) (s : State) : Host.Outcome State Fault Refusal :=
  issue (.exitB h off) s fun h e _ s => e.exit h (.go (e.branchTo off)) none s

/-- `exit.j` (R174, R175): jump to A[47:0]. -/
def execExitJ (h : Head) (s : State) : Host.Outcome State Fault Refusal :=
  issue (.exitJ h) s fun h e v s => e.exitTo v.a (fun t => e.exit h (.go t) none s) s

/-- `exit.c` (R174, R175): relative call; the return address is delivered. -/
def execExitC (h : Head) (off : BitVec 32) (s : State) : Host.Outcome State Fault Refusal :=
  issue (.exitC h off) s fun h e _ s =>
    e.exit h (.call (e.branchTo off) e.afterBlock) (some (scalar e.afterBlock)) s

/-- `exit.ci` (R174, R175): indirect call. -/
def execExitCi (h : Head) (s : State) : Host.Outcome State Fault Refusal :=
  issue (.exitCi h) s fun h e v s =>
    e.exitTo v.a (fun t => e.exit h (.call t e.afterBlock) (some (scalar e.afterBlock)) s) s

/-- `exit.ret` (R174, R175): return through the link stack, at commit. -/
def execExitRet (h : Head) (s : State) : Host.Outcome State Fault Refusal :=
  issue (.exitRet h) s fun h e _ s => e.exit h .ret none s

/-- `exit.t` (R174, R175): ends the task, at commit. -/
def execExitT (h : Head) (s : State) : Host.Outcome State Fault Refusal :=
  issue (.exitT h) s fun h e _ s => e.exit h .stop none s

/-- `exit.y` (R174, R175): yield, then branch relative. -/
def execExitY (h : Head) (off : BitVec 32) (s : State) : Host.Outcome State Fault Refusal :=
  issue (.exitY h off) s fun h e _ s => e.exit h (.yield (e.branchTo off)) none s

/-! ### Nulls, moves, identities and constants -/

/-- `nullw` (R177): a null to each of its targets. -/
def execNullw (h : Head) (s : State) : Host.Outcome State Fault Refusal :=
  issue (.nullw h) s fun h e _ s => e.update (fun x => x.fire e.slot h (some .null) (some .null)) s

/-- `nulls` (R177): cancels the store group of an LSID for this instance. -/
def execNulls (h : Head) (lsid : BitVec 5) (s : State) : Host.Outcome State Fault Refusal :=
  issue (.nulls h lsid) s fun _ e _ s =>
    e.update (fun x => { x.modSlot e.slot (fun q => { q with ph := .fired }) with nulls := lsid.toNat :: x.nulls }) s

/-- `movi` (R178). -/
def execMovi (h : Head) (w : IntW) (imm : BitVec 32) (s : State) : Host.Outcome State Fault Refusal :=
  issue (.movi h w imm) s fun h e _ s => e.result h (moviResult w imm) s

/-- `movh` (R178). -/
def execMovh (h : Head) (imm : BitVec 32) (s : State) : Host.Outcome State Fault Refusal :=
  issue (.movh h imm) s fun h e v s => e.result h (movhResult imm v.a) s

/-- `mov` (R178). -/
def execMov (h : Head) (s : State) : Host.Outcome State Fault Refusal :=
  issue (.mov h) s fun h e v s => e.result h v.a s

/-- The value that `getid` reads (R179). -/
def Env.ident (e : Env) (s : State) (sel : Nat) : Nat :=
  match sel with
  | 0 => e.c.px
  | 1 => e.c.py
  | 2 => clusterOf e.cid
  | 3 => posOf s e.cid
  | 4 => e.c.stage
  | 5 => e.slotK
  | 6 => e.c.act.getD 0
  | 7 => e.lease
  | 8 => e.p.w
  | _ => e.p.h

/-- `getid` (R179). -/
def execGetid (h : Head) (sel : BitVec 5) (s : State) : Host.Outcome State Fault Refusal :=
  issue (.getid h sel) s fun h e _ s => e.result h (scalar (e.ident s sel.toNat)) s

/-- `constk` (R180): Kk of the ACTIVE context; a pinned instance reads the value in effect when it started. -/
def execConstk (h : Head) (k : BitVec 4) (s : State) : Host.Outcome State Fault Refusal :=
  issue (.constk h k) s fun h e _ s =>
    e.result h (if e.pinned then tgetD e.inst.consts k.toNat (e.c.constReg k.toNat) else e.c.constReg k.toNat) s

/-! ### Predicates, selection and lane masks -/

/-- Bit [0] of an operand. -/
def bit0 (v : Value) : Bool := v.getLsbD 0

/-- `pand` (R182). -/
def execPand (h : Head) (s : State) : Host.Outcome State Fault Refusal :=
  issue (.pand h) s fun h e v s => e.result h (scalar (bit0 v.a && bit0 v.b).toNat) s

/-- `por` (R182). -/
def execPor (h : Head) (s : State) : Host.Outcome State Fault Refusal :=
  issue (.por h) s fun h e v s => e.result h (scalar (bit0 v.a || bit0 v.b).toNat) s

/-- `pxor` (R182). -/
def execPxor (h : Head) (s : State) : Host.Outcome State Fault Refusal :=
  issue (.pxor h) s fun h e v s => e.result h (scalar (bit0 v.a != bit0 v.b).toNat) s

/-- `pnot` (R182). -/
def execPnot (h : Head) (s : State) : Host.Outcome State Fault Refusal :=
  issue (.pnot h) s fun h e v s => e.result h (scalar (! bit0 v.a).toNat) s

/-- `sel` (R183). -/
def execSel (h : Head) (w : IntW) (s : State) : Host.Outcome State Fault Refusal :=
  issue (.sel h w) s fun h e v s => e.result h (selResult w v.a v.b v.c) s

/-- `lmask` (R183). -/
def execLmask (h : Head) (w : IntW) (s : State) : Host.Outcome State Fault Refusal :=
  issue (.lmask h w) s fun h e v s => e.result h (join 1 ((nonzero w v.a).map Bool.toNat)) s

/-- `anyl` (R183). -/
def execAnyl (h : Head) (w : IntW) (s : State) : Host.Outcome State Fault Refusal :=
  issue (.anyl h w) s fun h e v s => e.result h (scalar ((nonzero w v.a).any id).toNat) s

/-- `alll` (R183). -/
def execAlll (h : Head) (w : IntW) (s : State) : Host.Outcome State Fault Refusal :=
  issue (.alll h w) s fun h e v s => e.result h (scalar ((nonzero w v.a).all id).toNat) s

/-- `test` (R181). -/
def execTest (h : Head) (c : Cond) (w : IntW) (b : Option (BitVec 32)) (s : State) : Host.Outcome State Fault Refusal :=
  issue (.test h c w b) s fun h e v s => e.result h (testResult c w v.a (opBTest c w b v.b)) s

end Sys2Proof.Machine
end

