-- ==== Sys2Proof/Machine/Reply.lean ====
section
/-! DEFINITION. Replies at the GEN port (R233): what a load reads and delivers, how a streaming store performs, RELATCH (R232);
TLB fills (R229). -/

namespace Sys2Proof.Machine

/-! ### Stale replies (R105, R110) -/

/-- The lease at whose core something happens: the one whose patch stands there, else the one whose rectangle holds it. -/
def leaseOver (s : State) (cid : Nat) : Option Nat :=
  let xy := xyOf s cid
  (holderAt s xy.1 xy.2).or (leaseAt s xy.1 xy.2)

/-- A stale reply for a lease's generation dropped at a core: counted for the lease whose core it is (R105, R110); at a core that no lease
has any more, for the released lease that it was for (R357). -/
def noteStale (s : State) (cid l : Nat) (gen : BitVec 8) : State :=
  let bump := fun (L : Lease) => { L with stalelint := sat48 (L.stalelint + 1) }
  match leaseOver s cid with
  | some h => s.modLease h bump
  | none => { s with released := tmap (fun k L => if k = l ∧ L.gen = gen then bump L else L) s.released }

/-- Whether a request or packet belongs to a core's lease as it stands. -/
def current (s : State) (cid l : Nat) (gen : BitVec 8) : Bool :=
  (s.core cid).patch.isSome && coreLease s cid = l && genOf s l = gen

/-! ### Reading (R256, R257, R285) -/

/-- How a line of the domain is read: through C; at its node, after the core's own dirty bytes of it have been written back, for an
acquire or behind a `cctl` that writes the line back and drops it; at its node alone, behind one that discards it (R265, R285). -/
inductive FetchMode where
  | cached | node | dropped
deriving DecidableEq, Repr

/-- A line of a page of the domain, read for a request. -/
def fetchLine (s : State) (cid lease : Nat) (mode : FetchMode) (na : Bool) (va : Nat) (l : Loc) : State × Value × Bool :=
  let l0 := lineLoc l (va % 64)
  let atNode := fun (s : State) => (heard (countRead s lease l0 64) cid l0, bytesValue (nodeRead s lease l0 64), readBad s lease l0)
  match mode with
  | .cached => cRead s cid lease (va / 64) l0 na
  | .node => atNode (cleanLine s cid (va / 64) l0)
  | .dropped => atNode s

/-- How a request's instance finds a line (R265, R285). -/
def fetchMode (x : Inst) (r : GenReq) (line : Nat) : FetchMode :=
  match if r.pinned then none else x.lastDrop r.lsid line with
  | some (_, true) => if wideScope r.osc then .node else .dropped
  | some (_, false) => .node
  | none => if wideScope r.osc then .node else .cached

/-- What the elements of a load give. -/
inductive Loaded where
  | bad (s : State) (c : Cause)
  | ok (s : State) (bs : List (Nat × List Byte))
deriving DecidableEq, Repr

/-- The elements of a load, in ascending order, each line read once; `seen` holds the lines read so far. -/
def loadElems (cid : Nat) (x : Inst) (r : GenReq) (n : Nat) :
    List (Nat × Option (Nat × Loc)) → List (Nat × Value × Bool) → State → Loaded
  | [], _, s => .ok s []
  | (_, none) :: es, seen, s => loadElems cid x r n es seen s
  | (i, some (va, l)) :: es, seen, s =>
    let c : Cause := { cause := 0, slot := some r.slot, lsid := some r.lsid, addr := BitVec.ofNat 64 va,
                       lane := if r.gather || r.ac = .v then some i else none }
    if denied s r.lease r.gen false l then .bad s { c with cause := 0x0A, sub := 1 }
    else
      let add := fun (bs : List Byte) (x : Loaded) => match x with
        | .ok s ps => .ok s ((i, bs) :: ps)
        | x => x
      if l.isSystem then add (nodeRead s r.lease l n) (loadElems cid x r n es seen (heard s cid l))
      else
        let got := match seen.find? (·.1 = va / 64) with
          | some x => (s, x.2)
          | none => fetchLine s cid r.lease (fetchMode x r (va / 64)) r.na va l
        if got.2.2 then .bad got.1 { c with cause := 0x0B }
        else add (((valueBytes got.2.1).drop (va % 64)).take n)
          (loadElems cid x r n es ((va / 64, got.2) :: seen) got.1)

/-- The result of a gather (R259): lanes extended to 32 bits per AC, or pairs. -/
def gatherValue (ac : AC) (ps : List (Nat × List Byte)) : Value :=
  let at' := fun i => ((ps.find? (·.1 = i)).map fun p => bytesNat p.2).getD 0
  match ac with
  | .z64 => join 64 ((List.range 8).map at')
  | .s8 => join 32 ((List.range 16).map fun i => wrap 32 (sgn 8 (at' i)))
  | .s16 => join 32 ((List.range 16).map fun i => wrap 32 (sgn 16 (at' i)))
  | _ => join 32 ((List.range 16).map at')

/-- Bytes of one element of a request. -/
def GenReq.size (r : GenReq) : Nat := if r.gather then acBytes r.ac else pieceBytes r.ac

/-- A request's elements with their numbers. -/
def GenReq.listed (r : GenReq) : List (Nat × Option (Nat × Loc)) := (List.range r.elems.length).zip r.elems

/-- The first request leaves the port. -/
def popGen (s : State) (cid : Nat) : State := s.modCore cid fun c => { c with gen := c.gen.tail }

/-- A cause at a reply: it faults the block that asked, or stops the pinned patch; later replies are then never delivered, and the
stores that the port has accepted still perform (R233). -/
def raiseReply (s : State) (cid : Nat) (r : GenReq) (x : Cause) : State :=
  if r.pinned then
    let arm := (((s.core cid).pinst.find? (·.id = r.inst)).map (·.arm)).getD 0
    let held := fun (q : GenReq) => q.kind.fires && q.kind != .store
    let s := s.modCore cid fun c =>
      let c := { c with gen := c.gen.tail.filter fun q => ! held q }
      (r :: (s.core cid).gen.tail.filter held).foldl (fun c q => c.failSlot q.inst q.slot) c
    raiseCore s cid none 0 arm x
  else
    let blk := (((s.core cid).task r.task).inst.map (·.blk)).getD 0
    raiseTask (popGen s cid) cid r.task blk x

/-- The task slot of a request, none in a pinned context. -/
def GenReq.k (r : GenReq) : Option Nat := if r.pinned then none else some r.task

/-- The instance that asked. -/
def askedBy (s : State) (cid : Nat) (r : GenReq) : Option Inst :=
  if r.pinned then (s.core cid).pinst.find? (·.id = r.inst)
  else match ((s.core cid).task r.task).inst with
    | some x => if x.id = r.inst then some x else none
    | none => none

/-- Whether a load must still wait for its sc order (R288). -/
def loadWaits (s : State) (r : GenReq) : Bool :=
  let node := match r.elems with
    | some (_, l) :: _ => nodeOf l
    | _ => s.token
  r.sc && ! scReady s node (r.osc = some .system)

/-- A load's reply (R233, R256, R259): read, laid over by lower stores of the block (R49), delivered. -/
def replyLoad (s : State) (cid : Nat) (r : GenReq) : State :=
  match askedBy s cid r with
  | none => popGen s cid
  | some x =>
    if loadWaits s r then s
    else
      let s0 := if r.sc then release s cid r.osc else s
      unlessFull s <| match loadElems cid x r r.size r.listed [] s0 with
      | .bad s c => raiseReply s cid r c
      | .ok s ps =>
        let fwd := ps.map fun p => match r.elems.getD p.1 none with
          | some (va, l) => (p.1, if r.pinned then p.2 else
              forwardGlobal x r.lsid (capKept (s.core cid) (va / 64) (x.lastDrop r.lsid (va / 64))) l p.2)
          | none => p
        let v := if r.gather then gatherValue r.ac fwd else loadedValue r.ac fwd
        let s := acquire (popGen s cid) cid r.osc
        match envAt s cid r.k x r.slot, (x.at r.slot).bind headOf with
        | some e, some h => e.result h v s
        | _, _ => s

/-- The first request of a port begins to stall for undo space: counted once, and timed (R308). -/
def noteGenStall (s : State) (cid : Nat) (r : GenReq) (lease : Nat) : State :=
  match r.stalled with
  | some _ => s
  | none => countStall (s.modCore cid fun c => { c with gen := { r with stalled := some (cyclesOf s cid) } :: c.gen.tail }) lease

/-- A streaming store's turn, or a scatter's of a GEN block (R233, R258, R259): its elements perform in ascending order, with a scope
after the release that it is (R261, R283). -/
def replyStore (s : State) (cid : Nat) (p : Patch) (r : GenReq) : State :=
  let n := r.size
  let ps := r.listed.filterMap fun e => e.2.map fun q => (q.1, q.2, (r.data.drop (e.1 * n)).take n)
  let osc := promoted s (ps.map (·.2.1)) r.osc
  match (okRoom (release s cid osc)).then (eachDone (fun x s =>
      if x.2.1.isSystem then escapePiece cid 0 p r.ac false x s else storePiece cid r.lease r.lsid (wideScope osc) r.na x s)
      (if r.ac = .v then joinPieces ps else ps)) with
  | .ok s' => popGen s' cid
  | .bad c => raiseReply s cid r { c with slot := some r.slot }
  | .stall (some l) => noteGenStall s cid r l
  | .stall none => s

/-- Whether a RELATCH may leave: its buffers have a place, and what emits before it has left; an instance whose request came behind it
waits for it, not it for that instance (R232). -/
def relatchMay (c : Core) : Bool :=
  c.fits c.boundOuts && match c.pinst with
    | [] => true
    | x :: _ => c.gen.any fun r => r.pinned && r.inst = x.id && r.elems != []

/-- RELATCH at the port (R232): every latch is cleared and the token leaves on every bound out-channel. -/
def replyRelatch (s : State) (cid : Nat) (f : Flit) : State :=
  let c := s.core cid
  if relatchMay c then
    (popGen s cid).modCore cid fun c => c.boundOuts.foldl (fun c j => c.emit j f) c.clearLatches
  else s

/-! ### Plane sources and the device's own requests (R23, R169, R271, R364) -/

/-- The lines of a global plane source, each with its target. -/
def planeLines (src : Nat) (locs : List Loc) : List (Nat × Loc) :=
  (List.range locs.length).map fun i => ((natBits src 0 48 + 64 * i) % 2 ^ 48, locs.getD i (.host 0))

/-- Lines read for a plane, in ascending order. -/
def readPlane (cid lease : Nat) : List (Nat × Loc) → State → Loaded
  | [], s => .ok s []
  | (va, l) :: r, s =>
    let c : Cause := { cause := 0x0B, addr := BitVec.ofNat 64 va }
    let add := fun (bs : List Byte) (x : Loaded) => match x with
      | .ok s ps => .ok s ((va, bs) :: ps)
      | x => x
    if denied s lease (genOf s lease) false l then .bad s { c with cause := 0x0A, sub := 1 }
    else if l.isSystem then add (nodeRead s lease l 64) (readPlane cid lease r (heard s cid l))
    else
      let got := fetchLine s cid lease .cached true va l
      if got.2.2 then .bad got.1 c else add (valueBytes got.2.1) (readPlane cid lease r got.1)

/-- A plane's source arrives for the queued load that asked for it (R271). -/
def replyPlane (s : State) (cid lease id : Nat) : State :=
  match (s.core cid).mangle.queue.find? (·.id = id) with
  | some q => match q.op with
    | .load _ src locs =>
      unlessFull s <| match readPlane cid lease (planeLines src.toNat locs) s with
      | .bad s x => raiseCore (popGen s cid) cid none 0 0 x
      | .ok s ps => (popGen s cid).modCore cid fun c => { c with mangle := { c.mangle with
          queue := c.mangle.queue.map fun e => if e.id = id then { e with rows := ps.map fun p => bytesValue p.2 } else e } }
    | _ => popGen s cid
  | none => popGen s cid

/-- How an access of the overflow area ends that finds no target (R169, R229): a page in migration makes it wait, a poisoned walk is
poison consumed, and an area that is not there stops the spill. -/
def spillMiss (s : State) (cid out va : Nat) (x : Xlate) : State :=
  match x with
  | .moving => s
  | .poisoned => raiseCore (popGen s cid) cid none 0 0 { cause := 0x0B, addr := BitVec.ofNat 64 va }
  | _ => raiseCore (popGen s cid) cid none 0 0 { cause := 0x13, chan := some (true, out) }

/-- The first waiting flit of a spilling channel becomes its next record (R169). -/
def replySpill (s : State) (cid out : Nat) (r : GenReq) : State :=
  match ((s.core cid).outCh out).spill with
  | none => popGen s cid
  | some sp => match sp.wait with
    | [] => popGen s cid
    | f :: _ =>
      match nextRecord s r.lease sp.recs with
      | none => spillMiss s cid out 0 .unmapped
      | some n =>
        let rin := (s.core cid).rin
        match translate s cid r.lease (spillVa n), translate s cid r.lease (spillVa n + 64) with
        | .ok a e, .ok b _ =>
          if ! peW e then spillMiss s cid out (spillVa n) .unmapped
          else
            match okRoom (nodeWrite (nodeWrite s a (spillLines f).1 rin) b (spillLines f).2 rin) with
            | .ok s => (popGen s cid).modCore cid fun c => c.modOut out fun o =>
                { o with spill := some { recs := sp.recs ++ [(n, f.rin)], wait := sp.wait.tail } }
            | .stall (some l) => noteGenStall s cid r l
            | _ => s
        | .ok _ _, x | x, _ => spillMiss s cid out (spillVa n) x

/-- The oldest record of a spilling channel returns to its buffer (R169); with the last one the channel stops spilling. A reserved kind,
which the memory may hold by then, goes no further than this core's port (R24). -/
def replyUnspill (s : State) (cid out : Nat) (q : GenReq) : State :=
  match ((s.core cid).outCh out).spill with
  | none => popGen s cid
  | some sp => match sp.recs with
    | [] => popGen s cid
    | (n, r) :: rest =>
      match translate s cid q.lease (spillVa n), translate s cid q.lease (spillVa n + 64) with
      | .ok a _, .ok b _ =>
        if readBad s q.lease a || readBad s q.lease b then
          raiseCore (popGen s cid) cid none 0 0 { cause := 0x0B, addr := BitVec.ofNat 64 (spillVa n) }
        else
          let f : Flit := { kind := BitVec.ofNat 4 (bytesNat (nodeRead s q.lease b 1)),
                            value := bytesValue (nodeRead s q.lease a 64), rin := r }
          let left : Option Spill := if rest.isEmpty && sp.wait.isEmpty then none else some { sp with recs := rest }
          let s := heard (countRead (countRead (popGen s cid) q.lease a 64) q.lease b 64) cid a
          let bad := decide (13 ≤ f.kind.toNat)
          let s := s.modCore cid fun c => c.modOut out fun o => { o with buf := if bad then o.buf else o.buf ++ [f], spill := left }
          if bad then raiseCore s cid none 0 0 { cause := 0x0D, chan := some (true, out) } else s
      | .ok _ _, x | x, _ => spillMiss s cid out (spillVa n) x

/-- A record goes to its buffer (R364): a page in migration makes it wait, and what translates to nothing is lost. -/
def replyRecord (s : State) (cid va : Nat) (r : GenReq) : State :=
  let pieces := lineCuts (r.data.length + 1) va r.data
  if pieces.any fun p => translate s cid r.lease p.1 = .moving then s
  else match okRoom (putVa s cid r.lease va r.data (s.core cid).rin) with
    | .ok s => popGen s cid
    | .stall (some l) => noteGenStall s cid r l
    | _ => s

/-- The device's own next request enters the port when no firing of the core is about to ask for a place (R23). -/
def admitLate (s : State) (cid : Nat) : State :=
  if s.grants.any (·.cid = cid) || ! (s.core cid).genRoom then s
  else s.modCore cid fun c => match c.late with
    | [] => c
    | r :: rest => { c with gen := c.gen ++ [r], late := rest }

/-- Whether a request's asker is still there: a record's is its lease, any other's the core's patch (R105). -/
def GenReq.stands (r : GenReq) (s : State) (cid : Nat) : Bool :=
  match r.kind with
  | .record _ => genOf s r.lease = r.gen && (s.lease r.lease).isSome
  | _ => current s cid r.lease r.gen

/-- One request of a port answered. -/
def answerGen (s : State) (cid pt : Nat) (r : GenReq) : State :=
  match r.kind, s.patch pt with
  | .record va, _ => replyRecord s cid va r
  | _, none => s
  | .load, _ => replyLoad s cid r
  | .store, some p => replyStore s cid p r
  | .relatch f, some p => if p.st = .stopping then popGen s cid else replyRelatch s cid f
  | .plane id, _ => replyPlane s cid r.lease id
  | .spill out, _ => replySpill s cid out r
  | .unspill out, _ => replyUnspill s cid out r

/-- GEN_REPLY (R23, R233): the oldest request of a core's port is answered, one of the device's own having entered it; a RELATCH in a patch
that stops for a fault ends there. -/
def execGenReply (cid : Nat) (s : State) : Host.Outcome State Fault Refusal :=
  let s := admitLate s cid
  .next (match (s.core cid).gen with
    | [] => s
    | r :: _ =>
      if ! r.stands s cid then noteStale (popGen s cid) cid r.lease r.gen
      else
        let pt := ((s.core cid).patch).getD 0
        let t := answerGen s cid pt r
        if r.kind.fires && decide ((t.core cid).gen.length < (s.core cid).gen.length) then markFiring t pt else t)

/-! ### TLB fills (R229) -/

/-- An entry added to a TLB of n entries, in place of the one that `pick` names where it is full. -/
def tlbAdd (t : List TlbEntry) (n pick : Nat) (e : TlbEntry) : List TlbEntry :=
  if t.length < n then t ++ [e] else lset t (pick % n) e

/-- The entries of a cluster's second-level TLB that a lease may hold: 4,096 in proportion to its positions in the cluster (R119, R229). -/
def tlbShare (s : State) (cl l : Nat) : Nat :=
  256 * ((List.range 16).filter fun pos => let xy := xyOf s (coreAt s cl pos); holderAt s xy.1 xy.2 = some l).length

/-- An entry added to a lease's part of a cluster's TLB; other leases' entries stand. -/
def tlbAddShared (t : List TlbEntry) (n pick : Nat) (e : TlbEntry) : List TlbEntry :=
  if n = 0 then t
  else t.filter (·.lease != e.lease) ++ tlbAdd (t.filter (·.lease = e.lease)) n pick e

/-- TLB_WALK (R229): a walk fills the core's TLB and the cluster's with the leaf it found; an entry in migration is walked again, and a
poisoned walk fills nothing. -/
def execTlbWalk (cid : Nat) (va : BitVec 48) (s : State) : Host.Outcome State Fault Refusal :=
  let l := coreLease s cid
  .next (match (s.core cid).patch, s.lease l with
    | some _, some L =>
      if (tlbHit (s.core cid).tlb l L.gen va.toNat).isSome then s
      else match lookup s cid l va.toNat with
        | none => s
        | some (big, e) =>
          if peMig e || walkBad L va.toNat then s
          else
            let t : TlbEntry := { lease := l, gen := L.gen, page := va.toNat / (if big then 2 ^ 29 else 2 ^ 16), big := big, entry := e }
            let s := s.modCore cid fun c => { c with tlb := tlbAdd c.tlb 256 (Config.victimTlb s.tick) t }
            s.modCluster (clusterOf cid) fun cl =>
              if (tlbHit cl.tlb l L.gen va.toNat).isSome then cl
              else { cl with tlb := tlbAddShared cl.tlb (tlbShare s (clusterOf cid) l) (Config.victimTlb (s.tick + 1)) t }
    | _, _ => s)

end Sys2Proof.Machine
end

