-- ==== Sys2Proof/Machine/MangleRun.lean ====
section
/-! DEFINITION. The mangle at work (R76, R77, R238, R241 to R248, R271, R272, R274): its queue's entries start, perform and take
effect. -/

namespace Sys2Proof.Machine

/-! ### The swizzle (R238) -/

/-- A pool offset swizzled: `chunk` is log2 of the chunk size. -/
def swizzle (swf chunk o : Nat) : Nat := o ^^^ (natBits o (chunk + 3 + swf) 3 * 2 ^ chunk)

/-- A core's own offset of an activation byte under unit 11 field 2 (R243, R248). -/
def Core.actOff (c : Core) (o : Nat) : Nat :=
  let w := c.cfg 11 2
  if w.testBit 1 then swizzle (natBits w 4 3) (4 + natBits w 2 2) o else o

/-! ### The queue (R245) -/

/-- The extent that an entry writes. -/
def MOp.extent : MOp → Option (Nat × Nat)
  | .run _ d => some (mdT d.toNat, mdTc d.toNat * 4096)
  | .zero d => some (mdT d.toNat, mdTc d.toNat * 4096)
  | _ => none

/-- Whether two entries' extents overlap. -/
def opsOverlap (a b : MOp) : Bool :=
  match a.extent, b.extent with
  | some x, some y => decide (x.1 < y.1 + y.2) && decide (y.1 < x.1 + x.2)
  | _, _ => false

/-- Whether an entry is a run or an `mzero`. -/
def MOp.works : MOp → Bool
  | .run _ _ | .zero _ => true
  | _ => false

/-- Whether an entry is an `mzero`. -/
def MOp.zeroes : MOp → Bool
  | .zero _ => true
  | _ => false

/-- Entries queued before one. -/
def Mangle.before (m : Mangle) (id : Nat) : List MEnt := m.queue.takeWhile (·.id != id)

/-- Whether a run or `mzero` may start (R245, R272, R274): in arm order, behind no swap or fence, and not past an overlapping
entry that it is ordered with. -/
def Mangle.mayStart (m : Mangle) (q : MEnt) : Bool :=
  q.op.works && ! q.started && (m.before q.id).all fun p =>
    (match p.op with
      | .swap | .fence => false
      | .load _ _ _ => true
      | _ => p.started) && ! (opsOverlap p.op q.op && (p.op.zeroes || q.op.zeroes))

/-- An entry changed, or removed. -/
def Core.modEnt (c : Core) (id : Nat) (f : MEnt → MEnt) : Core :=
  { c with mangle := { c.mangle with queue := c.mangle.queue.map fun q => if q.id = id then f q else q } }
/-- An entry removed. -/
def Core.dropEnt (c : Core) (id : Nat) : Core :=
  { c with mangle := { c.mangle with queue := c.mangle.queue.filter (·.id != id) } }

/-- MANGLE_RUN_START (R245, R273): the next run or `mzero` that may start does, outside a pleat handshake. -/
def execMangleRunStart (cid : Nat) (s : State) : Host.Outcome State Fault Refusal :=
  let c := s.core cid
  .next (match c.patch.bind s.patch, c.mangle.queue.find? c.mangle.mayStart with
    | some p, some q =>
      if p.st = .running ∧ c.pleat.phase = 0 then s.modCore cid fun c => c.modEnt q.id fun q => { q with started := true } else s
    | _, _ => s)

/-- Open carries of an extent closed: on this stepping they hold nothing to add (R77). -/
def Mangle.closeCarries (m : Mangle) (e : Option (Nat × Nat)) : Mangle :=
  { m with carries := m.carries.filter fun x => match e with
      | some e => ! (decide (x.base < e.1 + e.2) && decide (e.1 < x.base + x.tc * 4096))
      | none => false }

/-- An `mzero` performs (R274). -/
def doZero (c : Core) (q : MEnt) (d : Nat) : Core :=
  let n := mdTc d * 64
  let c := (List.range n).foldl (fun c r => c.writeRole .t (mdT d + 64 * r) (List.replicate 64 0)) c
  { c.dropEnt q.id with mangle := (c.dropEnt q.id).mangle.closeCarries q.op.extent }

/-! ### A tile (R243, R244, R246) -/

/-- What a run finds for its next tile: its rows, or what it waits for, or a cause. -/
inductive TileIn where
  | wait (c : Core)
  | bad (x : Cause)
  | rows (c : Core) (rs : List Value)
deriving DecidableEq, Repr

/-- Rows from S (R243, R238). -/
def rowsFromS (c : Core) (sh : BitVec 5) (d t : Nat) : TileIn :=
  let n := tileRows sh
  let offs := (List.range (64 * n)).map fun i => c.actOff (mdS d + t * n * 64 + i)
  if c.holdS then .wait c
  else if offs.any fun o => c.rolePoisoned .s o 1 then .bad { cause := 0x0B }
  else
    let bs := offs.map fun o => c.pool.get (c.roleAddr .s o)
    .rows c ((List.range n).map fun r => bytesValue ((bs.drop (64 * r)).take 64))

/-- Whether a task has a head of an in-channel captured by `recv` and not yet taken (R192). -/
def Core.recvDue (c : Core) (j : Nat) : Bool :=
  c.tasks.any fun t => t.2.inst.any fun x => x.caps.any fun q => q.eff == .recv j

/-- Rows taken from an in-channel, as many as are there. -/
def rowsFromChan (c : Core) (q : MEnt) (sh : BitVec 5) (j : Nat) : TileIn :=
  let want := tileRows sh - q.rows.length
  let got := ((c.inCh j).buf.take want).takeWhile fun f => f.2.kind = 0
  let c' := c.modIn j fun ch => { ch with buf := ch.buf.drop got.length }
  let rows := q.rows ++ got.map (·.2.value)
  if got.length = want then .rows c' rows
  else match (c'.inCh j).buf with
    | [] => .wait (c'.modEnt q.id fun q => { q with rows := rows })
    | _ :: _ => .bad { cause := 0x0D, chan := some (false, j) }

/-- Whether a run's next tile waits: for an earlier run of the same shape on the same extent to do it (R245), or for an earlier run that
takes from the same in-channel to finish (R244). -/
def Mangle.tileHeld (m : Mangle) (q : MEnt) : Bool :=
  (m.before q.id).any fun p => match p.op, q.op with
    | .run a d, .run b e => (a = b && mdT d.toNat = mdT e.toNat && mdTc d.toNat = mdTc e.toNat && decide (p.tile ≤ q.tile)) ||
      (mdSrck d.toNat && mdSrck e.toNat && mdIn d.toNat = mdIn e.toNat)
    | _, _ => false

/-- The started runs whose order with a run is open (R245): all but those of its shape on its extent. -/
def Mangle.unordered (m : Mangle) (q : MEnt) : List MEnt :=
  m.queue.filter fun p => p.id != q.id && p.started && match p.op, q.op with
    | .run a d, .run b e => ! (a = b && mdT d.toNat = mdT e.toNat && mdTc d.toNat = mdTc e.toNat)
    | _, _ => false

/-- An element that a run's tile adds to, where a run in no order with it has added there (R245): this run's value on top of the other's,
this run's as though the other had not added, the other's alone, or the other's on top of this run's. `f` is what this run makes of an
accumulator, `pick` chooses. -/
def Mangle.mixElem (m : Mangle) (pick : Nat → Nat) (q : MEnt) (f : Nat → Nat) (t now : Nat) : Nat :=
  match (m.unordered q).findSome? fun p => p.under t with
  | none => f now
  | some u =>
    match pick t % 4 with
    | 0 => f now
    | 1 => f u.base
    | 2 => now
    | _ => u.val m.active (tileGroups u.sh) (f u.base)

/-- The meter of a shape's multiply-accumulates (R358). -/
def macMeter (sh : BitVec 5) : Nat :=
  match shapeFmt sh with
  | 0 => 2
  | 1 => 3
  | 2 | 3 => 4
  | 4 => 6
  | _ => 5

/-- A tile's accumulator writes, or the cause of its check (R246): `bad` mismatches found. -/
def doTile (s : State) (cid : Nat) (p : Patch) (c : Core) (q : MEnt) (sh : BitVec 5) (d : Nat) (rs : List Value) (bad : Nat) :
    State :=
  let base := mdT d + q.tile * 4096
  if mdAcc d ∧ c.rolePoisoned .t base 4096 then raiseCore (s.setCore cid c) cid none 0 0 { cause := 0x0B }
  else
    let check := ! chkOff c p
    let m := c.mangle
    if check ∧ 2 ≤ bad then
      raiseCore (s.setCore cid { c with mangle := { m with pick := m.pick + 1 } }) cid none 0 0 { cause := 0x0E, sub := 2 }
    else
      let old := c.readRole .t base 4096
      let f := tileFn sh m.active rs (tileGroups sh)
      let out := (List.range 32).map fun i => (List.range 32).flatMap fun k =>
        natBytes 4 (m.mixElem (Config.mangleMix s.tick cid) q (fun a => f i k (if mdAcc d then a else 0)) (base + 128 * i + 4 * k)
          (bytesNat ((old.drop (128 * i + 4 * k)).take 4)))
      let c := (List.range 32).foldl (fun c i =>
        let bs := out.getD i []
        (c.writeRole .t (base + 128 * i) (bs.take 64)).writeRole .t (base + 128 * i + 64) (bs.drop 64)) c
      let m := c.mangle
      let c := { c with mangle := { m with
        pick := m.pick + 1, checked := m.checked + check.toNat, corrected := m.corrected + (check && bad = 1).toNat } }
      let c := if q.tile + 1 = mdTc d then c.dropEnt q.id else c.modEnt q.id fun q =>
        { q with tile := q.tile + 1, rows := [], did := (q.tile, rs, old) :: q.did }
      charge (s.setCore cid c) (leaseOwner s p.lease) (macMeter sh) (32 * mK (shapeFmt sh) * 32)

/-- MANGLE_TILE (R244 to R246): the started entry at a place of the queue performs its next tile, or its `mzero`. -/
def execMangleTile (cid run mismatches : Nat) (s : State) : Host.Outcome State Fault Refusal :=
  let c := s.core cid
  .next (match c.patch with
    | none => s
    | some pt =>
      match s.patch pt, c.mangle.queue[run]? with
      | some p, some q =>
        if ! q.started ∨ c.holdT then s
        else match q.op with
          | .zero d => markFiring (s.setCore cid (doZero c q d.toNat)) pt
          | .run sh d =>
            if c.mangle.tileHeld q || mdSrck d.toNat && c.recvDue (mdIn d.toNat) then s
            else match if mdSrck d.toNat then rowsFromChan c q sh (mdIn d.toNat) else rowsFromS c sh d.toNat q.tile with
              | .wait c => s.setCore cid c
              | .bad x => raiseCore s cid none 0 0 x
              | .rows c rs => markFiring (doTile s cid p c q sh d.toNat rs mismatches) pt
          | _ => s
      | _, _ => s)

/-! ### Swap, fence, load (R271, R272) -/

/-- MANGLE_SWAP_EFFECT (R272): a swap behind no load and no run exchanges the planes. -/
def execMangleSwapEffect (cid : Nat) (s : State) : Host.Outcome State Fault Refusal :=
  .next (s.modCore cid fun c =>
    match c.mangle.queue with
    | q :: r => if q.op = .swap then
        { c with mangle := { c.mangle with queue := r, active := c.mangle.shadow, shadow := c.mangle.active } }
      else c
    | [] => c)

/-- MANGLE_FENCE_EFFECT (R272): a fence behind no run and no `mzero` goes, closing every open carry. -/
def execMangleFenceEffect (cid : Nat) (s : State) : Host.Outcome State Fault Refusal :=
  .next (s.modCore cid fun c =>
    match c.mangle.queue.find? fun q => q.op = .fence && (c.mangle.before q.id).all fun p => ! p.op.works with
    | some q => { c.dropEnt q.id with mangle := (c.dropEnt q.id).mangle.closeCarries none }
    | none => c)

/-- A plane from its bytes (R271). -/
def planeOf (fmt : BitVec 3) (bs : List Byte) : Plane :=
  let sc := bs.drop 2048
  { fmt := fmt, data := Memory.write [] 0 (bs.take 2048),
    scales := Memory.write [] 0 (if sc.isEmpty then List.replicate 128 0x7F else sc) }

/-- What a load finds: its plane's bytes, a cause, or a wait for the pleat steps (R131) or for its reply. -/
def planeBytes (c : Core) (q : MEnt) (fmt : BitVec 3) (src : BitVec 64) : Option (Except Cause (List Byte)) :=
  let n := 2048 + scaleBytes fmt.toNat (src.getLsbD 62)
  if src.getLsbD 63 then (if q.rows.isEmpty then none else some (.ok (q.rows.flatMap valueBytes)))
  else if c.holdS then none
  else if c.rolePoisoned .s (natBits src.toNat 0 48) n then some (.error { cause := 0x0B })
  else some (.ok (c.readRole .s (natBits src.toNat 0 48) n))

/-- MLOAD_FILL (R271): the oldest load that no swap holds back fills the shadow plane. -/
def execMloadFill (cid : Nat) (s : State) : Host.Outcome State Fault Refusal :=
  let c := s.core cid
  let ready := fun (q : MEnt) => match q.op with
    | .load _ _ _ => (c.mangle.before q.id).all fun p => match p.op with
      | .swap | .load _ _ _ => false
      | _ => true
    | _ => false
  .next (match c.patch, c.mangle.queue.find? ready with
    | some pt, some q =>
      match q.op with
      | .load fmt src _ =>
        match planeBytes c q fmt src with
        | none => s
        | some (.error x) => raiseCore s cid none 0 0 x
        | some (.ok bs) =>
          markFiring (s.modCore cid fun c =>
            let c := c.dropEnt q.id
            { c with mangle := { c.mangle with shadow := planeOf fmt bs } }) pt
      | _ => s
    | _, _ => s)

end Sys2Proof.Machine
end

