-- ==== Sys2Proof/Machine/CopyWalk.lean ====
section
/-! DEFINITION. The copy engine's walk (R237 to R240), one element at each COPY_WALK. -/

namespace Sys2Proof.Machine

/-! ### Elements (R237, R238) -/

/-- The counters of element n, the innermost first. -/
def copyIndex (p : Value) : Nat → Nat → Nat → List Nat
  | 0, _, _ => []
  | f + 1, k, n => n % cpN p k :: copyIndex p f (k + 1) (n / cpN p k)

/-- How many elements a packet has. -/
def copyCount (p : Value) : Nat := ((List.range 6).map (cpN p)).foldl (· * ·) 1

/-- The offset of element n by its counters and strides. -/
def copyOff (p : Value) (n : Nat) : Int :=
  ((List.range 6).zip (copyIndex p 6 0 n)).foldl (fun a k => a + (k.2 : Int) * cpStr p k.1) 0

/-- One byte range of an element: a global address, or a pool role's byte offset on a core. -/
inductive CopySide where
  | glob (va : Nat)
  | pool (role : PoolRole) (cid : Nat) (o : Int)
deriving DecidableEq, Repr

/-- The place at a displacement from a descriptor (R236). -/
def copySide (s : State) (cl d : Nat) (x : Int) : CopySide :=
  if isPool d then .pool (if d.testBit 61 then .t else .s) (coreAt s cl (natBits d 52 4)) ((natBits d 0 32 : Int) + x)
  else .glob (wrap 48 ((natBits d 0 48 : Int) + x))

/-- The source and the destination of element n, given the index j that a gather or scatter read. -/
def copySides (s : State) (cl : Nat) (p : Value) (n : Nat) (j : Int) : CopySide × CopySide :=
  let z : Int := 2 ^ cpEsz p
  let off := copyOff p n
  let src := copySide s cl (cpSd p)
  let dst := copySide s cl (cpDd p)
  match cpOp p with
  | 0 => (src off, dst (n * z))
  | 1 => (src (off + j * z), dst (n * z))
  | 2 => (src (n * z), dst (off + j * z))
  | _ => (src (n * z), dst off)

/-! ### Access (R236, R240) -/

/-- What an access of one element answers: a cause and its address, a wait, a wait of a lease for undo or escape space (R308, R323), or
what was asked for. -/
inductive CopyGot (α : Type) where
  | bad (cause sub : BitVec 8) (addr : BitVec 64)
  | hold
  | full (lease : Nat)
  | ok (x : α)
deriving DecidableEq, Repr

/-- The pool addresses of an element's bytes: the target core's lease, then each byte's swizzled offset and its bound (R225,
R238). -/
def copyPool (s : State) (e : CopyEnt) (role : PoolRole) (cid n : Nat) (o : Int) : CopyGot (List Nat) :=
  let c := s.core cid
  let xy := xyOf s cid
  let sw := fun (a : Nat) => if cpSwen e.packet then swizzle (cpSwf e.packet) (cpChunk e.packet) a else a
  let offs := (List.range n).map fun i => sw (o.toNat + i)
  if holderAt s xy.1 xy.2 ≠ some e.lease then .bad 0x0A 2 (BitVec.ofInt 64 o)
  else if o < 0 ∨ offs.any (fun a => decide (c.roleEnd role ≤ a)) then .bad (boundCause role) 0 (BitVec.ofInt 64 o)
  else if c.holdRole role then .hold
  else .ok (offs.map (c.roleAddr role))

/-- The pieces of a global element, one for each line it touches, checked as R275 orders. -/
def copyGlob (s : State) (e : CopyEnt) (k : GKind) : List (Nat × List Byte) → CopyGot (List (Loc × List Byte))
  | [] => .ok []
  | (va, bs) :: r =>
    let va := va % 2 ^ 48
    let addr := BitVec.ofNat 64 va
    match translate s e.cid e.lease va with
    | .unmapped => .bad 0x08 0 addr
    | .poisoned => .bad 0x0B 0 addr
    | .moving => .hold
    | .ok l pe =>
      if ! permOk k l pe then .bad 0x09 0 addr
      else if k = .store ∧ l.isSystem ∧ ! e.esc then .bad 0x11 0 addr
      else if denied s e.lease e.gen (k != .load) l then .bad 0x0A 1 addr
      else match copyGlob s e k r with
        | .ok ps => .ok ((l, bs) :: ps)
        | x => x

/-- Read an element of n bytes: its bytes, and whether one is poisoned. -/
def copyRead (s : State) (e : CopyEnt) (n : Nat) (x : CopySide) : CopyGot (List Byte × Bool) :=
  match x with
  | .pool role cid o =>
    match copyPool s e role cid n o with
    | .ok as =>
      let c := s.core cid
      .ok (as.map c.pool.get, as.any fun a => c.poisonRows.contains (a / 64))
    | .bad a b d => .bad a b d
    | .full l => .full l
    | .hold => .hold
  | .glob va =>
    match copyGlob s e .load (lineCuts (n + 1) va (List.replicate n 0)) with
    | .ok ps => .ok (ps.flatMap fun p => nodeRead s e.lease p.1 p.2.length, ps.any fun p => readBad s e.lease p.1)
    | .bad a b d => .bad a b d
    | .full l => .full l
    | .hold => .hold

/-- The RIN that a packet's writes carry (R302): its requester's, or for a COPY packet the device's. -/
def copyRin (s : State) (e : CopyEnt) : Rin := if e.pk.isSome then s.sl.cur else (s.core e.cid).rin

/-- The access code of an escape's bytes (R323): by their number; 64 bytes and the sizes without a code of their own are `.l`. -/
def escAc (n : Nat) : AC :=
  match n with
  | 1 => .z8
  | 2 => .z16
  | 4 => .z32
  | 8 => .z64
  | _ => .l

/-- One global piece written: an escape on a system page (R240, R323), else a store at its node whose line takes the poison of the
source. -/
def copyPut (e : CopyEnt) (dirty : Bool) (s : State) (p : Loc × List Byte) : State :=
  let c := s.core e.cid
  let r := copyRin s e
  if p.1.isSystem then
    let keep := e.pk.isNone && match c.patch.bind s.patch with
      | some q => ! hClassS q.hdr
      | none => false
    holdEscape s p.1 (some e.lease) (escAc p.2.length) false keep (if e.pk.isSome then 0 else c.px) (if e.pk.isSome then 0 else c.py)
      (e.task.getD 0) r p.2
  else
    let s := nodeWrite s p.1 p.2 r
    match p.1 with
    | .dev pa _ => if dirty && ! s.poison.contains (pa / 64) then { s with poison := pa / 64 :: s.poison } else s
    | _ => s

/-- Pool bytes written: their rows take the poison of the source, and a row written whole loses its own (R240). -/
def Core.copyRow (c : Core) (as : List Nat) (bs : List Byte) (dirty : Bool) : Core :=
  let rows := (as.map (· / 64)).eraseDups
  let whole := rows.filter fun r => (List.range 64).all fun i => as.contains (64 * r + i)
  let c := c.putBytes (as.zip bs)
  { c with poisonRows := (if dirty then rows else []) ++ c.poisonRows.filter fun r => ! (whole ++ if dirty then rows else []).contains r }

/-- Write an element: nothing of it is written unless all of it can be. -/
def copyWrite (s : State) (e : CopyEnt) (k : GKind) (x : CopySide) (bs : List Byte) (dirty : Bool) : CopyGot State :=
  match x with
  | .pool role cid o =>
    match copyPool s e role cid bs.length o with
    | .ok as => .ok (s.modCore cid fun c => c.copyRow as bs dirty)
    | .bad a b d => .bad a b d
    | .full l => .full l
    | .hold => .hold
  | .glob va =>
    match copyGlob s e k (lineCuts (bs.length + 1) va bs) with
    | .ok ps =>
      let t := ps.foldl (copyPut e dirty) s
      if ps.any (fun p => p.1.isSystem) && ! escapeRoom s then .full e.lease
      else match overLease t with
        | some l => .full l
        | none => .ok t
    | .bad a b d => .bad a b d
    | .full l => .full l
    | .hold => .hold

/-- `radd` at RTYPE (R237). -/
def copyAdd (t a b : Nat) : Nat :=
  match t with
  | 0 => (a + b) % 2 ^ 32
  | 1 => (a + b) % 2 ^ 64
  | 2 => fopEnc .add .f32 .rne false a b 0
  | 3 => fopEnc .add .f64 .rne false a b 0
  | 4 => fopEnc .add .bf16 .rne false a b 0
  | _ => fopEnc .add .f16 .rne false a b 0

/-- The read of an element charged to its lease's owner (R358). -/
def copyCharge (s : State) (e : CopyEnt) (x : CopySide) (n : Nat) : State :=
  match x with
  | .glob va => match translate s e.cid e.lease va with
    | .ok l _ => let s := countRead s e.lease l n; if e.pk.isSome then s else heard s e.cid l
    | _ => s
  | .pool _ _ _ => s

/-- One element performed (R237). A poisoned index or a poisoned value to add to is consumed by the engine: cause 0x0B (R240). -/
def copyElem (s : State) (cl : Nat) (e : CopyEnt) : CopyGot State :=
  let p := e.packet
  let z := 2 ^ cpEsz p
  let idx : CopyGot (List Byte × Bool) :=
    if cpOp p = 1 ∨ cpOp p = 2 then copyRead s e 4 (.glob ((cpAux p + 4 * e.next) % 2 ^ 48)) else .ok ([], false)
  match idx with
  | .bad a b d => .bad a b d
  | .full l => .full l
  | .hold => .hold
  | .ok (_, true) => .bad 0x0B 0 (BitVec.ofNat 64 ((cpAux p + 4 * e.next) % 2 ^ 48))
  | .ok (ib, false) =>
    let s := if cpOp p = 1 ∨ cpOp p = 2 then copyCharge s e (.glob ((cpAux p + 4 * e.next) % 2 ^ 48)) 4 else s
    let (src, dst) := copySides s cl p e.next (sgn 32 (bytesNat ib))
    if cpOp p = 3 then copyWrite s e .store dst (natBytes z (cpAux p)) false
    else match copyRead s e z src with
      | .bad a b d => .bad a b d
      | .full l => .full l
      | .hold => .hold
      | .ok (bs, dirty) =>
        let s := copyCharge s e src z
        if cpOp p = 4 then
          match copyRead s e z dst with
          | .bad a b d => .bad a b d
          | .full l => .full l
          | .hold => .hold
          | .ok (_, true) => .bad 0x0B 0 (BitVec.ofNat 64 (match dst with
            | .glob va => va
            | .pool _ _ _ => 0))
          | .ok (old, false) =>
            copyWrite (copyCharge s e dst z) e .atomic dst (natBytes z (copyAdd (cpRtype p) (bytesNat old) (bytesNat bs))) dirty
        else copyWrite s e .store dst bs dirty

/-! ### The end of a packet (R239, R240) -/

/-- A tag counts down; at 0 its done bit sets (R239). -/
def Core.endTag (c : Core) (t : Nat) (bad : Bool) : Core :=
  c.modTag t fun g =>
    let n := { g with pending := g.pending - 1 }
    let n := if g.pending ≤ 1 then n.setDone else n
    if bad then n.setErr else n

/-- A packet leaves its queue, its tag or its COPY packet told; an error is remembered for `cpyqf` (R267). -/
def endCopy (s : State) (cl q : Nat) (cause : Option (BitVec 8)) (e : CopyEnt) : State :=
  let s := s.modCluster cl fun c =>
    { c with queues := tmod c.queues q [] (·.filter (·.id != e.id)),
             errs := if cause.isSome then c.errs ++ [(e.id, q, e.lease)] else c.errs }
  match e.pk with
  | some n =>
    match cause with
    | some x => endPkt s n 17 0xFFFF (BitVec.ofNat 64 x.toNat)
    | none => s.modPkt n fun p => { p with copied := p.copied + 1 }
  | none =>
    if current s e.cid e.lease e.gen then
      markFiring (s.modCore e.cid fun c => c.endTag (cpTag e.packet) cause.isSome) (((s.core e.cid).patch).getD 0)
    else noteStale s e.cid e.lease e.gen

/-- The cause of a walk raised against its requester (R240): a task's at its next block boundary; where the slot is FREE or holds a
later task, and for a GEN core, the patch stops. Poison takes a rollback (R326). A denial is counted where it was met (R108). -/
def raiseWalk (s : State) (e : CopyEnt) (cause sub : BitVec 8) (addr : BitVec 64) : State :=
  let x : Cause := { cause := cause, sub := sub, addr := addr, async := e.task.isSome }
  let s := match translate s e.cid e.lease addr.toNat with
    | .ok l _ => if cause = 0x0A ∧ sub = 1 ∧ (e.pk.isSome ∨ e.task.isSome) then noteDenied s e.lease l else s
    | _ => s
  match e.pk with
  | some _ =>
    if cause = 0x0B then
      let s := match translate s e.cid e.lease addr.toNat with
        | .ok l _ => if injected s e.lease l then noteRead s e.lease l else s
        | _ => s
      poisonUsed s (copyRin s e)
    else s
  | none =>
    if ! current s e.cid e.lease e.gen then s
    else match e.task with
      | none => raiseCore s e.cid none 0 0 x
      | some k =>
        let t := (s.core e.cid).task k
        if cause = 0x0B ∨ t.st = .free ∨ e.id < t.since then raiseCore s e.cid (some k) 0 0 x
        else s.modCore e.cid fun c => c.modTask k fun t =>
          { t with async := t.async ++ [{ cause := cause, sub := sub, addr := addr }] }

/-- Whether a packet's requester is still there: its lease, and for a core its patch on that core (R105). -/
def copyCurrent (s : State) (e : CopyEnt) : Bool :=
  if e.pk.isSome then (s.lease e.lease).isSome && genOf s e.lease = e.gen else current s e.cid e.lease e.gen

/-- COPY_WALK (R237, R239, R240): the next element of the packet at the head of a queue performs; after the last the packet
completes. An element that cannot perform ends the walk, and the packets behind it are discarded with an error. -/
def execCopyWalk (cl q : Nat) (s : State) : Host.Outcome State Fault Refusal :=
  .next (match copyQ s cl q with
    | [] => s
    | e :: rest =>
      if ! copyCurrent s e then endCopy s cl q none e
      else match copyElem s cl e with
        | .hold => s
        | .full l => if e.stalled then s else countStall (s.modCluster cl fun c =>
            { c with queues := tmod c.queues q [] (·.map fun x => if x.id = e.id then { x with stalled := true } else x) }) l
        | .bad cause sub addr =>
          (e :: rest).foldl (fun s x => endCopy s cl q (some cause) x) (raiseWalk s e cause sub addr)
        | .ok s =>
          let n := e.next + 1
          if n < copyCount e.packet then
            s.modCluster cl fun c =>
              { c with queues := tmod c.queues q [] (·.map fun x => if x.id = e.id then { x with next := n, stalled := false } else x) }
          else endCopy s cl q none e)

end Sys2Proof.Machine
end

