-- ==== Sys2Proof/Machine/FloatOps.lean ====
section
/-! DEFINITION. Floating instructions (R201 to R216). TCTL is read as it stood at the instance's start: nothing but a commit changes it (R201) -/

namespace Sys2Proof.Machine

/-- What a floating instruction reads of its task; a pinned block rounds to nearest even and honours subnormals (R71, R75,
R201). -/
def Env.fenv (e : Env) : FEnv :=
  if e.pinned then {}
  else { dyn := natBits e.t.tctl.toNat 0 2, sr := e.t.tctl.getLsbD 2, ftz := e.t.tctl.getLsbD 3, gen := e.t.rstate,
         base := e.inst.drawBase (e.t.tctl.getLsbD 2) e.slot }

/-- Fire a conversion with its result, counting the draws that it used (R74). -/
def Env.converted (e : Env) (i : Instr) (h : Head) (v : Value) (s : State) : State :=
  let n := (drawsOf (! e.pinned && e.t.tctl.getLsbD 2) i).getD 0
  e.update (fun x => (x.modSlot e.slot fun q => { q with draws := n }).fire e.slot h (some (.val v)) (some (.val v))) s

/-- `fadd` (R203). -/
def execFadd (h : Head) (ec : FltEC) (b : Option (BitVec 32)) (s : State) : Host.Outcome State Fault Refusal :=
  issue (.fadd h ec b) s fun h e v s =>
    e.result h (fltMap ec (fopEnc .add ec.f e.fenv.mode e.fenv.ftz) v.a (opBFlt ec b v.b) v.c) s

/-- `fsub` (R203). -/
def execFsub (h : Head) (ec : FltEC) (b : Option (BitVec 32)) (s : State) : Host.Outcome State Fault Refusal :=
  issue (.fsub h ec b) s fun h e v s =>
    e.result h (fltMap ec (fopEnc .sub ec.f e.fenv.mode e.fenv.ftz) v.a (opBFlt ec b v.b) v.c) s

/-- `fmul` (R203). -/
def execFmul (h : Head) (ec : FltEC) (b : Option (BitVec 32)) (s : State) : Host.Outcome State Fault Refusal :=
  issue (.fmul h ec b) s fun h e v s =>
    e.result h (fltMap ec (fopEnc .mul ec.f e.fenv.mode e.fenv.ftz) v.a (opBFlt ec b v.b) v.c) s

/-- `ffma` (R203). -/
def execFfma (h : Head) (ec : FltEC) (b : Option (BitVec 32)) (s : State) : Host.Outcome State Fault Refusal :=
  issue (.ffma h ec b) s fun h e v s =>
    e.result h (fltMap ec (fopEnc .fma ec.f e.fenv.mode e.fenv.ftz) v.a (opBFlt ec b v.b) v.c) s

/-- `ffms` (R203). -/
def execFfms (h : Head) (ec : FltEC) (b : Option (BitVec 32)) (s : State) : Host.Outcome State Fault Refusal :=
  issue (.ffms h ec b) s fun h e v s =>
    e.result h (fltMap ec (fopEnc .fms ec.f e.fenv.mode e.fenv.ftz) v.a (opBFlt ec b v.b) v.c) s

/-- `fnma` (R203). -/
def execFnma (h : Head) (ec : FltEC) (b : Option (BitVec 32)) (s : State) : Host.Outcome State Fault Refusal :=
  issue (.fnma h ec b) s fun h e v s =>
    e.result h (fltMap ec (fopEnc .nma ec.f e.fenv.mode e.fenv.ftz) v.a (opBFlt ec b v.b) v.c) s

/-- `fmin` (R204). -/
def execFmin (h : Head) (ec : FltEC) (b : Option (BitVec 32)) (s : State) : Host.Outcome State Fault Refusal :=
  issue (.fmin h ec b) s fun h e v s =>
    e.result h (fltMap ec (fun a b _ => fminmax false ec.f e.fenv.ftz a b) v.a (opBFlt ec b v.b) 0) s

/-- `fmax` (R204). -/
def execFmax (h : Head) (ec : FltEC) (b : Option (BitVec 32)) (s : State) : Host.Outcome State Fault Refusal :=
  issue (.fmax h ec b) s fun h e v s =>
    e.result h (fltMap ec (fun a b _ => fminmax true ec.f e.fenv.ftz a b) v.a (opBFlt ec b v.b) 0) s

/-- `fabs` (R204). -/
def execFabs (h : Head) (ec : FltEC) (s : State) : Host.Outcome State Fault Refusal :=
  issue (.fabs h ec) s fun h e v s =>
    e.result h (fltMap ec (fun a _ _ => withSign ec.f e.fenv.ftz false a) v.a 0 0) s

/-- `fneg` (R204). -/
def execFneg (h : Head) (ec : FltEC) (s : State) : Host.Outcome State Fault Refusal :=
  issue (.fneg h ec) s fun h e v s =>
    e.result h (fltMap ec (fun a _ _ => withSign ec.f e.fenv.ftz (! encNeg ec.f a) a) v.a 0 0) s

/-- `fcpys` (R204). -/
def execFcpys (h : Head) (ec : FltEC) (b : Option (BitVec 32)) (s : State) : Host.Outcome State Fault Refusal :=
  issue (.fcpys h ec b) s fun h e v s =>
    e.result h (fltMap ec (fun a b _ => withSign ec.f e.fenv.ftz (encNeg ec.f b) a) v.a (opBFlt ec b v.b) 0) s

/-- `ftest` (R205). -/
def execFtest (h : Head) (ec : FltEC) (c : FCond) (s : State) : Host.Outcome State Fault Refusal :=
  issue (.ftest h ec c) s fun h e v s =>
    e.result h (truthResult ec.scalar (fmtBits ec.f) ((List.range (fltCount ec)).map fun k =>
      fcondHolds c (dec ec.f e.fenv.ftz (elem v.a (fmtBits ec.f) k)) (dec ec.f e.fenv.ftz (elem v.b (fmtBits ec.f) k)))) s

/-- `fclass` (R206). -/
def execFclass (h : Head) (ec : FltEC) (mask : BitVec 9) (s : State) : Host.Outcome State Fault Refusal :=
  issue (.fclass h ec mask) s fun h e v s =>
    e.result h (truthResult ec.scalar (fmtBits ec.f) ((List.range (fltCount ec)).map fun k =>
      mask.getLsbD (fclassOf ec.f (elem v.a (fmtBits ec.f) k)))) s

/-- `fcvt` (R209). -/
def execFcvt (h : Head) (ec : FltEC) (c : CvtF) (s : State) : Host.Outcome State Fault Refusal :=
  issue (.fcvt h ec c) s fun h e v s =>
    e.converted (.fcvt h ec c) h (fcvtResult e.fenv ec c v.a v.c) s

/-- `icvtf` (R210). -/
def execIcvtf (h : Head) (ec : FltEC) (c : CvtF) (s : State) : Host.Outcome State Fault Refusal :=
  issue (.icvtf h ec c) s fun h e v s =>
    e.result h (icvtfResult e.fenv ec c v.a v.c) s

/-- `fcvti` (R210). -/
def execFcvti (h : Head) (ec : FltEC) (c : CvtF) (s : State) : Host.Outcome State Fault Refusal :=
  issue (.fcvti h ec c) s fun h e v s =>
    e.result h (fcvtiResult e.fenv ec c v.a v.c) s

/-- `frcp` (R215, R216). -/
def execFrcp (h : Head) (ec : FltEC) (s : State) : Host.Outcome State Fault Refusal :=
  issue (.frcp h ec) s fun h e v s =>
    e.result h (fltMap ec (fun a _ _ => sfu .rcp ec.f e.fenv.ftz a) v.a 0 0) s

/-- `frsq` (R215, R216). -/
def execFrsq (h : Head) (ec : FltEC) (s : State) : Host.Outcome State Fault Refusal :=
  issue (.frsq h ec) s fun h e v s =>
    e.result h (fltMap ec (fun a _ _ => sfu .rsq ec.f e.fenv.ftz a) v.a 0 0) s

/-- `fexp2` (R215, R216). -/
def execFexp2 (h : Head) (ec : FltEC) (s : State) : Host.Outcome State Fault Refusal :=
  issue (.fexp2 h ec) s fun h e v s =>
    e.result h (fltMap ec (fun a _ _ => sfu .exp2 ec.f e.fenv.ftz a) v.a 0 0) s

/-- `flog2` (R215, R216). -/
def execFlog2 (h : Head) (ec : FltEC) (s : State) : Host.Outcome State Fault Refusal :=
  issue (.flog2 h ec) s fun h e v s =>
    e.result h (fltMap ec (fun a _ _ => sfu .log2 ec.f e.fenv.ftz a) v.a 0 0) s

/-- `fsinp` (R215, R216). -/
def execFsinp (h : Head) (ec : FltEC) (s : State) : Host.Outcome State Fault Refusal :=
  issue (.fsinp h ec) s fun h e v s =>
    e.result h (fltMap ec (fun a _ _ => sfu .sinp ec.f e.fenv.ftz a) v.a 0 0) s

/-- `fcosp` (R215, R216). -/
def execFcosp (h : Head) (ec : FltEC) (s : State) : Host.Outcome State Fault Refusal :=
  issue (.fcosp h ec) s fun h e v s =>
    e.result h (fltMap ec (fun a _ _ => sfu .cosp ec.f e.fenv.ftz a) v.a 0 0) s

/-- `ftanh` (R215, R216). -/
def execFtanh (h : Head) (ec : FltEC) (s : State) : Host.Outcome State Fault Refusal :=
  issue (.ftanh h ec) s fun h e v s =>
    e.result h (fltMap ec (fun a _ _ => sfu .tanh ec.f e.fenv.ftz a) v.a 0 0) s

/-- `fsqrt` (R215): correctly rounded. -/
def execFsqrt (h : Head) (ec : FltEC) (s : State) : Host.Outcome State Fault Refusal :=
  issue (.fsqrt h ec) s fun h e v s =>
    e.result h (fltMap ec (fun a _ _ => rnd ec.f (dec ec.f e.fenv.ftz a).sqrt e.fenv.mode false e.fenv.ftz) v.a 0 0) s

/-- `fdiv` (R215): correctly rounded. -/
def execFdiv (h : Head) (ec : FltEC) (b : Option (BitVec 32)) (s : State) : Host.Outcome State Fault Refusal :=
  issue (.fdiv h ec b) s fun h e v s =>
    e.result h (fltMap ec (fun a b _ =>
      rnd ec.f ((dec ec.f e.fenv.ftz a).div (dec ec.f e.fenv.ftz b)) e.fenv.mode false e.fenv.ftz) v.a (opBFlt ec b v.b) 0) s

/-- `dot` (R214). -/
def execDot (h : Head) (ec : FltEC) (r : BitVec 3) (s : State) : Host.Outcome State Fault Refusal :=
  issue (.dot h ec r) s fun h e v s =>
    e.result h (dotResult e.fenv ec r v.a v.b v.c) s

/-- `pack` (R211). -/
def execPack (h : Head) (ec : FltEC) (c : CvtF) (s : State) : Host.Outcome State Fault Refusal :=
  issue (.pack h ec c) s fun h e v s =>
    e.converted (.pack h ec c) h (packResult e.fenv ec c v.a v.b) s

/-- `unpack` (R211). -/
def execUnpack (h : Head) (ec : FltEC) (c : CvtF) (s : State) : Host.Outcome State Fault Refusal :=
  issue (.unpack h ec c) s fun h e v s =>
    e.result h (unpackResult e.fenv ec c v.a) s

/-- `scaleb` (R213). -/
def execScaleb (h : Head) (ec : FltEC) (r : BitVec 3) (s : State) : Host.Outcome State Fault Refusal :=
  issue (.scaleb h ec r) s fun h e v s =>
    e.result h (fltMap ec (fun a b _ => scalebEnc ec.f (e.fenv.sel r) e.fenv.ftz a b) v.a v.b 0) s

/-- `quant` (R212): the data go to T0, the scale to T1. -/
def execQuant (h : Head) (ec : FltEC) (c : CvtF) (s : State) : Host.Outcome State Fault Refusal :=
  issue (.quant h ec c) s fun h e v s =>
    let q := quantResult e.fenv ec c v.a v.b v.c
    let n := (drawsOf (! e.pinned && e.t.tctl.getLsbD 2) (.quant h ec c)).getD 0
    e.update (fun x => (x.modSlot e.slot fun y => { y with draws := n }).fire e.slot h (some (.val q.1)) (some (.val q.2))) s

end Sys2Proof.Machine
end

