-- ==== Sys2Proof/Machine/Integer.lean ====
section
/-! DEFINITION. Integer and address instructions (R184 to R189) -/

namespace Sys2Proof.Machine

/-- `add` (R185): A + B, wrapping. -/
def execAdd (h : Head) (ec : IntEC) (b : Option (BitVec 32)) (s : State) : Host.Outcome State Fault Refusal :=
  issue (.add h ec b) s fun h e v s =>
    e.result h (intMap ec (fun a b _ => a + b) v.a (opBInt ec b v.b) v.c) s

/-- `sub` (R185): A − B, wrapping. -/
def execSub (h : Head) (ec : IntEC) (b : Option (BitVec 32)) (s : State) : Host.Outcome State Fault Refusal :=
  issue (.sub h ec b) s fun h e v s =>
    e.result h (intMap ec (fun a b _ => subN (intBits ec.w) a b) v.a (opBInt ec b v.b) v.c) s

/-- `adds` (R185): saturating sum. -/
def execAdds (h : Head) (ec : IntEC) (b : Option (BitVec 32)) (s : State) : Host.Outcome State Fault Refusal :=
  issue (.adds h ec b) s fun h e v s =>
    e.result h (intMap ec (fun a b _ => satAdd ec.z (intBits ec.w) a b) v.a (opBInt ec b v.b) v.c) s

/-- `subs` (R185): saturating difference. -/
def execSubs (h : Head) (ec : IntEC) (b : Option (BitVec 32)) (s : State) : Host.Outcome State Fault Refusal :=
  issue (.subs h ec b) s fun h e v s =>
    e.result h (intMap ec (fun a b _ => satSub ec.z (intBits ec.w) a b) v.a (opBInt ec b v.b) v.c) s

/-- `mul` (R185): low half of the product. -/
def execMul (h : Head) (ec : IntEC) (b : Option (BitVec 32)) (s : State) : Host.Outcome State Fault Refusal :=
  issue (.mul h ec b) s fun h e v s =>
    e.result h (intMap ec (fun a b _ => a * b) v.a (opBInt ec b v.b) v.c) s

/-- `mulh` (R185): high half of the signed product. -/
def execMulh (h : Head) (ec : IntEC) (b : Option (BitVec 32)) (s : State) : Host.Outcome State Fault Refusal :=
  issue (.mulh h ec b) s fun h e v s =>
    e.result h (intMap ec (fun a b _ => mulHigh false (intBits ec.w) a b) v.a (opBInt ec b v.b) v.c) s

/-- `mulhz` (R185): high half of the unsigned product. -/
def execMulhz (h : Head) (ec : IntEC) (b : Option (BitVec 32)) (s : State) : Host.Outcome State Fault Refusal :=
  issue (.mulhz h ec b) s fun h e v s =>
    e.result h (intMap ec (fun a b _ => mulHigh true (intBits ec.w) a b) v.a (opBInt ec b v.b) v.c) s

/-- `mad` (R185): A × B + C, wrapping. -/
def execMad (h : Head) (ec : IntEC) (b : Option (BitVec 32)) (s : State) : Host.Outcome State Fault Refusal :=
  issue (.mad h ec b) s fun h e v s =>
    e.result h (intMap ec (fun a b c => a * b + c) v.a (opBInt ec b v.b) v.c) s

/-- `div` (R185): signed quotient (R66). -/
def execDiv (h : Head) (ec : IntEC) (b : Option (BitVec 32)) (s : State) : Host.Outcome State Fault Refusal :=
  issue (.div h ec b) s fun h e v s =>
    e.result h (intMap ec (fun a b _ => quot false (intBits ec.w) a b) v.a (opBInt ec b v.b) v.c) s

/-- `divz` (R185): unsigned quotient (R66). -/
def execDivz (h : Head) (ec : IntEC) (b : Option (BitVec 32)) (s : State) : Host.Outcome State Fault Refusal :=
  issue (.divz h ec b) s fun h e v s =>
    e.result h (intMap ec (fun a b _ => quot true (intBits ec.w) a b) v.a (opBInt ec b v.b) v.c) s

/-- `rem` (R185): signed remainder (R66). -/
def execRem (h : Head) (ec : IntEC) (b : Option (BitVec 32)) (s : State) : Host.Outcome State Fault Refusal :=
  issue (.rem h ec b) s fun h e v s =>
    e.result h (intMap ec (fun a b _ => remn false (intBits ec.w) a b) v.a (opBInt ec b v.b) v.c) s

/-- `remz` (R185): unsigned remainder (R66). -/
def execRemz (h : Head) (ec : IntEC) (b : Option (BitVec 32)) (s : State) : Host.Outcome State Fault Refusal :=
  issue (.remz h ec b) s fun h e v s =>
    e.result h (intMap ec (fun a b _ => remn true (intBits ec.w) a b) v.a (opBInt ec b v.b) v.c) s

/-- `and` (R185): bitwise and. -/
def execAnd (h : Head) (ec : IntEC) (b : Option (BitVec 32)) (s : State) : Host.Outcome State Fault Refusal :=
  issue (.and h ec b) s fun h e v s =>
    e.result h (intMap ec (fun a b _ => a &&& b) v.a (opBInt ec b v.b) v.c) s

/-- `or` (R185): bitwise or. -/
def execOr (h : Head) (ec : IntEC) (b : Option (BitVec 32)) (s : State) : Host.Outcome State Fault Refusal :=
  issue (.or h ec b) s fun h e v s =>
    e.result h (intMap ec (fun a b _ => a ||| b) v.a (opBInt ec b v.b) v.c) s

/-- `xor` (R185): bitwise exclusive or. -/
def execXor (h : Head) (ec : IntEC) (b : Option (BitVec 32)) (s : State) : Host.Outcome State Fault Refusal :=
  issue (.xor h ec b) s fun h e v s =>
    e.result h (intMap ec (fun a b _ => a ^^^ b) v.a (opBInt ec b v.b) v.c) s

/-- `andn` (R185): A and not B. -/
def execAndn (h : Head) (ec : IntEC) (b : Option (BitVec 32)) (s : State) : Host.Outcome State Fault Refusal :=
  issue (.andn h ec b) s fun h e v s =>
    e.result h (intMap ec (fun a b _ => a &&& notN (intBits ec.w) b) v.a (opBInt ec b v.b) v.c) s

/-- `orn` (R185): A or not B. -/
def execOrn (h : Head) (ec : IntEC) (b : Option (BitVec 32)) (s : State) : Host.Outcome State Fault Refusal :=
  issue (.orn h ec b) s fun h e v s =>
    e.result h (intMap ec (fun a b _ => a ||| notN (intBits ec.w) b) v.a (opBInt ec b v.b) v.c) s

/-- `shl` (R186): left shift. -/
def execShl (h : Head) (ec : IntEC) (b : Option (BitVec 32)) (s : State) : Host.Outcome State Fault Refusal :=
  issue (.shl h ec b) s fun h e v s =>
    e.result h (intMap ec (fun a b _ => shlN (intBits ec.w) a b) v.a (opBInt ec b v.b) v.c) s

/-- `shr` (R186): logical right shift. -/
def execShr (h : Head) (ec : IntEC) (b : Option (BitVec 32)) (s : State) : Host.Outcome State Fault Refusal :=
  issue (.shr h ec b) s fun h e v s =>
    e.result h (intMap ec (fun a b _ => shrN (intBits ec.w) a b) v.a (opBInt ec b v.b) v.c) s

/-- `sar` (R186): arithmetic right shift. -/
def execSar (h : Head) (ec : IntEC) (b : Option (BitVec 32)) (s : State) : Host.Outcome State Fault Refusal :=
  issue (.sar h ec b) s fun h e v s =>
    e.result h (intMap ec (fun a b _ => sarN (intBits ec.w) a b) v.a (opBInt ec b v.b) v.c) s

/-- `rol` (R186): left rotation. -/
def execRol (h : Head) (ec : IntEC) (b : Option (BitVec 32)) (s : State) : Host.Outcome State Fault Refusal :=
  issue (.rol h ec b) s fun h e v s =>
    e.result h (intMap ec (fun a b _ => rolN (intBits ec.w) a b) v.a (opBInt ec b v.b) v.c) s

/-- `clz` (R187): leading zero bits. -/
def execClz (h : Head) (ec : IntEC) (s : State) : Host.Outcome State Fault Refusal :=
  issue (.clz h ec) s fun h e v s =>
    e.result h (intMap ec (fun a _ _ => clzN (intBits ec.w) a) v.a 0 0) s

/-- `ctz` (R187): trailing zero bits. -/
def execCtz (h : Head) (ec : IntEC) (s : State) : Host.Outcome State Fault Refusal :=
  issue (.ctz h ec) s fun h e v s =>
    e.result h (intMap ec (fun a _ _ => ctzN (intBits ec.w) a) v.a 0 0) s

/-- `popc` (R187): one bits. -/
def execPopc (h : Head) (ec : IntEC) (s : State) : Host.Outcome State Fault Refusal :=
  issue (.popc h ec) s fun h e v s =>
    e.result h (intMap ec (fun a _ _ => popN (intBits ec.w) a) v.a 0 0) s

/-- `brev` (R187): bits reversed. -/
def execBrev (h : Head) (ec : IntEC) (s : State) : Host.Outcome State Fault Refusal :=
  issue (.brev h ec) s fun h e v s =>
    e.result h (intMap ec (fun a _ _ => brevN (intBits ec.w) a) v.a 0 0) s

/-- `bswap` (R187): bytes reversed. -/
def execBswap (h : Head) (ec : IntEC) (s : State) : Host.Outcome State Fault Refusal :=
  issue (.bswap h ec) s fun h e v s =>
    e.result h (intMap ec (fun a _ _ => bswapN (intBits ec.w) a) v.a 0 0) s

/-- `ext` (R188): signed field. -/
def execExt (h : Head) (ec : IntEC) (b : Option (BitVec 32)) (s : State) : Host.Outcome State Fault Refusal :=
  issue (.ext h ec b) s fun h e v s =>
    e.result h (intMap ec (fun a b _ => extN (intBits ec.w) a b) v.a (opBInt ec b v.b) v.c) s

/-- `extz` (R188): unsigned field. -/
def execExtz (h : Head) (ec : IntEC) (b : Option (BitVec 32)) (s : State) : Host.Outcome State Fault Refusal :=
  issue (.extz h ec b) s fun h e v s =>
    e.result h (intMap ec (fun a b _ => extzN (intBits ec.w) a b) v.a (opBInt ec b v.b) v.c) s

/-- `ins` (R188): field inserted. -/
def execIns (h : Head) (ec : IntEC) (b : Option (BitVec 32)) (s : State) : Host.Outcome State Fault Refusal :=
  issue (.ins h ec b) s fun h e v s =>
    e.result h (intMap ec (fun a b c => insN (intBits ec.w) a b c) v.a (opBInt ec b v.b) v.c) s

/-- `min` (R185): signed minimum. -/
def execMin (h : Head) (ec : IntEC) (b : Option (BitVec 32)) (s : State) : Host.Outcome State Fault Refusal :=
  issue (.min h ec b) s fun h e v s =>
    e.result h (intMap ec (fun a b _ => minN false (intBits ec.w) a b) v.a (opBInt ec b v.b) v.c) s

/-- `max` (R185): signed maximum. -/
def execMax (h : Head) (ec : IntEC) (b : Option (BitVec 32)) (s : State) : Host.Outcome State Fault Refusal :=
  issue (.max h ec b) s fun h e v s =>
    e.result h (intMap ec (fun a b _ => maxN false (intBits ec.w) a b) v.a (opBInt ec b v.b) v.c) s

/-- `minz` (R185): unsigned minimum. -/
def execMinz (h : Head) (ec : IntEC) (b : Option (BitVec 32)) (s : State) : Host.Outcome State Fault Refusal :=
  issue (.minz h ec b) s fun h e v s =>
    e.result h (intMap ec (fun a b _ => minN true (intBits ec.w) a b) v.a (opBInt ec b v.b) v.c) s

/-- `maxz` (R185): unsigned maximum. -/
def execMaxz (h : Head) (ec : IntEC) (b : Option (BitVec 32)) (s : State) : Host.Outcome State Fault Refusal :=
  issue (.maxz h ec b) s fun h e v s =>
    e.result h (intMap ec (fun a b _ => maxN true (intBits ec.w) a b) v.a (opBInt ec b v.b) v.c) s

/-- `abs` (R185): absolute value. -/
def execAbs (h : Head) (ec : IntEC) (s : State) : Host.Outcome State Fault Refusal :=
  issue (.abs h ec) s fun h e v s =>
    e.result h (intMap ec (fun a _ _ => absN (intBits ec.w) a) v.a 0 0) s

/-- `neg` (R185): 0 − A. -/
def execNeg (h : Head) (ec : IntEC) (s : State) : Host.Outcome State Fault Refusal :=
  issue (.neg h ec) s fun h e v s =>
    e.result h (intMap ec (fun a _ _ => negN (intBits ec.w) a) v.a 0 0) s

/-- `lea` (R189): 48-bit address sum. -/
def execLea (h : Head) (ec : IntEC) (b : Option (BitVec 32)) (s : State) : Host.Outcome State Fault Refusal :=
  issue (.lea h ec b) s fun h e v s =>
    e.result h (intMap ec (fun a b _ => leaN a b) v.a (opBInt ec b v.b) v.c) s

end Sys2Proof.Machine
end

