-- ==== Sys2Proof/Machine/Lane.lean ====
section
/-! DEFINITION. The lane network (R217 to R219) -/

namespace Sys2Proof.Machine

/-- `perm` (R218). -/
def execPerm (h : Head) (ec : EC) (zoob : Bool) (s : State) : Host.Outcome State Fault Refusal :=
  issue (.perm h ec zoob) s fun h e v s =>
    e.result h (permResult ec zoob v.a v.b) s

/-- `rotl` (R218). -/
def execRotl (h : Head) (ec : EC) (dyn : Bool) (c : BitVec 7) (s : State) : Host.Outcome State Fault Refusal :=
  issue (.rotl h ec dyn c) s fun h e v s =>
    e.result h (rotlResult ec (if dyn then bitsOf v.b 0 7 else c.toNat) v.a) s

/-- `shfl` (R218). -/
def execShfl (h : Head) (ec : EC) (mode : BitVec 2) (d : BitVec 6) (s : State) : Host.Outcome State Fault Refusal :=
  issue (.shfl h ec mode d) s fun h e v s =>
    e.result h (shflResult ec mode d.toNat v.a) s

/-- `bcastl` (R218). -/
def execBcastl (h : Head) (ec : EC) (j : BitVec 6) (s : State) : Host.Outcome State Fault Refusal :=
  issue (.bcastl h ec j) s fun h e v s =>
    e.result h (bcastlResult ec j.toNat v.a) s

/-- `redl` (R219). -/
def execRedl (h : Head) (ec : EC) (g : BitVec 3) (r : BitVec 3) (op : RedOp) (s : State) : Host.Outcome State Fault Refusal :=
  issue (.redl h ec g r op) s fun h e v s =>
    e.result h (redlResult ec g op (e.fenv.sel r) e.fenv.ftz v.a) s

/-- `scanl` (R219). -/
def execScanl (h : Head) (ec : EC) (g : BitVec 3) (excl : Bool) (r : BitVec 3) (op : RedOp) (s : State) : Host.Outcome State Fault Refusal :=
  issue (.scanl h ec g excl r op) s fun h e v s =>
    e.result h (scanlResult ec g excl op (e.fenv.sel r) e.fenv.ftz v.a) s

/-- `compr` (R218). -/
def execCompr (h : Head) (ec : EC) (s : State) : Host.Outcome State Fault Refusal :=
  issue (.compr h ec) s fun h e v s =>
    e.result h (comprResult ec v.a v.b) s

/-- `expnd` (R218). -/
def execExpnd (h : Head) (ec : EC) (merge : Bool) (s : State) : Host.Outcome State Fault Refusal :=
  issue (.expnd h ec merge) s fun h e v s =>
    e.result h (expndResult ec merge v.a v.b v.c) s

/-- `lsel` (R218). -/
def execLsel (h : Head) (ec : EC) (s : State) : Host.Outcome State Fault Refusal :=
  issue (.lsel h ec) s fun h e v s =>
    e.result h (lselResult ec v.a v.b v.c) s

/-- `iota` (R218). -/
def execIota (h : Head) (ec : EC) (base : BitVec 16) (inc : BitVec 8) (s : State) : Host.Outcome State Fault Refusal :=
  issue (.iota h ec base inc) s fun h e _ s =>
    e.result h (iotaResult ec base inc) s

end Sys2Proof.Machine
end

