-- ==== Sys2Proof/Machine/Stream.lean ====
section
/-! DEFINITION. Stream operators of pinned blocks (R220 to R223). -/

namespace Sys2Proof.Machine

/-- The kind that operand A carries: DATA from an instruction, its head's kind from a read entry (R220). -/
def SlotSt.kindA (q : SlotSt) : Nat :=
  match q.a with
  | some (.tok k _) => k.toNat
  | _ => 0

/-- What `accs` does with one token (R221): the accumulator afterwards, and the tokens it emits. -/
def accsStep (ec : EC) (lvl : Nat) (op : RedOp) (mode : RMode) (q : Acc) (kind : Nat) (a : Value) :
    Acc × List (BitVec 4 × Value) :=
  if kind = 0 then
    ({ acc := if q.empty then foldStart ec false a else redValue ec op mode false q.acc a, empty := false }, [])
  else if 1 ≤ kind ∧ kind ≤ 7 then
    if kind < lvl then (q, [])
    else
      let first : List (BitVec 4 × Value) := [if q.empty then (12, 0) else (0, q.acc)]
      let next : List (BitVec 4 × Value) :=
        if kind = 7 then [(7, 0)] else if lvl < kind then [(BitVec.ofNat 4 (kind - lvl), 0)] else []
      ({ q with empty := true }, first ++ next)
  else (q, [])

/-- `accs` (R221): folds a stream element by element. The accumulator is kept by stage slot and the arm whose word it is (R157). -/
def execAccs (h : Head) (ec : EC) (lvl : BitVec 3) (rnd : BitVec 3) (op : RedOp) (s : State) :
    Host.Outcome State Fault Refusal :=
  issue (.accs h ec lvl rnd op) s fun h e v s =>
    let n := e.slot + 16 * e.c.wordArm e.inst.arm e.slot
    let r := accsStep ec lvl.toNat op (selMode rnd 0 false 0) (tgetD e.c.accs n {}) e.ss.kindA v.a
    let s := s.modCore e.cid fun c => { c with accs := tset c.accs n r.1 }
    let out := fun (x : Inst) (t : Target) => r.2.foldl (fun x p => x.deliver e.slot t (.tok p.1 p.2)) x
    e.update (fun x => out (out (x.modSlot e.slot fun q => { q with ph := .fired }) h.t0) h.t1) s

/-- `stopk` (R222): one STOP of a level each time it fires. -/
def execStopk (h : Head) (lvl : BitVec 3) (s : State) : Host.Outcome State Fault Refusal :=
  issue (.stopk h lvl) s fun h e _ s =>
    let o : Option Opnd := some (.tok (lvl.setWidth 4) 0)
    e.update (fun x => x.fire e.slot h o o) s

/-- `tkind` (R222): the kind that A carries. -/
def execTkind (h : Head) (s : State) : Host.Outcome State Fault Refusal :=
  issue (.tkind h) s fun h e _ s => e.result h (scalar e.ss.kindA) s

/-- The heads that a `redn` folds, in the order of its mode (R223): by channel, or by arrival. -/
def rednHeads (arr : Bool) (mask : BitVec 16) (heads : List (Nat × Nat × Flit)) : List Flit :=
  let mine := heads.filter fun x => mask.getLsbD x.1
  let key := fun (x : Nat × Nat × Flit) => if arr then x.2.1 else x.1
  (sortBy (fun a b => decide (key a < key b) || (key a == key b && decide (a.1 ≤ b.1))) mine).map fun x => x.2.2

/-- A fold of values from the left. -/
def foldValues (f : Value → Value → Value) : List Value → Value
  | [] => 0
  | x :: xs => xs.foldl f x

/-- `redn` (R223): folds the heads that its instance consumed from the masked channels; a NULL head makes the result null. -/
def execRedn (h : Head) (ec : EC) (mask : BitVec 16) (arr : Bool) (rnd : BitVec 3) (op : RedOp) (s : State) :
    Host.Outcome State Fault Refusal :=
  issue (.redn h ec mask arr rnd op) s fun h e _ s =>
    let fs := rednHeads arr mask e.inst.heads
    if fs.any (·.kind = 12) then e.update (fun x => x.nullOut e.slot h) s
    else e.result h (foldValues (redValue ec op (selMode rnd 0 false 0) false) (fs.map (·.value))) s

end Sys2Proof.Machine
end

