-- ==== Sys2Proof/Machine/Dispatch.lean ====
section
/-! DEFINITION. One arm per constructor of Instr: each a direct call of that step's meaning. -/

namespace Sys2Proof.Machine

/-- The meaning of a step. -/
def exec (i : Instr) (s : State) : Host.Outcome State Fault Refusal :=
  match i with
  | .packetWrite x0 x1 x2 x3 => Sys2Proof.Machine.execPacketWrite x0 x1 x2 x3 s
  | .resume x0 x1 x2 => Sys2Proof.Machine.execResume x0 x1 x2 s
  | .chead x0 x1 x2 => Sys2Proof.Machine.execChead x0 x1 x2 s
  | .registerWrite x0 x1 x2 x3 => Sys2Proof.Machine.execRegisterWrite x0 x1 x2 x3 s
  | .ingest x0 => Sys2Proof.Machine.execIngest x0 s
  | .move x0 x1 x2 => Sys2Proof.Machine.execMove x0 x1 x2 s
  | .press x0 => Sys2Proof.Machine.execPress x0 s
  | .evict x0 => Sys2Proof.Machine.execEvict x0 s
  | .restore x0 x1 x2 => Sys2Proof.Machine.execRestore x0 x1 x2 s
  | .rinse x0 => Sys2Proof.Machine.execRinse x0 s
  | .rinseDone x0 => Sys2Proof.Machine.execRinseDone x0 s
  | .darn x0 x1 => Sys2Proof.Machine.execDarn x0 x1 s
  | .stripCoreFailure x0 => Sys2Proof.Machine.execStripCoreFailure x0 s
  | .misrouteReportTimer x0 x1 => Sys2Proof.Machine.execMisrouteReportTimer x0 x1 s
  | .pleatHandshakeStep x0 => Sys2Proof.Machine.execPleatHandshakeStep x0 s
  | .contextRequest x0 x1 => Sys2Proof.Machine.execContextRequest x0 x1 s
  | .contextTransition x0 => Sys2Proof.Machine.execContextTransition x0 s
  | .taskStart x0 x1 => Sys2Proof.Machine.execTaskStart x0 x1 s
  | .tspawnRequest x0 x1 => Sys2Proof.Machine.execTspawnRequest x0 x1 s
  | .issueGrant x0 x1 x2 => Sys2Proof.Machine.execIssueGrant x0 x1 x2 s
  | .weightRecompute x0 => Sys2Proof.Machine.execWeightRecompute x0 s
  | .blockFetch x0 x1 => Sys2Proof.Machine.execBlockFetch x0 x1 s
  | .blockCommit x0 x1 => Sys2Proof.Machine.execBlockCommit x0 x1 s
  | .pinnedInstanceStart x0 x1 => Sys2Proof.Machine.execPinnedInstanceStart x0 x1 s
  | .flitArrival x0 x1 => Sys2Proof.Machine.execFlitArrival x0 x1 s
  | .steer x0 x1 => Sys2Proof.Machine.execSteer x0 x1 s
  | .merge x0 x1 => Sys2Proof.Machine.execMerge x0 x1 s
  | .carry x0 x1 => Sys2Proof.Machine.execCarry x0 x1 s
  | .reorder x0 x1 => Sys2Proof.Machine.execReorder x0 x1 s
  | .spillStart x0 x1 => Sys2Proof.Machine.execSpillStart x0 x1 s
  | .spillReturn x0 x1 => Sys2Proof.Machine.execSpillReturn x0 x1 s
  | .stallReport x0 => Sys2Proof.Machine.execStallReport x0 s
  | .tlbWalk x0 x1 => Sys2Proof.Machine.execTlbWalk x0 x1 s
  | .genReply x0 => Sys2Proof.Machine.execGenReply x0 s
  | .copyWalk x0 x1 => Sys2Proof.Machine.execCopyWalk x0 x1 s
  | .mangleRunStart x0 => Sys2Proof.Machine.execMangleRunStart x0 s
  | .mangleTile x0 x1 x2 => Sys2Proof.Machine.execMangleTile x0 x1 x2 s
  | .mangleSwapEffect x0 => Sys2Proof.Machine.execMangleSwapEffect x0 s
  | .mangleFenceEffect x0 => Sys2Proof.Machine.execMangleFenceEffect x0 s
  | .mloadFill x0 => Sys2Proof.Machine.execMloadFill x0 s
  | .undoStallTimeout x0 x1 => Sys2Proof.Machine.execUndoStallTimeout x0 x1 s
  | .patrolSweep x0 => Sys2Proof.Machine.execPatrolSweep x0 s
  | .sealMark x0 x1 => Sys2Proof.Machine.execSealMark x0 x1 s
  | .faultStop x0 => Sys2Proof.Machine.execFaultStop x0 s
  | .residueMismatch x0 x1 x2 => Sys2Proof.Machine.execResidueMismatch x0 x1 x2 s
  | .preemptResume x0 => Sys2Proof.Machine.execPreemptResume x0 s
  | .worldSwitch x0 x1 => Sys2Proof.Machine.execWorldSwitch x0 x1 s
  | .peerFlitArrival x0 x1 => Sys2Proof.Machine.execPeerFlitArrival x0 x1 s
  | .peerPortDown x0 => Sys2Proof.Machine.execPeerPortDown x0 s
  | .hostWindowWrite x0 x1 x2 => Sys2Proof.Machine.execHostWindowWrite x0 x1 x2 s
  | .hostWindowRead x0 x1 x2 => Sys2Proof.Machine.execHostWindowRead x0 x1 x2 s
  | .snapshotLoRead x0 x1 => Sys2Proof.Machine.execSnapshotLoRead x0 x1 s
  | .snapshotHiRead x0 x1 => Sys2Proof.Machine.execSnapshotHiRead x0 x1 s
  | .meterWindow x0 => Sys2Proof.Machine.execMeterWindow x0 s
  | .eventRingEn x0 => Sys2Proof.Machine.execEventRingEn x0 s
  | .eventRingHead x0 => Sys2Proof.Machine.execEventRingHead x0 s
  | .injectControl x0 => Sys2Proof.Machine.execInjectControl x0 s
  | .throttle x0 x1 => Sys2Proof.Machine.execThrottle x0 x1 s
  | .throttleRecover x0 => Sys2Proof.Machine.execThrottleRecover x0 s
  | .peerPortRecover x0 => Sys2Proof.Machine.execPeerPortRecover x0 s
  | .functionLevelReset x0 => Sys2Proof.Machine.execFunctionLevelReset x0 s
  | .numvfs x0 => Sys2Proof.Machine.execNumvfs x0 s
  | .serialisingToken x0 => Sys2Proof.Machine.execSerialisingToken x0 s
  | .uncorrectableError x0 => Sys2Proof.Machine.execUncorrectableError x0 s
  | .exitB x0 x1 => Sys2Proof.Machine.execExitB x0 x1 s
  | .exitJ x0 => Sys2Proof.Machine.execExitJ x0 s
  | .exitC x0 x1 => Sys2Proof.Machine.execExitC x0 x1 s
  | .exitCi x0 => Sys2Proof.Machine.execExitCi x0 s
  | .exitRet x0 => Sys2Proof.Machine.execExitRet x0 s
  | .exitT x0 => Sys2Proof.Machine.execExitT x0 s
  | .exitY x0 x1 => Sys2Proof.Machine.execExitY x0 x1 s
  | .nullw x0 => Sys2Proof.Machine.execNullw x0 s
  | .nulls x0 x1 => Sys2Proof.Machine.execNulls x0 x1 s
  | .movi x0 x1 x2 => Sys2Proof.Machine.execMovi x0 x1 x2 s
  | .movh x0 x1 => Sys2Proof.Machine.execMovh x0 x1 s
  | .mov x0 => Sys2Proof.Machine.execMov x0 s
  | .getid x0 x1 => Sys2Proof.Machine.execGetid x0 x1 s
  | .constk x0 x1 => Sys2Proof.Machine.execConstk x0 x1 s
  | .pand x0 => Sys2Proof.Machine.execPand x0 s
  | .por x0 => Sys2Proof.Machine.execPor x0 s
  | .pxor x0 => Sys2Proof.Machine.execPxor x0 s
  | .pnot x0 => Sys2Proof.Machine.execPnot x0 s
  | .sel x0 x1 => Sys2Proof.Machine.execSel x0 x1 s
  | .lmask x0 x1 => Sys2Proof.Machine.execLmask x0 x1 s
  | .anyl x0 x1 => Sys2Proof.Machine.execAnyl x0 x1 s
  | .alll x0 x1 => Sys2Proof.Machine.execAlll x0 x1 s
  | .test x0 x1 x2 x3 => Sys2Proof.Machine.execTest x0 x1 x2 x3 s
  | .add x0 x1 x2 => Sys2Proof.Machine.execAdd x0 x1 x2 s
  | .sub x0 x1 x2 => Sys2Proof.Machine.execSub x0 x1 x2 s
  | .adds x0 x1 x2 => Sys2Proof.Machine.execAdds x0 x1 x2 s
  | .subs x0 x1 x2 => Sys2Proof.Machine.execSubs x0 x1 x2 s
  | .mul x0 x1 x2 => Sys2Proof.Machine.execMul x0 x1 x2 s
  | .mulh x0 x1 x2 => Sys2Proof.Machine.execMulh x0 x1 x2 s
  | .mulhz x0 x1 x2 => Sys2Proof.Machine.execMulhz x0 x1 x2 s
  | .mad x0 x1 x2 => Sys2Proof.Machine.execMad x0 x1 x2 s
  | .div x0 x1 x2 => Sys2Proof.Machine.execDiv x0 x1 x2 s
  | .divz x0 x1 x2 => Sys2Proof.Machine.execDivz x0 x1 x2 s
  | .rem x0 x1 x2 => Sys2Proof.Machine.execRem x0 x1 x2 s
  | .remz x0 x1 x2 => Sys2Proof.Machine.execRemz x0 x1 x2 s
  | .and x0 x1 x2 => Sys2Proof.Machine.execAnd x0 x1 x2 s
  | .or x0 x1 x2 => Sys2Proof.Machine.execOr x0 x1 x2 s
  | .xor x0 x1 x2 => Sys2Proof.Machine.execXor x0 x1 x2 s
  | .andn x0 x1 x2 => Sys2Proof.Machine.execAndn x0 x1 x2 s
  | .orn x0 x1 x2 => Sys2Proof.Machine.execOrn x0 x1 x2 s
  | .shl x0 x1 x2 => Sys2Proof.Machine.execShl x0 x1 x2 s
  | .shr x0 x1 x2 => Sys2Proof.Machine.execShr x0 x1 x2 s
  | .sar x0 x1 x2 => Sys2Proof.Machine.execSar x0 x1 x2 s
  | .rol x0 x1 x2 => Sys2Proof.Machine.execRol x0 x1 x2 s
  | .clz x0 x1 => Sys2Proof.Machine.execClz x0 x1 s
  | .ctz x0 x1 => Sys2Proof.Machine.execCtz x0 x1 s
  | .popc x0 x1 => Sys2Proof.Machine.execPopc x0 x1 s
  | .brev x0 x1 => Sys2Proof.Machine.execBrev x0 x1 s
  | .bswap x0 x1 => Sys2Proof.Machine.execBswap x0 x1 s
  | .ext x0 x1 x2 => Sys2Proof.Machine.execExt x0 x1 x2 s
  | .extz x0 x1 x2 => Sys2Proof.Machine.execExtz x0 x1 x2 s
  | .ins x0 x1 x2 => Sys2Proof.Machine.execIns x0 x1 x2 s
  | .min x0 x1 x2 => Sys2Proof.Machine.execMin x0 x1 x2 s
  | .max x0 x1 x2 => Sys2Proof.Machine.execMax x0 x1 x2 s
  | .minz x0 x1 x2 => Sys2Proof.Machine.execMinz x0 x1 x2 s
  | .maxz x0 x1 x2 => Sys2Proof.Machine.execMaxz x0 x1 x2 s
  | .abs x0 x1 => Sys2Proof.Machine.execAbs x0 x1 s
  | .neg x0 x1 => Sys2Proof.Machine.execNeg x0 x1 s
  | .lea x0 x1 x2 => Sys2Proof.Machine.execLea x0 x1 x2 s
  | .fadd x0 x1 x2 => Sys2Proof.Machine.execFadd x0 x1 x2 s
  | .fsub x0 x1 x2 => Sys2Proof.Machine.execFsub x0 x1 x2 s
  | .fmul x0 x1 x2 => Sys2Proof.Machine.execFmul x0 x1 x2 s
  | .ffma x0 x1 x2 => Sys2Proof.Machine.execFfma x0 x1 x2 s
  | .ffms x0 x1 x2 => Sys2Proof.Machine.execFfms x0 x1 x2 s
  | .fnma x0 x1 x2 => Sys2Proof.Machine.execFnma x0 x1 x2 s
  | .fmin x0 x1 x2 => Sys2Proof.Machine.execFmin x0 x1 x2 s
  | .fmax x0 x1 x2 => Sys2Proof.Machine.execFmax x0 x1 x2 s
  | .fabs x0 x1 => Sys2Proof.Machine.execFabs x0 x1 s
  | .fneg x0 x1 => Sys2Proof.Machine.execFneg x0 x1 s
  | .fcpys x0 x1 x2 => Sys2Proof.Machine.execFcpys x0 x1 x2 s
  | .ftest x0 x1 x2 => Sys2Proof.Machine.execFtest x0 x1 x2 s
  | .fclass x0 x1 x2 => Sys2Proof.Machine.execFclass x0 x1 x2 s
  | .fcvt x0 x1 x2 => Sys2Proof.Machine.execFcvt x0 x1 x2 s
  | .icvtf x0 x1 x2 => Sys2Proof.Machine.execIcvtf x0 x1 x2 s
  | .fcvti x0 x1 x2 => Sys2Proof.Machine.execFcvti x0 x1 x2 s
  | .frcp x0 x1 => Sys2Proof.Machine.execFrcp x0 x1 s
  | .frsq x0 x1 => Sys2Proof.Machine.execFrsq x0 x1 s
  | .fsqrt x0 x1 => Sys2Proof.Machine.execFsqrt x0 x1 s
  | .fdiv x0 x1 x2 => Sys2Proof.Machine.execFdiv x0 x1 x2 s
  | .fexp2 x0 x1 => Sys2Proof.Machine.execFexp2 x0 x1 s
  | .flog2 x0 x1 => Sys2Proof.Machine.execFlog2 x0 x1 s
  | .fsinp x0 x1 => Sys2Proof.Machine.execFsinp x0 x1 s
  | .fcosp x0 x1 => Sys2Proof.Machine.execFcosp x0 x1 s
  | .ftanh x0 x1 => Sys2Proof.Machine.execFtanh x0 x1 s
  | .dot x0 x1 x2 => Sys2Proof.Machine.execDot x0 x1 x2 s
  | .pack x0 x1 x2 => Sys2Proof.Machine.execPack x0 x1 x2 s
  | .unpack x0 x1 x2 => Sys2Proof.Machine.execUnpack x0 x1 x2 s
  | .scaleb x0 x1 x2 => Sys2Proof.Machine.execScaleb x0 x1 x2 s
  | .quant x0 x1 x2 => Sys2Proof.Machine.execQuant x0 x1 x2 s
  | .perm x0 x1 x2 => Sys2Proof.Machine.execPerm x0 x1 x2 s
  | .rotl x0 x1 x2 x3 => Sys2Proof.Machine.execRotl x0 x1 x2 x3 s
  | .shfl x0 x1 x2 x3 => Sys2Proof.Machine.execShfl x0 x1 x2 x3 s
  | .bcastl x0 x1 x2 => Sys2Proof.Machine.execBcastl x0 x1 x2 s
  | .redl x0 x1 x2 x3 x4 => Sys2Proof.Machine.execRedl x0 x1 x2 x3 x4 s
  | .scanl x0 x1 x2 x3 x4 x5 => Sys2Proof.Machine.execScanl x0 x1 x2 x3 x4 x5 s
  | .compr x0 x1 => Sys2Proof.Machine.execCompr x0 x1 s
  | .expnd x0 x1 x2 => Sys2Proof.Machine.execExpnd x0 x1 x2 s
  | .lsel x0 x1 => Sys2Proof.Machine.execLsel x0 x1 s
  | .iota x0 x1 x2 x3 => Sys2Proof.Machine.execIota x0 x1 x2 x3 s
  | .accs x0 x1 x2 x3 x4 => Sys2Proof.Machine.execAccs x0 x1 x2 x3 x4 s
  | .stopk x0 x1 => Sys2Proof.Machine.execStopk x0 x1 s
  | .tkind x0 => Sys2Proof.Machine.execTkind x0 s
  | .redn x0 x1 x2 x3 x4 x5 => Sys2Proof.Machine.execRedn x0 x1 x2 x3 x4 x5 s
  | .lds x0 x1 x2 => Sys2Proof.Machine.execLds x0 x1 x2 s
  | .sts x0 x1 x2 => Sys2Proof.Machine.execSts x0 x1 x2 s
  | .ldt x0 x1 x2 => Sys2Proof.Machine.execLdt x0 x1 x2 s
  | .stt x0 x1 x2 => Sys2Proof.Machine.execStt x0 x1 x2 s
  | .ldg x0 x1 x2 x3 => Sys2Proof.Machine.execLdg x0 x1 x2 x3 s
  | .stg x0 x1 x2 x3 => Sys2Proof.Machine.execStg x0 x1 x2 x3 s
  | .ldgv x0 x1 x2 x3 => Sys2Proof.Machine.execLdgv x0 x1 x2 x3 s
  | .stgv x0 x1 x2 x3 => Sys2Proof.Machine.execStgv x0 x1 x2 x3 s
  | .prf x0 x1 x2 => Sys2Proof.Machine.execPrf x0 x1 x2 s
  | .ldn x0 x1 x2 => Sys2Proof.Machine.execLdn x0 x1 x2 s
  | .stn x0 x1 x2 => Sys2Proof.Machine.execStn x0 x1 x2 s
  | .atms x0 x1 x2 x3 => Sys2Proof.Machine.execAtms x0 x1 x2 x3 s
  | .atmg x0 x1 x2 x3 => Sys2Proof.Machine.execAtmg x0 x1 x2 x3 s
  | .atmn x0 x1 x2 x3 => Sys2Proof.Machine.execAtmn x0 x1 x2 x3 s
  | .cctlWb x0 x1 => Sys2Proof.Machine.execCctlWb x0 x1 s
  | .cctlInv x0 x1 => Sys2Proof.Machine.execCctlInv x0 x1 s
  | .cctlWbinv x0 x1 => Sys2Proof.Machine.execCctlWbinv x0 x1 s
  | .cctlWball x0 x1 => Sys2Proof.Machine.execCctlWball x0 x1 s
  | .cctlInvall x0 x1 => Sys2Proof.Machine.execCctlInvall x0 x1 s
  | .cpy x0 x1 => Sys2Proof.Machine.execCpy x0 x1 s
  | .cpyqf x0 x1 x2 x3 => Sys2Proof.Machine.execCpyqf x0 x1 x2 x3 s
  | .tagw x0 x1 x2 => Sys2Proof.Machine.execTagw x0 x1 x2 s
  | .tagff x0 x1 => Sys2Proof.Machine.execTagff x0 x1 s
  | .tagclr x0 => Sys2Proof.Machine.execTagclr x0 s
  | .tagrd x0 x1 => Sys2Proof.Machine.execTagrd x0 x1 s
  | .mload x0 x1 => Sys2Proof.Machine.execMload x0 x1 s
  | .mswap x0 => Sys2Proof.Machine.execMswap x0 s
  | .marm x0 x1 => Sys2Proof.Machine.execMarm x0 x1 s
  | .mfence x0 => Sys2Proof.Machine.execMfence x0 s
  | .mwait x0 => Sys2Proof.Machine.execMwait x0 s
  | .mchk x0 x1 => Sys2Proof.Machine.execMchk x0 x1 s
  | .mzero x0 => Sys2Proof.Machine.execMzero x0 s
  | .pleat x0 => Sys2Proof.Machine.execPleat x0 s
  | .pleatw x0 => Sys2Proof.Machine.execPleatw x0 s
  | .pleatq x0 => Sys2Proof.Machine.execPleatq x0 s
  | .occ x0 x1 => Sys2Proof.Machine.execOcc x0 x1 s
  | .swm x0 => Sys2Proof.Machine.execSwm x0 s
  | .rinr x0 x1 => Sys2Proof.Machine.execRinr x0 x1 s
  | .sealpt x0 => Sys2Proof.Machine.execSealpt x0 s
  | .sealw x0 => Sys2Proof.Machine.execSealw x0 s
  | .sealrqNowait x0 => Sys2Proof.Machine.execSealrqNowait x0 s
  | .sealrqWait x0 => Sys2Proof.Machine.execSealrqWait x0 s
  | .stx x0 x1 x2 => Sys2Proof.Machine.execStx x0 x1 x2 s
  | .stxIrr x0 x1 x2 => Sys2Proof.Machine.execStxIrr x0 x1 x2 s
  | .escw x0 => Sys2Proof.Machine.execEscw x0 s
  | .fenceAcq x0 x1 => Sys2Proof.Machine.execFenceAcq x0 x1 s
  | .fenceRel x0 x1 => Sys2Proof.Machine.execFenceRel x0 x1 s
  | .fenceBoth x0 x1 => Sys2Proof.Machine.execFenceBoth x0 x1 s
  | .fenceSc x0 x1 => Sys2Proof.Machine.execFenceSc x0 x1 s
  | .arrive x0 x1 x2 x3 => Sys2Proof.Machine.execArrive x0 x1 x2 x3 s
  | .waitb x0 x1 x2 => Sys2Proof.Machine.execWaitb x0 x1 x2 s
  | .bar x0 => Sys2Proof.Machine.execBar x0 s
  | .waitm x0 x1 x2 => Sys2Proof.Machine.execWaitm x0 x1 x2 s
  | .send x0 x1 x2 => Sys2Proof.Machine.execSend x0 x1 x2 s
  | .recv x0 x1 => Sys2Proof.Machine.execRecv x0 x1 s
  | .bind x0 x1 x2 => Sys2Proof.Machine.execBind x0 x1 x2 s
  | .waitc x0 x1 x2 => Sys2Proof.Machine.execWaitc x0 x1 x2 s
  | .tspawn x0 x1 => Sys2Proof.Machine.execTspawn x0 x1 s
  | .tstat x0 => Sys2Proof.Machine.execTstat x0 s
  | .qpost x0 x1 => Sys2Proof.Machine.execQpost x0 x1 s
  | .constw x0 x1 x2 x3 x4 => Sys2Proof.Machine.execConstw x0 x1 x2 x3 x4 s
  | .markt x0 x1 => Sys2Proof.Machine.execMarkt x0 x1 s
  | .trap x0 x1 => Sys2Proof.Machine.execTrap x0 x1 s
  | .brk x0 x1 => Sys2Proof.Machine.execBrk x0 x1 s
  | .csrr x0 x1 => Sys2Proof.Machine.execCsrr x0 x1 s
  | .csrw x0 x1 => Sys2Proof.Machine.execCsrw x0 x1 s
  | .svcHemlint x0 => Sys2Proof.Machine.execSvcHemlint x0 s
  | .svcStalelint x0 => Sys2Proof.Machine.execSvcStalelint x0 s
  | .svcRollbacks x0 => Sys2Proof.Machine.execSvcRollbacks x0 s
  | .svcIdent x0 => Sys2Proof.Machine.execSvcIdent x0 s
  | .svcNotify x0 => Sys2Proof.Machine.execSvcNotify x0 s
  | .svcReserved x0 x1 => Sys2Proof.Machine.execSvcReserved x0 x1 s
  | .rdcyc x0 => Sys2Proof.Machine.execRdcyc x0 s
  | .rdtime x0 => Sys2Proof.Machine.execRdtime x0 s
  | .nop x0 => Sys2Proof.Machine.execNop x0 s
  | .validate => Sys2Proof.Machine.execValidate s
  | .depend => Sys2Proof.Machine.execDepend s
  | .dependenceReread => Sys2Proof.Machine.execDependenceReread s
  | .place => Sys2Proof.Machine.execPlace s
  | .priorityAging => Sys2Proof.Machine.execPriorityAging s
  | .fill => Sys2Proof.Machine.execFill s
  | .launchStage => Sys2Proof.Machine.execLaunchStage s
  | .complete => Sys2Proof.Machine.execComplete s
  | .launch => Sys2Proof.Machine.execLaunch s
  | .wait => Sys2Proof.Machine.execWait s
  | .signal => Sys2Proof.Machine.execSignal s
  | .copy => Sys2Proof.Machine.execCopy s
  | .sealrq => Sys2Proof.Machine.execSealrq s
  | .leaseRequest => Sys2Proof.Machine.execLeaseRequest s
  | .leaseResize => Sys2Proof.Machine.execLeaseResize s
  | .leaseLend => Sys2Proof.Machine.execLeaseLend s
  | .leaseRecall => Sys2Proof.Machine.execLeaseRecall s
  | .leaseRelease => Sys2Proof.Machine.execLeaseRelease s
  | .marker => Sys2Proof.Machine.execMarker s
  | .placerPlace => Sys2Proof.Machine.execPlacerPlace s
  | .map => Sys2Proof.Machine.execMap s
  | .unmap => Sys2Proof.Machine.execUnmap s
  | .protect => Sys2Proof.Machine.execProtect s
  | .migrate => Sys2Proof.Machine.execMigrate s
  | .debug => Sys2Proof.Machine.execDebug s
  | .dresume => Sys2Proof.Machine.execDresume s
  | .profopen => Sys2Proof.Machine.execProfopen s
  | .profclose => Sys2Proof.Machine.execProfclose s
  | .peerbind => Sys2Proof.Machine.execPeerbind s
  | .peerunbind => Sys2Proof.Machine.execPeerunbind s
  | .window => Sys2Proof.Machine.execWindow s
  | .faults => Sys2Proof.Machine.execFaults s
  | .report => Sys2Proof.Machine.execReport s
  | .attest => Sys2Proof.Machine.execAttest s
  | .qconf => Sys2Proof.Machine.execQconf s
  | .vfconf => Sys2Proof.Machine.execVfconf s
  | .pair => Sys2Proof.Machine.execPair s
  | .lmigrate => Sys2Proof.Machine.execLmigrate s
  | .domain => Sys2Proof.Machine.execDomain s
  | .dremove => Sys2Proof.Machine.execDremove s
  | .owner => Sys2Proof.Machine.execOwner s
  | .pwrcap => Sys2Proof.Machine.execPwrcap s
  | .advance => Sys2Proof.Machine.execAdvance s
  | .ready => Sys2Proof.Machine.execReady s
  | .sealed => Sys2Proof.Machine.execSealed s
  | .sealRequest => Sys2Proof.Machine.execSealRequest s
  | .poison => Sys2Proof.Machine.execPoison s
  | .rollback => Sys2Proof.Machine.execRollback s
  | .rolled => Sys2Proof.Machine.execRolled s
  | .meterReset => Sys2Proof.Machine.execMeterReset s
  | .keyroll => Sys2Proof.Machine.execKeyroll s
  | .firmwareTransfer => Sys2Proof.Machine.execFirmwareTransfer s
  | .firmwareActivate => Sys2Proof.Machine.execFirmwareActivate s
  | .coldReset => Sys2Proof.Machine.execColdReset s
  | .intervalTimer => Sys2Proof.Machine.execIntervalTimer s
  | .sealLate => Sys2Proof.Machine.execSealLate s

end Sys2Proof.Machine
end

