-- ==== Sys2Proof/Machine/Step.lean ====
section
/-! DEFINITION. One step of the machine (R81, R147): time passes; then the oldest granted firing runs, else the oldest input that is
placed, else whatever reaches the device or its own timing brings. -/

namespace Sys2Proof.Machine

/-- One step. -/
def step (s : State) : Host.Outcome State Fault Refusal :=
  let t := clock s
  match t.grants with
  | g :: gs =>
    let u := { t with grants := gs, cur := some g }
    match grantInstr t g with
    | some i => exec i u
    | none => .next u
  | [] =>
    match t.inputs with
    | i :: is => if i.ok then exec i.step (bring { t with inputs := is } i) else .fault .illFormedInput
    | [] =>
      let i := Config.freeInput s.tick
      if i.ok then exec i.step (bring t i) else .next t

/-- The state with an instruction word set where the next step fires it; the table gives no row more than one word. -/
def State.withFetchWord (s : State) (_nbits w : Nat) : State := stage s (BitVec.ofNat 64 w)

end Sys2Proof.Machine
end

