-- ==== Sys2Proof/Laws/Encoding.lean ====
section
/-! SUPPORT. The fields of an encoded word read back (R41), and every code of a table read back from its bits. -/

namespace Sys2Proof

open BitVec

/-- A word from its fields (R41). -/
def pack64 (o : BitVec 8) (i : Bool) (x : BitVec 5) (p : BitVec 2) (a b : BitVec 8) (imm : BitVec 32) : IWord :=
  o ++ BitVec.ofBool i ++ x ++ p ++ a ++ b ++ imm

@[simp] theorem opcF_pack (o i x p a b imm) : opcF (pack64 o i x p a b imm) = o := by
  unfold opcF pack64
  iterate 6 rw [extractLsb'_append_eq_of_le (by decide)]
  simp

@[simp] theorem iF_pack (o i x p a b imm) : iF (pack64 o i x p a b imm) = i := by
  unfold iF pack64
  simp only [getLsbD_append]
  simp

@[simp] theorem xopF_pack (o i x p a b imm) : xopF (pack64 o i x p a b imm) = x := by
  unfold xopF pack64
  iterate 4 rw [extractLsb'_append_eq_of_le (by decide)]
  rw [extractLsb'_append_eq_of_add_le (by decide)]
  simp

@[simp] theorem pmF_pack (o i x p a b imm) : pmF (pack64 o i x p a b imm) = p := by
  unfold pmF pack64
  iterate 3 rw [extractLsb'_append_eq_of_le (by decide)]
  rw [extractLsb'_append_eq_of_add_le (by decide)]
  simp

@[simp] theorem t0F_pack (o i x p a b imm) : t0F (pack64 o i x p a b imm) = a := by
  unfold t0F pack64
  iterate 2 rw [extractLsb'_append_eq_of_le (by decide)]
  rw [extractLsb'_append_eq_of_add_le (by decide)]
  simp

@[simp] theorem t1F_pack (o i x p a b imm) : t1F (pack64 o i x p a b imm) = b := by
  unfold t1F pack64
  iterate 1 rw [extractLsb'_append_eq_of_le (by decide)]
  rw [extractLsb'_append_eq_of_add_le (by decide)]
  simp

@[simp] theorem immF_pack (o i x p a b imm) : immF (pack64 o i x p a b imm) = imm := by
  unfold immF pack64
  rw [extractLsb'_append_eq_of_add_le (by decide)]
  simp

theorem mk_pack (o : BitVec 8) (i : Bool) (x : BitVec 5) (h : Head) (imm : BitVec 32) :
    mk o i x h imm = some (pack64 o i x (pmBits h.pm) (targetBits h.t0) (targetBits h.t1) imm) := rfl

@[simp] theorem pmOf_bits (p : Pm) : pmOf (pmBits p) = some p := by cases p <;> rfl

@[simp] theorem targetOf_bits (t : Target) : targetOf (targetBits t) = some t := by
  cases t with
  | none => rfl
  | opA n => revert n; decide
  | opB n => revert n; decide
  | opC n => revert n; decide
  | pred n => revert n; decide
  | write n => revert n; decide
  | out n => revert n; decide

@[simp] theorem headOfWord_pack (o i x) (h : Head) (imm) :
    headOfWord (pack64 o i x (pmBits h.pm) (targetBits h.t0) (targetBits h.t1) imm) = some h := by
  simp [headOfWord]

/-! ### Codes -/

@[simp] theorem intWOf_bits (w : IntW) : intWOf (intWBits w) = some w := by cases w <;> rfl
@[simp] theorem condOf_bits (c : Cond) : condOf (condBits c) = some c := by cases c <;> rfl
@[simp] theorem fcondOf_bits (c : FCond) : fcondOf (fcondBits c) = some c := by cases c <;> rfl
@[simp] theorem acOf_bits (c : AC) : acOf (acBits c) = some c := by cases c <;> rfl
@[simp] theorem scopeOf_bits (c : Scope) : scopeOf (scopeBits c) = some c := by cases c <;> rfl
@[simp] theorem redOf_bits (c : RedOp) : redOf (redBits c) = some c := by cases c <;> rfl
@[simp] theorem atOf_bits (c : AtOp) : atOf (atBits c) = some c := by cases c <;> rfl
@[simp] theorem oscOf_bits (o : Option Scope) : oscOf (oscBits o) = some o := by
  cases o with
  | none => rfl
  | some c => cases c <;> rfl
@[simp] theorem xW_bits (w : IntW) : xW (0#2 ++ intWBits w) = some w := by cases w <;> rfl
@[simp] theorem xInt_bits (e : IntEC) : xInt (intBits5 e) = some e := by
  obtain ⟨z, w⟩ := e
  cases z <;> cases w <;> rfl
@[simp] theorem xFlt_bits (e : FltEC) : xFlt (fltBits5 e) = some e := by
  obtain ⟨z, w⟩ := e
  cases z <;> cases w <;> rfl
@[simp] theorem xEC_bits (e : EC) : xEC (ecBits5 e) = some e := by
  obtain ⟨z, w⟩ | ⟨z, w⟩ := e <;> cases z <;> cases w <;> rfl
@[simp] theorem bArg_bits (b : Option (BitVec 32)) : bArg (bI b) (bImm b) = some b := by cases b <;> rfl

/-! ### Fields of IMM -/

@[simp] theorem low_up {n : Nat} (b : BitVec n) (hn : n ≤ 32) : low n (up b) = some b := by
  have h : b.toNat < 2 ^ 32 := Nat.lt_of_lt_of_le b.isLt (Nat.pow_le_pow_right (by decide) hn)
  unfold low up
  rw [if_pos (by rw [toNat_setWidth, Nat.mod_eq_of_lt h]; exact b.isLt), setWidth_setWidth_of_le _ hn, setWidth_eq]

@[simp] theorem low1_up1 (b : Bool) : low1 (up1 b) = some b := by cases b <;> rfl

@[simp] theorem memOf_imm (m : MemF) : memOf m.sc (memImm m) = some m := by
  obtain ⟨s, l, o, f⟩ := m
  unfold memOf memImm
  have h1 : (l ++ oscBits o ++ f).extractLsb' 24 3 = oscBits o := by
    rw [extractLsb'_append_eq_of_le (by decide), extractLsb'_append_eq_of_add_le (by decide)]; simp
  have h2 : (l ++ oscBits o ++ f).extractLsb' 27 5 = l := by
    rw [extractLsb'_append_eq_of_le (by decide), extractLsb'_append_eq_of_le (by decide)]; simp
  have h3 : (l ++ oscBits o ++ f).extractLsb' 0 24 = f := by
    rw [extractLsb'_append_eq_of_add_le (by decide)]; simp
  simp [h1, h2, h3]

@[simp] theorem cvtOf_imm (c : CvtF) : cvtOf (cvtImm c) = some c := by
  obtain ⟨p, m, s, r, z, f⟩ := c
  unfold cvtOf cvtImm
  have h1 : (0#19 ++ p ++ ofBool m ++ ofBool s ++ r ++ ofBool z ++ f).extractLsb' 13 19 = 0 := by
    iterate 6 rw [extractLsb'_append_eq_of_le (by decide)]
    simp
  have h2 : (0#19 ++ p ++ ofBool m ++ ofBool s ++ r ++ ofBool z ++ f).extractLsb' 9 4 = p := by
    iterate 5 rw [extractLsb'_append_eq_of_le (by decide)]
    rw [extractLsb'_append_eq_of_add_le (by decide)]; simp
  have h3 : (0#19 ++ p ++ ofBool m ++ ofBool s ++ r ++ ofBool z ++ f).getLsbD 8 = m := by
    simp only [getLsbD_append]; simp
  have h4 : (0#19 ++ p ++ ofBool m ++ ofBool s ++ r ++ ofBool z ++ f).getLsbD 7 = s := by
    simp only [getLsbD_append]; simp
  have h5 : (0#19 ++ p ++ ofBool m ++ ofBool s ++ r ++ ofBool z ++ f).extractLsb' 4 3 = r := by
    iterate 2 rw [extractLsb'_append_eq_of_le (by decide)]
    rw [extractLsb'_append_eq_of_add_le (by decide)]; simp
  have h6 : (0#19 ++ p ++ ofBool m ++ ofBool s ++ r ++ ofBool z ++ f).getLsbD 3 = z := by
    simp only [getLsbD_append]; simp
  have h7 : (0#19 ++ p ++ ofBool m ++ ofBool s ++ r ++ ofBool z ++ f).extractLsb' 0 3 = f := by
    rw [extractLsb'_append_eq_of_add_le (by decide)]; simp
  rw [h1, h2, h3, h4, h5, h6, h7]
  simp

/-! ### Fields that lie together -/

@[simp] theorem field_nulls_0 (l : BitVec 5) : (l ++ 0#27 : BitVec 32).extractLsb' 27 5 = l := by
  iterate 1 rw [extractLsb'_append_eq_of_le (by decide)]
  simp

@[simp] theorem field_nulls_1 (l : BitVec 5) : (l ++ 0#27 : BitVec 32).extractLsb' 0 27 = 0#27 := by
  rw [extractLsb'_append_eq_of_add_le (by decide)]
  simp

@[simp] theorem field_dot_0 (r : BitVec 3) : (0#25 ++ r ++ 0#4 : BitVec 32).extractLsb' 7 25 = 0#25 := by
  iterate 2 rw [extractLsb'_append_eq_of_le (by decide)]
  simp

@[simp] theorem field_dot_1 (r : BitVec 3) : (0#25 ++ r ++ 0#4 : BitVec 32).extractLsb' 4 3 = r := by
  iterate 1 rw [extractLsb'_append_eq_of_le (by decide)]
  rw [extractLsb'_append_eq_of_add_le (by decide)]
  simp

@[simp] theorem field_dot_2 (r : BitVec 3) : (0#25 ++ r ++ 0#4 : BitVec 32).extractLsb' 0 4 = 0#4 := by
  rw [extractLsb'_append_eq_of_add_le (by decide)]
  simp

@[simp] theorem field_rotl_0 (d : Bool) (c : BitVec 7) : (ofBool d ++ c : BitVec 8).getLsbD 7 = d := by
  simp only [getLsbD_append]; simp

@[simp] theorem bit_rotl_0 (d : Bool) (c : BitVec 7) : (ofBool d ++ c : BitVec 8)[7] = d := by
  simpa using field_rotl_0 d c

@[simp] theorem field_rotl_1 (d : Bool) (c : BitVec 7) : (ofBool d ++ c : BitVec 8).extractLsb' 0 7 = c := by
  rw [extractLsb'_append_eq_of_add_le (by decide)]
  simp

@[simp] theorem field_shfl_0 (m : BitVec 2) (d : BitVec 6) : (m ++ d : BitVec 8).extractLsb' 6 2 = m := by
  iterate 1 rw [extractLsb'_append_eq_of_le (by decide)]
  simp

@[simp] theorem field_shfl_1 (m : BitVec 2) (d : BitVec 6) : (m ++ d : BitVec 8).extractLsb' 0 6 = d := by
  rw [extractLsb'_append_eq_of_add_le (by decide)]
  simp

@[simp] theorem field_redl_0 (g : BitVec 3) (r : BitVec 3) (o : BitVec 4) : (g ++ 0#1 ++ r ++ o : BitVec 11).extractLsb' 8 3 = g := by
  iterate 3 rw [extractLsb'_append_eq_of_le (by decide)]
  simp

@[simp] theorem field_redl_1 (g : BitVec 3) (r : BitVec 3) (o : BitVec 4) : (g ++ 0#1 ++ r ++ o : BitVec 11).getLsbD 7 = false := by
  simp only [getLsbD_append]; simp

@[simp] theorem bit_redl_1 (g : BitVec 3) (r : BitVec 3) (o : BitVec 4) : (g ++ 0#1 ++ r ++ o : BitVec 11)[7] = false := by
  simpa using field_redl_1 g r o

@[simp] theorem field_redl_2 (g : BitVec 3) (r : BitVec 3) (o : BitVec 4) : (g ++ 0#1 ++ r ++ o : BitVec 11).extractLsb' 4 3 = r := by
  iterate 1 rw [extractLsb'_append_eq_of_le (by decide)]
  rw [extractLsb'_append_eq_of_add_le (by decide)]
  simp

@[simp] theorem field_redl_3 (g : BitVec 3) (r : BitVec 3) (o : BitVec 4) : (g ++ 0#1 ++ r ++ o : BitVec 11).extractLsb' 0 4 = o := by
  rw [extractLsb'_append_eq_of_add_le (by decide)]
  simp

@[simp] theorem field_scanl_0 (g : BitVec 3) (x : Bool) (r : BitVec 3) (o : BitVec 4) : (g ++ ofBool x ++ r ++ o : BitVec 11).extractLsb' 8 3 = g := by
  iterate 3 rw [extractLsb'_append_eq_of_le (by decide)]
  simp

@[simp] theorem field_scanl_1 (g : BitVec 3) (x : Bool) (r : BitVec 3) (o : BitVec 4) : (g ++ ofBool x ++ r ++ o : BitVec 11).getLsbD 7 = x := by
  simp only [getLsbD_append]; simp

@[simp] theorem bit_scanl_1 (g : BitVec 3) (x : Bool) (r : BitVec 3) (o : BitVec 4) : (g ++ ofBool x ++ r ++ o : BitVec 11)[7] = x := by
  simpa using field_scanl_1 g x r o

@[simp] theorem field_scanl_2 (g : BitVec 3) (x : Bool) (r : BitVec 3) (o : BitVec 4) : (g ++ ofBool x ++ r ++ o : BitVec 11).extractLsb' 4 3 = r := by
  iterate 1 rw [extractLsb'_append_eq_of_le (by decide)]
  rw [extractLsb'_append_eq_of_add_le (by decide)]
  simp

@[simp] theorem field_scanl_3 (g : BitVec 3) (x : Bool) (r : BitVec 3) (o : BitVec 4) : (g ++ ofBool x ++ r ++ o : BitVec 11).extractLsb' 0 4 = o := by
  rw [extractLsb'_append_eq_of_add_le (by decide)]
  simp

@[simp] theorem field_iota_0 (s : BitVec 8) (b : BitVec 16) : (s ++ b : BitVec 24).extractLsb' 16 8 = s := by
  iterate 1 rw [extractLsb'_append_eq_of_le (by decide)]
  simp

@[simp] theorem field_iota_1 (s : BitVec 8) (b : BitVec 16) : (s ++ b : BitVec 24).extractLsb' 0 16 = b := by
  rw [extractLsb'_append_eq_of_add_le (by decide)]
  simp

@[simp] theorem field_accs_0 (l : BitVec 3) (r : BitVec 3) (o : BitVec 4) : (l ++ r ++ o : BitVec 10).extractLsb' 7 3 = l := by
  iterate 2 rw [extractLsb'_append_eq_of_le (by decide)]
  simp

@[simp] theorem field_accs_1 (l : BitVec 3) (r : BitVec 3) (o : BitVec 4) : (l ++ r ++ o : BitVec 10).extractLsb' 4 3 = r := by
  iterate 1 rw [extractLsb'_append_eq_of_le (by decide)]
  rw [extractLsb'_append_eq_of_add_le (by decide)]
  simp

@[simp] theorem field_accs_2 (l : BitVec 3) (r : BitVec 3) (o : BitVec 4) : (l ++ r ++ o : BitVec 10).extractLsb' 0 4 = o := by
  rw [extractLsb'_append_eq_of_add_le (by decide)]
  simp

@[simp] theorem field_redn_0 (m : BitVec 16) (a : Bool) (r : BitVec 3) (o : BitVec 4) : (m ++ ofBool a ++ r ++ o : BitVec 24).extractLsb' 8 16 = m := by
  iterate 3 rw [extractLsb'_append_eq_of_le (by decide)]
  simp

@[simp] theorem field_redn_1 (m : BitVec 16) (a : Bool) (r : BitVec 3) (o : BitVec 4) : (m ++ ofBool a ++ r ++ o : BitVec 24).getLsbD 7 = a := by
  simp only [getLsbD_append]; simp

@[simp] theorem bit_redn_1 (m : BitVec 16) (a : Bool) (r : BitVec 3) (o : BitVec 4) : (m ++ ofBool a ++ r ++ o : BitVec 24)[7] = a := by
  simpa using field_redn_1 m a r o

@[simp] theorem field_redn_2 (m : BitVec 16) (a : Bool) (r : BitVec 3) (o : BitVec 4) : (m ++ ofBool a ++ r ++ o : BitVec 24).extractLsb' 4 3 = r := by
  iterate 1 rw [extractLsb'_append_eq_of_le (by decide)]
  rw [extractLsb'_append_eq_of_add_le (by decide)]
  simp

@[simp] theorem field_redn_3 (m : BitVec 16) (a : Bool) (r : BitVec 3) (o : BitVec 4) : (m ++ ofBool a ++ r ++ o : BitVec 24).extractLsb' 0 4 = o := by
  rw [extractLsb'_append_eq_of_add_le (by decide)]
  simp

@[simp] theorem field_arrive_0 (e : BitVec 16) (k : BitVec 6) : (e ++ 0#2 ++ k : BitVec 24).extractLsb' 8 16 = e := by
  iterate 2 rw [extractLsb'_append_eq_of_le (by decide)]
  simp

@[simp] theorem field_arrive_1 (e : BitVec 16) (k : BitVec 6) : (e ++ 0#2 ++ k : BitVec 24).extractLsb' 6 2 = 0#2 := by
  iterate 1 rw [extractLsb'_append_eq_of_le (by decide)]
  rw [extractLsb'_append_eq_of_add_le (by decide)]
  simp

@[simp] theorem field_arrive_2 (e : BitVec 16) (k : BitVec 6) : (e ++ 0#2 ++ k : BitVec 24).extractLsb' 0 6 = k := by
  rw [extractLsb'_append_eq_of_add_le (by decide)]
  simp

@[simp] theorem field_bind_0 (r : Bool) (j : BitVec 4) : (ofBool r ++ j : BitVec 5).getLsbD 4 = r := by
  simp only [getLsbD_append]; simp

@[simp] theorem bit_bind_0 (r : Bool) (j : BitVec 4) : (ofBool r ++ j : BitVec 5)[4] = r := by
  simpa using field_bind_0 r j

@[simp] theorem field_bind_1 (r : Bool) (j : BitVec 4) : (ofBool r ++ j : BitVec 5).extractLsb' 0 4 = j := by
  rw [extractLsb'_append_eq_of_add_le (by decide)]
  simp

@[simp] theorem field_waitc_0 (n : BitVec 7) (j : BitVec 4) : (n ++ j : BitVec 11).extractLsb' 4 7 = n := by
  iterate 1 rw [extractLsb'_append_eq_of_le (by decide)]
  simp

@[simp] theorem field_waitc_1 (n : BitVec 7) (j : BitVec 4) : (n ++ j : BitVec 11).extractLsb' 0 4 = j := by
  rw [extractLsb'_append_eq_of_add_le (by decide)]
  simp

@[simp] theorem field_constw_0 (c : BitVec 3) (k : BitVec 4) (y : BitVec 6) (x : BitVec 6) : (c ++ k ++ y ++ x : BitVec 19).extractLsb' 16 3 = c := by
  iterate 3 rw [extractLsb'_append_eq_of_le (by decide)]
  simp

@[simp] theorem field_constw_1 (c : BitVec 3) (k : BitVec 4) (y : BitVec 6) (x : BitVec 6) : (c ++ k ++ y ++ x : BitVec 19).extractLsb' 12 4 = k := by
  iterate 2 rw [extractLsb'_append_eq_of_le (by decide)]
  rw [extractLsb'_append_eq_of_add_le (by decide)]
  simp

@[simp] theorem field_constw_2 (c : BitVec 3) (k : BitVec 4) (y : BitVec 6) (x : BitVec 6) : (c ++ k ++ y ++ x : BitVec 19).extractLsb' 6 6 = y := by
  iterate 1 rw [extractLsb'_append_eq_of_le (by decide)]
  rw [extractLsb'_append_eq_of_add_le (by decide)]
  simp

@[simp] theorem field_constw_3 (c : BitVec 3) (k : BitVec 4) (y : BitVec 6) (x : BitVec 6) : (c ++ k ++ y ++ x : BitVec 19).extractLsb' 0 6 = x := by
  rw [extractLsb'_append_eq_of_add_le (by decide)]
  simp

@[simp] theorem field_stopk_0 (l : BitVec 3) : (0#2 ++ l : BitVec 5).extractLsb' 3 2 = 0#2 := by
  iterate 1 rw [extractLsb'_append_eq_of_le (by decide)]
  simp

@[simp] theorem field_stopk_1 (l : BitVec 3) : (0#2 ++ l : BitVec 5).extractLsb' 0 3 = l := by
  rw [extractLsb'_append_eq_of_add_le (by decide)]
  simp

@[simp] theorem field_occ_0 (s : BitVec 4) : (0#1 ++ s : BitVec 5).getLsbD 4 = false := by
  simp only [getLsbD_append]; simp

@[simp] theorem bit_occ_0 (s : BitVec 4) : (0#1 ++ s : BitVec 5)[4] = false := by
  simpa using field_occ_0 s

@[simp] theorem field_occ_1 (s : BitVec 4) : (0#1 ++ s : BitVec 5).extractLsb' 0 4 = s := by
  rw [extractLsb'_append_eq_of_add_le (by decide)]
  simp

@[simp] theorem field_arrx_0 (l : Bool) : (0#4 ++ ofBool l : BitVec 5).extractLsb' 1 4 = 0#4 := by
  iterate 1 rw [extractLsb'_append_eq_of_le (by decide)]
  simp

@[simp] theorem field_arrx_1 (l : Bool) : (0#4 ++ ofBool l : BitVec 5).getLsbD 0 = l := by
  simp only [getLsbD_append]; simp

@[simp] theorem bit_arrx_1 (l : Bool) : (0#4 ++ ofBool l : BitVec 5)[0] = l := by
  simpa using field_arrx_1 l


/-! ### Fields of XOP -/

@[simp] theorem xop_ac (c : AC) : (0#1 ++ acBits c : BitVec 5).extractLsb' 0 4 = acBits c := by cases c <;> rfl
@[simp] theorem xop_ac4 (c : AC) : (0#1 ++ acBits c : BitVec 5)[4] = false := by cases c <;> rfl
@[simp] theorem xop_irr (c : AC) : (1#1 ++ acBits c : BitVec 5).extractLsb' 0 4 = acBits c := by cases c <;> rfl
@[simp] theorem xop_irr4 (c : AC) : (1#1 ++ acBits c : BitVec 5)[4] = true := by cases c <;> rfl
@[simp] theorem xop_na (n : Bool) (c : AC) : (ofBool n ++ acBits c : BitVec 5).extractLsb' 0 4 = acBits c := by
  cases n <;> cases c <;> rfl
@[simp] theorem xop_na4 (n : Bool) (c : AC) : (ofBool n ++ acBits c : BitVec 5)[4] = n := by cases n <;> cases c <;> rfl
@[simp] theorem xop_line (n : Bool) : (ofBool n ++ 9#4 : BitVec 5).extractLsb' 0 4 = 9#4 := by cases n <;> rfl
@[simp] theorem xop_line4 (n : Bool) : (ofBool n ++ 9#4 : BitVec 5)[4] = n := by cases n <;> rfl
@[simp] theorem xop_at (o : AtOp) (w : Bool) : (atBits o ++ ofBool w : BitVec 5).extractLsb' 1 4 = atBits o := by
  cases o <;> cases w <;> rfl
@[simp] theorem xop_at0 (o : AtOp) (w : Bool) : (atBits o ++ ofBool w : BitVec 5)[0] = w := by cases o <;> cases w <;> rfl
@[simp] theorem xop_scope (n : BitVec 2) (c : Scope) : (n ++ scopeBits c : BitVec 5).extractLsb' 0 3 = scopeBits c := by
  revert n; cases c <;> decide
@[simp] theorem xop_fence (n : BitVec 2) (c : Scope) : (n ++ scopeBits c : BitVec 5).extractLsb' 3 2 = n := by
  revert n; cases c <;> decide
@[simp] theorem xop_cond (c : Cond) : (0#1 ++ condBits c : BitVec 5).extractLsb' 0 4 = condBits c := by cases c <;> rfl
@[simp] theorem xop_cond4 (c : Cond) : (0#1 ++ condBits c : BitVec 5)[4] = false := by cases c <;> rfl
@[simp] theorem xop_any (n : BitVec 2) (w : IntW) : (n ++ intWBits w : BitVec 5).extractLsb' 0 3 = intWBits w := by
  revert n; cases w <;> decide
@[simp] theorem xop_any3 (w : IntW) : (0#2 ++ intWBits w : BitVec 5)[3] = false := by cases w <;> rfl
@[simp] theorem xop_any4 (w : IntW) : (0#2 ++ intWBits w : BitVec 5)[4] = false := by cases w <;> rfl
@[simp] theorem xop_all3 (w : IntW) : (1#2 ++ intWBits w : BitVec 5)[3] = true := by cases w <;> rfl
@[simp] theorem xop_all4 (w : IntW) : (1#2 ++ intWBits w : BitVec 5)[4] = false := by cases w <;> rfl
@[simp] theorem xop_kind (k : BitVec 4) : (0#1 ++ k : BitVec 5).extractLsb' 0 4 = k := by revert k; decide
@[simp] theorem osc_any (o : Option Scope) (n : Bool) : (ofBool n ++ oscBits o : BitVec 4).extractLsb' 0 3 = oscBits o := by
  obtain _ | c := o
  · cases n <;> rfl
  · cases n <;> cases c <;> rfl
@[simp] theorem osc_any3 (o : Option Scope) (n : Bool) : (ofBool n ++ oscBits o : BitVec 4)[3] = n := by
  obtain _ | c := o
  · cases n <;> rfl
  · cases n <;> cases c <;> rfl
@[simp] theorem cpyqf_osc (o : Option Scope) (a b : Bool) : (oscBits o ++ ofBool a ++ ofBool b : BitVec 5).extractLsb' 2 3 = oscBits o := by
  obtain _ | c := o
  · cases a <;> cases b <;> rfl
  · cases a <;> cases b <;> cases c <;> rfl
@[simp] theorem cpyqf_sys (o : Option Scope) (a b : Bool) : (oscBits o ++ ofBool a ++ ofBool b : BitVec 5)[1] = a := by
  obtain _ | c := o
  · cases a <;> cases b <;> rfl
  · cases a <;> cases b <;> cases c <;> rfl
@[simp] theorem cpyqf_self (o : Option Scope) (a b : Bool) : (oscBits o ++ ofBool a ++ ofBool b : BitVec 5)[0] = b := by
  obtain _ | c := o
  · cases a <;> cases b <;> rfl
  · cases a <;> cases b <;> cases c <;> rfl

/-! ### A whole word -/

/-- What a word decodes to (R61). -/
theorem decode_pack {o : BitVec 8} {i : Bool} {x : BitVec 5} {imm : BitVec 32} {h : Head} {f : Head → Instr}
    (hk : opcKnown o.toNat = true) (hp : parse o.toNat i x imm = some f) (hw : (f h).wf = true) :
    decode (pack64 o i x (pmBits h.pm) (targetBits h.t0) (targetBits h.t1) imm) = .ok (f h) := by
  unfold decode
  simp [hk, hp, hw]

/-- The same of an encoded instruction. -/
theorem decode_mk {o : BitVec 8} {i : Bool} {x : BitVec 5} {imm : BitVec 32} {h : Head} {f : Head → Instr} {w : IWord}
    (he : mk o i x h imm = some w) (hk : opcKnown o.toNat = true) (hp : parse o.toNat i x imm = some f) (hw : (f h).wf = true) :
    decode w = .ok (f h) := by
  rw [mk_pack] at he
  cases he
  exact decode_pack hk hp hw

end Sys2Proof
end

