-- ==== Sys2Proof/Laws/PerInstr.lean ====
section
/-! SUPPORT. Instruction by instruction (R41 to R61): which steps have an instruction word, and that a legal instruction's word decodes
to it. -/

/-- A step has a word exactly where it is an Echeder instruction; the word of a well-formed one decodes to it. -/
def Sys2Proof.Laws.Words.Statement (i : Sys2Proof.Instr) : Prop :=
  (Sys2Proof.encode i).isSome = i.isWord ∧ ∀ w, Sys2Proof.encode i = some w → i.wf = true → Sys2Proof.decode w = .ok i

open Sys2Proof

theorem Sys2Proof.Laws.Words.packetWrite (fn q off : Nat) (data : List Byte) : Laws.Words.Statement (.packetWrite fn q off data) :=
  ⟨rfl, fun _ he => nomatch he⟩

theorem Sys2Proof.Laws.Words.resume (fn q : Nat) (v : BitVec 32) : Laws.Words.Statement (.resume fn q v) :=
  ⟨rfl, fun _ he => nomatch he⟩

theorem Sys2Proof.Laws.Words.chead (fn q : Nat) (v : BitVec 32) : Laws.Words.Statement (.chead fn q v) :=
  ⟨rfl, fun _ he => nomatch he⟩

theorem Sys2Proof.Laws.Words.registerWrite (fn off len : Nat) (v : BitVec 64) : Laws.Words.Statement (.registerWrite fn off len v) :=
  ⟨rfl, fun _ he => nomatch he⟩

theorem Sys2Proof.Laws.Words.ingest (q : Nat) : Laws.Words.Statement (.ingest q) :=
  ⟨rfl, fun _ he => nomatch he⟩

theorem Sys2Proof.Laws.Words.move (pt x y : Nat) : Laws.Words.Statement (.move pt x y) :=
  ⟨rfl, fun _ he => nomatch he⟩

theorem Sys2Proof.Laws.Words.press (moves : List PressMove) : Laws.Words.Statement (.press moves) :=
  ⟨rfl, fun _ he => nomatch he⟩

theorem Sys2Proof.Laws.Words.evict (pt : Nat) : Laws.Words.Statement (.evict pt) :=
  ⟨rfl, fun _ he => nomatch he⟩

theorem Sys2Proof.Laws.Words.restore (pt x y : Nat) : Laws.Words.Statement (.restore pt x y) :=
  ⟨rfl, fun _ he => nomatch he⟩

theorem Sys2Proof.Laws.Words.rinse (lease : Nat) : Laws.Words.Statement (.rinse lease) :=
  ⟨rfl, fun _ he => nomatch he⟩

theorem Sys2Proof.Laws.Words.rinseDone (lease : Nat) : Laws.Words.Statement (.rinseDone lease) :=
  ⟨rfl, fun _ he => nomatch he⟩

theorem Sys2Proof.Laws.Words.darn (cl pos : Nat) : Laws.Words.Statement (.darn cl pos) :=
  ⟨rfl, fun _ he => nomatch he⟩

theorem Sys2Proof.Laws.Words.stripCoreFailure (y : Nat) : Laws.Words.Statement (.stripCoreFailure y) :=
  ⟨rfl, fun _ he => nomatch he⟩

theorem Sys2Proof.Laws.Words.misrouteReportTimer (cid out : Nat) : Laws.Words.Statement (.misrouteReportTimer cid out) :=
  ⟨rfl, fun _ he => nomatch he⟩

theorem Sys2Proof.Laws.Words.pleatHandshakeStep (cid : Nat) : Laws.Words.Statement (.pleatHandshakeStep cid) :=
  ⟨rfl, fun _ he => nomatch he⟩

theorem Sys2Proof.Laws.Words.contextRequest (cid out : Nat) : Laws.Words.Statement (.contextRequest cid out) :=
  ⟨rfl, fun _ he => nomatch he⟩

theorem Sys2Proof.Laws.Words.contextTransition (pt : Nat) : Laws.Words.Statement (.contextTransition pt) :=
  ⟨rfl, fun _ he => nomatch he⟩

theorem Sys2Proof.Laws.Words.taskStart (cid slot : Nat) : Laws.Words.Statement (.taskStart cid slot) :=
  ⟨rfl, fun _ he => nomatch he⟩

theorem Sys2Proof.Laws.Words.tspawnRequest (cid slot : Nat) : Laws.Words.Statement (.tspawnRequest cid slot) :=
  ⟨rfl, fun _ he => nomatch he⟩

theorem Sys2Proof.Laws.Words.issueGrant (cid pickLane pickSeq : Nat) : Laws.Words.Statement (.issueGrant cid pickLane pickSeq) :=
  ⟨rfl, fun _ he => nomatch he⟩

theorem Sys2Proof.Laws.Words.weightRecompute (cid : Nat) : Laws.Words.Statement (.weightRecompute cid) :=
  ⟨rfl, fun _ he => nomatch he⟩

theorem Sys2Proof.Laws.Words.blockFetch (cid slot : Nat) : Laws.Words.Statement (.blockFetch cid slot) :=
  ⟨rfl, fun _ he => nomatch he⟩

theorem Sys2Proof.Laws.Words.blockCommit (cid slot : Nat) : Laws.Words.Statement (.blockCommit cid slot) :=
  ⟨rfl, fun _ he => nomatch he⟩

theorem Sys2Proof.Laws.Words.pinnedInstanceStart (cid : Nat) (bad : Bool) : Laws.Words.Statement (.pinnedInstanceStart cid bad) :=
  ⟨rfl, fun _ he => nomatch he⟩

theorem Sys2Proof.Laws.Words.flitArrival (cid out : Nat) : Laws.Words.Statement (.flitArrival cid out) :=
  ⟨rfl, fun _ he => nomatch he⟩

theorem Sys2Proof.Laws.Words.steer (cid e : Nat) : Laws.Words.Statement (.steer cid e) :=
  ⟨rfl, fun _ he => nomatch he⟩

theorem Sys2Proof.Laws.Words.merge (cid e : Nat) : Laws.Words.Statement (.merge cid e) :=
  ⟨rfl, fun _ he => nomatch he⟩

theorem Sys2Proof.Laws.Words.carry (cid e : Nat) : Laws.Words.Statement (.carry cid e) :=
  ⟨rfl, fun _ he => nomatch he⟩

theorem Sys2Proof.Laws.Words.reorder (cid e : Nat) : Laws.Words.Statement (.reorder cid e) :=
  ⟨rfl, fun _ he => nomatch he⟩

theorem Sys2Proof.Laws.Words.spillStart (cid out : Nat) : Laws.Words.Statement (.spillStart cid out) :=
  ⟨rfl, fun _ he => nomatch he⟩

theorem Sys2Proof.Laws.Words.spillReturn (cid out : Nat) : Laws.Words.Statement (.spillReturn cid out) :=
  ⟨rfl, fun _ he => nomatch he⟩

theorem Sys2Proof.Laws.Words.stallReport (pt : Nat) : Laws.Words.Statement (.stallReport pt) :=
  ⟨rfl, fun _ he => nomatch he⟩

theorem Sys2Proof.Laws.Words.tlbWalk (cid : Nat) (va : BitVec 48) : Laws.Words.Statement (.tlbWalk cid va) :=
  ⟨rfl, fun _ he => nomatch he⟩

theorem Sys2Proof.Laws.Words.genReply (cid : Nat) : Laws.Words.Statement (.genReply cid) :=
  ⟨rfl, fun _ he => nomatch he⟩

theorem Sys2Proof.Laws.Words.copyWalk (cl q : Nat) : Laws.Words.Statement (.copyWalk cl q) :=
  ⟨rfl, fun _ he => nomatch he⟩

theorem Sys2Proof.Laws.Words.mangleRunStart (cid : Nat) : Laws.Words.Statement (.mangleRunStart cid) :=
  ⟨rfl, fun _ he => nomatch he⟩

theorem Sys2Proof.Laws.Words.mangleTile (cid run mismatches : Nat) : Laws.Words.Statement (.mangleTile cid run mismatches) :=
  ⟨rfl, fun _ he => nomatch he⟩

theorem Sys2Proof.Laws.Words.mangleSwapEffect (cid : Nat) : Laws.Words.Statement (.mangleSwapEffect cid) :=
  ⟨rfl, fun _ he => nomatch he⟩

theorem Sys2Proof.Laws.Words.mangleFenceEffect (cid : Nat) : Laws.Words.Statement (.mangleFenceEffect cid) :=
  ⟨rfl, fun _ he => nomatch he⟩

theorem Sys2Proof.Laws.Words.mloadFill (cid : Nat) : Laws.Words.Statement (.mloadFill cid) :=
  ⟨rfl, fun _ he => nomatch he⟩

theorem Sys2Proof.Laws.Words.undoStallTimeout (cid slot : Nat) : Laws.Words.Statement (.undoStallTimeout cid slot) :=
  ⟨rfl, fun _ he => nomatch he⟩

theorem Sys2Proof.Laws.Words.patrolSweep (line : Nat) : Laws.Words.Statement (.patrolSweep line) :=
  ⟨rfl, fun _ he => nomatch he⟩

theorem Sys2Proof.Laws.Words.sealMark (port : Nat) (n : Rin) : Laws.Words.Statement (.sealMark port n) :=
  ⟨rfl, fun _ he => nomatch he⟩

theorem Sys2Proof.Laws.Words.faultStop (pt : Nat) : Laws.Words.Statement (.faultStop pt) :=
  ⟨rfl, fun _ he => nomatch he⟩

theorem Sys2Proof.Laws.Words.residueMismatch (cid slot : Nat) (again : Bool) : Laws.Words.Statement (.residueMismatch cid slot again) :=
  ⟨rfl, fun _ he => nomatch he⟩

theorem Sys2Proof.Laws.Words.preemptResume (pt : Nat) : Laws.Words.Statement (.preemptResume pt) :=
  ⟨rfl, fun _ he => nomatch he⟩

theorem Sys2Proof.Laws.Words.worldSwitch (vfOut vfIn : Nat) : Laws.Words.Statement (.worldSwitch vfOut vfIn) :=
  ⟨rfl, fun _ he => nomatch he⟩

theorem Sys2Proof.Laws.Words.peerFlitArrival (port : Nat) (f : PeerFlit) : Laws.Words.Statement (.peerFlitArrival port f) :=
  ⟨rfl, fun _ he => nomatch he⟩

theorem Sys2Proof.Laws.Words.peerPortDown (port : Nat) : Laws.Words.Statement (.peerPortDown port) :=
  ⟨rfl, fun _ he => nomatch he⟩

theorem Sys2Proof.Laws.Words.hostWindowWrite (fn off : Nat) (data : List Byte) : Laws.Words.Statement (.hostWindowWrite fn off data) :=
  ⟨rfl, fun _ he => nomatch he⟩

theorem Sys2Proof.Laws.Words.hostWindowRead (fn off len : Nat) : Laws.Words.Statement (.hostWindowRead fn off len) :=
  ⟨rfl, fun _ he => nomatch he⟩

theorem Sys2Proof.Laws.Words.snapshotLoRead (fn slot : Nat) : Laws.Words.Statement (.snapshotLoRead fn slot) :=
  ⟨rfl, fun _ he => nomatch he⟩

theorem Sys2Proof.Laws.Words.snapshotHiRead (fn slot : Nat) : Laws.Words.Statement (.snapshotHiRead fn slot) :=
  ⟨rfl, fun _ he => nomatch he⟩

theorem Sys2Proof.Laws.Words.meterWindow (energy : List Nat) : Laws.Words.Statement (.meterWindow energy) :=
  ⟨rfl, fun _ he => nomatch he⟩

theorem Sys2Proof.Laws.Words.eventRingEn (v : BitVec 64) : Laws.Words.Statement (.eventRingEn v) :=
  ⟨rfl, fun _ he => nomatch he⟩

theorem Sys2Proof.Laws.Words.eventRingHead (v : BitVec 32) : Laws.Words.Statement (.eventRingHead v) :=
  ⟨rfl, fun _ he => nomatch he⟩

theorem Sys2Proof.Laws.Words.injectControl (v : BitVec 64) : Laws.Words.Statement (.injectControl v) :=
  ⟨rfl, fun _ he => nomatch he⟩

theorem Sys2Proof.Laws.Words.throttle (island : Nat) (cause : BitVec 4) : Laws.Words.Statement (.throttle island cause) :=
  ⟨rfl, fun _ he => nomatch he⟩

theorem Sys2Proof.Laws.Words.throttleRecover (island : Nat) : Laws.Words.Statement (.throttleRecover island) :=
  ⟨rfl, fun _ he => nomatch he⟩

theorem Sys2Proof.Laws.Words.peerPortRecover (port : Nat) : Laws.Words.Statement (.peerPortRecover port) :=
  ⟨rfl, fun _ he => nomatch he⟩

theorem Sys2Proof.Laws.Words.functionLevelReset (fn : Nat) : Laws.Words.Statement (.functionLevelReset fn) :=
  ⟨rfl, fun _ he => nomatch he⟩

theorem Sys2Proof.Laws.Words.numvfs (n : Nat) : Laws.Words.Statement (.numvfs n) :=
  ⟨rfl, fun _ he => nomatch he⟩

theorem Sys2Proof.Laws.Words.serialisingToken (node : Nat) : Laws.Words.Statement (.serialisingToken node) :=
  ⟨rfl, fun _ he => nomatch he⟩

theorem Sys2Proof.Laws.Words.uncorrectableError (site : ErrorSite) : Laws.Words.Statement (.uncorrectableError site) :=
  ⟨rfl, fun _ he => nomatch he⟩

theorem Sys2Proof.Laws.Words.exitB (h : Head) (off : BitVec 32) : Laws.Words.Statement (.exitB h off) :=
  ⟨rfl, fun _ he hw => decode_mk (f := fun h => .exitB h off) he rfl (by simp [parse, parse0, need]) hw⟩

theorem Sys2Proof.Laws.Words.exitJ (h : Head) : Laws.Words.Statement (.exitJ h) :=
  ⟨rfl, fun _ he hw => decode_mk (f := fun h => .exitJ h) he rfl (by simp [parse, parse0, need]) hw⟩

theorem Sys2Proof.Laws.Words.exitC (h : Head) (off : BitVec 32) : Laws.Words.Statement (.exitC h off) :=
  ⟨rfl, fun _ he hw => decode_mk (f := fun h => .exitC h off) he rfl (by simp [parse, parse0, need]) hw⟩

theorem Sys2Proof.Laws.Words.exitCi (h : Head) : Laws.Words.Statement (.exitCi h) :=
  ⟨rfl, fun _ he hw => decode_mk (f := fun h => .exitCi h) he rfl (by simp [parse, parse0, need]) hw⟩

theorem Sys2Proof.Laws.Words.exitRet (h : Head) : Laws.Words.Statement (.exitRet h) :=
  ⟨rfl, fun _ he hw => decode_mk (f := fun h => .exitRet h) he rfl (by simp [parse, parse0, need]) hw⟩

theorem Sys2Proof.Laws.Words.exitT (h : Head) : Laws.Words.Statement (.exitT h) :=
  ⟨rfl, fun _ he hw => decode_mk (f := fun h => .exitT h) he rfl (by simp [parse, parse0, need]) hw⟩

theorem Sys2Proof.Laws.Words.exitY (h : Head) (off : BitVec 32) : Laws.Words.Statement (.exitY h off) :=
  ⟨rfl, fun _ he hw => decode_mk (f := fun h => .exitY h off) he rfl (by simp [parse, parse0, need]) hw⟩

theorem Sys2Proof.Laws.Words.nullw (h : Head) : Laws.Words.Statement (.nullw h) :=
  ⟨rfl, fun _ he hw => decode_mk (f := fun h => .nullw h) he rfl (by simp [parse, parse0, need]) hw⟩

theorem Sys2Proof.Laws.Words.nulls (h : Head) (lsid : BitVec 5) : Laws.Words.Statement (.nulls h lsid) :=
  ⟨rfl, fun _ he hw => decode_mk (f := fun h => .nulls h lsid) he rfl (by simp [parse, parse0, need]) hw⟩

theorem Sys2Proof.Laws.Words.movi (h : Head) (w : IntW) (imm : BitVec 32) : Laws.Words.Statement (.movi h w imm) :=
  ⟨rfl, fun _ he hw => decode_mk (f := fun h => .movi h w imm) he rfl (by simp [parse, parse0, need]) hw⟩

theorem Sys2Proof.Laws.Words.movh (h : Head) (imm : BitVec 32) : Laws.Words.Statement (.movh h imm) :=
  ⟨rfl, fun _ he hw => decode_mk (f := fun h => .movh h imm) he rfl (by simp [parse, parse0, need]) hw⟩

theorem Sys2Proof.Laws.Words.mov (h : Head) : Laws.Words.Statement (.mov h) :=
  ⟨rfl, fun _ he hw => decode_mk (f := fun h => .mov h) he rfl (by simp [parse, parse0, need]) hw⟩

theorem Sys2Proof.Laws.Words.getid (h : Head) (sel : BitVec 5) : Laws.Words.Statement (.getid h sel) :=
  ⟨rfl, fun _ he hw => decode_mk (f := fun h => .getid h sel) he rfl (by simp [parse, parse0, need]) hw⟩

theorem Sys2Proof.Laws.Words.constk (h : Head) (k : BitVec 4) : Laws.Words.Statement (.constk h k) :=
  ⟨rfl, fun _ he hw => decode_mk (f := fun h => .constk h k) he rfl (by simp [parse, parse0, need]) hw⟩

theorem Sys2Proof.Laws.Words.pand (h : Head) : Laws.Words.Statement (.pand h) :=
  ⟨rfl, fun _ he hw => decode_mk (f := fun h => .pand h) he rfl (by simp [parse, parse0, need]) hw⟩

theorem Sys2Proof.Laws.Words.por (h : Head) : Laws.Words.Statement (.por h) :=
  ⟨rfl, fun _ he hw => decode_mk (f := fun h => .por h) he rfl (by simp [parse, parse0, need]) hw⟩

theorem Sys2Proof.Laws.Words.pxor (h : Head) : Laws.Words.Statement (.pxor h) :=
  ⟨rfl, fun _ he hw => decode_mk (f := fun h => .pxor h) he rfl (by simp [parse, parse0, need]) hw⟩

theorem Sys2Proof.Laws.Words.pnot (h : Head) : Laws.Words.Statement (.pnot h) :=
  ⟨rfl, fun _ he hw => decode_mk (f := fun h => .pnot h) he rfl (by simp [parse, parse0, need]) hw⟩

theorem Sys2Proof.Laws.Words.sel (h : Head) (w : IntW) : Laws.Words.Statement (.sel h w) :=
  ⟨rfl, fun _ he hw => decode_mk (f := fun h => .sel h w) he rfl (by simp [parse, parse0, need]) hw⟩

theorem Sys2Proof.Laws.Words.lmask (h : Head) (w : IntW) : Laws.Words.Statement (.lmask h w) :=
  ⟨rfl, fun _ he hw => decode_mk (f := fun h => .lmask h w) he rfl (by simp [parse, parse0, need]) hw⟩

theorem Sys2Proof.Laws.Words.anyl (h : Head) (w : IntW) : Laws.Words.Statement (.anyl h w) :=
  ⟨rfl, fun _ he hw => decode_mk (f := fun h => .anyl h w) he rfl (by simp [parse, parse0, need]) hw⟩

theorem Sys2Proof.Laws.Words.alll (h : Head) (w : IntW) : Laws.Words.Statement (.alll h w) :=
  ⟨rfl, fun _ he hw => decode_mk (f := fun h => .alll h w) he rfl (by simp [parse, parse0, need]) hw⟩

theorem Sys2Proof.Laws.Words.clz (h : Head) (ec : IntEC) : Laws.Words.Statement (.clz h ec) :=
  ⟨rfl, fun _ he hw => decode_mk (f := fun h => .clz h ec) he rfl (by simp [parse, parse2, need]) hw⟩

theorem Sys2Proof.Laws.Words.ctz (h : Head) (ec : IntEC) : Laws.Words.Statement (.ctz h ec) :=
  ⟨rfl, fun _ he hw => decode_mk (f := fun h => .ctz h ec) he rfl (by simp [parse, parse2, need]) hw⟩

theorem Sys2Proof.Laws.Words.popc (h : Head) (ec : IntEC) : Laws.Words.Statement (.popc h ec) :=
  ⟨rfl, fun _ he hw => decode_mk (f := fun h => .popc h ec) he rfl (by simp [parse, parse2, need]) hw⟩

theorem Sys2Proof.Laws.Words.brev (h : Head) (ec : IntEC) : Laws.Words.Statement (.brev h ec) :=
  ⟨rfl, fun _ he hw => decode_mk (f := fun h => .brev h ec) he rfl (by simp [parse, parse2, need]) hw⟩

theorem Sys2Proof.Laws.Words.bswap (h : Head) (ec : IntEC) : Laws.Words.Statement (.bswap h ec) :=
  ⟨rfl, fun _ he hw => decode_mk (f := fun h => .bswap h ec) he rfl (by simp [parse, parse2, need]) hw⟩

theorem Sys2Proof.Laws.Words.abs (h : Head) (ec : IntEC) : Laws.Words.Statement (.abs h ec) :=
  ⟨rfl, fun _ he hw => decode_mk (f := fun h => .abs h ec) he rfl (by simp [parse, parse3, need]) hw⟩

theorem Sys2Proof.Laws.Words.neg (h : Head) (ec : IntEC) : Laws.Words.Statement (.neg h ec) :=
  ⟨rfl, fun _ he hw => decode_mk (f := fun h => .neg h ec) he rfl (by simp [parse, parse3, need]) hw⟩

theorem Sys2Proof.Laws.Words.fabs (h : Head) (ec : FltEC) : Laws.Words.Statement (.fabs h ec) :=
  ⟨rfl, fun _ he hw => decode_mk (f := fun h => .fabs h ec) he rfl (by simp [parse, parse4, need]) hw⟩

theorem Sys2Proof.Laws.Words.fneg (h : Head) (ec : FltEC) : Laws.Words.Statement (.fneg h ec) :=
  ⟨rfl, fun _ he hw => decode_mk (f := fun h => .fneg h ec) he rfl (by simp [parse, parse4, need]) hw⟩

theorem Sys2Proof.Laws.Words.ftest (h : Head) (ec : FltEC) (c : FCond) : Laws.Words.Statement (.ftest h ec c) :=
  ⟨rfl, fun _ he hw => decode_mk (f := fun h => .ftest h ec c) he rfl (by simp [parse, parse4, need]) hw⟩

theorem Sys2Proof.Laws.Words.fclass (h : Head) (ec : FltEC) (mask : BitVec 9) : Laws.Words.Statement (.fclass h ec mask) :=
  ⟨rfl, fun _ he hw => decode_mk (f := fun h => .fclass h ec mask) he rfl (by simp [parse, parse4, need]) hw⟩

theorem Sys2Proof.Laws.Words.fcvt (h : Head) (ec : FltEC) (c : CvtF) : Laws.Words.Statement (.fcvt h ec c) :=
  ⟨rfl, fun _ he hw => decode_mk (f := fun h => .fcvt h ec c) he rfl (by simp [parse, parse4, need]) hw⟩

theorem Sys2Proof.Laws.Words.icvtf (h : Head) (ec : FltEC) (c : CvtF) : Laws.Words.Statement (.icvtf h ec c) :=
  ⟨rfl, fun _ he hw => decode_mk (f := fun h => .icvtf h ec c) he rfl (by simp [parse, parse4, need]) hw⟩

theorem Sys2Proof.Laws.Words.fcvti (h : Head) (ec : FltEC) (c : CvtF) : Laws.Words.Statement (.fcvti h ec c) :=
  ⟨rfl, fun _ he hw => decode_mk (f := fun h => .fcvti h ec c) he rfl (by simp [parse, parse4, need]) hw⟩

theorem Sys2Proof.Laws.Words.frcp (h : Head) (ec : FltEC) : Laws.Words.Statement (.frcp h ec) :=
  ⟨rfl, fun _ he hw => decode_mk (f := fun h => .frcp h ec) he rfl (by simp [parse, parse5, need]) hw⟩

theorem Sys2Proof.Laws.Words.frsq (h : Head) (ec : FltEC) : Laws.Words.Statement (.frsq h ec) :=
  ⟨rfl, fun _ he hw => decode_mk (f := fun h => .frsq h ec) he rfl (by simp [parse, parse5, need]) hw⟩

theorem Sys2Proof.Laws.Words.fsqrt (h : Head) (ec : FltEC) : Laws.Words.Statement (.fsqrt h ec) :=
  ⟨rfl, fun _ he hw => decode_mk (f := fun h => .fsqrt h ec) he rfl (by simp [parse, parse5, need]) hw⟩

theorem Sys2Proof.Laws.Words.fexp2 (h : Head) (ec : FltEC) : Laws.Words.Statement (.fexp2 h ec) :=
  ⟨rfl, fun _ he hw => decode_mk (f := fun h => .fexp2 h ec) he rfl (by simp [parse, parse5, need]) hw⟩

theorem Sys2Proof.Laws.Words.flog2 (h : Head) (ec : FltEC) : Laws.Words.Statement (.flog2 h ec) :=
  ⟨rfl, fun _ he hw => decode_mk (f := fun h => .flog2 h ec) he rfl (by simp [parse, parse5, need]) hw⟩

theorem Sys2Proof.Laws.Words.fsinp (h : Head) (ec : FltEC) : Laws.Words.Statement (.fsinp h ec) :=
  ⟨rfl, fun _ he hw => decode_mk (f := fun h => .fsinp h ec) he rfl (by simp [parse, parse5, need]) hw⟩

theorem Sys2Proof.Laws.Words.fcosp (h : Head) (ec : FltEC) : Laws.Words.Statement (.fcosp h ec) :=
  ⟨rfl, fun _ he hw => decode_mk (f := fun h => .fcosp h ec) he rfl (by simp [parse, parse5, need]) hw⟩

theorem Sys2Proof.Laws.Words.ftanh (h : Head) (ec : FltEC) : Laws.Words.Statement (.ftanh h ec) :=
  ⟨rfl, fun _ he hw => decode_mk (f := fun h => .ftanh h ec) he rfl (by simp [parse, parse5, need]) hw⟩

theorem Sys2Proof.Laws.Words.dot (h : Head) (ec : FltEC) (rnd : BitVec 3) : Laws.Words.Statement (.dot h ec rnd) :=
  ⟨rfl, fun _ he hw => decode_mk (f := fun h => .dot h ec rnd) he rfl (by simp [parse, parse5, need]) hw⟩

theorem Sys2Proof.Laws.Words.pack (h : Head) (ec : FltEC) (c : CvtF) : Laws.Words.Statement (.pack h ec c) :=
  ⟨rfl, fun _ he hw => decode_mk (f := fun h => .pack h ec c) he rfl (by simp [parse, parse5, need]) hw⟩

theorem Sys2Proof.Laws.Words.unpack (h : Head) (ec : FltEC) (c : CvtF) : Laws.Words.Statement (.unpack h ec c) :=
  ⟨rfl, fun _ he hw => decode_mk (f := fun h => .unpack h ec c) he rfl (by simp [parse, parse5, need]) hw⟩

theorem Sys2Proof.Laws.Words.scaleb (h : Head) (ec : FltEC) (rnd : BitVec 3) : Laws.Words.Statement (.scaleb h ec rnd) :=
  ⟨rfl, fun _ he hw => decode_mk (f := fun h => .scaleb h ec rnd) he rfl (by simp [parse, parse5, need]) hw⟩

theorem Sys2Proof.Laws.Words.quant (h : Head) (ec : FltEC) (c : CvtF) : Laws.Words.Statement (.quant h ec c) :=
  ⟨rfl, fun _ he hw => decode_mk (f := fun h => .quant h ec c) he rfl (by simp [parse, parse5, need]) hw⟩

theorem Sys2Proof.Laws.Words.perm (h : Head) (ec : EC) (zoob : Bool) : Laws.Words.Statement (.perm h ec zoob) :=
  ⟨rfl, fun _ he hw => decode_mk (f := fun h => .perm h ec zoob) he rfl (by simp [parse, parse6, need]) hw⟩

theorem Sys2Proof.Laws.Words.rotl (h : Head) (ec : EC) (dyn : Bool) (c : BitVec 7) : Laws.Words.Statement (.rotl h ec dyn c) :=
  ⟨rfl, fun _ he hw => decode_mk (f := fun h => .rotl h ec dyn c) he rfl (by simp [parse, parse6, need]) hw⟩

theorem Sys2Proof.Laws.Words.shfl (h : Head) (ec : EC) (mode : BitVec 2) (d : BitVec 6) : Laws.Words.Statement (.shfl h ec mode d) :=
  ⟨rfl, fun _ he hw => decode_mk (f := fun h => .shfl h ec mode d) he rfl (by simp [parse, parse6, need]) hw⟩

theorem Sys2Proof.Laws.Words.bcastl (h : Head) (ec : EC) (j : BitVec 6) : Laws.Words.Statement (.bcastl h ec j) :=
  ⟨rfl, fun _ he hw => decode_mk (f := fun h => .bcastl h ec j) he rfl (by simp [parse, parse6, need]) hw⟩

theorem Sys2Proof.Laws.Words.redl (h : Head) (ec : EC) (g : BitVec 3) (rnd : BitVec 3) (op : RedOp) : Laws.Words.Statement (.redl h ec g rnd op) :=
  ⟨rfl, fun _ he hw => decode_mk (f := fun h => .redl h ec g rnd op) he rfl (by simp [parse, parse6, need]) hw⟩

theorem Sys2Proof.Laws.Words.scanl (h : Head) (ec : EC) (g : BitVec 3) (excl : Bool) (rnd : BitVec 3) (op : RedOp) : Laws.Words.Statement (.scanl h ec g excl rnd op) :=
  ⟨rfl, fun _ he hw => decode_mk (f := fun h => .scanl h ec g excl rnd op) he rfl (by simp [parse, parse6, need]) hw⟩

theorem Sys2Proof.Laws.Words.compr (h : Head) (ec : EC) : Laws.Words.Statement (.compr h ec) :=
  ⟨rfl, fun _ he hw => decode_mk (f := fun h => .compr h ec) he rfl (by simp [parse, parse6, need]) hw⟩

theorem Sys2Proof.Laws.Words.expnd (h : Head) (ec : EC) (merge : Bool) : Laws.Words.Statement (.expnd h ec merge) :=
  ⟨rfl, fun _ he hw => decode_mk (f := fun h => .expnd h ec merge) he rfl (by simp [parse, parse6, need]) hw⟩

theorem Sys2Proof.Laws.Words.lsel (h : Head) (ec : EC) : Laws.Words.Statement (.lsel h ec) :=
  ⟨rfl, fun _ he hw => decode_mk (f := fun h => .lsel h ec) he rfl (by simp [parse, parse6, need]) hw⟩

theorem Sys2Proof.Laws.Words.iota (h : Head) (ec : EC) (base : BitVec 16) (inc : BitVec 8) : Laws.Words.Statement (.iota h ec base inc) :=
  ⟨rfl, fun _ he hw => decode_mk (f := fun h => .iota h ec base inc) he rfl (by simp [parse, parse6, need]) hw⟩

theorem Sys2Proof.Laws.Words.accs (h : Head) (ec : EC) (lvl : BitVec 3) (rnd : BitVec 3) (op : RedOp) : Laws.Words.Statement (.accs h ec lvl rnd op) :=
  ⟨rfl, fun _ he hw => decode_mk (f := fun h => .accs h ec lvl rnd op) he rfl (by simp [parse, parse6, need]) hw⟩

theorem Sys2Proof.Laws.Words.stopk (h : Head) (lvl : BitVec 3) : Laws.Words.Statement (.stopk h lvl) :=
  ⟨rfl, fun _ he hw => decode_mk (f := fun h => .stopk h lvl) he rfl (by simp [parse, parse6, need]) hw⟩

theorem Sys2Proof.Laws.Words.tkind (h : Head) : Laws.Words.Statement (.tkind h) :=
  ⟨rfl, fun _ he hw => decode_mk (f := fun h => .tkind h) he rfl (by simp [parse, parse6, need]) hw⟩

theorem Sys2Proof.Laws.Words.redn (h : Head) (ec : EC) (mask : BitVec 16) (arr : Bool) (rnd : BitVec 3) (op : RedOp) : Laws.Words.Statement (.redn h ec mask arr rnd op) :=
  ⟨rfl, fun _ he hw => decode_mk (f := fun h => .redn h ec mask arr rnd op) he rfl (by simp [parse, parse6, need]) hw⟩

theorem Sys2Proof.Laws.Words.lds (h : Head) (ac : AC) (m : MemF) : Laws.Words.Statement (.lds h ac m) :=
  ⟨rfl, fun _ he hw => decode_mk (f := fun h => .lds h ac m) he rfl (by simp [parse, parse7, need]) hw⟩

theorem Sys2Proof.Laws.Words.sts (h : Head) (ac : AC) (m : MemF) : Laws.Words.Statement (.sts h ac m) :=
  ⟨rfl, fun _ he hw => decode_mk (f := fun h => .sts h ac m) he rfl (by simp [parse, parse7, need]) hw⟩

theorem Sys2Proof.Laws.Words.ldt (h : Head) (ac : AC) (m : MemF) : Laws.Words.Statement (.ldt h ac m) :=
  ⟨rfl, fun _ he hw => decode_mk (f := fun h => .ldt h ac m) he rfl (by simp [parse, parse7, need]) hw⟩

theorem Sys2Proof.Laws.Words.stt (h : Head) (ac : AC) (m : MemF) : Laws.Words.Statement (.stt h ac m) :=
  ⟨rfl, fun _ he hw => decode_mk (f := fun h => .stt h ac m) he rfl (by simp [parse, parse7, need]) hw⟩

theorem Sys2Proof.Laws.Words.ldg (h : Head) (ac : AC) (na : Bool) (m : MemF) : Laws.Words.Statement (.ldg h ac na m) :=
  ⟨rfl, fun _ he hw => decode_mk (f := fun h => .ldg h ac na m) he rfl (by simp [parse, parse7]) hw⟩

theorem Sys2Proof.Laws.Words.stg (h : Head) (ac : AC) (na : Bool) (m : MemF) : Laws.Words.Statement (.stg h ac na m) :=
  ⟨rfl, fun _ he hw => decode_mk (f := fun h => .stg h ac na m) he rfl (by simp [parse, parse7]) hw⟩

theorem Sys2Proof.Laws.Words.ldgv (h : Head) (ac : AC) (na : Bool) (m : MemF) : Laws.Words.Statement (.ldgv h ac na m) :=
  ⟨rfl, fun _ he hw => decode_mk (f := fun h => .ldgv h ac na m) he rfl (by simp [parse, parse7]) hw⟩

theorem Sys2Proof.Laws.Words.stgv (h : Head) (ac : AC) (na : Bool) (m : MemF) : Laws.Words.Statement (.stgv h ac na m) :=
  ⟨rfl, fun _ he hw => decode_mk (f := fun h => .stgv h ac na m) he rfl (by simp [parse, parse7]) hw⟩

theorem Sys2Proof.Laws.Words.prf (h : Head) (na : Bool) (m : MemF) : Laws.Words.Statement (.prf h na m) :=
  ⟨rfl, fun _ he hw => decode_mk (f := fun h => .prf h na m) he rfl (by simp [parse, parse7, need]) hw⟩

theorem Sys2Proof.Laws.Words.ldn (h : Head) (ac : AC) (m : MemF) : Laws.Words.Statement (.ldn h ac m) :=
  ⟨rfl, fun _ he hw => decode_mk (f := fun h => .ldn h ac m) he rfl (by simp [parse, parse7, need]) hw⟩

theorem Sys2Proof.Laws.Words.stn (h : Head) (ac : AC) (m : MemF) : Laws.Words.Statement (.stn h ac m) :=
  ⟨rfl, fun _ he hw => decode_mk (f := fun h => .stn h ac m) he rfl (by simp [parse, parse7, need]) hw⟩

theorem Sys2Proof.Laws.Words.atms (h : Head) (op : AtOp) (wide : Bool) (m : MemF) : Laws.Words.Statement (.atms h op wide m) :=
  ⟨rfl, fun _ he hw => decode_mk (f := fun h => .atms h op wide m) he rfl (by simp [parse, parse7]) hw⟩

theorem Sys2Proof.Laws.Words.atmg (h : Head) (op : AtOp) (wide : Bool) (m : MemF) : Laws.Words.Statement (.atmg h op wide m) :=
  ⟨rfl, fun _ he hw => decode_mk (f := fun h => .atmg h op wide m) he rfl (by simp [parse, parse7]) hw⟩

theorem Sys2Proof.Laws.Words.atmn (h : Head) (op : AtOp) (wide : Bool) (m : MemF) : Laws.Words.Statement (.atmn h op wide m) :=
  ⟨rfl, fun _ he hw => decode_mk (f := fun h => .atmn h op wide m) he rfl (by simp [parse, parse7]) hw⟩

theorem Sys2Proof.Laws.Words.cctlWb (h : Head) (m : MemF) : Laws.Words.Statement (.cctlWb h m) :=
  ⟨rfl, fun _ he hw => decode_mk (f := fun h => .cctlWb h m) he rfl (by simp [parse, parse7]) hw⟩

theorem Sys2Proof.Laws.Words.cctlInv (h : Head) (m : MemF) : Laws.Words.Statement (.cctlInv h m) :=
  ⟨rfl, fun _ he hw => decode_mk (f := fun h => .cctlInv h m) he rfl (by simp [parse, parse7]) hw⟩

theorem Sys2Proof.Laws.Words.cctlWbinv (h : Head) (m : MemF) : Laws.Words.Statement (.cctlWbinv h m) :=
  ⟨rfl, fun _ he hw => decode_mk (f := fun h => .cctlWbinv h m) he rfl (by simp [parse, parse7]) hw⟩

theorem Sys2Proof.Laws.Words.cctlWball (h : Head) (m : MemF) : Laws.Words.Statement (.cctlWball h m) :=
  ⟨rfl, fun _ he hw => decode_mk (f := fun h => .cctlWball h m) he rfl (by simp [parse, parse7]) hw⟩

theorem Sys2Proof.Laws.Words.cctlInvall (h : Head) (m : MemF) : Laws.Words.Statement (.cctlInvall h m) :=
  ⟨rfl, fun _ he hw => decode_mk (f := fun h => .cctlInvall h m) he rfl (by simp [parse, parse7]) hw⟩

theorem Sys2Proof.Laws.Words.cpy (h : Head) (m : MemF) : Laws.Words.Statement (.cpy h m) :=
  ⟨rfl, fun _ he hw => decode_mk (f := fun h => .cpy h m) he rfl (by simp [parse, parse9, need]) hw⟩

theorem Sys2Proof.Laws.Words.cpyqf (h : Head) (self sys : Bool) (osc : Option Scope) : Laws.Words.Statement (.cpyqf h self sys osc) :=
  ⟨rfl, fun _ he hw => decode_mk (f := fun h => .cpyqf h self sys osc) he rfl (by simp [parse, parse9, need]) hw⟩

theorem Sys2Proof.Laws.Words.tagw (h : Head) (osc : Option Scope) (any : Bool) : Laws.Words.Statement (.tagw h osc any) :=
  ⟨rfl, fun _ he hw => decode_mk (f := fun h => .tagw h osc any) he rfl (by simp [parse, parse9, need]) hw⟩

theorem Sys2Proof.Laws.Words.tagff (h : Head) (osc : Option Scope) : Laws.Words.Statement (.tagff h osc) :=
  ⟨rfl, fun _ he hw => decode_mk (f := fun h => .tagff h osc) he rfl (by simp [parse, parse9, need]) hw⟩

theorem Sys2Proof.Laws.Words.tagclr (h : Head) : Laws.Words.Statement (.tagclr h) :=
  ⟨rfl, fun _ he hw => decode_mk (f := fun h => .tagclr h) he rfl (by simp [parse, parse9, need]) hw⟩

theorem Sys2Proof.Laws.Words.tagrd (h : Head) (sel : BitVec 2) : Laws.Words.Statement (.tagrd h sel) :=
  ⟨rfl, fun _ he hw => decode_mk (f := fun h => .tagrd h sel) he rfl (by simp [parse, parse9, need]) hw⟩

theorem Sys2Proof.Laws.Words.mload (h : Head) (ec : EC) : Laws.Words.Statement (.mload h ec) :=
  ⟨rfl, fun _ he hw => decode_mk (f := fun h => .mload h ec) he rfl (by simp [parse, parseA, need]) hw⟩

theorem Sys2Proof.Laws.Words.mswap (h : Head) : Laws.Words.Statement (.mswap h) :=
  ⟨rfl, fun _ he hw => decode_mk (f := fun h => .mswap h) he rfl (by simp [parse, parseA, need]) hw⟩

theorem Sys2Proof.Laws.Words.marm (h : Head) (shape : BitVec 5) : Laws.Words.Statement (.marm h shape) :=
  ⟨rfl, fun _ he hw => decode_mk (f := fun h => .marm h shape) he rfl (by simp [parse, parseA, need]) hw⟩

theorem Sys2Proof.Laws.Words.mfence (h : Head) : Laws.Words.Statement (.mfence h) :=
  ⟨rfl, fun _ he hw => decode_mk (f := fun h => .mfence h) he rfl (by simp [parse, parseA, need]) hw⟩

theorem Sys2Proof.Laws.Words.mwait (h : Head) : Laws.Words.Statement (.mwait h) :=
  ⟨rfl, fun _ he hw => decode_mk (f := fun h => .mwait h) he rfl (by simp [parse, parseA, need]) hw⟩

theorem Sys2Proof.Laws.Words.mchk (h : Head) (clr : Bool) : Laws.Words.Statement (.mchk h clr) :=
  ⟨rfl, fun _ he hw => decode_mk (f := fun h => .mchk h clr) he rfl (by simp [parse, parseA, need]) hw⟩

theorem Sys2Proof.Laws.Words.mzero (h : Head) : Laws.Words.Statement (.mzero h) :=
  ⟨rfl, fun _ he hw => decode_mk (f := fun h => .mzero h) he rfl (by simp [parse, parseA, need]) hw⟩

theorem Sys2Proof.Laws.Words.pleat (h : Head) : Laws.Words.Statement (.pleat h) :=
  ⟨rfl, fun _ he hw => decode_mk (f := fun h => .pleat h) he rfl (by simp [parse, parseB, need]) hw⟩

theorem Sys2Proof.Laws.Words.pleatw (h : Head) : Laws.Words.Statement (.pleatw h) :=
  ⟨rfl, fun _ he hw => decode_mk (f := fun h => .pleatw h) he rfl (by simp [parse, parseB, need]) hw⟩

theorem Sys2Proof.Laws.Words.pleatq (h : Head) : Laws.Words.Statement (.pleatq h) :=
  ⟨rfl, fun _ he hw => decode_mk (f := fun h => .pleatq h) he rfl (by simp [parse, parseB, need]) hw⟩

theorem Sys2Proof.Laws.Words.occ (h : Head) (sel : BitVec 4) : Laws.Words.Statement (.occ h sel) :=
  ⟨rfl, fun _ he hw => decode_mk (f := fun h => .occ h sel) he rfl (by simp [parse, parseB, need]) hw⟩

theorem Sys2Proof.Laws.Words.swm (h : Head) : Laws.Words.Statement (.swm h) :=
  ⟨rfl, fun _ he hw => decode_mk (f := fun h => .swm h) he rfl (by simp [parse, parseB, need]) hw⟩

theorem Sys2Proof.Laws.Words.rinr (h : Head) (sel : BitVec 2) : Laws.Words.Statement (.rinr h sel) :=
  ⟨rfl, fun _ he hw => decode_mk (f := fun h => .rinr h sel) he rfl (by simp [parse, parseB, need]) hw⟩

theorem Sys2Proof.Laws.Words.sealpt (h : Head) : Laws.Words.Statement (.sealpt h) :=
  ⟨rfl, fun _ he hw => decode_mk (f := fun h => .sealpt h) he rfl (by simp [parse, parseB, need]) hw⟩

theorem Sys2Proof.Laws.Words.sealw (h : Head) : Laws.Words.Statement (.sealw h) :=
  ⟨rfl, fun _ he hw => decode_mk (f := fun h => .sealw h) he rfl (by simp [parse, parseB, need]) hw⟩

theorem Sys2Proof.Laws.Words.sealrqNowait (h : Head) : Laws.Words.Statement (.sealrqNowait h) :=
  ⟨rfl, fun _ he hw => decode_mk (f := fun h => .sealrqNowait h) he rfl rfl hw⟩

theorem Sys2Proof.Laws.Words.sealrqWait (h : Head) : Laws.Words.Statement (.sealrqWait h) :=
  ⟨rfl, fun _ he hw => decode_mk (f := fun h => .sealrqWait h) he rfl rfl hw⟩

theorem Sys2Proof.Laws.Words.stx (h : Head) (ac : AC) (m : MemF) : Laws.Words.Statement (.stx h ac m) :=
  ⟨rfl, fun _ he hw => decode_mk (f := fun h => .stx h ac m) he rfl (by simp [parse, parseB]) hw⟩

theorem Sys2Proof.Laws.Words.stxIrr (h : Head) (ac : AC) (m : MemF) : Laws.Words.Statement (.stxIrr h ac m) :=
  ⟨rfl, fun _ he hw => decode_mk (f := fun h => .stxIrr h ac m) he rfl (by simp [parse, parseB]) hw⟩

theorem Sys2Proof.Laws.Words.escw (h : Head) : Laws.Words.Statement (.escw h) :=
  ⟨rfl, fun _ he hw => decode_mk (f := fun h => .escw h) he rfl (by simp [parse, parseB, need]) hw⟩

theorem Sys2Proof.Laws.Words.fenceAcq (h : Head) (scope : Scope) : Laws.Words.Statement (.fenceAcq h scope) :=
  ⟨rfl, fun _ he hw => decode_mk (f := fun h => .fenceAcq h scope) he rfl (by simp [parse, parseC, need]) hw⟩

theorem Sys2Proof.Laws.Words.fenceRel (h : Head) (scope : Scope) : Laws.Words.Statement (.fenceRel h scope) :=
  ⟨rfl, fun _ he hw => decode_mk (f := fun h => .fenceRel h scope) he rfl (by simp [parse, parseC, need]) hw⟩

theorem Sys2Proof.Laws.Words.fenceBoth (h : Head) (scope : Scope) : Laws.Words.Statement (.fenceBoth h scope) :=
  ⟨rfl, fun _ he hw => decode_mk (f := fun h => .fenceBoth h scope) he rfl (by simp [parse, parseC, need]) hw⟩

theorem Sys2Proof.Laws.Words.fenceSc (h : Head) (scope : Scope) : Laws.Words.Statement (.fenceSc h scope) :=
  ⟨rfl, fun _ he hw => decode_mk (f := fun h => .fenceSc h scope) he rfl (by simp [parse, parseC, need]) hw⟩

theorem Sys2Proof.Laws.Words.arrive (h : Head) (lobj : Bool) (k : BitVec 6) (e : BitVec 16) : Laws.Words.Statement (.arrive h lobj k e) :=
  ⟨rfl, fun _ he hw => decode_mk (f := fun h => .arrive h lobj k e) he rfl (by simp [parse, parseC, need]) hw⟩

theorem Sys2Proof.Laws.Words.waitb (h : Head) (lobj : Bool) (k : BitVec 6) : Laws.Words.Statement (.waitb h lobj k) :=
  ⟨rfl, fun _ he hw => decode_mk (f := fun h => .waitb h lobj k) he rfl (by simp [parse, parseC, need]) hw⟩

theorem Sys2Proof.Laws.Words.bar (h : Head) : Laws.Words.Statement (.bar h) :=
  ⟨rfl, fun _ he hw => decode_mk (f := fun h => .bar h) he rfl (by simp [parse, parseC, need]) hw⟩

theorem Sys2Proof.Laws.Words.waitm (h : Head) (c : Cond) (osc : Option Scope) : Laws.Words.Statement (.waitm h c osc) :=
  ⟨rfl, fun _ he hw => decode_mk (f := fun h => .waitm h c osc) he rfl (by simp [parse, parseC, need]) hw⟩

theorem Sys2Proof.Laws.Words.send (h : Head) (kind : BitVec 4) (j : BitVec 4) : Laws.Words.Statement (.send h kind j) :=
  ⟨rfl, fun _ he hw => decode_mk (f := fun h => .send h kind j) he rfl (by simp [parse, parseD, need]) hw⟩

theorem Sys2Proof.Laws.Words.recv (h : Head) (j : BitVec 4) : Laws.Words.Statement (.recv h j) :=
  ⟨rfl, fun _ he hw => decode_mk (f := fun h => .recv h j) he rfl (by simp [parse, parseD, need]) hw⟩

theorem Sys2Proof.Laws.Words.bind (h : Head) (j : BitVec 4) (rel : Bool) : Laws.Words.Statement (.bind h j rel) :=
  ⟨rfl, fun _ he hw => decode_mk (f := fun h => .bind h j rel) he rfl (by simp [parse, parseD, need]) hw⟩

theorem Sys2Proof.Laws.Words.waitc (h : Head) (j : BitVec 4) (n : BitVec 7) : Laws.Words.Statement (.waitc h j n) :=
  ⟨rfl, fun _ he hw => decode_mk (f := fun h => .waitc h j n) he rfl (by simp [parse, parseD, need]) hw⟩

theorem Sys2Proof.Laws.Words.tspawn (h : Head) (wait : Bool) : Laws.Words.Statement (.tspawn h wait) :=
  ⟨rfl, fun _ he hw => decode_mk (f := fun h => .tspawn h wait) he rfl (by simp [parse, parseD, need]) hw⟩

theorem Sys2Proof.Laws.Words.tstat (h : Head) : Laws.Words.Statement (.tstat h) :=
  ⟨rfl, fun _ he hw => decode_mk (f := fun h => .tstat h) he rfl (by simp [parse, parseD, need]) hw⟩

theorem Sys2Proof.Laws.Words.qpost (h : Head) (m : MemF) : Laws.Words.Statement (.qpost h m) :=
  ⟨rfl, fun _ he hw => decode_mk (f := fun h => .qpost h m) he rfl (by simp [parse, parseD, need]) hw⟩

theorem Sys2Proof.Laws.Words.constw (h : Head) (px py : BitVec 6) (k : BitVec 4) (c : BitVec 3) : Laws.Words.Statement (.constw h px py k c) :=
  ⟨rfl, fun _ he hw => decode_mk (f := fun h => .constw h px py k c) he rfl (by simp [parse, parseD, need]) hw⟩

theorem Sys2Proof.Laws.Words.markt (h : Head) (mask : BitVec 16) : Laws.Words.Statement (.markt h mask) :=
  ⟨rfl, fun _ he hw => decode_mk (f := fun h => .markt h mask) he rfl (by simp [parse, parseD, need]) hw⟩

theorem Sys2Proof.Laws.Words.trap (h : Head) (code : BitVec 16) : Laws.Words.Statement (.trap h code) :=
  ⟨rfl, fun _ he hw => decode_mk (f := fun h => .trap h code) he rfl (by simp [parse, parseE, need]) hw⟩

theorem Sys2Proof.Laws.Words.brk (h : Head) (num : BitVec 8) : Laws.Words.Statement (.brk h num) :=
  ⟨rfl, fun _ he hw => decode_mk (f := fun h => .brk h num) he rfl (by simp [parse, parseE, need]) hw⟩

theorem Sys2Proof.Laws.Words.csrr (h : Head) (r : BitVec 8) : Laws.Words.Statement (.csrr h r) :=
  ⟨rfl, fun _ he hw => decode_mk (f := fun h => .csrr h r) he rfl (by simp [parse, parseE, need]) hw⟩

theorem Sys2Proof.Laws.Words.csrw (h : Head) (r : BitVec 8) : Laws.Words.Statement (.csrw h r) :=
  ⟨rfl, fun _ he hw => decode_mk (f := fun h => .csrw h r) he rfl (by simp [parse, parseE, need]) hw⟩

theorem Sys2Proof.Laws.Words.svcHemlint (h : Head) : Laws.Words.Statement (.svcHemlint h) :=
  ⟨rfl, fun _ he hw => decode_mk (f := fun h => .svcHemlint h) he rfl rfl hw⟩

theorem Sys2Proof.Laws.Words.svcStalelint (h : Head) : Laws.Words.Statement (.svcStalelint h) :=
  ⟨rfl, fun _ he hw => decode_mk (f := fun h => .svcStalelint h) he rfl rfl hw⟩

theorem Sys2Proof.Laws.Words.svcRollbacks (h : Head) : Laws.Words.Statement (.svcRollbacks h) :=
  ⟨rfl, fun _ he hw => decode_mk (f := fun h => .svcRollbacks h) he rfl rfl hw⟩

theorem Sys2Proof.Laws.Words.svcIdent (h : Head) : Laws.Words.Statement (.svcIdent h) :=
  ⟨rfl, fun _ he hw => decode_mk (f := fun h => .svcIdent h) he rfl rfl hw⟩

theorem Sys2Proof.Laws.Words.svcNotify (h : Head) : Laws.Words.Statement (.svcNotify h) :=
  ⟨rfl, fun _ he hw => decode_mk (f := fun h => .svcNotify h) he rfl rfl hw⟩

theorem Sys2Proof.Laws.Words.svcReserved (h : Head) (s : BitVec 8) : Laws.Words.Statement (.svcReserved h s) := by
  refine ⟨rfl, fun W he hw => decode_mk (f := fun h => .svcReserved h s) he rfl ?_ hw⟩
  have hb : (Machine.headOk (Machine.results (Instr.svcReserved h s)) h && decide (5 ≤ s.toNat)) = true := hw
  have hs : 5 ≤ s.toNat := of_decide_eq_true (Bool.and_eq_true_iff.mp hb).2
  have h0 : ∀ n : BitVec 8, n.toNat < 5 → s ≠ n := by
    rintro n hn rfl
    omega
  simp [parse, parseE, need, h0 0#8 (by decide), h0 1#8 (by decide), h0 2#8 (by decide), h0 3#8 (by decide), h0 4#8 (by decide)]

theorem Sys2Proof.Laws.Words.rdcyc (h : Head) : Laws.Words.Statement (.rdcyc h) :=
  ⟨rfl, fun _ he hw => decode_mk (f := fun h => .rdcyc h) he rfl (by simp [parse, parseE, need]) hw⟩

theorem Sys2Proof.Laws.Words.rdtime (h : Head) : Laws.Words.Statement (.rdtime h) :=
  ⟨rfl, fun _ he hw => decode_mk (f := fun h => .rdtime h) he rfl (by simp [parse, parseE, need]) hw⟩

theorem Sys2Proof.Laws.Words.nop (h : Head) : Laws.Words.Statement (.nop h) :=
  ⟨rfl, fun _ he hw => decode_mk (f := fun h => .nop h) he rfl (by simp [parse, parseE, need]) hw⟩

theorem Sys2Proof.Laws.Words.validate : Laws.Words.Statement .validate :=
  ⟨rfl, fun _ he => nomatch he⟩

theorem Sys2Proof.Laws.Words.depend : Laws.Words.Statement .depend :=
  ⟨rfl, fun _ he => nomatch he⟩

theorem Sys2Proof.Laws.Words.dependenceReread : Laws.Words.Statement .dependenceReread :=
  ⟨rfl, fun _ he => nomatch he⟩

theorem Sys2Proof.Laws.Words.place : Laws.Words.Statement .place :=
  ⟨rfl, fun _ he => nomatch he⟩

theorem Sys2Proof.Laws.Words.priorityAging : Laws.Words.Statement .priorityAging :=
  ⟨rfl, fun _ he => nomatch he⟩

theorem Sys2Proof.Laws.Words.fill : Laws.Words.Statement .fill :=
  ⟨rfl, fun _ he => nomatch he⟩

theorem Sys2Proof.Laws.Words.launchStage : Laws.Words.Statement .launchStage :=
  ⟨rfl, fun _ he => nomatch he⟩

theorem Sys2Proof.Laws.Words.complete : Laws.Words.Statement .complete :=
  ⟨rfl, fun _ he => nomatch he⟩

theorem Sys2Proof.Laws.Words.launch : Laws.Words.Statement .launch :=
  ⟨rfl, fun _ he => nomatch he⟩

theorem Sys2Proof.Laws.Words.wait : Laws.Words.Statement .wait :=
  ⟨rfl, fun _ he => nomatch he⟩

theorem Sys2Proof.Laws.Words.signal : Laws.Words.Statement .signal :=
  ⟨rfl, fun _ he => nomatch he⟩

theorem Sys2Proof.Laws.Words.copy : Laws.Words.Statement .copy :=
  ⟨rfl, fun _ he => nomatch he⟩

theorem Sys2Proof.Laws.Words.sealrq : Laws.Words.Statement .sealrq :=
  ⟨rfl, fun _ he => nomatch he⟩

theorem Sys2Proof.Laws.Words.leaseRequest : Laws.Words.Statement .leaseRequest :=
  ⟨rfl, fun _ he => nomatch he⟩

theorem Sys2Proof.Laws.Words.leaseResize : Laws.Words.Statement .leaseResize :=
  ⟨rfl, fun _ he => nomatch he⟩

theorem Sys2Proof.Laws.Words.leaseLend : Laws.Words.Statement .leaseLend :=
  ⟨rfl, fun _ he => nomatch he⟩

theorem Sys2Proof.Laws.Words.leaseRecall : Laws.Words.Statement .leaseRecall :=
  ⟨rfl, fun _ he => nomatch he⟩

theorem Sys2Proof.Laws.Words.leaseRelease : Laws.Words.Statement .leaseRelease :=
  ⟨rfl, fun _ he => nomatch he⟩

theorem Sys2Proof.Laws.Words.marker : Laws.Words.Statement .marker :=
  ⟨rfl, fun _ he => nomatch he⟩

theorem Sys2Proof.Laws.Words.placerPlace : Laws.Words.Statement .placerPlace :=
  ⟨rfl, fun _ he => nomatch he⟩

theorem Sys2Proof.Laws.Words.map : Laws.Words.Statement .map :=
  ⟨rfl, fun _ he => nomatch he⟩

theorem Sys2Proof.Laws.Words.unmap : Laws.Words.Statement .unmap :=
  ⟨rfl, fun _ he => nomatch he⟩

theorem Sys2Proof.Laws.Words.protect : Laws.Words.Statement .protect :=
  ⟨rfl, fun _ he => nomatch he⟩

theorem Sys2Proof.Laws.Words.migrate : Laws.Words.Statement .migrate :=
  ⟨rfl, fun _ he => nomatch he⟩

theorem Sys2Proof.Laws.Words.debug : Laws.Words.Statement .debug :=
  ⟨rfl, fun _ he => nomatch he⟩

theorem Sys2Proof.Laws.Words.dresume : Laws.Words.Statement .dresume :=
  ⟨rfl, fun _ he => nomatch he⟩

theorem Sys2Proof.Laws.Words.profopen : Laws.Words.Statement .profopen :=
  ⟨rfl, fun _ he => nomatch he⟩

theorem Sys2Proof.Laws.Words.profclose : Laws.Words.Statement .profclose :=
  ⟨rfl, fun _ he => nomatch he⟩

theorem Sys2Proof.Laws.Words.peerbind : Laws.Words.Statement .peerbind :=
  ⟨rfl, fun _ he => nomatch he⟩

theorem Sys2Proof.Laws.Words.peerunbind : Laws.Words.Statement .peerunbind :=
  ⟨rfl, fun _ he => nomatch he⟩

theorem Sys2Proof.Laws.Words.window : Laws.Words.Statement .window :=
  ⟨rfl, fun _ he => nomatch he⟩

theorem Sys2Proof.Laws.Words.faults : Laws.Words.Statement .faults :=
  ⟨rfl, fun _ he => nomatch he⟩

theorem Sys2Proof.Laws.Words.report : Laws.Words.Statement .report :=
  ⟨rfl, fun _ he => nomatch he⟩

theorem Sys2Proof.Laws.Words.attest : Laws.Words.Statement .attest :=
  ⟨rfl, fun _ he => nomatch he⟩

theorem Sys2Proof.Laws.Words.qconf : Laws.Words.Statement .qconf :=
  ⟨rfl, fun _ he => nomatch he⟩

theorem Sys2Proof.Laws.Words.vfconf : Laws.Words.Statement .vfconf :=
  ⟨rfl, fun _ he => nomatch he⟩

theorem Sys2Proof.Laws.Words.pair : Laws.Words.Statement .pair :=
  ⟨rfl, fun _ he => nomatch he⟩

theorem Sys2Proof.Laws.Words.lmigrate : Laws.Words.Statement .lmigrate :=
  ⟨rfl, fun _ he => nomatch he⟩

theorem Sys2Proof.Laws.Words.domain : Laws.Words.Statement .domain :=
  ⟨rfl, fun _ he => nomatch he⟩

theorem Sys2Proof.Laws.Words.dremove : Laws.Words.Statement .dremove :=
  ⟨rfl, fun _ he => nomatch he⟩

theorem Sys2Proof.Laws.Words.owner : Laws.Words.Statement .owner :=
  ⟨rfl, fun _ he => nomatch he⟩

theorem Sys2Proof.Laws.Words.pwrcap : Laws.Words.Statement .pwrcap :=
  ⟨rfl, fun _ he => nomatch he⟩

theorem Sys2Proof.Laws.Words.advance : Laws.Words.Statement .advance :=
  ⟨rfl, fun _ he => nomatch he⟩

theorem Sys2Proof.Laws.Words.ready : Laws.Words.Statement .ready :=
  ⟨rfl, fun _ he => nomatch he⟩

theorem Sys2Proof.Laws.Words.sealed : Laws.Words.Statement .sealed :=
  ⟨rfl, fun _ he => nomatch he⟩

theorem Sys2Proof.Laws.Words.sealRequest : Laws.Words.Statement .sealRequest :=
  ⟨rfl, fun _ he => nomatch he⟩

theorem Sys2Proof.Laws.Words.poison : Laws.Words.Statement .poison :=
  ⟨rfl, fun _ he => nomatch he⟩

theorem Sys2Proof.Laws.Words.rollback : Laws.Words.Statement .rollback :=
  ⟨rfl, fun _ he => nomatch he⟩

theorem Sys2Proof.Laws.Words.rolled : Laws.Words.Statement .rolled :=
  ⟨rfl, fun _ he => nomatch he⟩

theorem Sys2Proof.Laws.Words.meterReset : Laws.Words.Statement .meterReset :=
  ⟨rfl, fun _ he => nomatch he⟩

theorem Sys2Proof.Laws.Words.keyroll : Laws.Words.Statement .keyroll :=
  ⟨rfl, fun _ he => nomatch he⟩

theorem Sys2Proof.Laws.Words.firmwareTransfer : Laws.Words.Statement .firmwareTransfer :=
  ⟨rfl, fun _ he => nomatch he⟩

theorem Sys2Proof.Laws.Words.firmwareActivate : Laws.Words.Statement .firmwareActivate :=
  ⟨rfl, fun _ he => nomatch he⟩

theorem Sys2Proof.Laws.Words.coldReset : Laws.Words.Statement .coldReset :=
  ⟨rfl, fun _ he => nomatch he⟩

theorem Sys2Proof.Laws.Words.intervalTimer : Laws.Words.Statement .intervalTimer :=
  ⟨rfl, fun _ he => nomatch he⟩

theorem Sys2Proof.Laws.Words.sealLate : Laws.Words.Statement .sealLate :=
  ⟨rfl, fun _ he => nomatch he⟩
end

