-- ==== Sys2Proof/Safety.lean ====
section
/-! DEFINITION. The terms that claims use: what a safe run is; the forms that every step keeps; what it is for an instruction to
fire; and integer instructions as the spec's tables give them, on bit vectors of the element's width. -/

namespace Sys2Proof.Safety

open Sys2Proof.Machine

/-- The forms of the memories, the token and the clock. -/
def Forms (mem host peer : Memory) (token time : Nat) : Prop :=
  mem.wf = true ∧ host.wf = true ∧ peer.wf = true ∧ token < 11 ∧ time < 2 ^ 64

/-- A state in form. -/
def Formed (s : State) : Prop := Forms s.mem s.hostMem s.peerMem s.token s.time

/-- A run of `k` steps that meets neither a fault nor a refusal. -/
def SafeRun (k : Nat) (s : State) : Prop := ∃ t, Sys2Proof.core.run k s = .next t

/-- An instruction may fire: the cursor names a slot `e` of a live instance (R147), `h` are its predicate mode and targets, the slot
has all its operands `v` and its predicate matches (R45, R172, R173), no pinned instance started before it has still to pass the slot
(R158), and neither the LSID order of its block (R49) nor lower stochastic draws (R74) hold it back. -/
structure Firing (i : Instr) (s : State) (h : Head) (e : Env) (v : Vals) : Prop where
  env : envOf s = some e
  head : headOf i = some h
  go : verdict h.pm (needsOf e.pinned i) e.ss = .go v
  inOrder : e.behind i = false
  free : e.k.isSome = true → e.inst.lsidBlocked i = false ∧ e.inst.drawBlocked (e.t.tctl.getLsbD 2) i e.slot = false

/-- Element k of n bits of a value, as a bit vector (R5, R42). -/
def lane (v : Value) (n k : Nat) : BitVec n := v.extractLsb' (n * k) n

/-- The bits that a scalar form leaves above its element (R42, R184): zero, or for a 32-bit scalar its extension by EC[3]. -/
def scalarRest (ec : IntEC) (r : Value) : Prop :=
  match ec.w with
  | .s64 => r = (lane r 64 0).setWidth 512
  | .s32 => r = if ec.z then (lane r 32 0).setWidth 512 else ((lane r 32 0).signExtend 64).setWidth 512
  | _ => True

/-- An operation on elements of every width. -/
abbrev LaneOp := (n : Nat) → BitVec n → BitVec n → BitVec n → BitVec n

/-- A signed saturating sum or difference (R185): the exact value, clamped to the type. -/
def clampS (n : Nat) (x : Int) : BitVec n :=
  if x < -(2 ^ (n - 1)) then BitVec.intMin n else if 2 ^ (n - 1) - 1 < x then BitVec.intMax n else BitVec.ofInt n x

/-- An unsigned saturating sum or difference (R185). -/
def clampZ (n : Nat) (x : Int) : BitVec n :=
  if x < 0 then 0 else if 2 ^ n - 1 < x then BitVec.allOnes n else BitVec.ofInt n x

/-- The arithmetic rows of R185: head, element code, IMM, and f on elements. -/
def arithForm : Instr → Option (Head × IntEC × Option (BitVec 32) × LaneOp)
  | .add h ec b => some (h, ec, b, fun _ x y _ => x + y)
  | .sub h ec b => some (h, ec, b, fun _ x y _ => x - y)
  | .adds h ec b => some (h, ec, b, fun n x y _ => if ec.z then clampZ n (x.toNat + y.toNat) else clampS n (x.toInt + y.toInt))
  | .subs h ec b => some (h, ec, b, fun n x y _ => if ec.z then clampZ n (x.toNat - y.toNat) else clampS n (x.toInt - y.toInt))
  | .mul h ec b => some (h, ec, b, fun _ x y _ => x * y)
  | .mulh h ec b => some (h, ec, b, fun n x y _ => BitVec.ofInt n (x.toInt * y.toInt / 2 ^ n))
  | .mulhz h ec b => some (h, ec, b, fun n x y _ => BitVec.ofNat n (x.toNat * y.toNat / 2 ^ n))
  | .mad h ec b => some (h, ec, b, fun _ x y z => x * y + z)
  | .and h ec b => some (h, ec, b, fun _ x y _ => x &&& y)
  | .or h ec b => some (h, ec, b, fun _ x y _ => x ||| y)
  | .xor h ec b => some (h, ec, b, fun _ x y _ => x ^^^ y)
  | .andn h ec b => some (h, ec, b, fun _ x y _ => x &&& ~~~y)
  | .orn h ec b => some (h, ec, b, fun _ x y _ => x ||| ~~~y)
  | .min h ec b => some (h, ec, b, fun _ x y _ => if x.toInt ≤ y.toInt then x else y)
  | .max h ec b => some (h, ec, b, fun _ x y _ => if y.toInt ≤ x.toInt then x else y)
  | .minz h ec b => some (h, ec, b, fun _ x y _ => if x.toNat ≤ y.toNat then x else y)
  | .maxz h ec b => some (h, ec, b, fun _ x y _ => if y.toNat ≤ x.toNat then x else y)
  | .abs h ec => some (h, ec, none, fun _ x _ _ => if x.toInt < 0 then -x else x)
  | .neg h ec => some (h, ec, none, fun _ x _ _ => -x)
  | _ => none

/-- The division rows of R185 by R66: division by zero gives all ones and leaves the dividend; a quotient truncates toward zero. -/
def divForm : Instr → Option (Head × IntEC × Option (BitVec 32) × LaneOp)
  | .div h ec b => some (h, ec, b, fun n x y _ => if y = 0 then BitVec.allOnes n else BitVec.ofInt n (x.toInt.tdiv y.toInt))
  | .divz h ec b => some (h, ec, b, fun n x y _ => if y = 0 then BitVec.allOnes n else x / y)
  | .rem h ec b => some (h, ec, b, fun n x y _ => if y = 0 then x else BitVec.ofInt n (x.toInt.tmod y.toInt))
  | .remz h ec b => some (h, ec, b, fun _ x y _ => if y = 0 then x else x % y)
  | _ => none

/-- The shifts of R186; the count is the whole element B read unsigned. -/
def shiftForm : Instr → Option (Head × IntEC × Option (BitVec 32) × LaneOp)
  | .shl h ec b => some (h, ec, b, fun n x y _ => if y.toNat < n then x <<< y.toNat else 0)
  | .shr h ec b => some (h, ec, b, fun n x y _ => if y.toNat < n then x >>> y.toNat else 0)
  | .sar h ec b => some (h, ec, b, fun n x y _ =>
      if y.toNat < n then x.sshiftRight y.toNat else if x.msb then BitVec.allOnes n else 0)
  | .rol h ec b => some (h, ec, b, fun n x y _ => x.rotateLeft (y.toNat % n))
  | _ => none

/-- The bit counts and reversals of R187 as what is known of each result: `P n x r` says that r is the result for the element x. -/
def countForm : Instr → Option (Head × IntEC × ((n : Nat) → BitVec n → BitVec n → Prop))
  | .clz h ec => some (h, ec, fun n x r =>
      r.toNat ≤ n ∧ (∀ i, i < n → n - r.toNat ≤ i → x.getLsbD i = false) ∧ (r.toNat < n → x.getLsbD (n - 1 - r.toNat) = true))
  | .ctz h ec => some (h, ec, fun n x r =>
      r.toNat ≤ n ∧ (∀ i, i < r.toNat → x.getLsbD i = false) ∧ (r.toNat < n → x.getLsbD r.toNat = true))
  | .popc h ec => some (h, ec, fun n x r => r.toNat = ((List.range n).filter fun i => x.getLsbD i).length)
  | .brev h ec => some (h, ec, fun n x r => ∀ i, i < n → r.getLsbD i = x.getLsbD (n - 1 - i))
  | .bswap h ec => some (h, ec, fun n x r => ∀ i, i < n → r.getLsbD i = x.getLsbD (n - 8 - 8 * (i / 8) + i % 8))
  | _ => none

/-- The field instructions of R188 and `lea` of R189. -/
def fieldForm : Instr → Option (Head × IntEC × Option (BitVec 32) × LaneOp)
  | .ext h ec b => some (h, ec, b, fun n x y _ =>
      BitVec.ofInt n (BitVec.ofNat (min (y.toNat / 256 % 128) n) (x.toNat / 2 ^ (y.toNat % 128))).toInt)
  | .extz h ec b => some (h, ec, b, fun n x y _ =>
      BitVec.ofNat n (x.toNat / 2 ^ (y.toNat % 128) % 2 ^ min (y.toNat / 256 % 128) n))
  | .ins h ec b => some (h, ec, b, fun n x y z =>
      let k : BitVec n := BitVec.ofNat n ((2 ^ min (y.toNat / 256 % 128) n - 1) * 2 ^ (y.toNat % 128))
      (x &&& ~~~k) ||| ((z <<< (y.toNat % 128)) &&& k))
  | .lea h ec b => some (h, ec, b, fun n x y _ => BitVec.ofNat n ((x.toNat + y.toNat) % 2 ^ 48))
  | _ => none

/-- Operand B of an integer instruction as R43 gives it: the producer's, or IMM in every element, a 64-bit element extended by EC[3]. -/
def laneB (ec : IntEC) (b : Option (BitVec 32)) (v : Value) (n k : Nat) : BitVec n :=
  match b with
  | none => lane v n k
  | some imm => if ec.z then imm.setWidth n else imm.signExtend n

/-- The arithmetic of R203 and R215 with one rounding, on encodings: the rounding mode and FTZ, then the elements of A, B and C. -/
def floatForm : Instr → Option (Head × FltEC × Option (BitVec 32) × (RMode → Bool → Nat → Nat → Nat → Nat))
  | .fadd h ec b => some (h, ec, b, fun m z x y _ => rnd ec.f ((dec ec.f z x).add (m = .rdn) (dec ec.f z y)).exact m false z)
  | .fsub h ec b => some (h, ec, b, fun m z x y _ => rnd ec.f ((dec ec.f z x).add (m = .rdn) (dec ec.f z y).neg).exact m false z)
  | .fmul h ec b => some (h, ec, b, fun m z x y _ => rnd ec.f ((dec ec.f z x).mul (dec ec.f z y)).exact m false z)
  | .ffma h ec b => some (h, ec, b, fun m z x y w =>
      rnd ec.f (((dec ec.f z x).mul (dec ec.f z y)).add (m = .rdn) (dec ec.f z w)).exact m false z)
  | .ffms h ec b => some (h, ec, b, fun m z x y w =>
      rnd ec.f (((dec ec.f z x).mul (dec ec.f z y)).add (m = .rdn) (dec ec.f z w).neg).exact m false z)
  | .fnma h ec b => some (h, ec, b, fun m z x y w =>
      rnd ec.f (((dec ec.f z x).mul (dec ec.f z y)).neg.add (m = .rdn) (dec ec.f z w)).exact m false z)
  | .fdiv h ec b => some (h, ec, b, fun m z x y _ => rnd ec.f ((dec ec.f z x).div (dec ec.f z y)) m false z)
  | .fsqrt h ec => some (h, ec, none, fun m z x _ _ => rnd ec.f (dec ec.f z x).sqrt m false z)
  | _ => none

/-- The special functions of R215, by the function that each applies to an element. -/
def specialForm : Instr → Option (Head × FltEC × Sfu)
  | .frcp h ec => some (h, ec, .rcp)
  | .frsq h ec => some (h, ec, .rsq)
  | .fexp2 h ec => some (h, ec, .exp2)
  | .flog2 h ec => some (h, ec, .log2)
  | .fsinp h ec => some (h, ec, .sinp)
  | .fcosp h ec => some (h, ec, .cosp)
  | .ftanh h ec => some (h, ec, .tanh)
  | _ => none

/-- The memories of the device, of the host and of the peers are the same. -/
def SameMemory (s t : State) : Prop := t.mem = s.mem ∧ t.hostMem = s.hostMem ∧ t.peerMem = s.peerMem

/-- The packet n stands at the complete stage with an outcome (R97, R98). -/
def Completed (s : State) (n status : Nat) (result : BitVec 64) : Prop :=
  ∃ p, s.pkt n = some p ∧ p.stage = .complete ∧ p.status = status ∧ p.field = 0xFFFF ∧ p.result = result

/-- A mailbox command of a code on a lease that its function holds, granted or being resized (R104, R371, R372): its function, the lease, the arguments. -/
structure Served (s : State) (code fn l : Nat) (L : Lease) (a : CmdArgs) : Prop where
  cmd : serving s code = some (fn, a)
  names : cmdLease s fn = l
  lease : s.lease l = some L
  holds : fn = 0 ∨ L.vf = fn
  granted : L.st = .granted ∨ L.st = .rinsing ∧ L.want ≠ none

/-- The commands on a lease, and those of the PF, with their codes (R372). -/
def leaseCommands : List (Instr × Nat) :=
  [(.map, 1), (.unmap, 2), (.protect, 3), (.migrate, 4), (.debug, 5), (.dresume, 6), (.profopen, 7), (.profclose, 8), (.peerbind, 9),
    (.peerunbind, 10), (.window, 11), (.faults, 12), (.report, 13), (.attest, 14)]
/-- The commands of the PF (R372). -/
def pfCommands : List (Instr × Nat) :=
  [(.qconf, 32), (.vfconf, 33), (.pair, 34), (.lmigrate, 35), (.domain, 36), (.dremove, 37), (.owner, 38), (.pwrcap, 39)]

/-- No posted write of a function waits at the device's port (R290, R308). -/
def NonePosted (s : State) (fn : Nat) : Prop := ∀ j ∈ s.posted, postedBy j ≠ some fn

/-- Patches on which an event of the placer can act at once (R113, R115): each stands, no other operation has its lease in hand, and
nothing that is read out of it is poisoned. -/
def Stand (s : State) (i : Instr) (ps : List (Nat × Patch)) : Prop :=
  ∀ e ∈ ps, placerBusy s (eventKey i) e.2.lease = false ∧ placerStops s e.1 e.2 = true ∧ ∀ cid ∈ patchCores s e.1, readPoison (s.core cid) = false

/-- A core of a running patch. -/
def RunsOn (s : State) (cid pt : Nat) (p : Patch) : Prop := (s.core cid).patch = some pt ∧ s.patch pt = some p ∧ p.st = .running

/-- The instructions that only compute: they take operands, deliver a result and act on nothing else (R151). -/
def computes : Instr → Bool
  | .movi _ _ _ | .movh _ _ | .mov _ | .getid _ _ | .constk _ _ | .pand _ | .por _ | .pxor _ | .pnot _ | .sel _ _ | .lmask _ _ => true
  | .anyl _ _ | .alll _ _ | .test _ _ _ _ | .add _ _ _ | .sub _ _ _ | .adds _ _ _ | .subs _ _ _ | .mul _ _ _ | .mulh _ _ _ => true
  | .mulhz _ _ _ | .mad _ _ _ | .div _ _ _ | .divz _ _ _ | .rem _ _ _ | .remz _ _ _ | .and _ _ _ | .or _ _ _ | .xor _ _ _ => true
  | .andn _ _ _ | .orn _ _ _ | .shl _ _ _ | .shr _ _ _ | .sar _ _ _ | .rol _ _ _ | .clz _ _ | .ctz _ _ | .popc _ _ | .brev _ _ => true
  | .bswap _ _ | .ext _ _ _ | .extz _ _ _ | .ins _ _ _ | .min _ _ _ | .max _ _ _ | .minz _ _ _ | .maxz _ _ _ | .abs _ _ => true
  | .neg _ _ | .lea _ _ _ | .fadd _ _ _ | .fsub _ _ _ | .fmul _ _ _ | .ffma _ _ _ | .ffms _ _ _ | .fnma _ _ _ | .fmin _ _ _ => true
  | .fmax _ _ _ | .fabs _ _ | .fneg _ _ | .fcpys _ _ _ | .ftest _ _ _ | .fclass _ _ _ | .fcvt _ _ _ | .icvtf _ _ _ | .fcvti _ _ _ => true
  | .frcp _ _ | .frsq _ _ | .fsqrt _ _ | .fdiv _ _ _ | .fexp2 _ _ | .flog2 _ _ | .fsinp _ _ | .fcosp _ _ | .ftanh _ _ => true
  | .dot _ _ _ | .pack _ _ _ | .unpack _ _ _ | .scaleb _ _ _ | .quant _ _ _ | .perm _ _ _ | .rotl _ _ _ _ | .shfl _ _ _ _ => true
  | .bcastl _ _ _ | .redl _ _ _ _ _ | .scanl _ _ _ _ _ _ | .compr _ _ | .expnd _ _ _ | .lsel _ _ | .iota _ _ _ _ => true
  | .rdcyc _ | .rdtime _ | .csrr _ _ | .tstat _ | .occ _ _ | .rinr _ _ | .pleatq _ | .tagrd _ _ => true
  | _ => false

/-- The bytes that a role of the pool has under the pleat word in effect (R121, R225). -/
def capOf (c : Core) : PoolRole → Nat
  | .s => c.capS
  | .t => c.capT

end Sys2Proof.Safety
end

