-- ==== Sys2Proof/Certificates/Slice0/Obligations.lean ====
section
/-! DEFINITION. The statements for the provers. -/

open Sys2Proof Sys2Proof.Machine Sys2Proof.Safety

/-! ### Integer instructions (R184 to R189) -/

/-- R66, R184, R185: each element of the result is f of the elements of A, B and C; the bits above a scalar are as R184
says. Division never traps: a divisor of zero and the most negative number over minus one have the results of R185. -/
def Obligations.IntegerArithmetic : Prop :=
  ∀ (i : Instr) (h : Head) (ec : IntEC) (b : Option (BitVec 32)) (f : LaneOp), i.wf = true →
  (arithForm i = some (h, ec, b, f) ∨ divForm i = some (h, ec, b, f)) →
  ∀ (s : State) (e : Env) (v : Vals), Firing i s h e v →
  ∃ r, exec i s = .next (e.result h r s) ∧ scalarRest ec r ∧ ∀ k < intCount ec.w, lane r (intBits ec.w) k =
    f (intBits ec.w) (lane v.a (intBits ec.w) k) (laneB ec b v.b (intBits ec.w) k) (lane v.c (intBits ec.w) k)

/-- R186, R188, R189: the shifts, with counts of the width and more; bit fields, at the widths they accept; the 48-bit address sum. -/
def Obligations.ShiftsAndFields : Prop :=
  ∀ (i : Instr) (h : Head) (ec : IntEC) (b : Option (BitVec 32)) (f : LaneOp), i.wf = true →
  (shiftForm i = some (h, ec, b, f) ∨ fieldForm i = some (h, ec, b, f)) →
  (fieldForm i = some (h, ec, b, f) → ec.w = .s64 ∨ ec.w = .s32 ∨ ec.w = .v32 ∨ ec.w = .d64) ∧
  ∀ (s : State) (e : Env) (v : Vals), Firing i s h e v →
  ∃ r, exec i s = .next (e.result h r s) ∧ scalarRest ec r ∧ ∀ k < intCount ec.w, lane r (intBits ec.w) k =
    f (intBits ec.w) (lane v.a (intBits ec.w) k) (laneB ec b v.b (intBits ec.w) k) (lane v.c (intBits ec.w) k)

/-- R187: the counts and reversals take A only, their words have I = 0, and each is what it says of its element's bits. -/
def Obligations.BitCounts : Prop :=
  ∀ (i : Instr) (h : Head) (ec : IntEC) (P : (n : Nat) → BitVec n → BitVec n → Prop), i.wf = true → countForm i = some (h, ec, P) →
  takes i = (true, false, false) ∧ (∀ w, encode i = some w → w.getLsbD 55 = false) ∧ (i = .bswap h ec → ec.w ≠ .q4) ∧
  ∀ (s : State) (e : Env) (v : Vals), Firing i s h e v →
  ∃ r, exec i s = .next (e.result h r s) ∧ scalarRest ec r ∧
    ∀ k < intCount ec.w, P (intBits ec.w) (lane v.a (intBits ec.w) k) (lane r (intBits ec.w) k)

/-! ### Floating instructions and the lane network (R201 to R219) -/

/-- R203, R215: each element is the exact result of its elements, rounded once in the task's mode (R201), to nearest in a pinned block;
a scalar form leaves zero above its element. R69: where A's element is NaN the result's is the canonical NaN, whatever the other operands. -/
def Obligations.FloatArithmetic : Prop :=
  ∀ (i : Instr) (h : Head) (ec : FltEC) (b : Option (BitVec 32)) (f : RMode → Bool → Nat → Nat → Nat → Nat),
  floatForm i = some (h, ec, b, f) → ∀ (s : State) (e : Env) (v : Vals), Firing i s h e v →
  ∃ r, exec i s = .next (e.result h r s) ∧ (ec.scalar = true → r.toNat < 2 ^ fmtBits ec.f) ∧
    ∀ k < fltCount ec, lane r (fmtBits ec.f) k = BitVec.ofNat (fmtBits ec.f) (f e.fenv.mode e.fenv.ftz (elem v.a (fmtBits ec.f) k)
      (elem (opBFlt ec b v.b) (fmtBits ec.f) k) (elem v.c (fmtBits ec.f) k)) ∧
      (isNanEnc ec.f (elem v.a (fmtBits ec.f) k) = true → lane r (fmtBits ec.f) k = BitVec.ofNat (fmtBits ec.f) (canonNan ec.f))

/-- R72, R73: a representable value rounds to itself, in every format and mode, saturating or not. -/
def Obligations.RepresentableIsExact : Prop :=
  ∀ (f : Fmt) (v : Nat) (m : RMode) (saturate : Bool), v < 2 ^ fmtBits f → isNanEnc f v = false → isInfEnc f v = false →
  rnd f (dec f false v).exact m saturate false = v

/-- R204 to R206: minima, maxima, signs, comparisons and classes complete with one element result for each element. -/
def Obligations.FloatSelections : Prop :=
  ∀ (s : State) (h : Head) (e : Env) (v : Vals) (ec : FltEC) (b : Option (BitVec 32)),
  (Firing (.fmin h ec b) s h e v → ∃ r, exec (.fmin h ec b) s = .next (e.result h r s) ∧ ∀ k < fltCount ec,
    lane r (fmtBits ec.f) k = BitVec.ofNat _ (fminmax false ec.f e.fenv.ftz (elem v.a (fmtBits ec.f) k) (elem (opBFlt ec b v.b) (fmtBits ec.f) k))) ∧
  (Firing (.fmax h ec b) s h e v → ∃ r, exec (.fmax h ec b) s = .next (e.result h r s) ∧ ∀ k < fltCount ec,
    lane r (fmtBits ec.f) k = BitVec.ofNat _ (fminmax true ec.f e.fenv.ftz (elem v.a (fmtBits ec.f) k) (elem (opBFlt ec b v.b) (fmtBits ec.f) k))) ∧
  (Firing (.fabs h ec) s h e v → ∃ r, exec (.fabs h ec) s = .next (e.result h r s) ∧ ∀ k < fltCount ec,
    lane r (fmtBits ec.f) k = BitVec.ofNat _ (withSign ec.f e.fenv.ftz false (elem v.a (fmtBits ec.f) k))) ∧
  (Firing (.fneg h ec) s h e v → ∃ r, exec (.fneg h ec) s = .next (e.result h r s) ∧ ∀ k < fltCount ec,
    lane r (fmtBits ec.f) k = BitVec.ofNat _ (withSign ec.f e.fenv.ftz (! encNeg ec.f (elem v.a (fmtBits ec.f) k)) (elem v.a (fmtBits ec.f) k))) ∧
  (Firing (.fcpys h ec b) s h e v → ∃ r, exec (.fcpys h ec b) s = .next (e.result h r s) ∧ ∀ k < fltCount ec,
    lane r (fmtBits ec.f) k = BitVec.ofNat _ (withSign ec.f e.fenv.ftz (encNeg ec.f (elem (opBFlt ec b v.b) (fmtBits ec.f) k))
      (elem v.a (fmtBits ec.f) k))) ∧
  (∀ c, Firing (.ftest h ec c) s h e v → exec (.ftest h ec c) s = .next (e.result h (truthResult ec.scalar (fmtBits ec.f)
    ((List.range (fltCount ec)).map fun k => fcondHolds c (dec ec.f e.fenv.ftz (elem v.a (fmtBits ec.f) k))
      (dec ec.f e.fenv.ftz (elem v.b (fmtBits ec.f) k)))) s)) ∧
  (∀ mask, Firing (.fclass h ec mask) s h e v → exec (.fclass h ec mask) s = .next (e.result h (truthResult ec.scalar (fmtBits ec.f)
    ((List.range (fltCount ec)).map fun k => mask.getLsbD (fclassOf ec.f (elem v.a (fmtBits ec.f) k)))) s))

/-- R205, R207 to R214: conversions, packing, quantisation, scaling and the dot product complete. A conversion counts its draws. -/
def Obligations.ConversionsComplete : Prop :=
  ∀ (s : State) (h : Head) (e : Env) (v : Vals) (ec : FltEC) (c : CvtF) (rn : BitVec 3),
  (Firing (.fcvt h ec c) s h e v → exec (.fcvt h ec c) s = .next (e.converted (.fcvt h ec c) h (fcvtResult e.fenv ec c v.a v.c) s)) ∧
  (Firing (.icvtf h ec c) s h e v → exec (.icvtf h ec c) s = .next (e.result h (icvtfResult e.fenv ec c v.a v.c) s)) ∧
  (Firing (.fcvti h ec c) s h e v → exec (.fcvti h ec c) s = .next (e.result h (fcvtiResult e.fenv ec c v.a v.c) s)) ∧
  (Firing (.pack h ec c) s h e v → exec (.pack h ec c) s = .next (e.converted (.pack h ec c) h (packResult e.fenv ec c v.a v.b) s)) ∧
  (Firing (.unpack h ec c) s h e v → exec (.unpack h ec c) s = .next (e.result h (unpackResult e.fenv ec c v.a) s)) ∧
  (Firing (.quant h ec c) s h e v → ∃ n, exec (.quant h ec c) s = .next (e.update (fun x =>
    (x.modSlot e.slot fun y => { y with draws := n }).fire e.slot h (some (.val (quantResult e.fenv ec c v.a v.b v.c).1))
      (some (.val (quantResult e.fenv ec c v.a v.b v.c).2))) s)) ∧
  (Firing (.scaleb h ec rn) s h e v → ∃ r, exec (.scaleb h ec rn) s = .next (e.result h r s) ∧ ∀ k < fltCount ec,
    lane r (fmtBits ec.f) k = BitVec.ofNat _ (scalebEnc ec.f (e.fenv.sel rn) e.fenv.ftz (elem v.a (fmtBits ec.f) k) (elem v.b (fmtBits ec.f) k))) ∧
  (Firing (.dot h ec rn) s h e v → exec (.dot h ec rn) s = .next (e.result h (dotResult e.fenv ec rn v.a v.b v.c) s))

/-- R215, R216: the special functions complete, one element at a time; the model leaves the choice within the error bound free (assumption
7). -/
def Obligations.SpecialFunctions : Prop :=
  ∀ (i : Instr) (h : Head) (ec : FltEC) (op : Sfu), specialForm i = some (h, ec, op) →
  ∀ (s : State) (e : Env) (v : Vals), Firing i s h e v →
  ∃ r, exec i s = .next (e.result h r s) ∧ ∀ k < fltCount ec,
    lane r (fmtBits ec.f) k = BitVec.ofNat _ (sfu op ec.f e.fenv.ftz (elem v.a (fmtBits ec.f) k))

/-- R218: what each data-moving lane instruction puts into each element of its result. -/
def Obligations.LaneMoves : Prop :=
  ∀ (s : State) (h : Head) (e : Env) (v : Vals) (ec : EC),
  (∀ z, Firing (.perm h ec z) s h e v → ∃ r, exec (.perm h ec z) s = .next (e.result h r s) ∧ ∀ k < ecCount ec,
    lane r (ecBits ec) k = if z = true ∧ ecCount ec ≤ elem v.b (ecBits ec) k then 0 else lane v.a (ecBits ec) (elem v.b (ecBits ec) k % ecCount ec)) ∧
  (∀ dyn c, Firing (.rotl h ec dyn c) s h e v → ∃ r, exec (.rotl h ec dyn c) s = .next (e.result h r s) ∧ ∀ k < ecCount ec,
    lane r (ecBits ec) ((k + if dyn then bitsOf v.b 0 7 else c.toNat) % ecCount ec) = lane v.a (ecBits ec) k) ∧
  (∀ d : BitVec 6, Firing (.shfl h ec 0 d) s h e v → ∃ r, exec (.shfl h ec 0 d) s = .next (e.result h r s) ∧ ∀ k < ecCount ec,
    lane r (ecBits ec) k = lane v.a (ecBits ec) (k ^^^ d.toNat)) ∧
  (∀ d : BitVec 6, Firing (.shfl h ec 1 d) s h e v → ∃ r, exec (.shfl h ec 1 d) s = .next (e.result h r s) ∧ ∀ k < ecCount ec,
    lane r (ecBits ec) k = if d.toNat ≤ k then lane v.a (ecBits ec) (k - d.toNat) else lane v.a (ecBits ec) k) ∧
  (∀ d : BitVec 6, Firing (.shfl h ec 2 d) s h e v → ∃ r, exec (.shfl h ec 2 d) s = .next (e.result h r s) ∧ ∀ k < ecCount ec,
    lane r (ecBits ec) k = if k + d.toNat < ecCount ec then lane v.a (ecBits ec) (k + d.toNat) else lane v.a (ecBits ec) k) ∧
  (∀ j, Firing (.bcastl h ec j) s h e v → ∃ r, exec (.bcastl h ec j) s = .next (e.result h r s) ∧ ∀ k < ecCount ec,
    lane r (ecBits ec) k = lane v.a (ecBits ec) j.toNat) ∧
  (Firing (.lsel h ec) s h e v → ∃ r, exec (.lsel h ec) s = .next (e.result h r s) ∧ ∀ k < ecCount ec,
    lane r (ecBits ec) k = if v.c.getLsbD k then lane v.a (ecBits ec) k else lane v.b (ecBits ec) k) ∧
  (Firing (.compr h ec) s h e v → ∃ r, exec (.compr h ec) s = .next (e.result h r s) ∧
    (∀ k < ecCount ec, v.b.getLsbD k = true → lane r (ecBits ec) (maskBelow v.b k) = lane v.a (ecBits ec) k) ∧
    ∀ k < ecCount ec, maskBelow v.b (ecCount ec) ≤ k → lane r (ecBits ec) k = 0) ∧
  (∀ merge, Firing (.expnd h ec merge) s h e v → ∃ r, exec (.expnd h ec merge) s = .next (e.result h r s) ∧ ∀ k < ecCount ec,
    lane r (ecBits ec) k = if v.b.getLsbD k then lane v.a (ecBits ec) (maskBelow v.b k) else if merge then lane v.c (ecBits ec) k else 0)

/-- R218, R219: reductions, scans and `iota` complete: a reduction is a pairwise tree over each group, element order kept.
The identity in a format without infinities is the model's (assumption 8). -/
def Obligations.LaneReductions : Prop :=
  ∀ (s : State) (h : Head) (e : Env) (v : Vals) (ec : EC) (g rn : BitVec 3) (op : RedOp),
  (Firing (.redl h ec g rn op) s h e v →
    exec (.redl h ec g rn op) s = .next (e.result h (redlResult ec g op (e.fenv.sel rn) e.fenv.ftz v.a) s)) ∧
  (∀ excl, Firing (.scanl h ec g excl rn op) s h e v →
    exec (.scanl h ec g excl rn op) s = .next (e.result h (scanlResult ec g excl op (e.fenv.sel rn) e.fenv.ftz v.a) s)) ∧
  (∀ (w : IntEC) (base : BitVec 16) (inc : BitVec 8), Firing (.iota h (.int w) base inc) s h e v →
    ∃ r, exec (.iota h (.int w) base inc) s = .next (e.result h r s) ∧ ∀ k < intCount w.w,
      lane r (intBits w.w) k = BitVec.ofInt _ (base.toInt + k * inc.toInt)) ∧
  (∀ (w : FltEC) (base : BitVec 16) (inc : BitVec 8), Firing (.iota h (.flt w) base inc) s h e v →
    exec (.iota h (.flt w) base inc) s = .next (e.result h (iotaResult (.flt w) base inc) s))

/-- R157, R220 to R223: the stream operators. `accs` folds a DATA token into the accumulator of its slot and of the arm whose word it is,
opens its result at a STOP of its level or above, and passes higher STOPs on; `redn` folds the heads that its instance took, a NULL among
them making its result null. -/
def Obligations.StreamOperators : Prop :=
  ∀ (s : State) (h : Head) (e : Env) (v : Vals) (ec : EC) (lvl rn : BitVec 3) (op : RedOp),
  (Firing (.accs h ec lvl rn op) s h e v →
    let n := e.slot + 16 * e.c.wordArm e.inst.arm e.slot
    let q := tgetD e.c.accs n {}
    ∃ s', exec (.accs h ec lvl rn op) s = .next (e.update (fun x =>
      let out := fun (x : Inst) (t : Target) => (accsStep ec lvl.toNat op (selMode rn 0 false 0) q e.ss.kindA v.a).2.foldl
        (fun x p => x.deliver e.slot t (.tok p.1 p.2)) x
      out (out (x.modSlot e.slot fun q => { q with ph := .fired }) h.t0) h.t1) s') ∧
    (e.ss.kindA = 0 → tgetD (s'.core e.cid).accs n {} =
      { acc := if q.empty then foldStart ec false v.a else redValue ec op (selMode rn 0 false 0) false q.acc v.a, empty := false }) ∧
    (1 ≤ e.ss.kindA → e.ss.kindA ≤ 7 → lvl.toNat ≤ e.ss.kindA → (tgetD (s'.core e.cid).accs n {}).empty = true)) ∧
  (Firing (.stopk h lvl) s h e v → exec (.stopk h lvl) s = .next (e.update (fun x =>
    x.fire e.slot h (some (.tok (lvl.setWidth 4) 0)) (some (.tok (lvl.setWidth 4) 0))) s)) ∧
  (Firing (.tkind h) s h e v → exec (.tkind h) s = .next (e.result h (scalar e.ss.kindA) s)) ∧
  (∀ mask arr, Firing (.redn h ec mask arr rn op) s h e v →
    ((rednHeads arr mask e.inst.heads).any (·.kind = 12) = true →
      exec (.redn h ec mask arr rn op) s = .next (e.update (fun x => x.nullOut e.slot h) s)) ∧
    ((rednHeads arr mask e.inst.heads).any (·.kind = 12) = false →
      exec (.redn h ec mask arr rn op) s = .next (e.result h (foldValues (redValue ec op (selMode rn 0 false 0) false)
        ((rednHeads arr mask e.inst.heads).map (·.value))) s)))

/-! ### Exits, moves and predicates (R174 to R183) -/

/-- R174, R175: an exit that fires will direct control at commit, a call delivers its return address; an indirect target that is not a
multiple of 8 raises MISALIGNED. R175: what each exit does at commit. A push onto a full link stack drops its oldest entry and counts it;
a return from an empty one is refused; `exit.y` zeroes the task's credits; `exit.t` frees the slot. -/
def Obligations.Exits : Prop :=
  (∀ (s : State) (h : Head) (e : Env) (v : Vals) (off : BitVec 32),
  (Firing (.exitB h off) s h e v → exec (.exitB h off) s = .next (e.exit h (.go (e.branchTo off)) none s)) ∧
  (Firing (.exitC h off) s h e v →
    exec (.exitC h off) s = .next (e.exit h (.call (e.branchTo off) e.afterBlock) (some (scalar e.afterBlock)) s)) ∧
  (Firing (.exitY h off) s h e v → exec (.exitY h off) s = .next (e.exit h (.yield (e.branchTo off)) none s)) ∧
  (Firing (.exitRet h) s h e v → exec (.exitRet h) s = .next (e.exit h .ret none s)) ∧
  (Firing (.exitT h) s h e v → exec (.exitT h) s = .next (e.exit h .stop none s)) ∧
  (Firing (.exitJ h) s h e v → bitsOf v.a 0 48 % 8 = 0 → exec (.exitJ h) s = .next (e.exit h (.go (bitsOf v.a 0 48)) none s)) ∧
  (Firing (.exitCi h) s h e v → bitsOf v.a 0 48 % 8 = 0 →
    exec (.exitCi h) s = .next (e.exit h (.call (bitsOf v.a 0 48) e.afterBlock) (some (scalar e.afterBlock)) s)) ∧
  (∀ i, (i = .exitJ h ∨ i = .exitCi h) → Firing i s h e v → bitsOf v.a 0 48 % 8 ≠ 0 →
    exec i s = .next (e.raise { cause := 0x07, addr := BitVec.ofNat 64 (bitsOf v.a 0 48) } s))) ∧
  (∀ (s : State) (cid k tgt ret : Nat),
  (∃ t, doExit cid k (.go tgt) s = .ok t ∧ ((t.core cid).task k).pc = BitVec.ofNat 48 tgt ∧ ((t.core cid).task k).inst = none) ∧
  (∃ t, doExit cid k (.call tgt ret) s = .ok t ∧ ((t.core cid).task k).pc = BitVec.ofNat 48 tgt ∧ ((t.core cid).task k).inst = none ∧
    ((t.core cid).task k).link = (BitVec.ofNat 48 ret :: ((s.core cid).task k).link).take
      (if ((s.core cid).task k).link.length < 16 then ((s.core cid).task k).link.length + 1 else 16) ∧
    (16 ≤ ((s.core cid).task k).link.length →
      ((t.core cid).task k).lsdrop.toNat = min 255 (((s.core cid).task k).lsdrop.toNat + 1)) ∧
    (((s.core cid).task k).link.length < 16 → ((t.core cid).task k).lsdrop = ((s.core cid).task k).lsdrop)) ∧
  (((s.core cid).task k).link = [] → doExit cid k .ret s = .bad { cause := 0x02, sub := 2, atCommit := true }) ∧
  (∀ a r, ((s.core cid).task k).link = a :: r → ∃ t, doExit cid k .ret s = .ok t ∧ ((t.core cid).task k).pc = a ∧
    ((t.core cid).task k).link = r ∧ ((t.core cid).task k).inst = none) ∧
  (∃ t, doExit cid k (.yield tgt) s = .ok t ∧ ((t.core cid).task k).pc = BitVec.ofNat 48 tgt ∧
    ((t.core cid).task k).creditLane = 0 ∧ ((t.core cid).task k).creditSeq = 0) ∧
  (∃ t, doExit cid k .stop s = .ok t ∧ ((t.core cid).task k).st = .free ∧ ((t.core cid).task k).link = [] ∧
    ∀ j, ((s.core cid).inCh j).slot = some k → ((t.core cid).inCh j).slot = none))

/-- R177 to R183: nulls, moves, identities and constants; predicates on bit 0; selection, masks and tests on elements. -/
def Obligations.MovesAndPredicates : Prop :=
  ∀ (s : State) (h : Head) (e : Env) (v : Vals) (imm : BitVec 32) (w : IntW),
  (Firing (.nullw h) s h e v → exec (.nullw h) s = .next (e.update (fun x => x.fire e.slot h (some .null) (some .null)) s)) ∧
  (∀ l, Firing (.nulls h l) s h e v → exec (.nulls h l) s = .next (e.update (fun x =>
    { x.modSlot e.slot (fun q => { q with ph := .fired }) with nulls := l.toNat :: x.nulls }) s)) ∧
  (∀ w, Firing (.movi h w imm) s h e v → ∃ r, exec (.movi h w imm) s = .next (e.result h r s) ∧ ∀ k < intCount w,
    lane r (intBits w) k = if w = .s64 ∨ w = .d64 then imm.signExtend (intBits w) else imm.setWidth (intBits w)) ∧
  (Firing (.movh h imm) s h e v → ∃ r, exec (.movh h imm) s = .next (e.result h r s) ∧ lane r 32 1 = imm ∧
    ∀ k, k ≠ 1 → lane r 32 k = lane v.a 32 k) ∧
  (Firing (.mov h) s h e v → exec (.mov h) s = .next (e.result h v.a s)) ∧
  (∀ n, Firing (.getid h n) s h e v → exec (.getid h n) s = .next (e.result h (scalar (e.ident s n.toNat)) s)) ∧
  (∀ k, Firing (.constk h k) s h e v → e.pinned = false → exec (.constk h k) s = .next (e.result h (e.c.constReg k.toNat) s)) ∧
  (∀ k, Firing (.constk h k) s h e v → e.pinned = true →
    exec (.constk h k) s = .next (e.result h (tgetD e.inst.consts k.toNat (e.c.constReg k.toNat)) s)) ∧
  (Firing (.pand h) s h e v → exec (.pand h) s = .next (e.result h (scalar (v.a.getLsbD 0 && v.b.getLsbD 0).toNat) s)) ∧
  (Firing (.por h) s h e v → exec (.por h) s = .next (e.result h (scalar (v.a.getLsbD 0 || v.b.getLsbD 0).toNat) s)) ∧
  (Firing (.pxor h) s h e v → exec (.pxor h) s = .next (e.result h (scalar (v.a.getLsbD 0 != v.b.getLsbD 0).toNat) s)) ∧
  (Firing (.pnot h) s h e v → exec (.pnot h) s = .next (e.result h (scalar (! v.a.getLsbD 0).toNat) s)) ∧
  (Firing (.sel h w) s h e v → ∃ r, exec (.sel h w) s = .next (e.result h r s) ∧ ∀ k < intCount w, lane r (intBits w) k =
    if lane v.a (intBits w) k ≠ 0 then lane v.b (intBits w) k else lane v.c (intBits w) k) ∧
  (Firing (.lmask h w) s h e v → ∃ r, exec (.lmask h w) s = .next (e.result h r s) ∧ ∀ k < 512,
    r.getLsbD k = (decide (k < intCount w) && decide (lane v.a (intBits w) k ≠ 0))) ∧
  (Firing (.anyl h w) s h e v → ∃ b : Bool, exec (.anyl h w) s = .next (e.result h (scalar b.toNat) s) ∧
    (b = true ↔ ∃ k < intCount w, lane v.a (intBits w) k ≠ 0)) ∧
  (Firing (.alll h w) s h e v → ∃ b : Bool, exec (.alll h w) s = .next (e.result h (scalar b.toNat) s) ∧
    (b = true ↔ ∀ k < intCount w, lane v.a (intBits w) k ≠ 0)) ∧
  (∀ c b, Firing (.test h c w b) s h e v → ∃ r, exec (.test h c w b) s = .next (e.result h r s) ∧ ∀ k < intCount w,
    let holds := condHolds c (intBits w) (elem v.a (intBits w) k) (elem (opBTest c w b v.b) (intBits w) k)
    lane r (intBits w) k = if holds then (if intScalar w then 1 else BitVec.allOnes _) else 0)

/-! ### Loads, stores, atomics and cache control (R250 to R265, R275) -/

/-- R49, R252, R255: a pool load whose places pass every check delivers the bytes of those places, with the stores of lower LSIDs of its
block laid over them; no pool and no memory changes. The bytes of T under a run that goes on are the model's reading of R245 (assumption
24). R252, R255, R275: a scalar or line access of the core's own pool checks alignment first, then its role's bound, and names the offset;
the cause is taken with nothing stored. -/
def Obligations.PoolLoads : Prop :=
  (∀ (s : State) (h : Head) (e : Env) (v : Vals) (ac : AC) (m : MemF) (i : Instr) (role : PoolRole) (ps : List PoolPlace),
  Firing i s h e v →
  (i = .lds h ac m ∧ role = .s ∧ e.c.holdRole .s = false ∧ poolPlaces e.cid e.c .s ac m.lsid.toNat m.ofs.toInt (laneWords ac v.a) = .ok ps ∨
    i = .ldt h ac m ∧ role = .t ∧ e.c.holdRole .t = false ∧ poolPlaces e.cid e.c .t ac m.lsid.toNat m.ofs.toInt (laneWords ac v.a) = .ok ps ∨
    i = .ldn h ac m ∧ role = .s ∧ neighbourPlaces s e.cid e.lease ac m.lsid.toNat m.ofs.toInt (laneWords ac v.a) = .ok ps) →
  (ps.any fun p => overPoolAtomic e.inst m.lsid.toNat p.cid role p.off (pieceBytes ac)) = false →
  (ps.any fun p => (s.core p.cid).rolePoisoned role p.off (pieceBytes ac)) = false →
  ∃ s', exec i s = .next (e.result h (loadedValue ac (ps.map fun p => (p.lane,
      forwardPool e.inst m.lsid.toNat p.cid role p.off (readPool s p.cid role p.off (pieceBytes ac))))) s') ∧
    SameMemory s s' ∧ ∀ cid, (s'.core cid).pool = (s.core cid).pool ∧ (s'.core cid).tasks = (s.core cid).tasks) ∧
  (∀ (s : State) (cid o n : Nat), readPool s cid .s o n = (s.core cid).readRole .s o n ∧
    ((∀ q ∈ (s.core cid).mangle.queue, q.did = []) → readPool s cid .t o n = (s.core cid).readRole .t o n)) ∧
  (∀ (s : State) (h : Head) (e : Env) (v : Vals) (ac : AC) (m : MemF) (i : Instr) (role : PoolRole), ac ≠ .v → Firing i s h e v →
  e.c.holdRole role = false →
  (role = .s ∧ (i = .lds h ac m ∨ i = .sts h ac m) ∨ role = .t ∧ (i = .ldt h ac m ∨ i = .stt h ac m)) →
  let o : Int := (bitsOf v.a 0 32 : Int) + m.ofs.toInt
  (o % (acBytes ac : Int) ≠ 0 →
    exec i s = .next (e.raise { cause := 0x07, lsid := some m.lsid.toNat, addr := BitVec.ofInt 64 o } s)) ∧
  (o % (acBytes ac : Int) = 0 → (o < 0 ∨ (e.c.roleEnd role : Int) < o + acBytes ac) →
    exec i s = .next (e.raise { cause := if role = .s then 0x04 else 0x05, lsid := some m.lsid.toNat, addr := BitVec.ofInt 64 o } s)))

/-- R151, R255: in a fired block a pool store captures its pieces, core by core, and stores nothing yet; in a pinned block it writes them
as it fires. -/
def Obligations.PoolStores : Prop :=
  ∀ (s : State) (h : Head) (e : Env) (v : Vals) (ac : AC) (m : MemF) (i : Instr) (role : PoolRole) (ps : List PoolPlace),
  Firing i s h e v →
  (i = .sts h ac m ∧ role = .s ∧ e.c.holdRole .s = false ∧ poolPlaces e.cid e.c .s ac m.lsid.toNat m.ofs.toInt (laneWords ac v.a) = .ok ps ∨
    i = .stt h ac m ∧ role = .t ∧ e.c.holdRole .t = false ∧ poolPlaces e.cid e.c .t ac m.lsid.toNat m.ofs.toInt (laneWords ac v.a) = .ok ps ∨
    i = .stn h ac m ∧ role = .s ∧ neighbourPlaces s e.cid e.lease ac m.lsid.toNat m.ofs.toInt (laneWords ac v.a) = .ok ps) →
  (e.pinned = false → m.osc = none → ps ≠ [] → exec i s = .next (e.update (fun x => { x.fire e.slot h none none with
    caps := x.caps ++ ((storePieces ac v.b ps).map (·.1)).eraseDups.map fun cid =>
      { slot := e.slot, lsid := some m.lsid.toNat,
        eff := .poolStore role cid (((storePieces ac v.b ps).filter (·.1 = cid)).map (·.2)), t0 := .none, t1 := .none } }) s)) ∧
  (e.pinned = true → m.osc = none → ∃ s', exec i s = .next (e.done (writePool s' role (storePieces ac v.b ps))) ∧ SameMemory s s' ∧
    ∀ cid, (s'.core cid).pool = (s.core cid).pool ∧ (s'.core cid).pleat = (s.core cid).pleat)

/-- R256, R259: a global load or gather that passes its checks waits at the GEN port with one request for its elements; a prefetch waits for
a page in migration and for nothing else; a store in a fired block captures its pieces and stores nothing yet; a scatter in a pinned block
asks the port. -/
def Obligations.GlobalAccesses : Prop :=
  ∀ (s : State) (h : Head) (e : Env) (v : Vals) (ac : AC) (na : Bool) (m : MemF) (ps : List GPiece),
  (Firing (.ldg h ac na m) s h e v → e.pinned = false → e.c.genRoom = true →
    globalPieces s e.cid e.p .load (pieceBytes ac) (some m.lsid.toNat) (ac = .v) (contiguous ac (globalVa v.a m.ofs.toInt)) = .ok ps →
    (ps.any fun p => overGlobalAtomic e.inst m.lsid.toNat p.loc (pieceBytes ac)) = false →
    exec (.ldg h ac na m) s = .next (pushGen (e.update (fun x => x.modSlot e.slot fun q => { q with ph := .pending }) s) e.cid
      (e.request .load ac false na m (elemsOf (contCount ac) ps) [] s))) ∧
  (Firing (.ldgv h ac na m) s h e v → e.c.genRoom = true →
    globalPieces s e.cid e.p .load (acBytes ac) (some m.lsid.toNat) true (scattered ac v.a v.b m.ofs.toInt) = .ok ps →
    (ps.any fun p => overGlobalAtomic e.inst m.lsid.toNat p.loc (pieceBytes ac)) = false →
    exec (.ldgv h ac na m) s = .next (pushGen (e.update (fun x => x.modSlot e.slot fun q => { q with ph := .pending }) s) e.cid
      (e.request .load ac true na m (elemsOf (if ac = .z64 then 8 else 16) ps) [] s))) ∧
  (Firing (.stg h ac na m) s h e v → e.pinned = false →
    globalPieces s e.cid e.p .store (pieceBytes ac) (some m.lsid.toNat) (ac = .v) (contiguous ac (globalVa v.a m.ofs.toInt)) = .ok ps →
    exec (.stg h ac na m) s = .next (e.capture h (some m.lsid.toNat)
      (.globalStore (ps.map fun p => (p.va, p.loc, contBytes ac v.b p.lane)) ac na false false m.osc m.sc) none s)) ∧
  (Firing (.stgv h ac na m) s h e v → e.pinned = false →
    globalPieces s e.cid e.p .store (acBytes ac) (some m.lsid.toNat) true (scattered ac v.a v.b m.ofs.toInt) = .ok ps →
    exec (.stgv h ac na m) s = .next (e.capture h (some m.lsid.toNat)
      (.globalStore (ps.map fun p => (p.va, p.loc, scatBytes ac v.c p.lane)) ac na false false m.osc m.sc) none s)) ∧
  (Firing (.prf h na m) s h e v →
    (translate s e.cid e.lease (globalVa v.a m.ofs.toInt / 64 * 64) ≠ .moving → ∃ s', exec (.prf h na m) s = .next (e.done s')) ∧
    (translate s e.cid e.lease (globalVa v.a m.ofs.toInt / 64 * 64) = .unmapped → exec (.prf h na m) s = .next (e.done s)) ∧
    (translate s e.cid e.lease (globalVa v.a m.ofs.toInt / 64 * 64) = .moving → exec (.prf h na m) s = .next s)) ∧
  (∀ x, Firing (.ldg h ac na m) s h e v → e.pinned = false →
    globalPieces s e.cid e.p .load (pieceBytes ac) (some m.lsid.toNat) (ac = .v) (contiguous ac (globalVa v.a m.ofs.toInt)) = .bad x →
    exec (.ldg h ac na m) s = .next (e.raise x s))

/-- R231, R233, R258: in a pinned block `ldg` and `stg` take the stream that the offset names: an ended stream nulls them; otherwise the
request goes to the port and the stream's counter advances by one; `stgv` asks the port for its elements. -/
def Obligations.GenStreams : Prop :=
  ∀ (s s' : State) (h : Head) (e : Env) (v : Vals) (ac : AC) (na : Bool) (m : MemF) (ps : List GPiece), e.pinned = true →
  (Firing (.ldg h ac na m) s h e v → e.c.streamEnded (streamNo m) = true →
    exec (.ldg h ac na m) s = .next (e.update (fun x => x.nullOut e.slot h) s)) ∧
  (Firing (.ldg h ac na m) s h e v → e.c.streamEnded (streamNo m) = false → e.c.genRoom = true →
    streamPieces s e.cid e.p .load (pieceBytes ac) m.lsid.toNat (streamNo m) (ac = .v) (contiguous ac (e.c.streamVa (streamNo m))) = (s', .ok ps) →
    (ps.any fun p => overGlobalAtomic e.inst m.lsid.toNat p.loc (pieceBytes ac)) = false →
    exec (.ldg h ac na m) s = .next (pushGen (e.update (fun x => x.modSlot e.slot fun q => { q with ph := .pending })
      (bumpStream s' e.cid (streamNo m))) e.cid (e.request .load ac false na m (elemsOf (contCount ac) ps) [] (bumpStream s' e.cid (streamNo m))))) ∧
  (Firing (.stg h ac na m) s h e v → e.cancelOpen m.lsid.toNat = false → e.c.genRoom = true → e.c.streamEnded (streamNo m) = true →
    exec (.stg h ac na m) s = .next (e.update (fun x => x.nullOut e.slot h) s)) ∧
  (Firing (.stg h ac na m) s h e v → e.cancelOpen m.lsid.toNat = false → e.c.genRoom = true → e.c.streamEnded (streamNo m) = false →
    m.lsid.toNat ∉ e.inst.nulls →
    streamPieces s e.cid e.p .store (pieceBytes ac) m.lsid.toNat (streamNo m) (ac = .v) (contiguous ac (e.c.streamVa (streamNo m))) = (s', .ok ps) →
    exec (.stg h ac na m) s = .next (e.askStore ac false na m (contCount ac) ps (acStoreBytes ac v.b) (bumpStream s' e.cid (streamNo m)))) ∧
  (Firing (.stg h ac na m) s h e v → e.cancelOpen m.lsid.toNat = false → e.c.genRoom = true → e.c.streamEnded (streamNo m) = false →
    m.lsid.toNat ∈ e.inst.nulls →
    exec (.stg h ac na m) s = .next (e.askStore ac false na m 0 [] [] (bumpStream s e.cid (streamNo m)))) ∧
  (Firing (.stgv h ac na m) s h e v → e.cancelOpen m.lsid.toNat = false → e.c.genRoom = true → m.lsid.toNat ∉ e.inst.nulls →
    globalPieces s e.cid e.p .store (acBytes ac) (some m.lsid.toNat) true (scattered ac v.a v.b m.ofs.toInt) = .ok ps →
    exec (.stgv h ac na m) s = .next (e.askStore ac true na m (if ac = .z64 then 8 else 16) ps
      ((List.range (if ac = .z64 then 8 else 16)).flatMap (scatBytes ac v.c)) s))

/-- R262, R264, R265: an atomic whose place passes the checks is captured with its operands, and the old value is formed at commit; every
`cctl` captures its line. -/
def Obligations.AtomicsAndCacheControl : Prop :=
  ∀ (s : State) (h : Head) (e : Env) (v : Vals) (op : AtOp) (w : Bool) (m : MemF),
  (∀ p ps, Firing (.atms h op w m) s h e v → e.c.holdS = false →
    poolPlaces e.cid e.c .s (atAc w) m.lsid.toNat m.ofs.toInt (laneWords (atAc w) v.a) = .ok (p :: ps) →
    exec (.atms h op w m) s = .next (e.capture h (some m.lsid.toNat)
      (.poolAtomic p.cid p.off op w (bitsOf v.b 0 (8 * atBytes w)) (bitsOf v.c 0 (8 * atBytes w)) m.osc) none s)) ∧
  (∀ p ps, Firing (.atmn h op w m) s h e v →
    neighbourPlaces s e.cid e.lease (atAc w) m.lsid.toNat m.ofs.toInt (laneWords (atAc w) v.a) = .ok (p :: ps) →
    exec (.atmn h op w m) s = .next (e.capture h (some m.lsid.toNat)
      (.poolAtomic p.cid p.off op w (bitsOf v.b 0 (8 * atBytes w)) (bitsOf v.c 0 (8 * atBytes w)) m.osc) none s)) ∧
  (∀ p ps, Firing (.atmg h op w m) s h e v →
    globalPieces s e.cid e.p .atomic (atBytes w) (some m.lsid.toNat) false [(0, globalVa v.a m.ofs.toInt)] = .ok (p :: ps) →
    exec (.atmg h op w m) s = .next (e.capture h (some m.lsid.toNat)
      (.globalAtomic p.va p.loc op w (bitsOf v.b 0 (8 * atBytes w)) (bitsOf v.c 0 (8 * atBytes w)) m.osc m.sc) none s)) ∧
  (Firing (.cctlWb h m) s h e v → exec (.cctlWb h m) s =
    .next (e.capture h (some m.lsid.toNat) (.cctl 0 (globalVa v.a m.ofs.toInt / 64)) none s)) ∧
  (Firing (.cctlInv h m) s h e v → exec (.cctlInv h m) s =
    .next (e.capture h (some m.lsid.toNat) (.cctl 1 (globalVa v.a m.ofs.toInt / 64)) none s)) ∧
  (Firing (.cctlWbinv h m) s h e v → exec (.cctlWbinv h m) s =
    .next (e.capture h (some m.lsid.toNat) (.cctl 2 (globalVa v.a m.ofs.toInt / 64)) none s)) ∧
  (Firing (.cctlWball h m) s h e v → ∃ l, exec (.cctlWball h m) s = .next (e.capture h (some m.lsid.toNat) (.cctl 3 l) none s)) ∧
  (Firing (.cctlInvall h m) s h e v → ∃ l, exec (.cctlInvall h m) s = .next (e.capture h (some m.lsid.toNat) (.cctl 4 l) none s))

/-- R263, R264: an atomic of the pool that performs at commit gives the old value to its write entries and stores the operation's new value at
its place, `cas` only where the stored value equals C. -/
def Obligations.PoolAtomicPerforms : Prop :=
  ∀ (s : State) (cid k : Nat) (x : Inst) (q : Capture) (tc off : Nat) (op : AtOp) (w : Bool) (b c : Nat),
  (s.core tc).holdS = false → (s.core tc).rolePoisoned .s off (atBytes w) = false →
  let old := bytesNat ((s.core tc).readRole .s off (atBytes w))
  doPoolAtomic cid k x q tc off op w b c none s = .ok (giveLate cid k x q (scalar old) (match atomNew op w old b c with
    | some n => s.modCore tc fun t => t.writeRole .s off (natBytes (atBytes w) n)
    | none => s)) ∧
  (op = .add → atomNew op w old b c = some ((old + b) % 2 ^ (if w then 64 else 32))) ∧
  (op = .swap → atomNew op w old b c = some b) ∧ (op = .cas → atomNew op w old b c = if old = c then some b else none)

/-! ### Copies, the mangle and the pool (R129 to R137, R266 to R274) -/

/-- R266 to R269: a packet within the limits of R235 is captured with a place in its queue and a count of its tag reserved, or accepted at
once in a pinned block; a packet that breaks a limit raises MALFORMED_BLOCK, another position's queue ACCESS_DENIED; the tag instructions
read and clear tags. -/
def Obligations.CopyInstructions : Prop :=
  ∀ (s : State) (h : Head) (e : Env) (v : Vals) (m : MemF) (osc : Option Scope),
  (Firing (.cpy h m) s h e v → packetOk v.a = true → cpQueue v.a = posOf s e.cid →
    copyRoom s (clusterOf e.cid) (cpQueue v.a) = true → tagRoom e.c (cpTag v.a) = true →
    (e.pinned = false → exec (.cpy h m) s = .next (e.capture h (some m.lsid.toNat) (.cpy v.a m.osc) none
      ((s.modCluster (clusterOf e.cid) fun c => { c with resv := tmod c.resv (cpQueue v.a) 0 (· + 1) }).modCore e.cid fun c =>
        c.modTag (cpTag v.a) fun g => { g with resv := g.resv + 1 }))) ∧
    (e.pinned = true → exec (.cpy h m) s = .next (e.done (acceptCopy (release s e.cid m.osc) e.cid none e.p v.a)))) ∧
  (Firing (.cpy h m) s h e v → packetOk v.a = false →
    exec (.cpy h m) s = .next (e.raise { cause := 0x02, sub := 1, lsid := some m.lsid.toNat } s)) ∧
  (Firing (.cpy h m) s h e v → packetOk v.a = true → cpQueue v.a ≠ posOf s e.cid →
    exec (.cpy h m) s = .next (e.raise { cause := 0x09, lsid := some m.lsid.toNat } s)) ∧
  (∀ any, Firing (.tagw h osc any) s h e v → tagwReady e.c (lo64 v.a) any = true →
    exec (.tagw h osc any) s = .next (e.result h (scalar (tagMap (lo64 v.a) e.c.tagComplete)) (acquire s e.cid osc))) ∧
  (∀ any, Firing (.tagw h osc any) s h e v → tagwReady e.c (lo64 v.a) any = false → exec (.tagw h osc any) s = .next s) ∧
  (Firing (.tagff h osc) s h e v →
    (∀ t < 64, (∀ u < t, ((lo64 v.a).testBit u && (e.c.tag u).done) = false) → ((lo64 v.a).testBit t && (e.c.tag t).done) = true →
      exec (.tagff h osc) s = .next (e.result h (scalar t) (acquire s e.cid osc))) ∧
    ((∀ t < 64, ((lo64 v.a).testBit t && (e.c.tag t).done) = false) → exec (.tagff h osc) s = .next (e.result h (scalar 64) s))) ∧
  (Firing (.tagclr h) s h e v → ∃ d r l, exec (.tagclr h) s = .next (e.capture h none (.tagclr d r l) (some (scalar d.toNat)) s) ∧
    ∀ t < 64, d.getLsbD t = (v.a.getLsbD t && (e.c.tag t).done) ∧ r.getLsbD t = (v.a.getLsbD t && (e.c.tag t).err) ∧
      (v.a.getLsbD t = true → (t, (e.c.tag t).doneSets, (e.c.tag t).errSets) ∈ l)) ∧
  (∀ sel, Firing (.tagrd h sel) s h e v → ∃ r : BitVec 64, exec (.tagrd h sel) s = .next (e.result h (scalar r.toNat) s) ∧
    ∀ t < 64, r.getLsbD t = if sel = 0 then decide ((e.c.tag t).pending = 0) else if sel = 1 then (e.c.tag t).done else (e.c.tag t).err) ∧
  (∀ self sys, Firing (.cpyqf h self sys osc) s h e v → cpyqfPackets s e.cid e.lease self sys = [] →
    ∃ b : Bool, exec (.cpyqf h self sys osc) s = .next (e.result h (scalar b.toNat) (acquire s e.cid osc)))

/-- R251, R270 to R274: the mangle's instructions. In a fired block each is captured; `marm` waits for one of four runs' places and reserves
it, `mload` waits for one; `mwait` fires once everything before its instance has ended; in a GEN block `mload` and `marm` enter the queue as
they fire, and an `mload` from global memory takes its place at the GEN port. -/
def Obligations.MangleInstructions : Prop :=
  ∀ (s : State) (h : Head) (e : Env) (v : Vals) (ec : EC) (sh : BitVec 5),
  (∀ ls, Firing (.mload h ec) s h e v → marmReady e.c.mangle = true → (e.pinned = true → v.a.getLsbD 63 = true → e.c.genRoom = true) →
    mloadCheck s e (planeFmt ec) v.a = .ok ls →
    (e.pinned = false → exec (.mload h ec) s = .next (e.capture h none (.mload (BitVec.ofNat 3 (planeFmt ec)) (BitVec.ofNat 64 (lo64 v.a)) ls)
      (some ack) s)) ∧
    (e.pinned = true → sclOk (planeFmt ec) (v.a.getLsbD 62) = true → v.a.getLsbD 63 = false → exec (.mload h ec) s =
      .next (e.result h ack (s.modCore e.cid fun c => c.queueMangle (.load (BitVec.ofNat 3 (planeFmt ec)) (BitVec.ofNat 64 (lo64 v.a)) ls)))) ∧
    (e.pinned = true → sclOk (planeFmt ec) (v.a.getLsbD 62) = true → v.a.getLsbD 63 = true → exec (.mload h ec) s =
      .next (e.result h ack (s.modCore e.cid fun c => { c.queueMangle (.load (BitVec.ofNat 3 (planeFmt ec)) (BitVec.ofNat 64 (lo64 v.a)) ls) with
        gen := c.gen ++ [ownReq s e.lease (.plane (s.core e.cid).mangle.nextId) []] })))) ∧
  (∀ x, Firing (.mload h ec) s h e v → marmReady e.c.mangle = true → (e.pinned = true → v.a.getLsbD 63 = true → e.c.genRoom = true) →
    mloadCheck s e (planeFmt ec) v.a = .bad x → exec (.mload h ec) s = .next (e.raise x s)) ∧
  (Firing (.mload h ec) s h e v → marmReady e.c.mangle = false → exec (.mload h ec) s = .next s) ∧
  (Firing (.mswap h) s h e v → exec (.mswap h) s = .next (e.capture h none .mswap (some ack) s)) ∧
  (Firing (.mfence h) s h e v → exec (.mfence h) s = .next (e.capture h none .mfence (some ack) s)) ∧
  (Firing (.marm h sh) s h e v → marmReady e.c.mangle = true → e.pinned = false → exec (.marm h sh) s = .next (e.capture h none
    (.marm sh v.a) (some ack) (s.modCore e.cid fun c => { c with mangle := { c.mangle with resv := c.mangle.resv + 1 } }))) ∧
  (Firing (.marm h sh) s h e v → marmReady e.c.mangle = true → e.pinned = true → runCause e.c sh v.a = none →
    exec (.marm h sh) s = .next (e.result h ack (s.modCore e.cid fun c => c.queueMangle (.run sh (BitVec.ofNat 64 (lo64 v.a)))))) ∧
  (Firing (.marm h sh) s h e v → marmReady e.c.mangle = false → exec (.marm h sh) s = .next s) ∧
  (Firing (.mwait h) s h e v → mwaitReady e.c.mangle e.inst.mark = true → exec (.mwait h) s = .next (e.result h ack s)) ∧
  (∀ clr, Firing (.mchk h clr) s h e v → ∃ r, exec (.mchk h clr) s =
      .next (if clr then e.capture h none .mchk (some r) s else e.result h r s) ∧
    bitsOf r 0 32 = min e.c.mangle.checked (2 ^ 32 - 1) ∧ bitsOf r 32 16 = min e.c.mangle.corrected (2 ^ 16 - 1)) ∧
  (Firing (.mzero h) s h e v → v.a.toNat < 2 ^ 64 → bitsOf v.a 16 28 = 0 →
    exec (.mzero h) s = .next (e.capture h none (.mzero (BitVec.ofNat 64 v.a.toNat)) (some ack) s)) ∧
  (Firing (.mzero h) s h e v → 2 ^ 64 ≤ v.a.toNat ∨ bitsOf v.a 16 28 ≠ 0 → exec (.mzero h) s = .next (e.raise { cause := 0x07 } s))

/-- R130, R134 to R137: the pool's instructions. An accepted `pleat` reserves the handshake and answers the next sequence number; a refused
one answers the code of R130; `swm` waits for a handshake, then checks alignment and S's capacity. -/
def Obligations.PoolInstructions : Prop :=
  ∀ (s : State) (h : Head) (e : Env) (v : Vals),
  (Firing (.pleat h) s h e v → pleatCheck s e.c e.lease (bitsOf v.a 0 32) = 0 → exec (.pleat h) s = .next (e.capture h none
    (.pleat (BitVec.ofNat 32 (bitsOf v.a 0 32))) (some (scalar (e.c.pleat.seq + 1).toNat))
    (s.modCore e.cid fun c => { c with pleat := { c.pleat with phase := 1, owner := some (e.slotK, e.inst.id) } }))) ∧
  (Firing (.pleat h) s h e v → pleatCheck s e.c e.lease (bitsOf v.a 0 32) ≠ 0 → exec (.pleat h) s = .next (e.capture h none .pleatRefused
    (some (scalar (e.c.pleat.seq.toNat + 2 ^ 16 + 2 ^ 17 * pleatCheck s e.c e.lease (bitsOf v.a 0 32)))) s)) ∧
  (∀ code b, Firing (.pleatw h) s h e v → ticketState e.c e.me (lo64 v.a) = (true, code, b) →
    exec (.pleatw h) s = .next (e.result h (ticketResult e.c (lo64 v.a) code true) s)) ∧
  (Firing (.pleatq h) s h e v → exec (.pleatq h) s = .next (e.result h
    (ticketResult e.c (lo64 v.a) (ticketState e.c e.me (lo64 v.a)).2.1 (ticketState e.c e.me (lo64 v.a)).1) s)) ∧
  (∀ sel, Firing (.occ h sel) s h e v → exec (.occ h sel) s = .next (e.result h (scalar (occRead e.c sel.toNat)) s)) ∧
  (Firing (.swm h) s h e v → e.c.pleat.phase = 0 → bitsOf v.a 0 32 % 64 = 0 → bitsOf v.a 0 32 ≤ plS e.c.pleat.word * 65536 →
    ∃ s', exec (.swm h) s = .next (e.capture h none (.swm (BitVec.ofNat 32 (bitsOf v.a 0 32))) none s') ∧
      (s'.core e.cid).pleat.word = e.c.pleat.word ∧ (s'.core e.cid).pleat.swm = e.c.pleat.swm ∧
      bitsOf v.a 0 32 ≤ (tgetD (s'.core e.cid).pleat.holds e.slotK 0).toNat) ∧
  (Firing (.swm h) s h e v → e.c.pleat.phase = 0 → bitsOf v.a 0 32 % 64 ≠ 0 → exec (.swm h) s = .next (e.raise { cause := 0x07 } s)) ∧
  (Firing (.swm h) s h e v → e.c.pleat.phase = 0 → bitsOf v.a 0 32 % 64 = 0 → plS e.c.pleat.word * 65536 < bitsOf v.a 0 32 →
    exec (.swm h) s = .next (e.raise { cause := 0x04 } s)) ∧
  (Firing (.swm h) s h e v → e.c.pleat.phase ≠ 0 → exec (.swm h) s = .next s)

/-! ### Sealing, synchronising, tasks and system instructions -/

/-- R328 to R332: the sealing instructions.
What `sealpt` answers before its seal and `rinr` before a save is the model's reading (assumptions 27, 57). -/
def Obligations.SealingInstructions : Prop :=
  ∀ (s : State) (h : Head) (e : Env) (v : Vals) (ac : AC) (m : MemF),
  (∀ sel, Firing (.rinr h sel) s h e v → exec (.rinr h sel) s = .next (e.result h (scalar (if sel = 0 then e.c.rin else if sel = 1 then s.sl.s
    else if hClassS e.p.hdr then e.p.saveRin else e.p.retention).toNat) s)) ∧
  (Firing (.sealpt h) s h e v → hSaveVa e.p.hdr ≠ 0 →
    exec (.sealpt h) s = .next (e.capture h none .sealpt (some (scalar e.c.rin.toNat)) s)) ∧
  (Firing (.sealpt h) s h e v → hSaveVa e.p.hdr = 0 → exec (.sealpt h) s = .next (e.raise { cause := 0x09 } s)) ∧
  (Firing (.sealw h) s h e v → rinGe s.sl.s (BitVec.ofNat 32 (bitsOf v.a 0 32)) = true →
    exec (.sealw h) s = .next (e.result h (scalar s.sl.s.toNat) s)) ∧
  (Firing (.sealw h) s h e v → rinGe s.sl.s (BitVec.ofNat 32 (bitsOf v.a 0 32)) = false → exec (.sealw h) s = .next s) ∧
  (Firing (.sealrqNowait h) s h e v → exec (.sealrqNowait h) s = .next (e.capture h none .sealrq (some (scalar e.c.rin.toNat)) s)) ∧
  (∀ r rs, Firing (.sealrqWait h) s h e v → e.ss.wait = r :: rs → rinGe s.sl.s (BitVec.ofNat 32 r) = true →
    exec (.sealrqWait h) s = .next (e.result h (scalar r) s)) ∧
  (Firing (.sealrqWait h) s h e v → e.ss.wait = [] → exec (.sealrqWait h) s = .next (requestSeal
    (putInst s e.cid e.k (e.inst.modSlot e.slot fun q => { q with wait := [e.c.rin.toNat] })) false)) ∧
  (∀ ps, Firing (.stx h ac m) s h e v →
    globalPieces s e.cid e.p .stx (pieceBytes ac) (some m.lsid.toNat) (ac = .v) (contiguous ac (globalVa v.a m.ofs.toInt)) = .ok ps →
    exec (.stx h ac m) s = .next (e.capture h (some m.lsid.toNat)
      (.globalStore (ps.map fun p => (p.va, p.loc, contBytes ac v.b p.lane)) ac false true false m.osc false) none s)) ∧
  (∀ ps, Firing (.stxIrr h ac m) s h e v →
    globalPieces s e.cid e.p .irr (pieceBytes ac) (some m.lsid.toNat) (ac = .v) (contiguous ac (globalVa v.a m.ofs.toInt)) = .ok ps →
    exec (.stxIrr h ac m) s = .next (e.capture h (some m.lsid.toNat)
      (.globalStore (ps.map fun p => (p.va, p.loc, contBytes ac v.b p.lane)) ac false true true m.osc false) none s)) ∧
  (Firing (.escw h) s h e v → escwReady s e.c.px e.c.py e.slotK e.lease e.inst.escMark = true → exec (.escw h) s = .next (e.result h ack s))

/-- R285, R287, R288, R294 to R299: fences, barriers and waits on signals. A fence that is ready releases, then acquires; an undeclared
barrier object raises BARRIER. -/
def Obligations.SynchronisingInstructions : Prop :=
  ∀ (s : State) (h : Head) (e : Env) (v : Vals) (sc : Scope),
  (Firing (.fenceAcq h sc) s h e v → fenceReady s e.cid false false sc = true →
    exec (.fenceAcq h sc) s = .next (e.result h ack (acquire s e.cid (some sc)))) ∧
  (Firing (.fenceRel h sc) s h e v → fenceReady s e.cid true false sc = true →
    exec (.fenceRel h sc) s = .next (e.result h ack (release s e.cid (some sc)))) ∧
  (Firing (.fenceBoth h sc) s h e v → fenceReady s e.cid true false sc = true →
    exec (.fenceBoth h sc) s = .next (e.result h ack (acquire (release s e.cid (some sc)) e.cid (some sc)))) ∧
  (Firing (.fenceSc h sc) s h e v → fenceReady s e.cid true true sc = true →
    exec (.fenceSc h sc) s = .next (e.result h ack (acquire (release s e.cid (some sc)) e.cid (some sc)))) ∧
  (∀ lobj k n, Firing (.arrive h lobj k n) s h e v → barDeclared e.p lobj k.toNat = true → n.toNat ≤ maxParties e.p lobj →
    exec (.arrive h lobj k n) s = .next (e.capture h none (.arrive lobj k.toNat n.toNat) none s)) ∧
  (∀ lobj k n, Firing (.arrive h lobj k n) s h e v → barDeclared e.p lobj k.toNat = false →
    exec (.arrive h lobj k n) s = .next (e.raise { cause := 0x06 } s)) ∧
  (∀ lobj k, Firing (.waitb h lobj k) s h e v → barDeclared e.p lobj k.toNat = true →
    waitbReady (barObj e.p e.c lobj k.toNat) (BitVec.ofNat 32 (bitsOf v.a 0 32)) = true →
    exec (.waitb h lobj k) s = .next (e.result h ack (acquire s e.cid (objScope lobj)))) ∧
  (Firing (.bar h) s h e v → roomIn e.c (barChans e.c) = true →
    exec (.bar h) s = .next (e.capture h none .bar (some ack) (s.modCore e.cid fun c => c.reserve (barChans c)))) ∧
  (∀ c osc l x, Firing (.waitm h c osc) s h e v → readSignal s e.cid e.p c v.a v.b = .met l x →
    ∃ s', exec (.waitm h c osc) s = .next (e.result h (scalar x) (acquire s' e.cid osc)) ∧
      SameMemory (signalState s e.cid (bitsOf v.a 0 48) l) s' ∧ ∀ w ∈ s'.waiters, ¬ (w.core = some (e.cid, e.slotK) ∧ w.line = lineKey l)) ∧
  (∀ c osc x, Firing (.waitm h c osc) s h e v → readSignal s e.cid e.p c v.a v.b = .bad x →
    exec (.waitm h c osc) s = .next (e.raise x s))

/-- R190 to R199: tasks, channels and queues. An unbound channel raises CHANNEL_UNBOUND, a queue that takes no posts of the lease
ACCESS_DENIED, a `constw` outside the patch CONFIG_ILLEGAL. -/
def Obligations.TaskInstructions : Prop :=
  ∀ (s : State) (h : Head) (e : Env) (v : Vals) (j : BitVec 4) (m : MemF),
  (∀ kind, Firing (.send h kind j) s h e v → e.c.outBound j.toNat = true → e.c.outRoom j.toNat 1 = true →
    exec (.send h kind j) s = .next (e.capture h none (.send j.toNat kind (if kind = 12 then 0 else v.a)) none
      (s.modCore e.cid fun c => c.reserve [j.toNat]))) ∧
  (∀ kind, Firing (.send h kind j) s h e v → e.c.outBound j.toNat = false →
    exec (.send h kind j) s = .next (e.raise { cause := 0x0C, chan := some (true, j.toNat) } s)) ∧
  (∀ f, Firing (.recv h j) s h e v → e.c.inBound j.toNat = true → e.c.inTask j.toNat = e.slotK → recvReady e.c j.toNat = true →
    e.c.headFlit j.toNat = some f → ∃ s', exec (.recv h j) s = .next (e.update (fun x =>
      { x.fire e.slot h (some (.val f.value)) (some (.val (scalar f.kind.toNat))) with
        caps := x.caps ++ [{ slot := e.slot, lsid := none, eff := .recv j.toNat, t0 := h.t0, t1 := h.t1 }],
        recvd := j.toNat :: x.recvd }) s') ∧ (s'.core e.cid).ins = e.c.ins) ∧
  (Firing (.recv h j) s h e v → e.c.inBound j.toNat = false ∨ e.c.inTask j.toNat ≠ e.slotK →
    exec (.recv h j) s = .next (e.raise { cause := 0x0C, chan := some (false, j.toNat) } s)) ∧
  (∀ rel, Firing (.bind h j rel) s h e v → bindStatus e.c e.slotK j.toNat rel = 0 → exec (.bind h j rel) s = .next (e.capture h none
    (.bind j.toNat rel) (some (scalar 0)) (s.modCore e.cid fun c => c.modIn j.toNat fun ch => { ch with resv := some (e.slotK, rel) }))) ∧
  (∀ rel, Firing (.bind h j rel) s h e v → bindStatus e.c e.slotK j.toNat rel ≠ 0 →
    exec (.bind h j rel) s = .next (e.result h (scalar (bindStatus e.c e.slotK j.toNat rel)) s)) ∧
  (∀ n, Firing (.waitc h j n) s h e v → e.c.inBound j.toNat = true → waitcReady e.c j.toNat n.toNat = true →
    exec (.waitc h j n) s = .next (e.result h (scalar (e.c.flitsSeen j.toNat)) s)) ∧
  (∀ wait, Firing (.tspawn h wait) s h e v → exec (.tspawn h wait) s = .next
    ((e.update (fun x => x.modSlot e.slot fun q => { q with ph := .pending }) s).modCore e.cid fun c =>
      c.modTask e.slotK fun t => { t with spawns := t.spawns ++ [(e.inst.id, e.slot, wait, v.a, v.b)] })) ∧
  (Firing (.tstat h) s h e v → ∃ r, exec (.tstat h) s = .next (e.result h r s) ∧ (e.slotK < 8 → bitsOf r 24 8 = e.slotK)) ∧
  (Firing (.qpost h m) s h e v → mayPost s (s.queue (bitsOf v.a 0 10)) e.lease = true → (s.queue (bitsOf v.a 0 10)).room = true →
    exec (.qpost h m) s = .next (e.capture h (some m.lsid.toNat) (.qpost (bitsOf v.a 0 10) v.b m.osc) none
      (s.modQueue (bitsOf v.a 0 10) fun w => { w with rresv := w.rresv + 1 }))) ∧
  (Firing (.qpost h m) s h e v → mayPost s (s.queue (bitsOf v.a 0 10)) e.lease = false →
    exec (.qpost h m) s = .next (e.raise { cause := 0x09, lsid := some m.lsid.toNat } s)) ∧
  (∀ px py k c, Firing (.constw h px py k c) s h e v → constwOk e.p px.toNat py.toNat c.toNat = true →
    exec (.constw h px py k c) s = .next (e.capture h none (.constw px.toNat py.toNat k.toNat c.toNat v.a) none s)) ∧
  (∀ px py k c, Firing (.constw h px py k c) s h e v → constwOk e.p px.toNat py.toNat c.toNat = false →
    exec (.constw h px py k c) s = .next (e.raise { cause := 0x14 } s)) ∧
  (∀ mask, Firing (.markt h mask) s h e v → (∀ j ∈ maskChans mask, e.c.outBound j = true) → roomIn e.c (maskChans mask) = true →
    exec (.markt h mask) s = .next (e.capture h none (.markt mask) none (s.modCore e.cid fun c => c.reserve (maskChans mask))))

/-- R343 to R346: the system instructions. A trap and a breakpoint raise their cause with their code as address; a register write answers
the old value and goes at commit. Services 5 to 255 answer all ones (the model reads the 64-bit result so: assumption 11). R6,
R339: which bits each task control register takes: TCAUSE, TBLK, TADDR and TINFO are read-only but for INH, which a written 1 clears. -/
def Obligations.SystemInstructions : Prop :=
  ∀ (s : State) (h : Head) (e : Env) (v : Vals),
  (∀ code, Firing (.trap h code) s h e v → exec (.trap h code) s = .next (e.raise { cause := 0x10, addr := code.setWidth 64 } s)) ∧
  (∀ n, Firing (.brk h n) s h e v → exec (.brk h n) s = .next (e.raise { cause := 0x0F, addr := n.setWidth 64 } s)) ∧
  (∀ r, Firing (.csrr h r) s h e v → exec (.csrr h r) s = .next (e.result h (scalar (csrRead e.t r.toNat).toNat) s)) ∧
  (∀ r, Firing (.csrw h r) s h e v → exec (.csrw h r) s = .next (e.capture h none (.csrw r.toNat (v.a.setWidth 64))
    (some (scalar (csrRead e.t r.toNat).toNat)) s)) ∧
  (∀ L, s.lease e.lease = some L →
    (Firing (.svcHemlint h) s h e v → exec (.svcHemlint h) s = .next (e.result h (scalar L.hemlint) s)) ∧
    (Firing (.svcStalelint h) s h e v → exec (.svcStalelint h) s = .next (e.result h (scalar L.stalelint) s)) ∧
    (Firing (.svcRollbacks h) s h e v → exec (.svcRollbacks h) s = .next (e.result h (scalar L.rollbacks) s)) ∧
    (Firing (.svcIdent h) s h e v →
      exec (.svcIdent h) s = .next (e.result h (scalar (L.owner + 2 ^ 8 * e.lease + 2 ^ 20 * L.gen.toNat)) s))) ∧
  (Firing (.svcNotify h) s h e v → (s.queue e.p.queue).cRoom = true → exec (.svcNotify h) s = .next (e.capture h none
    (.notify (v.a.setWidth 64)) (some (scalar 0)) (s.modQueue e.p.queue fun q => { q with cresv := q.cresv + 1 }))) ∧
  (∀ n, Firing (.svcReserved h n) s h e v → exec (.svcReserved h n) s = .next (e.result h ((BitVec.allOnes 64).setWidth 512) s)) ∧
  (Firing (.rdcyc h) s h e v → exec (.rdcyc h) s = .next (e.result h (scalar (cyclesOf s e.cid)) s)) ∧
  (Firing (.rdtime h) s h e v → exec (.rdtime h) s = .next (e.result h (scalar s.time) s)) ∧
  (Firing (.nop h) s h e v → exec (.nop h) s = .next (e.done s)) ∧ ∀ (t : Task) (v : BitVec 64),
  csrWrite t 0 v = { t with tctl := v &&& 0xF } ∧ csrWrite t 1 v = { t with rstate := v } ∧
  csrWrite t 2 v = { t with tvec := v &&& 0x0000FFFFFFFFFFF8 } ∧
  (∀ b < 64, (csrWrite t 3 v).tmask.getLsbD b = (v.getLsbD b && decide (1 ≤ b ∧ b ≤ 22 ∧ b ≠ 11 ∧ ¬ (18 ≤ b ∧ b ≤ 21)))) ∧
  (∀ b < 64, (csrWrite t 4 v).tcause.getLsbD b = (t.tcause.getLsbD b && ! (decide (b = 16) && v.getLsbD b))) ∧
  csrWrite t 5 v = t ∧ csrWrite t 6 v = t ∧ csrWrite t 7 v = t ∧
  (∀ r, 4 < r → r ≠ 9 → r ≠ 10 → r ≠ 11 → (csrWrite t r v).pc = t.pc ∧ (csrWrite t r v).tcause = t.tcause ∧ (csrWrite t r v).link = t.link)

/-! ### Register writes and reads from outside -/

/-- R369, R376, R378, R416, R288, R6: registers written from outside, each with its own effect; a write to BAR 2 performs once none posted
before it by its function waits. A boot that failed leaves no function that answers (R382).
That a failed boot leaves no function that answers, and a BASE kept as written, are the model's readings (assumptions 81, 85). -/
def Obligations.RegisterWrites : Prop :=
  ∀ (s : State),
  (∀ n, s.trust.failed = false → exec (.numvfs n) s = .next { s with numVfs := n }) ∧
  (∀ v, s.trust.failed = false → v.getLsbD 0 = false →
    exec (.eventRingEn v) s = .next { s with events := { s.events with en := false } }) ∧
  (∀ v k, s.trust.failed = false → v.getLsbD 0 = true → 8 ≤ k → k ≤ 16 → s.events.size.toNat = 2 ^ k →
    exec (.eventRingEn v) s = .next { s with events := { s.events with en := true, head := 0, tail := 0 } }) ∧
  (∀ v, s.trust.failed = false → v.getLsbD 0 = true → (∀ k, 8 ≤ k → k ≤ 16 → s.events.size.toNat ≠ 2 ^ k) →
    exec (.eventRingEn v) s = .next { s with events := { s.events with en := false } }) ∧
  (∀ v, s.trust.failed = false → (s.events.tail - v).toNat ≤ s.events.size.toNat →
    exec (.eventRingHead v) s = .next { s with events := { s.events with head := v } }) ∧
  (∀ v, s.events.size.toNat < (s.events.tail - v).toNat → exec (.eventRingHead v) s = .next s) ∧
  (∀ v, s.trust.failed = false → v.getLsbD 0 = false → ∃ c, exec (.injectControl v) s = .next { s with inject := { s.inject with ctl := c } } ∧
    (∀ b < 64, c.getLsbD b = (v.getLsbD b && decide (b = 0 ∨ 4 ≤ b ∧ b < 8 ∨ 16 ≤ b)))) ∧
  (∀ v, s.trust.failed = false → v.getLsbD 0 = true → natBits v.toNat 16 4 ≠ 0 → natBits v.toNat 4 4 = 1 →
    ∃ c, exec (.injectControl v) s = .next { s with inject := { s.inject with ctl := c, seen := if s.inject.ctl.getLsbD 0 then s.inject.seen else 0 } } ∧
      (∀ b < 64, c.getLsbD b = (v.getLsbD b && decide (b = 0 ∨ 4 ≤ b ∧ b < 8 ∨ 16 ≤ b)))) ∧
  (∀ v, s.trust.failed = false → v.getLsbD 0 = true → natBits v.toNat 16 4 = 0 ∨ natBits v.toNat 4 4 ≠ 1 →
    ∃ c, exec (.injectControl v) s = .next { s with inject := { s.inject with ctl := c } } ∧ c.getLsbD 0 = s.inject.ctl.getLsbD 0) ∧
  (∀ n, n < 11 → exec (.serialisingToken n) s = .next { s with token := n }) ∧
  (∀ p, ∃ t, exec (.peerPortDown p) s = .next t ∧ (tgetD t.ports p {}).down = true ∧ ∀ q, q ≠ p → tgetD t.ports q {} = tgetD s.ports q {}) ∧
  (∀ p, ∃ t, exec (.peerPortRecover p) s = .next t ∧ (tgetD t.ports p {}).down = false ∧ ∀ q, q ≠ p → tgetD t.ports q {} = tgetD s.ports q {}) ∧
  (∀ fn off len v, NonePosted s fn → fnThere s fn = true → off < 0x40 → off + len ≤ 0x40 → exec (.registerWrite fn off len v) s =
    .next (s.modFn fn fun f => { f with cmd := patchLine f.cmd off (natBytes len v.toNat) })) ∧
  (∀ fn v, NonePosted s fn → fnThere s fn = true → (s.fn fn).busy = false → commandCode (bitsOf (s.fn fn).cmd 0 8) = true →
    v.getLsbD 0 = true → v.getLsbD 2 = false →
    exec (.registerWrite fn 0x80 4 v) s = .next (s.modFn fn fun f => { f with served := f.cmd, busy := true }))

/-- R365, R366: a LO read latches the whole value, so that a HI read gives its upper word whatever the counters do between. R290, R325:
what a host window write puts at an offset, a window read of those bytes gives; a read beyond the lease's memory gives all ones.
That the window reaches the first tier alone is the model's reading (assumption 73). -/
def Obligations.DeviceReads : Prop :=
  (∀ (s : State) (fn j : Nat), ∃ t, exec (.snapshotLoRead fn j) s = .next t ∧
    t.readback = BitVec.ofNat 512 ((slotValue s fn j).toNat % 2 ^ 32) ∧
    ∀ t', (t'.fn fn).snap j = (t.fn fn).snap j → ∃ u, exec (.snapshotHiRead fn j) t' = .next u ∧
      u.readback = BitVec.ofNat 512 ((slotValue s fn j).toNat / 2 ^ 32) ∧
      ∃ w, exec (.snapshotHiRead fn j) u = .next w ∧ w.readback = BitVec.ofNat 512 ((slotValue u fn j).toNat / 2 ^ 32)) ∧
  (∀ (s : State) (fn l pa off : Nat) (L : Lease), s.mem.wf = true → (s.fn fn).win = some (l, pa) → s.lease l = some L →
  (∀ bs : List Byte, NonePosted s fn → bs.length = 8 → off % 8 = 0 → ∀ q, hbmPhys L (pa + off) = some q →
    undoStalls s q (recoverable L q) s.sl.cur = false →
    ∃ t u, exec (.hostWindowWrite fn off bs) s = .next t ∧ t.mem.read q 8 = bs ∧ exec (.hostWindowRead fn off 1) t = .next u ∧
      u.readback = BitVec.ofNat 512 (bs.headD 0).toNat) ∧
  (hbmPhys L (pa + off) = none → ∃ t, exec (.hostWindowRead fn off 1) s = .next t ∧ t.readback = 0xFF) ∧
  (∀ n, SameMemory s (match exec (.hostWindowRead fn off n) s with | .next t => t | _ => s)))

/-- R83 to R85, R96: an aligned unit enters the ring; a full ring discards it and sets OVFL, which a written 1 clears; that write and all
others are counted in BADWR. RESUME and CHEAD; a write behind one that still waits at the port waits too (R290); and ingest, which takes the
head of the ring that round-robin names. That a write to OVFL is counted in BADWR and yet clears OVFL is the model's reading of R83 beside
R85 (assumption 51). -/
def Obligations.QueueWindows : Prop :=
  ∀ (s : State) (fn q : Nat), fn ≠ 0 → (s.queue q).vf = fn →
  (NonePosted s fn →
  (∀ off bs, off % 64 = 0 → off < 0xFC0 → bs.length = 64 → (s.queue q).room = true → exec (.packetWrite fn q off bs) s =
    .next (s.modQueue q fun w => { w with ring := w.ring ++ [bytesValue bs], tail := w.tail + 1 })) ∧
  (∀ off bs, off % 64 = 0 → off < 0xFC0 → bs.length = 64 → (s.queue q).room = false → exec (.packetWrite fn q off bs) s =
    .next (s.modQueue q fun w => { w with ovfl := true })) ∧
  (∀ off bs, off % 64 ≠ 0 ∨ bs.length < 64 ∨ 0xFC0 ≤ off → off ≠ 0xFC8 → off ≠ 0xFCC → off ≠ 0xFD0 → exec (.packetWrite fn q off bs) s =
    .next (s.modQueue q fun w => { w with badwr := min (w.badwr + 1) 0xFFFF })) ∧
  (∀ bs, bs.length = 4 → exec (.packetWrite fn q 0xFC8 bs) s =
    .next ((s.modQueue q fun w => { w with badwr := min (w.badwr + 1) 0xFFFF }).modQueue q fun w =>
      { w with ovfl := w.ovfl && ! (BitVec.ofNat 32 (bytesNat bs)).getLsbD 2 })) ∧
  (exec (.resume fn q 1) s = .next (s.modQueue q fun w => { w with stopped := false })) ∧
  (∀ v, v ≠ 1 → exec (.resume fn q v) s = .next s) ∧
  (∀ v, ((s.queue q).ctail - v).toNat ≤ (s.queue q).size → exec (.chead fn q v) s = .next (s.modQueue q fun w => { w with chead := v })) ∧
  (∀ v, (s.queue q).size < ((s.queue q).ctail - v).toNat → exec (.chead fn q v) s = .next s)) ∧
  (∀ i, ¬ NonePosted s fn → ((∃ off bs, i = .packetWrite fn q off bs) ∨ (∃ v, i = .resume fn q v) ∨ (∃ v, i = .chead fn q v)) →
    exec i s = .next { s with posted := s.posted ++ [i] }) ∧
  (∀ v r, s.stopped = false → s.quiesced = false → nextQueue s = some q → vfOut s fn = false → (s.queue q).ring = v :: r →
    ∃ t p, exec (.ingest q) s = .next t ∧ t.pipe = s.pipe ++ [p] ∧ p.num = s.nextPkt ∧ p.queue = q ∧ p.words = v ∧ p.stage = .validate ∧
      p.ingest = s.time ∧ (t.queue q).ring = r ∧ (t.queue q).head = (s.queue q).head + 1)

/-! ### Packets -/

/-- R87 to R91, R93: what each packet does once its dependences let it go. A WAIT stays until its comparison holds; WAITSEAL waits for the
SEALED of the interval current now. -/
def Obligations.PacketEffects : Prop :=
  ∀ (s : State) (p : Pkt),
  (actOf s 1 = some p → exec .launch s = .next (s.modPkt p.num fun q => { q with stage := .place, ready := some s.time })) ∧
  (actOf s 4 = some p → exec .copy s = .next (s.modPkt p.num fun q => { q with stage := .launch, began := s.time })) ∧
  (actOf s 7 = some p → ∃ t, exec .marker s = .next t ∧ Completed t p.num 0 (BitVec.ofNat 64 p.ingest) ∧ t.mem = s.mem) ∧
  (∀ l c, actOf s 2 = some p → stripLoc s p.lease (pkAddr p.words) = some l →
    condOf (BitVec.ofNat 4 (natBits (pkWord p.words 4) 52 4)) = some c → readBad s p.lease l = false →
    if condHolds c 64 (bytesNat (nodeRead s p.lease l 8)) (pkWord p.words 5) then
      ∃ t, exec .wait s = .next t ∧ Completed t p.num 0 0 ∧ t.mem = s.mem
    else ∃ t, exec .wait s = .next t ∧ t.pipe = s.pipe ∧ t.mem = s.mem) ∧
  (∀ pa recov, actOf s 3 = some p → stripLoc s p.lease (pkAddr p.words) = some (.dev pa recov) → natBits (pkWord p.words 4) 52 2 = 0 →
    locPoisoned s (.dev pa recov) = false → undoStalls s pa recov s.sl.cur = false →
    ∃ t, exec .signal s = .next t ∧ Completed t p.num 0 0 ∧ t.mem = s.mem.write pa (natBytes 8 (pkWord p.words 5))) ∧
  (∀ pa recov, actOf s 3 = some p → stripLoc s p.lease (pkAddr p.words) = some (.dev pa recov) → natBits (pkWord p.words 4) 52 2 = 1 →
    injected s p.lease (.dev pa recov) = false → locPoisoned s (.dev pa recov) = false → undoStalls s pa recov s.sl.cur = false →
    ∃ t, exec .signal s = .next t ∧ Completed t p.num 0 0 ∧
      t.mem = s.mem.write pa (natBytes 8 ((bytesNat (nodeRead s p.lease (.dev pa recov) 8) + pkWord p.words 5) % 2 ^ 64))) ∧
  (actOf s 5 = some p → (pkWord p.words 4).testBit 0 = false → ∃ t, exec .sealrq s = .next t ∧ Completed t p.num 0 0) ∧
  (actOf s 5 = some p → (pkWord p.words 4).testBit 0 = true → ∃ t, exec .sealrq s = .next t ∧
    t.pkt p.num = some { p with stage := .running, sealFor := some s.sl.cur }) ∧
  (actOf s 5 = some p → s.sl.device = s.sl.coordinator → ∃ t, exec .sealrq s = .next t ∧ t.sl.requested = true)

/-- R86, R94 to R98: the stages. A packet that validates goes to depend, any other completes with its refusal; STOP = 1 then stops its
queue. Dependences are signed: a negative value fails the packet, a positive one holds it. What reads a page under migration waits (R227).
Which field a refusal names where several are wrong is the model's reading (assumptions 45, 46). -/
def Obligations.PacketStages : Prop :=
  ∀ (s : State) (p : Pkt),
  (∀ q, pktAt s .validate = some p → readsWait s p = false → validated s p = .ok q →
    exec .validate s = .next (s.modPkt p.num fun _ => { q with stage := .depend })) ∧
  (∀ r, pktAt s .validate = some p → readsWait s p = false → validated s p = .error r → ∃ t q, exec .validate s = .next t ∧
    t.pkt p.num = some q ∧ q.stage = .complete ∧ q.status = r.status ∧ q.field = r.field ∧ q.result = BitVec.ofNat 64 r.index ∧
    (pkStop p.words = true → (t.queue p.queue).stopped = true)) ∧
  (pktAt s .validate = some p → readsWait s p = true → exec .validate s = .next (readsWalk s p)) ∧
  (pktAt s .depend = some p → depLocs s p = some [] → p.registered = false → myTurn s p = true → ∃ t, exec .depend s = .next t ∧
    t.pkt p.num = some (if pkType p.words = 6 then { p with stage := .place, ready := some s.time } else { p with stage := .act })) ∧
  (∀ ls, pktAt s .depend = some p → depLocs s p = some ls → ls ≠ [] → holdsEntries s p = false → entryRoom s p = true → myTurn s p = false →
    exec .depend s = .next (pkEnlist s p ls) ∧ ∀ l ∈ ls, ∃ w ∈ (pkEnlist s p ls).waiters, w.pk = some p.num ∧ w.line = lineKey l) ∧
  (∀ ls, pktAt s .depend = some p → depLocs s p = some ls → p.registered = false → holdsEntries s p = true → myTurn s p = true →
    (∀ l ∈ ls, readBad s p.lease l = false) → (∀ l ∈ ls, 0 ≤ sgn 64 (bytesNat (nodeRead s p.lease l 8))) →
    (∃ l ∈ ls, 0 < sgn 64 (bytesNat (nodeRead s p.lease l 8))) →
    ∃ t, exec .dependenceReread s = .next t ∧ t.pkt p.num = some { p with registered := ls.all fun l => ! l.isSystem }) ∧
  (∀ ls, pktAt s .depend = some p → depLocs s p = some ls → p.registered = false → holdsEntries s p = true → myTurn s p = true →
    (∀ l ∈ ls, readBad s p.lease l = false) → (∃ l ∈ ls, sgn 64 (bytesNat (nodeRead s p.lease l 8)) < 0) →
    ∃ t, exec .dependenceReread s = .next t ∧ Completed t p.num 16 0) ∧
  (∀ ls, pktAt s .depend = some p → depLocs s p = some ls → p.registered = false → holdsEntries s p = true → myTurn s p = true →
    (∀ l ∈ ls, readBad s p.lease l = false) → (∀ l ∈ ls, sgn 64 (bytesNat (nodeRead s p.lease l 8)) = 0) → pkType p.words ≠ 6 →
    ∃ t, exec .dependenceReread s = .next t ∧ t.pkt p.num = some { p with stage := .act }) ∧
  (pktAt s .complete = some p → nextDone s p = true → (s.queue p.queue).cRoom = true → csigLoc s p = none → csigWaits s p = false →
    exec .complete s = .next { postRecord s p.queue (pktRecord s p) with pipe := s.pipe.filter fun q => q.num != p.num }) ∧
  (∀ l pa recov, pktAt s .complete = some p → nextDone s p = true → (s.queue p.queue).cRoom = true →
    csigLoc s p = some (l, .dev pa recov) → locPoisoned s (.dev pa recov) = false → undoStalls s pa recov s.sl.cur = false →
    ∃ t, exec .complete s = .next t ∧ t.pkt p.num = none ∧ t.mem = s.mem.write pa (natBytes 8 ((2 ^ 64 - p.status) % 2 ^ 64)) ∧
      (t.queue p.queue).ctail = (s.queue p.queue).ctail + 1 ∧
      tfind (t.queue p.queue).recs ((s.queue p.queue).ctail.toNat % Nat.max (s.queue p.queue).size 1) = some (pktRecord s p)) ∧
  (pktAt s .complete = some p → (s.queue p.queue).cRoom = false → exec .complete s = .next s) ∧
  (∀ k, pktAt s .place = some p → p.ready = some k → k + (p.levels + 1) * 1000000 ≤ s.time → level s p < 7 →
    exec .priorityAging s = .next (s.modPkt p.num fun q => { q with levels := q.levels + 1 }))

/-- R96, R99, R123, R139, R145: place, fill, launch. A LEASE packet goes from place to be carried out; a LAUNCH goes to its spot, its
owner's deficit charged the rectangle; the fill writes shadows that no task sees, which commit together before the patch starts.
When a packet is ready and that a failed fill drops the patch are the model's readings (assumptions 53, 56). -/
def Obligations.LaunchStages : Prop :=
  ∀ (s s' : State) (p q : Pkt),
  (pktAt s .place = some p → s.sl.rolling = none → dispatcher s = (s', some q) → q.num = p.num → pkType p.words = 6 →
    exec .place s = .next (s'.modPkt p.num fun q => { q with stage := .leasing })) ∧
  (∀ L spot crc, pktAt s .place = some p → s.sl.rolling = none → dispatcher s = (s', some q) → q.num = p.num → pkType p.words ≠ 6 →
    s'.lease p.lease = some L → spotFor s' p = some (spot, crc) →
    ∃ t, exec .place s = .next t ∧ t.patches = (placeAt s' p L crc spot).patches ∧ ∀ o, ((placeAt s' p L crc spot).queue p.queue).owner = o →
      (t.ownerOf o).deficit = ((placeAt s' p L crc spot).ownerOf o).deficit - hW p.hdr * hH p.hdr) ∧
  (∀ L x y crc, pktAt s .place = some p → s.sl.rolling = none → dispatcher s = (s', some q) → q.num = p.num → pkType p.words ≠ 6 →
    s'.lease p.lease = some L → spotFor s' p = some (.fresh x y, crc) →
    ∃ t r k, exec .place s = .next t ∧ t.pkt p.num = some r ∧ r.stage = .fill ∧ r.patch = some s.nextPatch ∧
      r.charge = hW p.hdr * hH p.hdr ∧ t.patch s.nextPatch = some k ∧ k.x = x ∧ k.y = y ∧ k.lease = p.lease ∧ k.st = .loaded ∧ k.pk = p.num) ∧
  (∀ pt k o, pktAt s .fill = some p → p.patch = some pt → s.patch pt = some k → p.skipFill = false →
    partsWait s p.lease k.obj p.hdr = false → argsWait s p = false → reload s p.lease k.obj p.hdr = .ok o →
    argsBad (loadCharge s p.lease k.obj p.hdr) p = false → ∃ t r, exec .fill s = .next t ∧ t.pkt p.num = some r ∧
      r.skipFill = true ∧ r.stage = .fill ∧ t.patch pt = some { k with args := readArgs s p } ∧ t.mem = s.mem) ∧
  (∀ pt k c b, pktAt s .fill = some p → p.patch = some pt → s.patch pt = some k → p.skipFill = false →
    partsWait s p.lease k.obj p.hdr = false → argsWait s p = false →
    reload s p.lease k.obj p.hdr = .error (c, b) → ∃ t, exec .fill s = .next t ∧ Completed t p.num 17 (BitVec.ofNat 64 c.toNat) ∧
      t.patch pt = none) ∧
  (∀ pt k, pktAt s .fill = some p → p.patch = some pt → s.patch pt = some k → p.skipFill = true → exec .placerPlace s =
    .next ((commitLoad s pt p.lease (ctxBase k) p.hdr).modPkt p.num fun q => { q with stage := .launch })) ∧
  (∀ pt k, pktAt s .launch = some p → s.sl.rolling = none → pkType p.words ≠ 4 → p.patch = some pt → s.patch pt = some k →
    k.st = .loaded ∨ k.st = .resident ∧ argsWait s p = false ∧ argsBad s p = false →
    ∃ t r, exec .launchStage s = .next t ∧ t = startPatch s p pt k ∧ t.patch pt = some r ∧ r.st = .running ∧ r.launched = s.time) ∧
  (∀ L r, pktAt s .launch = some p → s.sl.rolling = none → pkType p.words = 4 → s.lease p.lease = some L →
    (s.clusters.any fun c => c.2.queues.any fun q => q.2.any fun e => e.pk = some p.num) = false → p.requests[p.copied]? = some r →
    copyRoom s (clusterOf (coreXY s L.x L.y)) (cpQueue r) = true →
    exec .launchStage s = .next (enqueueCopy s (clusterOf (coreXY s L.x L.y)) (cpQueue r)
      { id := 0, packet := r, cid := coreXY s L.x L.y, task := none, lease := p.lease, gen := L.gen, esc := (leasePerms s p.lease).getLsbD 0,
        pk := some p.num, next := 0, rin := s.sl.cur })) ∧
  (∀ L, pktAt s .launch = some p → s.sl.rolling = none → pkType p.words = 4 → s.lease p.lease = some L →
    (s.clusters.any fun c => c.2.queues.any fun q => q.2.any fun e => e.pk = some p.num) = false → p.requests[p.copied]? = none →
    ∃ t, exec .launchStage s = .next t ∧ Completed t p.num 0 0)

/-! ### Leases, patches, the placer -/

/-- R92, R98, R100, R102 to R104, R116: what each LEASE packet does when it can be carried out at once. A REQUEST takes the lowest free
identity with its generation advanced by one, the lowest y and then x, and the lowest free channels.
What a RESIZE and a LEND do in the cases left open is the model's reading (assumptions 60, 61). -/
def Obligations.LeasePackets : Prop :=
  ∀ (s : State) (p : Pkt),
  (∀ x y cs l, leasing s 0 = some p →
    (if rcFixed (pkRect p.words) then rectFree s none (rcX (pkRect p.words)) (rcY (pkRect p.words)) (rcW (pkRect p.words)) (rcH (pkRect p.words)) = true ∧
        x = rcX (pkRect p.words) ∧ y = rcY (pkRect p.words)
      else lowestFree s (rcW (pkRect p.words)) (rcH (pkRect p.words)) = some (x, y)) → freeChans s (rcChans (pkRect p.words)) = some cs →
    l < 4096 → s.lease l = none → (∀ k < l, s.lease k ≠ none) → sweepClear s l = true →
    ∃ t L, exec .leaseRequest s = .next t ∧ t.lease l = some L ∧ L.st = .granting ∧ L.x = x ∧ L.y = y ∧ L.w = rcW (pkRect p.words) ∧
      L.h = rcH (pkRect p.words) ∧ L.chans = cs ∧ L.gen = BitVec.ofNat 8 (tgetD s.leaseGrants l 0 + 1) ∧ tgetD t.leaseGrants l 0 = tgetD s.leaseGrants l 0 + 1 ∧
      L.vf = (s.queue p.queue).vf ∧ L.pk = some p.num ∧ ∀ k, k ≠ l → t.lease k = s.lease k) ∧
  (∀ L x y cs, leasing s 1 = some p → s.lease (pkIdent p.words) = some L → L.st = .granted → L.want = none → L.loans = [] →
    x = (if rcFixed (pkRect p.words) then rcX (pkRect p.words) else L.x) → y = (if rcFixed (pkRect p.words) then rcY (pkRect p.words) else L.y) →
    (rcChans (pkRect p.words) = 0 ∧ cs = L.chans ∨
      0 < rcChans (pkRect p.words) ∧ rcChans (pkRect p.words) ≤ L.chans.length ∧ cs = L.chans.take (rcChans (pkRect p.words)) ∨
      L.chans.length < rcChans (pkRect p.words) ∧ ∃ m, freeChans s (rcChans (pkRect p.words) - L.chans.length) = some m ∧ cs = L.chans ++ m) →
    rectFree s (some (pkIdent p.words)) x y (rcW (pkRect p.words)) (rcH (pkRect p.words)) = true →
    outside s (pkIdent p.words) x y (rcW (pkRect p.words)) (rcH (pkRect p.words)) = [] →
    ∃ t N, exec .leaseResize s = .next t ∧ t.lease (pkIdent p.words) = some N ∧
      N.want = some ((x, y, rcW (pkRect p.words), rcH (pkRect p.words)), cs) ∧ N.pk = some p.num ∧ N.gen = L.gen) ∧
  (∀ L, leasing s 2 = some p → s.lease (pkIdent p.words) = some L → L.st = .granted →
    (∀ k ∈ L.loans, rectsMeet (L.x + rcX (pkRect p.words)) (L.y + rcY (pkRect p.words)) (rcW (pkRect p.words)) (rcH (pkRect p.words)) k.x k.y k.w k.h = false) →
    rectClear s (fun _ _ => false) (L.x + rcX (pkRect p.words)) (L.y + rcY (pkRect p.words)) (rcW (pkRect p.words)) (rcH (pkRect p.words)) = true →
    ∃ t N, exec .leaseLend s = .next t ∧ Completed t p.num 0 (leaseResult (pkIdent p.words) L.gen s.nextLoan) ∧
      t.lease (pkIdent p.words) = some N ∧ N.loans = L.loans ++ [Loan.mk s.nextLoan
        (L.x + rcX (pkRect p.words)) (L.y + rcY (pkRect p.words)) (rcW (pkRect p.words)) (rcH (pkRect p.words)) (rcBorrower (pkRect p.words)) true]) ∧
  (∀ L n, leasing s 3 = some p → s.lease (pkIdent p.words) = some L → L.loans.find? (·.num = rcLoan (pkRect p.words)) = some n →
    loanBusy (vacateLoan s (.leaseRecall, p.num + 1) (pkIdent p.words) n.num) n.num = false → exec .leaseRecall s = .next
      (endPkt (endLoan (vacateLoan s (.leaseRecall, p.num + 1) (pkIdent p.words) n.num) (pkIdent p.words) n) p.num 0 0xFFFF (leaseResult (pkIdent p.words) L.gen n.num))) ∧
  (∀ L, leasing s 4 = some p → s.lease (pkIdent p.words) = some L → L.loans = [] → ∃ t N, exec .leaseRelease s = .next t ∧
    t.lease (pkIdent p.words) = some N ∧ N.st = .rinsing ∧ N.want = none ∧ N.gen = L.gen ∧ N.pk = some p.num) ∧
  (∀ l L, s.lease l = some L → L.rinses ≠ [] → (∀ n ∈ heldLines s (memGone L).1 (memGone L).2,
    undoStalls s (64 * n) (recoverable L (64 * n)) s.sl.cur = false) →
    ∃ t N, exec (.rinse l) s = .next t ∧ t.lease l = some N ∧ N.rinses = [] ∧ N.st = L.st) ∧
  (∀ l L n, s.lease l = some L → L.st = .granting → L.rinses = [] → L.pk = some n → s.pkt n = some p → p.stage ≠ .complete →
    heldLines s (memGone L).1 (memGone L).2 = [] → ∃ t, exec (.rinseDone l) s = .next t ∧
      t.lease l = some { L with st := .granted, pk := none } ∧ Completed t n 0 (leaseResult l L.gen 0)) ∧
  (∀ l L n x y w h cs, s.lease l = some L → L.st = .granted ∨ L.st = .rinsing → L.want = some ((x, y, w, h), cs) → L.rinses = [] → L.pk = some n →
    s.pkt n = some p → p.stage ≠ .complete → heldLines s (memGone L).1 (memGone L).2 = [] → ∃ t, exec (.rinseDone l) s = .next t ∧
      t.lease l = some { L with
        st := .granted
        x := x
        y := y
        w := w
        h := h
        chans := cs
        want := none
        pk := none } ∧ Completed t n 0 (leaseResult l L.gen 0)) ∧
  (∀ l L n, s.lease l = some L → L.st = .rinsing → L.want = none → L.rinses = [] → L.pk = some n → s.pkt n = some p → p.stage ≠ .complete →
    heldLines s L.chans L.exts = [] → ∃ t, exec (.rinseDone l) s = .next t ∧ t.lease l = none ∧ Completed t n 0 (leaseResult l L.gen 0))

/-- R112 to R115, R350, R353: the placer's operations on patches that stand, and on one that does not yet. An evicted patch holds no
core and its image lies in the store; a moved, restored or pressed one stands at its new origin. R14, R15, R117: a position with three
replay failures within a second is darned onto its cluster's free darning core, else withdrawn. A strip core takes the darning core first;
with it serving another strip core it is withdrawn, and a third such withdrawal stops the device.
That an operation is a first step and then, once its patches stand, one more is the model's choice (assumption 21). -/
def Obligations.PlacerOperations : Prop :=
  (∀ (s : State) (pt : Nat) (p : Patch), s.patch pt = some p →
  (∀ L x y o, s.lease p.lease = some L → L.st = .granted → originFree s L (fun k _ => k = pt) p.w p.h (hCbar p.hdr) x y = true →
    partsWait s p.lease p.obj p.hdr = false → Stand s (.move pt x y) [(pt, p)] →
    reload (stopForPlacer s pt) p.lease p.obj p.hdr = .ok o → ∃ t q, exec (.move pt x y) s = .next t ∧
      t = endStop (movePatch s pt p (L.x + x) (L.y + y) none) pt ∧ t.patch pt = some q ∧ q.x = L.x + x ∧ q.y = L.y + y ∧ q.loan = none ∧
      q.st = p.st ∧ q.stop = none ∧ q.obj = p.obj) ∧
  (∀ L x y, s.lease p.lease = some L → L.st = .granted → originFree s L (fun k _ => k = pt) p.w p.h (hCbar p.hdr) x y = true →
    partsWait s p.lease p.obj p.hdr = false → placerBusy s (eventKey (.move pt x y)) p.lease = false → p.st = .running → p.host = none →
    p.latched = none → patchStands s pt p = false → (∀ cid ∈ patchCores s pt, (s.core cid).pleat.phase ≤ 1) →
    ∃ t, exec (.move pt x y) s = .next t ∧ t.patch pt = some { p with stop := some (eventKey (.move pt x y)) } ∧
      ∀ cid ∈ patchCores s pt, (t.core cid).pleat.lock = true) ∧
  (Stand s (.evict pt) [(pt, p)] → storeRoom s [p] = true → ∃ t q, exec (.evict pt) s = .next t ∧ t.patch pt = some q ∧ q.st = .evicted ∧
    q.was = p.st ∧ q.loan = none ∧ q.stop = none ∧ (∀ cid ∈ patchCores s pt, (t.core cid).patch = none) ∧
    tfind t.images pt = some { lease := p.lease, gen := genOf s p.lease, cores := readAll (stopForPlacer s pt) pt }) ∧
  (∀ L x y o, s.lease p.lease = some L → p.st = .evicted → p.saveDue = none → L.st = .granted → vfOut s L.vf = false →
    originFree s L (fun k _ => k = pt) p.w p.h (hCbar p.hdr) x y = true → partsWait s p.lease p.obj p.hdr = false →
    placerBusy s (eventKey (.restore pt x y)) p.lease = false → reload s p.lease p.obj p.hdr = .ok o →
    ∃ t q, exec (.restore pt x y) s = .next t ∧ t.patch pt = some q ∧ q.st = p.was ∧ q.x = L.x + x ∧ q.y = L.y + y ∧ q.loan = none ∧
      tfind t.images pt = none ∧ ∀ k c, imageOf s pt p = [(k, c)] → c.patch = some pt →
        (t.core (coreXY s (L.x + x + c.px) (L.y + y + c.py))).patch = some pt) ∧
  (∀ n g, p.st = .victim → p.saveDue = none → (s.victims.any fun e => e.2.patch = some pt && e.2.cache.any (lineStalls s)) = false →
    s.patches.find? (fun e => e.2.host = some pt) = some (n, g) → g.st = .frozen → n ≠ pt →
    ∃ t q, exec (.preemptResume pt) s = .next t ∧ t = resumeVictim (dropPatch s n) pt ∧ t.patch pt = some q ∧ q.st = p.was ∧
      t.patch n = none) ∧
  (p.st = .victim → p.saveDue = none → (s.victims.any fun e => e.2.patch = some pt && e.2.cache.any (lineStalls s)) = false →
    s.patches.find? (fun e => e.2.host = some pt) = none →
    ∃ t q, exec (.preemptResume pt) s = .next t ∧ t = resumeVictim s pt ∧ t.patch pt = some q ∧ q.st = p.was)) ∧
  (∀ (s : State) (ms : List PressMove), pressOk s ms = true → Stand s (.press ms) (pressed s ms) →
    (∀ e ∈ pressed s ms, ∃ o, reload ((pressed s ms).foldl (fun s e => stopForPlacer s e.1) s) e.2.lease e.2.obj e.2.hdr = .ok o) →
    ∃ t, exec (.press ms) s = .next t ∧ t = (pressed s ms).foldl (fun s e => endStop s e.1) (doPress ms (pressed s ms) s) ∧
      (∀ l L, s.lease l = some L → ∃ N, t.lease l = some N ∧ N.x = (pressLease ms l L).x ∧ N.y = (pressLease ms l L).y ∧ N.w = L.w ∧
        N.h = L.h ∧ N.gen = L.gen ∧ N.loans = (pressLease ms l L).loans) ∧
      ∀ n p, pressed s ms = [(n, p)] → s.patch n = some p → ∃ q, t.patch n = some q ∧ (q.x, q.y, q.loan) = pressPatch s ms n p) ∧
  (∀ (s : State) (a b : Nat), a ≠ b → (s.fn a).busy = false → (s.fn a).out = false → storeRoom s ((vfStops s a).map (·.2)) = true →
    Stand s (.worldSwitch a b) (vfStops s a) →
    (∃ t, exec (.worldSwitch a b) s = .next t ∧ t = (vfStops s a).foldl (fun s e => endStop s e.1)
      (if ((switchOut s a).fn a).out then switchIn (switchOut s a) b else switchOut s a)) ∧
    (s.patches = [] → ∃ t, exec (.worldSwitch a b) s = .next t ∧ (t.fn a).out = true ∧ (t.fn b).out = false ∧
      (t.fn a).world = (s.fn a).snaps ∧ ((s.fn b).out = true → (t.fn b).snaps = (s.fn b).world)) ∧
    ∀ n p, vfStops s a = [(n, p)] → s.patches = [(n, p)] → ∃ t q, exec (.worldSwitch a b) s = .next t ∧ (t.fn a).out = true ∧
      (t.fn b).out = false ∧ t.patch n = some q ∧ q.st = .evicted) ∧
  (∀ (s : State) (cl pos at' cid : Nat), failedAt s cl pos = some at' → cid = coreAt s cl pos → tfind s.victims cid = none →
  (∀ n p o, darns s cl pos at' = true → patchOn s cid = some (n, p) → partsWait s p.lease p.obj p.hdr = false → readPoison (s.core cid) = false →
    Stand s (.darn cl pos) [(n, p)] → reload (stopForPlacer s n) p.lease p.obj p.hdr = .ok o →
    ∃ t, exec (.darn cl pos) s = .next t ∧ (t.cluster cl).darned = some pos ∧ (t.core (3072 + cl)).patch = some n ∧
      (t.core (3072 + cl)).px = (s.core cid).px ∧ (t.core (3072 + cl)).py = (s.core cid).py) ∧
  (darns s cl pos at' = true → patchOn s cid = none → ∃ t, exec (.darn cl pos) s = .next t ∧ (t.cluster cl).darned = some pos ∧
    coreAt t cl pos = 3072 + cl ∧ t.core (3072 + cl) = rinsedCore (s.core (3072 + cl))) ∧
  (∀ n p, darns s cl pos at' = false → patchOn s cid = some (n, p) → storeRoom s [p] = true → Stand s (.darn cl pos) [(n, p)] →
    ∃ t, exec (.darn cl pos) s = .next t ∧ (t.core cid).withdrawn = true) ∧
  (darns s cl pos at' = false → patchOn s cid = none → storeRoom s [] = true → ∃ t, exec (.darn cl pos) s = .next t ∧
    (t.core cid).withdrawn = true ∧ (t.core cid).replays = [] ∧ (t.cluster cl).darned = (s.cluster cl).darned)) ∧
  (∀ (s : State) (cl pos : Nat), failedAt s cl pos = none → exec (.darn cl pos) s = .next s) ∧
  (∀ (s : State) (y : Nat), s.stripDown.contains y = false → s.stopped = false →
  ((s.cluster (16 * (y / 4))).darned = none → ∃ t, exec (.stripCoreFailure y) s = .next t ∧
    (t.cluster (16 * (y / 4))).darned = some (4 * (y % 4)) ∧ t.stripDarned = s.stripDarned ++ [y] ∧ t.stopped = false) ∧
  (∀ q, (s.cluster (16 * (y / 4))).darned = some q → stripPos (16 * (y / 4)) q = false → y < 24 → q < 16 →
    tfind s.victims (3072 + 16 * (y / 4)) = none → storeRoom s [] = true → patchOn s (3072 + 16 * (y / 4)) = none →
    ∃ t, exec (.stripCoreFailure y) s = .next t ∧ (t.cluster (16 * (y / 4))).darned = some (4 * (y % 4)) ∧
      t.stripDarned = s.stripDarned ++ [y] ∧ (t.core (coreAt t (16 * (y / 4)) q)).withdrawn = true ∧ t.stopped = false) ∧
  (∀ q, (s.cluster (16 * (y / 4))).darned = some q → stripPos (16 * (y / 4)) q = true →
    ∃ t, exec (.stripCoreFailure y) s = .next t ∧ t.stripDown = s.stripDown ++ [y] ∧ (t.stopped = true ↔ 2 ≤ s.stripDown.length)))

/-! ### Mailbox commands -/

/-- R371, R372: a command on a lease that its VF does not hold, and a PF command of a VF, are answered PERM and change nothing else. -/
def Obligations.CommandPermissions : Prop :=
  ∀ (s : State) (i : Instr) (code fn : Nat) (a : CmdArgs), serving s code = some (fn, a) → fn ≠ 0 →
  ((i, code) ∈ leaseCommands →
    (∀ L, s.lease (cmdLease s fn) = some L → L.vf ≠ fn ∨ L.st ≠ .granted ∧ (L.st ≠ .rinsing ∨ L.want = none)) → exec i s = .next (answer s fn 2 [])) ∧
  ((i, code) ∈ pfCommands → exec i s = .next (answer s fn 2 [])) ∧
  (∀ st r, ((answer s fn st r).fn fn).done = true ∧ ((answer s fn st r).fn fn).busy = false ∧
    ∀ g, g ≠ fn → (answer s fn st r).fn g = s.fn g)

/-- R226 to R228, R230: the mapping commands. MAP fills entries that were invalid. UNMAP and PROTECT rewrite entries and begin a shootdown;
the command is answered once everything older has performed. MIGRATE sets MIG under one shootdown and retargets under a second.
Arguments as fields of the event, partial leaves and the moment of MIGRATE's copy are the model's readings (assumptions 23, 63, 77). -/
def Obligations.MappingCommands : Prop :=
  ∀ (s : State) (fn l : Nat) (L : Lease),
  (∀ a N, Served s 1 fn l L (.map a) → mapFields a = true → entriesIn L a.va a.size = [] → ¬ (a.recov = true ∧ (a.dest = 1 ∨ a.dest = 3)) →
    (if a.dest = 0 then reachable s L a.tier a.pa a.size else some L) = some N → exec .map s = .next (answer (rewait (s.modLease l fun _ =>
      setEntries N a.big a.va a.size fun o => mkEntry a.peer (a.pa + o) a.dest false a.tier a.recov a.x a.w a.r true) l) fn 0 [])) ∧
  (∀ a, Served s 1 fn l L (.map a) → mapFields a = true → entriesIn L a.va a.size ≠ [] → exec .map s = .next (answer s fn 4 [])) ∧
  (∀ va size, Served s 2 fn l L (.unmap va size) → (s.fn fn).shoot = none → wholePages (2 ^ 16) va size = true → wholeLeaves L va size = true →
    keepsSaves s l (changeEntries va size fun _ _ => 0) = true →
    ∃ t N, exec .unmap s = .next t ∧ t.lease l = some N ∧ N.epoch = L.epoch + 1 ∧ entriesIn N va size = []) ∧
  (∀ va size h, Served s 2 fn l L (.unmap va size) → (s.fn fn).shoot = some h → shootClear s h = true → shootStalls s h = false →
    exec .unmap s = .next (answer (rewait (shootLines s h) l) fn 0 [])) ∧
  (∀ va size r w x recov, Served s 3 fn l L (.protect va size r w x recov) → (s.fn fn).shoot = none → wholePages (2 ^ 16) va size = true →
    wholeLeaves L va size = true → (recov = true → ∀ e ∈ entriesIn L va size, peDest e.2.2 ≠ 1 ∧ peDest e.2.2 ≠ 3) →
    keepsSaves s l (changeEntries va size fun _ e => setPerms r w x recov e) = true →
    ∃ t N, exec .protect s = .next t ∧ t.lease l = some N ∧ N.epoch = L.epoch + 1 ∧
      ∀ e ∈ entriesIn N va size, peR e.2.2 = r ∧ peW e.2.2 = w ∧ peX e.2.2 = x ∧ peRec e.2.2 = recov) ∧
  (∀ va size r w x recov h, Served s 3 fn l L (.protect va size r w x recov) → (s.fn fn).shoot = some h → shootClear s h = true →
    shootStalls s h = false → exec .protect s = .next (answer (shootLines s h) fn 0 [])) ∧
  (∀ va size pa tier M, Served s 4 fn l L (.migrate va size pa tier) → (s.fn fn).shoot = none → wholePages (2 ^ 16) va size = true →
    wholeLeaves L va size = true → (∀ e ∈ entriesIn L va size, (pa + (e.1 - va)) % e.2.1 = 0 ∧ peDest e.2.2 = 0) →
    reachable s L tier pa size = some M → ∃ t N h, exec .migrate s = .next t ∧ t.lease l = some N ∧ N.epoch = L.epoch + 1 ∧
      (∀ e ∈ entriesIn N va size, peMig e.2.2 = true) ∧ (t.fn fn).shoot = some h ∧ h.mig = some (pa, tier) ∧ h.va = va ∧ h.size = size) ∧
  (∀ va size pa tier h, Served s 4 fn l L (.migrate va size pa tier) → (s.fn fn).shoot = some h → h.mig = none → shootClear s h = true →
    shootStalls s h = false → exec .migrate s = .next (answer (rewait (shootLines s h) l) fn 0 [])) ∧
  (∀ va size pa tier h q, Served s 4 fn l L (.migrate va size pa tier) → (s.fn fn).shoot = some h → h.mig = some q → shootClear s h = true →
    shootStalls s h = false → exec .migrate s = .next (migrateCopy fn h q.1 q.2 (shootLines s h))) ∧
  (∀ i va size h, (i = .unmap ∧ Served s 2 fn l L (.unmap va size)) ∨ (∃ r w x recov, i = .protect ∧ Served s 3 fn l L (.protect va size r w x recov)) ∨
    (∃ pa tier, i = .migrate ∧ Served s 4 fn l L (.migrate va size pa tier)) → (s.fn fn).shoot = some h →
    shootClear s h = false ∨ shootStalls s h = true → exec i s = .next s)

/-- R337, R341, R359, R364, R372, R377, R378, R383: the other commands on a lease.
The form in which FAULTS and ATTEST write, and the first report number, are the model's choices (assumptions 23, 74). -/
def Obligations.LeaseCommands : Prop :=
  ∀ (s : State) (fn l : Nat) (L : Lease),
  (∀ on, Served s 5 fn l L (.debug on) → fn = 0 ∨ (s.fn fn).perms.getLsbD 6 = true →
    exec .debug s = .next (answer (s.modLease l fun L => { L with debug := on }) fn 0 [])) ∧
  (∀ on, Served s 5 fn l L (.debug on) → fn ≠ 0 → (s.fn fn).perms.getLsbD 6 = false → exec .debug s = .next (answer s fn 2 [])) ∧
  (Served s 6 fn l L .dresume → ∃ t, exec .dresume s = .next t ∧ (t.fn fn).done = true ∧
    (∀ n p, s.patch n = some p → p.lease = l → p.st = .debugStop → t.patch n = some { p with st := .running, idle := 0 }) ∧
    ∀ n p, s.patch n = some p → p.lease = l → p.st = .evicted ∨ p.st = .saving → p.was = .debugStop → t.patch n = some { p with was := .running }) ∧
  (∀ va size, Served s 7 fn l L (.profopen va size) → 0 < size → va + size ≤ 2 ^ 48 →
    stripMapped s l va size (fun x e => peW e && match x with | .dev _ r => ! r | _ => false) = true → exec .profopen s =
      .next (answer (s.modLease l fun L => { L with prof := some { va := va, size := size, next := 0, lost := 0 } }) fn 0 [])) ∧
  (Served s 8 fn l L .profclose → exec .profclose s = .next (answer (s.modLease l fun L => { L with prof := none }) fn 0 [])) ∧
  (∀ px py out device rl rx ry rin port, Served s 9 fn l L (.peerbind px py out device rl rx ry rin) → tfind s.sl.routes device = some port →
    peerMoving s l px py = false → peerChannel s l px py out = true → rin < 16 → L.binds.length < 256 → ∃ t N, exec .peerbind s = .next t ∧ t.lease l = some N ∧
      PeerBind.mk px py out device rl rx ry rin port ∈ N.binds ∧ (N.binds.filter fun b => b.px = px && b.py = py && b.out = out).length = 1) ∧
  (∀ px py out, Served s 10 fn l L (.peerunbind px py out) → ∃ t N, exec .peerunbind s = .next t ∧ t.lease l = some N ∧
    ∀ b, b ∈ N.binds ↔ b ∈ L.binds ∧ ¬ (b.px = px ∧ b.py = py ∧ b.out = out)) ∧
  (∀ device rl rg, Served s 34 0 l L (.pair device rl rg) → tfind s.sl.routes device ≠ none →
    exec .pair s = .next (answer (s.modLease l fun L => { L with pair := some (device, rl, BitVec.ofNat 8 rg) }) 0 0 [])) ∧
  (∀ pa, Served s 11 fn l L (.window pa) → pa % 65536 = 0 →
    exec .window s = .next (answer (s.modFn fn fun f => { f with win := some (l, pa) }) fn 0 [])) ∧
  (∀ pa, Served s 11 fn l L (.window pa) → pa % 65536 ≠ 0 → exec .window s = .next (answer s fn 3 [])) ∧
  (∀ va, Served s 12 fn l L (.faults va) → exec .faults s =
    .next (answerAt s fn l va (L.faults.flatMap fun r => natBytes 64 r.toNat) (num 4 L.faultCount.toNat))) ∧
  (∀ o va nonce, Served s 13 fn l L (.report o va nonce) → fn = 0 ∨ (s.fn fn).owner = o →
    outputOk s l va (meterReport s o nonce).length = true → rangeStalls s l va (meterReport s o nonce).length = false →
    ∃ t, exec .report s = .next t ∧ t.trust.reports = s.trust.reports + 1 ∧ (t.fn fn).done = true) ∧
  (∀ va nonce, Served s 14 fn l L (.attest va nonce) → exec .attest s = .next (answerAt s fn l va (attestation s nonce) []))

/-- R82, R301, R351, R372 to R375, R379, R380: the PF's commands. DOMAIN begins interval 1 with interval 0 sealed.
Arguments as fields of the event and LMIGRATE in one step are the model's readings (assumptions 13, 23, 50, 78). -/
def Obligations.PfCommands : Prop :=
  ∀ (s : State),
  (∀ q vf owner prio size posters, serving s 32 = some (0, .qconf q vf owner prio size posters) → q < 1024 → vf ≤ s.numVfs → owner < 256 →
    prio < 8 → ringSizeOk 64 size = true → posters.length ≤ 16 → (∀ l ∈ posters, l < 4096) → 0 < vf → (s.queue q).isOpen = false →
    (∀ p ∈ s.pipe, p.queue ≠ q) → ∃ t, exec .qconf s = .next t ∧ t.queue q = { vf := vf, owner := owner, prio := prio, size := size, posters := posters } ∧
      (t.fn 0).done = true) ∧
  (∀ q vf owner prio size posters, serving s 32 = some (0, .qconf q vf owner prio size posters) → q < 1024 → vf ≤ s.numVfs → owner < 256 →
    prio < 8 → ringSizeOk 64 size = true → posters.length ≤ 16 → (∀ l ∈ posters, l < 4096) → (s.queue q).isOpen = true →
    (s.queue q).vf = vf → (s.queue q).size = size →
    exec .qconf s = .next (answer (s.modQueue q fun w => { w with owner := owner, prio := prio, posters := posters }) 0 0 [])) ∧
  (∀ q owner prio size posters, serving s 32 = some (0, .qconf q 0 owner prio size posters) → q < 1024 → owner < 256 →
    prio < 8 → ringSizeOk 64 size = true → posters.length ≤ 16 → (∀ l ∈ posters, l < 4096) → (s.queue q).isOpen = true →
    ∃ t, exec .qconf s = .next t ∧ (t.queue q).isOpen = false ∧ (t.queue q).ring = [] ∧ (t.fn 0).done = true ∧
      ∀ p ∈ t.pipe, p.queue = q → p.stage = .complete) ∧
  (serving s 33 = some (0, .vfconf) → cmdByte s 0 4 ≠ 0 → cmdByte s 0 4 ≤ s.numVfs →
    cmdByte s 0 6 + 256 * cmdByte s 0 7 ≤ 3048 → s.leases = [] →
    cmdByte s 0 8 + 256 * cmdByte s 0 9 + othersHold s (cmdByte s 0 4) (·.chans) ≤ 1520 →
    cmdByte s 0 10 + 256 * cmdByte s 0 11 + othersHold s (cmdByte s 0 4) (·.exts) ≤ 11648 →
    (∀ k < 18, cmdByte s 0 (24 + k) + othersHold s (cmdByte s 0 4) (fun f => f.peer.getD k 0) ≤ 64) →
    ∃ t, exec .vfconf s = .next t ∧ (t.fn (cmdByte s 0 4)).configured = true ∧ (t.fn (cmdByte s 0 4)).owner = cmdByte s 0 5 ∧
      (t.fn (cmdByte s 0 4)).cores = cmdByte s 0 6 + 256 * cmdByte s 0 7 ∧ (t.fn (cmdByte s 0 4)).chans = cmdByte s 0 8 + 256 * cmdByte s 0 9) ∧
  (serving s 38 = some (0, .owner) → cmdByte s 0 5 ≠ 0 → cmdByte s 0 6 % 2 = 0 → exec .owner s =
    .next (answer (s.modOwner (cmdByte s 0 4) fun w => { w with weight := cmdByte s 0 5 }) 0 0 [])) ∧
  (serving s 38 = some (0, .owner) → cmdByte s 0 5 = 0 → exec .owner s = .next (answer s 0 3 [])) ∧
  (∀ w, serving s 39 = some (0, .pwrcap) → w = cmdByte s 0 4 + 256 * cmdByte s 0 5 → w = 0 ∨ 1200 ≤ w ∧ w ≤ 2600 →
    bitsOf (s.fn 0).served 48 464 = 0 → exec .pwrcap s = .next (answer { s with pwrCap := w } 0 0 [])) ∧
  (∀ ident c device members routes, serving s 36 = some (0, .domain ident c device members routes) → s.sl.formed = false → ident < 65536 →
    members.length ≤ 4096 → (∀ m ∈ members, m < 4096) → device ∈ members → c ∈ members → (∀ r ∈ routes, r.1 < 4096 ∧ r.2 < 18) →
    ∃ t, exec .domain s = .next t ∧ t.sl.formed = true ∧ t.sl.cur = 1 ∧ t.sl.s = 0 ∧ t.sl.device = device ∧ t.sl.coordinator = c ∧
      t.sl.members = members ∧ (t.fn 0).done = true) ∧
  (∀ d, serving s 37 = some (0, .dremove d) → s.sl.formed = true → s.sl.device = s.sl.coordinator → d ≠ s.sl.device → d ∈ s.sl.members →
    ∃ t, exec .dremove s = .next t ∧ d ∉ t.sl.members ∧ t.sl.rolling = some s.sl.s ∧ (dueMsg t 6).isSome = true ∧
      ∀ l L, t.lease l = some L → ∀ b ∈ L.binds, b.device ≠ d) ∧
  (∀ l L device nl ng, Served s 35 0 l L (.lmigrate device nl ng) → tfind s.sl.routes device ≠ none → s.sl.rolling = none → L.loans = [] →
    (∀ e ∈ s.patches, e.2.lease ≠ l) → (∀ e ∈ s.escapes, e.lease ≠ some l) → storeRoom s [] = true →
    ∃ t N, exec .lmigrate s = .next t ∧ (t.fn 0).done = true ∧ t.lease l = some N ∧ N.st = .rinsing ∧ N.want = none ∧
      (∀ p ∈ t.pipe, p.lease ≠ l) ∧ (∀ u ∈ t.undo, u.lease ≠ l) ∧ (∀ w ∈ t.waiters, w.lease ≠ l) ∧
      ∀ q, L.pair = some q → ∃ f ∈ t.forwards, f.lease = l ∧ f.device = device ∧ f.newLease = nl ∧ f.newGen = ng)

/-! ### The seal protocol, rollback, errors -/

/-- R309, R311, R312, R316: what each message of the protocol does at a device, the message `m` waiting there, the device's state `g` with it.
ADVANCE begins the next interval; the last READY brings SEALED, which releases. A message of another domain or type is discarded and counted.
That a message waits until it can be acted on is the model's reading (assumptions 67, 68, 88). -/
def Obligations.SealProtocol : Prop :=
  ∀ (s g : State) (m : SealMsg),
  (s.timerIn = none → s.sl.formed = true → s.sl.device = s.sl.coordinator → s.sl.sealing = none → s.sl.rolling = none → dueMsg s 1 = none →
    s.sl.lastAdvance + s.sl.timer ≤ s.time → exec .intervalTimer s =
      .next (broadcast { s with sl := { s.sl with requested := false, lastAdvance := s.time } } 1 (s.sl.cur + 1))) ∧
  (s.timerIn = none → s.sl.formed = true → s.sl.device = s.sl.coordinator → s.sl.sealing = none → s.sl.rolling = none → dueMsg s 1 = none →
    s.sl.requested = true → s.sl.lastAdvance + 250000 ≤ s.time → exec .intervalTimer s =
      .next (broadcast { s with sl := { s.sl with requested := false, lastAdvance := s.time } } 1 (s.sl.cur + 1))) ∧
  (∀ n, s.timerIn = some n → ∃ t, exec .intervalTimer s = .next t ∧ t.timerIn = none ∧
    t.sl.timer = if 250000 ≤ n ∧ n ≤ 100000000 then n else s.sl.timer) ∧
  (gotMsg s 4 = g → dueMsg g 4 = some m → g.sl.device = g.sl.coordinator → ∃ t, exec .sealRequest s = .next t ∧ t.sl.requested = true) ∧
  (gotMsg s 1 = g → dueMsg g 1 = some m → g.sl.rolling = none → rinGt m.rin g.sl.cur = true → g.sl.sealing = none →
    (∀ e ∈ toFreeze g, placerBusy g (eventKey .advance) e.2.lease = false ∧ placerStops g e.1 e.2 = true) →
    ∃ t, exec .advance s = .next t ∧ t = (toFreeze g).foldl (fun s e => endStop s e.1) (beginInterval (takeDue g 1) g.sl.cur m.rin) ∧
      t.sl.cur = m.rin ∧ t.sl.sealing = some g.sl.cur ∧ t.sl.readySent = false ∧ ∀ p < 18, (tgetD t.ports p {}).sent = g.sl.cur) ∧
  (gotMsg s 1 = g → dueMsg g 1 = some m → g.sl.rolling ≠ none → m.rin = g.sl.cur →
    ∃ t, exec .advance s = .next t ∧ t.sl.rolling = none ∧
      ∀ n p, g.patch n = some p → p.st = .saving → t.patch n = some { p with st := p.was, idle := 0 }) ∧
  (∀ p n, (tgetD s.ports p {}).down = false → ∃ t, exec (.sealMark p n) s = .next t ∧
    (tgetD t.ports p {}).marked = laterRin n (tgetD s.ports p {}).marked) ∧
  (gotMsg s 2 = g → dueMsg g 2 = some m → g.sl.device = g.sl.coordinator → g.sl.rolling = none → g.sl.sealing = some m.rin →
    (∀ d ∈ g.sl.members, d = m.device.toNat ∨ d ∈ g.sl.readyFrom) → ∃ t, exec .ready s = .next t ∧ (dueMsg t 3).isSome = true) ∧
  (∀ n, gotMsg s 2 = g → dueMsg g 2 = none → g.sl.sealing = some n → g.sl.rolling = none → mayReady g n = true → exec .ready s =
    .next (toCoordinator { drainForReady g n with sl := { (drainForReady g n).sl with readySent := true } } 2 false n)) ∧
  (gotMsg s 3 = g → dueMsg g 3 = some m → g.sl.sealing = some m.rin → exec .sealed s = .next (releaseSealed (takeDue g 3) m.rin)) ∧
  (gotMsg s 3 = g → dueMsg g 3 = some m → g.sl.sealing ≠ some m.rin → exec .sealed s = .next (takeDue g 3)) ∧
  (∀ n, s.sl.sealing = some n → s.sl.openSince + 100000000 ≤ s.time → ∃ t, exec .sealLate s = .next t ∧ t.sl.openSince = s.time ∧
    t.sl.sealing = some n) ∧
  (∀ ty, s.msgIn = some m → m.ty.toNat ≠ ty ∨ m.domain ≠ s.sl.domain ∨ s.sl.formed = false →
    gotMsg s ty = { s with msgIn := none, sl := { s.sl with bad := s.sl.bad + 1 } })

/-- R326: POISON at the coordinator brings ROLLBACK of its last sealed interval; a rollback empties every pool and goes back to what is
sealed; ROLLED of the last device lets the leases resume. A poisoned line, row or page-table line is remembered, and a walk that reads the
last ends in poison (R229). How the domain goes on, and what a rollback does not set back, are the model's readings (assumptions 22, 66). -/
def Obligations.RollbackProtocol : Prop :=
  ∀ (s g : State) (m : SealMsg),
  (gotMsg s 5 = g → dueMsg g 5 = some m → g.sl.device = g.sl.coordinator → g.sl.rolling = none → rinGt m.rin g.sl.s = true →
    rinGt g.sl.base m.rin = false → dueMsg g 3 = none →
    ∃ t, exec .poison s = .next t ∧ t.sl.rolling = some g.sl.s ∧ (dueMsg t 6).isSome = true) ∧
  (gotMsg s 6 = g → dueMsg g 6 = some m → g.sl.sealing ≠ some m.rin → exec .rollback s = .next (rollbackTo (takeDue g 6) m.rin)) ∧
  (gotMsg s 6 = g → dueMsg g 6 = some m → g.sl.sealing = some m.rin →
    exec .rollback s = .next (rollbackTo (releaseSealed (takeDue g 6) m.rin) m.rin)) ∧
  (gotMsg s 7 = g → dueMsg g 7 = some m → g.sl.device = g.sl.coordinator → g.sl.rolling = some m.rin →
    (∀ d ∈ g.sl.members, d = m.device.toNat ∨ d ∈ g.sl.rolledFrom) → ∃ t, exec .rolled s = .next t ∧ t.sl.rolling = none) ∧
  (∀ pa, ∃ t, exec (.uncorrectableError (.line pa)) s = .next t ∧ t.poison.contains (pa / 64) = true ∧ SameMemory s t) ∧
  (∀ cid row, ∃ t, exec (.uncorrectableError (.row cid row)) s = .next t ∧ (t.core cid).poisonRows.contains row = true ∧ SameMemory s t) ∧
  (∀ l level line (L : Lease), s.lease l = some L → ∃ t N, exec (.uncorrectableError (.table l level line)) s = .next t ∧ t.lease l = some N ∧
    N.ptBad.contains (level, line) = true ∧ SameMemory s t ∧ ∀ cid va, tlbLookup t cid l N va = none →
      (level = 1 ∧ line = va / 2 ^ 38 / 8 ∨ level = 2 ∧ line = va / 2 ^ 29 / 8) → translate t cid l va = .poisoned) ∧
  (∀ line, tgetD s.lineTags line 0 ≠ 0 → 32768 ≤ tagAge s.sl.cur (tgetD s.lineTags line 0) →
    exec (.patrolSweep line) s = .next { s with lineTags := terase s.lineTags line })

/-- R303 to R305, R326: the first write of an interval to a line of a recoverable page logs the line; replaying that entry gives back the
memory, the tag and the poison that the line had.
Entries as one list, newest first, are the model's (assumption 69). -/
def Obligations.UndoRestores : Prop :=
  ∀ (s : State) (pa : Nat) (bs : List Byte) (r : Rin), s.mem.wf = true → pa % 64 + bs.length ≤ 64 → needsUndo s pa true r = true →
  ∃ u, (devWrite s pa bs true r).undo = u :: s.undo ∧ u.rin = r ∧ u.bad = false ∧ (devWrite s pa bs true r).lineTag pa = tagOf r ∧
    (∀ a, (replayUndo (devWrite s pa bs true r) u).mem.get a = s.mem.get a) ∧ (replayUndo (devWrite s pa bs true r) u).lineTag pa = s.lineTag pa ∧
    ((replayUndo (devWrite s pa bs true r) u).poison.contains (pa / 64) = s.poison.contains (pa / 64))

/-! ### Flits on their way -/

/-- R160 to R162, R164 to R166, R302, R377: the head of an out-channel leaves as its route leads; a router element sends one flit for each
step and takes the heads it used. A flit of another device is forwarded, one of an unpaired lease dropped, one that is taken joins its
in-channel.
The corners of the router elements and of peers are the model's readings (assumptions 39, 70). -/
def Obligations.FlitsMove : Prop :=
  ∀ (s : State) (cid : Nat),
  (∀ out f r u, sends s cid = true → (s.core cid).outBound out = true → cutClosed s cid out = false → ((s.core cid).outCh out).buf = f :: r →
    sendRoute s cid out ((s.core cid).route out) f = some u → exec (.flitArrival cid out) s =
      .next (u.modCore cid fun c => drainPinned c.pinst.length (c.modOut out fun o => { o with buf := o.buf.tail, fullSince := none }))) ∧
  (∀ out f r d, sends s cid = true → (s.core cid).outBound out = true → cutClosed s cid out = false → ((s.core cid).outCh out).buf = f :: r →
    f.kind.toNat < 13 → routeKind ((s.core cid).route out) = 1 → pathEnd s cid ((s.core cid).route out) = .core d →
    arrivalAt s d (natBits ((s.core cid).route out) 10 4) f = .take → ∃ t b, exec (.flitArrival cid out) s = .next t ∧ b.2 = f ∧
      ((t.core d).inCh (natBits ((s.core cid).route out) 10 4)).buf = ((s.core d).inCh (natBits ((s.core cid).route out) 10 4)).buf ++ [b]) ∧
  (∀ out, cutClosed s cid out = true → exec (.flitArrival cid out) s = .next s) ∧
  (∀ out, ((s.core cid).outCh out).buf = [] → exec (.flitArrival cid out) s = .next s) ∧
  (∀ out f r, ((s.core cid).outCh out).buf = f :: r → sendRoute s cid out ((s.core cid).route out) f = none →
    exec (.flitArrival cid out) s = .next s) ∧
  (∀ e f g u, elemActs s cid e 1 = true → (s.core cid).headFlit ((s.core cid).elemIn0 e) = some f → (f.kind = 0 ∨ f.kind = 12) →
    (s.core cid).headFlit ((s.core cid).elemIn1 e) = some g → g.kind = 10 → elemSend s cid e (g.value.toNat % 2) f = some u →
    exec (.steer cid e) s = .next (elemApply s cid (.go (u.modCore cid fun c => c.consume [(s.core cid).elemIn0 e, (s.core cid).elemIn1 e].eraseDups)))) ∧
  (∀ e f g ch u, elemActs s cid e 2 = true → (s.core cid).headFlit ((s.core cid).elemIn1 e) = some g → g.kind = 10 →
    ch = (if g.value.toNat % 2 = 0 then (s.core cid).elemIn0 e else (s.core cid).elemIn2 e) → (s.core cid).headFlit ch = some f →
    (f.kind = 0 ∨ f.kind = 12) → elemSend s cid e 0 f = some u →
    exec (.merge cid e) s = .next (elemApply s cid (.go (u.modCore cid fun c => c.consume [ch, (s.core cid).elemIn1 e].eraseDups)))) ∧
  (∀ e f u, elemActs s cid e 3 = true → ((s.core cid).elem e).outq = [] → ((s.core cid).elem e).phase = 1 →
    (s.core cid).headFlit ((s.core cid).elemIn0 e) = some f → (f.kind = 0 ∨ f.kind = 12) → elemSend s cid e 0 f = some u →
    exec (.carry cid e) s = .next (elemApply s cid (.go (u.modCore cid fun c => c.consume [(s.core cid).elemIn0 e].eraseDups)))) ∧
  (∀ e f r u, elemActs s cid e 4 = true → ((s.core cid).elem e).outq = f :: r → elemSend s cid e 0 f = some u →
    exec (.reorder cid e) s = .next (elemApply s cid (.go (u.modCore cid fun c => c.modElem e fun x => { x with outq := x.outq.tail })))) ∧
  (∀ port f, (tgetD s.ports port {}).down = false → f.destDevice ≠ s.sl.device → reservedKind f = false →
    exec (.peerFlitArrival port f) s = .next { s with peerOut := s.peerOut ++ [f] }) ∧
  (∀ port f, (tgetD s.ports port {}).down = false → f.destDevice = s.sl.device → f.msg = .flit →
    (tgetD s.ports port {}).held.any (sameChannel f) = false → paired s f = none →
    (s.forwards.find? fun w => w.lease = f.destLease && w.gen.toNat = f.destGen && w.far = f.srcDevice) = none →
    exec (.peerFlitArrival port f) s = .next { s with peerOut := s.peerOut ++ [backTo s f .dropped] }) ∧
  (∀ port f, (tgetD s.ports port {}).down = false → f.destDevice = s.sl.device → f.msg = .flit →
    (tgetD s.ports port {}).held.any (sameChannel f) = true →
    ∃ t, exec (.peerFlitArrival port f) s = .next t ∧ (tgetD t.ports port {}).held = (tgetD s.ports port {}).held ++ [f]) ∧
  (∀ port f L, (tgetD s.ports port {}).down = false → f.destDevice = s.sl.device → f.msg = .flit →
    (tgetD s.ports port {}).held.any (sameChannel f) = false → paired s f = some L → discarded s f.rin = false →
    s.sl.rolling = none → reservedKind f = false → coreXY s ((L.x + f.px) % 64) ((L.y + f.py) % 64) = cid →
    ((s.core cid).patch.bind s.patch).any (·.stop.isSome) = false → arrivalAt s cid f.chan { kind := f.kind, value := f.value, rin := f.rin } = .take →
    ∃ t b, exec (.peerFlitArrival port f) s = .next t ∧ ((t.core cid).inCh f.chan).buf = ((s.core cid).inCh f.chan).buf ++ [b] ∧
      b.2 = { kind := f.kind, value := f.value, rin := f.rin })

/-- R111, R168 to R170: gathered drops are reported at most once a millisecond; a channel stuck for 4,096 cycles spills where the kernel
allows it, and its records return in order; a stall is raised as STALL_REPORT.
The record a flit takes and the core an idle patch names are the model's readings (assumptions 36, 37). -/
def Obligations.StuckChannels : Prop :=
  ∀ (s : State) (cid pt : Nat) (p : Patch) (out : Nat),
  (∀ d, ((s.core cid).outCh out).drops = some d → 0 < d.count → d.last + 1000000 ≤ s.time →
    exec (.misrouteReportTimer cid out) s = .next (reportMisroute s cid out)) ∧
  (∀ d, ((s.core cid).outCh out).drops = some d → s.time < d.last + 1000000 → exec (.misrouteReportTimer cid out) s = .next s) ∧
  (RunsOn s cid pt p → ((s.core cid).outCh out).spill = none → hSpill p.hdr = true → 4096 ≤ p.idle → (stuckOuts s cid).contains out = true →
    exec (.spillStart cid out) s = .next (s.modCore cid fun c => drainPinned c.pinst.length (c.modOut out fun o =>
      { o with buf := [], fullSince := none, spill := some { recs := [], wait := o.buf } }))) ∧
  (∀ sp, RunsOn s cid pt p → ((s.core cid).outCh out).spill = some sp → sp.wait ≠ [] → (s.core cid).asked (.spill out) = false →
    exec (.spillStart cid out) s = .next (pushLate s cid p.lease (.spill out) [])) ∧
  (∀ u sp r rs f fs n pa pb ra rb e e', u = admitLate s cid → (u.core cid).gen = r :: rs → r.stands u cid = true → (u.core cid).patch = some pt →
    u.patch pt = some p → r.kind = .spill out → ((u.core cid).outCh out).spill = some sp → sp.wait = f :: fs →
    nextRecord u r.lease sp.recs = some n → translate u cid r.lease (spillVa n) = .ok (.dev pa ra) e → peW e = true →
    translate u cid r.lease (spillVa n + 64) = .ok (.dev pb rb) e' →
    overLease (nodeWrite (nodeWrite u (.dev pa ra) (spillLines f).1 (u.core cid).rin) (.dev pb rb) (spillLines f).2 (u.core cid).rin) = none →
    ∃ t, exec (.genReply cid) s = .next t ∧ ((t.core cid).outCh out).spill = some { recs := sp.recs ++ [(n, f.rin)], wait := fs } ∧
      t.mem = (u.mem.write pa (spillLines f).1).write pb (spillLines f).2) ∧
  (∀ sp, RunsOn s cid pt p → ((s.core cid).outCh out).spill = some sp → sp.recs ≠ [] →
    ((s.core cid).outCh out).buf.length < (s.core cid).outDepth out → (s.core cid).asked (.unspill out) = false →
    exec (.spillReturn cid out) s = .next (pushLate s cid p.lease (.unspill out) [])) ∧
  (∀ u sp q qs n r rest a b ea eb, u = admitLate s cid → (u.core cid).gen = q :: qs → q.stands u cid = true → (u.core cid).patch = some pt →
    u.patch pt = some p → q.kind = .unspill out → ((u.core cid).outCh out).spill = some sp → sp.recs = (n, r) :: rest →
    translate u cid q.lease (spillVa n) = .ok a ea → translate u cid q.lease (spillVa n + 64) = .ok b eb →
    readBad u q.lease a = false → readBad u q.lease b = false → bytesNat (nodeRead u q.lease b 1) % 16 < 13 →
    ∃ t f, exec (.genReply cid) s = .next t ∧ ((t.core cid).outCh out).buf = ((u.core cid).outCh out).buf ++ [f] ∧
      f.value = bytesValue (nodeRead u q.lease a 64) ∧ f.kind = BitVec.ofNat 4 (bytesNat (nodeRead u q.lease b 1)) ∧ f.rin = r ∧ SameMemory s t) ∧
  (∀ ch, s.patch pt = some p → p.st = .running → stallAt s pt p = some (cid, ch) →
    exec (.stallReport pt) s = .next (raiseCore s cid none 0 0 { cause := 0x13, chan := ch })) ∧
  (s.patch pt = some p → p.st = .running → stallAt s pt p = none → exec (.stallReport pt) s = .next s)

/-! ### Memory ports, copies, mangles, contexts -/

/-- R229, R233, R237, R239: a walk fills the core's TLB with the leaf; the oldest request of a GEN port is answered, a stale one dropped and
counted; a copy performs an element a step, and after its last element completes.
One element a step, and the fate of later replies of a failed request, are the model's (assumptions 20, 44). -/
def Obligations.MemoryPorts : Prop :=
  ∀ (s : State) (cid pt : Nat) (p : Patch),
  (∀ va L big e, (s.core cid).patch = some pt → s.lease (coreLease s cid) = some L → tlbHit (s.core cid).tlb (coreLease s cid) L.gen va.toNat = none →
    lookup s cid (coreLease s cid) va.toNat = some (big, e) → peMig e = false → walkBad L va.toNat = false →
    ∃ t x, exec (.tlbWalk cid va) s = .next t ∧ x ∈ (t.core cid).tlb ∧
      x.lease = coreLease s cid ∧ x.gen = L.gen ∧ x.page = va.toNat / (if big then 2 ^ 29 else 2 ^ 16) ∧ x.entry = e ∧ SameMemory s t) ∧
  (∀ u r rs, u = admitLate s cid → (u.core cid).gen = r :: rs → r.stands u cid = false →
    exec (.genReply cid) s = .next (noteStale (popGen u cid) cid r.lease r.gen)) ∧
  (∀ u v r rs, u = admitLate s cid → (u.core cid).gen = r :: rs → r.stands u cid = true → (u.core cid).patch = some pt → u.patch pt = some p →
    r.kind = .load → v = replyLoad u cid r →
    exec (.genReply cid) s = .next (if (v.core cid).gen.length ≤ rs.length then markFiring v pt else v)) ∧
  (∀ u v r rs, u = admitLate s cid → (u.core cid).gen = r :: rs → r.stands u cid = true → (u.core cid).patch = some pt → u.patch pt = some p →
    r.kind = .store → v = replyStore u cid p r →
    exec (.genReply cid) s = .next (if (v.core cid).gen.length ≤ rs.length then markFiring v pt else v)) ∧
  (∀ u r rs f, u = admitLate s cid → (u.core cid).gen = r :: rs → r.stands u cid = true → RunsOn u cid pt p → r.kind = .relatch f →
    relatchMay (u.core cid) = true →
    exec (.genReply cid) s = .next (markFiring ((popGen u cid).modCore cid fun c => c.boundOuts.foldl (fun c j => c.emit j f) c.clearLatches) pt)) ∧
  ((s.core cid).gen = [] → (s.core cid).late = [] → exec (.genReply cid) s = .next (admitLate s cid)) ∧
  (∀ cl q e es u, copyQ s cl q = e :: es → copyCurrent s e = true → copyElem s cl e = .ok u → copyCount e.packet ≤ e.next + 1 →
    exec (.copyWalk cl q) s = .next (endCopy u cl q none e)) ∧
  (∀ cl q e es u, copyQ s cl q = e :: es → copyCurrent s e = true → copyElem s cl e = .ok u → e.next + 1 < copyCount e.packet →
    exec (.copyWalk cl q) s = .next (u.modCluster cl fun c =>
      { c with queues := tmod c.queues q [] (·.map fun x => if x.id = e.id then { x with next := e.next + 1, stalled := false } else x) })) ∧
  (∀ cl q e es c b a, copyQ s cl q = e :: es → copyCurrent s e = true → copyElem s cl e = .bad c b a →
    exec (.copyWalk cl q) s = .next ((e :: es).foldl (fun s x => endCopy s cl q (some c) x) (raiseWalk s e c b a))) ∧
  (∀ cl q e es, copyQ s cl q = e :: es → copyCurrent s e = false → exec (.copyWalk cl q) s = .next (endCopy s cl q none e))

/-- R244, R245, R271 to R274: a run starts when none before it holds it back; a tile performs; a swap at the head of the queue exchanges the
planes; a fence behind no run goes and closes every carry; a load fills the shadow plane alone.
A tile is one step (assumptions 20, 24). -/
def Obligations.MangleEngine : Prop :=
  ∀ (s : State) (cid pt : Nat) (p : Patch) (q : MEnt),
  (RunsOn s cid pt p → (s.core cid).pleat.phase = 0 → (s.core cid).mangle.queue.find? (s.core cid).mangle.mayStart = some q →
    exec (.mangleRunStart cid) s = .next (s.modCore cid fun c => c.modEnt q.id fun q => { q with started := true })) ∧
  (∀ n bad sh d rs c, (s.core cid).patch = some pt → s.patch pt = some p → (s.core cid).mangle.queue[n]? = some q → q.started = true →
    (s.core cid).holdT = false → q.op = .run sh d → (s.core cid).mangle.tileHeld q = false → mdSrck d.toNat = false →
    rowsFromS (s.core cid) sh d.toNat q.tile = .rows c rs →
    exec (.mangleTile cid n bad) s = .next (markFiring (doTile s cid p c q sh d.toNat rs bad) pt)) ∧
  (∀ n bad sh d rs c, (s.core cid).patch = some pt → s.patch pt = some p → (s.core cid).mangle.queue[n]? = some q → q.started = true →
    (s.core cid).holdT = false → q.op = .run sh d → (s.core cid).mangle.tileHeld q = false → mdSrck d.toNat = true →
    (s.core cid).recvDue (mdIn d.toNat) = false → rowsFromChan (s.core cid) q sh (mdIn d.toNat) = .rows c rs →
    exec (.mangleTile cid n bad) s = .next (markFiring (doTile s cid p c q sh d.toNat rs bad) pt)) ∧
  (∀ n bad d, (s.core cid).patch = some pt → s.patch pt = some p → (s.core cid).mangle.queue[n]? = some q → q.started = true →
    (s.core cid).holdT = false → q.op = .zero d →
    exec (.mangleTile cid n bad) s = .next (markFiring (s.setCore cid (doZero (s.core cid) q d.toNat)) pt)) ∧
  (∀ r, (s.core cid).mangle.queue = q :: r → q.op = .swap → ∃ t, exec (.mangleSwapEffect cid) s = .next t ∧
    (t.core cid).mangle.active = (s.core cid).mangle.shadow ∧ (t.core cid).mangle.shadow = (s.core cid).mangle.active ∧
    (t.core cid).mangle.queue = r ∧ (t.core cid).pool = (s.core cid).pool ∧ SameMemory s t) ∧
  ((s.core cid).mangle.queue.find? (fun q => q.op = .fence && ((s.core cid).mangle.before q.id).all fun p => ! p.op.works) = some q →
    ∃ t, exec (.mangleFenceEffect cid) s = .next t ∧ (t.core cid).mangle.queue = (s.core cid).mangle.queue.filter (·.id != q.id) ∧
      (t.core cid).pool = (s.core cid).pool ∧ SameMemory s t) ∧
  (∀ r fmt src locs, (s.core cid).patch = some pt → (s.core cid).mangle.queue = q :: r → q.op = .load fmt src locs → src.getLsbD 63 = false →
    (s.core cid).holdS = false → (s.core cid).rolePoisoned .s (natBits src.toNat 0 48) (2048 + scaleBytes fmt.toNat (src.getLsbD 62)) = false →
    ∃ t, exec (.mloadFill cid) s = .next t ∧ (t.core cid).mangle.active = (s.core cid).mangle.active ∧ (t.core cid).mangle.shadow =
      planeOf fmt ((s.core cid).readRole .s (natBits src.toNat 0 48) (2048 + scaleBytes fmt.toNat (src.getLsbD 62))) ∧ SameMemory s t)

/-- R129, R140, R142, R143, R147, R355: the region sequencer and the pleat handshake. A request enters the sequencer's queue; with every core
of the patch locally done the next context is entered after a release and an acquire by every core, or the kernel retires. A handshake goes
on to its next step that has something to do, and after the last its word is in effect.
The bank in which a line of C lies, on which step 1 rests, is the model's free value (assumption 100). -/
def Obligations.RegionSteps : Prop :=
  ∀ (s : State) (cid pt : Nat) (p : Patch),
  (∀ out f r, RunsOn s cid pt p → (s.core cid).outBound out = true → routeKind ((s.core cid).route out) = 3 →
    ((s.core cid).outCh out).buf = f :: r → f.kind = 10 → bitsOf f.value 0 3 < hNctx p.hdr → p.reqs.length < 64 →
    exec (.contextRequest cid out) s = .next (latchCtx ((s.modCore cid fun c => c.modOut out fun o => { o with buf := r }).modPatch pt fun p =>
      { p with reqs := p.reqs ++ [(bitsOf f.value 0 3, (s.core cid).px, (s.core cid).py)] }) pt)) ∧
  (∀ out f r, RunsOn s cid pt p → (s.core cid).outBound out = true → routeKind ((s.core cid).route out) = 3 →
    ((s.core cid).outCh out).buf = f :: r → f.kind = 10 → bitsOf f.value 0 3 < hNctx p.hdr → 64 ≤ p.reqs.length →
    exec (.contextRequest cid out) s = .next s) ∧
  (s.patch pt = some p → p.st = .running → p.held = false → patchCores s pt ≠ [] →
    (∀ c ∈ patchCores s pt, localDone s c = true ∧ drainStalls s c = false) →
    p.reqs = [] → exec (.contextTransition pt) s = .next (retire s pt p)) ∧
  (∀ n rest, s.patch pt = some p → p.st = .running → p.held = false → patchCores s pt ≠ [] →
    (∀ c ∈ patchCores s pt, localDone s c = true ∧ drainStalls s c = false) → chooseCtx (patchOcc s pt) p = some (n, rest) →
    ∃ t q, exec (.contextTransition pt) s = .next t ∧ t = enterNext ((tracePatch (forCores s pt fun s c =>
      advanceGen (drainC s c) c) pt 3 n).modPatch pt fun p => { p with reqs := rest, latched := none }) pt (ctxBase p + n) ∧
      t.patch pt = some q ∧ q.ctx = ctxBase p + n ∧ q.reqs = rest ∧ q.latched = none) ∧
  ((s.core cid).pleat.phase = 6 → ∃ t, exec (.pleatHandshakeStep cid) s = .next t ∧ (t.core cid).pleat.phase = 0 ∧
    (t.core cid).pleat.word = (s.core cid).pleat.req ∧ (t.core cid).pleat.owner = none ∧ SameMemory s t) ∧
  (∀ n, 3 ≤ (s.core cid).pleat.phase → (s.core cid).pleat.phase ≤ 5 → (s.core cid).movesPoison = false →
    nextStep (s.core cid).pleat (s.core cid).pleat.req (s.core cid).pleat.phase = n → n = 4 → (s.core cid).mangle.busy = false →
    ∃ t, exec (.pleatHandshakeStep cid) s = .next t ∧ (t.core cid).pleat.phase = n ∧ (t.core cid).pool = (s.core cid).pool) ∧
  (∀ n, 3 ≤ (s.core cid).pleat.phase → (s.core cid).pleat.phase ≤ 5 → (s.core cid).movesPoison = false →
    nextStep (s.core cid).pleat (s.core cid).pleat.req (s.core cid).pleat.phase = n → n ≠ 4 →
    ∃ t, exec (.pleatHandshakeStep cid) s = .next t ∧ (t.core cid).pleat.phase = n ∧
      (if n = 0 then (t.core cid).pleat.word = (s.core cid).pleat.req else (t.core cid).pool = (s.core cid).pool)) ∧
  (∀ n, (s.core cid).pleat.phase = 2 → reindexStalls s cid = false →
    nextStep (s.core cid).pleat (s.core cid).pleat.req 2 = n → n ≠ 4 ∨ (s.core cid).mangle.busy = false →
    ∃ t, exec (.pleatHandshakeStep cid) s = .next t ∧ (t.core cid).pleat.phase = n ∧
      ∀ x ∈ (t.core cid).cache, ∀ y ∈ cMoved (s.core cid) (s.core cid).pleat.req, x.line ≠ y.line) ∧
  ((s.core cid).windowDone = true → ∀ k w, k < (s.core cid).nTasks → tgetD (s.core cid).winFill k (0, 0) = w →
    ∃ t, exec (.weightRecompute cid) s = .next t ∧
      ((t.core cid).task k).eff = min 15 (((s.core cid).task k).weight + 4 * w.1 / (fillUnit * max 1 w.2)) ∧ (t.core cid).winFill = []) ∧
  ((s.core cid).windowDone = false → ∃ t, exec (.weightRecompute cid) s = .next t ∧ ∀ k, (t.core cid).task k = (s.core cid).task k)

/-! ### Tasks, blocks, faults -/

/-- R145, R147, R149, R155, R195, R347: starting tasks, fetching blocks, granting issue. A FREE slot with a flit waiting starts at its entry with
its frame's task state; a live task fetches at its pc; a block that is refused at decode raises the cause of its refusal; a discrepancy found
at an aligned MARKER is RATE_IMBALANCE.
What a check finds is an argument of the event, and which slot of a task is granted the input's choice (assumptions 42, 93). -/
def Obligations.TaskSteps : Prop :=
  ∀ (s : State) (cid pt k : Nat) (p : Patch), RunsOn s cid pt p →
  ((s.core cid).inTasks = true → k < (s.core cid).nTasks → ((s.core cid).task k).st = .free → ((s.core cid).task k).resv = none →
    ((List.range 16).any fun j => (s.core cid).inBound j && (s.core cid).inTask j = k && recvReady (s.core cid) j) = true →
    p.stop = none → (s.core cid).holdG = false → ∃ t, exec (.taskStart cid k) s = .next t ∧ ((t.core cid).task k).st = .live ∧
      ((t.core cid).task k).pc = BitVec.ofNat 48 ((s.core cid).entryOf k) ∧ ((t.core cid).task k).rstate = p.seed ^^^ BitVec.ofNat 64 k ∧
      ((t.core cid).task k).inst = none ∧ SameMemory s t) ∧
  (∀ q, p.stop = none → ((s.core cid).task k).spawns.find? (fun q => spawnCheck s pt p q.2.2.1 q.2.2.2.1 != .wait) = some q →
    exec (.tspawnRequest cid k) s = .next (answerSpawn s cid k pt p q)) ∧
  (∀ a b u, u = selectTask (selectTask (barrierWave s cid) cid true a) cid false b →
    exec (.issueGrant cid a b) s = .next { u with grants := u.grants ++ pinnedGrants u cid }) ∧
  (∀ a more, p.stop = none → ((s.core cid).task k).st = .live → ((s.core cid).task k).inst = none → ((s.core cid).task k).sealWait = false →
    (s.core cid).holdG = false → (∀ e ∈ s.escapes, e.id ∉ ((s.core cid).task k).escDue) → ((s.core cid).task k).async = a :: more →
    exec (.blockFetch cid k) s = .next (raiseTask (s.modCore cid fun c => c.modTask k fun t => { t with async := more }) cid k
      ((s.core cid).task k).pc.toNat a.raised)) ∧
  (∀ u ws, p.stop = none → ((s.core cid).task k).st = .live → ((s.core cid).task k).inst = none → ((s.core cid).task k).sealWait = false →
    (s.core cid).holdG = false → (∀ e ∈ s.escapes, e.id ∉ ((s.core cid).task k).escDue) → ((s.core cid).task k).async = [] →
    breakAt ((s.core cid).task k) = none → readBlock cid p.lease ((s.core cid).task k).pc.toNat s = .ok u ws →
    blockErr (s.core cid).frame ws = none → exec (.blockFetch cid k) s = .next (startBlock u cid k ws)) ∧
  (∀ u ws e, p.stop = none → ((s.core cid).task k).st = .live → ((s.core cid).task k).inst = none → ((s.core cid).task k).sealWait = false →
    (s.core cid).holdG = false → (∀ e ∈ s.escapes, e.id ∉ ((s.core cid).task k).escDue) → ((s.core cid).task k).async = [] →
    breakAt ((s.core cid).task k) = none → readBlock cid p.lease ((s.core cid).task k).pc.toNat s = .ok u ws →
    blockErr (s.core cid).frame ws = some e →
    exec (.blockFetch cid k) s = .next (raiseTask u cid k ((s.core cid).task k).pc.toNat (decodeCause e))) ∧
  (p.held = false → (s.core cid).isPinned = true → 0 < (s.core cid).pinNr → (∀ j ∈ (s.core cid).pinChans, (s.core cid).headFlit j ≠ none) →
    (∀ arm, pinKindOf (s.core cid) = .data →
      arm = (match (s.core cid).aselChans with
        | j :: _ => (((s.core cid).headFlit j).map (·.value.toNat % 2)).getD 0
        | [] => 0) → roomForAll (s.core cid) (dataInst (s.core cid) arm).resv = true →
      ∀ bad, exec (.pinnedInstanceStart cid bad) s = .next (startPin s cid pt (s.core cid).pinChans (dataInst (s.core cid) arm))) ∧
    (∀ l, pinKindOf (s.core cid) = .stop l → roomForAll (s.core cid) (stopInst (s.core cid) l).resv = true →
      ∀ bad, exec (.pinnedInstanceStart cid bad) s = .next (startPin s cid pt (s.core cid).pinChans (stopInst (s.core cid) l))) ∧
    (pinKindOf (s.core cid) = .aligned 9 → roomForAll (s.core cid) (alignedInst (s.core cid) 9).resv = true →
      exec (.pinnedInstanceStart cid true) s = .next (raiseCore (s.modCore cid (Core.replayFailed s.time)) cid none 0 0 { cause := 0x12 }) ∧
      exec (.pinnedInstanceStart cid false) s =
        .next (startPin (s.modCore cid Core.applyConst) cid pt (s.core cid).pinChans (alignedInst (s.core cid) 9))) ∧
    (pinKindOf (s.core cid) = .aligned 8 → roomForAll (s.core cid) (alignedInst (s.core cid) 8).resv = true → drainStalls s cid = false →
      (s.core cid).pinst = [] → (s.core cid).gen = [] → ∀ bad, exec (.pinnedInstanceStart cid bad) s =
        .next (startPin (release (acquire s cid (some .lease)) cid (some .lease)) cid pt (s.core cid).pinChans (alignedInst (s.core cid) 8)))) ∧
  (exec (.residueMismatch cid k false) s = .next (discard s cid k)) ∧
  (∃ t, exec (.residueMismatch cid k true) s = .next t ∧ ((t.core cid).task k) = ((s.core cid).task k) ∧
    (if 3 ≤ (s.core cid).replays.length then (t.core cid).replays = (s.core cid).replays else s.time ∈ (t.core cid).replays))

/-- R55, R138, R151, R175, R308, R335, R337, R341: a block instance that is complete commits: its values in their registers, its exit
taken, its captured effects in their order. One that never can be is discarded with MALFORMED_BLOCK; a stall of 2²⁵ cycles is UNDO_STALL.
A stop that is complete leaves its patch and its contexts frozen, its record kept, its LAUNCH FAULTED; a debug stop completes nothing. -/
def Obligations.BlockEnds : Prop :=
  ∀ (s : State) (cid pt k : Nat) (p : Patch) (x : Inst),
  (∀ e, RunsOn s cid pt p → (s.core cid).holdG = false → ((s.core cid).task k).inst = some x → x.broken = false → x.complete = true →
    (((s.core cid).task k).dbg.getLsbD 1 && debugOn s p.lease) = false → x.caps = [] → x.exit = some e → ((s.core cid).task k).async = [] →
    (e = .ret → ((s.core cid).task k).link ≠ []) →
    ∃ t, exec (.blockCommit cid k) s = .next t ∧ SameMemory s t ∧ ((t.core cid).task k).inst = none ∧
      (match e with
        | .go a => ((t.core cid).task k).pc = BitVec.ofNat 48 a
        | .call a r => ((t.core cid).task k).pc = BitVec.ofNat 48 a ∧
            ((t.core cid).task k).link = BitVec.ofNat 48 r :: ((s.core cid).task k).link.take 15
        | .ret => ((s.core cid).task k).link = ((t.core cid).task k).pc :: ((t.core cid).task k).link
        | .yield a => ((t.core cid).task k).pc = BitVec.ofNat 48 a ∧ ((t.core cid).task k).creditLane = 0 ∧ ((t.core cid).task k).creditSeq = 0
        | .stop => ((t.core cid).task k).st = .free) ∧
      (x.writes = [] → (t.core cid).pool = (s.core cid).pool) ∧
      ∀ v, x.writes = [some (.val v)] → (t.core cid).pool = ((s.core cid).writeG k (x.regOf 0) v).pool) ∧
  (∀ u v, RunsOn s cid pt p → (s.core cid).holdG = false → ((s.core cid).task k).inst = some x → x.broken = false → x.complete = true →
    commitAll cid k pt p x (traceBlock s cid k 1 x) = .ok u → v = sealptCheck (markFiring u pt) pt →
    exec (.blockCommit cid k) s = .next (if ((s.core cid).task k).dbg.getLsbD 1 && debugOn s p.lease then
      raiseTask v cid k ((v.core cid).task k).pc.toNat { cause := 0x0F, sub := 3 } else v)) ∧
  (∀ y, RunsOn s cid pt p → (s.core cid).holdG = false → ((s.core cid).task k).inst = some x → x.broken = false → x.complete = true →
    commitAll cid k pt p x (traceBlock s cid k 1 x) = .bad y →
    exec (.blockCommit cid k) s = .next (raiseTask s cid k x.blk { y with atCommit := true })) ∧
  (∀ l, RunsOn s cid pt p → (s.core cid).holdG = false → ((s.core cid).task k).inst = some x → x.broken = false → x.complete = true →
    commitAll cid k pt p x (traceBlock s cid k 1 x) = .stall (some l) →
    exec (.blockCommit cid k) s = .next (noteStall s cid k x l)) ∧
  (RunsOn s cid pt p → (s.core cid).holdG = false → ((s.core cid).task k).inst = some x → x.broken = true →
    exec (.blockCommit cid k) s = .next (raiseTask s cid k x.blk { cause := 0x02, sub := 2, atCommit := true })) ∧
  (RunsOn s cid pt p → (s.core cid).holdG = false → ((s.core cid).task k).inst = some x → x.broken = false → x.complete = false →
    quiescent s cid (some k) x = true → exec (.blockCommit cid k) s = .next (raiseTask s cid k x.blk (unmetCause x))) ∧
  (∀ n, ((s.core cid).task k).inst = some x → x.stalled = some n → n + 2 ^ 25 ≤ cyclesOf s cid →
    exec (.undoStallTimeout cid k) s = .next (raiseTask s cid k x.blk { cause := 0x16, atCommit := true })) ∧
  (∀ n, ((s.core cid).task k).inst = some x → x.stalled = some n → cyclesOf s cid < n + 2 ^ 25 → exec (.undoStallTimeout cid k) s = .next s) ∧
  (∀ n r rest, ((s.core cid).task k).inst = none → (s.core cid).gen = r :: rest → r.pinned = true → r.stalled = some n →
    n + 2 ^ 25 ≤ cyclesOf s cid → exec (.undoStallTimeout cid k) s =
      .next (raiseCore (s.modCore cid fun c => { c with gen := rest }) cid none 0 0 { cause := 0x16, slot := some r.slot, lsid := some r.lsid })) ∧
  (∀ f, s.patch pt = some p → p.fault = some f → p.st = .stopping → p.stop = none → patchQuiet s pt = true →
    ∃ t q, exec (.faultStop pt) s = .next t ∧ t.patch pt = some q ∧ q.fault = none ∧
      q.st = (if f.cause = 0x0F ∧ debugOn s p.lease = true then .debugStop else .frozen) ∧
      (∀ c ∈ patchCores s pt, ∀ a, (s.core c).act = some a → ((t.core c).ctx a).st = .frozen) ∧
      (∀ L, s.lease p.lease = some L → ∃ N, t.lease p.lease = some N ∧ N.faultCount = L.faultCount + 1 ∧
        N.faults.getLast? = some (faultRecord s p f p.extra)) ∧
      ∀ r, s.pkt p.pk = some r → r.stage ≠ .complete →
        if (f.cause = 0x0F ∧ debugOn s p.lease = true) ∨ classOf f.cause f.sub = .b then t.pkt p.pk = some r
        else Completed t p.pk 17 (BitVec.ofNat 64 f.cause.toNat)) ∧
  (∀ f, s.patch pt = some p → p.fault = some f → p.st = .stopping → patchQuiet s pt = false → exec (.faultStop pt) s = .next s)

/-- R147: one selection of an issue cycle. Every ready task gains its effective weight; the one with the most credit, the lowest slot among
equals, is granted and pays the sum of the weights. With no ready task nothing changes. -/
def Obligations.IssueSelection : Prop :=
  ∀ (s : State) (cid pick : Nat) (lane : Bool),
  ((∀ k < 8, issuable s cid k lane = []) → selectTask s cid lane pick = s) ∧
  ((∃ k < 8, issuable s cid k lane ≠ []) → ∃ k < 8, issuable s cid k lane ≠ [] ∧
    (∃ g, (selectTask s cid lane pick).grants = s.grants ++ [g] ∧ g.cid = cid ∧ g.task = some k ∧ g.slot ∈ issuable s cid k lane) ∧
    (∀ j < 8, j ≠ k → (((selectTask s cid lane pick).core cid).task j).credit lane =
      ((s.core cid).task j).credit lane + if issuable s cid j lane = [] then 0 else (((s.core cid).task j).eff : Int)) ∧
    ((((selectTask s cid lane pick).core cid).task k).credit lane = ((s.core cid).task k).credit lane + (((s.core cid).task k).eff : Int) -
      ((((List.range 8).filter fun j => issuable s cid j lane ≠ []).map fun j => ((s.core cid).task j).eff).sum : Nat)) ∧
    (∀ j < 8, j ≠ k → issuable s cid j lane ≠ [] →
      ((s.core cid).task j).credit lane + ((s.core cid).task j).eff < ((s.core cid).task k).credit lane + ((s.core cid).task k).eff ∨
      (((s.core cid).task j).credit lane + ((s.core cid).task j).eff = ((s.core cid).task k).credit lane + ((s.core cid).task k).eff ∧ k < j)))

/-! ### Meters, clocks, the management controller, resets -/

/-- R6, R358, R381, R384, R385, R387, R388: what the management controller and the device's own timing do. The order of an owner message's
checks, the wait of component 2, and what a failed boot leaves are the model's readings (assumptions 76, 79, 80, 81). -/
def Obligations.ManagementSteps : Prop :=
  ∀ (s : State),
  (∀ mj, s.meterAt + 1000000 ≤ s.time → ∃ t, exec (.meterWindow mj) s = .next t ∧ t.meterAt = s.time ∧
    ∀ o w, tfind t.owners o = some w → w.active = [] ∧ w.moved = 0) ∧
  (∀ mj, s.time < s.meterAt + 1000000 → exec (.meterWindow mj) s = .next s) ∧
  (∀ k c, c ≠ 0 → c.getLsbD 0 = false → c.getLsbD 3 = false → 1050 ≤ (tgetD s.islands k {}).freq → ∃ t, exec (.throttle k c) s = .next t ∧
    (tgetD t.islands k {}).freq = (tgetD s.islands k {}).freq - 50 ∧ (tgetD t.islands k {}).cause = c ∧
    ∀ j, j ≠ k → tgetD t.islands j {} = tgetD s.islands j {}) ∧
  (∀ k c, c ≠ 0 → c.getLsbD 0 = false → c.getLsbD 3 = false → (tgetD s.islands k {}).freq < 1050 → ∃ t, exec (.throttle k c) s = .next t ∧
    (tgetD t.islands k {}).freq = (tgetD s.islands k {}).freq) ∧
  (∀ k, (tgetD s.islands k {}).freq < 2000 → (tgetD s.islands k {}).cleared + 10000000 ≤ s.time → ∃ t, exec (.throttleRecover k) s = .next t ∧
    (tgetD t.islands k {}).freq = (tgetD s.islands k {}).freq + 50 ∧ ∀ j, j ≠ k → tgetD t.islands j {} = tgetD s.islands j {}) ∧
  (∀ m, s.mgmtIn = some (.meterReset m) → msgCode s m 1 = 0 → ∃ t, exec .meterReset s = .next t ∧ t.mctpCode = 0 ∧
    (t.ownerOf (msgField m 1 1)).meters = [] ∧ (t.ownerOf (msgField m 1 1)).epoch = ((s.ownerOf (msgField m 1 1)).epoch + 1) % 2 ^ 64) ∧
  (∀ m, s.mgmtIn = some (.meterReset m) → msgCode s m 1 ≠ 0 → exec .meterReset s = .next { s with mctpCode := msgCode s m 1 }) ∧
  (∀ m, s.mgmtIn = some (.keyroll m) → msgCode s m 2 = 0 → ∃ t, exec .keyroll s = .next t ∧ t.mctpCode = 0 ∧
    (t.ownerOf (msgField m 1 1)).key = some (BitVec.ofNat 384 (msgField m 396 48)) ∧
    (t.ownerOf (msgField m 1 1)).meters = (s.ownerOf (msgField m 1 1)).meters) ∧
  (∀ m, s.mgmtIn = some (.keyroll m) → msgCode s m 2 ≠ 0 → exec .keyroll s = .next { s with mctpCode := msgCode s m 2 }) ∧
  (∀ k i, s.mgmtIn = some (.firmwareTransfer k i) → k ≤ 2 → imageOk k i = true → exec .firmwareTransfer s =
    .next { s with trust := { s.trust with staged := tset s.trust.staged k i }, mctpCode := 0 }) ∧
  (∀ k i, s.mgmtIn = some (.firmwareTransfer k i) → imageOk k i = false → ∃ t, exec .firmwareTransfer s = .next t ∧ t.trust = s.trust) ∧
  (∀ i, s.mgmtIn = some (.firmwareActivate 2) → tfind s.trust.staged 2 = some i → s.trust.activating = none → s.sl.sealing = none →
    s.sl.rolling = none → ∃ t, exec .firmwareActivate s = .next t ∧ t.mctpCode = 0 ∧
      tgetD t.trust.meas 3 0 = Config.sha384 (digestBytes (tgetD s.trust.meas 3 0) ++ digestBytes (Config.sha384 i.bytes))) ∧
  (∀ images, s.mgmtIn = some (.coldReset images) → ∃ t, exec .coldReset s = .next t ∧ t.cores = [] ∧ t.leases = [] ∧ t.patches = [] ∧
    t.queues = [] ∧ t.mem = [] ∧ t.sl.formed = false ∧ t.stopped = t.trust.failed ∧
    (t.trust.booted = true ↔ ∀ k < 3, ∃ i, images[k]? = some i ∧ imageOk k i = true)) ∧
  (∀ fn q, fn ≠ 0 → (s.queue q).vf = fn → tfind s.queues q ≠ none → ∃ t, exec (.functionLevelReset fn) s = .next t ∧ (t.fn fn).cmd = 0 ∧
    (t.fn fn).done = false ∧ (t.fn fn).snaps = [] ∧ (t.fn fn).configured = (s.fn fn).configured ∧ (t.queue q).ring = [] ∧
    (t.queue q).vf = fn ∧ (t.queue q).size = (s.queue q).size ∧ t.events = s.events) ∧
  (∃ t, exec (.functionLevelReset 0) s = .next t ∧ (t.fn 0).cmd = 0 ∧ t.events = {} ∧ t.queues = s.queues ∧ t.leases = s.leases)

/-! ### Firing, results and their frame -/

/-- R45, R172, R173: when a slot fires. Until its predicate and operands are there nothing happens; a predicate that does not match kills it
and produces nothing; a null predicate or, where the predicate lets it fire, a null operand makes it deliver nulls instead. -/
def Obligations.FiringRules : Prop :=
  ∀ (i : Instr) (s : State) (h : Head) (e : Env), envOf s = some e → headOf i = some h → e.ss.ph = .idle →
  (h.pm ≠ .always → e.ss.p = none → exec i s = .next s) ∧
  (h.pm ≠ .always → e.ss.p = some .null → exec i s = .next (e.update (fun x => x.nullOut e.slot h) s)) ∧
  (∀ v, e.ss.p = some (.val v) → h.pm = .onTrue ∧ v.getLsbD 0 = false ∨ h.pm = .onFalse ∧ v.getLsbD 0 = true →
    exec i s = .next (e.update (fun x => x.modSlot e.slot fun q => { q with ph := .dead }) s)) ∧
  ((h.pm = .always ∨ ∃ v, e.ss.p = some (.val v) ∧ (h.pm = .onTrue ∧ v.getLsbD 0 = true ∨ h.pm = .onFalse ∧ v.getLsbD 0 = false)) →
    ((needsOf e.pinned i).1 = true ∧ e.ss.a = some .null ∨ (needsOf e.pinned i).2.1 = true ∧ e.ss.b = some .null ∨
      (needsOf e.pinned i).2.2 = true ∧ e.ss.c = some .null) → exec i s = .next (e.update (fun x => x.nullOut e.slot h) s)) ∧
  ((needsOf e.pinned i).1 = true ∧ e.ss.a = none ∨ (needsOf e.pinned i).2.1 = true ∧ e.ss.b = none ∨
      (needsOf e.pinned i).2.2 = true ∧ e.ss.c = none → h.pm = .always → e.ss.a ≠ some .null → e.ss.b ≠ some .null → e.ss.c ≠ some .null →
    exec i s = .next s)

/-- R44, R46, R151: a result goes to both targets, and a second delivery to one operand is remembered. An instruction that only computes
changes its instance alone: no memory, no pool, no other task, no capture, no exit. -/
def Obligations.ResultsAndFrame : Prop :=
  (∀ (x : Inst) (j : Nat) (h : Head) (o p : Opnd) (n : BitVec 5), n.toNat ≠ j → n.toNat < x.slots.length →
    (h.t0 = .opA n → ((x.fire j h (some o) (some p)).slots.getD n.toNat {}).a = some ((x.slots.getD n.toNat {}).a.getD o)) ∧
    (h.t0 = .opB n → ((x.fire j h (some o) (some p)).slots.getD n.toNat {}).b = some ((x.slots.getD n.toNat {}).b.getD o)) ∧
    (h.t0 = .opC n → ((x.fire j h (some o) (some p)).slots.getD n.toNat {}).c = some ((x.slots.getD n.toNat {}).c.getD o)) ∧
    (h.t0 = .pred n → ((x.fire j h (some o) (some p)).slots.getD n.toNat {}).p = some ((x.slots.getD n.toNat {}).p.getD o)) ∧
    (h.t0 = .opA n → (x.slots.getD n.toNat {}).a ≠ none → (x.fire j h (some o) (some p)).twice = true) ∧
    (h.t1 = .opA n → h.t0 ≠ .opA n → ((x.fire j h (some o) (some p)).slots.getD n.toNat {}).a = some ((x.slots.getD n.toNat {}).a.getD p))) ∧
  (∀ (i : Instr) (s : State) (h : Head) (e : Env) (v : Vals), computes i = true → Firing i s h e v →
    (e.pinned = false → ∃ x, exec i s = .next (markFiring (putInst s e.cid e.k x) e.pt) ∧ x.id = e.inst.id ∧ x.code = e.inst.code ∧
      x.caps = e.inst.caps ∧ x.exit = e.inst.exit ∧ (x.slots.getD e.slot {}).ph = .fired) ∧
    ∃ t, exec i s = .next t ∧ SameMemory s t ∧ t.leases = s.leases ∧ t.queues = s.queues ∧ t.undo = s.undo ∧ t.escapes = s.escapes ∧
      ∀ d, (t.core d).pool = (s.core d).pool ∧ (t.core d).pleat = (s.core d).pleat ∧ (t.core d).mangle = (s.core d).mangle ∧
        ∀ k, ((t.core d).task k).pc = ((s.core d).task k).pc ∧ ((t.core d).task k).tcause = ((s.core d).task k).tcause)

/-- R335, R338 to R341: taking a cause. A cause of class H that the task's TMASK and TVEC let through, with INH clear, is delivered: TCAUSE
with INH, TBLK, TADDR and TINFO written, the next block at TVEC, nothing stored. Any other stops the patch with the cause in its record. -/
def Obligations.TakingCauses : Prop :=
  ∀ (s : State) (cid k blk : Nat) (x : Cause),
  (classOf x.cause x.sub = .h → ((s.core cid).task k).tmask.getLsbD x.cause.toNat = true → ((s.core cid).task k).tvec ≠ 0 →
    ((s.core cid).task k).tcause.getLsbD 16 = false → x.cause ≠ 0x0F ∨ debugOn s (coreLease s cid) = false →
    (((raiseTask s cid k blk x).core cid).task k).tcause = BitVec.ofNat 64 (2 ^ 16 + 256 * x.sub.toNat + x.cause.toNat) ∧
    (((raiseTask s cid k blk x).core cid).task k).tblk = BitVec.ofNat 64 (blk % 2 ^ 48) ∧
    (((raiseTask s cid k blk x).core cid).task k).taddr = x.addr ∧ (((raiseTask s cid k blk x).core cid).task k).tinfo = tinfoOf x ∧
    (((raiseTask s cid k blk x).core cid).task k).pc = ((s.core cid).task k).tvec.setWidth 48 ∧
    (((raiseTask s cid k blk x).core cid).task k).inst = none ∧
    (((raiseTask s cid k blk x).core cid).task k).tmask = ((s.core cid).task k).tmask ∧
    ∀ d, ((raiseTask s cid k blk x).core d).pool = (s.core d).pool) ∧
  (∀ pt p, (s.core cid).patch = some pt → s.patch pt = some p → p.st = .running → p.fault = none → classOf x.cause x.sub ≠ .b →
    classOf x.cause x.sub ≠ .h ∨ ((s.core cid).task k).tmask.getLsbD x.cause.toNat = false ∨ ((s.core cid).task k).tvec = 0 ∨
      ((s.core cid).task k).tcause.getLsbD 16 = true ∨ (x.cause = 0x0F ∧ debugOn s (coreLease s cid) = true) →
    ∃ q f, (raiseTask s cid k blk x).patch pt = some q ∧ q.st = .stopping ∧ q.fault = some f ∧ f.cause = x.cause ∧ f.sub = x.sub ∧
      f.addr = x.addr ∧ f.blk = blk ∧ (((raiseTask s cid k blk x).core cid).task k).inst = none ∧
      (((raiseTask s cid k blk x).core cid).task k).tcause = ((s.core cid).task k).tcause ∧
      ∀ d, ((raiseTask s cid k blk x).core d).pool = (s.core d).pool)

/-! ### What the pool and the memories hold -/

/-- R124 to R126: the three maps of the pool. Bytes written into S or T are read back, and no other byte of S, of T or of a register
changes. -/
def Obligations.PoolMap : Prop :=
  ∀ (c : Core) (role : PoolRole) (o : Nat) (bs : List Byte), c.pool.wf = true → o + bs.length ≤ capOf c role →
  (c.writeRole role o bs).readRole role o bs.length = bs ∧
  (∀ r a n, a + n ≤ capOf c r → r ≠ role ∨ a + n ≤ o ∨ o + bs.length ≤ a → (c.writeRole role o bs).readRole r a n = c.readRole r a n) ∧
  (∀ k g, g < c.frame → (k + 1) * frameRows c.frame (plG c.pleat.word) ≤ 256 → 0 < plG c.pleat.word →
    (c.writeRole role o bs).readG k g = c.readG k g) ∧
  (c.writeRole role o bs).pleat = c.pleat ∧ (c.writeRole role o bs).tasks = c.tasks ∧ (c.writeRole role o bs).pool.wf = true

/-- R151, R256, R323: captured stores as they perform at commit. A pool store writes its bytes into its role; a wide store to device memory
writes its bytes, and where the core's own C holds no dirty byte no other; a store to a system page becomes an escape and writes
nothing. -/
def Obligations.StoresPerform : Prop :=
  (∀ (s : State) (cid k pt tc o : Nat) (p : Patch) (x : Inst) (q : Capture) (role : PoolRole) (bs : List Byte),
    q.eff = .poolStore role tc [(o, bs)] → (s.core tc).holdRole role = false → ∃ t, doEffect cid k pt p x q s = .ok t ∧ SameMemory s t ∧
      (t.core tc).pool = ((s.core tc).writeRole role o bs).pool ∧ ∀ d, d ≠ tc → (t.core d).pool = (s.core d).pool) ∧
  (∀ (s : State) (cid lease lsid va pa : Nat) (na recov : Bool) (bs : List Byte), s.mem.wf = true →
    denied s lease (genOf s lease) true (.dev pa recov) = false →
    storePoisoned s cid lease (va / 64) (lineLoc (.dev pa recov) (va % 64)) bs.length false = false →
    overLease (storeThrough s cid va (.dev pa recov) bs) = none → ∃ t, storePiece cid lease lsid true na (va, .dev pa recov, bs) s = .ok t ∧
      t.mem.read pa bs.length = bs ∧ (∀ d, (t.core d).pool = (s.core d).pool) ∧
      ((∀ x ∈ (s.core cid).cache, x.dirty = 0) → (∀ a, a < pa ∨ pa + bs.length ≤ a → t.mem.get a = s.mem.get a) ∧ t.hostMem = s.hostMem ∧
        t.peerMem = s.peerMem)) ∧
  (∀ (s : State) (cid k : Nat) (p : Patch) (ac : AC) (irr : Bool) (y : Nat × Loc × List Byte), escapeRoom s = true →
    ∃ t u, escapePiece cid k p ac irr y s = .ok t ∧ SameMemory s t ∧ t.escapes = s.escapes ++ [u] ∧ u.loc = y.2.1 ∧ u.data = y.2.2 ∧
      u.lease = some p.lease ∧ u.rin = (s.core cid).rin ∧ u.irr = irr ∧ u.id = s.escNext)

/-! ### The machine as a whole -/

/-- R388, R312, R301: what a cold reset leaves as the spec gives it, and that the state is in form. The values that the spec leaves open
(assumptions 1, 2, 5, 6) take no part. -/
def Obligations.ResetState : Prop :=
  Formed State.reset ∧ (∀ l, State.reset.lease l = none) ∧ (∀ n, State.reset.patch n = none) ∧ (∀ q, (State.reset.queue q).isOpen = false) ∧
  (∀ c, (State.reset.core c).patch = none ∧ (State.reset.core c).pool = [] ∧ ∀ k, ((State.reset.core c).task k).st = .free) ∧
  State.reset.pipe = [] ∧ State.reset.time = 0 ∧ State.reset.sl.formed = false ∧ State.reset.undo = [] ∧ State.reset.escapes = [] ∧
  State.reset.numVfs = 0 ∧ State.reset.pwrCap = 0 ∧ State.reset.events.en = false ∧ State.reset.grants = []

/-- R147: a step lets time pass and then runs one thing: the instruction decoded from the word of the slot that the oldest grant names, else
the oldest input that is given; a word placed for the next step is the one that runs. -/
def Obligations.StepRuns : Prop :=
  ∀ (s : State),
  (∀ g gs x i, (clock s).grants = g :: gs → grantInst (clock s) g = some x → g.slot < x.code.length → decode (x.code.getD g.slot 0) = .ok i →
    step s = exec i { clock s with grants := gs, cur := some g }) ∧
  (∀ g gs, (clock s).grants = g :: gs → grantInst (clock s) g = none → step s = .next { clock s with grants := gs, cur := some g }) ∧
  (∀ i is, (clock s).grants = [] → (clock s).inputs = i :: is → i.ok = true → step s = exec i.step (bring { clock s with inputs := is } i)) ∧
  (∀ i is, (clock s).grants = [] → (clock s).inputs = i :: is → i.ok = false → step s = .fault .illFormedInput) ∧
  (∀ i, (clock s).grants = [] → (clock s).inputs = [] → Config.freeInput s.tick = i →
    step s = if i.ok then exec i.step (bring (clock s) i) else .next (clock s)) ∧
  (s.posted = [] → (∀ e ∈ s.ports, e.2.held = []) → SameMemory s (clock s) ∧ (clock s).tick = s.tick + 1 ∧ (clock s).grants = s.grants ∧ (clock s).inputs = s.inputs ∧
    ∀ c, ((clock s).core c).pool = (s.core c).pool ∧ ((clock s).core c).tasks = (s.core c).tasks ∧
      ((clock s).core c).pinst = (s.core c).pinst) ∧
  (∀ n w i, s.posted = [] → (∀ e ∈ s.ports, e.2.held = []) → decode (BitVec.ofNat 64 w) = .ok i → ∃ g, step (s.withFetchWord n w) =
    exec i { clock (s.withFetchWord n w) with grants := [], cur := some g } ∧ g.cid = 0 ∧ g.slot = 0)

/-- R41 to R61: words that the spec writes out with their assembly, and what they decode to. -/
def Obligations.DecodeWords : Prop :=
  decode 0x108021A000000001 = .ok (.add ⟨.always, .opA 1, .write 0⟩ ⟨false, .s64⟩ (some 1)) ∧
  decode 0x2388254600000003 = .ok (.sar ⟨.always, .opA 5, .opB 6⟩ ⟨false, .v32⟩ (some 3)) ∧
  decode 0x33A0A20000000040 = .ok (.lea ⟨.always, .write 2, .none⟩ ⟨true, .s64⟩ (some 64)) ∧
  decode 0x0C08828300000000 = .ok (.test ⟨.always, .pred 2, .pred 3⟩ .lt .s64 none) ∧
  decode 0x01010000FFFFFFD0 = .ok (.exitB ⟨.onTrue, .none, .none⟩ (-48)) ∧
  decode 0x4D44240000000484 = .ok (.fcvt ⟨.always, .opA 4, .none⟩ ⟨false, .f32⟩ ⟨2, false, true, 0, false, 4⟩) ∧
  decode 0x622868290000000C = .ok (.shfl ⟨.always, .opC 8, .opA 9⟩ (.int ⟨true, .v32⟩) 0 12) ∧
  decode 0x75A400003DFFFFC0 = .ok (.stg ⟨.always, .none, .none⟩ .l false ⟨true, 7, some .system, -64⟩) ∧
  decode 0x7B50A20008000008 = .ok (.atms ⟨.always, .write 2, .none⟩ .fadd false ⟨false, 1, none, 8⟩) ∧
  decode 0x900200000A000000 = .ok (.cpy ⟨.onFalse, .none, .none⟩ ⟨false, 1, some .cluster, 0⟩) ∧
  decode 0xA210A00000000000 = .ok (.marm ⟨.always, .write 0, .none⟩ 4) ∧ decode 0xB320A00000000000 = .ok (.occ ⟨.always, .write 0, .none⟩ 8) ∧
  decode 0xBC64000005000000 = .ok (.stxIrr ⟨.always, .none, .none⟩ .l ⟨false, 0, some .system, 0⟩) ∧
  decode 0xC414820000000004 = .ok (.waitm ⟨.always, .pred 2, .none⟩ .ge (some .device)) ∧
  decode 0xD029000000000000 = .ok (.send ⟨.onTrue, .none, .none⟩ 10 0) ∧ decode 0xE300230000000000 = .ok (.csrw ⟨.always, .opA 3, .none⟩ 0)

/-- R41 to R61, for every step: an Echeder instruction has a word, and decoding the word of a legal instruction gives it back, with every
operand at every value that its encoding admits.
`svcReserved` carries the service numbers that no row names (assumption 11). -/
def Obligations.EncodeDecode : Prop := ∀ i : Instr, Sys2Proof.Laws.Words.Statement i

/-- R288, R346 and the memory's canonical form, kept by every step from every state: the three memories stay in form, the serialising token
names one of the eleven ring nodes, device time stays below 2⁶⁴.
The canonical form, in which a byte never written reads 0, and the token's first node are the model's choices (assumptions 1, 12). -/
def Obligations.StepKeepsForm : Prop := ∀ s t : State, Formed s → step s = .next t → Formed t
end

