-- ==== Sys2Proof/Laws/Tables.lean ====
section
/-! SUPPORT. Tables and memories: reading back what was written, leaving the rest alone, and the canonical form that every memory
operation keeps. -/

namespace Sys2Proof.Machine

/-! ### Tables -/

/-- An entry written reads back. -/
@[simp] theorem tfind_tset_same {α : Type} (t : Table α) (i : Nat) (x : α) : tfind (tset t i x) i = some x := by
  induction t with
  | nil => simp [tset, tfind]
  | cons e t ih =>
    obtain ⟨k, v⟩ := e
    simp only [tset]
    split
    · simp [tfind]
    · split
      · simp [tfind]
      · simp [tfind, *]

/-- Writing one entry leaves every other alone. -/
theorem tfind_tset_other {α : Type} (t : Table α) (i j : Nat) (x : α) (h : j ≠ i) : tfind (tset t i x) j = tfind t j := by
  induction t with
  | nil => simp [tset, tfind, Ne.symm h]
  | cons e t ih =>
    obtain ⟨k, v⟩ := e
    simp only [tset]
    split
    · simp [tfind, Ne.symm h]
    · split
      · subst_vars; simp [tfind, Ne.symm h]
      · simp [tfind, ih]

/-- An entry written reads back, with its default. -/
@[simp] theorem tgetD_tset_same {α : Type} (t : Table α) (i : Nat) (x d : α) : tgetD (tset t i x) i d = x := by simp [tgetD]

/-- Writing one entry leaves every other alone, defaults included. -/
theorem tgetD_tset_other {α : Type} (t : Table α) (i j : Nat) (x d : α) (h : j ≠ i) : tgetD (tset t i x) j d = tgetD t j d := by
  simp [tgetD, tfind_tset_other _ _ _ _ h]

/-- Changing every entry changes the one that is found. -/
@[simp] theorem tfind_tmap {α : Type} (f : Nat → α → α) (t : Table α) (i : Nat) : tfind (tmap f t) i = (tfind t i).map (f i) := by
  induction t with
  | nil => simp [tmap, tfind]
  | cons e t ih =>
    obtain ⟨k, v⟩ := e
    simp only [tmap, List.map_cons, tfind] at ih ⊢
    split
    · subst_vars; simp
    · exact ih

/-! ### The canonical form of a memory -/

/-- A lower bound on the addresses may be lowered. -/
theorem Memory.wfFrom_mono {lo hi : Nat} (m : Memory) (h : lo ≤ hi) (w : Memory.wfFrom hi m = true) : Memory.wfFrom lo m = true := by
  cases m with
  | nil => rfl
  | cons c m =>
    obtain ⟨k, v⟩ := c
    simp only [Memory.wfFrom, Bool.and_eq_true, decide_eq_true_eq] at w ⊢
    exact ⟨⟨by omega, w.1.2⟩, w.2⟩

/-- Writing a byte keeps the form, above any bound below the address. -/
theorem Memory.wfFrom_set (m : Memory) (a : Nat) (b : Byte) :
    ∀ lo, lo ≤ a → Memory.wfFrom lo m = true → Memory.wfFrom lo (m.set a b) = true := by
  induction m with
  | nil =>
    intro lo h _
    simp only [Memory.set]
    split
    · rfl
    · simp [Memory.wfFrom, *]
  | cons c m ih =>
    obtain ⟨k, v⟩ := c
    intro lo h w
    simp only [Memory.wfFrom, Bool.and_eq_true, decide_eq_true_eq] at w
    simp only [Memory.set]
    split
    · split
      · simp [Memory.wfFrom, *]
      · simp only [Memory.wfFrom, Bool.and_eq_true, decide_eq_true_eq]
        exact ⟨⟨h, by simpa using ‹_›⟩, ⟨by omega, w.1.2⟩, w.2⟩
    · split
      · subst_vars
        split
        · exact Memory.wfFrom_mono m (by omega) w.2
        · simp only [Memory.wfFrom, Bool.and_eq_true, decide_eq_true_eq]
          exact ⟨⟨h, by simpa using ‹_›⟩, w.2⟩
      · simp only [Memory.wfFrom, Bool.and_eq_true, decide_eq_true_eq]
        exact ⟨w.1, ih (k + 1) (by omega) w.2⟩

/-- Leaving bytes out keeps the form. -/
theorem Memory.wfFrom_filter (f : Host.Cell → Bool) (m : Memory) : ∀ lo, Memory.wfFrom lo m = true → Memory.wfFrom lo (m.filter f) = true := by
  induction m with
  | nil => intro lo _; rfl
  | cons c m ih =>
    obtain ⟨k, v⟩ := c
    intro lo w
    simp only [Memory.wfFrom, Bool.and_eq_true, decide_eq_true_eq] at w
    simp only [List.filter_cons]
    split
    · simp only [Memory.wfFrom, Bool.and_eq_true, decide_eq_true_eq]
      exact ⟨w.1, ih _ w.2⟩
    · exact Memory.wfFrom_mono _ (by omega) (ih _ w.2)

/-- `Memory.set` keeps the canonical form. -/
@[simp] theorem Memory.set_wf {m : Memory} (a : Nat) (b : Byte) (h : m.wf = true) : (m.set a b).wf = true :=
  Memory.wfFrom_set m a b 0 (Nat.zero_le _) h

/-- Leaving bytes out keeps the canonical form. -/
@[simp] theorem Memory.filter_wf {m : Memory} (f : Host.Cell → Bool) (h : m.wf = true) : Memory.wf (m.filter f) = true :=
  Memory.wfFrom_filter f m 0 h

/-- `Memory.clear` keeps the canonical form. -/
@[simp] theorem Memory.clear_wf {m : Memory} (lo n : Nat) (h : m.wf = true) : (m.clear lo n).wf = true := Memory.filter_wf _ h

/-- `Memory.write` keeps the canonical form. -/
@[simp] theorem Memory.write_wf (bs : List Byte) : ∀ {m : Memory} (a : Nat), m.wf = true → (m.write a bs).wf = true := by
  induction bs with
  | nil => intro m a h; exact h
  | cons b bs ih => intro m a h; exact ih _ (Memory.set_wf a b h)

/-- Folding a change that keeps the canonical form keeps it. -/
theorem Memory.foldl_wf {β : Type} (g : Memory → β → Memory) (hg : ∀ m x, Memory.wf m = true → Memory.wf (g m x) = true) (l : List β) :
    ∀ {m : Memory}, m.wf = true → Memory.wf (l.foldl g m) = true := by
  induction l with
  | nil => intro m h; exact h
  | cons x l ih => intro m h; exact ih (hg _ _ h)

/-- `Memory.copyIn` keeps the canonical form. -/
@[simp] theorem Memory.copyIn_wf {dst : Memory} (src : Memory) (lo n d : Nat) (h : dst.wf = true) : (dst.copyIn src lo n d).wf = true :=
  Memory.foldl_wf _ (fun _ _ h => Memory.set_wf _ _ h) _ (Memory.clear_wf _ _ h)

/-! ### Reading back -/

/-- A memory in form lists no address below its bound. -/
theorem Memory.get_below (m : Memory) : ∀ lo a, Memory.wfFrom lo m = true → a < lo → m.get a = Memory.blank := by
  induction m with
  | nil => intro _ _ _ _; rfl
  | cons c m ih =>
    obtain ⟨k, v⟩ := c
    intro lo a w h
    simp only [Memory.wfFrom, Bool.and_eq_true, decide_eq_true_eq] at w
    simp only [Memory.get]
    rw [if_neg (by omega)]
    exact ih (k + 1) a w.2 (by omega)

/-- A byte written reads back. -/
theorem Memory.get_set_same (m : Memory) (a : Nat) (b : Byte) : ∀ lo, Memory.wfFrom lo m = true → (m.set a b).get a = b := by
  induction m with
  | nil =>
    intro lo _
    simp only [Memory.set]
    split
    · subst_vars; rfl
    · simp [Memory.get]
  | cons c m ih =>
    obtain ⟨k, v⟩ := c
    intro lo w
    simp only [Memory.wfFrom, Bool.and_eq_true, decide_eq_true_eq] at w
    simp only [Memory.set]
    split
    · split
      · subst_vars
        simp only [Memory.get]
        rw [if_neg (by omega)]
        exact Memory.get_below m (k + 1) a w.2 (by omega)
      · simp [Memory.get]
    · split
      · subst_vars
        split
        · subst_vars; exact Memory.get_below m _ _ w.2 (by omega)
        · simp [Memory.get]
      · simp only [Memory.get]
        rw [if_neg (by omega)]
        exact ih (k + 1) w.2

/-- Writing one byte leaves every other alone. -/
theorem Memory.get_set_other (m : Memory) (a c : Nat) (b : Byte) (h : c ≠ a) : (m.set a b).get c = m.get c := by
  induction m with
  | nil =>
    simp only [Memory.set]
    split
    · rfl
    · simp [Memory.get, Ne.symm h]
  | cons e m ih =>
    obtain ⟨k, v⟩ := e
    simp only [Memory.set]
    split
    · split
      · rfl
      · simp [Memory.get, Ne.symm h]
    · split
      · subst_vars
        split
        · simp [Memory.get, Ne.symm h]
        · simp [Memory.get, Ne.symm h]
      · simp only [Memory.get, ih]

/-- Writing bytes leaves every address outside them alone. -/
theorem Memory.get_write_other (bs : List Byte) : ∀ (m : Memory) (a c : Nat), (c < a ∨ a + bs.length ≤ c) → (m.write a bs).get c = m.get c := by
  induction bs with
  | nil => intro m a c _; rfl
  | cons b bs ih =>
    intro m a c h
    simp only [List.length_cons] at h
    rw [Memory.write, ih _ _ _ (by omega), Memory.get_set_other _ _ _ _ (by omega)]

/-- Bytes written read back. -/
theorem Memory.read_write (bs : List Byte) : ∀ (m : Memory) (a : Nat), m.wf = true → (m.write a bs).read a bs.length = bs := by
  induction bs with
  | nil => intro _ _ _; rfl
  | cons b bs ih =>
    intro m a h
    simp only [Memory.write, List.length_cons, Memory.read]
    rw [Memory.get_write_other bs _ (a + 1) a (by omega), Memory.get_set_same m a b 0 h, ih _ _ (Memory.set_wf a b h)]

end Sys2Proof.Machine
end

