-- ==== Sys2Proof/Laws/State.lean ====
section
/-! SUPPORT. What each named update of the state leaves as it was, one lemma a field, and what reading back gives. -/

namespace Sys2Proof.Machine

/-! ### `setCore` changes only `cores` -/

@[simp] theorem State.setCore_victims (s : State) (cid : Nat) (c : Core) : (s.setCore cid c).victims = s.victims := rfl
@[simp] theorem State.setCore_clusters (s : State) (cid : Nat) (c : Core) : (s.setCore cid c).clusters = s.clusters := rfl
@[simp] theorem State.setCore_mem (s : State) (cid : Nat) (c : Core) : (s.setCore cid c).mem = s.mem := rfl
@[simp] theorem State.setCore_lineTags (s : State) (cid : Nat) (c : Core) : (s.setCore cid c).lineTags = s.lineTags := rfl
@[simp] theorem State.setCore_poison (s : State) (cid : Nat) (c : Core) : (s.setCore cid c).poison = s.poison := rfl
@[simp] theorem State.setCore_hostMem (s : State) (cid : Nat) (c : Core) : (s.setCore cid c).hostMem = s.hostMem := rfl
@[simp] theorem State.setCore_peerMem (s : State) (cid : Nat) (c : Core) : (s.setCore cid c).peerMem = s.peerMem := rfl
@[simp] theorem State.setCore_nodeRins (s : State) (cid : Nat) (c : Core) : (s.setCore cid c).nodeRins = s.nodeRins := rfl
@[simp] theorem State.setCore_denials (s : State) (cid : Nat) (c : Core) : (s.setCore cid c).denials = s.denials := rfl
@[simp] theorem State.setCore_undo (s : State) (cid : Nat) (c : Core) : (s.setCore cid c).undo = s.undo := rfl
@[simp] theorem State.setCore_escapes (s : State) (cid : Nat) (c : Core) : (s.setCore cid c).escapes = s.escapes := rfl
@[simp] theorem State.setCore_escNext (s : State) (cid : Nat) (c : Core) : (s.setCore cid c).escNext = s.escNext := rfl
@[simp] theorem State.setCore_waiters (s : State) (cid : Nat) (c : Core) : (s.setCore cid c).waiters = s.waiters := rfl
@[simp] theorem State.setCore_forwards (s : State) (cid : Nat) (c : Core) : (s.setCore cid c).forwards = s.forwards := rfl
@[simp] theorem State.setCore_patches (s : State) (cid : Nat) (c : Core) : (s.setCore cid c).patches = s.patches := rfl
@[simp] theorem State.setCore_nextPatch (s : State) (cid : Nat) (c : Core) : (s.setCore cid c).nextPatch = s.nextPatch := rfl
@[simp] theorem State.setCore_images (s : State) (cid : Nat) (c : Core) : (s.setCore cid c).images = s.images := rfl
@[simp] theorem State.setCore_saves (s : State) (cid : Nat) (c : Core) : (s.setCore cid c).saves = s.saves := rfl
@[simp] theorem State.setCore_snaps (s : State) (cid : Nat) (c : Core) : (s.setCore cid c).snaps = s.snaps := rfl
@[simp] theorem State.setCore_queues (s : State) (cid : Nat) (c : Core) : (s.setCore cid c).queues = s.queues := rfl
@[simp] theorem State.setCore_pipe (s : State) (cid : Nat) (c : Core) : (s.setCore cid c).pipe = s.pipe := rfl
@[simp] theorem State.setCore_nextPkt (s : State) (cid : Nat) (c : Core) : (s.setCore cid c).nextPkt = s.nextPkt := rfl
@[simp] theorem State.setCore_leases (s : State) (cid : Nat) (c : Core) : (s.setCore cid c).leases = s.leases := rfl
@[simp] theorem State.setCore_released (s : State) (cid : Nat) (c : Core) : (s.setCore cid c).released = s.released := rfl
@[simp] theorem State.setCore_leaseGrants (s : State) (cid : Nat) (c : Core) : (s.setCore cid c).leaseGrants = s.leaseGrants := rfl
@[simp] theorem State.setCore_nextLoan (s : State) (cid : Nat) (c : Core) : (s.setCore cid c).nextLoan = s.nextLoan := rfl
@[simp] theorem State.setCore_funcs (s : State) (cid : Nat) (c : Core) : (s.setCore cid c).funcs = s.funcs := rfl
@[simp] theorem State.setCore_numVfs (s : State) (cid : Nat) (c : Core) : (s.setCore cid c).numVfs = s.numVfs := rfl
@[simp] theorem State.setCore_owners (s : State) (cid : Nat) (c : Core) : (s.setCore cid c).owners = s.owners := rfl
@[simp] theorem State.setCore_drrNext (s : State) (cid : Nat) (c : Core) : (s.setCore cid c).drrNext = s.drrNext := rfl
@[simp] theorem State.setCore_ingestNext (s : State) (cid : Nat) (c : Core) : (s.setCore cid c).ingestNext = s.ingestNext := rfl
@[simp] theorem State.setCore_stripDown (s : State) (cid : Nat) (c : Core) : (s.setCore cid c).stripDown = s.stripDown := rfl
@[simp] theorem State.setCore_stripDarned (s : State) (cid : Nat) (c : Core) : (s.setCore cid c).stripDarned = s.stripDarned := rfl
@[simp] theorem State.setCore_stopped (s : State) (cid : Nat) (c : Core) : (s.setCore cid c).stopped = s.stopped := rfl
@[simp] theorem State.setCore_quiesced (s : State) (cid : Nat) (c : Core) : (s.setCore cid c).quiesced = s.quiesced := rfl
@[simp] theorem State.setCore_sl (s : State) (cid : Nat) (c : Core) : (s.setCore cid c).sl = s.sl := rfl
@[simp] theorem State.setCore_ports (s : State) (cid : Nat) (c : Core) : (s.setCore cid c).ports = s.ports := rfl
@[simp] theorem State.setCore_peerOut (s : State) (cid : Nat) (c : Core) : (s.setCore cid c).peerOut = s.peerOut := rfl
@[simp] theorem State.setCore_token (s : State) (cid : Nat) (c : Core) : (s.setCore cid c).token = s.token := rfl
@[simp] theorem State.setCore_events (s : State) (cid : Nat) (c : Core) : (s.setCore cid c).events = s.events := rfl
@[simp] theorem State.setCore_inject (s : State) (cid : Nat) (c : Core) : (s.setCore cid c).inject = s.inject := rfl
@[simp] theorem State.setCore_islands (s : State) (cid : Nat) (c : Core) : (s.setCore cid c).islands = s.islands := rfl
@[simp] theorem State.setCore_meterAt (s : State) (cid : Nat) (c : Core) : (s.setCore cid c).meterAt = s.meterAt := rfl
@[simp] theorem State.setCore_pwrCap (s : State) (cid : Nat) (c : Core) : (s.setCore cid c).pwrCap = s.pwrCap := rfl
@[simp] theorem State.setCore_trust (s : State) (cid : Nat) (c : Core) : (s.setCore cid c).trust = s.trust := rfl
@[simp] theorem State.setCore_time (s : State) (cid : Nat) (c : Core) : (s.setCore cid c).time = s.time := rfl
@[simp] theorem State.setCore_mctpCode (s : State) (cid : Nat) (c : Core) : (s.setCore cid c).mctpCode = s.mctpCode := rfl
@[simp] theorem State.setCore_readback (s : State) (cid : Nat) (c : Core) : (s.setCore cid c).readback = s.readback := rfl
@[simp] theorem State.setCore_inputs (s : State) (cid : Nat) (c : Core) : (s.setCore cid c).inputs = s.inputs := rfl
@[simp] theorem State.setCore_posted (s : State) (cid : Nat) (c : Core) : (s.setCore cid c).posted = s.posted := rfl
@[simp] theorem State.setCore_pkSel (s : State) (cid : Nat) (c : Core) : (s.setCore cid c).pkSel = s.pkSel := rfl
@[simp] theorem State.setCore_cmdIn (s : State) (cid : Nat) (c : Core) : (s.setCore cid c).cmdIn = s.cmdIn := rfl
@[simp] theorem State.setCore_msgIn (s : State) (cid : Nat) (c : Core) : (s.setCore cid c).msgIn = s.msgIn := rfl
@[simp] theorem State.setCore_mgmtIn (s : State) (cid : Nat) (c : Core) : (s.setCore cid c).mgmtIn = s.mgmtIn := rfl
@[simp] theorem State.setCore_timerIn (s : State) (cid : Nat) (c : Core) : (s.setCore cid c).timerIn = s.timerIn := rfl
@[simp] theorem State.setCore_grants (s : State) (cid : Nat) (c : Core) : (s.setCore cid c).grants = s.grants := rfl
@[simp] theorem State.setCore_cur (s : State) (cid : Nat) (c : Core) : (s.setCore cid c).cur = s.cur := rfl
@[simp] theorem State.setCore_tick (s : State) (cid : Nat) (c : Core) : (s.setCore cid c).tick = s.tick := rfl

/-! ### `modCore` changes only `cores` -/

@[simp] theorem State.modCore_victims (s : State) (cid : Nat) (f : Core → Core) : (s.modCore cid f).victims = s.victims := rfl
@[simp] theorem State.modCore_clusters (s : State) (cid : Nat) (f : Core → Core) : (s.modCore cid f).clusters = s.clusters := rfl
@[simp] theorem State.modCore_mem (s : State) (cid : Nat) (f : Core → Core) : (s.modCore cid f).mem = s.mem := rfl
@[simp] theorem State.modCore_lineTags (s : State) (cid : Nat) (f : Core → Core) : (s.modCore cid f).lineTags = s.lineTags := rfl
@[simp] theorem State.modCore_poison (s : State) (cid : Nat) (f : Core → Core) : (s.modCore cid f).poison = s.poison := rfl
@[simp] theorem State.modCore_hostMem (s : State) (cid : Nat) (f : Core → Core) : (s.modCore cid f).hostMem = s.hostMem := rfl
@[simp] theorem State.modCore_peerMem (s : State) (cid : Nat) (f : Core → Core) : (s.modCore cid f).peerMem = s.peerMem := rfl
@[simp] theorem State.modCore_nodeRins (s : State) (cid : Nat) (f : Core → Core) : (s.modCore cid f).nodeRins = s.nodeRins := rfl
@[simp] theorem State.modCore_denials (s : State) (cid : Nat) (f : Core → Core) : (s.modCore cid f).denials = s.denials := rfl
@[simp] theorem State.modCore_undo (s : State) (cid : Nat) (f : Core → Core) : (s.modCore cid f).undo = s.undo := rfl
@[simp] theorem State.modCore_escapes (s : State) (cid : Nat) (f : Core → Core) : (s.modCore cid f).escapes = s.escapes := rfl
@[simp] theorem State.modCore_escNext (s : State) (cid : Nat) (f : Core → Core) : (s.modCore cid f).escNext = s.escNext := rfl
@[simp] theorem State.modCore_waiters (s : State) (cid : Nat) (f : Core → Core) : (s.modCore cid f).waiters = s.waiters := rfl
@[simp] theorem State.modCore_forwards (s : State) (cid : Nat) (f : Core → Core) : (s.modCore cid f).forwards = s.forwards := rfl
@[simp] theorem State.modCore_patches (s : State) (cid : Nat) (f : Core → Core) : (s.modCore cid f).patches = s.patches := rfl
@[simp] theorem State.modCore_nextPatch (s : State) (cid : Nat) (f : Core → Core) : (s.modCore cid f).nextPatch = s.nextPatch := rfl
@[simp] theorem State.modCore_images (s : State) (cid : Nat) (f : Core → Core) : (s.modCore cid f).images = s.images := rfl
@[simp] theorem State.modCore_saves (s : State) (cid : Nat) (f : Core → Core) : (s.modCore cid f).saves = s.saves := rfl
@[simp] theorem State.modCore_snaps (s : State) (cid : Nat) (f : Core → Core) : (s.modCore cid f).snaps = s.snaps := rfl
@[simp] theorem State.modCore_queues (s : State) (cid : Nat) (f : Core → Core) : (s.modCore cid f).queues = s.queues := rfl
@[simp] theorem State.modCore_pipe (s : State) (cid : Nat) (f : Core → Core) : (s.modCore cid f).pipe = s.pipe := rfl
@[simp] theorem State.modCore_nextPkt (s : State) (cid : Nat) (f : Core → Core) : (s.modCore cid f).nextPkt = s.nextPkt := rfl
@[simp] theorem State.modCore_leases (s : State) (cid : Nat) (f : Core → Core) : (s.modCore cid f).leases = s.leases := rfl
@[simp] theorem State.modCore_released (s : State) (cid : Nat) (f : Core → Core) : (s.modCore cid f).released = s.released := rfl
@[simp] theorem State.modCore_leaseGrants (s : State) (cid : Nat) (f : Core → Core) : (s.modCore cid f).leaseGrants = s.leaseGrants := rfl
@[simp] theorem State.modCore_nextLoan (s : State) (cid : Nat) (f : Core → Core) : (s.modCore cid f).nextLoan = s.nextLoan := rfl
@[simp] theorem State.modCore_funcs (s : State) (cid : Nat) (f : Core → Core) : (s.modCore cid f).funcs = s.funcs := rfl
@[simp] theorem State.modCore_numVfs (s : State) (cid : Nat) (f : Core → Core) : (s.modCore cid f).numVfs = s.numVfs := rfl
@[simp] theorem State.modCore_owners (s : State) (cid : Nat) (f : Core → Core) : (s.modCore cid f).owners = s.owners := rfl
@[simp] theorem State.modCore_drrNext (s : State) (cid : Nat) (f : Core → Core) : (s.modCore cid f).drrNext = s.drrNext := rfl
@[simp] theorem State.modCore_ingestNext (s : State) (cid : Nat) (f : Core → Core) : (s.modCore cid f).ingestNext = s.ingestNext := rfl
@[simp] theorem State.modCore_stripDown (s : State) (cid : Nat) (f : Core → Core) : (s.modCore cid f).stripDown = s.stripDown := rfl
@[simp] theorem State.modCore_stripDarned (s : State) (cid : Nat) (f : Core → Core) : (s.modCore cid f).stripDarned = s.stripDarned := rfl
@[simp] theorem State.modCore_stopped (s : State) (cid : Nat) (f : Core → Core) : (s.modCore cid f).stopped = s.stopped := rfl
@[simp] theorem State.modCore_quiesced (s : State) (cid : Nat) (f : Core → Core) : (s.modCore cid f).quiesced = s.quiesced := rfl
@[simp] theorem State.modCore_sl (s : State) (cid : Nat) (f : Core → Core) : (s.modCore cid f).sl = s.sl := rfl
@[simp] theorem State.modCore_ports (s : State) (cid : Nat) (f : Core → Core) : (s.modCore cid f).ports = s.ports := rfl
@[simp] theorem State.modCore_peerOut (s : State) (cid : Nat) (f : Core → Core) : (s.modCore cid f).peerOut = s.peerOut := rfl
@[simp] theorem State.modCore_token (s : State) (cid : Nat) (f : Core → Core) : (s.modCore cid f).token = s.token := rfl
@[simp] theorem State.modCore_events (s : State) (cid : Nat) (f : Core → Core) : (s.modCore cid f).events = s.events := rfl
@[simp] theorem State.modCore_inject (s : State) (cid : Nat) (f : Core → Core) : (s.modCore cid f).inject = s.inject := rfl
@[simp] theorem State.modCore_islands (s : State) (cid : Nat) (f : Core → Core) : (s.modCore cid f).islands = s.islands := rfl
@[simp] theorem State.modCore_meterAt (s : State) (cid : Nat) (f : Core → Core) : (s.modCore cid f).meterAt = s.meterAt := rfl
@[simp] theorem State.modCore_pwrCap (s : State) (cid : Nat) (f : Core → Core) : (s.modCore cid f).pwrCap = s.pwrCap := rfl
@[simp] theorem State.modCore_trust (s : State) (cid : Nat) (f : Core → Core) : (s.modCore cid f).trust = s.trust := rfl
@[simp] theorem State.modCore_time (s : State) (cid : Nat) (f : Core → Core) : (s.modCore cid f).time = s.time := rfl
@[simp] theorem State.modCore_mctpCode (s : State) (cid : Nat) (f : Core → Core) : (s.modCore cid f).mctpCode = s.mctpCode := rfl
@[simp] theorem State.modCore_readback (s : State) (cid : Nat) (f : Core → Core) : (s.modCore cid f).readback = s.readback := rfl
@[simp] theorem State.modCore_inputs (s : State) (cid : Nat) (f : Core → Core) : (s.modCore cid f).inputs = s.inputs := rfl
@[simp] theorem State.modCore_posted (s : State) (cid : Nat) (f : Core → Core) : (s.modCore cid f).posted = s.posted := rfl
@[simp] theorem State.modCore_pkSel (s : State) (cid : Nat) (f : Core → Core) : (s.modCore cid f).pkSel = s.pkSel := rfl
@[simp] theorem State.modCore_cmdIn (s : State) (cid : Nat) (f : Core → Core) : (s.modCore cid f).cmdIn = s.cmdIn := rfl
@[simp] theorem State.modCore_msgIn (s : State) (cid : Nat) (f : Core → Core) : (s.modCore cid f).msgIn = s.msgIn := rfl
@[simp] theorem State.modCore_mgmtIn (s : State) (cid : Nat) (f : Core → Core) : (s.modCore cid f).mgmtIn = s.mgmtIn := rfl
@[simp] theorem State.modCore_timerIn (s : State) (cid : Nat) (f : Core → Core) : (s.modCore cid f).timerIn = s.timerIn := rfl
@[simp] theorem State.modCore_grants (s : State) (cid : Nat) (f : Core → Core) : (s.modCore cid f).grants = s.grants := rfl
@[simp] theorem State.modCore_cur (s : State) (cid : Nat) (f : Core → Core) : (s.modCore cid f).cur = s.cur := rfl
@[simp] theorem State.modCore_tick (s : State) (cid : Nat) (f : Core → Core) : (s.modCore cid f).tick = s.tick := rfl

/-! ### `modCluster` changes only `clusters` -/

@[simp] theorem State.modCluster_cores (s : State) (cl : Nat) (f : Cluster → Cluster) : (s.modCluster cl f).cores = s.cores := rfl
@[simp] theorem State.modCluster_victims (s : State) (cl : Nat) (f : Cluster → Cluster) : (s.modCluster cl f).victims = s.victims := rfl
@[simp] theorem State.modCluster_mem (s : State) (cl : Nat) (f : Cluster → Cluster) : (s.modCluster cl f).mem = s.mem := rfl
@[simp] theorem State.modCluster_lineTags (s : State) (cl : Nat) (f : Cluster → Cluster) : (s.modCluster cl f).lineTags = s.lineTags := rfl
@[simp] theorem State.modCluster_poison (s : State) (cl : Nat) (f : Cluster → Cluster) : (s.modCluster cl f).poison = s.poison := rfl
@[simp] theorem State.modCluster_hostMem (s : State) (cl : Nat) (f : Cluster → Cluster) : (s.modCluster cl f).hostMem = s.hostMem := rfl
@[simp] theorem State.modCluster_peerMem (s : State) (cl : Nat) (f : Cluster → Cluster) : (s.modCluster cl f).peerMem = s.peerMem := rfl
@[simp] theorem State.modCluster_nodeRins (s : State) (cl : Nat) (f : Cluster → Cluster) : (s.modCluster cl f).nodeRins = s.nodeRins := rfl
@[simp] theorem State.modCluster_denials (s : State) (cl : Nat) (f : Cluster → Cluster) : (s.modCluster cl f).denials = s.denials := rfl
@[simp] theorem State.modCluster_undo (s : State) (cl : Nat) (f : Cluster → Cluster) : (s.modCluster cl f).undo = s.undo := rfl
@[simp] theorem State.modCluster_escapes (s : State) (cl : Nat) (f : Cluster → Cluster) : (s.modCluster cl f).escapes = s.escapes := rfl
@[simp] theorem State.modCluster_escNext (s : State) (cl : Nat) (f : Cluster → Cluster) : (s.modCluster cl f).escNext = s.escNext := rfl
@[simp] theorem State.modCluster_waiters (s : State) (cl : Nat) (f : Cluster → Cluster) : (s.modCluster cl f).waiters = s.waiters := rfl
@[simp] theorem State.modCluster_forwards (s : State) (cl : Nat) (f : Cluster → Cluster) : (s.modCluster cl f).forwards = s.forwards := rfl
@[simp] theorem State.modCluster_patches (s : State) (cl : Nat) (f : Cluster → Cluster) : (s.modCluster cl f).patches = s.patches := rfl
@[simp] theorem State.modCluster_nextPatch (s : State) (cl : Nat) (f : Cluster → Cluster) : (s.modCluster cl f).nextPatch = s.nextPatch := rfl
@[simp] theorem State.modCluster_images (s : State) (cl : Nat) (f : Cluster → Cluster) : (s.modCluster cl f).images = s.images := rfl
@[simp] theorem State.modCluster_saves (s : State) (cl : Nat) (f : Cluster → Cluster) : (s.modCluster cl f).saves = s.saves := rfl
@[simp] theorem State.modCluster_snaps (s : State) (cl : Nat) (f : Cluster → Cluster) : (s.modCluster cl f).snaps = s.snaps := rfl
@[simp] theorem State.modCluster_queues (s : State) (cl : Nat) (f : Cluster → Cluster) : (s.modCluster cl f).queues = s.queues := rfl
@[simp] theorem State.modCluster_pipe (s : State) (cl : Nat) (f : Cluster → Cluster) : (s.modCluster cl f).pipe = s.pipe := rfl
@[simp] theorem State.modCluster_nextPkt (s : State) (cl : Nat) (f : Cluster → Cluster) : (s.modCluster cl f).nextPkt = s.nextPkt := rfl
@[simp] theorem State.modCluster_leases (s : State) (cl : Nat) (f : Cluster → Cluster) : (s.modCluster cl f).leases = s.leases := rfl
@[simp] theorem State.modCluster_released (s : State) (cl : Nat) (f : Cluster → Cluster) : (s.modCluster cl f).released = s.released := rfl
@[simp] theorem State.modCluster_leaseGrants (s : State) (cl : Nat) (f : Cluster → Cluster) : (s.modCluster cl f).leaseGrants = s.leaseGrants := rfl
@[simp] theorem State.modCluster_nextLoan (s : State) (cl : Nat) (f : Cluster → Cluster) : (s.modCluster cl f).nextLoan = s.nextLoan := rfl
@[simp] theorem State.modCluster_funcs (s : State) (cl : Nat) (f : Cluster → Cluster) : (s.modCluster cl f).funcs = s.funcs := rfl
@[simp] theorem State.modCluster_numVfs (s : State) (cl : Nat) (f : Cluster → Cluster) : (s.modCluster cl f).numVfs = s.numVfs := rfl
@[simp] theorem State.modCluster_owners (s : State) (cl : Nat) (f : Cluster → Cluster) : (s.modCluster cl f).owners = s.owners := rfl
@[simp] theorem State.modCluster_drrNext (s : State) (cl : Nat) (f : Cluster → Cluster) : (s.modCluster cl f).drrNext = s.drrNext := rfl
@[simp] theorem State.modCluster_ingestNext (s : State) (cl : Nat) (f : Cluster → Cluster) : (s.modCluster cl f).ingestNext = s.ingestNext := rfl
@[simp] theorem State.modCluster_stripDown (s : State) (cl : Nat) (f : Cluster → Cluster) : (s.modCluster cl f).stripDown = s.stripDown := rfl
@[simp] theorem State.modCluster_stripDarned (s : State) (cl : Nat) (f : Cluster → Cluster) : (s.modCluster cl f).stripDarned = s.stripDarned := rfl
@[simp] theorem State.modCluster_stopped (s : State) (cl : Nat) (f : Cluster → Cluster) : (s.modCluster cl f).stopped = s.stopped := rfl
@[simp] theorem State.modCluster_quiesced (s : State) (cl : Nat) (f : Cluster → Cluster) : (s.modCluster cl f).quiesced = s.quiesced := rfl
@[simp] theorem State.modCluster_sl (s : State) (cl : Nat) (f : Cluster → Cluster) : (s.modCluster cl f).sl = s.sl := rfl
@[simp] theorem State.modCluster_ports (s : State) (cl : Nat) (f : Cluster → Cluster) : (s.modCluster cl f).ports = s.ports := rfl
@[simp] theorem State.modCluster_peerOut (s : State) (cl : Nat) (f : Cluster → Cluster) : (s.modCluster cl f).peerOut = s.peerOut := rfl
@[simp] theorem State.modCluster_token (s : State) (cl : Nat) (f : Cluster → Cluster) : (s.modCluster cl f).token = s.token := rfl
@[simp] theorem State.modCluster_events (s : State) (cl : Nat) (f : Cluster → Cluster) : (s.modCluster cl f).events = s.events := rfl
@[simp] theorem State.modCluster_inject (s : State) (cl : Nat) (f : Cluster → Cluster) : (s.modCluster cl f).inject = s.inject := rfl
@[simp] theorem State.modCluster_islands (s : State) (cl : Nat) (f : Cluster → Cluster) : (s.modCluster cl f).islands = s.islands := rfl
@[simp] theorem State.modCluster_meterAt (s : State) (cl : Nat) (f : Cluster → Cluster) : (s.modCluster cl f).meterAt = s.meterAt := rfl
@[simp] theorem State.modCluster_pwrCap (s : State) (cl : Nat) (f : Cluster → Cluster) : (s.modCluster cl f).pwrCap = s.pwrCap := rfl
@[simp] theorem State.modCluster_trust (s : State) (cl : Nat) (f : Cluster → Cluster) : (s.modCluster cl f).trust = s.trust := rfl
@[simp] theorem State.modCluster_time (s : State) (cl : Nat) (f : Cluster → Cluster) : (s.modCluster cl f).time = s.time := rfl
@[simp] theorem State.modCluster_mctpCode (s : State) (cl : Nat) (f : Cluster → Cluster) : (s.modCluster cl f).mctpCode = s.mctpCode := rfl
@[simp] theorem State.modCluster_readback (s : State) (cl : Nat) (f : Cluster → Cluster) : (s.modCluster cl f).readback = s.readback := rfl
@[simp] theorem State.modCluster_inputs (s : State) (cl : Nat) (f : Cluster → Cluster) : (s.modCluster cl f).inputs = s.inputs := rfl
@[simp] theorem State.modCluster_posted (s : State) (cl : Nat) (f : Cluster → Cluster) : (s.modCluster cl f).posted = s.posted := rfl
@[simp] theorem State.modCluster_pkSel (s : State) (cl : Nat) (f : Cluster → Cluster) : (s.modCluster cl f).pkSel = s.pkSel := rfl
@[simp] theorem State.modCluster_cmdIn (s : State) (cl : Nat) (f : Cluster → Cluster) : (s.modCluster cl f).cmdIn = s.cmdIn := rfl
@[simp] theorem State.modCluster_msgIn (s : State) (cl : Nat) (f : Cluster → Cluster) : (s.modCluster cl f).msgIn = s.msgIn := rfl
@[simp] theorem State.modCluster_mgmtIn (s : State) (cl : Nat) (f : Cluster → Cluster) : (s.modCluster cl f).mgmtIn = s.mgmtIn := rfl
@[simp] theorem State.modCluster_timerIn (s : State) (cl : Nat) (f : Cluster → Cluster) : (s.modCluster cl f).timerIn = s.timerIn := rfl
@[simp] theorem State.modCluster_grants (s : State) (cl : Nat) (f : Cluster → Cluster) : (s.modCluster cl f).grants = s.grants := rfl
@[simp] theorem State.modCluster_cur (s : State) (cl : Nat) (f : Cluster → Cluster) : (s.modCluster cl f).cur = s.cur := rfl
@[simp] theorem State.modCluster_tick (s : State) (cl : Nat) (f : Cluster → Cluster) : (s.modCluster cl f).tick = s.tick := rfl

/-! ### `modPatch` changes only `patches` -/

@[simp] theorem State.modPatch_cores (s : State) (pt : Nat) (f : Patch → Patch) : (s.modPatch pt f).cores = s.cores := rfl
@[simp] theorem State.modPatch_victims (s : State) (pt : Nat) (f : Patch → Patch) : (s.modPatch pt f).victims = s.victims := rfl
@[simp] theorem State.modPatch_clusters (s : State) (pt : Nat) (f : Patch → Patch) : (s.modPatch pt f).clusters = s.clusters := rfl
@[simp] theorem State.modPatch_mem (s : State) (pt : Nat) (f : Patch → Patch) : (s.modPatch pt f).mem = s.mem := rfl
@[simp] theorem State.modPatch_lineTags (s : State) (pt : Nat) (f : Patch → Patch) : (s.modPatch pt f).lineTags = s.lineTags := rfl
@[simp] theorem State.modPatch_poison (s : State) (pt : Nat) (f : Patch → Patch) : (s.modPatch pt f).poison = s.poison := rfl
@[simp] theorem State.modPatch_hostMem (s : State) (pt : Nat) (f : Patch → Patch) : (s.modPatch pt f).hostMem = s.hostMem := rfl
@[simp] theorem State.modPatch_peerMem (s : State) (pt : Nat) (f : Patch → Patch) : (s.modPatch pt f).peerMem = s.peerMem := rfl
@[simp] theorem State.modPatch_nodeRins (s : State) (pt : Nat) (f : Patch → Patch) : (s.modPatch pt f).nodeRins = s.nodeRins := rfl
@[simp] theorem State.modPatch_denials (s : State) (pt : Nat) (f : Patch → Patch) : (s.modPatch pt f).denials = s.denials := rfl
@[simp] theorem State.modPatch_undo (s : State) (pt : Nat) (f : Patch → Patch) : (s.modPatch pt f).undo = s.undo := rfl
@[simp] theorem State.modPatch_escapes (s : State) (pt : Nat) (f : Patch → Patch) : (s.modPatch pt f).escapes = s.escapes := rfl
@[simp] theorem State.modPatch_escNext (s : State) (pt : Nat) (f : Patch → Patch) : (s.modPatch pt f).escNext = s.escNext := rfl
@[simp] theorem State.modPatch_waiters (s : State) (pt : Nat) (f : Patch → Patch) : (s.modPatch pt f).waiters = s.waiters := rfl
@[simp] theorem State.modPatch_forwards (s : State) (pt : Nat) (f : Patch → Patch) : (s.modPatch pt f).forwards = s.forwards := rfl
@[simp] theorem State.modPatch_nextPatch (s : State) (pt : Nat) (f : Patch → Patch) : (s.modPatch pt f).nextPatch = s.nextPatch := rfl
@[simp] theorem State.modPatch_images (s : State) (pt : Nat) (f : Patch → Patch) : (s.modPatch pt f).images = s.images := rfl
@[simp] theorem State.modPatch_saves (s : State) (pt : Nat) (f : Patch → Patch) : (s.modPatch pt f).saves = s.saves := rfl
@[simp] theorem State.modPatch_snaps (s : State) (pt : Nat) (f : Patch → Patch) : (s.modPatch pt f).snaps = s.snaps := rfl
@[simp] theorem State.modPatch_queues (s : State) (pt : Nat) (f : Patch → Patch) : (s.modPatch pt f).queues = s.queues := rfl
@[simp] theorem State.modPatch_pipe (s : State) (pt : Nat) (f : Patch → Patch) : (s.modPatch pt f).pipe = s.pipe := rfl
@[simp] theorem State.modPatch_nextPkt (s : State) (pt : Nat) (f : Patch → Patch) : (s.modPatch pt f).nextPkt = s.nextPkt := rfl
@[simp] theorem State.modPatch_leases (s : State) (pt : Nat) (f : Patch → Patch) : (s.modPatch pt f).leases = s.leases := rfl
@[simp] theorem State.modPatch_released (s : State) (pt : Nat) (f : Patch → Patch) : (s.modPatch pt f).released = s.released := rfl
@[simp] theorem State.modPatch_leaseGrants (s : State) (pt : Nat) (f : Patch → Patch) : (s.modPatch pt f).leaseGrants = s.leaseGrants := rfl
@[simp] theorem State.modPatch_nextLoan (s : State) (pt : Nat) (f : Patch → Patch) : (s.modPatch pt f).nextLoan = s.nextLoan := rfl
@[simp] theorem State.modPatch_funcs (s : State) (pt : Nat) (f : Patch → Patch) : (s.modPatch pt f).funcs = s.funcs := rfl
@[simp] theorem State.modPatch_numVfs (s : State) (pt : Nat) (f : Patch → Patch) : (s.modPatch pt f).numVfs = s.numVfs := rfl
@[simp] theorem State.modPatch_owners (s : State) (pt : Nat) (f : Patch → Patch) : (s.modPatch pt f).owners = s.owners := rfl
@[simp] theorem State.modPatch_drrNext (s : State) (pt : Nat) (f : Patch → Patch) : (s.modPatch pt f).drrNext = s.drrNext := rfl
@[simp] theorem State.modPatch_ingestNext (s : State) (pt : Nat) (f : Patch → Patch) : (s.modPatch pt f).ingestNext = s.ingestNext := rfl
@[simp] theorem State.modPatch_stripDown (s : State) (pt : Nat) (f : Patch → Patch) : (s.modPatch pt f).stripDown = s.stripDown := rfl
@[simp] theorem State.modPatch_stripDarned (s : State) (pt : Nat) (f : Patch → Patch) : (s.modPatch pt f).stripDarned = s.stripDarned := rfl
@[simp] theorem State.modPatch_stopped (s : State) (pt : Nat) (f : Patch → Patch) : (s.modPatch pt f).stopped = s.stopped := rfl
@[simp] theorem State.modPatch_quiesced (s : State) (pt : Nat) (f : Patch → Patch) : (s.modPatch pt f).quiesced = s.quiesced := rfl
@[simp] theorem State.modPatch_sl (s : State) (pt : Nat) (f : Patch → Patch) : (s.modPatch pt f).sl = s.sl := rfl
@[simp] theorem State.modPatch_ports (s : State) (pt : Nat) (f : Patch → Patch) : (s.modPatch pt f).ports = s.ports := rfl
@[simp] theorem State.modPatch_peerOut (s : State) (pt : Nat) (f : Patch → Patch) : (s.modPatch pt f).peerOut = s.peerOut := rfl
@[simp] theorem State.modPatch_token (s : State) (pt : Nat) (f : Patch → Patch) : (s.modPatch pt f).token = s.token := rfl
@[simp] theorem State.modPatch_events (s : State) (pt : Nat) (f : Patch → Patch) : (s.modPatch pt f).events = s.events := rfl
@[simp] theorem State.modPatch_inject (s : State) (pt : Nat) (f : Patch → Patch) : (s.modPatch pt f).inject = s.inject := rfl
@[simp] theorem State.modPatch_islands (s : State) (pt : Nat) (f : Patch → Patch) : (s.modPatch pt f).islands = s.islands := rfl
@[simp] theorem State.modPatch_meterAt (s : State) (pt : Nat) (f : Patch → Patch) : (s.modPatch pt f).meterAt = s.meterAt := rfl
@[simp] theorem State.modPatch_pwrCap (s : State) (pt : Nat) (f : Patch → Patch) : (s.modPatch pt f).pwrCap = s.pwrCap := rfl
@[simp] theorem State.modPatch_trust (s : State) (pt : Nat) (f : Patch → Patch) : (s.modPatch pt f).trust = s.trust := rfl
@[simp] theorem State.modPatch_time (s : State) (pt : Nat) (f : Patch → Patch) : (s.modPatch pt f).time = s.time := rfl
@[simp] theorem State.modPatch_mctpCode (s : State) (pt : Nat) (f : Patch → Patch) : (s.modPatch pt f).mctpCode = s.mctpCode := rfl
@[simp] theorem State.modPatch_readback (s : State) (pt : Nat) (f : Patch → Patch) : (s.modPatch pt f).readback = s.readback := rfl
@[simp] theorem State.modPatch_inputs (s : State) (pt : Nat) (f : Patch → Patch) : (s.modPatch pt f).inputs = s.inputs := rfl
@[simp] theorem State.modPatch_posted (s : State) (pt : Nat) (f : Patch → Patch) : (s.modPatch pt f).posted = s.posted := rfl
@[simp] theorem State.modPatch_pkSel (s : State) (pt : Nat) (f : Patch → Patch) : (s.modPatch pt f).pkSel = s.pkSel := rfl
@[simp] theorem State.modPatch_cmdIn (s : State) (pt : Nat) (f : Patch → Patch) : (s.modPatch pt f).cmdIn = s.cmdIn := rfl
@[simp] theorem State.modPatch_msgIn (s : State) (pt : Nat) (f : Patch → Patch) : (s.modPatch pt f).msgIn = s.msgIn := rfl
@[simp] theorem State.modPatch_mgmtIn (s : State) (pt : Nat) (f : Patch → Patch) : (s.modPatch pt f).mgmtIn = s.mgmtIn := rfl
@[simp] theorem State.modPatch_timerIn (s : State) (pt : Nat) (f : Patch → Patch) : (s.modPatch pt f).timerIn = s.timerIn := rfl
@[simp] theorem State.modPatch_grants (s : State) (pt : Nat) (f : Patch → Patch) : (s.modPatch pt f).grants = s.grants := rfl
@[simp] theorem State.modPatch_cur (s : State) (pt : Nat) (f : Patch → Patch) : (s.modPatch pt f).cur = s.cur := rfl
@[simp] theorem State.modPatch_tick (s : State) (pt : Nat) (f : Patch → Patch) : (s.modPatch pt f).tick = s.tick := rfl

/-! ### `modLease` changes only `leases` -/

@[simp] theorem State.modLease_cores (s : State) (l : Nat) (f : Lease → Lease) : (s.modLease l f).cores = s.cores := rfl
@[simp] theorem State.modLease_victims (s : State) (l : Nat) (f : Lease → Lease) : (s.modLease l f).victims = s.victims := rfl
@[simp] theorem State.modLease_clusters (s : State) (l : Nat) (f : Lease → Lease) : (s.modLease l f).clusters = s.clusters := rfl
@[simp] theorem State.modLease_mem (s : State) (l : Nat) (f : Lease → Lease) : (s.modLease l f).mem = s.mem := rfl
@[simp] theorem State.modLease_lineTags (s : State) (l : Nat) (f : Lease → Lease) : (s.modLease l f).lineTags = s.lineTags := rfl
@[simp] theorem State.modLease_poison (s : State) (l : Nat) (f : Lease → Lease) : (s.modLease l f).poison = s.poison := rfl
@[simp] theorem State.modLease_hostMem (s : State) (l : Nat) (f : Lease → Lease) : (s.modLease l f).hostMem = s.hostMem := rfl
@[simp] theorem State.modLease_peerMem (s : State) (l : Nat) (f : Lease → Lease) : (s.modLease l f).peerMem = s.peerMem := rfl
@[simp] theorem State.modLease_nodeRins (s : State) (l : Nat) (f : Lease → Lease) : (s.modLease l f).nodeRins = s.nodeRins := rfl
@[simp] theorem State.modLease_denials (s : State) (l : Nat) (f : Lease → Lease) : (s.modLease l f).denials = s.denials := rfl
@[simp] theorem State.modLease_undo (s : State) (l : Nat) (f : Lease → Lease) : (s.modLease l f).undo = s.undo := rfl
@[simp] theorem State.modLease_escapes (s : State) (l : Nat) (f : Lease → Lease) : (s.modLease l f).escapes = s.escapes := rfl
@[simp] theorem State.modLease_escNext (s : State) (l : Nat) (f : Lease → Lease) : (s.modLease l f).escNext = s.escNext := rfl
@[simp] theorem State.modLease_waiters (s : State) (l : Nat) (f : Lease → Lease) : (s.modLease l f).waiters = s.waiters := rfl
@[simp] theorem State.modLease_forwards (s : State) (l : Nat) (f : Lease → Lease) : (s.modLease l f).forwards = s.forwards := rfl
@[simp] theorem State.modLease_patches (s : State) (l : Nat) (f : Lease → Lease) : (s.modLease l f).patches = s.patches := rfl
@[simp] theorem State.modLease_nextPatch (s : State) (l : Nat) (f : Lease → Lease) : (s.modLease l f).nextPatch = s.nextPatch := rfl
@[simp] theorem State.modLease_images (s : State) (l : Nat) (f : Lease → Lease) : (s.modLease l f).images = s.images := rfl
@[simp] theorem State.modLease_saves (s : State) (l : Nat) (f : Lease → Lease) : (s.modLease l f).saves = s.saves := rfl
@[simp] theorem State.modLease_snaps (s : State) (l : Nat) (f : Lease → Lease) : (s.modLease l f).snaps = s.snaps := rfl
@[simp] theorem State.modLease_queues (s : State) (l : Nat) (f : Lease → Lease) : (s.modLease l f).queues = s.queues := rfl
@[simp] theorem State.modLease_pipe (s : State) (l : Nat) (f : Lease → Lease) : (s.modLease l f).pipe = s.pipe := rfl
@[simp] theorem State.modLease_nextPkt (s : State) (l : Nat) (f : Lease → Lease) : (s.modLease l f).nextPkt = s.nextPkt := rfl
@[simp] theorem State.modLease_released (s : State) (l : Nat) (f : Lease → Lease) : (s.modLease l f).released = s.released := rfl
@[simp] theorem State.modLease_leaseGrants (s : State) (l : Nat) (f : Lease → Lease) : (s.modLease l f).leaseGrants = s.leaseGrants := rfl
@[simp] theorem State.modLease_nextLoan (s : State) (l : Nat) (f : Lease → Lease) : (s.modLease l f).nextLoan = s.nextLoan := rfl
@[simp] theorem State.modLease_funcs (s : State) (l : Nat) (f : Lease → Lease) : (s.modLease l f).funcs = s.funcs := rfl
@[simp] theorem State.modLease_numVfs (s : State) (l : Nat) (f : Lease → Lease) : (s.modLease l f).numVfs = s.numVfs := rfl
@[simp] theorem State.modLease_owners (s : State) (l : Nat) (f : Lease → Lease) : (s.modLease l f).owners = s.owners := rfl
@[simp] theorem State.modLease_drrNext (s : State) (l : Nat) (f : Lease → Lease) : (s.modLease l f).drrNext = s.drrNext := rfl
@[simp] theorem State.modLease_ingestNext (s : State) (l : Nat) (f : Lease → Lease) : (s.modLease l f).ingestNext = s.ingestNext := rfl
@[simp] theorem State.modLease_stripDown (s : State) (l : Nat) (f : Lease → Lease) : (s.modLease l f).stripDown = s.stripDown := rfl
@[simp] theorem State.modLease_stripDarned (s : State) (l : Nat) (f : Lease → Lease) : (s.modLease l f).stripDarned = s.stripDarned := rfl
@[simp] theorem State.modLease_stopped (s : State) (l : Nat) (f : Lease → Lease) : (s.modLease l f).stopped = s.stopped := rfl
@[simp] theorem State.modLease_quiesced (s : State) (l : Nat) (f : Lease → Lease) : (s.modLease l f).quiesced = s.quiesced := rfl
@[simp] theorem State.modLease_sl (s : State) (l : Nat) (f : Lease → Lease) : (s.modLease l f).sl = s.sl := rfl
@[simp] theorem State.modLease_ports (s : State) (l : Nat) (f : Lease → Lease) : (s.modLease l f).ports = s.ports := rfl
@[simp] theorem State.modLease_peerOut (s : State) (l : Nat) (f : Lease → Lease) : (s.modLease l f).peerOut = s.peerOut := rfl
@[simp] theorem State.modLease_token (s : State) (l : Nat) (f : Lease → Lease) : (s.modLease l f).token = s.token := rfl
@[simp] theorem State.modLease_events (s : State) (l : Nat) (f : Lease → Lease) : (s.modLease l f).events = s.events := rfl
@[simp] theorem State.modLease_inject (s : State) (l : Nat) (f : Lease → Lease) : (s.modLease l f).inject = s.inject := rfl
@[simp] theorem State.modLease_islands (s : State) (l : Nat) (f : Lease → Lease) : (s.modLease l f).islands = s.islands := rfl
@[simp] theorem State.modLease_meterAt (s : State) (l : Nat) (f : Lease → Lease) : (s.modLease l f).meterAt = s.meterAt := rfl
@[simp] theorem State.modLease_pwrCap (s : State) (l : Nat) (f : Lease → Lease) : (s.modLease l f).pwrCap = s.pwrCap := rfl
@[simp] theorem State.modLease_trust (s : State) (l : Nat) (f : Lease → Lease) : (s.modLease l f).trust = s.trust := rfl
@[simp] theorem State.modLease_time (s : State) (l : Nat) (f : Lease → Lease) : (s.modLease l f).time = s.time := rfl
@[simp] theorem State.modLease_mctpCode (s : State) (l : Nat) (f : Lease → Lease) : (s.modLease l f).mctpCode = s.mctpCode := rfl
@[simp] theorem State.modLease_readback (s : State) (l : Nat) (f : Lease → Lease) : (s.modLease l f).readback = s.readback := rfl
@[simp] theorem State.modLease_inputs (s : State) (l : Nat) (f : Lease → Lease) : (s.modLease l f).inputs = s.inputs := rfl
@[simp] theorem State.modLease_posted (s : State) (l : Nat) (f : Lease → Lease) : (s.modLease l f).posted = s.posted := rfl
@[simp] theorem State.modLease_pkSel (s : State) (l : Nat) (f : Lease → Lease) : (s.modLease l f).pkSel = s.pkSel := rfl
@[simp] theorem State.modLease_cmdIn (s : State) (l : Nat) (f : Lease → Lease) : (s.modLease l f).cmdIn = s.cmdIn := rfl
@[simp] theorem State.modLease_msgIn (s : State) (l : Nat) (f : Lease → Lease) : (s.modLease l f).msgIn = s.msgIn := rfl
@[simp] theorem State.modLease_mgmtIn (s : State) (l : Nat) (f : Lease → Lease) : (s.modLease l f).mgmtIn = s.mgmtIn := rfl
@[simp] theorem State.modLease_timerIn (s : State) (l : Nat) (f : Lease → Lease) : (s.modLease l f).timerIn = s.timerIn := rfl
@[simp] theorem State.modLease_grants (s : State) (l : Nat) (f : Lease → Lease) : (s.modLease l f).grants = s.grants := rfl
@[simp] theorem State.modLease_cur (s : State) (l : Nat) (f : Lease → Lease) : (s.modLease l f).cur = s.cur := rfl
@[simp] theorem State.modLease_tick (s : State) (l : Nat) (f : Lease → Lease) : (s.modLease l f).tick = s.tick := rfl

/-! ### `modQueue` changes only `queues` -/

@[simp] theorem State.modQueue_cores (s : State) (q : Nat) (f : Queue → Queue) : (s.modQueue q f).cores = s.cores := rfl
@[simp] theorem State.modQueue_victims (s : State) (q : Nat) (f : Queue → Queue) : (s.modQueue q f).victims = s.victims := rfl
@[simp] theorem State.modQueue_clusters (s : State) (q : Nat) (f : Queue → Queue) : (s.modQueue q f).clusters = s.clusters := rfl
@[simp] theorem State.modQueue_mem (s : State) (q : Nat) (f : Queue → Queue) : (s.modQueue q f).mem = s.mem := rfl
@[simp] theorem State.modQueue_lineTags (s : State) (q : Nat) (f : Queue → Queue) : (s.modQueue q f).lineTags = s.lineTags := rfl
@[simp] theorem State.modQueue_poison (s : State) (q : Nat) (f : Queue → Queue) : (s.modQueue q f).poison = s.poison := rfl
@[simp] theorem State.modQueue_hostMem (s : State) (q : Nat) (f : Queue → Queue) : (s.modQueue q f).hostMem = s.hostMem := rfl
@[simp] theorem State.modQueue_peerMem (s : State) (q : Nat) (f : Queue → Queue) : (s.modQueue q f).peerMem = s.peerMem := rfl
@[simp] theorem State.modQueue_nodeRins (s : State) (q : Nat) (f : Queue → Queue) : (s.modQueue q f).nodeRins = s.nodeRins := rfl
@[simp] theorem State.modQueue_denials (s : State) (q : Nat) (f : Queue → Queue) : (s.modQueue q f).denials = s.denials := rfl
@[simp] theorem State.modQueue_undo (s : State) (q : Nat) (f : Queue → Queue) : (s.modQueue q f).undo = s.undo := rfl
@[simp] theorem State.modQueue_escapes (s : State) (q : Nat) (f : Queue → Queue) : (s.modQueue q f).escapes = s.escapes := rfl
@[simp] theorem State.modQueue_escNext (s : State) (q : Nat) (f : Queue → Queue) : (s.modQueue q f).escNext = s.escNext := rfl
@[simp] theorem State.modQueue_waiters (s : State) (q : Nat) (f : Queue → Queue) : (s.modQueue q f).waiters = s.waiters := rfl
@[simp] theorem State.modQueue_forwards (s : State) (q : Nat) (f : Queue → Queue) : (s.modQueue q f).forwards = s.forwards := rfl
@[simp] theorem State.modQueue_patches (s : State) (q : Nat) (f : Queue → Queue) : (s.modQueue q f).patches = s.patches := rfl
@[simp] theorem State.modQueue_nextPatch (s : State) (q : Nat) (f : Queue → Queue) : (s.modQueue q f).nextPatch = s.nextPatch := rfl
@[simp] theorem State.modQueue_images (s : State) (q : Nat) (f : Queue → Queue) : (s.modQueue q f).images = s.images := rfl
@[simp] theorem State.modQueue_saves (s : State) (q : Nat) (f : Queue → Queue) : (s.modQueue q f).saves = s.saves := rfl
@[simp] theorem State.modQueue_snaps (s : State) (q : Nat) (f : Queue → Queue) : (s.modQueue q f).snaps = s.snaps := rfl
@[simp] theorem State.modQueue_pipe (s : State) (q : Nat) (f : Queue → Queue) : (s.modQueue q f).pipe = s.pipe := rfl
@[simp] theorem State.modQueue_nextPkt (s : State) (q : Nat) (f : Queue → Queue) : (s.modQueue q f).nextPkt = s.nextPkt := rfl
@[simp] theorem State.modQueue_leases (s : State) (q : Nat) (f : Queue → Queue) : (s.modQueue q f).leases = s.leases := rfl
@[simp] theorem State.modQueue_released (s : State) (q : Nat) (f : Queue → Queue) : (s.modQueue q f).released = s.released := rfl
@[simp] theorem State.modQueue_leaseGrants (s : State) (q : Nat) (f : Queue → Queue) : (s.modQueue q f).leaseGrants = s.leaseGrants := rfl
@[simp] theorem State.modQueue_nextLoan (s : State) (q : Nat) (f : Queue → Queue) : (s.modQueue q f).nextLoan = s.nextLoan := rfl
@[simp] theorem State.modQueue_funcs (s : State) (q : Nat) (f : Queue → Queue) : (s.modQueue q f).funcs = s.funcs := rfl
@[simp] theorem State.modQueue_numVfs (s : State) (q : Nat) (f : Queue → Queue) : (s.modQueue q f).numVfs = s.numVfs := rfl
@[simp] theorem State.modQueue_owners (s : State) (q : Nat) (f : Queue → Queue) : (s.modQueue q f).owners = s.owners := rfl
@[simp] theorem State.modQueue_drrNext (s : State) (q : Nat) (f : Queue → Queue) : (s.modQueue q f).drrNext = s.drrNext := rfl
@[simp] theorem State.modQueue_ingestNext (s : State) (q : Nat) (f : Queue → Queue) : (s.modQueue q f).ingestNext = s.ingestNext := rfl
@[simp] theorem State.modQueue_stripDown (s : State) (q : Nat) (f : Queue → Queue) : (s.modQueue q f).stripDown = s.stripDown := rfl
@[simp] theorem State.modQueue_stripDarned (s : State) (q : Nat) (f : Queue → Queue) : (s.modQueue q f).stripDarned = s.stripDarned := rfl
@[simp] theorem State.modQueue_stopped (s : State) (q : Nat) (f : Queue → Queue) : (s.modQueue q f).stopped = s.stopped := rfl
@[simp] theorem State.modQueue_quiesced (s : State) (q : Nat) (f : Queue → Queue) : (s.modQueue q f).quiesced = s.quiesced := rfl
@[simp] theorem State.modQueue_sl (s : State) (q : Nat) (f : Queue → Queue) : (s.modQueue q f).sl = s.sl := rfl
@[simp] theorem State.modQueue_ports (s : State) (q : Nat) (f : Queue → Queue) : (s.modQueue q f).ports = s.ports := rfl
@[simp] theorem State.modQueue_peerOut (s : State) (q : Nat) (f : Queue → Queue) : (s.modQueue q f).peerOut = s.peerOut := rfl
@[simp] theorem State.modQueue_token (s : State) (q : Nat) (f : Queue → Queue) : (s.modQueue q f).token = s.token := rfl
@[simp] theorem State.modQueue_events (s : State) (q : Nat) (f : Queue → Queue) : (s.modQueue q f).events = s.events := rfl
@[simp] theorem State.modQueue_inject (s : State) (q : Nat) (f : Queue → Queue) : (s.modQueue q f).inject = s.inject := rfl
@[simp] theorem State.modQueue_islands (s : State) (q : Nat) (f : Queue → Queue) : (s.modQueue q f).islands = s.islands := rfl
@[simp] theorem State.modQueue_meterAt (s : State) (q : Nat) (f : Queue → Queue) : (s.modQueue q f).meterAt = s.meterAt := rfl
@[simp] theorem State.modQueue_pwrCap (s : State) (q : Nat) (f : Queue → Queue) : (s.modQueue q f).pwrCap = s.pwrCap := rfl
@[simp] theorem State.modQueue_trust (s : State) (q : Nat) (f : Queue → Queue) : (s.modQueue q f).trust = s.trust := rfl
@[simp] theorem State.modQueue_time (s : State) (q : Nat) (f : Queue → Queue) : (s.modQueue q f).time = s.time := rfl
@[simp] theorem State.modQueue_mctpCode (s : State) (q : Nat) (f : Queue → Queue) : (s.modQueue q f).mctpCode = s.mctpCode := rfl
@[simp] theorem State.modQueue_readback (s : State) (q : Nat) (f : Queue → Queue) : (s.modQueue q f).readback = s.readback := rfl
@[simp] theorem State.modQueue_inputs (s : State) (q : Nat) (f : Queue → Queue) : (s.modQueue q f).inputs = s.inputs := rfl
@[simp] theorem State.modQueue_posted (s : State) (q : Nat) (f : Queue → Queue) : (s.modQueue q f).posted = s.posted := rfl
@[simp] theorem State.modQueue_pkSel (s : State) (q : Nat) (f : Queue → Queue) : (s.modQueue q f).pkSel = s.pkSel := rfl
@[simp] theorem State.modQueue_cmdIn (s : State) (q : Nat) (f : Queue → Queue) : (s.modQueue q f).cmdIn = s.cmdIn := rfl
@[simp] theorem State.modQueue_msgIn (s : State) (q : Nat) (f : Queue → Queue) : (s.modQueue q f).msgIn = s.msgIn := rfl
@[simp] theorem State.modQueue_mgmtIn (s : State) (q : Nat) (f : Queue → Queue) : (s.modQueue q f).mgmtIn = s.mgmtIn := rfl
@[simp] theorem State.modQueue_timerIn (s : State) (q : Nat) (f : Queue → Queue) : (s.modQueue q f).timerIn = s.timerIn := rfl
@[simp] theorem State.modQueue_grants (s : State) (q : Nat) (f : Queue → Queue) : (s.modQueue q f).grants = s.grants := rfl
@[simp] theorem State.modQueue_cur (s : State) (q : Nat) (f : Queue → Queue) : (s.modQueue q f).cur = s.cur := rfl
@[simp] theorem State.modQueue_tick (s : State) (q : Nat) (f : Queue → Queue) : (s.modQueue q f).tick = s.tick := rfl

/-! ### `modFn` changes only `funcs` -/

@[simp] theorem State.modFn_cores (s : State) (n : Nat) (f : Func → Func) : (s.modFn n f).cores = s.cores := rfl
@[simp] theorem State.modFn_victims (s : State) (n : Nat) (f : Func → Func) : (s.modFn n f).victims = s.victims := rfl
@[simp] theorem State.modFn_clusters (s : State) (n : Nat) (f : Func → Func) : (s.modFn n f).clusters = s.clusters := rfl
@[simp] theorem State.modFn_mem (s : State) (n : Nat) (f : Func → Func) : (s.modFn n f).mem = s.mem := rfl
@[simp] theorem State.modFn_lineTags (s : State) (n : Nat) (f : Func → Func) : (s.modFn n f).lineTags = s.lineTags := rfl
@[simp] theorem State.modFn_poison (s : State) (n : Nat) (f : Func → Func) : (s.modFn n f).poison = s.poison := rfl
@[simp] theorem State.modFn_hostMem (s : State) (n : Nat) (f : Func → Func) : (s.modFn n f).hostMem = s.hostMem := rfl
@[simp] theorem State.modFn_peerMem (s : State) (n : Nat) (f : Func → Func) : (s.modFn n f).peerMem = s.peerMem := rfl
@[simp] theorem State.modFn_nodeRins (s : State) (n : Nat) (f : Func → Func) : (s.modFn n f).nodeRins = s.nodeRins := rfl
@[simp] theorem State.modFn_denials (s : State) (n : Nat) (f : Func → Func) : (s.modFn n f).denials = s.denials := rfl
@[simp] theorem State.modFn_undo (s : State) (n : Nat) (f : Func → Func) : (s.modFn n f).undo = s.undo := rfl
@[simp] theorem State.modFn_escapes (s : State) (n : Nat) (f : Func → Func) : (s.modFn n f).escapes = s.escapes := rfl
@[simp] theorem State.modFn_escNext (s : State) (n : Nat) (f : Func → Func) : (s.modFn n f).escNext = s.escNext := rfl
@[simp] theorem State.modFn_waiters (s : State) (n : Nat) (f : Func → Func) : (s.modFn n f).waiters = s.waiters := rfl
@[simp] theorem State.modFn_forwards (s : State) (n : Nat) (f : Func → Func) : (s.modFn n f).forwards = s.forwards := rfl
@[simp] theorem State.modFn_patches (s : State) (n : Nat) (f : Func → Func) : (s.modFn n f).patches = s.patches := rfl
@[simp] theorem State.modFn_nextPatch (s : State) (n : Nat) (f : Func → Func) : (s.modFn n f).nextPatch = s.nextPatch := rfl
@[simp] theorem State.modFn_images (s : State) (n : Nat) (f : Func → Func) : (s.modFn n f).images = s.images := rfl
@[simp] theorem State.modFn_saves (s : State) (n : Nat) (f : Func → Func) : (s.modFn n f).saves = s.saves := rfl
@[simp] theorem State.modFn_snaps (s : State) (n : Nat) (f : Func → Func) : (s.modFn n f).snaps = s.snaps := rfl
@[simp] theorem State.modFn_queues (s : State) (n : Nat) (f : Func → Func) : (s.modFn n f).queues = s.queues := rfl
@[simp] theorem State.modFn_pipe (s : State) (n : Nat) (f : Func → Func) : (s.modFn n f).pipe = s.pipe := rfl
@[simp] theorem State.modFn_nextPkt (s : State) (n : Nat) (f : Func → Func) : (s.modFn n f).nextPkt = s.nextPkt := rfl
@[simp] theorem State.modFn_leases (s : State) (n : Nat) (f : Func → Func) : (s.modFn n f).leases = s.leases := rfl
@[simp] theorem State.modFn_released (s : State) (n : Nat) (f : Func → Func) : (s.modFn n f).released = s.released := rfl
@[simp] theorem State.modFn_leaseGrants (s : State) (n : Nat) (f : Func → Func) : (s.modFn n f).leaseGrants = s.leaseGrants := rfl
@[simp] theorem State.modFn_nextLoan (s : State) (n : Nat) (f : Func → Func) : (s.modFn n f).nextLoan = s.nextLoan := rfl
@[simp] theorem State.modFn_numVfs (s : State) (n : Nat) (f : Func → Func) : (s.modFn n f).numVfs = s.numVfs := rfl
@[simp] theorem State.modFn_owners (s : State) (n : Nat) (f : Func → Func) : (s.modFn n f).owners = s.owners := rfl
@[simp] theorem State.modFn_drrNext (s : State) (n : Nat) (f : Func → Func) : (s.modFn n f).drrNext = s.drrNext := rfl
@[simp] theorem State.modFn_ingestNext (s : State) (n : Nat) (f : Func → Func) : (s.modFn n f).ingestNext = s.ingestNext := rfl
@[simp] theorem State.modFn_stripDown (s : State) (n : Nat) (f : Func → Func) : (s.modFn n f).stripDown = s.stripDown := rfl
@[simp] theorem State.modFn_stripDarned (s : State) (n : Nat) (f : Func → Func) : (s.modFn n f).stripDarned = s.stripDarned := rfl
@[simp] theorem State.modFn_stopped (s : State) (n : Nat) (f : Func → Func) : (s.modFn n f).stopped = s.stopped := rfl
@[simp] theorem State.modFn_quiesced (s : State) (n : Nat) (f : Func → Func) : (s.modFn n f).quiesced = s.quiesced := rfl
@[simp] theorem State.modFn_sl (s : State) (n : Nat) (f : Func → Func) : (s.modFn n f).sl = s.sl := rfl
@[simp] theorem State.modFn_ports (s : State) (n : Nat) (f : Func → Func) : (s.modFn n f).ports = s.ports := rfl
@[simp] theorem State.modFn_peerOut (s : State) (n : Nat) (f : Func → Func) : (s.modFn n f).peerOut = s.peerOut := rfl
@[simp] theorem State.modFn_token (s : State) (n : Nat) (f : Func → Func) : (s.modFn n f).token = s.token := rfl
@[simp] theorem State.modFn_events (s : State) (n : Nat) (f : Func → Func) : (s.modFn n f).events = s.events := rfl
@[simp] theorem State.modFn_inject (s : State) (n : Nat) (f : Func → Func) : (s.modFn n f).inject = s.inject := rfl
@[simp] theorem State.modFn_islands (s : State) (n : Nat) (f : Func → Func) : (s.modFn n f).islands = s.islands := rfl
@[simp] theorem State.modFn_meterAt (s : State) (n : Nat) (f : Func → Func) : (s.modFn n f).meterAt = s.meterAt := rfl
@[simp] theorem State.modFn_pwrCap (s : State) (n : Nat) (f : Func → Func) : (s.modFn n f).pwrCap = s.pwrCap := rfl
@[simp] theorem State.modFn_trust (s : State) (n : Nat) (f : Func → Func) : (s.modFn n f).trust = s.trust := rfl
@[simp] theorem State.modFn_time (s : State) (n : Nat) (f : Func → Func) : (s.modFn n f).time = s.time := rfl
@[simp] theorem State.modFn_mctpCode (s : State) (n : Nat) (f : Func → Func) : (s.modFn n f).mctpCode = s.mctpCode := rfl
@[simp] theorem State.modFn_readback (s : State) (n : Nat) (f : Func → Func) : (s.modFn n f).readback = s.readback := rfl
@[simp] theorem State.modFn_inputs (s : State) (n : Nat) (f : Func → Func) : (s.modFn n f).inputs = s.inputs := rfl
@[simp] theorem State.modFn_posted (s : State) (n : Nat) (f : Func → Func) : (s.modFn n f).posted = s.posted := rfl
@[simp] theorem State.modFn_pkSel (s : State) (n : Nat) (f : Func → Func) : (s.modFn n f).pkSel = s.pkSel := rfl
@[simp] theorem State.modFn_cmdIn (s : State) (n : Nat) (f : Func → Func) : (s.modFn n f).cmdIn = s.cmdIn := rfl
@[simp] theorem State.modFn_msgIn (s : State) (n : Nat) (f : Func → Func) : (s.modFn n f).msgIn = s.msgIn := rfl
@[simp] theorem State.modFn_mgmtIn (s : State) (n : Nat) (f : Func → Func) : (s.modFn n f).mgmtIn = s.mgmtIn := rfl
@[simp] theorem State.modFn_timerIn (s : State) (n : Nat) (f : Func → Func) : (s.modFn n f).timerIn = s.timerIn := rfl
@[simp] theorem State.modFn_grants (s : State) (n : Nat) (f : Func → Func) : (s.modFn n f).grants = s.grants := rfl
@[simp] theorem State.modFn_cur (s : State) (n : Nat) (f : Func → Func) : (s.modFn n f).cur = s.cur := rfl
@[simp] theorem State.modFn_tick (s : State) (n : Nat) (f : Func → Func) : (s.modFn n f).tick = s.tick := rfl

/-! ### `modOwner` changes only `owners` -/

@[simp] theorem State.modOwner_cores (s : State) (o : Nat) (f : Owner → Owner) : (s.modOwner o f).cores = s.cores := rfl
@[simp] theorem State.modOwner_victims (s : State) (o : Nat) (f : Owner → Owner) : (s.modOwner o f).victims = s.victims := rfl
@[simp] theorem State.modOwner_clusters (s : State) (o : Nat) (f : Owner → Owner) : (s.modOwner o f).clusters = s.clusters := rfl
@[simp] theorem State.modOwner_mem (s : State) (o : Nat) (f : Owner → Owner) : (s.modOwner o f).mem = s.mem := rfl
@[simp] theorem State.modOwner_lineTags (s : State) (o : Nat) (f : Owner → Owner) : (s.modOwner o f).lineTags = s.lineTags := rfl
@[simp] theorem State.modOwner_poison (s : State) (o : Nat) (f : Owner → Owner) : (s.modOwner o f).poison = s.poison := rfl
@[simp] theorem State.modOwner_hostMem (s : State) (o : Nat) (f : Owner → Owner) : (s.modOwner o f).hostMem = s.hostMem := rfl
@[simp] theorem State.modOwner_peerMem (s : State) (o : Nat) (f : Owner → Owner) : (s.modOwner o f).peerMem = s.peerMem := rfl
@[simp] theorem State.modOwner_nodeRins (s : State) (o : Nat) (f : Owner → Owner) : (s.modOwner o f).nodeRins = s.nodeRins := rfl
@[simp] theorem State.modOwner_denials (s : State) (o : Nat) (f : Owner → Owner) : (s.modOwner o f).denials = s.denials := rfl
@[simp] theorem State.modOwner_undo (s : State) (o : Nat) (f : Owner → Owner) : (s.modOwner o f).undo = s.undo := rfl
@[simp] theorem State.modOwner_escapes (s : State) (o : Nat) (f : Owner → Owner) : (s.modOwner o f).escapes = s.escapes := rfl
@[simp] theorem State.modOwner_escNext (s : State) (o : Nat) (f : Owner → Owner) : (s.modOwner o f).escNext = s.escNext := rfl
@[simp] theorem State.modOwner_waiters (s : State) (o : Nat) (f : Owner → Owner) : (s.modOwner o f).waiters = s.waiters := rfl
@[simp] theorem State.modOwner_forwards (s : State) (o : Nat) (f : Owner → Owner) : (s.modOwner o f).forwards = s.forwards := rfl
@[simp] theorem State.modOwner_patches (s : State) (o : Nat) (f : Owner → Owner) : (s.modOwner o f).patches = s.patches := rfl
@[simp] theorem State.modOwner_nextPatch (s : State) (o : Nat) (f : Owner → Owner) : (s.modOwner o f).nextPatch = s.nextPatch := rfl
@[simp] theorem State.modOwner_images (s : State) (o : Nat) (f : Owner → Owner) : (s.modOwner o f).images = s.images := rfl
@[simp] theorem State.modOwner_saves (s : State) (o : Nat) (f : Owner → Owner) : (s.modOwner o f).saves = s.saves := rfl
@[simp] theorem State.modOwner_snaps (s : State) (o : Nat) (f : Owner → Owner) : (s.modOwner o f).snaps = s.snaps := rfl
@[simp] theorem State.modOwner_queues (s : State) (o : Nat) (f : Owner → Owner) : (s.modOwner o f).queues = s.queues := rfl
@[simp] theorem State.modOwner_pipe (s : State) (o : Nat) (f : Owner → Owner) : (s.modOwner o f).pipe = s.pipe := rfl
@[simp] theorem State.modOwner_nextPkt (s : State) (o : Nat) (f : Owner → Owner) : (s.modOwner o f).nextPkt = s.nextPkt := rfl
@[simp] theorem State.modOwner_leases (s : State) (o : Nat) (f : Owner → Owner) : (s.modOwner o f).leases = s.leases := rfl
@[simp] theorem State.modOwner_released (s : State) (o : Nat) (f : Owner → Owner) : (s.modOwner o f).released = s.released := rfl
@[simp] theorem State.modOwner_leaseGrants (s : State) (o : Nat) (f : Owner → Owner) : (s.modOwner o f).leaseGrants = s.leaseGrants := rfl
@[simp] theorem State.modOwner_nextLoan (s : State) (o : Nat) (f : Owner → Owner) : (s.modOwner o f).nextLoan = s.nextLoan := rfl
@[simp] theorem State.modOwner_funcs (s : State) (o : Nat) (f : Owner → Owner) : (s.modOwner o f).funcs = s.funcs := rfl
@[simp] theorem State.modOwner_numVfs (s : State) (o : Nat) (f : Owner → Owner) : (s.modOwner o f).numVfs = s.numVfs := rfl
@[simp] theorem State.modOwner_drrNext (s : State) (o : Nat) (f : Owner → Owner) : (s.modOwner o f).drrNext = s.drrNext := rfl
@[simp] theorem State.modOwner_ingestNext (s : State) (o : Nat) (f : Owner → Owner) : (s.modOwner o f).ingestNext = s.ingestNext := rfl
@[simp] theorem State.modOwner_stripDown (s : State) (o : Nat) (f : Owner → Owner) : (s.modOwner o f).stripDown = s.stripDown := rfl
@[simp] theorem State.modOwner_stripDarned (s : State) (o : Nat) (f : Owner → Owner) : (s.modOwner o f).stripDarned = s.stripDarned := rfl
@[simp] theorem State.modOwner_stopped (s : State) (o : Nat) (f : Owner → Owner) : (s.modOwner o f).stopped = s.stopped := rfl
@[simp] theorem State.modOwner_quiesced (s : State) (o : Nat) (f : Owner → Owner) : (s.modOwner o f).quiesced = s.quiesced := rfl
@[simp] theorem State.modOwner_sl (s : State) (o : Nat) (f : Owner → Owner) : (s.modOwner o f).sl = s.sl := rfl
@[simp] theorem State.modOwner_ports (s : State) (o : Nat) (f : Owner → Owner) : (s.modOwner o f).ports = s.ports := rfl
@[simp] theorem State.modOwner_peerOut (s : State) (o : Nat) (f : Owner → Owner) : (s.modOwner o f).peerOut = s.peerOut := rfl
@[simp] theorem State.modOwner_token (s : State) (o : Nat) (f : Owner → Owner) : (s.modOwner o f).token = s.token := rfl
@[simp] theorem State.modOwner_events (s : State) (o : Nat) (f : Owner → Owner) : (s.modOwner o f).events = s.events := rfl
@[simp] theorem State.modOwner_inject (s : State) (o : Nat) (f : Owner → Owner) : (s.modOwner o f).inject = s.inject := rfl
@[simp] theorem State.modOwner_islands (s : State) (o : Nat) (f : Owner → Owner) : (s.modOwner o f).islands = s.islands := rfl
@[simp] theorem State.modOwner_meterAt (s : State) (o : Nat) (f : Owner → Owner) : (s.modOwner o f).meterAt = s.meterAt := rfl
@[simp] theorem State.modOwner_pwrCap (s : State) (o : Nat) (f : Owner → Owner) : (s.modOwner o f).pwrCap = s.pwrCap := rfl
@[simp] theorem State.modOwner_trust (s : State) (o : Nat) (f : Owner → Owner) : (s.modOwner o f).trust = s.trust := rfl
@[simp] theorem State.modOwner_time (s : State) (o : Nat) (f : Owner → Owner) : (s.modOwner o f).time = s.time := rfl
@[simp] theorem State.modOwner_mctpCode (s : State) (o : Nat) (f : Owner → Owner) : (s.modOwner o f).mctpCode = s.mctpCode := rfl
@[simp] theorem State.modOwner_readback (s : State) (o : Nat) (f : Owner → Owner) : (s.modOwner o f).readback = s.readback := rfl
@[simp] theorem State.modOwner_inputs (s : State) (o : Nat) (f : Owner → Owner) : (s.modOwner o f).inputs = s.inputs := rfl
@[simp] theorem State.modOwner_posted (s : State) (o : Nat) (f : Owner → Owner) : (s.modOwner o f).posted = s.posted := rfl
@[simp] theorem State.modOwner_pkSel (s : State) (o : Nat) (f : Owner → Owner) : (s.modOwner o f).pkSel = s.pkSel := rfl
@[simp] theorem State.modOwner_cmdIn (s : State) (o : Nat) (f : Owner → Owner) : (s.modOwner o f).cmdIn = s.cmdIn := rfl
@[simp] theorem State.modOwner_msgIn (s : State) (o : Nat) (f : Owner → Owner) : (s.modOwner o f).msgIn = s.msgIn := rfl
@[simp] theorem State.modOwner_mgmtIn (s : State) (o : Nat) (f : Owner → Owner) : (s.modOwner o f).mgmtIn = s.mgmtIn := rfl
@[simp] theorem State.modOwner_timerIn (s : State) (o : Nat) (f : Owner → Owner) : (s.modOwner o f).timerIn = s.timerIn := rfl
@[simp] theorem State.modOwner_grants (s : State) (o : Nat) (f : Owner → Owner) : (s.modOwner o f).grants = s.grants := rfl
@[simp] theorem State.modOwner_cur (s : State) (o : Nat) (f : Owner → Owner) : (s.modOwner o f).cur = s.cur := rfl
@[simp] theorem State.modOwner_tick (s : State) (o : Nat) (f : Owner → Owner) : (s.modOwner o f).tick = s.tick := rfl

/-! ### `modPkt` changes only `pipe` -/

@[simp] theorem State.modPkt_cores (s : State) (n : Nat) (f : Pkt → Pkt) : (s.modPkt n f).cores = s.cores := rfl
@[simp] theorem State.modPkt_victims (s : State) (n : Nat) (f : Pkt → Pkt) : (s.modPkt n f).victims = s.victims := rfl
@[simp] theorem State.modPkt_clusters (s : State) (n : Nat) (f : Pkt → Pkt) : (s.modPkt n f).clusters = s.clusters := rfl
@[simp] theorem State.modPkt_mem (s : State) (n : Nat) (f : Pkt → Pkt) : (s.modPkt n f).mem = s.mem := rfl
@[simp] theorem State.modPkt_lineTags (s : State) (n : Nat) (f : Pkt → Pkt) : (s.modPkt n f).lineTags = s.lineTags := rfl
@[simp] theorem State.modPkt_poison (s : State) (n : Nat) (f : Pkt → Pkt) : (s.modPkt n f).poison = s.poison := rfl
@[simp] theorem State.modPkt_hostMem (s : State) (n : Nat) (f : Pkt → Pkt) : (s.modPkt n f).hostMem = s.hostMem := rfl
@[simp] theorem State.modPkt_peerMem (s : State) (n : Nat) (f : Pkt → Pkt) : (s.modPkt n f).peerMem = s.peerMem := rfl
@[simp] theorem State.modPkt_nodeRins (s : State) (n : Nat) (f : Pkt → Pkt) : (s.modPkt n f).nodeRins = s.nodeRins := rfl
@[simp] theorem State.modPkt_denials (s : State) (n : Nat) (f : Pkt → Pkt) : (s.modPkt n f).denials = s.denials := rfl
@[simp] theorem State.modPkt_undo (s : State) (n : Nat) (f : Pkt → Pkt) : (s.modPkt n f).undo = s.undo := rfl
@[simp] theorem State.modPkt_escapes (s : State) (n : Nat) (f : Pkt → Pkt) : (s.modPkt n f).escapes = s.escapes := rfl
@[simp] theorem State.modPkt_escNext (s : State) (n : Nat) (f : Pkt → Pkt) : (s.modPkt n f).escNext = s.escNext := rfl
@[simp] theorem State.modPkt_waiters (s : State) (n : Nat) (f : Pkt → Pkt) : (s.modPkt n f).waiters = s.waiters := rfl
@[simp] theorem State.modPkt_forwards (s : State) (n : Nat) (f : Pkt → Pkt) : (s.modPkt n f).forwards = s.forwards := rfl
@[simp] theorem State.modPkt_patches (s : State) (n : Nat) (f : Pkt → Pkt) : (s.modPkt n f).patches = s.patches := rfl
@[simp] theorem State.modPkt_nextPatch (s : State) (n : Nat) (f : Pkt → Pkt) : (s.modPkt n f).nextPatch = s.nextPatch := rfl
@[simp] theorem State.modPkt_images (s : State) (n : Nat) (f : Pkt → Pkt) : (s.modPkt n f).images = s.images := rfl
@[simp] theorem State.modPkt_saves (s : State) (n : Nat) (f : Pkt → Pkt) : (s.modPkt n f).saves = s.saves := rfl
@[simp] theorem State.modPkt_snaps (s : State) (n : Nat) (f : Pkt → Pkt) : (s.modPkt n f).snaps = s.snaps := rfl
@[simp] theorem State.modPkt_queues (s : State) (n : Nat) (f : Pkt → Pkt) : (s.modPkt n f).queues = s.queues := rfl
@[simp] theorem State.modPkt_nextPkt (s : State) (n : Nat) (f : Pkt → Pkt) : (s.modPkt n f).nextPkt = s.nextPkt := rfl
@[simp] theorem State.modPkt_leases (s : State) (n : Nat) (f : Pkt → Pkt) : (s.modPkt n f).leases = s.leases := rfl
@[simp] theorem State.modPkt_released (s : State) (n : Nat) (f : Pkt → Pkt) : (s.modPkt n f).released = s.released := rfl
@[simp] theorem State.modPkt_leaseGrants (s : State) (n : Nat) (f : Pkt → Pkt) : (s.modPkt n f).leaseGrants = s.leaseGrants := rfl
@[simp] theorem State.modPkt_nextLoan (s : State) (n : Nat) (f : Pkt → Pkt) : (s.modPkt n f).nextLoan = s.nextLoan := rfl
@[simp] theorem State.modPkt_funcs (s : State) (n : Nat) (f : Pkt → Pkt) : (s.modPkt n f).funcs = s.funcs := rfl
@[simp] theorem State.modPkt_numVfs (s : State) (n : Nat) (f : Pkt → Pkt) : (s.modPkt n f).numVfs = s.numVfs := rfl
@[simp] theorem State.modPkt_owners (s : State) (n : Nat) (f : Pkt → Pkt) : (s.modPkt n f).owners = s.owners := rfl
@[simp] theorem State.modPkt_drrNext (s : State) (n : Nat) (f : Pkt → Pkt) : (s.modPkt n f).drrNext = s.drrNext := rfl
@[simp] theorem State.modPkt_ingestNext (s : State) (n : Nat) (f : Pkt → Pkt) : (s.modPkt n f).ingestNext = s.ingestNext := rfl
@[simp] theorem State.modPkt_stripDown (s : State) (n : Nat) (f : Pkt → Pkt) : (s.modPkt n f).stripDown = s.stripDown := rfl
@[simp] theorem State.modPkt_stripDarned (s : State) (n : Nat) (f : Pkt → Pkt) : (s.modPkt n f).stripDarned = s.stripDarned := rfl
@[simp] theorem State.modPkt_stopped (s : State) (n : Nat) (f : Pkt → Pkt) : (s.modPkt n f).stopped = s.stopped := rfl
@[simp] theorem State.modPkt_quiesced (s : State) (n : Nat) (f : Pkt → Pkt) : (s.modPkt n f).quiesced = s.quiesced := rfl
@[simp] theorem State.modPkt_sl (s : State) (n : Nat) (f : Pkt → Pkt) : (s.modPkt n f).sl = s.sl := rfl
@[simp] theorem State.modPkt_ports (s : State) (n : Nat) (f : Pkt → Pkt) : (s.modPkt n f).ports = s.ports := rfl
@[simp] theorem State.modPkt_peerOut (s : State) (n : Nat) (f : Pkt → Pkt) : (s.modPkt n f).peerOut = s.peerOut := rfl
@[simp] theorem State.modPkt_token (s : State) (n : Nat) (f : Pkt → Pkt) : (s.modPkt n f).token = s.token := rfl
@[simp] theorem State.modPkt_events (s : State) (n : Nat) (f : Pkt → Pkt) : (s.modPkt n f).events = s.events := rfl
@[simp] theorem State.modPkt_inject (s : State) (n : Nat) (f : Pkt → Pkt) : (s.modPkt n f).inject = s.inject := rfl
@[simp] theorem State.modPkt_islands (s : State) (n : Nat) (f : Pkt → Pkt) : (s.modPkt n f).islands = s.islands := rfl
@[simp] theorem State.modPkt_meterAt (s : State) (n : Nat) (f : Pkt → Pkt) : (s.modPkt n f).meterAt = s.meterAt := rfl
@[simp] theorem State.modPkt_pwrCap (s : State) (n : Nat) (f : Pkt → Pkt) : (s.modPkt n f).pwrCap = s.pwrCap := rfl
@[simp] theorem State.modPkt_trust (s : State) (n : Nat) (f : Pkt → Pkt) : (s.modPkt n f).trust = s.trust := rfl
@[simp] theorem State.modPkt_time (s : State) (n : Nat) (f : Pkt → Pkt) : (s.modPkt n f).time = s.time := rfl
@[simp] theorem State.modPkt_mctpCode (s : State) (n : Nat) (f : Pkt → Pkt) : (s.modPkt n f).mctpCode = s.mctpCode := rfl
@[simp] theorem State.modPkt_readback (s : State) (n : Nat) (f : Pkt → Pkt) : (s.modPkt n f).readback = s.readback := rfl
@[simp] theorem State.modPkt_inputs (s : State) (n : Nat) (f : Pkt → Pkt) : (s.modPkt n f).inputs = s.inputs := rfl
@[simp] theorem State.modPkt_posted (s : State) (n : Nat) (f : Pkt → Pkt) : (s.modPkt n f).posted = s.posted := rfl
@[simp] theorem State.modPkt_pkSel (s : State) (n : Nat) (f : Pkt → Pkt) : (s.modPkt n f).pkSel = s.pkSel := rfl
@[simp] theorem State.modPkt_cmdIn (s : State) (n : Nat) (f : Pkt → Pkt) : (s.modPkt n f).cmdIn = s.cmdIn := rfl
@[simp] theorem State.modPkt_msgIn (s : State) (n : Nat) (f : Pkt → Pkt) : (s.modPkt n f).msgIn = s.msgIn := rfl
@[simp] theorem State.modPkt_mgmtIn (s : State) (n : Nat) (f : Pkt → Pkt) : (s.modPkt n f).mgmtIn = s.mgmtIn := rfl
@[simp] theorem State.modPkt_timerIn (s : State) (n : Nat) (f : Pkt → Pkt) : (s.modPkt n f).timerIn = s.timerIn := rfl
@[simp] theorem State.modPkt_grants (s : State) (n : Nat) (f : Pkt → Pkt) : (s.modPkt n f).grants = s.grants := rfl
@[simp] theorem State.modPkt_cur (s : State) (n : Nat) (f : Pkt → Pkt) : (s.modPkt n f).cur = s.cur := rfl
@[simp] theorem State.modPkt_tick (s : State) (n : Nat) (f : Pkt → Pkt) : (s.modPkt n f).tick = s.tick := rfl

/-! ### Entries that an update does not reach -/

@[simp] theorem State.setCore_cluster (s : State) (cid : Nat) (c : Core) (i : Nat) : (s.setCore cid c).cluster i = s.cluster i := rfl
@[simp] theorem State.setCore_patch (s : State) (cid : Nat) (c : Core) (i : Nat) : (s.setCore cid c).patch i = s.patch i := rfl
@[simp] theorem State.setCore_lease (s : State) (cid : Nat) (c : Core) (i : Nat) : (s.setCore cid c).lease i = s.lease i := rfl
@[simp] theorem State.setCore_queue (s : State) (cid : Nat) (c : Core) (i : Nat) : (s.setCore cid c).queue i = s.queue i := rfl
@[simp] theorem State.setCore_fn (s : State) (cid : Nat) (c : Core) (i : Nat) : (s.setCore cid c).fn i = s.fn i := rfl
@[simp] theorem State.setCore_ownerOf (s : State) (cid : Nat) (c : Core) (i : Nat) : (s.setCore cid c).ownerOf i = s.ownerOf i := rfl
@[simp] theorem State.setCore_pkt (s : State) (cid : Nat) (c : Core) (i : Nat) : (s.setCore cid c).pkt i = s.pkt i := rfl
@[simp] theorem State.modCore_cluster (s : State) (cid : Nat) (f : Core → Core) (i : Nat) : (s.modCore cid f).cluster i = s.cluster i := rfl
@[simp] theorem State.modCore_patch (s : State) (cid : Nat) (f : Core → Core) (i : Nat) : (s.modCore cid f).patch i = s.patch i := rfl
@[simp] theorem State.modCore_lease (s : State) (cid : Nat) (f : Core → Core) (i : Nat) : (s.modCore cid f).lease i = s.lease i := rfl
@[simp] theorem State.modCore_queue (s : State) (cid : Nat) (f : Core → Core) (i : Nat) : (s.modCore cid f).queue i = s.queue i := rfl
@[simp] theorem State.modCore_fn (s : State) (cid : Nat) (f : Core → Core) (i : Nat) : (s.modCore cid f).fn i = s.fn i := rfl
@[simp] theorem State.modCore_ownerOf (s : State) (cid : Nat) (f : Core → Core) (i : Nat) : (s.modCore cid f).ownerOf i = s.ownerOf i := rfl
@[simp] theorem State.modCore_pkt (s : State) (cid : Nat) (f : Core → Core) (i : Nat) : (s.modCore cid f).pkt i = s.pkt i := rfl
@[simp] theorem State.modCluster_core (s : State) (cl : Nat) (f : Cluster → Cluster) (i : Nat) : (s.modCluster cl f).core i = s.core i := rfl
@[simp] theorem State.modCluster_patch (s : State) (cl : Nat) (f : Cluster → Cluster) (i : Nat) : (s.modCluster cl f).patch i = s.patch i := rfl
@[simp] theorem State.modCluster_lease (s : State) (cl : Nat) (f : Cluster → Cluster) (i : Nat) : (s.modCluster cl f).lease i = s.lease i := rfl
@[simp] theorem State.modCluster_queue (s : State) (cl : Nat) (f : Cluster → Cluster) (i : Nat) : (s.modCluster cl f).queue i = s.queue i := rfl
@[simp] theorem State.modCluster_fn (s : State) (cl : Nat) (f : Cluster → Cluster) (i : Nat) : (s.modCluster cl f).fn i = s.fn i := rfl
@[simp] theorem State.modCluster_ownerOf (s : State) (cl : Nat) (f : Cluster → Cluster) (i : Nat) : (s.modCluster cl f).ownerOf i = s.ownerOf i := rfl
@[simp] theorem State.modCluster_pkt (s : State) (cl : Nat) (f : Cluster → Cluster) (i : Nat) : (s.modCluster cl f).pkt i = s.pkt i := rfl
@[simp] theorem State.modPatch_core (s : State) (pt : Nat) (f : Patch → Patch) (i : Nat) : (s.modPatch pt f).core i = s.core i := rfl
@[simp] theorem State.modPatch_cluster (s : State) (pt : Nat) (f : Patch → Patch) (i : Nat) : (s.modPatch pt f).cluster i = s.cluster i := rfl
@[simp] theorem State.modPatch_lease (s : State) (pt : Nat) (f : Patch → Patch) (i : Nat) : (s.modPatch pt f).lease i = s.lease i := rfl
@[simp] theorem State.modPatch_queue (s : State) (pt : Nat) (f : Patch → Patch) (i : Nat) : (s.modPatch pt f).queue i = s.queue i := rfl
@[simp] theorem State.modPatch_fn (s : State) (pt : Nat) (f : Patch → Patch) (i : Nat) : (s.modPatch pt f).fn i = s.fn i := rfl
@[simp] theorem State.modPatch_ownerOf (s : State) (pt : Nat) (f : Patch → Patch) (i : Nat) : (s.modPatch pt f).ownerOf i = s.ownerOf i := rfl
@[simp] theorem State.modPatch_pkt (s : State) (pt : Nat) (f : Patch → Patch) (i : Nat) : (s.modPatch pt f).pkt i = s.pkt i := rfl
@[simp] theorem State.modLease_core (s : State) (l : Nat) (f : Lease → Lease) (i : Nat) : (s.modLease l f).core i = s.core i := rfl
@[simp] theorem State.modLease_cluster (s : State) (l : Nat) (f : Lease → Lease) (i : Nat) : (s.modLease l f).cluster i = s.cluster i := rfl
@[simp] theorem State.modLease_patch (s : State) (l : Nat) (f : Lease → Lease) (i : Nat) : (s.modLease l f).patch i = s.patch i := rfl
@[simp] theorem State.modLease_queue (s : State) (l : Nat) (f : Lease → Lease) (i : Nat) : (s.modLease l f).queue i = s.queue i := rfl
@[simp] theorem State.modLease_fn (s : State) (l : Nat) (f : Lease → Lease) (i : Nat) : (s.modLease l f).fn i = s.fn i := rfl
@[simp] theorem State.modLease_ownerOf (s : State) (l : Nat) (f : Lease → Lease) (i : Nat) : (s.modLease l f).ownerOf i = s.ownerOf i := rfl
@[simp] theorem State.modLease_pkt (s : State) (l : Nat) (f : Lease → Lease) (i : Nat) : (s.modLease l f).pkt i = s.pkt i := rfl
@[simp] theorem State.modQueue_core (s : State) (q : Nat) (f : Queue → Queue) (i : Nat) : (s.modQueue q f).core i = s.core i := rfl
@[simp] theorem State.modQueue_cluster (s : State) (q : Nat) (f : Queue → Queue) (i : Nat) : (s.modQueue q f).cluster i = s.cluster i := rfl
@[simp] theorem State.modQueue_patch (s : State) (q : Nat) (f : Queue → Queue) (i : Nat) : (s.modQueue q f).patch i = s.patch i := rfl
@[simp] theorem State.modQueue_lease (s : State) (q : Nat) (f : Queue → Queue) (i : Nat) : (s.modQueue q f).lease i = s.lease i := rfl
@[simp] theorem State.modQueue_fn (s : State) (q : Nat) (f : Queue → Queue) (i : Nat) : (s.modQueue q f).fn i = s.fn i := rfl
@[simp] theorem State.modQueue_ownerOf (s : State) (q : Nat) (f : Queue → Queue) (i : Nat) : (s.modQueue q f).ownerOf i = s.ownerOf i := rfl
@[simp] theorem State.modQueue_pkt (s : State) (q : Nat) (f : Queue → Queue) (i : Nat) : (s.modQueue q f).pkt i = s.pkt i := rfl
@[simp] theorem State.modFn_core (s : State) (n : Nat) (f : Func → Func) (i : Nat) : (s.modFn n f).core i = s.core i := rfl
@[simp] theorem State.modFn_cluster (s : State) (n : Nat) (f : Func → Func) (i : Nat) : (s.modFn n f).cluster i = s.cluster i := rfl
@[simp] theorem State.modFn_patch (s : State) (n : Nat) (f : Func → Func) (i : Nat) : (s.modFn n f).patch i = s.patch i := rfl
@[simp] theorem State.modFn_lease (s : State) (n : Nat) (f : Func → Func) (i : Nat) : (s.modFn n f).lease i = s.lease i := rfl
@[simp] theorem State.modFn_queue (s : State) (n : Nat) (f : Func → Func) (i : Nat) : (s.modFn n f).queue i = s.queue i := rfl
@[simp] theorem State.modFn_ownerOf (s : State) (n : Nat) (f : Func → Func) (i : Nat) : (s.modFn n f).ownerOf i = s.ownerOf i := rfl
@[simp] theorem State.modFn_pkt (s : State) (n : Nat) (f : Func → Func) (i : Nat) : (s.modFn n f).pkt i = s.pkt i := rfl
@[simp] theorem State.modOwner_core (s : State) (o : Nat) (f : Owner → Owner) (i : Nat) : (s.modOwner o f).core i = s.core i := rfl
@[simp] theorem State.modOwner_cluster (s : State) (o : Nat) (f : Owner → Owner) (i : Nat) : (s.modOwner o f).cluster i = s.cluster i := rfl
@[simp] theorem State.modOwner_patch (s : State) (o : Nat) (f : Owner → Owner) (i : Nat) : (s.modOwner o f).patch i = s.patch i := rfl
@[simp] theorem State.modOwner_lease (s : State) (o : Nat) (f : Owner → Owner) (i : Nat) : (s.modOwner o f).lease i = s.lease i := rfl
@[simp] theorem State.modOwner_queue (s : State) (o : Nat) (f : Owner → Owner) (i : Nat) : (s.modOwner o f).queue i = s.queue i := rfl
@[simp] theorem State.modOwner_fn (s : State) (o : Nat) (f : Owner → Owner) (i : Nat) : (s.modOwner o f).fn i = s.fn i := rfl
@[simp] theorem State.modOwner_pkt (s : State) (o : Nat) (f : Owner → Owner) (i : Nat) : (s.modOwner o f).pkt i = s.pkt i := rfl
@[simp] theorem State.modPkt_core (s : State) (n : Nat) (f : Pkt → Pkt) (i : Nat) : (s.modPkt n f).core i = s.core i := rfl
@[simp] theorem State.modPkt_cluster (s : State) (n : Nat) (f : Pkt → Pkt) (i : Nat) : (s.modPkt n f).cluster i = s.cluster i := rfl
@[simp] theorem State.modPkt_patch (s : State) (n : Nat) (f : Pkt → Pkt) (i : Nat) : (s.modPkt n f).patch i = s.patch i := rfl
@[simp] theorem State.modPkt_lease (s : State) (n : Nat) (f : Pkt → Pkt) (i : Nat) : (s.modPkt n f).lease i = s.lease i := rfl
@[simp] theorem State.modPkt_queue (s : State) (n : Nat) (f : Pkt → Pkt) (i : Nat) : (s.modPkt n f).queue i = s.queue i := rfl
@[simp] theorem State.modPkt_fn (s : State) (n : Nat) (f : Pkt → Pkt) (i : Nat) : (s.modPkt n f).fn i = s.fn i := rfl
@[simp] theorem State.modPkt_ownerOf (s : State) (n : Nat) (f : Pkt → Pkt) (i : Nat) : (s.modPkt n f).ownerOf i = s.ownerOf i := rfl

/-! ### Reading back -/

@[simp] theorem State.core_setCore_same (s : State) (cid : Nat) (c : Core) : (s.setCore cid c).core cid = c := by
  simp [State.core, State.setCore]
theorem State.core_setCore_other (s : State) (cid d : Nat) (c : Core) (h : d ≠ cid) : (s.setCore cid c).core d = s.core d := by
  simp [State.core, State.setCore, tgetD_tset_other _ _ _ _ _ h]
@[simp] theorem State.core_modCore_same (s : State) (cid : Nat) (f : Core → Core) : (s.modCore cid f).core cid = f (s.core cid) := by
  simp [State.modCore]
theorem State.core_modCore_other (s : State) (cid d : Nat) (f : Core → Core) (h : d ≠ cid) : (s.modCore cid f).core d = s.core d := by
  simp [State.modCore, State.core_setCore_other _ _ _ _ h]
@[simp] theorem State.cluster_modCluster_same (s : State) (cl : Nat) (f : Cluster → Cluster) :
    (s.modCluster cl f).cluster cl = f (s.cluster cl) := by
  simp [State.cluster, State.modCluster]
theorem State.cluster_modCluster_other (s : State) (cl d : Nat) (f : Cluster → Cluster) (h : d ≠ cl) :
    (s.modCluster cl f).cluster d = s.cluster d := by
  simp [State.cluster, State.modCluster, tgetD_tset_other _ _ _ _ _ h]
@[simp] theorem State.queue_modQueue_same (s : State) (q : Nat) (f : Queue → Queue) : (s.modQueue q f).queue q = f (s.queue q) := by
  simp [State.queue, State.modQueue, tmod]
theorem State.queue_modQueue_other (s : State) (q d : Nat) (f : Queue → Queue) (h : d ≠ q) : (s.modQueue q f).queue d = s.queue d := by
  simp [State.queue, State.modQueue, tmod, tgetD_tset_other _ _ _ _ _ h]
@[simp] theorem State.fn_modFn_same (s : State) (n : Nat) (f : Func → Func) : (s.modFn n f).fn n = f (s.fn n) := by
  simp [State.fn, State.modFn, tmod]
theorem State.fn_modFn_other (s : State) (n d : Nat) (f : Func → Func) (h : d ≠ n) : (s.modFn n f).fn d = s.fn d := by
  simp [State.fn, State.modFn, tmod, tgetD_tset_other _ _ _ _ _ h]
@[simp] theorem State.ownerOf_modOwner_same (s : State) (o : Nat) (f : Owner → Owner) : (s.modOwner o f).ownerOf o = f (s.ownerOf o) := by
  simp [State.ownerOf, State.modOwner, tmod]
theorem State.ownerOf_modOwner_other (s : State) (o d : Nat) (f : Owner → Owner) (h : d ≠ o) :
    (s.modOwner o f).ownerOf d = s.ownerOf d := by
  simp [State.ownerOf, State.modOwner, tmod, tgetD_tset_other _ _ _ _ _ h]
@[simp] theorem State.patch_modPatch_same (s : State) (pt : Nat) (f : Patch → Patch) :
    (s.modPatch pt f).patch pt = (s.patch pt).map f := by
  simp [State.patch, State.modPatch]
theorem State.patch_modPatch_other (s : State) (pt d : Nat) (f : Patch → Patch) (h : d ≠ pt) :
    (s.modPatch pt f).patch d = s.patch d := by
  simp [State.patch, State.modPatch, h]
@[simp] theorem State.lease_modLease_same (s : State) (l : Nat) (f : Lease → Lease) :
    (s.modLease l f).lease l = (s.lease l).map f := by
  simp [State.lease, State.modLease]
theorem State.lease_modLease_other (s : State) (l d : Nat) (f : Lease → Lease) (h : d ≠ l) :
    (s.modLease l f).lease d = s.lease d := by
  simp [State.lease, State.modLease, h]
@[simp] theorem Core.task_modTask_same (c : Core) (k : Nat) (f : Task → Task) : (c.modTask k f).task k = f (c.task k) := by
  simp [Core.task, Core.modTask, tmod]
theorem Core.task_modTask_other (c : Core) (k d : Nat) (f : Task → Task) (h : d ≠ k) : (c.modTask k f).task d = c.task d := by
  simp [Core.task, Core.modTask, tmod, tgetD_tset_other _ _ _ _ _ h]
@[simp] theorem Core.outCh_modOut_same (c : Core) (j : Nat) (f : OutCh → OutCh) : (c.modOut j f).outCh j = f (c.outCh j) := by
  simp [Core.outCh, Core.modOut, tmod]
theorem Core.outCh_modOut_other (c : Core) (j d : Nat) (f : OutCh → OutCh) (h : d ≠ j) : (c.modOut j f).outCh d = c.outCh d := by
  simp [Core.outCh, Core.modOut, tmod, tgetD_tset_other _ _ _ _ _ h]
@[simp] theorem Core.inCh_modIn_same (c : Core) (j : Nat) (f : InCh → InCh) : (c.modIn j f).inCh j = f (c.inCh j) := by
  simp [Core.inCh, Core.modIn, tmod]
theorem Core.inCh_modIn_other (c : Core) (j d : Nat) (f : InCh → InCh) (h : d ≠ j) : (c.modIn j f).inCh d = c.inCh d := by
  simp [Core.inCh, Core.modIn, tmod, tgetD_tset_other _ _ _ _ _ h]

end Sys2Proof.Machine
end

