-- ==== Sys2Proof/Laws/Device.lean ====
section
/-! SUPPORT. What a write to device memory (R303 to R308) does to the state, once: the memory takes the bytes; cores, patches, leases,
functions and host memory stay as they were. -/

namespace Sys2Proof.Machine

@[simp] theorem chargePa_mem (s : State) (pa n : Nat) : (chargePa s pa n).mem = s.mem := by unfold chargePa; split <;> rfl
@[simp] theorem chargePa_cores (s : State) (pa n : Nat) : (chargePa s pa n).cores = s.cores := by unfold chargePa; split <;> rfl
@[simp] theorem chargePa_patches (s : State) (pa n : Nat) : (chargePa s pa n).patches = s.patches := by unfold chargePa; split <;> rfl
@[simp] theorem chargePa_leases (s : State) (pa n : Nat) : (chargePa s pa n).leases = s.leases := by unfold chargePa; split <;> rfl
@[simp] theorem chargePa_funcs (s : State) (pa n : Nat) : (chargePa s pa n).funcs = s.funcs := by unfold chargePa; split <;> rfl
@[simp] theorem chargePa_hostMem (s : State) (pa n : Nat) : (chargePa s pa n).hostMem = s.hostMem := by unfold chargePa; split <;> rfl
@[simp] theorem chargePa_peerMem (s : State) (pa n : Nat) : (chargePa s pa n).peerMem = s.peerMem := by unfold chargePa; split <;> rfl
@[simp] theorem chargePa_pipe (s : State) (pa n : Nat) : (chargePa s pa n).pipe = s.pipe := by unfold chargePa; split <;> rfl

@[simp] theorem noteRead_mem (s : State) (l : Nat) (x : Loc) : (noteRead s l x).mem = s.mem := by unfold noteRead; split <;> rfl
@[simp] theorem noteRead_pipe (s : State) (l : Nat) (x : Loc) : (noteRead s l x).pipe = s.pipe := by unfold noteRead; split <;> rfl
@[simp] theorem noteRead_leases (s : State) (l : Nat) (x : Loc) : (noteRead s l x).leases = s.leases := by unfold noteRead; split <;> rfl
@[simp] theorem noteRead_cores (s : State) (l : Nat) (x : Loc) : (noteRead s l x).cores = s.cores := by unfold noteRead; split <;> rfl

@[simp] theorem chargeRead_mem (s : State) (x : Loc) (n : Nat) : (chargeRead s x n).mem = s.mem := by unfold chargeRead; split <;> simp
@[simp] theorem chargeRead_pipe (s : State) (x : Loc) (n : Nat) : (chargeRead s x n).pipe = s.pipe := by unfold chargeRead; split <;> simp
@[simp] theorem chargeRead_leases (s : State) (x : Loc) (n : Nat) : (chargeRead s x n).leases = s.leases := by unfold chargeRead; split <;> simp
@[simp] theorem chargeRead_cores (s : State) (x : Loc) (n : Nat) : (chargeRead s x n).cores = s.cores := by unfold chargeRead; split <;> simp

@[simp] theorem countRead_mem (s : State) (l : Nat) (x : Loc) (n : Nat) : (countRead s l x n).mem = s.mem := by simp [countRead]
@[simp] theorem countRead_pipe (s : State) (l : Nat) (x : Loc) (n : Nat) : (countRead s l x n).pipe = s.pipe := by simp [countRead]
@[simp] theorem countRead_leases (s : State) (l : Nat) (x : Loc) (n : Nat) : (countRead s l x n).leases = s.leases := by simp [countRead]
@[simp] theorem countRead_cores (s : State) (l : Nat) (x : Loc) (n : Nat) : (countRead s l x n).cores = s.cores := by simp [countRead]

/-- What a request for a seal leaves alone: everything but the seal protocol's own state. -/
theorem requestSeal_eq (s : State) (irr : Bool) : ∃ x, requestSeal s irr = { s with sl := x } := by
  unfold requestSeal toCoordinator
  split
  · exact ⟨_, rfl⟩
  · exact ⟨_, rfl⟩

/-- The same of an early one. -/
theorem earlySeal_eq (s : State) (c : Nat) : ∃ x, earlySeal s c = { s with sl := x } := by
  unfold earlySeal
  split
  · obtain ⟨x, hx⟩ := requestSeal_eq { s with sl := { s.sl with earlySent := some s.sl.cur } } false
    exact ⟨x, hx⟩
  · exact ⟨s.sl, rfl⟩

theorem logLine_keeps (s : State) (pa : Nat) (recov : Bool) (r : Rin) : (logLine s pa recov r).mem = s.mem ∧
    (logLine s pa recov r).cores = s.cores ∧ (logLine s pa recov r).patches = s.patches ∧ (logLine s pa recov r).leases = s.leases ∧
    (logLine s pa recov r).funcs = s.funcs ∧ (logLine s pa recov r).hostMem = s.hostMem ∧ (logLine s pa recov r).peerMem = s.peerMem := by
  unfold logLine
  split
  · simp
  · exact ⟨rfl, rfl, rfl, rfl, rfl, rfl, rfl⟩

/-- A device-memory write: the bytes are written; nothing else that software reads as data changes. -/
theorem devWrite_keeps (s : State) (pa : Nat) (bs : List Byte) (recov : Bool) (r : Rin) :
    (devWrite s pa bs recov r).mem = s.mem.write pa bs ∧ (devWrite s pa bs recov r).cores = s.cores ∧
    (devWrite s pa bs recov r).patches = s.patches ∧ (devWrite s pa bs recov r).leases = s.leases ∧
    (devWrite s pa bs recov r).funcs = s.funcs ∧ (devWrite s pa bs recov r).hostMem = s.hostMem ∧
    (devWrite s pa bs recov r).peerMem = s.peerMem := by
  obtain ⟨x, hx⟩ := earlySeal_eq (logLine s pa recov r) (ctrlOf pa)
  have hl := logLine_keeps s pa recov r
  unfold devWrite wakeLine
  rw [hx]
  simp [hl]

end Sys2Proof.Machine
end

