-- ==== Sys2Proof/Laws/Firing.lean ====
section
/-! SUPPORT. What `issue` answers, said once: the instruction's own effect where it may fire, and the three other verdicts. -/

namespace Sys2Proof.Laws

open Sys2Proof.Machine Sys2Proof.Safety

/-- An instruction that may fire has its own effect. -/
theorem issue_firing {i : Instr} {s : State} {h : Head} {e : Env} {v : Vals} (F : Firing i s h e v)
    (body : Head → Env → Vals → State → State) : issue i s body = .next (body h e v s) := by
  have free : (e.behind i || (e.k.isSome && (e.inst.lsidBlocked i || e.inst.drawBlocked (e.t.tctl.getLsbD 2) i e.slot))) = false := by
    rw [F.inOrder]
    cases hk : e.k.isSome
    · rfl
    · rw [(F.free hk).1, (F.free hk).2]
      rfl
  simp only [issue, F.env, F.head, F.go, free, Bool.false_eq_true, if_false]

/-- A slot that waits leaves the state as it is (R172). -/
theorem issue_wait {i : Instr} {s : State} {h : Head} {e : Env} (he : envOf s = some e) (hh : headOf i = some h)
    (hv : verdict h.pm (needsOf e.pinned i) e.ss = .wait) (body : Head → Env → Vals → State → State) : issue i s body = .next s := by
  simp only [issue, he, hh, hv]

/-- A slot whose predicate does not match dies (R45). -/
theorem issue_dead {i : Instr} {s : State} {h : Head} {e : Env} (he : envOf s = some e) (hh : headOf i = some h)
    (hv : verdict h.pm (needsOf e.pinned i) e.ss = .dead) (body : Head → Env → Vals → State → State) :
    issue i s body = .next (e.update (fun x => x.modSlot e.slot fun q => { q with ph := .dead }) s) := by
  simp only [issue, he, hh, hv]

/-- A slot with a null operand passes the null on (R173). -/
theorem issue_null {i : Instr} {s : State} {h : Head} {e : Env} (he : envOf s = some e) (hh : headOf i = some h)
    (hv : verdict h.pm (needsOf e.pinned i) e.ss = .null) (body : Head → Env → Vals → State → State) :
    issue i s body = .next (e.update (fun x => x.nullOut e.slot h) s) := by
  simp only [issue, he, hh, hv]

/-- With no instance under the cursor nothing happens. -/
theorem issue_none {i : Instr} {s : State} (he : envOf s = none) (body : Head → Env → Vals → State → State) :
    issue i s body = .next s := by
  simp only [issue, he]

end Sys2Proof.Laws
end

