-- ==== Sys2Proof/Laws/Keep/Base.lean ====
section
/-! SUPPORT. What every step keeps (Safety.lean, Formed): the shape of the lemmas, and the named updates of the state. -/

namespace Sys2Proof.Machine

open Sys2Proof.Safety

/-- The forms of a state built from its fields are the forms of five of them. -/
@[simp] theorem formed_mk : Formed (State.mk x0 x1 x2 x3 x4 x5 x6 x7 x8 x9 x10 x11 x12 x13 x14 x15 x16 x17 x18 x19 x20 x21 x22 x23 x24 x25 x26 x27 x28 x29 x30 x31 x32 x33 x34 x35 x36 x37 x38 x39 x40 x41 x42 x43 x44 x45 x46 x47 x48 x49 x50 x51 x52 x53 x54 x55 x56 x57 x58) ↔ Forms x3 x6 x7 x39 x46 := Iff.rfl

/-- The forms, folded back. -/
@[simp] theorem forms_of_formed {s : State} (h : Formed s) : Forms s.mem s.hostMem s.peerMem s.token s.time := h

theorem formed_congr {s t : State} (h : Formed s) (h1 : t.mem = s.mem) (h2 : t.hostMem = s.hostMem) (h3 : t.peerMem = s.peerMem)
    (h4 : t.token = s.token) (h5 : t.time = s.time) : Formed t := by
  unfold Formed; rw [h1, h2, h3, h4, h5]; exact h

/-- A fold of a change that keeps the forms keeps them. -/
theorem foldl_formed {β : Type} (g : State → β → State) (hg : ∀ s x, Formed s → Formed (g s x)) (l : List β) :
    ∀ {s : State}, Formed s → Formed (l.foldl g s) := by
  induction l with
  | nil => intro s h; exact h
  | cons x l ih => intro s h; exact ih (hg _ _ h)

@[simp] theorem Forms.write_mem {m h p : Memory} {k n : Nat} (f : Forms m h p k n) (a : Nat) (bs : List Byte) :
    Forms (m.write a bs) h p k n := ⟨Memory.write_wf _ _ f.1, f.2⟩
@[simp] theorem Forms.write_host {m h p : Memory} {k n : Nat} (f : Forms m h p k n) (a : Nat) (bs : List Byte) :
    Forms m (h.write a bs) p k n := ⟨f.1, Memory.write_wf _ _ f.2.1, f.2.2⟩
@[simp] theorem Forms.write_peer {m h p : Memory} {k n : Nat} (f : Forms m h p k n) (a : Nat) (bs : List Byte) :
    Forms m h (p.write a bs) k n := ⟨f.1, f.2.1, Memory.write_wf _ _ f.2.2.1, f.2.2.2⟩
@[simp] theorem Forms.filter_mem {m h p : Memory} {k n : Nat} (f : Forms m h p k n) (q : Host.Cell → Bool) :
    Forms (m.filter q) h p k n := ⟨Memory.filter_wf _ f.1, f.2⟩
@[simp] theorem State.setCore_formed {s : State} (cid : Nat) (c : Core) (h : Formed s) : Formed (s.setCore cid c) := h
@[simp] theorem State.modCore_formed {s : State} (cid : Nat) (f : Core → Core) (h : Formed s) : Formed (s.modCore cid f) := h
@[simp] theorem State.modCluster_formed {s : State} (cl : Nat) (f : Cluster → Cluster) (h : Formed s) : Formed (s.modCluster cl f) := h
@[simp] theorem State.modPatch_formed {s : State} (pt : Nat) (f : Patch → Patch) (h : Formed s) : Formed (s.modPatch pt f) := h
@[simp] theorem State.modLease_formed {s : State} (l : Nat) (f : Lease → Lease) (h : Formed s) : Formed (s.modLease l f) := h
@[simp] theorem State.modQueue_formed {s : State} (q : Nat) (f : Queue → Queue) (h : Formed s) : Formed (s.modQueue q f) := h
@[simp] theorem State.modFn_formed {s : State} (n : Nat) (f : Func → Func) (h : Formed s) : Formed (s.modFn n f) := h
@[simp] theorem State.modOwner_formed {s : State} (o : Nat) (f : Owner → Owner) (h : Formed s) : Formed (s.modOwner o f) := h
@[simp] theorem State.modPkt_formed {s : State} (n : Nat) (f : Pkt → Pkt) (h : Formed s) : Formed (s.modPkt n f) := h

/-- What an optional state keeps. -/
def OptFormed (o : Option State) : Prop := ∀ t, o = some t → Formed t

@[simp] theorem optFormed_some {t : State} : OptFormed (some t) ↔ Formed t := ⟨fun h => h t rfl, fun h _ e => by cases e; exact h⟩
@[simp] theorem optFormed_none : OptFormed none := fun _ e => by cases e
theorem OptFormed.of_eq {o : Option State} {t : State} (h : OptFormed o) (e : o = some t) : Formed t := h t e
theorem OptFormed.getD {o : Option State} {s : State} (h : OptFormed o) (hs : Formed s) : Formed (o.getD s) := by
  cases o with
  | none => exact hs
  | some t => exact h t rfl

/-- What an outcome keeps. -/
def OutFormed (o : Host.Outcome State Fault Refusal) : Prop := ∀ t, o = .next t → Formed t

@[simp] theorem outFormed_next {t : State} : OutFormed (.next t) ↔ Formed t := ⟨fun h => h t rfl, fun h _ e => by cases e; exact h⟩
@[simp] theorem outFormed_fault (r : Fault) : OutFormed (.fault r) := fun _ e => by cases e
@[simp] theorem outFormed_refused (r : Refusal) : OutFormed (.refused r) := fun _ e => by cases e

end Sys2Proof.Machine
end

