-- ==== Sys2Proof/Laws/Keep/Memory.lean ====
section
/-! SUPPORT. What Machine/Memory.lean keeps (Safety.lean, Formed). -/

namespace Sys2Proof.Machine

open Sys2Proof.Safety


@[simp] theorem charge_formed (s : State) (o m n : Nat) (hF : Formed s) : Formed (charge s o m n) := by
  unfold charge
  simp (maxDischargeDepth := 50) [*]

@[simp] theorem chargePa_formed (s : State) (pa n : Nat) (hF : Formed s) : Formed (chargePa s pa n) := by
  unfold chargePa
  repeat' (first | (simp (maxDischargeDepth := 50) [*]; done) | split)

@[simp] theorem chargeRead_formed (s : State) (l : Loc) (n : Nat) (hF : Formed s) : Formed (chargeRead s l n) := by
  unfold chargeRead
  repeat' (first | (simp (maxDischargeDepth := 50) [*]; done) | split)

@[simp] theorem noteRead_formed (s : State) (lease : Nat) (l : Loc) (hF : Formed s) : Formed (noteRead s lease l) := by
  unfold noteRead
  repeat' (first | (simp (maxDischargeDepth := 50) [*]; done) | split)

@[simp] theorem countRead_formed (s : State) (lease : Nat) (l : Loc) (n : Nat) (hF : Formed s) : Formed (countRead s lease l n) := by
  unfold countRead
  simp (maxDischargeDepth := 50) [*]

@[simp] theorem unlessFull_formed (s s' : State) (h : Formed s) (h' : Formed s') : Formed (unlessFull s s') := by
  unfold unlessFull
  split <;> assumption

@[simp] theorem logLine_formed (s : State) (pa : Nat) (recov : Bool) (r : Rin) (hF : Formed s) : Formed (logLine s pa recov r) := by
  unfold logLine
  split
  · exact formed_mk.2 (forms_of_formed (chargePa_formed s pa 128 hF))
  · exact hF

@[simp] theorem wakeLine_formed (s : State) (line : Nat) (hF : Formed s) : Formed (wakeLine s line) := by
  unfold wakeLine
  simp (maxDischargeDepth := 50) [*]

@[simp] theorem tellSignal_formed (s : State) (lease line : Nat) (on : Bool) (hF : Formed s) : Formed (tellSignal s lease line on) := by
  unfold tellSignal
  repeat' (first | (simp (maxDischargeDepth := 50) [*]; done) | split)

@[simp] theorem enlist_formed (s : State) (w : Waiter) (old : Waiter → Bool) (hF : Formed s) : Formed (enlist s w old) := by
  unfold enlist
  repeat' (first | (simp (maxDischargeDepth := 50) [*]; done) | split)

@[simp] theorem delist_formed (s : State) (out : Waiter → Bool) (hF : Formed s) : Formed (delist s out) := by
  unfold delist
  refine foldl_formed _ (fun _ _ h => ?_) _ hF
  repeat' (first | exact h | split | (simp [h]; done))

@[simp] theorem toCoordinator_formed (s : State) (ty : Nat) (irr : Bool) (r : Rin) (hF : Formed s) : Formed (toCoordinator s ty irr r) := by
  unfold toCoordinator
  repeat' (first | (simp (maxDischargeDepth := 50) [*]; done) | split)

@[simp] theorem broadcast_formed (s : State) (ty : Nat) (r : Rin) (hF : Formed s) : Formed (broadcast s ty r) := by
  unfold broadcast
  simp (maxDischargeDepth := 50) [*]

@[simp] theorem requestSeal_formed (s : State) (irr : Bool) (hF : Formed s) : Formed (requestSeal s irr) := by
  unfold requestSeal
  repeat' (first | (simp (maxDischargeDepth := 50) [*]; done) | split)

@[simp] theorem earlySeal_formed (s : State) (ctrl : Nat) (hF : Formed s) : Formed (earlySeal s ctrl) := by
  unfold earlySeal
  repeat' (first | (simp (maxDischargeDepth := 50) [*]; done) | split)

@[simp] theorem nodeSaw_formed (s : State) (l : Loc) (r : Rin) (hF : Formed s) : Formed (nodeSaw s l r) := by
  unfold nodeSaw
  repeat' (first | (simp (maxDischargeDepth := 50) [*]; done) | split)

@[simp] theorem heard_formed (s : State) (cid : Nat) (l : Loc) (hF : Formed s) : Formed (heard s cid l) := by
  unfold heard
  simp (maxDischargeDepth := 50) [*]

@[simp] theorem devWrite_formed (s : State) (pa : Nat) (bs : List Byte) (recov : Bool) (r : Rin) (h : Formed s) :
    Formed (devWrite s pa bs recov r) := by
  unfold devWrite
  simp only
  exact wakeLine_formed _ _ (Forms.write_mem (forms_of_formed (by simp (maxDischargeDepth := 50) [h])) _ _)

@[simp] theorem nodeWrite_formed (s : State) (l : Loc) (bs : List Byte) (r : Rin) (hF : Formed s) : Formed (nodeWrite s l bs r) := by
  unfold nodeWrite
  repeat' (first | (simp (maxDischargeDepth := 50) [*]; done) | split)

@[simp] theorem holdEscape_formed (s : State) (l : Loc) (lease : Option Nat) (ac : AC) (irr retained : Bool) (px py slot : Nat) (r : Rin) (bs : List Byte) (hF : Formed s) : Formed (holdEscape s l lease ac irr retained px py slot r bs) := by
  unfold holdEscape
  repeat' (first | (simp (maxDischargeDepth := 50) [*]; done) | split)

@[simp] theorem lineOut_formed (s : State) (x : CLine) (h : Formed s) : Formed (lineOut s x) := by
  unfold lineOut
  have h0 : Formed (nodeSaw s x.loc x.stamp) := by simp [h]
  dsimp only
  generalize nodeSaw s x.loc x.stamp = t at *
  split
  · refine wakeLine_formed _ _ ?_
    rename_i pa recov _
    have k : Formed (chargePa (earlySeal (logLine t pa recov x.stamp) (ctrlOf pa)) pa
      ((List.range 64).filter fun i => x.dirty.getLsbD i).length) := by simp (maxDischargeDepth := 50) [h0]
    exact ⟨Memory.foldl_wf _ (fun m i w => by split <;> simp [w]) _ k.1, k.2⟩
  · refine wakeLine_formed _ _ ?_
    exact ⟨h0.1, h0.2.1, Memory.foldl_wf _ (fun m i w => by split <;> simp [w]) _ h0.2.2.1, h0.2.2.2⟩
  · exact h0

@[simp] theorem writeBack_formed (s : State) (cid : Nat) (x : CLine) (hF : Formed s) : Formed (writeBack s cid x) := by
  unfold writeBack
  repeat' (first | (simp (maxDischargeDepth := 50) [*]; done) | split)

@[simp] theorem flushLine_formed (s : State) (cid line : Nat) (hF : Formed s) : Formed (flushLine s cid line) := by
  unfold flushLine
  repeat' (first | (simp (maxDischargeDepth := 50) [*]; done) | split)

@[simp] theorem drainC_formed (s : State) (cid : Nat) (h : Formed s) : Formed (drainC s cid) :=
  foldl_formed _ (fun s x h => writeBack_formed s cid x h) _ h

@[simp] theorem advanceGen_formed (s : State) (cid : Nat) (hF : Formed s) : Formed (advanceGen s cid) := by
  unfold advanceGen
  simp (maxDischargeDepth := 50) [*]

@[simp] theorem cFill_formed (s : State) (cid line : Nat) (l : Loc) (data : Value) (poisoned touch : Bool) (h : Formed s) :
    Formed (cFill s cid line l data poisoned touch) := by
  unfold cFill
  try dsimp only
  split
  · exact h
  · refine State.modCore_formed _ _ ?_
    split <;> simp (maxDischargeDepth := 50) [h]

@[simp] theorem flushAliases_formed (s : State) (cid line : Nat) (l : Loc) (hF : Formed s) : Formed (flushAliases s cid line l) := by
  unfold flushAliases
  exact foldl_formed _ (fun _ _ h => by simp [h]) _ hF

@[simp] theorem cleanLine_formed (s : State) (cid line : Nat) (l : Loc) (hF : Formed s) : Formed (cleanLine s cid line l) := by
  unfold cleanLine
  repeat' (first | (simp (maxDischargeDepth := 50) [*]; done) | split | refine State.modCore_formed _ _ ?_ | refine foldl_formed _ (fun _ _ _ => ?_) _ ?_ | refine issue_formed _ _ _ (fun _ _ _ _ _ => ?_) (by assumption) | refine Env.exitTo_formed _ _ _ _ (fun _ => ?_) (by assumption) | dsimp only)

@[simp] theorem cLookup_formed (s : State) (cid line : Nat) (l : Loc) (h : Formed s) : Formed (cLookup s cid line l).1 := by
  have k : Formed (flushAliases s cid line l) := by simp [h]
  unfold cLookup
  dsimp only
  generalize flushAliases s cid line l = t at *
  split
  · exact k
  · split
    · dsimp only
      refine State.modCore_formed _ _ ?_
      split <;> simp (maxDischargeDepth := 50) [k]
    · simp (maxDischargeDepth := 50) [k]

@[simp] theorem cRead_formed (s : State) (cid lease line : Nat) (l : Loc) (na : Bool) (h : Formed s) :
    Formed (cRead s cid lease line l na).1 := by
  have k := cLookup_formed s cid line l h
  unfold cRead
  split <;> rename_i e <;> simp only [e] at k
  · simp (maxDischargeDepth := 50) [k]
  · dsimp only
    split <;> simp (maxDischargeDepth := 50) [k]

@[simp] theorem cMerge_formed (s : State) (cid : Nat) (x : CLine) (off : Nat) (bs : List Byte) (hF : Formed s) : Formed (cMerge s cid x off bs) := by
  unfold cMerge
  repeat' (first | (simp (maxDischargeDepth := 50) [*]; done) | split | refine State.modCore_formed _ _ ?_)

@[simp] theorem storeFill_formed (s : State) (cid lease line : Nat) (l : Loc) (n : Nat) (hF : Formed s) : Formed (storeFill s cid lease line l n) := by
  unfold storeFill
  repeat' (first | (simp (maxDischargeDepth := 50) [*]; done) | split)

@[simp] theorem cStore_formed (s : State) (cid lease va : Nat) (l : Loc) (bs : List Byte) (na : Bool) (h : Formed s) :
    Formed (cStore s cid lease va l bs na) := by
  have k := cLookup_formed s cid (va / 64) (lineLoc l (va % 64)) h
  unfold cStore
  dsimp only
  split <;> rename_i e <;> simp only [e] at k
  · simp (maxDischargeDepth := 50) [k]
  · split
    · simp (maxDischargeDepth := 50) [k]
    · split <;> simp (maxDischargeDepth := 50) [k]

@[simp] theorem noteDenied_formed (s : State) (lease : Nat) (l : Loc) (hF : Formed s) : Formed (noteDenied s lease l) := by
  unfold noteDenied
  repeat' (first | (simp (maxDischargeDepth := 50) [*]; done) | split)

end Sys2Proof.Machine
end

