-- ==== Sys2Proof/Laws/Keep/Observe.lean ====
section
/-! SUPPORT. What Machine/Observe.lean keeps (Safety.lean, Formed). -/

namespace Sys2Proof.Machine

open Sys2Proof.Safety


@[simp] theorem putVa_formed (s : State) (cid lease va : Nat) (bs : List Byte) (r : Rin) (hF : Formed s) : Formed (putVa s cid lease va bs r) := by
  unfold putVa
  refine foldl_formed _ (fun _ _ h => ?_) _ hF
  repeat' (first | exact h | split | (simp [h]; done))

@[simp] theorem pushLate_formed (s : State) (cid lease : Nat) (k : ReqKind) (data : List Byte) (hF : Formed s) : Formed (pushLate s cid lease k data) := by
  unfold pushLate
  simp (maxDischargeDepth := 50) [*]

@[simp] theorem profWrite_formed (s : State) (cid lease : Nat) (bs : List Byte) (hF : Formed s) : Formed (profWrite s cid lease bs) := by
  unfold profWrite
  repeat' (first | (simp (maxDischargeDepth := 50) [*]; done) | split | refine State.modCore_formed _ _ ?_ | refine foldl_formed _ (fun _ _ _ => ?_) _ ?_ | refine issue_formed _ _ _ (fun _ _ _ _ _ => ?_) (by assumption) | refine Env.exitTo_formed _ _ _ _ (fun _ => ?_) (by assumption) | dsimp only)

@[simp] theorem traceBlock_formed (s : State) (cid k kind : Nat) (inst : Inst) (hF : Formed s) : Formed (traceBlock s cid k kind inst) := by
  unfold traceBlock
  dsimp only
  split
  · exact profWrite_formed _ _ _ _ hF
  · exact hF

@[simp] theorem pfEvent_formed (s : State) (kind lease : Nat) (rec : List Byte) (hF : Formed s) : Formed (pfEvent s kind lease rec) := by
  unfold pfEvent
  repeat' (first | (simp (maxDischargeDepth := 50) [*]; done) | split | refine State.modCore_formed _ _ ?_ | refine foldl_formed _ (fun _ _ _ => ?_) _ ?_ | refine issue_formed _ _ _ (fun _ _ _ _ _ => ?_) (by assumption) | refine Env.exitTo_formed _ _ _ _ (fun _ => ?_) (by assumption) | dsimp only)

@[simp] theorem poisonUsed_formed (s : State) (r : Rin) (hF : Formed s) : Formed (poisonUsed s r) := by
  unfold poisonUsed
  simp (maxDischargeDepth := 50) [*]

end Sys2Proof.Machine
end

