-- ==== Sys2Proof/Laws/Keep/Ops.lean ====
section
/-! SUPPORT. What Machine/Ops.lean keeps (Safety.lean, Formed). -/

namespace Sys2Proof.Machine

open Sys2Proof.Safety


@[simp] theorem putInst_formed (s : State) (cid : Nat) (k : Option Nat) (x : Inst) (hF : Formed s) : Formed (putInst s cid k x) := by
  unfold putInst
  simp (maxDischargeDepth := 50) [*]

@[simp] theorem markFiring_formed (s : State) (pt : Nat) (hF : Formed s) : Formed (markFiring s pt) := by
  unfold markFiring
  simp (maxDischargeDepth := 50) [*]

@[simp] theorem Env.update_formed (e : Env) (f : Inst → Inst) (s : State) (hF : Formed s) : Formed (Env.update e f s) := by
  unfold Env.update
  repeat' (first | (simp (maxDischargeDepth := 50) [*]; done) | split | refine State.modCore_formed _ _ ?_ | refine foldl_formed _ (fun _ _ _ => ?_) _ ?_ | refine issue_formed _ _ _ (fun _ _ _ _ _ => ?_) (by assumption) | refine Env.exitTo_formed _ _ _ _ (fun _ => ?_) (by assumption) | dsimp only)

@[simp] theorem Env.result_formed (e : Env) (h : Head) (v : Value) (s : State) (hF : Formed s) : Formed (Env.result e h v s) := by
  unfold Env.result
  simp (maxDischargeDepth := 50) [*]

@[simp] theorem Env.result2_formed (e : Env) (h : Head) (v w : Value) (s : State) (hF : Formed s) : Formed (Env.result2 e h v w s) := by
  unfold Env.result2
  simp (maxDischargeDepth := 50) [*]

@[simp] theorem Env.done_formed (e : Env) (s : State) (hF : Formed s) : Formed (Env.done e s) := by
  unfold Env.done
  simp (maxDischargeDepth := 50) [*]

@[simp] theorem Env.capture_formed (e : Env) (h : Head) (lsid : Option Nat) (eff : Effect) (r : Option Value) (s : State) (hF : Formed s) : Formed (Env.capture e h lsid eff r s) := by
  unfold Env.capture
  simp (maxDischargeDepth := 50) [*]

theorem issue_formed (i : Instr) (s : State) (body : Head → Env → Vals → State → State)
    (hb : ∀ h e v s, Formed s → Formed (body h e v s)) (hF : Formed s) : OutFormed (issue i s body) := by
  unfold issue
  repeat' (first | (simp (maxDischargeDepth := 50) [*]; done) | split)

@[simp] theorem releaseCap_formed (cid k : Nat) (s : State) (q : Capture) (hF : Formed s) : Formed (releaseCap cid k s q) := by
  obtain ⟨slot, lsid, eff, t0, t1⟩ := q
  cases eff <;> simp only [releaseCap] <;> first
    | with_reducible exact hF
    | with_reducible exact State.modCore_formed _ _ hF
    | with_reducible exact State.modQueue_formed _ _ hF
    | with_reducible exact State.modCore_formed _ _ (State.modCluster_formed _ _ hF)
    | (split <;> first | with_reducible exact hF | with_reducible exact State.modQueue_formed _ _ hF)

@[simp] theorem discard_formed (s : State) (cid k : Nat) (hF : Formed s) : Formed (discard s cid k) := by
  unfold discard
  cases ((s.core cid).task k).inst with
  | none => exact hF
  | some x =>
    have h := foldl_formed (releaseCap cid k) (fun s q hF => releaseCap_formed cid k s q hF) x.caps hF
    have h := traceBlock_formed _ cid k 2 x h
    dsimp only
    generalize traceBlock _ cid k 2 x = t at *
    exact State.modCore_formed cid _ (delist_formed t _ h)

@[simp] theorem stopPatch_formed (s : State) (pt : Nat) (f : FaultInfo) (hF : Formed s) : Formed (stopPatch s pt f) := by
  unfold stopPatch
  simp (maxDischargeDepth := 50) [*]

@[simp] theorem noteInjected_formed (s : State) (cid : Nat) (x : Cause) (hF : Formed s) : Formed (noteInjected s cid x) := by
  unfold noteInjected
  repeat' (first | (simp (maxDischargeDepth := 50) [*]; done) | split | refine State.modCore_formed _ _ ?_ | refine foldl_formed _ (fun _ _ _ => ?_) _ ?_ | refine issue_formed _ _ _ (fun _ _ _ _ _ => ?_) (by assumption) | refine Env.exitTo_formed _ _ _ _ (fun _ => ?_) (by assumption) | dsimp only)

@[simp] theorem noteDenial_formed (s : State) (cid : Nat) (x : Cause) (hF : Formed s) : Formed (noteDenial s cid x) := by
  unfold noteDenial
  repeat' (first | (simp (maxDischargeDepth := 50) [*]; done) | split)

@[simp] theorem raiseCore_formed (s : State) (cid : Nat) (k : Option Nat) (blk arm : Nat) (x : Cause) (hF : Formed s) : Formed (raiseCore s cid k blk arm x) := by
  unfold raiseCore
  repeat' (first | (simp (maxDischargeDepth := 50) [*]; done) | split)

@[simp] theorem raiseTask_formed (s : State) (cid k blk : Nat) (x : Cause) (hF : Formed s) : Formed (raiseTask s cid k blk x) := by
  unfold raiseTask
  repeat' (first | (simp (maxDischargeDepth := 50) [*]; done) | split | refine State.modCore_formed _ _ ?_ | refine foldl_formed _ (fun _ _ _ => ?_) _ ?_ | refine issue_formed _ _ _ (fun _ _ _ _ _ => ?_) (by assumption) | refine Env.exitTo_formed _ _ _ _ (fun _ => ?_) (by assumption) | dsimp only)

@[simp] theorem Env.raise_formed (e : Env) (x : Cause) (s : State) (hF : Formed s) : Formed (Env.raise e x s) := by
  unfold Env.raise
  repeat' (first | (simp (maxDischargeDepth := 50) [*]; done) | split)

end Sys2Proof.Machine
end

