-- ==== Sys2Proof/Laws/Keep/FloatOps.lean ====
section
/-! SUPPORT. What Machine/FloatOps.lean keeps (Safety.lean, Formed). -/

namespace Sys2Proof.Machine

open Sys2Proof.Safety


@[simp] theorem Env.converted_formed (e : Env) (i : Instr) (h : Head) (v : Value) (s : State) (hF : Formed s) : Formed (Env.converted e i h v s) := by
  unfold Env.converted
  simp (maxDischargeDepth := 50) [*]

theorem execFadd_formed (h : Head) (ec : FltEC) (b : Option (BitVec 32)) (s : State) (hF : Formed s) : OutFormed (execFadd h ec b s) := by
  unfold execFadd
  exact issue_formed _ _ _ (fun _ _ _ _ ht => by simp [ht]) hF

theorem execFsub_formed (h : Head) (ec : FltEC) (b : Option (BitVec 32)) (s : State) (hF : Formed s) : OutFormed (execFsub h ec b s) := by
  unfold execFsub
  exact issue_formed _ _ _ (fun _ _ _ _ ht => by simp [ht]) hF

theorem execFmul_formed (h : Head) (ec : FltEC) (b : Option (BitVec 32)) (s : State) (hF : Formed s) : OutFormed (execFmul h ec b s) := by
  unfold execFmul
  exact issue_formed _ _ _ (fun _ _ _ _ ht => by simp [ht]) hF

theorem execFfma_formed (h : Head) (ec : FltEC) (b : Option (BitVec 32)) (s : State) (hF : Formed s) : OutFormed (execFfma h ec b s) := by
  unfold execFfma
  exact issue_formed _ _ _ (fun _ _ _ _ ht => by simp [ht]) hF

theorem execFfms_formed (h : Head) (ec : FltEC) (b : Option (BitVec 32)) (s : State) (hF : Formed s) : OutFormed (execFfms h ec b s) := by
  unfold execFfms
  exact issue_formed _ _ _ (fun _ _ _ _ ht => by simp [ht]) hF

theorem execFnma_formed (h : Head) (ec : FltEC) (b : Option (BitVec 32)) (s : State) (hF : Formed s) : OutFormed (execFnma h ec b s) := by
  unfold execFnma
  exact issue_formed _ _ _ (fun _ _ _ _ ht => by simp [ht]) hF

theorem execFmin_formed (h : Head) (ec : FltEC) (b : Option (BitVec 32)) (s : State) (hF : Formed s) : OutFormed (execFmin h ec b s) := by
  unfold execFmin
  exact issue_formed _ _ _ (fun _ _ _ _ ht => by simp [ht]) hF

theorem execFmax_formed (h : Head) (ec : FltEC) (b : Option (BitVec 32)) (s : State) (hF : Formed s) : OutFormed (execFmax h ec b s) := by
  unfold execFmax
  exact issue_formed _ _ _ (fun _ _ _ _ ht => by simp [ht]) hF

theorem execFabs_formed (h : Head) (ec : FltEC) (s : State) (hF : Formed s) : OutFormed (execFabs h ec s) := by
  unfold execFabs
  exact issue_formed _ _ _ (fun _ _ _ _ ht => by simp [ht]) hF

theorem execFneg_formed (h : Head) (ec : FltEC) (s : State) (hF : Formed s) : OutFormed (execFneg h ec s) := by
  unfold execFneg
  exact issue_formed _ _ _ (fun _ _ _ _ ht => by simp [ht]) hF

theorem execFcpys_formed (h : Head) (ec : FltEC) (b : Option (BitVec 32)) (s : State) (hF : Formed s) : OutFormed (execFcpys h ec b s) := by
  unfold execFcpys
  exact issue_formed _ _ _ (fun _ _ _ _ ht => by simp [ht]) hF

theorem execFtest_formed (h : Head) (ec : FltEC) (c : FCond) (s : State) (hF : Formed s) : OutFormed (execFtest h ec c s) := by
  unfold execFtest
  exact issue_formed _ _ _ (fun _ _ _ _ ht => by simp [ht]) hF

theorem execFclass_formed (h : Head) (ec : FltEC) (mask : BitVec 9) (s : State) (hF : Formed s) : OutFormed (execFclass h ec mask s) := by
  unfold execFclass
  exact issue_formed _ _ _ (fun _ _ _ _ ht => by simp [ht]) hF

theorem execFcvt_formed (h : Head) (ec : FltEC) (c : CvtF) (s : State) (hF : Formed s) : OutFormed (execFcvt h ec c s) := by
  unfold execFcvt
  exact issue_formed _ _ _ (fun _ _ _ _ ht => by simp [ht]) hF

theorem execIcvtf_formed (h : Head) (ec : FltEC) (c : CvtF) (s : State) (hF : Formed s) : OutFormed (execIcvtf h ec c s) := by
  unfold execIcvtf
  exact issue_formed _ _ _ (fun _ _ _ _ ht => by simp [ht]) hF

theorem execFcvti_formed (h : Head) (ec : FltEC) (c : CvtF) (s : State) (hF : Formed s) : OutFormed (execFcvti h ec c s) := by
  unfold execFcvti
  exact issue_formed _ _ _ (fun _ _ _ _ ht => by simp [ht]) hF

theorem execFrcp_formed (h : Head) (ec : FltEC) (s : State) (hF : Formed s) : OutFormed (execFrcp h ec s) := by
  unfold execFrcp
  exact issue_formed _ _ _ (fun _ _ _ _ ht => by simp [ht]) hF

theorem execFrsq_formed (h : Head) (ec : FltEC) (s : State) (hF : Formed s) : OutFormed (execFrsq h ec s) := by
  unfold execFrsq
  exact issue_formed _ _ _ (fun _ _ _ _ ht => by simp [ht]) hF

theorem execFexp2_formed (h : Head) (ec : FltEC) (s : State) (hF : Formed s) : OutFormed (execFexp2 h ec s) := by
  unfold execFexp2
  exact issue_formed _ _ _ (fun _ _ _ _ ht => by simp [ht]) hF

theorem execFlog2_formed (h : Head) (ec : FltEC) (s : State) (hF : Formed s) : OutFormed (execFlog2 h ec s) := by
  unfold execFlog2
  exact issue_formed _ _ _ (fun _ _ _ _ ht => by simp [ht]) hF

theorem execFsinp_formed (h : Head) (ec : FltEC) (s : State) (hF : Formed s) : OutFormed (execFsinp h ec s) := by
  unfold execFsinp
  exact issue_formed _ _ _ (fun _ _ _ _ ht => by simp [ht]) hF

theorem execFcosp_formed (h : Head) (ec : FltEC) (s : State) (hF : Formed s) : OutFormed (execFcosp h ec s) := by
  unfold execFcosp
  exact issue_formed _ _ _ (fun _ _ _ _ ht => by simp [ht]) hF

theorem execFtanh_formed (h : Head) (ec : FltEC) (s : State) (hF : Formed s) : OutFormed (execFtanh h ec s) := by
  unfold execFtanh
  exact issue_formed _ _ _ (fun _ _ _ _ ht => by simp [ht]) hF

theorem execFsqrt_formed (h : Head) (ec : FltEC) (s : State) (hF : Formed s) : OutFormed (execFsqrt h ec s) := by
  unfold execFsqrt
  exact issue_formed _ _ _ (fun _ _ _ _ ht => by simp [ht]) hF

theorem execFdiv_formed (h : Head) (ec : FltEC) (b : Option (BitVec 32)) (s : State) (hF : Formed s) : OutFormed (execFdiv h ec b s) := by
  unfold execFdiv
  exact issue_formed _ _ _ (fun _ _ _ _ ht => by simp [ht]) hF

theorem execDot_formed (h : Head) (ec : FltEC) (r : BitVec 3) (s : State) (hF : Formed s) : OutFormed (execDot h ec r s) := by
  unfold execDot
  exact issue_formed _ _ _ (fun _ _ _ _ ht => by simp [ht]) hF

theorem execPack_formed (h : Head) (ec : FltEC) (c : CvtF) (s : State) (hF : Formed s) : OutFormed (execPack h ec c s) := by
  unfold execPack
  exact issue_formed _ _ _ (fun _ _ _ _ ht => by simp [ht]) hF

theorem execUnpack_formed (h : Head) (ec : FltEC) (c : CvtF) (s : State) (hF : Formed s) : OutFormed (execUnpack h ec c s) := by
  unfold execUnpack
  exact issue_formed _ _ _ (fun _ _ _ _ ht => by simp [ht]) hF

theorem execScaleb_formed (h : Head) (ec : FltEC) (r : BitVec 3) (s : State) (hF : Formed s) : OutFormed (execScaleb h ec r s) := by
  unfold execScaleb
  exact issue_formed _ _ _ (fun _ _ _ _ ht => by simp [ht]) hF

theorem execQuant_formed (h : Head) (ec : FltEC) (c : CvtF) (s : State) (hF : Formed s) : OutFormed (execQuant h ec c s) := by
  unfold execQuant
  exact issue_formed _ _ _ (fun _ _ _ _ ht => by simp [ht]) hF

end Sys2Proof.Machine
end

