-- ==== Sys2Proof/Laws/Keep/Control.lean ====
section
/-! SUPPORT. What Machine/Control.lean keeps (Safety.lean, Formed). -/

namespace Sys2Proof.Machine

open Sys2Proof.Safety


@[simp] theorem Env.exit_formed (e : Env) (h : Head) (a : ExitAct) (r : Option Value) (s : State) (hF : Formed s) : Formed (Env.exit e h a r s) := by
  unfold Env.exit
  simp (maxDischargeDepth := 50) [*]

theorem Env.exitTo_formed (e : Env) (v : Value) (go : Nat → State) (s : State) (hg : ∀ t, Formed (go t)) (hF : Formed s) :
    Formed (e.exitTo v go s) := by
  unfold Env.exitTo
  dsimp only
  split
  · exact Env.raise_formed _ _ _ hF
  · exact hg _

theorem execExitB_formed (h : Head) (off : BitVec 32) (s : State) (hF : Formed s) : OutFormed (execExitB h off s) := by
  unfold execExitB
  exact issue_formed _ _ _ (fun _ _ _ _ ht => by simp [ht]) hF

theorem execExitJ_formed (h : Head) (s : State) (hF : Formed s) : OutFormed (execExitJ h s) := by
  unfold execExitJ
  refine issue_formed _ _ _ (fun _ _ _ _ ht => ?_) hF
  refine Env.exitTo_formed _ _ _ _ (fun _ => ?_) ht
  simp [ht]

theorem execExitC_formed (h : Head) (off : BitVec 32) (s : State) (hF : Formed s) : OutFormed (execExitC h off s) := by
  unfold execExitC
  exact issue_formed _ _ _ (fun _ _ _ _ ht => by simp [ht]) hF

theorem execExitCi_formed (h : Head) (s : State) (hF : Formed s) : OutFormed (execExitCi h s) := by
  unfold execExitCi
  refine issue_formed _ _ _ (fun _ _ _ _ ht => ?_) hF
  refine Env.exitTo_formed _ _ _ _ (fun _ => ?_) ht
  simp [ht]

theorem execExitRet_formed (h : Head) (s : State) (hF : Formed s) : OutFormed (execExitRet h s) := by
  unfold execExitRet
  exact issue_formed _ _ _ (fun _ _ _ _ ht => by simp [ht]) hF

theorem execExitT_formed (h : Head) (s : State) (hF : Formed s) : OutFormed (execExitT h s) := by
  unfold execExitT
  exact issue_formed _ _ _ (fun _ _ _ _ ht => by simp [ht]) hF

theorem execExitY_formed (h : Head) (off : BitVec 32) (s : State) (hF : Formed s) : OutFormed (execExitY h off s) := by
  unfold execExitY
  exact issue_formed _ _ _ (fun _ _ _ _ ht => by simp [ht]) hF

theorem execNullw_formed (h : Head) (s : State) (hF : Formed s) : OutFormed (execNullw h s) := by
  unfold execNullw
  exact issue_formed _ _ _ (fun _ _ _ _ ht => by simp [ht]) hF

theorem execNulls_formed (h : Head) (lsid : BitVec 5) (s : State) (hF : Formed s) : OutFormed (execNulls h lsid s) := by
  unfold execNulls
  exact issue_formed _ _ _ (fun _ _ _ _ ht => by simp [ht]) hF

theorem execMovi_formed (h : Head) (w : IntW) (imm : BitVec 32) (s : State) (hF : Formed s) : OutFormed (execMovi h w imm s) := by
  unfold execMovi
  exact issue_formed _ _ _ (fun _ _ _ _ ht => by simp [ht]) hF

theorem execMovh_formed (h : Head) (imm : BitVec 32) (s : State) (hF : Formed s) : OutFormed (execMovh h imm s) := by
  unfold execMovh
  exact issue_formed _ _ _ (fun _ _ _ _ ht => by simp [ht]) hF

theorem execMov_formed (h : Head) (s : State) (hF : Formed s) : OutFormed (execMov h s) := by
  unfold execMov
  exact issue_formed _ _ _ (fun _ _ _ _ ht => by simp [ht]) hF

theorem execGetid_formed (h : Head) (sel : BitVec 5) (s : State) (hF : Formed s) : OutFormed (execGetid h sel s) := by
  unfold execGetid
  exact issue_formed _ _ _ (fun _ _ _ _ ht => by simp [ht]) hF

theorem execConstk_formed (h : Head) (k : BitVec 4) (s : State) (hF : Formed s) : OutFormed (execConstk h k s) := by
  unfold execConstk
  exact issue_formed _ _ _ (fun _ _ _ _ ht => by simp [ht]) hF

theorem execPand_formed (h : Head) (s : State) (hF : Formed s) : OutFormed (execPand h s) := by
  unfold execPand
  exact issue_formed _ _ _ (fun _ _ _ _ ht => by simp [ht]) hF

theorem execPor_formed (h : Head) (s : State) (hF : Formed s) : OutFormed (execPor h s) := by
  unfold execPor
  exact issue_formed _ _ _ (fun _ _ _ _ ht => by simp [ht]) hF

theorem execPxor_formed (h : Head) (s : State) (hF : Formed s) : OutFormed (execPxor h s) := by
  unfold execPxor
  exact issue_formed _ _ _ (fun _ _ _ _ ht => by simp [ht]) hF

theorem execPnot_formed (h : Head) (s : State) (hF : Formed s) : OutFormed (execPnot h s) := by
  unfold execPnot
  exact issue_formed _ _ _ (fun _ _ _ _ ht => by simp [ht]) hF

theorem execSel_formed (h : Head) (w : IntW) (s : State) (hF : Formed s) : OutFormed (execSel h w s) := by
  unfold execSel
  exact issue_formed _ _ _ (fun _ _ _ _ ht => by simp [ht]) hF

theorem execLmask_formed (h : Head) (w : IntW) (s : State) (hF : Formed s) : OutFormed (execLmask h w s) := by
  unfold execLmask
  exact issue_formed _ _ _ (fun _ _ _ _ ht => by simp [ht]) hF

theorem execAnyl_formed (h : Head) (w : IntW) (s : State) (hF : Formed s) : OutFormed (execAnyl h w s) := by
  unfold execAnyl
  exact issue_formed _ _ _ (fun _ _ _ _ ht => by simp [ht]) hF

theorem execAlll_formed (h : Head) (w : IntW) (s : State) (hF : Formed s) : OutFormed (execAlll h w s) := by
  unfold execAlll
  exact issue_formed _ _ _ (fun _ _ _ _ ht => by simp [ht]) hF

theorem execTest_formed (h : Head) (c : Cond) (w : IntW) (b : Option (BitVec 32)) (s : State) (hF : Formed s) : OutFormed (execTest h c w b s) := by
  unfold execTest
  exact issue_formed _ _ _ (fun _ _ _ _ ht => by simp [ht]) hF

end Sys2Proof.Machine
end

