-- ==== Sys2Proof/Laws/Keep/Places.lean ====
section
/-! SUPPORT. What Machine/Places.lean keeps (Safety.lean, Formed). -/

namespace Sys2Proof.Machine

open Sys2Proof.Safety


@[simp] theorem acquire_formed (s : State) (cid : Nat) (sc : Option Scope) (hF : Formed s) : Formed (acquire s cid sc) := by
  unfold acquire
  repeat' (first | (simp (maxDischargeDepth := 50) [*]; done) | split)

@[simp] theorem release_formed (s : State) (cid : Nat) (sc : Option Scope) (hF : Formed s) : Formed (release s cid sc) := by
  unfold release
  repeat' (first | (simp (maxDischargeDepth := 50) [*]; done) | split)

end Sys2Proof.Machine
end

