-- ==== Sys2Proof/Laws/Keep/Waits.lean ====
section
/-! SUPPORT. What Machine/Waits.lean keeps (Safety.lean, Formed). -/

namespace Sys2Proof.Machine

open Sys2Proof.Safety


@[simp] theorem signalState_formed (s : State) (cid : Nat) (va : Nat) (l : Loc) (hF : Formed s) : Formed (signalState s cid va l) := by
  unfold signalState
  simp (maxDischargeDepth := 50) [*]

end Sys2Proof.Machine
end

