-- ==== Sys2Proof/Laws/Keep/MemoryOps.lean ====
section
/-! SUPPORT. What Machine/MemoryOps.lean keeps (Safety.lean, Formed). -/

namespace Sys2Proof.Machine

open Sys2Proof.Safety


@[simp] theorem noteReplays_formed (role : PoolRole) (ac : AC) (ps : List (Nat × Nat)) (s : State) (hF : Formed s) : Formed (noteReplays role ac ps s) := by
  unfold noteReplays
  repeat' (first | (simp (maxDischargeDepth := 50) [*]; done) | split | refine State.modCore_formed _ _ ?_ | refine foldl_formed _ (fun _ _ _ => ?_) _ ?_)

@[simp] theorem Env.poolLoad_formed (e : Env) (h : Head) (role : PoolRole) (ac : AC) (m : MemF) (ps : List PoolPlace) (s : State) (hF : Formed s) : Formed (Env.poolLoad e h role ac m ps s) := by
  unfold Env.poolLoad
  repeat' (first | (simp (maxDischargeDepth := 50) [*]; done) | split | refine State.modCore_formed _ _ ?_ | refine foldl_formed _ (fun _ _ _ => ?_) _ ?_ | refine issue_formed _ _ _ (fun _ _ _ _ _ => ?_) (by assumption) | refine Env.exitTo_formed _ _ _ _ (fun _ => ?_) (by assumption) | dsimp only)

@[simp] theorem writePool_formed (s : State) (role : PoolRole) (ps : List (Nat × Nat × List Byte)) (hF : Formed s) : Formed (writePool s role ps) := by
  unfold writePool
  exact foldl_formed _ (fun _ _ h => by simp [h]) _ hF

@[simp] theorem Env.poolStore_formed (e : Env) (h : Head) (role : PoolRole) (ac : AC) (m : MemF) (ps : List (Nat × Nat × List Byte)) (s : State) (hF : Formed s) : Formed (Env.poolStore e h role ac m ps s) := by
  unfold Env.poolStore
  repeat' (first | (simp (maxDischargeDepth := 50) [*]; done) | split)

@[simp] theorem Env.releaseFirst_formed (e : Env) (m : MemF) (s : State) (hF : Formed s) : Formed (Env.releaseFirst e m s) := by
  unfold Env.releaseFirst
  repeat' (first | (simp (maxDischargeDepth := 50) [*]; done) | split)

@[simp] theorem Env.ownLoad_formed (e : Env) (h : Head) (role : PoolRole) (ac : AC) (m : MemF) (v : Vals) (s : State) (hF : Formed s) : Formed (Env.ownLoad e h role ac m v s) := by
  unfold Env.ownLoad
  repeat' (first | (simp (maxDischargeDepth := 50) [*]; done) | split)

@[simp] theorem Env.ownStore_formed (e : Env) (h : Head) (role : PoolRole) (ac : AC) (m : MemF) (v : Vals) (s : State) (hF : Formed s) : Formed (Env.ownStore e h role ac m v s) := by
  unfold Env.ownStore
  repeat' (first | (simp (maxDischargeDepth := 50) [*]; done) | split)

theorem execLds_formed (h : Head) (ac : AC) (m : MemF) (s : State) (hF : Formed s) : OutFormed (execLds h ac m s) := by
  unfold execLds
  exact issue_formed _ _ _ (fun _ _ _ _ ht => by simp [ht]) hF

theorem execSts_formed (h : Head) (ac : AC) (m : MemF) (s : State) (hF : Formed s) : OutFormed (execSts h ac m s) := by
  unfold execSts
  exact issue_formed _ _ _ (fun _ _ _ _ ht => by simp [ht]) hF

theorem execLdt_formed (h : Head) (ac : AC) (m : MemF) (s : State) (hF : Formed s) : OutFormed (execLdt h ac m s) := by
  unfold execLdt
  exact issue_formed _ _ _ (fun _ _ _ _ ht => by simp [ht]) hF

theorem execStt_formed (h : Head) (ac : AC) (m : MemF) (s : State) (hF : Formed s) : OutFormed (execStt h ac m s) := by
  unfold execStt
  exact issue_formed _ _ _ (fun _ _ _ _ ht => by simp [ht]) hF

theorem execLdn_formed (h : Head) (ac : AC) (m : MemF) (s : State) (hF : Formed s) : OutFormed (execLdn h ac m s) := by
  unfold execLdn
  refine issue_formed _ _ _ (fun _ _ _ _ ht => ?_) hF
  split <;> simp [ht]

theorem execStn_formed (h : Head) (ac : AC) (m : MemF) (s : State) (hF : Formed s) : OutFormed (execStn h ac m s) := by
  unfold execStn
  refine issue_formed _ _ _ (fun _ _ _ _ ht => ?_) hF
  split <;> simp [ht]

@[simp] theorem streamXlate_formed (s : State) (cid lease k va : Nat) (hF : Formed s) : Formed (streamXlate s cid lease k va).1 := by
  unfold streamXlate
  repeat' (first | (simp (maxDischargeDepth := 50) [*]; done) | split | refine State.modCore_formed _ _ ?_ | refine foldl_formed _ (fun _ _ _ => ?_) _ ?_ | refine issue_formed _ _ _ (fun _ _ _ _ _ => ?_) (by assumption) | refine Env.exitTo_formed _ _ _ _ (fun _ => ?_) (by assumption) | dsimp only)

theorem streamPieces_formed (cid : Nat) (p : Patch) (gk : GKind) (n lsid k : Nat) (lanes : Bool) (es : List (Nat × Nat)) :
    ∀ s : State, Formed s → Formed (streamPieces s cid p gk n lsid k lanes es).1 := by
  induction es with
  | nil => intro s hF; exact hF
  | cons e es ih =>
    obtain ⟨l, va⟩ := e
    intro s hF
    have hx := streamXlate_formed s cid p.lease k va hF
    simp only [streamPieces]
    split
    · exact hF
    · split <;> rename_i e <;> simp only [e] at hx
      · exact hx
      · exact hx
      · exact hx
      · split
        · exact hx
        · split
          · exact hx
          · rename_i t loc pe _ _
            have hy := ih t hx
            split
            · rename_i e2; simp only [e2] at hy; exact hy
            · exact hy

@[simp] theorem pushGen_formed (s : State) (cid : Nat) (r : GenReq) (hF : Formed s) : Formed (pushGen s cid r) := by
  unfold pushGen
  simp (maxDischargeDepth := 50) [*]

@[simp] theorem Env.askLoad_formed (e : Env) (ac : AC) (gather na : Bool) (m : MemF) (count : Nat) (ps : List GPiece) (s : State) (hF : Formed s) : Formed (Env.askLoad e ac gather na m count ps s) := by
  unfold Env.askLoad
  repeat' (first | (simp (maxDischargeDepth := 50) [*]; done) | split)

@[simp] theorem bumpStream_formed (s : State) (cid k : Nat) (hF : Formed s) : Formed (bumpStream s cid k) := by
  unfold bumpStream
  simp (maxDischargeDepth := 50) [*]

theorem execLdg_formed (h : Head) (ac : AC) (na : Bool) (m : MemF) (s : State) (hF : Formed s) : OutFormed (execLdg h ac na m s) := by
  unfold execLdg
  refine issue_formed _ _ _ (fun h e v s hF => ?_) hF
  split
  · dsimp only
    split
    · simp [hF]
    · split
      · exact hF
      · have hx := streamPieces_formed e.cid e.p .load (pieceBytes ac) m.lsid.toNat (streamNo m) (ac = .v)
          (contiguous ac (e.c.streamVa (streamNo m))) s hF
        split <;> rename_i e1 <;> simp only [e1] at hx <;> simp (maxDischargeDepth := 50) [hx]
  · split <;> simp [hF]

theorem execLdgv_formed (h : Head) (ac : AC) (na : Bool) (m : MemF) (s : State) (hF : Formed s) : OutFormed (execLdgv h ac na m s) := by
  unfold execLdgv
  refine issue_formed _ _ _ (fun _ _ _ _ ht => ?_) hF
  split <;> simp [ht]

@[simp] theorem Env.askStore_formed (e : Env) (ac : AC) (gather na : Bool) (m : MemF) (count : Nat) (ps : List GPiece) (data : List Byte) (s : State) (hF : Formed s) : Formed (Env.askStore e ac gather na m count ps data s) := by
  unfold Env.askStore
  simp (maxDischargeDepth := 50) [*]

theorem execStg_formed (h : Head) (ac : AC) (na : Bool) (m : MemF) (s : State) (hF : Formed s) : OutFormed (execStg h ac na m s) := by
  unfold execStg
  refine issue_formed _ _ _ (fun h e v s hF => ?_) hF
  dsimp only
  split
  · split
    · exact hF
    · split
      · simp [hF]
      · split
        · simp [hF]
        · have hx := streamPieces_formed e.cid e.p .store (pieceBytes ac) m.lsid.toNat (streamNo m) (ac = .v)
            (contiguous ac (e.c.streamVa (streamNo m))) s hF
          split <;> rename_i e1 <;> simp only [e1] at hx <;> simp (maxDischargeDepth := 50) [hx]
  · split <;> simp [hF]

theorem execStgv_formed (h : Head) (ac : AC) (na : Bool) (m : MemF) (s : State) (hF : Formed s) : OutFormed (execStgv h ac na m s) := by
  unfold execStgv
  refine issue_formed _ _ _ (fun _ _ _ _ ht => ?_) hF
  dsimp only
  repeat' (first | exact ht | split | (simp [*]; done))

theorem execPrf_formed (h : Head) (na : Bool) (m : MemF) (s : State) (hF : Formed s) : OutFormed (execPrf h na m s) := by
  unfold execPrf
  repeat' (first | (simp (maxDischargeDepth := 50) [*]; done) | split | refine State.modCore_formed _ _ ?_ | refine foldl_formed _ (fun _ _ _ => ?_) _ ?_ | refine issue_formed _ _ _ (fun _ _ _ _ _ => ?_) (by assumption) | refine Env.exitTo_formed _ _ _ _ (fun _ => ?_) (by assumption) | dsimp only)

@[simp] theorem Env.poolAtomic_formed (e : Env) (h : Head) (op : AtOp) (w : Bool) (m : MemF) (v : Vals) (ps : List PoolPlace) (s : State) (hF : Formed s) : Formed (Env.poolAtomic e h op w m v ps s) := by
  unfold Env.poolAtomic
  repeat' (first | (simp (maxDischargeDepth := 50) [*]; done) | split)

theorem execAtms_formed (h : Head) (op : AtOp) (wide : Bool) (m : MemF) (s : State) (hF : Formed s) : OutFormed (execAtms h op wide m s) := by
  unfold execAtms
  refine issue_formed _ _ _ (fun _ _ _ _ ht => ?_) hF
  repeat' (first | exact ht | split | (simp [ht]; done))

theorem execAtmn_formed (h : Head) (op : AtOp) (wide : Bool) (m : MemF) (s : State) (hF : Formed s) : OutFormed (execAtmn h op wide m s) := by
  unfold execAtmn
  refine issue_formed _ _ _ (fun _ _ _ _ ht => ?_) hF
  split <;> simp [ht]

theorem execAtmg_formed (h : Head) (op : AtOp) (wide : Bool) (m : MemF) (s : State) (hF : Formed s) : OutFormed (execAtmg h op wide m s) := by
  unfold execAtmg
  refine issue_formed _ _ _ (fun _ _ _ _ ht => ?_) hF
  repeat' (first | exact ht | split | (simp [ht]; done))

@[simp] theorem Env.cctl_formed (e : Env) (h : Head) (form : Nat) (m : MemF) (a : Value) (s : State) (hF : Formed s) : Formed (Env.cctl e h form m a s) := by
  unfold Env.cctl
  simp (maxDischargeDepth := 50) [*]

theorem execCctlWb_formed (h : Head) (m : MemF) (s : State) (hF : Formed s) : OutFormed (execCctlWb h m s) := by
  unfold execCctlWb
  exact issue_formed _ _ _ (fun _ _ _ _ ht => by simp [ht]) hF

theorem execCctlInv_formed (h : Head) (m : MemF) (s : State) (hF : Formed s) : OutFormed (execCctlInv h m s) := by
  unfold execCctlInv
  exact issue_formed _ _ _ (fun _ _ _ _ ht => by simp [ht]) hF

theorem execCctlWbinv_formed (h : Head) (m : MemF) (s : State) (hF : Formed s) : OutFormed (execCctlWbinv h m s) := by
  unfold execCctlWbinv
  exact issue_formed _ _ _ (fun _ _ _ _ ht => by simp [ht]) hF

theorem execCctlWball_formed (h : Head) (m : MemF) (s : State) (hF : Formed s) : OutFormed (execCctlWball h m s) := by
  unfold execCctlWball
  exact issue_formed _ _ _ (fun _ _ _ _ ht => by simp [ht]) hF

theorem execCctlInvall_formed (h : Head) (m : MemF) (s : State) (hF : Formed s) : OutFormed (execCctlInvall h m s) := by
  unfold execCctlInvall
  exact issue_formed _ _ _ (fun _ _ _ _ ht => by simp [ht]) hF

end Sys2Proof.Machine
end

