-- ==== Sys2Proof/Laws/Keep/CopyTags.lean ====
section
/-! SUPPORT. What Machine/CopyTags.lean keeps (Safety.lean, Formed). -/

namespace Sys2Proof.Machine

open Sys2Proof.Safety


@[simp] theorem enqueueCopy_formed (s : State) (cl q : Nat) (e : CopyEnt) (hF : Formed s) : Formed (enqueueCopy s cl q e) := by
  unfold enqueueCopy
  simp (maxDischargeDepth := 50) [*]

@[simp] theorem acceptCopy_formed (s : State) (cid : Nat) (k : Option Nat) (p : Patch) (packet : Value) (hF : Formed s) : Formed (acceptCopy s cid k p packet) := by
  unfold acceptCopy
  simp (maxDischargeDepth := 50) [*]

theorem execCpy_formed (h : Head) (m : MemF) (s : State) (hF : Formed s) : OutFormed (execCpy h m s) := by
  unfold execCpy
  repeat' (first | (simp (maxDischargeDepth := 50) [*]; done) | split | refine State.modCore_formed _ _ ?_ | refine foldl_formed _ (fun _ _ _ => ?_) _ ?_ | refine issue_formed _ _ _ (fun _ _ _ _ _ => ?_) (by assumption) | refine Env.exitTo_formed _ _ _ _ (fun _ => ?_) (by assumption) | dsimp only)

theorem execCpyqf_formed (h : Head) (self sys : Bool) (osc : Option Scope) (s : State) (hF : Formed s) : OutFormed (execCpyqf h self sys osc s) := by
  unfold execCpyqf
  refine issue_formed _ _ _ (fun _ _ _ _ ht => ?_) hF
  dsimp only
  repeat' (first | exact ht | split | (simp [*]; done))

theorem execTagw_formed (h : Head) (osc : Option Scope) (any : Bool) (s : State) (hF : Formed s) : OutFormed (execTagw h osc any s) := by
  unfold execTagw
  refine issue_formed _ _ _ (fun _ _ _ _ ht => ?_) hF
  dsimp only
  repeat' (first | exact ht | split | (simp [*]; done))

theorem execTagff_formed (h : Head) (osc : Option Scope) (s : State) (hF : Formed s) : OutFormed (execTagff h osc s) := by
  unfold execTagff
  refine issue_formed _ _ _ (fun _ _ _ _ ht => ?_) hF
  split <;> simp [ht]

theorem execTagclr_formed (h : Head) (s : State) (hF : Formed s) : OutFormed (execTagclr h s) := by
  unfold execTagclr
  exact issue_formed _ _ _ (fun _ _ _ _ ht => by simp [ht]) hF

theorem execTagrd_formed (h : Head) (sel : BitVec 2) (s : State) (hF : Formed s) : OutFormed (execTagrd h sel s) := by
  unfold execTagrd
  exact issue_formed _ _ _ (fun _ _ _ _ ht => by simp [ht]) hF

end Sys2Proof.Machine
end

