-- ==== Sys2Proof/Laws/Keep/MangleOps.lean ====
section
/-! SUPPORT. What Machine/MangleOps.lean keeps (Safety.lean, Formed). -/

namespace Sys2Proof.Machine

open Sys2Proof.Safety


@[simp] theorem armLoad_formed (s : State) (cid lease : Nat) (fmt : BitVec 3) (src : BitVec 64) (ls : List Loc) (hF : Formed s) : Formed (armLoad s cid lease fmt src ls) := by
  unfold armLoad
  repeat' (first | (simp (maxDischargeDepth := 50) [*]; done) | split)

theorem execMload_formed (h : Head) (ec : EC) (s : State) (hF : Formed s) : OutFormed (execMload h ec s) := by
  unfold execMload
  refine issue_formed _ _ _ (fun _ _ _ _ ht => ?_) hF
  dsimp only
  repeat' (first | exact ht | split | (simp [*]; done))

theorem execMswap_formed (h : Head) (s : State) (hF : Formed s) : OutFormed (execMswap h s) := by
  unfold execMswap
  exact issue_formed _ _ _ (fun _ _ _ _ ht => by simp [ht]) hF

theorem execMarm_formed (h : Head) (shape : BitVec 5) (s : State) (hF : Formed s) : OutFormed (execMarm h shape s) := by
  unfold execMarm
  refine issue_formed _ _ _ (fun _ _ _ _ ht => ?_) hF
  repeat' (first | exact ht | split | (simp [ht]; done))

theorem execMfence_formed (h : Head) (s : State) (hF : Formed s) : OutFormed (execMfence h s) := by
  unfold execMfence
  exact issue_formed _ _ _ (fun _ _ _ _ ht => by simp [ht]) hF

theorem execMwait_formed (h : Head) (s : State) (hF : Formed s) : OutFormed (execMwait h s) := by
  unfold execMwait
  refine issue_formed _ _ _ (fun _ _ _ _ ht => ?_) hF
  split <;> simp [ht]

theorem execMchk_formed (h : Head) (clr : Bool) (s : State) (hF : Formed s) : OutFormed (execMchk h clr s) := by
  unfold execMchk
  refine issue_formed _ _ _ (fun _ _ _ _ ht => ?_) hF
  split <;> simp [ht]

theorem execMzero_formed (h : Head) (s : State) (hF : Formed s) : OutFormed (execMzero h s) := by
  unfold execMzero
  refine issue_formed _ _ _ (fun _ _ _ _ ht => ?_) hF
  dsimp only
  repeat' (first | exact ht | split | (simp [*]; done))

end Sys2Proof.Machine
end

