-- ==== Sys2Proof/Laws/Keep/PoolOps.lean ====
section
/-! SUPPORT. What Machine/PoolOps.lean keeps (Safety.lean, Formed). -/

namespace Sys2Proof.Machine

open Sys2Proof.Safety


theorem execPleat_formed (h : Head) (s : State) (hF : Formed s) : OutFormed (execPleat h s) := by
  unfold execPleat
  refine issue_formed _ _ _ (fun _ _ _ _ ht => ?_) hF
  dsimp only
  repeat' (first | exact ht | split | (simp [*]; done))

theorem execPleatw_formed (h : Head) (s : State) (hF : Formed s) : OutFormed (execPleatw h s) := by
  unfold execPleatw
  refine issue_formed _ _ _ (fun _ _ _ _ ht => ?_) hF
  dsimp only
  repeat' (first | exact ht | split | (simp [*]; done))

theorem execPleatq_formed (h : Head) (s : State) (hF : Formed s) : OutFormed (execPleatq h s) := by
  unfold execPleatq
  exact issue_formed _ _ _ (fun _ _ _ _ ht => by simp [ht]) hF

theorem execOcc_formed (h : Head) (sel : BitVec 4) (s : State) (hF : Formed s) : OutFormed (execOcc h sel s) := by
  unfold execOcc
  exact issue_formed _ _ _ (fun _ _ _ _ ht => by simp [ht]) hF

theorem execSwm_formed (h : Head) (s : State) (hF : Formed s) : OutFormed (execSwm h s) := by
  unfold execSwm
  refine issue_formed _ _ _ (fun _ _ _ _ ht => ?_) hF
  dsimp only
  repeat' (first | exact ht | split | (simp [*]; done))

end Sys2Proof.Machine
end

