-- ==== Sys2Proof/Laws/Keep/Sealing.lean ====
section
/-! SUPPORT. What Machine/Sealing.lean keeps (Safety.lean, Formed). -/

namespace Sys2Proof.Machine

open Sys2Proof.Safety


theorem execRinr_formed (h : Head) (sel : BitVec 2) (s : State) (hF : Formed s) : OutFormed (execRinr h sel s) := by
  unfold execRinr
  exact issue_formed _ _ _ (fun _ _ _ _ ht => by simp [ht]) hF

theorem execSealpt_formed (h : Head) (s : State) (hF : Formed s) : OutFormed (execSealpt h s) := by
  unfold execSealpt
  refine issue_formed _ _ _ (fun _ _ _ _ ht => ?_) hF
  split <;> simp [ht]

theorem execSealw_formed (h : Head) (s : State) (hF : Formed s) : OutFormed (execSealw h s) := by
  unfold execSealw
  refine issue_formed _ _ _ (fun _ _ _ _ ht => ?_) hF
  split <;> simp [ht]

theorem execSealrqNowait_formed (h : Head) (s : State) (hF : Formed s) : OutFormed (execSealrqNowait h s) := by
  unfold execSealrqNowait
  exact issue_formed _ _ _ (fun _ _ _ _ ht => by simp [ht]) hF

theorem execSealrqWait_formed (h : Head) (s : State) (hF : Formed s) : OutFormed (execSealrqWait h s) := by
  unfold execSealrqWait
  refine issue_formed _ _ _ (fun _ _ _ _ ht => ?_) hF
  repeat' (first | exact ht | split | (simp [ht]; done))

@[simp] theorem Env.stx_formed (e : Env) (h : Head) (irr : Bool) (ac : AC) (m : MemF) (v : Vals) (s : State) (hF : Formed s) : Formed (Env.stx e h irr ac m v s) := by
  unfold Env.stx
  repeat' (first | (simp (maxDischargeDepth := 50) [*]; done) | split | refine State.modCore_formed _ _ ?_ | refine foldl_formed _ (fun _ _ _ => ?_) _ ?_ | refine issue_formed _ _ _ (fun _ _ _ _ _ => ?_) (by assumption) | refine Env.exitTo_formed _ _ _ _ (fun _ => ?_) (by assumption) | dsimp only)

theorem execStx_formed (h : Head) (ac : AC) (m : MemF) (s : State) (hF : Formed s) : OutFormed (execStx h ac m s) := by
  unfold execStx
  exact issue_formed _ _ _ (fun _ _ _ _ ht => by simp [ht]) hF

theorem execStxIrr_formed (h : Head) (ac : AC) (m : MemF) (s : State) (hF : Formed s) : OutFormed (execStxIrr h ac m s) := by
  unfold execStxIrr
  exact issue_formed _ _ _ (fun _ _ _ _ ht => by simp [ht]) hF

theorem execEscw_formed (h : Head) (s : State) (hF : Formed s) : OutFormed (execEscw h s) := by
  unfold execEscw
  refine issue_formed _ _ _ (fun _ _ _ _ ht => ?_) hF
  split <;> simp [ht]

end Sys2Proof.Machine
end

