-- ==== Sys2Proof/Laws/Keep/Sync.lean ====
section
/-! SUPPORT. What Machine/Sync.lean keeps (Safety.lean, Formed). -/

namespace Sys2Proof.Machine

open Sys2Proof.Safety


@[simp] theorem Env.fence_formed (e : Env) (h : Head) (acq rel sc : Bool) (scope : Scope) (s : State) (hF : Formed s) : Formed (Env.fence e h acq rel sc scope s) := by
  unfold Env.fence
  repeat' (first | (simp (maxDischargeDepth := 50) [*]; done) | split)

theorem execFenceAcq_formed (h : Head) (scope : Scope) (s : State) (hF : Formed s) : OutFormed (execFenceAcq h scope s) := by
  unfold execFenceAcq
  exact issue_formed _ _ _ (fun _ _ _ _ ht => by simp [ht]) hF

theorem execFenceRel_formed (h : Head) (scope : Scope) (s : State) (hF : Formed s) : OutFormed (execFenceRel h scope s) := by
  unfold execFenceRel
  exact issue_formed _ _ _ (fun _ _ _ _ ht => by simp [ht]) hF

theorem execFenceBoth_formed (h : Head) (scope : Scope) (s : State) (hF : Formed s) : OutFormed (execFenceBoth h scope s) := by
  unfold execFenceBoth
  exact issue_formed _ _ _ (fun _ _ _ _ ht => by simp [ht]) hF

theorem execFenceSc_formed (h : Head) (scope : Scope) (s : State) (hF : Formed s) : OutFormed (execFenceSc h scope s) := by
  unfold execFenceSc
  exact issue_formed _ _ _ (fun _ _ _ _ ht => by simp [ht]) hF

theorem execArrive_formed (h : Head) (lobj : Bool) (k : BitVec 6) (e : BitVec 16) (s : State) (hF : Formed s) : OutFormed (execArrive h lobj k e s) := by
  unfold execArrive
  refine issue_formed _ _ _ (fun _ _ _ _ ht => ?_) hF
  split <;> simp [ht]

theorem execWaitb_formed (h : Head) (lobj : Bool) (k : BitVec 6) (s : State) (hF : Formed s) : OutFormed (execWaitb h lobj k s) := by
  unfold execWaitb
  refine issue_formed _ _ _ (fun _ _ _ _ ht => ?_) hF
  repeat' (first | exact ht | split | (simp [ht]; done))

theorem execBar_formed (h : Head) (s : State) (hF : Formed s) : OutFormed (execBar h s) := by
  unfold execBar
  refine issue_formed _ _ _ (fun _ _ _ _ ht => ?_) hF
  split <;> simp [ht]

theorem execWaitm_formed (h : Head) (c : Cond) (osc : Option Scope) (s : State) (hF : Formed s) : OutFormed (execWaitm h c osc s) := by
  unfold execWaitm
  repeat' (first | (simp (maxDischargeDepth := 50) [*]; done) | split | refine State.modCore_formed _ _ ?_ | refine foldl_formed _ (fun _ _ _ => ?_) _ ?_ | refine issue_formed _ _ _ (fun _ _ _ _ _ => ?_) (by assumption) | refine Env.exitTo_formed _ _ _ _ (fun _ => ?_) (by assumption) | dsimp only)

end Sys2Proof.Machine
end

