-- ==== Sys2Proof/Laws/Keep/Tasks.lean ====
section
/-! SUPPORT. What Machine/Tasks.lean keeps (Safety.lean, Formed). -/

namespace Sys2Proof.Machine

open Sys2Proof.Safety


theorem execSend_formed (h : Head) (kind : BitVec 4) (j : BitVec 4) (s : State) (hF : Formed s) : OutFormed (execSend h kind j s) := by
  unfold execSend
  refine issue_formed _ _ _ (fun _ _ _ _ ht => ?_) hF
  repeat' (first | exact ht | split | (simp [ht]; done))

theorem execRecv_formed (h : Head) (j : BitVec 4) (s : State) (hF : Formed s) : OutFormed (execRecv h j s) := by
  unfold execRecv
  refine issue_formed _ _ _ (fun _ _ _ _ ht => ?_) hF
  repeat' (first | exact ht | split | (simp [ht]; done))

theorem execBind_formed (h : Head) (j : BitVec 4) (rel : Bool) (s : State) (hF : Formed s) : OutFormed (execBind h j rel s) := by
  unfold execBind
  refine issue_formed _ _ _ (fun _ _ _ _ ht => ?_) hF
  dsimp only
  repeat' (first | exact ht | split | (simp [*]; done))

theorem execWaitc_formed (h : Head) (j : BitVec 4) (n : BitVec 7) (s : State) (hF : Formed s) : OutFormed (execWaitc h j n s) := by
  unfold execWaitc
  refine issue_formed _ _ _ (fun _ _ _ _ ht => ?_) hF
  repeat' (first | exact ht | split | (simp [ht]; done))

theorem execTspawn_formed (h : Head) (wait : Bool) (s : State) (hF : Formed s) : OutFormed (execTspawn h wait s) := by
  unfold execTspawn
  exact issue_formed _ _ _ (fun _ _ _ _ ht => by simp [ht]) hF

theorem execTstat_formed (h : Head) (s : State) (hF : Formed s) : OutFormed (execTstat h s) := by
  unfold execTstat
  exact issue_formed _ _ _ (fun _ _ _ _ ht => by simp [ht]) hF

theorem execQpost_formed (h : Head) (m : MemF) (s : State) (hF : Formed s) : OutFormed (execQpost h m s) := by
  unfold execQpost
  refine issue_formed _ _ _ (fun _ _ _ _ ht => ?_) hF
  dsimp only
  repeat' (first | exact ht | split | (simp [*]; done))

theorem execConstw_formed (h : Head) (px py : BitVec 6) (k : BitVec 4) (c : BitVec 3) (s : State) (hF : Formed s) : OutFormed (execConstw h px py k c s) := by
  unfold execConstw
  refine issue_formed _ _ _ (fun _ _ _ _ ht => ?_) hF
  split <;> simp [ht]

theorem execMarkt_formed (h : Head) (mask : BitVec 16) (s : State) (hF : Formed s) : OutFormed (execMarkt h mask s) := by
  unfold execMarkt
  refine issue_formed _ _ _ (fun _ _ _ _ ht => ?_) hF
  repeat' (first | exact ht | split | (simp [ht]; done))

end Sys2Proof.Machine
end

