-- ==== Sys2Proof/Laws/Keep/System.lean ====
section
/-! SUPPORT. What Machine/System.lean keeps (Safety.lean, Formed). -/

namespace Sys2Proof.Machine

open Sys2Proof.Safety


theorem execTrap_formed (h : Head) (code : BitVec 16) (s : State) (hF : Formed s) : OutFormed (execTrap h code s) := by
  unfold execTrap
  exact issue_formed _ _ _ (fun _ _ _ _ ht => by simp [ht]) hF

theorem execBrk_formed (h : Head) (num : BitVec 8) (s : State) (hF : Formed s) : OutFormed (execBrk h num s) := by
  unfold execBrk
  exact issue_formed _ _ _ (fun _ _ _ _ ht => by simp [ht]) hF

theorem execCsrr_formed (h : Head) (r : BitVec 8) (s : State) (hF : Formed s) : OutFormed (execCsrr h r s) := by
  unfold execCsrr
  exact issue_formed _ _ _ (fun _ _ _ _ ht => by simp [ht]) hF

theorem execCsrw_formed (h : Head) (r : BitVec 8) (s : State) (hF : Formed s) : OutFormed (execCsrw h r s) := by
  unfold execCsrw
  exact issue_formed _ _ _ (fun _ _ _ _ ht => by simp [ht]) hF

theorem execSvcHemlint_formed (h : Head) (s : State) (hF : Formed s) : OutFormed (execSvcHemlint h s) := by
  unfold execSvcHemlint
  exact issue_formed _ _ _ (fun _ _ _ _ ht => by simp [ht]) hF

theorem execSvcStalelint_formed (h : Head) (s : State) (hF : Formed s) : OutFormed (execSvcStalelint h s) := by
  unfold execSvcStalelint
  exact issue_formed _ _ _ (fun _ _ _ _ ht => by simp [ht]) hF

theorem execSvcRollbacks_formed (h : Head) (s : State) (hF : Formed s) : OutFormed (execSvcRollbacks h s) := by
  unfold execSvcRollbacks
  exact issue_formed _ _ _ (fun _ _ _ _ ht => by simp [ht]) hF

theorem execSvcIdent_formed (h : Head) (s : State) (hF : Formed s) : OutFormed (execSvcIdent h s) := by
  unfold execSvcIdent
  exact issue_formed _ _ _ (fun _ _ _ _ ht => by simp [ht]) hF

theorem execSvcNotify_formed (h : Head) (s : State) (hF : Formed s) : OutFormed (execSvcNotify h s) := by
  unfold execSvcNotify
  refine issue_formed _ _ _ (fun _ _ _ _ ht => ?_) hF
  split <;> simp [ht]

theorem execSvcReserved_formed (h : Head) (n : BitVec 8) (s : State) (hF : Formed s) : OutFormed (execSvcReserved h n s) := by
  unfold execSvcReserved
  exact issue_formed _ _ _ (fun _ _ _ _ ht => by simp [ht]) hF

theorem execRdcyc_formed (h : Head) (s : State) (hF : Formed s) : OutFormed (execRdcyc h s) := by
  unfold execRdcyc
  exact issue_formed _ _ _ (fun _ _ _ _ ht => by simp [ht]) hF

theorem execRdtime_formed (h : Head) (s : State) (hF : Formed s) : OutFormed (execRdtime h s) := by
  unfold execRdtime
  exact issue_formed _ _ _ (fun _ _ _ _ ht => by simp [ht]) hF

theorem execNop_formed (h : Head) (s : State) (hF : Formed s) : OutFormed (execNop h s) := by
  unfold execNop
  exact issue_formed _ _ _ (fun _ _ _ _ ht => by simp [ht]) hF

end Sys2Proof.Machine
end

