-- ==== Sys2Proof/Laws/Keep/Records.lean ====
section
/-! SUPPORT. What Machine/Records.lean keeps (Safety.lean, Formed). -/

namespace Sys2Proof.Machine

open Sys2Proof.Safety


@[simp] theorem postRecord_formed (s : State) (q : Nat) (r : BitVec 256) (hF : Formed s) : Formed (postRecord s q r) := by
  unfold postRecord
  simp (maxDischargeDepth := 50) [*]

@[simp] theorem keepFault_formed (s : State) (lease : Nat) (r : BitVec 512) (hF : Formed s) : Formed (keepFault s lease r) := by
  unfold keepFault
  simp (maxDischargeDepth := 50) [*]

end Sys2Proof.Machine
end

