-- ==== Sys2Proof/Laws/Keep/Commit.lean ====
section
/-! SUPPORT. What Machine/Commit.lean keeps (Safety.lean, Formed). -/

namespace Sys2Proof.Machine

open Sys2Proof.Safety


/-- What an effect's end keeps. -/
def DoneFormed (d : Done) : Prop := ∀ t, d = .ok t → Formed t

@[simp] theorem doneFormed_ok {t : State} : DoneFormed (.ok t) ↔ Formed t := ⟨fun h => h t rfl, fun h _ e => by cases e; exact h⟩
@[simp] theorem doneFormed_bad (x : Cause) : DoneFormed (.bad x) := fun _ e => by cases e
@[simp] theorem doneFormed_stall (b : Option Nat) : DoneFormed (.stall b) := fun _ e => by cases e

theorem DoneFormed.of_eq {d : Done} {t : State} (h : DoneFormed d) (e : d = .ok t) : Formed t := h t e

theorem Done.then_formed {d : Done} {f : State → Done} (hd : DoneFormed d) (hf : ∀ t, Formed t → DoneFormed (f t)) :
    DoneFormed (d.then f) := by
  cases d with
  | ok t => exact hf t (hd t rfl)
  | bad x => exact doneFormed_bad x
  | stall b => exact doneFormed_stall b

theorem eachDone_formed {α : Type} (f : α → State → Done) (hf : ∀ x t, Formed t → DoneFormed (f x t)) (xs : List α) :
    ∀ {s : State}, Formed s → DoneFormed (eachDone f xs s) := by
  induction xs with
  | nil => intro s hF; exact doneFormed_ok.2 hF
  | cons x xs ih => intro s hF; exact Done.then_formed (hf x s hF) fun t ht => ih ht

@[simp] theorem okRoom_formed (s : State) (hF : Formed s) : DoneFormed (okRoom s) := by
  unfold okRoom
  split
  · exact doneFormed_stall _
  · exact doneFormed_ok.2 hF





@[simp] theorem writeReg_formed (s : State) (cid k g : Nat) (v : Value) (hF : Formed s) : Formed (writeReg s cid k g v) := by
  unfold writeReg
  assumption

@[simp] theorem giveLate_formed (cid k : Nat) (x : Inst) (q : Capture) (v : Value) (s : State) (hF : Formed s) : Formed (giveLate cid k x q v s) := by
  unfold giveLate
  exact foldl_formed _ (fun _ _ h => by simp [h]) _ hF

@[simp] theorem writeRegs_formed (cid k : Nat) (x : Inst) (s : State) (hF : Formed s) : Formed (writeRegs cid k x s) := by
  unfold writeRegs
  refine foldl_formed _ (fun _ _ h => ?_) _ hF
  repeat' (first | exact h | split)

@[simp] theorem storeThrough_formed (s : State) (cid va : Nat) (l : Loc) (bs : List Byte) (hF : Formed s) : Formed (storeThrough s cid va l bs) := by
  unfold storeThrough
  repeat' (first | assumption | with_reducible refine OptFormed.of_eq ?_ (by assumption) | with_reducible refine DoneFormed.of_eq ?_ (by assumption) | (simp (maxDischargeDepth := 50) [*]; done))

@[simp] theorem storePiece_formed (cid lease lsid : Nat) (wide na : Bool) (p : Nat × Loc × List Byte) (s : State) (hF : Formed s) : DoneFormed (storePiece cid lease lsid wide na p s) := by
  unfold storePiece
  repeat' (first | assumption | with_reducible refine OptFormed.of_eq ?_ (by assumption) | with_reducible refine DoneFormed.of_eq ?_ (by assumption) | (simp (maxDischargeDepth := 50) [*]; done) | split | with_reducible refine State.modCore_formed _ _ ?_ | with_reducible refine foldl_formed _ (fun _ _ _ => ?_) _ ?_ | with_reducible refine doneFormed_ok.2 ?_ | with_reducible refine outFormed_next.2 ?_ | with_reducible refine optFormed_some.2 ?_ | with_reducible refine Done.then_formed ?_ (fun _ _ => ?_) | with_reducible refine eachDone_formed _ (fun _ _ _ => ?_) _ ?_ | with_reducible refine formed_mk.2 (forms_of_formed ?_)  | with_reducible refine issue_formed _ _ _ (fun _ _ _ _ _ => ?_) (by assumption) | with_reducible refine Env.exitTo_formed _ _ _ _ (fun _ => ?_) (by assumption) | dsimp only)

@[simp] theorem escapePiece_formed (cid k : Nat) (p : Patch) (ac : AC) (irr : Bool) (x : Nat × Loc × List Byte) (s : State) (hF : Formed s) : DoneFormed (escapePiece cid k p ac irr x s) := by
  unfold escapePiece
  repeat' (first | assumption | with_reducible refine OptFormed.of_eq ?_ (by assumption) | with_reducible refine DoneFormed.of_eq ?_ (by assumption) | (simp (maxDischargeDepth := 50) [*]; done) | split)

@[simp] theorem doStore_formed (cid k lsid : Nat) (p : Patch) (ps : List (Nat × Loc × List Byte)) (ac : AC) (na irr : Bool)
    (osc : Option Scope) (sc : Bool) (s : State) (hF : Formed s) : DoneFormed (doStore cid k lsid p ps ac na irr osc sc s) := by
  have key : ∀ (osc : Option Scope) (xs : List (Nat × Loc × List Byte)), DoneFormed ((okRoom (release s cid osc)).then fun s =>
      (eachDone (fun x s =>
        if x.2.1.isSystem then escapePiece cid k p ac irr x s else storePiece cid p.lease lsid (wideScope osc) na x s)
        xs s).then fun s => .ok (if sc then acquire s cid osc else s)) := by
    intro osc xs
    refine Done.then_formed (okRoom_formed _ (release_formed _ _ _ hF)) fun t ht => Done.then_formed (eachDone_formed _ (fun x t ht => ?_) _ ht) fun t ht => ?_
    · split
      · exact escapePiece_formed _ _ _ _ _ _ _ ht
      · exact storePiece_formed _ _ _ _ _ _ _ ht
    · rw [doneFormed_ok]
      split <;> simp [ht]
  unfold doStore
  cases ps <;> dsimp only
  all_goals
    split
    · exact doneFormed_stall _
    · exact key _ _

@[simp] theorem doPoolAtomic_formed (cid k : Nat) (x : Inst) (q : Capture) (tc off : Nat) (op : AtOp) (wide : Bool) (b c : Nat) (osc : Option Scope) (s : State) (hF : Formed s) : DoneFormed (doPoolAtomic cid k x q tc off op wide b c osc s) := by
  unfold doPoolAtomic
  repeat' (first | assumption | with_reducible refine OptFormed.of_eq ?_ (by assumption) | with_reducible refine DoneFormed.of_eq ?_ (by assumption) | (simp (maxDischargeDepth := 50) [*]; done) | split | with_reducible refine State.modCore_formed _ _ ?_ | with_reducible refine foldl_formed _ (fun _ _ _ => ?_) _ ?_ | with_reducible refine doneFormed_ok.2 ?_ | with_reducible refine outFormed_next.2 ?_ | with_reducible refine optFormed_some.2 ?_ | with_reducible refine Done.then_formed ?_ (fun _ _ => ?_) | with_reducible refine eachDone_formed _ (fun _ _ _ => ?_) _ ?_ | with_reducible refine formed_mk.2 (forms_of_formed ?_)  | with_reducible refine issue_formed _ _ _ (fun _ _ _ _ _ => ?_) (by assumption) | with_reducible refine Env.exitTo_formed _ _ _ _ (fun _ => ?_) (by assumption) | dsimp only)

@[simp] theorem doGlobalAtomic_formed (cid k : Nat) (lease : Nat) (x : Inst) (q : Capture) (va : Nat) (l : Loc) (op : AtOp) (wide : Bool) (b c : Nat) (osc : Option Scope) (sc : Bool) (s : State) (hF : Formed s) : DoneFormed (doGlobalAtomic cid k lease x q va l op wide b c osc sc s) := by
  unfold doGlobalAtomic
  repeat' (first | assumption | with_reducible refine OptFormed.of_eq ?_ (by assumption) | with_reducible refine DoneFormed.of_eq ?_ (by assumption) | (simp (maxDischargeDepth := 50) [*]; done) | split | with_reducible refine State.modCore_formed _ _ ?_ | with_reducible refine foldl_formed _ (fun _ _ _ => ?_) _ ?_ | with_reducible refine doneFormed_ok.2 ?_ | with_reducible refine outFormed_next.2 ?_ | with_reducible refine optFormed_some.2 ?_ | with_reducible refine Done.then_formed ?_ (fun _ _ => ?_) | with_reducible refine eachDone_formed _ (fun _ _ _ => ?_) _ ?_ | with_reducible refine formed_mk.2 (forms_of_formed ?_)  | with_reducible refine issue_formed _ _ _ (fun _ _ _ _ _ => ?_) (by assumption) | with_reducible refine Env.exitTo_formed _ _ _ _ (fun _ => ?_) (by assumption) | dsimp only)

@[simp] theorem doCctl_formed (cid form line : Nat) (s : State) (hF : Formed s) : DoneFormed (doCctl cid form line s) := by
  unfold doCctl
  repeat' (first | assumption | with_reducible refine OptFormed.of_eq ?_ (by assumption) | with_reducible refine DoneFormed.of_eq ?_ (by assumption) | (simp (maxDischargeDepth := 50) [*]; done) | split)

@[simp] theorem startTask_formed (s : State) (cid k pc : Nat) (seed : BitVec 64) (weight : Nat) (hF : Formed s) : Formed (startTask s cid k pc seed weight) := by
  unfold startTask
  assumption

@[simp] theorem endTask_formed (s : State) (cid k : Nat) (hF : Formed s) : Formed (endTask s cid k) := by
  unfold endTask
  exact foldl_formed _ (fun _ _ h => by simp [h]) _ hF

@[simp] theorem enqueuePacket_formed (s : State) (q : Nat) (v : Value) (hF : Formed s) : Formed (enqueuePacket s q v) := by
  unfold enqueuePacket
  assumption

@[simp] theorem storeReplays_formed (x : Inst) (q : Capture) (s : State) (hF : Formed s) : Formed (storeReplays x q s) := by
  unfold storeReplays
  repeat' (first | assumption | with_reducible refine OptFormed.of_eq ?_ (by assumption) | with_reducible refine DoneFormed.of_eq ?_ (by assumption) | (simp (maxDischargeDepth := 50) [*]; done) | split)

@[simp] theorem doEffect_formed (cid k pt : Nat) (p : Patch) (x : Inst) (q : Capture) (s : State) (hF : Formed s) :
    DoneFormed (doEffect cid k pt p x q s) := by
  unfold doEffect
  dsimp only
  generalize q.eff = eff
  cases eff <;> dsimp only
  all_goals
    repeat' (first | with_reducible exact doneFormed_bad _ | with_reducible exact doneFormed_stall _ | split | with_reducible refine Done.then_formed ?_ (fun _ _ => ?_) |
      with_reducible refine doneFormed_ok.2 ?_ | with_reducible refine State.modCore_formed _ _ ?_ | with_reducible refine foldl_formed _ (fun _ _ _ => ?_) _ ?_ | assumption |
      (simp (maxDischargeDepth := 50) [*]; done))

@[simp] theorem releaseNulled_formed (cid k : Nat) (x : Inst) (s : State) (hF : Formed s) : Formed (releaseNulled cid k x s) := by
  unfold releaseNulled
  exact foldl_formed _ (fun _ _ h => by simp [h]) _ hF

@[simp] theorem advanceGenr_formed (s : State) (cid k : Nat) (x : Inst) (hF : Formed s) : Formed (advanceGenr s cid k x) := by
  unfold advanceGenr
  assumption

@[simp] theorem doExit_formed (cid k : Nat) (a : ExitAct) (s : State) (hF : Formed s) : DoneFormed (doExit cid k a s) := by
  unfold doExit
  repeat' (first | assumption | with_reducible refine OptFormed.of_eq ?_ (by assumption) | with_reducible refine DoneFormed.of_eq ?_ (by assumption) | (simp (maxDischargeDepth := 50) [*]; done) | split)

@[simp] theorem noteIrr_formed (before : Nat) (cid k : Nat) (s : State) (hF : Formed s) : Formed (noteIrr before cid k s) := by
  unfold noteIrr
  repeat' (first | assumption | with_reducible refine OptFormed.of_eq ?_ (by assumption) | with_reducible refine DoneFormed.of_eq ?_ (by assumption) | (simp (maxDischargeDepth := 50) [*]; done) | split | with_reducible refine State.modCore_formed _ _ ?_ | with_reducible refine foldl_formed _ (fun _ _ _ => ?_) _ ?_ | with_reducible refine doneFormed_ok.2 ?_ | with_reducible refine outFormed_next.2 ?_ | with_reducible refine optFormed_some.2 ?_ | with_reducible refine Done.then_formed ?_ (fun _ _ => ?_) | with_reducible refine eachDone_formed _ (fun _ _ _ => ?_) _ ?_ | with_reducible refine formed_mk.2 (forms_of_formed ?_) )

@[simp] theorem commitAll_formed (cid k pt : Nat) (p : Patch) (x : Inst) (s : State) (hF : Formed s) :
    DoneFormed (commitAll cid k pt p x s) := by
  unfold commitAll
  refine Done.then_formed (eachDone_formed _ (fun q t ht => ?_) _ ?_) fun t ht => ?_
  · have hd := doEffect_formed cid k pt p x q t ht
    split
    · exact doneFormed_bad _
    · exact hd
  · exact releaseNulled_formed _ _ _ _ (advanceGenr_formed _ _ _ _ (writeRegs_formed _ _ _ _ hF))
  · exact Done.then_formed (doExit_formed _ _ _ _ ht) fun u hu => doneFormed_ok.2 (noteIrr_formed _ _ _ _ hu)

@[simp] theorem countStall_formed (s : State) (lease : Nat) (hF : Formed s) : Formed (countStall s lease) := by
  unfold countStall
  assumption

@[simp] theorem noteStall_formed (s : State) (cid k : Nat) (x : Inst) (lease : Nat) (hF : Formed s) : Formed (noteStall s cid k x lease) := by
  unfold noteStall
  repeat' (first | assumption | with_reducible refine OptFormed.of_eq ?_ (by assumption) | with_reducible refine DoneFormed.of_eq ?_ (by assumption) | split)

@[simp] theorem sealptCheck_formed (s : State) (pt : Nat) (hF : Formed s) : Formed (sealptCheck s pt) := by
  unfold sealptCheck
  repeat' (first | assumption | with_reducible refine OptFormed.of_eq ?_ (by assumption) | with_reducible refine DoneFormed.of_eq ?_ (by assumption) | (simp (maxDischargeDepth := 50) [*]; done) | split | with_reducible refine State.modCore_formed _ _ ?_ | with_reducible refine foldl_formed _ (fun _ _ _ => ?_) _ ?_ | with_reducible refine doneFormed_ok.2 ?_ | with_reducible refine outFormed_next.2 ?_ | with_reducible refine optFormed_some.2 ?_ | with_reducible refine Done.then_formed ?_ (fun _ _ => ?_) | with_reducible refine eachDone_formed _ (fun _ _ _ => ?_) _ ?_ | with_reducible refine formed_mk.2 (forms_of_formed ?_) )

theorem execBlockCommit_formed (cid slot : Nat) (s : State) (hF : Formed s) : OutFormed (execBlockCommit cid slot s) := by
  unfold execBlockCommit
  refine outFormed_next.2 ?_
  split
  · split
    · exact hF
    · rename_i pt x _ _ _ p _
      have hc := commitAll_formed cid slot pt p x _ (traceBlock_formed s cid slot 1 x hF)
      split
      · exact hF
      · split
        · simp [hF]
        · split
          · split
            · rename_i t e
              have ht : Formed t := hc t e
              dsimp only
              split <;> simp (maxDischargeDepth := 50) [ht]
            · simp [hF]
            · simp [hF]
            · exact hF
          · split <;> simp [hF]
  · exact hF

theorem execUndoStallTimeout_formed (cid slot : Nat) (s : State) (hF : Formed s) : OutFormed (execUndoStallTimeout cid slot s) := by
  unfold execUndoStallTimeout
  refine outFormed_next.2 ?_
  repeat' (first | exact hF | split | with_reducible refine onLease_formed _ _ _ (fun _ _ _ _ => ?_) hF | with_reducible refine answer_formed _ _ _ _ ?_ | (simp [hF]; done))

end Sys2Proof.Machine
end

