-- ==== Sys2Proof/Laws/Keep/Fetch.lean ====
section
/-! SUPPORT. What Machine/Fetch.lean keeps (Safety.lean, Formed). -/

namespace Sys2Proof.Machine

open Sys2Proof.Safety


/-- What a fetch keeps. -/
def FetchFormed {α : Type} (r : FetchRes α) : Prop := ∀ t x, r = .ok t x → Formed t

@[simp] theorem fetchFormed_ok {α : Type} {t : State} {x : α} : FetchFormed (.ok t x) ↔ Formed t :=
  ⟨fun h => h t x rfl, fun h _ _ e => by cases e; exact h⟩
@[simp] theorem fetchFormed_bad {α : Type} (c : Cause) : FetchFormed (.bad c : FetchRes α) := fun _ _ e => by cases e
@[simp] theorem fetchFormed_hold {α : Type} : FetchFormed (.hold : FetchRes α) := fun _ _ e => by cases e

@[simp] theorem fetchWordAt_formed (cid : Nat) (lease a : Nat) (s : State) (hF : Formed s) : FetchFormed (fetchWordAt cid lease a s) := by
  unfold fetchWordAt
  repeat' (first | assumption | with_reducible refine OptFormed.of_eq ?_ (by assumption) | with_reducible refine DoneFormed.of_eq ?_ (by assumption) | (simp (maxDischargeDepth := 50) [*]; done) | split | with_reducible refine State.modCore_formed _ _ ?_ | with_reducible refine foldl_formed _ (fun _ _ _ => ?_) _ ?_ | with_reducible refine doneFormed_ok.2 ?_ | with_reducible refine outFormed_next.2 ?_ | with_reducible refine optFormed_some.2 ?_ | with_reducible refine Done.then_formed ?_ (fun _ _ => ?_) | with_reducible refine eachDone_formed _ (fun _ _ _ => ?_) _ ?_ | with_reducible refine formed_mk.2 (forms_of_formed ?_)  | with_reducible refine issue_formed _ _ _ (fun _ _ _ _ _ => ?_) (by assumption) | with_reducible refine Env.exitTo_formed _ _ _ _ (fun _ => ?_) (by assumption) | dsimp only)

@[simp] theorem fetchWords_formed (cid lease n : Nat) : ∀ (a : Nat) (s : State), Formed s → FetchFormed (fetchWords cid lease n a s) := by
  induction n with
  | zero => intro a s hF; exact fetchFormed_ok.2 hF
  | succ n ih =>
    intro a s hF
    unfold fetchWords
    split
    · exact fetchFormed_bad _
    · exact fetchFormed_hold
    · rename_i t w e
      have ht : Formed t := fetchWordAt_formed cid lease _ s hF _ _ e
      split
      · exact fetchFormed_bad _
      · exact fetchFormed_hold
      · rename_i u ws e2
        exact fetchFormed_ok.2 (ih _ _ ht _ _ e2)

@[simp] theorem readBlock_formed (cid lease a : Nat) (s : State) (hF : Formed s) : FetchFormed (readBlock cid lease a s) := by
  unfold readBlock
  split
  · exact fetchFormed_ok.2 hF
  · split
    · exact fetchFormed_bad _
    · exact fetchFormed_hold
    · rename_i t hs e
      have ht : Formed t := fetchWords_formed cid lease 2 _ _ hF _ _ e
      split
      · exact fetchFormed_ok.2 ht
      · split
        · exact fetchFormed_bad _
        · exact fetchFormed_hold
        · rename_i u ws e2
          exact fetchFormed_ok.2 (fetchWords_formed cid lease _ _ _ ht _ _ e2)

@[simp] theorem startBlock_formed (s : State) (cid k : Nat) (ws : List IWord) (hF : Formed s) : Formed (startBlock s cid k ws) := by
  unfold startBlock
  assumption

theorem execBlockFetch_formed (cid slot : Nat) (s : State) (hF : Formed s) : OutFormed (execBlockFetch cid slot s) := by
  unfold execBlockFetch
  refine outFormed_next.2 ?_
  split
  · exact hF
  · split
    · exact hF
    · split
      · exact raiseTask_formed _ _ _ _ _ (State.modCore_formed _ _ hF)
      · split
        · exact raiseTask_formed _ _ _ _ _ (State.modCore_formed _ _ hF)
        · split
          · exact hF
          · exact raiseTask_formed _ _ _ _ _ hF
          · rename_i t ws e
            have ht : Formed t := readBlock_formed _ _ _ _ hF _ _ e
            split
            · exact raiseTask_formed _ _ _ _ _ ht
            · exact startBlock_formed _ _ _ _ ht

@[simp] theorem startConfigured_formed (s : State) (cid k : Nat) (hF : Formed s) : Formed (startConfigured s cid k) := by
  unfold startConfigured
  assumption

theorem execTaskStart_formed (cid slot : Nat) (s : State) (hF : Formed s) : OutFormed (execTaskStart cid slot s) := by
  unfold execTaskStart
  refine outFormed_next.2 ?_
  repeat' (first | exact hF | split)

@[simp] theorem answerSpawn_formed (s : State) (cid k pt : Nat) (p : Patch) (q : Nat × Nat × Bool × Value × Value) (hF : Formed s) : Formed (answerSpawn s cid k pt p q) := by
  unfold answerSpawn
  repeat' (first | assumption | with_reducible refine OptFormed.of_eq ?_ (by assumption) | with_reducible refine DoneFormed.of_eq ?_ (by assumption) | (simp (maxDischargeDepth := 50) [*]; done) | split)

theorem execTspawnRequest_formed (cid slot : Nat) (s : State) (hF : Formed s) : OutFormed (execTspawnRequest cid slot s) := by
  unfold execTspawnRequest
  refine outFormed_next.2 ?_
  repeat' (first | exact hF | split | with_reducible refine onLease_formed _ _ _ (fun _ _ _ _ => ?_) hF | with_reducible refine answer_formed _ _ _ _ ?_ | (simp [hF]; done))

@[simp] theorem selectTask_formed (s : State) (cid : Nat) (lane : Bool) (pick : Nat) (hF : Formed s) : Formed (selectTask s cid lane pick) := by
  unfold selectTask
  repeat' (first | assumption | with_reducible refine OptFormed.of_eq ?_ (by assumption) | with_reducible refine DoneFormed.of_eq ?_ (by assumption) | (simp (maxDischargeDepth := 50) [*]; done) | split | with_reducible refine State.modCore_formed _ _ ?_ | with_reducible refine foldl_formed _ (fun _ _ _ => ?_) _ ?_ | with_reducible refine doneFormed_ok.2 ?_ | with_reducible refine outFormed_next.2 ?_ | with_reducible refine optFormed_some.2 ?_ | with_reducible refine Done.then_formed ?_ (fun _ _ => ?_) | with_reducible refine eachDone_formed _ (fun _ _ _ => ?_) _ ?_ | with_reducible refine formed_mk.2 (forms_of_formed ?_) )

@[simp] theorem barrierWave_formed (s : State) (cid : Nat) (hF : Formed s) : Formed (barrierWave s cid) := by
  unfold barrierWave
  repeat' (first | assumption | with_reducible refine OptFormed.of_eq ?_ (by assumption) | with_reducible refine DoneFormed.of_eq ?_ (by assumption) | (simp (maxDischargeDepth := 50) [*]; done) | split | with_reducible refine State.modCore_formed _ _ ?_ | with_reducible refine foldl_formed _ (fun _ _ _ => ?_) _ ?_ | with_reducible refine doneFormed_ok.2 ?_ | with_reducible refine outFormed_next.2 ?_ | with_reducible refine optFormed_some.2 ?_ | with_reducible refine Done.then_formed ?_ (fun _ _ => ?_) | with_reducible refine eachDone_formed _ (fun _ _ _ => ?_) _ ?_ | with_reducible refine formed_mk.2 (forms_of_formed ?_) )

theorem execIssueGrant_formed (cid pickLane pickSeq : Nat) (s : State) (hF : Formed s) : OutFormed (execIssueGrant cid pickLane pickSeq s) := by
  unfold execIssueGrant
  repeat' (first | assumption | with_reducible refine OptFormed.of_eq ?_ (by assumption) | with_reducible refine DoneFormed.of_eq ?_ (by assumption) | (simp (maxDischargeDepth := 50) [*]; done) | split)

theorem execWeightRecompute_formed (cid : Nat) (s : State) (hF : Formed s) : OutFormed (execWeightRecompute cid s) := by
  unfold execWeightRecompute
  refine outFormed_next.2 ?_
  repeat' (first | exact hF)

theorem execResidueMismatch_formed (cid slot : Nat) (again : Bool) (s : State) (hF : Formed s) : OutFormed (execResidueMismatch cid slot again s) := by
  unfold execResidueMismatch
  refine outFormed_next.2 ?_
  repeat' (first | exact hF | split | with_reducible refine onLease_formed _ _ _ (fun _ _ _ _ => ?_) hF | with_reducible refine answer_formed _ _ _ _ ?_ | (simp [hF]; done))

end Sys2Proof.Machine
end

