-- ==== Sys2Proof/Laws/Keep/Pinned.lean ====
section
/-! SUPPORT. What Machine/Pinned.lean keeps (Safety.lean, Formed). -/

namespace Sys2Proof.Machine

open Sys2Proof.Safety


@[simp] theorem startPin_formed (s : State) (cid pt : Nat) (js : List Nat) (x : Inst) (hF : Formed s) : Formed (startPin s cid pt js x) := by
  unfold startPin
  assumption

@[simp] theorem paceStreams_formed (cid pt : Nat) (s : State) (hF : Formed s) : OptFormed (paceStreams cid pt s) := by
  unfold paceStreams
  repeat' (first | assumption | with_reducible refine OptFormed.of_eq ?_ (by assumption) | with_reducible refine DoneFormed.of_eq ?_ (by assumption) | (simp (maxDischargeDepth := 50) [*]; done) | split | with_reducible refine State.modCore_formed _ _ ?_ | with_reducible refine foldl_formed _ (fun _ _ _ => ?_) _ ?_ | with_reducible refine doneFormed_ok.2 ?_ | with_reducible refine outFormed_next.2 ?_ | with_reducible refine optFormed_some.2 ?_ | with_reducible refine Done.then_formed ?_ (fun _ _ => ?_) | with_reducible refine eachDone_formed _ (fun _ _ _ => ?_) _ ?_ | with_reducible refine formed_mk.2 (forms_of_formed ?_)  | with_reducible refine issue_formed _ _ _ (fun _ _ _ _ _ => ?_) (by assumption) | with_reducible refine Env.exitTo_formed _ _ _ _ (fun _ => ?_) (by assumption) | dsimp only)

@[simp] theorem pinStep_formed (s : State) (cid pt : Nat) (bad : Bool) (hF : Formed s) : OptFormed (pinStep s cid pt bad) := by
  unfold pinStep
  repeat' (first | assumption | with_reducible refine OptFormed.of_eq ?_ (by assumption) | with_reducible refine DoneFormed.of_eq ?_ (by assumption) | (simp (maxDischargeDepth := 50) [*]; done) | split | with_reducible refine State.modCore_formed _ _ ?_ | with_reducible refine foldl_formed _ (fun _ _ _ => ?_) _ ?_ | with_reducible refine doneFormed_ok.2 ?_ | with_reducible refine outFormed_next.2 ?_ | with_reducible refine optFormed_some.2 ?_ | with_reducible refine Done.then_formed ?_ (fun _ _ => ?_) | with_reducible refine eachDone_formed _ (fun _ _ _ => ?_) _ ?_ | with_reducible refine formed_mk.2 (forms_of_formed ?_)  | with_reducible refine issue_formed _ _ _ (fun _ _ _ _ _ => ?_) (by assumption) | with_reducible refine Env.exitTo_formed _ _ _ _ (fun _ => ?_) (by assumption) | dsimp only)

theorem execPinnedInstanceStart_formed (cid : Nat) (bad : Bool) (s : State) (hF : Formed s) :
    OutFormed (execPinnedInstanceStart cid bad s) := by
  unfold execPinnedInstanceStart
  refine outFormed_next.2 ?_
  split
  · exact hF
  · split
    · exact hF
    · exact (pinStep_formed s cid _ bad hF).getD hF

end Sys2Proof.Machine
end

