-- ==== Sys2Proof/Laws/Keep/Region.lean ====
section
/-! SUPPORT. What Machine/Region.lean keeps (Safety.lean, Formed). -/

namespace Sys2Proof.Machine

open Sys2Proof.Safety


@[simp] theorem rinseCore_formed (s : State) (cid lease : Nat) (hF : Formed s) : Formed (rinseCore s cid lease) := by
  unfold rinseCore
  assumption

@[simp] theorem closeResidency_formed (s : State) (cid : Nat) (flags : Nat) (hF : Formed s) : Formed (closeResidency s cid flags) := by
  unfold closeResidency
  repeat' (first | assumption | with_reducible refine OptFormed.of_eq ?_ (by assumption) | with_reducible refine DoneFormed.of_eq ?_ (by assumption) | (simp (maxDischargeDepth := 50) [*]; done) | split | with_reducible refine State.modCore_formed _ _ ?_)

theorem forCores_formed (s : State) (pt : Nat) (f : State → Nat → State) (hf : ∀ t n, Formed t → Formed (f t n))
    (hF : Formed s) : Formed (forCores s pt f) := by
  unfold forCores
  exact foldl_formed _ (fun t n h => hf t n h) _ hF

@[simp] theorem dropPatch_formed (s : State) (pt : Nat) (hF : Formed s) : Formed (dropPatch s pt) := by
  unfold dropPatch
  dsimp only
  have h2 := foldl_formed (fun t cid => (rinseCore t cid (((s.patch pt).map (·.lease)).getD 0)).modCore cid fun c =>
    { c with counters := (t.core cid).counters }) (fun t c ht => State.modCore_formed _ _ (rinseCore_formed t c _ ht)) (patchCores s pt) hF
  exact delist_formed _ _ h2

@[simp] theorem reborrow_formed (s : State) (n cores : Nat) (hF : Formed s) : Formed (reborrow s n cores) := by
  unfold reborrow
  assumption

@[simp] theorem backToPlace_formed (s : State) (pt n : Nat) (hF : Formed s) : Formed (backToPlace s pt n) := by
  unfold backToPlace
  repeat' (first | assumption | with_reducible refine OptFormed.of_eq ?_ (by assumption) | with_reducible refine DoneFormed.of_eq ?_ (by assumption) | (simp (maxDischargeDepth := 50) [*]; done) | split | with_reducible refine State.modCore_formed _ _ ?_ | with_reducible refine foldl_formed _ (fun _ _ _ => ?_) _ ?_ | with_reducible refine doneFormed_ok.2 ?_ | with_reducible refine outFormed_next.2 ?_ | with_reducible refine optFormed_some.2 ?_ | with_reducible refine Done.then_formed ?_ (fun _ _ => ?_) | with_reducible refine eachDone_formed _ (fun _ _ _ => ?_) _ ?_ | with_reducible refine formed_mk.2 (forms_of_formed ?_))

@[simp] theorem endStop_formed (s : State) (pt : Nat) (hF : Formed s) : Formed (endStop s pt) :=
  forCores_formed _ _ _ (fun _ _ h => State.modCore_formed _ _ h) (State.modPatch_formed _ _ hF)

@[simp] theorem giveUp_formed (s : State) (pick : Instr × Nat → Bool) (hF : Formed s) : Formed (giveUp s pick) := by
  unfold giveUp
  exact foldl_formed _ (fun _ _ h => by simp [h]) _ hF

@[simp] theorem endPkt_formed (s : State) (n status field : Nat) (result : BitVec 64) (hF : Formed s) : Formed (endPkt s n status field result) := by
  unfold endPkt
  repeat' (first | assumption | with_reducible refine OptFormed.of_eq ?_ (by assumption) | with_reducible refine DoneFormed.of_eq ?_ (by assumption) | (simp (maxDischargeDepth := 50) [*]; done) | split)

@[simp] theorem latchCtx_formed (s : State) (pt : Nat) (hF : Formed s) : Formed (latchCtx s pt) := by
  unfold latchCtx
  repeat' (first | assumption | with_reducible refine OptFormed.of_eq ?_ (by assumption) | with_reducible refine DoneFormed.of_eq ?_ (by assumption) | (simp (maxDischargeDepth := 50) [*]; done) | split)

@[simp] theorem toSequencer_formed (s : State) (cid : Nat) (key : Option Nat) (f : Flit) (hF : Formed s) : OptFormed (toSequencer s cid key f) := by
  unfold toSequencer
  repeat' (first | assumption | with_reducible refine OptFormed.of_eq ?_ (by assumption) | with_reducible refine DoneFormed.of_eq ?_ (by assumption) | (simp (maxDischargeDepth := 50) [*]; done) | split | with_reducible refine State.modCore_formed _ _ ?_ | with_reducible refine foldl_formed _ (fun _ _ _ => ?_) _ ?_ | with_reducible refine doneFormed_ok.2 ?_ | with_reducible refine outFormed_next.2 ?_ | with_reducible refine optFormed_some.2 ?_ | with_reducible refine Done.then_formed ?_ (fun _ _ => ?_) | with_reducible refine eachDone_formed _ (fun _ _ _ => ?_) _ ?_ | with_reducible refine formed_mk.2 (forms_of_formed ?_) | with_reducible refine forCores_formed _ _ _ (fun _ _ _ => ?_) ?_ | with_reducible refine issue_formed _ _ _ (fun _ _ _ _ _ => ?_) (by assumption) | with_reducible refine Env.exitTo_formed _ _ _ _ (fun _ => ?_) (by assumption) | dsimp only)

theorem execContextRequest_formed (cid out : Nat) (s : State) (hF : Formed s) : OutFormed (execContextRequest cid out s) := by
  unfold execContextRequest
  refine outFormed_next.2 ?_
  split
  · exact hF
  · split
    · exact hF
    · split
      · rename_i e
        exact latchCtx_formed _ _ (State.modCore_formed _ _ ((toSequencer_formed s cid (some out) _ hF).of_eq e))
      · exact hF

@[simp] theorem startBits_formed (s : State) (cid : Nat) (hF : Formed s) : Formed (startBits s cid) := by
  unfold startBits
  repeat' (first | assumption | with_reducible refine OptFormed.of_eq ?_ (by assumption) | with_reducible refine DoneFormed.of_eq ?_ (by assumption) | (simp (maxDischargeDepth := 50) [*]; done) | split | with_reducible refine State.modCore_formed _ _ ?_ | with_reducible refine foldl_formed _ (fun _ _ _ => ?_) _ ?_ | with_reducible refine doneFormed_ok.2 ?_ | with_reducible refine outFormed_next.2 ?_ | with_reducible refine optFormed_some.2 ?_ | with_reducible refine Done.then_formed ?_ (fun _ _ => ?_) | with_reducible refine eachDone_formed _ (fun _ _ _ => ?_) _ ?_ | with_reducible refine formed_mk.2 (forms_of_formed ?_))

@[simp] theorem tracePatch_formed (s : State) (pt kind what : Nat) (hF : Formed s) : Formed (tracePatch s pt kind what) := by
  unfold tracePatch
  repeat' (first | assumption | with_reducible refine OptFormed.of_eq ?_ (by assumption) | with_reducible refine DoneFormed.of_eq ?_ (by assumption) | (simp (maxDischargeDepth := 50) [*]; done) | split)

@[simp] theorem enterAll_formed (s : State) (pt ctx : Nat) (hF : Formed s) : Formed (enterAll s pt ctx) :=
  forCores_formed _ _ _ (fun _ _ h => startBits_formed _ _ h)
    (State.modPatch_formed _ _ (forCores_formed _ _ _ (fun _ _ h => State.modCore_formed _ _ (closeResidency_formed _ _ _ h)) hF))

@[simp] theorem finishPatch_formed (s : State) (pt : Nat) (keep : Bool) (hF : Formed s) : Formed (finishPatch s pt keep) := by
  have h1 := forCores_formed s pt (fun s cid => closeResidency (drainC s cid) cid 2)
    (fun _ _ h => closeResidency_formed _ _ _ (drainC_formed _ _ h)) hF
  unfold finishPatch
  generalize (forCores s pt fun s cid => closeResidency (drainC s cid) cid 2) = t at *
  dsimp only
  split
  · exact State.modPatch_formed _ _ (forCores_formed _ _ _ (fun _ _ h => State.modCore_formed _ _ h) h1)
  · exact dropPatch_formed _ _ h1

@[simp] theorem retire_formed (s : State) (pt : Nat) (p : Patch) (hF : Formed s) : Formed (retire s pt p) := by
  unfold retire
  repeat' (first | assumption | with_reducible refine OptFormed.of_eq ?_ (by assumption) | with_reducible refine DoneFormed.of_eq ?_ (by assumption) | (simp (maxDischargeDepth := 50) [*]; done) | split)

@[simp] theorem enterNext_formed (s : State) (pt ctx : Nat) (hF : Formed s) : Formed (enterNext s pt ctx) := by
  unfold enterNext
  repeat' (first | assumption | with_reducible refine OptFormed.of_eq ?_ (by assumption) | with_reducible refine DoneFormed.of_eq ?_ (by assumption) | (simp (maxDischargeDepth := 50) [*]; done))

theorem execContextTransition_formed (pt : Nat) (s : State) (hF : Formed s) : OutFormed (execContextTransition pt s) := by
  unfold execContextTransition
  refine outFormed_next.2 ?_
  split
  · exact hF
  · dsimp only
    split
    · exact hF
    · split
      · exact latchCtx_formed _ _ hF
      · split
        · exact hF
        · split
          · exact retire_formed _ _ _ hF
          · exact enterNext_formed _ _ _ (State.modPatch_formed _ _ (tracePatch_formed _ _ _ _
              (forCores_formed _ _ _ (fun _ _ h => advanceGen_formed _ _ (drainC_formed _ _ h)) hF)))

@[simp] theorem discardAll_formed (s : State) (pt : Nat) (hF : Formed s) : Formed (discardAll s pt) :=
  forCores_formed _ _ _ (fun _ _ h => foldl_formed _ (fun _ _ h => discard_formed _ _ _ h) _ h) hF

theorem execFaultStop_formed (pt : Nat) (s : State) (hF : Formed s) : OutFormed (execFaultStop pt s) := by
  unfold execFaultStop
  refine outFormed_next.2 ?_
  have h1 := forCores_formed _ pt (fun s cid => (closeResidency s cid 1).modCore cid fun c => c.setAct .frozen)
    (fun _ _ h => State.modCore_formed _ _ (closeResidency_formed _ _ _ h)) (discardAll_formed s pt hF)
  split
  · exact hF
  · split
    · exact hF
    · dsimp only
      split
      · exact hF
      · generalize forCores (discardAll s pt) pt _ = t at *
        have h2 := fun l r f => State.modPatch_formed pt f (keepFault_formed _ l r h1)
        split
        · exact State.modPatch_formed _ _ (h2 _ _ _)
        · split
          · exact h2 _ _ _
          · exact endPkt_formed _ _ _ _ _ (h2 _ _ _)

theorem execStallReport_formed (pt : Nat) (s : State) (hF : Formed s) : OutFormed (execStallReport pt s) := by
  unfold execStallReport
  refine outFormed_next.2 ?_
  repeat' (first | exact hF | split | with_reducible refine onLease_formed _ _ _ (fun _ _ _ _ => ?_) hF | with_reducible refine answer_formed _ _ _ _ ?_ | (simp [hF]; done))

@[simp] theorem reindexC_formed (s : State) (cid : Nat) (hF : Formed s) : Formed (reindexC s cid) := by
  unfold reindexC
  exact foldl_formed _ (fun _ _ h => by simp [h]) _ hF

theorem execPleatHandshakeStep_formed (cid : Nat) (s : State) (hF : Formed s) : OutFormed (execPleatHandshakeStep cid s) := by
  unfold execPleatHandshakeStep
  repeat' (first | assumption | with_reducible refine OptFormed.of_eq ?_ (by assumption) | with_reducible refine DoneFormed.of_eq ?_ (by assumption) | (simp (maxDischargeDepth := 50) [*]; done) | split | with_reducible refine State.modCore_formed _ _ ?_ | with_reducible refine foldl_formed _ (fun _ _ _ => ?_) _ ?_ | with_reducible refine doneFormed_ok.2 ?_ | with_reducible refine outFormed_next.2 ?_ | with_reducible refine optFormed_some.2 ?_ | with_reducible refine Done.then_formed ?_ (fun _ _ => ?_) | with_reducible refine eachDone_formed _ (fun _ _ _ => ?_) _ ?_ | with_reducible refine formed_mk.2 (forms_of_formed ?_))

end Sys2Proof.Machine
end

