-- ==== Sys2Proof/Laws/Keep/Channels.lean ====
section
/-! SUPPORT. What Machine/Channels.lean keeps (Safety.lean, Formed). -/

namespace Sys2Proof.Machine

open Sys2Proof.Safety


/-- What an element's step keeps. -/
def ElemFormed (r : ElemStep) : Prop := ∀ t, r = .go t ∨ r = .took t → Formed t

@[simp] theorem elemFormed_go {t : State} : ElemFormed (.go t) ↔ Formed t :=
  ⟨fun h => h t (.inl rfl), fun h _ e => by rcases e with e | e <;> cases e; exact h⟩
@[simp] theorem elemFormed_took {t : State} : ElemFormed (.took t) ↔ Formed t :=
  ⟨fun h => h t (.inr rfl), fun h _ e => by rcases e with e | e <;> cases e; exact h⟩
@[simp] theorem elemFormed_bad (j : Nat) : ElemFormed (.bad j) := fun _ e => by rcases e with e | e <;> cases e
@[simp] theorem elemFormed_wait : ElemFormed .wait := fun _ e => by rcases e with e | e <;> cases e
theorem ElemFormed.of_eq {r : ElemStep} {t : State} (h : ElemFormed r) (e : r = .go t) : Formed t := h t (.inl e)

@[simp] theorem reportMisroute_formed (s : State) (cid key : Nat) (hF : Formed s) : Formed (reportMisroute s cid key) := by
  unfold reportMisroute
  repeat' (first | assumption | with_reducible refine OptFormed.of_eq ?_ (by assumption) | with_reducible refine DoneFormed.of_eq ?_ (by assumption) | (simp (maxDischargeDepth := 50) [*]; done) | split | with_reducible refine State.modCore_formed _ _ ?_ | with_reducible refine foldl_formed _ (fun _ _ _ => ?_) _ ?_ | with_reducible refine doneFormed_ok.2 ?_ | with_reducible refine outFormed_next.2 ?_ | with_reducible refine optFormed_some.2 ?_ | with_reducible refine Done.then_formed ?_ (fun _ _ => ?_) | with_reducible refine eachDone_formed _ (fun _ _ _ => ?_) _ ?_ | with_reducible refine formed_mk.2 (forms_of_formed ?_))

@[simp] theorem dropFlit_formed (s : State) (cid key far : Nat) (f : Flit) (hF : Formed s) : Formed (dropFlit s cid key far f) := by
  unfold dropFlit
  repeat' (first | assumption | with_reducible refine OptFormed.of_eq ?_ (by assumption) | with_reducible refine DoneFormed.of_eq ?_ (by assumption) | (simp (maxDischargeDepth := 50) [*]; done) | split | with_reducible refine State.modCore_formed _ _ ?_ | with_reducible refine foldl_formed _ (fun _ _ _ => ?_) _ ?_ | with_reducible refine doneFormed_ok.2 ?_ | with_reducible refine outFormed_next.2 ?_ | with_reducible refine optFormed_some.2 ?_ | with_reducible refine Done.then_formed ?_ (fun _ _ => ?_) | with_reducible refine eachDone_formed _ (fun _ _ _ => ?_) _ ?_ | with_reducible refine formed_mk.2 (forms_of_formed ?_))

theorem execMisrouteReportTimer_formed (cid out : Nat) (s : State) (hF : Formed s) : OutFormed (execMisrouteReportTimer cid out s) := by
  unfold execMisrouteReportTimer
  refine outFormed_next.2 ?_
  repeat' (first | exact hF | split | with_reducible refine onLease_formed _ _ _ (fun _ _ _ _ => ?_) hF | with_reducible refine answer_formed _ _ _ _ ?_ | (simp [hF]; done))

@[simp] theorem putFlit_formed (s : State) (cid j : Nat) (f : Flit) (hF : Formed s) : Formed (putFlit s cid j f) := by
  unfold putFlit
  assumption

@[simp] theorem arrive_formed (s : State) (src key dst j : Nat) (f : Flit) (hF : Formed s) : OptFormed (arrive s src key dst j f) := by
  unfold arrive
  repeat' (first | assumption | with_reducible refine OptFormed.of_eq ?_ (by assumption) | with_reducible refine DoneFormed.of_eq ?_ (by assumption) | (simp (maxDischargeDepth := 50) [*]; done) | split)

@[simp] theorem toCopyPort_formed (s : State) (cid : Nat) (f : Flit) (hF : Formed s) : OptFormed (toCopyPort s cid f) := by
  unfold toCopyPort
  repeat' (first | assumption | with_reducible refine OptFormed.of_eq ?_ (by assumption) | with_reducible refine DoneFormed.of_eq ?_ (by assumption) | (simp (maxDischargeDepth := 50) [*]; done) | split)

@[simp] theorem toManglePort_formed (s : State) (cid : Nat) (f : Flit) (hF : Formed s) : OptFormed (toManglePort s cid f) := by
  unfold toManglePort
  repeat' (first | assumption | with_reducible refine OptFormed.of_eq ?_ (by assumption) | with_reducible refine DoneFormed.of_eq ?_ (by assumption) | (simp (maxDischargeDepth := 50) [*]; done) | split | with_reducible refine State.modCore_formed _ _ ?_ | with_reducible refine foldl_formed _ (fun _ _ _ => ?_) _ ?_ | with_reducible refine doneFormed_ok.2 ?_ | with_reducible refine outFormed_next.2 ?_ | with_reducible refine optFormed_some.2 ?_ | with_reducible refine Done.then_formed ?_ (fun _ _ => ?_) | with_reducible refine eachDone_formed _ (fun _ _ _ => ?_) _ ?_ | with_reducible refine formed_mk.2 (forms_of_formed ?_) | with_reducible refine forCores_formed _ _ _ (fun _ _ _ => ?_) ?_ | with_reducible refine issue_formed _ _ _ (fun _ _ _ _ _ => ?_) (by assumption) | with_reducible refine Env.exitTo_formed _ _ _ _ (fun _ => ?_) (by assumption) | dsimp only)

@[simp] theorem toPeer_formed (s : State) (cid key : Nat) (f : Flit) (hF : Formed s) : OptFormed (toPeer s cid key f) := by
  unfold toPeer
  repeat' (first | assumption | with_reducible refine OptFormed.of_eq ?_ (by assumption) | with_reducible refine DoneFormed.of_eq ?_ (by assumption) | (simp (maxDischargeDepth := 50) [*]; done) | split | with_reducible refine State.modCore_formed _ _ ?_ | with_reducible refine foldl_formed _ (fun _ _ _ => ?_) _ ?_ | with_reducible refine doneFormed_ok.2 ?_ | with_reducible refine outFormed_next.2 ?_ | with_reducible refine optFormed_some.2 ?_ | with_reducible refine Done.then_formed ?_ (fun _ _ => ?_) | with_reducible refine eachDone_formed _ (fun _ _ _ => ?_) _ ?_ | with_reducible refine formed_mk.2 (forms_of_formed ?_) | with_reducible refine forCores_formed _ _ _ (fun _ _ _ => ?_) ?_ | with_reducible refine issue_formed _ _ _ (fun _ _ _ _ _ => ?_) (by assumption) | with_reducible refine Env.exitTo_formed _ _ _ _ (fun _ => ?_) (by assumption) | dsimp only)

@[simp] theorem sendRoute_formed (s : State) (cid key r : Nat) (f : Flit) (hF : Formed s) : OptFormed (sendRoute s cid key r f) := by
  unfold sendRoute
  repeat' (first | assumption | with_reducible refine OptFormed.of_eq ?_ (by assumption) | with_reducible refine DoneFormed.of_eq ?_ (by assumption) | (simp (maxDischargeDepth := 50) [*]; done) | split)

theorem execFlitArrival_formed (cid out : Nat) (s : State) (hF : Formed s) : OutFormed (execFlitArrival cid out s) := by
  unfold execFlitArrival
  refine outFormed_next.2 ?_
  split
  · exact hF
  · split
    · exact hF
    · split
      · rename_i t h
        exact State.modCore_formed _ _ (sendRoute_formed _ _ _ _ _ hF _ h)
      · exact hF

@[simp] theorem elemSend_formed (s : State) (cid e arm : Nat) (f : Flit) (hF : Formed s) : OptFormed (elemSend s cid e arm f) := by
  unfold elemSend
  repeat' (first | assumption | with_reducible refine OptFormed.of_eq ?_ (by assumption) | with_reducible refine DoneFormed.of_eq ?_ (by assumption) | (simp (maxDischargeDepth := 50) [*]; done) | split | with_reducible refine State.modCore_formed _ _ ?_ | with_reducible refine foldl_formed _ (fun _ _ _ => ?_) _ ?_ | with_reducible refine doneFormed_ok.2 ?_ | with_reducible refine outFormed_next.2 ?_ | with_reducible refine optFormed_some.2 ?_ | with_reducible refine Done.then_formed ?_ (fun _ _ => ?_) | with_reducible refine eachDone_formed _ (fun _ _ _ => ?_) _ ?_ | with_reducible refine formed_mk.2 (forms_of_formed ?_) | with_reducible refine forCores_formed _ _ _ (fun _ _ _ => ?_) ?_ | with_reducible refine issue_formed _ _ _ (fun _ _ _ _ _ => ?_) (by assumption) | with_reducible refine Env.exitTo_formed _ _ _ _ (fun _ => ?_) (by assumption) | dsimp only)

@[simp] theorem elemApply_formed (s : State) (cid : Nat) (r : ElemStep) (hF : Formed s) (hr : ElemFormed r) :
    Formed (elemApply s cid r) := by
  unfold elemApply
  split
  · exact hF
  · exact raiseCore_formed _ _ _ _ _ _ hF
  · have ht := elemFormed_go.1 hr
    split
    · exact markFiring_formed _ _ ht
    · exact ht
  · exact elemFormed_took.1 hr

@[simp] theorem elemTake_formed (cid : Nat) (js : List Nat) (r : Option State) (hr : OptFormed r) : ElemFormed (elemTake cid js r) := by
  unfold elemTake
  split
  · exact elemFormed_go.2 (State.modCore_formed _ _ (hr _ rfl))
  · exact elemFormed_wait

@[simp] theorem steerStep_formed (s : State) (cid e : Nat) (hF : Formed s) : ElemFormed (steerStep s cid e) := by
  unfold steerStep
  dsimp only
  split
  · split
    · split
      · exact elemTake_formed _ _ _ (elemSend_formed _ _ _ _ _ hF)
      · exact elemFormed_bad _
    · split
      · refine elemTake_formed _ _ _ fun t h => ?_
        obtain ⟨u, hu, ht⟩ := Option.bind_eq_some_iff.1 h
        exact elemSend_formed _ _ _ _ _ (elemSend_formed _ _ _ _ _ hF _ hu) _ ht
      · exact elemFormed_bad _
  · exact elemFormed_wait

theorem execSteer_formed (cid e : Nat) (s : State) (hF : Formed s) : OutFormed (execSteer cid e s) := by
  unfold execSteer
  refine outFormed_next.2 ?_
  repeat' (first | exact hF | split | with_reducible refine onLease_formed _ _ _ (fun _ _ _ _ => ?_) hF | with_reducible refine answer_formed _ _ _ _ ?_ | (simp [hF]; done))

@[simp] theorem mergeStep_formed (s : State) (cid e : Nat) (hF : Formed s) : ElemFormed (mergeStep s cid e) := by
  unfold mergeStep
  dsimp only
  repeat' (first | exact elemFormed_bad _ | exact elemFormed_wait | exact elemTake_formed _ _ _ (elemSend_formed _ _ _ _ _ hF) | split)

theorem execMerge_formed (cid e : Nat) (s : State) (hF : Formed s) : OutFormed (execMerge cid e s) := by
  unfold execMerge
  refine outFormed_next.2 ?_
  repeat' (first | exact hF | split | with_reducible refine onLease_formed _ _ _ (fun _ _ _ _ => ?_) hF | with_reducible refine answer_formed _ _ _ _ ?_ | (simp [hF]; done))

@[simp] theorem elemFlush_formed (s : State) (cid e : Nat) (f : Flit) (hF : Formed s) : ElemFormed (elemFlush s cid e f) := by
  unfold elemFlush
  split
  · rename_i t h
    exact elemFormed_go.2 (State.modCore_formed _ _ (elemSend_formed _ _ _ _ _ hF _ h))
  · exact elemFormed_wait

@[simp] theorem carryStep_formed (s : State) (cid e : Nat) (hF : Formed s) : ElemFormed (carryStep s cid e) := by
  have set : ∀ (f : Elem → Elem) (r : ElemStep), ElemFormed r → ElemFormed (match r with
      | .go s => .go (s.modCore cid fun c => c.modElem e f)
      | r => r) := by
    intro f r hr
    cases r with
    | go t => exact elemFormed_go.2 (State.modCore_formed _ _ (elemFormed_go.1 hr))
    | took t => exact hr
    | bad j => exact hr
    | wait => exact hr
  have snd : ∀ arm f, ElemFormed (match elemSend s cid e arm f with
      | some s => .go s
      | none => .wait) := by
    intro arm f
    split
    · exact elemFormed_go.2 (elemSend_formed _ _ _ _ _ hF _ ‹_›)
    · exact elemFormed_wait
  have take := fun js arm f => elemTake_formed cid js _ (elemSend_formed s cid e arm f hF)
  unfold carryStep
  dsimp only
  split
  · exact elemFlush_formed _ _ _ _ hF
  · split
    · exact set _ _ (snd _ _)
    · split
      · split
        · exact elemFormed_wait
        · split
          · exact take _ _ _
          · split
            · exact set _ _ (take _ _ _)
            · split
              · exact set _ _ (take _ _ _)
              · exact elemFormed_bad _
      · exact elemFormed_wait

theorem execCarry_formed (cid e : Nat) (s : State) (hF : Formed s) : OutFormed (execCarry cid e s) := by
  unfold execCarry
  refine outFormed_next.2 ?_
  repeat' (first | exact hF | split | with_reducible refine onLease_formed _ _ _ (fun _ _ _ _ => ?_) hF | with_reducible refine answer_formed _ _ _ _ ?_ | (simp [hF]; done))

@[simp] theorem reorderStep_formed (s : State) (cid e : Nat) (hF : Formed s) : ElemFormed (reorderStep s cid e) := by
  unfold reorderStep
  dsimp only
  repeat' (first | exact elemFlush_formed _ _ _ _ hF | exact elemFormed_wait | exact elemFormed_took.2 hF | split)

theorem execReorder_formed (cid e : Nat) (s : State) (hF : Formed s) : OutFormed (execReorder cid e s) := by
  unfold execReorder
  refine outFormed_next.2 ?_
  repeat' (first | exact hF | split | with_reducible refine onLease_formed _ _ _ (fun _ _ _ _ => ?_) hF | with_reducible refine answer_formed _ _ _ _ ?_ | (simp [hF]; done))

theorem execSpillStart_formed (cid out : Nat) (s : State) (hF : Formed s) : OutFormed (execSpillStart cid out s) := by
  unfold execSpillStart
  refine outFormed_next.2 ?_
  split
  · exact hF
  · split
    · exact hF
    · split
      · split
        · exact State.modCore_formed _ _ hF
        · exact hF
      · split
        · exact hF
        · exact pushLate_formed _ _ _ _ _ hF

theorem execSpillReturn_formed (cid out : Nat) (s : State) (hF : Formed s) : OutFormed (execSpillReturn cid out s) := by
  unfold execSpillReturn
  refine outFormed_next.2 ?_
  repeat' (first | exact hF | split)

end Sys2Proof.Machine
end

