-- ==== Sys2Proof/Laws/Keep/Reply.lean ====
section
/-! SUPPORT. What Machine/Reply.lean keeps (Safety.lean, Formed). -/

namespace Sys2Proof.Machine

open Sys2Proof.Safety


/-- What reading the elements of a load keeps. -/
def LoadFormed : Loaded → Prop
  | .bad s _ => Formed s
  | .ok s _ => Formed s

theorem Loaded.add_formed {x : Loaded} (i : Nat) (bs : List Byte) : LoadFormed x → LoadFormed (match x with
      | .ok s ps => .ok s ((i, bs) :: ps)
      | x => x) := by
  intro h
  cases x with
  | bad s c => exact h
  | ok s ps => exact h

@[simp] theorem noteStale_formed (s : State) (cid l : Nat) (gen : BitVec 8) (hF : Formed s) : Formed (noteStale s cid l gen) := by
  unfold noteStale
  repeat' (first | assumption | with_reducible refine OptFormed.of_eq ?_ (by assumption) | with_reducible refine DoneFormed.of_eq ?_ (by assumption) | (simp (maxDischargeDepth := 50) [*]; done) | split)

@[simp] theorem fetchLine_formed (s : State) (cid lease : Nat) (mode : FetchMode) (na : Bool) (va : Nat) (l : Loc) (hF : Formed s) : Formed (fetchLine s cid lease mode na va l).1 := by
  unfold fetchLine
  repeat' (first | assumption | with_reducible refine OptFormed.of_eq ?_ (by assumption) | with_reducible refine DoneFormed.of_eq ?_ (by assumption) | (simp (maxDischargeDepth := 50) [*]; done) | split)

theorem loadElems_formed (cid : Nat) (x : Inst) (r : GenReq) (n : Nat) (es : List (Nat × Option (Nat × Loc))) :
    ∀ (seen : List (Nat × Value × Bool)) (s : State), Formed s → LoadFormed (loadElems cid x r n es seen s) := by
  induction es with
  | nil => intro seen s hF; exact hF
  | cons e es ih =>
    intro seen s hF
    obtain ⟨i, _ | ⟨va, l⟩⟩ := e
    · exact ih seen s hF
    · unfold loadElems
      dsimp only
      split
      · exact hF
      · split
        · exact Loaded.add_formed _ _ (ih _ _ (heard_formed _ _ _ hF))
        · cases seen.find? (·.1 = va / 64) with
          | some x =>
            dsimp only
            split
            · exact hF
            · exact Loaded.add_formed _ _ (ih _ _ hF)
          | none =>
            have hf := fetchLine_formed s cid r.lease (fetchMode x r (va / 64)) r.na va l hF
            dsimp only
            split
            · exact hf
            · exact Loaded.add_formed _ _ (ih _ _ hf)

@[simp] theorem popGen_formed (s : State) (cid : Nat) (hF : Formed s) : Formed (popGen s cid) := by
  unfold popGen
  assumption

@[simp] theorem raiseReply_formed (s : State) (cid : Nat) (r : GenReq) (x : Cause) (hF : Formed s) : Formed (raiseReply s cid r x) := by
  unfold raiseReply
  repeat' (first | assumption | with_reducible refine OptFormed.of_eq ?_ (by assumption) | with_reducible refine DoneFormed.of_eq ?_ (by assumption) | (simp (maxDischargeDepth := 50) [*]; done) | split)

@[simp] theorem replyLoad_formed (s : State) (cid : Nat) (r : GenReq) (hF : Formed s) : Formed (replyLoad s cid r) := by
  unfold replyLoad
  split
  · exact popGen_formed _ _ hF
  · split
    · exact hF
    · rename_i x _ _
      have h0 : Formed (if r.sc then release s cid r.osc else s) := by
        split
        · exact release_formed _ _ _ hF
        · exact hF
      generalize (if r.sc then release s cid r.osc else s) = u at *
      have h1 := loadElems_formed cid x r r.size r.listed [] u h0
      dsimp only
      refine unlessFull_formed _ _ hF ?_
      split
      · rename_i t c e
        rw [e] at h1
        exact raiseReply_formed _ _ _ _ h1
      · rename_i t ps e
        rw [e] at h1
        have h2 := acquire_formed _ cid r.osc (popGen_formed t cid h1)
        split
        · exact Env.result_formed _ _ _ _ h2
        · exact h2

@[simp] theorem noteGenStall_formed (s : State) (cid : Nat) (r : GenReq) (lease : Nat) (hF : Formed s) : Formed (noteGenStall s cid r lease) := by
  unfold noteGenStall
  repeat' (first | assumption | with_reducible refine OptFormed.of_eq ?_ (by assumption) | with_reducible refine DoneFormed.of_eq ?_ (by assumption) | split)

@[simp] theorem replyStore_formed (s : State) (cid : Nat) (p : Patch) (r : GenReq) (hF : Formed s) : Formed (replyStore s cid p r) := by
  have h1 := fun osc xs => Done.then_formed (okRoom_formed _ (release_formed s cid osc hF)) fun u hu => eachDone_formed (fun x s =>
      if x.2.1.isSystem then escapePiece cid 0 p r.ac false x s else storePiece cid r.lease r.lsid (wideScope osc) r.na x s)
    (fun x t ht => by
      split
      · exact escapePiece_formed _ _ _ _ _ _ _ ht
      · exact storePiece_formed _ _ _ _ _ _ _ ht) xs hu
  unfold replyStore
  dsimp only
  split
  · rename_i t e
    exact popGen_formed _ _ (h1 _ _ _ e)
  · exact raiseReply_formed _ _ _ _ hF
  · exact noteGenStall_formed _ _ _ _ hF
  · exact hF

@[simp] theorem replyRelatch_formed (s : State) (cid : Nat) (f : Flit) (hF : Formed s) : Formed (replyRelatch s cid f) := by
  unfold replyRelatch
  repeat' (first | assumption | with_reducible refine OptFormed.of_eq ?_ (by assumption) | with_reducible refine DoneFormed.of_eq ?_ (by assumption) | (simp (maxDischargeDepth := 50) [*]; done) | split | with_reducible refine State.modCore_formed _ _ ?_ | with_reducible refine foldl_formed _ (fun _ _ _ => ?_) _ ?_ | with_reducible refine doneFormed_ok.2 ?_ | with_reducible refine outFormed_next.2 ?_ | with_reducible refine optFormed_some.2 ?_ | with_reducible refine Done.then_formed ?_ (fun _ _ => ?_) | with_reducible refine eachDone_formed _ (fun _ _ _ => ?_) _ ?_ | with_reducible refine formed_mk.2 (forms_of_formed ?_))

theorem readPlane_formed (cid lease : Nat) (es : List (Nat × Loc)) :
    ∀ s : State, Formed s → LoadFormed (readPlane cid lease es s) := by
  induction es with
  | nil => intro s hF; exact hF
  | cons e es ih =>
    intro s hF
    obtain ⟨va, l⟩ := e
    unfold readPlane
    dsimp only
    split
    · exact hF
    · split
      · exact Loaded.add_formed _ _ (ih _ (heard_formed _ _ _ hF))
      · have hf := fetchLine_formed s cid lease .cached true va l hF
        split
        · exact hf
        · exact Loaded.add_formed _ _ (ih _ hf)

@[simp] theorem replyPlane_formed (s : State) (cid lease id : Nat) (hF : Formed s) : Formed (replyPlane s cid lease id) := by
  unfold replyPlane
  split
  · split
    · rename_i src locs _
      have h1 := readPlane_formed cid lease (planeLines src.toNat locs) s hF
      refine unlessFull_formed _ _ hF ?_
      split
      · rename_i t x e
        rw [e] at h1
        exact raiseCore_formed _ _ _ _ _ _ (popGen_formed _ _ h1)
      · rename_i t ps e
        rw [e] at h1
        exact State.modCore_formed _ _ (popGen_formed _ _ h1)
    · exact popGen_formed _ _ hF
  · exact popGen_formed _ _ hF

@[simp] theorem spillMiss_formed (s : State) (cid out va : Nat) (x : Xlate) (hF : Formed s) : Formed (spillMiss s cid out va x) := by
  unfold spillMiss
  repeat' (first | assumption | with_reducible refine OptFormed.of_eq ?_ (by assumption) | with_reducible refine DoneFormed.of_eq ?_ (by assumption) | (simp (maxDischargeDepth := 50) [*]; done) | split)

@[simp] theorem replySpill_formed (s : State) (cid out : Nat) (r : GenReq) (hF : Formed s) : Formed (replySpill s cid out r) := by
  unfold replySpill
  split
  · exact popGen_formed _ _ hF
  · split
    · exact popGen_formed _ _ hF
    · split
      · exact spillMiss_formed _ _ _ _ _ hF
      · dsimp only
        split
        · split
          · exact spillMiss_formed _ _ _ _ _ hF
          · split
            · rename_i e
              exact State.modCore_formed _ _ (popGen_formed _ _ ((okRoom_formed _ (nodeWrite_formed _ _ _ _ (nodeWrite_formed _ _ _ _ hF))) _ e))
            · exact noteGenStall_formed _ _ _ _ hF
            · exact hF
        · exact spillMiss_formed _ _ _ _ _ hF
        · exact spillMiss_formed _ _ _ _ _ hF

@[simp] theorem replyUnspill_formed (s : State) (cid out : Nat) (q : GenReq) (hF : Formed s) : Formed (replyUnspill s cid out q) := by
  unfold replyUnspill
  repeat' (first | assumption | with_reducible refine OptFormed.of_eq ?_ (by assumption) | with_reducible refine DoneFormed.of_eq ?_ (by assumption) | (simp (maxDischargeDepth := 50) [*]; done) | split | with_reducible refine State.modCore_formed _ _ ?_ | with_reducible refine foldl_formed _ (fun _ _ _ => ?_) _ ?_ | with_reducible refine doneFormed_ok.2 ?_ | with_reducible refine outFormed_next.2 ?_ | with_reducible refine optFormed_some.2 ?_ | with_reducible refine Done.then_formed ?_ (fun _ _ => ?_) | with_reducible refine eachDone_formed _ (fun _ _ _ => ?_) _ ?_ | with_reducible refine formed_mk.2 (forms_of_formed ?_))

@[simp] theorem replyRecord_formed (s : State) (cid va : Nat) (r : GenReq) (hF : Formed s) : Formed (replyRecord s cid va r) := by
  unfold replyRecord
  dsimp only
  split
  · exact hF
  · split
    · rename_i e
      exact popGen_formed _ _ ((okRoom_formed _ (putVa_formed s cid r.lease va r.data (s.core cid).rin hF)) _ e)
    · exact noteGenStall_formed _ _ _ _ hF
    · exact hF

@[simp] theorem admitLate_formed (s : State) (cid : Nat) (hF : Formed s) : Formed (admitLate s cid) := by
  unfold admitLate
  repeat' (first | assumption | with_reducible refine OptFormed.of_eq ?_ (by assumption) | with_reducible refine DoneFormed.of_eq ?_ (by assumption) | (simp (maxDischargeDepth := 50) [*]; done) | split)

@[simp] theorem answerGen_formed (s : State) (cid pt : Nat) (r : GenReq) (hF : Formed s) : Formed (answerGen s cid pt r) := by
  unfold answerGen
  repeat' (first | assumption | with_reducible refine OptFormed.of_eq ?_ (by assumption) | with_reducible refine DoneFormed.of_eq ?_ (by assumption) | (simp (maxDischargeDepth := 50) [*]; done) | split)

theorem execGenReply_formed (cid : Nat) (s : State) (hF : Formed s) : OutFormed (execGenReply cid s) := by
  unfold execGenReply
  repeat' (first | assumption | with_reducible refine OptFormed.of_eq ?_ (by assumption) | with_reducible refine DoneFormed.of_eq ?_ (by assumption) | (simp (maxDischargeDepth := 50) [*]; done) | split | with_reducible refine State.modCore_formed _ _ ?_ | with_reducible refine foldl_formed _ (fun _ _ _ => ?_) _ ?_ | with_reducible refine doneFormed_ok.2 ?_ | with_reducible refine outFormed_next.2 ?_ | with_reducible refine optFormed_some.2 ?_ | with_reducible refine Done.then_formed ?_ (fun _ _ => ?_) | with_reducible refine eachDone_formed _ (fun _ _ _ => ?_) _ ?_ | with_reducible refine formed_mk.2 (forms_of_formed ?_))

theorem execTlbWalk_formed (cid : Nat) (va : BitVec 48) (s : State) (hF : Formed s) : OutFormed (execTlbWalk cid va s) := by
  unfold execTlbWalk
  refine outFormed_next.2 ?_
  repeat' (first | exact hF | split)

end Sys2Proof.Machine
end

