-- ==== Sys2Proof/Laws/Keep/MangleRun.lean ====
section
/-! SUPPORT. What Machine/MangleRun.lean keeps (Safety.lean, Formed). -/

namespace Sys2Proof.Machine

open Sys2Proof.Safety


theorem execMangleRunStart_formed (cid : Nat) (s : State) (hF : Formed s) : OutFormed (execMangleRunStart cid s) := by
  unfold execMangleRunStart
  refine outFormed_next.2 ?_
  repeat' (first | exact hF | split)

@[simp] theorem doTile_formed (s : State) (cid : Nat) (p : Patch) (c : Core) (q : MEnt) (sh : BitVec 5) (d : Nat) (rs : List Value) (bad : Nat) (hF : Formed s) : Formed (doTile s cid p c q sh d rs bad) := by
  unfold doTile
  repeat' (first | assumption | with_reducible refine OptFormed.of_eq ?_ (by assumption) | with_reducible refine DoneFormed.of_eq ?_ (by assumption) | (simp (maxDischargeDepth := 50) [*]; done) | split | with_reducible refine State.modCore_formed _ _ ?_ | with_reducible refine foldl_formed _ (fun _ _ _ => ?_) _ ?_ | with_reducible refine doneFormed_ok.2 ?_ | with_reducible refine outFormed_next.2 ?_ | with_reducible refine optFormed_some.2 ?_ | with_reducible refine Done.then_formed ?_ (fun _ _ => ?_) | with_reducible refine eachDone_formed _ (fun _ _ _ => ?_) _ ?_ | with_reducible refine formed_mk.2 (forms_of_formed ?_))

theorem execMangleTile_formed (cid run mismatches : Nat) (s : State) (hF : Formed s) : OutFormed (execMangleTile cid run mismatches s) := by
  unfold execMangleTile
  refine outFormed_next.2 ?_
  repeat' (first | exact hF | split | with_reducible refine onLease_formed _ _ _ (fun _ _ _ _ => ?_) hF | with_reducible refine answer_formed _ _ _ _ ?_ | (simp [hF]; done))

theorem execMangleSwapEffect_formed (cid : Nat) (s : State) (hF : Formed s) : OutFormed (execMangleSwapEffect cid s) := by
  unfold execMangleSwapEffect
  refine outFormed_next.2 ?_
  repeat' (first | exact hF)

theorem execMangleFenceEffect_formed (cid : Nat) (s : State) (hF : Formed s) : OutFormed (execMangleFenceEffect cid s) := by
  unfold execMangleFenceEffect
  refine outFormed_next.2 ?_
  repeat' (first | exact hF)

theorem execMloadFill_formed (cid : Nat) (s : State) (hF : Formed s) : OutFormed (execMloadFill cid s) := by
  unfold execMloadFill
  refine outFormed_next.2 ?_
  repeat' (first | exact hF | split | with_reducible refine onLease_formed _ _ _ (fun _ _ _ _ => ?_) hF | with_reducible refine answer_formed _ _ _ _ ?_ | (simp [hF]; done))

end Sys2Proof.Machine
end

