-- ==== Sys2Proof/Laws/Keep/CopyWalk.lean ====
section
/-! SUPPORT. What Machine/CopyWalk.lean keeps (Safety.lean, Formed). -/

namespace Sys2Proof.Machine

open Sys2Proof.Safety


/-- What an access of the copy engine keeps. -/
def CopyFormed (r : CopyGot State) : Prop := ∀ t, r = .ok t → Formed t

@[simp] theorem copyFormed_ok {t : State} : CopyFormed (.ok t) ↔ Formed t := ⟨fun h => h t rfl, fun h _ e => by cases e; exact h⟩
@[simp] theorem copyFormed_bad (a b : BitVec 8) (d : BitVec 64) : CopyFormed (.bad a b d) := fun _ e => by cases e
@[simp] theorem copyFormed_hold : CopyFormed .hold := fun _ e => by cases e
@[simp] theorem copyFormed_full (l : Nat) : CopyFormed (.full l) := fun _ e => by cases e

@[simp] theorem copyPut_formed (e : CopyEnt) (dirty : Bool) (s : State) (p : Loc × List Byte) (hF : Formed s) : Formed (copyPut e dirty s p) := by
  unfold copyPut
  repeat' (first | assumption | with_reducible refine OptFormed.of_eq ?_ (by assumption) | with_reducible refine DoneFormed.of_eq ?_ (by assumption) | (simp (maxDischargeDepth := 50) [*]; done) | split | with_reducible refine State.modCore_formed _ _ ?_ | with_reducible refine foldl_formed _ (fun _ _ _ => ?_) _ ?_ | with_reducible refine doneFormed_ok.2 ?_ | with_reducible refine outFormed_next.2 ?_ | with_reducible refine optFormed_some.2 ?_ | with_reducible refine Done.then_formed ?_ (fun _ _ => ?_) | with_reducible refine eachDone_formed _ (fun _ _ _ => ?_) _ ?_ | with_reducible refine formed_mk.2 (forms_of_formed ?_))

@[simp] theorem copyWrite_formed (s : State) (e : CopyEnt) (k : GKind) (x : CopySide) (bs : List Byte) (dirty : Bool) (hF : Formed s) :
    CopyFormed (copyWrite s e k x bs dirty) := by
  unfold copyWrite
  split
  · split
    · exact copyFormed_ok.2 (State.modCore_formed _ _ hF)
    · exact copyFormed_bad _ _ _
    · exact copyFormed_full _
    · exact copyFormed_hold
  · split
    · dsimp only
      split
      · exact copyFormed_full _
      · split
        · exact copyFormed_full _
        · exact copyFormed_ok.2 (foldl_formed _ (fun _ _ h => copyPut_formed _ _ _ _ h) _ hF)
    · exact copyFormed_bad _ _ _
    · exact copyFormed_full _
    · exact copyFormed_hold

@[simp] theorem copyCharge_formed (s : State) (e : CopyEnt) (x : CopySide) (n : Nat) (hF : Formed s) : Formed (copyCharge s e x n) := by
  unfold copyCharge
  repeat' (first | assumption | with_reducible refine OptFormed.of_eq ?_ (by assumption) | with_reducible refine DoneFormed.of_eq ?_ (by assumption) | (simp (maxDischargeDepth := 50) [*]; done) | split)

@[simp] theorem copyElem_formed (s : State) (cl : Nat) (e : CopyEnt) (hF : Formed s) : CopyFormed (copyElem s cl e) := by
  unfold copyElem
  dsimp only
  split
  · exact copyFormed_bad _ _ _
  · exact copyFormed_full _
  · exact copyFormed_hold
  · exact copyFormed_bad _ _ _
  · have h1 : Formed (if cpOp e.packet = 1 ∨ cpOp e.packet = 2 then
        copyCharge s e (.glob ((cpAux e.packet + 4 * e.next) % 2 ^ 48)) 4 else s) := by
      split
      · exact copyCharge_formed _ _ _ _ hF
      · exact hF
    generalize (if cpOp e.packet = 1 ∨ cpOp e.packet = 2 then
        copyCharge s e (.glob ((cpAux e.packet + 4 * e.next) % 2 ^ 48)) 4 else s) = u at *
    split
    · exact copyWrite_formed _ _ _ _ _ _ h1
    · split
      · exact copyFormed_bad _ _ _
      · exact copyFormed_full _
      · exact copyFormed_hold
      · split
        · split
          · exact copyFormed_bad _ _ _
          · exact copyFormed_full _
          · exact copyFormed_hold
          · exact copyFormed_bad _ _ _
          · exact copyWrite_formed _ _ _ _ _ _ (copyCharge_formed _ _ _ _ (copyCharge_formed _ _ _ _ h1))
        · exact copyWrite_formed _ _ _ _ _ _ (copyCharge_formed _ _ _ _ h1)

@[simp] theorem endCopy_formed (s : State) (cl q : Nat) (cause : Option (BitVec 8)) (e : CopyEnt) (hF : Formed s) : Formed (endCopy s cl q cause e) := by
  unfold endCopy
  repeat' (first | assumption | with_reducible refine OptFormed.of_eq ?_ (by assumption) | with_reducible refine DoneFormed.of_eq ?_ (by assumption) | (simp (maxDischargeDepth := 50) [*]; done) | split | with_reducible refine State.modCore_formed _ _ ?_ | with_reducible refine foldl_formed _ (fun _ _ _ => ?_) _ ?_ | with_reducible refine doneFormed_ok.2 ?_ | with_reducible refine outFormed_next.2 ?_ | with_reducible refine optFormed_some.2 ?_ | with_reducible refine Done.then_formed ?_ (fun _ _ => ?_) | with_reducible refine eachDone_formed _ (fun _ _ _ => ?_) _ ?_ | with_reducible refine formed_mk.2 (forms_of_formed ?_))

@[simp] theorem raiseWalk_formed (s : State) (e : CopyEnt) (cause sub : BitVec 8) (addr : BitVec 64) (hF : Formed s) : Formed (raiseWalk s e cause sub addr) := by
  unfold raiseWalk
  repeat' (first | assumption | with_reducible refine OptFormed.of_eq ?_ (by assumption) | with_reducible refine DoneFormed.of_eq ?_ (by assumption) | (simp (maxDischargeDepth := 50) [*]; done) | split | with_reducible refine State.modCore_formed _ _ ?_ | with_reducible refine foldl_formed _ (fun _ _ _ => ?_) _ ?_ | with_reducible refine doneFormed_ok.2 ?_ | with_reducible refine outFormed_next.2 ?_ | with_reducible refine optFormed_some.2 ?_ | with_reducible refine Done.then_formed ?_ (fun _ _ => ?_) | with_reducible refine eachDone_formed _ (fun _ _ _ => ?_) _ ?_ | with_reducible refine formed_mk.2 (forms_of_formed ?_))

theorem execCopyWalk_formed (cl q : Nat) (s : State) (hF : Formed s) : OutFormed (execCopyWalk cl q s) := by
  unfold execCopyWalk
  refine outFormed_next.2 ?_
  split
  · exact hF
  · split
    · exact endCopy_formed _ _ _ _ _ hF
    · split
      · exact hF
      · split
        · exact hF
        · exact countStall_formed _ _ (State.modCluster_formed _ _ hF)
      · exact foldl_formed _ (fun _ _ h => endCopy_formed _ _ _ _ _ h) _ (raiseWalk_formed _ _ _ _ _ hF)
      · rename_i t h
        have ht : Formed t := copyElem_formed _ _ _ hF _ h
        dsimp only
        split
        · exact State.modCluster_formed _ _ ht
        · exact endCopy_formed _ _ _ _ _ ht

end Sys2Proof.Machine
end

