-- ==== Sys2Proof/Laws/Keep/KernelObj.lean ====
section
/-! SUPPORT. What Machine/KernelObj.lean keeps (Safety.lean, Formed). -/

namespace Sys2Proof.Machine

open Sys2Proof.Safety


@[simp] theorem stripCharge_formed (s : State) (lease va n : Nat) (hF : Formed s) : Formed (stripCharge s lease va n) := by
  unfold stripCharge
  refine foldl_formed _ (fun _ _ h => ?_) _ hF
  repeat' (first | exact h | split | (simp [h]; done))

@[simp] theorem stripWalk_formed (s : State) (lease va n : Nat) (hF : Formed s) : Formed (stripWalk s lease va n) := by
  unfold stripWalk
  split
  · exact poisonUsed_formed _ _ hF
  · exact hF

@[simp] theorem partsWalk_formed (s : State) (lease va : Nat) (h : List CWord) (hF : Formed s) : Formed (partsWalk s lease va h) :=
  foldl_formed _ (fun _ _ h => stripWalk_formed _ _ _ _ h) _ hF

end Sys2Proof.Machine
end

