-- ==== Sys2Proof/Laws/Keep/ConfigLoad.lean ====
section
/-! SUPPORT. What Machine/ConfigLoad.lean keeps (Safety.lean, Formed). -/

namespace Sys2Proof.Machine

open Sys2Proof.Safety


@[simp] theorem writeShadows_formed (s : State) (pt base : Nat) (o : KObj) (old : OldCfg) (hF : Formed s) :
    Formed (writeShadows s pt base o old) :=
  forCores_formed _ _ _ (fun _ _ h => h) hF

@[simp] theorem commitLoad_formed (s : State) (pt lease base : Nat) (h : List CWord) (hF : Formed s) : Formed (commitLoad s pt lease base h) :=
  forCores_formed _ _ _ (fun _ _ h => h) hF

end Sys2Proof.Machine
end

