-- ==== Sys2Proof/Laws/Keep/Queues.lean ====
section
/-! SUPPORT. What Machine/Queues.lean keeps (Safety.lean, Formed). -/

namespace Sys2Proof.Machine

open Sys2Proof.Safety


@[simp] theorem badWrite_formed (s : State) (q : Nat) (hF : Formed s) : Formed (badWrite s q) := by
  unfold badWrite
  assumption

@[simp] theorem hostPacket_formed (s : State) (q : Nat) (bs : List Byte) (hF : Formed s) : Formed (hostPacket s q bs) := by
  unfold hostPacket
  repeat' (first | assumption | with_reducible exact outFormed_next.2 hF | with_reducible refine inOrder_formed _ _ _ _ (fun _ _ => ?_) ?_ | with_reducible refine OptFormed.of_eq ?_ (by assumption) | with_reducible refine DoneFormed.of_eq ?_ (by assumption) | split)

@[simp] theorem doResume_formed (s : State) (q : Nat) (v : BitVec 32) (hF : Formed s) : Formed (doResume s q v) := by
  unfold doResume
  repeat' (first | assumption | with_reducible exact outFormed_next.2 hF | with_reducible refine inOrder_formed _ _ _ _ (fun _ _ => ?_) ?_ | with_reducible refine OptFormed.of_eq ?_ (by assumption) | with_reducible refine DoneFormed.of_eq ?_ (by assumption) | (simp (maxDischargeDepth := 50) [*]; done) | split)

@[simp] theorem doChead_formed (s : State) (q : Nat) (v : BitVec 32) (hF : Formed s) : Formed (doChead s q v) := by
  unfold doChead
  repeat' (first | assumption | with_reducible exact outFormed_next.2 hF | with_reducible refine inOrder_formed _ _ _ _ (fun _ _ => ?_) ?_ | with_reducible refine OptFormed.of_eq ?_ (by assumption) | with_reducible refine DoneFormed.of_eq ?_ (by assumption) | (simp (maxDischargeDepth := 50) [*]; done) | split)

@[simp] theorem clearOvfl_formed (s : State) (q : Nat) (v : BitVec 32) (hF : Formed s) : Formed (clearOvfl s q v) := by
  unfold clearOvfl
  assumption

theorem inOrder_formed (s : State) (fn : Nat) (i : Instr) (go : State → State) (hg : ∀ t, Formed t → Formed (go t)) (hF : Formed s) :
    Formed (inOrder s fn i go) := by
  unfold inOrder
  split
  · exact hF
  · exact hg s hF

@[simp] theorem packetPut_formed (fn q off : Nat) (data : List Byte) (s : State) (hF : Formed s) : Formed (packetPut fn q off data s) := by
  unfold packetPut
  repeat' (first | assumption | with_reducible exact outFormed_next.2 hF | with_reducible refine inOrder_formed _ _ _ _ (fun _ _ => ?_) ?_ | with_reducible refine OptFormed.of_eq ?_ (by assumption) | with_reducible refine DoneFormed.of_eq ?_ (by assumption) | (simp (maxDischargeDepth := 50) [*]; done) | split | with_reducible refine State.modCore_formed _ _ ?_ | with_reducible refine foldl_formed _ (fun _ _ _ => ?_) _ ?_)

@[simp] theorem resumePut_formed (fn q : Nat) (v : BitVec 32) (s : State) (hF : Formed s) : Formed (resumePut fn q v s) := by
  unfold resumePut
  repeat' (first | assumption | with_reducible exact outFormed_next.2 hF | with_reducible refine inOrder_formed _ _ _ _ (fun _ _ => ?_) ?_ | with_reducible refine OptFormed.of_eq ?_ (by assumption) | with_reducible refine DoneFormed.of_eq ?_ (by assumption) | (simp (maxDischargeDepth := 50) [*]; done) | split)

@[simp] theorem cheadPut_formed (fn q : Nat) (v : BitVec 32) (s : State) (hF : Formed s) : Formed (cheadPut fn q v s) := by
  unfold cheadPut
  repeat' (first | assumption | with_reducible exact outFormed_next.2 hF | with_reducible refine inOrder_formed _ _ _ _ (fun _ _ => ?_) ?_ | with_reducible refine OptFormed.of_eq ?_ (by assumption) | with_reducible refine DoneFormed.of_eq ?_ (by assumption) | (simp (maxDischargeDepth := 50) [*]; done) | split)

theorem execPacketWrite_formed (fn q off : Nat) (data : List Byte) (s : State) (hF : Formed s) : OutFormed (execPacketWrite fn q off data s) :=
  outFormed_next.2 (inOrder_formed _ _ _ _ (fun _ h => packetPut_formed _ _ _ _ _ h) hF)

theorem execResume_formed (fn q : Nat) (v : BitVec 32) (s : State) (hF : Formed s) : OutFormed (execResume fn q v s) :=
  outFormed_next.2 (inOrder_formed _ _ _ _ (fun _ h => resumePut_formed _ _ _ _ h) hF)

theorem execChead_formed (fn q : Nat) (v : BitVec 32) (s : State) (hF : Formed s) : OutFormed (execChead fn q v s) :=
  outFormed_next.2 (inOrder_formed _ _ _ _ (fun _ h => cheadPut_formed _ _ _ _ h) hF)

@[simp] theorem abortRing_formed (s : State) (q : Nat) (pick : Value → Bool) (hF : Formed s) : Formed (abortRing s q pick) := by
  unfold abortRing
  exact foldl_formed _ (fun _ _ h => by simp [h]) _ hF

theorem execIngest_formed (q : Nat) (s : State) (hF : Formed s) : OutFormed (execIngest q s) := by
  unfold execIngest
  refine outFormed_next.2 ?_
  repeat' (first | exact hF | split | with_reducible refine onLease_formed _ _ _ (fun _ _ _ _ => ?_) hF | with_reducible refine answer_formed _ _ _ _ ?_ | (simp [hF]; done))

end Sys2Proof.Machine
end

