-- ==== Sys2Proof/Laws/Keep/Validate.lean ====
section
/-! SUPPORT. What Machine/Validate.lean keeps (Safety.lean, Formed). -/

namespace Sys2Proof.Machine

open Sys2Proof.Safety


@[simp] theorem readsWalk_formed (s : State) (p : Pkt) (hF : Formed s) : Formed (readsWalk s p) := by
  unfold readsWalk
  dsimp only
  split
  · split
    · exact stripWalk_formed _ _ _ _ hF
    · split
      · exact stripWalk_formed _ _ _ _ hF
      · exact partsWalk_formed _ _ _ _ hF
  · exact hF

theorem execValidate_formed (s : State) (hF : Formed s) : OutFormed (execValidate s) := by
  unfold execValidate
  refine outFormed_next.2 ?_
  repeat' (first | exact hF | split | with_reducible refine onLease_formed _ _ _ (fun _ _ _ _ => ?_) hF | with_reducible refine answer_formed _ _ _ _ ?_ | (simp [hF]; done))

end Sys2Proof.Machine
end

