-- ==== Sys2Proof/Laws/Keep/Readout.lean ====
section
/-! SUPPORT. What Machine/Readout.lean keeps (Safety.lean, Formed). -/

namespace Sys2Proof.Machine

open Sys2Proof.Safety


@[simp] theorem stopForPlacer_formed (s : State) (pt : Nat) (hF : Formed s) : Formed (stopForPlacer s pt) :=
  forCores_formed _ _ _ (fun _ _ h => closeResidency_formed _ _ _ (drainC_formed _ _ h)) (discardAll_formed _ _ hF)

@[simp] theorem loadCharge_formed (s : State) (lease obj : Nat) (h : List CWord) (hF : Formed s) : Formed (loadCharge s lease obj h) := by
  unfold loadCharge
  refine foldl_formed _ (fun _ _ h => ?_) _ hF
  repeat' (first | exact h | split | (simp [h]; done))

@[simp] theorem recordLoad_formed (s : State) (pt : Nat) (p : Patch) (cause : BitVec 8) (b : LoadBad) (hF : Formed s) : Formed (recordLoad s pt p cause b) := by
  unfold recordLoad
  repeat' (first | assumption | with_reducible exact outFormed_next.2 hF | with_reducible refine inOrder_formed _ _ _ _ (fun _ _ => ?_) ?_ | with_reducible refine OptFormed.of_eq ?_ (by assumption) | with_reducible refine DoneFormed.of_eq ?_ (by assumption) | (simp (maxDischargeDepth := 50) [*]; done))

@[simp] theorem putImage_formed (s : State) (cid : Nat) (img : Core) (hF : Formed s) : Formed (putImage s cid img) := by
  unfold putImage
  assumption

@[simp] theorem passNotes_formed (s : State) (pt : Nat) (o : KObj) (hF : Formed s) : Formed (passNotes s pt o) := by
  unfold passNotes
  exact foldl_formed _ (fun _ _ h => by simp [h]) _ hF

@[simp] theorem restart_formed (s : State) (cid : Nat) (hF : Formed s) : Formed (restart s cid) := by
  unfold restart
  repeat' (first | assumption | with_reducible exact outFormed_next.2 hF | with_reducible refine inOrder_formed _ _ _ _ (fun _ _ => ?_) ?_ | with_reducible refine OptFormed.of_eq ?_ (by assumption) | with_reducible refine DoneFormed.of_eq ?_ (by assumption) | (simp (maxDischargeDepth := 50) [*]; done) | split)

@[simp] theorem setDown_formed (s : State) (pt lease : Nat) (o : KObj) (imgs : Table Core) (x y : Nat) (loan : Option Nat)
    (hF : Formed s) : Formed (setDown s pt lease o imgs x y loan) := by
  have h := foldl_formed (fun s (e : Nat × Core) =>
    putImage s (coreXY s (x + (reapply s lease o e.2).px) (y + (reapply s lease o e.2).py)) (reapply s lease o e.2))
    (fun _ _ h => putImage_formed _ _ _ h) imgs hF
  unfold setDown
  dsimp only
  generalize List.foldl _ s imgs = t at *
  refine passNotes_formed _ _ _ (forCores_formed _ _ _ (fun _ _ h => restart_formed _ _ h) ?_)
  cases t.patch pt with
  | none => exact State.modPatch_formed _ _ h
  | some p => exact reborrow_formed _ _ _ (State.modPatch_formed _ _ h)

@[simp] theorem rebind_formed (s : State) (lease : Nat) (w h x y nx ny : Nat) (hF : Formed s) : Formed (rebind s lease w h x y nx ny) := by
  unfold rebind
  repeat' (first | assumption | with_reducible exact outFormed_next.2 hF | with_reducible refine inOrder_formed _ _ _ _ (fun _ _ => ?_) ?_ | with_reducible refine OptFormed.of_eq ?_ (by assumption) | with_reducible refine DoneFormed.of_eq ?_ (by assumption) | (simp (maxDischargeDepth := 50) [*]; done) | split | with_reducible refine State.modCore_formed _ _ ?_ | with_reducible refine foldl_formed _ (fun _ _ _ => ?_) _ ?_ | with_reducible refine doneFormed_ok.2 ?_ | with_reducible refine outFormed_next.2 ?_ | with_reducible refine optFormed_some.2 ?_ | with_reducible refine Done.then_formed ?_ (fun _ _ => ?_) | with_reducible refine eachDone_formed _ (fun _ _ _ => ?_) _ ?_ | with_reducible refine formed_mk.2 (forms_of_formed ?_))

@[simp] theorem rebindPatch_formed (s : State) (p : Patch) (x y : Nat) (hF : Formed s) : Formed (rebindPatch s p x y) := by
  unfold rebindPatch
  repeat' (first | assumption | with_reducible exact outFormed_next.2 hF | with_reducible refine inOrder_formed _ _ _ _ (fun _ _ => ?_) ?_ | with_reducible refine OptFormed.of_eq ?_ (by assumption) | with_reducible refine DoneFormed.of_eq ?_ (by assumption) | (simp (maxDischargeDepth := 50) [*]; done) | split)

@[simp] theorem beginStop_formed (s : State) (key : Instr × Nat) (e : Nat × Patch) (hF : Formed s) : Formed (beginStop s key e) := by
  unfold beginStop
  dsimp only
  split
  · exact forCores_formed _ _ _ (fun _ _ h => State.modCore_formed _ _ h) (State.modPatch_formed _ _ hF)
  · exact hF

theorem placerStep_formed (s : State) (key : Instr × Nat) (ps : List (Nat × Patch)) (go : State → State)
    (hg : ∀ t, Formed t → Formed (go t)) (hF : Formed s) : Formed (placerStep s key ps go) := by
  unfold placerStep
  split
  · exact hF
  · split
    · exact foldl_formed _ (fun _ _ h => endStop_formed _ _ h) _ (hg s hF)
    · exact foldl_formed _ (fun _ _ h => beginStop_formed _ _ _ h) _ hF

@[simp] theorem movePatch_formed (s : State) (pt : Nat) (p : Patch) (x y : Nat) (loan : Option Nat) (hF : Formed s) :
    Formed (movePatch s pt p x y loan) := by
  unfold movePatch
  split
  · exact raiseCore_formed _ _ _ _ _ _ hF
  · have h1 := loadCharge_formed _ p.lease p.obj p.hdr (stopForPlacer_formed s pt hF)
    dsimp only
    split
    · exact recordLoad_formed _ _ _ _ _ h1
    · exact setDown_formed _ _ _ _ _ _ _ _ (rebindPatch_formed _ _ _ _ (forCores_formed _ _ _ (fun _ _ h => rinseCore_formed _ _ _ h) h1))

@[simp] theorem evictPatch_formed (s : State) (pt : Nat) (p : Patch) (ahead : Bool) (hF : Formed s) : Formed (evictPatch s pt p ahead) := by
  unfold evictPatch
  split
  · exact raiseCore_formed _ _ _ _ _ _ hF
  · split
    · exact hF
    · have h := reborrow_formed _ p.pk 0
        (forCores_formed _ pt (fun s cid => rinseCore s cid p.lease) (fun _ _ h => rinseCore_formed _ _ _ h) (stopForPlacer_formed s pt hF))
      dsimp only
      generalize reborrow _ p.pk 0 = t at *
      exact State.modPatch_formed _ _ (formed_mk.2 (forms_of_formed h))

@[simp] theorem tellEvicted_formed (s : State) (cl pos lease : Nat) (hF : Formed s) : Formed (tellEvicted s cl pos lease) := by
  unfold tellEvicted
  repeat' (first | assumption | with_reducible exact outFormed_next.2 hF | with_reducible refine inOrder_formed _ _ _ _ (fun _ _ => ?_) ?_ | with_reducible refine OptFormed.of_eq ?_ (by assumption) | with_reducible refine DoneFormed.of_eq ?_ (by assumption) | (simp (maxDischargeDepth := 50) [*]; done))

@[simp] theorem restorePatch_formed (s : State) (pt : Nat) (p : Patch) (x y : Nat) (loan : Option Nat) (hF : Formed s) : Formed (restorePatch s pt p x y loan) := by
  unfold restorePatch
  repeat' (first | assumption | with_reducible exact outFormed_next.2 hF | with_reducible refine inOrder_formed _ _ _ _ (fun _ _ => ?_) ?_ | with_reducible refine OptFormed.of_eq ?_ (by assumption) | with_reducible refine DoneFormed.of_eq ?_ (by assumption) | (simp (maxDischargeDepth := 50) [*]; done) | split | with_reducible refine State.modCore_formed _ _ ?_ | with_reducible refine foldl_formed _ (fun _ _ _ => ?_) _ ?_ | with_reducible refine doneFormed_ok.2 ?_ | with_reducible refine outFormed_next.2 ?_ | with_reducible refine optFormed_some.2 ?_ | with_reducible refine Done.then_formed ?_ (fun _ _ => ?_) | with_reducible refine eachDone_formed _ (fun _ _ _ => ?_) _ ?_ | with_reducible refine formed_mk.2 (forms_of_formed ?_))

@[simp] theorem leaveCores_formed (s : State) (pt : Nat) (p : Patch) (spot : Option (Nat × Nat × Option Nat)) (hF : Formed s) : Formed (leaveCores s pt p spot) := by
  unfold leaveCores
  repeat' (first | assumption | with_reducible exact outFormed_next.2 hF | with_reducible refine inOrder_formed _ _ _ _ (fun _ _ => ?_) ?_ | with_reducible refine OptFormed.of_eq ?_ (by assumption) | with_reducible refine DoneFormed.of_eq ?_ (by assumption) | (simp (maxDischargeDepth := 50) [*]; done) | split)

end Sys2Proof.Machine
end

