-- ==== Sys2Proof/Laws/Keep/Depend.lean ====
section
/-! SUPPORT. What Machine/Depend.lean keeps (Safety.lean, Formed). -/

namespace Sys2Proof.Machine

open Sys2Proof.Safety


@[simp] theorem stripStore_formed (s : State) (lease : Nat) (l : Loc) (bs : List Byte) (hF : Formed s) : OptFormed (stripStore s lease l bs) := by
  unfold stripStore
  repeat' (first | assumption | with_reducible exact outFormed_next.2 hF | with_reducible refine inOrder_formed _ _ _ _ (fun _ _ => ?_) ?_ | with_reducible refine placerStep_formed _ _ _ _ (fun _ _ => ?_) ?_ | with_reducible refine OptFormed.of_eq ?_ (by assumption) | with_reducible refine DoneFormed.of_eq ?_ (by assumption) | (simp (maxDischargeDepth := 50) [*]; done) | split)

@[simp] theorem depsWalk_formed (s : State) (p : Pkt) (hF : Formed s) : Formed (depsWalk s p) :=
  foldl_formed _ (fun _ _ h => stripWalk_formed _ _ _ _ h) _ hF

@[simp] theorem csigWalk_formed (s : State) (p : Pkt) (hF : Formed s) : Formed (csigWalk s p) := by
  unfold csigWalk
  cases csigAt s p with
  | none => exact hF
  | some q => exact stripWalk_formed _ _ _ _ hF

@[simp] theorem pkEnlist_formed (s : State) (p : Pkt) (ls : List Loc) (hF : Formed s) : Formed (pkEnlist s p ls) := by
  unfold pkEnlist
  exact foldl_formed _ (fun _ _ h => by simp [h]) _ hF

@[simp] theorem leaveDepend_formed (s : State) (p : Pkt) (hF : Formed s) : Formed (leaveDepend s p) := by
  unfold leaveDepend
  refine foldl_formed _ (fun _ _ h => ?_) _ hF
  repeat' (first | exact h | split | (simp [h]; done))

@[simp] theorem judge_formed (s : State) (p : Pkt) (ls : List Loc) (hF : Formed s) : Formed (judge s p ls) := by
  unfold judge
  have h1 := foldl_formed (fun s l => countRead s p.lease l 8) (fun _ _ h => countRead_formed _ _ _ _ h) ls hF
  generalize ls.foldl (fun s l => countRead s p.lease l 8) s = t at *
  dsimp only
  split
  · exact poisonUsed_formed _ _ h1
  · exact endPkt_formed _ _ _ _ _ h1
  · exact leaveDepend_formed _ _ h1
  · exact State.modPkt_formed _ _ h1

theorem execDepend_formed (s : State) (hF : Formed s) : OutFormed (execDepend s) := by
  unfold execDepend
  repeat' (first | assumption | with_reducible exact outFormed_next.2 hF | with_reducible refine inOrder_formed _ _ _ _ (fun _ _ => ?_) ?_ | with_reducible refine placerStep_formed _ _ _ _ (fun _ _ => ?_) ?_ | with_reducible refine OptFormed.of_eq ?_ (by assumption) | with_reducible refine DoneFormed.of_eq ?_ (by assumption) | (simp (maxDischargeDepth := 50) [*]; done) | split | with_reducible refine State.modCore_formed _ _ ?_ | with_reducible refine foldl_formed _ (fun _ _ _ => ?_) _ ?_ | with_reducible refine doneFormed_ok.2 ?_ | with_reducible refine outFormed_next.2 ?_ | with_reducible refine optFormed_some.2 ?_ | with_reducible refine Done.then_formed ?_ (fun _ _ => ?_) | with_reducible refine eachDone_formed _ (fun _ _ _ => ?_) _ ?_ | with_reducible refine formed_mk.2 (forms_of_formed ?_))

theorem execDependenceReread_formed (s : State) (hF : Formed s) : OutFormed (execDependenceReread s) := by
  unfold execDependenceReread
  refine outFormed_next.2 ?_
  repeat' (first | exact hF | split | with_reducible refine onLease_formed _ _ _ (fun _ _ _ _ => ?_) hF | with_reducible refine answer_formed _ _ _ _ ?_ | (simp [hF]; done))

theorem execLaunch_formed (s : State) (hF : Formed s) : OutFormed (execLaunch s) := by
  unfold execLaunch
  refine outFormed_next.2 ?_
  repeat' (first | exact hF | split)

theorem execWait_formed (s : State) (hF : Formed s) : OutFormed (execWait s) := by
  unfold execWait
  repeat' (first | assumption | with_reducible exact outFormed_next.2 hF | with_reducible refine inOrder_formed _ _ _ _ (fun _ _ => ?_) ?_ | with_reducible refine placerStep_formed _ _ _ _ (fun _ _ => ?_) ?_ | with_reducible refine OptFormed.of_eq ?_ (by assumption) | with_reducible refine DoneFormed.of_eq ?_ (by assumption) | (simp (maxDischargeDepth := 50) [*]; done) | split | with_reducible refine State.modCore_formed _ _ ?_ | with_reducible refine foldl_formed _ (fun _ _ _ => ?_) _ ?_ | with_reducible refine doneFormed_ok.2 ?_ | with_reducible refine outFormed_next.2 ?_ | with_reducible refine optFormed_some.2 ?_ | with_reducible refine Done.then_formed ?_ (fun _ _ => ?_) | with_reducible refine eachDone_formed _ (fun _ _ _ => ?_) _ ?_ | with_reducible refine formed_mk.2 (forms_of_formed ?_))

theorem execSignal_formed (s : State) (hF : Formed s) : OutFormed (execSignal s) := by
  unfold execSignal
  refine outFormed_next.2 ?_
  split
  · exact hF
  · rename_i p _
    split
    · exact stripWalk_formed _ _ _ _ hF
    · rename_i l _
      have h1 : Formed (if natBits (pkWord p.words 4) 52 2 = 1 then countRead s p.lease l 8 else s) := by
        split
        · exact countRead_formed _ _ _ _ hF
        · exact hF
      dsimp only
      generalize (if natBits (pkWord p.words 4) 52 2 = 1 then countRead s p.lease l 8 else s) = t at *
      split
      · exact poisonUsed_formed _ _ h1
      · split
        · exact h1
        · rename_i u e
          exact endPkt_formed _ _ _ _ _ (stripStore_formed _ _ _ _ h1 _ e)

theorem execCopy_formed (s : State) (hF : Formed s) : OutFormed (execCopy s) := by
  unfold execCopy
  refine outFormed_next.2 ?_
  repeat' (first | exact hF | split)

theorem execSealrq_formed (s : State) (hF : Formed s) : OutFormed (execSealrq s) := by
  unfold execSealrq
  refine outFormed_next.2 ?_
  repeat' (first | exact hF | split | with_reducible refine onLease_formed _ _ _ (fun _ _ _ _ => ?_) hF | with_reducible refine answer_formed _ _ _ _ ?_ | (simp [hF]; done))

theorem execMarker_formed (s : State) (hF : Formed s) : OutFormed (execMarker s) := by
  unfold execMarker
  refine outFormed_next.2 ?_
  repeat' (first | exact hF | split | with_reducible refine onLease_formed _ _ _ (fun _ _ _ _ => ?_) hF | with_reducible refine answer_formed _ _ _ _ ?_ | (simp [hF]; done))

@[simp] theorem finishPkt_formed (s : State) (p : Pkt) (hF : Formed s) : OptFormed (finishPkt s p) := by
  have h1 : Formed (if (s.queue p.queue).cRoom then postRecord s p.queue (pktRecord s p) else s) := by
    split
    · exact postRecord_formed _ _ _ hF
    · exact hF
  unfold finishPkt
  dsimp only
  generalize (if (s.queue p.queue).cRoom then postRecord s p.queue (pktRecord s p) else s) = t at *
  split
  · split
    · exact optFormed_none
    · exact optFormed_some.2 (formed_mk.2 (forms_of_formed h1))
  · rename_i l x _
    have h2 := stripStore_formed t l x (natBytes 8 ((2 ^ 64 - p.status) % 2 ^ 64)) h1
    cases h : stripStore t l x (natBytes 8 ((2 ^ 64 - p.status) % 2 ^ 64)) with
    | none => exact optFormed_none
    | some u => exact optFormed_some.2 (formed_mk.2 (forms_of_formed (h2 _ h)))

theorem execComplete_formed (s : State) (hF : Formed s) : OutFormed (execComplete s) := by
  unfold execComplete
  refine outFormed_next.2 ?_
  split
  · exact hF
  · split
    · exact hF
    · exact (finishPkt_formed _ _ hF).getD (csigWalk_formed _ _ hF)

end Sys2Proof.Machine
end

