-- ==== Sys2Proof/Laws/Keep/Placement.lean ====
section
/-! SUPPORT. What Machine/Placement.lean keeps (Safety.lean, Formed). -/

namespace Sys2Proof.Machine

open Sys2Proof.Safety


@[simp] theorem takeIn_formed (s : State) (cid banks : Nat) (hF : Formed s) : Formed (takeIn s cid banks) :=
  State.modCore_formed _ _ (foldl_formed _ (fun _ _ h => flushLine_formed _ _ _ h) _ hF)

@[simp] theorem freezeVictim_formed (s : State) (vt : Nat) (cover : List Nat) (hF : Formed s) : Formed (freezeVictim s vt cover) := by
  unfold freezeVictim
  refine foldl_formed _ (fun t n h => ?_) _ (State.modPatch_formed _ _ (forCores_formed _ _ _
    (fun _ _ h => State.modCore_formed _ _ (closeResidency_formed _ _ _ h)) (discardAll_formed _ _ hF)))
  exact formed_mk.2 (forms_of_formed (takeIn_formed _ _ _ h))

@[simp] theorem takeCores_formed (s : State) (n x y w h : Nat) (host : Option Nat) (hF : Formed s) : Formed (takeCores s n x y w h host) := by
  unfold takeCores
  refine foldl_formed _ (fun _ _ h => ?_) _ hF
  exact State.modCore_formed _ _ h

@[simp] theorem newPatch_formed (s : State) (p : Pkt) (L : Lease) (crc : CWord) (x y : Nat) (loan host : Option Nat) (hF : Formed s) : Formed (newPatch s p L crc x y loan host) := by
  unfold newPatch
  exact foldl_formed _ (fun _ _ h => by simp [h]) _ hF

@[simp] theorem stopVictim_formed (s : State) (p : Pkt) (hF : Formed s) : Formed (stopVictim s p) := by
  unfold stopVictim
  repeat' (first | assumption | with_reducible exact outFormed_next.2 hF | with_reducible refine inOrder_formed _ _ _ _ (fun _ _ => ?_) ?_ | with_reducible refine placerStep_formed _ _ _ _ (fun _ _ => ?_) ?_ | with_reducible refine OptFormed.of_eq ?_ (by assumption) | with_reducible refine DoneFormed.of_eq ?_ (by assumption) | (simp (maxDischargeDepth := 50) [*]; done) | split)

@[simp] theorem visitOwners_formed (owners : List Nat) (n : Nat) : ∀ (s : State), Formed s → Formed (visitOwners owners n s).1 := by
  induction n with
  | zero => intro s hF; exact hF
  | succ n ih =>
    intro s hF
    unfold visitOwners
    split
    · exact hF
    · split
      · exact hF
      · exact ih _ (State.modOwner_formed _ _ (formed_mk.2 (forms_of_formed hF)))

@[simp] theorem dispatcher_formed (s : State) (hF : Formed s) : Formed (dispatcher s).1 := by
  unfold dispatcher
  dsimp only
  split
  · rename_i t e
    have h := congrArg (fun q => q.1) e
    exact h ▸ visitOwners_formed _ _ _ (formed_mk.2 (forms_of_formed hF))
  · rename_i t o e
    have h := congrArg (fun q => q.1) e
    exact h ▸ visitOwners_formed _ _ _ (formed_mk.2 (forms_of_formed hF))

theorem execPriorityAging_formed (s : State) (hF : Formed s) : OutFormed (execPriorityAging s) := by
  unfold execPriorityAging
  refine outFormed_next.2 ?_
  repeat' (first | exact hF | split)

@[simp] theorem dropResidents_formed (s : State) (lease x y w h : Nat) (hF : Formed s) : Formed (dropResidents s lease x y w h) := by
  unfold dropResidents
  exact foldl_formed _ (fun _ _ h => by simp [h]) _ hF

@[simp] theorem toFill_formed (s : State) (p : Pkt) (L : Lease) (crc : CWord) (x y : Nat) (loan host : Option Nat) (borrowed : Nat) (hF : Formed s) : Formed (toFill s p L crc x y loan host borrowed) := by
  unfold toFill
  refine foldl_formed _ (fun _ _ h => ?_) _ (by simp [hF])
  repeat' (first | exact h)

@[simp] theorem toRelaunch_formed (s : State) (p : Pkt) (pt : Nat) (hF : Formed s) : Formed (toRelaunch s p pt) :=
  State.modPkt_formed _ _ (forCores_formed _ _ _ (fun _ _ h => h) (State.modPatch_formed _ _ hF))

@[simp] theorem placeAt_formed (s : State) (p : Pkt) (L : Lease) (crc : CWord) (spot : Spot) (hF : Formed s) : Formed (placeAt s p L crc spot) := by
  unfold placeAt
  repeat' (first | assumption | with_reducible exact outFormed_next.2 hF | with_reducible refine inOrder_formed _ _ _ _ (fun _ _ => ?_) ?_ | with_reducible refine placerStep_formed _ _ _ _ (fun _ _ => ?_) ?_ | with_reducible refine OptFormed.of_eq ?_ (by assumption) | with_reducible refine DoneFormed.of_eq ?_ (by assumption) | (simp (maxDischargeDepth := 50) [*]; done) | split | with_reducible refine State.modCore_formed _ _ ?_ | with_reducible refine foldl_formed _ (fun _ _ _ => ?_) _ ?_ | with_reducible refine doneFormed_ok.2 ?_ | with_reducible refine outFormed_next.2 ?_ | with_reducible refine optFormed_some.2 ?_ | with_reducible refine Done.then_formed ?_ (fun _ _ => ?_) | with_reducible refine eachDone_formed _ (fun _ _ _ => ?_) _ ?_ | with_reducible refine formed_mk.2 (forms_of_formed ?_))

theorem execPlace_formed (s : State) (hF : Formed s) : OutFormed (execPlace s) := by
  unfold execPlace
  refine outFormed_next.2 ?_
  have h1 := dispatcher_formed s hF
  split
  · exact hF
  · split
    · rename_i t e
      rw [e] at h1
      rename_i p _ _
      have h2 : Formed (if pkType p.words = 1 then partsWalk t p.lease (pkAddr p.words) p.hdr else t) := by
        split
        · exact partsWalk_formed _ _ _ _ h1
        · exact h1
      dsimp only
      split
      · exact stopVictim_formed _ _ h2
      · exact h2
    · rename_i t q e
      rw [e] at h1
      split
      · exact hF
      · split
        · exact State.modPkt_formed _ _ h1
        · split
          · exact State.modPkt_formed _ _ (State.modOwner_formed _ _ (placeAt_formed _ _ _ _ _ h1))
          · exact h1

@[simp] theorem argsWalk_formed (s : State) (p : Pkt) (hF : Formed s) : Formed (argsWalk s p) := by
  unfold argsWalk
  split
  · exact hF
  · exact stripWalk_formed _ _ _ _ hF

theorem execFill_formed (s : State) (hF : Formed s) : OutFormed (execFill s) := by
  unfold execFill
  refine outFormed_next.2 ?_
  split
  · exact hF
  · split
    · rename_i p _ _ _ _ q _ _
      split
      · exact hF
      · split
        · exact argsWalk_formed _ _ (partsWalk_formed _ _ _ _ hF)
        · have h1 := loadCharge_formed s p.lease q.obj p.hdr hF
          generalize loadCharge s p.lease q.obj p.hdr = t at *
          dsimp only
          split
          · exact endPkt_formed _ _ _ _ _ (dropPatch_formed _ _ (recordLoad_formed _ _ _ _ _ h1))
          · have h2 := stripCharge_formed t p.lease (pkArgs p.words) (64 * hArgs p.hdr) h1
            split
            · exact poisonUsed_formed _ _ h2
            · exact State.modPkt_formed _ _ (State.modPatch_formed _ _ (writeShadows_formed _ _ _ _ _ h2))
    · exact hF

theorem execPlacerPlace_formed (s : State) (hF : Formed s) : OutFormed (execPlacerPlace s) := by
  unfold execPlacerPlace
  refine outFormed_next.2 ?_
  repeat' (first | exact hF | split | with_reducible refine onLease_formed _ _ _ (fun _ _ _ _ => ?_) hF | with_reducible refine answer_formed _ _ _ _ ?_ | (simp [hF]; done))

@[simp] theorem startPatch_formed (s : State) (p : Pkt) (pt : Nat) (q : Patch) (hF : Formed s) : Formed (startPatch s p pt q) := by
  unfold startPatch
  exact State.modPkt_formed _ _ (enterAll_formed _ _ _ (State.modPatch_formed _ _
    (forCores_formed _ _ _ (fun _ _ h => State.modCore_formed _ _ (advanceGen_formed _ _ h)) hF)))

@[simp] theorem copyNext_formed (s : State) (p : Pkt) (L : Lease) (hF : Formed s) : Formed (copyNext s p L) := by
  unfold copyNext
  repeat' (first | assumption | with_reducible exact outFormed_next.2 hF | with_reducible refine inOrder_formed _ _ _ _ (fun _ _ => ?_) ?_ | with_reducible refine placerStep_formed _ _ _ _ (fun _ _ => ?_) ?_ | with_reducible refine OptFormed.of_eq ?_ (by assumption) | with_reducible refine DoneFormed.of_eq ?_ (by assumption) | (simp (maxDischargeDepth := 50) [*]; done) | split | with_reducible refine State.modCore_formed _ _ ?_ | with_reducible refine foldl_formed _ (fun _ _ _ => ?_) _ ?_ | with_reducible refine doneFormed_ok.2 ?_ | with_reducible refine outFormed_next.2 ?_ | with_reducible refine optFormed_some.2 ?_ | with_reducible refine Done.then_formed ?_ (fun _ _ => ?_) | with_reducible refine eachDone_formed _ (fun _ _ _ => ?_) _ ?_ | with_reducible refine formed_mk.2 (forms_of_formed ?_))

theorem execLaunchStage_formed (s : State) (hF : Formed s) : OutFormed (execLaunchStage s) := by
  unfold execLaunchStage
  refine outFormed_next.2 ?_
  repeat' (first | exact hF | split | with_reducible refine onLease_formed _ _ _ (fun _ _ _ _ => ?_) hF | with_reducible refine answer_formed _ _ _ _ ?_ | (simp [hF]; done))

end Sys2Proof.Machine
end

