-- ==== Sys2Proof/Laws/Keep/Leases.lean ====
section
/-! SUPPORT. What Machine/Leases.lean keeps (Safety.lean, Formed). -/

namespace Sys2Proof.Machine

open Sys2Proof.Safety


@[simp] theorem refusePkt_formed (s : State) (p : Pkt) (status field : Nat) (hF : Formed s) : Formed (refusePkt s p status field) := by
  unfold refusePkt
  repeat' (first | assumption | with_reducible exact outFormed_next.2 hF | with_reducible refine inOrder_formed _ _ _ _ (fun _ _ => ?_) ?_ | with_reducible refine placerStep_formed _ _ _ _ (fun _ _ => ?_) ?_ | with_reducible refine OptFormed.of_eq ?_ (by assumption) | with_reducible refine DoneFormed.of_eq ?_ (by assumption) | (simp (maxDischargeDepth := 50) [*]; done) | split)

@[simp] theorem leaseWaits_formed (s : State) (p : Pkt) (hF : Formed s) : Formed (leaseWaits s p) := by
  unfold leaseWaits
  assumption

theorem execLeaseRequest_formed (s : State) (hF : Formed s) : OutFormed (execLeaseRequest s) := by
  unfold execLeaseRequest
  repeat' (first | assumption | with_reducible exact outFormed_next.2 hF | with_reducible refine inOrder_formed _ _ _ _ (fun _ _ => ?_) ?_ | with_reducible refine placerStep_formed _ _ _ _ (fun _ _ => ?_) ?_ | with_reducible refine OptFormed.of_eq ?_ (by assumption) | with_reducible refine DoneFormed.of_eq ?_ (by assumption) | (simp (maxDischargeDepth := 50) [*]; done) | split | with_reducible refine State.modCore_formed _ _ ?_ | with_reducible refine foldl_formed _ (fun _ _ _ => ?_) _ ?_ | with_reducible refine doneFormed_ok.2 ?_ | with_reducible refine outFormed_next.2 ?_ | with_reducible refine optFormed_some.2 ?_ | with_reducible refine Done.then_formed ?_ (fun _ _ => ?_) | with_reducible refine eachDone_formed _ (fun _ _ _ => ?_) _ ?_ | with_reducible refine formed_mk.2 (forms_of_formed ?_))

@[simp] theorem moveOff_formed (s : State) (L : Lease) (e : Nat × Patch) (hF : Formed s) : Formed (moveOff s L e) := by
  unfold moveOff
  repeat' (first | assumption | with_reducible exact outFormed_next.2 hF | with_reducible refine inOrder_formed _ _ _ _ (fun _ _ => ?_) ?_ | with_reducible refine placerStep_formed _ _ _ _ (fun _ _ => ?_) ?_ | with_reducible refine OptFormed.of_eq ?_ (by assumption) | with_reducible refine DoneFormed.of_eq ?_ (by assumption) | (simp (maxDischargeDepth := 50) [*]; done) | split)

@[simp] theorem resized_formed (s : State) (p : Pkt) (l x y w h : Nat) (L : Lease) (cs : List Nat) (hF : Formed s) : Formed (resized s p l x y w h L cs) := by
  unfold resized
  assumption

theorem execLeaseResize_formed (s : State) (hF : Formed s) : OutFormed (execLeaseResize s) := by
  unfold execLeaseResize
  refine outFormed_next.2 ?_
  split
  · dsimp only
    repeat' (first | exact hF | exact refusePkt_formed _ _ _ _ hF | refine placerStep_formed _ _ _ _ (fun t ht => ?_) hF | split)
    all_goals
      refine (?_ : Formed _)
      first
        | refine resized_formed _ _ _ _ _ _ _ _ _ (foldl_formed _ (fun u e h => ?_) _ ‹_›)
        | refine foldl_formed _ (fun u e h => ?_) _ ‹_›
      split
      · exact dropPatch_formed _ _ h
      · exact moveOff_formed _ _ _ h
  · exact hF

theorem execLeaseLend_formed (s : State) (hF : Formed s) : OutFormed (execLeaseLend s) := by
  unfold execLeaseLend
  refine outFormed_next.2 ?_
  split
  · dsimp only
    split
    · exact hF
    · split
      · exact refusePkt_formed _ _ _ _ hF
      · exact endPkt_formed _ _ _ _ _ (State.modLease_formed _ _ (formed_mk.2 (forms_of_formed
          (foldl_formed _ (fun _ _ h => rinseCore_formed _ _ _ h) _ hF))))
  · exact hF

@[simp] theorem vacate_formed (key : Instr × Nat) (s : State) (e : Nat × Patch) (hF : Formed s) : Formed (vacate key s e) := by
  unfold vacate
  repeat' (first | assumption | with_reducible exact outFormed_next.2 hF | with_reducible refine inOrder_formed _ _ _ _ (fun _ _ => ?_) ?_ | with_reducible refine placerStep_formed _ _ _ _ (fun _ _ => ?_) ?_ | with_reducible refine OptFormed.of_eq ?_ (by assumption) | with_reducible refine DoneFormed.of_eq ?_ (by assumption) | (simp (maxDischargeDepth := 50) [*]; done) | split)

@[simp] theorem vacateLoan_formed (s : State) (key : Instr × Nat) (l num : Nat) (hF : Formed s) : Formed (vacateLoan s key l num) := by
  unfold vacateLoan
  exact foldl_formed _ (fun _ _ h => by simp [h]) _ hF

@[simp] theorem endLoan_formed (s : State) (l : Nat) (n : Loan) (hF : Formed s) : Formed (endLoan s l n) :=
  State.modLease_formed _ _ (foldl_formed _ (fun _ _ h => rinseCore_formed _ _ _ h) _ hF)

@[simp] theorem recallAll_formed (s : State) (key : Instr × Nat) (l : Nat) (L : Lease) (hF : Formed s) : Formed (recallAll s key l L) :=
  foldl_formed _ (fun u n h => by
    have h3 := vacateLoan_formed u key l n.num h
    dsimp only
    split
    · exact h3
    · exact endLoan_formed _ _ _ h3) _ hF

theorem execLeaseRecall_formed (s : State) (hF : Formed s) : OutFormed (execLeaseRecall s) := by
  unfold execLeaseRecall
  repeat' (first | assumption | with_reducible exact outFormed_next.2 hF | with_reducible refine inOrder_formed _ _ _ _ (fun _ _ => ?_) ?_ | with_reducible refine placerStep_formed _ _ _ _ (fun _ _ => ?_) ?_ | with_reducible refine OptFormed.of_eq ?_ (by assumption) | with_reducible refine DoneFormed.of_eq ?_ (by assumption) | (simp (maxDischargeDepth := 50) [*]; done) | split | with_reducible refine State.modCore_formed _ _ ?_ | with_reducible refine foldl_formed _ (fun _ _ _ => ?_) _ ?_ | with_reducible refine doneFormed_ok.2 ?_ | with_reducible refine outFormed_next.2 ?_ | with_reducible refine optFormed_some.2 ?_ | with_reducible refine Done.then_formed ?_ (fun _ _ => ?_) | with_reducible refine eachDone_formed _ (fun _ _ _ => ?_) _ ?_ | with_reducible refine formed_mk.2 (forms_of_formed ?_))

@[simp] theorem abortPkt_formed (s : State) (p : Pkt) (hF : Formed s) : Formed (abortPkt s p) := by
  unfold abortPkt
  repeat' (first | assumption | with_reducible exact outFormed_next.2 hF | with_reducible refine inOrder_formed _ _ _ _ (fun _ _ => ?_) ?_ | with_reducible refine placerStep_formed _ _ _ _ (fun _ _ => ?_) ?_ | with_reducible refine OptFormed.of_eq ?_ (by assumption) | with_reducible refine DoneFormed.of_eq ?_ (by assumption) | (simp (maxDischargeDepth := 50) [*]; done) | split)

@[simp] theorem abortLease_formed (s : State) (l : Nat) (but : Nat) (hF : Formed s) : Formed (abortLease s l but) := by
  unfold abortLease
  repeat' (first | assumption | with_reducible exact outFormed_next.2 hF | with_reducible refine inOrder_formed _ _ _ _ (fun _ _ => ?_) ?_ | with_reducible refine placerStep_formed _ _ _ _ (fun _ _ => ?_) ?_ | with_reducible refine OptFormed.of_eq ?_ (by assumption) | with_reducible refine DoneFormed.of_eq ?_ (by assumption) | (simp (maxDischargeDepth := 50) [*]; done) | split | with_reducible refine State.modCore_formed _ _ ?_ | with_reducible refine foldl_formed _ (fun _ _ _ => ?_) _ ?_)

theorem execLeaseRelease_formed (s : State) (hF : Formed s) : OutFormed (execLeaseRelease s) := by
  unfold execLeaseRelease
  refine outFormed_next.2 ?_
  split
  · rename_i p L _ _
    have h1 : Formed (if L.st = .releasing then s else
        (abortLease s (pkIdent p.words) p.num).modLease (pkIdent p.words) fun L => { L with st := .releasing }) := by
      split
      · exact hF
      · exact State.modLease_formed _ _ (abortLease_formed _ _ _ hF)
    have h2 := recallAll_formed _ (.leaseRelease, p.num + 1) (pkIdent p.words) L h1
    dsimp only
    generalize recallAll _ _ _ _ = u at *
    split
    · split
      · exact leaseWaits_formed _ _ (State.modLease_formed _ _ h2)
      · exact h2
    · exact h2
  · exact hF

@[simp] theorem zeroLines_formed (s : State) (L : Lease) (ls : List Nat) (hF : Formed s) : Formed (zeroLines s L ls) := by
  unfold zeroLines
  exact foldl_formed _ (fun _ _ h => devWrite_formed _ _ _ _ _ h) _ hF

theorem execRinse_formed (lease : Nat) (s : State) (hF : Formed s) : OutFormed (execRinse lease s) := by
  unfold execRinse
  refine outFormed_next.2 ?_
  split
  · exact hF
  · dsimp only
    split
    · exact hF
    · split
      · exact hF
      · exact State.modLease_formed _ _ (zeroLines_formed _ _ _ (foldl_formed _ (fun _ _ h => rinseCore_formed _ _ _ h) _ hF))

theorem execRinseDone_formed (lease : Nat) (s : State) (hF : Formed s) : OutFormed (execRinseDone lease s) := by
  unfold execRinseDone
  refine outFormed_next.2 ?_
  repeat' (first | exact hF | split | with_reducible refine onLease_formed _ _ _ (fun _ _ _ _ => ?_) hF | with_reducible refine answer_formed _ _ _ _ ?_ | (simp [hF]; done))

end Sys2Proof.Machine
end

