-- ==== Sys2Proof/Laws/Keep/Placer.lean ====
section
/-! SUPPORT. What Machine/Placer.lean keeps (Safety.lean, Formed). -/

namespace Sys2Proof.Machine

open Sys2Proof.Safety


theorem execMove_formed (pt x y : Nat) (s : State) (hF : Formed s) : OutFormed (execMove pt x y s) := by
  unfold execMove
  repeat' (first | assumption | with_reducible exact outFormed_next.2 hF | with_reducible refine inOrder_formed _ _ _ _ (fun _ _ => ?_) ?_ | with_reducible refine placerStep_formed _ _ _ _ (fun _ _ => ?_) ?_ | with_reducible refine OptFormed.of_eq ?_ (by assumption) | with_reducible refine DoneFormed.of_eq ?_ (by assumption) | (simp (maxDischargeDepth := 50) [*]; done) | split | with_reducible refine State.modCore_formed _ _ ?_ | with_reducible refine foldl_formed _ (fun _ _ _ => ?_) _ ?_ | with_reducible refine doneFormed_ok.2 ?_ | with_reducible refine outFormed_next.2 ?_)

theorem execEvict_formed (pt : Nat) (s : State) (hF : Formed s) : OutFormed (execEvict pt s) := by
  unfold execEvict
  repeat' (first | assumption | with_reducible exact outFormed_next.2 hF | with_reducible refine inOrder_formed _ _ _ _ (fun _ _ => ?_) ?_ | with_reducible refine placerStep_formed _ _ _ _ (fun _ _ => ?_) ?_ | with_reducible refine OptFormed.of_eq ?_ (by assumption) | with_reducible refine DoneFormed.of_eq ?_ (by assumption) | (simp (maxDischargeDepth := 50) [*]; done) | split | with_reducible refine State.modCore_formed _ _ ?_ | with_reducible refine foldl_formed _ (fun _ _ _ => ?_) _ ?_ | with_reducible refine doneFormed_ok.2 ?_ | with_reducible refine outFormed_next.2 ?_)

theorem execRestore_formed (pt x y : Nat) (s : State) (hF : Formed s) : OutFormed (execRestore pt x y s) := by
  unfold execRestore
  refine outFormed_next.2 ?_
  repeat' (first | exact hF | split | with_reducible refine onLease_formed _ _ _ (fun _ _ _ _ => ?_) hF | with_reducible refine answer_formed _ _ _ _ ?_ | (simp [hF]; done))

@[simp] theorem pressDown_formed (olds : Table Lease) (xs : List ((Nat × Patch) × (Nat × Nat × Option Nat) × KObj × Table Core)) :
    ∀ (s : State), Formed s → Formed (pressDown olds xs s) := by
  induction xs with
  | nil => intro s hF; exact hF
  | cons x xs ih =>
    intro s hF
    obtain ⟨e, q, o, imgs⟩ := x
    unfold pressDown
    refine ih _ (setDown_formed _ _ _ _ _ _ _ _ ?_)
    split
    · exact rebind_formed _ _ _ _ _ _ _ _ hF
    · exact hF

@[simp] theorem doPress_formed (moves : List PressMove) (ps : List (Nat × Patch)) (s : State) (hF : Formed s) :
    Formed (doPress moves ps s) := by
  unfold doPress
  split
  · exact raiseCore_formed _ _ _ _ _ _ hF
  · have h1 := foldl_formed (fun s (e : Nat × Patch) => stopForPlacer s e.1) (fun _ _ h => stopForPlacer_formed _ _ h) ps hF
    dsimp only
    generalize ps.foldl (fun s (e : Nat × Patch) => stopForPlacer s e.1) s = t at *
    have h2 := foldl_formed (fun s (e : Nat × Patch) => loadCharge s e.2.lease e.2.obj e.2.hdr)
      (fun _ _ h => loadCharge_formed _ _ _ _ h) ps h1
    generalize ps.foldl (fun s (e : Nat × Patch) => loadCharge s e.2.lease e.2.obj e.2.hdr) t = u at *
    split
    · exact recordLoad_formed _ _ _ _ _ h2
    · have h3 := foldl_formed (fun s (e : Nat × Patch) => forCores s e.1 fun s cid => rinseCore s cid e.2.lease)
        (fun _ _ h => forCores_formed _ _ _ (fun _ _ h => rinseCore_formed _ _ _ h) h) ps h2
      exact pressDown_formed _ _ _ (formed_mk.2 (forms_of_formed h3))

theorem execPress_formed (moves : List PressMove) (s : State) (hF : Formed s) : OutFormed (execPress moves s) := by
  unfold execPress
  refine outFormed_next.2 ?_
  split
  · exact placerStep_formed _ _ _ _ (fun _ h => doPress_formed _ _ _ h) hF
  · exact giveUp_formed _ _ (foldl_formed _ (fun _ _ h => partsWalk_formed _ _ _ _ h) _ hF)

@[simp] theorem losePos_formed (s : State) (cid lease : Nat) (hF : Formed s) : Formed (losePos s cid lease) := by
  unfold losePos
  repeat' (first | assumption | with_reducible exact outFormed_next.2 hF | with_reducible refine inOrder_formed _ _ _ _ (fun _ _ => ?_) ?_ | with_reducible refine placerStep_formed _ _ _ _ (fun _ _ => ?_) ?_ | with_reducible refine OptFormed.of_eq ?_ (by assumption) | with_reducible refine DoneFormed.of_eq ?_ (by assumption) | (simp (maxDischargeDepth := 50) [*]; done))

@[simp] theorem withdraw_formed (s : State) (cid : Nat) (hF : Formed s) : Formed (withdraw s cid) := by
  unfold withdraw
  repeat' (first | assumption | with_reducible exact outFormed_next.2 hF | with_reducible refine inOrder_formed _ _ _ _ (fun _ _ => ?_) ?_ | with_reducible refine placerStep_formed _ _ _ _ (fun _ _ => ?_) ?_ | with_reducible refine OptFormed.of_eq ?_ (by assumption) | with_reducible refine DoneFormed.of_eq ?_ (by assumption) | (simp (maxDischargeDepth := 50) [*]; done) | split | with_reducible refine State.modCore_formed _ _ ?_ | with_reducible refine foldl_formed _ (fun _ _ _ => ?_) _ ?_ | with_reducible refine doneFormed_ok.2 ?_ | with_reducible refine outFormed_next.2 ?_ | with_reducible refine optFormed_some.2 ?_ | with_reducible refine Done.then_formed ?_ (fun _ _ => ?_) | with_reducible refine eachDone_formed _ (fun _ _ _ => ?_) _ ?_ | with_reducible refine formed_mk.2 (forms_of_formed ?_))

@[simp] theorem darnPos_formed (s : State) (cl pos cid : Nat) (hF : Formed s) : Formed (darnPos s cl pos cid) := by
  unfold darnPos
  repeat' (first | assumption | with_reducible exact outFormed_next.2 hF | with_reducible refine inOrder_formed _ _ _ _ (fun _ _ => ?_) ?_ | with_reducible refine placerStep_formed _ _ _ _ (fun _ _ => ?_) ?_ | with_reducible refine OptFormed.of_eq ?_ (by assumption) | with_reducible refine DoneFormed.of_eq ?_ (by assumption) | (simp (maxDischargeDepth := 50) [*]; done) | split | with_reducible refine State.modCore_formed _ _ ?_ | with_reducible refine foldl_formed _ (fun _ _ _ => ?_) _ ?_ | with_reducible refine doneFormed_ok.2 ?_ | with_reducible refine outFormed_next.2 ?_ | with_reducible refine optFormed_some.2 ?_ | with_reducible refine Done.then_formed ?_ (fun _ _ => ?_) | with_reducible refine eachDone_formed _ (fun _ _ _ => ?_) _ ?_ | with_reducible refine formed_mk.2 (forms_of_formed ?_))

theorem execDarn_formed (cl pos : Nat) (s : State) (hF : Formed s) : OutFormed (execDarn cl pos s) := by
  unfold execDarn
  repeat' (first | assumption | with_reducible exact outFormed_next.2 hF | with_reducible refine inOrder_formed _ _ _ _ (fun _ _ => ?_) ?_ | with_reducible refine placerStep_formed _ _ _ _ (fun _ _ => ?_) ?_ | with_reducible refine OptFormed.of_eq ?_ (by assumption) | with_reducible refine DoneFormed.of_eq ?_ (by assumption) | (simp (maxDischargeDepth := 50) [*]; done) | split | with_reducible refine State.modCore_formed _ _ ?_ | with_reducible refine foldl_formed _ (fun _ _ _ => ?_) _ ?_ | with_reducible refine doneFormed_ok.2 ?_ | with_reducible refine outFormed_next.2 ?_)

@[simp] theorem abortAll_formed (s : State) (hF : Formed s) : Formed (abortAll s) := by
  unfold abortAll
  repeat' (first | assumption | with_reducible exact outFormed_next.2 hF | with_reducible refine inOrder_formed _ _ _ _ (fun _ _ => ?_) ?_ | with_reducible refine placerStep_formed _ _ _ _ (fun _ _ => ?_) ?_ | with_reducible refine OptFormed.of_eq ?_ (by assumption) | with_reducible refine DoneFormed.of_eq ?_ (by assumption) | (simp (maxDischargeDepth := 50) [*]; done) | split | with_reducible refine State.modCore_formed _ _ ?_ | with_reducible refine foldl_formed _ (fun _ _ _ => ?_) _ ?_)

@[simp] theorem stripTakes_formed (s : State) (y : Nat) (hF : Formed s) : Formed (stripTakes s y) := by
  unfold stripTakes
  assumption

theorem execStripCoreFailure_formed (y : Nat) (s : State) (hF : Formed s) : OutFormed (execStripCoreFailure y s) := by
  unfold execStripCoreFailure
  repeat' (first | assumption | with_reducible exact outFormed_next.2 hF | with_reducible refine inOrder_formed _ _ _ _ (fun _ _ => ?_) ?_ | with_reducible refine placerStep_formed _ _ _ _ (fun _ _ => ?_) ?_ | with_reducible refine OptFormed.of_eq ?_ (by assumption) | with_reducible refine DoneFormed.of_eq ?_ (by assumption) | (simp (maxDischargeDepth := 50) [*]; done) | split | with_reducible refine State.modCore_formed _ _ ?_ | with_reducible refine foldl_formed _ (fun _ _ _ => ?_) _ ?_ | with_reducible refine doneFormed_ok.2 ?_ | with_reducible refine outFormed_next.2 ?_ | with_reducible refine optFormed_some.2 ?_ | with_reducible refine Done.then_formed ?_ (fun _ _ => ?_) | with_reducible refine eachDone_formed _ (fun _ _ _ => ?_) _ ?_ | with_reducible refine formed_mk.2 (forms_of_formed ?_))

@[simp] theorem resumeVictim_formed (s : State) (pt : Nat) (hF : Formed s) : Formed (resumeVictim s pt) := by
  unfold resumeVictim
  refine State.modPatch_formed _ _ (forCores_formed _ _ _ (fun _ _ h => State.modCore_formed _ _ h)
    (formed_mk.2 (forms_of_formed (foldl_formed _ (fun t e h => ?_) _ hF))))
  exact takeIn_formed _ _ _ (State.setCore_formed _ _ h)

theorem execPreemptResume_formed (pt : Nat) (s : State) (hF : Formed s) : OutFormed (execPreemptResume pt s) := by
  unfold execPreemptResume
  repeat' (first | assumption | with_reducible exact outFormed_next.2 hF | with_reducible refine inOrder_formed _ _ _ _ (fun _ _ => ?_) ?_ | with_reducible refine placerStep_formed _ _ _ _ (fun _ _ => ?_) ?_ | with_reducible refine OptFormed.of_eq ?_ (by assumption) | with_reducible refine DoneFormed.of_eq ?_ (by assumption) | (simp (maxDischargeDepth := 50) [*]; done) | split | with_reducible refine State.modCore_formed _ _ ?_ | with_reducible refine foldl_formed _ (fun _ _ _ => ?_) _ ?_ | with_reducible refine doneFormed_ok.2 ?_ | with_reducible refine outFormed_next.2 ?_ | with_reducible refine optFormed_some.2 ?_ | with_reducible refine Done.then_formed ?_ (fun _ _ => ?_) | with_reducible refine eachDone_formed _ (fun _ _ _ => ?_) _ ?_ | with_reducible refine formed_mk.2 (forms_of_formed ?_))

@[simp] theorem switchOut_formed (s : State) (vf : Nat) (hF : Formed s) : Formed (switchOut s vf) := by
  have h := foldl_formed (fun s (e : Nat × Patch) => if e.2.st = .loaded then backToPlace s e.1 e.2.pk else evictPatch s e.1 e.2 false)
    (fun t e h => by
      split
      · exact backToPlace_formed _ _ _ h
      · exact evictPatch_formed _ _ _ _ h) (vfPatches s vf) hF
  unfold switchOut
  dsimp only
  generalize List.foldl _ s (vfPatches s vf) = t at *
  split
  · exact State.modFn_formed _ _ h
  · exact h

@[simp] theorem switchIn_formed (s : State) (vf : Nat) (hF : Formed s) : Formed (switchIn s vf) := by
  unfold switchIn
  repeat' (first | assumption | with_reducible exact outFormed_next.2 hF | with_reducible refine inOrder_formed _ _ _ _ (fun _ _ => ?_) ?_ | with_reducible refine placerStep_formed _ _ _ _ (fun _ _ => ?_) ?_ | with_reducible refine OptFormed.of_eq ?_ (by assumption) | with_reducible refine DoneFormed.of_eq ?_ (by assumption) | (simp (maxDischargeDepth := 50) [*]; done) | split | with_reducible refine State.modCore_formed _ _ ?_ | with_reducible refine foldl_formed _ (fun _ _ _ => ?_) _ ?_)

theorem execWorldSwitch_formed (vfOut vfIn : Nat) (s : State) (hF : Formed s) : OutFormed (execWorldSwitch vfOut vfIn s) := by
  unfold execWorldSwitch
  repeat' (first | assumption | with_reducible exact outFormed_next.2 hF | with_reducible refine inOrder_formed _ _ _ _ (fun _ _ => ?_) ?_ | with_reducible refine placerStep_formed _ _ _ _ (fun _ _ => ?_) ?_ | with_reducible refine OptFormed.of_eq ?_ (by assumption) | with_reducible refine DoneFormed.of_eq ?_ (by assumption) | (simp (maxDischargeDepth := 50) [*]; done) | split | with_reducible refine State.modCore_formed _ _ ?_ | with_reducible refine foldl_formed _ (fun _ _ _ => ?_) _ ?_ | with_reducible refine doneFormed_ok.2 ?_ | with_reducible refine outFormed_next.2 ?_ | with_reducible refine optFormed_some.2 ?_ | with_reducible refine Done.then_formed ?_ (fun _ _ => ?_) | with_reducible refine eachDone_formed _ (fun _ _ _ => ?_) _ ?_ | with_reducible refine formed_mk.2 (forms_of_formed ?_))

end Sys2Proof.Machine
end

