-- ==== Sys2Proof/Laws/Keep/Seal.lean ====
section
/-! SUPPORT. What Machine/Seal.lean keeps (Safety.lean, Formed). -/

namespace Sys2Proof.Machine

open Sys2Proof.Safety


@[simp] theorem gotMsg_formed (s : State) (ty : Nat) (hF : Formed s) : Formed (gotMsg s ty) := by
  unfold gotMsg
  repeat' (first | assumption | with_reducible exact outFormed_next.2 hF | with_reducible refine inOrder_formed _ _ _ _ (fun _ _ => ?_) ?_ | with_reducible refine placerStep_formed _ _ _ _ (fun _ _ => ?_) ?_ | with_reducible refine OptFormed.of_eq ?_ (by assumption) | with_reducible refine DoneFormed.of_eq ?_ (by assumption) | (simp (maxDischargeDepth := 50) [*]; done) | split)

@[simp] theorem takeDue_formed (s : State) (ty : Nat) (hF : Formed s) : Formed (takeDue s ty) := by
  unfold takeDue
  assumption

@[simp] theorem setTimer_formed (s : State) (hF : Formed s) : Formed (setTimer s) := by
  unfold setTimer
  repeat' (first | assumption | with_reducible exact outFormed_next.2 hF | with_reducible refine inOrder_formed _ _ _ _ (fun _ _ => ?_) ?_ | with_reducible refine placerStep_formed _ _ _ _ (fun _ _ => ?_) ?_ | with_reducible refine OptFormed.of_eq ?_ (by assumption) | with_reducible refine DoneFormed.of_eq ?_ (by assumption) | (simp (maxDischargeDepth := 50) [*]; done) | split)

theorem execIntervalTimer_formed (s : State) (hF : Formed s) : OutFormed (execIntervalTimer s) := by
  unfold execIntervalTimer
  repeat' (first | assumption | with_reducible exact outFormed_next.2 hF | with_reducible refine inOrder_formed _ _ _ _ (fun _ _ => ?_) ?_ | with_reducible refine placerStep_formed _ _ _ _ (fun _ _ => ?_) ?_ | with_reducible refine OptFormed.of_eq ?_ (by assumption) | with_reducible refine DoneFormed.of_eq ?_ (by assumption) | (simp (maxDischargeDepth := 50) [*]; done) | split | with_reducible refine State.modCore_formed _ _ ?_ | with_reducible refine foldl_formed _ (fun _ _ _ => ?_) _ ?_ | with_reducible refine doneFormed_ok.2 ?_ | with_reducible refine outFormed_next.2 ?_ | with_reducible refine optFormed_some.2 ?_ | with_reducible refine Done.then_formed ?_ (fun _ _ => ?_) | with_reducible refine eachDone_formed _ (fun _ _ _ => ?_) _ ?_ | with_reducible refine formed_mk.2 (forms_of_formed ?_))

theorem execSealRequest_formed (s : State) (hF : Formed s) : OutFormed (execSealRequest s) := by
  unfold execSealRequest
  repeat' (first | assumption | with_reducible exact outFormed_next.2 hF | with_reducible refine inOrder_formed _ _ _ _ (fun _ _ => ?_) ?_ | with_reducible refine placerStep_formed _ _ _ _ (fun _ _ => ?_) ?_ | with_reducible refine OptFormed.of_eq ?_ (by assumption) | with_reducible refine DoneFormed.of_eq ?_ (by assumption) | (simp (maxDischargeDepth := 50) [*]; done) | split | with_reducible refine State.modCore_formed _ _ ?_ | with_reducible refine foldl_formed _ (fun _ _ _ => ?_) _ ?_ | with_reducible refine doneFormed_ok.2 ?_ | with_reducible refine outFormed_next.2 ?_ | with_reducible refine optFormed_some.2 ?_ | with_reducible refine Done.then_formed ?_ (fun _ _ => ?_) | with_reducible refine eachDone_formed _ (fun _ _ _ => ?_) _ ?_ | with_reducible refine formed_mk.2 (forms_of_formed ?_))

@[simp] theorem savePatch_formed (n : Rin) (s : State) (e : Nat × Patch) (hF : Formed s) : Formed (savePatch n s e) := by
  unfold savePatch
  dsimp only
  split
  · exact raiseCore_formed _ _ _ _ _ _ hF
  · have h := forCores_formed _ e.1 (fun s cid => s.modCore cid savedImage) (fun _ _ h => State.modCore_formed _ _ h)
      (foldl_formed (fun s w => putVa s stripCid e.2.lease (hSaveVa e.2.hdr + w.1) w.2 n)
        (fun _ _ h => putVa_formed _ _ _ _ _ _ h) (saveWrites s e.2 (saveImages s e)) hF)
    generalize forCores _ e.1 _ = t at *
    have h2 := State.modPatch_formed e.1 (fun p =>
      { p with saveRin := if hClassS p.hdr then n else p.saveRin, st := if p.st = .saving then p.was else p.st, saveDue := none })
      (formed_mk.2 (forms_of_formed h) : Formed { t with
        victims := tmap (fun _ v => if v.patch = some e.1 then savedImage v else v) t.victims,
        images := tmap (fun k i => if k = e.1 then { i with cores := tmap (fun _ c => savedImage c) i.cores } else i) t.images })
    split
    · exact h2
    · exact formed_mk.2 (forms_of_formed h2)

@[simp] theorem freezeSave_formed (n : Rin) (s : State) (e : Nat × Patch) (hF : Formed s) : Formed (freezeSave n s e) := by
  have h1 : Formed (if e.2.st = .running then stopForPlacer s e.1 else s) := by
    split
    · exact stopForPlacer_formed _ _ hF
    · exact hF
  unfold freezeSave
  generalize (if e.2.st = .running then stopForPlacer s e.1 else s) = t at *
  dsimp only
  split
  · exact State.modPatch_formed _ _ (countStall_formed _ _ h1)
  · exact savePatch_formed _ _ _ h1

@[simp] theorem advanceCores_formed (s : State) (r : Rin) (hF : Formed s) : Formed (advanceCores s r) := by
  unfold advanceCores
  assumption

@[simp] theorem saveMore_formed (s : State) (hF : Formed s) : Formed (saveMore s) := by
  unfold saveMore
  refine foldl_formed _ (fun t e h => ?_) _ hF
  split
  · split
    · exact h
    · exact advanceCores_formed _ _ (savePatch_formed _ _ _ h)
  · exact h

@[simp] theorem sendMarks_formed (s : State) (n : Rin) (hF : Formed s) : Formed (sendMarks s n) := by
  unfold sendMarks
  exact foldl_formed _ (fun _ _ h => formed_mk.2 (forms_of_formed h)) _ hF

@[simp] theorem sweptTags_formed (s : State) (hF : Formed s) : Formed (sweptTags s) := formed_mk.2 (forms_of_formed hF)

@[simp] theorem beginInterval_formed (s : State) (n m : Rin) (hF : Formed s) : Formed (beginInterval s n m) := by
  have h1 := foldl_formed (freezeSave n) (fun _ _ h => freezeSave_formed _ _ _ h) (toSave s) hF
  unfold beginInterval
  generalize (toSave s).foldl (freezeSave n) s = t at *
  have h2 := sendMarks_formed _ n (advanceCores_formed _ m (formed_mk.2 (forms_of_formed h1) : Formed { t with snaps := stripSnap t n :: t.snaps }))
  dsimp only
  generalize sendMarks _ n = u at *
  exact sweptTags_formed _ (formed_mk.2 (forms_of_formed h2))

@[simp] theorem resumeAll_formed (s : State) (hF : Formed s) : Formed (resumeAll s) := by
  unfold resumeAll
  assumption

theorem execAdvance_formed (s : State) (hF : Formed s) : OutFormed (execAdvance s) := by
  unfold execAdvance
  repeat' (first | assumption | with_reducible exact outFormed_next.2 hF | with_reducible refine inOrder_formed _ _ _ _ (fun _ _ => ?_) ?_ | with_reducible refine placerStep_formed _ _ _ _ (fun _ _ => ?_) ?_ | with_reducible refine OptFormed.of_eq ?_ (by assumption) | with_reducible refine DoneFormed.of_eq ?_ (by assumption) | (simp (maxDischargeDepth := 50) [*]; done) | split | with_reducible refine State.modCore_formed _ _ ?_ | with_reducible refine foldl_formed _ (fun _ _ _ => ?_) _ ?_ | with_reducible refine doneFormed_ok.2 ?_ | with_reducible refine outFormed_next.2 ?_ | with_reducible refine optFormed_some.2 ?_ | with_reducible refine Done.then_formed ?_ (fun _ _ => ?_) | with_reducible refine eachDone_formed _ (fun _ _ _ => ?_) _ ?_ | with_reducible refine formed_mk.2 (forms_of_formed ?_))

theorem execSealMark_formed (port : Nat) (n : Rin) (s : State) (hF : Formed s) : OutFormed (execSealMark port n s) := by
  unfold execSealMark
  refine outFormed_next.2 ?_
  repeat' (first | exact hF | split)

@[simp] theorem sealLines_formed (n : Rin) (xs : List CLine) : ∀ (r : State × List CLine), Formed r.1 → Formed (sealLines n xs r).1 := by
  induction xs with
  | nil => intro r hF; exact hF
  | cons x xs ih =>
    intro r hF
    obtain ⟨s, out⟩ := r
    unfold sealLines
    split
    · exact ih _ hF
    · split
      · exact ih _ hF
      · exact ih _ (lineOut_formed _ _ hF)

@[simp] theorem sealCore_formed (n : Rin) (s : State) (c : Core) (hF : Formed s) : Formed (sealCore n s c).1 :=
  sealLines_formed n c.cache (s, []) hF

@[simp] theorem drainForReady_formed (s : State) (n : Rin) (hF : Formed s) : Formed (drainForReady s n) := by
  unfold drainForReady
  refine foldl_formed _ (fun t e h => ?_) _ (foldl_formed _ (fun t e h => ?_) _ hF)
  · exact formed_mk.2 (forms_of_formed (sealCore_formed n t e.2 h))
  · exact State.setCore_formed _ _ (sealCore_formed n t e.2 h)

theorem execReady_formed (s : State) (hF : Formed s) : OutFormed (execReady s) := by
  unfold execReady
  repeat' (first | assumption | with_reducible exact outFormed_next.2 hF | with_reducible refine inOrder_formed _ _ _ _ (fun _ _ => ?_) ?_ | with_reducible refine placerStep_formed _ _ _ _ (fun _ _ => ?_) ?_ | with_reducible refine OptFormed.of_eq ?_ (by assumption) | with_reducible refine DoneFormed.of_eq ?_ (by assumption) | (simp (maxDischargeDepth := 50) [*]; done) | split | with_reducible refine State.modCore_formed _ _ ?_ | with_reducible refine foldl_formed _ (fun _ _ _ => ?_) _ ?_ | with_reducible refine doneFormed_ok.2 ?_ | with_reducible refine outFormed_next.2 ?_ | with_reducible refine optFormed_some.2 ?_ | with_reducible refine Done.then_formed ?_ (fun _ _ => ?_) | with_reducible refine eachDone_formed _ (fun _ _ _ => ?_) _ ?_ | with_reducible refine formed_mk.2 (forms_of_formed ?_))

@[simp] theorem releaseUndo_formed (s : State) (n : Rin) (hF : Formed s) : Formed (releaseUndo s n) := by
  unfold releaseUndo
  assumption

@[simp] theorem postEscape_formed (s : State) (e : Escape) (hF : Formed s) : Formed (postEscape s e) := by
  unfold postEscape
  repeat' (first | assumption | with_reducible exact outFormed_next.2 hF | with_reducible refine inOrder_formed _ _ _ _ (fun _ _ => ?_) ?_ | with_reducible refine placerStep_formed _ _ _ _ (fun _ _ => ?_) ?_ | with_reducible refine OptFormed.of_eq ?_ (by assumption) | with_reducible refine DoneFormed.of_eq ?_ (by assumption) | (simp (maxDischargeDepth := 50) [*]; done) | split)

@[simp] theorem releaseEscapes_formed (s : State) (n : Rin) (hF : Formed s) : Formed (releaseEscapes s n) := by
  unfold releaseEscapes
  exact foldl_formed _ (fun _ _ h => by simp [h]) _ hF

@[simp] theorem sealptDone_formed (s : State) (pt : Nat) (n : Rin) (hF : Formed s) : Formed (sealptDone s pt n) := by
  unfold sealptDone
  refine State.modPatch_formed _ _ (forCores_formed _ _ _ (fun t cid h => ?_) hF)
  refine foldl_formed _ (fun u q h => ?_) _ h
  split
  · exact State.modCore_formed _ _ (foldl_formed _ (fun _ _ h => writeReg_formed _ _ _ _ _ h) _ h)
  · exact h

@[simp] theorem completeSealpts_formed (s : State) (n : Rin) (hF : Formed s) : Formed (completeSealpts s n) := by
  unfold completeSealpts
  refine foldl_formed _ (fun _ _ h => ?_) _ hF
  repeat' (first | exact h | split | (simp [h]; done))

@[simp] theorem releasePkts_formed (s : State) (n : Rin) (hF : Formed s) : Formed (releasePkts s n) := by
  unfold releasePkts
  repeat' (first | assumption | with_reducible exact outFormed_next.2 hF | with_reducible refine inOrder_formed _ _ _ _ (fun _ _ => ?_) ?_ | with_reducible refine placerStep_formed _ _ _ _ (fun _ _ => ?_) ?_ | with_reducible refine OptFormed.of_eq ?_ (by assumption) | with_reducible refine DoneFormed.of_eq ?_ (by assumption) | (simp (maxDischargeDepth := 50) [*]; done) | split | with_reducible refine State.modCore_formed _ _ ?_ | with_reducible refine foldl_formed _ (fun _ _ _ => ?_) _ ?_ | with_reducible refine doneFormed_ok.2 ?_ | with_reducible refine outFormed_next.2 ?_ | with_reducible refine optFormed_some.2 ?_ | with_reducible refine Done.then_formed ?_ (fun _ _ => ?_) | with_reducible refine eachDone_formed _ (fun _ _ _ => ?_) _ ?_ | with_reducible refine formed_mk.2 (forms_of_formed ?_))

@[simp] theorem pruneSaves_formed (s : State) (n : Rin) (hF : Formed s) : Formed (pruneSaves s n) := by
  unfold pruneSaves
  assumption

@[simp] theorem releaseSealed_formed (s : State) (n : Rin) (hF : Formed s) : Formed (releaseSealed s n) := by
  unfold releaseSealed
  repeat' (first | assumption | with_reducible exact outFormed_next.2 hF | with_reducible refine inOrder_formed _ _ _ _ (fun _ _ => ?_) ?_ | with_reducible refine placerStep_formed _ _ _ _ (fun _ _ => ?_) ?_ | with_reducible refine OptFormed.of_eq ?_ (by assumption) | with_reducible refine DoneFormed.of_eq ?_ (by assumption) | (simp (maxDischargeDepth := 50) [*]; done) | split | with_reducible refine State.modCore_formed _ _ ?_ | with_reducible refine foldl_formed _ (fun _ _ _ => ?_) _ ?_)

theorem execSealed_formed (s : State) (hF : Formed s) : OutFormed (execSealed s) := by
  unfold execSealed
  repeat' (first | assumption | with_reducible exact outFormed_next.2 hF | with_reducible refine inOrder_formed _ _ _ _ (fun _ _ => ?_) ?_ | with_reducible refine placerStep_formed _ _ _ _ (fun _ _ => ?_) ?_ | with_reducible refine OptFormed.of_eq ?_ (by assumption) | with_reducible refine DoneFormed.of_eq ?_ (by assumption) | (simp (maxDischargeDepth := 50) [*]; done) | split | with_reducible refine State.modCore_formed _ _ ?_ | with_reducible refine foldl_formed _ (fun _ _ _ => ?_) _ ?_ | with_reducible refine doneFormed_ok.2 ?_ | with_reducible refine outFormed_next.2 ?_ | with_reducible refine optFormed_some.2 ?_ | with_reducible refine Done.then_formed ?_ (fun _ _ => ?_) | with_reducible refine eachDone_formed _ (fun _ _ _ => ?_) _ ?_ | with_reducible refine formed_mk.2 (forms_of_formed ?_))

theorem execSealLate_formed (s : State) (hF : Formed s) : OutFormed (execSealLate s) := by
  unfold execSealLate
  refine outFormed_next.2 ?_
  repeat' (first | exact hF | split | with_reducible refine onLease_formed _ _ _ (fun _ _ _ _ => ?_) hF | with_reducible refine answer_formed _ _ _ _ ?_ | (simp [hF]; done))

theorem execPatrolSweep_formed (line : Nat) (s : State) (hF : Formed s) : OutFormed (execPatrolSweep line s) := by
  unfold execPatrolSweep
  refine outFormed_next.2 ?_
  repeat' (first | exact hF | split)

end Sys2Proof.Machine
end

