-- ==== Sys2Proof/Laws/Keep/Rollback.lean ====
section
/-! SUPPORT. What Machine/Rollback.lean keeps (Safety.lean, Formed). -/

namespace Sys2Proof.Machine

open Sys2Proof.Safety


@[simp] theorem poisonUndo_formed (s : State) (ctrl k : Nat) (hF : Formed s) : Formed (poisonUndo s ctrl k) := by
  unfold poisonUndo
  repeat' (first | assumption | with_reducible exact outFormed_next.2 hF | with_reducible refine inOrder_formed _ _ _ _ (fun _ _ => ?_) ?_ | with_reducible refine placerStep_formed _ _ _ _ (fun _ _ => ?_) ?_ | with_reducible refine OptFormed.of_eq ?_ (by assumption) | with_reducible refine DoneFormed.of_eq ?_ (by assumption) | (simp (maxDischargeDepth := 50) [*]; done) | split | with_reducible refine State.modCore_formed _ _ ?_ | with_reducible refine foldl_formed _ (fun _ _ _ => ?_) _ ?_ | with_reducible refine doneFormed_ok.2 ?_ | with_reducible refine outFormed_next.2 ?_ | with_reducible refine optFormed_some.2 ?_ | with_reducible refine Done.then_formed ?_ (fun _ _ => ?_) | with_reducible refine eachDone_formed _ (fun _ _ _ => ?_) _ ?_ | with_reducible refine formed_mk.2 (forms_of_formed ?_))

theorem execUncorrectableError_formed (site : ErrorSite) (s : State) (hF : Formed s) : OutFormed (execUncorrectableError site s) := by
  unfold execUncorrectableError
  repeat' (first | assumption | with_reducible exact outFormed_next.2 hF | with_reducible refine inOrder_formed _ _ _ _ (fun _ _ => ?_) ?_ | with_reducible refine placerStep_formed _ _ _ _ (fun _ _ => ?_) ?_ | with_reducible refine OptFormed.of_eq ?_ (by assumption) | with_reducible refine DoneFormed.of_eq ?_ (by assumption) | (simp (maxDischargeDepth := 50) [*]; done) | split | with_reducible refine State.modCore_formed _ _ ?_ | with_reducible refine foldl_formed _ (fun _ _ _ => ?_) _ ?_ | with_reducible refine doneFormed_ok.2 ?_ | with_reducible refine outFormed_next.2 ?_ | with_reducible refine optFormed_some.2 ?_ | with_reducible refine Done.then_formed ?_ (fun _ _ => ?_) | with_reducible refine eachDone_formed _ (fun _ _ _ => ?_) _ ?_ | with_reducible refine formed_mk.2 (forms_of_formed ?_))

theorem execPoison_formed (s : State) (hF : Formed s) : OutFormed (execPoison s) := by
  unfold execPoison
  repeat' (first | assumption | with_reducible exact outFormed_next.2 hF | with_reducible refine inOrder_formed _ _ _ _ (fun _ _ => ?_) ?_ | with_reducible refine placerStep_formed _ _ _ _ (fun _ _ => ?_) ?_ | with_reducible refine OptFormed.of_eq ?_ (by assumption) | with_reducible refine DoneFormed.of_eq ?_ (by assumption) | (simp (maxDischargeDepth := 50) [*]; done) | split | with_reducible refine State.modCore_formed _ _ ?_ | with_reducible refine foldl_formed _ (fun _ _ _ => ?_) _ ?_ | with_reducible refine doneFormed_ok.2 ?_ | with_reducible refine outFormed_next.2 ?_ | with_reducible refine optFormed_some.2 ?_ | with_reducible refine Done.then_formed ?_ (fun _ _ => ?_) | with_reducible refine eachDone_formed _ (fun _ _ _ => ?_) _ ?_ | with_reducible refine formed_mk.2 (forms_of_formed ?_))

@[simp] theorem replayUndo_formed (s : State) (u : Undo) (hF : Formed s) : Formed (replayUndo s u) :=
  formed_mk.2 (Forms.write_mem (forms_of_formed hF) _ _)

@[simp] theorem replayAll_formed (s : State) (r : Rin) (keeps : List (Nat × Rin)) (hF : Formed s) : Formed (replayAll s r keeps) := by
  have h1 := fun l => foldl_formed (fun s (u : Undo) => if u.bad then s else replayUndo s u) (fun t u h => by
    split
    · exact h
    · exact replayUndo_formed _ _ h) l hF
  exact formed_mk.2 (forms_of_formed (h1 _))

@[simp] theorem zeroVolatile_formed (s : State) (b : BriukSnap) (hF : Formed s) : Formed (zeroVolatile s b) := by
  unfold zeroVolatile
  repeat' (first | assumption | with_reducible exact outFormed_next.2 hF | with_reducible refine inOrder_formed _ _ _ _ (fun _ _ => ?_) ?_ | with_reducible refine placerStep_formed _ _ _ _ (fun _ _ => ?_) ?_ | with_reducible refine OptFormed.of_eq ?_ (by assumption) | with_reducible refine DoneFormed.of_eq ?_ (by assumption) | (simp (maxDischargeDepth := 50) [*]; done))

@[simp] theorem rinseAll_formed (s : State) (cur : Rin) (hF : Formed s) : Formed (rinseAll s cur) := by
  unfold rinseAll
  assumption

@[simp] theorem restoreSave_formed (before s : State) (v : Save) (hF : Formed s) : Formed (restoreSave before s v) := by
  unfold restoreSave
  dsimp only
  split
  · exact formed_mk.2 (forms_of_formed hF)
  · split
    · exact formed_mk.2 (forms_of_formed (tellEvicted_formed _ _ _ _ (recordLoad_formed _ _ _ _ _ (formed_mk.2 (forms_of_formed hF)))))
    · split
      · exact sealptDone_formed _ _ _ (setDown_formed _ _ _ _ _ _ _ _ (formed_mk.2 (forms_of_formed hF)))
      · exact setDown_formed _ _ _ _ _ _ _ _ (formed_mk.2 (forms_of_formed hF))

@[simp] theorem copiesBack_formed (s : State) (b : BriukSnap) (hF : Formed s) : Formed (copiesBack s b) := by
  unfold copiesBack
  exact foldl_formed _ (fun _ _ h => State.modCluster_formed _ _ h) _ hF

@[simp] theorem waitsealsBack_formed (s : State) (r : Rin) (hF : Formed s) : Formed (waitsealsBack s r) := by
  unfold waitsealsBack
  refine foldl_formed _ (fun _ _ h => ?_) _ hF
  repeat' (first | exact h | split | (simp [h]; done))

@[simp] theorem stripBack_formed (before s : State) (r : Rin) (b : BriukSnap) (hF : Formed s) : Formed (stripBack before s r b) :=
  waitsealsBack_formed _ _ (copiesBack_formed _ _ (foldl_formed (restoreSave before) (fun _ _ h => restoreSave_formed _ _ _ h) _
    (formed_mk.2 (forms_of_formed (formed_mk.2 (forms_of_formed hF))))))

@[simp] theorem rollbackRecord_formed (s : State) (r : Rin) (q : Nat) (hF : Formed s) : Formed (rollbackRecord s r q) := by
  unfold rollbackRecord
  repeat' (first | assumption | with_reducible exact outFormed_next.2 hF | with_reducible refine inOrder_formed _ _ _ _ (fun _ _ => ?_) ?_ | with_reducible refine placerStep_formed _ _ _ _ (fun _ _ => ?_) ?_ | with_reducible refine OptFormed.of_eq ?_ (by assumption) | with_reducible refine DoneFormed.of_eq ?_ (by assumption) | (simp (maxDischargeDepth := 50) [*]; done) | split | with_reducible refine State.modCore_formed _ _ ?_ | with_reducible refine foldl_formed _ (fun _ _ _ => ?_) _ ?_ | with_reducible refine doneFormed_ok.2 ?_ | with_reducible refine outFormed_next.2 ?_ | with_reducible refine optFormed_some.2 ?_ | with_reducible refine Done.then_formed ?_ (fun _ _ => ?_) | with_reducible refine eachDone_formed _ (fun _ _ _ => ?_) _ ?_ | with_reducible refine formed_mk.2 (forms_of_formed ?_))

@[simp] theorem countRollback_formed (s : State) (hF : Formed s) : Formed (countRollback s) := by
  unfold countRollback
  exact foldl_formed _ (fun _ _ h => by simp [h]) _ hF

@[simp] theorem endPoisoned_formed (s : State) (l : Nat) (hF : Formed s) : Formed (endPoisoned s l) := by
  unfold endPoisoned
  repeat' (first | assumption | with_reducible exact outFormed_next.2 hF | with_reducible refine inOrder_formed _ _ _ _ (fun _ _ => ?_) ?_ | with_reducible refine placerStep_formed _ _ _ _ (fun _ _ => ?_) ?_ | with_reducible refine OptFormed.of_eq ?_ (by assumption) | with_reducible refine DoneFormed.of_eq ?_ (by assumption) | (simp (maxDischargeDepth := 50) [*]; done) | split)

@[simp] theorem overtaken_formed (s : State) (hF : Formed s) : Formed (overtaken s) := by
  unfold overtaken
  refine foldl_formed _ (fun _ _ h => ?_) _ hF
  repeat' (first | exact h | split | (simp [h]; done))

@[simp] theorem rollbackTo_formed (s : State) (r : Rin) (hF : Formed s) : Formed (rollbackTo s r) := by
  have h0 := overtaken_formed s hF
  have hz := fun k b => zeroVolatile_formed _ b (replayAll_formed _ r k h0)
  refine toCoordinator_formed _ _ _ _ (foldl_formed _ (fun _ _ h => rollbackRecord_formed _ _ _ h) _
    (foldl_formed _ (fun t c h => foldl_formed _ (fun _ _ h => endPoisoned_formed _ _ h) _ h) _
      (countRollback_formed _ (stripBack_formed _ _ _ _ ?_))))
  exact formed_mk.2 (forms_of_formed (rinseAll_formed _ _ (hz _ _)))

theorem execRollback_formed (s : State) (hF : Formed s) : OutFormed (execRollback s) := by
  have h0 := gotMsg_formed s 6 hF
  unfold execRollback
  refine outFormed_next.2 ?_
  generalize gotMsg s 6 = t at *
  dsimp only
  split
  · exact h0
  · refine rollbackTo_formed _ _ ?_
    have h1 := takeDue_formed t 6 h0
    split
    · exact releaseSealed_formed _ _ h1
    · exact h1

theorem execRolled_formed (s : State) (hF : Formed s) : OutFormed (execRolled s) := by
  unfold execRolled
  repeat' (first | assumption | with_reducible exact outFormed_next.2 hF | with_reducible refine inOrder_formed _ _ _ _ (fun _ _ => ?_) ?_ | with_reducible refine placerStep_formed _ _ _ _ (fun _ _ => ?_) ?_ | with_reducible refine OptFormed.of_eq ?_ (by assumption) | with_reducible refine DoneFormed.of_eq ?_ (by assumption) | (simp (maxDischargeDepth := 50) [*]; done) | split | with_reducible refine State.modCore_formed _ _ ?_ | with_reducible refine foldl_formed _ (fun _ _ _ => ?_) _ ?_ | with_reducible refine doneFormed_ok.2 ?_ | with_reducible refine outFormed_next.2 ?_ | with_reducible refine optFormed_some.2 ?_ | with_reducible refine Done.then_formed ?_ (fun _ _ => ?_) | with_reducible refine eachDone_formed _ (fun _ _ _ => ?_) _ ?_ | with_reducible refine formed_mk.2 (forms_of_formed ?_))

end Sys2Proof.Machine
end

