-- ==== Sys2Proof/Laws/Keep/Registers.lean ====
section
/-! SUPPORT. What Machine/Registers.lean keeps (Safety.lean, Formed). -/

namespace Sys2Proof.Machine

open Sys2Proof.Safety


theorem execNumvfs_formed (n : Nat) (s : State) (hF : Formed s) : OutFormed (execNumvfs n s) := by
  unfold execNumvfs
  refine outFormed_next.2 ?_
  repeat' (first | exact hF | split)

@[simp] theorem ringEn_formed (s : State) (v : BitVec 64) (hF : Formed s) : Formed (ringEn s v) := by
  unfold ringEn
  dsimp only
  repeat' (first | exact hF | exact formed_mk.2 (forms_of_formed hF) | split)

@[simp] theorem ringHead_formed (s : State) (v : BitVec 32) (hF : Formed s) : Formed (ringHead s v) := by
  unfold ringHead
  dsimp only
  repeat' (first | exact hF | exact formed_mk.2 (forms_of_formed hF) | split)

theorem execEventRingEn_formed (v : BitVec 64) (s : State) (hF : Formed s) : OutFormed (execEventRingEn v s) := by
  unfold execEventRingEn
  refine outFormed_next.2 ?_
  repeat' (first | exact hF | split | with_reducible refine onLease_formed _ _ _ (fun _ _ _ _ => ?_) hF | with_reducible refine answer_formed _ _ _ _ ?_ | (simp [hF]; done))

theorem execEventRingHead_formed (v : BitVec 32) (s : State) (hF : Formed s) : OutFormed (execEventRingHead v s) := by
  unfold execEventRingHead
  refine outFormed_next.2 ?_
  repeat' (first | exact hF | split | with_reducible refine onLease_formed _ _ _ (fun _ _ _ _ => ?_) hF | with_reducible refine answer_formed _ _ _ _ ?_ | (simp [hF]; done))

@[simp] theorem injectWrite_formed (s : State) (v : BitVec 64) (hF : Formed s) : Formed (injectWrite s v) := by
  unfold injectWrite
  dsimp only
  split
  · exact formed_mk.2 (forms_of_formed hF)
  · split
    · exact formed_mk.2 (forms_of_formed hF)
    · exact formed_mk.2 (forms_of_formed hF)

theorem execInjectControl_formed (v : BitVec 64) (s : State) (hF : Formed s) : OutFormed (execInjectControl v s) := by
  unfold execInjectControl
  refine outFormed_next.2 ?_
  repeat' (first | exact hF | split | with_reducible refine onLease_formed _ _ _ (fun _ _ _ _ => ?_) hF | with_reducible refine answer_formed _ _ _ _ ?_ | (simp [hF]; done))

theorem execSnapshotLoRead_formed (fn slot : Nat) (s : State) (hF : Formed s) : OutFormed (execSnapshotLoRead fn slot s) := by
  unfold execSnapshotLoRead
  refine outFormed_next.2 ?_
  repeat' (first | exact hF)

theorem execSnapshotHiRead_formed (fn slot : Nat) (s : State) (hF : Formed s) : OutFormed (execSnapshotHiRead fn slot s) := by
  unfold execSnapshotHiRead
  refine outFormed_next.2 ?_
  repeat' (first | exact hF)

@[simp] theorem slotSelect_formed (s : State) (fn j : Nat) (v : BitVec 32) (hF : Formed s) : Formed (slotSelect s fn j v) :=
  State.modFn_formed _ _ hF

@[simp] theorem slotLease_formed (s : State) (fn j : Nat) (v : BitVec 32) (hF : Formed s) : Formed (slotLease s fn j v) := by
  unfold slotLease
  repeat' (first | assumption)

@[simp] theorem answer_formed (s : State) (fn status : Nat) (result : List Byte) (hF : Formed s) : Formed (answer s fn status result) := by
  unfold answer
  repeat' (first | assumption)

@[simp] theorem submit_formed (s : State) (fn : Nat) (hF : Formed s) : Formed (submit s fn) := by
  unfold submit
  repeat' (first | assumption | with_reducible exact outFormed_next.2 hF | with_reducible refine inOrder_formed _ _ _ _ (fun _ _ => ?_) ?_ | with_reducible refine placerStep_formed _ _ _ _ (fun _ _ => ?_) ?_ | with_reducible refine OptFormed.of_eq ?_ (by assumption) | with_reducible refine DoneFormed.of_eq ?_ (by assumption) | (simp (maxDischargeDepth := 50) [*]; done) | split | with_reducible refine State.modCore_formed _ _ ?_ | with_reducible refine foldl_formed _ (fun _ _ _ => ?_) _ ?_ | with_reducible refine doneFormed_ok.2 ?_ | with_reducible refine outFormed_next.2 ?_ | with_reducible refine optFormed_some.2 ?_ | with_reducible refine Done.then_formed ?_ (fun _ _ => ?_) | with_reducible refine eachDone_formed _ (fun _ _ _ => ?_) _ ?_ | with_reducible refine formed_mk.2 (forms_of_formed ?_))

@[simp] theorem pfWord_formed (s : State) (off : Nat) (v : BitVec 32) (hF : Formed s) : Formed (pfWord s off v) := by
  unfold pfWord
  repeat' (first | assumption | with_reducible exact outFormed_next.2 hF | with_reducible refine inOrder_formed _ _ _ _ (fun _ _ => ?_) ?_ | with_reducible refine placerStep_formed _ _ _ _ (fun _ _ => ?_) ?_ | with_reducible refine OptFormed.of_eq ?_ (by assumption) | with_reducible refine DoneFormed.of_eq ?_ (by assumption) | (simp (maxDischargeDepth := 50) [*]; done) | split | with_reducible refine State.modCore_formed _ _ ?_ | with_reducible refine foldl_formed _ (fun _ _ _ => ?_) _ ?_ | with_reducible refine doneFormed_ok.2 ?_ | with_reducible refine outFormed_next.2 ?_ | with_reducible refine optFormed_some.2 ?_ | with_reducible refine Done.then_formed ?_ (fun _ _ => ?_) | with_reducible refine eachDone_formed _ (fun _ _ _ => ?_) _ ?_ | with_reducible refine formed_mk.2 (forms_of_formed ?_))

@[simp] theorem wordWrite_formed (fn off : Nat) (s : State) (v : BitVec 32) (hF : Formed s) : Formed (wordWrite fn off s v) := by
  unfold wordWrite
  split
  · have h1 : Formed (if v.getLsbD 2 then s.modFn fn fun f => { f with done := false } else s) := by
      split
      · exact State.modFn_formed _ _ hF
      · exact hF
    dsimp only
    split
    · exact submit_formed _ _ h1
    · exact h1
  · split
    · dsimp only
      split
      · exact slotSelect_formed _ _ _ _ hF
      · split
        · exact slotLease_formed _ _ _ _ hF
        · exact hF
    · split
      · exact pfWord_formed _ _ _ hF
      · exact hF

@[simp] theorem registerPut_formed (fn off len : Nat) (v : BitVec 64) (s : State) (hF : Formed s) : Formed (registerPut fn off len v s) := by
  unfold registerPut
  repeat' (first | assumption | with_reducible exact outFormed_next.2 hF | with_reducible refine inOrder_formed _ _ _ _ (fun _ _ => ?_) ?_ | with_reducible refine placerStep_formed _ _ _ _ (fun _ _ => ?_) ?_ | with_reducible refine OptFormed.of_eq ?_ (by assumption) | with_reducible refine DoneFormed.of_eq ?_ (by assumption) | (simp (maxDischargeDepth := 50) [*]; done) | split)

theorem execRegisterWrite_formed (fn off len : Nat) (v : BitVec 64) (s : State) (hF : Formed s) : OutFormed (execRegisterWrite fn off len v s) := by
  unfold execRegisterWrite
  repeat' (first | assumption | with_reducible exact outFormed_next.2 hF | with_reducible refine inOrder_formed _ _ _ _ (fun _ _ => ?_) ?_ | with_reducible refine placerStep_formed _ _ _ _ (fun _ _ => ?_) ?_ | with_reducible refine OptFormed.of_eq ?_ (by assumption) | with_reducible refine DoneFormed.of_eq ?_ (by assumption) | (simp (maxDischargeDepth := 50) [*]; done) | split | with_reducible refine State.modCore_formed _ _ ?_ | with_reducible refine foldl_formed _ (fun _ _ _ => ?_) _ ?_ | with_reducible refine doneFormed_ok.2 ?_ | with_reducible refine outFormed_next.2 ?_)

theorem execFunctionLevelReset_formed (fn : Nat) (s : State) (hF : Formed s) : OutFormed (execFunctionLevelReset fn s) := by
  unfold execFunctionLevelReset
  refine outFormed_next.2 ?_
  repeat' (first | exact hF | split)

@[simp] theorem windowPut_formed (fn : Nat) (s : State) (p : Nat × List Byte) (hF : Formed s) : Formed (windowPut fn s p) := by
  unfold windowPut
  repeat' (first | assumption | with_reducible exact outFormed_next.2 hF | with_reducible refine inOrder_formed _ _ _ _ (fun _ _ => ?_) ?_ | with_reducible refine placerStep_formed _ _ _ _ (fun _ _ => ?_) ?_ | with_reducible refine OptFormed.of_eq ?_ (by assumption) | with_reducible refine DoneFormed.of_eq ?_ (by assumption) | (simp (maxDischargeDepth := 50) [*]; done) | split)

@[simp] theorem windowWhole_formed (fn off n : Nat) (s : State) (hF : Formed s) : Formed (windowWhole fn off n s) := by
  unfold windowWhole
  repeat' (first | assumption)

@[simp] theorem windowWrite_formed (fn off : Nat) (data : List Byte) (s : State) (hF : Formed s) : Formed (windowWrite fn off data s) :=
  windowWhole_formed _ _ _ _ (foldl_formed _ (fun _ _ h => windowPut_formed _ _ _ h) _ hF)

@[simp] theorem hostPut_formed (fn off : Nat) (data : List Byte) (s : State) (hF : Formed s) : Formed (hostPut fn off data s) := by
  unfold hostPut
  repeat' (first | assumption | with_reducible exact outFormed_next.2 hF | with_reducible refine inOrder_formed _ _ _ _ (fun _ _ => ?_) ?_ | with_reducible refine placerStep_formed _ _ _ _ (fun _ _ => ?_) ?_ | with_reducible refine OptFormed.of_eq ?_ (by assumption) | with_reducible refine DoneFormed.of_eq ?_ (by assumption) | (simp (maxDischargeDepth := 50) [*]; done) | split)

theorem execHostWindowWrite_formed (fn off : Nat) (data : List Byte) (s : State) (hF : Formed s) : OutFormed (execHostWindowWrite fn off data s) := by
  unfold execHostWindowWrite
  repeat' (first | assumption | with_reducible exact outFormed_next.2 hF | with_reducible refine inOrder_formed _ _ _ _ (fun _ _ => ?_) ?_ | with_reducible refine placerStep_formed _ _ _ _ (fun _ _ => ?_) ?_ | with_reducible refine OptFormed.of_eq ?_ (by assumption) | with_reducible refine DoneFormed.of_eq ?_ (by assumption) | (simp (maxDischargeDepth := 50) [*]; done) | split | with_reducible refine State.modCore_formed _ _ ?_ | with_reducible refine foldl_formed _ (fun _ _ _ => ?_) _ ?_ | with_reducible refine doneFormed_ok.2 ?_ | with_reducible refine outFormed_next.2 ?_)

@[simp] theorem performOne_formed (s : State) (i : Instr) (hF : Formed s) : OptFormed (performOne s i) := by
  unfold performOne
  split
  · split
    · exact optFormed_none
    · exact optFormed_some.2 (windowWrite_formed _ _ _ _ hF)
  · exact optFormed_some.2 (packetPut_formed _ _ _ _ _ hF)
  · exact optFormed_some.2 (resumePut_formed _ _ _ _ hF)
  · exact optFormed_some.2 (cheadPut_formed _ _ _ _ hF)
  · exact optFormed_some.2 (registerPut_formed _ _ _ _ _ hF)
  · exact optFormed_some.2 hF

theorem performPosted_formed (is : List Instr) : ∀ s : State, Formed s → Formed (performPosted is s) := by
  induction is with
  | nil => intro s hF; exact hF
  | cons i is ih =>
    intro s hF
    unfold performPosted
    dsimp only
    split
    · rename_i t e
      refine ih _ ?_
      split at e
      · cases e
      · exact performOne_formed _ _ hF _ e
    · exact ih _ (formed_mk.2 (forms_of_formed hF))

@[simp] theorem retryPosted_formed (s : State) (hF : Formed s) : Formed (retryPosted s) :=
  performPosted_formed _ _ (formed_mk.2 (forms_of_formed hF))

theorem execHostWindowRead_formed (fn off len : Nat) (s : State) (hF : Formed s) : OutFormed (execHostWindowRead fn off len s) := by
  unfold execHostWindowRead
  refine outFormed_next.2 ?_
  repeat' (first | exact hF)

theorem execPeerPortDown_formed (port : Nat) (s : State) (hF : Formed s) : OutFormed (execPeerPortDown port s) := by
  unfold execPeerPortDown
  refine outFormed_next.2 ?_
  repeat' (first | exact hF)

theorem execPeerPortRecover_formed (port : Nat) (s : State) (hF : Formed s) : OutFormed (execPeerPortRecover port s) := by
  unfold execPeerPortRecover
  refine outFormed_next.2 ?_
  repeat' (first | exact hF)

@[simp] theorem peerDropped_formed (s : State) (f : PeerFlit) (hF : Formed s) : Formed (peerDropped s f) := by
  unfold peerDropped
  repeat' (first | assumption | with_reducible exact outFormed_next.2 hF | with_reducible refine inOrder_formed _ _ _ _ (fun _ _ => ?_) ?_ | with_reducible refine placerStep_formed _ _ _ _ (fun _ _ => ?_) ?_ | with_reducible refine OptFormed.of_eq ?_ (by assumption) | with_reducible refine DoneFormed.of_eq ?_ (by assumption) | (simp (maxDischargeDepth := 50) [*]; done) | split)

@[simp] theorem forwarded_formed (s : State) (w : Forward) (f : PeerFlit) (hF : Formed s) : Formed (forwarded s w f) := by
  unfold forwarded
  repeat' (first | assumption | with_reducible exact outFormed_next.2 hF | with_reducible refine inOrder_formed _ _ _ _ (fun _ _ => ?_) ?_ | with_reducible refine placerStep_formed _ _ _ _ (fun _ _ => ?_) ?_ | with_reducible refine OptFormed.of_eq ?_ (by assumption) | with_reducible refine DoneFormed.of_eq ?_ (by assumption) | (simp (maxDischargeDepth := 50) [*]; done) | split)

@[simp] theorem repoint_formed (s : State) (f : PeerFlit) (device lease gen : Nat) (hF : Formed s) : Formed (repoint s f device lease gen) := by
  unfold repoint
  repeat' (first | assumption)

@[simp] theorem hearPeer_formed (s : State) (L : Lease) (f : PeerFlit) (hF : Formed s) : Formed (hearPeer s L f) := by
  unfold hearPeer
  repeat' (first | assumption | with_reducible exact outFormed_next.2 hF | with_reducible refine inOrder_formed _ _ _ _ (fun _ _ => ?_) ?_ | with_reducible refine placerStep_formed _ _ _ _ (fun _ _ => ?_) ?_ | with_reducible refine OptFormed.of_eq ?_ (by assumption) | with_reducible refine DoneFormed.of_eq ?_ (by assumption) | (simp (maxDischargeDepth := 50) [*]; done) | split)

@[simp] theorem deliver_formed (s : State) (L : Lease) (f : PeerFlit) (hF : Formed s) : OptFormed (deliver s L f) := by
  unfold deliver
  repeat' (first | assumption | with_reducible exact outFormed_next.2 hF | with_reducible refine inOrder_formed _ _ _ _ (fun _ _ => ?_) ?_ | with_reducible refine placerStep_formed _ _ _ _ (fun _ _ => ?_) ?_ | with_reducible refine OptFormed.of_eq ?_ (by assumption) | with_reducible refine DoneFormed.of_eq ?_ (by assumption) | (simp (maxDischargeDepth := 50) [*]; done) | split | with_reducible refine State.modCore_formed _ _ ?_ | with_reducible refine foldl_formed _ (fun _ _ _ => ?_) _ ?_ | with_reducible refine doneFormed_ok.2 ?_ | with_reducible refine outFormed_next.2 ?_ | with_reducible refine optFormed_some.2 ?_ | with_reducible refine Done.then_formed ?_ (fun _ _ => ?_) | with_reducible refine eachDone_formed _ (fun _ _ _ => ?_) _ ?_ | with_reducible refine formed_mk.2 (forms_of_formed ?_) | with_reducible refine forCores_formed _ _ _ (fun _ _ _ => ?_) ?_ | with_reducible refine issue_formed _ _ _ (fun _ _ _ _ _ => ?_) (by assumption) | with_reducible refine Env.exitTo_formed _ _ _ _ (fun _ => ?_) (by assumption) | dsimp only)

@[simp] theorem admitFlit_formed (s : State) (f : PeerFlit) (hF : Formed s) : OptFormed (admitFlit s f) := by
  unfold admitFlit
  repeat' (first | assumption | with_reducible exact outFormed_next.2 hF | with_reducible refine inOrder_formed _ _ _ _ (fun _ _ => ?_) ?_ | with_reducible refine placerStep_formed _ _ _ _ (fun _ _ => ?_) ?_ | with_reducible refine OptFormed.of_eq ?_ (by assumption) | with_reducible refine DoneFormed.of_eq ?_ (by assumption) | (simp (maxDischargeDepth := 50) [*]; done) | split)

@[simp] theorem atPort_formed (port : Nat) (s : State) (f : PeerFlit) (hF : Formed s) : Formed (atPort port s f) := by
  have h1 : Formed { s with ports := tmod s.ports port {} fun p => { p with held := p.held ++ [f] } } := formed_mk.2 (forms_of_formed hF)
  unfold atPort
  dsimp only
  split
  · exact h1
  · exact (admitFlit_formed _ _ hF).getD h1

theorem execPeerFlitArrival_formed (port : Nat) (f : PeerFlit) (s : State) (hF : Formed s) : OutFormed (execPeerFlitArrival port f s) := by
  unfold execPeerFlitArrival
  refine outFormed_next.2 ?_
  repeat' (first | exact hF | split | with_reducible refine onLease_formed _ _ _ (fun _ _ _ _ => ?_) hF | with_reducible refine answer_formed _ _ _ _ ?_ | (simp [hF]; done))

@[simp] theorem retryHeld_formed (s : State) (hF : Formed s) : Formed (retryHeld s) := by
  unfold retryHeld
  repeat' (first | assumption | with_reducible exact outFormed_next.2 hF | with_reducible refine inOrder_formed _ _ _ _ (fun _ _ => ?_) ?_ | with_reducible refine placerStep_formed _ _ _ _ (fun _ _ => ?_) ?_ | with_reducible refine OptFormed.of_eq ?_ (by assumption) | with_reducible refine DoneFormed.of_eq ?_ (by assumption) | (simp (maxDischargeDepth := 50) [*]; done) | split | with_reducible refine State.modCore_formed _ _ ?_ | with_reducible refine foldl_formed _ (fun _ _ _ => ?_) _ ?_)

theorem execSerialisingToken_formed (node : Nat) (s : State) (hF : Formed s) : OutFormed (execSerialisingToken node s) := by
  refine outFormed_next.2 ?_
  split
  · obtain ⟨h1, h2, h3, _, h5⟩ := hF
    exact ⟨h1, h2, h3, ‹_›, h5⟩
  · exact hF

theorem execMeterWindow_formed (energy : List Nat) (s : State) (hF : Formed s) : OutFormed (execMeterWindow energy s) := by
  unfold execMeterWindow
  refine outFormed_next.2 ?_
  split
  · exact hF
  · exact formed_mk.2 (forms_of_formed (foldl_formed _ (fun _ _ h => foldl_formed _ (fun _ _ h => charge_formed _ _ _ _ h) _ h) _ hF))

@[simp] theorem tellIsland_formed (s : State) (k : Nat) (hF : Formed s) : Formed (tellIsland s k) := by
  unfold tellIsland
  repeat' (first | assumption | with_reducible exact outFormed_next.2 hF | with_reducible refine inOrder_formed _ _ _ _ (fun _ _ => ?_) ?_ | with_reducible refine placerStep_formed _ _ _ _ (fun _ _ => ?_) ?_ | with_reducible refine OptFormed.of_eq ?_ (by assumption) | with_reducible refine DoneFormed.of_eq ?_ (by assumption) | (simp (maxDischargeDepth := 50) [*]; done))

@[simp] theorem lowerIsland_formed (cause : BitVec 4) (s : State) (k : Nat) (hF : Formed s) : Formed (lowerIsland cause s k) := by
  unfold lowerIsland
  dsimp only
  split
  · exact tellIsland_formed _ _ (formed_mk.2 (forms_of_formed hF))
  · split
    · exact tellIsland_formed _ _ (formed_mk.2 (forms_of_formed (formed_mk.2 (forms_of_formed hF))))
    · exact formed_mk.2 (forms_of_formed hF)

theorem execThrottle_formed (island : Nat) (cause : BitVec 4) (s : State) (hF : Formed s) : OutFormed (execThrottle island cause s) := by
  unfold execThrottle
  refine outFormed_next.2 ?_
  split
  · exact hF
  · split
    · exact foldl_formed _ (fun _ _ h => lowerIsland_formed _ _ _ h) _ hF
    · split
      · exact hF
      · exact lowerIsland_formed _ _ _ hF

theorem execThrottleRecover_formed (island : Nat) (s : State) (hF : Formed s) : OutFormed (execThrottleRecover island s) := by
  unfold execThrottleRecover
  repeat' (first | assumption | with_reducible exact outFormed_next.2 hF | with_reducible refine inOrder_formed _ _ _ _ (fun _ _ => ?_) ?_ | with_reducible refine placerStep_formed _ _ _ _ (fun _ _ => ?_) ?_ | with_reducible refine OptFormed.of_eq ?_ (by assumption) | with_reducible refine DoneFormed.of_eq ?_ (by assumption) | (simp (maxDischargeDepth := 50) [*]; done) | split | with_reducible refine State.modCore_formed _ _ ?_ | with_reducible refine foldl_formed _ (fun _ _ _ => ?_) _ ?_ | with_reducible refine doneFormed_ok.2 ?_ | with_reducible refine outFormed_next.2 ?_ | with_reducible refine optFormed_some.2 ?_ | with_reducible refine Done.then_formed ?_ (fun _ _ => ?_) | with_reducible refine eachDone_formed _ (fun _ _ _ => ?_) _ ?_ | with_reducible refine formed_mk.2 (forms_of_formed ?_))

end Sys2Proof.Machine
end

