-- ==== Sys2Proof/Laws/Keep/Mailbox.lean ====
section
/-! SUPPORT. What Machine/Mailbox.lean keeps (Safety.lean, Formed). -/

namespace Sys2Proof.Machine

open Sys2Proof.Safety


theorem pfOnly_formed (s : State) (code : Nat) (body : Nat → CmdArgs → State) (hb : ∀ fn a, Formed (body fn a)) (hF : Formed s) :
    Formed (pfOnly s code body) := by
  unfold pfOnly
  split
  · exact hF
  · split
    · exact hb _ _
    · exact answer_formed _ _ _ _ hF

theorem onLease_formed (s : State) (code : Nat) (body : Nat → Nat → Lease → CmdArgs → State) (hb : ∀ fn l L a, Formed (body fn l L a))
    (hF : Formed s) : Formed (onLease s code body) := by
  unfold onLease
  split
  · exact hF
  · dsimp only
    split
    · exact answer_formed _ _ _ _ hF
    · exact hb _ _ _ _

@[simp] theorem answerAt_formed (s : State) (fn l va : Nat) (out : List Byte) (result : List Byte) (hF : Formed s) :
    Formed (answerAt s fn l va out result) := by
  unfold answerAt
  split
  · exact answer_formed _ _ _ _ hF
  · split
    · exact hF
    · exact answer_formed _ _ _ _ (putVa_formed _ _ _ _ _ _ hF)

@[simp] theorem rewaitOne_formed (l : Nat) (s : State) (w : Waiter) (hF : Formed s) : Formed (rewaitOne l s w) := by
  unfold rewaitOne
  split
  · exact hF
  · split
    · exact hF
    · rename_i x _
      split
      · exact hF
      · have h := enlist_formed _ { w with line := lineKey x, woken := true } (fun _ => false) (delist_formed s (· = w) hF)
        dsimp only
        generalize enlist _ _ _ = t at *
        split
        · exact State.modPkt_formed _ _ h
        · exact h

@[simp] theorem rewait_formed (s : State) (l : Nat) (hF : Formed s) : Formed (rewait s l) :=
  foldl_formed _ (fun _ _ h => rewaitOne_formed _ _ _ h) _ hF

theorem execMap_formed (s : State) (hF : Formed s) : OutFormed (execMap s) := by
  unfold execMap
  refine outFormed_next.2 ?_
  repeat' (first | exact hF | split | with_reducible refine onLease_formed _ _ _ (fun _ _ _ _ => ?_) hF | with_reducible refine answer_formed _ _ _ _ ?_ | (simp [hF]; done))

@[simp] theorem beginShoot_formed (s : State) (fn l va size : Nat) (mig : Option (Nat × Bool)) (change : Lease → Lease) (hF : Formed s) :
    Formed (beginShoot s fn l va size mig change) := by
  unfold beginShoot
  split
  · exact hF
  · refine State.modFn_formed _ _ (foldl_formed _ (fun t cid h => ?_) _ (formed_mk.2 (forms_of_formed (State.modLease_formed _ _ hF))))
    dsimp only
    split
    · exact State.modCore_formed _ _ h
    · exact h

@[simp] theorem shootLines_formed (s : State) (h : Shoot) (hF : Formed s) : Formed (shootLines s h) := by
  unfold shootLines
  refine foldl_formed _ (fun t v ht => ?_) _ (foldl_formed _ (fun t cid ht => foldl_formed _ (fun _ _ h => flushLine_formed _ _ _ h) _ ht) _ hF)
  refine formed_mk.2 (forms_of_formed (foldl_formed _ (fun u x hu => ?_) _ ht))
  split
  · exact hu
  · exact lineOut_formed _ _ hu

theorem shootCommand_formed (s : State) (fn : Nat) (start : State) (finish : Shoot → State → State) (hs : Formed start)
    (hf : ∀ h t, Formed t → Formed (finish h t)) (hF : Formed s) : Formed (shootCommand s fn start finish) := by
  unfold shootCommand
  split
  · exact hs
  · split
    · exact hf _ _ (shootLines_formed _ _ hF)
    · exact hF

theorem execUnmap_formed (s : State) (hF : Formed s) : OutFormed (execUnmap s) := by
  unfold execUnmap
  repeat' (first | with_reducible assumption | with_reducible refine outFormed_next.2 ?_ | with_reducible refine pfOnly_formed _ _ _ (fun _ _ => ?_) ?_ | with_reducible refine onLease_formed _ _ _ (fun _ _ _ _ => ?_) ?_ | with_reducible refine shootCommand_formed _ _ _ _ ?_ (fun _ _ _ => ?_) ?_ | with_reducible refine answer_formed _ _ _ _ ?_ | with_reducible refine answerAt_formed _ _ _ _ _ _ ?_ | with_reducible refine putVa_formed _ _ _ _ _ _ ?_ | with_reducible refine State.modLease_formed _ _ ?_ | with_reducible refine State.modFn_formed _ _ ?_ | with_reducible refine State.modQueue_formed _ _ ?_ | with_reducible refine State.modOwner_formed _ _ ?_ | with_reducible refine State.modCore_formed _ _ ?_ | with_reducible refine closeQueue_formed _ _ ?_ | with_reducible refine beginShoot_formed _ _ _ _ _ _ _ ?_ | with_reducible refine migrateCopy_formed _ _ _ _ _ ?_ | with_reducible refine broadcast_formed _ _ _ ?_ | with_reducible refine rewait_formed _ _ ?_ | split)

theorem execProtect_formed (s : State) (hF : Formed s) : OutFormed (execProtect s) := by
  unfold execProtect
  repeat' (first | with_reducible assumption | with_reducible refine outFormed_next.2 ?_ | with_reducible refine pfOnly_formed _ _ _ (fun _ _ => ?_) ?_ | with_reducible refine onLease_formed _ _ _ (fun _ _ _ _ => ?_) ?_ | with_reducible refine shootCommand_formed _ _ _ _ ?_ (fun _ _ _ => ?_) ?_ | with_reducible refine answer_formed _ _ _ _ ?_ | with_reducible refine answerAt_formed _ _ _ _ _ _ ?_ | with_reducible refine putVa_formed _ _ _ _ _ _ ?_ | with_reducible refine State.modLease_formed _ _ ?_ | with_reducible refine State.modFn_formed _ _ ?_ | with_reducible refine State.modQueue_formed _ _ ?_ | with_reducible refine State.modOwner_formed _ _ ?_ | with_reducible refine State.modCore_formed _ _ ?_ | with_reducible refine closeQueue_formed _ _ ?_ | with_reducible refine beginShoot_formed _ _ _ _ _ _ _ ?_ | with_reducible refine migrateCopy_formed _ _ _ _ _ ?_ | with_reducible refine broadcast_formed _ _ _ ?_ | with_reducible refine rewait_formed _ _ ?_ | split)

@[simp] theorem migrateCopy_formed (fn : Nat) (h : Shoot) (pa : Nat) (tier : Bool) (s : State) (hF : Formed s) :
    Formed (migrateCopy fn h pa tier s) := by
  unfold migrateCopy
  split
  · exact hF
  · dsimp only
    split
    · exact hF
    · refine beginShoot_formed _ _ _ _ _ _ _ (foldl_formed _ (fun t d ht => ?_) _ hF)
      have h1 := fun a b c d e => devWrite_formed (chargePa t a 64) b c d e (chargePa_formed _ _ _ ht)
      split
      · exact formed_mk.2 (forms_of_formed (h1 _ _ _ _ _))
      · exact h1 _ _ _ _ _

theorem execMigrate_formed (s : State) (hF : Formed s) : OutFormed (execMigrate s) := by
  unfold execMigrate
  repeat' (first | with_reducible assumption | with_reducible refine outFormed_next.2 ?_ | with_reducible refine pfOnly_formed _ _ _ (fun _ _ => ?_) ?_ | with_reducible refine onLease_formed _ _ _ (fun _ _ _ _ => ?_) ?_ | with_reducible refine shootCommand_formed _ _ _ _ ?_ (fun _ _ _ => ?_) ?_ | with_reducible refine answer_formed _ _ _ _ ?_ | with_reducible refine answerAt_formed _ _ _ _ _ _ ?_ | with_reducible refine putVa_formed _ _ _ _ _ _ ?_ | with_reducible refine State.modLease_formed _ _ ?_ | with_reducible refine State.modFn_formed _ _ ?_ | with_reducible refine State.modQueue_formed _ _ ?_ | with_reducible refine State.modOwner_formed _ _ ?_ | with_reducible refine State.modCore_formed _ _ ?_ | with_reducible refine closeQueue_formed _ _ ?_ | with_reducible refine beginShoot_formed _ _ _ _ _ _ _ ?_ | with_reducible refine migrateCopy_formed _ _ _ _ _ ?_ | with_reducible refine broadcast_formed _ _ _ ?_ | with_reducible refine rewait_formed _ _ ?_ | split | with_reducible refine formed_mk.2 (forms_of_formed ?_))

theorem execDebug_formed (s : State) (hF : Formed s) : OutFormed (execDebug s) := by
  unfold execDebug
  refine outFormed_next.2 (onLease_formed _ _ _ (fun _ _ _ _ => ?_) hF)
  repeat' (first | exact hF | split)

theorem execDresume_formed (s : State) (hF : Formed s) : OutFormed (execDresume s) := by
  unfold execDresume
  refine outFormed_next.2 (onLease_formed _ _ _ (fun _ _ _ _ => ?_) hF)
  repeat' (first | exact hF | split)

theorem execProfopen_formed (s : State) (hF : Formed s) : OutFormed (execProfopen s) := by
  unfold execProfopen
  refine outFormed_next.2 (onLease_formed _ _ _ (fun _ _ _ _ => ?_) hF)
  dsimp only
  repeat' (first | exact hF | split)

theorem execProfclose_formed (s : State) (hF : Formed s) : OutFormed (execProfclose s) := by
  unfold execProfclose
  refine outFormed_next.2 (onLease_formed _ _ _ (fun _ _ _ _ => ?_) hF)
  repeat' (first | exact hF | split)

theorem execPeerbind_formed (s : State) (hF : Formed s) : OutFormed (execPeerbind s) := by
  unfold execPeerbind
  refine outFormed_next.2 (onLease_formed _ _ _ (fun _ _ _ _ => ?_) hF)
  dsimp only
  repeat' (first | exact hF | split)

theorem execPeerunbind_formed (s : State) (hF : Formed s) : OutFormed (execPeerunbind s) := by
  unfold execPeerunbind
  refine outFormed_next.2 (onLease_formed _ _ _ (fun _ _ _ _ => ?_) hF)
  repeat' (first | exact hF | split)

theorem execPair_formed (s : State) (hF : Formed s) : OutFormed (execPair s) := by
  unfold execPair
  refine outFormed_next.2 ?_
  repeat' (first | exact hF | split | with_reducible refine onLease_formed _ _ _ (fun _ _ _ _ => ?_) hF)

theorem execWindow_formed (s : State) (hF : Formed s) : OutFormed (execWindow s) := by
  unfold execWindow
  refine outFormed_next.2 (onLease_formed _ _ _ (fun _ _ _ _ => ?_) hF)
  repeat' (first | exact hF | split)

theorem execFaults_formed (s : State) (hF : Formed s) : OutFormed (execFaults s) := by
  unfold execFaults
  refine outFormed_next.2 (onLease_formed _ _ _ (fun _ _ _ _ => ?_) hF)
  repeat' (first | exact hF | split | simp [hF]; done)

theorem execReport_formed (s : State) (hF : Formed s) : OutFormed (execReport s) := by
  unfold execReport
  refine outFormed_next.2 (onLease_formed _ _ _ (fun _ _ _ _ => ?_) hF)
  dsimp only
  repeat' (first | exact hF | split | simp [hF]; done)

theorem execAttest_formed (s : State) (hF : Formed s) : OutFormed (execAttest s) := by
  unfold execAttest
  refine outFormed_next.2 (onLease_formed _ _ _ (fun _ _ _ _ => ?_) hF)
  repeat' (first | exact hF | split | simp [hF]; done)

@[simp] theorem closeQueue_formed (s : State) (q : Nat) (hF : Formed s) : Formed (closeQueue s q) := by
  have h0 := abortRing_formed s q (fun _ => true) hF
  unfold closeQueue
  generalize abortRing s q _ = u at *
  refine State.modQueue_formed _ _ (foldl_formed _ (fun t p h => ?_) _ h0)
  have h1 := abortPkt_formed t p h
  dsimp only
  split
  · split
    · exact dropPatch_formed _ _ h1
    · exact h1
  · exact h1

@[simp] theorem flushQueue_formed (s : State) (q : Nat) (hF : Formed s) : OptFormed (flushQueue s q) := by
  unfold flushQueue
  generalize sortBy _ _ = ps
  induction ps generalizing s with
  | nil => exact optFormed_some.2 hF
  | cons p ps ih =>
    intro t ht
    obtain ⟨u, hu, h⟩ := Option.bind_eq_some_iff.1 ht
    exact ih u (finishPkt_formed s p hF u hu) t h

theorem execQconf_formed (s : State) (hF : Formed s) : OutFormed (execQconf s) := by
  unfold execQconf
  refine outFormed_next.2 (pfOnly_formed _ _ _ (fun fn a => ?_) hF)
  split
  · rename_i q vf owner prio size posters
    have h1 : Formed (if (s.queue q).isOpen then closeQueue s q else s) := by
      split
      · exact closeQueue_formed _ _ hF
      · exact hF
    dsimp only
    generalize (if (s.queue q).isOpen then closeQueue s q else s) = t at *
    repeat' (first | with_reducible exact hF | with_reducible exact answer_formed _ _ _ _ hF | with_reducible exact answer_formed _ _ _ _ h1 |
      with_reducible exact answer_formed _ _ _ _ (State.modQueue_formed _ _ hF) | split)
    · exact h1
    · rename_i u e
      exact answer_formed _ _ _ _ (State.modQueue_formed _ _ (flushQueue_formed t q h1 u e))
  · exact hF

theorem execVfconf_formed (s : State) (hF : Formed s) : OutFormed (execVfconf s) := by
  unfold execVfconf
  refine outFormed_next.2 (pfOnly_formed _ _ _ (fun _ _ => ?_) hF)
  dsimp only
  repeat' (first | exact hF | split)

theorem execOwner_formed (s : State) (hF : Formed s) : OutFormed (execOwner s) := by
  unfold execOwner
  refine outFormed_next.2 (pfOnly_formed _ _ _ (fun _ _ => ?_) hF)
  dsimp only
  repeat' (first | exact hF | split)

theorem execPwrcap_formed (s : State) (hF : Formed s) : OutFormed (execPwrcap s) := by
  unfold execPwrcap
  refine outFormed_next.2 (pfOnly_formed _ _ _ (fun _ _ => ?_) hF)
  dsimp only
  repeat' (first | exact hF | split)

theorem execDomain_formed (s : State) (hF : Formed s) : OutFormed (execDomain s) := by
  unfold execDomain
  refine outFormed_next.2 (pfOnly_formed _ _ _ (fun _ _ => ?_) hF)
  repeat' (first | exact hF | split)

theorem execDremove_formed (s : State) (hF : Formed s) : OutFormed (execDremove s) := by
  unfold execDremove
  refine outFormed_next.2 (pfOnly_formed _ _ _ (fun _ _ => ?_) hF)
  repeat' (first | exact hF | split)

@[simp] theorem leaveForward_formed (s : State) (l : Nat) (L : Lease) (device newLease newGen : Nat) (hF : Formed s) :
    Formed (leaveForward s l L device newLease newGen) := by
  unfold leaveForward
  cases L.pair with
  | none => exact hF
  | some q => exact formed_mk.2 (forms_of_formed hF)

@[simp] theorem leaseLeaves_formed (s : State) (l : Nat) (L : Lease) (hF : Formed s) : Formed (leaseLeaves s l L) := by
  unfold leaseLeaves
  refine State.modLease_formed _ _ (State.modFn_formed _ _ ?_)
  split
  · exact formed_mk.2 (forms_of_formed hF)
  · exact formed_mk.2 (forms_of_formed hF)

@[simp] theorem evictLease_formed (s : State) (l : Nat) (hF : Formed s) : Formed (evictLease s l) :=
  foldl_formed _ (fun t e h => by
    split
    · exact backToPlace_formed _ _ _ h
    · exact evictPatch_formed _ _ _ _ h) _ hF

theorem execLmigrate_formed (s : State) (hF : Formed s) : OutFormed (execLmigrate s) := by
  unfold execLmigrate
  refine outFormed_next.2 ?_
  split
  · exact hF
  · split
    · exact answer_formed _ _ _ _ hF
    · refine onLease_formed _ _ _ (fun fn l L a => ?_) hF
      split
      · split
        · exact answer_formed _ _ _ _ hF
        · split
          · exact hF
          · have h1 := recallAll_formed _ (.lmigrate, 0) l L (State.modFn_formed L.vf (fun f => { f with out := true }) hF)
            dsimp only
            generalize recallAll _ _ _ _ = t at *
            split
            · exact h1
            · refine placerStep_formed _ _ _ _ (fun u hu => ?_) h1
              have h2 := evictLease_formed u l hu
              generalize evictLease u l = v at *
              split
              · exact answer_formed _ _ _ _ (leaseLeaves_formed _ _ _ (leaveForward_formed _ _ _ _ _ _ h2))
              · exact h2
      · exact hF

end Sys2Proof.Machine
end

