-- ==== Sys2Proof/Laws/Keep/Firmware.lean ====
section
/-! SUPPORT. What Machine/Firmware.lean keeps (Safety.lean, Formed). -/

namespace Sys2Proof.Machine

open Sys2Proof.Safety


@[simp] theorem ownerMsg_formed (s : State) (m : List Byte) (cmd : Nat) (f : Owner → Owner) (hF : Formed s) : Formed (ownerMsg s m cmd f) := by
  unfold ownerMsg
  repeat' (first | with_reducible assumption | with_reducible exact outFormed_next.2 hF | with_reducible refine inOrder_formed _ _ _ _ (fun _ _ => ?_) ?_ | with_reducible refine placerStep_formed _ _ _ _ (fun _ _ => ?_) ?_ | with_reducible refine OptFormed.of_eq ?_ (by assumption) | with_reducible refine DoneFormed.of_eq ?_ (by assumption) | (simp (maxDischargeDepth := 50) [*]; done) | split | with_reducible refine State.modCore_formed _ _ ?_ | with_reducible refine foldl_formed _ (fun _ _ _ => ?_) _ ?_ | with_reducible refine doneFormed_ok.2 ?_ | with_reducible refine outFormed_next.2 ?_ | with_reducible refine optFormed_some.2 ?_ | with_reducible refine Done.then_formed ?_ (fun _ _ => ?_) | with_reducible refine eachDone_formed _ (fun _ _ _ => ?_) _ ?_ | with_reducible refine formed_mk.2 (forms_of_formed ?_))

theorem execMeterReset_formed (s : State) (hF : Formed s) : OutFormed (execMeterReset s) := by
  unfold execMeterReset
  refine outFormed_next.2 ?_
  repeat' (first | exact hF | split | with_reducible refine onLease_formed _ _ _ (fun _ _ _ _ => ?_) hF | with_reducible refine answer_formed _ _ _ _ ?_ | (simp [hF]; done))

theorem execKeyroll_formed (s : State) (hF : Formed s) : OutFormed (execKeyroll s) := by
  unfold execKeyroll
  refine outFormed_next.2 ?_
  repeat' (first | exact hF | split | with_reducible refine onLease_formed _ _ _ (fun _ _ _ _ => ?_) hF | with_reducible refine answer_formed _ _ _ _ ?_ | (simp [hF]; done))

theorem execFirmwareTransfer_formed (s : State) (hF : Formed s) : OutFormed (execFirmwareTransfer s) := by
  unfold execFirmwareTransfer
  refine outFormed_next.2 ?_
  repeat' (first | exact hF | split)

@[simp] theorem evictAll_formed (s : State) (hF : Formed s) : Formed (evictAll s) :=
  foldl_formed _ (fun t e h => by
    split
    · exact backToPlace_formed _ _ _ h
    · exact evictPatch_formed _ _ _ _ h) _ hF

@[simp] theorem quiesce_formed (s : State) (k : Nat) (hF : Formed s) : Formed (quiesce s k) := by
  have h1 : Formed { s with quiesced := true } := formed_mk.2 (forms_of_formed hF)
  unfold quiesce
  dsimp only
  split
  · exact h1
  · refine placerStep_formed _ _ _ _ (fun t ht => ?_) h1
    have h2 := evictAll_formed t ht
    generalize evictAll t = u at *
    split
    · exact requestSeal_formed _ _ (formed_mk.2 (forms_of_formed h2))
    · exact h2

@[simp] theorem restoreAll_formed (s : State) (hF : Formed s) : Formed (restoreAll s) := by
  unfold restoreAll
  refine foldl_formed _ (fun _ _ h => ?_) _ hF
  repeat' (first | exact h | split | (simp [h]; done))

@[simp] theorem loadStaged_formed (s : State) (k : Nat) (hF : Formed s) : Formed (loadStaged s k) := by
  unfold loadStaged
  repeat' (first | with_reducible assumption | with_reducible exact outFormed_next.2 hF | with_reducible refine inOrder_formed _ _ _ _ (fun _ _ => ?_) ?_ | with_reducible refine placerStep_formed _ _ _ _ (fun _ _ => ?_) ?_ | with_reducible refine OptFormed.of_eq ?_ (by assumption) | with_reducible refine DoneFormed.of_eq ?_ (by assumption) | (simp (maxDischargeDepth := 50) [*]; done) | split)

theorem execFirmwareActivate_formed (s : State) (hF : Formed s) : OutFormed (execFirmwareActivate s) := by
  unfold execFirmwareActivate
  repeat' (first | with_reducible assumption | with_reducible exact outFormed_next.2 hF | with_reducible refine inOrder_formed _ _ _ _ (fun _ _ => ?_) ?_ | with_reducible refine placerStep_formed _ _ _ _ (fun _ _ => ?_) ?_ | with_reducible refine OptFormed.of_eq ?_ (by assumption) | with_reducible refine DoneFormed.of_eq ?_ (by assumption) | (simp (maxDischargeDepth := 50) [*]; done) | split)

theorem execColdReset_formed (s : State) (hF : Formed s) : OutFormed (execColdReset s) := by
  unfold execColdReset
  refine outFormed_next.2 ?_
  split
  · obtain ⟨_, h2, h3, _, _⟩ := hF
    exact ⟨(by decide : State.reset.mem.wf = true), h2, h3, (by decide : State.reset.token < 11), (by decide : State.reset.time < 2 ^ 64)⟩
  · exact hF

end Sys2Proof.Machine
end

