-- ==== Sys2Proof/Laws/Keep/Cycle.lean ====
section
/-! SUPPORT. What Machine/Cycle.lean keeps (Safety.lean, Formed). -/

namespace Sys2Proof.Machine

open Sys2Proof.Safety


@[simp] theorem islandsTick_formed (s : State) (hF : Formed s) : Formed (islandsTick s) :=
  formed_mk.2 (forms_of_formed hF)

@[simp] theorem watchdog_formed (s : State) (hF : Formed s) : Formed (watchdog s) := by
  unfold watchdog
  repeat' (first | with_reducible assumption | with_reducible exact outFormed_next.2 hF | with_reducible refine inOrder_formed _ _ _ _ (fun _ _ => ?_) ?_ | with_reducible refine placerStep_formed _ _ _ _ (fun _ _ => ?_) ?_ | with_reducible refine OptFormed.of_eq ?_ (by assumption) | with_reducible refine DoneFormed.of_eq ?_ (by assumption) | (simp (maxDischargeDepth := 50) [*]; done))

@[simp] theorem accrue_formed (s : State) (o m amount unit : Nat) (hF : Formed s) : Formed (accrue s o m amount unit) := by
  unfold accrue
  repeat' (first | with_reducible assumption | with_reducible exact outFormed_next.2 hF | with_reducible refine inOrder_formed _ _ _ _ (fun _ _ => ?_) ?_ | with_reducible refine placerStep_formed _ _ _ _ (fun _ _ => ?_) ?_ | with_reducible refine OptFormed.of_eq ?_ (by assumption) | with_reducible refine DoneFormed.of_eq ?_ (by assumption) | (simp (maxDischargeDepth := 50) [*]; done))

@[simp] theorem leasedTime_formed (dt : Nat) (s : State) (L : Lease) (hF : Formed s) : Formed (leasedTime dt s L) := by
  unfold leasedTime
  exact foldl_formed _ (fun _ _ h => by simp [h]) _ hF

@[simp] theorem coreTime_formed (dt : Nat) (s : State) (cid : Nat) (c : Core) (hF : Formed s) : Formed (coreTime dt s cid c) := by
  unfold coreTime
  split
  · exact hF
  · rename_i p _
    have h1 : ∀ b : Bool, Formed (if b then
        let n := stepOn s cid
        let adds := eventAdds s cid n
        let isl := islandXY (xyOf s cid).1 (xyOf s cid).2
        let busy := n - adds.getD 5 0
        let s := (s.setCore cid (noteFull (cyclesOf s cid) ((c.count adds).sampleFill n))).modOwner (leaseOwner s p.lease) fun w =>
          { w with active := tmod w.active isl 0 (· + busy) }
        accrue s (leaseOwner s p.lease) 1 (busy * 1000000 / Nat.max 1 (tgetD s.islands isl {}).freq) 1000000
      else s) := by
      intro b
      split
      · exact accrue_formed _ _ _ _ _ (State.modOwner_formed _ _ (State.setCore_formed _ _ hF))
      · exact hF
    exact foldl_formed (fun s (r : Nat × Nat) => accrue s _ r.1 (dt * r.2) 1000) (fun _ _ h => accrue_formed _ _ _ _ _ h) _ (h1 _)

@[simp] theorem clock_formed (s : State) (hF : Formed s) : Formed (clock s) := by
  have h0 : Formed { retryHeld (retryPosted s) with time := (s.time + Config.stepTime s.tick) % 2 ^ 64 } := by
    obtain ⟨h1, h2, h3, h4, _⟩ := retryHeld_formed _ (retryPosted_formed _ hF)
    exact ⟨h1, h2, h3, h4, Nat.mod_lt _ (Nat.two_pow_pos 64)⟩
  have h1 := watchdog_formed _ (islandsTick_formed _ h0)
  unfold clock
  dsimp only
  generalize watchdog _ = t at *
  have h2 := foldl_formed (fun u (e : Nat × Lease) => leasedTime (Config.stepTime s.tick) u e.2) (fun _ _ h => leasedTime_formed _ _ _ h)
    (t.leases.filter fun e => e.2.st != .granting) h1
  exact formed_mk.2 (forms_of_formed (foldl_formed _ (fun _ _ h => coreTime_formed _ _ _ _ h) _ h2))

@[simp] theorem bring_formed (s : State) (i : Input) (hF : Formed s) : Formed (bring s i) := by
  unfold bring
  repeat' (first | with_reducible assumption | with_reducible exact outFormed_next.2 hF | with_reducible refine inOrder_formed _ _ _ _ (fun _ _ => ?_) ?_ | with_reducible refine placerStep_formed _ _ _ _ (fun _ _ => ?_) ?_ | with_reducible refine OptFormed.of_eq ?_ (by assumption) | with_reducible refine DoneFormed.of_eq ?_ (by assumption) | (simp (maxDischargeDepth := 50) [*]; done))

@[simp] theorem stage_formed (s : State) (w : IWord) (hF : Formed s) : Formed (stage s w) := by
  unfold stage
  repeat' (first | with_reducible assumption | with_reducible exact outFormed_next.2 hF | with_reducible refine inOrder_formed _ _ _ _ (fun _ _ => ?_) ?_ | with_reducible refine placerStep_formed _ _ _ _ (fun _ _ => ?_) ?_ | with_reducible refine OptFormed.of_eq ?_ (by assumption) | with_reducible refine DoneFormed.of_eq ?_ (by assumption) | (simp (maxDischargeDepth := 50) [*]; done))

end Sys2Proof.Machine
end

