-- ==== Sys2Proof/Laws/Keep/Integer.lean ====
section
/-! SUPPORT. What Machine/Integer.lean keeps (Safety.lean, Formed). -/

namespace Sys2Proof.Machine

open Sys2Proof.Safety

theorem execAdd_formed (h : Head) (ec : IntEC) (b : Option (BitVec 32)) (s : State) (hF : Formed s) : OutFormed (execAdd h ec b s) := by
  unfold execAdd
  exact issue_formed _ _ _ (fun _ _ _ _ ht => by simp [ht]) hF

theorem execSub_formed (h : Head) (ec : IntEC) (b : Option (BitVec 32)) (s : State) (hF : Formed s) : OutFormed (execSub h ec b s) := by
  unfold execSub
  exact issue_formed _ _ _ (fun _ _ _ _ ht => by simp [ht]) hF

theorem execAdds_formed (h : Head) (ec : IntEC) (b : Option (BitVec 32)) (s : State) (hF : Formed s) : OutFormed (execAdds h ec b s) := by
  unfold execAdds
  exact issue_formed _ _ _ (fun _ _ _ _ ht => by simp [ht]) hF

theorem execSubs_formed (h : Head) (ec : IntEC) (b : Option (BitVec 32)) (s : State) (hF : Formed s) : OutFormed (execSubs h ec b s) := by
  unfold execSubs
  exact issue_formed _ _ _ (fun _ _ _ _ ht => by simp [ht]) hF

theorem execMul_formed (h : Head) (ec : IntEC) (b : Option (BitVec 32)) (s : State) (hF : Formed s) : OutFormed (execMul h ec b s) := by
  unfold execMul
  exact issue_formed _ _ _ (fun _ _ _ _ ht => by simp [ht]) hF

theorem execMulh_formed (h : Head) (ec : IntEC) (b : Option (BitVec 32)) (s : State) (hF : Formed s) : OutFormed (execMulh h ec b s) := by
  unfold execMulh
  exact issue_formed _ _ _ (fun _ _ _ _ ht => by simp [ht]) hF

theorem execMulhz_formed (h : Head) (ec : IntEC) (b : Option (BitVec 32)) (s : State) (hF : Formed s) : OutFormed (execMulhz h ec b s) := by
  unfold execMulhz
  exact issue_formed _ _ _ (fun _ _ _ _ ht => by simp [ht]) hF

theorem execMad_formed (h : Head) (ec : IntEC) (b : Option (BitVec 32)) (s : State) (hF : Formed s) : OutFormed (execMad h ec b s) := by
  unfold execMad
  exact issue_formed _ _ _ (fun _ _ _ _ ht => by simp [ht]) hF

theorem execDiv_formed (h : Head) (ec : IntEC) (b : Option (BitVec 32)) (s : State) (hF : Formed s) : OutFormed (execDiv h ec b s) := by
  unfold execDiv
  exact issue_formed _ _ _ (fun _ _ _ _ ht => by simp [ht]) hF

theorem execDivz_formed (h : Head) (ec : IntEC) (b : Option (BitVec 32)) (s : State) (hF : Formed s) : OutFormed (execDivz h ec b s) := by
  unfold execDivz
  exact issue_formed _ _ _ (fun _ _ _ _ ht => by simp [ht]) hF

theorem execRem_formed (h : Head) (ec : IntEC) (b : Option (BitVec 32)) (s : State) (hF : Formed s) : OutFormed (execRem h ec b s) := by
  unfold execRem
  exact issue_formed _ _ _ (fun _ _ _ _ ht => by simp [ht]) hF

theorem execRemz_formed (h : Head) (ec : IntEC) (b : Option (BitVec 32)) (s : State) (hF : Formed s) : OutFormed (execRemz h ec b s) := by
  unfold execRemz
  exact issue_formed _ _ _ (fun _ _ _ _ ht => by simp [ht]) hF

theorem execAnd_formed (h : Head) (ec : IntEC) (b : Option (BitVec 32)) (s : State) (hF : Formed s) : OutFormed (execAnd h ec b s) := by
  unfold execAnd
  exact issue_formed _ _ _ (fun _ _ _ _ ht => by simp [ht]) hF

theorem execOr_formed (h : Head) (ec : IntEC) (b : Option (BitVec 32)) (s : State) (hF : Formed s) : OutFormed (execOr h ec b s) := by
  unfold execOr
  exact issue_formed _ _ _ (fun _ _ _ _ ht => by simp [ht]) hF

theorem execXor_formed (h : Head) (ec : IntEC) (b : Option (BitVec 32)) (s : State) (hF : Formed s) : OutFormed (execXor h ec b s) := by
  unfold execXor
  exact issue_formed _ _ _ (fun _ _ _ _ ht => by simp [ht]) hF

theorem execAndn_formed (h : Head) (ec : IntEC) (b : Option (BitVec 32)) (s : State) (hF : Formed s) : OutFormed (execAndn h ec b s) := by
  unfold execAndn
  exact issue_formed _ _ _ (fun _ _ _ _ ht => by simp [ht]) hF

theorem execOrn_formed (h : Head) (ec : IntEC) (b : Option (BitVec 32)) (s : State) (hF : Formed s) : OutFormed (execOrn h ec b s) := by
  unfold execOrn
  exact issue_formed _ _ _ (fun _ _ _ _ ht => by simp [ht]) hF

theorem execShl_formed (h : Head) (ec : IntEC) (b : Option (BitVec 32)) (s : State) (hF : Formed s) : OutFormed (execShl h ec b s) := by
  unfold execShl
  exact issue_formed _ _ _ (fun _ _ _ _ ht => by simp [ht]) hF

theorem execShr_formed (h : Head) (ec : IntEC) (b : Option (BitVec 32)) (s : State) (hF : Formed s) : OutFormed (execShr h ec b s) := by
  unfold execShr
  exact issue_formed _ _ _ (fun _ _ _ _ ht => by simp [ht]) hF

theorem execSar_formed (h : Head) (ec : IntEC) (b : Option (BitVec 32)) (s : State) (hF : Formed s) : OutFormed (execSar h ec b s) := by
  unfold execSar
  exact issue_formed _ _ _ (fun _ _ _ _ ht => by simp [ht]) hF

theorem execRol_formed (h : Head) (ec : IntEC) (b : Option (BitVec 32)) (s : State) (hF : Formed s) : OutFormed (execRol h ec b s) := by
  unfold execRol
  exact issue_formed _ _ _ (fun _ _ _ _ ht => by simp [ht]) hF

theorem execClz_formed (h : Head) (ec : IntEC) (s : State) (hF : Formed s) : OutFormed (execClz h ec s) := by
  unfold execClz
  exact issue_formed _ _ _ (fun _ _ _ _ ht => by simp [ht]) hF

theorem execCtz_formed (h : Head) (ec : IntEC) (s : State) (hF : Formed s) : OutFormed (execCtz h ec s) := by
  unfold execCtz
  exact issue_formed _ _ _ (fun _ _ _ _ ht => by simp [ht]) hF

theorem execPopc_formed (h : Head) (ec : IntEC) (s : State) (hF : Formed s) : OutFormed (execPopc h ec s) := by
  unfold execPopc
  exact issue_formed _ _ _ (fun _ _ _ _ ht => by simp [ht]) hF

theorem execBrev_formed (h : Head) (ec : IntEC) (s : State) (hF : Formed s) : OutFormed (execBrev h ec s) := by
  unfold execBrev
  exact issue_formed _ _ _ (fun _ _ _ _ ht => by simp [ht]) hF

theorem execBswap_formed (h : Head) (ec : IntEC) (s : State) (hF : Formed s) : OutFormed (execBswap h ec s) := by
  unfold execBswap
  exact issue_formed _ _ _ (fun _ _ _ _ ht => by simp [ht]) hF

theorem execExt_formed (h : Head) (ec : IntEC) (b : Option (BitVec 32)) (s : State) (hF : Formed s) : OutFormed (execExt h ec b s) := by
  unfold execExt
  exact issue_formed _ _ _ (fun _ _ _ _ ht => by simp [ht]) hF

theorem execExtz_formed (h : Head) (ec : IntEC) (b : Option (BitVec 32)) (s : State) (hF : Formed s) : OutFormed (execExtz h ec b s) := by
  unfold execExtz
  exact issue_formed _ _ _ (fun _ _ _ _ ht => by simp [ht]) hF

theorem execIns_formed (h : Head) (ec : IntEC) (b : Option (BitVec 32)) (s : State) (hF : Formed s) : OutFormed (execIns h ec b s) := by
  unfold execIns
  exact issue_formed _ _ _ (fun _ _ _ _ ht => by simp [ht]) hF

theorem execMin_formed (h : Head) (ec : IntEC) (b : Option (BitVec 32)) (s : State) (hF : Formed s) : OutFormed (execMin h ec b s) := by
  unfold execMin
  exact issue_formed _ _ _ (fun _ _ _ _ ht => by simp [ht]) hF

theorem execMax_formed (h : Head) (ec : IntEC) (b : Option (BitVec 32)) (s : State) (hF : Formed s) : OutFormed (execMax h ec b s) := by
  unfold execMax
  exact issue_formed _ _ _ (fun _ _ _ _ ht => by simp [ht]) hF

theorem execMinz_formed (h : Head) (ec : IntEC) (b : Option (BitVec 32)) (s : State) (hF : Formed s) : OutFormed (execMinz h ec b s) := by
  unfold execMinz
  exact issue_formed _ _ _ (fun _ _ _ _ ht => by simp [ht]) hF

theorem execMaxz_formed (h : Head) (ec : IntEC) (b : Option (BitVec 32)) (s : State) (hF : Formed s) : OutFormed (execMaxz h ec b s) := by
  unfold execMaxz
  exact issue_formed _ _ _ (fun _ _ _ _ ht => by simp [ht]) hF

theorem execAbs_formed (h : Head) (ec : IntEC) (s : State) (hF : Formed s) : OutFormed (execAbs h ec s) := by
  unfold execAbs
  exact issue_formed _ _ _ (fun _ _ _ _ ht => by simp [ht]) hF

theorem execNeg_formed (h : Head) (ec : IntEC) (s : State) (hF : Formed s) : OutFormed (execNeg h ec s) := by
  unfold execNeg
  exact issue_formed _ _ _ (fun _ _ _ _ ht => by simp [ht]) hF

theorem execLea_formed (h : Head) (ec : IntEC) (b : Option (BitVec 32)) (s : State) (hF : Formed s) : OutFormed (execLea h ec b s) := by
  unfold execLea
  exact issue_formed _ _ _ (fun _ _ _ _ ht => by simp [ht]) hF

end Sys2Proof.Machine
end

