-- ==== Sys2Proof/Laws/Keep/Lane.lean ====
section
/-! SUPPORT. What Machine/Lane.lean keeps (Safety.lean, Formed). -/

namespace Sys2Proof.Machine

open Sys2Proof.Safety

theorem execPerm_formed (h : Head) (ec : EC) (zoob : Bool) (s : State) (hF : Formed s) : OutFormed (execPerm h ec zoob s) := by
  unfold execPerm
  exact issue_formed _ _ _ (fun _ _ _ _ ht => by simp [ht]) hF

theorem execRotl_formed (h : Head) (ec : EC) (dyn : Bool) (c : BitVec 7) (s : State) (hF : Formed s) : OutFormed (execRotl h ec dyn c s) := by
  unfold execRotl
  exact issue_formed _ _ _ (fun _ _ _ _ ht => by simp [ht]) hF

theorem execShfl_formed (h : Head) (ec : EC) (mode : BitVec 2) (d : BitVec 6) (s : State) (hF : Formed s) : OutFormed (execShfl h ec mode d s) := by
  unfold execShfl
  exact issue_formed _ _ _ (fun _ _ _ _ ht => by simp [ht]) hF

theorem execBcastl_formed (h : Head) (ec : EC) (j : BitVec 6) (s : State) (hF : Formed s) : OutFormed (execBcastl h ec j s) := by
  unfold execBcastl
  exact issue_formed _ _ _ (fun _ _ _ _ ht => by simp [ht]) hF

theorem execRedl_formed (h : Head) (ec : EC) (g : BitVec 3) (r : BitVec 3) (op : RedOp) (s : State) (hF : Formed s) : OutFormed (execRedl h ec g r op s) := by
  unfold execRedl
  exact issue_formed _ _ _ (fun _ _ _ _ ht => by simp [ht]) hF

theorem execScanl_formed (h : Head) (ec : EC) (g : BitVec 3) (excl : Bool) (r : BitVec 3) (op : RedOp) (s : State) (hF : Formed s) : OutFormed (execScanl h ec g excl r op s) := by
  unfold execScanl
  exact issue_formed _ _ _ (fun _ _ _ _ ht => by simp [ht]) hF

theorem execCompr_formed (h : Head) (ec : EC) (s : State) (hF : Formed s) : OutFormed (execCompr h ec s) := by
  unfold execCompr
  exact issue_formed _ _ _ (fun _ _ _ _ ht => by simp [ht]) hF

theorem execExpnd_formed (h : Head) (ec : EC) (merge : Bool) (s : State) (hF : Formed s) : OutFormed (execExpnd h ec merge s) := by
  unfold execExpnd
  exact issue_formed _ _ _ (fun _ _ _ _ ht => by simp [ht]) hF

theorem execLsel_formed (h : Head) (ec : EC) (s : State) (hF : Formed s) : OutFormed (execLsel h ec s) := by
  unfold execLsel
  exact issue_formed _ _ _ (fun _ _ _ _ ht => by simp [ht]) hF

theorem execIota_formed (h : Head) (ec : EC) (base : BitVec 16) (inc : BitVec 8) (s : State) (hF : Formed s) : OutFormed (execIota h ec base inc s) := by
  unfold execIota
  exact issue_formed _ _ _ (fun _ _ _ _ ht => by simp [ht]) hF

end Sys2Proof.Machine
end

