-- ==== Sys2Proof/Laws/Keep/Stream.lean ====
section
/-! SUPPORT. What Machine/Stream.lean keeps (Safety.lean, Formed). -/

namespace Sys2Proof.Machine

open Sys2Proof.Safety

theorem execAccs_formed (h : Head) (ec : EC) (lvl : BitVec 3) (rnd : BitVec 3) (op : RedOp) (s : State) (hF : Formed s) : OutFormed (execAccs h ec lvl rnd op s) := by
  unfold execAccs
  exact issue_formed _ _ _ (fun _ _ _ _ ht => by simp [ht]) hF

theorem execStopk_formed (h : Head) (lvl : BitVec 3) (s : State) (hF : Formed s) : OutFormed (execStopk h lvl s) := by
  unfold execStopk
  exact issue_formed _ _ _ (fun _ _ _ _ ht => by simp [ht]) hF

theorem execTkind_formed (h : Head) (s : State) (hF : Formed s) : OutFormed (execTkind h s) := by
  unfold execTkind
  exact issue_formed _ _ _ (fun _ _ _ _ ht => by simp [ht]) hF

theorem execRedn_formed (h : Head) (ec : EC) (mask : BitVec 16) (arr : Bool) (rnd : BitVec 3) (op : RedOp) (s : State) (hF : Formed s) : OutFormed (execRedn h ec mask arr rnd op s) := by
  unfold execRedn
  refine issue_formed _ _ _ (fun _ _ _ _ ht => ?_) hF
  dsimp only
  split <;> simp [ht]

end Sys2Proof.Machine
end

