-- ==== Sys2Proof/Laws/Lanes.lean ====
section
/-! SUPPORT. Elements of joined values: what `join`, `intMap` and the scalar results hold, element by element. -/

namespace Sys2Proof.Laws

open Sys2Proof.Machine Sys2Proof.Safety

theorem joinN_lt (n : Nat) (xs : List Nat) : joinN n xs < 2 ^ (n * xs.length) := by
  induction xs with
  | nil => simp [joinN]
  | cons x xs ih =>
    have h := Nat.mod_lt x (Nat.two_pow_pos n)
    have e : 2 ^ (n * (x :: xs).length) = 2 ^ n * 2 ^ (n * xs.length) := by
      rw [← pow_add, List.length_cons]; congr 1; ring
    rw [joinN, e]
    calc x % 2 ^ n + 2 ^ n * joinN n xs < 2 ^ n + 2 ^ n * joinN n xs := by omega
      _ = 2 ^ n * (joinN n xs + 1) := by ring
      _ ≤ 2 ^ n * 2 ^ (n * xs.length) := Nat.mul_le_mul_left _ ih

theorem elemN_joinN (n : Nat) (xs : List Nat) (k : Nat) : elemN (joinN n xs) n k = xs.getD k 0 % 2 ^ n := by
  induction xs generalizing k with
  | nil => simp [joinN, elemN]
  | cons x xs ih =>
    cases k with
    | zero => simp [elemN, joinN, Nat.add_mul_mod_self_left]
    | succ k =>
      have h := Nat.mod_lt x (Nat.two_pow_pos n)
      have e : 2 ^ ((k + 1) * n) = 2 ^ n * 2 ^ (k * n) := by rw [← pow_add]; congr 1; ring
      simp only [elemN, joinN, e, ← Nat.div_div_eq_div_mul, List.getD_cons_succ]
      rw [Nat.add_mul_div_left _ _ (Nat.two_pow_pos n), Nat.div_eq_of_lt h, Nat.zero_add]
      exact ih k

theorem lane_toNat (v : Value) (n k : Nat) : (lane v n k).toNat = elem v n k := by
  simp [lane, elem, elemN, Nat.shiftRight_eq_div_pow, Nat.mul_comm]

theorem elem_lt (v : Value) (n k : Nat) : elem v n k < 2 ^ n := Nat.mod_lt _ (Nat.two_pow_pos n)

theorem elem_join (n : Nat) (xs : List Nat) (k : Nat) (h : n * xs.length ≤ 512) : elem (join n xs) n k = xs.getD k 0 % 2 ^ n := by
  have hl : joinN n xs < 2 ^ 512 := Nat.lt_of_lt_of_le (joinN_lt n xs) (Nat.pow_le_pow_right (Nat.succ_pos 1) h)
  rw [elem, join, BitVec.toNat_ofNat, Nat.mod_eq_of_lt hl, elemN_joinN]

theorem getD_map_range (f : Nat → Nat) (m k : Nat) (h : k < m) : ((List.range m).map f).getD k 0 = f k := by
  simp [List.getD_eq_getElem?_getD, h]

/-- Each element of a joined map. -/
theorem elem_join_map (n m k : Nat) (f : Nat → Nat) (h : n * m ≤ 512) (hk : k < m) :
    elem (join n ((List.range m).map f)) n k = f k % 2 ^ n := by
  rw [elem_join _ _ _ (by simpa using h), getD_map_range f m k hk]

theorem intBits_count (w : IntW) : intBits w * intCount w ≤ 512 := by cases w <;> decide

/-- An integer result, element by element (R184). -/
theorem elem_intMap (ec : IntEC) (f : Nat → Nat → Nat → Nat) (a b c : Value) (k : Nat) (hk : k < intCount ec.w) :
    elem (intMap ec f a b c) (intBits ec.w) k =
      f (elem a (intBits ec.w) k) (elem b (intBits ec.w) k) (elem c (intBits ec.w) k) % 2 ^ intBits ec.w := by
  obtain ⟨z, w⟩ := ec
  cases w
  case s32 =>
    obtain rfl : k = 0 := by simp [intCount] at hk; exact hk
    simp only [intMap, intResult, intCount, intBits, List.range_one, List.map_cons, List.map_nil, List.headD_cons, Nat.mod_mod]
    generalize f _ _ _ = x
    have hx : x % 2 ^ 32 < 2 ^ 32 := Nat.mod_lt _ (by norm_num)
    cases z
    · simp only [Bool.false_eq_true, if_false, elem, elemN, scalar, BitVec.toNat_ofNat, wrap, sgn]
      norm_num at hx ⊢
      split <;> omega
    · simp only [if_true, elem, elemN, scalar, BitVec.toNat_ofNat]
      norm_num at hx ⊢
      omega
  all_goals
    simp only [intMap, intResult]
    rw [elem_join_map _ _ _ _ (intBits_count _) hk, Nat.mod_mod]

/-- The bits above a scalar result (R184). -/
theorem scalarRest_intMap (ec : IntEC) (f : Nat → Nat → Nat → Nat) (a b c : Value) : scalarRest ec (intMap ec f a b c) := by
  obtain ⟨z, w⟩ := ec
  cases w
  case s64 =>
    simp only [scalarRest]
    apply BitVec.eq_of_toNat_eq
    rw [BitVec.toNat_setWidth, lane_toNat]
    simp only [intMap, intResult, intCount, intBits, List.range_one, List.map_cons, List.map_nil, join, joinN, elem, elemN,
      BitVec.toNat_ofNat]
    generalize f _ _ _ = x
    norm_num
    omega
  case s32 =>
    simp only [scalarRest, intMap, intResult, intCount, intBits, List.range_one, List.map_cons, List.map_nil, List.headD_cons, Nat.mod_mod]
    generalize f _ _ _ = x
    have hx : x % 2 ^ 32 < 2 ^ 32 := Nat.mod_lt _ (by norm_num)
    cases z
    · simp only [Bool.false_eq_true, if_false, scalar]
      apply BitVec.eq_of_toNat_eq
      simp only [BitVec.toNat_ofNat, BitVec.toNat_setWidth, BitVec.toNat_signExtend, lane_toNat, wrap, sgn, BitVec.msb_eq_decide,
        elem, elemN]
      norm_num at hx ⊢
      split <;> split <;> omega
    · simp only [if_true, scalar]
      apply BitVec.eq_of_toNat_eq
      rw [BitVec.toNat_setWidth, lane_toNat]
      simp only [elem, elemN, BitVec.toNat_ofNat]
      norm_num at hx ⊢
      omega
  all_goals trivial

end Sys2Proof.Laws
end

