-- ==== Sys2Proof/Laws/Packets.lean ====
section
/-! SUPPORT. Packets of the pipeline (R96 to R98): finding a packet after a change, and what it is for a packet to end. -/

namespace Sys2Proof.Machine

open Sys2Proof.Safety

/-- A packet that is found has the number it was found by. -/
theorem State.pkt_num {s : State} {n : Nat} {p : Pkt} (h : s.pkt n = some p) : p.num = n := by
  unfold State.pkt at h
  simpa using List.find?_some h

/-- A change of one packet is what is found afterwards. -/
theorem State.pkt_modPkt (s : State) (n : Nat) (f : Pkt → Pkt) (hf : ∀ p, s.pkt n = some p → (f p).num = n) :
    (s.modPkt n f).pkt n = (s.pkt n).map f := by
  unfold State.pkt State.modPkt at *
  simp only at *
  generalize s.pipe = l at *
  induction l with
  | nil => rfl
  | cons p l ih =>
    simp only [List.map_cons, List.find?_cons]
    by_cases hp : p.num = n
    · have := hf p (by simp [hp])
      simp [hp, this]
    · simp only [hp, if_false, decide_false]
      exact ih fun q hq => hf q (by simpa [hp] using hq)

/-- Changing one packet leaves every other. -/
theorem State.pkt_modPkt_other (s : State) (n m : Nat) (f : Pkt → Pkt) (hm : m ≠ n) (hf : ∀ p, p.num = n → (f p).num = n) :
    (s.modPkt n f).pkt m = s.pkt m := by
  unfold State.pkt State.modPkt
  simp only
  generalize s.pipe = l
  induction l with
  | nil => rfl
  | cons p l ih =>
    simp only [List.map_cons, List.find?_cons]
    by_cases hp : p.num = n
    · have h1 : ¬ (p.num = m) := by omega
      have h3 : ¬ (n = m) := by omega
      simp [hp, h3, ih, hf p hp]
    · simp [hp, ih]

/-- What the strip turns to: the packet that its selection names. -/
theorem pktAt_pkt {s : State} {st : Stage} {p : Pkt} (h : pktAt s st = some p) : s.pkt p.num = some p ∧ p.stage = st := by
  unfold pktAt at h
  obtain ⟨h1, h2⟩ := Option.filter_eq_some_iff.1 h
  rw [State.pkt_num h1]
  exact ⟨h1, by simpa using h2⟩

/-- The same of a packet that acts. -/
theorem actOf_pkt {s : State} {ty : Nat} {p : Pkt} (h : actOf s ty = some p) : s.pkt p.num = some p ∧ p.stage = .act := by
  unfold actOf at h
  split at h
  · cases h
  · exact pktAt_pkt (Option.filter_eq_some_iff.1 h).1

/-- Taking waiters off touches the waiters and what is told to peers alone. -/
theorem delist_eq (s : State) (out : Waiter → Bool) : ∃ w x, delist s out = { s with waiters := w, peerOut := x } := by
  unfold delist
  have key : ∀ (ws : List Waiter) (g : State → Waiter → Bool) (t : State), ∃ x,
      ws.foldl (fun t w => if g t w then t else tellSignal t w.lease w.line false) t = { t with peerOut := x } := by
    intro ws g
    induction ws with
    | nil => exact fun t => ⟨t.peerOut, rfl⟩
    | cons w ws ih =>
      intro t
      have h : ∃ x, (if g t w then t else tellSignal t w.lease w.line false) = { t with peerOut := x } := by
        split
        · exact ⟨t.peerOut, rfl⟩
        · unfold tellSignal
          split
          · exact ⟨_, rfl⟩
          · exact ⟨t.peerOut, rfl⟩
      obtain ⟨x, h⟩ := h
      obtain ⟨y, hy⟩ := ih { t with peerOut := x }
      exact ⟨y, by rw [List.foldl_cons, h, hy]⟩
  obtain ⟨x, h⟩ := key (s.waiters.filter out) (fun _ w => waitsOn (s.waiters.filter fun w => ! out w) w.lease w.line)
    { s with waiters := s.waiters.filter fun w => ! out w }
  exact ⟨_, x, h⟩

/-- Giving the placer's operations up touches the patches and the cores alone. -/
theorem giveUp_eq (s : State) (pick : Instr × Nat → Bool) : ∃ p c, giveUp s pick = { s with patches := p, cores := c } := by
  have fold : ∀ (cs : List Nat) (f : Core → Core) (t : State), ∃ c, cs.foldl (fun s cid => s.modCore cid f) t = { t with cores := c } := by
    intro cs f
    induction cs with
    | nil => exact fun t => ⟨t.cores, rfl⟩
    | cons d cs ih => exact fun t => let ⟨c, h⟩ := ih (t.modCore d f); ⟨c, h⟩
  have stop : ∀ (t : State) (pt : Nat), ∃ p c, endStop t pt = { t with patches := p, cores := c } := fun t pt =>
    let ⟨c, h⟩ := fold (patchCores (t.modPatch pt fun p => { p with stop := none, held := false }) pt)
      (fun c => { c with pleat := { c.pleat with lock := false } }) (t.modPatch pt fun p => { p with stop := none, held := false })
    ⟨_, c, h⟩
  unfold giveUp
  generalize s.patches.filter _ = ps
  induction ps generalizing s with
  | nil => exact ⟨s.patches, s.cores, rfl⟩
  | cons e ps ih =>
    obtain ⟨p, c, h⟩ := stop s e.1
    obtain ⟨p', c', h'⟩ := ih { s with patches := p, cores := c }
    exact ⟨p', c', by rw [List.foldl_cons, h, h']⟩

/-- A packet that had not ended ends with the outcome it is given. -/
theorem endPkt_pkt {s : State} {p : Pkt} (n status field : Nat) (result : BitVec 64) (h : s.pkt n = some p) (hs : p.stage ≠ .complete) :
    (endPkt s n status field result).pkt n =
      some { p with stage := .complete, status := status, field := field, result := result, doneSeq := s.tick, charge := 0 } := by
  have hn := State.pkt_num h
  unfold endPkt
  rw [h]
  simp only [Option.filter_some, bne_iff_ne, ne_eq, hs, not_false_eq_true, if_true]
  obtain ⟨w, x, h1⟩ := delist_eq (s.modOwner (s.queue p.queue).owner fun o =>
    { o with deficit := o.deficit + p.charge - ((p.lentNow s.time / 1000 : Nat) : Int) }) fun w => w.pk = some n
  rw [h1]
  obtain ⟨q, c, h2⟩ := giveUp_eq _ fun k => k.2 = n + 1
  rw [h2, State.pkt_modPkt]
  · show Option.map _ (s.pkt n) = _
    rw [h]; rfl
  · intro q hq
    have := State.pkt_num hq
    exact this

/-- The same, as what it is to have completed. -/
theorem endPkt_completed {s : State} {p : Pkt} (n status : Nat) (result : BitVec 64) (h : s.pkt n = some p) (hs : p.stage ≠ .complete) :
    Completed (endPkt s n status 0xFFFF result) n status result :=
  ⟨_, endPkt_pkt _ _ _ _ h hs, rfl, rfl, rfl, rfl⟩

/-- A packet's end touches owners, waiters and the pipeline, what is told to peers, and the stops of an operation that is given up. -/
theorem endPkt_eq (s : State) (n status field : Nat) (result : BitVec 64) :
    ∃ o w x m p c, endPkt s n status field result =
      { s with owners := o, waiters := w, pipe := x, peerOut := m, patches := p, cores := c } := by
  unfold endPkt
  split
  · exact ⟨s.owners, s.waiters, s.pipe, s.peerOut, s.patches, s.cores, rfl⟩
  · rename_i p _
    obtain ⟨w, m, h1⟩ := delist_eq (s.modOwner (s.queue p.queue).owner fun o =>
      { o with deficit := o.deficit + p.charge - ((p.lentNow s.time / 1000 : Nat) : Int) }) fun w => w.pk = some n
    dsimp only
    rw [h1]
    obtain ⟨q, c, h2⟩ := giveUp_eq _ fun k => k.2 = n + 1
    rw [h2]
    exact ⟨_, _, _, _, _, _, rfl⟩

end Sys2Proof.Machine
end

