-- ==== Sys2Proof/Tests/Slice0.lean ====
section
/-! SUPPORT. The model's own tests: ill-formed terms that the checks refuse; words written out from the spec's encoding tables; results
from the spec's own tables and worked examples; and, for every statement with hypotheses, a state and operands that meet them. -/

namespace Sys2Proof.Tests

open Sys2Proof Sys2Proof.Machine Sys2Proof.Safety

set_option Elab.async false

/-! ### Ill-formed terms (R41 to R61, R172) -/

/-- No target. -/
def h0 : Head := ⟨.always, .none, .none⟩
/-- The first write entry. -/
def hw : Head := ⟨.always, .write 0, .none⟩
/-- Memory fields with nothing set. -/
def m0 : MemF := ⟨false, 0, none, 0⟩
/-- One 64-bit element, signed. -/
def s64 : IntEC := ⟨false, .s64⟩

theorem test_bad_same_targets : (Instr.add ⟨.always, .opA 1, .opA 1⟩ s64 none).wf = false := by decide
theorem test_bad_target_of_store : (Instr.sts hw .z32 m0).wf = false := by decide
theorem test_bad_operand_target_of_atomic : (Instr.atms ⟨.always, .opA 1, .none⟩ .add true m0).wf = false := by decide
theorem test_bad_write_target_of_accs : (Instr.accs hw (.int ⟨false, .v32⟩) 1 0 .add).wf = false := by decide
theorem test_bad_out_channel : (Instr.mov ⟨.always, .out 16, .none⟩).wf = false := by decide
theorem test_bad_branch_offset : (Instr.exitB h0 4).wf = false := by decide
theorem test_bad_imm_above_element : (Instr.add hw ⟨false, .b8⟩ (some 0x100)).wf = false := by decide
theorem test_bad_sign_of_mulhz : (Instr.mulhz hw ⟨false, .v32⟩ none).wf = false := by decide
theorem test_bad_field_width : (Instr.ext hw ⟨false, .h16⟩ none).wf = false := by decide
theorem test_bad_swap_of_nibbles : (Instr.bswap hw ⟨false, .q4⟩).wf = false := by decide
theorem test_bad_identity : (Instr.getid hw 10).wf = false := by decide
theorem test_bad_float_format : (Instr.fadd hw ⟨false, .e4m3⟩ none).wf = false := by decide
theorem test_bad_stochastic_widening : (Instr.fcvt hw ⟨false, .bf16⟩ ⟨0, false, false, 5, false, 1⟩).wf = false := by decide
theorem test_bad_integer_saturation : (Instr.fcvti hw ⟨false, .f32⟩ ⟨0, false, true, 0, false, 1⟩).wf = false := by decide
theorem test_bad_pack_pair : (Instr.pack hw ⟨false, .f64⟩ ⟨0, false, false, 0, false, 2⟩).wf = false := by decide
theorem test_bad_quant_scalar : (Instr.quant hw ⟨true, .f32⟩ ⟨0, false, false, 0, false, 4⟩).wf = false := by decide
theorem test_bad_lane_scalar : (Instr.perm hw (.int s64) false).wf = false := by decide
theorem test_bad_shuffle_distance : (Instr.shfl hw (.int ⟨false, .d64⟩) 0 8).wf = false := by decide
theorem test_bad_float_and : (Instr.redl hw (.flt ⟨false, .f32⟩) 0 0 .and).wf = false := by decide
theorem test_bad_one_head : (Instr.redn hw (.int ⟨false, .v32⟩) 1 false 0 .add).wf = false := by decide
theorem test_bad_sc_scope : (Instr.ldg hw .z32 false ⟨true, 0, some .lease, 0⟩).wf = false := by decide
theorem test_bad_signed_store : (Instr.stg h0 .s32 false m0).wf = false := by decide
theorem test_bad_mangle_shape : (Instr.marm hw 1).wf = false := by decide
theorem test_bad_mangle_format : (Instr.mload hw (.flt ⟨false, .f32⟩)).wf = false := by decide
theorem test_bad_copy_offset : (Instr.cpy h0 ⟨false, 0, none, 64⟩).wf = false := by decide
theorem test_bad_fence_scope : (Instr.fenceSc h0 .cluster).wf = false := by decide
theorem test_bad_token_kind : (Instr.send h0 13 0).wf = false := by decide
theorem test_bad_read_only_register : (Instr.csrw hw 5).wf = false := by decide
theorem test_bad_named_service : (Instr.svcReserved hw 4).wf = false := by decide
theorem test_bad_queue : (Instr.ingest 1024).wf = false := by decide
theorem test_bad_core : (Instr.blockFetch 3264 0).wf = false := by decide
theorem test_bad_port : (Instr.peerPortDown 18).wf = false := by decide

/-! ### Words written out from the encoding (R41: OPC 63:56, PM 55 with I ... by the field tables of R41 to R61) -/

theorem test_word_nop : decodeTableWord 64 0xE700000000000000 = some (.nop h0) := by decide
theorem test_word_mov : decodeTableWord 64 0x0500858700000000 = some (.mov ⟨.always, .pred 5, .pred 7⟩) := by decide
theorem test_word_movi : decodeTableWord 64 0x0304410000000001 = some (.movi ⟨.always, .opB 1, .none⟩ .s32 1) := by decide
theorem test_word_anyl : decodeTableWord 64 0x0B00820000000000 = some (.anyl ⟨.always, .pred 2, .none⟩ .s64) := by decide
theorem test_word_adds : decodeTableWord 64 0x1210252600000000 = some (.adds ⟨.always, .opA 5, .opA 6⟩ ⟨false, .b8⟩ none) := by decide
theorem test_word_ffma : decodeTableWord 64 0x434C272900000000 = some (.ffma ⟨.always, .opA 7, .opA 9⟩ ⟨false, .f16⟩ none) := by decide
theorem test_word_perm : decodeTableWord 64 0x602C2A0000000000 = some (.perm ⟨.always, .opA 10, .none⟩ (.int ⟨true, .h16⟩) false) := by decide
theorem test_word_exit : decodeTableWord 64 0x0114000000000000 = some (.exitT h0) := by decide
theorem test_word_ldg : decodeTableWord 64 0x7408A10024000010 =
    some (.ldg ⟨.always, .write 1, .none⟩ .z32 false ⟨false, 4, some .device, 16⟩) := by decide
theorem test_word_cas : decodeTableWord 64 0x7C4CA00014000000 = some (.atmg hw .cas true ⟨false, 2, some .device, 0⟩) := by decide
theorem test_word_tagw : decodeTableWord 64 0x9200210000000002 = some (.tagw ⟨.always, .opA 1, .none⟩ (some .cluster) false) := by decide
theorem test_word_mload : decodeTableWord 64 0xA04CA00000000000 = some (.mload hw (.flt ⟨false, .f16⟩)) := by decide
theorem test_word_pleat : decodeTableWord 64 0xB000230000000000 = some (.pleat ⟨.always, .opA 3, .none⟩) := by decide
theorem test_word_sealw : decodeTableWord 64 0xBA00230000000000 = some (.sealw ⟨.always, .opA 3, .none⟩) := by decide
theorem test_word_arrive : decodeTableWord 64 0xC100A10000000402 = some (.arrive ⟨.always, .write 1, .none⟩ false 2 4) := by decide
theorem test_word_recv : decodeTableWord 64 0xD100222100000002 = some (.recv ⟨.always, .opA 2, .opA 1⟩ 2) := by decide
theorem test_word_svc : decodeTableWord 64 0xE400A10000000002 = some (.svcRollbacks ⟨.always, .write 1, .none⟩) := by decide

/-! ### States for the statements' hypotheses -/

/-- A running one-core patch whose core is changed by `f`; `k` is the task whose slot 0 fires, none for the pinned instance. -/
def at1 (k : Option Nat) (x : Inst) (f : Core → Core) (p : Patch := stagePatch) (L : Lease := stageLease) : State :=
  let c := stageCore k.isNone 0
  { State.reset with
    cores := [(0, f { c with
      pinst := if k.isNone then [x] else []
      tasks := if k.isNone then [] else [(0, { st := .live, weight := 1, eff := 1, inst := some x })] })]
    patches := [(0, p)]
    leases := [(0, L)]
    cur := some { cid := 0, task := k, inst := 0, slot := 0 } }

/-- An instance of one `nop` whose slot holds the operands. -/
def inst1 (p a b c : Value) : Inst :=
  { stageInst 0xE700000000000000 with slots := [{ a := some (.val a), b := some (.val b), c := some (.val c), p := some (.val p) }] }

/-- The predicate value that lets a mode fire. -/
def letsFire : Pm → Value
  | .onFalse => 0
  | _ => 1

/-- The environment of slot 0. -/
def env1 (k : Option Nat) (x : Inst) (f : Core → Core) : Env :=
  let s := at1 k x f
  { cid := 0, k := k, slot := 0, c := s.core 0, t := if k.isNone then {} else (s.core 0).task 0, inst := x, ss := x.slots.getD 0 {}, pt := 0,
    p := stagePatch }

/-- Operands and a predicate that matches let any slot fire (R45). -/
theorem go_of_operands (pm : Pm) (n : Bool × Bool × Bool) (a b c : Value) :
    verdict pm n { a := some (.val a), b := some (.val b), c := some (.val c), p := some (.val (letsFire pm)) } = .go ⟨a, b, c⟩ := by
  obtain ⟨n1, n2, n3⟩ := n
  have hp : predOf pm (some (.val (letsFire pm))) = some (some true) := by cases pm <;> decide +kernel
  unfold verdict
  simp only [hp]
  cases n1 <;> cases n2 <;> cases n3 <;> simp [Opnd.value]

/-- Its one slot holds a `nop`. -/
theorem inst1_at (p a b c : Value) : (inst1 p a b c).at 0 = some (.nop h0) := by
  have hd : decode 0xE700000000000000 = .ok (.nop h0) := rfl
  unfold Inst.at
  simp only [inst1, stageInst, List.getD_cons_zero, hd]
/-- And it has no other. -/
theorem inst1_slots (p a b c : Value) : (inst1 p a b c).slots.length = 1 := rfl
/-- No LSID rule of its instance holds an instruction back. -/
theorem inst1_free (p a b c : Value) (i : Instr) : (inst1 p a b c).lsidBlocked i = false := by
  have hg : ∀ l, (inst1 p a b c).groupSlots l = [] := fun l => by
    show (List.range 1).filter _ = _; simp [List.range_succ, inst1_at, storeClass]
  have hn : ∀ l, (inst1 p a b c).nullsSlots l = [] := fun l => by
    show (List.range 1).filter _ = _; simp [List.range_succ, inst1_at]
  have hl : (inst1 p a b c).dueSlots (fun q => (loadSpace q).isSome) = [] := by
    simp [Inst.dueSlots, inst1_at, inst1_slots, List.range_succ, loadSpace]
  have hc : (inst1 p a b c).dueSlots isCctl = [] := by
    simp [Inst.dueSlots, inst1_at, inst1_slots, List.range_succ, isCctl]
  have ho : ∀ l, (inst1 p a b c).ordBlocked l = false := fun l => by simp [Inst.ordBlocked, inst1, stageInst]
  unfold Inst.lsidBlocked
  split
  · rfl
  · simp [Inst.loadBlocked, Inst.loadBehind, Inst.cctlBehind, hg, hn, hl, hc, ho]

/-- Every instruction fires in a task and in a pinned block, with any operands, whatever else its core holds. -/
theorem witness_fires (i : Instr) (h : Head) (hh : headOf i = some h) (a b c : Value) (p : Bool) (f : Core → Core)
    (hf : ∀ y, (f y).patch = y.patch ∧ (f y).pinst = y.pinst ∧ (f y).tasks = y.tasks) :
    Firing i (at1 (if p then none else some 0) (inst1 (letsFire h.pm) a b c) f) h
      (env1 (if p then none else some 0) (inst1 (letsFire h.pm) a b c) f) ⟨a, b, c⟩ := by
  refine ⟨?_, hh, ?_, ?_, ?_⟩
  · cases p
    · simp [envOf, at1, env1, State.core, State.patch, tgetD, tfind, stageCore, Core.task, (hf _).1, (hf _).2.2, inst1, stageInst,
        stagePatch, PatchState.active]
    · simp [envOf, at1, env1, State.core, State.patch, tgetD, tfind, stageCore, (hf _).1, (hf _).2.1, inst1, stageInst, stagePatch,
        PatchState.active]
  · exact go_of_operands _ _ _ _ _
  · cases p
    · rfl
    · have hd : ∀ r q, (inst1 (letsFire h.pm) a b c).poolDue r q = false := fun r q => by
        simp [Inst.poolDue, inst1_at, inst1_slots, List.range_succ, poolSpace]
      have hp : ((at1 none (inst1 (letsFire h.pm) a b c) f).core 0).pinst = [inst1 (letsFire h.pm) a b c] := by
        simp [at1, State.core, tgetD, tfind, stageCore, (hf _).2.1]
      have hw : (((at1 none (inst1 (letsFire h.pm) a b c) f).core 0).pinst.takeWhile (·.id != (inst1 (letsFire h.pm) a b c).id)) = [] := by
        rw [hp]; simp
      unfold Env.behind
      simp only [if_true, env1]
      rw [hw]
      cases poolSpace i <;> simp [hd]
  · intro hk
    cases p
    · refine ⟨?_, ?_⟩
      · show (inst1 (letsFire h.pm) a b c).lsidBlocked i = false
        exact inst1_free _ _ _ _ i
      · simp [Inst.drawBlocked, env1]
    · simp [env1] at hk

/-- The instruction fires in the state, and the firing meets a condition. -/
def Fires (i : Instr) (s : State) (P : Env → Vals → Bool) : Prop := ∃ h e v, Firing i s h e v ∧ P e v = true

/-- Found by looking. -/
theorem fires (i : Instr) (s : State) (P : Env → Vals → Bool)
    (h : (match envOf s, headOf i with
      | some e, some h => match verdict h.pm (needsOf e.pinned i) e.ss with
        | .go v => ! e.behind i && (e.k.isNone || (! e.inst.lsidBlocked i && ! e.inst.drawBlocked (e.t.tctl.getLsbD 2) i e.slot)) && P e v
        | _ => false
      | _, _ => false) = true) : Fires i s P := by
  split at h
  · rename_i e hd he hh
    split at h
    · rename_i v hv
      simp only [Bool.and_eq_true, Bool.or_eq_true, Bool.not_eq_true', Option.isNone_iff_eq_none] at h
      obtain ⟨⟨h1, h2⟩, h3⟩ := h
      refine ⟨hd, e, v, ⟨he, hh, hv, h1, fun hk => ?_⟩, h3⟩
      rcases h2 with h2 | h2
      · simp [h2] at hk
      · exact h2
    · exact absurd h (by simp)
  · exact absurd h (by simp)

/-- A lease that maps its first 512 MiB onto its channel, readable, writable, not recoverable. -/
def mapped : Lease := { stageLease with big := [(0, mkEntry 0 0 0 false false false true true true true)] }
/-- The same, mapped onto the host. -/
def mappedHost : Lease := { stageLease with big := [(0, mkEntry 0 0 1 false false false true true true true)] }
/-- Header words of a one-core object: ESC, class S, one context, one barrier object of each kind, a save area, its sections. -/
def hdr1 : List CWord := (List.range 64).map fun n => (tgetD
  [(4, 0x90001000), (8, 0x101), (10, 0x10000), (14, 0x100), (15, 2), (16, 0x140), (17, 0x144)] n 0 : CWord)
/-- A patch of that object. -/
def patch1 : Patch := { stagePatch with hdr := hdr1 }
/-- A token of a kind. -/
def tok1 (kind : BitVec 4) : Flit := { kind := kind, value := 5, rin := 0 }
/-- The object's stream in memory: END and its CRC. -/
def mem1 : Memory := Memory.write [] 0x100 [0x00, 0x00, 0x00, 0xC0, 0x03, 0x6D, 0xEA, 0x8B]
/-- A core with one granule of each role, in-channels 0 and 1 (a token waits at 0) and out-channels 0 and 1 bound. -/
def core1 (c : Core) : Core :=
  { c with
    pleat := { word := 0x111, swm := 0x10000, cBanks := 4 }
    ins := [(0, { buf := [(0, tok1 0)] })]
    ctxs := [(0, {
      st := .active
      pinned := ((c.ctxs.head?).map (·.2.pinned)).getD false
      active := [(7 * 2048, 0x20000000), (8 * 2048, 0x404), (8 * 2048 + 1, 0x404), (8 * 2048 + 16, 0x404), (8 * 2048 + 17, 0x404)] })] }
/-- Its firing in task 0 and its firing in a pinned block. -/
def t1 (a b c : Value) : State := at1 (some 0) (inst1 1 a b c) core1 patch1 mapped
def p1 (a b c : Value) : State := at1 none (inst1 1 a b c) core1 patch1 mapped

/-- With any operands an instruction that takes any predicate fires: of FloatSelections, ConversionsComplete, SpecialFunctions, LaneMoves,
LaneReductions, MovesAndPredicates and the other statements whose clauses ask no more than that. -/
theorem witness_any (i : Instr) (h : Head) (hh : headOf i = some h) (a b c : Value) (p : Bool) :
    ∃ s e, Firing i s h e ⟨a, b, c⟩ ∧ e.pinned = p :=
  ⟨_, _, witness_fires i h hh a b c p id fun _ => ⟨rfl, rfl, rfl⟩, by cases p <;> rfl⟩

/-- The checks of an access let it through with at least one place. -/
def isOk {α : Type} : Checked (List α) → Bool
  | .ok (_ :: _) => true
  | _ => false
/-- They stop it. -/
def isBad {α : Type} : Checked α → Bool
  | .bad _ => true
  | _ => false

theorem witness_IntegerArithmetic :
    (arithForm (.sub hw s64 none) ≠ none ∧ (Instr.sub hw s64 none).wf = true ∧ Fires (.sub hw s64 none) (t1 1 2 3) fun _ _ => true) ∧
    (divForm (.div hw s64 none) ≠ none ∧ (Instr.div hw s64 none).wf = true ∧
      Fires (.div hw s64 none) (t1 (2 ^ 63) (2 ^ 64 - 1) 0) fun _ v => decide (elem v.b 64 0 = 2 ^ 64 - 1)) :=
  ⟨⟨by simp [arithForm], by decide, fires _ _ _ (by decide +kernel)⟩, by simp [divForm], by decide, fires _ _ _ (by decide +kernel)⟩

theorem witness_ShiftsAndFields :
    (shiftForm (.shl hw s64 none) ≠ none ∧ (Instr.shl hw s64 none).wf = true ∧ Fires (.shl hw s64 none) (t1 1 64 0) fun _ _ => true) ∧
    (fieldForm (.ext hw s64 none) ≠ none ∧ (Instr.ext hw s64 none).wf = true ∧ Fires (.ext hw s64 none) (t1 1 0x7F7F 0) fun _ _ => true) :=
  ⟨⟨by simp [shiftForm], by decide, fires _ _ _ (by decide +kernel)⟩, by simp [fieldForm], by decide, fires _ _ _ (by decide +kernel)⟩

theorem witness_BitCounts : countForm (.clz hw s64) ≠ none ∧ (Instr.clz hw s64).wf = true ∧ (encode (.clz hw s64)).isSome = true ∧
    Fires (.clz hw s64) (t1 0 0 0) fun _ _ => true :=
  ⟨by simp [countForm], by decide, by decide +kernel, fires _ _ _ (by decide +kernel)⟩

theorem witness_FloatArithmetic : floatForm (.fadd hw ⟨true, .f32⟩ none) ≠ none ∧
    Fires (.fadd hw ⟨true, .f32⟩ none) (t1 0x7FC00000 0 0) fun _ v => isNanEnc .f32 (elem v.a 32 0) :=
  ⟨by simp [floatForm], fires _ _ _ (by decide +kernel)⟩

theorem witness_RepresentableIsExact : 0x7BFF < 2 ^ fmtBits .f16 ∧ isNanEnc .f16 0x7BFF = false ∧ isInfEnc .f16 0x7BFF = false := by
  decide

/-- An instance whose operand A is a head, and that took two heads. -/
def instTok (kind other : BitVec 4) : Inst :=
  { inst1 1 0 0 0 with
    slots := [{ a := some (.tok kind 1), p := some (.val 1) }]
    heads := [(0, 0, tok1 0), (1, 1, tok1 other)] }

theorem witness_StreamOperators :
    (Fires (.accs h0 (.int ⟨false, .v32⟩) 2 0 .add) (at1 none (instTok 0 0) core1) fun e _ => e.ss.kindA = 0) ∧
    (Fires (.accs h0 (.int ⟨false, .v32⟩) 2 0 .add) (at1 none (instTok 2 0) core1) fun e _ => e.ss.kindA = 2) ∧
    (Fires (.redn h0 (.int ⟨false, .v32⟩) 3 false 0 .add) (at1 none (instTok 0 12) core1) fun e _ =>
      (rednHeads false 3 e.inst.heads).any (·.kind = 12)) ∧
    (Fires (.redn h0 (.int ⟨false, .v32⟩) 3 false 0 .add) (at1 none (instTok 0 0) core1) fun e _ =>
      ! (rednHeads false 3 e.inst.heads).any (·.kind = 12)) :=
  ⟨fires _ _ _ (by decide +kernel), fires _ _ _ (by decide +kernel), fires _ _ _ (by decide +kernel), fires _ _ _ (by decide +kernel)⟩

theorem witness_Exits : (Fires (.exitJ h0) (t1 8 0 0) fun _ v => bitsOf v.a 0 48 % 8 = 0) ∧
    (Fires (.exitJ h0) (t1 4 0 0) fun _ v => bitsOf v.a 0 48 % 8 ≠ 0) ∧
    ((({} : Core).task 0).link.length < 16 ∧ (({} : Core).task 0).link = []) ∧
    16 ≤ (({ tasks := [(0, { link := List.replicate 16 0 })] } : Core).task 0).link.length :=
  ⟨fires _ _ _ (by decide +kernel), fires _ _ _ (by decide +kernel), by decide, by decide⟩

theorem witness_PoolLoads :
    (Fires (.lds hw .z32 m0) (t1 0xFFFC 0 0) fun e v => ! e.c.holdRole .s && isOk (poolPlaces e.cid e.c .s .z32 0 0 (laneWords .z32 v.a)) &&
      ! overPoolAtomic e.inst 0 0 .s 0xFFFC 4 && ! e.c.rolePoisoned .s 0xFFFC 4) ∧
    (Fires (.ldt hw .l m0) (t1 0 0 0) fun e v => ! e.c.holdRole .t && isOk (poolPlaces e.cid e.c .t .l 0 0 (laneWords .l v.a))) ∧
    (Fires (.ldn hw .v m0) (t1 0 0 0) fun e v => isOk (neighbourPlaces (t1 0 0 0) e.cid e.lease .v 0 0 (laneWords .v v.a))) ∧
    (Fires (.lds hw .z32 m0) (t1 0xFFFD 0 0) fun e v => ! e.c.holdRole .s && decide (bitsOf v.a 0 32 % 4 ≠ 0)) ∧
    (Fires (.sts h0 .z32 m0) (t1 0x10000 0 0) fun e v => ! e.c.holdRole .s && decide (e.c.roleEnd .s < bitsOf v.a 0 32 + 4)) ∧
    (Fires (.stt h0 .z32 m0) (t1 0x10000 0 0) fun e v => ! e.c.holdRole .t && decide (e.c.roleEnd .t < bitsOf v.a 0 32 + 4)) :=
  ⟨fires _ _ _ (by decide +kernel), fires _ _ _ (by decide +kernel), fires _ _ _ (by decide +kernel), fires _ _ _ (by decide +kernel),
   fires _ _ _ (by decide +kernel), fires _ _ _ (by decide +kernel)⟩

theorem witness_PoolStores :
    (Fires (.sts h0 .z32 m0) (t1 0xFFFC 0 0) fun e v => ! e.pinned && ! e.c.holdRole .s && isOk (poolPlaces e.cid e.c .s .z32 0 0 (laneWords .z32 v.a))) ∧
    (Fires (.stt h0 .l m0) (p1 0xFFC0 0 0) fun e v => e.pinned && ! e.c.holdRole .t && isOk (poolPlaces e.cid e.c .t .l 0 0 (laneWords .l v.a))) ∧
    (Fires (.stn h0 .z32 m0) (t1 0xFFFC 0 0) fun e v => isOk (neighbourPlaces (t1 0xFFFC 0 0) e.cid e.lease .z32 0 0 (laneWords .z32 v.a))) :=
  ⟨fires _ _ _ (by decide +kernel), fires _ _ _ (by decide +kernel), fires _ _ _ (by decide +kernel)⟩

/-- The lease whose page is in migration. -/
def migrating : Lease := { stageLease with big := [(0, mkEntry 0 0 0 true false true true true true true)] }

theorem witness_GlobalAccesses :
    (Fires (.ldg hw .z32 false m0) (t1 0x40 0 0) fun e v => ! e.pinned && e.c.genRoom &&
      isOk (globalPieces (t1 0x40 0 0) e.cid e.p .load 4 (some 0) false (contiguous .z32 (globalVa v.a 0))) &&
      ! overGlobalAtomic e.inst 0 (.dev 0x40 true) 4) ∧
    (Fires (.ldgv hw .z32 false m0) (t1 0x40 0 0) fun e v => e.c.genRoom &&
      isOk (globalPieces (t1 0x40 0 0) e.cid e.p .load 4 (some 0) true (scattered .z32 v.a v.b 0))) ∧
    (Fires (.stg h0 .v false m0) (t1 0x40 0 0) fun e v => ! e.pinned &&
      isOk (globalPieces (t1 0x40 0 0) e.cid e.p .store 4 (some 0) true (contiguous .v (globalVa v.a 0)))) ∧
    (Fires (.stgv h0 .z64 false m0) (t1 0x40 0 0) fun e v => ! e.pinned &&
      isOk (globalPieces (t1 0x40 0 0) e.cid e.p .store 8 (some 0) true (scattered .z64 v.a v.b 0))) ∧
    (Fires (.prf h0 false m0) (t1 (2 ^ 40) 0 0) fun e v => translate (t1 (2 ^ 40) 0 0) e.cid e.lease (globalVa v.a 0 / 64 * 64) = .unmapped) ∧
    (Fires (.prf h0 false m0) (at1 (some 0) (inst1 1 0 0 0) core1 patch1 migrating) fun e v =>
      translate (at1 (some 0) (inst1 1 0 0 0) core1 patch1 migrating) e.cid e.lease (globalVa v.a 0 / 64 * 64) = .moving) ∧
    (Fires (.prf h0 false m0) (t1 0x40 0 0) fun e v => translate (t1 0x40 0 0) e.cid e.lease (globalVa v.a 0 / 64 * 64) ≠ .moving) ∧
    (Fires (.ldg hw .z32 false m0) (t1 0x42 0 0) fun e v => ! e.pinned &&
      isBad (globalPieces (t1 0x42 0 0) e.cid e.p .load 4 (some 0) false (contiguous .z32 (globalVa v.a 0)))) :=
  ⟨fires _ _ _ (by decide +kernel), fires _ _ _ (by decide +kernel), fires _ _ _ (by decide +kernel), fires _ _ _ (by decide +kernel),
   fires _ _ _ (by decide +kernel), fires _ _ _ (by decide +kernel), fires _ _ _ (by decide +kernel), fires _ _ _ (by decide +kernel)⟩

/-- The core of a stream 0 of one element whose counter stands at n. -/
def streamCore (n : Nat) (c : Core) : Core :=
  let d := core1 c
  { d with
    streams := [(0, n)]
    ctxs := d.ctxs.map fun x => (x.1, { x.2 with active := x.2.active ++ [(10 * 2048 + 3, 0x80000000)] }) }

theorem witness_GenStreams :
    (Fires (.ldg hw .l false m0) (at1 none (inst1 1 0 0 0) (streamCore 1) patch1 mapped) fun e _ => e.pinned && e.c.streamEnded 0) ∧
    (Fires (.ldg hw .l false m0) (at1 none (inst1 1 0 0 0) (streamCore 0) patch1 mapped) fun e _ => e.pinned && ! e.c.streamEnded 0 && e.c.genRoom &&
      isOk (streamPieces (at1 none (inst1 1 0 0 0) (streamCore 0) patch1 mapped) e.cid e.p .load 64 0 0 false (contiguous .l (e.c.streamVa 0))).2) ∧
    (Fires (.stg h0 .l false m0) (at1 none (inst1 1 0 0 0) (streamCore 0) patch1 mapped) fun e _ => ! e.cancelOpen 0 && e.c.genRoom &&
      ! e.c.streamEnded 0 && e.inst.nulls.isEmpty &&
      isOk (streamPieces (at1 none (inst1 1 0 0 0) (streamCore 0) patch1 mapped) e.cid e.p .store 64 0 0 false (contiguous .l (e.c.streamVa 0))).2) ∧
    (Fires (.stg h0 .l false m0) (at1 none { inst1 1 0 0 0 with nulls := [0] } (streamCore 0) patch1 mapped) fun e _ => ! e.cancelOpen 0 &&
      e.c.genRoom && ! e.c.streamEnded 0 && e.inst.nulls.contains 0) ∧
    (Fires (.stg h0 .l false m0) (at1 none (inst1 1 0 0 0) (streamCore 1) patch1 mapped) fun e _ => ! e.cancelOpen 0 && e.c.streamEnded 0) ∧
    (Fires (.stgv h0 .z32 false m0) (p1 0 0 0) fun e v => ! e.cancelOpen 0 && e.c.genRoom && e.inst.nulls.isEmpty &&
      isOk (globalPieces (p1 0 0 0) e.cid e.p .store 4 (some 0) true (scattered .z32 v.a v.b 0))) :=
  ⟨fires _ _ _ (by decide +kernel), fires _ _ _ (by decide +kernel), fires _ _ _ (by decide +kernel), fires _ _ _ (by decide +kernel),
   fires _ _ _ (by decide +kernel), fires _ _ _ (by decide +kernel)⟩

theorem witness_AtomicsAndCacheControl :
    (Fires (.atms h0 .add true m0) (t1 8 0 0) fun e v => ! e.c.holdS && isOk (poolPlaces e.cid e.c .s .z64 0 0 (laneWords .z64 v.a))) ∧
    (Fires (.atmn h0 .cas false m0) (t1 8 0 0) fun e v => isOk (neighbourPlaces (t1 8 0 0) e.cid e.lease .z32 0 0 (laneWords .z32 v.a))) ∧
    (Fires (.atmg h0 .swap false m0) (t1 8 0 0) fun e v =>
      isOk (globalPieces (t1 8 0 0) e.cid e.p .atomic 4 (some 0) false [(0, globalVa v.a 0)])) ∧
    Fires (.cctlWb h0 m0) (t1 8 0 0) fun _ _ => true :=
  ⟨fires _ _ _ (by decide +kernel), fires _ _ _ (by decide +kernel), fires _ _ _ (by decide +kernel), fires _ _ _ (by decide +kernel)⟩

theorem witness_PoolAtomicPerforms : ((t1 0 0 0).core 0).holdS = false ∧ ((t1 0 0 0).core 0).rolePoisoned .s 0 8 = false := by decide +kernel

/-- A copy of one 4-byte element between two global addresses, at cluster scope, for the queue of position 0, on tag 1. -/
def copyPacket : Value := 2 ^ 4 * 2 + 2 ^ 17 + 2 ^ 23 * 2 + 2 ^ 32 * 0x1000 + 2 ^ 96 * 0x2000
/-- An entry of a copy queue. -/
def copyEntry : CopyEnt := { id := 0, packet := copyPacket, cid := 0, task := none, lease := 0, gen := 1, esc := false, pk := none, next := 0, rin := 0 }

theorem witness_CopyInstructions :
    (Fires (.cpy h0 m0) (t1 copyPacket 0 0) fun e v => ! e.pinned && packetOk v.a && cpQueue v.a = posOf (t1 0 0 0) e.cid &&
      copyRoom (t1 0 0 0) (clusterOf e.cid) (cpQueue v.a) && tagRoom e.c (cpTag v.a)) ∧
    (Fires (.cpy h0 m0) (p1 copyPacket 0 0) fun e v => e.pinned && packetOk v.a && cpQueue v.a = posOf (t1 0 0 0) e.cid) ∧
    (Fires (.cpy h0 m0) (t1 (copyPacket + 2 ^ 31) 0 0) fun _ v => ! packetOk v.a) ∧
    (Fires (.cpy h0 m0) (t1 (copyPacket + 2 ^ 26) 0 0) fun e v => packetOk v.a && cpQueue v.a ≠ posOf (t1 0 0 0) e.cid) ∧
    (Fires (.tagw hw none false) (t1 (2 ^ 63) 0 0) fun e v => tagwReady e.c (lo64 v.a) false) ∧
    (Fires (.tagw hw none false) (at1 (some 0) (inst1 1 (2 ^ 63) 0 0) fun c => { c with tags := [(63, { pending := 1 })] }) fun e v =>
      ! tagwReady e.c (lo64 v.a) false) ∧
    (Fires (.tagff hw none) (at1 (some 0) (inst1 1 (2 ^ 63) 0 0) fun c => { c with tags := [(63, { done := true })] }) fun e v =>
      (lo64 v.a).testBit 63 && (e.c.tag 63).done) ∧
    (Fires (.tagff hw none) (t1 0 0 0) fun _ v => lo64 v.a = 0) ∧
    (Fires (.cpyqf hw true true none) (t1 0 0 0) fun e _ => (cpyqfPackets (t1 0 0 0) e.cid e.lease true true).isEmpty) :=
  ⟨fires _ _ _ (by decide +kernel), fires _ _ _ (by decide +kernel), fires _ _ _ (by decide +kernel), fires _ _ _ (by decide +kernel),
   fires _ _ _ (by decide +kernel), fires _ _ _ (by decide +kernel), fires _ _ _ (by decide +kernel), fires _ _ _ (by decide +kernel),
   fires _ _ _ (by decide +kernel)⟩

/-- The code of an f16 plane (R241). -/
def f16v : EC := .flt ⟨false, .f16⟩

theorem witness_MangleInstructions :
    (Fires (.mload hw f16v) (t1 0 0 0) fun e v => marmReady e.c.mangle && ! e.pinned && isBad (mloadCheck (t1 0 0 0) e (planeFmt f16v) v.a) = false) ∧
    (Fires (.mload hw f16v) (p1 0 0 0) fun e v => marmReady e.c.mangle && e.pinned && ! v.a.getLsbD 63 &&
      isBad (mloadCheck (p1 0 0 0) e (planeFmt f16v) v.a) = false && sclOk (planeFmt f16v) (v.a.getLsbD 62)) ∧
    (Fires (.mload hw f16v) (p1 (2 ^ 63) 0 0) fun e v => marmReady e.c.mangle && e.pinned && v.a.getLsbD 63 && e.c.genRoom &&
      isBad (mloadCheck (p1 (2 ^ 63) 0 0) e (planeFmt f16v) v.a) = false && sclOk (planeFmt f16v) (v.a.getLsbD 62)) ∧
    (Fires (.mload hw f16v) (t1 1 0 0) fun e v => marmReady e.c.mangle && ! e.pinned && isBad (mloadCheck (t1 1 0 0) e (planeFmt f16v) v.a)) ∧
    (Fires (.mload hw f16v) (at1 (some 0) (inst1 1 0 0 0) fun c => { c with mangle := { resv := 4 } }) fun e _ => ! marmReady e.c.mangle) ∧
    (Fires (.marm hw 4) (t1 0 0 0) fun e _ => marmReady e.c.mangle && ! e.pinned) ∧
    (Fires (.marm hw 4) (p1 1 0 0) fun e v => marmReady e.c.mangle && e.pinned && runCause e.c 4 v.a = none) ∧
    (Fires (.marm hw 4) (at1 (some 0) (inst1 1 0 0 0) fun c => { c with mangle := { resv := 4 } }) fun e _ => ! marmReady e.c.mangle) ∧
    (Fires (.mwait hw) (t1 0 0 0) fun e _ => mwaitReady e.c.mangle e.inst.mark) ∧
    (Fires (.mzero h0) (t1 0 0 0) fun _ v => decide (v.a.toNat < 2 ^ 64) && bitsOf v.a 16 28 = 0) ∧
    (Fires (.mzero h0) (t1 (2 ^ 43) 0 0) fun _ v => bitsOf v.a 16 28 ≠ 0) :=
  ⟨fires _ _ _ (by decide +kernel), fires _ _ _ (by decide +kernel), fires _ _ _ (by decide +kernel), fires _ _ _ (by decide +kernel),
   fires _ _ _ (by decide +kernel), fires _ _ _ (by decide +kernel), fires _ _ _ (by decide +kernel), fires _ _ _ (by decide +kernel),
   fires _ _ _ (by decide +kernel), fires _ _ _ (by decide +kernel), fires _ _ _ (by decide +kernel)⟩

/-- Task 0's firing with the pleat of its core changed. -/
def pleatT (a : Value) (w : Pleat → Pleat) : State :=
  at1 (some 0) (inst1 1 a 0 0) (fun c => let d := core1 c; { d with pleat := w d.pleat }) patch1 mapped

theorem witness_PoolInstructions :
    (Fires (.pleat hw) (t1 0x111 0 0) fun e v => pleatCheck (t1 0x111 0 0) e.c e.lease (bitsOf v.a 0 32) = 0) ∧
    (Fires (.pleat hw) (t1 0 0 0) fun e v => pleatCheck (t1 0 0 0) e.c e.lease (bitsOf v.a 0 32) ≠ 0) ∧
    (Fires (.pleatw hw) (t1 (2 ^ 16) 0 0) fun e v => (ticketState e.c e.me (lo64 v.a)).1) ∧
    (Fires (.swm h0) (t1 0x10000 0 0) fun e v => e.c.pleat.phase = 0 && bitsOf v.a 0 32 % 64 = 0 &&
      decide (bitsOf v.a 0 32 ≤ plS e.c.pleat.word * 65536)) ∧
    (Fires (.swm h0) (t1 1 0 0) fun e v => e.c.pleat.phase = 0 && bitsOf v.a 0 32 % 64 ≠ 0) ∧
    (Fires (.swm h0) (t1 0x10040 0 0) fun e v => e.c.pleat.phase = 0 && bitsOf v.a 0 32 % 64 = 0 &&
      decide (plS e.c.pleat.word * 65536 < bitsOf v.a 0 32)) ∧
    (Fires (.swm h0) (pleatT 0 fun p => { p with phase := 2 }) fun e _ => e.c.pleat.phase ≠ 0) :=
  ⟨fires _ _ _ (by decide +kernel), fires _ _ _ (by decide +kernel), fires _ _ _ (by decide +kernel), fires _ _ _ (by decide +kernel),
   fires _ _ _ (by decide +kernel), fires _ _ _ (by decide +kernel), fires _ _ _ (by decide +kernel)⟩

theorem witness_SealingInstructions :
    (Fires (.sealpt hw) (t1 0 0 0) fun e _ => hSaveVa e.p.hdr ≠ 0) ∧
    (Fires (.sealpt hw) (at1 (some 0) (inst1 1 0 0 0) core1) fun e _ => hSaveVa e.p.hdr = 0) ∧
    (Fires (.sealw hw) (t1 0 0 0) fun _ v => rinGe (t1 0 0 0).sl.s (BitVec.ofNat 32 (bitsOf v.a 0 32))) ∧
    (Fires (.sealw hw) (t1 1 0 0) fun _ v => ! rinGe (t1 0 0 0).sl.s (BitVec.ofNat 32 (bitsOf v.a 0 32))) ∧
    (Fires (.sealrqWait hw) (t1 0 0 0) fun e _ => e.ss.wait.isEmpty) ∧
    (Fires (.sealrqWait hw) (at1 (some 0) { inst1 1 0 0 0 with slots := [{ p := some (.val 1), wait := [0] }] } core1) fun e _ =>
      e.ss.wait = [0] && rinGe (t1 0 0 0).sl.s 0) ∧
    (Fires (.stx h0 .z32 m0) (at1 (some 0) (inst1 1 0 0 0) core1 patch1 mappedHost) fun e v =>
      isOk (globalPieces (at1 (some 0) (inst1 1 0 0 0) core1 patch1 mappedHost) e.cid e.p .stx 4 (some 0) false (contiguous .z32 (globalVa v.a 0)))) ∧
    (Fires (.stxIrr h0 .z32 m0) (at1 (some 0) (inst1 1 0 0 0) core1 patch1 mappedHost) fun e v =>
      isOk (globalPieces (at1 (some 0) (inst1 1 0 0 0) core1 patch1 mappedHost) e.cid e.p .irr 4 (some 0) false (contiguous .z32 (globalVa v.a 0)))) ∧
    (Fires (.escw hw) (t1 0 0 0) fun e _ => escwReady (t1 0 0 0) e.c.px e.c.py e.slotK e.lease e.inst.escMark) :=
  ⟨fires _ _ _ (by decide +kernel), fires _ _ _ (by decide +kernel), fires _ _ _ (by decide +kernel), fires _ _ _ (by decide +kernel),
   fires _ _ _ (by decide +kernel), fires _ _ _ (by decide +kernel), fires _ _ _ (by decide +kernel), fires _ _ _ (by decide +kernel),
   fires _ _ _ (by decide +kernel)⟩

/-- Patch 1 with a phase of its cluster object 0. -/
def patchPhase : Patch := { patch1 with bars := [(0, { phase := 1 })] }

theorem witness_SynchronisingInstructions :
    (Fires (.fenceAcq hw .device) (t1 0 0 0) fun e _ => fenceReady (t1 0 0 0) e.cid false false .device) ∧
    (Fires (.fenceBoth hw .system) (t1 0 0 0) fun e _ => fenceReady (t1 0 0 0) e.cid true false .system) ∧
    (Fires (.arrive h0 false 0 128) (t1 0 0 0) fun e _ => barDeclared e.p false 0 && decide (128 ≤ maxParties e.p false)) ∧
    (Fires (.arrive h0 false 1 1) (t1 0 0 0) fun e _ => ! barDeclared e.p false 1) ∧
    (Fires (.waitb hw false 0) (at1 (some 0) (inst1 1 0 0 0) core1 patchPhase mapped) fun e v => barDeclared e.p false 0 &&
      waitbReady (barObj e.p e.c false 0) (BitVec.ofNat 32 (bitsOf v.a 0 32))) ∧
    (Fires (.bar hw) (t1 0 0 0) fun e _ => roomIn e.c (barChans e.c) && barChans e.c = [0]) ∧
    (Fires (.waitm hw .eq none) (t1 8 0 0) fun e v => match readSignal (t1 8 0 0) e.cid e.p .eq v.a v.b with
      | .met _ _ => true
      | _ => false) ∧
    (Fires (.waitm hw .eq none) (t1 4 0 0) fun e v => match readSignal (t1 4 0 0) e.cid e.p .eq v.a v.b with
      | .bad _ => true
      | _ => false) :=
  ⟨fires _ _ _ (by decide +kernel), fires _ _ _ (by decide +kernel), fires _ _ _ (by decide +kernel), fires _ _ _ (by decide +kernel),
   fires _ _ _ (by decide +kernel), fires _ _ _ (by decide +kernel), fires _ _ _ (by decide +kernel), fires _ _ _ (by decide +kernel)⟩

/-- The reset device, whose token is at the node of core 0. -/
def tokenHere : State := { State.reset with token := Config.nearNode 0 % 11 }
/-- An sc fence finds the token where its core is near it. -/
theorem witness_FenceSc : fenceReady tokenHere 0 true true .device = true := by
  have h : drainStalls tokenHere 0 = false := by decide +kernel
  simp [fenceReady, scReady, h]
  rfl

/-- Task 0's firing with queue 0 open to lease 0. -/
def t1q (a : Value) (size : Nat) : State := { t1 a 0 0 with queues := [(0, { vf := 1, size := size, posters := [0] })] }

theorem witness_TaskInstructions :
    (Fires (.send h0 0 1) (t1 0 0 0) fun e _ => e.c.outBound 1 && e.c.outRoom 1 1) ∧
    (Fires (.send h0 12 2) (t1 0 0 0) fun e _ => ! e.c.outBound 2) ∧
    (Fires (.recv hw 0) (t1 0 0 0) fun e _ => e.c.inBound 0 && e.c.inTask 0 = e.slotK && recvReady e.c 0 && e.c.headFlit 0 = some (tok1 0)) ∧
    (Fires (.recv hw 2) (t1 0 0 0) fun e _ => ! e.c.inBound 2) ∧
    (Fires (.bind hw 0 false) (t1 0 0 0) fun e _ => bindStatus e.c e.slotK 0 false = 0) ∧
    (Fires (.bind hw 2 true) (t1 0 0 0) fun e _ => bindStatus e.c e.slotK 2 true ≠ 0) ∧
    (Fires (.waitc hw 0 1) (t1 0 0 0) fun e _ => e.c.inBound 0 && waitcReady e.c 0 1) ∧
    (Fires (.qpost h0 m0) (t1q 0 64) fun e v => mayPost (t1q 0 64) ((t1q 0 64).queue (bitsOf v.a 0 10)) e.lease && ((t1q 0 64).queue 0).room) ∧
    (Fires (.qpost h0 m0) (t1q 1 64) fun e v => ! mayPost (t1q 1 64) ((t1q 1 64).queue (bitsOf v.a 0 10)) e.lease) ∧
    (Fires (.constw h0 0 63 0 0) (t1 0 0 0) fun e _ => constwOk e.p 0 63 0) ∧
    (Fires (.constw h0 1 0 0 0) (t1 0 0 0) fun e _ => ! constwOk e.p 1 0 0) ∧
    (Fires (.markt h0 3) (t1 0 0 0) fun e _ => (maskChans 3).all e.c.outBound && roomIn e.c (maskChans 3)) :=
  ⟨fires _ _ _ (by decide +kernel), fires _ _ _ (by decide +kernel), fires _ _ _ (by decide +kernel), fires _ _ _ (by decide +kernel),
   fires _ _ _ (by decide +kernel), fires _ _ _ (by decide +kernel), fires _ _ _ (by decide +kernel), fires _ _ _ (by decide +kernel),
   fires _ _ _ (by decide +kernel), fires _ _ _ (by decide +kernel), fires _ _ _ (by decide +kernel), fires _ _ _ (by decide +kernel)⟩

theorem witness_SystemInstructions :
    (Fires (.svcIdent hw) (t1 0 0 0) fun e _ => (t1 0 0 0).lease e.lease = some mapped) ∧
    (Fires (.svcNotify hw) (t1q 0 64) fun e _ => ((t1q 0 64).queue e.p.queue).cRoom) :=
  ⟨fires _ _ _ (by decide +kernel), fires _ _ _ (by decide +kernel)⟩

/-! ### The device's own steps -/

/-- A packet at a stage. -/
def pkt (w : Value) (st : Stage) : Pkt :=
  { num := 0, queue := 0, words := w, stage := st, ingest := 0, rin := 0, lease := 0, registered := false, status := 0, field := 0xFFFF,
    result := 0, ready := some 0, levels := 0, patch := none, sealFor := none, copied := 0, charge := 0, skipFill := false, requests := [],
    began := 0, borrowed := 0, doneSeq := 0, hdr := hdr1 }
/-- The words of a packet from its type and its 64-bit words 4 to 7. -/
def words (ty a b c : Nat) : Value := BitVec.ofNat 512 (ty + 2 ^ 256 * a + 2 ^ 320 * b + 2 ^ 384 * c)
/-- A device with a lease, a patch and a core, the object in memory, queue 0 open, late in its first second. -/
def dev : State := { t1 0 0 0 with mem := mem1, queues := [(0, { vf := 1, size := 64, posters := [0] })], time := 900000000 }
/-- The same with one packet in the pipeline. -/
def devP (p : Pkt) : State := { dev with pipe := [p] }

/-- Nothing waits at the port where nothing was posted. -/
theorem none_posted (s : State) (h : s.posted = []) (fn : Nat) : NonePosted s fn := by simp [NonePosted, h]

theorem witness_RegisterWrites : NonePosted dev 0 ∧ (dev.trust.failed = false ∧ dev.events.size.toNat ≠ 256) ∧
    ({ dev with events := { dev.events with size := 256 } } : State).events.size.toNat = 2 ^ 8 ∧
    (dev.events.tail - 0).toNat ≤ dev.events.size.toNat ∧ dev.events.size.toNat < (dev.events.tail - 1).toNat ∧
    (natBits 0x10011 16 4 ≠ 0 ∧ natBits 0x10011 4 4 = 1) ∧ (natBits 0x10021 4 4 ≠ 1) ∧ fnThere dev 0 = true ∧
    (fnThere (dev.modFn 0 fun f => { f with cmd := 1 }) 0 = true ∧ ((dev.modFn 0 fun f => { f with cmd := 1 }).fn 0).busy = false ∧
      commandCode (bitsOf ((dev.modFn 0 fun f => { f with cmd := 1 }).fn 0).cmd 0 8) = true) :=
  ⟨none_posted _ rfl _, by decide +kernel⟩

/-- The device with a window onto lease 0's memory. -/
def devW : State := dev.modFn 1 fun f => { f with win := some (0, 0) }

theorem witness_DeviceReads : NonePosted devW 1 ∧ devW.mem.wf = true ∧ (devW.fn 1).win = some (0, 0) ∧ devW.lease 0 = some mapped ∧
    hbmPhys mapped 8 = some 8 ∧ undoStalls devW 8 (recoverable mapped 8) devW.sl.cur = false ∧ hbmPhys mapped (240 * 2 ^ 20) = none :=
  ⟨none_posted _ rfl _, by decide +kernel⟩

/-- The device with a MARKER in queue 0's ring. -/
def devQ : State := dev.modQueue 0 fun q => { q with ring := [words 7 0 0 0] }

/-- A write of function 1 that waits at the port. -/
def waitsPosted : State := { dev with posted := [.chead 1 0 0] }

theorem witness_QueueWindows : NonePosted dev 1 ∧ ¬ NonePosted waitsPosted 1 ∧ (waitsPosted.queue 0).vf = 1 ∧
    (dev.queue 0).vf = 1 ∧ (dev.queue 0).room = true ∧
    (({ dev with queues := [(0, { vf := 1, size := 64, tail := 64 })] } : State).queue 0).room = false ∧
    ((dev.queue 0).ctail - 0).toNat ≤ (dev.queue 0).size ∧ (dev.queue 0).size < ((dev.queue 0).ctail - 1).toNat ∧
    devQ.stopped = false ∧ devQ.quiesced = false ∧ nextQueue devQ = some 0 ∧ vfOut devQ 1 = false ∧ (devQ.queue 0).ring = [words 7 0 0 0] := by
  refine ⟨none_posted _ rfl _, fun h => ?_, by decide +kernel⟩
  exact absurd (h (.chead 1 0 0) (by simp [waitsPosted])) (by simp [postedBy])

/-- A packet that acts: a WAIT for a zero, a SIGNAL that stores 5 at 0x200. -/
def waitP : Pkt := pkt (words 2 0x200 0 0) .act
def signalP : Pkt := pkt (words 3 0x200 5 0) .act
/-- And a SIGNAL that adds 5 there. -/
def addP : Pkt := pkt (words 3 (2 ^ 52 + 0x200) 5 0) .act

theorem witness_PacketEffects :
    actOf (devP (pkt (words 1 0 0 0) .act)) 1 = some (pkt (words 1 0 0 0) .act) ∧
    actOf (devP (pkt (words 4 0 0 0) .act)) 4 = some (pkt (words 4 0 0 0) .act) ∧
    actOf (devP (pkt (words 7 0 0 0) .act)) 7 = some (pkt (words 7 0 0 0) .act) ∧
    (actOf (devP waitP) 2 = some waitP ∧ stripLoc (devP waitP) 0 (pkAddr waitP.words) = some (.dev 0x200 false) ∧
      condOf (BitVec.ofNat 4 (natBits (pkWord waitP.words 4) 52 4)) = some .eq ∧ readBad (devP waitP) 0 (.dev 0x200 false) = false) ∧
    (actOf (devP signalP) 3 = some signalP ∧ stripLoc (devP signalP) 0 (pkAddr signalP.words) = some (.dev 0x200 false) ∧
      natBits (pkWord signalP.words 4) 52 2 = 0 ∧ locPoisoned (devP signalP) (.dev 0x200 false) = false ∧
      undoStalls (devP signalP) 0x200 false (devP signalP).sl.cur = false) ∧
    (actOf (devP addP) 3 = some addP ∧ stripLoc (devP addP) 0 (pkAddr addP.words) = some (.dev 0x200 false) ∧
      natBits (pkWord addP.words 4) 52 2 = 1 ∧ injected (devP addP) 0 (.dev 0x200 false) = false ∧
      locPoisoned (devP addP) (.dev 0x200 false) = false ∧ undoStalls (devP addP) 0x200 false (devP addP).sl.cur = false) ∧
    (actOf (devP (pkt (words 5 0 0 0) .act)) 5 = some (pkt (words 5 0 0 0) .act) ∧ dev.sl.device = dev.sl.coordinator ∧
      (pkWord (words 5 0 0 0) 4).testBit 0 = false ∧ (pkWord (words 5 1 0 0) 4).testBit 0 = true) := by
  decide +kernel

/-- A packet of type `ty` whose DEP0 is the signal at 0x200 (R86). -/
def depP (ty : Nat) (st : Stage) : Pkt := pkt (BitVec.ofNat 512 (ty + 2 ^ 64 * (2 ^ 48 + 0x200))) st
/-- The device with such a packet, its entry held, and the signal's value. -/
def devDep (v : Nat) : State :=
  { devP (depP 7 .depend) with mem := mem1.write 0x200 (natBytes 8 v), waiters := [{ line := 8, pk := some 0, core := none, woken := true }] }
/-- What the dependence clauses ask, beside the values. -/
def depHyp (s : State) : Prop :=
  pktAt s .depend = some (depP 7 .depend) ∧ depLocs s (depP 7 .depend) = some [.dev 0x200 false] ∧ (depP 7 .depend).registered = false ∧
    holdsEntries s (depP 7 .depend) = true ∧ myTurn s (depP 7 .depend) = true ∧ readBad s 0 (.dev 0x200 false) = false
/-- A MARKER at the complete stage with CSIG at 0x200. -/
def csigP : Pkt := { pkt (BitVec.ofNat 512 (7 + 2 ^ 192 * (2 ^ 51 + 0x200))) .complete with leaseGen := stageLease.gen }

/-- A LAUNCH to validate in a lease whose page is in migration. -/
def devMig : State := { devP (pkt (words 1 0 0 0) .validate) with leases := [(0, migrating)] }
/-- A packet before one with a dependence, which holds no entry yet. -/
def turnP : Pkt := { depP 7 .depend with num := 1 }
def devTurn : State := { devP turnP with pipe := [pkt (words 7 0 0 0) .act, turnP], pkSel := 1 }

theorem witness_PacketStages :
    (pktAt (devP (pkt (words 7 0 0 0) .validate)) .validate = some (pkt (words 7 0 0 0) .validate) ∧
      readsWait (devP (pkt (words 7 0 0 0) .validate)) (pkt (words 7 0 0 0) .validate) = false ∧
      (validated (devP (pkt (words 7 0 0 0) .validate)) (pkt (words 7 0 0 0) .validate)).toOption.isSome = true) ∧
    (readsWait (devP (pkt (words 8 0 0 0) .validate)) (pkt (words 8 0 0 0) .validate) = false ∧
      (validated (devP (pkt (words 8 0 0 0) .validate)) (pkt (words 8 0 0 0) .validate)).toOption.isNone = true) ∧
    (pktAt devMig .validate = some (pkt (words 1 0 0 0) .validate) ∧ readsWait devMig (pkt (words 1 0 0 0) .validate) = true) ∧
    (pktAt (devP (pkt (words 7 0 0 0) .depend)) .depend = some (pkt (words 7 0 0 0) .depend) ∧
      depLocs dev (pkt (words 7 0 0 0) .depend) = some [] ∧ myTurn dev (pkt (words 7 0 0 0) .depend) = true) ∧
    (pktAt devTurn .depend = some turnP ∧ depLocs devTurn turnP = some [.dev 0x200 false] ∧
      holdsEntries devTurn turnP = false ∧ entryRoom devTurn turnP = true ∧ myTurn devTurn turnP = false) ∧
    (depHyp (devDep 1) ∧ 0 < sgn 64 (bytesNat (nodeRead (devDep 1) 0 (.dev 0x200 false) 8))) ∧
    (depHyp (devDep (2 ^ 63)) ∧ sgn 64 (bytesNat (nodeRead (devDep (2 ^ 63)) 0 (.dev 0x200 false) 8)) < 0) ∧
    (depHyp (devDep 0) ∧ sgn 64 (bytesNat (nodeRead (devDep 0) 0 (.dev 0x200 false) 8)) = 0) ∧
    (pktAt (devP (pkt (words 7 0 0 0) .complete)) .complete = some (pkt (words 7 0 0 0) .complete) ∧
      nextDone (devP (pkt (words 7 0 0 0) .complete)) (pkt (words 7 0 0 0) .complete) = true ∧ (dev.queue 0).cRoom = true ∧
      csigLoc (devP (pkt (words 7 0 0 0) .complete)) (pkt (words 7 0 0 0) .complete) = none ∧
      csigWaits (devP (pkt (words 7 0 0 0) .complete)) (pkt (words 7 0 0 0) .complete) = false) ∧
    (pktAt (devP csigP) .complete = some csigP ∧ nextDone (devP csigP) csigP = true ∧
      csigLoc (devP csigP) csigP = some (0, .dev 0x200 false) ∧ locPoisoned (devP csigP) (.dev 0x200 false) = false ∧
      undoStalls (devP csigP) 0x200 false (devP csigP).sl.cur = false) ∧
    (({ dev with queues := [] } : State).queue 0).cRoom = false ∧
    (pktAt (devP (pkt (words 7 0 0 0) .place)) .place = some (pkt (words 7 0 0 0) .place) ∧
      0 + (0 + 1) * 1000000 ≤ dev.time ∧ level dev (pkt (words 7 0 0 0) .place) < 7) := by
  unfold depHyp
  decide +kernel

/-- An empty lease at (4, 0), and a device with nothing else and one packet. -/
def free4 : Lease := { mapped with x := 4 }
def devL (p : Pkt) (f : State → State) : State :=
  f { State.reset with
    mem := mem1
    leases := [(0, free4)]
    queues := [(0, { vf := 1, size := 64, posters := [0] })]
    pipe := [p] }

/-- A LAUNCH of the object, and the same carried as far as patch 0, which `f` changes. -/
def launchP (st : Stage) (skip : Bool) : Pkt := { pkt (words 1 0 0 0) st with patch := some 0, skipFill := skip }
def devF (p : Pkt) (st : PatchState) : State := { devP p with patches := [(0, { patch1 with st := st })] }
/-- A COPY of one request at the launch stage. -/
def copyP : Pkt := { pkt (words 4 0 1 0) .launch with requests := [copyPacket] }

theorem witness_LaunchStages :
    (pktAt (devL (pkt (words 6 0 (2 ^ 25) 0) .place) id) .place = some (pkt (words 6 0 (2 ^ 25) 0) .place) ∧
      (devL (pkt (words 6 0 (2 ^ 25) 0) .place) id).sl.rolling = none ∧
      (dispatcher (devL (pkt (words 6 0 (2 ^ 25) 0) .place) id)).2.map (·.num) = some 0) ∧
    ((dispatcher (devL (pkt (words 1 0 0 0) .place) id)).2.map (·.num) = some 0 ∧ pkType (words 1 0 0 0) = 1 ∧
      (dispatcher (devL (pkt (words 1 0 0 0) .place) id)).1.lease 0 = some free4 ∧
      (spotFor (dispatcher (devL (pkt (words 1 0 0 0) .place) id)).1 (pkt (words 1 0 0 0) .place)).map (·.1) = some (.fresh 4 0)) ∧
    (pktAt (devF (launchP .fill false) .loaded) .fill = some (launchP .fill false) ∧
      (devF (launchP .fill false) .loaded).patch 0 = some { patch1 with st := .loaded } ∧
      partsWait (devF (launchP .fill false) .loaded) 0 0 hdr1 = false ∧ argsWait (devF (launchP .fill false) .loaded) (launchP .fill false) = false ∧
      (reload (devF (launchP .fill false) .loaded) 0 0 hdr1).toOption.isSome = true ∧
      argsBad (loadCharge (devF (launchP .fill false) .loaded) 0 0 hdr1) (launchP .fill false) = false) ∧
    (reload ({ devF (launchP .fill false) .loaded with mem := [] }) 0 0 hdr1).toOption.isNone = true ∧
    pktAt (devF (launchP .fill true) .loaded) .fill = some (launchP .fill true) ∧
    (pktAt (devF (launchP .launch true) .loaded) .launch = some (launchP .launch true) ∧
      (devF (launchP .launch true) .loaded).patch 0 = some { patch1 with st := .loaded }) ∧
    (argsWait (devF (launchP .launch true) .resident) (launchP .launch true) = false ∧
      argsBad (devF (launchP .launch true) .resident) (launchP .launch true) = false) ∧
    (pktAt (devP copyP) .launch = some copyP ∧ (devP copyP).lease 0 = some mapped ∧ copyP.requests[copyP.copied]? = some copyPacket ∧
      ((devP copyP).clusters.any fun c => c.2.queues.any fun q => q.2.any fun e => e.pk = some 0) = false ∧
      copyRoom (devP copyP) (clusterOf (coreXY (devP copyP) 0 0)) (cpQueue copyPacket) = true) ∧
    (let p := { copyP with copied := 1 }
     pktAt (devP p) .launch = some p ∧ p.requests[p.copied]? = none) := by
  decide +kernel

/-- A LEASE packet being carried out: its operation, identity and rectangle. -/
def leaseP (op ident rect : Nat) : Pkt := pkt (words 6 (op + 2 ^ 16 * ident) rect 0) .leasing
/-- A loan of the lease's one core. -/
def loan1 : Loan := { num := 1, x := 4, y := 0, w := 1, h := 1, borrower := 0, rinsed := true }

/-- The device whose lease 0 is changed. -/
def devLs (op rect : Nat) (f : Lease → Lease) : State := devL (leaseP op 0 rect) fun s => s.modLease 0 f
/-- The free lease with a loan of its second core. -/
def lends (L : Lease) : Lease := { L with w := 2, loans := [{ loan1 with x := 5 }] }

theorem witness_LeasePackets :
    (leasing (devL (leaseP 0 0 (2 ^ 25)) id) 0 = some (leaseP 0 0 (2 ^ 25)) ∧ (lowestFree (devL (leaseP 0 0 (2 ^ 25)) id) 1 1).isSome = true ∧
      (freeChans (devL (leaseP 0 0 (2 ^ 25)) id) 1).isSome = true ∧ (devL (leaseP 0 0 (2 ^ 25)) id).lease 1 = none ∧
      (devL (leaseP 0 0 (2 ^ 25)) id).lease 0 ≠ none ∧ sweepClear (devL (leaseP 0 0 (2 ^ 25)) id) 1 = true) ∧
    (rcFixed (2 ^ 25 + 2 ^ 24 + 8) = true ∧ rectFree (devL (leaseP 0 0 (2 ^ 25 + 2 ^ 24 + 8)) id) none 8 0 1 1 = true) ∧
    (leasing (devLs 1 (2 ^ 12) id) 1 = some (leaseP 1 0 (2 ^ 12)) ∧ (devLs 1 (2 ^ 12) id).lease 0 = some free4 ∧
      free4.st = .granted ∧ free4.want = none ∧ free4.loans = [] ∧ rcChans (2 ^ 12) = 0 ∧ rcFixed (2 ^ 12) = false ∧
      rectFree (devLs 1 (2 ^ 12) id) (some 0) 4 0 2 1 = true ∧ outside (devLs 1 (2 ^ 12) id) 0 4 0 2 1 = []) ∧
    (rcChans (2 ^ 12 + 2 ^ 25) = 1 ∧ rcChans (2 ^ 12 + 2 ^ 25) ≤ free4.chans.length ∧ rcChans (2 ^ 12 + 2 ^ 26) = 2 ∧
      free4.chans.length < rcChans (2 ^ 12 + 2 ^ 26) ∧ (freeChans (devLs 1 (2 ^ 12 + 2 ^ 26) id) 1).isSome = true) ∧
    (leasing (devLs 2 0 lends) 2 = some (leaseP 2 0 0) ∧ ((devLs 2 0 lends).lease 0).map (·.loans.length) = some 1 ∧
      rectsMeet 4 0 1 1 5 0 1 1 = false ∧ rectClear (devLs 2 0 lends) (fun _ _ => false) 4 0 1 1 = true) ∧
    (leasing (devLs 3 (2 ^ 44) lends) 3 = some (leaseP 3 0 (2 ^ 44)) ∧
      [{ loan1 with x := 5 }].find? (·.num = rcLoan (pkRect (leaseP 3 0 (2 ^ 44)).words)) = some { loan1 with x := 5 } ∧
      loanBusy (vacateLoan (devLs 3 (2 ^ 44) lends) (.leaseRecall, 1) 0 1) 1 = false) ∧
    (leasing (devLs 4 0 id) 4 = some (leaseP 4 0 0) ∧ (devLs 4 0 id).lease 0 = some free4 ∧ free4.loans = []) ∧
    (heldLines (devLs 4 0 fun L => { L with st := .rinsing, rinses := [4], pk := some 0 }) [0] []).all (fun n =>
      ! undoStalls dev (64 * n) (recoverable { free4 with st := .rinsing } (64 * n)) 0) = true ∧
    (let s : State := { devLs 0 0 (fun L => { L with st := .granting, pk := some 0 }) with mem := [] }
     s.lease 0 = some { free4 with st := .granting, pk := some 0 } ∧ s.pkt 0 = some (leaseP 0 0 0) ∧ (leaseP 0 0 0).stage ≠ .complete ∧
      heldLines s (memGone free4).1 (memGone free4).2 = []) ∧
    (let N : Lease := { free4 with want := some ((4, 0, 2, 1), [0]), pk := some 0 }
     let s : State := { devLs 1 0 (fun L => { L with want := some ((4, 0, 2, 1), [0]), pk := some 0 }) with mem := [] }
     s.lease 0 = some N ∧ N.rinses = [] ∧ s.pkt 0 = some (leaseP 1 0 0) ∧ heldLines s (memGone N).1 (memGone N).2 = []) ∧
    heldLines { devLs 4 0 (fun L => { L with st := .rinsing, pk := some 0 }) with mem := [] } [0] [] = [] := by
  decide +kernel

/-- A patch whose object has no cluster barrier, so that any origin will do. -/
def patchN : Patch := { stagePatch with hdr := hdr1.set 8 0 }
/-- A lease of two cores at (4, 0) whose patch stands on the first. -/
def devM (st : PatchState) (f : State → State) : State :=
  f { State.reset with
    mem := mem1
    leases := [(0, { free4 with w := 2 })]
    patches := [(0, { patchN with x := 4, st := st })]
    cores := [(4, { patch := some 0, act := some 0, ctxs := [(0, { st := .active })] })] }
/-- The patch there. -/
def patch4 : Patch := { patchN with x := 4 }
/-- The same on the lease's second core, whose residue replay has failed three times. -/
def devF5 : State := devM .running fun s => { s with
  patches := [(0, { patchN with x := 5 })]
  cores := [(5, { patch := some 0, act := some 0, ctxs := [(0, { st := .active })], replays := List.replicate 3 0 })] }
/-- An empty core whose residue replay failed n times. -/
def devR (n : Nat) (f : State → State) : State := f { State.reset with cores := [(5, { replays := List.replicate n 0 })] }

/-- What an operation of the placer asks of one patch. -/
theorem stand_one (s : State) (i : Instr) (n : Nat) (p : Patch)
    (h : (! placerBusy s (eventKey i) p.lease && placerStops s n p && (patchCores s n).all fun cid => ! readPoison (s.core cid)) = true) :
    Stand s i [(n, p)] := by
  simp only [Bool.and_eq_true, Bool.not_eq_true', List.all_eq_true] at h
  intro e he
  obtain rfl : e = (n, p) := by simpa using he
  exact ⟨h.1.1, h.1.2, fun cid hc => h.2 cid hc⟩

/-- The patch with a request of its core outstanding. -/
def devB : State := devM .running fun s => s.modCore 4 fun c => { c with gen := [ownReq State.reset 0 (.plane 0) []] }

theorem witness_move :
    ((devM .running id).patch 0 = some patch4 ∧ (devM .running id).lease 0 = some { free4 with w := 2 } ∧ free4.st = .granted ∧
      originFree (devM .running id) { free4 with w := 2 } (fun k _ => k = 0) patch4.w patch4.h 1 1 0 = false ∧
      originFree (devM .running id) { free4 with w := 2 } (fun k _ => k = 0) patch4.w patch4.h (hCbar patch4.hdr) 1 0 = true ∧
      partsWait (devM .running id) 0 patch4.obj patch4.hdr = false ∧
      (reload (stopForPlacer (devM .running id) 0) 0 patch4.obj patch4.hdr).toOption.isSome = true) ∧
    Stand (devM .running id) (.move 0 1 0) [(0, patch4)] ∧
    (originFree devB { free4 with w := 2 } (fun k _ => k = 0) patch4.w patch4.h (hCbar patch4.hdr) 1 0 = true ∧
      placerBusy devB (eventKey (.move 0 1 0)) 0 = false ∧ patch4.st = .running ∧ patch4.host = none ∧ patch4.latched = none ∧
      patchStands devB 0 patch4 = false ∧ (∀ cid ∈ patchCores devB 0, (devB.core cid).pleat.phase ≤ 1)) :=
  ⟨by decide +kernel, stand_one _ _ _ _ (by decide +kernel), by decide +kernel⟩

/-- The evicted patch's image: one core. -/
def image1 : Core := { patch := some 0, act := some 0, ctxs := [(0, { st := .active })] }
/-- The patch evicted, its image in the store. -/
def devOut : State := devM .evicted fun s => { s with cores := [], images := [(0, { lease := 0, gen := free4.gen, cores := [(0, image1)] })] }

theorem witness_evict_restore :
    (Stand (devM .running id) (.evict 0) [(0, patch4)] ∧ storeRoom (devM .running id) [patch4] = true) ∧
    (devOut.patch 0 = some { patch4 with st := .evicted } ∧ devOut.lease 0 = some { free4 with w := 2 } ∧
      patch4.saveDue = none ∧ vfOut devOut 1 = false ∧
      originFree devOut { free4 with w := 2 } (fun k _ => k = 0) 1 1 (hCbar patch4.hdr) 1 0 = true ∧ partsWait devOut 0 patch4.obj patch4.hdr = false ∧
      placerBusy devOut (eventKey (.restore 0 1 0)) 0 = false ∧ (reload devOut 0 patch4.obj patch4.hdr).toOption.isSome = true ∧
      imageOf devOut 0 { patch4 with st := .evicted } = [(0, image1)] ∧ image1.patch = some 0) :=
  ⟨⟨stand_one _ _ _ _ (by decide +kernel), by decide +kernel⟩, by decide +kernel⟩

/-- A guest that stands frozen on the victim's rectangle. -/
def guest (s : State) : State := { s with patches := s.patches ++ [(1, { stagePatch with host := some 0, st := .frozen })] }

theorem witness_preemptResume :
    ((devM .victim guest).patch 0 = some { patch4 with st := .victim } ∧ patch4.saveDue = none ∧
      (devM .victim guest).patches.find? (fun e => e.2.host = some 0) = some (1, { stagePatch with host := some 0, st := .frozen }) ∧
      ((devM .victim guest).victims.any fun e => e.2.patch = some 0 && e.2.cache.any (lineStalls (devM .victim guest))) = false) ∧
    (devM .victim id).patches.find? (fun e => e.2.host = some 0) = none := by
  decide +kernel

/-- An object that can be read. -/
theorem read_ok (r : Except (BitVec 8 × LoadBad) KObj) (h : r.toOption.isSome = true) : ∃ o, r = .ok o := by
  cases r with
  | ok o => exact ⟨o, rfl⟩
  | error e => cases h

/-- The lease shifts by four cores, and its patch with it. -/
theorem witness_press :
    (pressOk (devM .running id) [⟨false, 0, 8, 0⟩] = true ∧ pressed (devM .running id) [⟨false, 0, 8, 0⟩] = [(0, patch4)]) ∧
    Stand (devM .running id) (.press [⟨false, 0, 8, 0⟩]) (pressed (devM .running id) [⟨false, 0, 8, 0⟩]) ∧
    (∀ e ∈ pressed (devM .running id) [⟨false, 0, 8, 0⟩], ∃ o, reload ((pressed (devM .running id) [⟨false, 0, 8, 0⟩]).foldl
      (fun s e => stopForPlacer s e.1) (devM .running id)) e.2.lease e.2.obj e.2.hdr = .ok o) := by
  have h : pressed (devM .running id) [⟨false, 0, 8, 0⟩] = [(0, patch4)] := by decide +kernel
  refine ⟨⟨by decide +kernel, h⟩, ?_, ?_⟩
  · rw [h]; exact stand_one _ _ _ _ (by decide +kernel)
  · rw [h]
    intro e he
    obtain rfl : e = (0, patch4) := by simpa using he
    have hr : (reload (stopForPlacer (devM .running id) 0) patch4.lease patch4.obj patch4.hdr).toOption.isSome = true := by decide +kernel
    exact read_ok _ hr

theorem witness_worldSwitch :
    (((devM .running id).fn 1).busy = false ∧ ((devM .running id).fn 1).out = false ∧ vfStops (devM .running id) 1 = [(0, patch4)] ∧
      (devM .running id).patches = [(0, patch4)] ∧ storeRoom (devM .running id) ((vfStops (devM .running id) 1).map (·.2)) = true) ∧
    Stand (devM .running id) (.worldSwitch 1 2) (vfStops (devM .running id) 1) ∧
    (Stand (devR 0 id) (.worldSwitch 1 2) (vfStops (devR 0 id) 1) ∧ (devR 0 id).patches = [] ∧
      storeRoom (devR 0 id) ((vfStops (devR 0 id) 1).map (·.2)) = true) := by
  have h : vfStops (devM .running id) 1 = [(0, patch4)] := by decide +kernel
  have h' : vfStops (devR 0 id) 1 = [] := rfl
  refine ⟨by decide +kernel, ?_, ?_, rfl, by decide +kernel⟩
  · rw [h]; exact stand_one _ _ _ _ (by decide +kernel)
  · rw [h']; intro e he; cases he

/-- The darning core of cluster 1 serves position 2. -/
def devD (n : Nat) : State := devR n fun s => s.modCluster 1 fun c => { c with darned := some 2 }
/-- The patch on the core that fails, with the darning core in use. -/
def devF5d : State := devF5.modCluster 1 fun c => { c with darned := some 2 }

theorem witness_darn :
    (failedAt devF5 1 1 = some 0 ∧ coreAt devF5 1 1 = 5 ∧ tfind devF5.victims 5 = none ∧ darns devF5 1 1 0 = true ∧
      patchOn devF5 5 = some (0, { patchN with x := 5 }) ∧ partsWait devF5 0 patchN.obj patchN.hdr = false ∧ readPoison (devF5.core 5) = false ∧
      (reload (stopForPlacer devF5 0) 0 patchN.obj patchN.hdr).toOption.isSome = true) ∧
    Stand devF5 (.darn 1 1) [(0, { patchN with x := 5 })] ∧
    (failedAt (devR 3 id) 1 1 = some 0 ∧ coreAt (devR 3 id) 1 1 = 5 ∧ darns (devR 3 id) 1 1 0 = true ∧ patchOn (devR 3 id) 5 = none) ∧
    (failedAt devF5d 1 1 = some 0 ∧ darns devF5d 1 1 0 = false ∧ patchOn devF5d 5 = some (0, { patchN with x := 5 }) ∧
      storeRoom devF5d [{ patchN with x := 5 }] = true) ∧
    Stand devF5d (.darn 1 1) [(0, { patchN with x := 5 })] ∧
    (failedAt (devD 3) 1 1 = some 0 ∧ darns (devD 3) 1 1 0 = false ∧ patchOn (devD 3) 5 = none ∧ storeRoom (devD 3) [] = true) ∧
    failedAt (devR 2 id) 1 1 = none :=
  ⟨by decide +kernel, stand_one _ _ _ _ (by decide +kernel), by decide +kernel, by decide +kernel, stand_one _ _ _ _ (by decide +kernel),
   by decide +kernel, by decide +kernel⟩

/-- The darning core of the first cluster of strip rows 0 to 3 serves a leasable position, or strip row 0's core. -/
def devStrip (q : Nat) : State := devR 0 fun s => s.modCluster 0 fun c => { c with darned := some q }

theorem witness_stripCoreFailure :
    ((devR 0 id).stripDown.contains 0 = false ∧ (devR 0 id).stopped = false ∧ ((devR 0 id).cluster 0).darned = none) ∧
    ((devStrip 1).stripDown.contains 0 = false ∧ (devStrip 1).stopped = false ∧ ((devStrip 1).cluster 0).darned = some 1 ∧ stripPos 0 1 = false ∧
      tfind (devStrip 1).victims 3072 = none ∧ storeRoom (devStrip 1) [] = true ∧ patchOn (devStrip 1) 3072 = none) ∧
    (((devStrip 0).cluster 0).darned = some 0 ∧ stripPos 0 0 = true ∧ (devStrip 0).stripDown.contains 1 = false ∧ (devStrip 0).stopped = false) ∧
    2 ≤ ({ devStrip 0 with stripDown := [8, 9] } : State).stripDown.length := by
  decide +kernel

/-- The device serving a command of a function on lease 0; its bytes 4 and up are `rest`. -/
def devC (fn code rest : Nat) (a : CmdArgs) (f : State → State) : State :=
  f { dev with numVfs := 1, funcs := [(fn, { busy := true, served := BitVec.ofNat 512 (code + 2 ^ 32 * rest), perms := 0x50 })], cmdIn := some (fn, a) }

/-- Such a command is served. -/
theorem served (fn code rest : Nat) (a : CmdArgs) (f : State → State) (L : Lease)
    (h : serving (devC fn code rest a f) code = some (fn, a) ∧ cmdLease (devC fn code rest a f) fn = 0 ∧
      (devC fn code rest a f).lease 0 = some L ∧ (fn = 0 ∨ L.vf = fn) ∧ L.st = .granted) : Served (devC fn code rest a f) code fn 0 L a :=
  ⟨h.1, h.2.1, h.2.2.1, h.2.2.2.1, .inl h.2.2.2.2⟩

theorem witness_CommandPermissions :
    (serving (devC 1 8 0 .profclose fun s => s.modLease 0 fun L => { L with vf := 2 }) 8 = some (1, .profclose) ∧
      ((devC 1 8 0 .profclose fun s => s.modLease 0 fun L => { L with vf := 2 }).lease 0).map (·.vf) = some 2) ∧
    serving (devC 1 39 0 .pwrcap id) 39 = some (1, .pwrcap) := by
  decide +kernel

/-- A mapping of the second 512 MiB onto the host, one of the 64 KiB after it, the whole first leaf. -/
def mapA : MapArgs := ⟨true, 2 ^ 29, 2 ^ 29, 0, 1, 0, false, false, false, true, true⟩
def mapB : MapArgs := ⟨false, 2 ^ 29, 2 ^ 16, 0, 0, 0, false, true, false, true, true⟩
def shoot0 (mig : Option (Nat × Bool)) : Shoot := { lease := 0, va := 0, size := 2 ^ 29, insts := [], mig := mig }
/-- A patch of class R stands there, so that no save area is asked for. -/
def noSave (s : State) : State := { s with patches := [(0, stagePatch)] }

/-- The device serving an UNMAP, a PROTECT, a MIGRATE of the whole first leaf; and the same with a shootdown in hand. -/
def devU : State := devC 1 2 0 (.unmap 0 (2 ^ 29)) noSave
def devPr : State := devC 1 3 0 (.protect 0 (2 ^ 29) true false false true) noSave
def devMi : State := devC 1 4 0 (.migrate 0 (2 ^ 29) 0 true) fun s => (noSave s).modFn 1 fun f => { f with exts := 1 }
def shoots (s : State) (h : Shoot) : State := s.modFn 1 fun f => { f with shoot := some h }
/-- A started instance that the shootdown waits for. -/
def shootW : Shoot := { shoot0 none with insts := [(0, 0, 0)] }

theorem witness_MappingCommands :
    (Served (devC 1 1 0 (.map mapA) noSave) 1 1 0 mapped (.map mapA) ∧ mapFields mapA = true ∧ entriesIn mapped mapA.va mapA.size = []) ∧
    (Served (devC 1 1 0 (.map mapB) noSave) 1 1 0 mapped (.map mapB) ∧ mapFields mapB = true ∧
      (reachable (devC 1 1 0 (.map mapB) noSave) mapped false 0 (2 ^ 16)).isSome = true) ∧
    entriesIn mapped 0 (2 ^ 29) ≠ [] ∧
    (Served devU 2 1 0 mapped (.unmap 0 (2 ^ 29)) ∧ wholePages (2 ^ 16) 0 (2 ^ 29) = true ∧ wholeLeaves mapped 0 (2 ^ 29) = true ∧
      keepsSaves devU 0 (changeEntries 0 (2 ^ 29) fun _ _ => 0) = true ∧ (devU.fn 1).shoot = none) ∧
    (Served devPr 3 1 0 mapped (.protect 0 (2 ^ 29) true false false true) ∧ (devPr.fn 1).shoot = none ∧
      ((entriesIn mapped 0 (2 ^ 29)).all fun e => peDest e.2.2 = 0) = true ∧
      keepsSaves devPr 0 (changeEntries 0 (2 ^ 29) fun _ e => setPerms true false false true e) = true) ∧
    (Served devMi 4 1 0 mapped (.migrate 0 (2 ^ 29) 0 true) ∧ (devMi.fn 1).shoot = none ∧
      ((entriesIn mapped 0 (2 ^ 29)).all fun e => decide ((0 + (e.1 - 0)) % e.2.1 = 0) && decide (peDest e.2.2 = 0)) = true ∧
      (reachable devMi mapped true 0 (2 ^ 29)).isSome = true) ∧
    (((shoots devU (shoot0 none)).fn 1).shoot = some (shoot0 none) ∧ shootClear (shoots devU (shoot0 none)) (shoot0 none) = true ∧
      shootStalls (shoots devU (shoot0 none)) (shoot0 none) = false) ∧
    (((shoots devMi (shoot0 (some (0, true)))).fn 1).shoot = some (shoot0 (some (0, true))) ∧
      shootClear (shoots devMi (shoot0 (some (0, true)))) (shoot0 (some (0, true))) = true ∧
      shootStalls (shoots devMi (shoot0 (some (0, true)))) (shoot0 (some (0, true))) = false) ∧
    (((shoots devU shootW).fn 1).shoot = some shootW ∧ shootClear (shoots devU shootW) shootW = false) :=
  ⟨⟨served _ _ _ _ _ _ (by decide +kernel), by decide, by decide +kernel⟩, ⟨served _ _ _ _ _ _ (by decide +kernel), by decide, by decide +kernel⟩,
   by decide +kernel, ⟨served _ _ _ _ _ _ (by decide +kernel), by decide +kernel⟩, ⟨served _ _ _ _ _ _ (by decide +kernel), by decide +kernel⟩,
   ⟨served _ _ _ _ _ _ (by decide +kernel), by decide +kernel⟩, by decide +kernel, by decide +kernel, by decide +kernel⟩

/-- Device 7 is reached over port 3; the lease maps a page not recoverable, and its core's out-channel 0 has a PEER route. -/
def peers (s : State) : State :=
  { s.modCore 0 (fun c => { c with ctxs := [(0, { c.ctx 0 with active := [(7 * 2048, 0x80000000), (8 * 2048 + 16, 0xC04)] })] }) with
    sl := { s.sl with routes := [(7, 3)] } }
/-- Its patch evicted while it stood at a breakpoint. -/
def brkOut (s : State) : State := { s with patches := [(0, { patch1 with st := .evicted, was := .debugStop })] }

theorem witness_LeaseCommands :
    (Served (devC 1 5 0 (.debug true) id) 5 1 0 mapped (.debug true) ∧ ((devC 1 5 0 (.debug true) id).fn 1).perms.getLsbD 6 = true) ∧
    (devC 1 5 0 (.debug true) fun s => s.modFn 1 fun f => { f with perms := 0 }).fn 1 ≠ (devC 1 5 0 (.debug true) id).fn 1 ∧
    Served (devC 1 6 0 .dresume id) 6 1 0 mapped .dresume ∧
    ((devC 1 6 0 .dresume brkOut).patch 0).map (fun p => (p.lease, p.st, p.was)) = some (0, .evicted, .debugStop) ∧
    (Served (devC 1 7 0 (.profopen 0 4096) id) 7 1 0 mapped (.profopen 0 4096) ∧ stripMapped (devC 1 7 0 (.profopen 0 4096) id) 0 0 4096
      (fun x e => peW e && match x with
        | .dev _ r => ! r
        | _ => false) = true) ∧
    Served (devC 1 8 0 .profclose id) 8 1 0 mapped .profclose ∧
    (Served (devC 1 9 0 (.peerbind 0 0 0 7 1 0 0 15) peers) 9 1 0 mapped (.peerbind 0 0 0 7 1 0 0 15) ∧
      tfind (devC 1 9 0 (.peerbind 0 0 0 7 1 0 0 15) peers).sl.routes 7 = some 3 ∧
      peerMoving (devC 1 9 0 (.peerbind 0 0 0 7 1 0 0 15) peers) 0 0 0 = false ∧
      peerChannel (devC 1 9 0 (.peerbind 0 0 0 7 1 0 0 15) peers) 0 0 0 0 = true) ∧
    Served (devC 1 10 0 (.peerunbind 0 0 0) id) 10 1 0 mapped (.peerunbind 0 0 0) ∧
    Served (devC 0 34 0 (.pair 7 1 1) peers) 34 0 0 mapped (.pair 7 1 1) ∧
    Served (devC 1 11 0 (.window 65536) id) 11 1 0 mapped (.window 65536) ∧ Served (devC 1 11 0 (.window 1) id) 11 1 0 mapped (.window 1) ∧
    Served (devC 1 12 0 (.faults 0) id) 12 1 0 mapped (.faults 0) ∧
    (Served (devC 1 13 0 (.report 0 0 []) id) 13 1 0 mapped (.report 0 0 []) ∧ ((devC 1 13 0 (.report 0 0 []) id).fn 1).owner = 0 ∧
      outputOk (devC 1 13 0 (.report 0 0 []) id) 0 0 (meterReport (devC 1 13 0 (.report 0 0 []) id) 0 []).length = true ∧
      rangeStalls (devC 1 13 0 (.report 0 0 []) id) 0 0 (meterReport (devC 1 13 0 (.report 0 0 []) id) 0 []).length = false) ∧
    Served (devC 1 14 0 (.attest 0 []) id) 14 1 0 mapped (.attest 0 []) :=
  ⟨⟨served _ _ _ _ _ _ (by decide +kernel), by decide +kernel⟩, by decide +kernel, served _ _ _ _ _ _ (by decide +kernel), by decide +kernel,
   ⟨served _ _ _ _ _ _ (by decide +kernel), by decide +kernel⟩, served _ _ _ _ _ _ (by decide +kernel),
   ⟨served _ _ _ _ _ _ (by decide +kernel), by decide +kernel⟩, served _ _ _ _ _ _ (by decide +kernel),
   served _ _ _ _ _ _ (by decide +kernel), served _ _ _ _ _ _ (by decide +kernel), served _ _ _ _ _ _ (by decide +kernel),
   served _ _ _ _ _ _ (by decide +kernel), ⟨served _ _ _ _ _ _ (by decide +kernel), by decide +kernel⟩,
   served _ _ _ _ _ _ (by decide +kernel)⟩

/-- A sealed domain of devices 0 and 9 whose coordinator is this one. -/
def domain2 (s : State) : State := { s with sl := { s.sl with formed := true, members := [0, 9], cur := 1 } }

/-- The lease paired with lease 1 of device 7, and a device whose patches are gone. -/
def pairL : Lease := { mapped with pair := some (7, 1, 1) }
def leavesL (s : State) : State := { s with patches := [], leases := [(0, pairL)], sl := { s.sl with routes := [(7, 3)] } }

theorem witness_PfCommands :
    (serving (devC 0 32 0 (.qconf 5 1 0 7 256 [0]) id) 32 = some (0, .qconf 5 1 0 7 256 [0]) ∧ ringSizeOk 64 256 = true ∧
      ((devC 0 32 0 (.qconf 5 1 0 7 256 [0]) id).queue 5).isOpen = false ∧ (devC 0 32 0 (.qconf 5 1 0 7 256 [0]) id).pipe = []) ∧
    (serving (devC 0 32 0 (.qconf 0 0 0 7 64 [0]) id) 32 = some (0, .qconf 0 0 0 7 64 [0]) ∧
      ((devC 0 32 0 (.qconf 0 0 0 7 64 [0]) id).queue 0).isOpen = true) ∧
    (((devC 0 32 0 (.qconf 0 1 0 7 64 [0]) id).queue 0).isOpen = true ∧ ((devC 0 32 0 (.qconf 0 1 0 7 64 [0]) id).queue 0).vf = 1 ∧
      ((devC 0 32 0 (.qconf 0 1 0 7 64 [0]) id).queue 0).size = 64) ∧
    (serving (devC 0 33 (1 + 2 ^ 16 * 3048) .vfconf fun s => { s with leases := [] }) 33 = some (0, .vfconf) ∧
      cmdByte (devC 0 33 (1 + 2 ^ 16 * 3048) .vfconf id) 0 4 = 1 ∧ cmdByte (devC 0 33 (1 + 2 ^ 16 * 3048) .vfconf id) 0 6 +
      256 * cmdByte (devC 0 33 (1 + 2 ^ 16 * 3048) .vfconf id) 0 7 = 3048 ∧
      (∀ k < 18, cmdByte (devC 0 33 (1 + 2 ^ 16 * 3048) .vfconf id) 0 (24 + k) +
        othersHold (devC 0 33 (1 + 2 ^ 16 * 3048) .vfconf id) 1 (fun f => f.peer.getD k 0) ≤ 64)) ∧
    (serving (devC 0 38 (3 + 2 ^ 8 * 255) .owner id) 38 = some (0, .owner) ∧ cmdByte (devC 0 38 (3 + 2 ^ 8 * 255) .owner id) 0 5 = 255 ∧
      cmdByte (devC 0 38 (3 + 2 ^ 8 * 255) .owner id) 0 6 % 2 = 0 ∧ cmdByte (devC 0 38 3 .owner id) 0 5 = 0) ∧
    (serving (devC 0 39 1200 .pwrcap id) 39 = some (0, .pwrcap) ∧ bitsOf ((devC 0 39 1200 .pwrcap id).fn 0).served 48 464 = 0) ∧
    (serving (devC 0 36 0 (.domain 65535 0 0 [0, 9] [(9, 17)]) id) 36 = some (0, .domain 65535 0 0 [0, 9] [(9, 17)]) ∧
      (devC 0 36 0 (.domain 65535 0 0 [0, 9] [(9, 17)]) id).sl.formed = false) ∧
    (serving (devC 0 37 0 (.dremove 9) domain2) 37 = some (0, .dremove 9) ∧ (devC 0 37 0 (.dremove 9) domain2).sl.formed = true ∧
      9 ∈ (devC 0 37 0 (.dremove 9) domain2).sl.members) ∧
    (serving (devC 0 35 0 (.lmigrate 7 1 1) leavesL) 35 = some (0, .lmigrate 7 1 1) ∧ cmdLease (devC 0 35 0 (.lmigrate 7 1 1) leavesL) 0 = 0 ∧
      (devC 0 35 0 (.lmigrate 7 1 1) leavesL).lease 0 = some pairL ∧ pairL.st = .granted ∧ pairL.loans = [] ∧ pairL.pair = some (7, 1, 1) ∧
      tfind (devC 0 35 0 (.lmigrate 7 1 1) leavesL).sl.routes 7 ≠ none ∧ (devC 0 35 0 (.lmigrate 7 1 1) leavesL).sl.rolling = none ∧
      (devC 0 35 0 (.lmigrate 7 1 1) leavesL).patches = [] ∧ (devC 0 35 0 (.lmigrate 7 1 1) leavesL).escapes = [] ∧
      storeRoom (devC 0 35 0 (.lmigrate 7 1 1) leavesL) [] = true) := by
  decide +kernel

/-- A message of the protocol in domain 0. -/
def msg (ty : BitVec 4) (n : Rin) (device : BitVec 12) : SealMsg := { ty := ty, irr := false, domain := 0, rin := n, device := device, time := 0 }
/-- Coordinator and member 0 of a domain of two, interval 1 current, with a message that arrives. -/
def devS (m : Option SealMsg) (f : State → State) : State := f { domain2 dev with patches := [(0, stagePatch)], msgIn := m }
/-- The same with interval 0 being sealed. -/
def sealing0 (s : State) : State := { s with sl := { s.sl with sealing := some 0 } }

/-- The ADVANCE to interval 2, to a domain with the patch of class R and with one of class S. -/
def devA : State := devS (some (msg 1 2 0)) id
def devA1 : State := devS (some (msg 1 2 0)) fun s => { s with patches := [(0, patch1)] }
/-- A device in rollback hears the ADVANCE that ends it; one of its patches stands saved. -/
def devA2 : State := devS (some (msg 1 1 0)) fun s =>
  { s with patches := [(0, { patch1 with st := .saving, was := .running })], sl := { s.sl with rolling := some 0 } }
/-- The last READY of interval 0. -/
def devRd : State := devS (some (msg 2 0 9)) fun s => { sealing0 s with sl := { (sealing0 s).sl with readyFrom := [0] } }

theorem witness_SealProtocol :
    ((devS none id).timerIn = none ∧ (devS none id).sl.formed = true ∧ (devS none id).sl.device = (devS none id).sl.coordinator ∧
      (devS none id).sl.sealing = none ∧ (devS none id).sl.rolling = none ∧ dueMsg (devS none id) 1 = none ∧
      (devS none id).sl.lastAdvance + (devS none id).sl.timer ≤ (devS none id).time ∧ (devS none id).sl.lastAdvance + 250000 ≤ (devS none id).time) ∧
    (devS none fun s => { s with timerIn := some 250000 }).timerIn = some 250000 ∧
    dueMsg (gotMsg (devS (some (msg 4 0 9)) id) 4) 4 = some (msg 4 0 9) ∧
    (dueMsg (gotMsg devA 1) 1 = some (msg 1 2 0) ∧ (gotMsg devA 1).sl.rolling = none ∧ rinGt 2 (gotMsg devA 1).sl.cur = true ∧
      (gotMsg devA 1).sl.sealing = none ∧ toFreeze (gotMsg devA 1) = []) ∧
    (dueMsg (gotMsg devA1 1) 1 = some (msg 1 2 0) ∧ (toFreeze (gotMsg devA1 1)).map (·.1) = [0] ∧
      (toFreeze (gotMsg devA1 1)).all (fun e => ! placerBusy (gotMsg devA1 1) (eventKey .advance) e.2.lease && placerStops (gotMsg devA1 1) e.1 e.2) = true) ∧
    (dueMsg (gotMsg devA2 1) 1 = some (msg 1 1 0) ∧ (gotMsg devA2 1).sl.rolling ≠ none ∧ (msg 1 1 0).rin = (gotMsg devA2 1).sl.cur ∧
      ((gotMsg devA2 1).patch 0).map (·.st) = some .saving) ∧
    (tgetD (devS none id).ports 0 {}).down = false ∧
    (dueMsg (gotMsg devRd 2) 2 = some (msg 2 0 9) ∧ (gotMsg devRd 2).sl.rolling = none ∧ (gotMsg devRd 2).sl.sealing = some (msg 2 0 9).rin ∧
      ∀ d ∈ (gotMsg devRd 2).sl.members, d = (msg 2 0 9).device.toNat ∨ d ∈ (gotMsg devRd 2).sl.readyFrom) ∧
    (dueMsg (gotMsg (devS none sealing0) 2) 2 = none ∧ (gotMsg (devS none sealing0) 2).sl.sealing = some 0 ∧
      (gotMsg (devS none sealing0) 2).sl.rolling = none ∧ mayReady (gotMsg (devS none sealing0) 2) 0 = true) ∧
    (dueMsg (gotMsg (devS (some (msg 3 0 0)) sealing0) 3) 3 = some (msg 3 0 0) ∧ (gotMsg (devS (some (msg 3 0 0)) sealing0) 3).sl.sealing = some 0 ∧
      (gotMsg (devS (some (msg 3 0 0)) id) 3).sl.sealing ≠ some 0) ∧
    ((devS none sealing0).sl.sealing = some 0 ∧ (devS none sealing0).sl.openSince + 100000000 ≤ (devS none sealing0).time) ∧
    ((devS (some (msg 3 0 0)) id).msgIn = some (msg 3 0 0) ∧ (msg 3 0 0).ty.toNat ≠ 2) := by
  decide +kernel

/-- A line whose tag is 32,768 intervals old. -/
def oldTag : State := { devS none id with lineTags := [(5, 1)], sl := { (devS none id).sl with cur := 32769 } }

theorem witness_RollbackProtocol :
    (dueMsg (gotMsg (devS (some (msg 5 1 9)) id) 5) 5 = some (msg 5 1 9) ∧ rinGt 1 (gotMsg (devS (some (msg 5 1 9)) id) 5).sl.s = true ∧
      rinGt (gotMsg (devS (some (msg 5 1 9)) id) 5).sl.base 1 = false ∧ dueMsg (gotMsg (devS (some (msg 5 1 9)) id) 5) 3 = none) ∧
    (dueMsg (gotMsg (devS (some (msg 6 0 0)) id) 6) 6 = some (msg 6 0 0) ∧ (gotMsg (devS (some (msg 6 0 0)) id) 6).sl.sealing ≠ some 0 ∧
      (gotMsg (devS (some (msg 6 0 0)) sealing0) 6).sl.sealing = some 0) ∧
    (dueMsg (gotMsg (devS (some (msg 7 0 9)) fun s => { s with sl := { s.sl with rolling := some 0, rolledFrom := [0] } }) 7) 7 = some (msg 7 0 9) ∧
      ∀ d ∈ [0, 9], d = (msg 7 0 9).device.toNat ∨ d ∈ [0]) ∧
    (dev.lease 0 = some mapped ∧ tlbLookup { dev with leases := [(0, { mapped with ptBad := [(2, 1)] })] } 0 0 mapped (2 ^ 32) = none ∧
      2 ^ 32 / 2 ^ 29 / 8 = 1) ∧
    (tgetD oldTag.lineTags 5 0 ≠ 0 ∧ 32768 ≤ tagAge oldTag.sl.cur (tgetD oldTag.lineTags 5 0)) := by
  decide +kernel

theorem witness_UndoRestores : dev.mem.wf = true ∧ 0x108 % 64 + [1, 2].length ≤ 64 ∧
    needsUndo (devS none id) 0x108 true 1 = true ∧ 0x13F % 64 + [1].length ≤ 64 := by
  decide +kernel

/-- Core 0 whose out-channel 0 holds a token for its own in-channel 0, and whose element 0 is of a type, its heads `a`, `b`, `c` at
in-channels 0 to 2, its arms leading to in-channel 3. -/
def elemCore (ty : Nat) (a b c : Flit) (e : Elem) (k : Core) : Core :=
  let d := core1 k
  { d with
    ins := [(0, { buf := [(0, a)] }), (1, { buf := [(1, b)] }), (2, { buf := [(2, c)] })]
    outs := [(0, { buf := [tok1 0] })]
    elems := [(0, e)]
    ctxs := d.ctxs.map fun x => (x.1, { x.2 with active := [(7 * 2048, 0x20000C00),
      (7 * 2048 + 16, BitVec.ofNat 32 (ty * 2 ^ 28 + 2 ^ 20 + 2 ^ 17)), (7 * 2048 + 17, 0x20000C00), (7 * 2048 + 18, 0x20000C00),
      (8 * 2048, 0x404), (8 * 2048 + 1, 0x404), (8 * 2048 + 2, 0x404), (8 * 2048 + 3, 0x404), (8 * 2048 + 16, 0x404)] }) }
def devE (ty : Nat) (b : BitVec 4) (e : Elem) : State :=
  at1 (some 0) (inst1 1 0 0 0) (elemCore ty (tok1 0) (tok1 b) (tok1 12) e) patch1 { mapped with pair := some (9, 4, 1) }
/-- A flit from device 9's lease 4 for lease 0. -/
def far : PeerFlit :=
  { destDevice := 0, destLease := 0, destGen := 1, srcDevice := 9, srcLease := 4, px := 0, py := 0, chan := 3, kind := 0, value := 1, rin := 0 }

/-- A flit of that channel waits at port 17; a patch whose cuts are closed by a stop. -/
def heldDev : State := { devE 1 10 {} with ports := [(17, { held := [far] })] }
def cutDev : State :=
  at1 none (inst1 1 0 0 0) (fun c => { c with ctxs := [(0, { st := .active, pinned := true, cuts := [(0, 1)] })] }) { patch1 with st := .stopping }

theorem witness_FlitsMove :
    (sends (devE 1 10 {}) 0 = true ∧ ((devE 1 10 {}).core 0).outBound 0 = true ∧ (((devE 1 10 {}).core 0).outCh 0).buf = [tok1 0] ∧
      cutClosed (devE 1 10 {}) 0 0 = false ∧ routeKind (((devE 1 10 {}).core 0).route 0) = 1 ∧
      pathEnd (devE 1 10 {}) 0 (((devE 1 10 {}).core 0).route 0) = .core 0 ∧ arrivalAt (devE 1 10 {}) 0 3 (tok1 0) = .take ∧
      (sendRoute (devE 1 10 {}) 0 0 (((devE 1 10 {}).core 0).route 0) (tok1 0)).isSome = true) ∧
    ((dev.core 0).outCh 0).buf = [] ∧ cutClosed cutDev 0 0 = true ∧
    sendRoute (devE 1 10 {}) 0 0 0 (tok1 0) = none ∧
    (elemActs (devE 1 10 {}) 0 0 1 = true ∧ ((devE 1 10 {}).core 0).headFlit (((devE 1 10 {}).core 0).elemIn0 0) = some (tok1 0) ∧
      ((devE 1 10 {}).core 0).headFlit (((devE 1 10 {}).core 0).elemIn1 0) = some (tok1 10) ∧ (elemSend (devE 1 10 {}) 0 0 1 (tok1 0)).isSome = true) ∧
    (elemActs (devE 2 10 {}) 0 0 2 = true ∧ ((devE 2 10 {}).core 0).headFlit (((devE 2 10 {}).core 0).elemIn2 0) = some (tok1 12) ∧
      (elemSend (devE 2 10 {}) 0 0 0 (tok1 12)).isSome = true) ∧
    (elemActs (devE 3 10 { phase := 1 }) 0 0 3 = true ∧ (elemSend (devE 3 10 { phase := 1 }) 0 0 0 (tok1 0)).isSome = true) ∧
    (elemActs (devE 4 10 { outq := [tok1 0] }) 0 0 4 = true ∧ (elemSend (devE 4 10 { outq := [tok1 0] }) 0 0 0 (tok1 0)).isSome = true) ∧
    ((tgetD (devE 1 10 {}).ports 17 {}).down = false ∧ ({ far with destDevice := 1 } : PeerFlit).destDevice ≠ (devE 1 10 {}).sl.device ∧
      reservedKind far = false) ∧
    (far.destDevice = (devE 1 10 {}).sl.device ∧ far.msg = .flit ∧ (tgetD (devE 1 10 {}).ports 17 {}).held = [] ∧
      paired (devE 1 10 {}) { far with destGen := 2 } = none ∧ (devE 1 10 {}).forwards = []) ∧
    (tgetD (heldDev.ports) 17 {}).held.any (sameChannel far) = true ∧
    (paired (devE 1 10 {}) far = some { mapped with pair := some (9, 4, 1) } ∧ discarded (devE 1 10 {}) far.rin = false ∧
      (devE 1 10 {}).sl.rolling = none ∧ coreXY (devE 1 10 {}) 0 0 = 0 ∧
      (((devE 1 10 {}).core 0).patch.bind (devE 1 10 {}).patch).any (·.stop.isSome) = false ∧ arrivalAt (devE 1 10 {}) 0 3 (tok1 0) = .take) := by
  decide +kernel

/-- Core 0 whose out-channel 0 is as given, in a patch that may spill and has stood idle. -/
def devO (o : OutCh) (spills : Bool) (idle : Nat) : State :=
  { at1 (some 0) (inst1 1 0 0 0) (fun c => { core1 c with outs := [(0, o)] })
      { patch1 with idle := idle, hdr := if spills then hdr1.set 4 0xD0001000 else hdr1 }
      { mapped with big := [], small := [(spillVa 0 / 65536, mkEntry 0 0 0 false false false true true true true)] } with
    time := 10 ^ 9
    islands := [(0, { cycles := 4096 })] }

/-- The header of that patch, which may spill. -/
def hdrSp : List CWord := hdr1.set 4 0xD0001000
/-- That channel spills, its core's port holding the request that writes or reads its next record. -/
def devSp (sp : Spill) (k : ReqKind) : State :=
  let s := devO { spill := some sp } true 0
  s.modCore 0 fun c => { c with gen := [ownReq s 0 k []] }
/-- A token that waits to be written, and a record to be read. -/
def spOut : Spill := { recs := [], wait := [tok1 0] }
def spIn : Spill := { recs := [(0, 0)], wait := [] }
/-- Its first record's two lines are there to be written, with undo room, and to be read. -/
def spLines (s : State) : Bool :=
  match translate s 0 0 (spillVa 0), translate s 0 0 (spillVa 0 + 64) with
  | .ok (.dev pa ra) e, .ok (.dev pb rb) _ => peW e && ! readBad s 0 (.dev pa ra) && ! readBad s 0 (.dev pb rb) &&
    decide (bytesNat (nodeRead s 0 (.dev pb rb) 1) % 16 < 13) && (overLease (nodeWrite (nodeWrite s (.dev pa ra) (spillLines (tok1 0)).1
      (s.core 0).rin) (.dev pb rb) (spillLines (tok1 0)).2 (s.core 0).rin)).isNone
  | _, _ => false

theorem witness_StuckChannels :
    ((((devO { drops := some ⟨1, 0, 0, 10 ^ 9 - 10 ^ 6, 1, 0, 1⟩ } false 0).core 0).outCh 0).drops = some ⟨1, 0, 0, 10 ^ 9 - 10 ^ 6, 1, 0, 1⟩ ∧
      10 ^ 9 - 10 ^ 6 + 1000000 ≤ (devO {} false 0).time ∧ (devO {} false 0).time < 10 ^ 9 - 10 ^ 6 + 1 + 1000000) ∧
    (RunsOn (devO { fullSince := some 0 } true 4096) 0 0 { patch1 with idle := 4096, hdr := hdrSp } ∧ hSpill hdrSp = true ∧
      (stuckOuts (devO { fullSince := some 0 } true 4096) 0).contains 0 = true) ∧
    (RunsOn (devO { spill := some spOut } true 0) 0 0 { patch1 with hdr := hdrSp } ∧
      (((devO { spill := some spOut } true 0).core 0).outCh 0).spill = some spOut ∧ spOut.wait ≠ [] ∧
      ((devO { spill := some spOut } true 0).core 0).asked (.spill 0) = false) ∧
    (((admitLate (devSp spOut (.spill 0)) 0).core 0).gen = [ownReq (devSp spOut (.spill 0)) 0 (.spill 0) []] ∧
      (ownReq (devSp spOut (.spill 0)) 0 (.spill 0) []).stands (admitLate (devSp spOut (.spill 0)) 0) 0 = true ∧
      nextRecord (admitLate (devSp spOut (.spill 0)) 0) 0 [] = some 0 ∧ spLines (admitLate (devSp spOut (.spill 0)) 0) = true) ∧
    (spIn.recs ≠ [] ∧ (((devO { spill := some spIn } true 0).core 0).outCh 0).buf.length < ((devO { spill := some spIn } true 0).core 0).outDepth 0 ∧
      ((devO { spill := some spIn } true 0).core 0).asked (.unspill 0) = false) ∧
    (((admitLate (devSp spIn (.unspill 0)) 0).core 0).gen = [ownReq (devSp spIn (.unspill 0)) 0 (.unspill 0) []] ∧
      (ownReq (devSp spIn (.unspill 0)) 0 (.unspill 0) []).stands (admitLate (devSp spIn (.unspill 0)) 0) 0 = true ∧
      spLines (admitLate (devSp spIn (.unspill 0)) 0) = true) ∧
    (stallAt (devO { fullSince := some 0 } false 4096) 0 { patch1 with idle := 4096 } = some (0, some (true, 0)) ∧
      stallAt (devO { fullSince := some 0 } false 4095) 0 { patch1 with idle := 4095 } = none) := by
  unfold RunsOn
  decide +kernel

/-- A request at the GEN port of core 0, and the device with it; a copy at position 0. -/
def req (kind : ReqKind) (gen : BitVec 8) : GenReq :=
  { kind := kind, pinned := false, task := 0, inst := 0, slot := 0, lsid := 0, ac := .z32, gather := false, na := false, elems := [], data := [],
    osc := none, sc := false, lease := 0, gen := gen, epoch := 0 }
def devG (r : GenReq) : State := dev.modCore 0 fun c => { c with gen := [r] }
def devY (next : Nat) : State := dev.modCluster 0 fun c => { c with queues := [(0, [{ copyEntry with next := next }])] }

/-- The device whose port holds a request. -/
def asks (k : ReqKind) (gen : BitVec 8) : State := admitLate (devG (req k gen)) 0

theorem witness_MemoryPorts :
    ((dev.core 0).patch = some 0 ∧ dev.lease (coreLease dev 0) = some mapped ∧ tlbHit (dev.core 0).tlb 0 1 0 = none ∧
      (lookup dev 0 0 0).isSome = true ∧ ((lookup dev 0 0 0).map fun x => peMig x.2) = some false ∧ walkBad mapped 0 = false) ∧
    (((asks .load 2).core 0).gen = [req .load 2] ∧ (req .load 2).stands (asks .load 2) 0 = false) ∧
    (((asks .load 1).core 0).gen = [req .load 1] ∧ (req .load 1).stands (asks .load 1) 0 = true) ∧
    (((asks .store 1).core 0).gen = [req .store 1] ∧ (req .store 1).stands (asks .store 1) 0 = true) ∧
    (RunsOn (asks (.relatch (tok1 9)) 1) 0 0 patch1 ∧ (req (.relatch (tok1 9)) 1).stands (asks (.relatch (tok1 9)) 1) 0 = true ∧
      relatchMay ((asks (.relatch (tok1 9)) 1).core 0) = true) ∧
    ((dev.core 0).gen = [] ∧ (dev.core 0).late = []) ∧
    (copyQ (devY 0) 0 0 = [copyEntry] ∧ copyCurrent (devY 0) copyEntry = true ∧ copyCount copyPacket ≤ 0 + 1 ∧
      (match copyElem (devY 0) 0 copyEntry with
        | .ok _ => true
        | _ => false) = true) ∧
    (let e : CopyEnt := { copyEntry with packet := copyPacket + 2 ^ 160 }
     0 + 1 < copyCount e.packet ∧ (match copyElem (devY 0) 0 e with
        | .ok _ => true
        | _ => false) = true) ∧
    (match copyElem (devY 0) 0 { copyEntry with packet := copyPacket + 2 ^ 72 } with
      | .bad _ _ _ => true
      | _ => false) = true ∧
    copyCurrent (devY 0) { copyEntry with gen := 2 } = false := by
  unfold RunsOn
  decide +kernel

/-- The device with a mangle queue. -/
def devN (q : List MEnt) : State := dev.modCore 0 fun c => { c with mangle := { queue := q } }
def ent (op : MOp) (started : Bool) : MEnt := { id := 0, op := op, started := started, tile := 0, rows := [] }

/-- A run whose rows come from in-channel 0, all but one of its tile's already taken. -/
def chanRun : BitVec 64 := 2 ^ 18 + 1
def chanEnt : MEnt := { ent (.run 4 chanRun) true with rows := List.replicate (tileRows 4 - 1) 0 }

theorem witness_MangleEngine :
    (RunsOn (devN [ent (.run 4 1) false]) 0 0 patch1 ∧ ((devN [ent (.run 4 1) false]).core 0).pleat.phase = 0 ∧
      ((devN [ent (.run 4 1) false]).core 0).mangle.queue.find? ((devN [ent (.run 4 1) false]).core 0).mangle.mayStart = some (ent (.run 4 1) false)) ∧
    (((devN [ent (.run 4 1) true]).core 0).holdT = false ∧ ((devN [ent (.run 4 1) true]).core 0).mangle.tileHeld (ent (.run 4 1) true) = false ∧
      mdSrck 1 = false ∧ (match rowsFromS ((devN [ent (.run 4 1) true]).core 0) 4 1 0 with
        | .rows _ _ => true
        | _ => false) = true) ∧
    (mdSrck chanRun.toNat = true ∧ ((devN [chanEnt]).core 0).recvDue (mdIn chanRun.toNat) = false ∧
      (match rowsFromChan ((devN [chanEnt]).core 0) chanEnt 4 (mdIn chanRun.toNat) with
        | .rows _ _ => true
        | _ => false) = true) ∧
    ((devN [ent (.zero 1) true]).core 0).mangle.queue[0]? = some (ent (.zero 1) true) ∧
    ((devN [ent .swap false]).core 0).mangle.queue = [ent .swap false] ∧
    (((devN [ent .fence false]).core 0).mangle.queue.find? fun q =>
      q.op = .fence && (((devN [ent .fence false]).core 0).mangle.before q.id).all fun p => ! p.op.works) = some (ent .fence false) ∧
    (((devN [ent (.load 3 0 []) false]).core 0).holdS = false ∧ (0 : BitVec 64).getLsbD 63 = false ∧
      ((devN [ent (.load 3 0 []) false]).core 0).rolePoisoned .s 0 (2048 + scaleBytes 3 false) = false) := by
  unfold RunsOn
  decide +kernel

/-- Core 0 whose out-channel 0 is a request channel with a CONTROL token for context 0, its patch with n requests. -/
def devX (n : Nat) : State :=
  at1 (some 0) (inst1 1 0 0 0) (fun c => { core1 c with
    outs := [(0, { buf := [{ tok1 10 with value := 0 }] })]
    ctxs := [(0, { st := .active, active := [(7 * 2048, 0x60000000), (8 * 2048 + 16, 0x404)] })] })
    { patch1 with reqs := List.replicate n (0, 0, 0) } mapped
/-- A device whose one core is locally done. -/
def devZ (reqs : List (Nat × Nat × Nat)) : State :=
  { State.reset with
    cores := [(0, { patch := some 0, act := some 0, ctxs := [(0, { st := .active })] })]
    patches := [(0, { patch1 with reqs := reqs })]
    leases := [(0, mapped)] }
def devH (phase : Nat) (req : BitVec 32) : State := dev.modCore 0 fun c => { c with pleat := { c.pleat with phase := phase, req := req } }

theorem witness_RegionSteps :
    (RunsOn (devX 63) 0 0 { patch1 with reqs := List.replicate 63 (0, 0, 0) } ∧ ((devX 63).core 0).outBound 0 = true ∧
      routeKind (((devX 63).core 0).route 0) = 3 ∧ (((devX 63).core 0).outCh 0).buf = [{ tok1 10 with value := 0 }] ∧ 0 < hNctx hdr1 ∧
      (List.replicate 63 (0, 0, 0)).length < 64 ∧ 64 ≤ (List.replicate 64 (0, 0, 0)).length) ∧
    ((devZ []).patch 0 = some patch1 ∧ patchCores (devZ []) 0 ≠ [] ∧
      (∀ c ∈ patchCores (devZ []) 0, localDone (devZ []) c = true ∧ drainStalls (devZ []) c = false)) ∧
    ((∀ c ∈ patchCores (devZ [(0, 0, 0)]) 0, localDone (devZ [(0, 0, 0)]) c = true ∧ drainStalls (devZ [(0, 0, 0)]) c = false) ∧
      (chooseCtx (patchOcc (devZ [(0, 0, 0)]) 0) { patch1 with reqs := [(0, 0, 0)] }).isSome = true) ∧
    (((devH 6 0x111).core 0).pleat.phase = 6 ∧ ((devH 3 0x111).core 0).pleat.phase = 3 ∧ ((devH 3 0x111).core 0).movesPoison = false) ∧
    (nextStep ((devH 3 0x121).core 0).pleat 0x121 3 = 4 ∧ ((devH 3 0x121).core 0).mangle.busy = false ∧
      ((devH 3 0x121).core 0).movesPoison = false ∧ nextStep ((devH 3 0x111).core 0).pleat 0x111 3 ≠ 4) ∧
    (((devH 2 0x121).core 0).pleat.phase = 2 ∧ reindexStalls (devH 2 0x121) 0 = false ∧ nextStep ((devH 2 0x111).core 0).pleat 0x111 2 ≠ 4) ∧
    (0 < (dev.core 0).nTasks ∧ (dev.core 0).windowDone = false ∧
      ((dev.modCore 0 fun c => { c with winFill := [(0, (0, 4096))] }).core 0).windowDone = true) := by
  unfold RunsOn
  decide +kernel

/-- A block of one `exit.t` in the decoded buffer of core 0, at address 0; a block whose headers are wrong. -/
def exitBlock : DecBlock := { addr := 0, gen := 0, words := [0, 0, 0x0114000000000000] }
def badBlock1 : DecBlock := { addr := 0, gen := 0, words := [0xFFFFFFFFFFFFFFFF, 0] }
/-- The device with task 0 of core 0 between its blocks, and with task 0 free and a token for it. -/
def devBl (b : DecBlock) : State :=
  dev.modCore 0 fun c => { c.modTask 0 fun t => { t with inst := none } with blocks := [b] }
def devTF : State := dev.modCore 0 fun c => { c.modTask 0 fun t => { t with st := .free, inst := none } with nTasks := 1 }
/-- Task 0 with a request to spawn at a position outside the patch, one for its own core, and one for a pinned core. -/
def devSpn (a : Value) : State := devTF.modCore 0 fun c => c.modTask 0 fun t => { t with spawns := [(0, 0, true, a, 0)] }
/-- Core 0 in a pinned context of one read entry, from in-channel 0, where a token of a kind waits. -/
def devPK (kind : BitVec 4) : State := at1 none (inst1 1 0 0 0) (fun c =>
  let d := core1 c
  { d with
    ins := [(0, { buf := [(0, tok1 kind)] })]
    ctxs := d.ctxs.map fun x => (x.1, { x.2 with active := x.2.active ++ [(2048 + 14, 1)] }) }) patch1 mapped
def devPQ : State := devPK 0
/-- The same with a BARRIER and no instance before it; the device with a cause of a copy pending in task 0. -/
def devP8 : State := (devPK 8).modCore 0 fun c => { c with pinst := [] }
def devAsync : State := (devBl exitBlock).modCore 0 fun c => c.modTask 0 fun t => { t with async := [⟨0x08, 0, 0⟩] }

theorem witness_TaskSteps :
    (RunsOn devTF 0 0 patch1 ∧ (devTF.core 0).inTasks = true ∧ 0 < (devTF.core 0).nTasks ∧ ((devTF.core 0).task 0).st = .free ∧
      ((devTF.core 0).task 0).resv = none ∧ (devTF.core 0).holdG = false ∧
      ((List.range 16).any fun j => (devTF.core 0).inBound j && (devTF.core 0).inTask j = 0 && recvReady (devTF.core 0) j) = true) ∧
    (((devSpn (2 ^ 48)).core 0).task 0).spawns.find? (fun q => spawnCheck (devSpn (2 ^ 48)) 0 patch1 q.2.2.1 q.2.2.2.1 != .wait) =
      some (0, 0, true, (2 ^ 48 : Value), 0) ∧
    (spawnCheck devTF 0 patch1 true (2 ^ 60) = .slot 0 0 ∧ spawnCheck devTF 0 patch1 true 0 = .status 4 ∧
      spawnCheck devTF 0 patch1 true (2 ^ 60 + 4) = .status 5 ∧ spawnCheck devPQ 0 patch1 true (2 ^ 60) = .status 2) ∧
    (RunsOn (devBl exitBlock) 0 0 patch1 ∧ (((devBl exitBlock).core 0).task 0).st = .live ∧ (((devBl exitBlock).core 0).task 0).inst = none ∧
      (((devBl exitBlock).core 0).task 0).sealWait = false ∧ ((devBl exitBlock).core 0).holdG = false ∧ (devBl exitBlock).escapes = [] ∧
      (((devBl exitBlock).core 0).task 0).async = [] ∧ patch1.stop = none ∧ breakAt (((devBl exitBlock).core 0).task 0) = none ∧
      blockErr ((devBl exitBlock).core 0).frame exitBlock.words = none) ∧
    (match readBlock 0 0 0 (devBl exitBlock) with
      | .ok _ ws => ws = exitBlock.words
      | _ => False) ∧
    (match readBlock 0 0 0 (devBl badBlock1) with
      | .ok _ ws => blockErr ((devBl badBlock1).core 0).frame ws ≠ none
      | _ => False) ∧
    ((devAsync.core 0).task 0).async = [⟨0x08, 0, 0⟩] ∧
    (RunsOn devPQ 0 0 patch1 ∧ patch1.held = false ∧ (devPQ.core 0).isPinned = true ∧ 0 < (devPQ.core 0).pinNr ∧ (devPQ.core 0).pinChans = [0] ∧
      (devPQ.core 0).headFlit 0 ≠ none ∧ pinKindOf (devPQ.core 0) = .data ∧ (devPQ.core 0).aselChans = [] ∧
      roomForAll (devPQ.core 0) (dataInst (devPQ.core 0) 0).resv = true) ∧
    (((devPK 9).core 0).isPinned = true ∧ 0 < ((devPK 9).core 0).pinNr ∧ ((devPK 9).core 0).pinChans = [0] ∧ ((devPK 9).core 0).headFlit 0 ≠ none ∧
      pinKindOf ((devPK 9).core 0) = .aligned 9 ∧ roomForAll ((devPK 9).core 0) (alignedInst ((devPK 9).core 0) 9).resv = true) ∧
    (pinKindOf (devP8.core 0) = .aligned 8 ∧ roomForAll (devP8.core 0) (alignedInst (devP8.core 0) 8).resv = true ∧ drainStalls devP8 0 = false ∧
      (devP8.core 0).pinst = [] ∧ (devP8.core 0).gen = []) ∧
    (pinKindOf ((devPK 2).core 0) = .stop 2 ∧ roomForAll ((devPK 2).core 0) (stopInst ((devPK 2).core 0) 2).resv = true) := by
  refine ⟨by unfold RunsOn; decide +kernel, by decide +kernel, by decide +kernel, by unfold RunsOn; decide +kernel, ?_, ?_,
    by decide +kernel, by unfold RunsOn; decide +kernel, by decide +kernel, by decide +kernel, by decide +kernel⟩
  · have h : (match readBlock 0 0 0 (devBl exitBlock) with
      | .ok _ ws => decide (ws = exitBlock.words)
      | _ => false) = true := by decide +kernel
    revert h
    cases readBlock 0 0 0 (devBl exitBlock) <;> simp
  · have h : (match readBlock 0 0 0 (devBl badBlock1) with
      | .ok _ ws => decide (blockErr ((devBl badBlock1).core 0).frame ws ≠ none)
      | _ => false) = true := by decide +kernel
    revert h
    cases readBlock 0 0 0 (devBl badBlock1) <;> simp

/-- An instance of a block of one instruction, whose exit is chosen. -/
def instX (w : IWord) (f : SlotSt → SlotSt) (g : Inst → Inst) : Inst :=
  g { stageInst w with code := [w], slots := [f {}], writes := [], exits := 1 }
def devBI (x : Inst) (fault : Option FaultInfo) (st : PatchState) : State :=
  { (dev.modCore 0 fun c => c.modTask 0 fun t => { t with inst := some x }) with patches := [(0, { patch1 with fault := fault, st := st })] }
/-- A cause at core 0. -/
def fault1 : FaultInfo := faultInfo dev 0 (some 0) 0 0 { cause := 0x07 }
/-- An instance whose exit has fired, one whose exit never comes, one told twice. -/
def doneInst : Inst := instX 0x0114000000000000 (fun q => { q with ph := .fired }) fun x => { x with exit := some .stop }
def stuckInst : Inst := instX 0x0114000000000000 (fun q => { q with ph := .dead }) fun x => { x with exits := 0 }

/-- The same instance with one write entry that holds 7; with a return; with a store that finds no room for its undo entry. -/
def wroteInst : Inst := { doneInst with writes := [some (.val 7)] }
def retInst : Inst := { doneInst with exit := some .ret }
def storeInst : Inst := { doneInst with
  caps := [{ slot := 0, lsid := some 0, eff := .globalStore [(0, .dev 0 true, [1])] .z8 false false false none false, t0 := .none, t1 := .none }] }
def devFull : State :=
  { devBI storeInst none .running with
    undo := [{ ctrl := 0, pa := 0, lease := 0, gen := 1, rin := 0, otag := 0, poison := false, data := 0, bad := false, area := noArea }] }
/-- How a commit of the device's task ends. -/
def ends (s : State) (x : Inst) (P : Done → Bool) : Bool := P (commitAll 0 0 0 patch1 x (traceBlock s 0 0 1 x))
/-- A pinned store that stalls at the GEN port. -/
def pinReq : GenReq := { req .store 1 with pinned := true, stalled := some 0 }
def devPin : State := { devBl exitBlock with islands := [(0, { cycles := 2 ^ 25 })] }

theorem witness_BlockEnds :
    (RunsOn (devBI wroteInst none .running) 0 0 patch1 ∧ ((devBI wroteInst none .running).core 0).holdG = false ∧ wroteInst.broken = false ∧
      wroteInst.complete = true ∧ wroteInst.caps = [] ∧ wroteInst.exit = some .stop ∧ (((devBI wroteInst none .running).core 0).task 0).async = [] ∧
      (((devBI wroteInst none .running).core 0).task 0).dbg.getLsbD 1 = false ∧ wroteInst.writes = [some (.val 7)]) ∧
    ends (devBI doneInst none .running) doneInst (fun d => match d with
      | .ok _ => true
      | _ => false) = true ∧
    ends (devBI retInst none .running) retInst (fun d => match d with
      | .bad _ => true
      | _ => false) = true ∧
    (RunsOn devFull 0 0 patch1 ∧ storeInst.broken = false ∧ storeInst.complete = true ∧ ends devFull storeInst (fun d => match d with
      | .stall l => decide (l = some 0)
      | _ => false) = true) ∧
    ({ doneInst with twice := true } : Inst).broken = true ∧
    (stuckInst.broken = false ∧ stuckInst.complete = false ∧ quiescent (devBI stuckInst none .running) 0 (some 0) stuckInst = true) ∧
    (({ doneInst with stalled := some 0 } : Inst).stalled = some 0 ∧
      0 + 2 ^ 25 ≤ cyclesOf { devBI { doneInst with stalled := some 0 } none .running with islands := [(0, { cycles := 2 ^ 25 })] } 0) ∧
    (((devPin.core 0).task 0).inst = none ∧ 0 + 2 ^ 25 ≤ cyclesOf devPin 0 ∧ pinReq.pinned = true ∧ pinReq.stalled = some 0 ∧
      ((devPin.modCore 0 fun c => { c with gen := [pinReq] }).core 0).gen = [pinReq]) ∧
    ((devBI doneInst (some fault1) .stopping).patch 0 = some { patch1 with fault := some fault1, st := .stopping } ∧ patch1.stop = none ∧
      patchQuiet (devBI doneInst (some fault1) .stopping) 0 = true ∧ fault1.cause ≠ 0x0F ∧ classOf fault1.cause fault1.sub ≠ .b) ∧
    patchQuiet ((devBI doneInst (some fault1) .stopping).modCore 0 fun c => { c with gen := [req .load 1] }) 0 = false := by
  unfold RunsOn
  refine ⟨?_, ?_, ?_, ?_, ?_, ?_, ?_, ?_, ?_, ?_⟩ <;> decide +kernel

theorem witness_IssueSelection : issuable (t1 1 2 3) 0 0 true = [] ∧ issuable (t1 1 2 3) 0 0 false = [0] ∧ 0 < 8 := by decide +kernel

/-- The device as a management controller sends it something. -/
def devMg (m : MgmtMsg) : State := { dev with mgmtIn := some m }
/-- METER_RESET and KEYROLL for owner 0, all else zero, 828 bytes. -/
def resetMsg : List Byte := 1 :: List.replicate 827 0
def keyMsg : List Byte := 2 :: List.replicate 827 0

/-- Whether an owner message or an image is accepted rests on what the signature checks answer (assumption 4), so those clauses are met where
they accept. A message for an owner without a key is refused. -/
theorem witness_ManagementSteps (i : Image) (key : BitVec 384) (hi : imageOk 2 i = true) (hm : msgSigned resetMsg key = true)
    (hk : msgSigned keyMsg key = true) :
    (dev.meterAt + 1000000 ≤ dev.time ∧ State.reset.time < State.reset.meterAt + 1000000) ∧
    ((2 : BitVec 8) ≠ 0 ∧ (2 : BitVec 8).getLsbD 0 = false ∧ (2 : BitVec 8).getLsbD 3 = false ∧ 1050 ≤ (tgetD dev.islands 5 {}).freq ∧
      (tgetD ({ dev with islands := [(5, { freq := 1049 })] } : State).islands 5 {}).freq < 1050) ∧
    ((tgetD ({ dev with islands := [(5, { freq := 1950 })] } : State).islands 5 {}).freq < 2000 ∧
      (tgetD ({ dev with islands := [(5, { freq := 1950 })] } : State).islands 5 {}).cleared + 10000000 ≤ dev.time) ∧
    (msgCode (devMg (.meterReset resetMsg)) resetMsg 1 ≠ 0 ∧ msgCode (devMg (.keyroll keyMsg)) keyMsg 2 ≠ 0) ∧
    (msgCode { dev with owners := [(0, { key := some key })] } resetMsg 1 = 0 ∧
      msgCode { dev with owners := [(0, { key := some key })] } keyMsg 2 = 0) ∧
    (∃ t, exec .firmwareTransfer (devMg (.firmwareTransfer 2 i)) = .next t ∧ tfind t.trust.staged 2 = some i) ∧
    (dev.trust.activating = none ∧ dev.sl.sealing = none ∧ dev.sl.rolling = none) ∧
    (devMg (.coldReset [i])).mgmtIn = some (.coldReset [i]) ∧
    ((1 : Nat) ≠ 0 ∧ (dev.queue 0).vf = 1 ∧ tfind dev.queues 0 ≠ none) := by
  have h1 : msgBad resetMsg 1 = false := by decide +kernel
  have h2 : msgBad keyMsg 2 = false := by decide +kernel
  have f1 : msgField resetMsg 1 1 = 0 ∧ msgField resetMsg 4 8 = 0 := by decide +kernel
  have f2 : msgField keyMsg 1 1 = 0 ∧ msgField keyMsg 4 8 = 0 := by decide +kernel
  have e1 : (devMg (.meterReset resetMsg)).ownerOf 0 = dev.ownerOf 0 := rfl
  have e2 : (devMg (.keyroll keyMsg)).ownerOf 0 = dev.ownerOf 0 := rfl
  have k0 : (dev.ownerOf 0).key = none := by decide +kernel
  have o1 : (({ dev with owners := [(0, { key := some key })] } : State).ownerOf 0) = { key := some key } := rfl
  refine ⟨by decide +kernel, by decide +kernel, by decide +kernel, ⟨?_, ?_⟩, ⟨?_, ?_⟩, ?_, by decide +kernel, rfl, by decide +kernel⟩
  · simp [msgCode, h1, f1, e1, k0]
  · simp [msgCode, h2, f2, e2, k0]
  · simp [msgCode, h1, f1, o1, hm]
  · simp [msgCode, h2, f2, o1, hk]
  · refine ⟨_, rfl, ?_⟩
    simp [devMg, hi] <;> rfl

/-- Core 0's slot 0 with the predicate and the operands given. -/
def instP (p a b : Option Opnd) : Inst := { inst1 1 0 0 0 with slots := [{ a := a, b := b, p := p }] }
def devOp (p a b : Option Opnd) : State := at1 (some 0) (instP p a b) core1 patch1 mapped
/-- An `add` under each predicate mode. -/
def addOn (pm : Pm) : Instr := .add ⟨pm, .write 0, .none⟩ s64 none
/-- The environment is there, its slot not yet fired, and meets a condition. -/
def envIs (s : State) (P : Env → Bool) : Bool :=
  match envOf s with
  | some e => decide (e.ss.ph = .idle) && P e
  | none => false

theorem witness_FiringRules :
    headOf (addOn .onTrue) = some ⟨.onTrue, .write 0, .none⟩ ∧
    envIs (devOp none none none) (fun e => e.ss.p.isNone) = true ∧
    envIs (devOp (some .null) none none) (fun e => decide (e.ss.p = some .null)) = true ∧
    envIs (devOp (some (.val 2)) none none) (fun e => decide (e.ss.p = some (.val 2))) = true ∧ (2 : Value).getLsbD 0 = false ∧
    envIs (devOp (some (.val 1)) (some .null) none) (fun e => (needsOf e.pinned (addOn .onTrue)).1 && decide (e.ss.a = some .null)) = true ∧
    envIs (devOp none (some (.val 1)) none) (fun e => (needsOf e.pinned (addOn .always)).2.1 && e.ss.b.isNone) = true := by
  decide +kernel

theorem witness_ResultsAndFrame : computes (.add hw s64 none) = true ∧ (Fires (.add hw s64 none) (t1 1 2 0) fun e _ => ! e.pinned) ∧
    (Fires (.add hw s64 none) (p1 1 2 0) fun e _ => e.pinned) ∧
    ((3 : BitVec 5).toNat ≠ 0 ∧ (3 : BitVec 5).toNat < ({ inst1 1 0 0 0 with slots := List.replicate 4 {} } : Inst).slots.length) :=
  ⟨rfl, fires _ _ _ (by decide +kernel), fires _ _ _ (by decide +kernel), by decide⟩

/-- The device whose task 0 takes MISALIGNED at address 8. -/
def devTC : State := dev.modCore 0 fun c => c.modTask 0 fun t => { t with tmask := 2 ^ 7, tvec := 8 }

theorem witness_TakingCauses :
    (classOf 0x07 0 = .h ∧ ((devTC.core 0).task 0).tmask.getLsbD 7 = true ∧ ((devTC.core 0).task 0).tvec ≠ 0 ∧
      ((devTC.core 0).task 0).tcause.getLsbD 16 = false) ∧
    ((dev.core 0).patch = some 0 ∧ dev.patch 0 = some patch1 ∧ patch1.st = .running ∧ patch1.fault = none ∧ classOf 0x07 0 ≠ .b ∧
      ((dev.core 0).task 0).tmask.getLsbD 7 = false) := by
  decide +kernel

theorem witness_PoolMap : (dev.core 0).pool.wf = true ∧ 65535 + [(7 : Byte)].length ≤ capOf (dev.core 0) .s ∧
    65535 + [(7 : Byte)].length ≤ capOf (dev.core 0) .t ∧ 31 < (dev.core 0).frame ∧
    (7 + 1) * frameRows (dev.core 0).frame (plG (dev.core 0).pleat.word) ≤ 256 ∧ 0 < plG (dev.core 0).pleat.word := by
  decide +kernel

theorem witness_StoresPerform : (dev.core 0).holdRole .s = false ∧ dev.mem.wf = true ∧
    denied dev 0 (genOf dev 0) true (.dev 0x1000 true) = false ∧
    storePoisoned dev 0 0 (0x1000 / 64) (lineLoc (.dev 0x1000 true) (0x1000 % 64)) 8 false = false ∧
    overLease (storeThrough dev 0 0x1000 (.dev 0x1000 true) (List.replicate 8 1)) = none ∧ (dev.core 0).cache = [] ∧ escapeRoom dev = true := by
  decide +kernel

/-- Core 0 with no patch, its task's instance one `nop`; grants and inputs as given. -/
def devG1 (gs : List Grant) (is : List Input) : State :=
  { State.reset with cores := [(0, { tasks := [(0, { st := .live, inst := some (inst1 1 0 0 0) })] })], grants := gs, inputs := is }
def grant1 (n : Nat) : Grant := { cid := 0, task := some 0, inst := n, slot := 0 }
def input1 (i : Instr) : Input := { step := i }

theorem witness_StepRuns :
    ((clock (devG1 [grant1 0] [])).grants = [grant1 0] ∧ grantInst (clock (devG1 [grant1 0] [])) (grant1 0) = some (inst1 1 0 0 0) ∧
      (grant1 0).slot < (inst1 1 0 0 0).code.length ∧ decode ((inst1 1 0 0 0).code.getD 0 0) = .ok (.nop h0)) ∧
    ((clock (devG1 [grant1 1] [])).grants = [grant1 1] ∧ grantInst (clock (devG1 [grant1 1] [])) (grant1 1) = none) ∧
    ((clock (devG1 [] [input1 (.ingest 0)])).grants = [] ∧ (clock (devG1 [] [input1 (.ingest 0)])).inputs = [input1 (.ingest 0)] ∧
      (input1 (.ingest 0)).ok = true) ∧
    (input1 (.ingest 1024)).ok = false ∧ (input1 (.nop h0)).ok = false ∧
    ((clock (devG1 [] [])).grants = [] ∧ (clock (devG1 [] [])).inputs = []) ∧ (devG1 [] []).posted = [] ∧ (devG1 [] []).ports = [] := by
  refine ⟨⟨?_, ?_, ?_, rfl⟩, ⟨?_, ?_⟩, ⟨?_, ?_, ?_⟩, ?_, ?_, ⟨?_, ?_⟩, ?_, ?_⟩ <;> decide +kernel

theorem witness_EncodeDecode : (Instr.add ⟨.always, .opA 1, .write 0⟩ ⟨false, .s64⟩ (some 1)).wf = true ∧
    encode (.add ⟨.always, .opA 1, .write 0⟩ ⟨false, .s64⟩ (some 1)) = some 0x108021A000000001 := by
  decide +kernel

theorem witness_StepKeepsForm : Formed State.reset ∧ ∃ t, step (State.reset.withFetchWord 64 0xE700000000000000) = .next t := by
  refine ⟨by unfold Formed Forms; decide +kernel, ?_⟩
  have h : (clock (State.reset.withFetchWord 64 0xE700000000000000)).grants = [grant1 0] := by decide +kernel
  unfold step
  simp only [h]
  split
  · rename_i i hi
    have hd : decode 0xE700000000000000 = .ok (.nop h0) := rfl
    have : i = .nop h0 := by
      have : grantInstr (clock (State.reset.withFetchWord 64 0xE700000000000000)) (grant1 0) = some (.nop h0) := by decide +kernel
      rw [this] at hi
      exact (Option.some.inj hi).symm
    subst this
    exact ⟨_, rfl⟩
  · exact ⟨_, rfl⟩

/-! ### Statements whose clauses ask only that an instruction fires -/

theorem witness_FloatSelections : (Fires (.fmin hw ⟨true, .f32⟩ none) (t1 1 2 0) fun _ _ => true) ∧
    (Fires (.ftest hw ⟨true, .f32⟩ .lt) (p1 1 2 0) fun _ _ => true) ∧ Fires (.fclass hw ⟨false, .f16⟩ 1) (t1 1 2 0) fun _ _ => true :=
  ⟨fires _ _ _ (by decide +kernel), fires _ _ _ (by decide +kernel), fires _ _ _ (by decide +kernel)⟩

theorem witness_ConversionsComplete : (Fires (.fcvt hw ⟨true, .f32⟩ ⟨0, false, false, 0, false, 4⟩) (t1 1 2 0) fun _ _ => true) ∧
    (Fires (.quant hw ⟨false, .f32⟩ ⟨0, false, false, 0, false, 4⟩) (p1 1 2 0) fun _ _ => true) ∧
    Fires (.dot hw ⟨false, .f16⟩ 0) (t1 1 2 0) fun _ _ => true :=
  ⟨fires _ _ _ (by decide +kernel), fires _ _ _ (by decide +kernel), fires _ _ _ (by decide +kernel)⟩

theorem witness_SpecialFunctions : specialForm (.frcp hw ⟨true, .f32⟩) ≠ none ∧ Fires (.frcp hw ⟨true, .f32⟩) (t1 0x40000000 0 0) fun _ _ => true :=
  ⟨by simp [specialForm], fires _ _ _ (by decide +kernel)⟩

theorem witness_LaneMoves : (Fires (.perm hw (.int ⟨false, .v32⟩) true) (t1 1 2 0) fun _ _ => true) ∧
    Fires (.shfl hw (.int ⟨false, .v32⟩) 1 3) (p1 1 2 0) fun _ _ => true :=
  ⟨fires _ _ _ (by decide +kernel), fires _ _ _ (by decide +kernel)⟩

theorem witness_LaneReductions : (Fires (.redl hw (.int ⟨false, .v32⟩) 0 0 .add) (t1 1 2 0) fun _ _ => true) ∧
    Fires (.iota hw (.int ⟨false, .v32⟩) 0xFFFF 1) (p1 1 2 0) fun _ _ => true :=
  ⟨fires _ _ _ (by decide +kernel), fires _ _ _ (by decide +kernel)⟩

theorem witness_MovesAndPredicates : (Fires (.constk hw 3) (t1 1 2 0) fun e _ => ! e.pinned) ∧ (Fires (.constk hw 3) (p1 1 2 0) fun e _ => e.pinned) ∧
    (Fires (.nullw hw) (t1 0 0 0) fun _ _ => true) ∧ Fires (.sel hw .v32) (t1 1 2 3) fun _ _ => true :=
  ⟨fires _ _ _ (by decide +kernel), fires _ _ _ (by decide +kernel), fires _ _ _ (by decide +kernel), fires _ _ _ (by decide +kernel)⟩

/-! ### Results that the spec works out -/

/-- What an instruction of task 0 on the first core delivers to its first write entry. -/
def got (i : Instr) (a b c : Value) : Option Opnd :=
  match exec i (t1 a b c) with
  | .next t => (((t.core 0).task 0).inst.bind fun x => x.writes[0]?).join
  | _ => none
/-- Byte elements, f32 elements. -/
def b8 : IntEC := ⟨false, .b8⟩
def f32v : FltEC := ⟨false, .f32⟩

/-- R185's example: 0x7E + 0x05 saturates to 0x7F, 0x80 + 0xFB to 0x80; `add` gives 0x7B. -/
theorem test_adds_saturates : got (.adds hw b8 none) 0x807E 0xFB05 0 = some (.val 0x807F) := by decide +kernel
theorem test_add_wraps : got (.add hw b8 none) 0x807E 0xFB05 0 = some (.val 0x7B83) := by decide +kernel
/-- R66, R185: division by zero and the most negative number over minus one do not trap. -/
theorem test_div_by_zero : got (.div hw s64 none) 7 0 0 = some (.val (2 ^ 64 - 1)) := by decide +kernel
theorem test_rem_by_zero : got (.rem hw s64 none) 7 0 0 = some (.val 7) := by decide +kernel
theorem test_div_overflow : got (.div hw s64 none) (2 ^ 63) (2 ^ 64 - 1) 0 = some (.val (2 ^ 63)) := by decide +kernel
/-- R186: a count of the width. -/
theorem test_shl_full_width : got (.shl hw s64 none) 1 64 0 = some (.val 0) := by decide +kernel
theorem test_sar_full_width : got (.sar hw s64 none) (2 ^ 63) 64 0 = some (.val (2 ^ 64 - 1)) := by decide +kernel
/-- The example of R188: 12 bits from bit 4. -/
theorem test_extz_example : got (.extz hw s64 (some 0x0C04)) 0xABCDE 0 0 = some (.val 0xBCD) := by decide +kernel
/-- The examples of R212: a block whose largest magnitude is 300.0 gets scale 0x7F, and 300.0 becomes 0x79 in e4m3. -/
theorem test_quant_example : (got (.quant hw f32v ⟨0, false, false, 0, false, 4⟩) 0x43960000 0 0).map (fun o => match o with
    | .val v => elem v 8 0
    | _ => 0) = some 0x79 := by decide +kernel
/-- R72, R203: one element plus one element, exact; overflow to infinity. -/
theorem test_fadd_exact : got (.fadd hw ⟨true, .f32⟩ none) 0x3F800000 0x40000000 0 = some (.val 0x40400000) := by decide +kernel
theorem test_fadd_overflow : got (.fadd hw ⟨true, .f32⟩ none) 0x7F7FFFFF 0x7F7FFFFF 0 = some (.val 0x7F800000) := by decide +kernel
/-- The examples of R124 to R126 under the pleat word 0x521: a register, a word of S. -/
theorem test_gap_of_frame : gAddr 0x521 0 32 3 13 = poolAddr 1 27 0 := by decide +kernel
theorem test_word_of_s : sAddr 0x521 0 4000 = poolAddr 12 3 8 := by decide +kernel
/-- R11: core (45, 30) is position 9 of cluster 123. R106: address 0x1A40 in a lease of 12 channels. R303: the tag of interval 70,000. -/
theorem test_cluster_of_core : clusterOf (45 + 64 * 30) = 123 ∧ posOf State.reset (45 + 64 * 30) = 9 := by decide +kernel
theorem test_channel_of_address : hbmPhys { stageLease with chans := List.range 12 } 0x1A40 = some (2 * 2 ^ 28 + 0x240) := by decide +kernel
theorem test_interval_tag : tagOf 70000 = 0x1172 := by decide +kernel

end Sys2Proof.Tests
end

/-! # System instructions, register writes from outside, management steps

Each part says first, one equation a case, what the model's own function does; the theorem that settles the statement puts them together. -/

/-! ### System instructions and the task control registers (R339, R343 to R346) -/

namespace Sys2Proof.Machine

/-- Bits [63:0] of a value as a 64-bit word. -/
theorem ofNat_lo64 (v : Value) : BitVec.ofNat 64 (lo64 v) = v.setWidth 64 := by
  apply BitVec.eq_of_toNat_eq
  simp [lo64]

/-- A number of a lease that stands is read from its record. -/
theorem Env.leaseNum_eq {e : Env} {s : State} {L : Lease} (hL : s.lease e.lease = some L) (f : Lease → Nat) : e.leaseNum s f = f L := by
  simp [Env.leaseNum, hL]

/-- The answer of a reserved service: 64 ones, zero-extended (assumption 11). -/
theorem scalar_allOnes : scalar (2 ^ 64 - 1) = (BitVec.allOnes 64).setWidth 512 := by
  apply BitVec.eq_of_toNat_eq
  rw [scalar, BitVec.toNat_ofNat, BitVec.toNat_setWidth, BitVec.toNat_allOnes, Nat.mod_eq_of_lt (b := 2 ^ 64) (by decide)]

/-- The bits of TMASK that take a write, one by one (R339). -/
theorem tmaskBits_getLsbD : ∀ b < 64, tmaskBits.getLsbD b = decide (1 ≤ b ∧ b ≤ 22 ∧ b ≠ 11 ∧ ¬ (18 ≤ b ∧ b ≤ 21)) := by decide

/-- Of TCAUSE a write reaches INH alone, bit 16. -/
theorem inhBit_getLsbD : ∀ b < 64, (0x10000 : BitVec 64).getLsbD b = decide (b = 16) := by decide

theorem csrWrite_tmask_getLsbD (t : Task) (v : BitVec 64) (b : Nat) (hb : b < 64) : (csrWrite t 3 v).tmask.getLsbD b =
    (v.getLsbD b && decide (1 ≤ b ∧ b ≤ 22 ∧ b ≠ 11 ∧ ¬ (18 ≤ b ∧ b ≤ 21))) := by
  show (v &&& tmaskBits).getLsbD b = _
  rw [BitVec.getLsbD_and, tmaskBits_getLsbD b hb]

theorem csrWrite_tcause_getLsbD (t : Task) (v : BitVec 64) (b : Nat) (hb : b < 64) : (csrWrite t 4 v).tcause.getLsbD b =
    (t.tcause.getLsbD b && ! (decide (b = 16) && v.getLsbD b)) := by
  show (t.tcause &&& ~~~(v &&& 0x10000)).getLsbD b = _
  rw [BitVec.getLsbD_and, BitVec.getLsbD_not, BitVec.getLsbD_and, inhBit_getLsbD b hb, decide_eq_true hb, Bool.true_and,
    Bool.and_comm (v.getLsbD b)]

/-- No register write but TCAUSE's own reaches the program counter, the cause or the link stack. -/
theorem csrWrite_keeps_control (t : Task) (r : Nat) (v : BitVec 64) (hr : r ≠ 4) :
    (csrWrite t r v).pc = t.pc ∧ (csrWrite t r v).tcause = t.tcause ∧ (csrWrite t r v).link = t.link := by
  unfold csrWrite
  split
  case h_5 => exact absurd rfl hr
  all_goals exact ⟨rfl, rfl, rfl⟩

end Sys2Proof.Machine

namespace Sys2Proof.Proofs

open Sys2Proof.Machine Sys2Proof.Safety Sys2Proof.Laws

section
variable {s : State} {h : Head} {e : Env} {v : Vals}

theorem exec_csrw (r : BitVec 8) (F : Firing (.csrw h r) s h e v) : exec (.csrw h r) s = .next (e.capture h none
    (.csrw r.toNat (v.a.setWidth 64)) (some (scalar (csrRead e.t r.toNat).toNat)) s) := by
  rw [← ofNat_lo64]
  exact issue_firing F _

/-- The services that answer a number of the issuing lease (R345). -/
theorem exec_svc_lease {L : Lease} (hL : s.lease e.lease = some L) :
    (Firing (.svcHemlint h) s h e v → exec (.svcHemlint h) s = .next (e.result h (scalar L.hemlint) s)) ∧
    (Firing (.svcStalelint h) s h e v → exec (.svcStalelint h) s = .next (e.result h (scalar L.stalelint) s)) ∧
    (Firing (.svcRollbacks h) s h e v → exec (.svcRollbacks h) s = .next (e.result h (scalar L.rollbacks) s)) ∧
    (Firing (.svcIdent h) s h e v →
      exec (.svcIdent h) s = .next (e.result h (scalar (L.owner + 2 ^ 8 * e.lease + 2 ^ 20 * L.gen.toNat)) s)) := by
  have num : ∀ f, e.leaseNum s f = f L := Env.leaseNum_eq hL
  refine ⟨fun F => ?_, fun F => ?_, fun F => ?_, fun F => ?_⟩
  · rw [← num (·.hemlint)]
    exact issue_firing F _
  · rw [← num (·.stalelint)]
    exact issue_firing F _
  · rw [← num (·.rollbacks)]
    exact issue_firing F _
  · rw [← num (·.owner), ← num (·.gen.toNat)]
    exact issue_firing F _

theorem exec_svcNotify (F : Firing (.svcNotify h) s h e v) (room : (s.queue e.p.queue).cRoom = true) :
    exec (.svcNotify h) s = .next (e.capture h none (.notify (v.a.setWidth 64)) (some (scalar 0))
      (s.modQueue e.p.queue fun q => { q with cresv := q.cresv + 1 })) := by
  refine (issue_firing F _).trans ?_
  rw [if_pos room, ofNat_lo64]

theorem exec_svcReserved (n : BitVec 8) (F : Firing (.svcReserved h n) s h e v) :
    exec (.svcReserved h n) s = .next (e.result h ((BitVec.allOnes 64).setWidth 512) s) := by
  rw [← scalar_allOnes]
  exact issue_firing F _

end

/-- Settles O26: an instruction that fires has the effect of its own arm, and `csrWrite` is read off register by register. -/
theorem systemInstructions : Obligations.SystemInstructions := by
  unfold Obligations.SystemInstructions
  intro s h e v
  refine ⟨fun _ F => issue_firing F _, fun _ F => issue_firing F _, fun _ F => issue_firing F _, exec_csrw, fun _ => exec_svc_lease,
    exec_svcNotify, exec_svcReserved, fun F => issue_firing F _, fun F => issue_firing F _, fun F => issue_firing F _, fun t w => ?_⟩
  exact ⟨rfl, rfl, rfl, csrWrite_tmask_getLsbD t w, csrWrite_tcause_getLsbD t w, rfl, rfl, rfl,
    fun r hr _ _ _ => csrWrite_keeps_control t r w (by omega)⟩

end Sys2Proof.Proofs

/-! ### Registers written from outside the device (R288, R290, R369, R371, R376, R378, R416) -/

namespace Sys2Proof.Machine

open Sys2Proof.Safety

/-- The sizes that the event ring can have: the powers of two from 256 to 65,536 (R376). -/
theorem ringSizeOk_iff (n : Nat) : ringSizeOk 256 n = true ↔ ∃ k, 8 ≤ k ∧ k ≤ 16 ∧ n = 2 ^ k := by
  simp only [ringSizeOk, Bool.and_eq_true, decide_eq_true_eq, List.any_eq_true, List.mem_range]
  constructor
  · rintro ⟨hn, k, hk, rfl⟩
    have : 2 ^ 8 ≤ 2 ^ k := hn
    exact ⟨k, (Nat.pow_le_pow_iff_right (by decide)).1 this, by omega, rfl⟩
  · rintro ⟨k, h8, h16, rfl⟩
    exact ⟨Nat.pow_le_pow_right Nat.two_pos h8, k, by omega, rfl⟩

theorem ringEn_clear {s : State} {v : BitVec 64} (hv : v.getLsbD 0 = false) :
    ringEn s v = { s with events := { s.events with en := false } } := by
  simp only [ringEn, hv, Bool.false_eq_true, if_false]

theorem ringEn_start {s : State} {v : BitVec 64} (hv : v.getLsbD 0 = true) (hs : ringSizeOk 256 s.events.size.toNat = true) :
    ringEn s v = { s with events := { s.events with en := true, head := 0, tail := 0 } } := by
  simp only [ringEn, hv, hs, if_true]

theorem ringEn_badSize {s : State} {v : BitVec 64} (hv : v.getLsbD 0 = true) (hs : ringSizeOk 256 s.events.size.toNat = false) :
    ringEn s v = { s with events := { s.events with en := false } } := by
  simp only [ringEn, hv, hs, if_true, if_false, Bool.false_eq_true]

theorem ringHead_taken {s : State} {v : BitVec 32} (hv : (s.events.tail - v).toNat ≤ s.events.size.toNat) :
    ringHead s v = { s with events := { s.events with head := v } } := if_pos hv

theorem ringHead_ignored {s : State} {v : BitVec 32} (hv : s.events.size.toNat < (s.events.tail - v).toNat) : ringHead s v = s :=
  if_neg (Nat.not_le.2 hv)

/-- A field of a word that a mask leaves whole is the field of the masked word. -/
theorem natBits_and_mask {w : Nat} (v m : BitVec w) (lo len : Nat) (hm : m.extractLsb' lo len = BitVec.allOnes len) :
    natBits (v &&& m).toNat lo len = natBits v.toNat lo len := by
  have field : ∀ x : BitVec w, natBits x.toNat lo len = (x.extractLsb' lo len).toNat := fun x => by
    rw [BitVec.extractLsb'_toNat, Nat.shiftRight_eq_div_pow, natBits]
  rw [field, field, BitVec.extractLsb'_and, hm, BitVec.and_allOnes]

/-- The bits of the injection's control register that take a write, one by one (R416). -/
theorem injectMask_getLsbD : ∀ b < 64, injectMask.getLsbD b = decide (b = 0 ∨ 4 ≤ b ∧ b < 8 ∨ 16 ≤ b) := by decide

theorem and_injectMask_getLsbD (v : BitVec 64) : ∀ b < 64, (v &&& injectMask).getLsbD b =
    (v.getLsbD b && decide (b = 0 ∨ 4 ≤ b ∧ b < 8 ∨ 16 ≤ b)) := fun b hb => by
  rw [BitVec.getLsbD_and, injectMask_getLsbD b hb]

theorem and_injectMask_arm (v : BitVec 64) : (v &&& injectMask).getLsbD 0 = v.getLsbD 0 := by
  rw [and_injectMask_getLsbD v 0 (by decide), decide_eq_true (Or.inl rfl), Bool.and_true]

theorem and_injectMask_nth (v : BitVec 64) : natBits (v &&& injectMask).toNat 16 4 = natBits v.toNat 16 4 :=
  natBits_and_mask v injectMask 16 4 (by decide)

theorem and_injectMask_kind (v : BitVec 64) : natBits (v &&& injectMask).toNat 4 4 = natBits v.toNat 4 4 :=
  natBits_and_mask v injectMask 4 4 (by decide)

theorem injectWrite_disarm {s : State} {v : BitVec 64} (hv : v.getLsbD 0 = false) :
    injectWrite s v = { s with inject := { s.inject with ctl := v &&& injectMask } } := by
  simp only [injectWrite, and_injectMask_arm, hv, Bool.not_false, if_true]

theorem injectWrite_arm {s : State} {v : BitVec 64} (hv : v.getLsbD 0 = true) (nth : natBits v.toNat 16 4 ≠ 0)
    (kind : natBits v.toNat 4 4 = 1) : injectWrite s v = { s with inject :=
      { s.inject with ctl := v &&& injectMask, seen := if s.inject.ctl.getLsbD 0 then s.inject.seen else 0 } } := by
  simp only [injectWrite, and_injectMask_arm, and_injectMask_nth, and_injectMask_kind, hv, nth, kind, ne_eq, not_true_eq_false, or_false,
    Bool.not_true, Bool.false_eq_true, if_false]

theorem injectWrite_armIgnored {s : State} {v : BitVec 64} (hv : v.getLsbD 0 = true)
    (bad : natBits v.toNat 16 4 = 0 ∨ natBits v.toNat 4 4 ≠ 1) : injectWrite s v = { s with inject :=
      { s.inject with ctl := ((v &&& injectMask) &&& ~~~1#64) ||| (s.inject.ctl &&& 1#64) } } := by
  simp only [injectWrite, and_injectMask_arm, and_injectMask_nth, and_injectMask_kind, hv, Bool.not_true, Bool.false_eq_true, if_false,
    if_pos bad]

/-- A posted write of a function performs at once where none of that function waits (R290). -/
theorem inOrder_nonePosted {s : State} {fn : Nat} (h : NonePosted s fn) (i : Instr) (go : State → State) : inOrder s fn i go = go s := by
  have : (s.posted.any fun j => postedBy j = some fn) = false := by simpa [NonePosted] using h
  simp [inOrder, this]

@[simp] theorem natBytes_length (k n : Nat) : (natBytes k n).length = k := by
  induction k generalizing n with
  | zero => rfl
  | succ k ih => simp [natBytes, ih]

/-- A write within CMD puts its bytes there (R371). -/
theorem registerPut_cmd {s : State} {fn off len : Nat} (v : BitVec 64) (there : fnThere s fn = true) (lo : off < 0x40)
    (hi : off + len ≤ 0x40) : registerPut fn off len v s = s.modFn fn fun f => { f with cmd := patchLine f.cmd off (natBytes len v.toNat) } := by
  have whole : (natBytes len v.toNat).take (0x40 - off) = natBytes len v.toNat := List.take_of_length_le (by rw [natBytes_length]; omega)
  simp only [registerPut, there, lo, whole, Bool.not_true, Bool.false_eq_true, if_false, if_true]

/-- GO submits a command where the mailbox is not busy (R371). -/
theorem submit_command {s : State} {fn : Nat} (idle : (s.fn fn).busy = false) (code : commandCode (bitsOf (s.fn fn).cmd 0 8) = true) :
    submit s fn = s.modFn fn fun f => { f with served := f.cmd, busy := true } := by
  simp only [submit, idle, code, Bool.false_eq_true, if_false, if_true]

/-- A doorbell write with GO set and DONE not cleared is a submission. -/
theorem registerPut_go {s : State} {fn : Nat} {v : BitVec 64} (there : fnThere s fn = true) (go : v.getLsbD 0 = true)
    (keep : v.getLsbD 2 = false) : registerPut fn 0x80 4 v s = submit s fn := by
  have h0 : (v.setWidth 32).getLsbD 0 = true := by rw [BitVec.getLsbD_setWidth, go]; rfl
  have h2 : (v.setWidth 32).getLsbD 2 = false := by rw [BitVec.getLsbD_setWidth, keep]; rfl
  have word : wordWrite fn 0x80 s (v.setWidth 32) = submit s fn := by
    simp only [wordWrite, h0, h2, Bool.false_eq_true, if_false, if_true]
  simp [registerPut, there, word]

/-- One entry of a table changed: that entry is what the change makes it, and the others stay. -/
theorem tgetD_tmod {α : Type} (t : Table α) (i : Nat) (d : α) (f : α → α) :
    tgetD (tmod t i d f) i d = f (tgetD t i d) ∧ ∀ j, j ≠ i → tgetD (tmod t i d f) j d = tgetD t j d :=
  ⟨tgetD_tset_same _ _ _ _, fun _ hj => tgetD_tset_other _ _ _ _ _ hj⟩

end Sys2Proof.Machine

namespace Sys2Proof.Proofs

open Sys2Proof.Machine Sys2Proof.Safety

/-! #### The steps, as the functions above give them -/

/-- A register write from outside while the boot stands: the register's own change. -/
theorem next_unlessFailed {s : State} (hb : s.trust.failed = false) {t u : State} (ht : t = u) :
    (Host.Outcome.next (if s.trust.failed then s else t) : Host.Outcome State Fault Refusal) = .next u := by
  simp [hb, ht]

section
variable {s : State}

theorem exec_eventRingEn_start {v : BitVec 64} {k : Nat} (hb : s.trust.failed = false) (hv : v.getLsbD 0 = true) (h8 : 8 ≤ k) (h16 : k ≤ 16)
    (hs : s.events.size.toNat = 2 ^ k) :
    exec (.eventRingEn v) s = .next { s with events := { s.events with en := true, head := 0, tail := 0 } } :=
  next_unlessFailed hb (ringEn_start hv ((ringSizeOk_iff _).2 ⟨k, h8, h16, hs⟩))

theorem exec_eventRingEn_badSize {v : BitVec 64} (hb : s.trust.failed = false) (hv : v.getLsbD 0 = true)
    (hs : ∀ k, 8 ≤ k → k ≤ 16 → s.events.size.toNat ≠ 2 ^ k) :
    exec (.eventRingEn v) s = .next { s with events := { s.events with en := false } } := by
  refine next_unlessFailed hb (ringEn_badSize hv (Bool.eq_false_iff.2 fun ok => ?_))
  obtain ⟨k, h8, h16, hk⟩ := (ringSizeOk_iff _).1 ok
  exact hs k h8 h16 hk

theorem exec_eventRingHead_ignored {v : BitVec 32} (hv : s.events.size.toNat < (s.events.tail - v).toNat) :
    exec (.eventRingHead v) s = .next s := by
  show Host.Outcome.next (if s.trust.failed then s else ringHead s v) = _
  rw [ringHead_ignored hv, ite_self]

theorem exec_injectControl_armIgnored {v : BitVec 64} (hb : s.trust.failed = false) (hv : v.getLsbD 0 = true)
    (bad : natBits v.toNat 16 4 = 0 ∨ natBits v.toNat 4 4 ≠ 1) :
    ∃ c, exec (.injectControl v) s = .next { s with inject := { s.inject with ctl := c } } ∧ c.getLsbD 0 = s.inject.ctl.getLsbD 0 :=
  ⟨_, next_unlessFailed hb (injectWrite_armIgnored hv bad), by simp⟩

theorem exec_serialisingToken {n : Nat} (hn : n < 11) : exec (.serialisingToken n) s = .next { s with token := n } :=
  congrArg Host.Outcome.next (if_pos hn)

theorem exec_registerWrite {fn off len : Nat} {v : BitVec 64} (h : NonePosted s fn) :
    exec (.registerWrite fn off len v) s = .next (registerPut fn off len v s) :=
  congrArg Host.Outcome.next (inOrder_nonePosted h _ _)

/-- A peer port marked down or up: that port alone changes. -/
theorem port_down_set (p : Nat) (d : Bool) : (tgetD (tmod s.ports p {} fun x => { x with down := d }) p {}).down = d ∧
    ∀ q, q ≠ p → tgetD (tmod s.ports p {} fun x => { x with down := d }) q {} = tgetD s.ports q {} := by
  obtain ⟨same, other⟩ := tgetD_tmod s.ports p {} fun x => { x with down := d }
  exact ⟨by rw [same], other⟩

end

/-- Settles O27: each write from outside is the change that its register's own function makes, one case of that function a clause. -/
theorem registerWrites : Obligations.RegisterWrites := by
  unfold Obligations.RegisterWrites
  intro s
  refine ⟨fun _ hb => next_unlessFailed hb rfl, fun _ hb hv => next_unlessFailed hb (ringEn_clear hv),
    fun _ _ hb => exec_eventRingEn_start hb, fun _ hb => exec_eventRingEn_badSize hb, fun _ hb hv => next_unlessFailed hb (ringHead_taken hv),
    fun _ => exec_eventRingHead_ignored, fun v hb hv => ?_, fun v hb hv nth kind => ?_, fun _ hb => exec_injectControl_armIgnored hb,
    fun _ => exec_serialisingToken, fun p => ⟨_, rfl, port_down_set p true⟩, fun p => ⟨_, rfl, port_down_set p false⟩,
    fun fn off len v free there lo hi => ?_, fun fn v free there idle code go keep => ?_⟩
  · exact ⟨_, next_unlessFailed hb (injectWrite_disarm hv), and_injectMask_getLsbD v⟩
  · exact ⟨_, next_unlessFailed hb (injectWrite_arm hv nth kind), and_injectMask_getLsbD v⟩
  · rw [exec_registerWrite free, registerPut_cmd v there lo hi]
  · rw [exec_registerWrite free, registerPut_go there go keep, submit_command idle code]

end Sys2Proof.Proofs

/-! ### Meters, throttling, owner messages, firmware, resets (R358, R381, R384 to R388) -/

namespace Sys2Proof.Machine

/-- An event told to the PF changes no island. -/
@[simp] theorem pfEvent_islands (s : State) (kind lease : Nat) (rec : List Byte) : (pfEvent s kind lease rec).islands = s.islands := by
  unfold pfEvent
  dsimp only
  split
  · rfl
  · split <;> rfl

@[simp] theorem tellIsland_islands (s : State) (k : Nat) : (tellIsland s k).islands = s.islands := pfEvent_islands _ _ _ _

/-- An island above the floor: 50 MHz less, the cause noted (R387). -/
theorem lowerIsland_above {s : State} {k : Nat} (c : BitVec 4) (hf : 1050 ≤ (tgetD s.islands k {}).freq) :
    ∃ n, (lowerIsland c s k).islands = tset s.islands k { tgetD s.islands k {} with
      freq := (tgetD s.islands k {}).freq - 50, cause := c, tcount := n, cleared := s.time, told := s.time } :=
  ⟨_, (congrArg State.islands (if_pos hf)).trans (tellIsland_islands _ _)⟩

/-- An island at the floor keeps its frequency, whether or not it is told (R387). -/
theorem lowerIsland_floor_freq {s : State} {k : Nat} (c : BitVec 4) (hf : (tgetD s.islands k {}).freq < 1050) :
    (tgetD (lowerIsland c s k).islands k {}).freq = (tgetD s.islands k {}).freq := by
  unfold lowerIsland
  dsimp only
  rw [if_neg (Nat.not_le.2 hf)]
  split <;> simp

/-- An owner message that is accepted: code 0, and the owner changed as it says, its epoch advanced (R385). -/
theorem ownerMsg_accepted {s : State} {m : List Byte} {cmd : Nat} (f : Owner → Owner) (h : msgCode s m cmd = 0) :
    ownerMsg s m cmd f = ({ s with mctpCode := 0 } : State).modOwner (msgField m 1 1) fun w => { f w with epoch := (w.epoch + 1) % 2 ^ 64 } := by
  simp only [ownerMsg, h, if_true]

/-- An owner message that is refused: its code alone (R385). -/
theorem ownerMsg_refused {s : State} {m : List Byte} {cmd : Nat} (f : Owner → Owner) (h : msgCode s m cmd ≠ 0) :
    ownerMsg s m cmd f = { s with mctpCode := msgCode s m cmd } := by
  simp only [ownerMsg, h, if_false]

@[simp] theorem extend_meas_same (t : Trust) (k : Nat) (bytes : List Byte) : tgetD (extend t k bytes).meas k 0 =
    Config.sha384 (digestBytes (tgetD t.meas k 0) ++ digestBytes (Config.sha384 bytes)) := tgetD_tset_same _ _ _ _

/-- A staged image loaded extends the measurement of its component (R381, R384). -/
theorem loadStaged_meas {s : State} {k : Nat} {i : Image} (hi : tfind s.trust.staged k = some i) :
    tgetD (loadStaged s k).trust.meas (k + 1) 0 =
      Config.sha384 (digestBytes (tgetD s.trust.meas (k + 1) 0) ++ digestBytes (Config.sha384 i.bytes)) := by
  unfold loadStaged
  rw [hi]
  exact extend_meas_same _ _ _

/-- A boot succeeds exactly where each of the three images is there and may run (R382). -/
theorem boot_booted_iff (images : List Image) :
    (boot images).booted = true ↔ ∀ k < 3, ∃ i, images[k]? = some i ∧ imageOk k i = true := by
  show ((List.range 3).all fun k => (images[k]?).any (imageOk k)) = true ↔ _
  simp only [List.all_eq_true, List.mem_range, Option.any_eq_true]

/-- Every entry of a table changed: so is one that stands in it. -/
theorem tgetD_tmap {α : Type} (f : Nat → α → α) (t : Table α) (i : Nat) (d : α) (h : tfind t i ≠ none) :
    tgetD (tmap f t) i d = f i (tgetD t i d) := by
  obtain ⟨x, hx⟩ := Option.ne_none_iff_exists'.1 h
  simp [tgetD, hx]

/-- An entry of a table all of whose entries were changed comes from the change of some entry. -/
theorem tfind_tmap_some {α : Type} {f : Nat → α → α} {t : Table α} {i : Nat} {x : α} (h : tfind (tmap f t) i = some x) : ∃ y, x = f i y := by
  rw [tfind_tmap, Option.map_eq_some_iff] at h
  obtain ⟨y, -, rfl⟩ := h
  exact ⟨y, rfl⟩

/-- A function's registers after its reset (R6). -/
def Func.afterReset (f : Func) : Func := { f with cmd := 0, rsp := 0, done := false, snaps := [], world := [], win := none }

/-- A VF reset: its registers, and the windows of its queues (R6). -/
def State.resetVf (s : State) (fn : Nat) : State :=
  { s.modFn fn Func.afterReset with queues := tmap (fun _ q => if q.vf = fn then windowReset q else q) s.queues }

/-- The PF reset: its registers, the event ring's and the injection's (R6). -/
def State.resetPf (s : State) : State := { s.modFn 0 Func.afterReset with events := {}, inject := {} }

@[simp] theorem State.resetVf_fn (s : State) (fn : Nat) : (s.resetVf fn).fn fn = (s.fn fn).afterReset := State.fn_modFn_same s fn _

@[simp] theorem State.resetPf_fn (s : State) : s.resetPf.fn 0 = (s.fn 0).afterReset := State.fn_modFn_same s 0 _

/-- The window of each queue that the function has is reset. -/
theorem State.resetVf_queue {s : State} {fn q : Nat} (hv : (s.queue q).vf = fn) (hq : tfind s.queues q ≠ none) :
    (s.resetVf fn).queue q = windowReset (s.queue q) := by
  refine (tgetD_tmap (fun _ w => if w.vf = fn then windowReset w else w) s.queues q {} hq).trans ?_
  exact if_pos hv

end Sys2Proof.Machine

namespace Sys2Proof.Proofs

open Sys2Proof.Machine

section
variable {s : State}

/-! #### Meter windows and throttling -/

theorem exec_meterWindow_ended (mj : List Nat) (ht : s.meterAt + 1000000 ≤ s.time) : ∃ t, exec (.meterWindow mj) s = .next t ∧
    t.meterAt = s.time ∧ ∀ o w, tfind t.owners o = some w → w.active = [] ∧ w.moved = 0 := by
  refine ⟨_, congrArg Host.Outcome.next (if_neg (Nat.not_lt.2 ht)), rfl, fun o w hw => ?_⟩
  dsimp only at hw
  obtain ⟨y, rfl⟩ := tfind_tmap_some hw
  exact ⟨rfl, rfl⟩

theorem exec_meterWindow_early (mj : List Nat) (ht : s.time < s.meterAt + 1000000) : exec (.meterWindow mj) s = .next s :=
  congrArg Host.Outcome.next (if_pos ht)

/-- A throttle for temperature or current lowers its island alone. -/
theorem exec_throttle_one (k : Nat) {c : BitVec 4} (hc : c ≠ 0) (h0 : c.getLsbD 0 = false) (h3 : c.getLsbD 3 = false) :
    exec (.throttle k c) s = .next (lowerIsland c s k) := by
  show execThrottle k c s = _
  simp only [execThrottle, h0, h3, hc, Bool.false_and, Bool.false_or, Bool.false_eq_true, if_false]

theorem exec_throttle_above (k : Nat) {c : BitVec 4} (hc : c ≠ 0) (h0 : c.getLsbD 0 = false) (h3 : c.getLsbD 3 = false)
    (hf : 1050 ≤ (tgetD s.islands k {}).freq) : ∃ t, exec (.throttle k c) s = .next t ∧
    (tgetD t.islands k {}).freq = (tgetD s.islands k {}).freq - 50 ∧ (tgetD t.islands k {}).cause = c ∧
    ∀ j, j ≠ k → tgetD t.islands j {} = tgetD s.islands j {} := by
  obtain ⟨n, hn⟩ := lowerIsland_above c hf
  refine ⟨_, exec_throttle_one k hc h0 h3, ?_⟩
  rw [hn, tgetD_tset_same]
  exact ⟨rfl, rfl, fun j hj => tgetD_tset_other _ _ _ _ _ hj⟩

theorem exec_throttleRecover (k : Nat) (hf : (tgetD s.islands k {}).freq < 2000) (ht : (tgetD s.islands k {}).cleared + 10000000 ≤ s.time) :
    ∃ t, exec (.throttleRecover k) s = .next t ∧ (tgetD t.islands k {}).freq = (tgetD s.islands k {}).freq + 50 ∧
      ∀ j, j ≠ k → tgetD t.islands j {} = tgetD s.islands j {} := by
  refine ⟨_, congrArg Host.Outcome.next (if_pos ⟨hf, ht⟩), ?_⟩
  rw [tellIsland_islands, tgetD_tset_same]
  exact ⟨rfl, fun j hj => tgetD_tset_other _ _ _ _ _ hj⟩

/-! #### Owner messages -/

theorem exec_meterReset {m : List Byte} (hm : s.mgmtIn = some (.meterReset m)) :
    exec .meterReset s = .next (ownerMsg s m 1 fun w => { w with meters := [], fine := [] }) := by
  show execMeterReset s = _
  simp only [execMeterReset, hm]

theorem exec_keyroll {m : List Byte} (hm : s.mgmtIn = some (.keyroll m)) :
    exec .keyroll s = .next (ownerMsg s m 2 fun w => { w with key := some (BitVec.ofNat 384 (msgField m 396 48)) }) := by
  show execKeyroll s = _
  simp only [execKeyroll, hm]

theorem exec_meterReset_accepted {m : List Byte} (hm : s.mgmtIn = some (.meterReset m)) (hc : msgCode s m 1 = 0) :
    ∃ t, exec .meterReset s = .next t ∧ t.mctpCode = 0 ∧ (t.ownerOf (msgField m 1 1)).meters = [] ∧
      (t.ownerOf (msgField m 1 1)).epoch = ((s.ownerOf (msgField m 1 1)).epoch + 1) % 2 ^ 64 := by
  refine ⟨_, exec_meterReset hm, ?_⟩
  rw [ownerMsg_accepted _ hc, State.ownerOf_modOwner_same]
  exact ⟨rfl, rfl, rfl⟩

theorem exec_keyroll_accepted {m : List Byte} (hm : s.mgmtIn = some (.keyroll m)) (hc : msgCode s m 2 = 0) :
    ∃ t, exec .keyroll s = .next t ∧ t.mctpCode = 0 ∧
      (t.ownerOf (msgField m 1 1)).key = some (BitVec.ofNat 384 (msgField m 396 48)) ∧
      (t.ownerOf (msgField m 1 1)).meters = (s.ownerOf (msgField m 1 1)).meters := by
  refine ⟨_, exec_keyroll hm, ?_⟩
  rw [ownerMsg_accepted _ hc, State.ownerOf_modOwner_same]
  exact ⟨rfl, rfl, rfl⟩

/-! #### Firmware and cold reset -/

theorem exec_firmwareTransfer_staged {k : Nat} {i : Image} (hm : s.mgmtIn = some (.firmwareTransfer k i)) (hk : k ≤ 2)
    (hi : imageOk k i = true) : exec .firmwareTransfer s =
      .next { s with trust := { s.trust with staged := tset s.trust.staged k i }, mctpCode := 0 } := by
  show execFirmwareTransfer s = _
  simp only [execFirmwareTransfer, hm, hk, hi, decide_true, Bool.and_self, if_true]

theorem exec_firmwareTransfer_refused {k : Nat} {i : Image} (hm : s.mgmtIn = some (.firmwareTransfer k i)) (hi : imageOk k i = false) :
    exec .firmwareTransfer s = .next { s with mctpCode := 1 } := by
  show execFirmwareTransfer s = _
  simp only [execFirmwareTransfer, hm, hi, Bool.and_false, Bool.false_eq_true, if_false]

/-- Component 2 is activated at once, outside a seal and a rollback (R384). -/
theorem exec_firmwareActivate_two {i : Image} (hm : s.mgmtIn = some (.firmwareActivate 2)) (hi : tfind s.trust.staged 2 = some i)
    (ha : s.trust.activating = none) (hs : s.sl.sealing = none) (hr : s.sl.rolling = none) :
    exec .firmwareActivate s = .next { loadStaged s 2 with mctpCode := 0 } := by
  show execFirmwareActivate s = _
  simp [execFirmwareActivate, hm, hi, ha, hs, hr]

theorem exec_coldReset {images : List Image} (hm : s.mgmtIn = some (.coldReset images)) : exec .coldReset s =
    .next { State.reset with trust := boot images, stopped := (boot images).failed, hostMem := s.hostMem, peerMem := s.peerMem,
                             inputs := s.inputs, tick := s.tick } := by
  show execColdReset s = _
  simp only [execColdReset, hm]

/-! #### Function-level reset -/

theorem exec_functionLevelReset_vf {fn : Nat} (hfn : fn ≠ 0) : exec (.functionLevelReset fn) s = .next (s.resetVf fn) :=
  congrArg Host.Outcome.next (if_neg hfn)

theorem exec_functionLevelReset_pf : exec (.functionLevelReset 0) s = .next s.resetPf := congrArg Host.Outcome.next (if_pos rfl)

end

/-- Settles O50: each step of the management controller and of the device's own timing is one case of its function. -/
theorem managementSteps : Obligations.ManagementSteps := by
  unfold Obligations.ManagementSteps
  intro s
  refine ⟨exec_meterWindow_ended, exec_meterWindow_early, fun k _ => exec_throttle_above k, fun k c hc h0 h3 hf => ?_, exec_throttleRecover,
    fun _ => exec_meterReset_accepted, fun m hm hc => ?_, fun _ => exec_keyroll_accepted, fun m hm hc => ?_,
    fun _ _ => exec_firmwareTransfer_staged, fun k i hm hi => ?_, fun i hm hi ha hs hr => ?_, fun images hm => ?_,
    fun fn q hfn hv hq => ⟨_, exec_functionLevelReset_vf hfn, ?_⟩, ⟨_, exec_functionLevelReset_pf, ?_⟩⟩
  · exact ⟨_, exec_throttle_one k hc h0 h3, lowerIsland_floor_freq c hf⟩
  · rw [exec_meterReset hm, ownerMsg_refused _ hc]
  · rw [exec_keyroll hm, ownerMsg_refused _ hc]
  · exact ⟨_, exec_firmwareTransfer_refused hm hi, rfl⟩
  · exact ⟨_, exec_firmwareActivate_two hm hi ha hs hr, rfl, loadStaged_meas hi⟩
  · exact ⟨_, exec_coldReset hm, rfl, rfl, rfl, rfl, rfl, rfl, rfl, boot_booted_iff images⟩
  · rw [State.resetVf_fn, State.resetVf_queue hv hq]
    exact ⟨rfl, rfl, rfl, rfl, rfl, hv, rfl, rfl⟩
  · rw [State.resetPf_fn]
    exact ⟨rfl, rfl, rfl, rfl⟩

end Sys2Proof.Proofs

/-! # The placer's operations (R14, R15, R112 to R117, R350, R353)

First what an operation on patches reads of the device, and that stopping a patch, counting its reads, tracing and recording leave all of it
as it was; then what each operation makes of it; the theorem that settles the statement puts the operations together, one lemma a clause. -/

namespace Sys2Proof.Machine

open Sys2Proof.Safety

/-! ### Tables and folds -/

/-- What every step of a fold leaves as it was, the fold leaves as it was. -/
theorem foldl_keeps {α β γ : Type} {g : α → β → α} (v : α → γ) (hg : ∀ s x, v (g s x) = v s) (l : List β) (s : α) :
    v (l.foldl g s) = v s :=
  (List.foldl_hom v (g₂ := fun c _ => c) fun s x => (hg s x).symm).symm.trans (List.foldl_fixed l)

/-- What both branches leave as it was, the choice leaves as it was. -/
theorem ite_keeps {α γ : Type} {p : Prop} [Decidable p] (v : α → γ) {a b : α} {x : γ} (ha : v a = x) (hb : v b = x) :
    v (if p then a else b) = x := by
  split
  · exact ha
  · exact hb

theorem mem_tset_self {α : Type} (t : Table α) (i : Nat) (x : α) : (i, x) ∈ tset t i x := by
  induction t with
  | nil => simp [tset]
  | cons e t ih =>
    simp only [tset]
    split
    · simp
    · split
      · simp
      · exact List.mem_cons_of_mem _ ih

/-- An entry of a table that was written to is the one written, or stood there before. -/
theorem mem_of_mem_tset {α : Type} {t : Table α} {i : Nat} {x : α} {e : Nat × α} (h : e ∈ tset t i x) : e = (i, x) ∨ e ∈ t := by
  induction t with
  | nil => exact .inl (by simpa [tset] using h)
  | cons d t ih =>
    simp only [tset] at h
    split at h
    · exact (List.mem_cons.1 h)
    · split at h
      · exact (List.mem_cons.1 h).imp id (List.mem_cons_of_mem _)
      · rcases List.mem_cons.1 h with h | h
        · exact .inr (h ▸ List.mem_cons_self)
        · exact (ih h).imp id (List.mem_cons_of_mem _)

/-- A write takes at most the entry that is found at its index. -/
theorem mem_tset_of_mem {α : Type} {t : Table α} {i : Nat} {x : α} {e : Nat × α} (h : e ∈ t) :
    e ∈ tset t i x ∨ e.1 = i ∧ tfind t i = some e.2 := by
  induction t with
  | nil => cases h
  | cons d t ih =>
    obtain ⟨k, v⟩ := d
    simp only [tset, tfind]
    by_cases hlt : i < k
    · exact .inl (by simp [hlt, List.mem_cons.1 h])
    · by_cases hk : k = i
      · rcases List.mem_cons.1 h with rfl | h
        · exact .inr ⟨hk, by simp [hk]⟩
        · exact .inl (by simp [hk, h])
      · rcases List.mem_cons.1 h with rfl | h
        · exact .inl (by simp [hlt, hk])
        · exact (ih h).imp (fun h => by simp [hlt, hk, h]) (fun h => by simpa [hk] using h)

@[simp] theorem tfind_terase_same {α : Type} (t : Table α) (i : Nat) : tfind (terase t i) i = none := by
  induction t with
  | nil => rfl
  | cons e t ih =>
    obtain ⟨k, v⟩ := e
    by_cases hk : k = i
    · simpa [terase, hk] using ih
    · simpa [terase, tfind, hk] using ih

theorem tfind_terase_other {α : Type} (t : Table α) {i j : Nat} (h : j ≠ i) : tfind (terase t i) j = tfind t j := by
  induction t with
  | nil => rfl
  | cons e t ih =>
    obtain ⟨k, v⟩ := e
    by_cases hk : k = i
    · subst hk
      simpa [terase, tfind, Ne.symm h] using ih
    · by_cases hj : k = j
      · simp [terase, tfind, hj, h]
      · simpa [terase, tfind, hk, hj] using ih

/-! ### What the placer's operations read -/

/-- A core's place: the patch that it holds, where in it, and whether it is withdrawn. -/
def Core.place (c : Core) : Option Nat × Nat × Nat × Bool := (c.patch, c.px, c.py, c.withdrawn)

/-- A lease but for its records: its profiling session and its faults. -/
def Lease.bare (L : Lease) : Lease := { L with prof := none, faults := [], faultCount := 0 }

/-- What patches stand on: the eviction store, the functions, the leases, the darned positions, the withdrawn cores. -/
structure Ground where
  images : Table Stored
  funcs : Table Func
  leases : Nat → Option Lease
  darned : Nat → Option Nat
  withdrawn : Nat → Bool

/-- The ground, the patches, and the cores on which they stand. -/
structure Layout where
  ground : Ground
  patches : Table Patch
  places : Nat → Option Nat × Nat × Nat × Bool
  holds : Nat → Nat → Prop

def State.ground (s : State) : Ground where
  images := s.images
  funcs := s.funcs
  leases l := (s.lease l).map Lease.bare
  darned cl := (s.cluster cl).darned
  withdrawn cid := (s.core cid).withdrawn

def State.layout (s : State) : Layout where
  ground := s.ground
  patches := s.patches
  places cid := (s.core cid).place
  holds pt cid := cid ∈ patchCores s pt

section
variable {s t : State}

theorem images_eq_of_ground (h : t.ground = s.ground) : t.images = s.images := congrArg Ground.images h
theorem fn_eq_of_ground (h : t.ground = s.ground) (f : Nat) : t.fn f = s.fn f := congrArg (fun g => tgetD (Ground.funcs g) f {}) h
theorem lease_eq_of_ground (h : t.ground = s.ground) (l : Nat) : (t.lease l).map Lease.bare = (s.lease l).map Lease.bare :=
  congrArg (fun g => Ground.leases g l) h
theorem darned_eq_of_ground (h : t.ground = s.ground) (cl : Nat) : (t.cluster cl).darned = (s.cluster cl).darned :=
  congrArg (fun g => Ground.darned g cl) h
theorem withdrawn_eq_of_ground (h : t.ground = s.ground) (cid : Nat) : (t.core cid).withdrawn = (s.core cid).withdrawn :=
  congrArg (fun g => Ground.withdrawn g cid) h
theorem ground_eq_of_layout (h : t.layout = s.layout) : t.ground = s.ground := congrArg Layout.ground h
theorem patches_eq_of_layout (h : t.layout = s.layout) : t.patches = s.patches := congrArg Layout.patches h
theorem place_eq_of_layout (h : t.layout = s.layout) (cid : Nat) : (t.core cid).place = (s.core cid).place :=
  congrArg (fun l => Layout.places l cid) h
theorem mem_patchCores_of_layout (h : t.layout = s.layout) (pt cid : Nat) : cid ∈ patchCores t pt ↔ cid ∈ patchCores s pt :=
  iff_of_eq (congrArg (fun l => Layout.holds l pt cid) h)

end

theorem mem_patchCores {s : State} {pt cid : Nat} : cid ∈ patchCores s pt ↔ ∃ c, (cid, c) ∈ s.cores ∧ c.patch = some pt := by
  simp [patchCores]

/-- The record of a listed core is an entry of the table. -/
theorem mem_of_tfind {α : Type} {t : Table α} {i : Nat} {x : α} (h : tfind t i = some x) : (i, x) ∈ t := by
  induction t with
  | nil => cases h
  | cons e t ih =>
    obtain ⟨k, v⟩ := e
    simp only [tfind] at h
    split at h
    · cases h; subst_vars; exact List.mem_cons_self
    · exact List.mem_cons_of_mem _ (ih h)

theorem mem_patchCores_of_core {s : State} {pt cid : Nat} (h : (s.core cid).patch = some pt) : cid ∈ patchCores s pt := by
  unfold State.core tgetD at h
  cases hf : tfind s.cores cid with
  | none => rw [hf] at h; cases h
  | some c => exact mem_patchCores.2 ⟨c, mem_of_tfind hf, by simpa [hf] using h⟩

/-- A core written with the patch that it held: every patch keeps its cores. -/
theorem mem_patchCores_setCore (s : State) {cid : Nat} {c : Core} (hc : c.patch = (s.core cid).patch) (pt d : Nat) :
    d ∈ patchCores (s.setCore cid c) pt ↔ d ∈ patchCores s pt := by
  constructor
  · intro h
    obtain ⟨x, hx, hp⟩ := mem_patchCores.1 h
    rcases mem_of_mem_tset hx with e | hx
    · cases e
      exact mem_patchCores_of_core (hc ▸ hp)
    · exact mem_patchCores.2 ⟨x, hx, hp⟩
  · intro h
    obtain ⟨x, hx, hp⟩ := mem_patchCores.1 h
    rcases mem_tset_of_mem (i := cid) (x := c) hx with hx | ⟨rfl, hx⟩
    · exact mem_patchCores.2 ⟨x, hx, hp⟩
    · refine mem_patchCores.2 ⟨c, mem_tset_self _ _ _, ?_⟩
      rw [hc, ← hp]
      simp [State.core, tgetD, hx]

/-- A core rewritten in its place. -/
theorem modCore_layout (s : State) (cid : Nat) {f : Core → Core} (hf : (f (s.core cid)).place = (s.core cid).place) :
    (s.modCore cid f).layout = s.layout := by
  have core : ∀ d, ((s.modCore cid f).core d).place = (s.core d).place := fun d => by
    by_cases hd : d = cid
    · rw [hd, State.core_modCore_same, hf]
    · rw [State.core_modCore_other _ _ _ _ hd]
  have wd : ∀ d, ((s.modCore cid f).core d).withdrawn = (s.core d).withdrawn := fun d => congrArg (·.2.2.2) (core d)
  have on : ∀ pt d, d ∈ patchCores (s.modCore cid f) pt ↔ d ∈ patchCores s pt :=
    mem_patchCores_setCore s (congrArg (·.1) hf)
  simp only [State.layout, State.ground, core, wd, on]
  rfl

/-- A core rewritten by a function that keeps every core's place. -/
theorem modCore_layout_of_forall (s : State) (cid : Nat) {f : Core → Core} (hf : ∀ c, (f c).place = c.place) :
    (s.modCore cid f).layout = s.layout := modCore_layout s cid (hf _)

/-- A lease's records rewritten. -/
theorem modLease_layout (s : State) (l : Nat) {f : Lease → Lease} (hf : ∀ L, (f L).bare = L.bare) : (s.modLease l f).layout = s.layout := by
  have lease : ∀ k, ((s.modLease l f).lease k).map Lease.bare = (s.lease k).map Lease.bare := fun k => by
    by_cases hk : k = l
    · rw [hk, State.lease_modLease_same, Option.map_map]
      exact congrArg (fun g => Option.map g (s.lease l)) (funext hf)
    · rw [State.lease_modLease_other _ _ _ _ hk]
  simp only [State.layout, State.ground, lease]
  rfl

/-- A cluster rewritten but for its darned position. -/
theorem modCluster_layout (s : State) (cl : Nat) {f : Cluster → Cluster} (hf : ∀ c, (f c).darned = c.darned) :
    (s.modCluster cl f).layout = s.layout := by
  have darned : ∀ k, ((s.modCluster cl f).cluster k).darned = (s.cluster k).darned := fun k => by
    by_cases hk : k = cl
    · rw [hk, State.cluster_modCluster_same, hf]
    · rw [State.cluster_modCluster_other _ _ _ _ hk]
  simp only [State.layout, State.ground, darned]
  rfl

/-! ### Observing, writing back, discarding (R108, R285, R334, R362): the layout stays -/

@[simp] theorem pfEvent_layout (s : State) (kind lease : Nat) (rec : List Byte) : (pfEvent s kind lease rec).layout = s.layout := by
  unfold pfEvent
  dsimp only
  split
  · rfl
  · split <;> rfl

@[simp] theorem profWrite_layout (s : State) (cid lease : Nat) (bs : List Byte) : (profWrite s cid lease bs).layout = s.layout := by
  unfold profWrite
  split
  · rfl
  · split
    · rfl
    · exact ite_keeps State.layout (modLease_layout _ _ fun _ => by rfl)
        ((modLease_layout _ _ fun _ => by rfl).trans (modCore_layout _ _ (by rfl)))

@[simp] theorem delist_layout (s : State) (out : Waiter → Bool) : (delist s out).layout = s.layout := by
  obtain ⟨w, x, h⟩ := delist_eq s out
  rw [h]
  rfl

theorem unreserve_place (c : Core) (js : List Nat) : (c.unreserve js).place = c.place :=
  foldl_keeps Core.place (fun _ _ => by rfl) js c

@[simp] theorem releaseCap_layout (cid k : Nat) (s : State) (q : Capture) : (releaseCap cid k s q).layout = s.layout := by
  obtain ⟨slot, lsid, eff, t0, t1⟩ := q
  cases eff with
  | send | spawn | bind | swm | marm => exact modCore_layout _ _ (by rfl)
  | markt | bar => exact modCore_layout _ _ (unreserve_place _ _)
  | pleat => exact modCore_layout _ _ (ite_keeps Core.place (by rfl) (by rfl))
  | cpy => exact (modCore_layout _ _ (by rfl)).trans (modCluster_layout _ _ fun _ => by rfl)
  | notify =>
    simp only [releaseCap]
    split <;> rfl
  | _ => rfl

@[simp] theorem traceBlock_layout (s : State) (cid k kind : Nat) (inst : Inst) : (traceBlock s cid k kind inst).layout = s.layout :=
  ite_keeps State.layout (profWrite_layout _ _ _ _) rfl

@[simp] theorem discard_layout (s : State) (cid k : Nat) : (discard s cid k).layout = s.layout := by
  unfold discard
  split
  · rfl
  · next x _ =>
    calc _ = _ := modCore_layout_of_forall _ _ fun _ => by rfl
      _ = _ := delist_layout _ _
      _ = _ := traceBlock_layout _ _ _ _ _
      _ = _ := foldl_keeps State.layout (releaseCap_layout cid k) x.caps s

/-- What each core's step leaves as it was, the steps of all of a patch's cores leave as it was. -/
theorem forCores_keeps {γ : Type} (v : State → γ) {f : State → Nat → State} (hf : ∀ s cid, v (f s cid) = v s) (s : State) (pt : Nat) :
    v (forCores s pt f) = v s := foldl_keeps v hf _ s

@[simp] theorem discardAll_layout (s : State) (pt : Nat) : (discardAll s pt).layout = s.layout :=
  forCores_keeps State.layout (fun s cid => foldl_keeps State.layout (fun s k => discard_layout s cid k) _ s) s pt

@[simp] theorem nodeSaw_layout (s : State) (l : Loc) (r : Rin) : (nodeSaw s l r).layout = s.layout :=
  ite_keeps State.layout rfl rfl

@[simp] theorem chargePa_layout (s : State) (pa n : Nat) : (chargePa s pa n).layout = s.layout := by
  unfold chargePa
  split <;> rfl

@[simp] theorem earlySeal_layout (s : State) (c : Nat) : (earlySeal s c).layout = s.layout := by
  obtain ⟨x, h⟩ := earlySeal_eq s c
  rw [h]
  rfl

@[simp] theorem logLine_layout (s : State) (pa : Nat) (recov : Bool) (r : Rin) : (logLine s pa recov r).layout = s.layout :=
  ite_keeps State.layout (chargePa_layout s pa 128) rfl

@[simp] theorem lineOut_layout (s : State) (x : CLine) : (lineOut s x).layout = s.layout := by
  unfold lineOut
  dsimp only
  split
  · exact ((chargePa_layout _ _ _).trans ((earlySeal_layout _ _).trans (logLine_layout _ _ _ _))).trans (nodeSaw_layout _ _ _)
  · exact nodeSaw_layout _ _ _
  · exact nodeSaw_layout _ _ _

@[simp] theorem writeBack_layout (s : State) (cid : Nat) (x : CLine) : (writeBack s cid x).layout = s.layout :=
  ite_keeps State.layout rfl ((lineOut_layout _ _).trans (modCore_layout _ _ (by rfl)))

@[simp] theorem drainC_layout (s : State) (cid : Nat) : (drainC s cid).layout = s.layout :=
  foldl_keeps State.layout (fun s x => writeBack_layout s cid x) _ s

@[simp] theorem flushLine_layout (s : State) (cid line : Nat) : (flushLine s cid line).layout = s.layout := by
  unfold flushLine
  split
  · rfl
  · exact (modCore_layout _ _ (by rfl)).trans (writeBack_layout _ _ _)

@[simp] theorem takeIn_layout (s : State) (cid banks : Nat) : (takeIn s cid banks).layout = s.layout :=
  (modCore_layout _ _ (by rfl)).trans (foldl_keeps State.layout (fun s (x : CLine) => flushLine_layout s cid x.line) _ s)

@[simp] theorem closeResidency_layout (s : State) (cid flags : Nat) : (closeResidency s cid flags).layout = s.layout :=
  (modCore_layout _ _ (by rfl)).trans (ite_keeps State.layout (profWrite_layout _ _ _ _) rfl)

/-- A patch stopped: it stands where it stood (R113, R334). -/
@[simp] theorem stopForPlacer_layout (s : State) (pt : Nat) : (stopForPlacer s pt).layout = s.layout :=
  (forCores_keeps State.layout (fun s cid => (closeResidency_layout _ cid 1).trans (drainC_layout s cid)) _ pt).trans (discardAll_layout s pt)

@[simp] theorem chargeRead_layout (s : State) (l : Loc) (n : Nat) : (chargeRead s l n).layout = s.layout := by
  unfold chargeRead
  split
  · exact chargePa_layout _ _ _
  · rfl

@[simp] theorem countRead_layout (s : State) (lease : Nat) (l : Loc) (n : Nat) : (countRead s lease l n).layout = s.layout :=
  (ite_keeps State.layout rfl rfl : (noteRead (chargeRead s l n) lease l).layout = (chargeRead s l n).layout).trans (chargeRead_layout s l n)

@[simp] theorem loadCharge_layout (s : State) (lease obj : Nat) (h : List CWord) : (loadCharge s lease obj h).layout = s.layout := by
  refine foldl_keeps State.layout (fun s x => ?_) _ s
  split
  · exact countRead_layout _ _ _ _
  · rfl

@[simp] theorem tellEvicted_layout (s : State) (cl pos lease : Nat) : (tellEvicted s cl pos lease).layout = s.layout := pfEvent_layout _ _ _ _

@[simp] theorem recordLoad_layout (s : State) (pt : Nat) (p : Patch) (cause : BitVec 8) (b : LoadBad) :
    (recordLoad s pt p cause b).layout = s.layout :=
  (pfEvent_layout _ _ _ _).trans (modLease_layout _ _ fun _ => by rfl)

@[simp] theorem rebind_layout (s : State) (lease w h x y nx ny : Nat) : (rebind s lease w h x y nx ny).layout = s.layout := by
  unfold rebind
  split
  · rfl
  · dsimp only
    split <;> rfl

@[simp] theorem rebindPatch_layout (s : State) (p : Patch) (x y : Nat) : (rebindPatch s p x y).layout = s.layout := by
  unfold rebindPatch
  split
  · exact rebind_layout _ _ _ _ _ _ _ _
  · rfl

@[simp] theorem tracePatch_layout (s : State) (pt kind what : Nat) : (tracePatch s pt kind what).layout = s.layout := by
  unfold tracePatch
  split
  · exact ite_keeps State.layout (profWrite_layout _ _ _ _) rfl
  · rfl

@[simp] theorem passNotes_layout (s : State) (pt : Nat) (o : KObj) : (passNotes s pt o).layout = s.layout :=
  foldl_keeps State.layout (fun s n => tracePatch_layout s pt 4 n) _ s

theorem putBytes_place (bs : List (Nat × Byte)) (c : Core) : (c.putBytes bs).place = c.place := by
  induction bs generalizing c with
  | nil => rfl
  | cons b bs ih => exact ih _

theorem place_poisonRows (c : Core) (rows : List Nat) : ({ c with poisonRows := rows } : Core).place = c.place := rfl

theorem putRow_place (c : Core) (a : Nat) (v : Value) : (c.putRow a v).place = c.place :=
  (place_poisonRows (c.putBytes _) _).trans (putBytes_place _ c)

theorem writeG_place (c : Core) (k g : Nat) (v : Value) : (c.writeG k g v).place = c.place := by
  unfold Core.writeG
  exact putRow_place c _ v

theorem zeroFrame_place (c : Core) (k : Nat) : (c.zeroFrame k).place = c.place :=
  foldl_keeps Core.place (fun c g => writeG_place c k g 0) _ c

theorem giveArgs_place (c : Core) (args : List Value) (k : Nat) : (c.giveArgs args k).place = c.place := by
  unfold Core.giveArgs
  exact foldl_keeps Core.place (fun c (a : Nat × Value) => writeG_place c k a.1 a.2) _ c

@[simp] theorem startConfigured_layout (s : State) (cid k : Nat) : (startConfigured s cid k).layout = s.layout :=
  modCore_layout _ _ (zeroFrame_place _ k)

@[simp] theorem startBits_layout (s : State) (cid : Nat) : (startBits s cid).layout = s.layout := by
  refine ite_keeps State.layout (foldl_keeps State.layout (fun s k => ?_) _ s) rfl
  exact (modCore_layout _ _ (giveArgs_place _ _ k)).trans (startConfigured_layout s cid k)

@[simp] theorem restart_layout (s : State) (cid : Nat) : (restart s cid).layout = s.layout :=
  ite_keeps State.layout rfl (startBits_layout s cid)

/-! ### Rinsing, setting down, ending a stop (R112, R113): the ground stays -/

theorem modCore_ground (s : State) (cid : Nat) {f : Core → Core} (hf : (f (s.core cid)).withdrawn = (s.core cid).withdrawn) :
    (s.modCore cid f).ground = s.ground := by
  have wd : ∀ d, ((s.modCore cid f).core d).withdrawn = (s.core d).withdrawn := fun d => by
    by_cases hd : d = cid
    · rw [hd, State.core_modCore_same, hf]
    · rw [State.core_modCore_other _ _ _ _ hd]
  simp only [State.ground, wd]
  rfl

theorem rinseCore_ground (s : State) (cid lease : Nat) : (rinseCore s cid lease).ground = s.ground :=
  (ground_eq_of_layout (modCluster_layout _ _ fun _ => by rfl)).trans (modCore_ground s cid (f := rinsedCore) rfl)

theorem rinseCore_patches (s : State) (cid lease : Nat) : (rinseCore s cid lease).patches = s.patches := rfl

@[simp] theorem rinseCore_core_same (s : State) (cid lease : Nat) : (rinseCore s cid lease).core cid = rinsedCore (s.core cid) :=
  State.core_setCore_same _ _ _

theorem rinseCore_core_other (s : State) {cid d : Nat} (lease : Nat) (h : d ≠ cid) : (rinseCore s cid lease).core d = s.core d :=
  State.core_setCore_other _ _ _ _ h

/-- Cores that are rinsed hold no patch. -/
theorem foldl_rinseCore_patch (lease : Nat) (cs : List Nat) (s : State) (cid : Nat) (h : cid ∈ cs ∨ (s.core cid).patch = none) :
    ((cs.foldl (fun s cid => rinseCore s cid lease) s).core cid).patch = none := by
  induction cs generalizing s with
  | nil => simpa using h
  | cons d cs ih =>
    refine ih _ ?_
    by_cases hd : cid = d
    · exact .inr (by rw [hd, rinseCore_core_same]; rfl)
    · rw [rinseCore_core_other _ _ hd]
      exact h.imp (fun h => (List.mem_cons.1 h).resolve_left hd) id

/-- A patch whose stop has ended. -/
def Patch.freed (p : Patch) : Patch := { p with stop := none, held := false }

theorem endStop_layout (s : State) (pt : Nat) : (endStop s pt).layout = (s.modPatch pt Patch.freed).layout :=
  forCores_keeps State.layout (fun s cid => modCore_layout s cid (by rfl)) _ pt

theorem endStop_ground (s : State) (pt : Nat) : (endStop s pt).ground = s.ground :=
  (ground_eq_of_layout (endStop_layout s pt)).trans rfl

theorem endStop_place (s : State) (pt cid : Nat) : ((endStop s pt).core cid).place = (s.core cid).place :=
  place_eq_of_layout (endStop_layout s pt) cid

theorem endStop_core_patch (s : State) (pt cid : Nat) : ((endStop s pt).core cid).patch = (s.core cid).patch :=
  congrArg Prod.fst (endStop_place s pt cid)

theorem patch_eq_of_layout {s t : State} (h : t.layout = s.layout) (pt : Nat) : t.patch pt = s.patch pt :=
  congrArg (tfind · pt) (patches_eq_of_layout h)

theorem endStop_patch {s : State} {pt : Nat} {p : Patch} (h : s.patch pt = some p) : (endStop s pt).patch pt = some p.freed := by
  rw [patch_eq_of_layout (endStop_layout s pt), State.patch_modPatch_same, h]
  rfl

theorem foldl_endStop_ground (ps : List (Nat × Patch)) (s : State) : (ps.foldl (fun s e => endStop s e.1) s).ground = s.ground :=
  foldl_keeps State.ground (fun s (e : Nat × Patch) => endStop_ground s e.1) ps s

/-- A sequencer as read out differs in its requests and its latch at most. -/
theorem Patch.readSeq_eq (p : Patch) (imgs : Table Core) : ∃ r l, p.readSeq imgs = { p with reqs := r, latched := l } := by
  unfold Patch.readSeq
  split
  · exact ⟨p.reqs, p.latched, rfl⟩
  · exact ⟨_, _, rfl⟩

theorem reapply_place (s : State) (lease : Nat) (o : KObj) (c : Core) : (reapply s lease o c).place = c.place := by
  have h : ∀ f : Core → Nat → Core, (∀ c k, (f c k).place = c.place) → ((List.range (hNctx o.hdr)).foldl f c).place = c.place :=
    fun f hf => foldl_keeps Core.place hf _ c
  exact ite_keeps Core.place (h _ fun _ _ => rfl) (h _ fun _ _ => rfl)

/-- The images of a patch set down on their cores. -/
def putImages (s : State) (lease : Nat) (o : KObj) (imgs : Table Core) (x y : Nat) : State :=
  imgs.foldl (fun s e => putImage s (coreXY s (x + (reapply s lease o e.2).px) (y + (reapply s lease o e.2).py)) (reapply s lease o e.2)) s

/-- A patch that has been set down. -/
def Patch.setAt (p : Patch) (imgs : Table Core) (x y : Nat) (loan : Option Nat) : Patch :=
  { p.readSeq imgs with x := x, y := y, loan := loan, stop := none, held := false }

theorem putImages_ground (s : State) (lease : Nat) (o : KObj) (imgs : Table Core) (x y : Nat) :
    (putImages s lease o imgs x y).ground = s.ground :=
  foldl_keeps State.ground (fun s _ => modCore_ground s _ (by rfl)) imgs s

theorem putImages_patches (s : State) (lease : Nat) (o : KObj) (imgs : Table Core) (x y : Nat) :
    (putImages s lease o imgs x y).patches = s.patches :=
  foldl_keeps State.patches (fun _ _ => by rfl) imgs s

theorem setDown_layout (s : State) (pt lease : Nat) (o : KObj) (imgs : Table Core) (x y : Nat) (loan : Option Nat) :
    (setDown s pt lease o imgs x y loan).layout = ((putImages s lease o imgs x y).modPatch pt (·.setAt imgs x y loan)).layout := by
  refine (passNotes_layout _ _ _).trans ((forCores_keeps State.layout restart_layout _ pt).trans ?_)
  show State.layout (((putImages s lease o imgs x y).patch pt).elim _ _) = _
  cases (putImages s lease o imgs x y).patch pt <;> rfl

theorem setDown_ground (s : State) (pt lease : Nat) (o : KObj) (imgs : Table Core) (x y : Nat) (loan : Option Nat) :
    (setDown s pt lease o imgs x y loan).ground = s.ground :=
  (ground_eq_of_layout (setDown_layout s pt lease o imgs x y loan)).trans (putImages_ground s lease o imgs x y)

theorem setDown_patch {s : State} {pt : Nat} {p : Patch} (h : s.patch pt = some p) (lease : Nat) (o : KObj) (imgs : Table Core) (x y : Nat)
    (loan : Option Nat) : (setDown s pt lease o imgs x y loan).patch pt = some (p.setAt imgs x y loan) := by
  have hp : (putImages s lease o imgs x y).patch pt = some p := (congrArg (tfind · pt) (putImages_patches s lease o imgs x y)).trans h
  rw [patch_eq_of_layout (setDown_layout s pt lease o imgs x y loan), State.patch_modPatch_same, hp]
  rfl

/-- An image set down alone: its core holds the patch. -/
theorem setDown_core_patch (s : State) (pt lease : Nat) (o : KObj) (k : Nat) (c : Core) (x y : Nat) (loan : Option Nat) :
    ((setDown s pt lease o [(k, c)] x y loan).core (coreXY s (x + c.px) (y + c.py))).patch = c.patch := by
  obtain ⟨hpatch, hpx, hpy, -⟩ : (reapply s lease o c).patch = c.patch ∧ (reapply s lease o c).px = c.px ∧
      (reapply s lease o c).py = c.py ∧ (reapply s lease o c).withdrawn = c.withdrawn := by
    simpa [Core.place] using reapply_place s lease o c
  have h := place_eq_of_layout (setDown_layout s pt lease o [(k, c)] x y loan) (coreXY s (x + c.px) (y + c.py))
  refine (congrArg Prod.fst h).trans ?_
  show ((putImage s (coreXY s (x + (reapply s lease o c).px) (y + (reapply s lease o c).py)) (reapply s lease o c)).core _).patch = _
  rw [hpx, hpy, putImage, State.core_modCore_same]
  exact hpatch

/-- Where a grid position's core stands depends on the darned positions alone. -/
theorem coreAt_congr {s t : State} {cl : Nat} (h : (t.cluster cl).darned = (s.cluster cl).darned) (pos : Nat) :
    coreAt t cl pos = coreAt s cl pos := by
  simp only [coreAt, h]

/-! ### The first step of an operation (R113, R115) -/

/-- Nothing that is read out of a patch is poisoned. -/
abbrev Unpoisoned (s : State) (pt : Nat) : Prop := (patchCores s pt).find? (fun cid => readPoison (s.core cid)) = none

section
variable {s : State} {i : Instr} {ps : List (Nat × Patch)}

/-- Patches on which an operation can act at once: it is carried out, and their stops end. -/
theorem placerStep_stand (h : Stand s i ps) (go : State → State) :
    placerStep s (eventKey i) ps go = ps.foldl (fun s e => endStop s e.1) (go s) := by
  have busy : (ps.any fun e => placerBusy s (eventKey i) e.2.lease) = false :=
    List.any_eq_false.2 fun e he => by rw [(h e he).1]; exact Bool.false_ne_true
  have stops : (ps.all fun e => placerStops s e.1 e.2) = true := List.all_eq_true.2 fun e he => (h e he).2.1
  unfold placerStep
  rw [busy, stops, if_neg Bool.false_ne_true, if_pos rfl]

/-- A patch that does not stand is stopped. -/
theorem placerStep_begin {pt : Nat} {p : Patch} {key : Instr × Nat} (hb : placerBusy s key p.lease = false) (hl : p.latched = none)
    (hs : patchStands s pt p = false) (go : State → State) : placerStep s key [(pt, p)] go = beginStop s key (pt, p) := by
  simp [placerStep, placerStops, hb, hl, hs]

theorem unpoisoned_of_stand (h : Stand s i ps) {e : Nat × Patch} (he : e ∈ ps) : Unpoisoned s e.1 :=
  List.find?_eq_none.2 fun cid hc => by rw [(h e he).2.2 cid hc]; exact Bool.false_ne_true

/-- A lock set on a patch's cores is set on each. -/
theorem foldl_lock (cs : List Nat) (s : State) (cid : Nat) (h : cid ∈ cs ∨ (s.core cid).pleat.lock = true) :
    ((cs.foldl (fun s cid => s.modCore cid fun c => { c with pleat := { c.pleat with lock := true } }) s).core cid).pleat.lock = true := by
  induction cs generalizing s with
  | nil => simpa using h
  | cons d cs ih =>
    refine ih _ ?_
    by_cases hd : cid = d
    · exact .inr (by rw [hd, State.core_modCore_same])
    · rw [State.core_modCore_other _ _ _ _ hd]
      exact h.imp (fun h => (List.mem_cons.1 h).resolve_left hd) id

/-- The first step on a running patch: it is marked with the operation, and its cores' pleat words are locked. -/
theorem beginStop_running {pt : Nat} {p : Patch} (key : Instr × Nat) (hp : s.patch pt = some p) (hr : p.st = .running) (hh : p.host = none)
    (hq : ∀ cid ∈ patchCores s pt, (s.core cid).pleat.phase ≤ 1) :
    (beginStop s key (pt, p)).patch pt = some { p with stop := some key } ∧
      ∀ cid ∈ patchCores s pt, ((beginStop s key (pt, p)).core cid).pleat.lock = true := by
  have ready : ((patchCores s pt).all fun cid => decide ((s.core cid).pleat.phase ≤ 1)) = true :=
    List.all_eq_true.2 fun cid hc => decide_eq_true (hq cid hc)
  have e : beginStop s key (pt, p) = forCores (s.modPatch pt fun p => { p with stop := some key }) pt fun s cid =>
      s.modCore cid fun c => { c with pleat := { c.pleat with lock := true } } := by
    simp [beginStop, hr, hh, ready]
  rw [e]
  refine ⟨?_, fun cid hc => foldl_lock _ _ cid (.inl hc)⟩
  have l := forCores_keeps State.layout (fun s cid => modCore_layout s cid (by rfl)) (s.modPatch pt fun p => { p with stop := some key }) pt
    (f := fun s cid => s.modCore cid fun c => { c with pleat := { c.pleat with lock := true } })
  rw [patch_eq_of_layout l, State.patch_modPatch_same, hp]
  rfl

end

/-! ### A stopped patch moved, evicted, restored (R112, R113) -/

section
variable {s : State} {pt : Nat} {p : Patch} {o : KObj}

/-- A patch stopped and taken off its cores, which are rinsed. -/
def takenOff (s : State) (pt : Nat) (p : Patch) : State := forCores (stopForPlacer s pt) pt fun s cid => rinseCore s cid p.lease

theorem takenOff_ground (s : State) (pt : Nat) (p : Patch) : (takenOff s pt p).ground = s.ground :=
  (forCores_keeps State.ground (fun s cid => rinseCore_ground s cid p.lease) _ pt).trans (ground_eq_of_layout (stopForPlacer_layout s pt))

theorem takenOff_patches (s : State) (pt : Nat) (p : Patch) : (takenOff s pt p).patches = s.patches :=
  (forCores_keeps State.patches (fun s cid => rinseCore_patches s cid p.lease) _ pt).trans (patches_eq_of_layout (stopForPlacer_layout s pt))

/-- The cores of a patch that was taken off hold no patch. -/
theorem takenOff_core_patch (p : Patch) {cid : Nat} (hc : cid ∈ patchCores s pt) : ((takenOff s pt p).core cid).patch = none :=
  foldl_rinseCore_patch p.lease _ _ cid (.inl ((mem_patchCores_of_layout (stopForPlacer_layout s pt) pt cid).2 hc))

/-- A move that is carried out sets the patch down at the new origin. -/
theorem movePatch_patch (hp : s.patch pt = some p) (hn : Unpoisoned s pt)
    (ho : reload (stopForPlacer s pt) p.lease p.obj p.hdr = .ok o) (x y : Nat) (loan : Option Nat) :
    ∃ imgs, (movePatch s pt p x y loan).patch pt = some (p.setAt imgs x y loan) := by
  simp only [movePatch, hn, ho]
  refine ⟨_, setDown_patch ?_ _ _ _ _ _ _⟩
  rw [patch_eq_of_layout (rebindPatch_layout _ _ _ _)]
  refine Eq.trans (congrArg (tfind · pt) ?_) hp
  refine (forCores_keeps State.patches (fun s cid => rinseCore_patches s cid p.lease) _ pt).trans ?_
  exact patches_eq_of_layout ((loadCharge_layout _ _ _ _).trans (stopForPlacer_layout s pt))

/-- A patch that was evicted. -/
def Patch.evict (p : Patch) (imgs : Table Core) (ahead : Bool) : Patch :=
  { p.readSeq imgs with was := p.st, st := .evicted, ahead := ahead, loan := none, stop := none, held := false }

/-- The image that an evict stores (R112). -/
def imageStored (s : State) (pt : Nat) (p : Patch) : Stored :=
  { lease := p.lease, gen := genOf s p.lease, cores := readAll (stopForPlacer s pt) pt }

/-- A lease's generation is its own, whatever is recorded of it. -/
theorem genOf_of_ground {s t : State} (h : t.ground = s.ground) (l : Nat) : genOf t l = genOf s l := by
  have e := congrArg (fun x => (Option.map Lease.gen x).getD 0) (lease_eq_of_ground h l)
  simp only [Option.map_map] at e
  exact e

/-- A state with an image in the eviction store, the patch's record changed. -/
def State.store (s : State) (pt : Nat) (i : Stored) (f : Patch → Patch) : State :=
  { s with images := tset s.images pt i }.modPatch pt f

theorem State.store_core (s : State) (pt : Nat) (i : Stored) (f : Patch → Patch) (cid : Nat) : (s.store pt i f).core cid = s.core cid := rfl
theorem State.store_lease (s : State) (pt : Nat) (i : Stored) (f : Patch → Patch) (l : Nat) : (s.store pt i f).lease l = s.lease l := rfl
theorem State.store_patches (s : State) (pt : Nat) (i : Stored) (f : Patch → Patch) :
    (s.store pt i f).patches = tmap (fun k p => if k = pt then f p else p) s.patches := rfl
theorem State.store_images (s : State) (pt : Nat) (i : Stored) (f : Patch → Patch) : (s.store pt i f).images = tset s.images pt i := rfl

section
variable (hn : Unpoisoned s pt) (hr : storeRoom s [p] = true) (ahead : Bool)
include hn hr

/-- An evict that is carried out: the patch is off its cores, its image in the store. -/
theorem evictPatch_eq : evictPatch s pt p ahead = (reborrow (takenOff s pt p) p.pk 0).store pt (imageStored s pt p)
    (·.evict (readAll (stopForPlacer s pt) pt) ahead) := by
  rw [imageStored, ← genOf_of_ground (takenOff_ground s pt p)]
  simp only [evictPatch, hn, hr]
  rfl

theorem evictPatch_core (cid : Nat) : (evictPatch s pt p ahead).core cid = (takenOff s pt p).core cid := by
  rw [evictPatch_eq hn hr, State.store_core, reborrow, State.modPkt_core]

theorem evictPatch_lease (l : Nat) : (evictPatch s pt p ahead).lease l = (takenOff s pt p).lease l := by
  rw [evictPatch_eq hn hr, State.store_lease, reborrow, State.modPkt_lease]

theorem evictPatch_image : tfind (evictPatch s pt p ahead).images pt = some (imageStored s pt p) := by
  rw [evictPatch_eq hn hr, State.store_images, tfind_tset_same]

/-- The patches after an evict: the one alone has changed. -/
theorem evictPatch_patches : (evictPatch s pt p ahead).patches =
    tmap (fun k q => if k = pt then q.evict (readAll (stopForPlacer s pt) pt) ahead else q) s.patches := by
  rw [evictPatch_eq hn hr, State.store_patches, reborrow, State.modPkt_patches, takenOff_patches]

theorem evictPatch_patch (hp : s.patch pt = some p) :
    (evictPatch s pt p ahead).patch pt = some (p.evict (readAll (stopForPlacer s pt) pt) ahead) := by
  rw [State.patch, evictPatch_patches hn hr, tfind_tmap, ← State.patch, hp, Option.map_some, if_pos rfl]

end

/-- A patch whose image is taken back out of the store. -/
def unstored (s : State) (pt : Nat) : State :=
  { s with images := terase s.images pt }.modPatch pt fun p => { p with st := p.was, ahead := false }

theorem unstored_layout (s : State) (pt : Nat) : (unstored s pt).layout = { s.layout with
    ground := { s.ground with images := terase s.images pt }
    patches := tmap (fun k p => if k = pt then { p with st := p.was, ahead := false } else p) s.patches } := rfl

/-- A lease's image of a patch depends on the ground alone. -/
theorem imageOf_of_ground {s t : State} (h : t.ground = s.ground) (pt : Nat) (p : Patch) : imageOf t pt p = imageOf s pt p := by
  have gen : ∀ g, (t.lease p.lease).any (fun L => decide (L.gen = g)) = (s.lease p.lease).any fun L => decide (L.gen = g) := fun g => by
    have e := congrArg (fun x => Option.any (fun L : Lease => decide (L.gen = g)) x) (lease_eq_of_ground h p.lease)
    simp only [Option.any_map] at e
    exact e
  simp only [imageOf, images_eq_of_ground h, gen]

/-- A restore that is carried out: the image leaves the store and is set down at the new origin. -/
theorem restorePatch_eq (ho : reload s p.lease p.obj p.hdr = .ok o) (x y : Nat) (loan : Option Nat) :
    ∃ t, t.layout = (unstored s pt).layout ∧ restorePatch s pt p x y loan = setDown t pt p.lease o (imageOf s pt p) x y loan := by
  have h := loadCharge_layout s p.lease p.obj p.hdr
  refine ⟨rebindPatch (unstored (loadCharge s p.lease p.obj p.hdr) pt) p x y, ?_, ?_⟩
  · rw [rebindPatch_layout, unstored_layout, unstored_layout, h, ground_eq_of_layout h, patches_eq_of_layout h,
      images_eq_of_ground (ground_eq_of_layout h)]
  · rw [← imageOf_of_ground (ground_eq_of_layout h)]
    simp only [restorePatch, ho]
    rfl

/-- A restore, carried out or refused, withdraws no core and frees none. -/
theorem restorePatch_withdrawn (s : State) (pt : Nat) (p : Patch) (x y : Nat) (loan : Option Nat) (cid : Nat) :
    ((restorePatch s pt p x y loan).core cid).withdrawn = (s.core cid).withdrawn := by
  cases ho : reload s p.lease p.obj p.hdr with
  | error b =>
    simp only [restorePatch, ho]
    have h := (tellEvicted_layout _ (x / 4 + 16 * (y / 4)) (x % 4 + 4 * (y % 4)) p.lease).trans
      ((recordLoad_layout _ pt p b.1 b.2).trans (loadCharge_layout s p.lease p.obj p.hdr))
    exact withdrawn_eq_of_ground (ground_eq_of_layout h) cid
  | ok o =>
    obtain ⟨t, ht, h⟩ := restorePatch_eq (pt := pt) ho x y loan
    rw [h, withdrawn_eq_of_ground (setDown_ground t pt p.lease o (imageOf s pt p) x y loan)]
    exact withdrawn_eq_of_ground (ground_eq_of_layout ht) cid

end

/-! ### Resuming a victim, pressing (R114, R350) -/

/-- A victim resumes in the state in which it was frozen. -/
theorem resumeVictim_patches (s : State) (pt : Nat) :
    (resumeVictim s pt).patches = (s.modPatch pt fun p => { p with st := p.was }).patches := by
  refine congrArg (tmap fun k (p : Patch) => if k = pt then { p with st := p.was } else p) ?_
  exact (forCores_keeps State.patches (fun _ _ => by rfl) _ pt).trans
    (foldl_keeps State.patches (fun _ _ => (patches_eq_of_layout (takeIn_layout _ _ _)).trans (by rfl)) _ s)

theorem resumeVictim_patch {s : State} {pt : Nat} {p : Patch} (hp : s.patch pt = some p) :
    (resumeVictim s pt).patch pt = some { p with st := p.was } := by
  refine (congrArg (tfind · pt) (resumeVictim_patches s pt)).trans ((State.patch_modPatch_same s pt _).trans ?_)
  rw [hp]
  rfl

theorem resumeVictim_patch_none {s : State} {pt n : Nat} (h : s.patch n = none) (hn : n ≠ pt) : (resumeVictim s pt).patch n = none :=
  (congrArg (tfind · n) (resumeVictim_patches s pt)).trans ((State.patch_modPatch_other s pt n _ hn).trans h)

theorem dropPatch_patches (s : State) (pt : Nat) : (dropPatch s pt).patches = terase s.patches pt := by
  refine congrArg (terase · pt) ((patches_eq_of_layout (delist_layout _ _)).trans ?_)
  exact foldl_keeps State.patches (fun _ _ => by rfl) _ s

/-- What pressing sets down leaves the ground as it was. -/
theorem pressDown_ground (olds : Table Lease) (got : List ((Nat × Patch) × (Nat × Nat × Option Nat) × KObj × Table Core)) (s : State) :
    (pressDown olds got s).ground = s.ground := by
  induction got generalizing s with
  | nil => rfl
  | cons g got ih =>
    obtain ⟨e, q, o, imgs⟩ := g
    refine (ih _).trans ((setDown_ground _ _ _ _ _ _ _ _).trans ?_)
    split
    · exact ground_eq_of_layout (rebind_layout _ _ _ _ _ _ _ _)
    · rfl

/-- A patch pressed alone stands at its new place. -/
theorem pressDown_one_patch (olds : Table Lease) {s : State} {n : Nat} {p : Patch} (hp : s.patch n = some p) (q : Nat × Nat × Option Nat)
    (o : KObj) (imgs : Table Core) : (pressDown olds [((n, p), q, o, imgs)] s).patch n = some (p.setAt imgs q.1 q.2.1 q.2.2) := by
  refine setDown_patch ?_ _ _ _ _ _ _
  split
  · rw [patch_eq_of_layout (rebind_layout _ _ _ _ _ _ _ _), hp]
  · exact hp

/-- A press that is carried out: the leases shift, the patches that were read out are set down. -/
theorem doPress_eq {s : State} {ps : List (Nat × Patch)} (ms : List PressMove)
    (hn : (ps.flatMap fun e => patchCores s e.1).find? (fun cid => readPoison (s.core cid)) = none)
    (ho : ∀ e ∈ ps, ∃ o, reload (ps.foldl (fun s e => stopForPlacer s e.1) s) e.2.lease e.2.obj e.2.hdr = .ok o) :
    ∃ (got : _) (t : State), t.ground = s.ground ∧ t.patches = s.patches ∧
      doPress ms ps s = pressDown s.leases got { t with leases := tmap (pressLease ms) t.leases } ∧
      ∀ n p, ps = [(n, p)] → ∃ o imgs, got = [((n, p), pressPatch s ms n p, o, imgs)] := by
  simp only [doPress, hn]
  split
  · next e b hb =>
    obtain ⟨d, hd, hb⟩ := List.exists_of_findSome?_eq_some hb
    obtain ⟨o, h⟩ := ho d hd
    simp [h] at hb
  · refine ⟨_, ps.foldl (fun s e => forCores s e.1 fun s cid => rinseCore s cid e.2.lease)
      (ps.foldl (fun s e => loadCharge s e.2.lease e.2.obj e.2.hdr) (ps.foldl (fun s e => stopForPlacer s e.1) s)), ?_, ?_, rfl, ?_⟩
    · refine (foldl_keeps State.ground (fun s e => forCores_keeps State.ground (fun s cid => rinseCore_ground s cid _) s _) ps _).trans ?_
      exact ground_eq_of_layout ((foldl_keeps State.layout (fun s e => loadCharge_layout s _ _ _) ps _).trans
        (foldl_keeps State.layout (fun s e => stopForPlacer_layout s _) ps s))
    · refine (foldl_keeps State.patches (fun s e => forCores_keeps State.patches (fun s cid => rinseCore_patches s cid _) s _) ps _).trans ?_
      exact patches_eq_of_layout ((foldl_keeps State.layout (fun s e => loadCharge_layout s _ _ _) ps _).trans
        (foldl_keeps State.layout (fun s e => stopForPlacer_layout s _) ps s))
    · rintro n p rfl
      obtain ⟨o, h⟩ := ho (n, p) List.mem_cons_self
      exact ⟨o, _, by simp only [List.filterMap_cons, h]; rfl⟩

/-- Where a press puts a lease has nothing to do with its records. -/
theorem pressLease_bare (ms : List PressMove) (l : Nat) (L : Lease) : (pressLease ms l L).bare = pressLease ms l L.bare := by
  unfold pressLease
  split <;> rfl

/-- A press shifts a lease and its loans, and changes nothing else of it. -/
theorem pressLease_keeps (ms : List PressMove) (l : Nat) (L : Lease) :
    (pressLease ms l L).w = L.w ∧ (pressLease ms l L).h = L.h ∧ (pressLease ms l L).gen = L.gen := by
  unfold pressLease
  split <;> exact ⟨rfl, rfl, rfl⟩

/-- The leases after a press that is carried out. -/
theorem press_lease {s t u : State} (ms : List PressMove) (hu : u.ground = s.ground)
    (ht : t.ground = ({ u with leases := tmap (pressLease ms) u.leases } : State).ground) {l : Nat} {L : Lease} (hL : s.lease l = some L) :
    ∃ N, t.lease l = some N ∧ N.bare = (pressLease ms l L).bare := by
  obtain ⟨M, hM, eM⟩ : ∃ M, u.lease l = some M ∧ M.bare = L.bare := by
    simpa [hL] using lease_eq_of_ground hu l
  have h := lease_eq_of_ground ht l
  have hl : State.lease { u with leases := tmap (pressLease ms) u.leases } l = (u.lease l).map (pressLease ms l) := tfind_tmap _ _ _
  obtain ⟨N, hN, eN⟩ : ∃ N, t.lease l = some N ∧ N.bare = (pressLease ms l M).bare := by
    simpa [hl, hM] using h
  exact ⟨N, hN, by rw [eN, pressLease_bare, eM, pressLease_bare]⟩

/-! ### Darning, withdrawal, failing strip cores (R14, R15, R117) -/

theorem patchOn_some {s : State} {cid n : Nat} {p : Patch} (h : patchOn s cid = some (n, p)) : s.patch n = some p := by
  unfold patchOn at h
  obtain ⟨m, -, h⟩ := Option.bind_eq_some_iff.1 h
  obtain ⟨q, hq, e⟩ := Option.map_eq_some_iff.1 h
  cases e
  exact hq

/-- An event told to the PF touches its ring alone. -/
theorem pfEvent_eq (s : State) (kind lease : Nat) (rec : List Byte) : ∃ m e, pfEvent s kind lease rec = { s with mem := m, events := e } := by
  unfold pfEvent
  dsimp only
  split
  · exact ⟨_, _, rfl⟩
  · split
    · exact ⟨s.mem, _, rfl⟩
    · exact ⟨s.mem, s.events, rfl⟩

/-- A position lost touches its core and the PF's event ring alone. -/
theorem losePos_eq (s : State) (cid lease : Nat) : ∃ m e, losePos s cid lease =
    { s.modCore cid fun c => { c with withdrawn := true, replays := [] } with mem := m, events := e } := pfEvent_eq _ _ _ _

theorem losePos_core_same (s : State) (cid lease : Nat) :
    (losePos s cid lease).core cid = { s.core cid with withdrawn := true, replays := [] } := by
  obtain ⟨m, e, h⟩ := losePos_eq s cid lease
  rw [h]
  show (s.modCore cid fun c => { c with withdrawn := true, replays := [] }).core cid = _
  rw [State.core_modCore_same]

/-- A core with a patch that can be evicted is withdrawn. -/
theorem withdraw_withdrawn {s : State} {cid n : Nat} {p : Patch} (h : patchOn s cid = some (n, p))
    (hn : Unpoisoned s n) (hr : storeRoom s [p] = true) :
    ((withdraw s cid).core cid).withdrawn = true := by
  have hq := evictPatch_patch hn hr false (patchOn_some h)
  simp only [withdraw, h, hq]
  rw [Option.filter_some, if_pos (by rfl)]
  dsimp only
  split
  · rw [restorePatch_withdrawn, losePos_core_same]
  · rw [losePos_core_same]

/-- A position darned while a patch stands on it: the darning core takes the patch over. -/
theorem darnPos_patch {s : State} {cl pos cid n : Nat} {p : Patch} {o : KObj} (h : patchOn s cid = some (n, p))
    (hn : readPoison (s.core cid) = false) (ho : reload (stopForPlacer s n) p.lease p.obj p.hdr = .ok o) :
    ((darnPos s cl pos cid).cluster cl).darned = some pos ∧
      ((darnPos s cl pos cid).core (3072 + cl)).patch = some n ∧ ((darnPos s cl pos cid).core (3072 + cl)).px = (s.core cid).px ∧
      ((darnPos s cl pos cid).core (3072 + cl)).py = (s.core cid).py := by
  simp only [darnPos, h, hn, ho, Bool.false_eq_true, if_false]
  generalize hu : loadCharge (stopForPlacer s n) p.lease p.obj p.hdr = u
  have hl : u.layout = s.layout := hu ▸ (loadCharge_layout _ _ _ _).trans (stopForPlacer_layout s n)
  have img : (reapply u p.lease o (readout (u.core cid))).place = (s.core cid).place :=
    (reapply_place u p.lease o (readout (u.core cid))).trans (place_eq_of_layout hl cid)
  obtain ⟨-, hpx, hpy, -⟩ := by simpa only [Core.place, Prod.mk.injEq] using img
  generalize reapply u p.lease o (readout (u.core cid)) = c at *
  generalize rinseCore (rinseCore u cid p.lease) (3072 + cl) p.lease = v
  have L := fun w => (passNotes_layout (restart w (3072 + cl)) n o).trans (restart_layout w (3072 + cl))
  generalize ht : (v.modCluster cl fun c => { c with darned := some pos }).modCore cid (fun c => { c with replays := [] }) = t
  have hd : (t.cluster cl).darned = some pos := by rw [← ht, State.modCore_cluster, State.cluster_modCluster_same]
  have P := place_eq_of_layout (L (putImage t (3072 + cl) { c with patch := some n })) (3072 + cl)
  rw [putImage, State.core_modCore_same] at P
  exact ⟨(darned_eq_of_ground (ground_eq_of_layout (L _)) cl).trans hd, congrArg (·.1) P, (congrArg (·.2.1) P).trans hpx,
    (congrArg (·.2.2.1) P).trans hpy⟩

/-- A position darned while nothing stands on it: the darning core is blank. -/
theorem darnPos_empty {s : State} {cid : Nat} (h : patchOn s cid = none) (cl pos : Nat) : darnPos s cl pos cid =
    (s.modCluster cl fun c => { c with darned := some pos }).setCore (3072 + cl) (rinsedCore (s.core (3072 + cl))) := by
  simp only [darnPos, h]

/-- The core at a position that is darned is the darning core. -/
theorem coreAt_darned {s : State} {cl pos : Nat} (h : (s.cluster cl).darned = some pos) : coreAt s cl pos = 3072 + cl := if_pos h

/-- Where a position stands in the grid, when its cluster darns no position or another one. -/
theorem coreAt_grid {s : State} {cl pos : Nat} (h : (s.cluster cl).darned ≠ some pos) :
    coreAt s cl pos = cl % 16 * 4 + pos % 4 + 64 * (cl / 16 * 4 + pos / 4) := if_neg h

/-- A strip core takes its cluster's darning core; every other core stays as it was. -/
theorem stripTakes_eq (s : State) (y : Nat) : ((stripTakes s y).cluster (16 * (y / 4))).darned = some (4 * (y % 4)) ∧
    (stripTakes s y).stripDarned = s.stripDarned ++ [y] ∧ (stripTakes s y).stopped = s.stopped ∧
    ∀ cid, cid ≠ 3072 + 16 * (y / 4) → (stripTakes s y).core cid = s.core cid := by
  refine ⟨?_, rfl, rfl, fun cid h => State.core_setCore_other _ _ _ _ h⟩
  show ((s.modCluster (16 * (y / 4)) fun c => { c with darned := some (4 * (y % 4)) }).cluster (16 * (y / 4))).darned = _
  rw [State.cluster_modCluster_same]

/-- A leased position's darning core freed for a strip core (R15). -/
def freeSpare (s : State) (cl : Nat) : State :=
  (s.modCluster cl fun c => { c with darned := none }).modCore (3072 + cl) fun c => { c with withdrawn := false }

/-- The same, and the position itself withdrawn. -/
def yieldSpare (s : State) (cl q : Nat) : State :=
  (freeSpare s cl).modCore (coreAt (freeSpare s cl) cl q) fun c => { c with withdrawn := true }

/-- The strip core takes a darning core that a leased position had: that position, at its own place again, is withdrawn. -/
theorem stripTakes_yieldSpare (s : State) {y q : Nat} (hp : stripPos (16 * (y / 4)) q = false) (hy : y < 24) (hq : q < 16) :
    ((stripTakes (yieldSpare s (16 * (y / 4)) q) y).core (coreAt (stripTakes (yieldSpare s (16 * (y / 4)) q) y) (16 * (y / 4)) q)).withdrawn =
      true := by
  have hq4 : q % 4 ≠ 0 := fun h => by
    simp [stripPos, h] at hp
    omega
  obtain ⟨hd, -, -, hc⟩ := stripTakes_eq (yieldSpare s (16 * (y / 4)) q) y
  have free : ((freeSpare s (16 * (y / 4))).cluster (16 * (y / 4))).darned ≠ some q := by
    rw [freeSpare, State.modCore_cluster, State.cluster_modCluster_same]
    exact nofun
  rw [coreAt_grid (by rw [hd]; intro h; cases h; omega), hc _ (by omega), yieldSpare, coreAt_grid free, State.core_modCore_same]

/-! ### The end of packets (R15, R97): the device stays as stopped as it was -/

/-- Which strip cores are down, and whether the device has stopped. -/
def State.strip (s : State) : List Nat × Bool := (s.stripDown, s.stopped)

theorem abortPkt_strip (s : State) (p : Pkt) : (abortPkt s p).strip = s.strip := by
  obtain ⟨_, _, _, _, _, _, h⟩ := endPkt_eq s p.num 18 0xFFFF 0
  unfold abortPkt
  rw [h]
  exact ite_keeps State.strip (ite_keeps State.strip rfl rfl) rfl

/-- A strip core that goes down with its darning core in use by another: it is withdrawn, and the PF is told (R15). -/
def stripLost (s : State) (y : Nat) : State :=
  tellEvicted { s with stripDown := s.stripDown ++ [y], stripDarned := s.stripDarned.filter (· != y) } (16 * (y / 4)) (4 * (y % 4)) 0

theorem stripLost_strip (s : State) (y : Nat) : (stripLost s y).strip = (s.stripDown ++ [y], s.stopped) := by
  obtain ⟨m, e, h⟩ := pfEvent_eq { s with stripDown := s.stripDown ++ [y], stripDarned := s.stripDarned.filter (· != y) } 4 0
    (num 4 (16 * (y / 4)) ++ num 4 (4 * (y % 4)))
  rw [stripLost, tellEvicted, h]
  rfl

theorem abortRing_strip (s : State) (q : Nat) (pick : Value → Bool) : (abortRing s q pick).strip = s.strip :=
  foldl_keeps State.strip (fun _ _ => by rfl) _ _

theorem abortAll_strip (s : State) : (abortAll s).strip = s.strip :=
  (foldl_keeps State.strip (fun s (q : Nat × Queue) => abortRing_strip s q.1 fun _ => true) _ _).trans (foldl_keeps State.strip abortPkt_strip _ s)

/-! ### The world switch (R353) -/

/-- A VF that has left, and one that has come in. -/
def State.vfLeft (s : State) (vf : Nat) : State := s.modFn vf fun f => { f with out := true, world := f.snaps, snaps := [] }
def State.vfEntered (s : State) (vf : Nat) : State := s.modFn vf fun f => { f with out := false, snaps := f.world, world := [] }

section
variable {s : State} {a b n : Nat} {p : Patch}

theorem switchIn_no_evicted (h : ∀ e ∈ s.patches, (s.lease e.2.lease).map (·.vf) = some b → e.2.st ≠ .evicted) :
    switchIn s b = if (s.fn b).out then s.vfEntered b else s := by
  have evicted : (s.patches.filter fun e => ((s.lease e.2.lease).map (·.vf)) = some b && e.2.st = .evicted) = [] :=
    List.filter_eq_nil_iff.2 fun e he => by simpa using h e he
  unfold switchIn
  cases (s.fn b).out
  · rfl
  · exact congrArg (List.foldl _ (s.vfEntered b)) evicted

theorem switchOut_empty (h : s.patches = []) : switchOut s a = s.vfLeft a := by
  simp [switchOut, vfPatches, h, State.vfLeft]

/-- The one patch of a VF, which stands: it is evicted, and the VF leaves. -/
theorem switchOut_one (hs : vfStops s a = [(n, p)]) (hp : s.patches = [(n, p)])
    (hn : Unpoisoned s n) (hr : storeRoom s [p] = true) :
    switchOut s a = (evictPatch s n p false).vfLeft a := by
  have mem : (n, p) ∈ vfStops s a := hs ▸ List.mem_cons_self
  obtain ⟨hv, hl⟩ := List.mem_filter.1 mem
  have pats : vfPatches s a = [(n, p)] := by
    have := (List.mem_filter.1 hv).2
    simp only [vfPatches, hp, List.filter_cons, this, if_true, List.filter_nil]
  have gone : vfPatches (evictPatch s n p false) a = [] := by
    simp [vfPatches, evictPatch_patches hn hr, hp, tmap, Patch.evict]
  have hl : p.st ≠ .loaded := by simpa using hl
  simp only [switchOut, pats, List.foldl_cons, List.foldl_nil, if_neg hl, gone]
  rfl

end

end Sys2Proof.Machine

namespace Sys2Proof.Proofs

open Sys2Proof.Machine Sys2Proof.Safety

section
variable {s : State} {pt : Nat} {p : Patch}

theorem grantedPatch_eq {L : Lease} (hp : s.patch pt = some p) (hL : s.lease p.lease = some L) (hg : L.st = .granted) :
    grantedPatch s pt = some (p, L) := by
  simp [grantedPatch, hp, hL, hg]

/-! #### Move -/

section
variable {L : Lease} {x y : Nat} (hp : s.patch pt = some p) (hL : s.lease p.lease = some L) (hg : L.st = .granted)
  (ho : originFree s L (fun k _ => k = pt) p.w p.h (hCbar p.hdr) x y = true) (hw : partsWait s p.lease p.obj p.hdr = false)
include hp hL hg ho hw

theorem exec_move :
    exec (.move pt x y) s =
      .next (placerStep s (eventKey (.move pt x y)) [(pt, p)] fun s => movePatch s pt p (L.x + x) (L.y + y) none) := by
  show execMove pt x y s = _
  simp [execMove, grantedPatch_eq hp hL hg, ho, hw]

theorem exec_move_standing {o : KObj} (hs : Stand s (.move pt x y) [(pt, p)])
    (hr : reload (stopForPlacer s pt) p.lease p.obj p.hdr = .ok o) : ∃ t q, exec (.move pt x y) s = .next t ∧
      t = endStop (movePatch s pt p (L.x + x) (L.y + y) none) pt ∧ t.patch pt = some q ∧ q.x = L.x + x ∧ q.y = L.y + y ∧ q.loan = none ∧
      q.st = p.st ∧ q.stop = none ∧ q.obj = p.obj := by
  obtain ⟨imgs, hm⟩ := movePatch_patch hp (unpoisoned_of_stand hs List.mem_cons_self) hr (L.x + x) (L.y + y) none
  obtain ⟨r, l, hq⟩ := p.readSeq_eq imgs
  refine ⟨_, _, by rw [exec_move hp hL hg ho hw, placerStep_stand hs]; rfl, rfl, endStop_patch hm, rfl, rfl, rfl, ?_, rfl, ?_⟩
  · show (p.readSeq imgs).st = p.st
    rw [hq]
  · show (p.readSeq imgs).obj = p.obj
    rw [hq]

theorem exec_move_begins (hb : placerBusy s (eventKey (.move pt x y)) p.lease = false) (hst : p.st = .running)
    (hh : p.host = none) (hl : p.latched = none) (hn : patchStands s pt p = false)
    (hc : ∀ cid ∈ patchCores s pt, (s.core cid).pleat.phase ≤ 1) :
    ∃ t, exec (.move pt x y) s = .next t ∧ t.patch pt = some { p with stop := some (eventKey (.move pt x y)) } ∧
      ∀ cid ∈ patchCores s pt, (t.core cid).pleat.lock = true :=
  ⟨_, by rw [exec_move hp hL hg ho hw, placerStep_begin hb hl hn], beginStop_running _ hp hst hh hc⟩

end

/-! #### Evict, restore -/

theorem exec_evict_standing (hp : s.patch pt = some p) (hs : Stand s (.evict pt) [(pt, p)]) (hr : storeRoom s [p] = true) :
    ∃ t q, exec (.evict pt) s = .next t ∧ t.patch pt = some q ∧ q.st = .evicted ∧
    q.was = p.st ∧ q.loan = none ∧ q.stop = none ∧ (∀ cid ∈ patchCores s pt, (t.core cid).patch = none) ∧
    tfind t.images pt = some { lease := p.lease, gen := genOf s p.lease, cores := readAll (stopForPlacer s pt) pt } := by
  have hn := unpoisoned_of_stand hs List.mem_cons_self
  have e : exec (.evict pt) s = .next (endStop (evictPatch s pt p false) pt) := by
    show execEvict pt s = _
    simp only [execEvict, hp, hr, if_true, placerStep_stand hs]
    rfl
  refine ⟨_, _, e, endStop_patch (evictPatch_patch hn hr false hp), rfl, rfl, rfl, rfl, fun cid hc => ?_, ?_⟩
  · rw [endStop_core_patch, evictPatch_core hn hr]
    exact takenOff_core_patch p hc
  · rw [images_eq_of_ground (endStop_ground _ _), evictPatch_image hn hr]
    rfl

theorem exec_restore_evicted {L : Lease} {x y : Nat} {o : KObj} (hp : s.patch pt = some p) (hL : s.lease p.lease = some L)
    (hst : p.st = .evicted) (hd : p.saveDue = none) (hg : L.st = .granted) (hv : vfOut s L.vf = false)
    (ho : originFree s L (fun k _ => k = pt) p.w p.h (hCbar p.hdr) x y = true) (hw : partsWait s p.lease p.obj p.hdr = false)
    (hb : placerBusy s (eventKey (.restore pt x y)) p.lease = false) (hr : reload s p.lease p.obj p.hdr = .ok o) :
    ∃ t q, exec (.restore pt x y) s = .next t ∧ t.patch pt = some q ∧ q.st = p.was ∧ q.x = L.x + x ∧ q.y = L.y + y ∧ q.loan = none ∧
      tfind t.images pt = none ∧ ∀ k c, imageOf s pt p = [(k, c)] → c.patch = some pt →
        (t.core (coreXY s (L.x + x + c.px) (L.y + y + c.py))).patch = some pt := by
  have e : exec (.restore pt x y) s = .next (restorePatch s pt p (L.x + x) (L.y + y) none) := by
    show execRestore pt x y s = _
    simp [execRestore, grantedPatch_eq hp hL hg, hst, hd, hv, ho, hw, hb]
  obtain ⟨t, ht, h⟩ := restorePatch_eq (pt := pt) hr (L.x + x) (L.y + y) none
  have hu : t.patch pt = some { p with st := p.was, ahead := false } := by
    rw [patch_eq_of_layout ht, unstored, State.patch_modPatch_same]
    exact congrArg (Option.map _) hp
  refine ⟨_, _, e, h ▸ setDown_patch hu _ _ _ _ _ _, ?_, rfl, rfl, rfl, ?_, fun k c hi hc => ?_⟩
  · obtain ⟨r, l, hq⟩ := Patch.readSeq_eq { p with st := p.was, ahead := false } (imageOf s pt p)
    show (Patch.readSeq _ _).st = _
    rw [hq]
  · rw [h, images_eq_of_ground (setDown_ground _ _ _ _ _ _ _ _), images_eq_of_ground (ground_eq_of_layout ht)]
    exact tfind_terase_same _ _
  · have hxy : coreXY t (L.x + x + c.px) (L.y + y + c.py) = coreXY s (L.x + x + c.px) (L.y + y + c.py) :=
      coreAt_congr (darned_eq_of_ground (ground_eq_of_layout ht) _) _
    rw [h, hi, ← hxy, setDown_core_patch, hc]

/-! #### The end of in-place pre-emption -/

section
variable (hp : s.patch pt = some p) (hst : p.st = .victim) (hd : p.saveDue = none)
  (hc : (s.victims.any fun e => e.2.patch = some pt && e.2.cache.any (lineStalls s)) = false)
include hp hst hd hc

theorem exec_preemptResume_frozen {n : Nat} {g : Patch}
    (hf : s.patches.find? (fun e => e.2.host = some pt) = some (n, g)) (hg : g.st = .frozen) (hn : n ≠ pt) :
    ∃ t q, exec (.preemptResume pt) s = .next t ∧ t = resumeVictim (dropPatch s n) pt ∧ t.patch pt = some q ∧ q.st = p.was ∧
      t.patch n = none := by
  have he : exec (.preemptResume pt) s = .next (resumeVictim (dropPatch s n) pt) := by
    show execPreemptResume pt s = _
    simp [execPreemptResume, hp, hst, hd, hc, hf, hg]
  have stays : (dropPatch s n).patch pt = some p := by
    rw [State.patch, dropPatch_patches, tfind_terase_other _ hn.symm]
    exact hp
  have goes : (dropPatch s n).patch n = none := by rw [State.patch, dropPatch_patches, tfind_terase_same]
  exact ⟨_, _, he, rfl, resumeVictim_patch stays, rfl, resumeVictim_patch_none goes hn⟩

theorem exec_preemptResume_free (hf : s.patches.find? (fun e => e.2.host = some pt) = none) :
    ∃ t q, exec (.preemptResume pt) s = .next t ∧ t = resumeVictim s pt ∧ t.patch pt = some q ∧ q.st = p.was := by
  have he : exec (.preemptResume pt) s = .next (resumeVictim s pt) := by
    show execPreemptResume pt s = _
    simp [execPreemptResume, hp, hst, hd, hc, hf]
  exact ⟨_, _, he, rfl, resumeVictim_patch hp, rfl⟩

end

end

/-! #### Press -/

section
variable {s : State} {ms : List PressMove}

theorem exec_press (hk : pressOk s ms = true) (hs : Stand s (.press ms) (pressed s ms)) : exec (.press ms) s =
    .next ((pressed s ms).foldl (fun s e => endStop s e.1) (doPress ms (pressed s ms) s)) := by
  show execPress ms s = _
  simp only [execPress, hk, if_true, placerStep_stand hs]

theorem exec_press_standing (hk : pressOk s ms = true) (hs : Stand s (.press ms) (pressed s ms))
    (ho : ∀ e ∈ pressed s ms, ∃ o, reload ((pressed s ms).foldl (fun s e => stopForPlacer s e.1) s) e.2.lease e.2.obj e.2.hdr = .ok o) :
    ∃ t, exec (.press ms) s = .next t ∧ t = (pressed s ms).foldl (fun s e => endStop s e.1) (doPress ms (pressed s ms) s) ∧
      (∀ l L, s.lease l = some L → ∃ N, t.lease l = some N ∧ N.x = (pressLease ms l L).x ∧ N.y = (pressLease ms l L).y ∧ N.w = L.w ∧
        N.h = L.h ∧ N.gen = L.gen ∧ N.loans = (pressLease ms l L).loans) ∧
      ∀ n p, pressed s ms = [(n, p)] → s.patch n = some p → ∃ q, t.patch n = some q ∧ (q.x, q.y, q.loan) = pressPatch s ms n p := by
  have hn : ((pressed s ms).flatMap fun e => patchCores s e.1).find? (fun cid => readPoison (s.core cid)) = none :=
    List.find?_eq_none.2 fun cid hc => by
      obtain ⟨e, he, hc⟩ := List.mem_flatMap.1 hc
      exact List.find?_eq_none.1 (unpoisoned_of_stand hs he) cid hc
  obtain ⟨got, u, hg, hp, hd, one⟩ := doPress_eq ms hn ho
  refine ⟨_, exec_press hk hs, rfl, fun l L hL => ?_, fun n p h1 hnp => ?_⟩
  · have hg' := (foldl_endStop_ground (pressed s ms) (doPress ms (pressed s ms) s)).trans (hd ▸ pressDown_ground _ got _)
    obtain ⟨N, hN, e⟩ := press_lease ms hg hg' hL
    obtain ⟨hw, hh, hgen⟩ := pressLease_keeps ms l L
    exact ⟨N, hN, (congrArg Lease.x e :), (congrArg Lease.y e :), (congrArg Lease.w e :).trans hw, (congrArg Lease.h e :).trans hh,
      (congrArg Lease.gen e :).trans hgen, (congrArg Lease.loans e :)⟩
  · obtain ⟨o, imgs, hgot⟩ := one n p h1
    have hu : State.patch { u with leases := tmap (pressLease ms) u.leases } n = some p := (congrArg (tfind · n) hp).trans hnp
    have hq := pressDown_one_patch s.leases hu (pressPatch s ms n p) o imgs
    rw [← hgot, ← hd] at hq
    rw [h1] at hq ⊢
    exact ⟨_, endStop_patch hq, rfl⟩

end

/-! #### The world switch -/

section
variable {s : State} {a b : Nat}

/-- The functions after a switch in which nothing is restored (R353). -/
theorem vfLeft_switchIn_fn (hab : a ≠ b)
    (h : ∀ e ∈ s.patches, (s.lease e.2.lease).map (·.vf) = some b → e.2.st ≠ .evicted) :
    ∃ t, switchIn (s.vfLeft a) b = t ∧ t.patches = s.patches ∧ (t.fn a).out = true ∧ (t.fn b).out = false ∧
      (t.fn a).world = (s.fn a).snaps ∧ ((s.fn b).out = true → (t.fn b).snaps = (s.fn b).world) := by
  have hb : (s.vfLeft a).fn b = s.fn b := State.fn_modFn_other _ _ _ _ hab.symm
  have ha : ((s.vfLeft a).fn a) = { s.fn a with out := true, world := (s.fn a).snaps, snaps := [] } := State.fn_modFn_same _ _ _
  refine ⟨_, switchIn_no_evicted (s := s.vfLeft a) h, ?_⟩
  rw [hb]
  cases hout : (s.fn b).out
  · rw [if_neg Bool.false_ne_true, ha, hb, hout]
    exact ⟨rfl, rfl, rfl, rfl, nofun⟩
  · rw [if_pos rfl, State.vfEntered, State.fn_modFn_same, State.fn_modFn_other _ _ _ _ hab, ha, hb]
    exact ⟨rfl, rfl, rfl, rfl, fun _ => rfl⟩

end

section
variable {s : State} {a b : Nat}
  (hab : a ≠ b) (hb : (s.fn a).busy = false) (ho : (s.fn a).out = false)
  (hr : storeRoom s ((vfStops s a).map (·.2)) = true) (hs : Stand s (.worldSwitch a b) (vfStops s a))
include hab hb ho hr hs

theorem exec_worldSwitch :
    exec (.worldSwitch a b) s = .next ((vfStops s a).foldl (fun s e => endStop s e.1)
      (if ((switchOut s a).fn a).out then switchIn (switchOut s a) b else switchOut s a)) := by
  show execWorldSwitch a b s = _
  simp only [execWorldSwitch, hab, hb, ho, hr, placerStep_stand hs]
  rfl

theorem exec_worldSwitch_empty (hp : s.patches = []) :
    ∃ t, exec (.worldSwitch a b) s = .next t ∧ (t.fn a).out = true ∧ (t.fn b).out = false ∧
      (t.fn a).world = (s.fn a).snaps ∧ ((s.fn b).out = true → (t.fn b).snaps = (s.fn b).world) := by
  have none : vfStops s a = [] := by simp [vfStops, vfPatches, hp]
  have left : ((s.vfLeft a).fn a).out = true := by rw [State.vfLeft, State.fn_modFn_same]
  obtain ⟨t, ht, -, hfn⟩ := vfLeft_switchIn_fn hab (s := s) (by simp [hp])
  refine ⟨t, ?_, hfn⟩
  rw [exec_worldSwitch hab hb ho hr hs, none, switchOut_empty hp, left, if_pos rfl, ht]
  rfl

theorem exec_worldSwitch_one {n : Nat} {p : Patch} (h1 : vfStops s a = [(n, p)]) (hp : s.patches = [(n, p)]) :
    ∃ t q, exec (.worldSwitch a b) s = .next t ∧ (t.fn a).out = true ∧ (t.fn b).out = false ∧ t.patch n = some q ∧ q.st = .evicted := by
  have mem : (n, p) ∈ vfStops s a := h1 ▸ List.mem_cons_self
  have hn := unpoisoned_of_stand hs mem
  have hr1 : storeRoom s [p] = true := by simpa [h1] using hr
  have vf : (s.lease p.lease).map (·.vf) = some a := by
    have := (List.mem_filter.1 (List.mem_filter.1 mem).1).2
    simp only [Bool.and_eq_true, decide_eq_true_eq] at this
    exact this.1
  obtain ⟨q, hq, hql, hqs⟩ : ∃ q, (evictPatch s n p false).patches = [(n, q)] ∧ q.lease = p.lease ∧ q.st = .evicted := by
    obtain ⟨r, l, hseq⟩ := p.readSeq_eq (readAll (stopForPlacer s n) n)
    refine ⟨p.evict (readAll (stopForPlacer s n) n) false, ?_, ?_, rfl⟩
    · rw [evictPatch_patches hn hr1, hp]
      simp [tmap]
    · rw [Patch.evict, hseq]
  have vf' : ((evictPatch s n p false).lease q.lease).map (·.vf) = some a := by
    have e := congrArg (fun g => (Ground.leases g q.lease).map Lease.vf) (takenOff_ground s n p)
    simp only [State.ground, Option.map_map, ← evictPatch_lease hn hr1 false] at e
    rw [← vf, ← hql]
    exact e
  obtain ⟨t, ht, htp, hfa, hfb, -⟩ := vfLeft_switchIn_fn hab (s := evictPatch s n p false) (by
    intro e he hv
    rw [hq, List.mem_singleton] at he
    rw [he, vf'] at hv
    exact absurd (Option.some.inj hv) hab)
  have left : (((evictPatch s n p false).vfLeft a).fn a).out = true := by rw [State.vfLeft, State.fn_modFn_same]
  have htn : t.patch n = some q := by simp [State.patch, htp, hq, tfind]
  have fns := fn_eq_of_ground (endStop_ground t n)
  refine ⟨endStop t n, _, ?_, by rw [fns, hfa], by rw [fns, hfb], endStop_patch htn, hqs⟩
  rw [exec_worldSwitch hab hb ho hr hs, switchOut_one h1 hp hn hr1, left, if_pos rfl, ht, h1]
  rfl

end

/-! #### Darning and withdrawal -/

section
variable {s : State} {cl pos f cid n : Nat} {p : Patch}

theorem onCore_some (h : patchOn s cid = some (n, p)) : onCore s cid = [(n, p)] := by rw [onCore, h]; rfl
theorem onCore_none (h : patchOn s cid = none) : onCore s cid = [] := by rw [onCore, h]; rfl

/-- A position that failed and whose core holds no victim is acted on. -/
theorem failedAt_filter (hf : failedAt s cl pos = some f) (hv : tfind s.victims (coreAt s cl pos) = none) :
    ((failedAt s cl pos).filter fun _ => (tfind s.victims (coreAt s cl pos)).isNone) = some f := by
  rw [hf, hv]
  rfl

/-- A position that failed, when its darning core is free and no other comes first. -/
theorem exec_darn_darns (hf : failedAt s cl pos = some f) (hv : tfind s.victims (coreAt s cl pos) = none) (hd : darns s cl pos f = true)
    (hw : ∀ e ∈ onCore s (coreAt s cl pos), partsWait s e.2.lease e.2.obj e.2.hdr = false) : exec (.darn cl pos) s =
      .next (placerStep s (eventKey (.darn cl pos)) (onCore s (coreAt s cl pos)) fun t => darnPos t cl pos (coreAt s cl pos)) := by
  have ready : ((onCore s (coreAt s cl pos)).any fun e => partsWait s e.2.lease e.2.obj e.2.hdr) = false :=
    List.any_eq_false.2 fun e he => by rw [hw e he]; exact Bool.false_ne_true
  show execDarn cl pos s = _
  simp only [execDarn, failedAt_filter hf hv, hd, ready, if_true, Bool.false_eq_true, if_false]

/-- A position that failed and is not darned. -/
theorem exec_darn_withdraws (hf : failedAt s cl pos = some f) (hv : tfind s.victims (coreAt s cl pos) = none) (hd : darns s cl pos f = false)
    (hr : storeRoom s ((onCore s (coreAt s cl pos)).map (·.2)) = true) : exec (.darn cl pos) s =
      .next (placerStep s (eventKey (.darn cl pos)) (onCore s (coreAt s cl pos)) fun t => withdraw t (coreAt s cl pos)) := by
  show execDarn cl pos s = _
  simp only [execDarn, failedAt_filter hf hv, hd, hr, if_true, Bool.false_eq_true, if_false]

section
variable (hf : failedAt s cl pos = some f) (hcid : cid = coreAt s cl pos) (hv : tfind s.victims cid = none)
include hf hcid hv

theorem exec_darn_patch {o : KObj} (hd : darns s cl pos f = true) (hp : patchOn s cid = some (n, p)) (hw : partsWait s p.lease p.obj p.hdr = false)
    (hn : readPoison (s.core cid) = false) (hs : Stand s (.darn cl pos) [(n, p)])
    (hr : reload (stopForPlacer s n) p.lease p.obj p.hdr = .ok o) :
    ∃ t, exec (.darn cl pos) s = .next t ∧ (t.cluster cl).darned = some pos ∧ (t.core (3072 + cl)).patch = some n ∧
      (t.core (3072 + cl)).px = (s.core cid).px ∧ (t.core (3072 + cl)).py = (s.core cid).py := by
  subst hcid
  obtain ⟨hdarn, hpatch, hpx, hpy⟩ := darnPos_patch hp hn hr (cl := cl) (pos := pos)
  have place := endStop_place (darnPos s cl pos (coreAt s cl pos)) n (3072 + cl)
  refine ⟨endStop (darnPos s cl pos (coreAt s cl pos)) n, ?_, (darned_eq_of_ground (endStop_ground _ _) cl).trans hdarn,
    (congrArg (·.1) place).trans hpatch, (congrArg (·.2.1) place).trans hpx, (congrArg (·.2.2.1) place).trans hpy⟩
  rw [exec_darn_darns hf hv hd (by simpa [onCore_some hp] using hw), onCore_some hp, placerStep_stand hs]
  rfl

theorem exec_darn_empty (hd : darns s cl pos f = true) (hp : patchOn s cid = none) :
    ∃ t, exec (.darn cl pos) s = .next t ∧ (t.cluster cl).darned = some pos ∧
    coreAt t cl pos = 3072 + cl ∧ t.core (3072 + cl) = rinsedCore (s.core (3072 + cl)) := by
  subst hcid
  have hdarn : ((darnPos s cl pos (coreAt s cl pos)).cluster cl).darned = some pos := by
    rw [darnPos_empty hp, State.setCore_cluster, State.cluster_modCluster_same]
  refine ⟨_, ?_, hdarn, coreAt_darned hdarn, ?_⟩
  · rw [exec_darn_darns hf hv hd (by simp [onCore_none hp]), onCore_none hp, placerStep_stand (fun _ he => absurd he List.not_mem_nil)]
    rfl
  · rw [darnPos_empty hp, State.core_setCore_same]

theorem exec_darn_withdraws_patch (hd : darns s cl pos f = false) (hp : patchOn s cid = some (n, p))
    (hr : storeRoom s [p] = true) (hs : Stand s (.darn cl pos) [(n, p)]) :
    ∃ t, exec (.darn cl pos) s = .next t ∧ (t.core cid).withdrawn = true := by
  subst hcid
  refine ⟨endStop (withdraw s (coreAt s cl pos)) n, ?_, (withdrawn_eq_of_ground (endStop_ground _ _) _).trans
    (withdraw_withdrawn hp (unpoisoned_of_stand hs List.mem_cons_self) hr)⟩
  rw [exec_darn_withdraws hf hv hd (by rw [onCore_some hp]; exact hr), onCore_some hp, placerStep_stand hs]
  rfl

theorem exec_darn_withdraws_empty (hd : darns s cl pos f = false) (hp : patchOn s cid = none) (hr : storeRoom s [] = true) :
    ∃ t, exec (.darn cl pos) s = .next t ∧ (t.core cid).withdrawn = true ∧ (t.core cid).replays = [] ∧
      (t.cluster cl).darned = (s.cluster cl).darned := by
  subst hcid
  obtain ⟨m, e, hl⟩ := losePos_eq s (coreAt s cl pos) 0
  refine ⟨losePos s (coreAt s cl pos) 0, ?_, by rw [losePos_core_same], by rw [losePos_core_same], by rw [hl]; rfl⟩
  rw [exec_darn_withdraws hf hv hd (by rw [onCore_none hp]; exact hr), onCore_none hp,
    placerStep_stand (fun _ he => absurd he List.not_mem_nil)]
  simp only [List.foldl_nil, withdraw, hp]

end

theorem exec_darn_sound (hf : failedAt s cl pos = none) : exec (.darn cl pos) s = .next s := by
  show execDarn cl pos s = _
  simp only [execDarn, hf, Option.filter_none]

end

/-! #### Failing strip cores -/

section
variable {s : State} {y q : Nat}

/-- A darning core on which nothing stands is withdrawn, unless it has been before; nothing else that the strip reads changes. -/
theorem withdraw_spare {cid : Nat} (hp : patchOn s cid = none) :
    ∃ t, (if (s.core cid).withdrawn then s else withdraw s cid) = t ∧ (t.core cid).withdrawn = true ∧
      t.stripDarned = s.stripDarned ∧ t.stopped = s.stopped := by
  cases hw : (s.core cid).withdrawn
  · obtain ⟨m, e, hl⟩ := losePos_eq s cid 0
    refine ⟨losePos s cid 0, ?_, by rw [losePos_core_same], by rw [hl]; rfl, by rw [hl]; rfl⟩
    simp only [withdraw, hp, Bool.false_eq_true, if_false]
  · exact ⟨s, if_pos rfl, hw, rfl, rfl⟩

section
variable (hd : s.stripDown.contains y = false) (ht : s.stopped = false)
include hd ht

theorem exec_stripCoreFailure_free (hn : (s.cluster (16 * (y / 4))).darned = none) : ∃ t, exec (.stripCoreFailure y) s = .next t ∧
    (t.cluster (16 * (y / 4))).darned = some (4 * (y % 4)) ∧ t.stripDarned = s.stripDarned ++ [y] ∧ t.stopped = false := by
  obtain ⟨hc, hs, hst, -⟩ := stripTakes_eq s y
  refine ⟨stripTakes s y, ?_, hc, hs, hst.trans ht⟩
  show execStripCoreFailure y s = _
  simp only [execStripCoreFailure, hd, ht, hn, Bool.false_eq_true, or_self, if_false]

theorem exec_stripCoreFailure_leased (hn : (s.cluster (16 * (y / 4))).darned = some q) (hp : stripPos (16 * (y / 4)) q = false) (hy : y < 24) (hq : q < 16)
    (hv : tfind s.victims (3072 + 16 * (y / 4)) = none) (hr : storeRoom s [] = true) (he : patchOn s (3072 + 16 * (y / 4)) = none) :
    ∃ t, exec (.stripCoreFailure y) s = .next t ∧ (t.cluster (16 * (y / 4))).darned = some (4 * (y % 4)) ∧
      t.stripDarned = s.stripDarned ++ [y] ∧ (t.core (coreAt t (16 * (y / 4)) q)).withdrawn = true ∧ t.stopped = false := by
  obtain ⟨u, hu, hw, hsd, hst⟩ := withdraw_spare he
  obtain ⟨hc, hs, hstop, -⟩ := stripTakes_eq (yieldSpare u (16 * (y / 4)) q) y
  refine ⟨stripTakes (yieldSpare u (16 * (y / 4)) q) y, ?_, hc, hs.trans (congrArg (· ++ [y]) hsd), stripTakes_yieldSpare u hp hy hq,
    hstop.trans (hst.trans ht)⟩
  show execStripCoreFailure y s = _
  simp only [execStripCoreFailure, hd, ht, hn, hp, hv, onCore_none he, List.map_nil, hr,
    placerStep_stand (s := s) (ps := []) (fun _ he => absurd he List.not_mem_nil), hu, hw]
  rfl

theorem exec_stripCoreFailure_down (hn : (s.cluster (16 * (y / 4))).darned = some q) (hp : stripPos (16 * (y / 4)) q = true) :
    ∃ t, exec (.stripCoreFailure y) s = .next t ∧ t.stripDown = s.stripDown ++ [y] ∧ (t.stopped = true ↔ 2 ≤ s.stripDown.length) := by
  obtain ⟨down, stop⟩ := Prod.mk.inj (stripLost_strip s y)
  have he : exec (.stripCoreFailure y) s = .next (if 3 ≤ (stripLost s y).stripDown.length
      then abortAll { stripLost s y with stopped := true } else stripLost s y) := by
    show execStripCoreFailure y s = _
    unfold execStripCoreFailure
    dsimp only
    rw [if_neg (by rw [hd, ht]; simp), hn]
    dsimp only
    rw [hp]
    rfl
  refine ⟨_, he, ?_⟩
  split
  · next h3 =>
    obtain ⟨down', stop'⟩ := Prod.mk.inj (abortAll_strip { stripLost s y with stopped := true })
    rw [down] at h3
    exact ⟨down'.trans down, iff_of_true stop' (by simpa using h3)⟩
  · next h3 =>
    rw [down] at h3
    exact ⟨down, iff_of_false (by rw [stop, ht]; exact Bool.false_ne_true) (by simpa using h3)⟩

end

end

/-- Settles O34: each operation is its own function's case, and what it leaves of the patches, their cores, the leases, the functions and
the eviction store follows from the layout that stopping, counting, tracing and recording keep. -/
theorem placerOperations : Obligations.PlacerOperations := by
  unfold Obligations.PlacerOperations
  refine ⟨fun s pt p hp => ⟨fun L x y o hL hg ho hw hs hr => exec_move_standing hp hL hg ho hw hs hr,
      fun L x y hL hg ho hw hb hst hh hl hn hc => exec_move_begins hp hL hg ho hw hb hst hh hl hn hc,
      exec_evict_standing hp,
      fun L x y o hL hst hd hg hv ho hw hb hr => exec_restore_evicted hp hL hst hd hg hv ho hw hb hr,
      fun n g hst hd hc hf hg hn => exec_preemptResume_frozen hp hst hd hc hf hg hn,
      exec_preemptResume_free hp⟩,
    fun s ms => exec_press_standing,
    fun s a b hab hb ho hr hs => ⟨⟨_, exec_worldSwitch hab hb ho hr hs, rfl⟩, exec_worldSwitch_empty hab hb ho hr hs,
      fun n p => exec_worldSwitch_one hab hb ho hr hs⟩,
    fun s cl pos f cid hf hcid hv => ⟨fun n p o hd hp hw hn hs hr => exec_darn_patch hf hcid hv hd hp hw hn hs hr,
      exec_darn_empty hf hcid hv, fun n p => exec_darn_withdraws_patch hf hcid hv, exec_darn_withdraws_empty hf hcid hv⟩,
    fun s cl pos => exec_darn_sound,
    fun s y hd ht => ⟨exec_stripCoreFailure_free hd ht, fun q => exec_stripCoreFailure_leased hd ht, fun q => exec_stripCoreFailure_down hd ht⟩⟩

end Sys2Proof.Proofs

/-! ### Instruction words (R41 to R61) -/

namespace Sys2Proof.Laws

/-- A class B row of the opcode map (R43, R57 to R59): its OPC, and what the parser and the encoder make of XOP as an element code and of I
and IMM as operand B. The rows that follow are read off the two tables. -/
structure ClassB {E : Type} (bits : E → BitVec 5) (code : BitVec 5 → Option E) (o : BitVec 8)
    (row : Head → E → Option (BitVec 32) → Instr) : Prop where
  known : opcKnown o.toNat = true := by rfl
  parses : ∀ i x imm, parse o.toNat i x imm = (do let e ← code x; let b ← bArg i imm; some fun h => row h e b) := by intros; rfl
  word : ∀ h e b, (row h e b).isWord = true := by intros; rfl
  encodes : ∀ h e b, encode (row h e b) = mk o (bI b) (bits e) h (bImm b) := by intros; rfl

/-- The word of a class B instruction decodes to it, where its element code reads back from its bits. -/
theorem ClassB.statement {E : Type} {bits : E → BitVec 5} {code : BitVec 5 → Option E} {o : BitVec 8}
    {row : Head → E → Option (BitVec 32) → Instr} (R : ClassB bits code o row) (codes : ∀ e, code (bits e) = some e) (h : Head) (e : E)
    (b : Option (BitVec 32)) : Words.Statement (row h e b) := by
  refine ⟨?_, fun w he hw => ?_⟩
  · rw [R.encodes, R.word]
    rfl
  · rw [R.encodes] at he
    exact decode_mk (f := fun h => row h e b) he R.known (by simp [R.parses, codes]) hw

theorem intRow (o : BitVec 8) {row : Head → IntEC → Option (BitVec 32) → Instr} (R : ClassB intBits5 xInt o row) (h : Head) (ec : IntEC)
    (b : Option (BitVec 32)) : Words.Statement (row h ec b) := R.statement xInt_bits h ec b

theorem fltRow (o : BitVec 8) {row : Head → FltEC → Option (BitVec 32) → Instr} (R : ClassB fltBits5 xFlt o row) (h : Head) (ec : FltEC)
    (b : Option (BitVec 32)) : Words.Statement (row h ec b) := R.statement xFlt_bits h ec b

/-- `test` lays its width code over OPC and XOP (R57). -/
theorem statement_test (h : Head) (c : Cond) (w : IntW) (b : Option (BitVec 32)) : Words.Statement (.test h c w b) := by
  have width : ∀ i imm, parse (3#6 ++ (intWBits w).extractLsb' 1 2).toNat i ((intWBits w).extractLsb' 0 1 ++ condBits c) imm =
      (do let b ← bArg i imm; some fun h => .test h c w b) := fun _ _ => by cases w <;> cases c <;> rfl
  refine ⟨rfl, fun _ he hw => decode_mk (f := fun h => .test h c w b) he ?_ ?_ hw⟩
  · cases w <;> rfl
  · rw [width, bArg_bits]
    rfl

end Sys2Proof.Laws

namespace Sys2Proof.Proofs

open Sys2Proof.Laws

/-- Settles O59: constructor by constructor, in the order of their declaration; the rows of class B with their OPC. -/
theorem encodeDecode : Obligations.EncodeDecode := by
  unfold Obligations.EncodeDecode
  intro i
  cases i
  exacts [
    Words.packetWrite .., Words.resume .., Words.chead .., Words.registerWrite .., Words.ingest .., Words.move .., Words.press ..,
    Words.evict .., Words.restore .., Words.rinse .., Words.rinseDone .., Words.darn .., Words.stripCoreFailure ..,
    Words.misrouteReportTimer .., Words.pleatHandshakeStep .., Words.contextRequest .., Words.contextTransition .., Words.taskStart ..,
    Words.tspawnRequest .., Words.issueGrant .., Words.weightRecompute .., Words.blockFetch .., Words.blockCommit ..,
    Words.pinnedInstanceStart .., Words.flitArrival .., Words.steer .., Words.merge .., Words.carry .., Words.reorder ..,
    Words.spillStart .., Words.spillReturn .., Words.stallReport .., Words.tlbWalk .., Words.genReply .., Words.copyWalk ..,
    Words.mangleRunStart .., Words.mangleTile .., Words.mangleSwapEffect .., Words.mangleFenceEffect .., Words.mloadFill ..,
    Words.undoStallTimeout .., Words.patrolSweep .., Words.sealMark .., Words.faultStop .., Words.residueMismatch ..,
    Words.preemptResume .., Words.worldSwitch .., Words.peerFlitArrival .., Words.peerPortDown .., Words.hostWindowWrite ..,
    Words.hostWindowRead .., Words.snapshotLoRead .., Words.snapshotHiRead .., Words.meterWindow .., Words.eventRingEn ..,
    Words.eventRingHead .., Words.injectControl .., Words.throttle .., Words.throttleRecover .., Words.peerPortRecover ..,
    Words.functionLevelReset .., Words.numvfs .., Words.serialisingToken .., Words.uncorrectableError .., Words.exitB ..,
    Words.exitJ .., Words.exitC .., Words.exitCi .., Words.exitRet .., Words.exitT .., Words.exitY .., Words.nullw .., Words.nulls ..,
    Words.movi .., Words.movh .., Words.mov .., Words.getid .., Words.constk .., Words.pand .., Words.por .., Words.pxor ..,
    Words.pnot .., Words.sel .., Words.lmask .., Words.anyl .., Words.alll .., statement_test .., intRow 0x10 {} .., intRow 0x11 {} ..,
    intRow 0x12 {} .., intRow 0x13 {} .., intRow 0x14 {} .., intRow 0x15 {} .., intRow 0x16 {} .., intRow 0x17 {} .., intRow 0x18 {} ..,
    intRow 0x19 {} .., intRow 0x1A {} .., intRow 0x1B {} .., intRow 0x1C {} .., intRow 0x1D {} .., intRow 0x1E {} .., intRow 0x1F {} ..,
    intRow 0x20 {} .., intRow 0x21 {} .., intRow 0x22 {} .., intRow 0x23 {} .., intRow 0x24 {} .., Words.clz .., Words.ctz ..,
    Words.popc .., Words.brev .., Words.bswap .., intRow 0x2A {} .., intRow 0x2B {} .., intRow 0x2C {} .., intRow 0x2D {} ..,
    intRow 0x2E {} .., intRow 0x2F {} .., intRow 0x30 {} .., Words.abs .., Words.neg .., intRow 0x33 {} .., fltRow 0x40 {} ..,
    fltRow 0x41 {} .., fltRow 0x42 {} .., fltRow 0x43 {} .., fltRow 0x44 {} .., fltRow 0x45 {} .., fltRow 0x46 {} .., fltRow 0x47 {} ..,
    Words.fabs .., Words.fneg .., fltRow 0x4A {} .., Words.ftest .., Words.fclass .., Words.fcvt .., Words.icvtf .., Words.fcvti ..,
    Words.frcp .., Words.frsq .., Words.fsqrt .., fltRow 0x53 {} .., Words.fexp2 .., Words.flog2 .., Words.fsinp .., Words.fcosp ..,
    Words.ftanh .., Words.dot .., Words.pack .., Words.unpack .., Words.scaleb .., Words.quant .., Words.perm .., Words.rotl ..,
    Words.shfl .., Words.bcastl .., Words.redl .., Words.scanl .., Words.compr .., Words.expnd .., Words.lsel .., Words.iota ..,
    Words.accs .., Words.stopk .., Words.tkind .., Words.redn .., Words.lds .., Words.sts .., Words.ldt .., Words.stt .., Words.ldg ..,
    Words.stg .., Words.ldgv .., Words.stgv .., Words.prf .., Words.ldn .., Words.stn .., Words.atms .., Words.atmg .., Words.atmn ..,
    Words.cctlWb .., Words.cctlInv .., Words.cctlWbinv .., Words.cctlWball .., Words.cctlInvall .., Words.cpy .., Words.cpyqf ..,
    Words.tagw .., Words.tagff .., Words.tagclr .., Words.tagrd .., Words.mload .., Words.mswap .., Words.marm .., Words.mfence ..,
    Words.mwait .., Words.mchk .., Words.mzero .., Words.pleat .., Words.pleatw .., Words.pleatq .., Words.occ .., Words.swm ..,
    Words.rinr .., Words.sealpt .., Words.sealw .., Words.sealrqNowait .., Words.sealrqWait .., Words.stx .., Words.stxIrr ..,
    Words.escw .., Words.fenceAcq .., Words.fenceRel .., Words.fenceBoth .., Words.fenceSc .., Words.arrive .., Words.waitb ..,
    Words.bar .., Words.waitm .., Words.send .., Words.recv .., Words.bind .., Words.waitc .., Words.tspawn .., Words.tstat ..,
    Words.qpost .., Words.constw .., Words.markt .., Words.trap .., Words.brk .., Words.csrr .., Words.csrw .., Words.svcHemlint ..,
    Words.svcStalelint .., Words.svcRollbacks .., Words.svcIdent .., Words.svcNotify .., Words.svcReserved .., Words.rdcyc ..,
    Words.rdtime .., Words.nop .., Words.validate, Words.depend, Words.dependenceReread, Words.place, Words.priorityAging, Words.fill,
    Words.launchStage, Words.complete, Words.launch, Words.wait, Words.signal, Words.copy, Words.sealrq, Words.leaseRequest,
    Words.leaseResize, Words.leaseLend, Words.leaseRecall, Words.leaseRelease, Words.marker, Words.placerPlace, Words.map, Words.unmap,
    Words.protect, Words.migrate, Words.debug, Words.dresume, Words.profopen, Words.profclose, Words.peerbind, Words.peerunbind,
    Words.window, Words.faults, Words.report, Words.attest, Words.qconf, Words.vfconf, Words.pair, Words.lmigrate, Words.domain,
    Words.dremove, Words.owner, Words.pwrcap, Words.advance, Words.ready, Words.sealed, Words.sealRequest, Words.poison, Words.rollback,
    Words.rolled, Words.meterReset, Words.keyroll, Words.firmwareTransfer, Words.firmwareActivate, Words.coldReset, Words.intervalTimer,
    Words.sealLate]

/-- Settles O58: each of the sixteen words is decoded. -/
theorem decodeWords : Obligations.DecodeWords := by
  unfold Obligations.DecodeWords
  refine ⟨rfl, rfl, rfl, rfl, rfl, rfl, rfl, rfl, rfl, rfl, rfl, rfl, rfl, rfl, rfl, rfl⟩

end Sys2Proof.Proofs

/-! ### What a slot finds (R45, R172, R173) -/

namespace Sys2Proof.Machine

open Sys2Proof.Safety Sys2Proof.Laws

/-- Every instruction that has a word is issued; its own effect is the body. -/
theorem exec_eq_issue {i : Instr} {h : Head} (hh : headOf i = some h) : ∃ body, ∀ s, exec i s = issue i s body := by
  cases i <;> cases hh <;> exact ⟨_, fun _ => rfl⟩

/-- An instruction that may fire has the effect of its body. -/
theorem exec_firing {i : Instr} {s : State} {h : Head} {e : Env} {v : Vals} (F : Firing i s h e v)
    {body : Head → Env → Vals → State → State} (hb : ∀ s, exec i s = issue i s body) : exec i s = .next (body h e v s) :=
  (hb s).trans (issue_firing F body)

section
variable {pm : Pm} {p : Option Opnd}

theorem predOf_missing (hpm : pm ≠ .always) : predOf pm none = none := by
  cases pm with
  | always => exact absurd rfl hpm
  | onTrue | onFalse => rfl

theorem predOf_null (hpm : pm ≠ .always) : predOf pm (some .null) = some none := by
  cases pm with
  | always => exact absurd rfl hpm
  | onTrue | onFalse => rfl

theorem predOf_mismatch {v : Value} (h : pm = .onTrue ∧ v.getLsbD 0 = false ∨ pm = .onFalse ∧ v.getLsbD 0 = true) :
    predOf pm (some (.val v)) = some (some false) := by
  rcases h with ⟨rfl, hv⟩ | ⟨rfl, hv⟩
  · simp only [predOf, predTrue, hv]
    rfl
  · simp only [predOf, predTrue, hv]
    rfl

theorem predOf_match (h : pm = .always ∨ ∃ v, p = some (.val v) ∧ (pm = .onTrue ∧ v.getLsbD 0 = true ∨ pm = .onFalse ∧ v.getLsbD 0 = false)) :
    predOf pm p = some (some true) := by
  rcases h with rfl | ⟨v, rfl, ⟨rfl, hv⟩ | ⟨rfl, hv⟩⟩
  · rfl
  · simp only [predOf, predTrue, hv]
    rfl
  · simp only [predOf, predTrue, hv]
    rfl

end

section
variable {pm : Pm} {needs : Bool × Bool × Bool} {ss : SlotSt}

/-- One of the operands that the slot takes is `o`. -/
def Takes (needs : Bool × Bool × Bool) (ss : SlotSt) (o : Option Opnd) : Prop :=
  needs.1 = true ∧ ss.a = o ∨ needs.2.1 = true ∧ ss.b = o ∨ needs.2.2 = true ∧ ss.c = o

theorem verdict_noPred (hp : predOf pm ss.p = none) : verdict pm needs ss = .wait := by
  simp only [verdict, hp, ite_self]

theorem verdict_predNull (hph : ss.ph = .idle) (hp : predOf pm ss.p = some none) : verdict pm needs ss = .null := by
  simp [verdict, hph, hp]

theorem verdict_predFalse (hph : ss.ph = .idle) (hp : predOf pm ss.p = some (some false)) : verdict pm needs ss = .dead := by
  simp [verdict, hph, hp]

/-- The operands that a slot takes, as `verdict` gathers them. -/
theorem mem_takes (needs : Bool × Bool × Bool) (ss : SlotSt) (o : Option Opnd) : ((if needs.1 then [ss.a] else []) ++ (if needs.2.1 then [ss.b] else []) ++
    (if needs.2.2 then [ss.c] else [])).contains o = true ↔ Takes needs ss o := by
  obtain ⟨a, b, c⟩ := needs
  cases a <;> cases b <;> cases c <;> simp [Takes, @eq_comm _ o]

theorem verdict_operandNull (hph : ss.ph = .idle) (hp : predOf pm ss.p = some (some true)) (h : Takes needs ss (some .null)) :
    verdict pm needs ss = .null := by
  simp only [verdict, hph, hp, (mem_takes _ _ _).2 h, ne_eq, not_true_eq_false, if_false, if_true]

theorem verdict_operandMissing (hp : predOf pm ss.p = some (some true)) (hn : ¬ Takes needs ss (some .null)) (h : Takes needs ss none) :
    verdict pm needs ss = .wait := by
  simp only [verdict, hp, (mem_takes _ _ _).2 h, mt (mem_takes _ _ _).1 hn, if_true, Bool.false_eq_true, if_false, ite_self]

end

end Sys2Proof.Machine

namespace Sys2Proof.Proofs

open Sys2Proof.Machine Sys2Proof.Laws

/-- Settles O51: every instruction is issued, and `issue` acts on what the slot finds. -/
theorem firingRules : Obligations.FiringRules := by
  unfold Obligations.FiringRules
  intro i s h e he hh hph
  obtain ⟨body, hb⟩ := exec_eq_issue hh
  rw [hb]
  refine ⟨fun hpm hp => ?_, fun hpm hp => ?_, fun v hp hv => ?_, fun hp null => ?_, fun missing hpm ha hb hc => ?_⟩
  · exact issue_wait he hh (verdict_noPred (hp ▸ predOf_missing hpm)) body
  · exact issue_null he hh (verdict_predNull hph (hp ▸ predOf_null hpm)) body
  · exact issue_dead he hh (verdict_predFalse hph (hp ▸ predOf_mismatch hv)) body
  · exact issue_null he hh (verdict_operandNull hph (predOf_match hp) null) body
  · refine issue_wait he hh (verdict_operandMissing (predOf_match (.inl hpm)) ?_ missing) body
    rintro (⟨-, h⟩ | ⟨-, h⟩ | ⟨-, h⟩)
    exacts [ha h, hb h, hc h]

end Sys2Proof.Proofs

/-! ### Results and their frame (R44, R46, R151) -/

namespace Sys2Proof.Machine

open Sys2Proof.Safety Sys2Proof.Laws

/-! #### Deliveries -/

theorem lmod_eq_modify {α : Type} (l : List α) (i : Nat) (f : α → α) : lmod l i f = l.modify i f := by
  induction l generalizing i with
  | nil => cases i <;> rfl
  | cons x xs ih =>
    cases i with
    | zero => rfl
    | succ i => simp [lmod, ih]

theorem getD_lmod_same {α : Type} {l : List α} {i : Nat} (hi : i < l.length) (f : α → α) (d : α) :
    (lmod l i f).getD i d = f (l.getD i d) := by
  simp [lmod_eq_modify, List.getD_eq_getElem?_getD, hi]

theorem getD_lmod_other {α : Type} (l : List α) {i n : Nat} (h : n ≠ i) (f : α → α) (d : α) : (lmod l i f).getD n d = l.getD n d := by
  simp [lmod_eq_modify, List.getD_eq_getElem?_getD, Ne.symm h]

@[simp] theorem length_lmod {α : Type} (l : List α) (i : Nat) (f : α → α) : (lmod l i f).length = l.length := by
  simp [lmod_eq_modify]

/-- Slot `n` of a block as a delivery to a target leaves it. -/
def SlotSt.take (q : SlotSt) (n : Nat) (t : Target) (o : Opnd) : SlotSt :=
  match t with
  | .opA m => if n = m.toNat then { q with a := putOpnd q.a o } else q
  | .opB m => if n = m.toNat then { q with b := putOpnd q.b o } else q
  | .opC m => if n = m.toNat then { q with c := putOpnd q.c o } else q
  | .pred m => if n = m.toNat then { q with p := putOpnd q.p o } else q
  | _ => q

/-- A change of slot `m` as slot `n` sees it. -/
theorem getD_lmod {l : List SlotSt} {n : Nat} (hn : n < l.length) (m : Nat) (f : SlotSt → SlotSt) :
    (lmod l m f).getD n {} = if n = m then f (l.getD n {}) else l.getD n {} := by
  split
  · next h => exact h ▸ getD_lmod_same hn f {}
  · next h => exact getD_lmod_other l h f {}

@[simp] theorem length_slots_deliver (x : Inst) (j : Nat) (t : Target) (o : Opnd) : (x.deliver j t o).slots.length = x.slots.length := by
  cases t with
  | none | write | out => rfl
  | opA | opB | opC | pred => exact length_lmod _ _ _

theorem slots_deliver (x : Inst) (j : Nat) (t : Target) (o : Opnd) {n : Nat} (hn : n < x.slots.length) :
    (x.deliver j t o).slots.getD n {} = (x.slots.getD n {}).take n t o := by
  cases t with
  | none | write | out => rfl
  | opA m | opB m | opC m | pred m => exact getD_lmod hn m.toNat _

/-- A slot of a block that fires, by what the two deliveries bring it. -/
theorem slots_fire_other (x : Inst) {j n : Nat} (hj : n ≠ j) (hn : n < x.slots.length) (h : Head) (o p : Opnd) :
    (x.fire j h (some o) (some p)).slots.getD n {} = ((x.slots.getD n {}).take n h.t0 o).take n h.t1 p := by
  have fired : (x.modSlot j fun s => { s with ph := .fired }).slots.getD n {} = x.slots.getD n {} := getD_lmod_other _ hj _ _
  have hn' : n < (x.modSlot j fun s => { s with ph := .fired }).slots.length := by simpa [Inst.modSlot] using hn
  exact (slots_deliver _ j h.t1 p (by simpa using hn')).trans (congrArg (·.take n h.t1 p) ((slots_deliver _ j h.t0 o hn').trans (by rw [fired])))

section
variable (q : SlotSt) (n : Nat) (t : Target) (o : Opnd)

/-- An operand that is there stays (R46). -/
theorem SlotSt.take_keeps : (∀ v, q.a = some v → (q.take n t o).a = some v) ∧ (∀ v, q.b = some v → (q.take n t o).b = some v) ∧
    (∀ v, q.c = some v → (q.take n t o).c = some v) ∧ ∀ v, q.p = some v → (q.take n t o).p = some v := by
  cases t with
  | none | write | out => exact ⟨fun _ => id, fun _ => id, fun _ => id, fun _ => id⟩
  | opA m | opB m | opC m | pred m => by_cases hm : n = m.toNat <;> simp +contextual [SlotSt.take, putOpnd, hm]

@[simp] theorem SlotSt.take_ph : (q.take n t o).ph = q.ph := by
  cases t with
  | none | write | out => rfl
  | opA m | opB m | opC m | pred m => exact ite_keeps SlotSt.ph rfl rfl

end

theorem SlotSt.take_a_other (q : SlotSt) (n : BitVec 5) {t : Target} (o : Opnd) (h : t ≠ .opA n) : (q.take n.toNat t o).a = q.a := by
  cases t with
  | none | write | out => rfl
  | opB m | opC m | pred m => exact ite_keeps SlotSt.a rfl rfl
  | opA m => exact congrArg SlotSt.a (if_neg fun e => h (congrArg Target.opA (BitVec.eq_of_toNat_eq e).symm))

section
variable (q : SlotSt) (n : BitVec 5) (o : Opnd)

/-! A delivery to an operand fills it where it is empty (R44). -/

theorem SlotSt.take_opA : (q.take n.toNat (.opA n) o).a = some (q.a.getD o) := congrArg SlotSt.a (if_pos rfl)
theorem SlotSt.take_opB : (q.take n.toNat (.opB n) o).b = some (q.b.getD o) := congrArg SlotSt.b (if_pos rfl)
theorem SlotSt.take_opC : (q.take n.toNat (.opC n) o).c = some (q.c.getD o) := congrArg SlotSt.c (if_pos rfl)
theorem SlotSt.take_pred : (q.take n.toNat (.pred n) o).p = some (q.p.getD o) := congrArg SlotSt.p (if_pos rfl)

end

/-- A second delivery is not forgotten (R46). -/
theorem twice_deliver (x : Inst) (j : Nat) (t : Target) (o : Opnd) (h : x.twice = true) : (x.deliver j t o).twice = true := by
  cases t with
  | none | out => exact h
  | opA | opB | opC | pred | write => simp [Inst.deliver, h]

theorem twice_fire (x : Inst) {j : Nat} {n : BitVec 5} (hj : n.toNat ≠ j) {h : Head} (o p : Opnd) (ht : h.t0 = .opA n)
    (ha : (x.slots.getD n.toNat {}).a ≠ none) : (x.fire j h (some o) (some p)).twice = true := by
  refine twice_deliver _ j h.t1 p ?_
  rw [ht]
  have there : (((x.modSlot j fun s => { s with ph := .fired }).slots.getD n.toNat {}).a).isSome = true :=
    (congrArg (fun q => (SlotSt.a q).isSome) (getD_lmod_other x.slots hj _ {})).trans (Option.isSome_iff_ne_none.2 ha)
  exact (congrArg (_ || ·) there).trans (Bool.or_true _)

/-! #### A block in flight as it goes on -/

/-- What no delivery and no settling of slots reaches: the block, and what it has captured. -/
def Inst.captured (x : Inst) : Nat × List IWord × List Capture × Option ExitAct := (x.id, x.code, x.caps, x.exit)

@[simp] theorem deliver_captured (x : Inst) (j : Nat) (t : Target) (o : Opnd) : (x.deliver j t o).captured = x.captured := by
  cases t <;> rfl

@[simp] theorem nullOut_captured (x : Inst) (j : Nat) (h : Head) : (x.nullOut j h).captured = x.captured :=
  (deliver_captured _ _ _ _).trans (deliver_captured _ _ _ _)

@[simp] theorem settle1_captured (pinned : Bool) (x : Inst) (j : Nat) : (x.settle1 pinned j).captured = x.captured := by
  unfold Inst.settle1
  split
  · rfl
  · split
    · rfl
    · split
      · rfl
      · exact nullOut_captured _ _ _
      · rfl

@[simp] theorem settle_captured (pinned : Bool) (x : Inst) : (x.settle pinned).captured = x.captured :=
  foldl_keeps Inst.captured (settle1_captured pinned) _ x

/-- The slot stands in its block and has fired. -/
def Inst.Fired (x : Inst) (j : Nat) : Prop := j < x.slots.length ∧ (x.slots.getD j {}).ph = .fired

theorem Inst.Fired.deliver {x : Inst} {j : Nat} (h : x.Fired j) (k : Nat) (t : Target) (o : Opnd) : (x.deliver k t o).Fired j := by
  obtain ⟨hj, hp⟩ := h
  refine ⟨by simpa using hj, ?_⟩
  rw [slots_deliver x k t o hj, SlotSt.take_ph, hp]

theorem Inst.Fired.modSlot_other {x : Inst} {j k : Nat} (h : x.Fired j) (hk : j ≠ k) (f : SlotSt → SlotSt) : (x.modSlot k f).Fired j :=
  ⟨by simpa [Inst.modSlot] using h.1, (congrArg SlotSt.ph (getD_lmod_other x.slots hk f {})).trans h.2⟩

/-- A slot that has fired is settled (R45, R173). -/
theorem Inst.Fired.settle1 {x : Inst} {j : Nat} (h : x.Fired j) (pinned : Bool) (k : Nat) : (x.settle1 pinned k).Fired j := by
  by_cases hk : j = k
  · subst hk
    have wait : ∀ pm needs, verdict pm needs (x.slots.getD j {}) = .wait := fun pm needs => if_pos (by rw [h.2]; decide)
    unfold Inst.settle1
    split
    · exact h
    · split
      · exact h
      · rw [wait]
        exact h
  · unfold Inst.settle1
    split
    · exact h
    · split
      · exact h
      · split
        · exact h.modSlot_other hk _
        · exact ((h.modSlot_other hk _).deliver _ _ _).deliver _ _ _
        · exact h

theorem Inst.Fired.settle {x : Inst} {j : Nat} (h : x.Fired j) (pinned : Bool) : (x.settle pinned).Fired j :=
  List.foldlRecOn (motive := (Inst.Fired · j)) _ _ h fun _ hb k _ => hb.settle1 pinned k

/-- A slot fires as it delivers. -/
theorem fired_fire (x : Inst) {j : Nat} (hj : j < x.slots.length) (h : Head) (o p : Opnd) : (x.fire j h (some o) (some p)).Fired j := by
  have fired : (x.modSlot j fun s => { s with ph := .fired }).Fired j :=
    ⟨by simpa [Inst.modSlot] using hj, congrArg SlotSt.ph (getD_lmod_same hj _ {})⟩
  exact (fired.deliver j h.t0 o).deliver j h.t1 p

@[simp] theorem fire_captured (x : Inst) (j : Nat) (h : Head) (o p : Opnd) : (x.fire j h (some o) (some p)).captured = x.captured :=
  (deliver_captured _ _ _ _).trans (deliver_captured _ _ _ _)

/-! #### An update of the block under the cursor -/

/-- The block in flight of a firing, as it stands in its task or among its core's pinned ones. -/
def Env.standing (e : Env) (s : State) : Option Inst :=
  match e.k with
  | some k => ((s.core e.cid).task k).inst
  | none => (s.core e.cid).pinst.find? (·.id = e.inst.id)

theorem envOf_standing {s : State} {e : Env} (he : envOf s = some e) : e.standing s = some e.inst ∧ e.slot < e.inst.slots.length := by
  unfold envOf at he
  split at he
  · cases he
  next g _ =>
  dsimp only at he
  split at he
  · cases he
  split at he
  · cases he
  split at he
  · next k hk =>
    split at he
    · next x hx =>
      obtain ⟨⟨-, -, slot⟩, rfl⟩ := by simpa only [Option.ite_none_right_eq_some, Option.some.injEq] using he
      refine ⟨?_, slot⟩
      simp only [Env.standing, hk]
      exact hx
    · cases he
  · next hk =>
    split at he
    · next x hx =>
      obtain ⟨⟨id, -, slot⟩, rfl⟩ := by simpa only [Option.ite_none_right_eq_some, Option.some.injEq] using he
      refine ⟨?_, slot⟩
      simp only [Env.standing, hk, id]
      exact hx
    · cases he

theorem Env.update_eq (e : Env) (f : Inst → Inst) (s : State) : e.update f s = (e.standing s).elim s fun x =>
    if e.pinned then (markFiring (putInst s e.cid e.k ((f x).settle e.pinned)) e.pt).modCore e.cid fun c => drainPinned c.pinst.length c
    else markFiring (putInst s e.cid e.k ((f x).settle e.pinned)) e.pt := by
  unfold Env.update
  show (match e.standing s with | none => _ | some x => _) = _
  cases e.standing s <;> rfl

/-- What an update of a fired block makes of the state. -/
theorem Env.update_fired {e : Env} {s : State} {x : Inst} (hk : e.pinned = false) (hx : e.standing s = some x) (f : Inst → Inst) :
    e.update f s = markFiring (putInst s e.cid e.k ((f x).settle false)) e.pt := by
  rw [Env.update_eq, hx, hk]
  rfl

/-- What no update of a block reaches on a core: its pool and mangle, and of each task the program counter and TCAUSE. -/
def Core.still (c : Core) : Memory × Pleat × Mangle × (Nat → BitVec 48 × BitVec 64) :=
  (c.pool, c.pleat, c.mangle, fun k => ((c.task k).pc, (c.task k).tcause))

/-- What no update of a block reaches on the device. -/
def State.still (s : State) : (Memory × Memory × Memory) × Table Lease × Table Queue × List Undo × List Escape ×
    (Nat → Memory × Pleat × Mangle × (Nat → BitVec 48 × BitVec 64)) :=
  ((s.mem, s.hostMem, s.peerMem), s.leases, s.queues, s.undo, s.escapes, fun d => (s.core d).still)

/-- What a change of a core leaves of it, it leaves of every core. -/
theorem core_modCore_keeps {γ : Type} (v : Core → γ) {s : State} {cid : Nat} {f : Core → Core} (hf : v (f (s.core cid)) = v (s.core cid))
    (d : Nat) : v ((s.modCore cid f).core d) = v (s.core d) := by
  by_cases hd : d = cid
  · rw [hd, State.core_modCore_same, hf]
  · rw [State.core_modCore_other _ _ _ _ hd]

theorem modCore_still {s : State} {cid : Nat} {f : Core → Core} (hf : (f (s.core cid)).still = (s.core cid).still) :
    (s.modCore cid f).still = s.still := by
  simp only [State.still, core_modCore_keeps Core.still hf]
  rfl

theorem modTask_inst_still (c : Core) (k : Nat) (x : Option Inst) : (c.modTask k fun t => { t with inst := x }).still = c.still := by
  have tasks : ∀ j, (((c.modTask k fun t => { t with inst := x }).task j).pc, ((c.modTask k fun t => { t with inst := x }).task j).tcause) =
      ((c.task j).pc, (c.task j).tcause) := fun j => by
    by_cases hj : j = k
    · rw [hj, Core.task_modTask_same]
    · rw [Core.task_modTask_other _ _ _ _ hj]
  simp only [Core.still, tasks]
  rfl

@[simp] theorem putInst_still (s : State) (cid : Nat) (k : Option Nat) (x : Inst) : (putInst s cid k x).still = s.still := by
  cases k with
  | none => exact modCore_still rfl
  | some k => exact modCore_still (modTask_inst_still _ k _)

theorem unreserve_still (c : Core) (js : List Nat) : (c.unreserve js).still = c.still :=
  foldl_keeps Core.still (fun _ _ => by rfl) js c

theorem drainPinned_still (n : Nat) (c : Core) : (drainPinned n c).still = c.still := by
  induction n generalizing c with
  | zero => rfl
  | succ n ih =>
    unfold drainPinned
    split
    · rfl
    · next x r _ =>
      refine ite_keeps Core.still ((ih _).trans ?_) rfl
      exact (foldl_keeps Core.still (fun _ _ => by rfl) _ _).trans (unreserve_still { c with pinst := r } _)

theorem Env.update_still (e : Env) (f : Inst → Inst) (s : State) : (e.update f s).still = s.still := by
  rw [Env.update_eq]
  cases e.standing s with
  | none => rfl
  | some x =>
    have put : (markFiring (putInst s e.cid e.k ((f x).settle e.pinned)) e.pt).still = s.still := putInst_still s e.cid e.k _
    exact ite_keeps State.still ((modCore_still (drainPinned_still _ _)).trans put) put

/-- A firing with two values, of a block that has at most noted its draws. -/
def Fires (r : Host.Outcome State Fault Refusal) (h : Head) (e : Env) (s : State) : Prop :=
  ∃ (g : Inst → Inst) (o p : Opnd), (∀ x, (g x).captured = x.captured ∧ (g x).slots.length = x.slots.length) ∧
    r = .next (e.update (fun x => (g x).fire e.slot h (some o) (some p)) s)

section
variable {r : Host.Outcome State Fault Refusal} {h : Head} {e : Env} {s : State}

theorem Fires.of_result {v : Value} (hr : r = .next (e.result h v s)) : Fires r h e s := ⟨id, _, _, fun _ => ⟨rfl, rfl⟩, hr⟩

theorem Fires.of_draws {n : Nat} {o p : Opnd} (hr : r = .next (e.update (fun x =>
    (x.modSlot e.slot fun q => { q with draws := n }).fire e.slot h (some o) (some p)) s)) : Fires r h e s :=
  ⟨fun x => x.modSlot e.slot fun q => { q with draws := n }, _, _, fun _ => ⟨rfl, length_lmod _ _ _⟩, hr⟩

/-- An instruction that only computes fires with its values and acts on nothing else (R151); the conversions that may draw note it. -/
theorem exec_computes {i : Instr} {v : Vals} (hc : computes i = true) (F : Firing i s h e v) : Fires (exec i s) h e s := by
  cases i <;> cases hc
  case fcvt | pack | quant =>
    have hr := exec_firing F fun _ => rfl
    exact .of_draws hr
  all_goals
    have hr := exec_firing F fun _ => rfl
    exact .of_result hr

/-- A firing of a fired block rewrites what is in flight of it, which keeps its words and what it has captured. -/
theorem Fires.fired (hr : Fires r h e s) (he : envOf s = some e) (hk : e.pinned = false) : ∃ x, r = .next (markFiring (putInst s e.cid e.k x) e.pt) ∧
    x.captured = e.inst.captured ∧ x.Fired e.slot := by
  obtain ⟨g, o, p, hg, rfl⟩ := hr
  obtain ⟨stands, slot⟩ := envOf_standing he
  obtain ⟨same, length⟩ := hg e.inst
  refine ⟨_, congrArg Host.Outcome.next (Env.update_fired hk stands _), ?_, (fired_fire _ (length ▸ slot) h o p).settle false⟩
  rw [settle_captured, fire_captured, same]

theorem Fires.still (hr : Fires r h e s) : ∃ t, r = .next t ∧ t.still = s.still := by
  obtain ⟨g, o, p, -, rfl⟩ := hr
  exact ⟨_, rfl, Env.update_still _ _ _⟩

end

end Sys2Proof.Machine

namespace Sys2Proof.Proofs

open Sys2Proof.Machine Sys2Proof.Safety Sys2Proof.Laws

/-- A result is in the operand that each target names; of two deliveries to one operand the first stays, and is remembered. -/
theorem results_reach_targets (x : Inst) (j : Nat) (h : Head) (o p : Opnd) (n : BitVec 5) (hj : n.toNat ≠ j) (hn : n.toNat < x.slots.length) :
    (h.t0 = .opA n → ((x.fire j h (some o) (some p)).slots.getD n.toNat {}).a = some ((x.slots.getD n.toNat {}).a.getD o)) ∧
    (h.t0 = .opB n → ((x.fire j h (some o) (some p)).slots.getD n.toNat {}).b = some ((x.slots.getD n.toNat {}).b.getD o)) ∧
    (h.t0 = .opC n → ((x.fire j h (some o) (some p)).slots.getD n.toNat {}).c = some ((x.slots.getD n.toNat {}).c.getD o)) ∧
    (h.t0 = .pred n → ((x.fire j h (some o) (some p)).slots.getD n.toNat {}).p = some ((x.slots.getD n.toNat {}).p.getD o)) ∧
    (h.t0 = .opA n → (x.slots.getD n.toNat {}).a ≠ none → (x.fire j h (some o) (some p)).twice = true) ∧
    (h.t1 = .opA n → h.t0 ≠ .opA n → ((x.fire j h (some o) (some p)).slots.getD n.toNat {}).a = some ((x.slots.getD n.toNat {}).a.getD p)) := by
  rw [slots_fire_other x hj hn]
  obtain ⟨keepsA, keepsB, keepsC, keepsP⟩ := SlotSt.take_keeps ((x.slots.getD n.toNat {}).take n.toNat h.t0 o) n.toNat h.t1 p
  refine ⟨fun ht => keepsA _ ?_, fun ht => keepsB _ ?_, fun ht => keepsC _ ?_, fun ht => keepsP _ ?_, twice_fire x hj o p, fun ht h0 => ?_⟩
  · rw [ht, SlotSt.take_opA]
  · rw [ht, SlotSt.take_opB]
  · rw [ht, SlotSt.take_opC]
  · rw [ht, SlotSt.take_pred]
  · rw [ht, SlotSt.take_opA, SlotSt.take_a_other _ _ _ h0]

/-- Settles O52. -/
theorem resultsAndFrame : Obligations.ResultsAndFrame := by
  unfold Obligations.ResultsAndFrame
  refine ⟨results_reach_targets, fun i s h e v hc F => ⟨fun hk => ?_, ?_⟩⟩
  · obtain ⟨x, hx, same, -, fired⟩ := (exec_computes hc F).fired F.env hk
    simp only [Inst.captured, Prod.mk.injEq] at same
    obtain ⟨id, code, caps, exit⟩ := same
    exact ⟨x, hx, id, code, caps, exit, fired⟩
  · obtain ⟨t, ht, still⟩ := (exec_computes hc F).still
    simp only [State.still, Prod.mk.injEq] at still
    obtain ⟨memory, leases, queues, undo, escapes, cores⟩ := still
    refine ⟨t, ht, memory, leases, queues, undo, escapes, fun d => ?_⟩
    have core := congrFun cores d
    simp only [Core.still, Prod.mk.injEq] at core
    obtain ⟨pool, pleat, mangle, tasks⟩ := core
    exact ⟨pool, pleat, mangle, fun k => Prod.mk.injEq .. ▸ congrFun tasks k⟩

end Sys2Proof.Proofs

/-! ### Pool loads (R252, R255, R275) -/

namespace Sys2Proof.Machine

open Sys2Proof.Safety Sys2Proof.Laws

/-- What no load changes: the memories, and every core's pool and tasks. -/
def State.stored (s : State) : (Memory × Memory × Memory) × (Nat → Memory × Table Task) :=
  ((s.mem, s.hostMem, s.peerMem), fun d => ((s.core d).pool, (s.core d).tasks))

theorem modCore_stored {s : State} {cid : Nat} {f : Core → Core}
    (hf : ((f (s.core cid)).pool, (f (s.core cid)).tasks) = ((s.core cid).pool, (s.core cid).tasks)) : (s.modCore cid f).stored = s.stored :=
  congrArg (Prod.mk (s.mem, s.hostMem, s.peerMem)) (funext (core_modCore_keeps (fun c => (c.pool, c.tasks)) hf))

@[simp] theorem noteReplays_stored (role : PoolRole) (ac : AC) (ps : List (Nat × Nat)) (s : State) : (noteReplays role ac ps s).stored = s.stored :=
  ite_keeps State.stored (foldl_keeps State.stored (fun _ _ => modCore_stored rfl) _ s) rfl

@[simp] theorem acquire_stored (s : State) (cid : Nat) (sc : Option Scope) : (acquire s cid sc).stored = s.stored :=
  ite_keeps State.stored (modCore_stored (ite_keeps (fun c : Core => (c.pool, c.tasks)) rfl rfl)) rfl

section
variable {e : Env} {h : Head} {role : PoolRole} {ac : AC} {m : MemF} {v : Vals} {s : State} {ps : List PoolPlace} {x : Cause}

/-- A pool load whose places overlap no older atomic and hold no poison. -/
theorem poolLoad_clean (atomics : (ps.any fun p => overPoolAtomic e.inst m.lsid.toNat p.cid role p.off (pieceBytes ac)) = false)
    (poison : (ps.any fun p => (s.core p.cid).rolePoisoned role p.off (pieceBytes ac)) = false) :
    e.poolLoad h role ac m ps s = e.result h (loadedValue ac (ps.map fun p => (p.lane,
      forwardPool e.inst m.lsid.toNat p.cid role p.off (readPool s p.cid role p.off (pieceBytes ac)))))
      (acquire (noteReplays role ac (ps.map fun p => (p.cid, p.off)) s) e.cid m.osc) := by
  simp only [Env.poolLoad, atomics, poison, Bool.false_eq_true, if_false]

theorem ownLoad_ok (held : e.c.holdRole role = false)
    (places : poolPlaces e.cid e.c role ac m.lsid.toNat m.ofs.toInt (laneWords ac v.a) = .ok ps) :
    e.ownLoad h role ac m v s = e.poolLoad h role ac m ps s := by
  simp only [Env.ownLoad, held, offsetOf, places, Bool.false_eq_true, if_false]

theorem ownLoad_bad (held : e.c.holdRole role = false)
    (places : poolPlaces e.cid e.c role ac m.lsid.toNat m.ofs.toInt (laneWords ac v.a) = .bad x) :
    e.ownLoad h role ac m v s = e.raise x s := by
  simp only [Env.ownLoad, held, offsetOf, places, Bool.false_eq_true, if_false]

theorem ownStore_bad (held : e.c.holdRole role = false)
    (places : poolPlaces e.cid e.c role ac m.lsid.toNat m.ofs.toInt (laneWords ac v.a) = .bad x) :
    e.ownStore h role ac m v s = e.raise x s := by
  simp only [Env.ownStore, held, offsetOf, places, Bool.false_eq_true, if_false]

end

/-- A scalar or line access has one place. -/
theorem poolPlaces_bad {cid : Nat} {c : Core} {role : PoolRole} {ac : AC} {lsid : Nat} {ofs : Int} {a : Value} {x : BitVec 8} (hac : ac ≠ .v)
    (check : poolCheck1 c role (acBytes ac) ((bitsOf a 0 32 : Int) + ofs) = some x) :
    poolPlaces cid c role ac lsid ofs (laneWords ac a) =
      .bad { cause := x, lsid := some lsid, addr := BitVec.ofInt 64 ((bitsOf a 0 32 : Int) + ofs) } := by
  obtain ⟨words, bytes⟩ : laneWords ac a = [(0, bitsOf a 0 32)] ∧ pieceBytes ac = acBytes ac := by
    cases ac with
    | v => exact absurd rfl hac
    | _ => exact ⟨rfl, rfl⟩
  simp only [words, poolPlaces, bytes, check, laneOf, if_neg hac]

/-- Alignment is checked first. -/
theorem poolCheck1_misaligned {c : Core} {role : PoolRole} {n : Nat} {o : Int} (h : o % (n : Int) ≠ 0) : poolCheck1 c role n o = some 0x07 :=
  if_pos h

/-- Then the bound of the role. -/
theorem poolCheck1_bound {c : Core} {role : PoolRole} {n : Nat} {o : Int} (h : o % (n : Int) = 0) (past : o < 0 ∨ (c.roleEnd role : Int) < o + n) :
    poolCheck1 c role n o = some (boundCause role) :=
  (if_neg (not_not_intro h)).trans (if_pos past)

end Sys2Proof.Machine

namespace Sys2Proof.Proofs

open Sys2Proof.Machine Sys2Proof.Safety Sys2Proof.Laws

/-- What checks find against an own-pool access is raised, whether it loads or stores. -/
theorem exec_ownPool_bad {s : State} {h : Head} {e : Env} {v : Vals} {ac : AC} {m : MemF} {i : Instr} {role : PoolRole} {x : Cause}
    (F : Firing i s h e v) (held : e.c.holdRole role = false)
    (form : role = .s ∧ (i = .lds h ac m ∨ i = .sts h ac m) ∨ role = .t ∧ (i = .ldt h ac m ∨ i = .stt h ac m))
    (places : poolPlaces e.cid e.c role ac m.lsid.toNat m.ofs.toInt (laneWords ac v.a) = .bad x) : exec i s = .next (e.raise x s) := by
  obtain ⟨rfl, rfl | rfl⟩ | ⟨rfl, rfl | rfl⟩ := form
  case inl.inl | inr.inl =>
    have load := exec_firing F fun _ => rfl
    exact load.trans (congrArg Host.Outcome.next (ownLoad_bad held places))
  case inl.inr | inr.inr =>
    have store := exec_firing F fun _ => rfl
    exact store.trans (congrArg Host.Outcome.next (ownStore_bad held places))

/-- Settles O14. -/
theorem poolLoads : Obligations.PoolLoads := by
  unfold Obligations.PoolLoads
  refine ⟨fun s h e v ac m i role ps F form atomics poison => ?_, fun s cid o n => ⟨rfl, fun idle => ?_⟩,
    fun s h e v ac m i role hac F held form => ⟨fun misaligned => ?_, fun aligned past => ?_⟩⟩
  · have load : exec i s = .next (e.poolLoad h role ac m ps s) := by
      obtain ⟨rfl, rfl, held, places⟩ | ⟨rfl, rfl, held, places⟩ | ⟨rfl, rfl, places⟩ := form
      · have load := exec_firing F fun _ => rfl
        exact load.trans (congrArg Host.Outcome.next (ownLoad_ok held places))
      · have load := exec_firing F fun _ => rfl
        exact load.trans (congrArg Host.Outcome.next (ownLoad_ok held places))
      · have load := exec_firing F fun _ => rfl
        exact load.trans (congrArg Host.Outcome.next (by simp only [offsetOf, places]))
    refine ⟨_, load.trans (congrArg Host.Outcome.next (poolLoad_clean atomics poison)), ?_⟩
    have same := (acquire_stored (noteReplays role ac (ps.map fun p => (p.cid, p.off)) s) e.cid m.osc).trans (noteReplays_stored _ _ _ _)
    simp only [State.stored, Prod.mk.injEq] at same
    obtain ⟨memory, cores⟩ := same
    exact ⟨memory, fun cid => Prod.mk.injEq .. ▸ congrFun cores cid⟩
  · exact if_pos (List.all_eq_true.2 fun q hq => List.isEmpty_iff.2 (idle q hq))
  · exact exec_ownPool_bad F held form (poolPlaces_bad hac (poolCheck1_misaligned misaligned))
  · refine (exec_ownPool_bad F held form (poolPlaces_bad hac (poolCheck1_bound aligned past))).trans ?_
    cases role <;> rfl

end Sys2Proof.Proofs

/-! ### The commit of a block (R55, R151, R175) -/

namespace Sys2Proof.Machine

open Sys2Proof.Safety Sys2Proof.Laws

/-! #### A trace record leaves the core's late requests alone changed -/

/-- The memories, and every core but for what it sends late. -/
def State.prompt (s : State) : (Memory × Memory × Memory) × (Nat → Core) :=
  ((s.mem, s.hostMem, s.peerMem), fun d => { s.core d with late := [] })

theorem modCore_prompt (s : State) (cid : Nat) (f : Core → Core)
    (hf : ({ f (s.core cid) with late := [] } : Core) = { s.core cid with late := [] }) : (s.modCore cid f).prompt = s.prompt :=
  congrArg (Prod.mk (s.mem, s.hostMem, s.peerMem)) (funext (core_modCore_keeps (fun c : Core => { c with late := [] }) hf))

theorem pushLate_prompt (s : State) (cid lease : Nat) (k : ReqKind) (data : List Byte) : (pushLate s cid lease k data).prompt = s.prompt :=
  modCore_prompt s cid _ rfl

theorem modLease_prompt (s : State) (l : Nat) (f : Lease → Lease) : (s.modLease l f).prompt = s.prompt := rfl

@[simp] theorem profWrite_prompt (s : State) (cid lease : Nat) (bs : List Byte) : (profWrite s cid lease bs).prompt = s.prompt := by
  unfold profWrite
  split
  · rfl
  · split
    · rfl
    · exact ite_keeps State.prompt rfl ((modLease_prompt _ _ _).trans (pushLate_prompt _ _ _ _ _))

@[simp] theorem traceBlock_prompt (s : State) (cid k kind : Nat) (x : Inst) : (traceBlock s cid k kind x).prompt = s.prompt :=
  ite_keeps State.prompt (profWrite_prompt _ _ _ _) rfl

theorem putBytes_late (bs : List (Nat × Byte)) (c : Core) (l : List GenReq) :
    ({ c with late := l } : Core).putBytes bs = { c.putBytes bs with late := l } := by
  induction bs generalizing c with
  | nil => rfl
  | cons b bs ih => exact ih (c.putByte b.1 b.2)

theorem pool_poisonRows (c : Core) (rows : List Nat) : ({ c with poisonRows := rows } : Core).pool = c.pool := rfl

theorem putRow_pool (c : Core) (a : Nat) (v : Value) :
    (c.putRow a v).pool = (c.putBytes (((List.range 64).zip (valueBytes v)).map fun p => (a + p.1, p.2))).pool :=
  pool_poisonRows (c.putBytes _) _

/-- A register is written whatever the core sends late. -/
theorem writeG_late_pool (c : Core) (k g : Nat) (v : Value) (l : List GenReq) :
    (({ c with late := l } : Core).writeG k g v).pool = (c.writeG k g v).pool := by
  simp only [Core.writeG, putRow_pool, putBytes_late]

section
variable {s t : State} (h : t.prompt = s.prompt) (cid k g : Nat) (v : Value)
include h

theorem memory_eq_of_prompt : (t.mem, t.hostMem, t.peerMem) = (s.mem, s.hostMem, s.peerMem) := congrArg Prod.fst h
theorem pool_eq_of_prompt : (t.core cid).pool = (s.core cid).pool := congrArg (fun w => (w.2 cid).pool) h
theorem task_eq_of_prompt : (t.core cid).task k = (s.core cid).task k := congrArg (fun w => (w.2 cid).task k) h

theorem writeG_pool_eq_of_prompt : ((t.core cid).writeG k g v).pool = ((s.core cid).writeG k g v).pool :=
  calc _ = _ := (writeG_late_pool (t.core cid) k g v []).symm
    _ = _ := congrArg (fun w => ((w.2 cid).writeG k g v).pool) h
    _ = _ := writeG_late_pool (s.core cid) k g v []

end

/-! #### Registers and draws -/

/-- The memories, and every core's tasks. -/
def State.tasks (s : State) : (Memory × Memory × Memory) × (Nat → Table Task) := ((s.mem, s.hostMem, s.peerMem), fun d => (s.core d).tasks)

theorem putBytes_tasks (bs : List (Nat × Byte)) (c : Core) : (c.putBytes bs).tasks = c.tasks := by
  induction bs generalizing c with
  | nil => rfl
  | cons b bs ih => exact ih _

theorem tasks_poisonRows (c : Core) (rows : List Nat) : ({ c with poisonRows := rows } : Core).tasks = c.tasks := rfl

theorem putRow_tasks (c : Core) (a : Nat) (v : Value) : (c.putRow a v).tasks = c.tasks :=
  (tasks_poisonRows (c.putBytes _) _).trans (putBytes_tasks _ c)

theorem writeG_tasks (c : Core) (k g : Nat) (v : Value) : (c.writeG k g v).tasks = c.tasks := by
  unfold Core.writeG
  exact putRow_tasks c _ v

theorem writeReg_tasks (s : State) (cid k g : Nat) (v : Value) : (writeReg s cid k g v).tasks = s.tasks :=
  congrArg (Prod.mk (s.mem, s.hostMem, s.peerMem)) (funext (core_modCore_keeps Core.tasks (writeG_tasks _ k g v)))

theorem writeRegs_tasks (cid k : Nat) (x : Inst) (s : State) : (writeRegs cid k x s).tasks = s.tasks := by
  refine foldl_keeps State.tasks (fun s j => ?_) _ s
  split
  · exact writeReg_tasks _ _ _ _ _
  · exact writeReg_tasks _ _ _ _ _
  · rfl

theorem writeRegs_none (cid k : Nat) {x : Inst} (s : State) (h : x.writes = []) : writeRegs cid k x s = s := by
  simp [writeRegs, h]

theorem writeRegs_one (cid k : Nat) {x : Inst} (s : State) {v : Value} (h : x.writes = [some (.val v)]) :
    writeRegs cid k x s = writeReg s cid k (x.regOf 0) v := by
  simp [writeRegs, h]

/-! #### The exit -/

/-- Where an exit takes a task. -/
def ExitAct.Takes (a : ExitAct) (t u : Task) : Prop :=
  match a with
  | .go n => u.pc = BitVec.ofNat 48 n
  | .call n r => u.pc = BitVec.ofNat 48 n ∧ u.link = BitVec.ofNat 48 r :: t.link.take 15
  | .ret => t.link = u.pc :: u.link
  | .yield n => u.pc = BitVec.ofNat 48 n ∧ u.creditLane = 0 ∧ u.creditSeq = 0
  | .stop => u.st = .free

/-- A commit's exit changes memory and the core's pool in nothing, and takes the task out of its block. -/
structure Exits (a : ExitAct) (cid k : Nat) (s t : State) : Prop where
  memory : (t.mem, t.hostMem, t.peerMem) = (s.mem, s.hostMem, s.peerMem)
  pool : (t.core cid).pool = (s.core cid).pool
  inst : ((t.core cid).task k).inst = none
  takes : a.Takes ((s.core cid).task k) ((t.core cid).task k)

theorem pushLink_link (t : Task) (a : BitVec 48) : (pushLink t a).link = a :: t.link.take 15 := by
  unfold pushLink
  split
  · next h => rw [List.take_of_length_le (Nat.le_of_lt_succ h)]
  · rfl

/-- A task that goes on elsewhere. -/
theorem exits_of_set {a : ExitAct} {cid k : Nat} {s : State} {f : Task → Task}
    (takes : a.Takes ((s.core cid).task k) { f ((s.core cid).task k) with inst := none, spawns := [] }) :
    Exits a cid k s (s.modCore cid fun c => c.modTask k fun t => { f t with inst := none, spawns := [] }) where
  memory := rfl
  pool := by rw [State.core_modCore_same]; rfl
  inst := by rw [State.core_modCore_same, Core.task_modTask_same]
  takes := by rwa [State.core_modCore_same, Core.task_modTask_same]

theorem Core.task_ins (c : Core) (ins : Table InCh) (k : Nat) : ({ c with ins := ins } : Core).task k = c.task k := rfl

theorem endTask_task {cid k : Nat} {s : State} (async : ((s.core cid).task k).async = []) : ((endTask s cid k).core cid).task k =
    { (s.core cid).task k with st := .free, inst := none, spawns := [], sealWait := false, link := [], async := [] } := by
  simp only [endTask, async, List.foldl_nil, State.core_modCore_same]
  exact (Core.task_ins _ _ k).trans (Core.task_modTask_same _ k _)

/-- A task that ends with no cause held against it. -/
theorem exits_endTask {cid k : Nat} {s : State} (async : ((s.core cid).task k).async = []) : Exits .stop cid k s (endTask s cid k) where
  memory := by simp only [endTask, async, List.foldl_nil]; rfl
  pool := by simp only [endTask, async, List.foldl_nil, State.core_modCore_same]; rfl
  inst := congrArg Task.inst (endTask_task async)
  takes := congrArg Task.st (endTask_task async)

theorem doExit_exits {a : ExitAct} {cid k : Nat} {s : State} (async : ((s.core cid).task k).async = [])
    (link : a = .ret → ((s.core cid).task k).link ≠ []) : ∃ t, doExit cid k a s = .ok t ∧ Exits a cid k s t := by
  cases a with
  | go n => exact ⟨_, rfl, exits_of_set rfl⟩
  | call n r => exact ⟨_, rfl, exits_of_set ⟨rfl, pushLink_link _ _⟩⟩
  | yield n => exact ⟨_, rfl, exits_of_set ⟨rfl, rfl, rfl⟩⟩
  | ret =>
    obtain ⟨r, rs, h⟩ := List.exists_cons_of_ne_nil (link rfl)
    exact ⟨_, by simp only [doExit, h], exits_of_set (f := fun q => { q with pc := r, link := rs }) h⟩
  | stop => exact ⟨_, rfl, exits_endTask async⟩

/-! #### What follows the exit -/

/-- The memories, the core's pool, and the task but for the escapes that it waits for. -/
def State.exited (s : State) (cid k : Nat) : (Memory × Memory × Memory) × Memory × Task :=
  ((s.mem, s.hostMem, s.peerMem), (s.core cid).pool, { (s.core cid).task k with escDue := [] })

theorem requestSeal_exited (s : State) (irr : Bool) (cid k : Nat) : (requestSeal s irr).exited cid k = s.exited cid k := by
  obtain ⟨x, h⟩ := requestSeal_eq s irr
  rw [h]
  rfl

theorem noteIrr_exited (before cid k : Nat) (s : State) : (noteIrr before cid k s).exited cid k = s.exited cid k := by
  refine ite_keeps (fun s : State => s.exited cid k) rfl ((requestSeal_exited _ _ _ _).trans ?_)
  unfold State.exited
  rw [State.core_modCore_same, Core.task_modTask_same]
  rfl

theorem sealptCheck_exited (s : State) (pt cid k : Nat) : (sealptCheck s pt).exited cid k = s.exited cid k := by
  unfold sealptCheck
  split
  · exact ite_keeps (fun s : State => s.exited cid k) (requestSeal_exited _ _ _ _) rfl
  · rfl

/-- An exit as the rest of the commit leaves it. -/
theorem Exits.of_exited {a : ExitAct} {cid k : Nat} {s t u : State} (h : Exits a cid k s t) (hu : u.exited cid k = t.exited cid k) :
    Exits a cid k s u := by
  simp only [State.exited, Prod.mk.injEq] at hu
  obtain ⟨⟨mem, host, peer⟩, pool, task⟩ := hu
  refine ⟨?_, pool.trans h.pool, (congrArg Task.inst task).trans h.inst, ?_⟩
  · rw [mem, host, peer, h.memory]
  · have takes : ∀ w v : Task, a.Takes w v ↔ a.Takes w { v with escDue := [] } := fun w v => by cases a <;> rfl
    rw [takes, task, ← takes]
    exact h.takes

/-! #### The whole commit -/

/-- A state with a block's registers written and its draws used: where its captured effects begin. -/
def State.registered (s : State) (cid k : Nat) (x : Inst) : State := advanceGenr (writeRegs cid k x s) cid k x

section
variable (s : State) (cid k : Nat) (x : Inst)

theorem registered_memory :
    ((s.registered cid k x).mem, (s.registered cid k x).hostMem, (s.registered cid k x).peerMem) = (s.mem, s.hostMem, s.peerMem) :=
  congrArg Prod.fst (writeRegs_tasks cid k x s)

theorem registered_pool : ((s.registered cid k x).core cid).pool = ((writeRegs cid k x s).core cid).pool := by
  simp only [State.registered, advanceGenr, State.core_modCore_same]
  rfl

theorem registered_task : ∃ r, ((s.registered cid k x).core cid).task k = { (s.core cid).task k with rstate := r } := by
  have task : ((writeRegs cid k x s).core cid).task k = (s.core cid).task k :=
    congrArg (fun w : (Memory × Memory × Memory) × (Nat → Table Task) => tgetD (w.2 cid) k {}) (writeRegs_tasks cid k x s)
  simp only [State.registered, advanceGenr, State.core_modCore_same, Core.task_modTask_same, task]
  exact ⟨_, rfl⟩

end

section
variable {s : State} {cid pt k : Nat} {p : Patch} {x : Inst}

/-- A commit with no captured effect is its registers, its draws, and its exit. -/
theorem commitAll_noCaps (caps : x.caps = []) (s : State) : commitAll cid k pt p x s =
    (doExit cid k (x.exit.getD .stop) (s.registered cid k x)).then fun t => .ok (noteIrr s.escNext cid k t) := by
  have none : x.inOrder = [] := by simp [Inst.inOrder, caps]
  simp only [commitAll, State.registered, none, eachDone, Done.then, releaseNulled, caps, List.filter_nil, List.foldl_nil]

theorem commitAll_exits {e : ExitAct} (caps : x.caps = []) (exit : x.exit = some e) (async : ((s.core cid).task k).async = [])
    (link : e = .ret → ((s.core cid).task k).link ≠ []) :
    ∃ t, commitAll cid k pt p x s = .ok t ∧ Exits e cid k (s.registered cid k x) t := by
  obtain ⟨r, task⟩ := registered_task s cid k x
  obtain ⟨t, ht, exits⟩ := doExit_exits (a := e) (cid := cid) (k := k) (s := s.registered cid k x) (task ▸ async) (task ▸ link)
  refine ⟨_, ?_, exits.of_exited (noteIrr_exited s.escNext cid k t)⟩
  rw [commitAll_noCaps caps, exit]
  simp only [Option.getD_some, ht, Done.then]

/-- What BLOCK_COMMIT makes of a commit that has been worked out: performed, discarded, or waiting. -/
def commitDone (s : State) (cid k pt : Nat) (p : Patch) (x : Inst) (d : Done) : State :=
  match d with
  | .ok u =>
    if ((s.core cid).task k).dbg.getLsbD 1 && debugOn s p.lease then
      raiseTask (sealptCheck (markFiring u pt) pt) cid k (((sealptCheck (markFiring u pt) pt).core cid).task k).pc.toNat { cause := 0x0F, sub := 3 }
    else sealptCheck (markFiring u pt) pt
  | .bad y => raiseTask s cid k x.blk { y with atCommit := true }
  | .stall (some l) => noteStall s cid k x l
  | .stall none => s

/-! What BLOCK_COMMIT finds, and what it does. -/

section
variable (R : RunsOn s cid pt p) (held : (s.core cid).holdG = false) (inst : ((s.core cid).task k).inst = some x)
include R held inst

theorem blockCommit_broken (broken : x.broken = true) :
    exec (.blockCommit cid k) s = .next (raiseTask s cid k x.blk { cause := 0x02, sub := 2, atCommit := true }) := by
  obtain ⟨patch, found, running⟩ := R
  show execBlockCommit cid k s = _
  simp only [execBlockCommit, patch, inst, found, running, PatchState.active, held, broken, Bool.not_true, Bool.or_false, Bool.false_eq_true, if_false,
    if_true]

theorem blockCommit_unmet (broken : x.broken = false) (complete : x.complete = false) (quiet : quiescent s cid (some k) x = true) :
    exec (.blockCommit cid k) s = .next (raiseTask s cid k x.blk (unmetCause x)) := by
  obtain ⟨patch, found, running⟩ := R
  show execBlockCommit cid k s = _
  simp only [execBlockCommit, patch, inst, found, running, PatchState.active, held, broken, complete, quiet, Bool.not_true, Bool.or_false,
    Bool.false_eq_true, if_false, if_true]

variable (broken : x.broken = false) (complete : x.complete = true)
include broken complete

theorem blockCommit_complete : exec (.blockCommit cid k) s = .next (commitDone s cid k pt p x (commitAll cid k pt p x (traceBlock s cid k 1 x))) := by
  obtain ⟨patch, found, running⟩ := R
  show execBlockCommit cid k s = _
  simp only [execBlockCommit, patch, inst, found, running, PatchState.active, held, broken, complete, Bool.not_true, Bool.or_false,
    Bool.false_eq_true, if_false, if_true]
  rfl

theorem blockCommit_of_commitAll {d : Done} (all : commitAll cid k pt p x (traceBlock s cid k 1 x) = d) :
    exec (.blockCommit cid k) s = .next (commitDone s cid k pt p x d) :=
  (blockCommit_complete R held inst broken complete).trans (all ▸ rfl)

/-- A commit that captured nothing: where it leaves the task, and what pool it leaves. -/
theorem blockCommit_exits {e : ExitAct} (step : (((s.core cid).task k).dbg.getLsbD 1 && debugOn s p.lease) = false) (caps : x.caps = [])
    (exit : x.exit = some e) (async : ((s.core cid).task k).async = []) (link : e = .ret → ((s.core cid).task k).link ≠ []) :
    ∃ t, exec (.blockCommit cid k) s = .next t ∧ SameMemory s t ∧ ((t.core cid).task k).inst = none ∧
      e.Takes ((s.core cid).task k) ((t.core cid).task k) ∧
      (t.core cid).pool = ((writeRegs cid k x (traceBlock s cid k 1 x)).core cid).pool := by
  have traced := traceBlock_prompt s cid k 1 x
  have task := task_eq_of_prompt traced cid k
  obtain ⟨u, all, exits⟩ := commitAll_exits (pt := pt) (p := p) caps exit (task ▸ async) (task ▸ link)
  obtain ⟨memory, pool, out, takes⟩ := exits.of_exited (sealptCheck_exited (markFiring u pt) pt cid k)
  refine ⟨_, (blockCommit_of_commitAll R held inst broken complete all).trans (by simp only [commitDone, step, Bool.false_eq_true, if_false]), ?_, out, ?_,
    pool.trans (registered_pool _ cid k x)⟩
  · have same := memory.trans ((registered_memory _ cid k x).trans (memory_eq_of_prompt traced))
    simp only [Prod.mk.injEq] at same
    exact same
  · obtain ⟨r, drawn⟩ := registered_task (traceBlock s cid k 1 x) cid k x
    have old : ∀ t u : Task, e.Takes { t with rstate := r } u → e.Takes t u := fun t u => by cases e <;> exact id
    rw [drawn, task] at takes
    exact old _ _ takes

end

/-! A stall that has lasted (R308). -/

theorem stalledOut_some {n : Nat} : stalledOut s cid (some n) = decide (n + 2 ^ 25 ≤ cyclesOf s cid) := by
  unfold stalledOut
  rw [Option.any_some]

theorem undoStallTimeout_task (inst : ((s.core cid).task k).inst = some x) : exec (.undoStallTimeout cid k) s =
    .next (if stalledOut s cid x.stalled then raiseTask s cid k x.blk { cause := 0x16, atCommit := true } else s) := by
  show execUndoStallTimeout cid k s = _
  simp only [execUndoStallTimeout, inst]

theorem undoStallTimeout_port {r : GenReq} {rest : List GenReq} (inst : ((s.core cid).task k).inst = none) (gen : (s.core cid).gen = r :: rest) :
    exec (.undoStallTimeout cid k) s = .next (if r.pinned && stalledOut s cid r.stalled then
      raiseCore (s.modCore cid fun c => { c with gen := rest }) cid none 0 0 { cause := 0x16, slot := some r.slot, lsid := some r.lsid } else s) := by
  show execUndoStallTimeout cid k s = _
  simp only [execUndoStallTimeout, inst, gen]

end

end Sys2Proof.Machine

/-! ### The end of a stop for a fault (R335, R337, R341) -/

namespace Sys2Proof.Machine

open Sys2Proof.Safety Sys2Proof.Laws

/-! #### What discarding and closing residencies leave alone -/

/-- A lease but for its profiling session. -/
def Lease.unprofiled (L : Lease) : Lease := { L with prof := none }

/-- What stays as the blocks of a patch are discarded: packets, leases but for their profiling, and the cores' contexts. -/
def State.outlasts (s : State) : List Pkt × (Nat → Option Lease) × (Nat → Option Nat × Table Ctx) :=
  (s.pipe, fun l => (s.lease l).map Lease.unprofiled, fun d => ((s.core d).act, (s.core d).ctxs))

theorem modCore_outlasts (s : State) (cid : Nat) {f : Core → Core}
    (hf : ((f (s.core cid)).act, (f (s.core cid)).ctxs) = ((s.core cid).act, (s.core cid).ctxs)) : (s.modCore cid f).outlasts = s.outlasts := by
  have core : ∀ d, (((s.modCore cid f).core d).act, ((s.modCore cid f).core d).ctxs) = ((s.core d).act, (s.core d).ctxs) :=
    core_modCore_keeps (fun c => (c.act, c.ctxs)) hf
  simp only [State.outlasts, core]
  rfl

theorem modLease_outlasts (s : State) (l : Nat) {f : Lease → Lease} (hf : ∀ L, (f L).unprofiled = L.unprofiled) :
    (s.modLease l f).outlasts = s.outlasts := by
  have lease : ∀ k, ((s.modLease l f).lease k).map Lease.unprofiled = (s.lease k).map Lease.unprofiled := fun k => by
    by_cases hk : k = l
    · rw [hk, State.lease_modLease_same, Option.map_map]
      exact congrArg (fun g => Option.map g (s.lease l)) (funext hf)
    · rw [State.lease_modLease_other _ _ _ _ hk]
  simp only [State.outlasts, lease]
  rfl

@[simp] theorem profWrite_outlasts (s : State) (cid lease : Nat) (bs : List Byte) : (profWrite s cid lease bs).outlasts = s.outlasts := by
  unfold profWrite
  split
  · rfl
  · split
    · rfl
    · exact ite_keeps State.outlasts (modLease_outlasts _ _ fun _ => by rfl)
        ((modLease_outlasts _ _ fun _ => by rfl).trans (modCore_outlasts _ _ (by rfl)))

@[simp] theorem traceBlock_outlasts (s : State) (cid k kind : Nat) (x : Inst) : (traceBlock s cid k kind x).outlasts = s.outlasts :=
  ite_keeps State.outlasts (profWrite_outlasts _ _ _ _) rfl

@[simp] theorem delist_outlasts (s : State) (out : Waiter → Bool) : (delist s out).outlasts = s.outlasts := by
  obtain ⟨w, x, h⟩ := delist_eq s out
  rw [h]
  rfl

theorem unreserve_contexts (c : Core) (js : List Nat) : ((c.unreserve js).act, (c.unreserve js).ctxs) = (c.act, c.ctxs) :=
  foldl_keeps (fun c : Core => (c.act, c.ctxs)) (fun _ _ => by rfl) js c

@[simp] theorem releaseCap_outlasts (cid k : Nat) (s : State) (q : Capture) : (releaseCap cid k s q).outlasts = s.outlasts := by
  obtain ⟨slot, lsid, eff, t0, t1⟩ := q
  cases eff with
  | send | spawn | bind | swm | marm => exact modCore_outlasts _ _ (by rfl)
  | markt | bar => exact modCore_outlasts _ _ (unreserve_contexts _ _)
  | pleat => exact modCore_outlasts _ _ (ite_keeps (fun c : Core => (c.act, c.ctxs)) (by rfl) (by rfl))
  | cpy => exact (modCore_outlasts _ _ (by rfl)).trans rfl
  | notify =>
    simp only [releaseCap]
    split <;> rfl
  | _ => rfl

@[simp] theorem discard_outlasts (s : State) (cid k : Nat) : (discard s cid k).outlasts = s.outlasts := by
  unfold discard
  split
  · rfl
  · next x _ =>
    calc _ = _ := modCore_outlasts _ _ (by rfl)
      _ = _ := delist_outlasts _ _
      _ = _ := traceBlock_outlasts _ _ _ _ _
      _ = _ := foldl_keeps State.outlasts (releaseCap_outlasts cid k) x.caps s

@[simp] theorem discardAll_outlasts (s : State) (pt : Nat) : (discardAll s pt).outlasts = s.outlasts :=
  forCores_keeps State.outlasts (fun s cid => foldl_keeps State.outlasts (fun s k => discard_outlasts s cid k) _ s) s pt

@[simp] theorem closeResidency_outlasts (s : State) (cid flags : Nat) : (closeResidency s cid flags).outlasts = s.outlasts :=
  (modCore_outlasts _ _ (by rfl)).trans (ite_keeps State.outlasts (profWrite_outlasts _ _ _ _) rfl)

/-! #### A core's context frozen -/

/-- A core whose residency ends as its patch freezes. -/
def freezeCore (s : State) (cid : Nat) : State := (closeResidency s cid 1).modCore cid fun c => c.setAct .frozen

theorem setAct_act (c : Core) (st : CtxState) : (c.setAct st).act = c.act := by
  unfold Core.setAct
  split <;> rfl

theorem setAct_place (c : Core) (st : CtxState) : (c.setAct st).place = c.place := by
  unfold Core.setAct
  split <;> rfl

theorem setAct_ctx {c : Core} {a : Nat} (h : c.act = some a) (st : CtxState) : ((c.setAct st).ctx a).st = st := by
  simp [Core.setAct, h, Core.ctx, Core.modCtx, tmod]

theorem freezeCore_layout (s : State) (cid : Nat) : (freezeCore s cid).layout = s.layout :=
  (modCore_layout _ _ (setAct_place _ _)).trans (closeResidency_layout s cid 1)

theorem freezeCore_act (s : State) (cid d : Nat) : ((freezeCore s cid).core d).act = (s.core d).act :=
  (core_modCore_keeps Core.act (setAct_act _ _) d).trans (congrArg (fun w => (w.2.2 d).1) (closeResidency_outlasts s cid 1))

/-- A core that stands in a frozen context. -/
def Core.Frozen (c : Core) : Prop := ∀ a, c.act = some a → (c.ctx a).st = .frozen

theorem freezeCore_frozen (s : State) (cid : Nat) : ((freezeCore s cid).core cid).Frozen := fun a h => by
  unfold freezeCore at h ⊢
  rw [State.core_modCore_same] at h ⊢
  exact setAct_ctx ((setAct_act _ _).symm.trans h) _

theorem Core.Frozen.freezeCore {s : State} {d : Nat} (h : (s.core d).Frozen) (cid : Nat) : ((freezeCore s cid).core d).Frozen := by
  by_cases hd : d = cid
  · exact hd ▸ freezeCore_frozen s d
  · have same : (((Machine.freezeCore s cid).core d).act, ((Machine.freezeCore s cid).core d).ctxs) = ((s.core d).act, (s.core d).ctxs) := by
      unfold Machine.freezeCore
      rw [State.core_modCore_other _ _ _ _ hd]
      exact congrArg (fun w => w.2.2 d) (closeResidency_outlasts s cid 1)
    obtain ⟨act, ctxs⟩ := Prod.mk.inj same
    intro a ha
    exact (congrArg (fun t => (tgetD t a ({} : Ctx)).st) ctxs).trans (h a (act ▸ ha))

theorem foldl_freezeCore_frozen (cs : List Nat) (s : State) (d : Nat) (h : d ∈ cs ∨ (s.core d).Frozen) :
    ((cs.foldl freezeCore s).core d).Frozen := by
  induction cs generalizing s with
  | nil => simpa using h
  | cons cid cs ih =>
    refine ih _ ?_
    by_cases hd : d = cid
    · exact .inr (hd ▸ freezeCore_frozen s d)
    · exact h.imp (fun h => (List.mem_cons.1 h).resolve_left hd) (·.freezeCore cid)

/-! #### The state at which a stop ends -/

/-- A stopped patch whose fault has been written. -/
def Patch.frozen (p : Patch) : Patch := { p with fault := none, extra := 0, st := .frozen }

/-- The blocks of a patch discarded and its cores frozen. -/
def frozenCores (s : State) (pt : Nat) : State := forCores (discardAll s pt) pt freezeCore

/-- The stop of a patch complete, and its record kept. -/
def stopped (s : State) (pt : Nat) (p : Patch) (f : FaultInfo) : State :=
  (keepFault (frozenCores s pt) p.lease (faultRecord (frozenCores s pt) p f p.extra)).modPatch pt Patch.frozen

section
variable {s : State} {pt : Nat} {p : Patch} {f : FaultInfo}

theorem frozenCores_layout (s : State) (pt : Nat) : (frozenCores s pt).layout = s.layout :=
  (forCores_keeps State.layout freezeCore_layout _ pt).trans (discardAll_layout s pt)

theorem frozenCores_frozen {d : Nat} (h : d ∈ patchCores s pt) : ((frozenCores s pt).core d).Frozen :=
  foldl_freezeCore_frozen _ _ d (.inl ((mem_patchCores_of_layout (discardAll_layout s pt) pt d).2 h))

theorem frozenCores_act (s : State) (pt d : Nat) : ((frozenCores s pt).core d).act = (s.core d).act :=
  (forCores_keeps (fun s => (s.core d).act) (fun s cid => freezeCore_act s cid d) _ pt).trans
    (congrArg (fun w => (w.2.2 d).1) (discardAll_outlasts s pt))

/-- Packets and leases are as they were, but for what leases profile. -/
theorem frozenCores_accounts (s : State) (pt : Nat) : (frozenCores s pt).pipe = s.pipe ∧
    ∀ l, ((frozenCores s pt).lease l).map Lease.unprofiled = (s.lease l).map Lease.unprofiled := by
  have froze : ∀ s cid, ((freezeCore s cid).outlasts.1, (freezeCore s cid).outlasts.2.1) = (s.outlasts.1, s.outlasts.2.1) := fun s cid =>
    congrArg (fun w => (w.1, w.2.1)) (closeResidency_outlasts s cid 1)
  have all := (forCores_keeps (fun s => (s.outlasts.1, s.outlasts.2.1)) froze (discardAll s pt) pt).trans
    (congrArg (fun w => (w.1, w.2.1)) (discardAll_outlasts s pt))
  obtain ⟨pipe, leases⟩ := Prod.mk.inj all
  exact ⟨pipe, congrFun leases⟩

/-! Whether a debug session is open, and what a fault's record says, do not depend on what leases profile. -/

theorem debugOn_congr {s t : State} {l : Nat} (h : (t.lease l).map Lease.unprofiled = (s.lease l).map Lease.unprofiled) :
    debugOn t l = debugOn s l := by
  have debug : ∀ u : State, debugOn u l = (((u.lease l).map Lease.unprofiled).map (·.debug)).getD false := fun u => by
    rw [Option.map_map]
    rfl
  rw [debug, debug, h]

theorem faultRecord_congr {s t : State} {p : Patch} (h : (t.lease p.lease).map Lease.unprofiled = (s.lease p.lease).map Lease.unprofiled)
    (f : FaultInfo) (extra : Nat) : faultRecord t p f extra = faultRecord s p f extra := by
  have gen : ∀ u : State, (u.lease p.lease).map (·.gen.toNat) = ((u.lease p.lease).map Lease.unprofiled).map (·.gen.toNat) := fun u => by
    rw [Option.map_map]
    rfl
  simp only [faultRecord, gen, h]

/-! What the record adds to the lease. -/

/-- A fault's record among those a lease keeps. -/
def Lease.record (L : Lease) (r : BitVec 512) : Lease := { L with faults := lastN 16 (L.faults ++ [r]), faultCount := L.faultCount + 1 }

theorem getLast?_lastN {α : Type} (n : Nat) (xs : List α) (x : α) : (lastN (n + 1) (xs ++ [x])).getLast? = some x := by
  unfold lastN
  rw [List.drop_append_of_le_length (by simp), List.getLast?_concat]

theorem keepFault_eq (s : State) (l : Nat) (r : BitVec 512) :
    ∃ m e, keepFault s l r = { s.modLease l (·.record r) with mem := m, events := e } := pfEvent_eq _ _ _ _

theorem stopped_eq (s : State) (pt : Nat) (p : Patch) (f : FaultInfo) : ∃ m e, stopped s pt p f =
    { ((frozenCores s pt).modLease p.lease (·.record (faultRecord (frozenCores s pt) p f p.extra))).modPatch pt Patch.frozen with
      mem := m, events := e } := by
  obtain ⟨m, e, h⟩ := keepFault_eq (frozenCores s pt) p.lease (faultRecord (frozenCores s pt) p f p.extra)
  exact ⟨m, e, by rw [stopped, h]; rfl⟩

theorem stopped_core (s : State) (pt : Nat) (p : Patch) (f : FaultInfo) (d : Nat) : (stopped s pt p f).core d = (frozenCores s pt).core d := by
  obtain ⟨m, e, h⟩ := stopped_eq s pt p f
  rw [h]
  rfl

theorem stopped_pkt (s : State) (pt : Nat) (p : Patch) (f : FaultInfo) (n : Nat) : (stopped s pt p f).pkt n = s.pkt n := by
  obtain ⟨m, e, h⟩ := stopped_eq s pt p f
  rw [h]
  exact congrArg (List.find? (·.num = n)) (frozenCores_accounts s pt).1

theorem stopped_patch (found : s.patch pt = some p) (f : FaultInfo) : (stopped s pt p f).patch pt = some p.frozen := by
  obtain ⟨m, e, h⟩ := stopped_eq s pt p f
  rw [h]
  refine (State.patch_modPatch_same _ _ _).trans ?_
  rw [show State.patch (State.modLease _ _ _) pt = _ from patch_eq_of_layout (frozenCores_layout s pt) pt, found]
  rfl

theorem stopped_lease (s : State) (pt : Nat) (p : Patch) (f : FaultInfo) :
    (stopped s pt p f).lease p.lease = ((frozenCores s pt).lease p.lease).map (·.record (faultRecord s p f p.extra)) := by
  obtain ⟨m, e, h⟩ := stopped_eq s pt p f
  rw [h, ← faultRecord_congr ((frozenCores_accounts s pt).2 p.lease)]
  exact State.lease_modLease_same (frozenCores s pt) p.lease fun L => L.record _

theorem stopped_debugOn (s : State) (pt : Nat) (p : Patch) (f : FaultInfo) : debugOn (stopped s pt p f) p.lease = debugOn s p.lease := by
  have before := debugOn_congr ((frozenCores_accounts s pt).2 p.lease)
  rw [← before]
  simp only [debugOn, stopped_lease, Option.map_map, Function.comp_def]
  rfl

end

/-! #### The end of the LAUNCH -/

/-- What the end of a packet leaves of a stopped patch: its cores' contexts, its lease, its fault and its state. -/
def State.atRest (s : State) (pt : Nat) : (Nat → Table Ctx) × Table Lease × Option (Option FaultInfo × PatchState) :=
  (fun d => (s.core d).ctxs, s.leases, (s.patch pt).map fun p => (p.fault, p.st))

theorem modPatch_atRest (s : State) (n : Nat) {f : Patch → Patch} (hf : ∀ p, ((f p).fault, (f p).st) = (p.fault, p.st)) (pt : Nat) :
    (s.modPatch n f).atRest pt = s.atRest pt := by
  have patch : ((s.modPatch n f).patch pt).map (fun p => (p.fault, p.st)) = (s.patch pt).map fun p => (p.fault, p.st) := by
    by_cases h : pt = n
    · rw [h, State.patch_modPatch_same, Option.map_map]
      exact congrArg (fun g => Option.map g (s.patch n)) (funext hf)
    · rw [State.patch_modPatch_other _ _ _ _ h]
  simp only [State.atRest, patch]
  rfl

theorem modCore_atRest (s : State) (cid : Nat) {f : Core → Core} (hf : (f (s.core cid)).ctxs = (s.core cid).ctxs) (pt : Nat) :
    (s.modCore cid f).atRest pt = s.atRest pt := by
  simp only [State.atRest, core_modCore_keeps Core.ctxs hf]
  rfl

theorem endStop_atRest (s : State) (n pt : Nat) : (endStop s n).atRest pt = s.atRest pt :=
  (forCores_keeps (·.atRest pt) (fun s cid => modCore_atRest s cid (by rfl) pt) _ n).trans (modPatch_atRest s n (fun _ => by rfl) pt)

theorem endPkt_atRest (s : State) (n status field : Nat) (result : BitVec 64) (pt : Nat) :
    (endPkt s n status field result).atRest pt = s.atRest pt := by
  unfold endPkt
  split
  · rfl
  · refine (foldl_keeps (·.atRest pt) (fun s (e : Nat × Patch) => endStop_atRest s e.1 pt) _ _).trans ?_
    obtain ⟨w, x, h⟩ := delist_eq _ _
    rw [h]
    rfl

/-! #### FAULT_STOP -/

section
variable {s : State} {pt : Nat} {p : Patch} {f : FaultInfo}

theorem faultStop_waits (found : s.patch pt = some p) (quiet : patchQuiet s pt = false) : exec (.faultStop pt) s = .next s := by
  show execFaultStop pt s = _
  simp only [execFaultStop, found]
  split
  · rfl
  · rw [if_pos (.inr (.inr (by rw [quiet]; rfl)))]

/-- A stop that ends is a debug stop, a stop after poison, or the LAUNCH's end. -/
theorem faultStop_ends (found : s.patch pt = some p) (fault : p.fault = some f) (stopping : p.st = .stopping) (free : p.stop = none)
    (quiet : patchQuiet s pt = true) : exec (.faultStop pt) s = .next (if f.cause = 0x0F ∧ debugOn s p.lease = true then
      (stopped s pt p f).modPatch pt fun p => { p with st := .debugStop }
    else if classOf f.cause f.sub = .b then stopped s pt p f
    else endPkt (stopped s pt p f) p.pk 17 0xFFFF (BitVec.ofNat 64 f.cause.toNat)) := by
  show execFaultStop pt s = _
  simp only [execFaultStop, found, fault, stopping, free, quiet]
  rw [if_neg (by simp)]
  rw [← stopped_debugOn s pt p f]
  rfl

/-- The state, the contexts and the lease that the ways of ending have in common. -/
structure StopEnds (s t : State) (pt : Nat) (p : Patch) (f : FaultInfo) (st : PatchState) : Prop where
  patch : (t.patch pt).map (fun q => (q.fault, q.st)) = some (none, st)
  frozen : ∀ c ∈ patchCores s pt, ∀ a, (s.core c).act = some a → ((t.core c).ctx a).st = .frozen
  lease : ∀ L, s.lease p.lease = some L → ∃ N, t.lease p.lease = some N ∧ N.faultCount = L.faultCount + 1 ∧
    N.faults.getLast? = some (faultRecord s p f p.extra)

theorem stopped_stopEnds (found : s.patch pt = some p) : StopEnds s (stopped s pt p f) pt p f .frozen where
  patch := by rw [stopped_patch found]; rfl
  frozen c hc a ha := by
    rw [stopped_core]
    exact frozenCores_frozen hc a ((frozenCores_act s pt c).trans ha)
  lease L hL := by
    obtain ⟨M, hM, same⟩ : ∃ M, (frozenCores s pt).lease p.lease = some M ∧ M.unprofiled = L.unprofiled := by
      simpa [hL] using (frozenCores_accounts s pt).2 p.lease
    refine ⟨_, by rw [stopped_lease, hM]; rfl, ?_, getLast?_lastN 15 _ _⟩
    exact congrArg (·.faultCount + 1) same

/-- What keeps the stopped patch at rest keeps the end of its stop. -/
theorem StopEnds.of_atRest {t u : State} {st st' : PatchState} (h : StopEnds s t pt p f st)
    (ctxs : ∀ d, (u.core d).ctxs = (t.core d).ctxs) (leases : u.leases = t.leases)
    (patch : (u.patch pt).map (fun q => (q.fault, q.st)) = some (none, st')) : StopEnds s u pt p f st' where
  patch := patch
  frozen c hc a ha := (congrArg (fun t => (tgetD t a ({} : Ctx)).st) (ctxs c)).trans (h.frozen c hc a ha)
  lease L hL := by
    obtain ⟨N, hN, records⟩ := h.lease L hL
    exact ⟨N, (congrArg (tfind · p.lease) leases).trans hN, records⟩

theorem stopEnds_debugStop (found : s.patch pt = some p) :
    StopEnds s ((stopped s pt p f).modPatch pt fun p => { p with st := .debugStop }) pt p f .debugStop :=
  (stopped_stopEnds found).of_atRest (fun _ => rfl) rfl (by rw [State.patch_modPatch_same, stopped_patch found]; rfl)

theorem stopEnds_endPkt (found : s.patch pt = some p) (n status field : Nat) (result : BitVec 64) :
    StopEnds s (endPkt (stopped s pt p f) n status field result) pt p f .frozen := by
  have rest := endPkt_atRest (stopped s pt p f) n status field result pt
  simp only [State.atRest, Prod.mk.injEq] at rest
  obtain ⟨ctxs, leases, patch⟩ := rest
  exact (stopped_stopEnds found).of_atRest (congrFun ctxs) leases (patch.trans (stopped_stopEnds (f := f) found).patch)

end

end Sys2Proof.Machine

/-! ### Commit, discard, and the end of a stop (R55, R151, R308, R335) -/

namespace Sys2Proof.Proofs

open Sys2Proof.Machine Sys2Proof.Safety Sys2Proof.Laws

/-- A stop that is complete, with what becomes of its LAUNCH. -/
theorem exec_faultStop {s : State} {pt : Nat} {p : Patch} {f : FaultInfo} (found : s.patch pt = some p) (fault : p.fault = some f)
    (stopping : p.st = .stopping) (free : p.stop = none) (quiet : patchQuiet s pt = true) : ∃ t, exec (.faultStop pt) s = .next t ∧
      StopEnds s t pt p f (if f.cause = 0x0F ∧ debugOn s p.lease = true then .debugStop else .frozen) ∧
      ∀ r, s.pkt p.pk = some r → r.stage ≠ .complete →
        if (f.cause = 0x0F ∧ debugOn s p.lease = true) ∨ classOf f.cause f.sub = .b then t.pkt p.pk = some r
        else Completed t p.pk 17 (BitVec.ofNat 64 f.cause.toNat) := by
  refine ⟨_, faultStop_ends found fault stopping free quiet, ?_⟩
  by_cases debug : f.cause = 0x0F ∧ debugOn s p.lease = true
  · simp only [if_pos debug, if_pos (Or.inl debug)]
    exact ⟨stopEnds_debugStop found, fun r hr _ => (stopped_pkt s pt p f p.pk).trans hr⟩
  · simp only [debug, false_or]
    by_cases poison : classOf f.cause f.sub = .b
    · simp only [if_pos poison]
      exact ⟨stopped_stopEnds found, fun r hr _ => (stopped_pkt s pt p f p.pk).trans hr⟩
    · simp only [if_neg poison]
      exact ⟨stopEnds_endPkt found _ _ _ _, fun r hr open' => endPkt_completed _ _ _ ((stopped_pkt s pt p f p.pk).trans hr) open'⟩

/-- Settles O48. -/
theorem blockEnds : Obligations.BlockEnds := by
  unfold Obligations.BlockEnds
  intro s cid pt k p x
  refine ⟨fun e R held inst broken complete step caps exit async link => ?_, fun u v R held inst broken complete all hv => ?_,
    fun y R held inst broken complete all => blockCommit_of_commitAll R held inst broken complete all,
    fun l R held inst broken complete all => blockCommit_of_commitAll R held inst broken complete all,
    fun R held inst broken => blockCommit_broken R held inst broken,
    fun R held inst broken open' quiet => blockCommit_unmet R held inst broken open' quiet,
    fun n inst stalled long => ?_, fun n inst stalled short => ?_, fun n r rest inst gen pinned stalled long => ?_,
    fun f found fault stopping free quiet => ?_, fun f found fault stopping quiet => faultStop_waits found quiet⟩
  · obtain ⟨t, ht, memory, out, takes, pool⟩ := blockCommit_exits R held inst broken complete step caps exit async link
    have traced := traceBlock_prompt s cid k 1 x
    refine ⟨t, ht, memory, out, by cases e <;> exact takes, fun writes => ?_, fun v writes => ?_⟩
    · rw [pool, writeRegs_none _ _ _ writes, pool_eq_of_prompt traced]
    · rw [pool, writeRegs_one _ _ _ writes, writeReg, State.core_modCore_same, writeG_pool_eq_of_prompt traced]
  · exact hv ▸ blockCommit_of_commitAll R held inst broken complete all
  · rw [undoStallTimeout_task inst, stalled, stalledOut_some, decide_eq_true long, if_pos rfl]
  · rw [undoStallTimeout_task inst, stalled, stalledOut_some, decide_eq_false (Nat.not_le.2 short), if_neg Bool.false_ne_true]
  · rw [undoStallTimeout_port inst gen, pinned, stalled, stalledOut_some, decide_eq_true long, Bool.and_self, if_pos rfl]
  · obtain ⟨t, ht, ⟨patch, frozen, lease⟩, launch⟩ := exec_faultStop found fault stopping free quiet
    obtain ⟨q, hq, rest⟩ := Option.map_eq_some_iff.1 patch
    obtain ⟨fault, st⟩ := Prod.mk.inj rest
    exact ⟨t, q, ht, hq, fault, st, frozen, lease, launch⟩

end Sys2Proof.Proofs

/-! # Numbers (R65 to R75): integer and floating arithmetic, conversions, representable values -/

/-! ### Integer arithmetic, element by element (R66, R184, R185) -/

namespace Sys2Proof.Laws

open Sys2Proof.Machine Sys2Proof.Safety

/-! #### Numbers below 2^n and bit vectors of n bits -/

theorem ofNat_wrap (n : Nat) (x : Int) : BitVec.ofNat n (wrap n x) = BitVec.ofInt n x := by
  have bound : 0 ≤ x % 2 ^ n := Int.emod_nonneg x (by positivity)
  apply BitVec.eq_of_toInt_eq
  rw [← BitVec.ofInt_natCast, wrap, Int.toNat_of_nonneg bound, BitVec.toInt_ofInt, BitVec.toInt_ofInt]
  exact_mod_cast Int.emod_bmod x (2 ^ n)

theorem sgn_toNat {n : Nat} (x : BitVec n) : sgn n x.toNat = x.toInt := by
  rw [sgn, Nat.mod_eq_of_lt x.isLt, BitVec.toInt_eq_toNat_cond, Nat.cast_pow, Nat.cast_ofNat]
  cases n with
  | zero => simp [BitVec.of_length_zero (x := x)]
  | succ m => simp only [Nat.add_sub_cancel, pow_succ', Nat.mul_lt_mul_left two_pos]

theorem rd_signed {n : Nat} (x : BitVec n) : rd false n x.toNat = x.toInt := sgn_toNat x

theorem rd_unsigned {n : Nat} (x : BitVec n) : rd true n x.toNat = x.toNat := rfl

theorem notN_toNat {n : Nat} (x : BitVec n) : notN n x.toNat = (~~~x).toNat := by
  rw [notN, Nat.mod_eq_of_lt x.isLt, BitVec.toNat_not]

theorem ofInt_intMin (n : Nat) : BitVec.ofInt n (-(2 ^ (n - 1))) = BitVec.intMin n := by
  cases n with
  | zero => exact Subsingleton.elim _ _
  | succ m => rw [← BitVec.toInt_intMin_of_pos (Nat.succ_pos m), BitVec.ofInt_toInt]

theorem ofInt_intMax (n : Nat) : BitVec.ofInt n (2 ^ (n - 1) - 1) = BitVec.intMax n := by
  rw [← BitVec.toInt_intMax, BitVec.ofInt_toInt]

theorem ofInt_allOnes (n : Nat) : BitVec.ofInt n (2 ^ n - 1) = BitVec.allOnes n := by
  rw [← Nat.cast_ofNat, ← Nat.cast_pow, ← Nat.cast_one, ← Nat.cast_sub Nat.one_le_two_pow, BitVec.ofInt_natCast,
    ← BitVec.toNat_allOnes, BitVec.ofNat_toNat, BitVec.setWidth_eq]

/-! #### The operations of R185 on elements of n bits -/

section
variable {n : Nat} (x y z : BitVec n)

theorem ofNat_toNat_same : BitVec.ofNat n x.toNat = x := by rw [BitVec.ofNat_toNat, BitVec.setWidth_eq]

theorem ofNat_clamp_signed (a : Int) : BitVec.ofNat n (wrap n (sat a (typeMin false n) (typeMax false n))) = clampS n a := by
  rw [ofNat_wrap, sat, apply_ite (BitVec.ofInt n), apply_ite (BitVec.ofInt n), clampS, ← ofInt_intMin, ← ofInt_intMax]
  rfl

theorem ofNat_clamp_unsigned (a : Int) : BitVec.ofNat n (wrap n (sat a (typeMin true n) (typeMax true n))) = clampZ n a := by
  rw [ofNat_wrap, sat, apply_ite (BitVec.ofInt n), apply_ite (BitVec.ofInt n), clampZ, ← ofInt_allOnes]
  rfl

theorem ofNat_subN : BitVec.ofNat n (subN n x.toNat y.toNat) = x - y := by
  apply BitVec.eq_of_toNat_eq
  have hy := y.isLt
  rw [BitVec.toNat_ofNat, subN, Nat.mod_mod, BitVec.toNat_sub]
  congr 1
  omega

theorem ofNat_satAdd (u : Bool) : BitVec.ofNat n (satAdd u n x.toNat y.toNat) =
    if u then clampZ n (x.toNat + y.toNat) else clampS n (x.toInt + y.toInt) := by
  cases u
  · rw [satAdd, ofNat_clamp_signed, rd_signed, rd_signed]
    rfl
  · exact ofNat_clamp_unsigned _

theorem ofNat_satSub (u : Bool) : BitVec.ofNat n (satSub u n x.toNat y.toNat) =
    if u then clampZ n (x.toNat - y.toNat) else clampS n (x.toInt - y.toInt) := by
  cases u
  · rw [satSub, ofNat_clamp_signed, rd_signed, rd_signed]
    rfl
  · exact ofNat_clamp_unsigned _

theorem ofNat_mulHigh_signed : BitVec.ofNat n (mulHigh false n x.toNat y.toNat) = BitVec.ofInt n (x.toInt * y.toInt / 2 ^ n) := by
  rw [mulHigh, ofNat_wrap, rd_signed, rd_signed]

theorem ofNat_mulHigh_unsigned : BitVec.ofNat n (mulHigh true n x.toNat y.toNat) = BitVec.ofNat n (x.toNat * y.toNat / 2 ^ n) := by
  rw [mulHigh, ofNat_wrap, rd_unsigned, rd_unsigned, ← BitVec.ofInt_natCast]
  push_cast
  rfl

theorem ofNat_minN_signed : BitVec.ofNat n (minN false n x.toNat y.toNat) = if x.toInt ≤ y.toInt then x else y := by
  simp only [minN, rd_signed, ← not_le, ite_not, apply_ite (BitVec.ofNat n), ofNat_toNat_same]

theorem ofNat_minN_unsigned : BitVec.ofNat n (minN true n x.toNat y.toNat) = if x.toNat ≤ y.toNat then x else y := by
  simp only [minN, rd_unsigned, ← not_le, ite_not, apply_ite (BitVec.ofNat n), ofNat_toNat_same, Nat.cast_le]

theorem ofNat_maxN_signed : BitVec.ofNat n (maxN false n x.toNat y.toNat) = if y.toInt ≤ x.toInt then x else y := by
  simp only [maxN, rd_signed, ← not_le, ite_not, apply_ite (BitVec.ofNat n), ofNat_toNat_same]

theorem ofNat_maxN_unsigned : BitVec.ofNat n (maxN true n x.toNat y.toNat) = if y.toNat ≤ x.toNat then x else y := by
  simp only [maxN, rd_unsigned, ← not_le, ite_not, apply_ite (BitVec.ofNat n), ofNat_toNat_same, Nat.cast_le]

theorem ofNat_absN : BitVec.ofNat n (absN n x.toNat) = if x.toInt < 0 then -x else x := by
  rw [absN, ofNat_wrap, sgn_toNat]
  split
  next neg => rw [Int.ofNat_natAbs_of_nonpos neg.le, BitVec.ofInt_neg, BitVec.ofInt_toInt]
  next pos => rw [Int.natAbs_of_nonneg (not_lt.1 pos), BitVec.ofInt_toInt]

theorem ofNat_negN : BitVec.ofNat n (negN n x.toNat) = -x := by
  apply BitVec.eq_of_toNat_eq
  rw [negN, Nat.mod_eq_of_lt x.isLt, BitVec.toNat_ofNat, Nat.mod_mod, BitVec.toNat_neg]

/-! #### Division (R66) -/

theorem toNat_eq_zero_iff : y.toNat = 0 ↔ y = 0 := BitVec.toNat_inj (y := 0#n)

theorem ofNat_quot_signed : BitVec.ofNat n (quot false n x.toNat y.toNat) =
    if y = 0 then BitVec.allOnes n else BitVec.ofInt n (x.toInt.tdiv y.toInt) := by
  simp only [quot, apply_ite (BitVec.ofNat n), toNat_eq_zero_iff, ofNat_wrap, rd_signed, ← BitVec.toNat_allOnes, ofNat_toNat_same]

theorem ofNat_quot_unsigned : BitVec.ofNat n (quot true n x.toNat y.toNat) = if y = 0 then BitVec.allOnes n else x / y := by
  have exact' : BitVec.ofInt n ((x.toNat : Int).tdiv y.toNat) = x / y := by
    rw [← Int.ofNat_tdiv, BitVec.ofInt_natCast, ← BitVec.toNat_udiv, ofNat_toNat_same]
  simp only [quot, apply_ite (BitVec.ofNat n), toNat_eq_zero_iff, ofNat_wrap, rd_unsigned, exact', ← BitVec.toNat_allOnes, ofNat_toNat_same]

theorem ofNat_remn_signed : BitVec.ofNat n (remn false n x.toNat y.toNat) =
    if y = 0 then x else BitVec.ofInt n (x.toInt.tmod y.toInt) := by
  simp only [remn, apply_ite (BitVec.ofNat n), toNat_eq_zero_iff, ofNat_wrap, rd_signed, ofNat_toNat_same]

theorem ofNat_remn_unsigned : BitVec.ofNat n (remn true n x.toNat y.toNat) = if y = 0 then x else x % y := by
  have exact' : BitVec.ofInt n ((x.toNat : Int).tmod y.toNat) = x % y := by
    rw [← Int.ofNat_tmod, BitVec.ofInt_natCast, ← BitVec.toNat_umod, ofNat_toNat_same]
  simp only [remn, apply_ite (BitVec.ofNat n), toNat_eq_zero_iff, ofNat_wrap, rd_unsigned, exact', ofNat_toNat_same]

end

/-! #### Operands and results by element -/

theorem lane_join (n : Nat) (xs : List Nat) (k : Nat) (hn : n * xs.length ≤ 512) : lane (join n xs) n k = BitVec.ofNat n (xs.getD k 0) := by
  apply BitVec.eq_of_toNat_eq
  rw [lane_toNat, elem_join n xs k hn, BitVec.toNat_ofNat]

/-- IMM in a 64-bit element is extended by EC[3] (R43). -/
theorem ofNat_imm_wide (u : Bool) (imm : BitVec 32) :
    BitVec.ofNat 64 (if u then imm.toNat else wrap 64 (sgn 32 imm.toNat)) = if u then imm.setWidth 64 else imm.signExtend 64 := by
  rw [apply_ite (BitVec.ofNat 64), ofNat_wrap, sgn_toNat, BitVec.ofNat_toNat, BitVec.signExtend]

/-- A narrower element takes the low bits of IMM (R43). -/
theorem ofNat_imm_narrow {n : Nat} (u : Bool) (imm : BitVec 32) (hn : n ≤ 32) :
    BitVec.ofNat n (imm.toNat % 2 ^ n) = if u then imm.setWidth n else imm.signExtend n := by
  rw [BitVec.signExtend_eq_setWidth_of_le _ hn, ite_self, ← BitVec.toNat_setWidth, ofNat_toNat_same]

theorem lane_opBInt (ec : IntEC) (b : Option (BitVec 32)) (v : Value) {k : Nat} (hk : k < intCount ec.w) :
    lane (opBInt ec b v) (intBits ec.w) k = laneB ec b v (intBits ec.w) k := by
  cases b with
  | none => rfl
  | some imm =>
    refine (lane_join _ _ k (List.length_replicate ▸ intBits_count ec.w)).trans ?_
    rw [List.getD_replicate _ hk]
    obtain ⟨u, w⟩ := ec
    cases w
    case s64 | d64 => exact ofNat_imm_wide u imm
    all_goals exact ofNat_imm_narrow u imm (Nat.le_of_ble_eq_true rfl)

/-- An instruction that may fire delivers a result whose every element is what an operation makes of its operands' elements; the bits above a
scalar are as R184 says. -/
def Elementwise (i : Instr) (h : Head) (ec : IntEC) (b : Option (BitVec 32)) (f : LaneOp) : Prop :=
  ∀ (s : State) (e : Env) (v : Vals), Firing i s h e v →
  ∃ r, exec i s = .next (e.result h r s) ∧ scalarRest ec r ∧ ∀ k < intCount ec.w, lane r (intBits ec.w) k =
    f (intBits ec.w) (lane v.a (intBits ec.w) k) (laneB ec b v.b (intBits ec.w) k) (lane v.c (intBits ec.w) k)

theorem elementwise_of_intMap {i : Instr} {h : Head} {ec : IntEC} {b : Option (BitVec 32)} {f : LaneOp} (g : Nat → Nat → Nat → Nat)
    (fires : ∀ {s e v}, Firing i s h e v → exec i s = .next (e.result h (intMap ec g v.a (opBInt ec b v.b) v.c) s))
    (same : ∀ x y z : BitVec (intBits ec.w), BitVec.ofNat (intBits ec.w) (g x.toNat y.toNat z.toNat) = f (intBits ec.w) x y z) :
    Elementwise i h ec b f := by
  refine fun s e v F => ⟨_, fires F, scalarRest_intMap ec g _ _ _, fun k hk => ?_⟩
  rw [← same, ← lane_opBInt ec b v.b hk, lane_toNat, lane_toNat, lane_toNat]
  apply BitVec.eq_of_toNat_eq
  rw [lane_toNat, elem_intMap ec g _ _ _ k hk, BitVec.toNat_ofNat]

section
variable {i : Instr} {h : Head} {ec : IntEC} {b : Option (BitVec 32)} {f : LaneOp}

theorem arithForm_elementwise (form : arithForm i = some (h, ec, b, f)) : Elementwise i h ec b f := by
  cases i <;> cases form
  case add => exact elementwise_of_intMap _ (issue_firing · _) fun x y _ => by simp [BitVec.ofNat_add]
  case sub => exact elementwise_of_intMap _ (issue_firing · _) fun x y _ => ofNat_subN x y
  case adds => exact elementwise_of_intMap _ (issue_firing · _) fun x y _ => ofNat_satAdd x y _
  case subs => exact elementwise_of_intMap _ (issue_firing · _) fun x y _ => ofNat_satSub x y _
  case mul => exact elementwise_of_intMap _ (issue_firing · _) fun x y _ => by simp [BitVec.ofNat_mul]
  case mulh => exact elementwise_of_intMap _ (issue_firing · _) fun x y _ => ofNat_mulHigh_signed x y
  case mulhz => exact elementwise_of_intMap _ (issue_firing · _) fun x y _ => ofNat_mulHigh_unsigned x y
  case mad => exact elementwise_of_intMap _ (issue_firing · _) fun x y z => by simp [BitVec.ofNat_add, BitVec.ofNat_mul]
  case and => exact elementwise_of_intMap _ (issue_firing · _) fun x y _ => by simp [BitVec.ofNat_and]
  case or => exact elementwise_of_intMap _ (issue_firing · _) fun x y _ => by simp [BitVec.ofNat_or]
  case xor => exact elementwise_of_intMap _ (issue_firing · _) fun x y _ => by simp [BitVec.ofNat_xor]
  case andn => exact elementwise_of_intMap _ (issue_firing · _) fun x y _ => by rw [notN_toNat, BitVec.ofNat_and, ofNat_toNat_same, ofNat_toNat_same]
  case orn => exact elementwise_of_intMap _ (issue_firing · _) fun x y _ => by rw [notN_toNat, BitVec.ofNat_or, ofNat_toNat_same, ofNat_toNat_same]
  case min => exact elementwise_of_intMap _ (issue_firing · _) fun x y _ => ofNat_minN_signed x y
  case max => exact elementwise_of_intMap _ (issue_firing · _) fun x y _ => ofNat_maxN_signed x y
  case minz => exact elementwise_of_intMap _ (issue_firing · _) fun x y _ => ofNat_minN_unsigned x y
  case maxz => exact elementwise_of_intMap _ (issue_firing · _) fun x y _ => ofNat_maxN_unsigned x y
  case abs => exact elementwise_of_intMap (fun a _ _ => absN _ a) (issue_firing · _) fun x _ _ => ofNat_absN x
  case neg => exact elementwise_of_intMap (fun a _ _ => negN _ a) (issue_firing · _) fun x _ _ => ofNat_negN x

theorem divForm_elementwise (form : divForm i = some (h, ec, b, f)) : Elementwise i h ec b f := by
  cases i <;> cases form
  case div => exact elementwise_of_intMap _ (issue_firing · _) fun x y _ => ofNat_quot_signed x y
  case divz => exact elementwise_of_intMap _ (issue_firing · _) fun x y _ => ofNat_quot_unsigned x y
  case rem => exact elementwise_of_intMap _ (issue_firing · _) fun x y _ => ofNat_remn_signed x y
  case remz => exact elementwise_of_intMap _ (issue_firing · _) fun x y _ => ofNat_remn_unsigned x y

end

end Sys2Proof.Laws

namespace Sys2Proof.Proofs

open Sys2Proof.Machine Sys2Proof.Safety Sys2Proof.Laws

/-- Settles O1: each instruction's operation on numbers is the operation of R185 or R66 on its elements. -/
theorem integerArithmetic : Obligations.IntegerArithmetic := by
  unfold Obligations.IntegerArithmetic
  rintro i h ec b f - (form | form)
  · exact arithForm_elementwise form
  · exact divForm_elementwise form

end Sys2Proof.Proofs

/-! ### Floating arithmetic and conversions, element by element (R69, R201 to R215) -/

namespace Sys2Proof.Laws

open Sys2Proof.Machine Sys2Proof.Safety

theorem fmtBits_count (ec : FltEC) : fmtBits ec.f * fltCount ec ≤ 512 := by
  obtain ⟨scalar, f⟩ := ec
  cases scalar <;> cases f <;> decide

/-- A floating result, element by element (R42). -/
theorem lane_fltMap (ec : FltEC) (g : Nat → Nat → Nat → Nat) (a b c : Value) {k : Nat} (hk : k < fltCount ec) :
    lane (fltMap ec g a b c) (fmtBits ec.f) k =
      BitVec.ofNat _ (g (elem a (fmtBits ec.f) k) (elem b (fmtBits ec.f) k) (elem c (fmtBits ec.f) k)) := by
  rw [fltMap, lane_join _ _ _ (by rw [List.length_map, List.length_range]; exact fmtBits_count ec), getD_map_range _ _ _ hk]

/-- A scalar form leaves zero above its element (R42). -/
theorem fltMap_lt_of_scalar {ec : FltEC} (scalar : ec.scalar = true) (g : Nat → Nat → Nat → Nat) (a b c : Value) :
    (fltMap ec g a b c).toNat < 2 ^ fmtBits ec.f := by
  refine (BitVec.toNat_ofNat _ _).trans_lt ((Nat.mod_le _ _).trans_lt ((joinN_lt _ _).trans_eq ?_))
  rw [List.length_map, List.length_range, fltCount, if_pos scalar, Nat.mul_one]

theorem dec_nan {f : Fmt} {x : Nat} (nan : isNanEnc f x = true) (ftz : Bool) : dec f ftz x = .nan := if_pos nan

section
variable {i : Instr} {h : Head} {ec : FltEC} {b : Option (BitVec 32)} {f : RMode → Bool → Nat → Nat → Nat → Nat}

/-- Where it may fire, an arithmetic form delivers its operation on every element. -/
theorem exec_floatForm (form : floatForm i = some (h, ec, b, f)) {s : State} {e : Env} {v : Vals} (F : Firing i s h e v) :
    exec i s = .next (e.result h (fltMap ec (f e.fenv.mode e.fenv.ftz) v.a (opBFlt ec b v.b) v.c) s) := by
  cases i <;> cases form
  all_goals exact issue_firing F _

/-- A NaN in A makes each operation's exact result a NaN, which rounds to the canonical one (R69). -/
theorem floatForm_nan (form : floatForm i = some (h, ec, b, f)) {x : Nat} (nan : isNanEnc ec.f x = true) (m : RMode) (ftz : Bool) (y z : Nat) :
    f m ftz x y z = canonNan ec.f := by
  have operand := dec_nan nan ftz
  cases i <;> cases form
  all_goals
    simp only [operand]
    rfl

end

end Sys2Proof.Laws

namespace Sys2Proof.Proofs

open Sys2Proof.Machine Sys2Proof.Safety Sys2Proof.Laws

/-- Settles O4: the result is the form's operation on every element, and a NaN of A stays one through each form. -/
theorem floatArithmetic : Obligations.FloatArithmetic := by
  unfold Obligations.FloatArithmetic
  intro i h ec b f form s e v F
  refine ⟨_, exec_floatForm form F, fun scalar => fltMap_lt_of_scalar scalar _ _ _ _, fun k hk => ?_⟩
  have element := lane_fltMap ec (f e.fenv.mode e.fenv.ftz) v.a (opBFlt ec b v.b) v.c hk
  exact ⟨element, fun nan => element.trans (congrArg _ (floatForm_nan form nan _ _ _ _))⟩

/-- Settles O7: each instruction has the effect of its own arm; `scaleb` is a map of its elements. -/
theorem conversionsComplete : Obligations.ConversionsComplete := by
  unfold Obligations.ConversionsComplete
  intro s h e v ec c rn
  exact ⟨fun F => issue_firing F _, fun F => issue_firing F _, fun F => issue_firing F _, fun F => issue_firing F _,
    fun F => issue_firing F _, fun F => ⟨_, issue_firing F _⟩, fun F => ⟨_, issue_firing F _, fun _ hk => lane_fltMap ec _ _ _ _ hk⟩,
    fun F => issue_firing F _⟩

end Sys2Proof.Proofs

/-! ### Representable values (R68, R72, R73)

A finite encoding decodes to m·2^q on the format's own grid, so the one rounding finds no remainder and writes the same fields again. -/

namespace Sys2Proof.Machine

/-! #### Rounding without a remainder -/

theorem floorLog2_one {m : Nat} (hm : m ≠ 0) : floorLog2 m 1 = Nat.log2 m := by
  have one : Nat.log2 1 = 0 := by decide
  simp [floorLog2, one, Nat.log2_self_le hm]

theorem roundsUp_exact (mode : RMode) (neg odd : Bool) : roundsUp mode neg odd 0 1 = false := by
  cases mode <;> simp [roundsUp]

theorem scaleTo_same (n d : Nat) (q : Int) : scaleTo n d q q = (n, d) := by
  simp [scaleTo]

/-- A value m·2^q on the format's grid: a normal significand, or a smaller one at the finest spacing (R68). -/
structure OnGrid (f : Fmt) (m : Nat) (q : Int) : Prop where
  nonzero : m ≠ 0
  above : fmtEsub f ≤ q
  place : Nat.log2 m = fmtPrec f - 1 ∨ Nat.log2 m < fmtPrec f - 1 ∧ q = fmtEsub f
  fits : exceeds f m q = false

variable {f : Fmt} {v m : Nat} {q : Int}

theorem OnGrid.spacing (G : OnGrid f m q) :
    (if (Nat.log2 m : Int) + q - (fmtPrec f - 1 : Nat) < fmtEsub f then fmtEsub f else (Nat.log2 m : Int) + q - (fmtPrec f - 1 : Nat)) = q := by
  have above := G.above
  obtain place | ⟨place, least⟩ := G.place <;> split <;> omega

/-- A value on the grid is rounded to its own encoding, in every mode (R72, R73). -/
theorem OnGrid.rndPos_eq (G : OnGrid f m q) (neg : Bool) (mode : RMode) (saturate : Bool) :
    rndPos f neg m 1 q mode saturate false = encFin f neg m q := by
  have far : ¬ (Nat.log2 m : Int) + q < fmtEsub f - 3000 := by have := G.above; omega
  simp only [rndPos, floorLog2_one G.nonzero, G.spacing, if_neg far, scaleTo_same, Nat.div_one, Nat.mod_one, roundsUp_exact, Bool.toNat_false,
    Nat.add_zero, if_neg G.nonzero, G.fits, Bool.false_and, Bool.false_eq_true, if_false]

/-- A power of two in range is rounded to its biased exponent, in every mode (R72). -/
theorem rndE8_exact {e : Int} (low : -127 ≤ e) (high : e ≤ 127) (mode : RMode) (saturate : Bool) :
    rndE8 false 1 1 e mode saturate = (e + 127).toNat := by
  have one : floorLog2 1 1 = 0 := by decide
  cases mode <;> simp only [rndE8, one, Int.zero_add, not_lt.2 low, not_lt.2 high, scaleTo_same, roundsUp_exact, Nat.sub_self,
    Bool.false_eq_true, if_false]

/-! #### The fields of an encoding (R68) -/

/-- The top bit of an encoding is its sign. -/
theorem signBit_encNeg (hf : f ≠ .e8m0) (hv : v < 2 ^ fmtBits f) :
    signBit f (encNeg f v) = 2 ^ (fmtBits f - 1) * (v / 2 ^ (fmtBits f - 1)) := by
  have top : v / 2 ^ (fmtBits f - 1) < 2 := Nat.div_lt_of_lt_mul (hv.trans_eq (by rw [← pow_succ]; cases f <;> rfl))
  obtain zero | one := Nat.le_one_iff_eq_zero_or_eq_one.1 (Nat.le_of_lt_succ top)
  · simp [signBit, encNeg, zero]
  · simp [signBit, encNeg, hf, one]

/-- Sign, exponent and fraction make up an encoding. -/
theorem enc_fields (hf : f ≠ .e8m0) (hv : v < 2 ^ fmtBits f) :
    signBit f (encNeg f v) + encExp f v * 2 ^ (fmtPrec f - 1) + encFrac f v = v := by
  have width : 2 ^ (fmtBits f - 1) = 2 ^ (fmtPrec f - 1) * 2 ^ (fmtBits f - fmtPrec f) := by rw [← pow_add]; cases f <;> rfl
  calc signBit f (encNeg f v) + encExp f v * 2 ^ (fmtPrec f - 1) + encFrac f v
      = 2 ^ (fmtPrec f - 1) * (2 ^ (fmtBits f - fmtPrec f) * (v / 2 ^ (fmtPrec f - 1) / 2 ^ (fmtBits f - fmtPrec f)) +
          v / 2 ^ (fmtPrec f - 1) % 2 ^ (fmtBits f - fmtPrec f)) + v % 2 ^ (fmtPrec f - 1) := by
        rw [signBit_encNeg hf hv, width, ← Nat.div_div_eq_div_mul, encExp, encFrac, if_neg hf, if_neg hf]
        ring
    _ = v := by rw [Nat.div_add_mod, Nat.div_add_mod]

theorem encFrac_lt (hf : f ≠ .e8m0) (v : Nat) : encFrac f v < 2 ^ (fmtPrec f - 1) := by
  rw [encFrac, if_neg hf]
  exact Nat.mod_lt _ (Nat.two_pow_pos _)

/-- A subnormal lies at the finest spacing, below the least normal. -/
theorem subnormal_onGrid (hf : f ≠ .e8m0) (frac : encFrac f v ≠ 0) : OnGrid f (encFrac f v) (fmtEsub f) where
  nonzero := frac
  above := le_rfl
  place := .inr ⟨(Nat.log2_lt frac).2 (encFrac_lt hf v), rfl⟩
  fits := by
    have small := (Nat.log2_lt frac).2 (encFrac_lt hf v)
    cases f <;> simp [exceeds, fmtEsub, fmtBias, fmtPrec, fmtEmax] at small ⊢ <;> omega

theorem log2_normal (hf : f ≠ .e8m0) (v : Nat) : Nat.log2 (2 ^ (fmtPrec f - 1) + encFrac f v) = fmtPrec f - 1 := by
  have lt := encFrac_lt hf v
  rw [Nat.log2_eq_iff (by positivity), pow_succ]
  omega

/-- A finite normal encoding's exponent is at most that of the largest finite value; e4m3's NaN stands where its next significand would. -/
theorem normal_onGrid (hf : f ≠ .e8m0) (exp : encExp f v ≠ 0) (nan : isNanEnc f v = false) (inf : isInfEnc f v = false) :
    OnGrid f (2 ^ (fmtPrec f - 1) + encFrac f v) (fmtEsub f + (encExp f v : Nat) - 1) where
  nonzero := by positivity
  above := by omega
  place := .inl (log2_normal hf v)
  fits := by
    rw [exceeds, log2_normal hf]
    cases f
    case e8m0 => exact absurd rfl hf
    all_goals
      simp [isNanEnc, isInfEnc, hasInf, encExp, encFrac, expMax, fmtEsub, fmtBias, fmtPrec, fmtBits, fmtEmax] at nan inf ⊢
      omega

/-! #### Writing the fields back -/

theorem encFin_subnormal (neg : Bool) (small : m < 2 ^ (fmtPrec f - 1)) : encFin f neg m q = signBit f neg + m := by
  have below : m ≠ 2 ^ (fmtPrec f - 1 + 1) := by rw [pow_succ]; omega
  simp only [encFin, if_neg below, if_pos small]

theorem encFin_normal (neg : Bool) {frac exp : Nat} (small : frac < 2 ^ (fmtPrec f - 1)) :
    encFin f neg (2 ^ (fmtPrec f - 1) + frac) (fmtEsub f + (exp : Nat) - 1) = signBit f neg + exp * 2 ^ (fmtPrec f - 1) + frac := by
  have below : 2 ^ (fmtPrec f - 1) + frac ≠ 2 ^ (fmtPrec f - 1 + 1) := by rw [pow_succ]; omega
  have normal : ¬ 2 ^ (fmtPrec f - 1) + frac < 2 ^ (fmtPrec f - 1) := by omega
  have field : (fmtEsub f + (exp : Nat) - 1 - fmtEsub f + 1).toNat = exp := by omega
  simp only [encFin, if_neg below, if_neg normal, field, Nat.add_sub_cancel_left]

/-! #### A finite encoding decoded and rounded back -/

section
variable (hf : f ≠ .e8m0) (hv : v < 2 ^ fmtBits f) (nan : isNanEnc f v = false) (inf : isInfEnc f v = false) (mode : RMode) (saturate : Bool)
include hf hv nan inf

theorem rnd_dec_small (exp : encExp f v = 0) : rnd f (dec f false v).exact mode saturate false = v := by
  have fields := enc_fields hf hv
  rw [exp, Nat.zero_mul, Nat.add_zero] at fields
  have value : dec f false v = .fin (encNeg f v) (encFrac f v) (fmtEsub f) := by simp [dec, nan, inf, hf, exp]
  by_cases frac : encFrac f v = 0
  · rw [frac, Nat.add_zero] at fields
    simp only [value, FV.exact, frac, rnd, if_neg hf, if_true, encZero, fields]
  · simp only [value, FV.exact, if_neg frac, rnd, if_neg hf, (subnormal_onGrid hf frac).rndPos_eq, encFin_subnormal _ (encFrac_lt hf v), fields]

theorem rnd_dec_normal (exp : encExp f v ≠ 0) : rnd f (dec f false v).exact mode saturate false = v := by
  have grid := normal_onGrid hf exp nan inf
  have value : dec f false v = .fin (encNeg f v) (2 ^ (fmtPrec f - 1) + encFrac f v) (fmtEsub f + (encExp f v : Nat) - 1) := by
    simp [dec, nan, inf, hf, exp]
  simp only [value, FV.exact, if_neg grid.nonzero, rnd, if_neg hf, grid.rndPos_eq, encFin_normal _ (encFrac_lt hf v), enc_fields hf hv]

end

/-- A scale is a power of two, which e8m0 holds (R68, R72). -/
theorem rnd_dec_e8m0 (hv : v < 2 ^ fmtBits .e8m0) (nan : isNanEnc .e8m0 v = false) (mode : RMode) (saturate : Bool) :
    rnd .e8m0 (dec .e8m0 false v).exact mode saturate false = v := by
  have byte : v < 256 := hv
  have finite : v ≠ 255 := by simpa [isNanEnc, Nat.mod_eq_of_lt byte] using nan
  have value : dec .e8m0 false v = .fin false 1 ((v : Int) - 127) := by simp [dec, nan, isInfEnc, hasInf, Nat.mod_eq_of_lt byte]
  simp only [value, FV.exact, rnd, if_true, one_ne_zero, if_false]
  rw [rndE8_exact (by omega) (by omega)]
  omega

end Sys2Proof.Machine

namespace Sys2Proof.Proofs

open Sys2Proof.Machine

/-- Settles O5: by the format (e8m0 holds powers of two alone) and, in the others, by whether the exponent field is 0. -/
theorem representableIsExact : Obligations.RepresentableIsExact := by
  unfold Obligations.RepresentableIsExact
  intro f v mode saturate hv nan inf
  by_cases hf : f = .e8m0
  · subst hf
    exact rnd_dec_e8m0 hv nan mode saturate
  · by_cases exp : encExp f v = 0
    · exact rnd_dec_small hf hv nan inf mode saturate exp
    · exact rnd_dec_normal hf hv nan inf mode saturate exp

end Sys2Proof.Proofs

/-! # Launching (R82 to R104, R139, R145, R372 to R380): queue windows, packets and their stages, leases, the PF's commands -/

/-! ### Queue windows (R83 to R85, R96, R290) -/

namespace Sys2Proof.Machine

open Sys2Proof.Safety

/-- A posted write of a function waits behind an earlier one that waits (R290). -/
theorem inOrder_posted {s : State} {fn : Nat} (h : ¬ NonePosted s fn) (i : Instr) (go : State → State) :
    inOrder s fn i go = { s with posted := s.posted ++ [i] } := by
  have : (s.posted.any fun j => postedBy j = some fn) = true := by simpa [NonePosted] using h
  simp only [inOrder, this, if_true]

/-- A list of whole size is one piece. -/
theorem chunks_one {α : Type} {k n : Nat} {xs : List α} (hx : xs ≠ []) (hk : xs.length = k) (hn : n ≠ 0) : chunks k n xs = [xs] := by
  obtain ⟨n, rfl⟩ := Nat.exists_eq_succ_of_ne_zero hn
  have rest : chunks k n ([] : List α) = [] := by cases n <;> rfl
  have whole : xs.take k = xs ∧ xs.drop k = [] := by simp [← hk]
  simp only [chunks, List.isEmpty_iff, if_neg hx, whole, rest]

section
variable {s : State} {fn q : Nat} (own : ownsQueue s fn q = true)
include own

/-- An aligned unit of 64 bytes below the status words is a host packet (R83). -/
theorem packetPut_unit {off : Nat} {bs : List Byte} (aligned : off % 64 = 0) (low : off < 0xFC0) (unit : bs.length = 64) :
    packetPut fn q off bs s = hostPacket s q bs := by
  have one : (chunks 64 bs.length bs).take ((0xFC0 - off) / 64) = [bs] := by
    rw [chunks_one (by rintro rfl; simp at unit) unit (by omega)]
    exact List.take_of_length_le (by simp only [List.length_singleton]; omega)
  have good : ¬ (off % 64 ≠ 0 ∨ bs.length < 64 ∨ 0xFC0 ≤ off) := by omega
  rw [packetPut, own, if_neg (by decide), if_neg (by omega), if_neg (by omega), if_neg (by omega), if_neg good, one]
  exact if_pos unit

/-- Any other write away from the words that take one is counted (R83). -/
theorem packetPut_bad {off : Nat} {bs : List Byte} (bad : off % 64 ≠ 0 ∨ bs.length < 64 ∨ 0xFC0 ≤ off) (h8 : off ≠ 0xFC8) (hC : off ≠ 0xFCC)
    (h0 : off ≠ 0xFD0) : packetPut fn q off bs s = badWrite s q := by
  rw [packetPut, own, if_neg (by decide), if_neg (by omega), if_neg (by omega), if_neg (by omega), if_pos bad]

/-- A word written at OVFL's place (R6, R85). -/
theorem packetPut_ovfl {bs : List Byte} (word : bs.length = 4) : packetPut fn q 0xFC8 bs s = clearOvfl s q (BitVec.ofNat 32 (bytesNat bs)) := by
  rw [packetPut, own, if_neg (by decide), if_neg (by omega), if_neg (by omega), if_pos ⟨rfl, word⟩]

theorem resumePut_own (v : BitVec 32) : resumePut fn q v s = doResume s q v := if_pos own

theorem cheadPut_own (v : BitVec 32) : cheadPut fn q v s = doChead s q v := if_pos own

end

end Sys2Proof.Machine

namespace Sys2Proof.Proofs

open Sys2Proof.Machine Sys2Proof.Safety

section
variable {s : State} {fn q : Nat}

section
variable (free : NonePosted s fn)
include free

theorem exec_packetWrite (off : Nat) (bs : List Byte) : exec (.packetWrite fn q off bs) s = .next (packetPut fn q off bs s) :=
  congrArg Host.Outcome.next (inOrder_nonePosted free _ _)

theorem exec_resume (own : ownsQueue s fn q = true) (v : BitVec 32) : exec (.resume fn q v) s = .next (doResume s q v) :=
  congrArg Host.Outcome.next ((inOrder_nonePosted free _ _).trans (resumePut_own own v))

theorem exec_chead (own : ownsQueue s fn q = true) (v : BitVec 32) : exec (.chead fn q v) s = .next (doChead s q v) :=
  congrArg Host.Outcome.next ((inOrder_nonePosted free _ _).trans (cheadPut_own own v))

end

/-- INGEST of a queue that round-robin names, on a device that runs (R96). -/
theorem exec_ingest {v : Value} {r : List Value} (runs : s.stopped = false) (awake : s.quiesced = false) (next : nextQueue s = some q)
    (here : vfOut s (s.queue q).vf = false) (ring : (s.queue q).ring = v :: r) : exec (.ingest q) s =
      .next { s.modQueue q (fun w => { w with ring := r, head := w.head + 1 }) with
        pipe := s.pipe ++ [newPkt s q v], nextPkt := s.nextPkt + 1, ingestNext := (q + 1) % 1024 } := by
  show execIngest q s = _
  have turn : ¬ (s.quiesced = true ∨ nextQueue s ≠ some q) := by simp [awake, next]
  simp only [execIngest, runs, here, Bool.false_eq_true, if_false, if_neg turn, ring]

end

/-- Settles O29. -/
theorem queueWindows : Obligations.QueueWindows := by
  unfold Obligations.QueueWindows
  intro s fn q hfn hq
  have own : ownsQueue s fn q = true := by simp [ownsQueue, hfn, hq]
  refine ⟨fun free => ⟨fun off bs aligned low unit room => ?_, fun off bs aligned low unit full => ?_, fun off bs bad h8 hC h0 => ?_,
    fun bs word => ?_, ?_, fun v hv => ?_, fun v hv => ?_, fun v hv => ?_⟩, fun i posted write => ?_,
    fun v r runs awake next here ring => ?_⟩
  · rw [exec_packetWrite free, packetPut_unit own aligned low unit, hostPacket, if_pos room, enqueuePacket]
  · rw [exec_packetWrite free, packetPut_unit own aligned low unit, hostPacket, full, if_neg Bool.false_ne_true]
  · rw [exec_packetWrite free, packetPut_bad own bad h8 hC h0]
    rfl
  · rw [exec_packetWrite free, packetPut_ovfl own word]
    rfl
  · rw [exec_resume free own, doResume, if_pos rfl]
  · rw [exec_resume free own, doResume, if_neg hv]
  · rw [exec_chead free own, doChead, if_pos hv]
  · rw [exec_chead free own, doChead, if_neg (Nat.not_le.2 hv)]
  · rcases write with ⟨off, bs, rfl⟩ | ⟨v, rfl⟩ | ⟨v, rfl⟩ <;> exact congrArg Host.Outcome.next (inOrder_posted posted _ _)
  · refine ⟨_, newPkt s q v, exec_ingest runs awake next (by rwa [hq]) ring, rfl, rfl, rfl, rfl, rfl, rfl, ?_⟩
    show ((s.modQueue q fun w => { w with ring := r, head := w.head + 1 }).queue q).ring = _ ∧
      ((s.modQueue q fun w => { w with ring := r, head := w.head + 1 }).queue q).head = _
    rw [State.queue_modQueue_same]
    exact ⟨rfl, rfl⟩

end Sys2Proof.Proofs

/-! ### What packets do (R87 to R93)

What a read, a write and a request for a seal leave of the pipeline, then each packet type's own step. -/

namespace Sys2Proof.Machine

open Sys2Proof.Safety

/-! #### Packets found in a pipeline -/

theorem State.pkt_of_pipe {s t : State} (h : t.pipe = s.pipe) (n : Nat) : t.pkt n = s.pkt n := by
  unfold State.pkt
  rw [h]

/-- A pipeline changed packet by packet, each keeping its number. -/
theorem State.pkt_of_map {s t : State} {f : Pkt → Pkt} (h : t.pipe = s.pipe.map f) (hf : ∀ p, (f p).num = p.num) (n : Nat) :
    t.pkt n = (s.pkt n).map f := by
  unfold State.pkt
  rw [h, List.find?_map]
  simp only [Function.comp_def, hf]

/-- The packet that is found, changed. -/
theorem State.pkt_modPkt_some {s : State} {n : Nat} {p : Pkt} (h : s.pkt n = some p) {f : Pkt → Pkt} (hf : (f p).num = n) :
    (s.modPkt n f).pkt n = some (f p) := by
  rw [State.pkt_modPkt s n f fun q hq => by rw [h] at hq; cases hq; exact hf, h]
  rfl

/-- A packet's end leaves the memory. -/
theorem endPkt_mem (s : State) (n status field : Nat) (result : BitVec 64) : (endPkt s n status field result).mem = s.mem := by
  obtain ⟨o, w, x, m, p, c, h⟩ := endPkt_eq s n status field result
  rw [h]

/-- A packet's end leaves the seal protocol. -/
theorem endPkt_sl (s : State) (n status field : Nat) (result : BitVec 64) : (endPkt s n status field result).sl = s.sl := by
  obtain ⟨o, w, x, m, p, c, h⟩ := endPkt_eq s n status field result
  rw [h]

/-- A packet that acts and whose pipeline stands completes as it is told. -/
theorem endPkt_completed_of_pipe {s t : State} {p : Pkt} (h : s.pkt p.num = some p) (hs : p.stage ≠ .complete) (ht : t.pipe = s.pipe)
    (status : Nat) (result : BitVec 64) : Completed (endPkt t p.num status 0xFFFF result) p.num status result :=
  endPkt_completed _ _ _ ((State.pkt_of_pipe ht _).trans h) hs

/-! #### What the strip's reads and writes touch -/

theorem chargePa_eq (s : State) (pa n : Nat) : ∃ o, chargePa s pa n = { s with owners := o } := by
  unfold chargePa
  split
  · exact ⟨_, rfl⟩
  · exact ⟨s.owners, rfl⟩

/-- A counted read touches the meters and the injection block alone (R358, R417). -/
theorem countRead_eq (s : State) (l : Nat) (x : Loc) (n : Nat) : ∃ o i, countRead s l x n = { s with owners := o, inject := i } := by
  have charged : ∃ o, chargeRead s x n = { s with owners := o } := by
    unfold chargeRead
    split
    · exact chargePa_eq _ _ _
    · exact ⟨s.owners, rfl⟩
  obtain ⟨o, ho⟩ := charged
  unfold countRead noteRead
  rw [ho]
  split
  · exact ⟨o, s.inject, rfl⟩
  · exact ⟨o, _, rfl⟩

theorem tellSignal_eq (s : State) (l line : Nat) (on : Bool) : ∃ m, tellSignal s l line on = { s with peerOut := m } := by
  unfold tellSignal
  split
  · exact ⟨_, rfl⟩
  · exact ⟨s.peerOut, rfl⟩

/-- A waiter registered touches the waiters and what is told to peers (R95, R291). -/
theorem enlist_eq (s : State) (w : Waiter) (old : Waiter → Bool) :
    ∃ m, enlist s w old = { s with waiters := w :: s.waiters.filter (fun x => ! old x), peerOut := m } := by
  unfold enlist
  split
  · exact ⟨s.peerOut, rfl⟩
  · exact tellSignal_eq _ _ _ _

/-- Waiters of a line woken (R95): their packets read again. -/
def wokenPkt (s : State) (line : Nat) (p : Pkt) : Pkt :=
  if s.waiters.any (fun w => w.line = line && w.pk = some p.num) then { p with registered := false } else p

theorem wokenPkt_num (s : State) (line : Nat) (p : Pkt) : (wokenPkt s line p).num = p.num := by
  unfold wokenPkt
  split <;> rfl

theorem wokenPkt_stage (s : State) (line : Nat) (p : Pkt) : (wokenPkt s line p).stage = p.stage := by
  unfold wokenPkt
  split <;> rfl

theorem logLine_eq (s : State) (pa : Nat) (recov : Bool) (r : Rin) :
    ∃ o u g, logLine s pa recov r = { s with owners := o, undo := u, lineTags := g } := by
  unfold logLine
  split
  · obtain ⟨o, ho⟩ := chargePa_eq s pa 128
    dsimp only
    rw [ho]
    exact ⟨o, _, _, rfl⟩
  · exact ⟨s.owners, s.undo, s.lineTags, rfl⟩

/-- A write to device memory (R305): the bytes, the packets that wait on the line, and accounts of its own. -/
theorem devWrite_eq (s : State) (pa : Nat) (bs : List Byte) (recov : Bool) (r : Rin) : ∃ o u g x b w m, devWrite s pa bs recov r =
    { s with mem := s.mem.write pa bs, pipe := s.pipe.map (wokenPkt s (pa / 64)), owners := o, undo := u, lineTags := g, sl := x,
             poison := b, waiters := w, peerOut := m } := by
  unfold devWrite
  obtain ⟨o, u, g, hl⟩ := logLine_eq s pa recov r
  obtain ⟨x, hx⟩ := earlySeal_eq (logLine s pa recov r) (ctrlOf pa)
  obtain ⟨o', ho⟩ := chargePa_eq (earlySeal (logLine s pa recov r) (ctrlOf pa)) pa bs.length
  rw [ho, hx, hl]
  exact ⟨o', u, g, x, _, _, _, rfl⟩

theorem nodeSaw_eq (s : State) (l : Loc) (r : Rin) : ∃ k, nodeSaw s l r = { s with nodeRins := k } := by
  unfold nodeSaw
  split
  · exact ⟨_, rfl⟩
  · exact ⟨s.nodeRins, rfl⟩

/-- A word stored by the strip in device memory: neither poison nor undo space in the way (R305, R308). -/
theorem stripStore_dev {s : State} {pa : Nat} {recov : Bool} (clean : locPoisoned s (.dev pa recov) = false)
    (room : undoStalls s pa recov s.sl.cur = false) (lease : Nat) (bs : List Byte) : ∃ t, stripStore s lease (.dev pa recov) bs = some t ∧
      t.mem = s.mem.write pa bs ∧ t.pipe = s.pipe.map (wokenPkt s (pa / 64)) ∧ t.queues = s.queues := by
  obtain ⟨k, hk⟩ := nodeSaw_eq s (.dev pa recov) s.sl.cur
  obtain ⟨o, u, g, x, b, w, m, hd⟩ := devWrite_eq (nodeSaw s (.dev pa recov) s.sl.cur) pa bs recov s.sl.cur
  refine ⟨nodeWrite s (.dev pa recov) bs s.sl.cur, ?_, ?_⟩
  · simp only [stripStore, clean, room, Bool.false_and, Bool.false_eq_true, if_false]
  · rw [nodeWrite, hd, hk]
    exact ⟨rfl, rfl, rfl⟩

/-- A packet that stores a word in device memory and then ends (R89, R98). -/
theorem stripStore_endPkt {s : State} {p : Pkt} (h : s.pkt p.num = some p) (hs : p.stage ≠ .complete) {pa : Nat} {recov : Bool}
    (clean : locPoisoned s (.dev pa recov) = false) (room : undoStalls s pa recov s.sl.cur = false) (lease : Nat) (bs : List Byte) :
    ∃ t, stripStore s lease (.dev pa recov) bs = some t ∧ Completed (endPkt t p.num 0 0xFFFF 0) p.num 0 0 ∧
      (endPkt t p.num 0 0xFFFF 0).mem = s.mem.write pa bs := by
  obtain ⟨t, ht, mem, pipe, -⟩ := stripStore_dev clean room lease bs
  have found : t.pkt p.num = some (wokenPkt s (pa / 64) p) := by rw [State.pkt_of_map pipe (wokenPkt_num s _), h]; rfl
  exact ⟨t, ht, endPkt_completed _ _ _ found (by rwa [wokenPkt_stage]), (endPkt_mem _ _ _ _ _).trans mem⟩

theorem requestSeal_pipe (s : State) (irr : Bool) : (requestSeal s irr).pipe = s.pipe := by
  obtain ⟨x, h⟩ := requestSeal_eq s irr
  rw [h]

/-- A request for a seal on the coordinator itself is noted there (R309). -/
theorem requestSeal_requested {s : State} (own : s.sl.device = s.sl.coordinator) (irr : Bool) : (requestSeal s irr).sl.requested = true := by
  rw [requestSeal, if_pos own]

end Sys2Proof.Machine

namespace Sys2Proof.Proofs

open Sys2Proof.Machine Sys2Proof.Safety

section
variable {s : State} {p : Pkt}

theorem exec_launch (act : actOf s 1 = some p) :
    exec .launch s = .next (s.modPkt p.num fun q => { q with stage := .place, ready := some s.time }) := by
  show execLaunch s = _
  simp only [execLaunch, act]

theorem exec_copy (act : actOf s 4 = some p) : exec .copy s = .next (s.modPkt p.num fun q => { q with stage := .launch, began := s.time }) := by
  show execCopy s = _
  simp only [execCopy, act]

theorem exec_marker (act : actOf s 7 = some p) : ∃ t, exec .marker s = .next t ∧ Completed t p.num 0 (BitVec.ofNat 64 p.ingest) ∧
    t.mem = s.mem := by
  obtain ⟨found, stage⟩ := actOf_pkt act
  refine ⟨endPkt s p.num 0 0xFFFF (BitVec.ofNat 64 p.ingest), ?_, endPkt_completed _ _ _ found (by simp [stage]), endPkt_mem _ _ _ _ _⟩
  show execMarker s = _
  simp only [execMarker, act]

/-- WAIT reads its signal: it completes where the comparison holds and stays where it does not (R88). -/
theorem exec_wait {l : Loc} {c : Cond} (act : actOf s 2 = some p) (loc : stripLoc s p.lease (pkAddr p.words) = some l)
    (cond : condOf (BitVec.ofNat 4 (natBits (pkWord p.words 4) 52 4)) = some c) (clean : readBad s p.lease l = false) :
    if condHolds c 64 (bytesNat (nodeRead s p.lease l 8)) (pkWord p.words 5) then
      ∃ t, exec .wait s = .next t ∧ Completed t p.num 0 0 ∧ t.mem = s.mem
    else ∃ t, exec .wait s = .next t ∧ t.pipe = s.pipe ∧ t.mem = s.mem := by
  obtain ⟨found, stage⟩ := actOf_pkt act
  have step : exec .wait s = execWait s := rfl
  simp only [step, execWait, act, loc, cond, clean, Bool.false_eq_true, if_false]
  split
  · exact ⟨_, rfl, endPkt_completed_of_pipe found (by simp [stage]) (countRead_pipe s p.lease l 8) _ _,
      (endPkt_mem _ _ _ _ _).trans (countRead_mem _ _ _ _)⟩
  · refine ⟨_, rfl, ?_⟩
    split
    · exact ⟨countRead_pipe _ _ _ _, countRead_mem _ _ _ _⟩
    · obtain ⟨m, hm⟩ := enlist_eq (countRead s p.lease l 8) (pkWaiter p (pkAddr p.words) l) fun _ => false
      rw [hm]
      exact ⟨countRead_pipe _ _ _ _, countRead_mem _ _ _ _⟩

/-- SIGNAL that sets its signal (R89). -/
theorem exec_signal_set {pa : Nat} {recov : Bool} (act : actOf s 3 = some p) (loc : stripLoc s p.lease (pkAddr p.words) = some (.dev pa recov))
    (set : natBits (pkWord p.words 4) 52 2 = 0) (clean : locPoisoned s (.dev pa recov) = false)
    (room : undoStalls s pa recov s.sl.cur = false) :
    ∃ t, exec .signal s = .next t ∧ Completed t p.num 0 0 ∧ t.mem = s.mem.write pa (natBytes 8 (pkWord p.words 5)) := by
  obtain ⟨found, stage⟩ := actOf_pkt act
  obtain ⟨t, ht, done⟩ := stripStore_endPkt found (by simp [stage]) clean room p.lease (natBytes 8 (pkWord p.words 5))
  refine ⟨_, ?_, done⟩
  show execSignal s = _
  simp only [execSignal, act, loc, set, ht, zero_ne_one, decide_false, Bool.false_and, Bool.false_eq_true, if_false]

/-- SIGNAL that adds to its signal (R89). -/
theorem exec_signal_add {pa : Nat} {recov : Bool} (act : actOf s 3 = some p) (loc : stripLoc s p.lease (pkAddr p.words) = some (.dev pa recov))
    (add : natBits (pkWord p.words 4) 52 2 = 1) (calm : injected s p.lease (.dev pa recov) = false)
    (clean : locPoisoned s (.dev pa recov) = false) (room : undoStalls s pa recov s.sl.cur = false) :
    ∃ t, exec .signal s = .next t ∧ Completed t p.num 0 0 ∧
      t.mem = s.mem.write pa (natBytes 8 ((bytesNat (nodeRead s p.lease (.dev pa recov) 8) + pkWord p.words 5) % 2 ^ 64)) := by
  obtain ⟨found, stage⟩ := actOf_pkt act
  obtain ⟨o, i, hc⟩ := countRead_eq s p.lease (.dev pa recov) 8
  obtain ⟨t, ht, done⟩ := stripStore_endPkt (s := { s with owners := o, inject := i }) found (by simp [stage]) clean room p.lease
    (natBytes 8 ((bytesNat (nodeRead s p.lease (.dev pa recov) 8) + pkWord p.words 5) % 2 ^ 64))
  refine ⟨_, ?_, done⟩
  show execSignal s = _
  simp only [execSignal, act, loc, add, calm, hc, ht, decide_true, Bool.and_false, Bool.false_eq_true, if_false, if_true]

/-- SEALRQ without WAITSEAL completes at once, with it at the SEALED of the interval current now (R91). -/
theorem exec_sealrq (act : actOf s 5 = some p) : exec .sealrq s = .next (
    if (pkWord p.words 4).testBit 0 then
      (requestSeal s false).modPkt p.num fun q => { q with stage := .running, sealFor := some s.sl.cur }
    else endPkt (requestSeal s false) p.num 0 0xFFFF 0) := by
  show execSealrq s = _
  simp only [execSealrq, act]

end

/-- Settles O30. -/
theorem packetEffects : Obligations.PacketEffects := by
  unfold Obligations.PacketEffects
  intro s p
  refine ⟨exec_launch, exec_copy, exec_marker, fun l c => exec_wait, fun pa recov => exec_signal_set, fun pa recov => exec_signal_add,
    fun act now => ?_, fun act waits => ?_, fun act own => ?_⟩
  · obtain ⟨found, stage⟩ := actOf_pkt act
    rw [exec_sealrq act, now, if_neg Bool.false_ne_true]
    exact ⟨_, rfl, endPkt_completed_of_pipe found (by simp [stage]) (requestSeal_pipe s false) _ _⟩
  · obtain ⟨found, -⟩ := actOf_pkt act
    rw [exec_sealrq act, waits, if_pos rfl]
    exact ⟨_, rfl, State.pkt_modPkt_some ((State.pkt_of_pipe (requestSeal_pipe s false) _).trans found) rfl⟩
  · refine ⟨_, exec_sealrq act, ?_⟩
    split
    · exact requestSeal_requested own false
    · rw [endPkt_sl]
      exact requestSeal_requested own false

end Sys2Proof.Proofs

/-! ### The stages of a packet (R86, R94 to R99)

Validate, depend with its dependences, complete with its signal, and the aging of a packet that waits to be placed. -/

namespace Sys2Proof.Machine

open Sys2Proof.Safety

/-! #### Dependences -/

/-- Reads counted one after the other touch the meters and the injection block alone. -/
theorem foldl_countRead_eq (ls : List Loc) (l n : Nat) (s : State) :
    ∃ o i, ls.foldl (fun s x => countRead s l x n) s = { s with owners := o, inject := i } := by
  induction ls generalizing s with
  | nil => exact ⟨s.owners, s.inject, rfl⟩
  | cons x ls ih =>
    obtain ⟨o, i, h⟩ := countRead_eq s l x n
    obtain ⟨o', i', h'⟩ := ih { s with owners := o, inject := i }
    exact ⟨o', i', by rw [List.foldl_cons, h, h']⟩

/-- Waiters registered one after the other stand with those there were; nothing else but what is told to peers changes (R95). -/
theorem pkEnlist_eq (s : State) (p : Pkt) (ls : List Loc) : ∃ ws m, pkEnlist s p ls = { s with waiters := ws, peerOut := m } ∧
    (∀ w ∈ s.waiters, w ∈ ws) ∧ ∀ e ∈ (depAddrs p.words).zip ls, pkWaiter p e.1 e.2 ∈ ws := by
  unfold pkEnlist
  generalize (depAddrs p.words).zip ls = es
  induction es generalizing s with
  | nil => exact ⟨s.waiters, s.peerOut, rfl, fun _ h => h, by simp⟩
  | cons e es ih =>
    obtain ⟨m, h⟩ := enlist_eq s (pkWaiter p e.1 e.2) fun _ => false
    obtain ⟨ws, m', h', old, new⟩ := ih (enlist s (pkWaiter p e.1 e.2) fun _ => false)
    have now : pkWaiter p e.1 e.2 :: s.waiters = (enlist s (pkWaiter p e.1 e.2) fun _ => false).waiters := by rw [h]; simp
    rw [← now] at old
    refine ⟨ws, m', ?_, fun w hw => old w (List.mem_cons_of_mem _ hw), fun x hx => ?_⟩
    · rw [List.foldl_cons, h', h]
    · rcases List.mem_cons.1 hx with rfl | hx
      · exact old _ List.mem_cons_self
      · exact new x hx

/-- What every element of a list gives, as many as there are elements. -/
theorem length_of_mapM_some {α β : Type} {f : α → Option β} {xs : List α} {ys : List β} (h : xs.mapM f = some ys) :
    ys.length = xs.length := by
  induction xs generalizing ys with
  | nil =>
    cases (Option.some.inj h : [] = ys)
    rfl
  | cons x xs ih =>
    simp only [List.mapM_cons, Option.bind_eq_bind, Option.bind_eq_some_iff] at h
    obtain ⟨y, -, zs, hzs, h⟩ := h
    cases h
    simp [ih hzs]

/-- Every target of a packet's dependences has a waiter of the packet once they are registered. -/
theorem pkEnlist_waits {s : State} {p : Pkt} {ls : List Loc} (locs : depLocs s p = some ls) {l : Loc} (hl : l ∈ ls) :
    ∃ w ∈ (pkEnlist s p ls).waiters, w.pk = some p.num ∧ w.line = lineKey l := by
  obtain ⟨ws, m, h, -, new⟩ := pkEnlist_eq s p ls
  have len : ls.length = (depAddrs p.words).length := length_of_mapM_some locs
  obtain ⟨k, hk, rfl⟩ := List.getElem_of_mem hl
  have pair : ((depAddrs p.words)[k]'(len ▸ hk), ls[k]) ∈ (depAddrs p.words).zip ls := by
    rw [← List.getElem_zip (h := by simp; omega)]
    exact List.getElem_mem _
  rw [h]
  exact ⟨_, new _ pair, rfl, rfl⟩

section
variable {s : State} {p : Pkt} {ls : List Loc} (clean : ∀ l ∈ ls, readBad s p.lease l = false)
include clean

theorem judgeDeps_failed (neg : ∃ l ∈ ls, sgn 64 (bytesNat (nodeRead s p.lease l 8)) < 0) : judgeDeps s p ls = .failed := by
  have calm : ls.any (readBad s p.lease) = false := by simpa using clean
  simp [judgeDeps, calm, neg]

theorem judgeDeps_hold (nonneg : ∀ l ∈ ls, 0 ≤ sgn 64 (bytesNat (nodeRead s p.lease l 8)))
    (pos : ∃ l ∈ ls, 0 < sgn 64 (bytesNat (nodeRead s p.lease l 8))) : judgeDeps s p ls = .hold := by
  have calm : ls.any (readBad s p.lease) = false := by simpa using clean
  have ok : ¬ ∃ l ∈ ls, sgn 64 (bytesNat (nodeRead s p.lease l 8)) < 0 := fun ⟨l, hl, h⟩ => absurd (nonneg l hl) (by omega)
  simp [judgeDeps, calm, ok, pos]

theorem judgeDeps_met (zero : ∀ l ∈ ls, sgn 64 (bytesNat (nodeRead s p.lease l 8)) = 0) : judgeDeps s p ls = .met := by
  have calm : ls.any (readBad s p.lease) = false := by simpa using clean
  have ok : ¬ ∃ l ∈ ls, sgn 64 (bytesNat (nodeRead s p.lease l 8)) < 0 := fun ⟨l, hl, h⟩ => absurd (zero l hl) (by omega)
  have no : ¬ ∃ l ∈ ls, 0 < sgn 64 (bytesNat (nodeRead s p.lease l 8)) := fun ⟨l, hl, h⟩ => absurd (zero l hl) (by omega)
  simp [judgeDeps, calm, ok, no]

end

/-- A packet that leaves its dependences (R96). -/
def Pkt.leaves (p : Pkt) (now : Nat) : Pkt :=
  if pkType p.words = 6 then { p with stage := .place, ready := some now } else { p with stage := .act }

theorem leaveDepend_pkt {s : State} {p : Pkt} (found : s.pkt p.num = some p) : (leaveDepend s p).pkt p.num = some (p.leaves s.time) := by
  obtain ⟨w, m, h⟩ := delist_eq s fun w => w.pk = some p.num
  unfold leaveDepend
  rw [h]
  exact State.pkt_modPkt_some (s := { s with waiters := w, peerOut := m }) found (by split <;> rfl)

section
variable {s : State} {p : Pkt} {ls : List Loc} (found : s.pkt p.num = some p)
include found

theorem judge_met (h : judgeDeps s p ls = .met) : (judge s p ls).pkt p.num = some (p.leaves s.time) := by
  obtain ⟨o, i, hc⟩ := foldl_countRead_eq ls p.lease 8 s
  simp only [judge, h, hc]
  exact leaveDepend_pkt (s := { s with owners := o, inject := i }) found

theorem judge_hold (h : judgeDeps s p ls = .hold) :
    (judge s p ls).pkt p.num = some { p with registered := ls.all fun l => ! l.isSystem } := by
  obtain ⟨o, i, hc⟩ := foldl_countRead_eq ls p.lease 8 s
  simp only [judge, h, hc]
  exact State.pkt_modPkt_some (s := { s with owners := o, inject := i }) found rfl

theorem judge_failed (stage : p.stage ≠ .complete) (h : judgeDeps s p ls = .failed) : Completed (judge s p ls) p.num 16 0 := by
  obtain ⟨o, i, hc⟩ := foldl_countRead_eq ls p.lease 8 s
  simp only [judge, h, hc]
  exact endPkt_completed (s := { s with owners := o, inject := i }) _ _ _ found stage

end

/-! #### Completion -/

theorem State.pkt_filter_ne {s t : State} {n : Nat} (h : t.pipe = s.pipe.filter fun q => q.num != n) : t.pkt n = none := by
  simp [State.pkt, h]

end Sys2Proof.Machine

namespace Sys2Proof.Proofs

open Sys2Proof.Machine Sys2Proof.Safety

section
variable {s : State} {p : Pkt}

/-! #### Validate -/

section
variable (at' : pktAt s .validate = some p)
include at'

theorem exec_validate_waits (wait : readsWait s p = true) : exec .validate s = .next (readsWalk s p) := by
  show execValidate s = _
  simp only [execValidate, at', wait, if_true]

theorem exec_validate_ok {q : Pkt} (read : readsWait s p = false) (ok : validated s p = .ok q) :
    exec .validate s = .next (s.modPkt p.num fun _ => { q with stage := .depend }) := by
  show execValidate s = _
  simp only [execValidate, at', read, ok, Bool.false_eq_true, if_false]

/-- A packet refused completes with its refusal, and STOP = 1 stops its queue (R96, R97). -/
theorem exec_validate_refused {r : Refused} (read : readsWait s p = false) (bad : validated s p = .error r) :
    ∃ t q, exec .validate s = .next t ∧ t.pkt p.num = some q ∧ q.stage = .complete ∧ q.status = r.status ∧ q.field = r.field ∧
      q.result = BitVec.ofNat 64 r.index ∧ (pkStop p.words = true → (t.queue p.queue).stopped = true) := by
  obtain ⟨found, stage⟩ := pktAt_pkt at'
  have ended := endPkt_pkt p.num r.status r.field (BitVec.ofNat 64 r.index) found (by simp [stage])
  have step : exec .validate s = execValidate s := rfl
  simp only [step, execValidate, at', read, bad, Bool.false_eq_true, if_false]
  by_cases stop : pkStop p.words = true
  · rw [if_pos stop]
    exact ⟨_, _, rfl, ended, rfl, rfl, rfl, rfl, fun _ => by rw [State.queue_modQueue_same]⟩
  · rw [if_neg stop]
    exact ⟨_, _, rfl, ended, rfl, rfl, rfl, rfl, fun h => absurd h stop⟩

end

/-! #### Depend -/

section
variable (at' : pktAt s .depend = some p)
include at'

/-- Without dependences a packet leaves in its turn. -/
theorem exec_depend_free (locs : depLocs s p = some []) (fresh : p.registered = false) (turn : myTurn s p = true) :
    exec .depend s = .next (judge s p []) := by
  show execDepend s = _
  simp [execDepend, at', locs, fresh, turn]

/-- A packet with dependences registers its waiters first, also where it is not its turn (R95). -/
theorem exec_depend_registers {ls : List Loc} (locs : depLocs s p = some ls) (some' : ls ≠ []) (none' : holdsEntries s p = false)
    (room : entryRoom s p = true) (turn : myTurn s p = false) : exec .depend s = .next (pkEnlist s p ls) := by
  obtain ⟨ws, m, h, -⟩ := pkEnlist_eq s p ls
  have later : myTurn (pkEnlist s p ls) p = false := by rw [h]; exact turn
  show execDepend s = _
  simp [execDepend, at', locs, some', none', room, later]

/-- A packet whose waiters stand reads its dependences in its turn (R95). -/
theorem exec_dependenceReread {ls : List Loc} (locs : depLocs s p = some ls) (fresh : p.registered = false)
    (holds : holdsEntries s p = true) (turn : myTurn s p = true) : exec .dependenceReread s = .next (judge s p ls) := by
  show execDependenceReread s = _
  simp [execDependenceReread, at', locs, fresh, holds, turn]

end

/-! #### Complete and priority aging -/

section
variable (at' : pktAt s .complete = some p)
include at'

theorem exec_complete (next : nextDone s p = true) (room : (s.queue p.queue).cRoom = true) :
    exec .complete s = .next ((finishPkt s p).getD (csigWalk s p)) := by
  show execComplete s = _
  simp [execComplete, at', next, room]

theorem exec_complete_full (full : (s.queue p.queue).cRoom = false) : exec .complete s = .next s := by
  show execComplete s = _
  simp [execComplete, at', full]

/-- With CSIG in device memory the record is written and the negated status released there (R98). -/
theorem exec_complete_csig {l pa : Nat} {recov : Bool} (next : nextDone s p = true) (room : (s.queue p.queue).cRoom = true)
    (csig : csigLoc s p = some (l, .dev pa recov)) (clean : locPoisoned s (.dev pa recov) = false)
    (undo : undoStalls s pa recov s.sl.cur = false) : ∃ t, exec .complete s = .next t ∧ t.pkt p.num = none ∧
      t.mem = s.mem.write pa (natBytes 8 ((2 ^ 64 - p.status) % 2 ^ 64)) ∧
      (t.queue p.queue).ctail = (s.queue p.queue).ctail + 1 ∧
      tfind (t.queue p.queue).recs ((s.queue p.queue).ctail.toNat % Nat.max (s.queue p.queue).size 1) = some (pktRecord s p) := by
  obtain ⟨t, ht, mem, pipe, queues⟩ := stripStore_dev (s := postRecord s p.queue (pktRecord s p)) clean undo l
    (natBytes 8 ((2 ^ 64 - p.status) % 2 ^ 64))
  have posted : t.queue p.queue = (postRecord s p.queue (pktRecord s p)).queue p.queue := by unfold State.queue; rw [queues]
  refine ⟨{ t with pipe := t.pipe.filter fun q => q.num != p.num }, ?_, State.pkt_filter_ne (s := t) rfl, mem, ?_⟩
  · rw [exec_complete at' next room]
    simp only [finishPkt, room, csig, ht, if_true, Option.map_some, Option.getD_some]
  · show (t.queue p.queue).ctail = _ ∧ tfind (t.queue p.queue).recs _ = _
    rw [posted, postRecord, State.queue_modQueue_same]
    exact ⟨rfl, tfind_tset_same _ _ _⟩

end

theorem exec_priorityAging {k : Nat} (at' : pktAt s .place = some p) (ready : p.ready = some k)
    (old : k + (p.levels + 1) * 1000000 ≤ s.time) (low : level s p < 7) :
    exec .priorityAging s = .next (s.modPkt p.num fun q => { q with levels := q.levels + 1 }) := by
  show execPriorityAging s = _
  simp only [execPriorityAging, at', ready, if_pos (And.intro old low)]

end

/-- Settles O31. -/
theorem packetStages : Obligations.PacketStages := by
  unfold Obligations.PacketStages
  intro s p
  refine ⟨fun q at' => exec_validate_ok at', fun r at' => exec_validate_refused at', exec_validate_waits, fun at' locs fresh turn => ?_,
    fun ls at' locs some' none' room turn => ⟨exec_depend_registers at' locs some' none' room turn, fun l => pkEnlist_waits locs⟩,
    fun ls at' locs fresh holds turn clean nonneg pos => ?_, fun ls at' locs fresh holds turn clean neg => ?_,
    fun ls at' locs fresh holds turn clean zero ty => ?_, fun at' next room csig wait => ?_, fun l pa recov at' => exec_complete_csig at',
    exec_complete_full, fun k => exec_priorityAging⟩
  · exact ⟨_, exec_depend_free at' locs fresh turn, judge_met (pktAt_pkt at').1 (judgeDeps_met (by simp) (by simp))⟩
  · exact ⟨_, exec_dependenceReread at' locs fresh holds turn, judge_hold (pktAt_pkt at').1 (judgeDeps_hold clean nonneg pos)⟩
  · obtain ⟨found, stage⟩ := pktAt_pkt at'
    exact ⟨_, exec_dependenceReread at' locs fresh holds turn, judge_failed found (by simp [stage]) (judgeDeps_failed clean neg)⟩
  · refine ⟨_, exec_dependenceReread at' locs fresh holds turn, ?_⟩
    rw [judge_met (pktAt_pkt at').1 (judgeDeps_met clean zero), Pkt.leaves, if_neg ty]
  · rw [exec_complete at' next room]
    simp only [finishPkt, room, csig, wait, if_true, Bool.false_eq_true, if_false, Option.getD_some]
    rfl

end Sys2Proof.Proofs

/-! ### Place, fill and launch (R96, R99, R123, R139, R145)

What the dispatcher, a dropped patch, a new patch and a load touch; then the steps of the three stages. -/

namespace Sys2Proof.Machine

open Sys2Proof.Safety

/-! #### The dispatcher and the estimate (R99) -/

theorem visitOwners_eq (owners : List Nat) (n : Nat) (s : State) :
    ∃ o d, (visitOwners owners n s).1 = { s with owners := o, drrNext := d } := by
  induction n generalizing s with
  | zero => exact ⟨s.owners, s.drrNext, rfl⟩
  | succ n ih =>
    unfold visitOwners
    split
    · exact ⟨s.owners, s.drrNext, rfl⟩
    · split
      · exact ⟨s.owners, s.drrNext, rfl⟩
      · next o _ => exact ih ({ s with drrNext := o }.modOwner o fun w => { w with deficit := w.deficit + w.weight * 64 })

/-- The dispatcher touches the owners' deficits and its own place among them alone. -/
theorem dispatcher_eq (s : State) : ∃ o d, (dispatcher s).1 = { s with owners := o, drrNext := d } := by
  unfold dispatcher
  dsimp only
  generalize (List.range 256).filter _ = os
  obtain ⟨o, d, h⟩ := visitOwners_eq os 1024 { s with owners := tmap (fun o w => if os.contains o then w else { w with deficit := 0 }) s.owners }
  refine ⟨o, d, ?_⟩
  rw [← h]
  split <;> next e => rw [e]

/-- A LAUNCH charged its estimate, its rectangle (R99). -/
def estimated (s : State) (p : Pkt) : State :=
  (s.modOwner (s.queue p.queue).owner fun o => { o with deficit := o.deficit - (hW p.hdr * hH p.hdr : Nat) }).modPkt p.num fun q =>
    { q with charge := hW p.hdr * hH p.hdr }

/-! #### Dropped patches and new ones (R112, R356) -/

/-- The pipeline and the number that the next patch takes. -/
def State.intake (s : State) : List Pkt × Nat := (s.pipe, s.nextPatch)

theorem delist_intake (s : State) (out : Waiter → Bool) : (delist s out).intake = s.intake := by
  obtain ⟨w, m, h⟩ := delist_eq s out
  rw [h]
  rfl

theorem giveUp_intake (s : State) (pick : Instr × Nat → Bool) : (giveUp s pick).intake = s.intake := by
  obtain ⟨p, c, h⟩ := giveUp_eq s pick
  rw [h]
  rfl

theorem dropPatch_intake (s : State) (pt : Nat) : (dropPatch s pt).intake = s.intake :=
  (delist_intake _ _).trans (foldl_keeps State.intake (fun _ _ => by rfl) (patchCores s pt) s)

theorem dropPatch_pipe (s : State) (pt : Nat) : (dropPatch s pt).pipe = s.pipe := congrArg Prod.fst (dropPatch_intake s pt)

theorem dropPatch_patch_same (s : State) (pt : Nat) : (dropPatch s pt).patch pt = none := by
  rw [State.patch, dropPatch_patches, tfind_terase_same]

theorem dropResidents_intake (s : State) (l x y w h : Nat) : (dropResidents s l x y w h).intake = s.intake :=
  foldl_keeps State.intake (fun s (e : Nat × Patch) => dropPatch_intake s e.1) _ s

theorem takeCores_patches (s : State) (n x y w h : Nat) (host : Option Nat) : (takeCores s n x y w h host).patches = s.patches :=
  foldl_keeps State.patches (fun _ _ => by rfl) _ s

theorem takeCores_pipe (s : State) (n x y w h : Nat) (host : Option Nat) : (takeCores s n x y w h host).pipe = s.pipe :=
  foldl_keeps State.pipe (fun _ _ => by rfl) _ s

/-- A new patch takes the next number; it is loaded and stands where it was placed (R112). -/
theorem newPatch_patch (s : State) (p : Pkt) (L : Lease) (crc : CWord) (x y : Nat) (loan host : Option Nat) :
    ∃ k, (newPatch s p L crc x y loan host).patch s.nextPatch = some k ∧ k.x = x ∧ k.y = y ∧ k.lease = p.lease ∧ k.st = .loaded ∧
      k.pk = p.num := by
  unfold newPatch State.patch
  rw [takeCores_patches]
  exact ⟨_, tfind_tset_same _ _ _, rfl, rfl, rfl, rfl, rfl⟩

theorem newPatch_pipe (s : State) (p : Pkt) (L : Lease) (crc : CWord) (x y : Nat) (loan host : Option Nat) :
    (newPatch s p L crc x y loan host).pipe = s.pipe := by
  unfold newPatch
  rw [takeCores_pipe]

/-- A LAUNCH placed on a fresh rectangle: its packet is at fill with the new patch (R96, R112). -/
theorem toFill_placed {s : State} {p : Pkt} (found : s.pkt p.num = some p) (L : Lease) (crc : CWord) (x y : Nat) (loan host : Option Nat)
    (borrowed : Nat) : (toFill s p L crc x y loan host borrowed).pkt p.num =
        some { p with stage := .fill, patch := some s.nextPatch, borrowed := borrowed, skipFill := false } ∧
      ∃ k, (toFill s p L crc x y loan host borrowed).patch s.nextPatch = some k ∧ k.x = x ∧ k.y = y ∧ k.lease = p.lease ∧
        k.st = .loaded ∧ k.pk = p.num := by
  obtain ⟨pipe, next⟩ := Prod.mk.inj (dropResidents_intake s p.lease x y (hW p.hdr) (hH p.hdr))
  unfold toFill
  rw [← next]
  exact ⟨State.pkt_modPkt_some ((State.pkt_of_pipe ((newPatch_pipe _ _ _ _ _ _ _ _).trans pipe) _).trans found) rfl,
    newPatch_patch _ p L crc x y loan host⟩

/-- The end of a packet makes no patch. -/
theorem endPkt_patch_none {s : State} {pt : Nat} (h : s.patch pt = none) (n status field : Nat) (result : BitVec 64) :
    (endPkt s n status field result).patch pt = none := by
  have rest := congrArg (fun r => r.2.2) (endPkt_atRest s n status field result pt)
  simpa [State.atRest, h] using rest

/-! #### Loads (R123, R139) -/

/-- The strip's counted read of a range touches the meters and the injection block alone. -/
theorem stripCharge_eq (s : State) (l va n : Nat) : ∃ o i, stripCharge s l va n = { s with owners := o, inject := i } := by
  unfold stripCharge
  generalize lineCuts _ _ _ = cuts
  induction cuts generalizing s with
  | nil => exact ⟨s.owners, s.inject, rfl⟩
  | cons c cuts ih =>
    rw [List.foldl_cons]
    split
    · next x _ _ =>
      obtain ⟨o, i, h⟩ := countRead_eq s l x c.2.length
      rw [h]
      exact ih { s with owners := o, inject := i }
    · exact ih s

theorem loadCharge_eq (s : State) (l obj : Nat) (h : List CWord) : ∃ o i, loadCharge s l obj h = { s with owners := o, inject := i } :=
  stripCharge_eq _ _ _ _

section
variable (s : State) (pt base : Nat) (o : KObj) (old : OldCfg)

theorem writeShadows_pipe : (writeShadows s pt base o old).pipe = s.pipe := forCores_keeps State.pipe (fun _ _ => by rfl) s pt
theorem writeShadows_mem : (writeShadows s pt base o old).mem = s.mem := forCores_keeps State.mem (fun _ _ => by rfl) s pt
theorem writeShadows_patches : (writeShadows s pt base o old).patches = s.patches := forCores_keeps State.patches (fun _ _ => by rfl) s pt

end

theorem recordLoad_pipe (s : State) (pt : Nat) (q : Patch) (cause : BitVec 8) (b : LoadBad) : (recordLoad s pt q cause b).pipe = s.pipe := by
  obtain ⟨m, e, h⟩ := keepFault_eq s q.lease (faultRecord s q (loadFault s pt cause b) 0)
  rw [recordLoad, h]
  rfl

/-! #### The start of a patch (R143, R145) -/

theorem enterCtx_place (c : Core) (ctx : Nat) : (c.enterCtx ctx).place = c.place := by
  unfold Core.enterCtx
  split <;> rfl

theorem enterAll_patch (s : State) (pt ctx n : Nat) :
    (enterAll s pt ctx).patch n = (s.modPatch pt fun p => { p with ctx := ctx }).patch n := by
  have entered : (forCores s pt fun s cid => (closeResidency s cid 0).modCore cid fun c => c.enterCtx ctx).layout = s.layout :=
    forCores_keeps State.layout (fun s cid =>
      (modCore_layout_of_forall _ cid fun c => enterCtx_place c ctx).trans (closeResidency_layout s cid 0)) s pt
  refine (patch_eq_of_layout (forCores_keeps State.layout startBits_layout _ pt) n).trans ?_
  exact congrArg (fun ps => tfind (tmap (fun k (p : Patch) => if k = pt then { p with ctx := ctx } else p) ps) n) (patches_eq_of_layout entered)

theorem advanceGen_layout (s : State) (cid : Nat) : (advanceGen s cid).layout = s.layout :=
  modCore_layout_of_forall s cid fun _ => ite_keeps Core.place rfl rfl

theorem sawRin_place (c : Core) (r : Rin) : (c.sawRin r).place = c.place := ite_keeps Core.place rfl rfl

/-- A patch that starts runs from now on (R145). -/
theorem startPatch_patch {s : State} {pt : Nat} {k : Patch} (h : s.patch pt = some k) (p : Pkt) :
    ∃ r, (startPatch s p pt k).patch pt = some r ∧ r.st = .running ∧ r.launched = s.time := by
  have seen : (forCores s pt fun s cid => (advanceGen s cid).modCore cid fun c => c.sawRin s.sl.cur).layout = s.layout :=
    forCores_keeps State.layout (fun s cid =>
      (modCore_layout_of_forall _ cid fun c => sawRin_place c s.sl.cur).trans (advanceGen_layout s cid)) s pt
  have clock : (forCores s pt fun s cid => (advanceGen s cid).modCore cid fun c => c.sawRin s.sl.cur).time = s.time :=
    forCores_keeps State.time (fun _ _ => by rfl) s pt
  unfold startPatch
  rw [State.modPkt_patch, enterAll_patch, State.patch_modPatch_same, State.patch_modPatch_same, patch_eq_of_layout seen, h]
  exact ⟨_, rfl, rfl, clock⟩

end Sys2Proof.Machine

namespace Sys2Proof.Proofs

open Sys2Proof.Machine Sys2Proof.Safety

section
variable {s s' : State} {p q : Pkt}

/-- What stands at a stage acts while no rollback holds the leases (R326). -/
theorem filter_still {st : Stage} (at' : pktAt s st = some p) (still : s.sl.rolling = none) :
    (pktAt s st).filter (fun _ => s.sl.rolling.isNone) = some p := by rw [at', still]; rfl

/-! #### Place -/

section
variable (at' : pktAt s .place = some p) (still : s.sl.rolling = none) (turn : dispatcher s = (s', some q)) (same : q.num = p.num)
include at' still turn same

theorem exec_place_lease (ty : pkType p.words = 6) : exec .place s = .next (s'.modPkt p.num fun q => { q with stage := .leasing }) := by
  have here := filter_still at' still
  show execPlace s = _
  simp [execPlace, here, turn, same, ty]

/-- A LAUNCH that the dispatcher names goes to its spot and is charged its estimate (R99). -/
theorem exec_place_launch {L : Lease} {spot : Spot} {crc : CWord} (ty : pkType p.words ≠ 6) (lease : s'.lease p.lease = some L)
    (for' : spotFor s' p = some (spot, crc)) : exec .place s = .next (estimated (placeAt s' p L crc spot) p) := by
  have here := filter_still at' still
  show execPlace s = _
  simp [execPlace, here, turn, same, ty, lease, for', estimated]

theorem exec_place_fresh {L : Lease} {x y : Nat} {crc : CWord} (ty : pkType p.words ≠ 6) (lease : s'.lease p.lease = some L)
    (for' : spotFor s' p = some (.fresh x y, crc)) : ∃ t r k, exec .place s = .next t ∧ t.pkt p.num = some r ∧ r.stage = .fill ∧
      r.patch = some s.nextPatch ∧ r.charge = hW p.hdr * hH p.hdr ∧ t.patch s.nextPatch = some k ∧ k.x = x ∧ k.y = y ∧ k.lease = p.lease ∧
      k.st = .loaded ∧ k.pk = p.num := by
  obtain ⟨o, d, hs⟩ := dispatcher_eq s
  rw [turn] at hs
  obtain ⟨pipe, next⟩ := Prod.mk.inj ((giveUp_intake s' (· = placeKey p)).trans (congrArg State.intake hs))
  obtain ⟨placed, k, patch, fields⟩ := toFill_placed ((State.pkt_of_pipe pipe _).trans (pktAt_pkt at').1) L crc x y none none 0
  rw [next] at placed patch
  exact ⟨_, _, k, exec_place_launch at' still turn same ty lease for', State.pkt_modPkt_some placed rfl, rfl, rfl, rfl, patch, fields⟩

end

/-! #### Fill -/

section
variable {pt : Nat} {k : Patch} (at' : pktAt s .fill = some p) (has : p.patch = some pt) (found : s.patch pt = some k)
include at' has found

/-- Once the shadows stand they commit in one step (R139). -/
theorem exec_placerPlace (filled : p.skipFill = true) :
    exec .placerPlace s = .next ((commitLoad s pt p.lease (ctxBase k) p.hdr).modPkt p.num fun q => { q with stage := .launch }) := by
  show execPlacerPlace s = _
  simp [execPlacerPlace, at', has, found, filled]

section
variable (empty : p.skipFill = false) (parts : partsWait s p.lease k.obj p.hdr = false) (args : argsWait s p = false)
include empty parts args

/-- A load that is refused completes its LAUNCH FAULTED and drops its patch (R139, R348). -/
theorem exec_fill_refused {c : BitVec 8} {b : LoadBad} (bad : reload s p.lease k.obj p.hdr = .error (c, b)) :
    ∃ t, exec .fill s = .next t ∧ Completed t p.num 17 (BitVec.ofNat 64 c.toNat) ∧ t.patch pt = none := by
  obtain ⟨o, i, hl⟩ := loadCharge_eq s p.lease k.obj p.hdr
  obtain ⟨here, stage⟩ := pktAt_pkt at'
  have step : exec .fill s = execFill s := rfl
  simp only [step, execFill, at', has, found, Option.bind_some, empty, parts, args, bad, Bool.or_self, Bool.false_eq_true, if_false]
  refine ⟨_, rfl, endPkt_completed_of_pipe here (by simp [stage]) ?_ _ _, endPkt_patch_none (dropPatch_patch_same _ _) _ _ _ _⟩
  rw [dropPatch_pipe, recordLoad_pipe, hl]

/-- A load that is good writes its shadows and reads its arguments; no task sees either yet (R123, R139). -/
theorem exec_fill_loads {o : KObj} (ok : reload s p.lease k.obj p.hdr = .ok o) (clean : argsBad (loadCharge s p.lease k.obj p.hdr) p = false) :
    ∃ t r, exec .fill s = .next t ∧ t.pkt p.num = some r ∧ r.skipFill = true ∧ r.stage = .fill ∧
      t.patch pt = some { k with args := readArgs s p } ∧ t.mem = s.mem := by
  obtain ⟨u, i, hl⟩ := loadCharge_eq s p.lease k.obj p.hdr
  obtain ⟨v, j, hc⟩ := stripCharge_eq { s with owners := u, inject := i } p.lease (pkArgs p.words) (64 * hArgs p.hdr)
  obtain ⟨here, stage⟩ := pktAt_pkt at'
  have step : exec .fill s = execFill s := rfl
  rw [hl] at clean
  simp only [step, execFill, at', has, found, Option.bind_some, empty, parts, args, ok, hl, hc, clean, Bool.or_self, Bool.false_eq_true,
    if_false]
  have filled : (writeShadows { s with owners := v, inject := j } pt (ctxBase k) o fun _ _ _ => []).pkt p.num = some p :=
    (State.pkt_of_pipe (writeShadows_pipe _ _ _ _ _) _).trans here
  refine ⟨_, _, rfl, State.pkt_modPkt_some (s := State.modPatch _ _ _) filled rfl, rfl, stage, ?_,
    writeShadows_mem _ _ _ _ _⟩
  rw [State.modPkt_patch, State.patch_modPatch_same, State.patch, writeShadows_patches]
  exact congrArg _ found

end

end

/-! #### Launch -/

section
variable (at' : pktAt s .launch = some p) (still : s.sl.rolling = none)
include at' still

theorem exec_launchStage_starts {pt : Nat} {k : Patch} (ty : pkType p.words ≠ 4) (has : p.patch = some pt) (found : s.patch pt = some k)
    (ready : k.st = .loaded ∨ k.st = .resident ∧ argsWait s p = false ∧ argsBad s p = false) :
    exec .launchStage s = .next (startPatch s p pt k) := by
  have here := filter_still at' still
  show execLaunchStage s = _
  rcases ready with loaded | ⟨resident, wait, bad⟩
  · simp [execLaunchStage, here, ty, has, found, loaded]
  · simp [execLaunchStage, here, ty, has, found, resident, wait, bad]

theorem exec_launchStage_copy {L : Lease} (ty : pkType p.words = 4) (lease : s.lease p.lease = some L) :
    exec .launchStage s = .next (copyNext s p L) := by
  have here := filter_still at' still
  show execLaunchStage s = _
  simp [execLaunchStage, here, ty, lease]

end

end

/-- Settles O32. -/
theorem launchStages : Obligations.LaunchStages := by
  unfold Obligations.LaunchStages
  intro s s' p q
  refine ⟨exec_place_lease, fun L spot crc at' still turn same ty lease for' => ?_,
    fun L x y crc at' still turn same => exec_place_fresh at' still turn same,
    fun pt k o at' has found empty parts args ok clean => exec_fill_loads at' has found empty parts args ok clean,
    fun pt k c b at' has found empty parts args bad => exec_fill_refused at' has found empty parts args bad,
    fun pt k at' has found filled => exec_placerPlace at' has found filled, fun pt k at' still ty has found ready => ?_,
    fun L r at' still ty lease idle request room => ?_, fun L at' still ty lease idle last => ?_⟩
  · refine ⟨_, exec_place_launch at' still turn same ty lease for', rfl, fun o ho => ?_⟩
    rw [← ho, estimated, State.modPkt_ownerOf, State.ownerOf_modOwner_same]
    push_cast
    rfl
  · obtain ⟨r, hr, running, launched⟩ := startPatch_patch found p
    exact ⟨_, r, exec_launchStage_starts at' still ty has found ready, rfl, hr, running, launched⟩
  · rw [exec_launchStage_copy at' still ty lease]
    simp only [copyNext, idle, request, room, Bool.false_eq_true, if_false, if_true]
  · obtain ⟨here, stage⟩ := pktAt_pkt at'
    rw [exec_launchStage_copy at' still ty lease]
    simp only [copyNext, idle, last, Bool.false_eq_true, if_false]
    exact ⟨_, rfl, endPkt_completed _ _ _ here (by simp [stage])⟩

end Sys2Proof.Proofs

/-! ### LEASE packets and the rinse (R92, R100 to R104, R116, R357) -/

namespace Sys2Proof.Machine

open Sys2Proof.Safety

/-! #### What LEASE packets touch -/

theorem rinseCores_keeps {γ : Type} (v : State → γ) (hv : ∀ s cid l, v (rinseCore s cid l) = v s) (cs : List Nat) (l : Nat) (s : State) :
    v (cs.foldl (fun s cid => rinseCore s cid l) s) = v s := foldl_keeps v (fun s cid => hv s cid l) cs s

theorem endPkt_leases (s : State) (n status field : Nat) (result : BitVec 64) : (endPkt s n status field result).leases = s.leases := by
  obtain ⟨o, w, x, m, p, c, h⟩ := endPkt_eq s n status field result
  rw [h]

theorem delist_leases (s : State) (out : Waiter → Bool) : (delist s out).leases = s.leases := by
  obtain ⟨w, x, h⟩ := delist_eq s out
  rw [h]

theorem dropPatch_leases (s : State) (pt : Nat) : (dropPatch s pt).leases = s.leases :=
  (delist_leases _ _).trans (foldl_keeps State.leases (fun _ _ => by rfl) (patchCores s pt) s)

theorem abortPkt_leases (s : State) (p : Pkt) : (abortPkt s p).leases = s.leases := by
  unfold abortPkt
  split
  · exact ite_keeps State.leases rfl rfl
  · exact endPkt_leases _ _ _ _ _

theorem abortRing_leases (s : State) (q : Nat) (pick : Value → Bool) : (abortRing s q pick).leases = s.leases :=
  foldl_keeps State.leases (fun _ _ => by rfl) _ _

/-- A lease's work aborted: every lease's own record stays (R97, R104). -/
theorem abortLease_leases (s : State) (l but : Nat) : (abortLease s l but).leases = s.leases :=
  (foldl_keeps State.leases (fun s (e : Nat × Patch) => dropPatch_leases s e.1) _ _).trans
    ((foldl_keeps State.leases (fun s (q : Nat × Queue) => abortRing_leases s q.1 _) _ _).trans
      (foldl_keeps State.leases abortPkt_leases _ s))

theorem zeroLines_leases (s : State) (L : Lease) (ls : List Nat) : (zeroLines s L ls).leases = s.leases :=
  foldl_keeps State.leases (fun s n => (devWrite_keeps s (64 * n) _ _ _).2.2.2.1) ls s

theorem State.lease_of_leases {s t : State} (h : t.leases = s.leases) (l : Nat) : t.lease l = s.lease l := congrArg (tfind · l) h

/-- A lease's record changed where it stands. -/
theorem State.lease_modLease_some {s : State} {l : Nat} {L : Lease} (h : s.lease l = some L) (f : Lease → Lease) :
    (s.modLease l f).lease l = some (f L) := by rw [State.lease_modLease_same, h]; rfl

/-! #### Free rectangles and identities (R102) -/

theorem rectTaken_mono {s : State} {f g : Nat → Lease → Bool} {x y w h : Nat} (fg : ∀ l L, f l L = true → g l L = true)
    (none' : rectTaken s g x y w h = false) : rectTaken s f x y w h = false := by
  simp only [rectTaken, List.any_eq_false, Bool.and_eq_true] at none' ⊢
  exact fun e he hf => none' e he ⟨fg _ _ hf.1, hf.2⟩

/-- A free rectangle is on whole cores and meets no lease of another identity (R102). -/
theorem rectFree_iff {s : State} {but : Option Nat} {x y w h : Nat} : rectFree s but x y w h = true ↔
    rectPlace x y w h = true ∧ rectWhole s x y w h = true ∧ rectTaken s (fun l _ => some l != but) x y w h = false := by
  simp [rectFree, and_assoc]

/-- The lowest identity that no lease has. -/
theorem lowestIdentity {s : State} {l : Nat} (hl : l < 4096) (free : s.lease l = none) (low : ∀ k < l, s.lease k ≠ none) :
    (List.range 4096).find? (fun l => (s.lease l).isNone) = some l := by
  rw [List.find?_range_eq_some]
  exact ⟨by simp [free], by simpa using hl, fun k hk => by simpa [Option.isSome_iff_ne_none] using low k hk⟩

end Sys2Proof.Machine

namespace Sys2Proof.Proofs

open Sys2Proof.Machine Sys2Proof.Safety

section
variable {s : State} {p : Pkt}

theorem leasing_pkt {op : Nat} (h : leasing s op = some p) : s.pkt p.num = some p ∧ p.stage = .leasing := by
  unfold leasing at h
  split at h
  · cases h
  · exact pktAt_pkt (Option.filter_eq_some_iff.1 h).1

/-! #### REQUEST -/

/-- The rectangle of a REQUEST: its fixed one, if that is free, else the lowest that is (R102). -/
def placedAt (s : State) (r x y : Nat) : Prop :=
  if rcFixed r then rectFree s none (rcX r) (rcY r) (rcW r) (rcH r) = true ∧ x = rcX r ∧ y = rcY r
  else lowestFree s (rcW r) (rcH r) = some (x, y)

theorem exec_leaseRequest {x y l : Nat} {cs : List Nat} (req : leasing s 0 = some p) (at' : placedAt s (pkRect p.words) x y)
    (chans : freeChans s (rcChans (pkRect p.words)) = some cs) (ident : (List.range 4096).find? (fun l => (s.lease l).isNone) = some l)
    (swept : sweepClear s l = true) : exec .leaseRequest s = .next (leaseWaits { s with
      leases := tset s.leases l (newLease s p (s.queue p.queue).vf x y (rcW (pkRect p.words)) (rcH (pkRect p.words)) (nextGen s l) cs),
      leaseGrants := tset s.leaseGrants l (tgetD s.leaseGrants l 0 + 1), released := terase s.released l } p) := by
  show execLeaseRequest s = _
  unfold placedAt at at'
  by_cases fixed : rcFixed (pkRect p.words) = true
  · rw [if_pos fixed] at at'
    obtain ⟨free, rfl, rfl⟩ := at'
    obtain ⟨-, whole, clear⟩ := rectFree_iff.1 free
    have granted := rectTaken_mono (f := fun _ L => L.st = .granted || L.want.isSome) (fun _ _ _ => by simp) clear
    simp [execLeaseRequest, req, fixed, free, whole, granted, chans, ident, swept]
  · rw [if_neg fixed] at at'
    simp [execLeaseRequest, req, fixed, at', chans, ident, swept]

/-! #### RESIZE -/

/-- The channels that a RESIZE leads to (R104). -/
def resizedChans (s : State) (L : Lease) (n : Nat) (cs : List Nat) : Prop :=
  n = 0 ∧ cs = L.chans ∨ 0 < n ∧ n ≤ L.chans.length ∧ cs = L.chans.take n ∨
    L.chans.length < n ∧ ∃ m, freeChans s (n - L.chans.length) = some m ∧ cs = L.chans ++ m

theorem resizedChans_some {L : Lease} {n : Nat} {cs : List Nat} (h : resizedChans s L n cs) :
    (if n = 0 then some L.chans else if n ≤ L.chans.length then some (L.chans.take n)
      else (freeChans s (n - L.chans.length)).map (L.chans ++ ·)) = some cs := by
  rcases h with ⟨rfl, rfl⟩ | ⟨pos, le, rfl⟩ | ⟨lt, m, free, rfl⟩
  · rfl
  · rw [if_neg (by omega), if_pos le]
  · rw [if_neg (by omega), if_neg (by omega), free]
    rfl

theorem placerStep_nil (s : State) (key : Instr × Nat) (go : State → State) : placerStep s key [] go = go s := rfl

/-- A RESIZE with no loan and no patch in its way (R104). -/
theorem exec_leaseResize {L : Lease} {x y : Nat} {cs : List Nat} (req : leasing s 1 = some p) (lease : s.lease (pkIdent p.words) = some L)
    (granted : L.st = .granted) (settled : L.want = none) (loans : L.loans = [])
    (hx : x = if rcFixed (pkRect p.words) then rcX (pkRect p.words) else L.x)
    (hy : y = if rcFixed (pkRect p.words) then rcY (pkRect p.words) else L.y)
    (chans : resizedChans s L (rcChans (pkRect p.words)) cs)
    (free : rectFree s (some (pkIdent p.words)) x y (rcW (pkRect p.words)) (rcH (pkRect p.words)) = true)
    (clear : outside s (pkIdent p.words) x y (rcW (pkRect p.words)) (rcH (pkRect p.words)) = []) : exec .leaseResize s =
      .next (resized s p (pkIdent p.words) x y (rcW (pkRect p.words)) (rcH (pkRect p.words)) L cs) := by
  show execLeaseResize s = _
  have ready : ¬ (L.st ≠ .granted ∨ L.want.isSome = true) := by simp [granted, settled]
  have kept := resizedChans_some chans
  simp only [execLeaseResize, req, Option.bind_some, lease, if_neg ready, ← hx, ← hy, free, kept, loans, clear, List.any_nil, List.filter_nil,
    List.foldl_nil, placerStep_nil, List.isEmpty_nil, Bool.not_true, Bool.false_eq_true, if_false, if_true]

/-! #### LEND, RECALL, RELEASE -/

theorem leaseWaits_lease (s : State) (p : Pkt) (l : Nat) : (leaseWaits s p).lease l = s.lease l := rfl

/-- A lease that a RELEASE has in hand, with its work aborted once (R357). -/
def releaseAborted (s : State) (p : Pkt) (L : Lease) : State :=
  if L.st = .releasing then s else (abortLease s (pkIdent p.words) p.num).modLease (pkIdent p.words) fun L => { L with st := .releasing }

section
variable {L : Lease} (lease : s.lease (pkIdent p.words) = some L)
include lease

theorem releaseAborted_lease : (releaseAborted s p L).lease (pkIdent p.words) = some { L with st := .releasing } := by
  unfold releaseAborted
  by_cases again : L.st = .releasing
  · rw [if_pos again, lease, ← again]
  · rw [if_neg again]
    exact State.lease_modLease_some ((State.lease_of_leases (abortLease_leases s _ _) _).trans lease) _

/-- A LEND of a clear rectangle (R116). -/
theorem exec_leaseLend {x y w h : Nat} (req : leasing s 2 = some p) (granted : L.st = .granted) (hx : x = L.x + rcX (pkRect p.words))
    (hy : y = L.y + rcY (pkRect p.words)) (hw : w = rcW (pkRect p.words)) (hh : h = rcH (pkRect p.words))
    (apart : ∀ k ∈ L.loans, rectsMeet x y w h k.x k.y k.w k.h = false) (clear : rectClear s (fun _ _ => false) x y w h = true) :
    ∃ t N, exec .leaseLend s = .next t ∧ Completed t p.num 0 (leaseResult (pkIdent p.words) L.gen s.nextLoan) ∧
      t.lease (pkIdent p.words) = some N ∧ N.loans = L.loans ++ [Loan.mk s.nextLoan x y w h (rcBorrower (pkRect p.words)) true] := by
  obtain ⟨here, stage⟩ := leasing_pkt req
  have ready : ¬ (L.st ≠ .granted ∨ (! rectClear s (fun _ _ => false) x y w h) = true) := by simp [granted, clear]
  have disjoint : (L.loans.any fun n => rectsMeet x y w h n.x n.y n.w n.h) = false := by simpa using apart
  have step : exec .leaseLend s = execLeaseLend s := rfl
  simp only [step, execLeaseLend, req, Option.bind_some, lease, ← hx, ← hy, ← hw, ← hh, if_neg ready, disjoint, Bool.false_eq_true, if_false]
  generalize ht : (rectCids s _).foldl _ s = t
  have pipe : t.pipe = s.pipe := ht ▸ rinseCores_keeps State.pipe (fun _ _ _ => rfl) _ _ s
  have next : t.nextLoan = s.nextLoan := ht ▸ rinseCores_keeps State.nextLoan (fun _ _ _ => rfl) _ _ s
  have held : t.lease (pkIdent p.words) = some L :=
    (State.lease_of_leases (ht ▸ rinseCores_keeps State.leases (fun _ _ _ => rfl) _ _ s) _).trans lease
  rw [next]
  have found : t.pkt p.num = some p := (State.pkt_of_pipe pipe _).trans here
  let u : State := { t with nextLoan := (s.nextLoan + 1) % 65536 }
  exact ⟨_, _, rfl, endPkt_completed (s := u.modLease _ _) _ _ _ found (by simp [stage]),
    (State.lease_of_leases (endPkt_leases _ _ _ _ _) _).trans (State.lease_modLease_some (s := u) held _), rfl⟩

theorem exec_leaseRecall {n : Loan} (req : leasing s 3 = some p) (loan : L.loans.find? (·.num = rcLoan (pkRect p.words)) = some n)
    (left : loanBusy (vacateLoan s (.leaseRecall, p.num + 1) (pkIdent p.words) n.num) n.num = false) : exec .leaseRecall s = .next
      (endPkt (endLoan (vacateLoan s (.leaseRecall, p.num + 1) (pkIdent p.words) n.num) (pkIdent p.words) n) p.num 0 0xFFFF
        (leaseResult (pkIdent p.words) L.gen n.num)) := by
  show execLeaseRecall s = _
  simp only [execLeaseRecall, req, Option.bind_some, lease, loan, left, Bool.false_eq_true, if_false]

/-- A RELEASE of a lease that has lent nothing: its work is aborted, then it waits for its rinse (R104, R357). -/
theorem exec_leaseRelease (req : leasing s 4 = some p) (loans : L.loans = []) : ∃ t N, exec .leaseRelease s = .next t ∧
    t.lease (pkIdent p.words) = some N ∧ N.st = .rinsing ∧ N.want = none ∧ N.gen = L.gen ∧ N.pk = some p.num := by
  have recalled : ∀ t, recallAll t (.leaseRelease, p.num + 1) (pkIdent p.words) L = t := fun t => by rw [recallAll, loans]; rfl
  have left := releaseAborted_lease lease
  have step : exec .leaseRelease s = execLeaseRelease s := rfl
  rw [releaseAborted] at left
  simp only [step, execLeaseRelease, req, Option.bind_some, lease, recalled, left, loans, List.isEmpty_nil, if_true]
  exact ⟨_, _, rfl, (leaseWaits_lease _ _ _).trans (State.lease_modLease_some left _), rfl, rfl, rfl, rfl⟩

end

/-! #### The rinse -/

section
variable {l : Nat} {L : Lease} (lease : s.lease l = some L)
include lease

/-- A rinse that is carried out: the cores are rinsed and the memory given up is zero (R112, R357). -/
theorem exec_rinse (due : L.rinses ≠ []) (room : ∀ n ∈ heldLines s (memGone L).1 (memGone L).2,
      undoStalls s (64 * n) (recoverable L (64 * n)) s.sl.cur = false) :
    ∃ t N, exec (.rinse l) s = .next t ∧ t.lease l = some N ∧ N.rinses = [] ∧ N.st = L.st := by
  have calm : ((heldLines s (memGone L).1 (memGone L).2).any fun n => undoStalls s (64 * n) (recoverable L (64 * n)) s.sl.cur) = false := by
    simpa using room
  have some' : ¬ (L.rinses.isEmpty = true ∧ (heldLines s (memGone L).1 (memGone L).2).isEmpty = true) := by simp [due]
  have step : exec (.rinse l) s = execRinse l s := rfl
  simp only [step, execRinse, lease, if_neg some', calm, Bool.false_eq_true, if_false]
  refine ⟨_, _, rfl, State.lease_modLease_some ?_ _, rfl, rfl⟩
  rw [State.lease_of_leases (zeroLines_leases _ _ _), State.lease_of_leases (rinseCores_keeps State.leases (fun _ _ _ => rfl) _ _ s), lease]

variable {n : Nat} (clean : L.rinses = []) (waits : L.pk = some n) (here : s.pkt n = some p) (stage : p.stage ≠ .complete)

section
include here stage

/-- A change of the lease with which its LEASE packet completes. -/
theorem endPkt_modLease (f : Lease → Lease) : (endPkt (s.modLease l f) n 0 0xFFFF (leaseResult l L.gen 0)).lease l = some (f L) ∧
    Completed (endPkt (s.modLease l f) n 0 0xFFFF (leaseResult l L.gen 0)) n 0 (leaseResult l L.gen 0) :=
  ⟨(State.lease_of_leases (endPkt_leases _ _ _ _ _) l).trans (State.lease_modLease_some lease f),
    endPkt_completed (s := s.modLease l f) _ _ _ here stage⟩

end

include clean waits here stage

section
variable (zero : heldLines s (memGone L).1 (memGone L).2 = [])
include zero

/-- A lease rinsed for its first work is granted (R102). -/
theorem exec_rinseDone_granting (st : L.st = .granting) : ∃ t, exec (.rinseDone l) s = .next t ∧
    t.lease l = some { L with st := .granted, pk := none } ∧ Completed t n 0 (leaseResult l L.gen 0) := by
  refine ⟨_, ?_, endPkt_modLease lease here stage fun L => { L with st := .granted, pk := none }⟩
  show execRinseDone l s = _
  simp [execRinseDone, lease, clean, zero, waits, st]

/-- A lease rinsed for a RESIZE takes its new rectangle and channels (R104). -/
theorem exec_rinseDone_resized {x y w h : Nat} {cs : List Nat} (st : L.st = .granted ∨ L.st = .rinsing)
    (want : L.want = some ((x, y, w, h), cs)) : ∃ t, exec (.rinseDone l) s = .next t ∧
    t.lease l = some { L with st := .granted, x := x, y := y, w := w, h := h, chans := cs, want := none, pk := none } ∧
    Completed t n 0 (leaseResult l L.gen 0) := by
  refine ⟨_, ?_, endPkt_modLease lease here stage fun L =>
    { L with st := .granted, x := x, y := y, w := w, h := h, chans := cs, want := none, pk := none }⟩
  show execRinseDone l s = _
  rcases st with st | st <;> simp [execRinseDone, lease, clean, zero, waits, st, want]

end

/-- A lease rinsed after its RELEASE is gone, its identity free (R104). -/
theorem exec_rinseDone_released (zero : heldLines s L.chans L.exts = []) (st : L.st = .rinsing) (want : L.want = none) :
    ∃ t, exec (.rinseDone l) s = .next t ∧ t.lease l = none ∧ Completed t n 0 (leaseResult l L.gen 0) := by
  have gone : memGone L = (L.chans, L.exts) := by simp only [memGone, st, want]
  let t := { s with leases := terase s.leases l, released := tset s.released l { L with pk := none } }
  refine ⟨endPkt t n 0 0xFFFF (leaseResult l L.gen 0), ?_, (State.lease_of_leases (endPkt_leases _ _ _ _ _) l).trans (tfind_terase_same _ _),
    endPkt_completed (s := t) _ _ _ here stage⟩
  show execRinseDone l s = _
  simp [execRinseDone, lease, clean, gone, zero, waits, st, want, t]

end

end

/-- Settles O33. -/
theorem leasePackets : Obligations.LeasePackets := by
  unfold Obligations.LeasePackets
  intro s p
  refine ⟨fun x y cs l req at' chans hl free low swept => ?_,
    fun L x y cs req lease granted settled loans hx hy chans rect clear => ?_, fun L req lease granted apart clear =>
      exec_leaseLend lease req granted rfl rfl rfl rfl apart clear, fun L n req lease loan left => exec_leaseRecall lease req loan left,
    fun L req lease loans => exec_leaseRelease lease req loans, fun l L lease due room => exec_rinse lease due room,
    fun l L n lease st clean waits here stage zero => ?_, fun l L n x y w h cs lease st want clean waits here stage zero => ?_,
    fun l L n lease st want clean waits here stage zero => exec_rinseDone_released lease clean waits here stage zero st want⟩
  · refine ⟨_, _, exec_leaseRequest req at' chans (lowestIdentity hl free low) swept, tfind_tset_same _ _ _, rfl, rfl, rfl, rfl, rfl, rfl, rfl,
      tgetD_tset_same _ _ _ _, rfl, rfl, fun k hk => tfind_tset_other _ _ _ _ hk⟩
  · exact ⟨_, _, exec_leaseResize req lease granted settled loans hx hy chans rect clear,
      (leaseWaits_lease _ _ _).trans (State.lease_modLease_some lease _), rfl, rfl, rfl⟩
  · exact exec_rinseDone_granting lease clean waits here stage zero st
  · exact exec_rinseDone_resized lease clean waits here stage zero st want

end Sys2Proof.Proofs

/-! ### The PF closes a queue (R82, R97, R372) -/

namespace Sys2Proof.Machine

/-- A device on which the PF serves the QCONF that closes queue 0, an open queue of VF 1 with two packets in the pipeline that bear one
number: the first has completed, the second waits to be validated. -/
def twins : State :=
  { State.reset with
    queues := [(0, { vf := 1, size := 64 })]
    pipe := [{ newPkt State.reset 0 0 with stage := .complete }, newPkt State.reset 0 0]
    funcs := [(0, { busy := true, served := 32 })]
    cmdIn := some (0, .qconf 0 0 0 0 64 []) }

/-- What ends a packet looks its number up and finds the first that bears it: the second twin is never ended. -/
theorem closeQueue_twins_pipe : (closeQueue twins 0).pipe = twins.pipe := by decide +kernel

end Sys2Proof.Machine

namespace Sys2Proof.Proofs

open Sys2Proof.Machine Sys2Proof.Safety

/-- QCONF with VF 0 closes an open queue (R82). -/
theorem exec_qconf_closes {s : State} {q owner prio size : Nat} {posters : List Nat}
    (cmd : serving s 32 = some (0, .qconf q 0 owner prio size posters)) (hq : q < 1024) (ho : owner < 256) (hp : prio < 8)
    (hs : ringSizeOk 64 size = true) (hl : posters.length ≤ 16) (hm : ∀ l ∈ posters, l < 4096) (opened : (s.queue q).isOpen = true) :
    exec .qconf s = .next (answer (closeQueue s q) 0 0 []) := by
  have good : ¬ (1024 ≤ q ∨ s.numVfs < 0 ∨ 256 ≤ owner ∨ 8 ≤ prio ∨ (! ringSizeOk 64 size) = true ∨ 16 < posters.length ∨
      (posters.any fun l => decide (4096 ≤ l)) = true) := by
    have low : (posters.any fun l => decide (4096 ≤ l)) = false := by simpa using hm
    simp [hs, low]
    omega
  have changed : ¬ ((s.queue q).vf = 0 ∧ (s.queue q).size = size) := by
    rintro ⟨vf, -⟩
    simp [Queue.isOpen, vf] at opened
  show execQconf s = _
  simp only [execQconf, pfOnly, cmd, if_neg good, opened, true_and, if_neg changed, if_true]

theorem serving_twins : serving twins 32 = some (0, .qconf 0 0 0 0 64 []) := by decide +kernel

/-- Refutes O38 by its clause on the QCONF that closes a queue. Every packet of the queue is to be complete after it, in any state; but where
two packets of the pipeline bear one number, which ingest gives to no two, the model ends the first alone. The second stays at validate. -/
theorem not_pfCommands : ¬ Obligations.PfCommands := by
  unfold Obligations.PfCommands
  intro h
  obtain ⟨-, -, closes, -⟩ := h twins
  have open' : (twins.queue 0).isOpen = true := by decide
  obtain ⟨t, ht, -, -, -, ended⟩ := closes 0 0 0 64 [] serving_twins (by decide) (by decide) (by decide) (by decide) (by decide) (by simp) open'
  rw [exec_qconf_closes serving_twins (by decide) (by decide) (by decide) (by decide) (by decide) (by simp) open'] at ht
  cases ht
  have second : newPkt State.reset 0 0 ∈ (closeQueue twins 0).pipe := by
    rw [closeQueue_twins_pipe]
    exact List.mem_cons_of_mem _ List.mem_cons_self
  exact absurd (ended _ second rfl) (by decide)

end Sys2Proof.Proofs

/-! ### Stuck channels (R111, R168 to R170) -/

namespace Sys2Proof.Machine

open Sys2Proof.Safety

/-! #### The overflow area -/

theorem nodeWrite_dev_mem (s : State) (pa : Nat) (recov : Bool) (bs : List Byte) (r : Rin) :
    (nodeWrite s (.dev pa recov) bs r).mem = s.mem.write pa bs := by
  obtain ⟨k, hk⟩ := nodeSaw_eq s (.dev pa recov) r
  rw [nodeWrite, (devWrite_keeps _ pa bs recov r).1, hk]

theorem okRoom_of_overLease {s : State} (h : overLease s = none) : okRoom s = .ok s := by
  rw [okRoom, h]

theorem sameMemory_trans {s t u : State} (h : SameMemory s t) (h' : SameMemory t u) : SameMemory s u :=
  ⟨h'.1.trans h.1, h'.2.1.trans h.2.1, h'.2.2.trans h.2.2⟩

theorem admitLate_sameMemory (s : State) (cid : Nat) : SameMemory s (admitLate s cid) := by
  unfold admitLate
  split <;> exact ⟨rfl, rfl, rfl⟩

theorem Core.sawRin_outCh (c : Core) (r : Rin) (j : Nat) : (c.sawRin r).outCh j = c.outCh j := by
  unfold Core.sawRin
  split <;> rfl

@[simp] theorem popGen_outCh (s : State) (cid j : Nat) : ((popGen s cid).core cid).outCh j = (s.core cid).outCh j := by
  rw [popGen, State.core_modCore_same]
  rfl

@[simp] theorem popGen_mem (s : State) (cid : Nat) : (popGen s cid).mem = s.mem := rfl

/-- What a request that reads a record does before its flit is in the buffer: the memories and the channel stay as they were. -/
theorem unspillRead_keeps (s : State) (cid lease j : Nat) (a b : Loc) (u : State)
    (hu : u = heard (countRead (countRead (popGen s cid) lease a 64) lease b 64) cid a) :
    SameMemory s u ∧ (u.core cid).outCh j = (s.core cid).outCh j := by
  obtain ⟨o, i, first⟩ := countRead_eq (popGen s cid) lease a 64
  obtain ⟨o', i', second⟩ := countRead_eq { popGen s cid with owners := o, inject := i } lease b 64
  rw [hu, first, second, heard, State.core_modCore_same, Core.sawRin_outCh]
  exact ⟨⟨rfl, rfl, rfl⟩, popGen_outCh s cid j⟩

section
variable {s : State} {cid out : Nat} {sp : Spill}

/-- A record's two lines are written and take the first waiting flit from the channel (R169). -/
theorem replySpill_writes {q : GenReq} {f : Flit} {fs : List Flit} {n pa pb : Nat} {ra rb : Bool} {e e' : BitVec 64}
    (spilling : ((s.core cid).outCh out).spill = some sp) (wait : sp.wait = f :: fs) (next : nextRecord s q.lease sp.recs = some n)
    (first : translate s cid q.lease (spillVa n) = .ok (.dev pa ra) e) (writable : peW e = true)
    (second : translate s cid q.lease (spillVa n + 64) = .ok (.dev pb rb) e')
    (room : overLease (nodeWrite (nodeWrite s (.dev pa ra) (spillLines f).1 (s.core cid).rin) (.dev pb rb) (spillLines f).2 (s.core cid).rin) = none) :
    (((replySpill s cid out q).core cid).outCh out).spill = some { recs := sp.recs ++ [(n, f.rin)], wait := fs } ∧
      (replySpill s cid out q).mem = (s.mem.write pa (spillLines f).1).write pb (spillLines f).2 := by
  simp only [replySpill, spilling, wait, next, first, second, writable, okRoom_of_overLease room, Bool.not_true, Bool.false_eq_true, if_false,
    State.core_modCore_same, Core.outCh_modOut_same, List.tail_cons, State.modCore_mem, popGen_mem, nodeWrite_dev_mem,
    true_and]

/-- The oldest record comes back to the end of its channel's buffer, with its stamp (R169). -/
theorem replyUnspill_returns {q : GenReq} {n : Nat} {r : Rin} {rest : List (Nat × Rin)} {a b : Loc} {ea eb : BitVec 64}
    (spilling : ((s.core cid).outCh out).spill = some sp) (recs : sp.recs = (n, r) :: rest)
    (first : translate s cid q.lease (spillVa n) = .ok a ea) (second : translate s cid q.lease (spillVa n + 64) = .ok b eb)
    (cleanA : readBad s q.lease a = false) (cleanB : readBad s q.lease b = false) (plain : bytesNat (nodeRead s q.lease b 1) % 16 < 13) :
    (((replyUnspill s cid out q).core cid).outCh out).buf = ((s.core cid).outCh out).buf ++
        [{ kind := BitVec.ofNat 4 (bytesNat (nodeRead s q.lease b 1)), value := bytesValue (nodeRead s q.lease a 64), rin := r }] ∧
      SameMemory s (replyUnspill s cid out q) := by
  have kind : decide (13 ≤ (BitVec.ofNat 4 (bytesNat (nodeRead s q.lease b 1))).toNat) = false := by simpa using plain
  obtain ⟨memory, kept⟩ := unspillRead_keeps s cid q.lease out a b _ rfl
  simp only [replyUnspill, spilling, recs, first, second, cleanA, cleanB, kind, Bool.or_self, Bool.false_eq_true, if_false,
    State.core_modCore_same, Core.outCh_modOut_same, kept, true_and]
  exact memory

end

end Sys2Proof.Machine

namespace Sys2Proof.Proofs

open Sys2Proof.Machine Sys2Proof.Safety

section
variable {s : State} {cid out : Nat}

theorem exec_misrouteReportTimer {d : Misroute} (drops : ((s.core cid).outCh out).drops = some d) :
    exec (.misrouteReportTimer cid out) s = .next (if 0 < d.count ∧ d.last + 1000000 ≤ s.time then reportMisroute s cid out else s) := by
  show execMisrouteReportTimer cid out s = _
  rw [execMisrouteReportTimer, drops]

/-- A request of the device itself that is first at a core's port is answered, and is no firing (R23, R168). -/
theorem exec_genReply_unfired {u : State} {pt : Nat} {r : GenReq} {rs : List GenReq} (admitted : u = admitLate s cid)
    (gen : (u.core cid).gen = r :: rs) (stands : r.stands u cid = true) (on : (u.core cid).patch = some pt) (unfired : r.kind.fires = false) :
    exec (.genReply cid) s = .next (answerGen u cid pt r) := by
  show execGenReply cid s = _
  rw [execGenReply, ← admitted]
  simp only [gen, stands, on, unfired, Bool.not_true, Bool.false_and, Bool.false_eq_true, if_false, Option.getD_some]

theorem exec_stallReport_raises {pt : Nat} {p : Patch} {ch : Option (Bool × Nat)} (found : s.patch pt = some p) (running : p.st = .running)
    (stall : stallAt s pt p = some (cid, ch)) : exec (.stallReport pt) s = .next (raiseCore s cid none 0 0 { cause := 0x13, chan := ch }) := by
  show execStallReport pt s = _
  simp only [execStallReport, found, running, stall, ne_eq, not_true_eq_false, if_false]

theorem exec_stallReport_stands {pt : Nat} {p : Patch} (found : s.patch pt = some p) (running : p.st = .running)
    (stall : stallAt s pt p = none) : exec (.stallReport pt) s = .next s := by
  show execStallReport pt s = _
  simp only [execStallReport, found, running, stall, ne_eq, not_true_eq_false, if_false]

variable {pt : Nat} {p : Patch} (R : RunsOn s cid pt p)
include R

theorem exec_spillStart_begins (idle : ((s.core cid).outCh out).spill = none) (allowed : hSpill p.hdr = true) (long : 4096 ≤ p.idle)
    (stuck : (stuckOuts s cid).contains out = true) :
    exec (.spillStart cid out) s = .next (s.modCore cid fun c => drainPinned c.pinst.length (c.modOut out fun o =>
      { o with buf := [], fullSince := none, spill := some { recs := [], wait := o.buf } })) := by
  obtain ⟨on, found, running⟩ := R
  show execSpillStart cid out s = _
  simp only [execSpillStart, on, found, running, idle, allowed, long, stuck, Option.bind_some, ne_eq, not_true_eq_false, if_false, and_self, if_true]

theorem exec_spillStart_asks {sp : Spill} (spilling : ((s.core cid).outCh out).spill = some sp) (wait : sp.wait ≠ [])
    (unasked : (s.core cid).asked (.spill out) = false) :
    exec (.spillStart cid out) s = .next (pushLate s cid p.lease (.spill out) []) := by
  obtain ⟨on, found, running⟩ := R
  have waits : sp.wait.isEmpty = false := by simpa using wait
  show execSpillStart cid out s = _
  simp only [execSpillStart, on, found, running, spilling, waits, unasked, Option.bind_some, ne_eq, not_true_eq_false, if_false, Bool.or_self,
    Bool.false_eq_true]

theorem exec_spillReturn_asks {sp : Spill} (spilling : ((s.core cid).outCh out).spill = some sp) (recs : sp.recs ≠ [])
    (space : ((s.core cid).outCh out).buf.length < (s.core cid).outDepth out) (unasked : (s.core cid).asked (.unspill out) = false) :
    exec (.spillReturn cid out) s = .next (pushLate s cid p.lease (.unspill out) []) := by
  obtain ⟨on, found, running⟩ := R
  have holds : sp.recs.isEmpty = false := by simpa using recs
  have active : p.st.active = true := by rw [running]; rfl
  have full : decide ((s.core cid).outDepth out ≤ ((s.core cid).outCh out).buf.length) = false := decide_eq_false (Nat.not_le.2 space)
  show execSpillReturn cid out s = _
  simp only [execSpillReturn, on, found, spilling, active, holds, full, unasked, Option.bind_some, Bool.not_true, Bool.or_self, Bool.false_eq_true,
    if_false]

end

/-- Settles O43. -/
theorem stuckChannels : Obligations.StuckChannels := by
  unfold Obligations.StuckChannels
  intro s cid pt p out
  refine ⟨fun d drops gathered due => ?_, fun d drops early => ?_, exec_spillStart_begins,
    fun sp R => exec_spillStart_asks R,
    fun u sp r rs f fs n pa pb ra rb e e' admitted gen stands on found kind spilling wait next first writable second room => ?_,
    fun sp R => exec_spillReturn_asks R,
    fun u sp q qs n r rest a b ea eb admitted gen stands on found kind spilling recs first second cleanA cleanB plain => ?_,
    fun ch => exec_stallReport_raises, exec_stallReport_stands⟩
  · rw [exec_misrouteReportTimer drops, if_pos ⟨gathered, due⟩]
  · rw [exec_misrouteReportTimer drops, if_neg fun h => Nat.not_le.2 early h.2]
  · have answer : answerGen u cid pt r = replySpill u cid out r := by rw [answerGen, kind, found]
    exact ⟨_, (exec_genReply_unfired admitted gen stands on (by rw [kind]; rfl)).trans (congrArg _ answer),
      replySpill_writes spilling wait next first writable second room⟩
  · have answer : answerGen u cid pt q = replyUnspill u cid out q := by rw [answerGen, kind, found]
    obtain ⟨buf, memory⟩ := replyUnspill_returns spilling recs first second cleanA cleanB plain
    exact ⟨_, _, (exec_genReply_unfired admitted gen stands on (by rw [kind]; rfl)).trans (congrArg _ answer), buf, rfl, rfl, rfl,
      sameMemory_trans (admitted ▸ admitLate_sameMemory s cid) memory⟩

end Sys2Proof.Proofs

/-! # The pool (R124 to R126, R129 to R137) and the region sequencer (R140 to R143, R147) -/

/-! ### The pool's instructions (R130, R134 to R137) -/

namespace Sys2Proof.Machine

open Sys2Proof.Safety Sys2Proof.Laws

/-- A firing's core is the one that the grant under the cursor names. -/
theorem envOf_core {s : State} {e : Env} (he : envOf s = some e) : e.c = s.core e.cid := by
  unfold envOf at he
  split at he
  · cases he
  dsimp only at he
  split at he
  · cases he
  split at he
  · cases he
  split at he <;> split at he
  · obtain ⟨-, rfl⟩ := by simpa only [Option.ite_none_right_eq_some, Option.some.injEq] using he
    rfl
  · cases he
  · obtain ⟨-, rfl⟩ := by simpa only [Option.ite_none_right_eq_some, Option.some.injEq] using he
    rfl
  · cases he

theorem ofNat_max_toNat_ge {m : Nat} (hm : m < 2 ^ 32) (old : BitVec 32) : m ≤ (BitVec.ofNat 32 (Nat.max old.toNat m)).toNat := by
  rw [BitVec.toNat_ofNat, Nat.mod_eq_of_lt (Nat.max_lt.2 ⟨old.isLt, hm⟩)]
  exact Nat.le_max_right _ _

section
variable {s : State} {h : Head} {e : Env} {v : Vals}

theorem exec_pleat (F : Firing (.pleat h) s h e v) : exec (.pleat h) s = .next
    (if pleatCheck s e.c e.lease (bitsOf v.a 0 32) = 0 then
      e.capture h none (.pleat (BitVec.ofNat 32 (bitsOf v.a 0 32))) (some (scalar (e.c.pleat.seq + 1).toNat))
        (s.modCore e.cid fun c => { c with pleat := { c.pleat with phase := 1, owner := some (e.slotK, e.inst.id) } })
    else e.capture h none .pleatRefused
      (some (scalar (e.c.pleat.seq.toNat + 2 ^ 16 + 2 ^ 17 * pleatCheck s e.c e.lease (bitsOf v.a 0 32)))) s) := by
  have fired := exec_firing F fun _ => rfl
  exact fired

theorem exec_pleatw_done (F : Firing (.pleatw h) s h e v) {code : Nat} {b : Bool} (done : ticketState e.c e.me (lo64 v.a) = (true, code, b)) :
    exec (.pleatw h) s = .next (e.result h (ticketResult e.c (lo64 v.a) code true) s) := by
  have fired := exec_firing F fun _ => rfl
  rw [fired]
  simp only [done]

/-- A core whose `swm` has fired: the slot's value is held with those before it (R137). -/
def holdSwm (e : Env) (m : Nat) (s : State) : State :=
  s.modCore e.cid fun c => { c with pleat := { c.pleat with
    holds := tset e.c.pleat.holds e.slotK (BitVec.ofNat 32 (Nat.max (tgetD e.c.pleat.holds e.slotK 0).toNat m)) } }

theorem exec_swm (F : Firing (.swm h) s h e v) : exec (.swm h) s = .next
    (if e.c.pleat.phase ≠ 0 then s
    else if bitsOf v.a 0 32 % 64 ≠ 0 then e.raise { cause := 0x07 } s
    else if plS e.c.pleat.word * 65536 < bitsOf v.a 0 32 then e.raise { cause := 0x04 } s
    else e.capture h none (.swm (BitVec.ofNat 32 (bitsOf v.a 0 32))) none (holdSwm e (bitsOf v.a 0 32) s)) := by
  have fired := exec_firing F fun _ => rfl
  exact fired

/-- What a fired `swm` holds back: its value, the word and the watermark standing as they were. -/
theorem holdSwm_pleat (he : envOf s = some e) {m : Nat} (hm : m < 2 ^ 32) :
    ((holdSwm e m s).core e.cid).pleat.word = e.c.pleat.word ∧ ((holdSwm e m s).core e.cid).pleat.swm = e.c.pleat.swm ∧
      m ≤ (tgetD ((holdSwm e m s).core e.cid).pleat.holds e.slotK 0).toNat := by
  rw [holdSwm, State.core_modCore_same, envOf_core he, tgetD_tset_same]
  exact ⟨rfl, rfl, ofNat_max_toNat_ge hm _⟩

end

end Sys2Proof.Machine

namespace Sys2Proof.Proofs

open Sys2Proof.Machine Sys2Proof.Safety Sys2Proof.Laws

/-- Settles O22: each instruction is its own arm, and a clause is a branch of it; what an accepted `swm` holds is read back. -/
theorem poolInstructions : Obligations.PoolInstructions := by
  unfold Obligations.PoolInstructions
  intro s h e v
  refine ⟨fun F accepted => ?_, fun F refused => ?_, fun code b F => exec_pleatw_done F, fun F => issue_firing F _, fun sel F => issue_firing F _,
    fun F idle aligned within => ⟨holdSwm e (bitsOf v.a 0 32) s, ?_, holdSwm_pleat F.env (Nat.mod_lt _ (by decide))⟩,
    fun F idle misaligned => ?_, fun F idle aligned beyond => ?_, fun F busy => ?_⟩
  · rw [exec_pleat F, if_pos accepted]
  · rw [exec_pleat F, if_neg refused]
  · rw [exec_swm F, if_neg (not_not_intro idle), if_neg (not_not_intro aligned), if_neg (Nat.not_lt.2 within)]
  · rw [exec_swm F, if_neg (not_not_intro idle), if_pos misaligned]
  · rw [exec_swm F, if_neg (not_not_intro idle), if_neg (not_not_intro aligned), if_pos beyond]
  · rw [exec_swm F, if_pos busy]

end Sys2Proof.Proofs

/-! ### The maps of the pool (R124 to R126) -/

namespace Sys2Proof.Machine

open Sys2Proof.Safety

/-! #### Bytes set at addresses of their own -/

/-- Bytes written in turn, each at its own address. -/
def Memory.setAll (m : Memory) (l : List Host.Cell) : Memory := l.foldl (fun m p => m.set p.1 p.2) m

theorem Memory.setAll_wf {m : Memory} (l : List Host.Cell) (h : m.wf = true) : (m.setAll l).wf = true :=
  Memory.foldl_wf _ (fun _ _ => Memory.set_wf _ _) l h

theorem Memory.get_setAll_other {l : List Host.Cell} {a : Nat} (m : Memory) (h : ∀ p ∈ l, a ≠ p.1) : (m.setAll l).get a = m.get a := by
  induction l generalizing m with
  | nil => rfl
  | cons p l ih =>
    obtain ⟨here, rest⟩ := List.forall_mem_cons.1 h
    exact (ih _ rest).trans (Memory.get_set_other _ _ _ _ here)

/-- Where no address stands twice, each byte written reads back. -/
theorem Memory.get_setAll_of_mem {l : List Host.Cell} {p : Host.Cell} {m : Memory} (wf : m.wf = true) (once : (l.map Prod.fst).Nodup) (h : p ∈ l) :
    (m.setAll l).get p.1 = p.2 := by
  induction l generalizing m with
  | nil => cases h
  | cons q l ih =>
    obtain ⟨fresh, once⟩ := List.nodup_cons.1 once
    rcases List.mem_cons.1 h with rfl | h
    · exact (Memory.get_setAll_other (a := p.1) _ fun q hq e => fresh (e ▸ List.mem_map_of_mem hq)).trans (Memory.get_set_same _ _ _ 0 wf)
    · exact ih (Memory.set_wf _ _ wf) once h

theorem Memory.read_congr {m m' : Memory} {a n : Nat} (h : ∀ i < n, m'.get (a + i) = m.get (a + i)) : m'.read a n = m.read a n := by
  induction n generalizing a with
  | zero => rfl
  | succ n ih =>
    have rest : m'.read (a + 1) n = m.read (a + 1) n := ih fun i hi => by
      rw [Nat.add_right_comm]
      exact h (i + 1) (by omega)
    rw [Memory.read, Memory.read, rest]
    exact congrArg (· :: _) (h 0 (by omega))

/-! #### Where the bytes of a role lie -/

theorem bankOf_poolAddr {row byte : Nat} (bank : Nat) (hr : row < 256) (hb : byte < 64) : bankOf (poolAddr bank row byte) = bank := by
  unfold bankOf poolAddr
  omega

/-- A place of the pool is its bank, its row and its byte. -/
theorem poolAddr_inj {bank row byte bank' row' byte' : Nat} (hr : row < 256) (hb : byte < 64) (hr' : row' < 256) (hb' : byte' < 64)
    (h : poolAddr bank row byte = poolAddr bank' row' byte') : bank = bank' ∧ row = row' ∧ byte = byte' := by
  unfold poolAddr at h
  omega

/-- The first bank of a role (R122). -/
def Core.firstBank (c : Core) : PoolRole → Nat
  | .s => c.pleat.bank0 + 4 * (plG c.pleat.word + plT c.pleat.word)
  | .t => c.pleat.bank0 + 4 * plG c.pleat.word

/-- The number of its banks. -/
def Core.banks (c : Core) : PoolRole → Nat
  | .s => 4 * plS c.pleat.word
  | .t => 4 * plT c.pleat.word

theorem capOf_eq_banks (c : Core) (role : PoolRole) : capOf c role = c.banks role * 16384 := by
  cases role
  · show plS c.pleat.word * 65536 = 4 * plS c.pleat.word * 16384
    omega
  · show plT c.pleat.word * 65536 = 4 * plT c.pleat.word * 16384
    omega

section
variable {w : BitVec 32} {a b : Nat}

theorem sAddr_row (h : b < plS w * 65536) : b / 4 / (4 * plS w) / 16 < 256 := by
  have fits : b / 4 < 4 * plS w * 4096 := by omega
  have := Nat.div_lt_of_lt_mul fits
  omega

theorem tAddr_row (h : b < plT w * 65536) : b / 64 / (4 * plT w) < 256 := by
  have fits : b / 64 < 4 * plT w * 256 := by omega
  exact Nat.div_lt_of_lt_mul fits

/-- Word x of S has bank x mod nS, and q = x div nS there (R125). -/
theorem sAddr_inj {b0 : Nat} (ha : a < plS w * 65536) (hb : b < plS w * 65536) (h : sAddr w b0 a = sAddr w b0 b) : a = b := by
  obtain ⟨bank, row, byte⟩ := poolAddr_inj (sAddr_row ha) (by omega) (sAddr_row hb) (by omega) h
  have word : a / 4 = b / 4 := Nat.ext_div_mod (n := 4 * plS w) (by omega) (by omega)
  omega

/-- Row r of T has bank r mod nT, at row r div nT there (R126). -/
theorem tAddr_inj {b0 : Nat} (ha : a < plT w * 65536) (hb : b < plT w * 65536) (h : tAddr w b0 a = tAddr w b0 b) : a = b := by
  obtain ⟨bank, row, byte⟩ := poolAddr_inj (tAddr_row ha) (by omega) (tAddr_row hb) (by omega) h
  have line : a / 64 = b / 64 := Nat.ext_div_mod (n := 4 * plT w) (by omega) (by omega)
  omega

end

section
variable {c : Core} {role r : PoolRole} {a b : Nat}

theorem roleAddr_inj (ha : a < capOf c role) (hb : b < capOf c role) (h : c.roleAddr role a = c.roleAddr role b) : a = b := by
  cases role
  · exact sAddr_inj ha hb h
  · exact tAddr_inj ha hb h

/-- A byte of a role lies in a bank of the role. -/
theorem bankOf_roleAddr (h : b < capOf c role) :
    c.firstBank role ≤ bankOf (c.roleAddr role b) ∧ bankOf (c.roleAddr role b) < c.firstBank role + c.banks role := by
  have holds : 0 < c.banks role := by
    rw [capOf_eq_banks] at h
    omega
  cases role
  case s =>
    have bank : bankOf (c.roleAddr .s b) = c.firstBank .s + b / 4 % c.banks .s := bankOf_poolAddr _ (sAddr_row h) (by omega)
    rw [bank]
    exact ⟨Nat.le_add_right _ _, Nat.add_lt_add_left (Nat.mod_lt _ holds) _⟩
  case t =>
    have bank : bankOf (c.roleAddr .t b) = c.firstBank .t + b / 64 % c.banks .t := bankOf_poolAddr _ (tAddr_row h) (by omega)
    rw [bank]
    exact ⟨Nat.le_add_right _ _, Nat.add_lt_add_left (Nat.mod_lt _ holds) _⟩

/-- Bytes that are not one byte of one role have addresses of their own: S's banks follow T's. -/
theorem roleAddr_ne (ha : a < capOf c r) (hb : b < capOf c role) (h : r ≠ role ∨ a ≠ b) : c.roleAddr r a ≠ c.roleAddr role b := by
  intro same
  obtain ⟨loA, hiA⟩ := bankOf_roleAddr ha
  obtain ⟨loB, hiB⟩ := bankOf_roleAddr hb
  rw [same] at loA hiA
  have follows : c.firstBank .s = c.firstBank .t + c.banks .t := by
    simp only [Core.firstBank, Core.banks]
    omega
  by_cases roles : r = role
  · subst roles
    exact h.elim (· rfl) (· (roleAddr_inj ha hb same))
  · cases r <;> cases role
    case s.s | t.t => exact roles rfl
    case s.t | t.s => omega

theorem gAddr_add (w : BitVec 32) (b0 frame k g i : Nat) : gAddr w b0 frame k g + i =
    poolAddr (b0 + g % (4 * plG w)) (k * frameRows frame (plG w) + g / (4 * plG w)) i := by
  simp only [gAddr, poolAddr, Nat.add_zero]

/-- A register of a frame that fits lies in a bank before those of T and S (R124). -/
theorem gAddr_ne_roleAddr {k g i : Nat} (hg : g < c.frame) (fits : (k + 1) * frameRows c.frame (plG c.pleat.word) ≤ 256) (hG : 0 < plG c.pleat.word)
    (hi : i < 64) (hb : b < capOf c role) : gAddr c.pleat.word c.pleat.bank0 c.frame k g + i ≠ c.roleAddr role b := by
  intro same
  have inFrame : g / (4 * plG c.pleat.word) < frameRows c.frame (plG c.pleat.word) := by
    unfold frameRows
    rw [Nat.div_lt_iff_lt_mul (by omega)]
    have := Nat.lt_div_mul_add (a := c.frame + 4 * plG c.pleat.word - 1) (b := 4 * plG c.pleat.word) (by omega)
    omega
  have bank : bankOf (gAddr c.pleat.word c.pleat.bank0 c.frame k g + i) = c.pleat.bank0 + g % (4 * plG c.pleat.word) := by
    rw [gAddr_add]
    exact bankOf_poolAddr _ (by rw [Nat.add_mul] at fits; omega) hi
  have first : c.pleat.bank0 + 4 * plG c.pleat.word ≤ c.firstBank role := by
    cases role
    · exact Nat.add_le_add_left (by omega) _
    · exact Nat.le_refl _
  have before := Nat.mod_lt g (show 4 * plG c.pleat.word > 0 by omega)
  have within := (bankOf_roleAddr hb).1
  rw [← same, bank] at within
  omega

end

/-! #### A write into a role -/

/-- The bytes of a write into a role, each with its address. -/
def Core.roleCells (c : Core) (role : PoolRole) (o : Nat) (bs : List Byte) : List Host.Cell :=
  ((List.range bs.length).zip bs).map fun p => (c.roleAddr role (o + p.1), p.2)

theorem putBytes_eq (l : List Host.Cell) (c : Core) : ∃ d, c.putBytes l = { c with pool := c.pool.setAll l, bankDirty := d } := by
  induction l generalizing c with
  | nil => exact ⟨_, rfl⟩
  | cons p l ih => exact ih (c.putByte p.1 p.2)

/-- A write into a role changes the pool, the banks that count as written, and the poisoned rows. -/
theorem writeRole_eq (c : Core) (role : PoolRole) (o : Nat) (bs : List Byte) : ∃ d q,
    c.writeRole role o bs = { c with pool := c.pool.setAll (c.roleCells role o bs), bankDirty := d, poisonRows := q } := by
  obtain ⟨d, hd⟩ := putBytes_eq (c.roleCells role o bs) c
  unfold Core.roleCells at hd ⊢
  unfold Core.writeRole
  dsimp only
  rw [hd]
  split
  · exact ⟨_, _, rfl⟩
  · exact ⟨_, _, rfl⟩

section
variable {c : Core} {role : PoolRole} {o : Nat} {bs : List Byte}

theorem roleCells_addresses : (c.roleCells role o bs).map Prod.fst = (List.range bs.length).map fun i => c.roleAddr role (o + i) := by
  have first : (List.range bs.length).map (fun i => c.roleAddr role (o + i)) =
      (((List.range bs.length).zip bs).map Prod.fst).map fun i => c.roleAddr role (o + i) := by
    rw [List.map_fst_zip (by simp)]
  rw [first, Core.roleCells, List.map_map, List.map_map]
  rfl

theorem mem_roleCells {i : Nat} (hi : i < bs.length) : (c.roleAddr role (o + i), bs[i]) ∈ c.roleCells role o bs :=
  List.mem_map.2 ⟨(i, bs[i]), List.mem_iff_getElem.2 ⟨i, by simpa using hi, by simp⟩, rfl⟩

theorem roleCells_once (fits : o + bs.length ≤ capOf c role) : ((c.roleCells role o bs).map Prod.fst).Nodup := by
  rw [roleCells_addresses]
  refine List.Nodup.map_on (fun i hi j hj same => ?_) List.nodup_range
  have := roleAddr_inj (by have := List.mem_range.1 hi; omega) (by have := List.mem_range.1 hj; omega) same
  omega

/-- An address that is of none of the bytes written reads as before. -/
theorem get_setAll_roleCells_other {a : Nat} (h : ∀ i < bs.length, a ≠ c.roleAddr role (o + i)) :
    (c.pool.setAll (c.roleCells role o bs)).get a = c.pool.get a := by
  refine Memory.get_setAll_other _ fun p hp => ?_
  have : p.1 ∈ (List.range bs.length).map fun i => c.roleAddr role (o + i) := roleCells_addresses ▸ List.mem_map_of_mem hp
  obtain ⟨i, hi, e⟩ := List.mem_map.1 this
  exact e ▸ h i (List.mem_range.1 hi)

theorem readRole_writeRole_same (wf : c.pool.wf = true) (fits : o + bs.length ≤ capOf c role) :
    (c.writeRole role o bs).readRole role o bs.length = bs := by
  obtain ⟨d, q, eq⟩ := writeRole_eq c role o bs
  rw [eq]
  refine List.ext_getElem (by simp [Core.readRole]) fun i _ hi => ?_
  simp only [Core.readRole, List.getElem_map, List.getElem_range]
  exact Memory.get_setAll_of_mem wf (roleCells_once fits) (mem_roleCells hi)

theorem readRole_writeRole_other {r : PoolRole} {a n : Nat} (fits : o + bs.length ≤ capOf c role) (inside : a + n ≤ capOf c r)
    (apart : r ≠ role ∨ a + n ≤ o ∨ o + bs.length ≤ a) : (c.writeRole role o bs).readRole r a n = c.readRole r a n := by
  obtain ⟨d, q, eq⟩ := writeRole_eq c role o bs
  rw [eq]
  refine List.map_congr_left fun i hi => get_setAll_roleCells_other fun j hj => ?_
  have hi := List.mem_range.1 hi
  exact roleAddr_ne (c := c) (by omega) (by omega) (apart.imp id (by omega))

theorem readG_writeRole {k g : Nat} (fits : o + bs.length ≤ capOf c role) (hg : g < c.frame)
    (frame : (k + 1) * frameRows c.frame (plG c.pleat.word) ≤ 256) (hG : 0 < plG c.pleat.word) :
    (c.writeRole role o bs).readG k g = c.readG k g := by
  obtain ⟨d, q, eq⟩ := writeRole_eq c role o bs
  rw [eq]
  refine congrArg bytesValue (Memory.read_congr fun i hi => get_setAll_roleCells_other fun j hj => ?_)
  exact gAddr_ne_roleAddr (c := c) hg frame hG hi (by omega)

theorem writeRole_keeps (wf : c.pool.wf = true) : (c.writeRole role o bs).pleat = c.pleat ∧ (c.writeRole role o bs).tasks = c.tasks ∧
    (c.writeRole role o bs).pool.wf = true := by
  obtain ⟨d, q, eq⟩ := writeRole_eq c role o bs
  rw [eq]
  exact ⟨rfl, rfl, Memory.setAll_wf _ wf⟩

end

end Sys2Proof.Machine

namespace Sys2Proof.Proofs

open Sys2Proof.Machine Sys2Proof.Safety

/-- Settles O54: the maps of R124 to R126 give every byte of a role an address of its own, and T's banks follow G's as S's follow T's. -/
theorem poolMap : Obligations.PoolMap := by
  unfold Obligations.PoolMap
  intro c role o bs wf fits
  exact ⟨readRole_writeRole_same wf fits, fun r a n => readRole_writeRole_other fits, fun k g => readG_writeRole fits, writeRole_keeps wf⟩

end Sys2Proof.Proofs

/-! ### The region sequencer (R140, R142, R143, R355) -/

namespace Sys2Proof.Proofs

open Sys2Proof.Machine Sys2Proof.Safety

section
variable {s : State} {cid pt : Nat} {p : Patch}

/-- A CONTROL token that names a context of the kernel enters the sequencer's queue while it holds fewer than 64 requests (R140). -/
theorem exec_contextRequest {out : Nat} {f : Flit} {r : List Flit} (R : RunsOn s cid pt p) (bound : (s.core cid).outBound out = true)
    (seq : routeKind ((s.core cid).route out) = 3) (head : ((s.core cid).outCh out).buf = f :: r) (control : f.kind = 10)
    (names : bitsOf f.value 0 3 < hNctx p.hdr) : exec (.contextRequest cid out) s = .next
      (if 64 ≤ p.reqs.length then s
      else latchCtx ((s.modCore cid fun c => c.modOut out fun o => { o with buf := r }).modPatch pt fun p =>
        { p with reqs := p.reqs ++ [(bitsOf f.value 0 3, (s.core cid).px, (s.core cid).py)] }) pt) := by
  obtain ⟨on, found, running⟩ := R
  show execContextRequest cid out s = _
  simp only [execContextRequest, toSequencer, bound, seq, head, on, found, running, control, Option.bind_some, Option.map_some, Option.getD_some,
    Bool.not_true, Bool.false_eq_true, ne_eq, not_true_eq_false, or_self, if_false, if_neg (Nat.not_le.2 names)]
  by_cases full : 64 ≤ p.reqs.length
  · simp only [if_pos full]
  · simp only [if_neg full]
    rfl

theorem all_and_any_of_done {cs : List Nat} (done : ∀ c ∈ cs, localDone s c = true ∧ drainStalls s c = false) :
    cs.all (localDone s) = true ∧ cs.any (drainStalls s) = false :=
  ⟨List.all_eq_true.2 fun c hc => (done c hc).1, List.any_eq_false.2 fun c hc => by simp [(done c hc).2]⟩

section
variable (found : s.patch pt = some p) (running : p.st = .running) (free : p.held = false) (cores : patchCores s pt ≠ [])
  (done : ∀ c ∈ patchCores s pt, localDone s c = true ∧ drainStalls s c = false)
include found running free cores done

/-- With every core locally done and no request left the kernel retires (R355). -/
theorem exec_contextTransition_retires (empty : p.reqs = []) : exec (.contextTransition pt) s = .next (retire s pt p) := by
  obtain ⟨all, drains⟩ := all_and_any_of_done done
  have chosen : chooseCtx (patchOcc s pt) p = none := by rw [chooseCtx, empty]
  show execContextTransition pt s = _
  simp only [execContextTransition, found, running, free, List.isEmpty_eq_false_iff.2 cores, all, drains, chosen, ne_eq, not_true_eq_false,
    Bool.false_eq_true, or_self, Bool.not_true, if_false]

/-- With a request left the context chosen is entered, after a release and an acquire by every core (R142, R143). -/
theorem exec_contextTransition_enters {n : Nat} {rest : List (Nat × Nat × Nat)} (chosen : chooseCtx (patchOcc s pt) p = some (n, rest)) :
    exec (.contextTransition pt) s = .next (enterNext ((tracePatch (forCores s pt fun s c => advanceGen (drainC s c) c) pt 3 n).modPatch pt
      fun p => { p with reqs := rest, latched := none }) pt (ctxBase p + n)) := by
  obtain ⟨all, drains⟩ := all_and_any_of_done done
  show execContextTransition pt s = _
  simp only [execContextTransition, found, running, free, List.isEmpty_eq_false_iff.2 cores, all, drains, chosen, ne_eq, not_true_eq_false,
    Bool.false_eq_true, or_self, Bool.not_true, if_false]

end

end

end Sys2Proof.Proofs

namespace Sys2Proof.Machine

/-- A context entered next: of the patch's record its context changes, and whether the placer finds it standing. -/
theorem enterNext_patch {s : State} {pt : Nat} {p : Patch} (found : s.patch pt = some p) (ctx : Nat) :
    ∃ h, (enterNext s pt ctx).patch pt = some { p with ctx := ctx, held := h } := by
  refine ⟨p.stop.isSome && noCut (enterAll s pt ctx) pt, ?_⟩
  rw [enterNext, State.patch_modPatch_same, enterAll_patch, State.patch_modPatch_same, found]
  rfl

/-- The release and the acquire of every core, and the record of a transition, leave the patches as they are. -/
theorem releaseAll_patch (s : State) (pt n : Nat) :
    (tracePatch (forCores s pt fun s c => advanceGen (drainC s c) c) pt 3 n).patch pt = s.patch pt :=
  patch_eq_of_layout ((tracePatch_layout _ _ _ _).trans
    (forCores_keeps State.layout (fun s c => (advanceGen_layout _ c).trans (drainC_layout s c)) s pt)) pt

/-! ### The pleat handshake (R129) -/

/-- A handshake at a phase; at 0 its word takes effect. -/
def Core.pleatAt (n : Nat) (c : Core) : Core := if n = 0 then c.completePleat else { c with pleat := { c.pleat with phase := n } }

theorem completePleat_pleat (c : Core) : c.completePleat.pleat.phase = 0 ∧ c.completePleat.pleat.word = c.pleat.req ∧
    c.completePleat.pleat.owner = none := by
  unfold Core.completePleat
  by_cases same : c.pleat.req = c.pleat.word
  · rw [if_pos same]
    exact ⟨rfl, same.symm, rfl⟩
  · rw [if_neg same]
    exact ⟨rfl, rfl, rfl⟩

@[simp] theorem pleatAt_zero (c : Core) : c.pleatAt 0 = c.completePleat := rfl

theorem pleatAt_of_ne {n : Nat} (h : n ≠ 0) (c : Core) : c.pleatAt n = { c with pleat := { c.pleat with phase := n } } := if_neg h

theorem pleatAt_phase (n : Nat) (c : Core) : (c.pleatAt n).pleat.phase = n := by
  by_cases h : n = 0
  · rw [h, pleatAt_zero, (completePleat_pleat c).1]
  · rw [pleatAt_of_ne h]

/-- The lines that C holds. -/
def Core.lines (c : Core) : List Nat := c.cache.map (·.line)

theorem completePleat_lines (c : Core) : c.completePleat.lines = c.lines := by
  unfold Core.completePleat
  by_cases same : c.pleat.req = c.pleat.word
  · rw [if_pos same]
    rfl
  · rw [if_neg same]
    exact List.map_map

theorem pleatAt_lines (n : Nat) (c : Core) : (c.pleatAt n).lines = c.lines := by
  by_cases h : n = 0
  · rw [h, pleatAt_zero, completePleat_lines]
  · rw [pleatAt_of_ne h]
    rfl

/-! #### Step 1: lines flushed -/

theorem lineOut_cores (s : State) (x : CLine) : (lineOut s x).cores = s.cores := by
  obtain ⟨k, saw⟩ := nodeSaw_eq s x.loc x.stamp
  unfold lineOut
  rw [saw]
  dsimp only
  split
  · next pa recov _ =>
    obtain ⟨-, cores, -⟩ := logLine_keeps { s with nodeRins := k } pa recov x.stamp
    obtain ⟨sl, early⟩ := earlySeal_eq (logLine { s with nodeRins := k } pa recov x.stamp) (ctrlOf pa)
    rw [early]
    exact (chargePa_cores _ _ _).trans cores
  · rfl
  · rfl

/-- A line written back stays, and no other comes. -/
theorem writeBack_lines {s : State} {cid : Nat} {x : CLine} (held : x ∈ (s.core cid).cache) {l : Nat}
    (h : l ∈ ((writeBack s cid x).core cid).lines) : l ∈ (s.core cid).lines := by
  unfold writeBack at h
  split at h
  · exact h
  · rw [State.core, lineOut_cores, ← State.core, State.core_modCore_same] at h
    rcases List.mem_cons.1 h with rfl | h
    · exact List.mem_map.2 ⟨x, held, rfl⟩
    · exact (List.filter_sublist.map _).subset h

/-- A line flushed is gone, and no other comes. -/
theorem flushLine_lines {s : State} {cid line l : Nat} (h : l ∈ ((flushLine s cid line).core cid).lines) :
    l ≠ line ∧ l ∈ (s.core cid).lines := by
  unfold flushLine at h
  split at h
  · next absent =>
    refine ⟨?_, h⟩
    rintro rfl
    obtain ⟨x, hx, same⟩ := List.mem_map.1 h
    exact List.find?_eq_none.1 absent x hx (decide_eq_true same)
  · next x found =>
    rw [State.core_modCore_same] at h
    obtain ⟨y, hy, rfl⟩ := List.mem_map.1 h
    obtain ⟨stays, other⟩ := List.mem_filter.1 hy
    exact ⟨by simpa using other, writeBack_lines (List.mem_of_find?_eq_some found) (List.mem_map_of_mem stays)⟩

theorem foldl_flushLine_lines {cid l : Nat} {xs : List CLine} {s : State}
    (h : l ∈ ((xs.foldl (fun s x => flushLine s cid x.line) s).core cid).lines) : l ∈ (s.core cid).lines ∧ ∀ x ∈ xs, l ≠ x.line := by
  induction xs generalizing s with
  | nil => exact ⟨h, fun _ hx => nomatch hx⟩
  | cons x xs ih =>
    obtain ⟨stays, rest⟩ := ih h
    obtain ⟨other, before⟩ := flushLine_lines stays
    exact ⟨before, List.forall_mem_cons.2 ⟨other, rest⟩⟩

/-! ### Weights (R147) -/

/-- A task's effective weight, from its fill over the window that has passed. -/
def Core.reweigh (c : Core) (k : Nat) : Core := c.modTask k fun t =>
  { t with eff := min 15 (t.weight + 4 * (tgetD c.winFill k (0, 0)).1 / (fillUnit * max 1 (tgetD c.winFill k (0, 0)).2)) }

/-- What effective weights come from: the window, and the weights that were set. -/
def Core.weighing (c : Core) : Table (Nat × Nat) × (Nat → Nat) := (c.winFill, fun k => (c.task k).weight)

theorem reweigh_weighing (c : Core) (k : Nat) : (c.reweigh k).weighing = c.weighing := by
  have weight : ∀ j, ((c.reweigh k).task j).weight = (c.task j).weight := fun j => by
    by_cases hj : j = k
    · rw [hj, Core.reweigh, Core.task_modTask_same]
    · rw [Core.reweigh, Core.task_modTask_other _ _ _ _ hj]
  exact congrArg (Prod.mk c.winFill) (funext weight)

/-- Each task's effective weight comes from its own weight and fill. -/
theorem foldl_reweigh_eff (c : Core) {n k : Nat} (hk : k < n) : (((List.range n).foldl Core.reweigh c).task k).eff =
    min 15 ((c.task k).weight + 4 * (tgetD c.winFill k (0, 0)).1 / (fillUnit * max 1 (tgetD c.winFill k (0, 0)).2)) := by
  induction n with
  | zero => cases hk
  | succ n ih =>
    rw [List.range_succ, List.foldl_append, List.foldl_cons, List.foldl_nil, Core.reweigh]
    by_cases last : k = n
    · obtain ⟨window, weights⟩ := Prod.mk.inj (foldl_keeps Core.weighing reweigh_weighing (List.range n) c)
      rw [last, Core.task_modTask_same, window, congrFun weights n]
    · rw [Core.task_modTask_other _ _ _ _ last]
      exact ih (by omega)

end Sys2Proof.Machine

namespace Sys2Proof.Proofs

open Sys2Proof.Machine Sys2Proof.Safety

theorem exec_weightRecompute (s : State) (cid : Nat) : exec (.weightRecompute cid) s = .next (s.modCore cid fun c =>
    if ! c.windowDone then c else { (List.range c.nTasks).foldl Core.reweigh c with winFill := [] }) := rfl

/-! #### The steps of a handshake -/

/-- T's step is held back by a run in progress alone. -/
theorem not_held_of_free {m : Mangle} {n : Nat} (free : n ≠ 4 ∨ m.busy = false) : ¬ (n = 4 ∧ m.busy = true) := by
  rintro ⟨four, busy⟩
  exact free.elim (· four) (by simp [busy])

section
variable {s : State} {cid : Nat}

theorem exec_pleatHandshakeStep_last (last : (s.core cid).pleat.phase = 6) :
    exec (.pleatHandshakeStep cid) s = .next (s.modCore cid (Core.pleatAt 0)) := by
  show execPleatHandshakeStep cid s = _
  simp only [execPleatHandshakeStep, last]
  rfl

section
variable {n : Nat} (next : nextStep (s.core cid).pleat (s.core cid).pleat.req (s.core cid).pleat.phase = n)
  (free : n ≠ 4 ∨ (s.core cid).mangle.busy = false)
include next free

/-- A step that copies ends, and the next that has something to do begins, T's only with no run in progress. -/
theorem exec_pleatHandshakeStep_copied (lo : 3 ≤ (s.core cid).pleat.phase) (hi : (s.core cid).pleat.phase ≤ 5)
    (clean : (s.core cid).movesPoison = false) : exec (.pleatHandshakeStep cid) s = .next (s.modCore cid (Core.pleatAt n)) := by
  obtain phase | phase | phase : (s.core cid).pleat.phase = 3 ∨ (s.core cid).pleat.phase = 4 ∨ (s.core cid).pleat.phase = 5 := by omega
  all_goals
    rw [phase] at next
    show execPleatHandshakeStep cid s = _
    simp only [execPleatHandshakeStep, phase, next, clean, if_neg (not_held_of_free free), Bool.false_eq_true, if_false]
    rfl

/-- The re-index of C ends with its lines flushed. -/
theorem exec_pleatHandshakeStep_reindexed (phase : (s.core cid).pleat.phase = 2) (room : reindexStalls s cid = false) :
    exec (.pleatHandshakeStep cid) s = .next ((reindexC s cid).modCore cid (Core.pleatAt n)) := by
  rw [phase] at next
  show execPleatHandshakeStep cid s = _
  simp only [execPleatHandshakeStep, phase, next, room, if_neg (not_held_of_free free), Bool.false_eq_true, if_false]
  rfl

end

end

/-- Settles O46: each step is its own function's case; the patch is read back through what leaves the layout, and no line that step 1 sends
away is in C after it. -/
theorem regionSteps : Obligations.RegionSteps := by
  unfold Obligations.RegionSteps
  intro s cid pt p
  refine ⟨fun out f r R bound seq head control names room => ?_, fun out f r R bound seq head control names full => ?_,
    exec_contextTransition_retires, fun n rest found running free cores done chosen => ?_, fun last => ?_,
    fun n lo hi clean next four idle => ?_, fun n lo hi clean next other => ?_, fun n phase room next free => ?_,
    fun passed k w hk hw => ?_, fun early => ?_⟩
  · rw [exec_contextRequest R bound seq head control names, if_neg (Nat.not_le.2 room)]
  · rw [exec_contextRequest R bound seq head control names, if_pos full]
  · obtain ⟨h, entered⟩ := enterNext_patch (s := (tracePatch (forCores s pt fun s c => advanceGen (drainC s c) c) pt 3 n).modPatch pt
      fun p => { p with reqs := rest, latched := none }) (by rw [State.patch_modPatch_same, releaseAll_patch, found]; rfl) (ctxBase p + n)
    exact ⟨_, _, exec_contextTransition_enters found running free cores done chosen, rfl, entered, rfl, rfl, rfl⟩
  · refine ⟨_, exec_pleatHandshakeStep_last last, ?_⟩
    rw [State.core_modCore_same]
    obtain ⟨phase, word, owner⟩ := completePleat_pleat (s.core cid)
    exact ⟨phase, word, owner, rfl, rfl, rfl⟩
  · refine ⟨_, exec_pleatHandshakeStep_copied next (.inr idle) lo hi clean, ?_⟩
    rw [State.core_modCore_same, pleatAt_of_ne (by omega)]
    exact ⟨rfl, rfl⟩
  · refine ⟨_, exec_pleatHandshakeStep_copied next (.inl other) lo hi clean, ?_⟩
    rw [State.core_modCore_same]
    refine ⟨pleatAt_phase n _, ?_⟩
    split
    · next zero => rw [zero, pleatAt_zero, (completePleat_pleat _).2.1]
    · next more => rw [pleatAt_of_ne more]
  · refine ⟨_, exec_pleatHandshakeStep_reindexed (phase.symm ▸ next) free phase room, ?_⟩
    rw [State.core_modCore_same]
    refine ⟨pleatAt_phase n _, fun x hx y hy => ?_⟩
    have stays : x.line ∈ ((reindexC s cid).core cid).lines := pleatAt_lines n _ ▸ List.mem_map_of_mem hx
    exact (foldl_flushLine_lines stays).2 y hy
  · refine ⟨_, exec_weightRecompute s cid, ?_⟩
    rw [State.core_modCore_same, passed, ← hw]
    exact ⟨foldl_reweigh_eff _ hk, rfl⟩
  · refine ⟨_, exec_weightRecompute s cid, fun k => ?_⟩
    rw [State.core_modCore_same, early]
    rfl

end Sys2Proof.Proofs

/-! # Fetching and issuing (R144 to R175, R220 to R223, R335 to R341): streams, exits, stores, flits, tasks, causes, steps -/

/-! ### Stream operators (R220 to R223) -/

namespace Sys2Proof.Machine

open Sys2Proof.Safety

section
variable {ec : EC} {lvl kind : Nat} {op : RedOp} {mode : RMode} {q : Acc} {a : Value}

/-- A DATA token is folded, or opens the accumulator. -/
theorem accsStep_data : (accsStep ec lvl op mode q 0 a).1 =
    { acc := if q.empty then foldStart ec false a else redValue ec op mode false q.acc a, empty := false } := rfl

/-- A STOP of the level or above leaves the accumulator empty. -/
theorem accsStep_stop_empty (lo : 1 ≤ kind) (hi : kind ≤ 7) (closes : lvl ≤ kind) : (accsStep ec lvl op mode q kind a).1.empty = true := by
  unfold accsStep
  rw [if_neg (by omega), if_pos ⟨lo, hi⟩, if_neg (by omega)]

end

end Sys2Proof.Machine

namespace Sys2Proof.Proofs

open Sys2Proof.Machine Sys2Proof.Safety Sys2Proof.Laws

/-- Settles O11: `accs` by the accumulator it leaves, the others by their own effect. -/
theorem streamOperators : Obligations.StreamOperators := by
  unfold Obligations.StreamOperators
  intro s h e v ec lvl rn op
  refine ⟨fun F => ?_, fun F => exec_firing F fun _ => rfl, fun F => exec_firing F fun _ => rfl, fun mask arr F => ?_⟩
  · have acts := exec_firing F fun _ => rfl
    refine ⟨_, acts, fun data => ?_, fun lo hi closes => ?_⟩
    · rw [State.core_modCore_same, tgetD_tset_same, data, accsStep_data]
    · rw [State.core_modCore_same, tgetD_tset_same, accsStep_stop_empty lo hi closes]
  · have acts := exec_firing F fun _ => rfl
    exact ⟨fun null => acts.trans (congrArg Host.Outcome.next (if_pos null)),
      fun clean => acts.trans (congrArg Host.Outcome.next (if_neg (ne_true_of_eq_false clean)))⟩

end Sys2Proof.Proofs

/-! ### What raising a cause against a core leaves alone (R335, R336) -/

namespace Sys2Proof.Machine

open Sys2Proof.Safety

theorem State.core_of_cores {s t : State} (h : t.cores = s.cores) (d : Nat) : t.core d = s.core d := 
  congrArg (fun cs => tgetD cs d ({} : Core)) h

theorem noteDenial_cores (s : State) (cid : Nat) (x : Cause) : (noteDenial s cid x).cores = s.cores := by
  have denied : ∀ l y, (noteDenied s l y).cores = s.cores := fun l y => by
    unfold noteDenied
    split <;> rfl
  refine ite_keeps State.cores ?_ rfl
  split
  · exact denied _ _
  · rfl

theorem noteInjected_cores (s : State) (cid : Nat) (x : Cause) : (noteInjected s cid x).cores = s.cores := by
  unfold noteInjected
  dsimp only
  split
  · exact ite_keeps State.cores (noteRead_cores _ _ _) rfl
  · rfl

theorem poisonUsed_cores (s : State) (r : Rin) : (poisonUsed s r).cores = s.cores := by
  unfold poisonUsed toCoordinator
  split <;> rfl

/-- A cause against a core is its patch's affair: no core changes. -/
theorem raiseCore_cores (s : State) (cid : Nat) (k : Option Nat) (blk arm : Nat) (x : Cause) : (raiseCore s cid k blk arm x).cores = s.cores := by
  unfold raiseCore
  split
  · rfl
  · exact (ite_keeps State.cores ((poisonUsed_cores _ _).trans (noteInjected_cores _ _ _)) rfl : _ = (noteDenial s cid x).cores).trans
      (noteDenial_cores s cid x)

end Sys2Proof.Machine

/-! ### Exits (R174, R175) -/

namespace Sys2Proof.Machine

open Sys2Proof.Safety

section
variable {e : Env} {v : Value} {go : Nat → State} {s : State}

theorem exitTo_aligned (h : bitsOf v 0 48 % 8 = 0) : e.exitTo v go s = go (bitsOf v 0 48) := if_neg (not_not_intro h)

theorem exitTo_misaligned (h : bitsOf v 0 48 % 8 ≠ 0) :
    e.exitTo v go s = e.raise { cause := 0x07, addr := BitVec.ofNat 64 (bitsOf v 0 48) } s := if_pos h

end

/-- A push beyond sixteen drops the oldest entry. -/
theorem pushLink_link_take (t : Task) (a : BitVec 48) :
    (pushLink t a).link = (a :: t.link).take (if t.link.length < 16 then t.link.length + 1 else 16) := by
  unfold pushLink
  split
  · exact (List.take_of_length_le (Nat.le_refl (a :: t.link).length)).symm
  · rfl

theorem pushLink_lsdrop_room {t : Task} (room : t.link.length < 16) (a : BitVec 48) : (pushLink t a).lsdrop = t.lsdrop := by
  rw [pushLink, if_pos room]

/-- The drops are counted to 255. -/
theorem pushLink_lsdrop_full {t : Task} (full : 16 ≤ t.link.length) (a : BitVec 48) :
    (pushLink t a).lsdrop.toNat = min 255 (t.lsdrop.toNat + 1) := by
  rw [pushLink, if_neg (Nat.not_lt.2 full)]
  by_cases top : t.lsdrop = 255
  · rw [if_pos top, top]
    rfl
  · rw [if_neg top]
    bv_omega

/-- The core after a task has ended: a cause that was still due is its patch's affair. -/
theorem endTask_core (s : State) (cid k : Nat) : (endTask s cid k).core cid =
    { (s.core cid).modTask k fun t => { t with st := .free, inst := none, spawns := [], sealWait := false, link := [], async := [] } with
      ins := tmap (fun _ ch => if ch.slot = some k then { ch with slot := none } else ch) (s.core cid).ins } := by
  refine (State.core_of_cores (foldl_keeps State.cores (fun s (a : AsyncCause) => raiseCore_cores s cid (some k) 0 0 a.raised) _ _) cid).trans ?_
  exact State.core_modCore_same _ _ _

theorem endTask_ended (s : State) (cid k : Nat) :
    (((endTask s cid k).core cid).task k).st = .free ∧ (((endTask s cid k).core cid).task k).link = [] := by
  rw [endTask_core, Core.task_ins, Core.task_modTask_same]
  exact ⟨rfl, rfl⟩

/-- An in-channel that the task took returns to its configured slot. -/
theorem endTask_inCh {s : State} {cid k j : Nat} (took : ((s.core cid).inCh j).slot = some k) : (((endTask s cid k).core cid).inCh j).slot = none := by
  rw [endTask_core]
  unfold Core.inCh tgetD at took ⊢
  rw [tfind_tmap]
  cases found : tfind (s.core cid).ins j with
  | none => rfl
  | some ch =>
    rw [found] at took
    exact congrArg InCh.slot (if_pos took)

end Sys2Proof.Machine

namespace Sys2Proof.Proofs

open Sys2Proof.Machine Sys2Proof.Safety Sys2Proof.Laws

/-- An exit as it fires; an indirect one checks its target first. -/
theorem exec_exits (s : State) (h : Head) (e : Env) (v : Vals) (off : BitVec 32) :
    (Firing (.exitB h off) s h e v → exec (.exitB h off) s = .next (e.exit h (.go (e.branchTo off)) none s)) ∧
    (Firing (.exitC h off) s h e v →
      exec (.exitC h off) s = .next (e.exit h (.call (e.branchTo off) e.afterBlock) (some (scalar e.afterBlock)) s)) ∧
    (Firing (.exitY h off) s h e v → exec (.exitY h off) s = .next (e.exit h (.yield (e.branchTo off)) none s)) ∧
    (Firing (.exitRet h) s h e v → exec (.exitRet h) s = .next (e.exit h .ret none s)) ∧
    (Firing (.exitT h) s h e v → exec (.exitT h) s = .next (e.exit h .stop none s)) ∧
    (Firing (.exitJ h) s h e v → bitsOf v.a 0 48 % 8 = 0 → exec (.exitJ h) s = .next (e.exit h (.go (bitsOf v.a 0 48)) none s)) ∧
    (Firing (.exitCi h) s h e v → bitsOf v.a 0 48 % 8 = 0 →
      exec (.exitCi h) s = .next (e.exit h (.call (bitsOf v.a 0 48) e.afterBlock) (some (scalar e.afterBlock)) s)) ∧
    (∀ i, (i = .exitJ h ∨ i = .exitCi h) → Firing i s h e v → bitsOf v.a 0 48 % 8 ≠ 0 →
      exec i s = .next (e.raise { cause := 0x07, addr := BitVec.ofNat 64 (bitsOf v.a 0 48) } s)) := by
  refine ⟨fun F => exec_firing F fun _ => rfl, fun F => exec_firing F fun _ => rfl, fun F => exec_firing F fun _ => rfl,
    fun F => exec_firing F fun _ => rfl, fun F => exec_firing F fun _ => rfl, fun F aligned => ?_, fun F aligned => ?_,
    fun i form F misaligned => ?_⟩
  · have acts := exec_firing F fun _ => rfl
    exact acts.trans (congrArg Host.Outcome.next (exitTo_aligned aligned))
  · have acts := exec_firing F fun _ => rfl
    exact acts.trans (congrArg Host.Outcome.next (exitTo_aligned aligned))
  · obtain rfl | rfl := form
    all_goals
      have acts := exec_firing F fun _ => rfl
      exact acts.trans (congrArg Host.Outcome.next (exitTo_misaligned misaligned))

/-- Settles O12. -/
theorem exits : Obligations.Exits := by
  unfold Obligations.Exits
  refine ⟨exec_exits, fun s cid k tgt ret => ⟨⟨_, rfl, ?_⟩, ⟨_, rfl, ?_⟩, fun empty => ?_, fun a r link => ?_, ⟨_, rfl, ?_⟩, ⟨_, rfl, ?_⟩⟩⟩
  · rw [State.core_modCore_same, Core.task_modTask_same]
    exact ⟨rfl, rfl⟩
  · rw [State.core_modCore_same, Core.task_modTask_same]
    exact ⟨rfl, rfl, pushLink_link_take _ _, fun full => pushLink_lsdrop_full full _, fun room => pushLink_lsdrop_room room _⟩
  · rw [doExit, empty]
  · refine ⟨_, by rw [doExit, link], ?_⟩
    rw [State.core_modCore_same, Core.task_modTask_same]
    exact ⟨rfl, rfl, rfl⟩
  · rw [State.core_modCore_same, Core.task_modTask_same]
    exact ⟨rfl, rfl, rfl⟩
  · obtain ⟨free, link⟩ := endTask_ended s cid k
    exact ⟨free, link, fun j took => endTask_inCh took⟩

end Sys2Proof.Proofs

/-! ### Pool stores (R151, R252, R255) -/

namespace Sys2Proof.Machine

open Sys2Proof.Safety Sys2Proof.Laws

/-- The memories, and every core but for its occupancy counters. -/
def State.uncounted (s : State) : (Memory × Memory × Memory) × (Nat → Core) :=
  ((s.mem, s.hostMem, s.peerMem), fun d => { s.core d with occ := {} })

theorem modCore_uncounted {s : State} {cid : Nat} {f : Core → Core}
    (hf : ({ f (s.core cid) with occ := {} } : Core) = { s.core cid with occ := {} }) : (s.modCore cid f).uncounted = s.uncounted :=
  congrArg (Prod.mk (s.mem, s.hostMem, s.peerMem)) (funext (core_modCore_keeps (fun c : Core => { c with occ := {} }) hf))

theorem noteReplays_uncounted (role : PoolRole) (ac : AC) (ps : List (Nat × Nat)) (s : State) : (noteReplays role ac ps s).uncounted = s.uncounted :=
  ite_keeps State.uncounted (foldl_keeps State.uncounted (fun _ _ => modCore_uncounted rfl) _ s) rfl

section
variable {s t : State} (h : t.uncounted = s.uncounted)
include h

theorem sameMemory_of_uncounted : SameMemory s t := by
  obtain ⟨mem, rest⟩ := Prod.mk.inj (congrArg Prod.fst h)
  exact ⟨mem, Prod.mk.inj rest⟩

theorem pool_eq_of_uncounted (d : Nat) : (t.core d).pool = (s.core d).pool := congrArg (fun w => (w.2 d).pool) h
theorem pleat_eq_of_uncounted (d : Nat) : (t.core d).pleat = (s.core d).pleat := congrArg (fun w => (w.2 d).pleat) h

end

section
variable {e : Env} {h : Head} {role : PoolRole} {ac : AC} {m : MemF} {v : Vals} {s : State} {ps : List PoolPlace}

theorem releaseFirst_unscoped (osc : m.osc = none) : e.releaseFirst m s = s := by rw [Env.releaseFirst, osc]

theorem ownStore_ok (held : e.c.holdRole role = false)
    (places : poolPlaces e.cid e.c role ac m.lsid.toNat m.ofs.toInt (laneWords ac v.a) = .ok ps) :
    e.ownStore h role ac m v s = e.poolStore h role ac m (storePieces ac v.b ps) (e.releaseFirst m s) := by
  simp only [Env.ownStore, held, offsetOf, places, Bool.false_eq_true, if_false]

/-- One piece for each place. -/
theorem storePieces_ne_nil {b : Value} (places : ps ≠ []) : storePieces ac b ps ≠ [] := by
  cases ac <;> simpa [storePieces] using places

section
variable {w : List (Nat × Nat × List Byte)}

theorem poolStore_fired (fired : e.pinned = false) (pieces : w ≠ []) : e.poolStore h role ac m w s =
    e.update (fun x => { x.fire e.slot h none none with caps := x.caps ++ (w.map (·.1)).eraseDups.map fun cid =>
      { slot := e.slot, lsid := some m.lsid.toNat, eff := .poolStore role cid ((w.filter (·.1 = cid)).map (·.2)), t0 := .none, t1 := .none } }) s := by
  simp only [Env.poolStore, fired, List.isEmpty_eq_false_iff.2 pieces, Bool.false_eq_true, if_false]

theorem poolStore_pinned (pinned : e.pinned = true) :
    e.poolStore h role ac m w s = e.done (writePool (noteReplays role ac (w.map fun p => (p.1, p.2.1)) s) role w) := if_pos pinned

end

end

end Sys2Proof.Machine

namespace Sys2Proof.Proofs

open Sys2Proof.Machine Sys2Proof.Safety Sys2Proof.Laws

/-- Settles O15. -/
theorem poolStores : Obligations.PoolStores := by
  unfold Obligations.PoolStores
  intro s h e v ac m i role ps F form
  have store : exec i s = .next (e.poolStore h role ac m (storePieces ac v.b ps) (e.releaseFirst m s)) := by
    obtain ⟨rfl, rfl, held, places⟩ | ⟨rfl, rfl, held, places⟩ | ⟨rfl, rfl, places⟩ := form
    case inr.inr =>
      have store := exec_firing F fun _ => rfl
      exact store.trans (congrArg Host.Outcome.next (by simp only [offsetOf, places]))
    all_goals
      have store := exec_firing F fun _ => rfl
      exact store.trans (congrArg Host.Outcome.next (ownStore_ok held places))
  refine ⟨fun fired osc places => ?_, fun pinned osc => ?_⟩
  · rw [store, releaseFirst_unscoped osc, poolStore_fired fired (storePieces_ne_nil places)]
  · have counted := noteReplays_uncounted role ac ((storePieces ac v.b ps).map fun p => (p.1, p.2.1)) s
    refine ⟨_, ?_, sameMemory_of_uncounted counted, fun cid => ⟨pool_eq_of_uncounted counted cid, pleat_eq_of_uncounted counted cid⟩⟩
    rw [store, releaseFirst_unscoped osc, poolStore_pinned pinned]

end Sys2Proof.Proofs

/-! ### One selection of the arbiter (R147) -/

namespace Sys2Proof.Machine

/-! #### Credits -/

theorem addCredit_credit (t : Task) (lane : Bool) (n : Int) : (t.addCredit lane n).credit lane = t.credit lane + n := by
  cases lane <;> rfl

/-- A task gains its weight. -/
def Core.gain (lane : Bool) (c : Core) (k : Nat) : Core := c.modTask k fun t => t.addCredit lane t.eff

/-- Each of the tasks gains its weight once. -/
theorem foldl_gain_credit (lane : Bool) {ks : List Nat} (once : ks.Nodup) (c : Core) (j : Nat) :
    ((ks.foldl (Core.gain lane) c).task j).credit lane = (c.task j).credit lane + if j ∈ ks then ((c.task j).eff : Int) else 0 := by
  induction ks generalizing c with
  | nil => simp
  | cons k ks ih =>
    obtain ⟨fresh, once⟩ := List.nodup_cons.1 once
    rw [List.foldl_cons, ih once]
    by_cases hj : j = k
    · subst hj
      simp [Core.gain, addCredit_credit, fresh]
    · simp [Core.gain, Core.task_modTask_other _ _ _ _ hj, hj]

/-! #### The search for the most credit -/

/-- The best so far: a later one takes its place only with more. -/
def better (v : Nat → Int) (b : Option Nat) (k : Nat) : Option Nat :=
  match b with
  | none => some k
  | some m => if v m < v k then some k else some m

/-- An entry of a list that has the most of all, and is the lowest that has. -/
structure Best (v : Nat → Int) (ks : List Nat) (k : Nat) : Prop where
  mem : k ∈ ks
  most : ∀ j ∈ ks, j ≠ k → v j < v k ∨ v j = v k ∧ k < j

/-- A search through an ascending list ends with the best of it. -/
theorem foldl_better (v : Nat → Int) {ks : List Nat} {m : Nat} (up : (m :: ks).Pairwise (· < ·)) :
    ∃ k, ks.foldl (better v) (some m) = some k ∧ Best v (m :: ks) k := by
  induction ks generalizing m with
  | nil => exact ⟨m, rfl, by simp, by simp⟩
  | cons a ks ih =>
    obtain ⟨above, up'⟩ := List.pairwise_cons.1 up
    have ma : m < a := above a (by simp)
    by_cases more : v m < v a
    · obtain ⟨k, found, mem, most⟩ := ih up'
      refine ⟨k, by rw [List.foldl_cons, better, if_pos more, found], List.mem_cons_of_mem _ mem, fun j hj ne => ?_⟩
      rcases List.mem_cons.1 hj with rfl | hj
      · by_cases ha : a = k
        · exact .inl (ha ▸ more)
        · have := most a (by simp) ha
          omega
      · exact most j hj ne
    · obtain ⟨k, found, mem, most⟩ := ih (up.sublist ((List.sublist_cons_self a ks).cons_cons m))
      refine ⟨k, by rw [List.foldl_cons, better, if_neg more, found], ?_, fun j hj ne => ?_⟩
      · rcases List.mem_cons.1 mem with h | h <;> simp [h]
      · by_cases ja : j = a
        · subst ja
          by_cases hm : m = k
          · subst hm
            omega
          · have := most m (by simp) hm
            have := above k (List.mem_cons_of_mem _ ((List.mem_cons.1 mem).resolve_left (Ne.symm hm)))
            omega
        · exact most j (by simp_all) ne

/-! #### The selection -/

/-- The tasks that have something to issue. -/
def readyTasks (s : State) (cid : Nat) (lane : Bool) : List Nat := (List.range 8).filter fun k => issuable s cid k lane ≠ []

/-- What each of them has once it has gained its weight. -/
def gained (s : State) (cid : Nat) (lane : Bool) : Core := (readyTasks s cid lane).foldl (Core.gain lane) (s.core cid)

section
variable {s : State} {cid : Nat} {lane : Bool}

theorem mem_readyTasks {k : Nat} : k ∈ readyTasks s cid lane ↔ k < 8 ∧ issuable s cid k lane ≠ [] := by
  simp [readyTasks]

theorem readyTasks_up (s : State) (cid : Nat) (lane : Bool) : (readyTasks s cid lane).Pairwise (· < ·) := List.pairwise_lt_range.filter _

theorem gained_credit {j : Nat} (hj : j < 8) : ((gained s cid lane).task j).credit lane =
    ((s.core cid).task j).credit lane + if issuable s cid j lane = [] then 0 else (((s.core cid).task j).eff : Int) := by
  rw [gained, foldl_gain_credit lane (readyTasks_up s cid lane).nodup]
  by_cases idle : issuable s cid j lane = [] <;> simp [mem_readyTasks, hj, idle]

/-- The sum that a granted task pays. -/
def pay (s : State) (cid : Nat) (lane : Bool) : Nat := ((readyTasks s cid lane).map fun k => ((s.core cid).task k).eff).sum

/-- The firing granted to a task. -/
def granted (s : State) (cid k : Nat) (lane : Bool) (pick : Nat) : Grant :=
  { cid := cid, task := some k, inst := (((s.core cid).task k).inst.map (·.id)).getD 0,
    slot := (issuable s cid k lane).getD (pick % (issuable s cid k lane).length) 0 }

theorem selectTask_eq (s : State) (cid : Nat) (lane : Bool) (pick : Nat) : selectTask s cid lane pick =
    match (readyTasks s cid lane).foldl (better fun j => ((gained s cid lane).task j).credit lane) none with
    | none => s
    | some k => { s.setCore cid ((gained s cid lane).modTask k fun t => t.addCredit lane (-(pay s cid lane : Int))) with
        grants := s.grants ++ [granted s cid k lane pick] } := by
  have listed : (fun k => ! (issuable s cid k lane).isEmpty) = fun k => decide (issuable s cid k lane ≠ []) := funext fun k => by
    cases issuable s cid k lane <;> rfl
  rw [pay, List.sum_eq_foldl, gained, readyTasks, ← listed]
  rfl

/-- With no ready task nothing is selected. -/
theorem selectTask_none (idle : readyTasks s cid lane = []) (pick : Nat) : selectTask s cid lane pick = s := by
  rw [selectTask_eq, idle]
  rfl

/-- The first task of those with the most credit is granted. -/
theorem selectTask_some (some' : readyTasks s cid lane ≠ []) (pick : Nat) : ∃ k,
    Best (fun j => ((gained s cid lane).task j).credit lane) (readyTasks s cid lane) k ∧ selectTask s cid lane pick =
      { s.setCore cid ((gained s cid lane).modTask k fun t => t.addCredit lane (-(pay s cid lane : Int))) with
        grants := s.grants ++ [granted s cid k lane pick] } := by
  obtain ⟨m, ks, h⟩ := List.exists_cons_of_ne_nil some'
  obtain ⟨k, found, best⟩ := foldl_better (fun j => ((gained s cid lane).task j).credit lane) (h ▸ readyTasks_up s cid lane)
  exact ⟨k, h ▸ best, by rw [selectTask_eq, h, List.foldl_cons, better, found]⟩

theorem granted_slot {k : Nat} (some' : issuable s cid k lane ≠ []) (pick : Nat) : (granted s cid k lane pick).slot ∈ issuable s cid k lane := by
  have inside := Nat.mod_lt pick (List.length_pos_iff.2 some')
  rw [granted, List.getD_eq_getElem _ _ inside]
  exact List.getElem_mem inside

end

end Sys2Proof.Machine

namespace Sys2Proof.Proofs

open Sys2Proof.Machine Sys2Proof.Safety

/-- Settles O49. -/
theorem issueSelection : Obligations.IssueSelection := by
  unfold Obligations.IssueSelection
  intro s cid pick lane
  refine ⟨fun idle => selectTask_none ?_ pick, fun ⟨k, hk, some'⟩ => ?_⟩
  · exact List.eq_nil_iff_forall_not_mem.2 fun k h => (mem_readyTasks.1 h).2 (idle k (mem_readyTasks.1 h).1)
  obtain ⟨k, ⟨mem, most⟩, sel⟩ := selectTask_some (List.ne_nil_of_mem (mem_readyTasks.2 ⟨hk, some'⟩)) pick
  obtain ⟨hk, some'⟩ := mem_readyTasks.1 mem
  have core : (selectTask s cid lane pick).core cid = (gained s cid lane).modTask k fun t => t.addCredit lane (-(pay s cid lane : Int)) := by
    rw [sel]
    exact State.core_modCore_same s cid fun _ => _
  have credit : ∀ {j}, j < 8 → issuable s cid j lane ≠ [] →
      ((gained s cid lane).task j).credit lane = ((s.core cid).task j).credit lane + (((s.core cid).task j).eff : Int) := fun hj ready => by
    rw [gained_credit hj, if_neg ready]
  refine ⟨k, hk, some', ⟨_, by rw [sel], rfl, rfl, granted_slot some' pick⟩, fun j hj ne => ?_, ?_, fun j hj ne ready => ?_⟩
  · rw [core, Core.task_modTask_other _ _ _ _ ne, gained_credit hj]
  · rw [core, Core.task_modTask_same, addCredit_credit, credit hk some', ← sub_eq_add_neg]
    rfl
  · have := most j (mem_readyTasks.2 ⟨hj, ready⟩) ne
    rwa [credit hk some', credit hj ready] at this

end Sys2Proof.Proofs

/-! ### Steps (R147, R151, R346) -/

namespace Sys2Proof.Machine

open Sys2Proof.Safety

/-! #### What time alone leaves as it was -/

/-- What time does not touch: the memories, the counts of steps, firings and inputs, and of every core its pool, tasks and instances. -/
def State.lasting (s : State) : ((Memory × Memory × Memory) × (List Grant × List Input) × (Nat → Memory × Table Task × List Inst)) × Nat :=
  (((s.mem, s.hostMem, s.peerMem), (s.grants, s.inputs), fun d => ((s.core d).pool, (s.core d).tasks, (s.core d).pinst)), s.tick)

theorem accrue_lasting (s : State) (o m amount unit : Nat) : (accrue s o m amount unit).lasting = s.lasting := rfl

theorem modOwner_lasting (s : State) (o : Nat) (f : Owner → Owner) : (s.modOwner o f).lasting = s.lasting := rfl

theorem leasedTime_lasting (dt : Nat) (s : State) (L : Lease) : (leasedTime dt s L).lasting = s.lasting :=
  foldl_keeps State.lasting (fun s (l : Loan) => accrue_lasting s l.borrower 0 (dt * area l.w l.h) 1000) _ _

theorem count_lasting (c : Core) (adds : List Nat) : ((c.count adds).pool, (c.count adds).tasks, (c.count adds).pinst) = (c.pool, c.tasks, c.pinst) := by
  unfold Core.count
  split <;> rfl

theorem setCore_lasting {s : State} {cid : Nat} {c : Core}
    (h : (c.pool, c.tasks, c.pinst) = ((s.core cid).pool, (s.core cid).tasks, (s.core cid).pinst)) : (s.setCore cid c).lasting = s.lasting :=
  congrArg (fun w => (((s.mem, s.hostMem, s.peerMem), (s.grants, s.inputs), w), s.tick))
    (funext (core_modCore_keeps (s := s) (cid := cid) (f := fun _ => c) (fun c => (c.pool, c.tasks, c.pinst)) h))

theorem coreTime_lasting (dt : Nat) (s : State) (cid : Nat) : (coreTime dt s cid (s.core cid)).lasting = s.lasting := by
  unfold coreTime
  split
  · rfl
  · refine (foldl_keeps State.lasting (fun s (r : Nat × Nat) => accrue_lasting s _ r.1 (dt * r.2) 1000) _ _).trans ?_
    refine ite_keeps State.lasting ((accrue_lasting _ _ _ _ _).trans ?_) rfl
    exact (modOwner_lasting _ _ _).trans (setCore_lasting (count_lasting (s.core cid) _))

/-- A port that holds no flit tries none again. -/
theorem retryHeld_none {s : State} (held : ∀ e ∈ s.ports, e.2.held = []) : retryHeld s = s := by
  have tries : ∀ l : Table Port, (∀ e ∈ l, e.2.held = []) → l.foldl (fun s e => if e.2.held.isEmpty then s
      else e.2.held.foldl (atPort e.1) { s with ports := tmod s.ports e.1 {} fun p => { p with held := [] } }) s = s := fun l hl => by
    induction l with
    | nil => rfl
    | cons e l ih =>
      rw [List.foldl_cons, if_pos (List.isEmpty_iff.2 (hl e (by simp)))]
      exact ih fun d hd => hl d (List.mem_cons_of_mem _ hd)
  exact tries s.ports held

theorem islands_lasting (s : State) (t : Table Island) : { s with islands := t }.lasting = s.lasting := rfl

theorem patches_lasting (s : State) (t : Table Patch) : { s with patches := t }.lasting = s.lasting := rfl

theorem time_lasting (s : State) (n : Nat) : { s with time := n }.lasting = s.lasting := rfl

/-- A step's time, but for the count of steps. -/
def timed (s : State) : State :=
  let dt := Config.stepTime s.tick
  let t := watchdog (islandsTick { retryHeld (retryPosted s) with time := (s.time + dt) % 2 ^ 64 })
  let u := (t.leases.filter fun e => e.2.st != .granting).foldl (fun s e => leasedTime dt s e.2) t
  u.cores.foldl (fun s e => coreTime dt s e.1 (s.core e.1)) u

theorem timed_lasting {s : State} (posted : s.posted = []) (held : ∀ e ∈ s.ports, e.2.held = []) : (timed s).lasting = s.lasting := by
  have still : retryHeld (retryPosted s) = s := by
    have none' : retryPosted s = s := by rw [retryPosted, posted, performPosted, ← posted]
    rw [none', retryHeld_none held]
  rw [timed, still]
  refine (foldl_keeps State.lasting (fun s (e : Nat × Core) => coreTime_lasting _ s e.1) _ _).trans ?_
  refine (foldl_keeps State.lasting (fun s (e : Nat × Lease) => leasedTime_lasting _ s e.2) _ _).trans ?_
  exact (patches_lasting _ _).trans ((islands_lasting _ _).trans (time_lasting _ _))

/-- Where nothing waits to perform, a step's time leaves all this, and is counted. -/
theorem clock_lasting {s : State} (posted : s.posted = []) (held : ∀ e ∈ s.ports, e.2.held = []) :
    (clock s).lasting = (s.lasting.1, s.tick + 1) := by
  have count : ∀ t : State, { t with tick := t.tick + 1 }.lasting = (t.lasting.1, t.lasting.2 + 1) := fun _ => rfl
  exact (count (timed s)).trans (by rw [timed_lasting posted held]; rfl)

/-! #### What a step runs -/

section
variable {s : State}

theorem grantInst_of_lasting {t : State} (h : t.lasting.1 = s.lasting.1) (g : Grant) : grantInst t g = grantInst s g := by
  have tasks : ∀ d, (t.core d).tasks = (s.core d).tasks := fun d => congrArg (fun w => (w.2.2 d).2.1) h
  have pinst : ∀ d, (t.core d).pinst = (s.core d).pinst := fun d => congrArg (fun w => (w.2.2 d).2.2) h
  simp only [grantInst, Core.task, tasks, pinst]

/-- A grant fires the decoded word of its slot. -/
theorem grantInstr_decoded {g : Grant} {x : Inst} {i : Instr} (inst : grantInst s g = some x) (inside : g.slot < x.code.length)
    (word : decode (x.code.getD g.slot 0) = .ok i) : grantInstr s g = some i := by
  have at' : x.at g.slot = some i := by
    unfold Inst.at
    simp only [word]
  rw [grantInstr, inst]
  exact (if_pos inside).trans at'

theorem grantInstr_gone {g : Grant} (gone : grantInst s g = none) : grantInstr s g = none := by
  rw [grantInstr, gone]
  rfl

section
variable {g : Grant} {gs : List Grant} (grants : (clock s).grants = g :: gs)
include grants

theorem step_granted {i : Instr} (instr : grantInstr (clock s) g = some i) : step s = exec i { clock s with grants := gs, cur := some g } := by
  simp only [step, grants, instr]

theorem step_gone (instr : grantInstr (clock s) g = none) : step s = .next { clock s with grants := gs, cur := some g } := by
  simp only [step, grants, instr]

end

theorem step_input {i : Input} {is : List Input} (grants : (clock s).grants = []) (inputs : (clock s).inputs = i :: is) :
    step s = if i.ok then exec i.step (bring { clock s with inputs := is } i) else .fault .illFormedInput := by
  simp only [step, grants, inputs]

theorem step_free (grants : (clock s).grants = []) (inputs : (clock s).inputs = []) : step s =
    if (Config.freeInput s.tick).ok then exec (Config.freeInput s.tick).step (bring (clock s) (Config.freeInput s.tick)) else .next (clock s) := by
  simp only [step, grants, inputs]

end

/-! #### A staged word -/

/-- The firing of a staged word. -/
def stagedGrant (w : IWord) : Grant := { cid := 0, task := if wordPinned w then none else some 0, inst := 0, slot := 0 }

theorem grantInst_stage (s : State) (w : IWord) : grantInst (stage s w) (stagedGrant w) = some (stageInst w) := by
  have core : (stage s w).core 0 = stageCore (wordPinned w) w := tgetD_tset_same _ _ _ _
  cases pinned : wordPinned w <;> simp only [grantInst, stagedGrant, core, pinned] <;> rfl

end Sys2Proof.Machine

namespace Sys2Proof.Proofs

open Sys2Proof.Machine Sys2Proof.Safety

/-- Settles O57. -/
theorem stepRuns : Obligations.StepRuns := by
  unfold Obligations.StepRuns
  intro s
  refine ⟨fun g gs x i grants inst inside word => step_granted grants (grantInstr_decoded inst inside word),
    fun g gs grants gone => step_gone grants (grantInstr_gone gone), fun i is grants inputs ok => ?_, fun i is grants inputs bad => ?_,
    fun i grants inputs free => free ▸ step_free grants inputs, fun posted held => ?_, fun n w i posted held word => ?_⟩
  · rw [step_input grants inputs, if_pos ok]
  · rw [step_input grants inputs, if_neg (ne_true_of_eq_false bad)]
  · have same := clock_lasting posted held
    simp only [State.lasting, Prod.mk.injEq] at same
    obtain ⟨⟨memory, ⟨grants, inputs⟩, cores⟩, tick⟩ := same
    exact ⟨memory, tick, grants, inputs, fun c => by simpa only [Prod.mk.injEq] using congrFun cores c⟩
  · have same := clock_lasting (s := stage s (BitVec.ofNat 64 w)) posted held
    have grants : (clock (stage s (BitVec.ofNat 64 w))).grants = [stagedGrant (BitVec.ofNat 64 w)] := congrArg (fun l => l.1.2.1.1) same
    have kept : (clock (stage s (BitVec.ofNat 64 w))).lasting.1 = (stage s (BitVec.ofNat 64 w)).lasting.1 := by rw [same]
    have inst := (grantInst_of_lasting kept _).trans (grantInst_stage s (BitVec.ofNat 64 w))
    exact ⟨_, step_granted grants (grantInstr_decoded inst Nat.one_pos word), rfl, rfl⟩

end Sys2Proof.Proofs

/-! ### Taking a cause (R152, R335 to R341) -/

namespace Sys2Proof.Machine

open Sys2Proof.Safety

/-! #### What the discard of a block leaves alone -/

/-- A task but for its block, the requests of it, and who has the task reserved. -/
def Task.apart (t : Task) : Task := { t with inst := none, spawns := [], resv := none }

/-- A core's pool, and its tasks but for their blocks. -/
def Core.apart (c : Core) : Memory × (Nat → Task) := (c.pool, fun k => (c.task k).apart)

/-- The same of every core. -/
def State.apart (s : State) : Nat → Memory × (Nat → Task) := fun d => (s.core d).apart

theorem modCore_apart {s : State} {cid : Nat} {f : Core → Core} (hf : (f (s.core cid)).apart = (s.core cid).apart) :
    (s.modCore cid f).apart = s.apart := funext (core_modCore_keeps Core.apart hf)

/-- A task that changes in its block alone. -/
theorem modTask_apart (c : Core) (k : Nat) {f : Task → Task} (hf : ∀ t, (f t).apart = t.apart) : (c.modTask k f).apart = c.apart := by
  refine congrArg (Prod.mk c.pool) (funext fun j => ?_)
  by_cases hj : j = k
  · rw [hj, Core.task_modTask_same, hf]
  · rw [Core.task_modTask_other _ _ _ _ hj]

theorem gen_apart (c : Core) (g : List GenReq) : ({ c with gen := g } : Core).apart = c.apart := rfl

/-- A core as a block of its task k is discarded. -/
theorem dropBlock_apart (c : Core) (k id : Nat) (g : List GenReq) : ({ c.modTask k fun t =>
    { t with inst := none, spawns := t.spawns.filter (·.1 != id) } with gen := g } : Core).apart = c.apart :=
  (gen_apart _ g).trans (modTask_apart c k fun _ => rfl)

theorem Core.task_gen (c : Core) (g : List GenReq) (k : Nat) : ({ c with gen := g } : Core).task k = c.task k := rfl

theorem apart_of_prompt {s t : State} (h : t.prompt = s.prompt) : t.apart = s.apart := congrArg (fun w d => (w.2 d).apart) h

theorem unreserve_apart (c : Core) (js : List Nat) : (c.unreserve js).apart = c.apart := foldl_keeps Core.apart (fun _ _ => by rfl) js c

theorem releaseCap_apart (cid k : Nat) (s : State) (q : Capture) : (releaseCap cid k s q).apart = s.apart := by
  obtain ⟨slot, lsid, eff, t0, t1⟩ := q
  cases eff with
  | send | bind | swm | marm => exact modCore_apart (by rfl)
  | spawn => exact modCore_apart (modTask_apart _ _ fun _ => by rfl)
  | markt | bar => exact modCore_apart (unreserve_apart _ _)
  | pleat => exact modCore_apart (ite_keeps Core.apart (by rfl) (by rfl))
  | cpy => exact (modCore_apart (by rfl)).trans rfl
  | notify =>
    simp only [releaseCap]
    split <;> rfl
  | _ => rfl

theorem discard_apart (s : State) (cid k : Nat) : (discard s cid k).apart = s.apart := by
  unfold discard
  split
  · rfl
  · next x _ =>
    have waiters : ∀ (t : State) (out : Waiter → Bool), (delist t out).apart = t.apart := fun t out => by
      obtain ⟨w, o, h⟩ := delist_eq t out
      rw [h]
      rfl
    calc _ = _ := modCore_apart (dropBlock_apart _ k x.id _)
      _ = _ := waiters _ _
      _ = _ := apart_of_prompt (traceBlock_prompt _ _ _ _ _)
      _ = _ := foldl_keeps State.apart (releaseCap_apart cid k) x.caps s

/-- The block is gone. -/
theorem discard_inst (s : State) (cid k : Nat) : (((discard s cid k).core cid).task k).inst = none := by
  unfold discard
  split
  · assumption
  · rw [State.core_modCore_same]
    exact congrArg Task.inst ((Core.task_gen _ _ k).trans (Core.task_modTask_same _ k _))

theorem discard_pool (s : State) (cid k d : Nat) : ((discard s cid k).core d).pool = (s.core d).pool :=
  congrArg Prod.fst (congrFun (discard_apart s cid k) d)

/-- What a task's handler goes by is not its block's. -/
theorem discard_handler (s : State) (cid k : Nat) : (((discard s cid k).core cid).task k).tmask = ((s.core cid).task k).tmask ∧
    (((discard s cid k).core cid).task k).tvec = ((s.core cid).task k).tvec ∧
    (((discard s cid k).core cid).task k).tcause = ((s.core cid).task k).tcause := by
  have task : (((discard s cid k).core cid).task k).apart = ((s.core cid).task k).apart :=
    congrFun (congrArg Prod.snd (congrFun (discard_apart s cid k) cid)) k
  exact ⟨(congrArg Task.tmask task :), (congrArg Task.tvec task :), (congrArg Task.tcause task :)⟩

/-! #### What a cause reads -/

theorem coreLease_of_layout {s t : State} (h : t.layout = s.layout) (cid : Nat) : coreLease t cid = coreLease s cid := by
  have patch : (t.core cid).patch = (s.core cid).patch := congrArg Prod.fst (place_eq_of_layout h cid)
  unfold coreLease
  rw [patch]
  split
  · rfl
  · rw [patch_eq_of_layout h]

theorem discard_debugOn (s : State) (cid k : Nat) :
    debugOn (discard s cid k) (coreLease (discard s cid k) cid) = debugOn s (coreLease s cid) := by
  rw [coreLease_of_layout (discard_layout s cid k)]
  exact debugOn_congr (congrArg (fun w => w.2.1 (coreLease s cid)) (discard_outlasts s cid k))

section
variable {s : State} {cid k : Nat} {x : Cause}

theorem handled_iff : handled s cid k x = true ↔ classOf x.cause x.sub = .h ∧ ((s.core cid).task k).tmask.getLsbD x.cause.toNat = true ∧
    ((s.core cid).task k).tvec ≠ 0 ∧ ((s.core cid).task k).tcause.getLsbD 16 = false ∧
    (x.cause ≠ 0x0F ∨ debugOn s (coreLease s cid) = false) := by
  simp [handled, and_assoc]

/-- What a task's handler needs to take a cause is not its block. -/
theorem handled_discard : handled (discard s cid k) cid k x = handled s cid k x := by
  obtain ⟨mask, vec, cause⟩ := discard_handler s cid k
  simp only [handled, mask, vec, cause, discard_debugOn]

/-- A cause that the handler takes. -/
theorem raiseTask_handled (taken : handled s cid k x = true) (blk : Nat) : raiseTask s cid k blk x =
    (noteDenial (discard s cid k) cid x).modCore cid fun c => c.modTask k fun t => deliverCause t blk x := by
  rw [raiseTask, handled_discard, if_pos taken]

/-- A cause that it does not. -/
theorem raiseTask_unhandled (passed : handled s cid k x = false) (blk : Nat) :
    raiseTask s cid k blk x = raiseCore (discard s cid k) cid (some k) blk 0 x := by
  rw [raiseTask, handled_discard, if_neg (ne_true_of_eq_false passed)]

end

/-- The first fault of a running patch stops it. -/
theorem stopPatch_first {s : State} {pt : Nat} {p : Patch} (found : s.patch pt = some p) (runs : p.st = .running) (first : p.fault = none)
    (f : FaultInfo) : (stopPatch s pt f).patch pt = some { p with fault := some f, st := .stopping } := by
  rw [stopPatch, State.patch_modPatch_same, found, Option.map_some, first, if_pos runs]

theorem noteDenial_patches (s : State) (cid : Nat) (x : Cause) : (noteDenial s cid x).patches = s.patches := by
  have denied : ∀ l y, (noteDenied s l y).patches = s.patches := fun l y => by
    unfold noteDenied
    split <;> rfl
  refine ite_keeps State.patches ?_ rfl
  split
  · exact denied _ _
  · rfl

/-- A cause that brings no poison. -/
theorem raiseCore_clean {s : State} {cid pt : Nat} {x : Cause} (holds : (s.core cid).patch = some pt) (clean : classOf x.cause x.sub ≠ .b)
    (k : Option Nat) (blk arm : Nat) :
    raiseCore s cid k blk arm x = stopPatch (noteDenial s cid x) pt (faultInfo (noteDenial s cid x) cid k blk arm x) := by
  simp only [raiseCore, holds, if_neg clean]

end Sys2Proof.Machine

namespace Sys2Proof.Proofs

open Sys2Proof.Machine Sys2Proof.Safety

/-- Settles O53. -/
theorem takingCauses : Obligations.TakingCauses := by
  unfold Obligations.TakingCauses
  intro s cid k blk x
  obtain ⟨keepsMask, keepsVec, keepsCause⟩ := discard_handler s cid k
  refine ⟨fun cls mask vec inh step => ?_, fun pt p holds found runs first clean passed => ?_⟩
  · rw [raiseTask_handled (handled_iff.2 ⟨cls, mask, vec, inh, step⟩)]
    have core := State.core_of_cores (noteDenial_cores (discard s cid k) cid x)
    rw [State.core_modCore_same, Core.task_modTask_same, core]
    refine ⟨rfl, rfl, rfl, rfl, congrArg (BitVec.setWidth 48) keepsVec, discard_inst s cid k, keepsMask, fun d => ?_⟩
    exact (core_modCore_keeps Core.pool rfl d).trans ((congrArg Core.pool (core d)).trans (discard_pool s cid k d))
  · have unhandled : handled s cid k x = false := by
      refine Bool.eq_false_iff.2 fun taken => ?_
      obtain ⟨cls, mask, vec, inh, step⟩ := handled_iff.1 taken
      rcases passed with other | unmasked | none' | inside | ⟨brk, on⟩
      · exact other cls
      · exact Bool.false_ne_true (unmasked.symm.trans mask)
      · exact vec none'
      · exact Bool.false_ne_true (inh.symm.trans inside)
      · exact step.elim (· brk) fun off => Bool.false_ne_true (off.symm.trans on)
    have holds' : ((discard s cid k).core cid).patch = some pt := (congrArg Prod.fst (place_eq_of_layout (discard_layout s cid k) cid)).trans holds
    have found' : (noteDenial (discard s cid k) cid x).patch pt = some p := by
      rw [State.patch, noteDenial_patches, patches_eq_of_layout (discard_layout s cid k), ← State.patch, found]
    have core := State.core_of_cores (raiseCore_cores (discard s cid k) cid (some k) blk 0 x)
    rw [raiseTask_unhandled unhandled, core]
    have stops := stopPatch_first found' runs first (faultInfo (noteDenial (discard s cid k) cid x) cid (some k) blk 0 x)
    rw [← raiseCore_clean holds' clean] at stops
    refine ⟨_, _, stops, rfl, rfl, rfl, rfl, rfl, rfl, discard_inst s cid k, keepsCause, fun d => ?_⟩
    rw [core, discard_pool]

end Sys2Proof.Proofs

/-! ### Captured stores as they perform (R151, R256, R257, R323) -/

namespace Sys2Proof.Machine

open Sys2Proof.Safety

/-! #### Pool stores -/

theorem storeReplays_uncounted (x : Inst) (q : Capture) (s : State) : (storeReplays x q s).uncounted = s.uncounted := by
  refine ite_keeps State.uncounted ?_ rfl
  split
  · exact noteReplays_uncounted _ _ _ _
  · exact noteReplays_uncounted _ _ _ _
  · rfl

theorem writeRole_pool (c : Core) (role : PoolRole) (o : Nat) (bs : List Byte) :
    (c.writeRole role o bs).pool = c.pool.setAll (c.roleCells role o bs) := by
  obtain ⟨d, q, h⟩ := writeRole_eq c role o bs
  rw [h]

/-- Bytes go to the same places whatever a core has counted. -/
theorem writeRole_pool_of_uncounted {s t : State} (h : t.uncounted = s.uncounted) (d : Nat) (role : PoolRole) (o : Nat) (bs : List Byte) :
    ((t.core d).writeRole role o bs).pool = ((s.core d).writeRole role o bs).pool := by
  rw [writeRole_pool, writeRole_pool]
  exact congrArg (fun w => (w.2 d).pool.setAll ((w.2 d).roleCells role o bs)) h

theorem doEffect_poolStore {cid k pt tc : Nat} {p : Patch} {x : Inst} {q : Capture} {s : State} {role : PoolRole} {ps : List (Nat × List Byte)}
    (eff : q.eff = .poolStore role tc ps) (free : (s.core tc).holdRole role = false) : doEffect cid k pt p x q s =
      .ok ((storeReplays x q s).modCore tc fun t => ps.foldl (fun t w => t.writeRole role w.1 w.2) t) := by
  unfold doEffect
  simp only [eff, free, Bool.false_eq_true, if_false]

/-! #### A look-up in C

A line that the look-up finds dirty under another translation, or that another address holds, is written back; what else it does stays in the
core's own cache. -/

/-- What writing back lines of a core's C leaves of a state: memory in form, the pools, and all of memory where no line is dirty. -/
structure WroteBack (cid : Nat) (s t : State) : Prop where
  wf : s.mem.wf = true → t.mem.wf = true
  pool : ∀ d, (t.core d).pool = (s.core d).pool
  clean : (∀ x ∈ (s.core cid).cache, x.dirty = 0) → SameMemory s t ∧ ∀ x ∈ (t.core cid).cache, x.dirty = 0

section
variable {cid : Nat} {s t u : State}

theorem WroteBack.refl (cid : Nat) (s : State) : WroteBack cid s s := ⟨id, fun _ => rfl, fun clean => ⟨⟨rfl, rfl, rfl⟩, clean⟩⟩

theorem WroteBack.trans (h : WroteBack cid s t) (h' : WroteBack cid t u) : WroteBack cid s u where
  wf := h'.wf ∘ h.wf
  pool d := (h'.pool d).trans (h.pool d)
  clean clean := by
    obtain ⟨same, clean⟩ := h.clean clean
    obtain ⟨same', clean⟩ := h'.clean clean
    exact ⟨sameMemory_trans same same', clean⟩

/-- A change of the core's own cache, in which no line becomes dirty. -/
theorem wroteBack_modCore {f : Core → Core} (pool : (f (s.core cid)).pool = (s.core cid).pool)
    (clean : (∀ x ∈ (s.core cid).cache, x.dirty = 0) → ∀ x ∈ (f (s.core cid)).cache, x.dirty = 0) : WroteBack cid s (s.modCore cid f) where
  wf := id
  pool := core_modCore_keeps Core.pool pool
  clean h := ⟨⟨rfl, rfl, rfl⟩, by rw [State.core_modCore_same]; exact clean h⟩

theorem lineOut_wf (wf : s.mem.wf = true) (x : CLine) : (lineOut s x).mem.wf = true := by
  obtain ⟨k, saw⟩ := nodeSaw_eq s x.loc x.stamp
  unfold lineOut
  rw [saw]
  dsimp only
  split
  · next pa recov _ =>
    obtain ⟨mem, -⟩ := logLine_keeps { s with nodeRins := k } pa recov x.stamp
    obtain ⟨sl, early⟩ := earlySeal_eq (logLine { s with nodeRins := k } pa recov x.stamp) (ctrlOf pa)
    rw [early]
    refine Memory.foldl_wf _ (fun m i h => ?_) _ ?_
    · split
      · exact Memory.set_wf _ _ h
      · exact h
    · rw [chargePa_mem]
      exact (congrArg Memory.wf mem).trans wf
  · exact wf
  · exact wf

theorem wroteBack_writeBack {x : CLine} (held : x ∈ (s.core cid).cache) : WroteBack cid s (writeBack s cid x) := by
  unfold writeBack
  split
  · exact .refl cid s
  · next dirty =>
    refine ⟨fun wf => lineOut_wf (s := s.modCore cid _) wf x, fun d => ?_, fun clean => absurd (clean x held) dirty⟩
    rw [State.core_of_cores (lineOut_cores _ x)]
    exact core_modCore_keeps Core.pool rfl d

theorem wroteBack_flushLine (line : Nat) : WroteBack cid s (flushLine s cid line) := by
  unfold flushLine
  split
  · exact .refl cid s
  · next x found =>
    exact (wroteBack_writeBack (List.mem_of_find?_eq_some found)).trans
      (wroteBack_modCore rfl fun clean y hy => clean y (List.mem_of_mem_filter hy))

theorem wroteBack_flushAliases (line : Nat) (l : Loc) : WroteBack cid s (flushAliases s cid line l) := by
  unfold flushAliases
  generalize (s.core cid).cache.filter _ = xs
  induction xs generalizing s with
  | nil => exact .refl cid s
  | cons x xs ih => exact (wroteBack_flushLine x.line).trans ih

theorem wroteBack_cLookup (line : Nat) (l : Loc) : WroteBack cid s (cLookup s cid line l).1 := by
  refine (wroteBack_flushAliases line l).trans ?_
  unfold cLookup
  generalize flushAliases s cid line l = t
  have put : ∀ {u : State} (y : CLine), (∀ z ∈ (u.core cid).cache, z.dirty = 0) → y.dirty = 0 →
      ∀ z ∈ (((u.core cid).cPut y).cTouch y).cache, z.dirty = 0 := fun y clean hy z hz =>
    (List.mem_cons.1 hz).elim (fun e => e ▸ hy) fun h => clean z (List.mem_of_mem_filter h)
  dsimp only
  split
  · exact .refl cid t
  · next x found =>
    have held := List.mem_of_find?_eq_some found
    split
    · by_cases same : x.loc = l
      · simp only [same, if_true]
        exact wroteBack_modCore rfl fun clean => put x clean (clean x held)
      · simp only [same, if_false]
        exact (wroteBack_writeBack held).trans (wroteBack_modCore rfl fun clean => put _ clean rfl)
    · exact wroteBack_flushLine line

end

/-! #### Stores through to memory -/

theorem nodeWrite_dev_keeps (s : State) (pa : Nat) (recov : Bool) (bs : List Byte) (r : Rin) :
    (nodeWrite s (.dev pa recov) bs r).cores = s.cores ∧ (nodeWrite s (.dev pa recov) bs r).hostMem = s.hostMem ∧
      (nodeWrite s (.dev pa recov) bs r).peerMem = s.peerMem := by
  obtain ⟨k, saw⟩ := nodeSaw_eq s (.dev pa recov) r
  obtain ⟨-, cores, -, -, -, host, peer⟩ := devWrite_keeps { s with nodeRins := k } pa bs recov r
  rw [nodeWrite, saw]
  exact ⟨cores, host, peer⟩

section
variable {s : State} {cid va pa : Nat} {recov : Bool} {bs : List Byte}

/-- What the look-up that goes before a store to device memory leaves. -/
def lookedUp (s : State) (cid va pa : Nat) (recov : Bool) : State := (cLookup s cid (va / 64) (lineLoc (.dev pa recov) (va % 64))).1

/-- The bytes are written over what the look-up leaves, at their node alone. -/
theorem storeThrough_dev : (storeThrough s cid va (.dev pa recov) bs).mem = (lookedUp s cid va pa recov).mem.write pa bs ∧
    (storeThrough s cid va (.dev pa recov) bs).hostMem = (lookedUp s cid va pa recov).hostMem ∧
    (storeThrough s cid va (.dev pa recov) bs).peerMem = (lookedUp s cid va pa recov).peerMem ∧
    ∀ d, ((storeThrough s cid va (.dev pa recov) bs).core d).pool = ((lookedUp s cid va pa recov).core d).pool := by
  obtain ⟨cores, host, peer⟩ := nodeWrite_dev_keeps (lookedUp s cid va pa recov) pa recov bs (s.core cid).rin
  refine ⟨nodeWrite_dev_mem (lookedUp s cid va pa recov) pa recov bs _, host, peer, fun d => ?_⟩
  refine (core_modCore_keeps Core.pool ?_ d).trans (congrArg Core.pool (State.core_of_cores cores d))
  split <;> rfl

/-- A store under a wide release that no check refuses. -/
theorem storePiece_wide {lease lsid : Nat} {na : Bool} {l : Loc} (allowed : denied s lease (genOf s lease) true l = false)
    (clean : storePoisoned s cid lease (va / 64) (lineLoc l (va % 64)) bs.length false = false)
    (room : overLease (storeThrough s cid va l bs) = none) :
    storePiece cid lease lsid true na (va, l, bs) s = .ok (storeThrough s cid va l bs) :=
  (if_neg (ne_true_of_eq_false allowed)).trans ((if_neg (ne_true_of_eq_false clean)).trans (okRoom_of_overLease room))

end

/-! #### Escapes -/

/-- An escape is held behind the others, and writes nothing; a seal may be asked for. -/
theorem holdEscape_keeps (s : State) (l : Loc) (lease : Option Nat) (ac : AC) (irr retained : Bool) (px py slot : Nat) (r : Rin)
    (bs : List Byte) : SameMemory s (holdEscape s l lease ac irr retained px py slot r bs) ∧
    (holdEscape s l lease ac irr retained px py slot r bs).escapes = s.escapes ++
      [{ id := s.escNext, loc := l, rin := r, lease := lease, ac := ac, irr := irr, retained := retained, px := px, py := py, slot := slot,
         data := bs }] := by
  obtain ⟨x, asked⟩ := requestSeal_eq s false
  unfold holdEscape
  rw [asked]
  split
  · exact ⟨⟨rfl, rfl, rfl⟩, rfl⟩
  · exact ⟨⟨rfl, rfl, rfl⟩, rfl⟩

end Sys2Proof.Machine

namespace Sys2Proof.Proofs

open Sys2Proof.Machine Sys2Proof.Safety

/-- Settles O55: a pool store by what it reads of the core, a wide store by what the look-up before it leaves. -/
theorem storesPerform : Obligations.StoresPerform := by
  unfold Obligations.StoresPerform
  refine ⟨fun s cid k pt tc o p x q role bs eff free => ?_, fun s cid lease lsid va pa na recov bs wf allowed clean room => ?_,
    fun s cid k p ac irr y room => ?_⟩
  · have counted := storeReplays_uncounted x q s
    have memory := sameMemory_of_uncounted counted
    refine ⟨_, doEffect_poolStore eff free, memory, ?_, fun d other => ?_⟩
    · rw [State.core_modCore_same]
      exact writeRole_pool_of_uncounted counted tc role o bs
    · rw [State.core_modCore_other _ _ _ _ other]
      exact pool_eq_of_uncounted counted d
  · obtain ⟨mem, host, peer, pool⟩ := storeThrough_dev (s := s) (cid := cid) (va := va) (pa := pa) (recov := recov) (bs := bs)
    have back : WroteBack cid s (lookedUp s cid va pa recov) := wroteBack_cLookup _ _
    refine ⟨_, storePiece_wide allowed clean room, ?_, fun d => (pool d).trans (back.pool d), fun tidy => ?_⟩
    · rw [mem, Memory.read_write _ _ _ (back.wf wf)]
    · obtain ⟨⟨sameMem, sameHost, samePeer⟩, -⟩ := back.clean tidy
      refine ⟨fun a outside => ?_, host.trans sameHost, peer.trans samePeer⟩
      rw [mem, Memory.get_write_other _ _ _ _ outside, sameMem]
  · obtain ⟨memory, held⟩ :=
      holdEscape_keeps s y.2.1 (some p.lease) ac irr (! hClassS p.hdr) (s.core cid).px (s.core cid).py k (s.core cid).rin y.2.2
    exact ⟨_, _, if_pos room, memory, held, rfl, rfl, rfl, rfl, rfl, rfl⟩

end Sys2Proof.Proofs

/-! ### Tasks between their blocks (R145, R147, R149, R155, R195, R347) -/

namespace Sys2Proof.Machine

open Sys2Proof.Safety

theorem patch_of_runsOn {s : State} {cid pt : Nat} {p : Patch} (R : RunsOn s cid pt p) : (s.core cid).patch.bind s.patch = some p := by
  rw [R.1]
  exact R.2.1

/-- The TCTL that a core's patch starts its tasks with (R145). -/
def patchTctl (s : State) (cid : Nat) : Nat :=
  match (s.core cid).patch.bind s.patch with
  | some p => hTctl p.hdr
  | none => 0

theorem startTask_task (s : State) (cid k pc : Nat) (seed : BitVec 64) (weight : Nat) :
    ((startTask s cid k pc seed weight).core cid).task k =
      { st := .live, pc := BitVec.ofNat 48 pc, tctl := BitVec.ofNat 64 (patchTctl s cid), rstate := seed, weight := weight, eff := weight,
        since := (s.cluster (clusterOf cid)).nextId } := by
  unfold startTask
  rw [State.core_modCore_same]
  exact Core.task_modTask_same ((s.core cid).zeroFrame k) k fun _ =>
    { st := .live, pc := BitVec.ofNat 48 pc, tctl := BitVec.ofNat 64 (patchTctl s cid), rstate := seed, weight := weight, eff := weight,
      since := (s.cluster (clusterOf cid)).nextId }

/-- A start touches its core alone. -/
theorem startTask_sameMemory (s : State) (cid k pc : Nat) (seed : BitVec 64) (weight : Nat) : SameMemory s (startTask s cid k pc seed weight) :=
  ⟨rfl, rfl, rfl⟩

end Sys2Proof.Machine

namespace Sys2Proof.Proofs

open Sys2Proof.Machine Sys2Proof.Safety

section
variable {s : State} {cid pt k : Nat} {p : Patch} (R : RunsOn s cid pt p)
include R

/-! #### Starts -/

theorem exec_taskStart (tasks : (s.core cid).inTasks = true) (slot : k < (s.core cid).nTasks) (free : ((s.core cid).task k).st = .free)
    (unreserved : ((s.core cid).task k).resv = none)
    (flit : ((List.range 16).any fun j => (s.core cid).inBound j && (s.core cid).inTask j = k && recvReady (s.core cid) j) = true)
    (goes : p.stop = none) (open' : (s.core cid).holdG = false) : exec (.taskStart cid k) s = .next
      (startTask s cid k ((s.core cid).entryOf k) (p.seed ^^^ BitVec.ofNat 64 k) ((s.core cid).weightOf k)) := by
  show execTaskStart cid k s = _
  simp only [execTaskStart, startConfigured, patch_of_runsOn R, Option.map_some, Option.getD_some]
  rw [if_pos]
  simp [R.2.2, tasks, slot, free, unreserved, flit, goes, open']

theorem exec_tspawnRequest (goes : p.stop = none) {q : Nat × Nat × Bool × Value × Value}
    (due : ((s.core cid).task k).spawns.find? (fun q => spawnCheck s pt p q.2.2.1 q.2.2.2.1 != .wait) = some q) :
    exec (.tspawnRequest cid k) s = .next (answerSpawn s cid k pt p q) := by
  obtain ⟨holds, found, runs⟩ := R
  show execTspawnRequest cid k s = _
  simp only [execTspawnRequest, holds, found, runs, goes, due]
  simp

theorem exec_issueGrant (a b : Nat) : exec (.issueGrant cid a b) s = .next
    { selectTask (selectTask (barrierWave s cid) cid true a) cid false b with
      grants := (selectTask (selectTask (barrierWave s cid) cid true a) cid false b).grants ++
        pinnedGrants (selectTask (selectTask (barrierWave s cid) cid true a) cid false b) cid } := by
  show execIssueGrant cid a b s = _
  simp only [execIssueGrant, patch_of_runsOn R, R.2.2]
  rfl

/-! #### Fetches -/

section
variable (goes : p.stop = none) (live : ((s.core cid).task k).st = .live) (between : ((s.core cid).task k).inst = none)
  (awake : ((s.core cid).task k).sealWait = false) (open' : (s.core cid).holdG = false)
  (released : ∀ e ∈ s.escapes, e.id ∉ ((s.core cid).task k).escDue)
include goes live between awake open' released

/-- A live task between its blocks that nothing holds back may fetch (R149). -/
theorem nothing_holds_fetch : ¬ (p.st ≠ .running ∨ p.stop.isSome ∨ ((s.core cid).task k).st ≠ .live ∨ ((s.core cid).task k).inst.isSome ∨
    ((s.core cid).task k).sealWait ∨ (s.core cid).holdG ∨ s.escapes.any (fun e => ((s.core cid).task k).escDue.contains e.id)) := by
  simpa [R.2.2, goes, live, between, awake, open'] using released

/-- What a copy walk left for the task comes before its next block (R240, R340). -/
theorem exec_blockFetch_async {a : AsyncCause} {more : List AsyncCause} (due : ((s.core cid).task k).async = a :: more) :
    exec (.blockFetch cid k) s = .next (raiseTask (s.modCore cid fun c => c.modTask k fun t => { t with async := more }) cid k
      ((s.core cid).task k).pc.toNat a.raised) := by
  show execBlockFetch cid k s = _
  simp only [execBlockFetch, patch_of_runsOn R, if_neg (nothing_holds_fetch R goes live between awake open' released), due]

theorem exec_blockFetch_good {u : State} {ws : List IWord} (quiet : ((s.core cid).task k).async = [])
    (unbroken : breakAt ((s.core cid).task k) = none) (read : readBlock cid p.lease ((s.core cid).task k).pc.toNat s = .ok u ws)
    (good : blockErr (s.core cid).frame ws = none) : exec (.blockFetch cid k) s = .next (startBlock u cid k ws) := by
  show execBlockFetch cid k s = _
  simp only [execBlockFetch, patch_of_runsOn R, if_neg (nothing_holds_fetch R goes live between awake open' released), quiet, unbroken, read,
    good]

theorem exec_blockFetch_refused {u : State} {ws : List IWord} {e : BlockErr} (quiet : ((s.core cid).task k).async = [])
    (unbroken : breakAt ((s.core cid).task k) = none) (read : readBlock cid p.lease ((s.core cid).task k).pc.toNat s = .ok u ws)
    (bad : blockErr (s.core cid).frame ws = some e) :
    exec (.blockFetch cid k) s = .next (raiseTask u cid k ((s.core cid).task k).pc.toNat (decodeCause e)) := by
  show execBlockFetch cid k s = _
  simp only [execBlockFetch, patch_of_runsOn R, if_neg (nothing_holds_fetch R goes live between awake open' released), quiet, unbroken, read,
    bad]

end

/-! #### Pinned instances -/

section
variable (moving : p.held = false) (pinned : (s.core cid).isPinned = true)
include moving pinned

/-- A pinned core of a running patch that no transition holds takes its pinned step. -/
theorem exec_pinnedInstanceStart (bad : Bool) : exec (.pinnedInstanceStart cid bad) s = .next ((pinStep s cid pt bad).getD s) := by
  obtain ⟨holds, found, runs⟩ := R
  show execPinnedInstanceStart cid bad s = _
  simp [execPinnedInstanceStart, holds, found, runs, moving, pinned]

theorem exec_pinnedInstanceStart_of_pinStep {bad : Bool} {t : State} (h : pinStep s cid pt bad = some t) :
    exec (.pinnedInstanceStart cid bad) s = .next t := by
  rw [exec_pinnedInstanceStart R moving pinned, h, Option.getD_some]

end

end

section
variable {s : State} {cid : Nat} (inputs : 0 < (s.core cid).pinNr) (heads : ∀ j ∈ (s.core cid).pinChans, (s.core cid).headFlit j ≠ none)
include inputs heads

/-- A block with inputs and a head on each of them neither waits nor is paced by its streams (R155, R159). -/
theorem heads_present : ¬ ((s.core cid).armCode 0 = List.replicate 12 0 ∧ (s.core cid).pinNr = 0 ∧ (s.core cid).pinNw = 0) ∧
    ¬ ((s.core cid).pinNr = 0 ∧ ! (s.core cid).pinAsen ∧ (s.core cid).rednChans = []) ∧
    ¬ ((! (s.core cid).pinChans.all fun j => ((s.core cid).headFlit j).isSome) = true) := by
  refine ⟨by omega, by omega, ?_⟩
  simpa [Option.isSome_iff_ne_none] using heads

theorem pinStep_data (kind : pinKindOf (s.core cid) = .data) {arm : Nat} (picks : arm = (match (s.core cid).aselChans with
      | j :: _ => (((s.core cid).headFlit j).map (·.value.toNat % 2)).getD 0
      | [] => 0)) (room : roomForAll (s.core cid) (dataInst (s.core cid) arm).resv = true) (pt : Nat) (bad : Bool) :
    pinStep s cid pt bad = some (startPin s cid pt (s.core cid).pinChans (dataInst (s.core cid) arm)) := by
  obtain ⟨holds, fed, full⟩ := heads_present inputs heads
  subst picks
  simp only [pinStep, if_neg holds, if_neg fed, if_neg full, kind]
  exact if_pos room

theorem pinStep_stop {l : Nat} (kind : pinKindOf (s.core cid) = .stop l)
    (room : roomForAll (s.core cid) (stopInst (s.core cid) l).resv = true) (pt : Nat) (bad : Bool) :
    pinStep s cid pt bad = some (startPin s cid pt (s.core cid).pinChans (stopInst (s.core cid) l)) := by
  obtain ⟨holds, fed, full⟩ := heads_present inputs heads
  simp only [pinStep, if_neg holds, if_neg fed, if_neg full, kind, if_pos room]

section
variable {n : Nat} (kind : pinKindOf (s.core cid) = .aligned n) (room : roomForAll (s.core cid) (alignedInst (s.core cid) n).resv = true)
include kind room

/-- What aligned heads with room for their tokens do: a discrepancy at a MARKER, a BARRIER, any other (R155, R347). -/
theorem pinStep_aligned (pt : Nat) (bad : Bool) : pinStep s cid pt bad =
    if n = 9 ∧ bad then some (raiseCore (s.modCore cid (Core.replayFailed s.time)) cid none 0 0 { cause := 0x12 })
    else if n = 8 then
      if drainStalls s cid ∨ (s.core cid).pinst ≠ [] ∨ (s.core cid).gen ≠ [] then none
      else some (startPin (release (acquire s cid (some .lease)) cid (some .lease)) cid pt (s.core cid).pinChans (alignedInst (s.core cid) n))
    else some (startPin (if n = 9 then s.modCore cid Core.applyConst else s) cid pt (s.core cid).pinChans (alignedInst (s.core cid) n)) := by
  obtain ⟨holds, fed, full⟩ := heads_present inputs heads
  simp only [pinStep, if_neg holds, if_neg fed, if_neg full, kind, room, Bool.not_true, Bool.false_eq_true, if_false]

end

end

theorem exec_residueMismatch_first (s : State) (cid k : Nat) : exec (.residueMismatch cid k false) s = .next (discard s cid k) := rfl

theorem exec_residueMismatch_again (s : State) (cid k : Nat) :
    exec (.residueMismatch cid k true) s = .next (s.modCore cid (Core.replayFailed s.time)) := rfl

/-- A replay failure joins those of the last second, unless three are there already (R117, R347). -/
theorem replayFailed_replays (now : Nat) (c : Core) : if 3 ≤ c.replays.length then (c.replayFailed now).replays = c.replays
    else now ∈ (c.replayFailed now).replays := by
  unfold Core.replayFailed
  split
  · rfl
  · exact List.mem_cons_self

theorem replayFailed_task (now : Nat) (c : Core) (k : Nat) : (c.replayFailed now).task k = c.task k := by
  unfold Core.replayFailed
  split <;> rfl

/-- Settles O47: each event, with what lets it happen, takes the branch of its definition that the statement names. -/
theorem taskSteps : Obligations.TaskSteps := by
  intro s cid pt k p R
  refine ⟨?_, fun q goes due => exec_tspawnRequest R goes due, ?_, ?_, ?_, ?_, ?_, exec_residueMismatch_first s cid k, ?_⟩
  · intro tasks slot free unreserved flit goes open'
    have task := startTask_task s cid k ((s.core cid).entryOf k) (p.seed ^^^ BitVec.ofNat 64 k) ((s.core cid).weightOf k)
    exact ⟨_, exec_taskStart R tasks slot free unreserved flit goes open', congrArg Task.st task, congrArg Task.pc task,
      congrArg Task.rstate task, congrArg Task.inst task, startTask_sameMemory ..⟩
  · rintro a b u rfl
    exact exec_issueGrant R a b
  · intro a more goes live between awake open' released due
    exact exec_blockFetch_async R goes live between awake open' released due
  · intro u ws goes live between awake open' released quiet unbroken read good
    exact exec_blockFetch_good R goes live between awake open' released quiet unbroken read good
  · intro u ws e goes live between awake open' released quiet unbroken read bad
    exact exec_blockFetch_refused R goes live between awake open' released quiet unbroken read bad
  · intro moving pinned inputs heads
    have starts {bad : Bool} {t : State} := exec_pinnedInstanceStart_of_pinStep R moving pinned (bad := bad) (t := t)
    refine ⟨fun arm kind picks room bad => starts (pinStep_data inputs heads kind picks room pt bad),
      fun l kind room bad => starts (pinStep_stop inputs heads kind room pt bad), fun kind room => ⟨?_, ?_⟩, ?_⟩
    · exact starts ((pinStep_aligned inputs heads kind room pt true).trans (if_pos ⟨rfl, rfl⟩))
    · exact starts (pinStep_aligned inputs heads kind room pt false)
    · intro kind room unstalled empty idle bad
      refine starts ((pinStep_aligned inputs heads kind room pt bad).trans ?_)
      simp [unstalled, empty, idle]
  · refine ⟨_, exec_residueMismatch_again s cid k, ?_, ?_⟩ <;> rw [State.core_modCore_same]
    · exact replayFailed_task ..
    · exact replayFailed_replays ..

end Sys2Proof.Proofs

/-! ### Flits leave, pass the router elements and arrive (R160 to R166, R302, R377) -/

namespace Sys2Proof.Machine

open Sys2Proof.Safety

/-! #### In-channels -/

theorem unreserve_ins (c : Core) (js : List Nat) : (c.unreserve js).ins = c.ins := foldl_keeps Core.ins (fun _ _ => by rfl) js c

/-- Pinned instances that emit fill out-channels only. -/
theorem drainPinned_ins (n : Nat) (c : Core) : (drainPinned n c).ins = c.ins := by
  induction n generalizing c with
  | zero => rfl
  | succ n ih =>
    unfold drainPinned
    split
    · rfl
    · next x r _ =>
      refine ite_keeps Core.ins ((ih _).trans ?_) rfl
      exact (foldl_keeps Core.ins (fun _ _ => by rfl) _ _).trans (unreserve_ins { c with pinst := r } _)

/-- The head of an out-channel gone, and what then has room emitted. -/
def Core.sentHead (out : Nat) (c : Core) : Core :=
  drainPinned c.pinst.length (c.modOut out fun o => { o with buf := o.buf.tail, fullSince := none })

theorem Core.sentHead_ins (out : Nat) (c : Core) : (c.sentHead out).ins = c.ins := drainPinned_ins _ _

/-- A flit put into an in-channel stands behind all that the channel held, with its number in the order of arrivals. -/
theorem putFlit_buf (s : State) (cid j : Nat) (f : Flit) :
    ∃ n, (((putFlit s cid j f).core cid).inCh j).buf = ((s.core cid).inCh j).buf ++ [(n, f)] := by
  have const (c : Core) : (if f.kind = 9 ∧ c.inTasks then c.applyConst else c).ins = c.ins := ite_keeps Core.ins rfl rfl
  have stamp (c : Core) : (c.sawRin f.rin).ins = c.ins := ite_keeps Core.ins rfl rfl
  have put (c d : Core) (same : d.ins = c.ins) :
      ((d.modIn j fun ch => { ch with buf := ch.buf ++ [(d.arrivals, f)] }).inCh j).buf = (c.inCh j).buf ++ [(d.arrivals, f)] := by
    rw [Core.inCh_modIn_same]
    exact congrArg (fun t => (tgetD t j {}).buf ++ [(d.arrivals, f)]) same
  unfold putFlit
  rw [State.core_modCore_same]
  exact ⟨_, put _ _ ((const _).trans (stamp _))⟩

end Sys2Proof.Machine

namespace Sys2Proof.Proofs

open Sys2Proof.Machine Sys2Proof.Safety

/-! #### Out-channels -/

section
variable {s : State} {cid out : Nat}

theorem exec_flitArrival_sent (may : sends s cid = true) (bound : (s.core cid).outBound out = true)
    (cut : cutClosed s cid out = false) {f : Flit} {r : List Flit} (head : ((s.core cid).outCh out).buf = f :: r) {u : State}
    (goes : sendRoute s cid out ((s.core cid).route out) f = some u) :
    exec (.flitArrival cid out) s = .next (u.modCore cid (Core.sentHead out)) := by
  show execFlitArrival cid out s = _
  simp only [execFlitArrival, may, bound, cut, head, goes]
  rfl

theorem exec_flitArrival_cut (cut : cutClosed s cid out = true) : exec (.flitArrival cid out) s = .next s :=
  congrArg Host.Outcome.next (if_pos (.inr (.inr cut)))

theorem exec_flitArrival_empty (empty : ((s.core cid).outCh out).buf = []) : exec (.flitArrival cid out) s = .next s := by
  show execFlitArrival cid out s = _
  simp only [execFlitArrival, empty, ite_self]

theorem exec_flitArrival_held {f : Flit} {r : List Flit} (head : ((s.core cid).outCh out).buf = f :: r)
    (held : sendRoute s cid out ((s.core cid).route out) f = none) : exec (.flitArrival cid out) s = .next s := by
  show execFlitArrival cid out s = _
  simp only [execFlitArrival, head, held, ite_self]

/-- On a path that ends at a core which takes the flit, sending is putting it there. -/
theorem sendRoute_taken {key r d : Nat} {f : Flit} (plain : f.kind.toNat < 13) (path : routeKind r = 1) (leads : pathEnd s cid r = .core d)
    (takes : arrivalAt s d (natBits r 10 4) f = .take) : sendRoute s cid key r f = some (putFlit s d (natBits r 10 4) f) := by
  simp only [sendRoute, if_neg (Nat.not_le.mpr plain), path, leads, arrive, takes]

end

/-! #### Router elements -/

theorem plainKind_of {f : Flit} (plain : f.kind = 0 ∨ f.kind = 12) : plainKind f.kind.toNat = true := by
  rcases plain with kind | kind <;> rw [kind] <;> rfl

section
variable {s : State} {cid e : Nat} {f g : Flit} {u : State}

theorem steerStep_plain (data : (s.core cid).headFlit ((s.core cid).elemIn0 e) = some f) (plain : f.kind = 0 ∨ f.kind = 12)
    (steered : (s.core cid).headFlit ((s.core cid).elemIn1 e) = some g) (arm : g.kind = 10)
    (goes : elemSend s cid e (g.value.toNat % 2) f = some u) :
    steerStep s cid e = .go (u.modCore cid fun c => c.consume [(s.core cid).elemIn0 e, (s.core cid).elemIn1 e].eraseDups) := by
  simp only [steerStep, data, steered, plainKind_of plain, arm, goes, elemTake, if_true]

theorem mergeStep_plain (steered : (s.core cid).headFlit ((s.core cid).elemIn1 e) = some g) (arm : g.kind = 10) {ch : Nat}
    (picks : ch = if g.value.toNat % 2 = 0 then (s.core cid).elemIn0 e else (s.core cid).elemIn2 e)
    (data : (s.core cid).headFlit ch = some f) (plain : f.kind = 0 ∨ f.kind = 12) (goes : elemSend s cid e 0 f = some u) :
    mergeStep s cid e = .go (u.modCore cid fun c => c.consume [ch, (s.core cid).elemIn1 e].eraseDups) := by
  have ten : g.kind.toNat = 10 := congrArg BitVec.toNat arm
  simp only [mergeStep, steered, ten, ← picks, data, plainKind_of plain, goes, elemTake, if_true]

theorem carryStep_plain (due : ((s.core cid).elem e).outq = []) (open' : ((s.core cid).elem e).phase = 1)
    (data : (s.core cid).headFlit ((s.core cid).elemIn0 e) = some f) (plain : f.kind = 0 ∨ f.kind = 12) (goes : elemSend s cid e 0 f = some u) :
    carryStep s cid e = .go (u.modCore cid fun c => c.consume [(s.core cid).elemIn0 e].eraseDups) := by
  simp [carryStep, due, open', data, plainKind_of plain, goes, elemTake]

theorem reorderStep_due {r : List Flit} (due : ((s.core cid).elem e).outq = f :: r) (goes : elemSend s cid e 0 f = some u) :
    reorderStep s cid e = .go (u.modCore cid fun c => c.modElem e fun x => { x with outq := x.outq.tail }) := by
  simp only [reorderStep, due, elemFlush, goes]

/-! An element that may act applies its step. -/

theorem exec_steer (acts : elemActs s cid e 1 = true) : exec (.steer cid e) s = .next (elemApply s cid (steerStep s cid e)) :=
  congrArg Host.Outcome.next (if_pos acts)

theorem exec_merge (acts : elemActs s cid e 2 = true) : exec (.merge cid e) s = .next (elemApply s cid (mergeStep s cid e)) :=
  congrArg Host.Outcome.next (if_pos acts)

theorem exec_carry (acts : elemActs s cid e 3 = true) : exec (.carry cid e) s = .next (elemApply s cid (carryStep s cid e)) :=
  congrArg Host.Outcome.next (if_pos acts)

theorem exec_reorder (acts : elemActs s cid e 4 = true) : exec (.reorder cid e) s = .next (elemApply s cid (reorderStep s cid e)) :=
  congrArg Host.Outcome.next (if_pos acts)

end

/-! #### Peer flits -/

section
variable {s : State} {port : Nat} {f : PeerFlit} (up : (tgetD s.ports port {}).down = false)
include up

theorem exec_peerFlitArrival_forwarded (far : f.destDevice ≠ s.sl.device) (open' : reservedKind f = false) :
    exec (.peerFlitArrival port f) s = .next { s with peerOut := s.peerOut ++ [f] } := by
  show execPeerFlitArrival port f s = _
  simp only [execPeerFlitArrival, up, if_pos far, open', Bool.false_eq_true, if_false]

section
variable (here : f.destDevice = s.sl.device)
include here

theorem exec_peerFlitArrival_here : exec (.peerFlitArrival port f) s = .next (atPort port s f) := by
  show execPeerFlitArrival port f s = _
  simp only [execPeerFlitArrival, up, Bool.false_eq_true, if_false, if_neg (not_not.mpr here)]

theorem exec_peerFlitArrival_behind (kind : f.msg = .flit) (waits : (tgetD s.ports port {}).held.any (sameChannel f) = true) :
    exec (.peerFlitArrival port f) s = .next { s with ports := tmod s.ports port {} fun p => { p with held := p.held ++ [f] } } :=
  (exec_peerFlitArrival_here up here).trans (congrArg Host.Outcome.next (if_pos ⟨kind, waits⟩))

theorem exec_peerFlitArrival_admitted (first : (tgetD s.ports port {}).held.any (sameChannel f) = false) {t : State}
    (admits : admitFlit s f = some t) : exec (.peerFlitArrival port f) s = .next t := by
  rw [exec_peerFlitArrival_here up here, atPort, if_neg fun h => ne_true_of_eq_false first h.2, admits, Option.getD_some]

end

end

theorem admitFlit_unpaired {s : State} {f : PeerFlit} (kind : f.msg = .flit) (unpaired : paired s f = none)
    (stayed : (s.forwards.find? fun w => w.lease = f.destLease && w.gen.toNat = f.destGen && w.far = f.srcDevice) = none) :
    admitFlit s f = some { s with peerOut := s.peerOut ++ [backTo s f .dropped] } := by
  simp [admitFlit, kind, unpaired, stayed]

theorem admitFlit_paired {s : State} {f : PeerFlit} {L : Lease} (kind : f.msg = .flit) (pair : paired s f = some L)
    (lasting : discarded s f.rin = false) (steady : s.sl.rolling = none) : admitFlit s f = deliver s L f := by
  simp [admitFlit, kind, pair, lasting, steady]

/-- A flit for a channel that takes it is put there, unless the placer is stopping its patch (R113). -/
theorem deliver_taken {s : State} {L : Lease} {f : PeerFlit} {cid : Nat} (open' : reservedKind f = false)
    (at' : coreXY s ((L.x + f.px) % 64) ((L.y + f.py) % 64) = cid) (runs : ((s.core cid).patch.bind s.patch).any (·.stop.isSome) = false)
    (takes : arrivalAt s cid f.chan { kind := f.kind, value := f.value, rin := f.rin } = .take) :
    deliver s L f = some (putFlit s cid f.chan { kind := f.kind, value := f.value, rin := f.rin }) := by
  subst at'
  simp only [deliver, open', runs, takes, Bool.false_eq_true, if_false]

/-- Settles O42: each event takes the branch of its step that the statement names; what a flit joins keeps its order. -/
theorem flitsMove : Obligations.FlitsMove := by
  intro s cid
  refine ⟨?_, ?_, fun _ => exec_flitArrival_cut, fun _ => exec_flitArrival_empty, fun _ _ _ => exec_flitArrival_held,
    ?_, ?_, ?_, ?_, ?_, ?_, ?_, ?_⟩
  · intro out f r u may bound cut head goes
    exact exec_flitArrival_sent may bound cut head goes
  · intro out f r d may bound cut head plain path leads takes
    obtain ⟨n, joins⟩ := putFlit_buf s d (natBits ((s.core cid).route out) 10 4) f
    refine ⟨_, (n, f), exec_flitArrival_sent may bound cut head (sendRoute_taken plain path leads takes), rfl, ?_⟩
    exact (congrArg (fun t : Table InCh => (tgetD t (natBits ((s.core cid).route out) 10 4) {}).buf)
      (core_modCore_keeps Core.ins (Core.sentHead_ins out _) d)).trans joins
  · intro e f g u acts data plain steered arm goes
    rw [exec_steer acts, steerStep_plain data plain steered arm goes]
  · intro e f g ch u acts steered arm picks data plain goes
    rw [exec_merge acts, mergeStep_plain steered arm picks data plain goes]
  · intro e f u acts due open' data plain goes
    rw [exec_carry acts, carryStep_plain due open' data plain goes]
  · intro e f r u acts due goes
    rw [exec_reorder acts, reorderStep_due due goes]
  · intro port f up far open'
    exact exec_peerFlitArrival_forwarded up far open'
  · intro port f up here kind first unpaired stayed
    exact exec_peerFlitArrival_admitted up here first (admitFlit_unpaired kind unpaired stayed)
  · intro port f up here kind waits
    exact ⟨_, exec_peerFlitArrival_behind up here kind waits, congrArg Port.held (tgetD_tset_same ..)⟩
  · intro port f L up here kind first pair lasting steady open' at' runs takes
    obtain ⟨n, joins⟩ := putFlit_buf s cid f.chan { kind := f.kind, value := f.value, rin := f.rin }
    have admits := (admitFlit_paired kind pair lasting steady).trans (deliver_taken open' at' runs takes)
    exact ⟨_, _, exec_peerFlitArrival_admitted up here first admits, joins, rfl⟩

end Sys2Proof.Proofs

/-! # Control, integer and task instructions (R177 to R183, R186 to R199) -/

/-! ### Shifts, fields and the address sum (R186, R188, R189) -/

namespace Sys2Proof.Laws

open Sys2Proof.Machine Sys2Proof.Safety

/-- The fields of a well-formed instruction are within their limits (R42 to R61). -/
theorem fieldsOk_of_wf {i : Instr} {h : Head} (head : headOf i = some h) (wf : i.wf = true) : fieldsOk i = true := by
  simp only [Instr.wf, legal, head, Bool.and_eq_true] at wf
  exact wf.2

section
variable {n : Nat} (x y z : BitVec n)

theorem ofNat_shlN : BitVec.ofNat n (shlN n x.toNat y.toNat) = if y.toNat < n then x <<< y.toNat else 0 := by
  rw [shlN, apply_ite (BitVec.ofNat n)]
  congr 1
  apply BitVec.eq_of_toNat_eq
  rw [BitVec.toNat_ofNat, Nat.mod_mod, BitVec.toNat_shiftLeft, Nat.shiftLeft_eq]

theorem ofNat_shrN : BitVec.ofNat n (shrN n x.toNat y.toNat) = if y.toNat < n then x >>> y.toNat else 0 := by
  rw [shrN, apply_ite (BitVec.ofNat n)]
  congr 1
  rw [← Nat.shiftRight_eq_div_pow, ← BitVec.toNat_ushiftRight, ofNat_toNat_same]

/-- A shift by the width or more leaves copies of the sign. -/
theorem sshiftRight_width : x.sshiftRight n = if x.msb then BitVec.allOnes n else 0 := by
  refine BitVec.eq_of_getLsbD_eq fun i hi => ?_
  rw [BitVec.getLsbD_sshiftRight, if_neg (by omega)]
  cases x.msb <;> simp [hi]

theorem ofNat_sarN : BitVec.ofNat n (sarN n x.toNat y.toNat) =
    if y.toNat < n then x.sshiftRight y.toNat else if x.msb then BitVec.allOnes n else 0 := by
  have shift : ∀ c, BitVec.ofInt n (x.toInt / 2 ^ c) = x.sshiftRight c := fun c => by
    rw [BitVec.sshiftRight_eq, Int.shiftRight_eq_div_pow]
    push_cast
    rfl
  rw [sarN, ofNat_wrap, sgn_toNat, shift, ← sshiftRight_width]
  split <;> rfl

theorem ofNat_rolN : BitVec.ofNat n (rolN n x.toNat y.toNat) = x.rotateLeft (y.toNat % n) := by
  rcases Nat.eq_zero_or_pos n with rfl | hn
  · exact Subsingleton.elim _ _
  generalize hr : y.toNat % n = r
  have within : r < n := hr ▸ Nat.mod_lt _ hn
  have apart : x <<< r &&& x >>> (n - r) = 0#n := BitVec.eq_of_getLsbD_eq fun i hi => by
    by_cases low : i < r
    · simp [low]
    · simp [BitVec.getLsbD_of_ge x (n - r + i) (by omega)]
  have parts : BitVec.ofNat n (rolN n x.toNat y.toNat) = x <<< r + x >>> (n - r) := by
    apply BitVec.eq_of_toNat_eq
    rw [BitVec.toNat_ofNat, rolN, hr, Nat.mod_mod, BitVec.toNat_add, BitVec.toNat_shiftLeft, BitVec.toNat_ushiftRight, Nat.mod_add_mod,
      Nat.shiftLeft_eq, Nat.shiftRight_eq_div_pow]
  rw [parts, BitVec.add_eq_or_of_and_eq_zero _ _ apart, BitVec.rotateLeft_def, Nat.mod_eq_of_lt within]

/-- The field of an element as a bit vector of the field's own length. -/
theorem extzN_toNat : extzN n x.toNat y.toNat =
    (BitVec.ofNat (min (y.toNat / 256 % 128) n) (x.toNat / 2 ^ (y.toNat % 128))).toNat := (BitVec.toNat_ofNat _ _).symm

theorem ofNat_extN : BitVec.ofNat n (extN n x.toNat y.toNat) =
    BitVec.ofInt n (BitVec.ofNat (min (y.toNat / 256 % 128) n) (x.toNat / 2 ^ (y.toNat % 128))).toInt := by
  rw [extN, extzN_toNat, show extLen n y.toNat = min (y.toNat / 256 % 128) n from rfl, sgn_toNat]
  split
  next empty => rw [empty, BitVec.of_length_zero (x := BitVec.ofNat 0 _), BitVec.toInt_zero]; rfl
  next => exact ofNat_wrap n _

theorem ofNat_insN :
    let k : BitVec n := BitVec.ofNat n ((2 ^ min (y.toNat / 256 % 128) n - 1) * 2 ^ (y.toNat % 128))
    BitVec.ofNat n (insN n x.toNat y.toNat z.toNat) = (x &&& ~~~k) ||| ((z <<< (y.toNat % 128)) &&& k) := by
  intro k
  have mask : insN n x.toNat y.toNat z.toNat = (x.toNat &&& notN n k.toNat) ||| ((z.toNat * 2 ^ (y.toNat % 128)) &&& k.toNat) := by
    rw [BitVec.toNat_ofNat]
    rfl
  have moved : BitVec.ofNat n (z.toNat * 2 ^ (y.toNat % 128)) = z <<< (y.toNat % 128) := by
    rw [← Nat.shiftLeft_eq]
    rfl
  rw [mask, notN_toNat, BitVec.ofNat_or, BitVec.ofNat_and, BitVec.ofNat_and, moved, ofNat_toNat_same, ofNat_toNat_same, ofNat_toNat_same]

end

section
variable {i : Instr} {h : Head} {ec : IntEC} {b : Option (BitVec 32)} {f : LaneOp}

theorem shiftForm_elementwise (form : shiftForm i = some (h, ec, b, f)) : Elementwise i h ec b f := by
  cases i <;> cases form
  case shl => exact elementwise_of_intMap _ (issue_firing · _) fun x y _ => ofNat_shlN x y
  case shr => exact elementwise_of_intMap _ (issue_firing · _) fun x y _ => ofNat_shrN x y
  case sar => exact elementwise_of_intMap _ (issue_firing · _) fun x y _ => ofNat_sarN x y
  case rol => exact elementwise_of_intMap _ (issue_firing · _) fun x y _ => ofNat_rolN x y

theorem fieldForm_elementwise (form : fieldForm i = some (h, ec, b, f)) : Elementwise i h ec b f := by
  cases i <;> cases form
  case ext => exact elementwise_of_intMap _ (issue_firing · _) fun x y _ => ofNat_extN x y
  case extz => exact elementwise_of_intMap _ (issue_firing · _) fun x y _ => congrArg (BitVec.ofNat _) rfl
  case ins => exact elementwise_of_intMap _ (issue_firing · _) ofNat_insN
  case lea => exact elementwise_of_intMap _ (issue_firing · _) fun x y _ => rfl

/-- The widths that the field instructions and `lea` accept (R188, R189). -/
theorem fieldForm_width (form : fieldForm i = some (h, ec, b, f)) (wf : i.wf = true) :
    ec.w = .s64 ∨ ec.w = .s32 ∨ ec.w = .v32 ∨ ec.w = .d64 := by
  cases i <;> cases form
  case lea =>
    have fields : ((ec.w = .s64 || ec.w = .d64) && immInt ec.w b) = true := fieldsOk_of_wf rfl wf
    simp only [Bool.and_eq_true, Bool.or_eq_true, decide_eq_true_eq] at fields
    tauto
  all_goals
    have fields : ((ec.w = .s64 || ec.w = .s32 || ec.w = .v32 || ec.w = .d64) && immInt ec.w b) = true := fieldsOk_of_wf rfl wf
    simp only [Bool.and_eq_true, Bool.or_eq_true, decide_eq_true_eq] at fields
    tauto

end

end Sys2Proof.Laws

namespace Sys2Proof.Proofs

open Sys2Proof.Machine Sys2Proof.Safety Sys2Proof.Laws

/-- Settles O2: each instruction's operation on numbers is the shift, the field or the sum of its elements. -/
theorem shiftsAndFields : Obligations.ShiftsAndFields := by
  unfold Obligations.ShiftsAndFields
  intro i h ec b f wf form
  exact ⟨fun field => fieldForm_width field wf, form.elim shiftForm_elementwise fieldForm_elementwise⟩

end Sys2Proof.Proofs

/-! ### Bit counts and reversals (R187) -/

namespace Sys2Proof.Laws

open Sys2Proof.Machine Sys2Proof.Safety

/-- The word of an instruction holds its I at bit 55 (R41). -/
theorem getLsbD_of_mk {o : BitVec 8} {i : Bool} {x : BitVec 5} {h : Head} {imm : BitVec 32} {w : IWord} (he : mk o i x h imm = some w) :
    w.getLsbD 55 = i := by
  rw [mk_pack, Option.some.injEq] at he
  exact he ▸ iF_pack ..

/-! #### Bits of joined elements -/

/-- Bit i of joined elements of m bits is bit i mod m of element i div m (R5). -/
theorem testBit_joinN {m : Nat} (hm : 0 < m) (xs : List Nat) (i : Nat) : (joinN m xs).testBit i = (xs.getD (i / m) 0).testBit (i % m) := by
  have element := congrArg (Nat.testBit · (i % m)) (elemN_joinN m xs (i / m))
  simpa [elemN, Nat.testBit_mod_two_pow, Nat.testBit_div_two_pow, Nat.mod_lt i hm, Nat.mod_add_div'] using element

/-- Elements of one bit are the bits. -/
theorem testBit_joinN_one (bs : List Bool) (i : Nat) : (joinN 1 (bs.map Bool.toNat)).testBit i = bs.getD i false := by
  have bit : (bs.map Bool.toNat).getD i 0 = (bs.getD i false).toNat := by
    rw [List.getD_eq_getElem?_getD, List.getD_eq_getElem?_getD, List.getElem?_map]
    cases bs[i]? <;> rfl
  rw [testBit_joinN one_pos, Nat.div_one, Nat.mod_one, bit, Nat.testBit_zero]
  cases bs.getD i false <;> rfl

/-! #### The bits of an element -/

theorem leading_eq_findIdx (bs : List Bool) : leading bs = bs.findIdx id := by
  induction bs with
  | nil => rfl
  | cons b bs ih => cases b <;> simp [leading, List.findIdx_cons, ih]

theorem leading_le (bs : List Bool) : leading bs ≤ bs.length := leading_eq_findIdx bs ▸ List.findIdx_le_length

theorem getElem_of_lt_leading {bs : List Bool} {i : Nat} (hi : i < leading bs) : bs[i]'(hi.trans_le (leading_le bs)) = false :=
  List.not_of_lt_findIdx (leading_eq_findIdx bs ▸ hi)

theorem getElem_leading {bs : List Bool} (h : leading bs < bs.length) : bs[leading bs] = true := by
  simp only [leading_eq_findIdx] at h ⊢
  exact List.findIdx_getElem (p := id) (w := h)

section
variable {n : Nat} (x : BitVec n)

theorem bitsN_length : (bitsN n x.toNat).length = n := by rw [bitsN, List.length_map, List.length_range]

theorem bitsN_getElem {i : Nat} (hi : i < (bitsN n x.toNat).length) : (bitsN n x.toNat)[i] = x.getLsbD i := by
  simp [bitsN, BitVec.testBit_toNat]

theorem bitsN_reverse_getElem {i : Nat} (hi : i < (bitsN n x.toNat).reverse.length) :
    (bitsN n x.toNat).reverse[i] = x.getLsbD (n - 1 - i) := by
  rw [List.getElem_reverse, bitsN_getElem, bitsN_length]

/-- A count of at most n is held by an element of n bits. -/
theorem toNat_ofNat_count {c : Nat} (hc : c ≤ n) : (BitVec.ofNat n c).toNat = c := by
  rw [BitVec.toNat_ofNat, Nat.mod_eq_of_lt (hc.trans_lt Nat.lt_two_pow_self)]

theorem clzN_le : clzN n x.toNat ≤ n := (leading_le _).trans_eq (List.length_reverse.trans (bitsN_length x))

theorem ctzN_le : ctzN n x.toNat ≤ n := (leading_le _).trans_eq (bitsN_length x)

theorem popN_le : popN n x.toNat ≤ n := (List.length_filter_le _ _).trans_eq (bitsN_length x)

theorem getLsbD_above_clzN {i : Nat} (hi : i < n) (above : n - clzN n x.toNat ≤ i) : x.getLsbD i = false := by
  have bit := getElem_of_lt_leading (bs := (bitsN n x.toNat).reverse) (i := n - 1 - i) (show _ < clzN n x.toNat by omega)
  rwa [bitsN_reverse_getElem, show n - 1 - (n - 1 - i) = i by omega] at bit

theorem getLsbD_at_clzN (h : clzN n x.toNat < n) : x.getLsbD (n - 1 - clzN n x.toNat) = true := by
  have bit := getElem_leading (bs := (bitsN n x.toNat).reverse) (by rwa [List.length_reverse, bitsN_length])
  rwa [bitsN_reverse_getElem] at bit

theorem getLsbD_below_ctzN {i : Nat} (hi : i < ctzN n x.toNat) : x.getLsbD i = false := by
  rw [← bitsN_getElem x]
  exact getElem_of_lt_leading hi

theorem getLsbD_at_ctzN (h : ctzN n x.toNat < n) : x.getLsbD (ctzN n x.toNat) = true := by
  rw [← bitsN_getElem x]
  exact getElem_leading (by rwa [bitsN_length])

theorem popN_toNat : popN n x.toNat = ((List.range n).filter fun i => x.getLsbD i).length := by
  rw [popN, bitsN, List.filter_map, List.length_map]
  rfl

theorem getLsbD_brevN {i : Nat} (hi : i < n) : (BitVec.ofNat n (brevN n x.toNat)).getLsbD i = x.getLsbD (n - 1 - i) := by
  have within : i < (bitsN n x.toNat).reverse.length := by rwa [List.length_reverse, bitsN_length]
  rw [BitVec.getLsbD_ofNat, decide_eq_true hi, Bool.true_and, brevN, testBit_joinN_one, List.getD_eq_getElem _ _ within,
    bitsN_reverse_getElem]

/-- Bit i of an element with its bytes reversed lies in byte n / 8 - 1 - i / 8, at the same place (R187). -/
theorem getLsbD_bswapN (bytes : 8 ∣ n) {i : Nat} (hi : i < n) :
    (BitVec.ofNat n (bswapN n x.toNat)).getLsbD i = x.getLsbD (n - 8 - 8 * (i / 8) + i % 8) := by
  have within : i / 8 < ((List.range (n / 8)).map (elemN x.toNat 8)).reverse.length := by
    simp only [List.length_reverse, List.length_map, List.length_range]
    omega
  have byte : ((List.range (n / 8)).map (elemN x.toNat 8)).reverse.getD (i / 8) 0 = elemN x.toNat 8 (n / 8 - 1 - i / 8) := by
    rw [List.getD_eq_getElem _ _ within, List.getElem_reverse]
    simp
  rw [BitVec.getLsbD_ofNat, decide_eq_true hi, Bool.true_and, bswapN, testBit_joinN (by decide), byte, elemN, Nat.testBit_mod_two_pow,
    decide_eq_true (Nat.mod_lt i (by decide)), Bool.true_and, Nat.testBit_div_two_pow, BitVec.testBit_toNat]
  congr 1
  omega

end

/-! #### The instructions -/

/-- An integer result, element by element, as bit vectors. -/
theorem lane_intMap (ec : IntEC) (g : Nat → Nat → Nat → Nat) (a b c : Value) {k : Nat} (hk : k < intCount ec.w) :
    lane (intMap ec g a b c) (intBits ec.w) k = BitVec.ofNat (intBits ec.w)
      (g (lane a (intBits ec.w) k).toNat (lane b (intBits ec.w) k).toNat (lane c (intBits ec.w) k).toNat) := by
  apply BitVec.eq_of_toNat_eq
  rw [lane_toNat, elem_intMap ec _ _ _ _ k hk, lane_toNat, lane_toNat, lane_toNat, BitVec.toNat_ofNat]

/-- Bytes divide the elements of every width but 4 bits. -/
theorem eight_dvd_intBits {w : IntW} (hw : w ≠ .q4) : 8 ∣ intBits w := by
  cases w
  case q4 => exact absurd rfl hw
  all_goals decide

section
variable {i : Instr} {h : Head} {ec : IntEC} {P : (n : Nat) → BitVec n → BitVec n → Prop}

theorem countForm_takes (form : countForm i = some (h, ec, P)) : takes i = (true, false, false) := by
  cases i <;> cases form <;> rfl

/-- The words of the five have I = 0 and no IMM (R187). -/
theorem encode_countForm (form : countForm i = some (h, ec, P)) : ∃ o, encode i = mk o false (intBits5 ec) h 0 := by
  cases i <;> cases form <;> exact ⟨_, rfl⟩

theorem bswap_width {h : Head} {ec : IntEC} (wf : (Instr.bswap h ec).wf = true) : ec.w ≠ .q4 :=
  bne_iff_ne.1 (fieldsOk_of_wf rfl wf)

/-- An instruction on A alone that may fire delivers a result each element of which is related to that of A; the bits above a scalar are as
R184 says. -/
def ElementsRelated (i : Instr) (h : Head) (ec : IntEC) (P : (n : Nat) → BitVec n → BitVec n → Prop) : Prop :=
  ∀ (s : State) (e : Env) (v : Vals), Firing i s h e v → ∃ r, exec i s = .next (e.result h r s) ∧ scalarRest ec r ∧
    ∀ k < intCount ec.w, P (intBits ec.w) (lane v.a (intBits ec.w) k) (lane r (intBits ec.w) k)

theorem elementsRelated_of_intMap (g : Nat → Nat)
    (fires : ∀ {s e v}, Firing i s h e v → exec i s = .next (e.result h (intMap ec (fun a _ _ => g a) v.a 0 0) s))
    (related : ∀ x : BitVec (intBits ec.w), P (intBits ec.w) x (BitVec.ofNat (intBits ec.w) (g x.toNat))) : ElementsRelated i h ec P := by
  refine fun s e v F => ⟨_, fires F, scalarRest_intMap ec _ _ _ _, fun k hk => ?_⟩
  rw [lane_intMap _ _ _ _ _ hk]
  exact related _

theorem countForm_elementsRelated (form : countForm i = some (h, ec, P)) (wf : i.wf = true) : ElementsRelated i h ec P := by
  cases i <;> cases form
  case clz =>
    refine elementsRelated_of_intMap _ (issue_firing · _) fun x => ?_
    rw [toNat_ofNat_count (clzN_le x)]
    exact ⟨clzN_le x, fun i hi => getLsbD_above_clzN x hi, getLsbD_at_clzN x⟩
  case ctz =>
    refine elementsRelated_of_intMap _ (issue_firing · _) fun x => ?_
    rw [toNat_ofNat_count (ctzN_le x)]
    exact ⟨ctzN_le x, fun i => getLsbD_below_ctzN x, getLsbD_at_ctzN x⟩
  case popc =>
    exact elementsRelated_of_intMap _ (issue_firing · _) fun x => (toNat_ofNat_count (popN_le x)).trans (popN_toNat x)
  case brev => exact elementsRelated_of_intMap _ (issue_firing · _) fun x _ => getLsbD_brevN x
  case bswap => exact elementsRelated_of_intMap _ (issue_firing · _) fun x _ => getLsbD_bswapN x (eight_dvd_intBits (bswap_width wf))

end

end Sys2Proof.Laws

namespace Sys2Proof.Proofs

open Sys2Proof.Machine Sys2Proof.Safety Sys2Proof.Laws

/-- Settles O3: the words are read off the encoder, and each count or reversal is what the list of its element's bits gives. -/
theorem bitCounts : Obligations.BitCounts := by
  unfold Obligations.BitCounts
  intro i h ec P wf form
  refine ⟨countForm_takes form, fun w he => ?_, ?_, countForm_elementsRelated form wf⟩
  · obtain ⟨o, word⟩ := encode_countForm form
    exact getLsbD_of_mk (word.symm.trans he)
  · rintro rfl
    exact bswap_width wf

end Sys2Proof.Proofs

/-! ### Nulls, moves, constants, predicates and masks (R177 to R183) -/

namespace Sys2Proof.Laws

open Sys2Proof.Machine Sys2Proof.Safety

/-- Each element of a joined map, as a bit vector. -/
theorem lane_join_map {n m : Nat} (f : Nat → Nat) (hn : n * m ≤ 512) {k : Nat} (hk : k < m) :
    lane (join n ((List.range m).map f)) n k = BitVec.ofNat n (f k) := by
  rw [lane_join _ _ _ (by rwa [List.length_map, List.length_range]), getD_map_range _ _ _ hk]

/-- The lowest element of a scalar is its low bits. -/
theorem lane_scalar {n : Nat} (hn : n ≤ 64) (x : Nat) : lane (scalar x) n 0 = BitVec.ofNat n x := by
  refine BitVec.eq_of_getLsbD_eq fun i hi => ?_
  have low : i < 64 := hi.trans_le hn
  rw [lane, BitVec.getLsbD_extractLsb', scalar, BitVec.getLsbD_ofNat, BitVec.getLsbD_ofNat, Nat.testBit_mod_two_pow]
  simp [hi, low, low.trans (show 64 < 512 by decide)]

theorem ofNat_elem (v : Value) (n k : Nat) : BitVec.ofNat n (elem v n k) = lane v n k := by rw [← lane_toNat, ofNat_toNat_same]

theorem elem_eq_zero_iff (v : Value) (n k : Nat) : elem v n k = 0 ↔ lane v n k = 0 := by rw [← lane_toNat, toNat_eq_zero_iff]

/-- A scalar width has one element, of at most 64 bits. -/
theorem intScalar_count {w : IntW} (hw : intScalar w = true) : intCount w = 1 ∧ intBits w ≤ 64 := by
  cases w
  case s64 | s32 => decide
  all_goals cases hw

/-! #### Constants (R178) -/

theorem lane_moviResult (w : IntW) (imm : BitVec 32) {k : Nat} (hk : k < intCount w) :
    lane (moviResult w imm) (intBits w) k =
      if w = .s64 ∨ w = .d64 then imm.signExtend (intBits w) else imm.setWidth (intBits w) := by
  have vector := lane_opBInt ⟨false, w⟩ (some imm) 0 hk
  cases w
  case s64 | d64 => exact vector
  case s32 =>
    obtain rfl := Nat.lt_one_iff.1 hk
    exact (lane_scalar (by decide) _).trans (BitVec.ofNat_toNat _ _)
  all_goals exact vector.trans (BitVec.signExtend_eq_setWidth_of_le _ (by decide))

/-- What `movh` leaves below and above its 32 bits. -/
theorem movhResult_toNat (imm : BitVec 32) (a : Value) :
    (movhResult imm a).toNat = a.toNat % 2 ^ 32 + 2 ^ 32 * (imm.toNat + 2 ^ 32 * (a.toNat / 2 ^ 64)) := by
  have := imm.isLt
  have := a.isLt
  simp only [movhResult, bitsOf, BitVec.toNat_ofNat]
  omega

theorem lane_movhResult_one (imm : BitVec 32) (a : Value) : lane (movhResult imm a) 32 1 = imm := by
  have := imm.isLt
  apply BitVec.eq_of_toNat_eq
  rw [lane_toNat, elem, elemN, movhResult_toNat]
  omega

theorem lane_movhResult_other (imm : BitVec 32) (a : Value) {k : Nat} (hk : k ≠ 1) : lane (movhResult imm a) 32 k = lane a 32 k := by
  have := imm.isLt
  apply BitVec.eq_of_toNat_eq
  rw [lane_toNat, lane_toNat, elem, elem, elemN, elemN, movhResult_toNat]
  match k with
  | 0 => omega
  | j + 2 =>
    have above : 2 ^ ((j + 2) * 32) = 2 ^ 64 * 2 ^ (j * 32) := by rw [← pow_add]; congr 1; ring
    have upper : (a.toNat % 2 ^ 32 + 2 ^ 32 * (imm.toNat + 2 ^ 32 * (a.toNat / 2 ^ 64))) / 2 ^ 64 = a.toNat / 2 ^ 64 := by omega
    rw [above, ← Nat.div_div_eq_div_mul, upper, Nat.div_div_eq_div_mul]

/-! #### Selection, masks and tests on elements (R181, R183) -/

theorem lane_selResult (w : IntW) (a b c : Value) {k : Nat} (hk : k < intCount w) : lane (selResult w a b c) (intBits w) k =
    if lane a (intBits w) k ≠ 0 then lane b (intBits w) k else lane c (intBits w) k := by
  rw [selResult, lane_join_map _ (intBits_count w) hk, apply_ite (BitVec.ofNat _), ofNat_elem, ofNat_elem]
  simp only [ne_eq, elem_eq_zero_iff]

theorem nonzero_getD (w : IntW) (a : Value) (k : Nat) :
    (nonzero w a).getD k false = (decide (k < intCount w) && decide (lane a (intBits w) k ≠ 0)) := by
  rw [Bool.eq_iff_iff]
  by_cases hk : k < intCount w <;> simp [nonzero, List.getD_eq_getElem?_getD, hk, elem_eq_zero_iff]

theorem getLsbD_lmask (w : IntW) (a : Value) {k : Nat} (hk : k < 512) : (join 1 ((nonzero w a).map Bool.toNat)).getLsbD k =
    (decide (k < intCount w) && decide (lane a (intBits w) k ≠ 0)) := by
  rw [join, BitVec.getLsbD_ofNat, decide_eq_true hk, Bool.true_and, testBit_joinN_one, nonzero_getD]

theorem nonzero_any_iff (w : IntW) (a : Value) : (nonzero w a).any id = true ↔ ∃ k < intCount w, lane a (intBits w) k ≠ 0 := by
  simp [nonzero, elem_eq_zero_iff]

theorem nonzero_all_iff (w : IntW) (a : Value) : (nonzero w a).all id = true ↔ ∀ k < intCount w, lane a (intBits w) k ≠ 0 := by
  simp [nonzero, elem_eq_zero_iff]

theorem lane_testResult (c : Cond) (w : IntW) (a b : Value) {k : Nat} (hk : k < intCount w) : lane (testResult c w a b) (intBits w) k =
    if condHolds c (intBits w) (elem a (intBits w) k) (elem b (intBits w) k) then (if intScalar w then 1 else BitVec.allOnes _) else 0 := by
  cases scal : intScalar w
  case false =>
    rw [testResult, truthResult, scal, if_neg Bool.false_ne_true, List.map_map, lane_join_map _ (intBits_count w) hk]
    simp only [Function.comp_apply, apply_ite (BitVec.ofNat (intBits w)), ← BitVec.toNat_allOnes, ofNat_toNat_same]
    rfl
  case true =>
    obtain ⟨one, bits⟩ := intScalar_count scal
    obtain rfl : k = 0 := by omega
    rw [testResult, truthResult, scal, if_pos rfl, one, lane_scalar bits]
    show BitVec.ofNat _ (condHolds c (intBits w) (elem a (intBits w) 0) (elem b (intBits w) 0)).toNat = _
    cases condHolds c (intBits w) (elem a (intBits w) 0) (elem b (intBits w) 0) <;> rfl

end Sys2Proof.Laws

namespace Sys2Proof.Proofs

open Sys2Proof.Machine Sys2Proof.Safety Sys2Proof.Laws

section
variable {s : State} {h : Head} {e : Env} {v : Vals}

theorem exec_constk (k : BitVec 4) (F : Firing (.constk h k) s h e v) : exec (.constk h k) s = .next
    (e.result h (if e.pinned then tgetD e.inst.consts k.toNat (e.c.constReg k.toNat) else e.c.constReg k.toNat) s) := (exec_firing F fun _ => rfl :)

end

/-- Settles O13: each instruction has the effect of its own arm, and the results are read element by element. -/
theorem movesAndPredicates : Obligations.MovesAndPredicates := by
  unfold Obligations.MovesAndPredicates
  intro s h e v imm w
  refine ⟨fun F => exec_firing F fun _ => rfl, fun l F => exec_firing F fun _ => rfl,
    fun w F => ⟨_, exec_firing F fun _ => rfl, fun k => lane_moviResult w imm⟩,
    fun F => ⟨_, exec_firing F fun _ => rfl, lane_movhResult_one imm v.a, fun k => lane_movhResult_other imm v.a⟩,
    fun F => exec_firing F fun _ => rfl, fun n F => exec_firing F fun _ => rfl, fun k F fired => ?_, fun k F pinned => ?_,
    fun F => exec_firing F fun _ => rfl, fun F => exec_firing F fun _ => rfl, fun F => exec_firing F fun _ => rfl,
    fun F => exec_firing F fun _ => rfl, fun F => ⟨_, exec_firing F fun _ => rfl, fun k => lane_selResult w v.a v.b v.c⟩,
    fun F => ⟨_, exec_firing F fun _ => rfl, fun k => getLsbD_lmask w v.a⟩,
    fun F => ⟨_, exec_firing F fun _ => rfl, nonzero_any_iff w v.a⟩, fun F => ⟨_, exec_firing F fun _ => rfl, nonzero_all_iff w v.a⟩,
    fun c b F => ⟨_, exec_firing F fun _ => rfl, fun k => lane_testResult c w v.a (opBTest c w b v.b)⟩⟩
  · rw [exec_constk k F, fired]
    rfl
  · rw [exec_constk k F, pinned]
    rfl

end Sys2Proof.Proofs

/-! ### Channels, tasks, queues, constants and markers (R190 to R199) -/

namespace Sys2Proof.Machine

open Sys2Proof.Safety Sys2Proof.Laws

theorem Core.sawRin_ins (c : Core) (r : Rin) : (c.sawRin r).ins = c.ins := ite_keeps Core.ins rfl rfl

/-- The task's own slot in bits [31:24] of what `tstat` answers, above 16 bits of states and 8 of reservations (R196). -/
theorem bitsOf_tstat {states rsv k : Nat} (hs : states < 2 ^ 16) (hr : rsv < 2 ^ 8) (hk : k < 8) :
    bitsOf (scalar (states + 2 ^ 16 * rsv + 2 ^ 24 * k)) 24 8 = k := by
  rw [bitsOf, scalar, BitVec.toNat_ofNat]
  omega

/-- Fields of n bits of at most eight task slots. -/
theorem joinN_slots_lt (n m : Nat) (f : Nat → Nat) : joinN n ((List.range (Nat.min 8 m)).map f) < 2 ^ (n * 8) := by
  refine (joinN_lt _ _).trans_le (Nat.pow_le_pow_right two_pos (Nat.mul_le_mul_left _ ?_))
  rw [List.length_map, List.length_range]
  exact Nat.min_le_left _ _

section
variable {s : State} {h : Head} {e : Env} {v : Vals} {j : BitVec 4} {m : MemF}

theorem exec_send {kind : BitVec 4} (F : Firing (.send h kind j) s h e v) : exec (.send h kind j) s = .next
    (if ! e.c.outBound j.toNat then e.raise (unbound true j.toNat) s
    else if ! e.c.outRoom j.toNat 1 then s
    else e.capture h none (.send j.toNat kind (if kind = 12 then 0 else v.a)) none (s.modCore e.cid fun c => c.reserve [j.toNat])) :=
  (exec_firing F fun _ => rfl :)

/-- What a `recv` that finds the flit f does (R192). -/
def received (e : Env) (h : Head) (j : Nat) (f : Flit) (s : State) : State :=
  e.update (fun x =>
    { x.fire e.slot h (some (.val f.value)) (some (.val (scalar f.kind.toNat))) with
      caps := x.caps ++ [{ slot := e.slot, lsid := none, eff := .recv j, t0 := h.t0, t1 := h.t1 }],
      recvd := j :: x.recvd }) (s.modCore e.cid fun c => c.sawRin f.rin)

theorem exec_recv_unbound (F : Firing (.recv h j) s h e v) (hj : e.c.inBound j.toNat = false ∨ e.c.inTask j.toNat ≠ e.slotK) :
    exec (.recv h j) s = .next (e.raise (unbound false j.toNat) s) := by
  refine (exec_firing F fun _ => rfl).trans (congrArg _ (if_pos ?_))
  exact hj.imp_left fun free => by rw [free]; rfl

theorem exec_recv_flit (F : Firing (.recv h j) s h e v) (bound : e.c.inBound j.toNat = true) (own : e.c.inTask j.toNat = e.slotK)
    (ready : recvReady e.c j.toNat = true) {f : Flit} (head : e.c.headFlit j.toNat = some f) :
    exec (.recv h j) s = .next (received e h j.toNat f s) := by
  refine (exec_firing F fun _ => rfl).trans (congrArg _ ?_)
  simp only [bound, own, ready, head, Bool.not_true, Bool.false_eq_true, ne_eq, not_true_eq_false, or_self, if_false]
  rfl

theorem exec_bind {rel : Bool} (F : Firing (.bind h j rel) s h e v) : exec (.bind h j rel) s = .next
    (if bindStatus e.c e.slotK j.toNat rel = 0 then e.capture h none (.bind j.toNat rel) (some (scalar 0))
      (s.modCore e.cid fun c => c.modIn j.toNat fun ch => { ch with resv := some (e.slotK, rel) })
    else e.result h (scalar (bindStatus e.c e.slotK j.toNat rel)) s) := (exec_firing F fun _ => rfl :)

theorem exec_waitc_ready {n : BitVec 7} (F : Firing (.waitc h j n) s h e v) (bound : e.c.inBound j.toNat = true)
    (ready : waitcReady e.c j.toNat n.toNat = true) : exec (.waitc h j n) s = .next (e.result h (scalar (e.c.flitsSeen j.toNat)) s) := by
  refine (exec_firing F fun _ => rfl).trans (congrArg _ ?_)
  rw [bound, ready]
  rfl

theorem exec_tspawn {wait : Bool} (F : Firing (.tspawn h wait) s h e v) : exec (.tspawn h wait) s = .next
    ((e.update (fun x => x.modSlot e.slot fun q => { q with ph := .pending }) s).modCore e.cid fun c =>
      c.modTask e.slotK fun t => { t with spawns := t.spawns ++ [(e.inst.id, e.slot, wait, v.a, v.b)] }) := (exec_firing F fun _ => rfl :)

theorem exec_tstat (F : Firing (.tstat h) s h e v) :
    ∃ r, exec (.tstat h) s = .next (e.result h r s) ∧ (e.slotK < 8 → bitsOf r 24 8 = e.slotK) :=
  ⟨_, exec_firing F fun _ => rfl, bitsOf_tstat (joinN_slots_lt 2 _ _) (joinN_slots_lt 1 _ _)⟩

theorem exec_qpost (F : Firing (.qpost h m) s h e v) : exec (.qpost h m) s = .next
    (if ! mayPost s (s.queue (bitsOf v.a 0 10)) e.lease then e.raise { cause := 0x09, lsid := some m.lsid.toNat } s
    else if ! (s.queue (bitsOf v.a 0 10)).room then s
    else e.capture h (some m.lsid.toNat) (.qpost (bitsOf v.a 0 10) v.b m.osc) none
      (s.modQueue (bitsOf v.a 0 10) fun w => { w with rresv := w.rresv + 1 })) := (exec_firing F fun _ => rfl :)

theorem exec_constw {px py : BitVec 6} {k : BitVec 4} {c : BitVec 3} (F : Firing (.constw h px py k c) s h e v) :
    exec (.constw h px py k c) s = .next (if constwOk e.p px.toNat py.toNat c.toNat then
      e.capture h none (.constw px.toNat py.toNat k.toNat c.toNat v.a) none s
    else e.raise { cause := 0x14 } s) := (exec_firing F fun _ => rfl :)

theorem exec_markt_room {mask : BitVec 16} (F : Firing (.markt h mask) s h e v) (bound : ∀ j ∈ maskChans mask, e.c.outBound j = true)
    (room : roomIn e.c (maskChans mask) = true) : exec (.markt h mask) s = .next
      (e.capture h none (.markt mask) none (s.modCore e.cid fun c => c.reserve (maskChans mask))) := by
  have allBound : ((maskChans mask).find? fun j => ! e.c.outBound j) = none :=
    List.find?_eq_none.2 fun j hj => by rw [bound j hj]; decide
  refine (exec_firing F fun _ => rfl).trans (congrArg _ ?_)
  simp only [allBound, room, if_true]

end

end Sys2Proof.Machine

namespace Sys2Proof.Proofs

open Sys2Proof.Machine Sys2Proof.Safety Sys2Proof.Laws

/-- Settles O25: each instruction is its own arm, and a clause is a branch of it. -/
theorem taskInstructions : Obligations.TaskInstructions := by
  unfold Obligations.TaskInstructions
  intro s h e v j m
  refine ⟨fun kind F bound room => ?_, fun kind F free => ?_, fun f F bound own ready head => ⟨_, exec_recv_flit F bound own ready head, ?_⟩,
    exec_recv_unbound, fun rel F free => ?_, fun rel F refused => ?_, fun n => exec_waitc_ready, fun wait => exec_tspawn,
    exec_tstat, fun F may room => ?_, fun F denied => ?_, fun px py k c F names => ?_, fun px py k c F outside => ?_,
    fun mask => exec_markt_room⟩
  · simp only [exec_send F, bound, room, Bool.not_true, Bool.false_eq_true, if_false]
  · simp only [exec_send F, free, Bool.not_false, if_true, unbound]
  · rw [State.core_modCore_same, Core.sawRin_ins, envOf_core F.env]
  · rw [exec_bind F, if_pos free]
  · rw [exec_bind F, if_neg refused]
  · simp only [exec_qpost F, may, room, Bool.not_true, Bool.false_eq_true, if_false]
  · simp only [exec_qpost F, denied, Bool.not_false, if_true]
  · rw [exec_constw F, if_pos names]
  · simp only [exec_constw F, outside, Bool.false_eq_true, if_false]

end Sys2Proof.Proofs

/-! # Selections, special functions and the lane network (R204 to R206, R215 to R219) -/

/-! ### Selections and special functions, element by element (R204 to R206, R215, R216) -/

namespace Sys2Proof.Laws

open Sys2Proof.Machine Sys2Proof.Safety

/-- Where it may fire, a special function delivers the function of every element of A. -/
theorem exec_specialForm {i : Instr} {h : Head} {ec : FltEC} {op : Sfu} (form : specialForm i = some (h, ec, op)) {s : State} {e : Env}
    {v : Vals} (F : Firing i s h e v) :
    exec i s = .next (e.result h (fltMap ec (fun a _ _ => sfu op ec.f e.fenv.ftz a) v.a 0 0) s) := by
  cases i <;> cases form
  all_goals exact exec_firing F fun _ => rfl

end Sys2Proof.Laws

namespace Sys2Proof.Proofs

open Sys2Proof.Machine Sys2Proof.Safety Sys2Proof.Laws

/-- Settles O6: the minima, maxima and signs are maps of their elements, the comparison and the classes the truth of each. -/
theorem floatSelections : Obligations.FloatSelections := by
  unfold Obligations.FloatSelections
  intro s h e v ec b
  exact ⟨fun F => ⟨_, exec_firing F fun _ => rfl, fun _ hk => lane_fltMap ec _ _ _ _ hk⟩,
    fun F => ⟨_, exec_firing F fun _ => rfl, fun _ hk => lane_fltMap ec _ _ _ _ hk⟩,
    fun F => ⟨_, exec_firing F fun _ => rfl, fun _ hk => lane_fltMap ec _ _ _ _ hk⟩,
    fun F => ⟨_, exec_firing F fun _ => rfl, fun _ hk => lane_fltMap ec _ _ _ _ hk⟩,
    fun F => ⟨_, exec_firing F fun _ => rfl, fun _ hk => lane_fltMap ec _ _ _ _ hk⟩,
    fun _ F => exec_firing F fun _ => rfl, fun _ F => exec_firing F fun _ => rfl⟩

/-- Settles O8: each special function is a map of its elements. -/
theorem specialFunctions : Obligations.SpecialFunctions := by
  unfold Obligations.SpecialFunctions
  intro i h ec op form s e v F
  exact ⟨_, exec_specialForm form F, fun _ hk => lane_fltMap ec _ _ _ _ hk⟩

end Sys2Proof.Proofs

/-! ### The lane network (R217 to R219) -/

namespace Sys2Proof.Laws

open Sys2Proof.Machine Sys2Proof.Safety

/-- The elements of a lane code lie within a value (R42, R217). -/
theorem ecBits_count (ec : EC) : ecBits ec * ecCount ec ≤ 512 := by
  cases ec with
  | int w => exact intBits_count w.w
  | flt w => exact fmtBits_count w

/-- Each element of a result that a map over the element numbers gives. -/
theorem lane_join_range (ec : EC) (f : Nat → Nat) {k : Nat} (hk : k < ecCount ec) :
    lane (join (ecBits ec) ((List.range (ecCount ec)).map f)) (ecBits ec) k = BitVec.ofNat _ (f k) :=
  lane_join_map f (ecBits_count ec) hk

section
variable (ec : EC) (a b c : Value) {k : Nat}

/-! #### Moves by element number (R218) -/

theorem lane_permResult (z : Bool) (hk : k < ecCount ec) : lane (permResult ec z a b) (ecBits ec) k =
    if z = true ∧ ecCount ec ≤ elem b (ecBits ec) k then 0 else lane a (ecBits ec) (elem b (ecBits ec) k % ecCount ec) := by
  rw [permResult, lane_join_range ec _ hk, apply_ite (BitVec.ofNat _), ofNat_elem]
  simp only [Bool.and_eq_true, decide_eq_true_eq]
  rfl

/-- Going back c places from (k + c) mod E leads to k. -/
theorem rotate_back {E : Nat} (hk : k < E) (c : Nat) : ((k + c) % E + E - c % E) % E = k := by
  have place : c % E < E := Nat.mod_lt _ (k.zero_le.trans_lt hk)
  rw [Nat.add_mod_eq_ite, Nat.mod_eq_of_lt hk]
  split
  next wraps => rw [show k + c % E - E + E - c % E = k by omega, Nat.mod_eq_of_lt hk]
  next => rw [show k + c % E + E - c % E = k + E by omega, Nat.add_mod_right, Nat.mod_eq_of_lt hk]

theorem lane_rotlResult (n : Nat) (hk : k < ecCount ec) :
    lane (rotlResult ec n a) (ecBits ec) ((k + n) % ecCount ec) = lane a (ecBits ec) k := by
  rw [rotlResult, lane_join_range ec _ (Nat.mod_lt _ (k.zero_le.trans_lt hk)), rotate_back hk, ofNat_elem]

theorem lane_shflResult_xor (d : Nat) (hk : k < ecCount ec) :
    lane (shflResult ec 0 d a) (ecBits ec) k = lane a (ecBits ec) (k ^^^ d) :=
  (lane_join_range ec _ hk).trans (ofNat_elem ..)

theorem lane_shflResult_up (d : Nat) (hk : k < ecCount ec) :
    lane (shflResult ec 1 d a) (ecBits ec) k = if d ≤ k then lane a (ecBits ec) (k - d) else lane a (ecBits ec) k := by
  have element : lane (shflResult ec 1 d a) (ecBits ec) k =
      BitVec.ofNat _ (if d ≤ k then elem a (ecBits ec) (k - d) else elem a (ecBits ec) k) := lane_join_range ec _ hk
  rw [element, apply_ite (BitVec.ofNat _), ofNat_elem, ofNat_elem]

theorem lane_shflResult_down (d : Nat) (hk : k < ecCount ec) : lane (shflResult ec 2 d a) (ecBits ec) k =
    if k + d < ecCount ec then lane a (ecBits ec) (k + d) else lane a (ecBits ec) k := by
  have element : lane (shflResult ec 2 d a) (ecBits ec) k =
      BitVec.ofNat _ (if k + d < ecCount ec then elem a (ecBits ec) (k + d) else elem a (ecBits ec) k) := lane_join_range ec _ hk
  rw [element, apply_ite (BitVec.ofNat _), ofNat_elem, ofNat_elem]

theorem lane_bcastlResult (j : Nat) (hk : k < ecCount ec) : lane (bcastlResult ec j a) (ecBits ec) k = lane a (ecBits ec) j := by
  rw [bcastlResult, lane_join _ _ _ (List.length_replicate ▸ ecBits_count ec), List.getD_replicate _ hk, ofNat_elem]

/-! #### Moves by mask (R218) -/

theorem lane_lselResult (hk : k < ecCount ec) : lane (lselResult ec a b c) (ecBits ec) k =
    if c.getLsbD k then lane a (ecBits ec) k else lane b (ecBits ec) k := by
  rw [lselResult, lane_join_range ec _ hk, apply_ite (BitVec.ofNat _), ofNat_elem, ofNat_elem]

theorem lane_expndResult (merge : Bool) (hk : k < ecCount ec) : lane (expndResult ec merge a b c) (ecBits ec) k =
    if b.getLsbD k then lane a (ecBits ec) (maskBelow b k) else if merge then lane c (ecBits ec) k else 0 := by
  rw [expndResult, lane_join_range ec _ hk, apply_ite (BitVec.ofNat _), apply_ite (BitVec.ofNat _), ofNat_elem, ofNat_elem]
  rfl

/-- A chosen number's place among the chosen is how many lie below it. -/
theorem getElem?_filter_range {p : Nat → Bool} {m : Nat} (hk : k < m) (chosen : p k = true) :
    ((List.range m).filter p)[((List.range k).filter p).length]? = some k := by
  obtain ⟨d, rfl⟩ := Nat.exists_eq_add_of_lt hk
  rw [add_assoc, List.range_add, List.filter_append, List.getElem?_append_right le_rfl, Nat.sub_self, List.range_succ_eq_map]
  simp [chosen]

/-- Element j of a compressed value is the j-th chosen element, or zero where fewer are chosen. -/
theorem lane_comprResult (j : Nat) : lane (comprResult ec a b) (ecBits ec) j =
    BitVec.ofNat _ ((((List.range (ecCount ec)).filter fun k => b.getLsbD k).map (elem a (ecBits ec))).getD j 0) := by
  refine lane_join _ _ _ ((Nat.mul_le_mul_left _ ?_).trans (ecBits_count ec))
  rw [List.length_map]
  exact (List.length_filter_le _ _).trans_eq List.length_range

theorem lane_comprResult_chosen (hk : k < ecCount ec) (chosen : b.getLsbD k = true) :
    lane (comprResult ec a b) (ecBits ec) (maskBelow b k) = lane a (ecBits ec) k := by
  rw [lane_comprResult, maskBelow, List.getD_eq_getElem?_getD, List.getElem?_map, getElem?_filter_range hk chosen]
  exact ofNat_elem ..

theorem lane_comprResult_above (above : maskBelow b (ecCount ec) ≤ k) : lane (comprResult ec a b) (ecBits ec) k = 0 := by
  rw [lane_comprResult, List.getD_eq_default _ _ ((List.length_map _).trans_le above)]
  rfl

end

/-! #### `iota` (R218) -/

theorem lane_iotaResult_int (w : IntEC) (base : BitVec 16) (inc : BitVec 8) {k : Nat} (hk : k < intCount w.w) :
    lane (iotaResult (.int w) base inc) (intBits w.w) k = BitVec.ofInt _ (base.toInt + k * inc.toInt) :=
  (lane_join_range (.int w) _ hk).trans (ofNat_wrap ..)

end Sys2Proof.Laws

namespace Sys2Proof.Proofs

open Sys2Proof.Machine Sys2Proof.Safety Sys2Proof.Laws

/-- Settles O9: each instruction has the effect of its own arm, and its result is read element by element. -/
theorem laneMoves : Obligations.LaneMoves := by
  unfold Obligations.LaneMoves
  intro s h e v ec
  exact ⟨fun z F => ⟨_, exec_firing F fun _ => rfl, fun _ => lane_permResult ec v.a v.b z⟩,
    fun dyn c F => ⟨_, exec_firing F fun _ => rfl, fun _ => lane_rotlResult ec v.a _⟩,
    fun d F => ⟨_, exec_firing F fun _ => rfl, fun _ => lane_shflResult_xor ec v.a d.toNat⟩,
    fun d F => ⟨_, exec_firing F fun _ => rfl, fun _ => lane_shflResult_up ec v.a d.toNat⟩,
    fun d F => ⟨_, exec_firing F fun _ => rfl, fun _ => lane_shflResult_down ec v.a d.toNat⟩,
    fun j F => ⟨_, exec_firing F fun _ => rfl, fun _ => lane_bcastlResult ec v.a j.toNat⟩,
    fun F => ⟨_, exec_firing F fun _ => rfl, fun _ => lane_lselResult ec v.a v.b v.c⟩,
    fun F => ⟨_, exec_firing F fun _ => rfl, fun _ => lane_comprResult_chosen ec v.a v.b, fun _ _ => lane_comprResult_above ec v.a v.b⟩,
    fun merge F => ⟨_, exec_firing F fun _ => rfl, fun _ => lane_expndResult ec v.a v.b v.c merge⟩⟩

/-- Settles O10: each instruction has the effect of its own arm; an integer `iota` wraps each element of its row. -/
theorem laneReductions : Obligations.LaneReductions := by
  unfold Obligations.LaneReductions
  intro s h e v ec g rn op
  exact ⟨fun F => exec_firing F fun _ => rfl, fun _ F => exec_firing F fun _ => rfl,
    fun w base inc F => ⟨_, exec_firing F fun _ => rfl, fun _ => lane_iotaResult_int w base inc⟩,
    fun _ _ _ F => exec_firing F fun _ => rfl⟩

end Sys2Proof.Proofs

/-! ### Global accesses and GEN streams (R231, R233, R254, R256, R258 to R260) -/

namespace Sys2Proof.Machine

section
variable {e : Env} {ac : AC} {gather na : Bool} {m : MemF} {count : Nat} {ps : List GPiece} {s : State}

/-- A load whose pieces overlap no older atomic waits at the GEN port, where there is room. -/
theorem askLoad_asks (atomics : (ps.any fun p => overGlobalAtomic e.inst m.lsid.toNat p.loc (pieceBytes ac)) = false)
    (room : e.c.genRoom = true) : e.askLoad ac gather na m count ps s =
      pushGen (e.update (fun x => x.modSlot e.slot fun q => { q with ph := .pending }) s) e.cid
        (e.request .load ac gather na m (elemsOf count ps) [] s) := by
  simp only [Env.askLoad, atomics, room, Bool.false_eq_true, if_false, if_true]

end

end Sys2Proof.Machine

namespace Sys2Proof.Proofs

open Sys2Proof.Machine Sys2Proof.Safety Sys2Proof.Laws

section
variable {s : State} {h : Head} {e : Env} {v : Vals} {ac : AC} {na : Bool} {m : MemF}

/-- A scatter whose checks pass: captured, or in a pinned block a request, empty where the store is cancelled. -/
theorem exec_stgv {ps : List GPiece} (F : Firing (.stgv h ac na m) s h e v)
    (pieces : globalPieces s e.cid e.p .store (acBytes ac) (some m.lsid.toNat) true (scattered ac v.a v.b m.ofs.toInt) = .ok ps) :
    exec (.stgv h ac na m) s = .next (if e.pinned then
        if e.cancelOpen m.lsid.toNat ∨ ! e.c.genRoom then s
        else if e.inst.nulls.contains m.lsid.toNat then e.askStore ac true na m 0 [] [] s
        else e.askStore ac true na m (if ac = .z64 then 8 else 16) ps
          ((List.range (if ac = .z64 then 8 else 16)).flatMap (scatBytes ac v.c)) s
      else e.capture h (some m.lsid.toNat)
        (.globalStore (ps.map fun p => (p.va, p.loc, scatBytes ac v.c p.lane)) ac na false false m.osc m.sc) none s) := by
  have store := exec_firing F fun _ => rfl
  simp only [offsetOf, pieces] at store
  exact store

/-- A prefetch waits for a page in migration and for nothing else. -/
theorem exec_prf (F : Firing (.prf h na m) s h e v) :
    (translate s e.cid e.lease (globalVa v.a m.ofs.toInt / 64 * 64) ≠ .moving → ∃ s', exec (.prf h na m) s = .next (e.done s')) ∧
    (translate s e.cid e.lease (globalVa v.a m.ofs.toInt / 64 * 64) = .unmapped → exec (.prf h na m) s = .next (e.done s)) ∧
    (translate s e.cid e.lease (globalVa v.a m.ofs.toInt / 64 * 64) = .moving → exec (.prf h na m) s = .next s) := by
  have prefetch := exec_firing F fun _ => rfl
  simp only [offsetOf] at prefetch
  rw [prefetch]
  cases translate s e.cid e.lease (globalVa v.a m.ofs.toInt / 64 * 64) with
  | ok l pe => exact ⟨fun _ => ⟨_, congrArg Host.Outcome.next (apply_ite e.done _ _ _).symm⟩, (nomatch ·), (nomatch ·)⟩
  | moving => exact ⟨fun h => absurd rfl h, (nomatch ·), fun _ => rfl⟩
  | unmapped | poisoned => exact ⟨fun _ => ⟨s, rfl⟩, fun _ => rfl, (nomatch ·)⟩

end

/-- Settles O16: each access does as its checks answer, outside a GEN stream. -/
theorem globalAccesses : Obligations.GlobalAccesses := by
  unfold Obligations.GlobalAccesses
  intro s h e v ac na m ps
  refine ⟨fun F fired room pieces atomics => ?_, fun F room pieces atomics => ?_, fun F fired pieces => ?_, fun F fired pieces => ?_,
    exec_prf, fun x F fired bad => ?_⟩
  · have load := exec_firing F fun _ => rfl
    simpa only [fired, Bool.false_eq_true, if_false, offsetOf, pieces, askLoad_asks atomics room] using load
  · have gather := exec_firing F fun _ => rfl
    simpa only [offsetOf, pieces, askLoad_asks atomics room] using gather
  · have store := exec_firing F fun _ => rfl
    simpa only [fired, Bool.false_eq_true, if_false, offsetOf, pieces] using store
  · rw [exec_stgv F pieces, if_neg (fired ▸ Bool.false_ne_true)]
  · have load := exec_firing F fun _ => rfl
    simpa only [fired, Bool.false_eq_true, if_false, offsetOf, bad] using load

/-- Settles O17: each access does as its stream's counter and its pieces answer. -/
theorem genStreams : Obligations.GenStreams := by
  unfold Obligations.GenStreams
  intro s s' h e v ac na m ps pinned
  refine ⟨fun F ended => ?_, fun F going room pieces atomics => ?_, fun F settled room ended => ?_,
    fun F settled room going kept pieces => ?_, fun F settled room going cancelled => ?_, fun F settled room kept pieces => ?_⟩
  · have load := exec_firing F fun _ => rfl
    simpa only [pinned, ended, if_true] using load
  · have load := exec_firing F fun _ => rfl
    simpa only [pinned, going, room, Bool.not_true, Bool.false_eq_true, if_false, if_true, pieces, askLoad_asks atomics room] using load
  · have store := exec_firing F fun _ => rfl
    simpa only [pinned, settled, room, ended, Bool.not_true, Bool.false_eq_true, or_self, if_false, if_true] using store
  · have store := exec_firing F fun _ => rfl
    simpa only [pinned, settled, room, going, List.contains_eq_mem, kept, decide_false, Bool.not_true, Bool.false_eq_true, or_self, if_false,
      if_true, pieces] using store
  · have store := exec_firing F fun _ => rfl
    simpa only [pinned, settled, room, going, List.contains_eq_mem, cancelled, decide_true, Bool.not_true, Bool.false_eq_true, or_self,
      if_false, if_true] using store
  · simp only [exec_stgv F pieces, pinned, settled, room, List.contains_eq_mem, kept, decide_false, Bool.not_true, Bool.false_eq_true,
      or_self, if_false, if_true]

end Sys2Proof.Proofs

/-! ### Copies and tags (R235, R266 to R269) -/

namespace Sys2Proof.Machine

/-- Tag t's bit in the bitmap of the masked tags for which a test holds. -/
theorem getLsbD_tagMap (m : Nat) (f : Nat → Bool) {t : Nat} (ht : t < 64) : (BitVec.ofNat 64 (tagMap m f)).getLsbD t = (m.testBit t && f t) := by
  have bits : (List.range 64).map (fun t => (m.testBit t && f t).toNat) = ((List.range 64).map fun t => m.testBit t && f t).map Bool.toNat := by
    rw [List.map_map]
    rfl
  rw [BitVec.getLsbD_ofNat, decide_eq_true ht, Bool.true_and, tagMap, bits, Laws.testBit_joinN_one,
    List.getD_eq_getElem _ _ (by simpa using ht), List.getElem_map, List.getElem_range]

theorem testBit_lo64 (v : Value) {t : Nat} (ht : t < 64) : (lo64 v).testBit t = v.getLsbD t := by
  rw [lo64, Nat.testBit_mod_two_pow, decide_eq_true ht, Bool.true_and, BitVec.testBit_toNat]

theorem scalar_ofNat_toNat (x : Nat) : scalar (BitVec.ofNat 64 x).toNat = scalar x := by
  rw [scalar, BitVec.toNat_ofNat, Nat.mod_mod, scalar]

end Sys2Proof.Machine

namespace Sys2Proof.Proofs

open Sys2Proof.Machine Sys2Proof.Safety Sys2Proof.Laws

section
variable {s : State} {h : Head} {e : Env} {v : Vals} {m : MemF} {osc : Option Scope}

/-- A packet within the limits, for the core's own queue and with room for it and its tag. -/
theorem exec_cpy_room (F : Firing (.cpy h m) s h e v) (within : packetOk v.a = true) (own : cpQueue v.a = posOf s e.cid)
    (room : copyRoom s (clusterOf e.cid) (cpQueue v.a) = true) (tag : tagRoom e.c (cpTag v.a) = true) : exec (.cpy h m) s = .next
    (if e.pinned then e.done (acceptCopy (release s e.cid m.osc) e.cid none e.p v.a)
    else e.capture h (some m.lsid.toNat) (.cpy v.a m.osc) none
      ((s.modCluster (clusterOf e.cid) fun c => { c with resv := tmod c.resv (cpQueue v.a) 0 (· + 1) }).modCore e.cid fun c =>
        c.modTag (cpTag v.a) fun g => { g with resv := g.resv + 1 })) := by
  have post := exec_firing F fun _ => rfl
  simpa only [within, ← own, room, tag, ne_eq, not_true, Bool.and_self, Bool.not_true, Bool.false_eq_true, if_false] using post

theorem exec_cpy_malformed (F : Firing (.cpy h m) s h e v) (beyond : packetOk v.a = false) :
    exec (.cpy h m) s = .next (e.raise { cause := 0x02, sub := 1, lsid := some m.lsid.toNat } s) := by
  have post := exec_firing F fun _ => rfl
  simpa only [beyond, Bool.not_false, if_true, malformed] using post

theorem exec_cpy_foreign (F : Firing (.cpy h m) s h e v) (within : packetOk v.a = true) (foreign : cpQueue v.a ≠ posOf s e.cid) :
    exec (.cpy h m) s = .next (e.raise { cause := 0x09, lsid := some m.lsid.toNat } s) := by
  have post := exec_firing F fun _ => rfl
  simpa only [within, foreign, Bool.not_true, Bool.false_eq_true, ne_eq, not_false_eq_true, if_false, if_true] using post

theorem exec_tagff_lowest (F : Firing (.tagff h osc) s h e v) {t : Nat} (ht : t < 64)
    (below : ∀ u < t, ((lo64 v.a).testBit u && (e.c.tag u).done) = false) (done : ((lo64 v.a).testBit t && (e.c.tag t).done) = true) :
    exec (.tagff h osc) s = .next (e.result h (scalar t) (acquire s e.cid osc)) := by
  have lowest : (List.range 64).find? (fun t => (lo64 v.a).testBit t && (e.c.tag t).done) = some t :=
    List.find?_range_eq_some.2 ⟨done, List.mem_range.2 ht, fun u hu => by rw [below u hu]; rfl⟩
  have search := exec_firing F fun _ => rfl
  simpa only [lowest] using search

theorem exec_tagff_none (F : Firing (.tagff h osc) s h e v) (open' : ∀ t < 64, ((lo64 v.a).testBit t && (e.c.tag t).done) = false) :
    exec (.tagff h osc) s = .next (e.result h (scalar 64) s) := by
  have absent : (List.range 64).find? (fun t => (lo64 v.a).testBit t && (e.c.tag t).done) = none :=
    List.find?_range_eq_none.2 fun t ht => by rw [open' t ht]; rfl
  have search := exec_firing F fun _ => rfl
  simpa only [absent] using search

/-- `tagclr` reads the masked done bits, and captures what was read and how often each masked bit had been set. -/
theorem exec_tagclr (F : Firing (.tagclr h) s h e v) : ∃ d r l,
    exec (.tagclr h) s = .next (e.capture h none (.tagclr d r l) (some (scalar d.toNat)) s) ∧
    ∀ t < 64, d.getLsbD t = (v.a.getLsbD t && (e.c.tag t).done) ∧ r.getLsbD t = (v.a.getLsbD t && (e.c.tag t).err) ∧
      (v.a.getLsbD t = true → (t, (e.c.tag t).doneSets, (e.c.tag t).errSets) ∈ l) := by
  refine ⟨_, _, _, (exec_firing F fun _ => rfl).trans
      (congrArg (fun d => Host.Outcome.next (e.capture h none _ (some d) s)) (scalar_ofNat_toNat _).symm),
    fun t ht => ⟨?_, ?_, fun masked => ?_⟩⟩
  · rw [getLsbD_tagMap _ _ ht, testBit_lo64 _ ht]
  · rw [getLsbD_tagMap _ _ ht, testBit_lo64 _ ht]
  · exact List.mem_map_of_mem (List.mem_filter.2 ⟨List.mem_range.2 ht, (testBit_lo64 _ ht).trans masked⟩)

/-- `tagrd` reads a bit of every tag. -/
theorem exec_tagrd {sel : BitVec 2} (F : Firing (.tagrd h sel) s h e v) : ∃ r : BitVec 64,
    exec (.tagrd h sel) s = .next (e.result h (scalar r.toNat) s) ∧
    ∀ t < 64, r.getLsbD t = if sel = 0 then decide ((e.c.tag t).pending = 0) else if sel = 1 then (e.c.tag t).done else (e.c.tag t).err := by
  refine ⟨_, (exec_firing F fun _ => rfl).trans
      (congrArg (fun d => Host.Outcome.next (e.result h d s)) (scalar_ofNat_toNat _).symm), fun t ht => ?_⟩
  rw [getLsbD_tagMap _ _ ht, Nat.testBit_two_pow_sub_one, decide_eq_true ht, Bool.true_and]
  obtain rfl | rfl | rfl | rfl : sel = 0 ∨ sel = 1 ∨ sel = 2 ∨ sel = 3 := by clear F; revert sel; decide
  all_goals rfl

end

/-- Settles O20: a packet is refused in the order of its checks; the bitmaps of tags are read bit by bit. -/
theorem copyInstructions : Obligations.CopyInstructions := by
  unfold Obligations.CopyInstructions
  intro s h e v m osc
  refine ⟨fun F within own room tag => ⟨fun fired => ?_, fun pinned => ?_⟩, exec_cpy_malformed, exec_cpy_foreign, fun any F ready => ?_,
    fun any F waits => ?_, fun F => ⟨fun t => exec_tagff_lowest F, exec_tagff_none F⟩, exec_tagclr, fun sel => exec_tagrd,
    fun self sys F gone => ?_⟩
  · rw [exec_cpy_room F within own room tag, if_neg (fired ▸ Bool.false_ne_true)]
  · rw [exec_cpy_room F within own room tag, if_pos pinned]
  · have wait := exec_firing F fun _ => rfl
    simpa only [ready, if_true] using wait
  · have wait := exec_firing F fun _ => rfl
    simpa only [waits, Bool.false_eq_true, if_false] using wait
  · have answer := exec_firing F fun _ => rfl
    simp only [gone, List.isEmpty_nil, if_true] at answer
    exact ⟨_, answer⟩

end Sys2Proof.Proofs

/-! ### The mapping commands and their shootdown (R226 to R228, R230) -/

namespace Sys2Proof.Machine

open Sys2Proof.Safety

/-- A command on a lease that its function holds is served. -/
theorem onLease_served {s : State} {code fn l : Nat} {L : Lease} {a : CmdArgs} (h : Served s code fn l L a)
    (body : Nat → Nat → Lease → CmdArgs → State) : onLease s code body = body fn l L a := by
  obtain ⟨cmd, names, lease, holds, granted⟩ := h
  have found : (s.lease l).filter (fun L => (fn = 0 || L.vf = fn) && (L.st = .granted || (L.st = .rinsing && L.want.isSome))) = some L := by
    rw [lease, Option.filter_some, if_pos (by simpa [Option.isSome_iff_ne_none] using ⟨holds, granted⟩)]
  simp only [onLease, cmd, names, found]

section
variable {s start : State} {fn : Nat} {h : Shoot} {finish : Shoot → State → State}

theorem shootCommand_starts (first : (s.fn fn).shoot = none) : shootCommand s fn start finish = start := by
  simp only [shootCommand, first]

theorem shootCommand_finishes (under : (s.fn fn).shoot = some h) (clear : shootClear s h = true) (room : shootStalls s h = false) :
    shootCommand s fn start finish = finish h (shootLines s h) := by
  simp only [shootCommand, under, clear, room, Bool.not_false, Bool.and_self, if_true]

theorem shootCommand_waits (under : (s.fn fn).shoot = some h) (held : shootClear s h = false ∨ shootStalls s h = true) :
    shootCommand s fn start finish = s := by
  obtain older | stalls := held
  · simp only [shootCommand, under, older, Bool.false_and, Bool.false_eq_true, if_false]
  · simp only [shootCommand, under, stalls, Bool.not_true, Bool.and_false, Bool.false_eq_true, if_false]

end

/-! #### Entries -/

section
variable {L : Lease} {va size : Nat}

/-- An entry in a range is a valid leaf, of one of the two page sizes, that meets it. -/
theorem mem_entriesIn {x : Nat × Nat × BitVec 64} : x ∈ entriesIn L va size ↔ ∃ unit t, (unit = 2 ^ 29 ∧ t = L.big ∨ unit = 2 ^ 16 ∧ t = L.small) ∧
    ∃ k e, (k, e) ∈ t ∧ x = (k * unit, unit, e) ∧ peV e = true ∧ rangesMeet (k * unit) unit va size = true := by
  simp only [entriesIn, List.mem_append, List.mem_map, List.mem_filter, Bool.and_eq_true, Prod.exists]
  constructor
  · rintro (⟨k, e, ⟨mem, valid, meets⟩, rfl⟩ | ⟨k, e, ⟨mem, valid, meets⟩, rfl⟩)
    · exact ⟨_, _, .inl ⟨rfl, rfl⟩, k, e, mem, rfl, valid, meets⟩
    · exact ⟨_, _, .inr ⟨rfl, rfl⟩, k, e, mem, rfl, valid, meets⟩
  · rintro ⟨_, _, ⟨rfl, rfl⟩ | ⟨rfl, rfl⟩, k, e, mem, rfl, valid, meets⟩
    · exact .inl ⟨k, e, ⟨mem, valid, meets⟩, rfl⟩
    · exact .inr ⟨k, e, ⟨mem, valid, meets⟩, rfl⟩

/-- Where a range cuts no leaf in two, changing it leaves only changed entries in it. -/
theorem mem_entriesIn_changeEntries (whole : wholeLeaves L va size = true) {f : Nat → BitVec 64 → BitVec 64} {x : Nat × Nat × BitVec 64}
    (hx : x ∈ entriesIn (changeEntries va size f L) va size) : peV x.2.2 = true ∧ ∃ o e, x.2.2 = f o e := by
  obtain ⟨unit, _, tables, k, e, mem, rfl, valid, meets⟩ := mem_entriesIn.1 hx
  obtain ⟨t, old, mem⟩ : ∃ t, (unit = 2 ^ 29 ∧ t = L.big ∨ unit = 2 ^ 16 ∧ t = L.small) ∧ (k, e) ∈
      (tmap (fun k e => if va ≤ k * unit ∧ k * unit < va + size then f (k * unit - va) e else e) t).filter fun e => peV e.2 := by
    obtain ⟨rfl, rfl⟩ | ⟨rfl, rfl⟩ := tables
    · exact ⟨_, .inl ⟨rfl, rfl⟩, mem⟩
    · exact ⟨_, .inr ⟨rfl, rfl⟩, mem⟩
  obtain ⟨⟨j, e'⟩, was, now⟩ := List.mem_map.1 (List.mem_filter.1 mem).1
  obtain ⟨rfl, rfl⟩ := Prod.mk.inj now
  refine ⟨valid, ?_⟩
  by_cases inside : va ≤ j * unit ∧ j * unit < va + size
  · exact ⟨_, _, if_pos inside⟩
  · simp only [if_neg inside] at valid
    have within := List.all_eq_true.1 whole _ (mem_entriesIn.2 ⟨unit, t, old, j, e', was, rfl, valid, meets⟩)
    simp only [Bool.and_eq_true, decide_eq_true_eq] at within
    omega

/-- Extents granted with a mapping change nothing else of the lease. -/
theorem withExts_eq {s : State} {upTo : Nat} {M : Lease} (h : withExts s L upTo = some M) : ∃ x, M = { L with exts := x } := by
  simp only [withExts] at h
  split at h
  · exact ⟨_, (Option.some.inj h).symm⟩
  · obtain ⟨-, same⟩ := Option.ite_none_right_eq_some.1 h
    exact ⟨_, (Option.some.inj same).symm⟩

/-- A lease that can hold a range has the mappings and the epoch it had. -/
theorem reachable_maps {s : State} {tier : Bool} {pa n : Nat} {M : Lease} (h : reachable s L tier pa n = some M) :
    M.epoch = L.epoch ∧ ∀ va size, entriesIn M va size = entriesIn L va size := by
  unfold reachable at h
  split at h
  · obtain ⟨x, rfl⟩ := withExts_eq h
    exact ⟨rfl, fun _ _ => rfl⟩
  · obtain ⟨-, same⟩ := Option.ite_none_right_eq_some.1 h
    obtain rfl := Option.some.inj same
    exact ⟨rfl, fun _ _ => rfl⟩

end

/-- The permissions set read back, and the other bits play no part in them. -/
theorem setPerms_reads (r w x recov : Bool) (e : BitVec 64) : peR (setPerms r w x recov e) = r ∧ peW (setPerms r w x recov e) = w ∧
    peX (setPerms r w x recov e) = x ∧ peRec (setPerms r w x recov e) = recov := by
  have cleared : (~~~0x78#64).getLsbD 3 = false ∧ (~~~0x78#64).getLsbD 4 = false ∧ (~~~0x78#64).getLsbD 5 = false ∧
      (~~~0x78#64).getLsbD 6 = false := by decide
  have put : ∀ r w x recov : Bool, let b := BitVec.ofNat 64 (8 * r.toNat + 16 * w.toNat + 32 * x.toNat + 64 * recov.toNat)
      b.getLsbD 3 = r ∧ b.getLsbD 4 = w ∧ b.getLsbD 5 = x ∧ b.getLsbD 6 = recov := by decide
  obtain ⟨r', w', x', recov'⟩ := put r w x recov
  obtain ⟨c3, c4, c5, c6⟩ := cleared
  simp only [setPerms, peR, peW, peX, peRec, BitVec.getLsbD_or, BitVec.getLsbD_and, c3, c4, c5, c6, r', w', x', recov', Bool.and_false,
    Bool.false_or, and_self]

theorem setMig_reads (e : BitVec 64) : peMig (setMig e) = true := by
  have set : (0x100#64).getLsbD 8 = true := by decide
  rw [peMig, setMig, BitVec.getLsbD_or, set, Bool.or_true]

/-! #### The beginning of a shootdown -/

section
variable {s : State} {fn l va size : Nat} {mig : Option (Nat × Bool)} {change : Lease → Lease} {L : Lease}

/-- The lease has the changed entries under the next epoch. -/
theorem beginShoot_lease (found : s.lease l = some L) :
    (beginShoot s fn l va size mig change).lease l = some { change L with epoch := L.epoch + 1 } := by
  have leases : (beginShoot s fn l va size mig change).leases = (s.modLease l fun L => { change L with epoch := L.epoch + 1 }).leases := by
    simp only [beginShoot, found]
    refine foldl_keeps State.leases (fun s cid => ?_) _ _
    exact ite_keeps State.leases rfl rfl
  calc _ = (s.modLease l fun L => { change L with epoch := L.epoch + 1 }).lease l := congrArg (tfind · l) leases
    _ = _ := by rw [State.lease_modLease_same, found]; rfl

/-- The function waits for the instances that hold translations. -/
theorem beginShoot_shoot (found : s.lease l = some L) : ((beginShoot s fn l va size mig change).fn fn).shoot =
    some { lease := l, va := va, size := size, insts := holders s l, mig := mig } := by
  simp only [beginShoot, found, State.fn_modFn_same]

end

end Sys2Proof.Machine

namespace Sys2Proof.Proofs

open Sys2Proof.Machine Sys2Proof.Safety

section
variable {s : State} {fn l : Nat} {L : Lease}

/-- A command that changes mappings begins its shootdown: from then on every entry in the range is a changed one. -/
theorem beginShoot_changes {va size : Nat} {mig : Option (Nat × Bool)} {f : Nat → BitVec 64 → BitVec 64} (found : s.lease l = some L)
    (whole : wholeLeaves L va size = true) : ∃ N, (beginShoot s fn l va size mig (changeEntries va size f)).lease l = some N ∧
      N.epoch = L.epoch + 1 ∧ ∀ e ∈ entriesIn N va size, peV e.2.2 = true ∧ ∃ o x, e.2.2 = f o x :=
  ⟨_, beginShoot_lease found, rfl, fun _ => mem_entriesIn_changeEntries whole⟩

theorem exec_unmap_starts {va size : Nat} (V : Served s 2 fn l L (.unmap va size)) (first : (s.fn fn).shoot = none)
    (pages : wholePages (2 ^ 16) va size = true) (whole : wholeLeaves L va size = true)
    (saves : keepsSaves s l (changeEntries va size fun _ _ => 0) = true) :
    exec .unmap s = .next (beginShoot s fn l va size none (changeEntries va size fun _ _ => 0)) := by
  show execUnmap s = _
  simp only [execUnmap, onLease_served V, shootCommand_starts first, pages, whole, saves, Bool.not_true, Bool.false_eq_true, or_self, if_false]

theorem exec_protect_starts {va size : Nat} {r w x recov : Bool} (V : Served s 3 fn l L (.protect va size r w x recov))
    (first : (s.fn fn).shoot = none) (pages : wholePages (2 ^ 16) va size = true) (whole : wholeLeaves L va size = true)
    (local' : recov = true → ∀ e ∈ entriesIn L va size, peDest e.2.2 ≠ 1 ∧ peDest e.2.2 ≠ 3)
    (saves : keepsSaves s l (changeEntries va size fun _ e => setPerms r w x recov e) = true) : exec .protect s =
      .next (beginShoot s fn l va size none (changeEntries va size fun _ e => setPerms r w x recov e)) := by
  have device : (recov && (entriesIn L va size).any fun e => peDest e.2.2 = 1 || peDest e.2.2 = 3) = false := by
    cases recov with
    | false => rfl
    | true => simpa using local' rfl
  show execProtect s = _
  simp only [execProtect, onLease_served V, shootCommand_starts first, pages, whole, saves, device, Bool.not_true, Bool.or_false,
    Bool.false_eq_true, or_self, if_false]

theorem exec_migrate_starts {va size pa : Nat} {tier : Bool} {M : Lease} (V : Served s 4 fn l L (.migrate va size pa tier))
    (first : (s.fn fn).shoot = none) (pages : wholePages (2 ^ 16) va size = true) (whole : wholeLeaves L va size = true)
    (fits : ∀ e ∈ entriesIn L va size, (pa + (e.1 - va)) % e.2.1 = 0 ∧ peDest e.2.2 = 0) (room : reachable s L tier pa size = some M) :
    exec .migrate s = .next (beginShoot (s.modLease l fun _ => M) fn l va size (some (pa, tier)) (changeEntries va size fun _ e => setMig e)) := by
  have aligned : ((entriesIn L va size).any fun e => (pa + (e.1 - va)) % e.2.1 ≠ 0) = false := by simpa using fun _ _ _ m => (fits _ m).1
  have device : ((entriesIn L va size).any fun e => peDest e.2.2 ≠ 0) = false := by simpa using fun _ _ _ m => (fits _ m).2
  show execMigrate s = _
  simp only [execMigrate, onLease_served V, shootCommand_starts first, pages, whole, aligned, device, room, Bool.not_true,
    Bool.false_eq_true, or_self, if_false]

end

/-- Settles O36: a command starts, finishes or waits as `shootCommand` does, and a range that cuts no leaf holds changed entries alone. -/
theorem mappingCommands : Obligations.MappingCommands := by
  unfold Obligations.MappingCommands
  intro s fn l L
  refine ⟨fun a N V fields free recoverable room => ?_, fun a V fields taken => ?_, fun va size V first pages whole saves => ?_,
    fun va size h V under clear stalls => ?_, fun va size r w x recov V first pages whole device saves => ?_,
    fun va size r w x recov h V under clear stalls => ?_, fun va size pa tier M V first pages whole fits room => ?_,
    fun va size pa tier h V under plain clear stalls => ?_, fun va size pa tier h q V under mig clear stalls => ?_,
    fun i va size h command under held => ?_⟩
  · show execMap s = _
    simp only [execMap, onLease_served V, fields, free, List.isEmpty_nil, Bool.not_true, Bool.false_eq_true, false_or, if_neg recoverable,
      if_false, room]
  · show execMap s = _
    simp only [execMap, onLease_served V, fields, Bool.not_true, Bool.false_eq_true, if_false]
    exact congrArg Host.Outcome.next (if_pos (.inl (by simpa using taken)))
  · obtain ⟨N, hN, epoch, changed⟩ := beginShoot_changes (fn := fn) (mig := none) (f := fun _ _ => 0) V.lease whole
    refine ⟨_, N, exec_unmap_starts V first pages whole saves, hN, epoch, List.eq_nil_iff_forall_not_mem.2 fun e he => ?_⟩
    obtain ⟨valid, -, -, gone⟩ := changed e he
    exact absurd valid (by rw [gone]; decide)
  · show execUnmap s = _
    simp only [execUnmap, onLease_served V, shootCommand_finishes under clear stalls]
  · obtain ⟨N, hN, epoch, changed⟩ := beginShoot_changes (fn := fn) (mig := none) (f := fun _ e => setPerms r w x recov e) V.lease whole
    refine ⟨_, N, exec_protect_starts V first pages whole device saves, hN, epoch, fun e he => ?_⟩
    obtain ⟨-, -, old, set⟩ := changed e he
    exact set ▸ setPerms_reads r w x recov old
  · show execProtect s = _
    simp only [execProtect, onLease_served V, shootCommand_finishes under clear stalls]
  · obtain ⟨epoch, entries⟩ := reachable_maps room
    have found : (s.modLease l fun _ => M).lease l = some M := by rw [State.lease_modLease_same, V.lease]; rfl
    have whole' : wholeLeaves M va size = true := by rwa [wholeLeaves, entries]
    obtain ⟨N, hN, next, changed⟩ := beginShoot_changes (fn := fn) (mig := some (pa, tier)) (f := fun _ e => setMig e) found whole'
    refine ⟨_, N, _, exec_migrate_starts V first pages whole fits room, hN, epoch ▸ next, fun e he => ?_, beginShoot_shoot found, rfl, rfl, rfl⟩
    obtain ⟨-, -, old, set⟩ := changed e he
    exact set ▸ setMig_reads old
  · show execMigrate s = _
    simp only [execMigrate, onLease_served V, shootCommand_finishes under clear stalls, plain]
  · show execMigrate s = _
    simp only [execMigrate, onLease_served V, shootCommand_finishes under clear stalls, mig]
  · obtain ⟨rfl, V⟩ | ⟨r, w, x, recov, rfl, V⟩ | ⟨pa, tier, rfl, V⟩ := command
    · show execUnmap s = _
      simp only [execUnmap, onLease_served V, shootCommand_waits under held]
    · show execProtect s = _
      simp only [execProtect, onLease_served V, shootCommand_waits under held]
    · show execMigrate s = _
      simp only [execMigrate, onLease_served V, shootCommand_waits under held]

end Sys2Proof.Proofs

/-! ### Rollback, poison and the patrol sweep (R229, R304, R326) -/

namespace Sys2Proof.Machine

open Sys2Proof.Safety

/-- A broadcast message waits at its sender too. -/
theorem dueMsg_broadcast (s : State) {ty : Nat} (h : ty < 16) (r : Rin) : (dueMsg (broadcast s ty r) ty).isSome = true := by
  have own : (sealMsg s ty false r).ty.toNat = ty := by
    show (BitVec.ofNat 4 ty).toNat = ty
    rw [BitVec.toNat_ofNat, Nat.mod_eq_of_lt h]
  exact List.find?_isSome.2 ⟨sealMsg s ty false r, List.mem_append_right _ List.mem_cons_self, decide_eq_true own⟩

theorem contains_insert {α : Type} [BEq α] [LawfulBEq α] (x : α) (xs : List α) : (if xs.contains x then xs else x :: xs).contains x = true :=
  List.elem_iff.2 List.mem_insert_self

theorem poisonUndo_memories (s : State) (ctrl k : Nat) : SameMemory s (poisonUndo s ctrl k) := by
  unfold poisonUndo
  dsimp only
  split <;> exact ⟨rfl, rfl, rfl⟩

/-- A line marked as poisoned, where it was not. -/
theorem poison_marked {s u : State} (n : Nat) (same : SameMemory s u) :
    ∃ t, (if u.poison.contains n then u else { u with poison := n :: u.poison }) = t ∧ t.poison.contains n = true ∧ SameMemory s t :=
  ⟨_, rfl, by rw [apply_ite State.poison]; exact contains_insert _ _, by split <;> exact same⟩

/-- A lease with a line of its page table poisoned. -/
def Lease.poisonTable (L : Lease) (level line : Nat) : Lease :=
  if L.ptBad.contains (level, line) then L else { L with ptBad := (level, line) :: L.ptBad }

theorem Lease.poisonTable_contains (L : Lease) (level line : Nat) : (L.poisonTable level line).ptBad.contains (level, line) = true := by
  rw [Lease.poisonTable, apply_ite Lease.ptBad]
  exact contains_insert _ _

/-- A walk that reads a poisoned line of the page table ends in poison. -/
theorem translate_poisoned {s : State} {cid l va : Nat} {L : Lease} (lease : s.lease l = some L) (miss : tlbLookup s cid l L va = none)
    (bad : walkBad L va = true) : translate s cid l va = .poisoned := by
  simp only [translate, lease, miss, bad, Option.isNone_none, Bool.and_self, if_true]

/-- The upper two levels are read by every walk. -/
theorem walkBad_upper {L : Lease} {va level line : Nat} (bad : L.ptBad.contains (level, line) = true)
    (reads : level = 1 ∧ line = va / 2 ^ 38 / 8 ∨ level = 2 ∧ line = va / 2 ^ 29 / 8) : walkBad L va = true := by
  obtain ⟨rfl, rfl⟩ | ⟨rfl, rfl⟩ := reads
  · simp only [walkBad, bad, Bool.true_or]
  · simp only [walkBad, bad, Bool.or_true, Bool.true_or]

end Sys2Proof.Machine

namespace Sys2Proof.Proofs

open Sys2Proof.Machine Sys2Proof.Safety

section
variable {s g : State} {m : SealMsg}

/-- POISON of an interval that is not sealed begins a rollback at the coordinator. -/
theorem exec_poison_begins (got : gotMsg s 5 = g) (due : dueMsg g 5 = some m) (coordinator : g.sl.device = g.sl.coordinator)
    (idle : g.sl.rolling = none) (unsealed : rinGt m.rin g.sl.s = true) (fresh : rinGt g.sl.base m.rin = false) (open' : dueMsg g 3 = none) :
    exec .poison s = .next (broadcast { takeDue g 5 with sl := { (takeDue g 5).sl with rolling := some g.sl.s, rolledFrom := [] } } 6 g.sl.s) := by
  show execPoison s = _
  simp only [execPoison, got, due, isCoordinator, coordinator, idle, unsealed, fresh, open', decide_true, Bool.not_true, Option.isSome_none,
    Bool.or_self, Bool.false_eq_true, if_false]
  rfl

/-- ROLLBACK, an open seal of its interval taken as sealed first. -/
theorem exec_rollback (got : gotMsg s 6 = g) (due : dueMsg g 6 = some m) : exec .rollback s =
    .next (rollbackTo (if g.sl.sealing = some m.rin then releaseSealed (takeDue g 6) m.rin else takeDue g 6) m.rin) := by
  show execRollback s = _
  simp only [execRollback, got, due]
  rfl

/-- ROLLED of the last device lets the leases resume. -/
theorem exec_rolled_last (got : gotMsg s 7 = g) (due : dueMsg g 7 = some m) (coordinator : g.sl.device = g.sl.coordinator)
    (rolling : g.sl.rolling = some m.rin) (last : ∀ d ∈ g.sl.members, d = m.device.toNat ∨ d ∈ g.sl.rolledFrom) :
    ∃ u, exec .rolled s = .next (resumeAll u) := by
  have role : isCoordinator (takeDue g 7) = true := decide_eq_true coordinator
  have under : (takeDue g 7).sl.rolling = some m.rin := rolling
  have all : (takeDue g 7).sl.members.all (m.device.toNat :: (takeDue g 7).sl.rolledFrom).eraseDups.contains = true := by
    simpa [List.all_eq_true, takeDue] using last
  refine ⟨?after, ?eq⟩
  case eq =>
    show execRolled s = _
    simp only [execRolled, got, due, role, under, all, Bool.not_true, ne_eq, not_true, decide_false, Bool.or_self, Bool.false_eq_true, if_false]
    rfl

end

/-- Settles O40: each message acts once it is due, and each site of an error is marked where it was not. -/
theorem rollbackProtocol : Obligations.RollbackProtocol := by
  unfold Obligations.RollbackProtocol
  intro s g m
  refine ⟨fun got due coordinator idle unsealed fresh open' => ?_, fun got due other => ?_, fun got due sealing => ?_,
    fun got due coordinator rolling last => ?_, fun pa => ?_, fun cid row => ?_, fun l level line L lease => ?_, fun line tagged old => ?_⟩
  · exact ⟨_, exec_poison_begins got due coordinator idle unsealed fresh open', rfl, dueMsg_broadcast _ (by decide) _⟩
  · rw [exec_rollback got due, if_neg other]
  · rw [exec_rollback got due, if_pos sealing]
  · obtain ⟨u, hu⟩ := exec_rolled_last got due coordinator rolling last
    exact ⟨_, hu, rfl⟩
  · have noted : SameMemory s (if pa < 2 ^ 42 ∧ chanBytes ≤ pa % 2 ^ 28 then poisonUndo s (pa / 2 ^ 28) ((pa % 2 ^ 28 - chanBytes) / 128)
        else s) := by
      split
      · exact poisonUndo_memories _ _ _
      · exact ⟨rfl, rfl, rfl⟩
    obtain ⟨t, ht, after⟩ := poison_marked (pa / 64) noted
    exact ⟨t, congrArg Host.Outcome.next ht, after⟩
  · refine ⟨_, rfl, ?_, rfl, rfl, rfl⟩
    rw [State.core_modCore_same, apply_ite Core.poisonRows]
    exact contains_insert _ _
  · have after : (s.modLease l (·.poisonTable level line)).lease l = some (L.poisonTable level line) := by
      rw [State.lease_modLease_same, lease]
      rfl
    have bad := L.poisonTable_contains level line
    exact ⟨_, _, rfl, after, bad, ⟨rfl, rfl, rfl⟩, fun cid va miss reads => translate_poisoned after miss (walkBad_upper bad reads)⟩
  · have found : tagOld s (tgetD s.lineTags line 0) = true := by
      simpa [tagOld] using ⟨tagged, old⟩
    show execPatrolSweep line s = _
    simp only [execPatrolSweep, found, if_true]

end Sys2Proof.Proofs

/-! ### TLB walks, replies at the GEN port, copy elements (R229, R232, R233, R237, R239) -/

namespace Sys2Proof.Machine

open Sys2Proof.Safety

/-! #### TLBs -/

theorem mem_lset {α : Type} : ∀ {xs : List α} {i : Nat} (y : α), i < xs.length → y ∈ lset xs i y
  | [], _, _, h => absurd h (Nat.not_lt_zero _)
  | _ :: _, 0, _, _ => List.mem_cons_self
  | _ :: _, _ + 1, y, h => List.mem_cons_of_mem _ (mem_lset y (Nat.lt_of_succ_lt_succ h))

/-- What is added to a TLB stands in it, whichever entry makes room. -/
theorem mem_tlbAdd (t : List TlbEntry) {n : Nat} (pos : 0 < n) (pick : Nat) (e : TlbEntry) : e ∈ tlbAdd t n pick e := by
  unfold tlbAdd
  split
  · exact List.mem_append_right _ List.mem_cons_self
  · next full => exact mem_lset e ((Nat.mod_lt pick pos).trans_le (Nat.not_lt.1 full))

/-- A walk that finds a leaf at rest adds it to the core's TLB, and changes no memory. -/
theorem execTlbWalk_fills {s : State} {cid pt : Nat} {va : BitVec 48} {L : Lease} {big : Bool} {e : BitVec 64}
    (on : (s.core cid).patch = some pt) (lease : s.lease (coreLease s cid) = some L)
    (miss : tlbHit (s.core cid).tlb (coreLease s cid) L.gen va.toNat = none) (found : lookup s cid (coreLease s cid) va.toNat = some (big, e))
    (rests : peMig e = false) (clean : walkBad L va.toNat = false) : ∃ t, execTlbWalk cid va s = .next t ∧
      { lease := coreLease s cid, gen := L.gen, page := va.toNat / (if big then 2 ^ 29 else 2 ^ 16), big := big, entry := e } ∈ (t.core cid).tlb ∧
      SameMemory s t := by
  simp only [execTlbWalk, on, lease, miss, found, rests, clean, Option.isSome_none, Bool.or_self, Bool.false_eq_true, if_false]
  refine ⟨_, rfl, ?_, rfl, rfl, rfl⟩
  rw [State.modCluster_core, State.core_modCore_same]
  exact mem_tlbAdd _ (by decide) _ _

/-! #### A RELATCH leaves the requests behind it as they are -/

theorem setCfg_gen (c : Core) (unit field v : Nat) : (c.setCfg unit field v).gen = c.gen := by
  unfold Core.setCfg
  split <;> rfl

theorem relatched_gen (c : Core) (js : List Nat) (f : Flit) : (js.foldl (fun c j => c.emit j f) c.clearLatches).gen = c.gen :=
  calc _ = c.clearLatches.gen := foldl_keeps Core.gen (fun _ _ => by rfl) js _
    _ = c.gen := foldl_keeps Core.gen (fun _ _ => setCfg_gen _ _ _ _) _ c

end Sys2Proof.Machine

namespace Sys2Proof.Proofs

open Sys2Proof.Machine Sys2Proof.Safety

section
variable {s u : State} {cid pt : Nat} {p : Patch} {r : GenReq} {rs : List GenReq}

/-- The oldest request, of a patch on the core, is answered; the patch is at work where it leaves the port. -/
theorem exec_genReply_fired (admitted : u = admitLate s cid) (gen : (u.core cid).gen = r :: rs) (stands : r.stands u cid = true)
    (on : (u.core cid).patch = some pt) (fires : r.kind.fires = true) {v : State} (answer : v = answerGen u cid pt r) :
    exec (.genReply cid) s = .next (if (v.core cid).gen.length ≤ rs.length then markFiring v pt else v) := by
  show execGenReply cid s = _
  rw [execGenReply, ← admitted]
  simp only [gen, stands, on, fires, answer, Bool.not_true, Bool.true_and, Bool.false_eq_true, if_false, Option.getD_some, List.length_cons,
    decide_eq_true_eq, Nat.lt_succ_iff]

theorem exec_genReply_stale (admitted : u = admitLate s cid) (gen : (u.core cid).gen = r :: rs) (stale : r.stands u cid = false) :
    exec (.genReply cid) s = .next (noteStale (popGen u cid) cid r.lease r.gen) := by
  show execGenReply cid s = _
  rw [execGenReply, ← admitted]
  simp only [gen, stale, Bool.not_false, if_true]

theorem exec_genReply_idle (gen : (s.core cid).gen = []) (late : (s.core cid).late = []) :
    exec (.genReply cid) s = .next (admitLate s cid) := by
  have idle : ((admitLate s cid).core cid).gen = [] := by
    unfold admitLate
    split
    · exact gen
    · rw [State.core_modCore_same, late]
      exact gen
  show execGenReply cid s = _
  simp only [execGenReply, idle]

/-- A RELATCH that may leave does, and what it sends is work of the patch. -/
theorem exec_genReply_relatch {f : Flit} (admitted : u = admitLate s cid) (gen : (u.core cid).gen = r :: rs) (stands : r.stands u cid = true)
    (R : RunsOn u cid pt p) (kind : r.kind = .relatch f) (may : relatchMay (u.core cid) = true) : exec (.genReply cid) s =
      .next (markFiring ((popGen u cid).modCore cid fun c => c.boundOuts.foldl (fun c j => c.emit j f) c.clearLatches) pt) := by
  obtain ⟨on, found, running⟩ := R
  have answer : (popGen u cid).modCore cid (fun c => c.boundOuts.foldl (fun c j => c.emit j f) c.clearLatches) = answerGen u cid pt r := by
    simp only [answerGen, kind, found, running, replyRelatch, may, reduceCtorEq, if_false, if_true]
  rw [exec_genReply_fired admitted gen stands on (by rw [kind]; rfl) answer, if_pos]
  rw [State.core_modCore_same, relatched_gen, popGen, State.core_modCore_same, gen, List.tail_cons]

end

section
variable {s u : State} {cl q : Nat} {e : CopyEnt} {es : List CopyEnt} (head : copyQ s cl q = e :: es)
include head

/-- The element at the head of a queue performs, and the packet goes on to its next or completes. -/
theorem exec_copyWalk_performs (stands : copyCurrent s e = true) (element : copyElem s cl e = .ok u) : exec (.copyWalk cl q) s =
    .next (if e.next + 1 < copyCount e.packet then u.modCluster cl fun c =>
      { c with queues := tmod c.queues q [] (·.map fun x => if x.id = e.id then { x with next := e.next + 1, stalled := false } else x) }
    else endCopy u cl q none e) := by
  show execCopyWalk cl q s = _
  simp only [execCopyWalk, head, stands, element, Bool.not_true, Bool.false_eq_true, if_false]

theorem exec_copyWalk_fails {c b : BitVec 8} {a : BitVec 64} (stands : copyCurrent s e = true) (element : copyElem s cl e = .bad c b a) :
    exec (.copyWalk cl q) s = .next ((e :: es).foldl (fun s x => endCopy s cl q (some c) x) (raiseWalk s e c b a)) := by
  show execCopyWalk cl q s = _
  simp only [execCopyWalk, head, stands, element, Bool.not_true, Bool.false_eq_true, if_false]

theorem exec_copyWalk_gone (gone : copyCurrent s e = false) : exec (.copyWalk cl q) s = .next (endCopy s cl q none e) := by
  show execCopyWalk cl q s = _
  simp only [execCopyWalk, head, gone, Bool.not_false, if_true]

end

/-- Settles O44: the oldest request of a port is answered by its kind, the packet at the head of a queue by its element. -/
theorem memoryPorts : Obligations.MemoryPorts := by
  unfold Obligations.MemoryPorts
  intro s cid pt p
  refine ⟨fun va L big e on lease miss found rests clean => ?_, fun u r rs => exec_genReply_stale,
    fun u v r rs admitted gen stands on found kind reply => ?_, fun u v r rs admitted gen stands on found kind reply => ?_,
    fun u r rs f => exec_genReply_relatch, exec_genReply_idle, fun cl q e es u head stands element last => ?_,
    fun cl q e es u head stands element more => ?_, fun cl q e es c b a head => exec_copyWalk_fails head,
    fun cl q e es head => exec_copyWalk_gone head⟩
  · obtain ⟨t, ht, mem, memory⟩ := execTlbWalk_fills on lease miss found rests clean
    exact ⟨t, _, ht, mem, rfl, rfl, rfl, rfl, memory⟩
  · have answer : v = answerGen u cid pt r := by rw [reply, answerGen, kind, found]
    exact exec_genReply_fired admitted gen stands on (by rw [kind]; rfl) answer
  · have answer : v = answerGen u cid pt r := by rw [reply, answerGen, kind, found]
    exact exec_genReply_fired admitted gen stands on (by rw [kind]; rfl) answer
  · rw [exec_copyWalk_performs head stands element, if_neg (Nat.not_lt.2 last)]
  · rw [exec_copyWalk_performs head stands element, if_pos more]

end Sys2Proof.Proofs

/-! ### The mangle's engine (R244, R245, R271 to R274) -/

namespace Sys2Proof.Machine

/-- Nothing stands before the entry at the head of the queue. -/
theorem Mangle.before_head {m : Mangle} {q : MEnt} {r : List MEnt} (queue : m.queue = q :: r) : m.before q.id = [] := by
  rw [Mangle.before, queue, List.takeWhile_cons, if_neg (by simp)]

/-- A core whose queued load has filled the shadow plane (R271). -/
def Core.fillShadow (c : Core) (id : Nat) (pl : Plane) : Core :=
  { c.dropEnt id with mangle := { (c.dropEnt id).mangle with shadow := pl } }

section
variable {c : Core} {q : MEnt} {fmt : BitVec 3} {src : BitVec 64}

/-- A load from S finds its plane's bytes there, outside the pleat steps and poison. -/
theorem planeBytes_pool (own : src.getLsbD 63 = false) (held : c.holdS = false)
    (clean : c.rolePoisoned .s (natBits src.toNat 0 48) (2048 + scaleBytes fmt.toNat (src.getLsbD 62)) = false) :
    planeBytes c q fmt src = some (.ok (c.readRole .s (natBits src.toNat 0 48) (2048 + scaleBytes fmt.toNat (src.getLsbD 62)))) := by
  simp only [planeBytes, own, held, clean, Bool.false_eq_true, if_false]

end

end Sys2Proof.Machine

namespace Sys2Proof.Proofs

open Sys2Proof.Machine Sys2Proof.Safety

section
variable {s : State} {cid pt : Nat} {p : Patch} {q : MEnt}

theorem exec_mangleRunStart (R : RunsOn s cid pt p) (settled : (s.core cid).pleat.phase = 0)
    (next : (s.core cid).mangle.queue.find? (s.core cid).mangle.mayStart = some q) :
    exec (.mangleRunStart cid) s = .next (s.modCore cid fun c => c.modEnt q.id fun q => { q with started := true }) := by
  obtain ⟨on, found, running⟩ := R
  show execMangleRunStart cid s = _
  simp only [execMangleRunStart, on, found, running, settled, next, Option.bind_some, and_self, if_true]

/-- A swap at the head of the queue exchanges the planes. -/
theorem exec_mangleSwapEffect {r : List MEnt} (queue : (s.core cid).mangle.queue = q :: r) (swap : q.op = .swap) :
    ∃ t, exec (.mangleSwapEffect cid) s = .next t ∧ (t.core cid).mangle.active = (s.core cid).mangle.shadow ∧
      (t.core cid).mangle.shadow = (s.core cid).mangle.active ∧ (t.core cid).mangle.queue = r ∧ (t.core cid).pool = (s.core cid).pool ∧
      SameMemory s t := by
  refine ⟨_, rfl, ?_, ?_, ?_, ?_, rfl, rfl, rfl⟩
  all_goals simp only [State.core_modCore_same, queue, swap, if_true]

/-- A fence behind no run and no `mzero` leaves the queue. -/
theorem exec_mangleFenceEffect (first : (s.core cid).mangle.queue.find?
      (fun q => q.op = .fence && ((s.core cid).mangle.before q.id).all fun p => ! p.op.works) = some q) :
    ∃ t, exec (.mangleFenceEffect cid) s = .next t ∧ (t.core cid).mangle.queue = (s.core cid).mangle.queue.filter (·.id != q.id) ∧
      (t.core cid).pool = (s.core cid).pool ∧ SameMemory s t := by
  refine ⟨_, rfl, ?_, ?_, rfl, rfl, rfl⟩
  all_goals rw [State.core_modCore_same, first]; rfl

/-- A load from S at the head of the queue fills the shadow plane. -/
theorem exec_mloadFill {r : List MEnt} {fmt : BitVec 3} {src : BitVec 64} {locs : List Loc} (on : (s.core cid).patch = some pt)
    (queue : (s.core cid).mangle.queue = q :: r) (load : q.op = .load fmt src locs) {bs : List Byte}
    (bytes : planeBytes (s.core cid) q fmt src = some (.ok bs)) : ∃ t, exec (.mloadFill cid) s = .next t ∧
      (t.core cid).mangle.active = (s.core cid).mangle.active ∧ (t.core cid).mangle.shadow = planeOf fmt bs ∧ SameMemory s t := by
  have filled : exec (.mloadFill cid) s = .next (markFiring (s.modCore cid (·.fillShadow q.id (planeOf fmt bs))) pt) := by
    show execMloadFill cid s = _
    simp only [execMloadFill, on, queue, List.find?_cons, load, Mangle.before_head queue, List.all_nil, bytes]
    rfl
  have core := State.core_modCore_same s cid (·.fillShadow q.id (planeOf fmt bs))
  exact ⟨_, filled, congrArg (·.mangle.active) core, congrArg (·.mangle.shadow) core, rfl, rfl, rfl⟩

end

section
variable {s : State} {cid pt n bad : Nat} {p : Patch} {q : MEnt} (on : (s.core cid).patch = some pt) (found : s.patch pt = some p)
  (entry : (s.core cid).mangle.queue[n]? = some q) (started : q.started = true) (held : (s.core cid).holdT = false)
include on found entry started held

theorem exec_mangleTile_zero {d : BitVec 64} (zero : q.op = .zero d) :
    exec (.mangleTile cid n bad) s = .next (markFiring (s.setCore cid (doZero (s.core cid) q d.toNat)) pt) := by
  show execMangleTile cid n bad s = _
  simp only [execMangleTile, on, found, entry, started, held, zero, Bool.not_true, Bool.false_eq_true, or_self, if_false]

/-- A run whose turn it is performs its next tile on the rows that it finds, from S or from its in-channel. -/
theorem exec_mangleTile_run {sh : BitVec 5} {d : BitVec 64} {c : Core} {rs : List Value} (run : q.op = .run sh d)
    (turn : (s.core cid).mangle.tileHeld q = false) (due : (mdSrck d.toNat && (s.core cid).recvDue (mdIn d.toNat)) = false)
    (rows : (if mdSrck d.toNat then rowsFromChan (s.core cid) q sh (mdIn d.toNat) else rowsFromS (s.core cid) sh d.toNat q.tile) = .rows c rs) :
    exec (.mangleTile cid n bad) s = .next (markFiring (doTile s cid p c q sh d.toNat rs bad) pt) := by
  show execMangleTile cid n bad s = _
  simp only [execMangleTile, on, found, entry, started, held, run, turn, due, rows, Bool.not_true, Bool.or_self, Bool.false_eq_true,
    or_self, if_false]

end

/-- Settles O45: each event finds the queue's entry that it is for; a run takes its rows from S or from its in-channel. -/
theorem mangleEngine : Obligations.MangleEngine := by
  unfold Obligations.MangleEngine
  intro s cid pt p q
  refine ⟨exec_mangleRunStart, fun n bad sh d rs c on found entry started held run turn source rows => ?_,
    fun n bad sh d rs c on found entry started held run turn source due rows => ?_,
    fun n bad d on found entry started held zero => exec_mangleTile_zero on found entry started held zero,
    fun r => exec_mangleSwapEffect, exec_mangleFenceEffect, fun r fmt src locs on queue load own held clean =>
      exec_mloadFill on queue load (planeBytes_pool own held clean)⟩
  · refine exec_mangleTile_run on found entry started held run turn ?_ ?_
    · rw [source, Bool.false_and]
    · rw [if_neg (source ▸ Bool.false_ne_true), rows]
  · refine exec_mangleTile_run on found entry started held run turn ?_ ?_
    · rw [due, Bool.and_false]
    · rw [if_pos source, rows]

end Sys2Proof.Proofs

/-! # Memory-engine instructions, sealing, synchronising (R251 to R299, R328 to R332) -/

/-! ### Atomics and cache control (R262 to R265) -/

namespace Sys2Proof.Machine

/-- Where an entry of the undo log has found no area, an atomic without a scope stalls as a store would (R308). -/
theorem doPoolAtomic_full {s : State} {tc off n : Nat} {w : Bool} (held : (s.core tc).holdS = false)
    (clean : (s.core tc).rolePoisoned .s off (atBytes w) = false) (full : overLease s = some n) (cid k : Nat) (x : Inst) (q : Capture)
    (op : AtOp) (b c : Nat) : doPoolAtomic cid k x q tc off op w b c none s = .stall (some n) := by
  simp only [doPoolAtomic, held, clean, release, wideScope, okRoom, full, Done.then, Bool.false_eq_true, if_false]

/-- A blank device whose undo log holds an entry without an area. -/
def crowded : State :=
  { State.reset with undo := [{ ctrl := 0, pa := 0, lease := 0, gen := 0, rin := 0, otag := 0, poison := false, data := 0, bad := false,
                                area := noArea }] }

end Sys2Proof.Machine

namespace Sys2Proof.Proofs

open Sys2Proof.Machine Sys2Proof.Safety Sys2Proof.Laws

/-- Refutes O19: the statement is about any state, also one whose undo log holds an entry that found no area; there the atomic stalls. -/
theorem not_poolAtomicPerforms : ¬ Obligations.PoolAtomicPerforms := by
  unfold Obligations.PoolAtomicPerforms
  intro h
  have held : (crowded.core 0).holdS = false := by decide
  have clean : (crowded.core 0).rolePoisoned .s 0 (atBytes true) = false := by decide
  have full : overLease crowded = some 0 := by decide
  have q : Capture := { slot := 0, lsid := none, eff := .mfence, t0 := .none, t1 := .none }
  have performs := (h crowded 0 0 (freshInst 0 0 0 0 []) q 0 0 .add true 0 0 held clean).1
  rw [doPoolAtomic_full held clean full] at performs
  exact Done.noConfusion performs

/-- Settles O18: an access whose place passes its checks is captured, and a `cctl` as it is. -/
theorem atomicsAndCacheControl : Obligations.AtomicsAndCacheControl := by
  unfold Obligations.AtomicsAndCacheControl
  intro s h e v op w m
  refine ⟨fun p ps F free place => ?_, fun p ps F place => ?_, fun p ps F place => ?_, fun F => exec_firing F fun _ => rfl,
    fun F => exec_firing F fun _ => rfl, fun F => exec_firing F fun _ => rfl, fun F => ⟨_, exec_firing F fun _ => rfl⟩,
    fun F => ⟨_, exec_firing F fun _ => rfl⟩⟩
  · have own := exec_firing F fun _ => rfl
    simpa only [free, Bool.false_eq_true, if_false, offsetOf, place, Env.poolAtomic, lowBits] using own
  · have neighbour := exec_firing F fun _ => rfl
    simpa only [offsetOf, place, Env.poolAtomic, lowBits] using neighbour
  · have node := exec_firing F fun _ => rfl
    simpa only [offsetOf, place, lowBits] using node

end Sys2Proof.Proofs

/-! ### The mangle's instructions (R251, R270 to R274) -/

namespace Sys2Proof.Machine

open Sys2Proof.Safety Sys2Proof.Laws

/-- One bit of a value as a number. -/
theorem bitsOf_one (v : Value) (i : Nat) : decide (bitsOf v i 1 = 1) = v.getLsbD i := by
  rw [bitsOf, pow_one, ← Nat.testBit_eq_decide_div_mod_eq, BitVec.testBit_toNat]

/-- A source's flag, read in the 64 bits that the queue keeps of the operand. -/
theorem getLsbD_ofNat_lo64 (v : Value) {i : Nat} (hi : i < 64) : (BitVec.ofNat 64 (lo64 v)).getLsbD i = v.getLsbD i := by
  rw [ofNat_lo64, BitVec.getLsbD_setWidth, decide_eq_true hi, Bool.true_and]

section
variable {s : State} {h : Head} {e : Env} {v : Vals} {ec : EC} {sh : BitVec 5}

/-- An `mload` once a run slot is free and, where a pinned block reads global memory, the GEN port has room. -/
theorem exec_mload (F : Firing (.mload h ec) s h e v) (slot : marmReady e.c.mangle = true)
    (port : e.pinned = true → v.a.getLsbD 63 = true → e.c.genRoom = true) : exec (.mload h ec) s = .next
      (match mloadCheck s e (planeFmt ec) v.a with
      | .bad x => e.raise x s
      | .hold => s
      | .ok ls =>
        if e.pinned then
          if sclOk (planeFmt ec) (v.a.getLsbD 62) then
            e.result h ack (armLoad s e.cid e.lease (BitVec.ofNat 3 (planeFmt ec)) (BitVec.ofNat 64 (lo64 v.a)) ls)
          else e.raise { cause := 0x0E, sub := 1 } s
        else e.capture h none (.mload (BitVec.ofNat 3 (planeFmt ec)) (BitVec.ofNat 64 (lo64 v.a)) ls) (some ack) s) := by
  have ready : mloadReady e.c (e.pinned && decide (bitsOf v.a 63 1 = 1)) = true := by
    rw [mloadReady, slot, bitsOf_one, Bool.true_and]
    cases pin : e.pinned with
    | false => rfl
    | true =>
      cases own : v.a.getLsbD 63 with
      | false => rfl
      | true => rw [port pin own]; rfl
  have load := exec_firing F fun _ => rfl
  simp only [ready, Bool.not_true, Bool.false_eq_true, if_false, getLsbD_ofNat_lo64 v.a (show 62 < 64 by decide)] at load
  exact load

theorem exec_mload_waits (F : Firing (.mload h ec) s h e v) (full : marmReady e.c.mangle = false) : exec (.mload h ec) s = .next s := by
  have load := exec_firing F fun _ => rfl
  simpa only [mloadReady, full, Bool.false_and, Bool.not_false, if_true] using load

theorem exec_marm (F : Firing (.marm h sh) s h e v) : exec (.marm h sh) s = .next
    (if ! marmReady e.c.mangle then s
    else if e.pinned then
      match runCause e.c sh v.a with
      | some x => e.raise { cause := x.1, sub := x.2 } s
      | none => e.result h ack (s.modCore e.cid fun c => c.queueMangle (.run sh (BitVec.ofNat 64 (lo64 v.a))))
    else e.capture h none (.marm sh v.a) (some ack)
      (s.modCore e.cid fun c => { c with mangle := { c.mangle with resv := c.mangle.resv + 1 } })) := (exec_firing F fun _ => rfl :)

/-- The two counters that `mchk` answers lie in fields of their own. -/
theorem bitsOf_mchk {a b o : Nat} (ha : a < 2 ^ 32) (hb : b < 2 ^ 16) :
    bitsOf (scalar (a + 2 ^ 32 * b + 2 ^ 48 * o)) 0 32 = a ∧ bitsOf (scalar (a + 2 ^ 32 * b + 2 ^ 48 * o)) 32 16 = b := by
  simp only [bitsOf, scalar, BitVec.toNat_ofNat]
  omega

theorem exec_mchk {clr : Bool} (F : Firing (.mchk h clr) s h e v) : ∃ r, exec (.mchk h clr) s =
      .next (if clr then e.capture h none .mchk (some r) s else e.result h r s) ∧
    bitsOf r 0 32 = min e.c.mangle.checked (2 ^ 32 - 1) ∧ bitsOf r 32 16 = min e.c.mangle.corrected (2 ^ 16 - 1) :=
  ⟨_, exec_firing F fun _ => rfl, bitsOf_mchk (Nat.lt_of_le_of_lt (Nat.min_le_right _ _) (by decide))
    (Nat.lt_of_le_of_lt (Nat.min_le_right _ _) (by decide))⟩

/-- The reserved bits of an `mzero` descriptor are the operand's own. -/
theorem exec_mzero (F : Firing (.mzero h) s h e v) : exec (.mzero h) s = .next
    (if 2 ^ 64 ≤ v.a.toNat ∨ bitsOf v.a 16 28 ≠ 0 then e.raise { cause := 0x07 } s
    else e.capture h none (.mzero (BitVec.ofNat 64 v.a.toNat)) (some ack) s) := by
  have wide : v.a.toNat ≠ lo64 v.a ↔ 2 ^ 64 ≤ v.a.toNat := by
    rw [lo64]
    omega
  have reserved : natBits (lo64 v.a) 16 28 = bitsOf v.a 16 28 := by
    rw [natBits, lo64, bitsOf]
    omega
  have low : BitVec.ofNat 64 (lo64 v.a) = BitVec.ofNat 64 v.a.toNat :=
    BitVec.eq_of_toNat_eq (by rw [BitVec.toNat_ofNat, BitVec.toNat_ofNat, lo64, Nat.mod_mod])
  have zero := exec_firing F fun _ => rfl
  simpa only [wide, reserved, low] using zero

end

end Sys2Proof.Machine

namespace Sys2Proof.Proofs

open Sys2Proof.Machine Sys2Proof.Safety Sys2Proof.Laws

/-- Settles O21: each instruction is its own arm, and a clause is a branch of it. -/
theorem mangleInstructions : Obligations.MangleInstructions := by
  unfold Obligations.MangleInstructions
  intro s h e v ec sh
  refine ⟨fun ls F slot port check => ⟨fun fired => ?_, fun pinned scale own => ?_, fun pinned scale global => ?_⟩,
    fun x F slot port bad => ?_, exec_mload_waits, fun F => exec_firing F fun _ => rfl, fun F => exec_firing F fun _ => rfl,
    fun F slot fired => ?_, fun F slot pinned limits => ?_, fun F full => ?_, fun F ended => ?_, fun clr => exec_mchk,
    fun F narrow clear => ?_, fun F refused => ?_⟩
  · simp only [exec_mload F slot port, check, fired, Bool.false_eq_true, if_false]
  · simp only [exec_mload F slot port, check, pinned, scale, armLoad, getLsbD_ofNat_lo64 v.a (show 63 < 64 by decide), own,
      Bool.false_eq_true, if_true, if_false]
  · simp only [exec_mload F slot port, check, pinned, scale, armLoad, getLsbD_ofNat_lo64 v.a (show 63 < 64 by decide), global, if_true]
    rfl
  · rw [exec_mload F slot port, bad]
  · simp only [exec_marm F, slot, fired, Bool.not_true, Bool.false_eq_true, if_false]
  · simp only [exec_marm F, slot, pinned, limits, Bool.not_true, Bool.false_eq_true, if_true, if_false]
  · rw [exec_marm F, full]
    rfl
  · exact (exec_firing F fun _ => rfl).trans (congrArg _ (if_pos ended))
  · rw [exec_mzero F, if_neg (not_or.2 ⟨Nat.not_le.2 narrow, not_not.2 clear⟩)]
  · rw [exec_mzero F, if_pos refused]

end Sys2Proof.Proofs

/-! ### Sealing instructions (R328 to R332) -/

namespace Sys2Proof.Machine

open Sys2Proof.Safety Sys2Proof.Laws

section
variable {s : State} {h : Head} {e : Env} {v : Vals} {ac : AC} {m : MemF}

/-- The interval that `rinr` answers, by its selector. -/
theorem exec_rinr {sel : BitVec 2} (F : Firing (.rinr h sel) s h e v) : exec (.rinr h sel) s = .next (e.result h
    (scalar (if sel = 0 then e.c.rin else if sel = 1 then s.sl.s else if hClassS e.p.hdr then e.p.saveRin else e.p.retention).toNat) s) := by
  refine (exec_firing F fun _ => rfl).trans (congrArg (fun r : Rin => Host.Outcome.next (e.result h (scalar r.toNat) s)) ?_)
  split
  · rfl
  · rfl
  · next current sealed => exact ((if_neg current).trans (if_neg sealed)).symm

theorem exec_sealpt (F : Firing (.sealpt h) s h e v) : exec (.sealpt h) s = .next
    (if hSaveVa e.p.hdr = 0 then e.raise { cause := 0x09 } s
    else e.capture h none .sealpt (some (scalar e.c.rin.toNat)) s) := (exec_firing F fun _ => rfl :)

theorem exec_sealw (F : Firing (.sealw h) s h e v) : exec (.sealw h) s = .next
    (if rinGe s.sl.s (BitVec.ofNat 32 (bitsOf v.a 0 32)) then e.result h (scalar s.sl.s.toNat) s else s) := (exec_firing F fun _ => rfl :)

/-- An escaping store whose pieces pass their checks is captured, irrevocable or not. -/
theorem stx_captured {irr : Bool} {ps : List GPiece}
    (pieces : globalPieces s e.cid e.p (if irr then .irr else .stx) (pieceBytes ac) (some m.lsid.toNat) (ac = .v)
      (contiguous ac (globalVa v.a m.ofs.toInt)) = .ok ps) : e.stx h irr ac m v s = e.capture h (some m.lsid.toNat)
      (.globalStore (ps.map fun p => (p.va, p.loc, contBytes ac v.b p.lane)) ac false true irr m.osc false) none s := by
  simp only [Env.stx, offsetOf, pieces]

end

end Sys2Proof.Machine

namespace Sys2Proof.Proofs

open Sys2Proof.Machine Sys2Proof.Safety Sys2Proof.Laws

/-- Settles O23: each instruction is its own arm, and a clause is a branch of it. -/
theorem sealingInstructions : Obligations.SealingInstructions := by
  unfold Obligations.SealingInstructions
  intro s h e v ac m
  refine ⟨fun sel => exec_rinr, fun F saves => ?_, fun F none' => ?_, fun F sealed => ?_, fun F open' => ?_,
    fun F => exec_firing F fun _ => rfl, fun r rs F noted sealed => ?_, fun F first => ?_,
    fun ps F pieces => (exec_firing F fun _ => rfl).trans (congrArg _ (stx_captured pieces)),
    fun ps F pieces => (exec_firing F fun _ => rfl).trans (congrArg _ (stx_captured pieces)),
    fun F free => (exec_firing F fun _ => rfl).trans (congrArg _ (if_pos free))⟩
  · rw [exec_sealpt F, if_neg saves]
  · rw [exec_sealpt F, if_pos none']
  · rw [exec_sealw F, if_pos sealed]
  · rw [exec_sealw F, open', if_neg Bool.false_ne_true]
  · have wait := exec_firing F fun _ => rfl
    simpa only [noted, sealwReady, sealed, if_true] using wait
  · have wait := exec_firing F fun _ => rfl
    simpa only [first] using wait

end Sys2Proof.Proofs

/-! ### Fences, barriers and waits on signals (R285, R287, R288, R294 to R299) -/

namespace Sys2Proof.Machine

open Sys2Proof.Safety Sys2Proof.Laws

/-- Waiters taken off: those that stay, and what is told to peers. -/
theorem delist_kept (s : State) (out : Waiter → Bool) :
    ∃ m, delist s out = { s with waiters := s.waiters.filter fun w => ! out w, peerOut := m } := by
  have waiters : (delist s out).waiters = s.waiters.filter fun w => ! out w := by
    refine foldl_keeps State.waiters (fun t w => ite_keeps State.waiters rfl ?_) _ _
    obtain ⟨m, hm⟩ := tellSignal_eq t w.lease w.line false
    rw [hm]
  obtain ⟨w, m, h⟩ := delist_eq s out
  rw [h] at waiters ⊢
  exact ⟨m, congrArg (fun w => { s with waiters := w, peerOut := m }) waiters⟩

/-- What a `waitm` whose signal meets its condition leaves: its own waiters on the line are gone and the core has heard the node. -/
def signalMet (s : State) (cid k lease : Nat) (l : Loc) : State :=
  heard (countRead (delist s fun w => w.core = some (cid, k) && w.line = lineKey l) lease l 8) cid l

theorem signalMet_keeps (s : State) (cid k lease : Nat) (l : Loc) : SameMemory s (signalMet s cid k lease l) ∧
    ∀ w ∈ (signalMet s cid k lease l).waiters, ¬ (w.core = some (cid, k) ∧ w.line = lineKey l) := by
  obtain ⟨m, kept⟩ := delist_kept s fun w => w.core = some (cid, k) && w.line = lineKey l
  unfold signalMet
  rw [kept]
  obtain ⟨o, i, counted⟩ := countRead_eq
    { s with waiters := s.waiters.filter fun w => ! (w.core = some (cid, k) && w.line = lineKey l), peerOut := m } lease l 8
  rw [counted]
  refine ⟨⟨rfl, rfl, rfl⟩, fun w hw own => ?_⟩
  have stays := (List.mem_filter.1 hw).2
  rw [decide_eq_true own.1, decide_eq_true own.2] at stays
  exact Bool.false_ne_true stays

/-- A fence that is ready releases, then acquires, as its form says (R287). -/
theorem fence_ready {s : State} {e : Env} {rel sc : Bool} {scope : Scope} (ready : fenceReady s e.cid rel sc scope = true) (h : Head)
    (acq : Bool) : e.fence h acq rel sc scope s =
      let t := if rel then release s e.cid (some scope) else s
      e.result h ack (if acq then acquire t e.cid (some scope) else t) := by
  simp only [Env.fence, ready, if_true]

section
variable {s : State} {h : Head} {e : Env} {v : Vals} {c : Cond} {osc : Option Scope}

theorem exec_arrive {lobj : Bool} {k : BitVec 6} {n : BitVec 16} (F : Firing (.arrive h lobj k n) s h e v) :
    exec (.arrive h lobj k n) s = .next (if ! barDeclared e.p lobj k.toNat ∨ maxParties e.p lobj < n.toNat then
      e.raise { cause := 0x06 } s else e.capture h none (.arrive lobj k.toNat n.toNat) none s) := (exec_firing F fun _ => rfl :)

theorem exec_waitm_met {l : Loc} {x : Nat} (F : Firing (.waitm h c osc) s h e v) (met : readSignal s e.cid e.p c v.a v.b = .met l x) :
    exec (.waitm h c osc) s = .next (e.result h (scalar x)
      (acquire (signalMet (signalState s e.cid (bitsOf v.a 0 48) l) e.cid e.slotK e.lease l) e.cid osc)) := by
  have wait := exec_firing F fun _ => rfl
  simp only [met] at wait
  exact wait

theorem exec_waitm_bad {x : Cause} (F : Firing (.waitm h c osc) s h e v) (bad : readSignal s e.cid e.p c v.a v.b = .bad x) :
    exec (.waitm h c osc) s = .next (e.raise x s) := by
  have wait := exec_firing F fun _ => rfl
  simpa only [bad] using wait

end

end Sys2Proof.Machine

namespace Sys2Proof.Proofs

open Sys2Proof.Machine Sys2Proof.Safety Sys2Proof.Laws

/-- Settles O24: each instruction is its own arm, and a clause is a branch of it. -/
theorem synchronisingInstructions : Obligations.SynchronisingInstructions := by
  unfold Obligations.SynchronisingInstructions
  intro s h e v sc
  refine ⟨fun F ready => (exec_firing F fun _ => rfl).trans (congrArg _ (fence_ready ready h true)),
    fun F ready => (exec_firing F fun _ => rfl).trans (congrArg _ (fence_ready ready h false)),
    fun F ready => (exec_firing F fun _ => rfl).trans (congrArg _ (fence_ready ready h true)),
    fun F ready => (exec_firing F fun _ => rfl).trans (congrArg _ (fence_ready ready h true)), fun lobj k n F declared parties => ?_,
    fun lobj k n F undeclared => ?_, fun lobj k F declared past => ?_, fun F room => ?_,
    fun c osc l x F met => ⟨_, exec_waitm_met F met, signalMet_keeps _ _ _ _ _⟩, fun c osc x F => exec_waitm_bad F⟩
  · rw [exec_arrive F, declared, if_neg (by simpa using parties)]
  · rw [exec_arrive F, undeclared, if_pos (.inl rfl)]
  · have wait := exec_firing F fun _ => rfl
    simpa only [declared, past, Bool.not_true, Bool.false_eq_true, if_false, if_true] using wait
  · exact (exec_firing F fun _ => rfl).trans (congrArg _ (if_pos room))

end Sys2Proof.Proofs

/-! # The undo log and the device's reads (R290, R303 to R308, R325, R326, R365, R366) -/

/-! ### An undo entry replayed (R303 to R305, R326) -/

namespace Sys2Proof.Machine

open Sys2Proof.Safety

/-! #### Bytes of a line -/

theorem natBytes_bytesNat (bs : List Byte) : natBytes bs.length (bytesNat bs) = bs := by
  induction bs with
  | nil => rfl
  | cons b bs ih =>
    have low : BitVec.ofNat 8 (b.toNat + 256 * bytesNat bs) = b := BitVec.eq_of_toNat_eq (by
      rw [BitVec.toNat_ofNat]
      omega)
    have high : (b.toNat + 256 * bytesNat bs) / 256 = bytesNat bs := by omega
    rw [bytesNat, List.length_cons, natBytes, low, high, ih]

theorem bytesNat_lt (bs : List Byte) : bytesNat bs < 2 ^ (8 * bs.length) := by
  induction bs with
  | nil => exact Nat.one_pos
  | cons b bs ih =>
    rw [bytesNat, List.length_cons, Nat.mul_succ, pow_add]
    omega

/-- The bytes of a line's value. -/
theorem valueBytes_bytesValue {bs : List Byte} (whole : bs.length = 64) : valueBytes (bytesValue bs) = bs := by
  have small : bytesNat bs < 2 ^ (8 * 64) := whole ▸ bytesNat_lt bs
  rw [valueBytes, bytesValue, BitVec.toNat_ofNat, Nat.mod_eq_of_lt small, ← whole, natBytes_bytesNat]

theorem Memory.length_read (m : Memory) (a n : Nat) : (m.read a n).length = n := by
  induction n generalizing a with
  | zero => rfl
  | succ n ih => rw [Memory.read, List.length_cons, ih]

theorem Memory.get_eq_of_read_eq {m m' : Memory} {a n i : Nat} (h : m'.read a n = m.read a n) (hi : i < n) : m'.get (a + i) = m.get (a + i) := by
  induction n generalizing a i with
  | zero => omega
  | succ n ih =>
    obtain ⟨first, rest⟩ := List.cons.inj h
    cases i with
    | zero => exact first
    | succ i =>
      rw [Nat.add_comm i 1, ← Nat.add_assoc]
      exact ih rest (by omega)

/-- Where two memories agree outside a range, the range of one written into the other gives it back whole. -/
theorem Memory.get_write_read {m m' : Memory} {a n : Nat} (wf : m'.wf = true) (outside : ∀ c, c < a ∨ a + n ≤ c → m'.get c = m.get c)
    (c : Nat) : (m'.write a (m.read a n)).get c = m.get c := by
  have len : (m.read a n).length = n := Memory.length_read m a n
  by_cases inside : a ≤ c ∧ c < a + n
  · have back : (m'.write a (m.read a n)).read a n = m.read a n := by
      have written := Memory.read_write (m.read a n) m' a wf
      rwa [len] at written
    have byte := Memory.get_eq_of_read_eq (i := c - a) back (by omega)
    rwa [Nat.add_sub_cancel' inside.1] at byte
  · have away : c < a ∨ a + n ≤ c := by omega
    rw [Memory.get_write_other _ _ _ _ (by rwa [len]), outside c away]

/-! #### The entry of a first write -/

/-- An entry that holds a line as it is before a store of interval r (R305). -/
structure Logged (s : State) (pa : Nat) (r : Rin) (u : Undo) : Prop where
  rin : u.rin = r
  bad : u.bad = false
  line : u.pa = pa / 64 * 64
  data : u.data = s.mem.line (pa / 64 * 64)
  tag : u.otag = s.lineTag pa
  poison : u.poison = s.poison.contains (pa / 64)

/-- The first write of an interval to a line of a recoverable page logs the line and sets its tag (R303 to R305). -/
theorem logLine_logs {s : State} {pa : Nat} {r : Rin} (needs : needsUndo s pa true r = true) :
    ∃ u, Logged s pa r u ∧ (logLine s pa true r).undo = u :: s.undo ∧
      (logLine s pa true r).lineTags = tset s.lineTags (pa / 64) (tagOf r) := by
  obtain ⟨o, charged⟩ := chargePa_eq s pa 128
  rw [logLine, if_pos needs, charged]
  refine ⟨_, ?_, rfl, rfl⟩
  exact { rin := rfl, bad := rfl, line := rfl, data := rfl, tag := rfl, poison := rfl }

/-- What a write does to the undo log and the tags is what logging its line does. -/
theorem devWrite_log (s : State) (pa : Nat) (bs : List Byte) (recov : Bool) (r : Rin) :
    (devWrite s pa bs recov r).undo = (logLine s pa recov r).undo ∧ (devWrite s pa bs recov r).lineTags = (logLine s pa recov r).lineTags := by
  obtain ⟨x, early⟩ := earlySeal_eq (logLine s pa recov r) (ctrlOf pa)
  obtain ⟨o, metered⟩ := chargePa_eq { logLine s pa recov r with sl := x } pa bs.length
  rw [devWrite, early, metered]
  exact ⟨rfl, rfl⟩

theorem replayUndo_mem (s : State) (u : Undo) : (replayUndo s u).mem = s.mem.write u.pa (valueBytes u.data) := by
  simp only [replayUndo]

section
variable {s t : State} {pa : Nat} {r : Rin} {u : Undo} (logged : Logged s pa r u)
include logged

theorem replayUndo_get (wf : t.mem.wf = true) (outside : ∀ c, c < pa / 64 * 64 ∨ pa / 64 * 64 + 64 ≤ c → t.mem.get c = s.mem.get c) (a : Nat) :
    (replayUndo t u).mem.get a = s.mem.get a := by
  have bytes : valueBytes u.data = s.mem.read (pa / 64 * 64) 64 := by
    rw [logged.data, Memory.line, valueBytes_bytesValue (Memory.length_read _ _ _)]
  rw [replayUndo_mem, logged.line, bytes]
  exact Memory.get_write_read wf outside a

theorem replayUndo_lineTag : (replayUndo t u).lineTag pa = s.lineTag pa := by
  have line : u.pa / 64 = pa / 64 := by rw [logged.line, Nat.mul_div_cancel _ (by decide)]
  simp only [State.lineTag, replayUndo, line]
  split
  · next untagged => rw [tgetD, tfind_terase_same, Option.getD_none, ← State.lineTag, ← logged.tag, untagged]
  · rw [tgetD_tset_same, logged.tag, State.lineTag]

theorem replayUndo_poison : (replayUndo t u).poison.contains (pa / 64) = s.poison.contains (pa / 64) := by
  have line : u.pa / 64 = pa / 64 := by rw [logged.line, Nat.mul_div_cancel _ (by decide)]
  simp only [replayUndo, line, logged.poison]
  cases s.poison.contains (pa / 64) with
  | true => simp
  | false => simp

end

end Sys2Proof.Machine

namespace Sys2Proof.Proofs

open Sys2Proof.Machine Sys2Proof.Safety

/-- Settles O41: the write stays within the line that its entry holds, so that the line written back leaves no trace of it. -/
theorem undoRestores : Obligations.UndoRestores := by
  unfold Obligations.UndoRestores
  intro s pa bs r wf within needs
  obtain ⟨u, logged, undo, tags⟩ := logLine_logs needs
  obtain ⟨undo', tags'⟩ := devWrite_log s pa bs true r
  obtain ⟨mem, -⟩ := devWrite_keeps s pa bs true r
  refine ⟨u, undo'.trans undo, logged.rin, logged.bad, ?_, replayUndo_get logged ?_ fun c away => ?_, replayUndo_lineTag logged, replayUndo_poison logged⟩
  · rw [State.lineTag, tags', tags, tgetD_tset_same]
  · rw [mem]
    exact Memory.write_wf bs pa wf
  · rw [mem, Memory.get_write_other _ _ _ _ (by omega)]

end Sys2Proof.Proofs

/-! ### Snapshot slots and the host window (R290, R325, R365, R366) -/

namespace Sys2Proof.Machine

open Sys2Proof.Safety

/-! #### Snapshot slots -/

theorem State.snap_modFn (s : State) (fn j : Nat) (g : Func → Snap) :
    ((s.modFn fn fun f => { f with snaps := tset f.snaps j (g f) }).fn fn).snap j = g (s.fn fn) := by
  rw [State.fn_modFn_same]
  exact tgetD_tset_same _ _ _ _

section
variable (s : State) (fn j : Nat)

/-- A LO read latches the slot's value (R366). -/
theorem exec_snapshotLoRead : ∃ t, exec (.snapshotLoRead fn j) s = .next t ∧
    t.readback = BitVec.ofNat 512 ((slotValue s fn j).toNat % 2 ^ 32) ∧ ((t.fn fn).snap j).flag = true ∧
    ((t.fn fn).snap j).latch = slotValue s fn j := by
  have slot := State.snap_modFn s fn j fun f => { f.snap j with latch := slotValue s fn j, flag := true }
  exact ⟨_, rfl, rfl, congrArg Snap.flag slot, congrArg Snap.latch slot⟩

/-- A HI read gives the upper word of what a LO read latched, once, else of the present value (R366). -/
theorem exec_snapshotHiRead : ∃ t, exec (.snapshotHiRead fn j) s = .next t ∧ t.readback = BitVec.ofNat 512
      ((if ((s.fn fn).snap j).flag then ((s.fn fn).snap j).latch else slotValue s fn j).toNat / 2 ^ 32) ∧
    ((t.fn fn).snap j).flag = false := by
  exact ⟨_, rfl, rfl, congrArg Snap.flag (State.snap_modFn s fn j fun _ => { (s.fn fn).snap j with flag := false })⟩

end

/-! #### The host window -/

section
variable {s t : State} {fn l pa off : Nat} {L : Lease}

theorem windowAt_of (win : (s.fn fn).win = some (l, pa)) (lease : s.lease l = some L) (i : Nat) :
    windowAt s fn i = (hbmPhys L (pa + i)).map fun q => (l, L, q) := by
  rw [windowAt, win, Option.bind_some, lease, Option.bind_some]

theorem windowAt_congr (funcs : t.funcs = s.funcs) (leases : t.leases = s.leases) (i : Nat) : windowAt t fn i = windowAt s fn i := by
  simp only [windowAt, State.fn, State.lease, funcs, leases]

/-- Eight aligned bytes are one piece. -/
theorem byteCuts_one {bs : List Byte} (len : bs.length = 8) (aligned : off % 8 = 0) : byteCuts (bs.length + 1) off bs = [(off, bs)] := by
  have some' : bs.isEmpty = false := by
    rw [List.isEmpty_eq_false_iff, ← List.length_pos_iff]
    omega
  have all : bs.take 8 = bs := List.take_of_length_le len.le
  have none' : bs.drop 8 = [] := List.drop_of_length_le len.le
  rw [byteCuts, some', aligned, Nat.sub_zero, all, none', len]
  rfl

/-- An aligned write of eight bytes where nothing waits and there is room for its undo entry: the bytes are in device memory, and the window
reaches what it reached. -/
theorem exec_hostWindowWrite_eight {bs : List Byte} {q : Nat} (none' : NonePosted s fn) (len : bs.length = 8) (aligned : off % 8 = 0)
    (here : windowAt s fn off = some (l, L, q)) (room : undoStalls s q (recoverable L q) s.sl.cur = false) :
    ∃ t, exec (.hostWindowWrite fn off bs) s = .next t ∧ t.mem = s.mem.write q bs ∧ ∀ i, windowAt t fn i = windowAt s fn i := by
  have pieces := byteCuts_one len aligned
  have free : windowFull s fn off bs = false := by
    simp only [windowFull, pieces, List.any_cons, List.any_nil, windowStalls, here, room, Bool.or_false]
  have written : exec (.hostWindowWrite fn off bs) s =
      .next (windowWhole fn off bs.length (devWrite s q bs (recoverable L q) s.sl.cur)) := by
    refine congrArg Host.Outcome.next ((inOrder_nonePosted none' _ _).trans ?_)
    simp only [hostPut, free, Bool.false_eq_true, if_false, windowWrite, pieces, List.foldl_cons, List.foldl_nil, windowPut, here]
  obtain ⟨mem, -, -, leases, funcs, -⟩ := devWrite_keeps s q bs (recoverable L q) s.sl.cur
  exact ⟨_, written, mem, windowAt_congr funcs leases⟩

/-- A window read of one byte. -/
theorem exec_hostWindowRead_byte (s : State) (fn off : Nat) : ∃ u, exec (.hostWindowRead fn off 1) s = .next u ∧
    u.readback = BitVec.ofNat 512 (match windowAt s fn off with
      | some w => s.mem.get w.2.2
      | none => 0xFF#8).toNat := by
  refine ⟨_, rfl, congrArg (BitVec.ofNat 512) ?_⟩
  show bytesNat [match windowAt s fn off with
    | some (_, _, pa) => s.mem.get pa
    | none => 0xFF#8] = _
  rw [bytesNat, bytesNat, Nat.mul_zero, Nat.add_zero]
  cases windowAt s fn off <;> rfl

end

end Sys2Proof.Machine

namespace Sys2Proof.Proofs

open Sys2Proof.Machine Sys2Proof.Safety

/-- Settles O28: a latched value lies in its function's slot alone, and the window's bytes in device memory. -/
theorem deviceReads : Obligations.DeviceReads := by
  unfold Obligations.DeviceReads
  refine ⟨fun s fn j => ?_, fun s fn l pa off L wf win lease => ⟨fun bs none' len aligned q here room => ?_, fun beyond => ?_,
    fun n => ⟨rfl, rfl, rfl⟩⟩⟩
  · obtain ⟨t, ht, low, flag, latch⟩ := exec_snapshotLoRead s fn j
    refine ⟨t, ht, low, fun t' same => ?_⟩
    obtain ⟨u, hu, high, taken⟩ := exec_snapshotHiRead t' fn j
    rw [same, flag, latch, if_pos rfl] at high
    obtain ⟨w, hw, present, -⟩ := exec_snapshotHiRead u fn j
    rw [taken, if_neg Bool.false_ne_true] at present
    exact ⟨u, hu, high, w, hw, present⟩
  · have reached : windowAt s fn off = some (l, L, q) := by rw [windowAt_of win lease, here, Option.map_some]
    obtain ⟨t, ht, mem, window⟩ := exec_hostWindowWrite_eight none' len aligned reached room
    obtain ⟨u, hu, byte⟩ := exec_hostWindowRead_byte t fn off
    have bytes : t.mem.read q 8 = bs := by rw [mem, ← len, Memory.read_write bs _ _ wf]
    refine ⟨t, u, ht, bytes, hu, ?_⟩
    rw [byte, window, reached, ← bytes]
    rfl
  · obtain ⟨u, hu, byte⟩ := exec_hostWindowRead_byte s fn off
    rw [windowAt_of win lease, beyond, Option.map_none] at byte
    exact ⟨u, hu, byte⟩

end Sys2Proof.Proofs

/-! # Mailbox commands on a lease (R337, R341, R359, R364, R371, R372, R377, R378, R383) -/

/-! ### Who may command (R371, R372) -/

namespace Sys2Proof.Machine

open Sys2Proof.Safety

section
variable {s : State} {fn : Nat}

theorem answer_fn_same (s : State) (fn status : Nat) (result : List Byte) : (answer s fn status result).fn fn =
    { s.fn fn with rsp := bytesValue ((num 8 status ++ result).take 64), done := true, busy := false, shoot := none } :=
  State.fn_modFn_same s fn _

theorem answer_done (s : State) (fn status : Nat) (result : List Byte) : ((answer s fn status result).fn fn).done = true := by
  rw [answer_fn_same]

theorem answer_lease (s : State) (fn status : Nat) (result : List Byte) (l : Nat) : (answer s fn status result).lease l = s.lease l := rfl

/-- A command on a lease that its function does not hold, or that is not granted, is answered PERM. -/
theorem onLease_denied {code : Nat} {a : CmdArgs} (cmd : serving s code = some (fn, a)) (vf : fn ≠ 0)
    (other : ∀ L, s.lease (cmdLease s fn) = some L → L.vf ≠ fn ∨ L.st ≠ .granted ∧ (L.st ≠ .rinsing ∨ L.want = none))
    (body : Nat → Nat → Lease → CmdArgs → State) : onLease s code body = answer s fn 2 [] := by
  have none' : (s.lease (cmdLease s fn)).filter
      (fun L => (fn = 0 || L.vf = fn) && (L.st = .granted || (L.st = .rinsing && L.want.isSome))) = none := by
    refine Option.filter_eq_none_iff.2 fun L lease held => ?_
    simp only [vf, decide_false, Bool.false_or, Bool.and_eq_true, Bool.or_eq_true, decide_eq_true_eq, Option.isSome_iff_ne_none] at held
    obtain ⟨own, granted | ⟨rinsing, want⟩⟩ := held
    · exact (other L lease).elim (· own) fun h => h.1 granted
    · exact (other L lease).elim (· own) fun h => h.2.elim (· rinsing) want
  simp only [onLease, cmd, none']

theorem pfOnly_denied {code : Nat} {a : CmdArgs} (cmd : serving s code = some (fn, a)) (vf : fn ≠ 0) (body : Nat → CmdArgs → State) :
    pfOnly s code body = answer s fn 2 [] := by
  simp only [pfOnly, cmd, vf, if_false]

end

end Sys2Proof.Machine

namespace Sys2Proof.Proofs

open Sys2Proof.Machine Sys2Proof.Safety

/-- Each command of the list checks that its function holds the lease. -/
theorem exec_leaseCommand (s : State) : ∀ c ∈ leaseCommands, ∃ body, exec c.1 s = .next (onLease s c.2 body) := by
  intro c listed
  unfold leaseCommands at listed
  fin_cases listed <;> exact ⟨_, rfl⟩

/-- Each command of the PF is denied to a VF, PAIR and LMIGRATE before they look at their lease. -/
theorem exec_pfCommand {s : State} {fn : Nat} {a : CmdArgs} (vf : fn ≠ 0) :
    ∀ c ∈ pfCommands, serving s c.2 = some (fn, a) → exec c.1 s = .next (answer s fn 2 []) := by
  simp only [pfCommands, List.forall_mem_cons]
  refine ⟨fun cmd => ?qconf, fun cmd => ?vfconf, fun cmd => ?pair, fun cmd => ?lmigrate, fun cmd => ?domain, fun cmd => ?dremove,
    fun cmd => ?owner, fun cmd => ?pwrcap, fun _ none' => absurd none' List.not_mem_nil⟩
  case pair =>
    show execPair s = _
    simp only [execPair, cmd, ne_eq, vf, not_false_eq_true, if_true]
  case lmigrate =>
    show execLmigrate s = _
    simp only [execLmigrate, cmd, ne_eq, vf, not_false_eq_true, if_true]
  all_goals exact congrArg Host.Outcome.next (pfOnly_denied cmd vf _)

/-- Settles O35: the check of the lease, or of the PF, comes before all else that a command does. -/
theorem commandPermissions : Obligations.CommandPermissions := by
  unfold Obligations.CommandPermissions
  intro s i code fn a cmd vf
  refine ⟨fun listed other => ?_, fun listed => exec_pfCommand vf (i, code) listed cmd, fun st r => ⟨answer_done s fn st r, ?_, fun g away => ?_⟩⟩
  · obtain ⟨body, runs⟩ := exec_leaseCommand s (i, code) listed
    rw [runs, onLease_denied cmd vf other]
  · rw [answer_fn_same]
  · exact State.fn_modFn_other s fn g _ away

end Sys2Proof.Proofs

/-! ### Debugging, profiling, peers, the window, reports -/

namespace Sys2Proof.Machine

open Sys2Proof.Safety

/-! #### The measurements and what output writes -/

theorem logLine_trust (s : State) (pa : Nat) (recov : Bool) (r : Rin) : (logLine s pa recov r).trust = s.trust := by
  obtain ⟨o, charged⟩ := chargePa_eq s pa 128
  rw [logLine, charged]
  exact ite_keeps State.trust rfl rfl

theorem devWrite_trust (s : State) (pa : Nat) (bs : List Byte) (recov : Bool) (r : Rin) : (devWrite s pa bs recov r).trust = s.trust := by
  obtain ⟨x, early⟩ := earlySeal_eq (logLine s pa recov r) (ctrlOf pa)
  obtain ⟨o, metered⟩ := chargePa_eq { logLine s pa recov r with sl := x } pa bs.length
  rw [devWrite, early, metered]
  exact logLine_trust s pa recov r

theorem nodeWrite_trust (s : State) (l : Loc) (bs : List Byte) (r : Rin) : (nodeWrite s l bs r).trust = s.trust := by
  have saw : (nodeSaw s l r).trust = s.trust := ite_keeps State.trust rfl rfl
  cases l with
  | dev pa recov => exact (devWrite_trust _ _ _ _ _).trans saw
  | peer d a | host a | ext d a => exact saw

theorem putVa_trust (s : State) (cid lease va : Nat) (bs : List Byte) (r : Rin) : (putVa s cid lease va bs r).trust = s.trust := by
  refine foldl_keeps State.trust (fun t p => ?_) _ s
  split
  · exact nodeWrite_trust _ _ _ _
  · rfl

/-! #### Debug stops ended, peers bound -/

/-- What DRESUME does to a patch of a lease (R341). -/
def Patch.debugGo (l : Nat) (p : Patch) : Patch :=
  if p.lease != l then p
  else if p.st = .debugStop then { p with st := .running, idle := 0 }
  else if (p.st = .evicted || p.st = .saving) && p.was = .debugStop then { p with was := .running }
  else p

theorem Patch.debugGo_stopped {l : Nat} {p : Patch} (lease : p.lease = l) (stopped : p.st = .debugStop) :
    p.debugGo l = { p with st := .running, idle := 0 } := by
  simp only [Patch.debugGo, lease, stopped, bne_self_eq_false, Bool.false_eq_true, if_true, if_false]

theorem Patch.debugGo_away {l : Nat} {p : Patch} (lease : p.lease = l) (away : p.st = .evicted ∨ p.st = .saving) (was : p.was = .debugStop) :
    p.debugGo l = { p with was := .running } := by
  have other : p.st ≠ .debugStop := by rintro stopped; simp [stopped] at away
  simp only [Patch.debugGo, lease, other, was, bne_self_eq_false, Bool.false_eq_true, if_false]
  rw [if_pos (by simpa using away)]

/-- Whether a binding is that of an out-channel. -/
def PeerBind.at (px py out : Nat) (b : PeerBind) : Bool := b.px = px && b.py = py && b.out = out

theorem PeerBind.at_iff {px py out : Nat} {b : PeerBind} : b.at px py out = true ↔ b.px = px ∧ b.py = py ∧ b.out = out := by
  simp only [PeerBind.at, Bool.and_eq_true, decide_eq_true_eq, and_assoc]

/-- Of a list from which an out-channel's bindings are taken, the one put there anew is the only one. -/
theorem length_rebound {px py out : Nat} {bs : List PeerBind} {b : PeerBind} (own : b.at px py out = true) :
    (((bs.filter fun b => ! b.at px py out) ++ [b]).filter (·.at px py out)).length = 1 := by
  have none' : ((bs.filter fun b => ! b.at px py out).filter (·.at px py out)) = [] := by
    simp [List.filter_filter]
  rw [List.filter_append, none', List.filter_cons_of_pos own]
  rfl

end Sys2Proof.Machine

namespace Sys2Proof.Proofs

open Sys2Proof.Machine Sys2Proof.Safety

section
variable {s : State} {fn l : Nat} {L : Lease}

theorem exec_debug {on : Bool} (S : Served s 5 fn l L (.debug on)) : exec .debug s = .next
    (if fn ≠ 0 ∧ ! (s.fn fn).perms.getLsbD 6 then answer s fn 2 []
    else answer (s.modLease l fun L => { L with debug := on }) fn 0 []) := congrArg Host.Outcome.next (onLease_served S _)

/-- DRESUME does to each patch what it does to one (R341). -/
theorem exec_dresume (S : Served s 6 fn l L .dresume) : ∃ t, exec .dresume s = .next t ∧ (t.fn fn).done = true ∧
    ∀ n p, s.patch n = some p → t.patch n = some (p.debugGo l) := by
  refine ⟨_, congrArg Host.Outcome.next (onLease_served S _), answer_done _ fn 0 [], fun n p here => ?_⟩
  have found := tfind_tmap (fun _ => Patch.debugGo l) s.patches n
  rw [← State.patch, here] at found
  exact found

theorem exec_profopen {va size : Nat} (S : Served s 7 fn l L (.profopen va size)) (some' : 0 < size) (fits : va + size ≤ 2 ^ 48)
    (volatile : stripMapped s l va size (fun x e => peW e && match x with | .dev _ r => ! r | _ => false) = true) : exec .profopen s =
      .next (answer (s.modLease l fun L => { L with prof := some { va := va, size := size, next := 0, lost := 0 } }) fn 0 []) := by
  refine congrArg Host.Outcome.next ((onLease_served S _).trans (if_pos ?_))
  rw [decide_eq_true some', decide_eq_true fits]
  exact volatile

theorem exec_peerbind {px py out device rl rx ry rin port : Nat} (S : Served s 9 fn l L (.peerbind px py out device rl rx ry rin))
    (routed : tfind s.sl.routes device = some port) (rests : peerMoving s l px py = false) (channel : peerChannel s l px py out = true)
    (hin : rin < 16) (room : L.binds.length < 256) : ∃ t N, exec .peerbind s = .next t ∧ t.lease l = some N ∧
      N.binds = (L.binds.filter fun b => ! b.at px py out) ++ [PeerBind.mk px py out device rl rx ry rin port] := by
  have fewer : ¬ 256 ≤ (L.binds.filter fun b => ! (b.px = px && b.py = py && b.out = out)).length :=
    Nat.not_le.2 ((List.length_filter_le _ _).trans_lt room)
  refine ⟨_, _, congrArg Host.Outcome.next ((onLease_served S _).trans ?_),
    (answer_lease _ fn 0 [] l).trans (State.lease_modLease_some S.lease fun N => { N with
      binds := (L.binds.filter fun b => ! b.at px py out) ++ [PeerBind.mk px py out device rl rx ry rin port] }), rfl⟩
  simp only [routed, rests, channel, Nat.not_le.2 hin, fewer, Bool.not_true, Bool.false_eq_true, or_self, if_false]
  rfl

theorem exec_peerunbind {px py out : Nat} (S : Served s 10 fn l L (.peerunbind px py out)) : ∃ t N, exec .peerunbind s = .next t ∧
    t.lease l = some N ∧ N.binds = L.binds.filter fun b => ! b.at px py out :=
  ⟨_, _, congrArg Host.Outcome.next (onLease_served S _), (answer_lease _ fn 0 [] l).trans (State.lease_modLease_some S.lease _), rfl⟩

theorem exec_pair {device rl rg : Nat} (S : Served s 34 0 l L (.pair device rl rg)) (routed : tfind s.sl.routes device ≠ none) :
    exec .pair s = .next (answer (s.modLease l fun L => { L with pair := some (device, rl, BitVec.ofNat 8 rg) }) 0 0 []) := by
  have known : (tfind s.sl.routes device).isNone = false := by simpa [Option.isSome_iff_ne_none] using routed
  show execPair s = _
  simp only [execPair, S.cmd, onLease_served S, known, ne_eq, not_true, Bool.false_eq_true, if_false]

theorem exec_window {pa : Nat} (S : Served s 11 fn l L (.window pa)) : exec .window s = .next
    (if pa % 65536 = 0 then answer (s.modFn fn fun f => { f with win := some (l, pa) }) fn 0 [] else answer s fn 3 []) :=
  congrArg Host.Outcome.next (onLease_served S _)

/-- A report that its function may ask for and whose output has its place is counted (R359). -/
theorem exec_report {o va : Nat} {nonce : List Byte} (S : Served s 13 fn l L (.report o va nonce)) (asks : fn = 0 ∨ (s.fn fn).owner = o)
    (place : outputOk s l va (meterReport s o nonce).length = true) (room : rangeStalls s l va (meterReport s o nonce).length = false) :
    ∃ u, exec .report s = .next { answer u fn 0 [] with trust := { s.trust with reports := s.trust.reports + 1 } } := by
  have may : ¬ (fn ≠ 0 ∧ (s.fn fn).owner ≠ o) := fun h => asks.elim h.1 h.2
  have trust := putVa_trust s stripCid l va (meterReport s o nonce) s.sl.cur
  refine ⟨putVa s stripCid l va (meterReport s o nonce) s.sl.cur, congrArg Host.Outcome.next ((onLease_served S _).trans ?_)⟩
  simp only [may, place, room, answerAt, answer, State.modFn_trust, trust, Bool.not_true, Bool.not_false, Bool.and_self, Bool.false_eq_true,
    if_true, if_false]

end

/-- Settles O37: each command is served, and what it answers is a branch of it. -/
theorem leaseCommands : Obligations.LeaseCommands := by
  unfold Obligations.LeaseCommands
  intro s fn l L
  refine ⟨fun on S may => ?_, fun on S vf denied => ?_, fun S => ?_, fun va size => exec_profopen, fun S => congrArg Host.Outcome.next (onLease_served S _),
    fun px py out device rl rx ry rin port S routed rests channel hin room => ?_, fun px py out S => ?_, fun device rl rg => exec_pair,
    fun pa S aligned => ?_, fun pa S odd => ?_, fun va S => congrArg Host.Outcome.next (onLease_served S _),
    fun o va nonce S asks place room => ?_, fun va nonce S => congrArg Host.Outcome.next (onLease_served S _)⟩
  · refine (exec_debug S).trans (congrArg _ (if_neg fun refused => ?_))
    obtain ⟨vf, denied⟩ := refused
    exact may.elim vf fun perm => by rw [perm] at denied; exact Bool.false_ne_true denied
  · rw [exec_debug S, if_pos ⟨vf, by rw [denied]; rfl⟩]
  · obtain ⟨t, ht, done, goes⟩ := exec_dresume S
    refine ⟨t, ht, done, fun n p here lease stopped => ?_, fun n p here lease away was => ?_⟩
    · rw [goes n p here, Patch.debugGo_stopped lease stopped]
    · rw [goes n p here, Patch.debugGo_away lease away was]
  · obtain ⟨t, N, ht, lease, binds⟩ := exec_peerbind S routed rests channel hin room
    refine ⟨t, N, ht, lease, ?_, ?_⟩
    · rw [binds]
      exact List.mem_append_right _ List.mem_cons_self
    · rw [binds]
      exact length_rebound (PeerBind.at_iff.2 ⟨rfl, rfl, rfl⟩)
  · obtain ⟨t, N, ht, lease, binds⟩ := exec_peerunbind S
    refine ⟨t, N, ht, lease, fun b => ?_⟩
    rw [binds, List.mem_filter, Bool.not_eq_true', ← Bool.not_eq_true, PeerBind.at_iff]
  · rw [exec_window S, if_pos aligned]
  · rw [exec_window S, if_neg odd]
  · obtain ⟨u, reported⟩ := exec_report S asks place room
    exact ⟨_, reported, rfl, answer_done u fn 0 []⟩

end Sys2Proof.Proofs

/-! # The seal protocol, the state after a reset, and the form that every step keeps (R288, R301, R309 to R312, R316, R346, R388) -/

/-! ### What messages do (R309, R311, R316) -/

namespace Sys2Proof.Machine

open Sys2Proof.Safety

/-! #### The interval timer -/

theorem setTimer_none {s : State} (unset : s.timerIn = none) : setTimer s = s := by
  rw [setTimer, unset]

/-- A value that the PF sets is taken, and within the limits of R316 becomes the interval. -/
theorem setTimer_some {s : State} {n : Nat} (set' : s.timerIn = some n) : (setTimer s).timerIn = none ∧
    (setTimer s).sl.timer = if 250000 ≤ n ∧ n ≤ 100000000 then n else s.sl.timer := by
  simp only [setTimer, set']
  split <;> exact ⟨rfl, rfl⟩

/-- The ADVANCE of the next interval, sent by the coordinator. -/
def sendAdvance (s : State) : State :=
  broadcast { s with sl := { s.sl with requested := false, lastAdvance := s.time } } 1 (s.sl.cur + 1)

/-! #### Freezing, marks -/

/-- Patches that can all be stopped are, the operation is carried out, and they go on. -/
theorem placerStep_due {s : State} {key : Instr × Nat} {ps : List (Nat × Patch)}
    (due : ∀ e ∈ ps, placerBusy s key e.2.lease = false ∧ placerStops s e.1 e.2 = true) (go : State → State) :
    placerStep s key ps go = ps.foldl (fun s e => endStop s e.1) (go s) := by
  have busy : (ps.any fun e => placerBusy s key e.2.lease) = false :=
    List.any_eq_false.2 fun e he => by rw [(due e he).1]; exact Bool.false_ne_true
  have stops : (ps.all fun e => placerStops s e.1 e.2) = true := List.all_eq_true.2 fun e he => (due e he).2
  rw [placerStep, busy, stops, if_neg Bool.false_ne_true, if_pos rfl]

/-- The end of a placer's stop leaves the protocol's state and the ports alone. -/
theorem foldl_endStop_seal (ps : List (Nat × Patch)) (s : State) :
    (ps.foldl (fun s e => endStop s e.1) s).sl = s.sl ∧ (ps.foldl (fun s e => endStop s e.1) s).ports = s.ports := by
  have one : ∀ (t : State) (e : Nat × Patch), ((endStop t e.1).sl, (endStop t e.1).ports) = (t.sl, t.ports) := fun t e =>
    (forCores_keeps (fun t : State => (t.sl, t.ports)) (fun _ _ => by rfl) _ e.1).trans rfl
  exact Prod.mk.inj (foldl_keeps (fun t : State => (t.sl, t.ports)) one ps s)

theorem foldl_sent {p : Nat} {n : Rin} (l : List Nat) {s : State} (marked : p ∈ l ∨ (tgetD s.ports p {}).sent = n) :
    (tgetD (l.foldl (fun s p => { s with ports := tmod s.ports p {} fun q => { q with sent := n } }) s).ports p {}).sent = n := by
  induction l generalizing s with
  | nil => exact marked.resolve_left List.not_mem_nil
  | cons q l ih =>
    obtain ⟨same, other⟩ := tgetD_tmod s.ports q {} fun x => { x with sent := n }
    refine ih ?_
    by_cases here : p = q
    · subst here
      exact .inr (congrArg Port.sent same)
    · refine marked.imp (fun mem => (List.mem_cons.1 mem).resolve_left here) fun sent => ?_
      exact (congrArg Port.sent (other p here)).trans sent

/-- The end of an interval (R309 step 1): the next is current, the last one's seal is open, and its mark has gone out on every port. -/
theorem beginInterval_seal (s : State) (n m : Rin) : (beginInterval s n m).sl.cur = m ∧ (beginInterval s n m).sl.sealing = some n ∧
    (beginInterval s n m).sl.readySent = false ∧ ∀ p < 18, (tgetD (beginInterval s n m).ports p {}).sent = n := by
  simp only [beginInterval, sweptTags, sendMarks, true_and]
  exact fun p hp => foldl_sent (List.range 18) (.inl (List.mem_range.2 hp))

end Sys2Proof.Machine

namespace Sys2Proof.Proofs

open Sys2Proof.Machine Sys2Proof.Safety

section
variable {s g : State} {m : SealMsg}

/-- The coordinator's timer, or a request once 250 µs have passed, brings ADVANCE. -/
theorem exec_intervalTimer_advances (unset : s.timerIn = none) (formed : s.sl.formed = true) (coordinator : s.sl.device = s.sl.coordinator)
    (sealed : s.sl.sealing = none) (calm : s.sl.rolling = none) (first : dueMsg s 1 = none)
    (due : s.sl.lastAdvance + s.sl.timer ≤ s.time ∨ s.sl.requested = true ∧ s.sl.lastAdvance + 250000 ≤ s.time) :
    exec .intervalTimer s = .next (sendAdvance s) := by
  have now : (decide (s.sl.lastAdvance + s.sl.timer ≤ s.time) || s.sl.requested && decide (s.sl.lastAdvance + 250000 ≤ s.time)) = true := by
    simpa using due
  have fires : (s.sl.formed && isCoordinator s && s.sl.sealing.isNone && s.sl.rolling.isNone && (dueMsg s 1).isNone &&
      (decide (s.sl.lastAdvance + s.sl.timer ≤ s.time) || s.sl.requested && decide (s.sl.lastAdvance + 250000 ≤ s.time))) = true := by
    rw [now, formed, isCoordinator, decide_eq_true coordinator, sealed, calm, first]
    rfl
  show execIntervalTimer s = _
  rw [execIntervalTimer, setTimer_none unset]
  exact congrArg Host.Outcome.next (if_pos fires)

theorem exec_intervalTimer_set {n : Nat} (set' : s.timerIn = some n) : ∃ t, exec .intervalTimer s = .next t ∧ t.timerIn = none ∧
    t.sl.timer = if 250000 ≤ n ∧ n ≤ 100000000 then n else s.sl.timer := by
  obtain ⟨taken, timer⟩ := setTimer_some set'
  exact ⟨_, rfl, ite_keeps State.timerIn taken taken, ite_keeps (fun t : State => t.sl.timer) timer timer⟩

theorem exec_sealRequest (got : gotMsg s 4 = g) (due : dueMsg g 4 = some m) (coordinator : g.sl.device = g.sl.coordinator) :
    ∃ t, exec .sealRequest s = .next t ∧ t.sl.requested = true := by
  have role : isCoordinator (takeDue g 4) = true := decide_eq_true coordinator
  refine ⟨{ takeDue g 4 with sl := { (takeDue g 4).sl with requested := true } }, ?_, rfl⟩
  show execSealRequest s = _
  simp only [execSealRequest, got, due, role, if_true]

/-- ADVANCE, once all that it has to freeze can be stopped. -/
theorem exec_advance (got : gotMsg s 1 = g) (due : dueMsg g 1 = some m) (calm : g.sl.rolling = none) (later : rinGt m.rin g.sl.cur = true)
    (sealed : g.sl.sealing = none)
    (stops : ∀ e ∈ toFreeze g, placerBusy g (eventKey .advance) e.2.lease = false ∧ placerStops g e.1 e.2 = true) :
    exec .advance s = .next ((toFreeze g).foldl (fun s e => endStop s e.1) (beginInterval (takeDue g 1) g.sl.cur m.rin)) := by
  have freeze := placerStep_due stops fun s => beginInterval (takeDue s 1) s.sl.cur m.rin
  show execAdvance s = _
  simp only [execAdvance, got, due, calm, later, sealed, Option.isSome_none, Bool.not_true, Bool.false_eq_true, if_false]
  exact congrArg Host.Outcome.next freeze

/-- The ADVANCE after a rollback lets the leases resume. -/
theorem exec_advance_resumes (got : gotMsg s 1 = g) (due : dueMsg g 1 = some m) (rolled : g.sl.rolling ≠ none) (held : m.rin = g.sl.cur) :
    exec .advance s = .next (resumeAll (takeDue g 1)) := by
  have rolling : g.sl.rolling.isSome = true := Option.isSome_iff_ne_none.2 rolled
  show execAdvance s = _
  simp only [execAdvance, got, due, rolling, held, if_true]

theorem resumeAll_patch {u : State} {n : Nat} {p : Patch} (here : u.patch n = some p) (saving : p.st = .saving) :
    (resumeAll u).patch n = some { p with st := p.was, idle := 0 } := by
  have found := tfind_tmap (fun _ p => if p.st = .saving then { p with st := p.was, idle := 0 } else p) u.patches n
  rw [← State.patch, here, Option.map_some, if_pos saving] at found
  exact found

theorem exec_sealMark {p : Nat} {n : Rin} (up : (tgetD s.ports p {}).down = false) : ∃ t, exec (.sealMark p n) s = .next t ∧
    (tgetD t.ports p {}).marked = laterRin n (tgetD s.ports p {}).marked := by
  refine ⟨_, congrArg Host.Outcome.next (if_neg (ne_true_of_eq_false up)), ?_⟩
  exact congrArg Port.marked (tgetD_tmod s.ports p {} fun q => { q with marked := laterRin n q.marked }).1

/-- READY of the last device brings SEALED. -/
theorem exec_ready_last (got : gotMsg s 2 = g) (due : dueMsg g 2 = some m) (coordinator : g.sl.device = g.sl.coordinator)
    (calm : g.sl.rolling = none) (sealing : g.sl.sealing = some m.rin)
    (last : ∀ d ∈ g.sl.members, d = m.device.toNat ∨ d ∈ g.sl.readyFrom) : ∃ u, exec .ready s = .next (broadcast u 3 m.rin) := by
  have role : isCoordinator g = true := decide_eq_true coordinator
  have all : (takeDue g 2).sl.members.all (m.device.toNat :: (takeDue g 2).sl.readyFrom).eraseDups.contains = true := by
    simpa [List.all_eq_true, takeDue] using last
  refine ⟨?after, ?eq⟩
  case eq =>
    show execReady s = _
    simp only [execReady, got, due, role, calm, sealing, all, Option.isSome_none, Bool.not_true, ne_eq, not_true, Bool.or_self,
      Bool.false_eq_true, if_true, if_false]
    rfl

/-- A device that may sends its own READY. -/
theorem exec_ready_own {n : Rin} (got : gotMsg s 2 = g) (none' : dueMsg g 2 = none) (sealing : g.sl.sealing = some n)
    (calm : g.sl.rolling = none) (may : mayReady g n = true) : exec .ready s =
      .next (toCoordinator { drainForReady g n with sl := { (drainForReady g n).sl with readySent := true } } 2 false n) := by
  show execReady s = _
  simp only [execReady, got, none', sealing, calm, may, Option.isSome_none, Bool.not_true, Bool.or_self, Bool.false_eq_true, if_false]

theorem exec_sealed (got : gotMsg s 3 = g) (due : dueMsg g 3 = some m) : exec .sealed s =
    .next (if g.sl.sealing = some m.rin then releaseSealed (takeDue g 3) m.rin else takeDue g 3) := by
  show execSealed s = _
  simp only [execSealed, got, due]

/-- A seal that is open for 100 ms is reported, and stays open. -/
theorem exec_sealLate {n : Rin} (sealing : s.sl.sealing = some n) (late : s.sl.openSince + 100000000 ≤ s.time) :
    ∃ t, exec .sealLate s = .next t ∧ t.sl.openSince = s.time ∧ t.sl.sealing = some n := by
  obtain ⟨mem, events, told⟩ := pfEvent_eq s 3 0 (sealBytes { sealMsg s 3 false n with device := BitVec.ofNat 12 s.sl.coordinator })
  refine ⟨{ s with mem := mem, events := events, sl := { s.sl with openSince := s.time } }, ?_, rfl, sealing⟩
  show execSealLate s = _
  simp only [execSealLate, sealing, late, told, if_true]

end

/-- Settles O39: each message acts once it is due, by the state of the protocol at the device. -/
theorem sealProtocol : Obligations.SealProtocol := by
  unfold Obligations.SealProtocol
  intro s g m
  refine ⟨fun unset formed coordinator sealed calm first due => exec_intervalTimer_advances unset formed coordinator sealed calm first (.inl due),
    fun unset formed coordinator sealed calm first asked due =>
      exec_intervalTimer_advances unset formed coordinator sealed calm first (.inr ⟨asked, due⟩),
    fun n => exec_intervalTimer_set, exec_sealRequest, fun got due calm later sealed stops => ?_, fun got due rolled held => ?_,
    fun p n => exec_sealMark, fun got due coordinator calm sealing last => ?_, fun n => exec_ready_own, fun got due sealing => ?_,
    fun got due other => ?_, fun n => exec_sealLate, fun ty arrived other => ?_⟩
  · obtain ⟨cur, sealing, ready, sent⟩ := beginInterval_seal (takeDue g 1) g.sl.cur m.rin
    obtain ⟨sl, ports⟩ := foldl_endStop_seal (toFreeze g) (beginInterval (takeDue g 1) g.sl.cur m.rin)
    refine ⟨_, exec_advance got due calm later sealed stops, rfl, ?_, ?_, ?_, ?_⟩
    · rw [sl, cur]
    · rw [sl, sealing]
    · rw [sl, ready]
    · rw [ports]
      exact sent
  · exact ⟨_, exec_advance_resumes got due rolled held, rfl, fun n p here saving => resumeAll_patch here saving⟩
  · obtain ⟨u, hu⟩ := exec_ready_last got due coordinator calm sealing last
    exact ⟨_, hu, dueMsg_broadcast u (by decide) m.rin⟩
  · rw [exec_sealed got due, if_pos sealing]
  · rw [exec_sealed got due, if_neg other]
  · have discarded : ¬ (m.ty.toNat = ty ∧ m.domain = s.sl.domain ∧ s.sl.formed = true) := fun ⟨type, domain, formed⟩ =>
      other.elim (· type) fun other => other.elim (· domain) fun open' => Bool.false_ne_true (open'.symm.trans formed)
    rw [gotMsg, arrived]
    exact if_neg discarded

end Sys2Proof.Proofs

/-! ### The state after a cold reset (R301, R312, R388) -/

namespace Sys2Proof.Proofs

open Sys2Proof.Machine Sys2Proof.Safety

/-- The memories are blank, the token is at its first node, device time is 0. -/
theorem formed_reset : Formed State.reset := ⟨rfl, rfl, rfl, by decide, Nat.two_pow_pos 64⟩

/-- Settles O56: nothing is listed, so that every entry is blank. -/
theorem resetState : Obligations.ResetState := by
  unfold Obligations.ResetState
  exact ⟨formed_reset, fun _ => rfl, fun _ => rfl, fun _ => rfl, fun _ => ⟨rfl, rfl, fun _ => rfl⟩, rfl, rfl, rfl, rfl, rfl, rfl, rfl, rfl, rfl⟩

end Sys2Proof.Proofs

/-! ### The form that every step keeps (R288, R346) -/

namespace Sys2Proof.Proofs

open Sys2Proof.Machine Sys2Proof.Safety

/-- Every instruction and every event keeps the form, each by the lemma about its own arm. -/
theorem exec_formed {s : State} (h : Formed s) (i : Instr) : OutFormed (exec i s) :=
  match i with
  | .packetWrite x0 x1 x2 x3 => execPacketWrite_formed x0 x1 x2 x3 _ h | .resume x0 x1 x2 => execResume_formed x0 x1 x2 _ h
  | .chead x0 x1 x2 => execChead_formed x0 x1 x2 _ h | .registerWrite x0 x1 x2 x3 => execRegisterWrite_formed x0 x1 x2 x3 _ h
  | .ingest x0 => execIngest_formed x0 _ h | .move x0 x1 x2 => execMove_formed x0 x1 x2 _ h | .press x0 => execPress_formed x0 _ h
  | .evict x0 => execEvict_formed x0 _ h | .restore x0 x1 x2 => execRestore_formed x0 x1 x2 _ h | .rinse x0 => execRinse_formed x0 _ h
  | .rinseDone x0 => execRinseDone_formed x0 _ h | .darn x0 x1 => execDarn_formed x0 x1 _ h
  | .stripCoreFailure x0 => execStripCoreFailure_formed x0 _ h | .misrouteReportTimer x0 x1 => execMisrouteReportTimer_formed x0 x1 _ h
  | .pleatHandshakeStep x0 => execPleatHandshakeStep_formed x0 _ h | .contextRequest x0 x1 => execContextRequest_formed x0 x1 _ h
  | .contextTransition x0 => execContextTransition_formed x0 _ h | .taskStart x0 x1 => execTaskStart_formed x0 x1 _ h
  | .tspawnRequest x0 x1 => execTspawnRequest_formed x0 x1 _ h | .issueGrant x0 x1 x2 => execIssueGrant_formed x0 x1 x2 _ h
  | .weightRecompute x0 => execWeightRecompute_formed x0 _ h | .blockFetch x0 x1 => execBlockFetch_formed x0 x1 _ h
  | .blockCommit x0 x1 => execBlockCommit_formed x0 x1 _ h | .pinnedInstanceStart x0 x1 => execPinnedInstanceStart_formed x0 x1 _ h
  | .flitArrival x0 x1 => execFlitArrival_formed x0 x1 _ h | .steer x0 x1 => execSteer_formed x0 x1 _ h
  | .merge x0 x1 => execMerge_formed x0 x1 _ h | .carry x0 x1 => execCarry_formed x0 x1 _ h
  | .reorder x0 x1 => execReorder_formed x0 x1 _ h | .spillStart x0 x1 => execSpillStart_formed x0 x1 _ h
  | .spillReturn x0 x1 => execSpillReturn_formed x0 x1 _ h | .stallReport x0 => execStallReport_formed x0 _ h
  | .tlbWalk x0 x1 => execTlbWalk_formed x0 x1 _ h | .genReply x0 => execGenReply_formed x0 _ h
  | .copyWalk x0 x1 => execCopyWalk_formed x0 x1 _ h | .mangleRunStart x0 => execMangleRunStart_formed x0 _ h
  | .mangleTile x0 x1 x2 => execMangleTile_formed x0 x1 x2 _ h | .mangleSwapEffect x0 => execMangleSwapEffect_formed x0 _ h
  | .mangleFenceEffect x0 => execMangleFenceEffect_formed x0 _ h | .mloadFill x0 => execMloadFill_formed x0 _ h
  | .undoStallTimeout x0 x1 => execUndoStallTimeout_formed x0 x1 _ h | .patrolSweep x0 => execPatrolSweep_formed x0 _ h
  | .sealMark x0 x1 => execSealMark_formed x0 x1 _ h | .faultStop x0 => execFaultStop_formed x0 _ h
  | .residueMismatch x0 x1 x2 => execResidueMismatch_formed x0 x1 x2 _ h | .preemptResume x0 => execPreemptResume_formed x0 _ h
  | .worldSwitch x0 x1 => execWorldSwitch_formed x0 x1 _ h | .peerFlitArrival x0 x1 => execPeerFlitArrival_formed x0 x1 _ h
  | .peerPortDown x0 => execPeerPortDown_formed x0 _ h | .hostWindowWrite x0 x1 x2 => execHostWindowWrite_formed x0 x1 x2 _ h
  | .hostWindowRead x0 x1 x2 => execHostWindowRead_formed x0 x1 x2 _ h | .snapshotLoRead x0 x1 => execSnapshotLoRead_formed x0 x1 _ h
  | .snapshotHiRead x0 x1 => execSnapshotHiRead_formed x0 x1 _ h | .meterWindow x0 => execMeterWindow_formed x0 _ h
  | .eventRingEn x0 => execEventRingEn_formed x0 _ h | .eventRingHead x0 => execEventRingHead_formed x0 _ h
  | .injectControl x0 => execInjectControl_formed x0 _ h | .throttle x0 x1 => execThrottle_formed x0 x1 _ h
  | .throttleRecover x0 => execThrottleRecover_formed x0 _ h | .peerPortRecover x0 => execPeerPortRecover_formed x0 _ h
  | .functionLevelReset x0 => execFunctionLevelReset_formed x0 _ h | .numvfs x0 => execNumvfs_formed x0 _ h
  | .serialisingToken x0 => execSerialisingToken_formed x0 _ h | .uncorrectableError x0 => execUncorrectableError_formed x0 _ h
  | .exitB x0 x1 => execExitB_formed x0 x1 _ h | .exitJ x0 => execExitJ_formed x0 _ h | .exitC x0 x1 => execExitC_formed x0 x1 _ h
  | .exitCi x0 => execExitCi_formed x0 _ h | .exitRet x0 => execExitRet_formed x0 _ h | .exitT x0 => execExitT_formed x0 _ h
  | .exitY x0 x1 => execExitY_formed x0 x1 _ h | .nullw x0 => execNullw_formed x0 _ h | .nulls x0 x1 => execNulls_formed x0 x1 _ h
  | .movi x0 x1 x2 => execMovi_formed x0 x1 x2 _ h | .movh x0 x1 => execMovh_formed x0 x1 _ h | .mov x0 => execMov_formed x0 _ h
  | .getid x0 x1 => execGetid_formed x0 x1 _ h | .constk x0 x1 => execConstk_formed x0 x1 _ h | .pand x0 => execPand_formed x0 _ h
  | .por x0 => execPor_formed x0 _ h | .pxor x0 => execPxor_formed x0 _ h | .pnot x0 => execPnot_formed x0 _ h
  | .sel x0 x1 => execSel_formed x0 x1 _ h | .lmask x0 x1 => execLmask_formed x0 x1 _ h | .anyl x0 x1 => execAnyl_formed x0 x1 _ h
  | .alll x0 x1 => execAlll_formed x0 x1 _ h | .test x0 x1 x2 x3 => execTest_formed x0 x1 x2 x3 _ h
  | .add x0 x1 x2 => execAdd_formed x0 x1 x2 _ h | .sub x0 x1 x2 => execSub_formed x0 x1 x2 _ h
  | .adds x0 x1 x2 => execAdds_formed x0 x1 x2 _ h | .subs x0 x1 x2 => execSubs_formed x0 x1 x2 _ h
  | .mul x0 x1 x2 => execMul_formed x0 x1 x2 _ h | .mulh x0 x1 x2 => execMulh_formed x0 x1 x2 _ h
  | .mulhz x0 x1 x2 => execMulhz_formed x0 x1 x2 _ h | .mad x0 x1 x2 => execMad_formed x0 x1 x2 _ h
  | .div x0 x1 x2 => execDiv_formed x0 x1 x2 _ h | .divz x0 x1 x2 => execDivz_formed x0 x1 x2 _ h
  | .rem x0 x1 x2 => execRem_formed x0 x1 x2 _ h | .remz x0 x1 x2 => execRemz_formed x0 x1 x2 _ h
  | .and x0 x1 x2 => execAnd_formed x0 x1 x2 _ h | .or x0 x1 x2 => execOr_formed x0 x1 x2 _ h
  | .xor x0 x1 x2 => execXor_formed x0 x1 x2 _ h | .andn x0 x1 x2 => execAndn_formed x0 x1 x2 _ h
  | .orn x0 x1 x2 => execOrn_formed x0 x1 x2 _ h | .shl x0 x1 x2 => execShl_formed x0 x1 x2 _ h
  | .shr x0 x1 x2 => execShr_formed x0 x1 x2 _ h | .sar x0 x1 x2 => execSar_formed x0 x1 x2 _ h
  | .rol x0 x1 x2 => execRol_formed x0 x1 x2 _ h | .clz x0 x1 => execClz_formed x0 x1 _ h | .ctz x0 x1 => execCtz_formed x0 x1 _ h
  | .popc x0 x1 => execPopc_formed x0 x1 _ h | .brev x0 x1 => execBrev_formed x0 x1 _ h | .bswap x0 x1 => execBswap_formed x0 x1 _ h
  | .ext x0 x1 x2 => execExt_formed x0 x1 x2 _ h | .extz x0 x1 x2 => execExtz_formed x0 x1 x2 _ h
  | .ins x0 x1 x2 => execIns_formed x0 x1 x2 _ h | .min x0 x1 x2 => execMin_formed x0 x1 x2 _ h
  | .max x0 x1 x2 => execMax_formed x0 x1 x2 _ h | .minz x0 x1 x2 => execMinz_formed x0 x1 x2 _ h
  | .maxz x0 x1 x2 => execMaxz_formed x0 x1 x2 _ h | .abs x0 x1 => execAbs_formed x0 x1 _ h | .neg x0 x1 => execNeg_formed x0 x1 _ h
  | .lea x0 x1 x2 => execLea_formed x0 x1 x2 _ h | .fadd x0 x1 x2 => execFadd_formed x0 x1 x2 _ h
  | .fsub x0 x1 x2 => execFsub_formed x0 x1 x2 _ h | .fmul x0 x1 x2 => execFmul_formed x0 x1 x2 _ h
  | .ffma x0 x1 x2 => execFfma_formed x0 x1 x2 _ h | .ffms x0 x1 x2 => execFfms_formed x0 x1 x2 _ h
  | .fnma x0 x1 x2 => execFnma_formed x0 x1 x2 _ h | .fmin x0 x1 x2 => execFmin_formed x0 x1 x2 _ h
  | .fmax x0 x1 x2 => execFmax_formed x0 x1 x2 _ h | .fabs x0 x1 => execFabs_formed x0 x1 _ h | .fneg x0 x1 => execFneg_formed x0 x1 _ h
  | .fcpys x0 x1 x2 => execFcpys_formed x0 x1 x2 _ h | .ftest x0 x1 x2 => execFtest_formed x0 x1 x2 _ h
  | .fclass x0 x1 x2 => execFclass_formed x0 x1 x2 _ h | .fcvt x0 x1 x2 => execFcvt_formed x0 x1 x2 _ h
  | .icvtf x0 x1 x2 => execIcvtf_formed x0 x1 x2 _ h | .fcvti x0 x1 x2 => execFcvti_formed x0 x1 x2 _ h
  | .frcp x0 x1 => execFrcp_formed x0 x1 _ h | .frsq x0 x1 => execFrsq_formed x0 x1 _ h | .fsqrt x0 x1 => execFsqrt_formed x0 x1 _ h
  | .fdiv x0 x1 x2 => execFdiv_formed x0 x1 x2 _ h | .fexp2 x0 x1 => execFexp2_formed x0 x1 _ h
  | .flog2 x0 x1 => execFlog2_formed x0 x1 _ h | .fsinp x0 x1 => execFsinp_formed x0 x1 _ h | .fcosp x0 x1 => execFcosp_formed x0 x1 _ h
  | .ftanh x0 x1 => execFtanh_formed x0 x1 _ h | .dot x0 x1 x2 => execDot_formed x0 x1 x2 _ h
  | .pack x0 x1 x2 => execPack_formed x0 x1 x2 _ h | .unpack x0 x1 x2 => execUnpack_formed x0 x1 x2 _ h
  | .scaleb x0 x1 x2 => execScaleb_formed x0 x1 x2 _ h | .quant x0 x1 x2 => execQuant_formed x0 x1 x2 _ h
  | .perm x0 x1 x2 => execPerm_formed x0 x1 x2 _ h | .rotl x0 x1 x2 x3 => execRotl_formed x0 x1 x2 x3 _ h
  | .shfl x0 x1 x2 x3 => execShfl_formed x0 x1 x2 x3 _ h | .bcastl x0 x1 x2 => execBcastl_formed x0 x1 x2 _ h
  | .redl x0 x1 x2 x3 x4 => execRedl_formed x0 x1 x2 x3 x4 _ h | .scanl x0 x1 x2 x3 x4 x5 => execScanl_formed x0 x1 x2 x3 x4 x5 _ h
  | .compr x0 x1 => execCompr_formed x0 x1 _ h | .expnd x0 x1 x2 => execExpnd_formed x0 x1 x2 _ h
  | .lsel x0 x1 => execLsel_formed x0 x1 _ h | .iota x0 x1 x2 x3 => execIota_formed x0 x1 x2 x3 _ h
  | .accs x0 x1 x2 x3 x4 => execAccs_formed x0 x1 x2 x3 x4 _ h | .stopk x0 x1 => execStopk_formed x0 x1 _ h
  | .tkind x0 => execTkind_formed x0 _ h | .redn x0 x1 x2 x3 x4 x5 => execRedn_formed x0 x1 x2 x3 x4 x5 _ h
  | .lds x0 x1 x2 => execLds_formed x0 x1 x2 _ h | .sts x0 x1 x2 => execSts_formed x0 x1 x2 _ h
  | .ldt x0 x1 x2 => execLdt_formed x0 x1 x2 _ h | .stt x0 x1 x2 => execStt_formed x0 x1 x2 _ h
  | .ldg x0 x1 x2 x3 => execLdg_formed x0 x1 x2 x3 _ h | .stg x0 x1 x2 x3 => execStg_formed x0 x1 x2 x3 _ h
  | .ldgv x0 x1 x2 x3 => execLdgv_formed x0 x1 x2 x3 _ h | .stgv x0 x1 x2 x3 => execStgv_formed x0 x1 x2 x3 _ h
  | .prf x0 x1 x2 => execPrf_formed x0 x1 x2 _ h | .ldn x0 x1 x2 => execLdn_formed x0 x1 x2 _ h
  | .stn x0 x1 x2 => execStn_formed x0 x1 x2 _ h | .atms x0 x1 x2 x3 => execAtms_formed x0 x1 x2 x3 _ h
  | .atmg x0 x1 x2 x3 => execAtmg_formed x0 x1 x2 x3 _ h | .atmn x0 x1 x2 x3 => execAtmn_formed x0 x1 x2 x3 _ h
  | .cctlWb x0 x1 => execCctlWb_formed x0 x1 _ h | .cctlInv x0 x1 => execCctlInv_formed x0 x1 _ h
  | .cctlWbinv x0 x1 => execCctlWbinv_formed x0 x1 _ h | .cctlWball x0 x1 => execCctlWball_formed x0 x1 _ h
  | .cctlInvall x0 x1 => execCctlInvall_formed x0 x1 _ h | .cpy x0 x1 => execCpy_formed x0 x1 _ h
  | .cpyqf x0 x1 x2 x3 => execCpyqf_formed x0 x1 x2 x3 _ h | .tagw x0 x1 x2 => execTagw_formed x0 x1 x2 _ h
  | .tagff x0 x1 => execTagff_formed x0 x1 _ h | .tagclr x0 => execTagclr_formed x0 _ h | .tagrd x0 x1 => execTagrd_formed x0 x1 _ h
  | .mload x0 x1 => execMload_formed x0 x1 _ h | .mswap x0 => execMswap_formed x0 _ h | .marm x0 x1 => execMarm_formed x0 x1 _ h
  | .mfence x0 => execMfence_formed x0 _ h | .mwait x0 => execMwait_formed x0 _ h | .mchk x0 x1 => execMchk_formed x0 x1 _ h
  | .mzero x0 => execMzero_formed x0 _ h | .pleat x0 => execPleat_formed x0 _ h | .pleatw x0 => execPleatw_formed x0 _ h
  | .pleatq x0 => execPleatq_formed x0 _ h | .occ x0 x1 => execOcc_formed x0 x1 _ h | .swm x0 => execSwm_formed x0 _ h
  | .rinr x0 x1 => execRinr_formed x0 x1 _ h | .sealpt x0 => execSealpt_formed x0 _ h | .sealw x0 => execSealw_formed x0 _ h
  | .sealrqNowait x0 => execSealrqNowait_formed x0 _ h | .sealrqWait x0 => execSealrqWait_formed x0 _ h
  | .stx x0 x1 x2 => execStx_formed x0 x1 x2 _ h | .stxIrr x0 x1 x2 => execStxIrr_formed x0 x1 x2 _ h | .escw x0 => execEscw_formed x0 _ h
  | .fenceAcq x0 x1 => execFenceAcq_formed x0 x1 _ h | .fenceRel x0 x1 => execFenceRel_formed x0 x1 _ h
  | .fenceBoth x0 x1 => execFenceBoth_formed x0 x1 _ h | .fenceSc x0 x1 => execFenceSc_formed x0 x1 _ h
  | .arrive x0 x1 x2 x3 => execArrive_formed x0 x1 x2 x3 _ h | .waitb x0 x1 x2 => execWaitb_formed x0 x1 x2 _ h
  | .bar x0 => execBar_formed x0 _ h | .waitm x0 x1 x2 => execWaitm_formed x0 x1 x2 _ h | .send x0 x1 x2 => execSend_formed x0 x1 x2 _ h
  | .recv x0 x1 => execRecv_formed x0 x1 _ h | .bind x0 x1 x2 => execBind_formed x0 x1 x2 _ h
  | .waitc x0 x1 x2 => execWaitc_formed x0 x1 x2 _ h | .tspawn x0 x1 => execTspawn_formed x0 x1 _ h | .tstat x0 => execTstat_formed x0 _ h
  | .qpost x0 x1 => execQpost_formed x0 x1 _ h | .constw x0 x1 x2 x3 x4 => execConstw_formed x0 x1 x2 x3 x4 _ h
  | .markt x0 x1 => execMarkt_formed x0 x1 _ h | .trap x0 x1 => execTrap_formed x0 x1 _ h | .brk x0 x1 => execBrk_formed x0 x1 _ h
  | .csrr x0 x1 => execCsrr_formed x0 x1 _ h | .csrw x0 x1 => execCsrw_formed x0 x1 _ h | .svcHemlint x0 => execSvcHemlint_formed x0 _ h
  | .svcStalelint x0 => execSvcStalelint_formed x0 _ h | .svcRollbacks x0 => execSvcRollbacks_formed x0 _ h
  | .svcIdent x0 => execSvcIdent_formed x0 _ h | .svcNotify x0 => execSvcNotify_formed x0 _ h
  | .svcReserved x0 x1 => execSvcReserved_formed x0 x1 _ h | .rdcyc x0 => execRdcyc_formed x0 _ h | .rdtime x0 => execRdtime_formed x0 _ h
  | .nop x0 => execNop_formed x0 _ h | .validate => execValidate_formed _ h | .depend => execDepend_formed _ h
  | .dependenceReread => execDependenceReread_formed _ h | .place => execPlace_formed _ h | .priorityAging => execPriorityAging_formed _ h
  | .fill => execFill_formed _ h | .launchStage => execLaunchStage_formed _ h | .complete => execComplete_formed _ h
  | .launch => execLaunch_formed _ h | .wait => execWait_formed _ h | .signal => execSignal_formed _ h | .copy => execCopy_formed _ h
  | .sealrq => execSealrq_formed _ h | .leaseRequest => execLeaseRequest_formed _ h | .leaseResize => execLeaseResize_formed _ h
  | .leaseLend => execLeaseLend_formed _ h | .leaseRecall => execLeaseRecall_formed _ h | .leaseRelease => execLeaseRelease_formed _ h
  | .marker => execMarker_formed _ h | .placerPlace => execPlacerPlace_formed _ h | .map => execMap_formed _ h
  | .unmap => execUnmap_formed _ h | .protect => execProtect_formed _ h | .migrate => execMigrate_formed _ h
  | .debug => execDebug_formed _ h | .dresume => execDresume_formed _ h | .profopen => execProfopen_formed _ h
  | .profclose => execProfclose_formed _ h | .peerbind => execPeerbind_formed _ h | .peerunbind => execPeerunbind_formed _ h
  | .window => execWindow_formed _ h | .faults => execFaults_formed _ h | .report => execReport_formed _ h
  | .attest => execAttest_formed _ h | .qconf => execQconf_formed _ h | .vfconf => execVfconf_formed _ h | .pair => execPair_formed _ h
  | .lmigrate => execLmigrate_formed _ h | .domain => execDomain_formed _ h | .dremove => execDremove_formed _ h
  | .owner => execOwner_formed _ h | .pwrcap => execPwrcap_formed _ h | .advance => execAdvance_formed _ h
  | .ready => execReady_formed _ h | .sealed => execSealed_formed _ h | .sealRequest => execSealRequest_formed _ h
  | .poison => execPoison_formed _ h | .rollback => execRollback_formed _ h | .rolled => execRolled_formed _ h
  | .meterReset => execMeterReset_formed _ h | .keyroll => execKeyroll_formed _ h | .firmwareTransfer => execFirmwareTransfer_formed _ h
  | .firmwareActivate => execFirmwareActivate_formed _ h | .coldReset => execColdReset_formed _ h
  | .intervalTimer => execIntervalTimer_formed _ h | .sealLate => execSealLate_formed _ h

/-- A step runs at most one thing, once the clock has moved on and the input has been brought. -/
theorem step_formed {s : State} (h : Formed s) : OutFormed (step s) := by
  have clocked : Formed (clock s) := clock_formed s h
  unfold step
  dsimp only
  split
  · split
    · exact exec_formed (formed_mk.2 (forms_of_formed clocked)) _
    · exact outFormed_next.2 (formed_mk.2 (forms_of_formed clocked))
  · split
    · split
      · exact exec_formed (bring_formed _ _ (formed_mk.2 (forms_of_formed clocked))) _
      · exact outFormed_fault _
    · split
      · exact exec_formed (bring_formed _ _ clocked) _
      · exact outFormed_next.2 clocked

/-- Settles O60: each arm of a step keeps the form, as the clock and the bringing of an input do. -/
theorem stepKeepsForm : Obligations.StepKeepsForm := by
  unfold Obligations.StepKeepsForm
  exact fun s t formed stepped => step_formed formed t stepped

end Sys2Proof.Proofs
